-- ==== Sys2Proof/Word.lean ====
section
/-! DEFINITION. The word types of the module and their plainest arithmetic: bytes, 32-bit register words, 48-bit
positions, little-endian packing, bit fields of a number, and lists used as small arrays. -/

namespace Sys2Proof

/-- One byte. -/
abbrev Byte := BitVec 8
/-- One register word (R554: registers are 32-bit words). -/
abbrev Word := BitVec 32
/-- One scalar register or instruction word (R188, R214). -/
abbrev DWord := BitVec 64
/-- A belt position: a 48-bit count that wraps (R34, R413). -/
abbrev Pos := BitVec 48

/-- Bits `[lo + w - 1 : lo]` of a number. -/
def bits (n lo w : Nat) : Nat := (n >>> lo) % 2 ^ w

/-- Bit `i` of a number. -/
def bitOf (n i : Nat) : Bool := n.testBit i

/-- `n` with bits `[lo + w - 1 : lo]` replaced by `v`. -/
def setBits (n lo w v : Nat) : Nat :=
  n - (bits n lo w) * 2 ^ lo + (v % 2 ^ w) * 2 ^ lo

/-- The number of a Bool: 1 or 0. -/
def b2n (b : Bool) : Nat := if b then 1 else 0

/-- A `w`-bit number read as two's complement. -/
def signed (w n : Nat) : Int :=
  let m := n % 2 ^ w
  if m < 2 ^ (w - 1) then (m : Int) else (m : Int) - (2 ^ w : Nat)

/-- An integer reduced to `w` bits. -/
def wrapTo (w : Nat) (i : Int) : Nat := (i % ((2 ^ w : Nat) : Int)).toNat

/-- The `n` bytes of `v`, least significant first (all fields are little-endian, R54, R184). -/
def leBytes : Nat → Nat → List Byte
  | 0, _ => []
  | n + 1, v => BitVec.ofNat 8 v :: leBytes n (v / 256)

/-- The number that little-endian bytes hold. -/
def ofLe : List Byte → Nat
  | [] => 0
  | b :: bs => b.toNat + 256 * ofLe bs

/-- The `n` bytes of `v`, most significant first (stream headers, R460). -/
def beBytes (n v : Nat) : List Byte := (leBytes n v).reverse

/-- The little-endian number of `n` bytes at offset `o` of a byte list; bytes past the end read zero. -/
def leAt (bs : List Byte) (o n : Nat) : Nat := ofLe ((bs.drop o).take n)

/-- Pads a byte list with zeros to length `n`, or cuts it there. -/
def padTo (n : Nat) (bs : List Byte) : List Byte := (bs ++ List.replicate (n - bs.length) 0).take n

/-- Signed difference of two positions modulo 2^48 (R34, R413). -/
def posDiff (a b : Pos) : Int := (a - b).toInt

/-- Position `a` has reached `b`: the signed difference is zero or positive (R413). -/
def reached (a b : Pos) : Bool := decide (0 ≤ posDiff a b)

/-- Element `i` of a list used as an array, `d` past its end. -/
def at' {α : Type} (d : α) (l : List α) (i : Nat) : α := l.getD i d

/-- Replaces the first element that satisfies `p` by its image. -/
def updFirst {α : Type} (p : α → Bool) (f : α → α) : List α → List α
  | [] => []
  | x :: xs => if p x then f x :: xs else x :: updFirst p f xs

/-- Replaces every element that satisfies `p` by its image. -/
def updAll {α : Type} (p : α → Bool) (f : α → α) (l : List α) : List α :=
  l.map fun x => if p x then f x else x

/-- Removes the first element that satisfies `p`. -/
def dropFirst {α : Type} (p : α → Bool) : List α → List α
  | [] => []
  | x :: xs => if p x then xs else x :: dropFirst p xs

/-- Ceiling of a quotient; 0 for a zero divisor. -/
def ceilDiv (a b : Nat) : Nat := (a + b - 1) / b

/-- Exact division rounded once, half to even (R320, R425 and others); `d` is positive. -/
def divHalfEven (n : Int) (d : Nat) : Int :=
  let q := n.fdiv d
  let r := n - q * d
  if 2 * r < d then q
  else if 2 * r > d then q + 1
  else if q % 2 = 0 then q else q + 1

/-- Clamps an integer to an interval. -/
def clampI (lo hi x : Int) : Int := max lo (min hi x)

end Sys2Proof
end

