-- ==== Sys2Proof/Syntax.lean ====
section
/-! DEFINITION. The commands of the module: one constructor of `Instr` for each row of the opcode table (each row is one
indivisible step, 95_what_each_step_holds.md), with the operands that the outside supplies for that step. -/

namespace Sys2Proof

/-- Who writes or reads a register (R552, R559). -/
inductive Writer where
  | host    -- through BAR0 (BAR4 for the alias rows)
  | complex -- the control complex, at 0xF0_0000_0000
  deriving DecidableEq, Repr

/-- An instruction word of the sequencer: the fields of the base word but its opcode (R215), and the extension word. -/
structure Iw where
  long : Bool          -- [8] L
  pe : Bool            -- [9]
  pn : Bool            -- [10]
  pg : Nat             -- [13:11]
  q : Nat              -- [15:14]
  func : Nat           -- [19:16]
  fd : Nat             -- [24:20]
  fa : Nat             -- [29:25]
  fb : Nat             -- [34:30]
  fc : Nat             -- [39:35]
  imm : BitVec 24      -- [63:40]
  x : DWord            -- the extension word X, zero when L is 0
  deriving DecidableEq, Repr

/-- An access to device memory: a read of `len` bytes or a write of bytes (R74, R108, R472, R493). -/
inductive Access where
  | read (addr len : Nat)
  | write (addr : Nat) (bytes : List Byte)
  deriving DecidableEq, Repr

/-- What SEC-DED finds in one stored 64-bit word while a row reads it (R76, R77): the word's number (address / 8) and
whether the error is uncorrectable. -/
structure EccHit where
  word : Nat
  double : Bool
  deriving DecidableEq, Repr

/-- Where a sequencer row runs, and what the core's checkers find while it runs: a parity error in its registers or queue entries
(R143), SEC-DED findings in tile-buffer words (R124; offset / 8) and in Square words (R76, R77). -/
structure CoreRun where
  n : Nat
  parity : Bool
  tb : List EccHit
  sq : List EccHit
  deriving DecidableEq, Repr

/-- What the memories answer while a row reads and writes them: the SEC-DED findings in the Square and LPDDR-6 words that it reads (R76,
R77, R109), and the transfer to host memory, counted in 64-byte entries or in accesses from 0, at which the link answers with an
unsupported request, a completer abort, a poisoned completion or a timeout (R469). -/
structure MemRun where
  ecc : List EccHit
  abort : Option Nat
  deriving DecidableEq, Repr

/-- What an AUX port's pins hold at one edge of its pixel clock: the edge, AUX_D, AUX_FV, AUX_LV and AUX_DV (R301). -/
structure AuxEdge where
  rising : Bool
  d : Nat
  fv : Bool
  lv : Bool
  dv : Bool
  deriving DecidableEq, Repr

/-- A CoaXPress stream packet of the supported subset, or anything else (R294, R295, R303, R307). -/
inductive StreamPacket where
  | header (fmt phase : Nat)           -- a rectangular image header with its pixel format and Bayer phase, coded as CXP_FMT
  | line (pixels : List Nat)           -- one line of raw pixel values
  | imageEnd                           -- the image of the last header ends
  | other                              -- a packet type outside the subset
  deriving DecidableEq, Repr

/-- One symbol that a barcode engine decodes (R359). -/
structure Symbol where
  code : Nat                -- symbology code of R354
  flags : Nat               -- correction applied, mirrored, structured append (R359)
  corrected : Nat           -- codewords corrected
  corners : List Byte       -- 32 bytes of corner coordinates
  data : List Byte
  deriving DecidableEq, Repr

/-- How the far endpoint of a copy answers at one row (R248, R469, R493): a host endpoint with HOST_ABORT; a peer not at all (0), with an
error (1) or with POISON (2). -/
structure FarEnd where
  row : Nat
  answer : Nat
  deriving DecidableEq, Repr

/-- One flit that arrives on a Boulevard port (R485, R486). -/
structure Flit where
  crcOk : Bool              -- its CRC-32C holds
  wordOk : Bool             -- its codewords were correctable
  corrected : Nat           -- symbols that FEC corrected in them
  vc : Nat
  seqNo : Nat               -- 12-bit sequence number
  ack : Nat                 -- flits acknowledged
  credits : List Nat        -- credits returned for VC0, VC1 and VC2
  replay : Bool             -- it asks for a replay of what is not acknowledged
  deriving DecidableEq, Repr

/-- What the sensors and meters read when a power row happens (R501, R505). -/
structure Meter where
  power : Nat               -- averaged power in 0.1 W
  eboux : Int               -- hottest Eboux sensor, degrees C
  ouvfi : Int               -- Ouvfi sensor
  place : Nat               -- hottest sensor's number
  deriving DecidableEq, Repr

/-- A unit behind an isolation wrapper (R517, R518). -/
inductive BlockUnit where
  | ip (k : Nat) | group (g : Nat) | blv (p : Nat) | cp (n : Nat)
  deriving DecidableEq, Repr

/-- Whose access it is (R107, R510): that of a unit which only sees the answer, of the task on a core, or of the job that an engine runs. -/
inductive Requester where
  | unit | core (n : Nat) | job (kind eng : Nat)
  deriving DecidableEq, Repr

/-- A disagreement found while the fuse shadows are loaded (R534): copy 0-2 of register `off` holds `value`. -/
structure Upset where
  copy : Nat
  off : Nat
  value : Word
  deriving DecidableEq, Repr

/-- The commands, in the opcode table's order. -/
inductive Instr where
  | registerWrite (w : Writer) (off : Nat) (enables : Nat) (v : Word)
  | statusRegisterClear (w : Writer) (off : Nat) (v : Word)
  | latchGroupRead (w : Writer) (off n : Nat)
  | snapLatch (w : Writer) (off : Nat) (v : Word)
  | glbSnapAll (w : Writer) (v : Word)
  | ouvfiSnapLatch
  | bar4AliasWrite (off size : Nat) (v : Word)
  | glbSemTestAndSet (off size : Nat)
  | glbModeWrite (w : Writer) (v : Word)
  | timIncLoWrite (w : Writer) (v : Word)
  | timIncHiWrite (w : Writer) (v : Word)
  | subRingEnable (w : Writer)
  | resRingEnable (w : Writer)
  | evtRingEnable (w : Writer)
  | resCidxWrite (w : Writer) (v : Word)
  | evtCidxWrite (w : Writer) (v : Word)
  | itemSourceWrite (w : Writer) (n : Nat) (v : Word)
  | subRingPoll (m : MemRun)
  | subNop
  | subLoadProgram (m : MemRun)
  | programLoadComplete (m : MemRun)
  | subUnload
  | unloadComplete
  | subOpenItem
  | subQuota (m : MemRun)
  | policyPriority (m : MemRun)
  | policyPortBinding (m : MemRun)
  | policyReplayStop (m : MemRun)
  | policyTriggerPlans (m : MemRun)
  | policyAttestation (m : MemRun)
  | policyModelKeys (m : MemRun)
  | policyFirmwareSlot (m : MemRun)
  | itemOpen (src : Nat)
  | itemCloseEdge (src : Nat)
  | itemDeadline (item : Word)
  | recordHandoff (m : MemRun)
  | overflowDrain (m : MemRun)
  | resultStreamRecord
  | squareAccess (stop : Nat) (acc : Access) (ecc : List EccHit)
  | squareAccessTimeout (addr : Nat) (by_ : Requester)
  | hostSquareAccess (acc : Access) (ecc : List EccHit)
  | scrubRead (bank : Nat) (ecc : List EccHit)
  | bankRetireDone (bank : Nat)
  | sqQuotaWrite (w : Writer) (p : Nat) (v : Word)
  | partitionDisableWrite (w : Writer) (p : Nat) (v : Word)
  | sqKvPoolWrite (w : Writer) (p : Nat) (v : Word)
  | kvGranuleRelease (p : Nat)
  | avenueParityError (link : Nat) (resend : Bool) -- whether the flit that arrived bad was already a resend
  | residueCheck (core : Nat) (ok : Bool)
  | taskRestoreOnSpare (core : CoreRun)
  | tcFenceWrite (w : Writer) (v : Word)
  | oppChange (w : Writer) (core : Nat) (v : Word)
  | oppRegulatorSettled (core : Nat)
  | arrPlaneLoadDone (core plane : Nat)
  | ctlNop (core : CoreRun) (i : Iw)
  | ctlAlu (core : CoreRun) (i : Iw)
  | ctlAlui (core : CoreRun) (i : Iw)
  | ctlLi (core : CoreRun) (i : Iw)
  | ctlAmov (core : CoreRun) (i : Iw)
  | ctlCmp (core : CoreRun) (i : Iw)
  | ctlPop (core : CoreRun) (i : Iw)
  | ctlBr (core : CoreRun) (i : Iw)
  | ctlLoop (core : CoreRun) (i : Iw)
  | ctlYield (core : CoreRun) (i : Iw)
  | ctlEnd (core : CoreRun) (i : Iw)
  | ctlCkpt (core : CoreRun) (i : Iw)
  | ctlTdesc (core : CoreRun) (i : Iw)
  | ctlSys (core : CoreRun) (i : Iw)
  | ctlAlloc (core : CoreRun) (i : Iw)
  | ctlFree (core : CoreRun) (i : Iw)
  | tileLoad (core : CoreRun) (i : Iw)
  | tileStore (core : CoreRun) (i : Iw)
  | tileCopy (core : CoreRun) (i : Iw)
  | tileFill (core : CoreRun) (i : Iw)
  | arrWload (core : CoreRun) (i : Iw)
  | arrMma (core : CoreRun) (i : Iw)
  | arrConv (core : CoreRun) (i : Iw)
  | arrWgconv (core : CoreRun) (i : Iw)
  | arrRead (core : CoreRun) (i : Iw) (mismatch : Bool)
  | vecLd (core : CoreRun) (i : Iw)
  | vecSt (core : CoreRun) (i : Iw)
  | vecAlu (core : CoreRun) (i : Iw)
  | vecFma (core : CoreRun) (i : Iw)
  | vecCmp (core : CoreRun) (i : Iw)
  | vecSel (core : CoreRun) (i : Iw)
  | vecRed (core : CoreRun) (i : Iw)
  | vecCvt (core : CoreRun) (i : Iw)
  | vecFn (core : CoreRun) (i : Iw)
  | vecPerm (core : CoreRun) (i : Iw)
  | vecDup (core : CoreRun) (i : Iw)
  | vecExt (core : CoreRun) (i : Iw)
  | vecMxp (core : CoreRun) (i : Iw)
  | engEnq (core : CoreRun) (i : Iw)
  | tokWait (core : CoreRun) (i : Iw)
  | tokSig (core : CoreRun) (i : Iw)
  | tokTry (core : CoreRun) (i : Iw)
  | itmAttach (core : CoreRun) (i : Iw)
  | itmCommit (core : CoreRun) (i : Iw)
  | itmGet (core : CoreRun) (i : Iw)
  | seqJoin (core : CoreRun) (i : Iw)
  | seqStep (core : CoreRun) (i : Iw)
  | seqLeave (core : CoreRun) (i : Iw)
  | seqBoundary (client : Nat)
  | taskPlacement
  | taskSaveStart (core : CoreRun)
  | taskSaveDone (core : CoreRun)
  | taskRestoreDone (core : CoreRun)
  | roundEnd (core : Nat)
  | rbtWaitAlarm (us : Nat)
  | replayStopReached (core : Nat)
  | replayDumpWritten (core : CoreRun) (m : MemRun)
  | cxpPortEnable (w : Writer) (n : Nat)
  | cxpPortDisable (w : Writer) (n : Nat)
  | cxpPowerEnable (w : Writer) (n : Nat) (on : Bool)
  | cxpGangWrite (w : Writer) (m : Nat) (on : Bool)
  | cxpDiscoveryDone (n : Nat) (ok : Bool) (camSpeed : Nat)
  | cxpLinkLost (n : Nat)
  | cxpCcGo (w : Writer) (n : Nat) (v : Word)
  | cxpCcAck (n : Nat) (ack : Nat) (data : List Byte)
  | cxpCcTimeout (n : Nat)
  | cxpStreamPacket (n : Nat) (pkt : StreamPacket)
  | auxLineReceive (n : Nat) (edges : List AuxEdge) (ecc : List EccHit)
  | auxPclkLost (n : Nat) (ecc : List EccHit)
  | auxPclkReturn (n : Nat)
  | auxTrigPulseEnd (n : Nat)
  | frameTailTimeout (port : Nat)
  | frameGateClose (port : Nat)
  | ispRouteWrite (w : Writer) (k : Nat) (v : Word)
  | ispParamLoadGo (w : Writer) (k c : Nat) (v : Word)
  | ispParamLoadDone (k c : Nat) (m : MemRun)
  | pipelineFrameStart (k : Nat) (ecc : List EccHit)
  | stripeBufferAcquire (k : Nat) (m : MemRun)
  | stripeWriteDone (k : Nat) (m : MemRun)
  | engineJobEnd (kind eng : Nat) (steps us located : Nat) (m : MemRun)
  | warpMeshWarp (eng : Nat) (m : MemRun)
  | warpLensWarp (eng : Nat) (m : MemRun)
  | warpLoadMesh (eng : Nat) (m : MemRun)
  | regionCrop (eng : Nat) (m : MemRun)
  | sortTopK (eng : Nat) (m : MemRun)
  | barcodeDecode (eng : Nat) (m : MemRun)
  | barcodeSymbolDecoded (eng : Nat) (sym : Symbol)
  | barcodeBudgetExpiry (eng : Nat) (steps us located : Nat)
  | barcodeLoadProfile (eng : Nat) (m : MemRun)
  | recordDecode (eng : Nat) (m : MemRun)
  | recordComplete (eng : Nat) (m : MemRun)
  | caddyConfigure
  | caddyWindow (m : MemRun)
  | caddyFlush
  | caddyBatchOpen (q : Nat)
  | caddySampleSlot (q : Nat) (m : MemRun)
  | caddyBatchTimeout (q : Nat)
  | caddyBatchReady (q : Nat)
  | crcConfigure (eng : Nat)
  | crcScan (eng : Nat) (m : MemRun)
  | crcSetValue (eng : Nat)
  | crcReadValue (eng : Nat) (m : MemRun)
  | crcPeriodicScan (eng : Nat)
  | crcCancelPeriodic (eng : Nat) (m : MemRun)
  | crcPeriodicPass (ctx : Nat) (late : Bool) (m : MemRun)
  | hashShake256 (m : MemRun)
  | dmaCopy (ch : Nat) (far : Option FarEnd) (m : MemRun)
  | sampleHashDone
  | encQuadChange (n : Nat) (a b : Bool)
  | encZEdge (n : Nat)
  | encSerialRead (n : Nat)
  | encSerialFrame (n : Nat) (raw : Nat) (whole : Bool) (sensor : Nat)
  | observerUpdate (n : Nat)
  | companionPositionRefresh
  | companionRefreshLost
  | companionTimeRefresh
  | companionFrameResend
  | dioRawTransition (n : Nat) (level : Bool)
  | dioEdgeAccept (n : Nat)
  | dioOutWrite (w : Writer) (v : Word)
  | dioCfgWrite (w : Writer) (n : Nat) (v : Word)
  | outputOverload (n : Nat)
  | outputOverloadClear (n : Nat)
  | kerbFireEntryArrive
  | kerbFire (e : Nat)
  | kerbPulseEnd (e : Nat)
  | outputMaxPulseCut (n : Nat)
  | kerbTrainArrive
  | kerbTrainTrigger (e : Nat)
  | heartbeat
  | heartbeatTimeout
  | safeStateRelease (w : Writer) (v : Word)
  | resetFrame
  | servoOffsetWrite (w : Writer) (v : Word)
  | timeStepRequest (w : Writer) (v : Word)
  | timeSetRequest (w : Writer) (v : Word)
  | timeStepApply
  | compareFire (k : Nat)
  | ethFrameReceive (frame : List Byte)
  | ethFrameTransmitted
  | ethLinkChange (up : Bool)
  | bmeClear
  | bmeSet
  | apertureBaseWrite (w : Writer) (v : Word)
  | apertureAccess (acc : Access) (ecc : List EccHit) (peerTimeout : Bool)
  | hostWindowEnable (w : Writer) (n : Nat) (v : Word)
  | hostWindowDisable (w : Writer) (n : Nat) (v : Word)
  | msixUnmask (vec : Nat)
  | blvEnable (w : Writer) (p : Nat)
  | blvTrained (p : Nat) (part : Option Nat) (skew : Nat) (credits : List Nat)
  | blvTrainTimeout (p : Nat)
  | blvFlitReceive (p : Nat) (f : Flit) (retrainFailed : Bool)
  | blvIdleEntry (p : Nat) (cancelled : Bool)
  | blvCompatSleep (p : Nat)
  | blvIdleExit (p : Nat)
  | blvPrbsMode (w : Writer) (p mode : Nat) (errors : List (Option Nat))
  | peerSquareAccess (p : Nat) (acc : Access) (ecc : List EccHit)
  | peerTokenSignal (p : Nat) (addr : Nat) (v : DWord)
  | peerTokenRead (p : Nat) (addr : Nat)
  | peerAccessTimeout (ch : Nat)
  | coreClockGate (n : Nat)
  | coreWake (chain unit : Nat)
  | throttleRaise (m : Meter)
  | throttleLower (m : Meter)
  | ceilingSaturated (m : Meter)
  | pwrLimitWrite (w : Writer) (v : Word)
  | thermalRelease (m : Meter)
  | ouvfiThermalTrip (m : Meter)
  | supplyExcursion (flag : Nat)
  | fieldSupplyLoss
  | fieldSupplyReturn
  | governorUpdate
  | blockReset (u : BlockUnit)
  | rasBlkrstWrite (w : Writer) (v : Word)
  | blockResetRelease (u : BlockUnit)
  | cpLockstepMismatch (cp : Nat)
  | powerGoodFall
  | resetInAssert
  | perstAssert
  | hotReset
  | functionLevelReset
  | linkDlDown
  | d3hotEntry
  | d3hotExit
  | watchdogExpiry (cp : Nat)
  | rstKick (w : Writer) (v : Word)
  | fwCoreResetRequest (w : Writer) (v : Word)
  | fwSystemResetRequest (w : Writer) (v : Word)
  | fwPowerOnResetRequest (w : Writer) (v : Word)
  | thermalTrip (m : Meter)
  | criticalStateError (system : Bool)
  | avenueLaneOut (link : Nat)
  | resetSourceRelease (source : Nat)
  | trimLoadDone (upsets : List Upset)
  | resetRelease
  | bootRom (failed : List Nat) (badBanks : List Nat) (lpddrBad : Bool)
  | rstBootGo (w : Writer) (v : Word)
  | secRollWrite (w : Writer) (v : Word)
  | pcieLinkUp (speed width : Nat) (flit : Bool)
  | blvTrainingRetry (p : Nat)
  | peerTrainingBurst (p : Nat)
  | timestampQueueConsumed
  deriving DecidableEq, Repr

end Sys2Proof
end

