-- ==== Sys2Proof/Config.lean ====
section
/-! DEFINITION. What one module fixes at manufacture and the FREE VALUES: constants with no body,
so that no proof can see what they are. Every one is named in the assumption log. -/

namespace Sys2Proof.Config

open Sys2Proof

/-! Secrets and tables that are fixed at manufacture and that no rule gives a value for. -/

/-- The hash fused in vendor key slot `k` (R540). -/
opaque keyHash : Nat → List Byte
/-- The fused 256-bit unique device secret (R544). -/
opaque uds : List Byte
/-- The fused voltage-frequency table: the least voltage code (5 mV units) for a clock code (10 MHz units) (R114). -/
opaque minVolt : Nat → Nat

/-! Free values: results the spec leaves open or names by another standard only. -/

/-- SLH-DSA verification (FIPS 205, named only): parameter set, public key, message, signature. -/
opaque slhVerify : Nat → List Byte → List Byte → List Byte → Bool
/-- SLH-DSA signature by a key pair made from 48 seed bytes (R545, R546). -/
opaque slhSign : List Byte → List Byte → List Byte
/-- SLH-DSA public key of a key pair made from 48 seed bytes (R544). -/
opaque slhPublic : List Byte → List Byte
/-- The token declarations of a token-graph section, whose layout no rule gives (R196): tagged, external, the template of a job token,
initial count. -/
opaque tokenDecls : List Byte → List (Bool × Bool × Option Nat × Nat)
/-- The segments and edges that a token-graph section spells, in the order in which the loader derives them (R196): each segment as
template, instance, first word and number of instructions, each edge as two segment numbers and, for a token's edge, its index plus 1. -/
opaque graphSpelt : List Byte → List (Nat × Nat × Nat × Nat) × List (Nat × Nat × Nat)
/-- JPEG-LS decoding (ITU-T T.87, named only): payload, header fmt, width, lines; the decoded pixel bytes and whether the
codestream was valid to its end, or none when it was invalid before the first pixel. -/
opaque jpegLs : List Byte → Nat → Nat → Nat → Option (List Byte × Bool)
/-- The FP32 result of `vec.fn` function `f` on an operand for which R240 gives only an error bound. -/
opaque vecFn : Nat → BitVec 32 → BitVec 32
/-- The integer that `vec.cvt` gives for a NaN or an unsaturated infinity: source and destination code, source encoding (R239). -/
opaque cvtInt : Nat → Nat → Nat → Nat
/-- The element that `vec.mxp` writes for a NaN in an MX format without a NaN (R241). -/
opaque mxNan : Nat → Nat
/-- Where the block list of a client's sequence lies (R258 gives the field, no rule gives the place). -/
opaque blockListAddr : Nat → Nat → Nat
/-- The row by which R165 counts an element of a Winograd readout: tile and place in the tile. It is formed from many rows of the source,
and no rule says which of them counts. -/
opaque wgRow : Nat → Nat → Nat
/-- The 13-bit signed weight of a Winograd pass (R171, R173): the format code of the plane, the bytes of the column's weight row, and the
input channel. No rule says how the elements of a plane of 256-byte rows give 13-bit weights. -/
opaque wgWeight : Nat → List Byte → Nat → BitVec 13
/-- A channel of the gradient-corrected demosaic of R325: colour of the pixel and of its right neighbour, the 25 values of the 5 × 5
window by rows, channel. -/
opaque demosaic : Nat → Nat → List Nat → Nat → Nat
/-- A bicubic weight of R352 that is no multiple of 2^-14 rounds up: fraction index, tap. No rule gives the rounding of the table. -/
opaque keysUp : Nat → Nat → Bool
/-- Code of the event of class 0x0A, which R380 does not give. -/
opaque checkEventCode : Nat
/-- The frame that firmware answers an ARP request (0) or an ICMP echo request (1) with; both protocols are named only (R454). -/
opaque frameReply : Nat → List Byte → List Byte
/-- Firmware's policy selects the peer-to-peer delay mechanism, not the end-to-end one (R455). -/
opaque ptpPeerDelay : Bool
/-- Firmware runs PTP slave-only, without the best master clock algorithm (R455). -/
opaque ptpSlaveOnly : Bool
/-- The frames that PTP firmware, an IEEE 1588-2019 ordinary clock (named only), sends on taking a received PTP frame (R455). -/
opaque ptpSends : Nat → List Byte → List (List Byte)
/-- Bytes that the manual calls unspecified or undefined: indexed by a counter in State. -/
opaque freeByte : Nat → BitVec 8
/-- A choice that the manual leaves open, indexed by a counter in State. -/
opaque freeNat : Nat → Nat
/-- The event of a bank that retires (1, R393) or finds no spare (0, R84), whose class (0), code (1) and ref for bank `l` (2 + l) no rule
gives. -/
opaque bankEvent : Nat → Nat → Nat
/-- The firmware build number that a booted image writes to GLB_FW.build (R566). -/
opaque fwBuild : List Byte → BitVec 16

end Sys2Proof.Config
end

