-- ==== Sys2Proof/Machine/Hash.lean ====
section
/-! DEFINITION. The two standards that digests and checks rest on: SHAKE256 (named by R54, R382, R400; FIPS 202) and cyclic
redundancy checks (CRC-32C of R54 and R485, the algorithms of R377). -/

namespace Sys2Proof.Machine

open Sys2Proof

/-! ## Cyclic redundancy checks -/

/-- One bit into a CRC register kept most significant bit first. -/
def crcBitN (w poly reg : Nat) (b : Bool) : Nat :=
  let fb := Bool.xor (reg.testBit (w - 1)) b
  let r := (reg * 2) % 2 ^ w
  if fb then r ^^^ poly else r

/-- One bit into a CRC register kept least significant bit first, with the reflected polynomial. -/
def crcBitR (rpoly reg : Nat) (b : Bool) : Nat :=
  let fb := Bool.xor (reg.testBit 0) b
  if fb then (reg / 2) ^^^ rpoly else reg / 2

/-- The `w` bits of a number in reverse order. -/
def revBits (w n : Nat) : Nat := (List.range w).foldl (fun a i => a + (if n.testBit i then 2 ^ (w - 1 - i) else 0)) 0

/-- One byte into a CRC register: reflected algorithms take the byte least significant bit first. -/
def crcByte (w : Nat) (refl : Bool) (poly reg : Nat) (b : Byte) : Nat :=
  if refl then (List.range 8).foldl (fun r i => crcBitR (revBits w poly) r (b.toNat.testBit i)) reg
  else (List.range 8).foldl (fun r i => crcBitN w poly r (b.toNat.testBit (7 - i))) reg

/-- A CRC register after a byte list. -/
def crcRun (w : Nat) (refl : Bool) (poly reg : Nat) (bs : List Byte) : Nat := bs.foldl (crcByte w refl poly) reg

/-- CRC-32C of a byte list (Castagnoli polynomial, reflected, initial and final value all ones). -/
def crc32c (bs : List Byte) : Nat := (crcRun 32 true 0x1EDC6F41 0xFFFFFFFF bs) ^^^ 0xFFFFFFFF

/-- CRC-64 of ECMA-182 in its plain form, from a running register (R397). -/
def crc64 (reg : Nat) (bs : List Byte) : Nat := crcRun 64 false 0x42F0E1EBA9EA3693 reg bs

/-! ## SHAKE256 -/

/-- Rotates a 64-bit lane left. -/
def rotl64 (x n : Nat) : Nat := ((x <<< (n % 64)) ||| (x >>> (64 - n % 64))) % 2 ^ 64

/-- Lane (x, y) of a state of 25 lanes. -/
def lane (a : List Nat) (x y : Nat) : Nat := a.getD (x % 5 + 5 * (y % 5)) 0

/-- A state of 25 lanes from a function of (x, y). -/
def lanes (f : Nat → Nat → Nat) : List Nat := (List.range 25).map fun i => f (i % 5) (i / 5)

/-- The place that follows (x, y) on the walk of FIPS 202's rho step. -/
def rhoNext (p : Nat × Nat) : Nat × Nat := (p.2, (2 * p.1 + 3 * p.2) % 5)

/-- The walk of the rho step from (1, 0): place `t` is rotated by (t + 1)(t + 2) / 2. -/
def rhoWalk : Nat → Nat → Nat × Nat → List ((Nat × Nat) × Nat)
  | 0, _, _ => []
  | n + 1, t, p => (p, (t + 1) * (t + 2) / 2 % 64) :: rhoWalk n (t + 1) (rhoNext p)

/-- The rotation of every lane, in lane order; lane (0, 0) stays. -/
def rhoOffsets : List Nat :=
  let w := rhoWalk 24 0 (1, 0)
  (List.range 25).map fun i => (w.lookup (i % 5, i / 5)).getD 0

/-- One step of the 8-bit shift register that gives the round constants (iota step, feedback x^8 + x^6 + x^5 + x^4 + 1). -/
def iotaStep (r : Nat) : Nat := if r < 128 then 2 * r else (2 * r) % 256 ^^^ 0x71

/-- The register after `n` steps. -/
def iotaAt : Nat → Nat → Nat
  | 0, r => r
  | n + 1, r => iotaAt n (iotaStep r)

/-- The constant of a round whose register stands at `r`: the register's lowest bit, step by step, goes to the bits 2^j - 1. -/
def iotaWord (r : Nat) : Nat := ((List.range 7).map fun j => if (iotaAt j r).testBit 0 then 2 ^ (2 ^ j - 1) else 0).sum

/-- The round constants of `n` rounds from a register on. -/
def iotaWords : Nat → Nat → List Nat
  | 0, _ => []
  | n + 1, r => iotaWord r :: iotaWords n (iotaAt 7 r)

/-- The round constants. -/
def roundConstants : List Nat := iotaWords 24 1

/-- One round of the permutation. -/
def keccakRound (a : List Nat) (rc : Nat) : List Nat :=
  let c := (List.range 5).map fun x => lane a x 0 ^^^ lane a x 1 ^^^ lane a x 2 ^^^ lane a x 3 ^^^ lane a x 4
  let d := (List.range 5).map fun x => c.getD ((x + 4) % 5) 0 ^^^ rotl64 (c.getD ((x + 1) % 5) 0) 1
  let t := lanes fun x y => lane a x y ^^^ d.getD x 0
  -- rho and pi: lane (x, y) of the result comes from lane (x + 3y, x)
  let b := lanes fun x y => rotl64 (lane t (x + 3 * y) x) (rhoOffsets.getD ((x + 3 * y) % 5 + 5 * (x % 5)) 0)
  let e := lanes fun x y => lane b x y ^^^ ((2 ^ 64 - 1 - lane b (x + 1) y) &&& lane b (x + 2) y)
  match e with
  | [] => []
  | h :: r => (h ^^^ rc) :: r

/-- The 24-round permutation. -/
def keccakF (a : List Nat) : List Nat := roundConstants.foldl keccakRound a

/-- The first `n` 8-byte words of a byte list as lanes. -/
def lanesOf (n : Nat) (bs : List Byte) : List Nat := (List.range n).map fun i => leAt bs (8 * i) 8

/-- Absorbs `n` blocks of 136 bytes. -/
def absorb : Nat → List Byte → List Nat → List Nat
  | 0, _, a => a
  | n + 1, bs, a =>
    let m := lanesOf 17 bs ++ List.replicate 8 0
    absorb n (bs.drop 136) (keccakF (List.zipWith (· ^^^ ·) a m))

/-- Squeezes `n` blocks of 136 bytes. -/
def squeeze : Nat → List Nat → List Byte
  | 0, _ => []
  | n + 1, a => ((a.take 17).flatMap (leBytes 8)) ++ squeeze n (keccakF a)

/-- A message padded for SHAKE256: 0x1F after it, 0x80 in the last byte of the last block of 136 bytes. -/
def shakePad (msg : List Byte) : List Byte :=
  let r := 136 - msg.length % 136
  if r = 1 then msg ++ [0x9F] else msg ++ [0x1F] ++ List.replicate (r - 2) 0 ++ [0x80]

/-- SHAKE256 of a message, `n` bytes of output. -/
def shake256 (msg : List Byte) (n : Nat) : List Byte :=
  let p := shakePad msg
  (squeeze ((n + 135) / 136) (absorb (p.length / 136) p (List.replicate 25 0))).take n

end Sys2Proof.Machine
end

