-- ==== Sys2Proof/Machine/State.lean ====
section
/-! DEFINITION. The state of the PWK-1612 as plain data, the reasons a step can stop, and the state right after reset.
Every register lives in one word map (`regs`), keyed by its BAR0 offset (R552); what is not a register word (the ledger,
tokens, tasks, queues, buffers, pins) has a field of its own. -/

namespace Sys2Proof.Machine

open Sys2Proof

/-- Why the machine stops. No row of this model stops it: every hardware fault of the manual is an effect on State. The
constructor is raised by nothing; it stands so that the type is not empty. Safe. -/
inductive Fault where
  | unreached
  deriving DecidableEq, Repr

/-- Why a command has no meaning. -/
inductive Refusal where
  /-- Raised by an arm of `exec` whose command has no meaning yet. Safe. -/
  | notModelled (mnemonic : String)
  /-- Raised when a sequencer row carries a word that R216 calls illegal: the loader refuses such an image and no illegal
  word is ever decoded (R217). Safe. -/
  | illegalWord (mnemonic : String)
  deriving DecidableEq, Repr

/-- Bytes keyed by address, addresses strictly rising, no entry equal to what an unlisted address reads as (zero). -/
abbrev Memory := List Host.Cell

/-- Device time (R442, R443): seconds, nanoseconds and 32 fraction bits of a nanosecond. -/
structure DevTime where
  sec : Nat
  ns : Nat
  frac : Nat
  deriving DecidableEq, Repr

/-- The fuse map of the module (R112, R435, R529, R534, R535, R540, R547, R566). -/
structure Fuses where
  serial : BitVec 64
  stepBuild : BitVec 24
  subsys : Word
  spare : Nat
  wdogForce : Bool
  dioOut : BitVec 32
  dioOn : BitVec 32
  dioSafe : BitVec 32
  krbLim : List Word
  krbRate : List Word
  svn : Nat
  revoked : Nat
  ethMac : BitVec 48
  tsLat : Word
  deriving DecidableEq, Repr

/-- The three copies of one TV register (R9, R560). -/
structure TvReg where
  off : Nat
  c0 : Word
  c1 : Word
  c2 : Word
  deriving DecidableEq, Repr

/-- A latched word of a latch group, per requester (R562). -/
structure Latched where
  who : Writer
  off : Nat
  v : Word
  deriving DecidableEq, Repr

/-- What the module hands to the outside, oldest first (the model's own record of its outputs). -/
inductive OutMsg where
  | msix (vec : Nat)                               -- an MSI-X message (R480)
  | trigger (port : Nat) (item : Word)             -- a LinkTrigger0 packet or AUX_TRIG pulse (R299)
  | datagram (bytes : List Byte)                   -- a result-stream datagram that left (R460)
  | frame (bytes : List Byte)                      -- another Ethernet frame that left
  | camCommand (port len addr : Nat) (write : Bool) (data : List Byte) -- a control command (R298)
  | peerWrite (addr : Nat) (bytes : List Byte)     -- a write through a Boulevard port (R492)
  | peerSignal (addr : Nat) (bytes : List Byte)    -- a signal to a peer's token window, on VC2 (R494)
  | hostWrite (addr len : Nat) (relaxed : Bool)    -- a DMA job's write to host memory, with its Relaxed Ordering attribute (R470)
  | peerReply (port : Nat) (status : Nat) (data : List Byte) -- an answer to a peer's access (R493, R494)
  | linkSignal (port : Nat) (what : Nat)           -- idle request 0, training burst 1, replay request 2, pattern 3, replay 4
  | serialClock (enc : Nat)                        -- a serial encoder read is clocked out (R410)
  | resetOut (level : Bool)                        -- RESET_OUT_N (R523, R526)
  deriving DecidableEq, Repr

/-- The name of a task instance (R188). -/
structure TaskId where
  handle : Nat
  tmpl : Nat
  inst : Nat
  deriving DecidableEq, Repr

/-! ## Items (02_items_and_commit.md) -/

/-- A result fragment (R42-R44, R55). -/
structure Frag where
  kind : Nat
  key : Nat
  origin : Nat
  payload : List Byte
  pend : Option TaskId        -- pending of this task until its next checkpoint (R44)
  issuer : TaskId             -- who issued it, for the order of R390
  ord : Nat                   -- attach order
  deriving DecidableEq, Repr

/-- An entry of an item's sample list (R399). -/
structure SampleRef where
  source : Nat
  sample : Nat
  hash : BitVec 256
  deriving DecidableEq, Repr

/-- An item in the ledger (R33, R35). -/
structure Item where
  id : Word
  src : Nat
  posSrc : Nat
  openPos : Pos
  openTime : DevTime
  deadline : Pos
  closePos : Option Pos
  closeTime : DevTime
  bound : Bool                -- BOUND; otherwise OPEN
  frags : List Frag
  nextOrd : Nat
  fragRefused : Bool
  sampleVoid : Bool
  samples : List SampleRef
  sampleCount : Nat           -- samples that entered the list (R400)
  lastIn : Option (Pos × DevTime) -- when the last sample entered (governor, R507)
  ord : Option Nat            -- which opening edge of its source it came from (R433); none for a host source
  deriving DecidableEq, Repr

/-- What stages still need to know of an item that is no longer OPEN or BOUND: where its deadline lies (R19). -/
structure EndedItem where
  id : Word
  posSrc : Nat
  deadline : Pos
  deriving DecidableEq, Repr

/-- An item in COMMITTING: what its record and Kerb entry need (R41, R54, R400, R424). -/
structure Commit where
  item : Item
  disp : Nat
  action : Nat
  flags : Nat                 -- deadline, void, ledger_full, prog_stop, mx_sticky, det bits of R54
  seq : Word
  prog : Nat
  out : Nat
  firePos : Pos
  commitPos : Pos
  commitTime : DevTime
  digest : List Byte          -- the 32 digest bytes
  admitted : Bool             -- false for an item that met a full ledger (R36)
  deriving DecidableEq, Repr

/-- A record held in the overflow area (R65): where it lies, in 64-byte entries from the area's base. -/
structure OvfRec where
  item : Word
  seq : Word
  at_ : Nat
  entries : Nat
  deriving DecidableEq, Repr

/-- A submission that CP[1] has consumed and that is not completed (R59, R60, R531). -/
structure Submission where
  op : Nat
  arg : Nat
  tag : Word
  addr : Nat
  len : Nat
  params : List Byte          -- 43 bytes from offset 0x14
  early : Option Nat          -- the status with which the entry alone ends it when its turn comes (R61, R202, R588)
  deriving DecidableEq, Repr

/-- A reset-loss event that waits for the event ring (R69, R590). -/
structure ResetLoss where
  first : Word
  last : Word
  count : Nat
  deriving DecidableEq, Repr

/-- The ledger's part of the state. -/
structure Ledger where
  items : List Item           -- OPEN and BOUND, in open order
  committing : List Commit    -- in commit sequence order
  streamQ : List (List Byte)  -- committed records on their way to the result stream (R460)
  overflow : List OvfRec      -- kept by the always-on island (R69)
  ovfNext : Nat               -- next free entry of the overflow area
  evtNum : Word               -- number of the next event (R68)
  evtDropped : Nat            -- events dropped since the previous event-loss entry
  heldLoss : Option ResetLoss
  heldReleases : List DWord   -- history entries whose reset-release event is held, oldest first (R68, 17)
  lossAfter : Nat             -- how many of them are older than the held reset-loss event (R68)
  ringFailed : Bool           -- the result ring's last record write met HOST_ABORT (R65)
  aborted : List Submission   -- consumed submissions that a core reset ended (R531)
  subQ : List Submission
  srcItem : List (Nat × Word) -- per source, the most recently opened item (R433)
  ended : List EndedItem      -- items that have ended, newest first
  deriving DecidableEq, Repr

/-! ## Programs, tokens and tasks (06, 07, 08) -/

/-- A task template of the manifest (R199). -/
structure Template where
  prologue : Nat
  roundStart : Nat
  roundEnd : Nat
  prio : Nat
  instances : Nat
  tbLive : Nat
  tbPeak : Nat
  deriving DecidableEq, Repr

/-- A replay stop (R404). -/
structure ReplayStop where
  task : TaskId
  step : Nat
  dump : Nat
  reached : Bool
  deriving DecidableEq, Repr

/-- A loaded program, or one whose load is in progress (R205). -/
structure Program where
  handle : Nat
  part : Nat
  stopped : Bool
  loading : Bool              -- placed, completion not yet posted (R188)
  unloading : Bool
  coresMin : Nat
  coresBuild : Nat
  tmpls : List Template
  codeBase : Nat
  codeWords : Nat
  const0 : Nat                -- a0 at the prologue
  static0 : Nat               -- a1 at the prologue
  saves : List Nat            -- base granule of each instance's save area, in template and instance order (R190)
  winograd : List (Nat × Nat) -- word offset and mode (R174)
  ctx : List Nat              -- contexts held per pool (R200)
  ctxIds : List (List Nat)    -- device contexts held in each pool
  tokens : Nat                -- global tokens held
  localToks : Nat
  kvBlk : Nat
  kvSeqs : Nat
  idFirst : Nat               -- first sequence ID of its range (R279)
  seed : DWord
  lpBase : Nat
  lpSize : Nat
  progHash : List Byte
  weightHash : List Byte
  signedSlot : Option Nat
  needsDet : Bool
  replay : Option ReplayStop
  tag : Word                  -- tag of the load or unload in progress
  image : List Byte           -- the loader's copy while the load is in progress
  placed : List (Nat × Nat × Nat) -- while the load is in progress: image offset, length, device address
  deriving DecidableEq, Repr

/-- Who waits on a token (R194, R336, R368). -/
inductive Waiter where
  | task (t : TaskId)
  | pipe (k : Nat)
  | caddy (q : Nat)
  | neighbour (port : Nat)    -- a peer's tagged signal (R494)
  deriving DecidableEq, Repr

/-- One waiting take of a token, in age order (R194, R195). -/
structure TokWaiter where
  who : Waiter
  amt : Nat
  item : Option Word
  deriving DecidableEq, Repr

/-- A tagged signal, or a returned take, that waits for a free pair (R195, R514). -/
structure SigWaiter where
  who : Option Waiter         -- none: a take returned at a restart, which goes ahead
  amt : Nat
  item : Word
  deriving DecidableEq, Repr

/-- A global token held by a program (R194-R198, R251). -/
structure Token where
  handle : Nat
  idx : Nat
  tagged : Bool
  external : Bool
  jobTmpl : Option Nat        -- declared as a job token of this template
  count : Nat
  pairs : List (Word × Nat)
  latch : Nat                 -- status latch of a job token
  waiters : List TokWaiter
  sigs : List SigWaiter
  discarded : Nat
  deriving DecidableEq, Repr

/-- A running loop of `ctl.loop` (R225). -/
structure LoopFrame where
  ctr : Nat
  first : Nat
  last : Nat
  deriving DecidableEq, Repr

/-- A weight plane (R116, R121, R128, R129): the descriptor it was loaded from, its format and its weight rows. -/
structure Plane where
  desc : Option DWord         -- the pinned source extent
  fmt : Nat
  rows : List (List Byte)
  deriving DecidableEq, Repr

/-- The state of one task that a switch saves and restores (R128, R188). -/
structure TaskRegs where
  s : List DWord
  a : List (BitVec 40)
  p : List Bool
  lc : List Word
  t : List DWord
  v : List (List Byte)
  acc : List (BitVec 144)
  accN : Nat                  -- N of the pass that last summed into the accumulators
  tb : Memory                 -- tile buffer, unlisted bytes zero
  tbPoison : List Nat         -- poisoned 8-byte words of the tile buffer
  planes : List Plane
  loads : List Nat            -- planes whose loads have issued and not ended, oldest first (R116, R234)
  loops : List LoopFrame
  next : Nat                  -- word offset of the next instruction
  step : Nat                  -- step counter
  seed0 : DWord
  seed1 : DWord
  local_ : List Nat
  mx : Bool
  nonfinite : Bool
  deriving DecidableEq, Repr

/-- The registers that an instruction captures at decode (R132, R219). -/
structure Operands where
  s : List DWord
  a : List (BitVec 40)
  p : List Bool
  lc : List (BitVec 32)
  t : List DWord
  deriving DecidableEq, Repr

/-- An instruction that stands in its queue and has not begun (R132, R133): its word, the operands it captured, and what its row says of
the memories it will read. -/
structure Queued where
  op : Nat
  i : Iw
  ops : Operands
  cr : CoreRun
  mismatch : Bool
  deriving DecidableEq, Repr

/-- An instruction of a task that waits (the "Any queue" row of R223), with what its completion writes, or that has not begun. -/
inductive Wait where
  | queued (x : Queued)
  | take (tok amt : Nat) (item : Option Word) (sd pc : Option Nat)
  | localTake (tok amt : Nat)
  | sigPair (tok amt : Nat) (item : Word)
  | enq (kind addr left : Nat)
  | step (client addr sd : Nat) (nowait : Bool)
  | join (client : Nat) (item : Word) (max tag sd : Nat)
  deriving DecidableEq, Repr

/-- A waiting instruction: its queue, the word offset it was decoded at (for a fault, R137) and what it waits for. -/
structure Waiting where
  q : Nat
  word : Nat
  w : Wait
  since : Nat                 -- order stamp of its decode
  ends : Bool                 -- it is the last word of its round (R264)
  deriving DecidableEq, Repr

/-- A completed instruction that a restart must not repeat (R513). -/
inductive RecEntry where
  | take (tok amt : Nat) (item : Option Word) (status : Nat)
  | enq (kind : Nat)
  | alloc (base status : Nat)
  | free
  | join (id : Nat)
  | leave
  deriving DecidableEq, Repr

/-- A recovery record (R513), and what of it is still to be matched after a restart (R514). -/
structure Recovery where
  sigs : Nat
  entries : List RecEntry
  deriving DecidableEq, Repr

/-- The states of a task instance (R259). -/
inductive TaskState where
  | ready | running | parked | saved | ended
  deriving DecidableEq, Repr

/-- A task instance. -/
structure Task where
  id : TaskId
  st : TaskState
  prio : Nat
  readyAt : Nat               -- when it became READY, in the scheduler's order
  core : Option Nat
  regs : TaskRegs
  ckpt : TaskRegs             -- the last checkpoint
  rec_ : Recovery
  match_ : Recovery           -- still to be matched since the last restart
  waits : List Waiting        -- its waiting instructions, oldest first
  ran : Bool                  -- it has run before
  poisoned : Bool             -- restarted for POISON, no new checkpoint since (R516)
  passes : Nat                -- array passes whose residue check is open (R139)
  attached : Nat              -- its attach order
  served : Bool               -- its wait was served while it was SAVED: it completes at once when it resumes (R260)
  readySince : DevTime        -- device time at which it became READY (R289)
  atRound : Bool              -- the last word of its round has just completed (R264)
  due : Option (Nat × Nat × Nat) -- a fault to be taken once older instructions are done: status, queue (`faultTask`), word offset (R137, R251)
  held : Option (Nat × Iw)    -- the word that decode is held before: its opcode and the word (R219, R259)
  saved : Bool                -- its state stands in its save area (R274)
  results : List (Nat × DWord) -- scalar results of waits served since its save, written as it resumes (R260)
  deriving DecidableEq, Repr

/-- What a core is doing (R269-R275, R511). -/
inductive CorePhase where
  | idle | restoring | running | stopping | saving | recovering
  deriving DecidableEq, Repr

/-- One tensor core (R111-R115). -/
structure TensorCore where
  st : Nat                    -- 0 ACTIVE, 1 SPARE, 2 FENCED
  phase : CorePhase
  task : Option TaskId
  incoming : Option TaskId    -- the READY task that displaces the victim
  fresh : Bool                -- no instruction completed since the restore (R272)
  gated : Bool
  pendingFreq : Option Nat    -- a raised clock that waits for the regulator (R115)
  wakePoint : Option (Nat × Nat) -- clock and voltage that a gated core takes when it wakes (R509)
  rank : Nat                  -- rank of R266
  yielded : Bool              -- the switch under way began at `ctl.yield` or a round end (R289)
  roused : Bool               -- made ACTIVE in a fenced core's place, its clock not started yet (R511)
  stray : Nat                 -- passes whose task has left the core and whose residue check is open (R139)
  deriving DecidableEq, Repr

/-- A sequence: a queued join or a member (R280). -/
structure Sequence where
  id : Nat
  client : Nat
  handle : Nat
  item : Word
  max : Nat
  tag : Nat
  member : Bool
  justJoined : Bool
  leaving : Bool
  held : Nat                  -- tokens held
  blocks : List Nat           -- block addresses / 256
  blk : Nat                   -- block size in 256-byte units when they were reserved (R96, R283)
  deriving DecidableEq, Repr

/-- A sequence-manager client (R279, R281). -/
structure SqmClient where
  handle : Nat
  part : Nat
  stepBy : List TaskId        -- tasks whose `seq.step` waits, oldest first
  armed : Bool                -- a step was taken, a join queued or blocks returned since the last boundary (R281)
  deriving DecidableEq, Repr

/-! ## The Square (03) -/

/-- A run of granules that belongs to a partition. Kinds: 0 placed section, 1 save area, 2 static, 3 run-time, 4 KV pool. -/
structure GranRun where
  base : Nat
  n : Nat
  part : Nat
  handle : Nat
  kind : Nat
  deriving DecidableEq, Repr

/-- A bank retirement in progress (R82). -/
structure Retiring where
  bank : Nat
  spare : Nat
  deriving DecidableEq, Repr

/-- The Square's allocator, errors and banks. -/
structure Square where
  runs : List GranRun
  poison : List Nat           -- poisoned words (address / 8), Square and LPDDR-6
  ceInPass : List Nat         -- corrected errors per logical bank in this scrub pass
  scrubLine : List Nat        -- next line per logical bank
  retiring : List Retiring
  sparesUsed : Nat
  laneFails : List (Nat × Nat) -- failed resends of the flit at hand per Avenue link (R103)
  laneSpare : List Nat        -- links that use their spare lane
  deriving DecidableEq, Repr

/-! ## Camera ports and pipelines (09, 10) -/

/-- A line that waits in a port store: its pixels, or the slot of the store in LPDDR-6 that holds them (R308). -/
structure StoredLine where
  px : List Nat
  slot : Option Nat
  deriving DecidableEq, Repr

/-- A frame of a port (R303-R314). -/
structure Frame where
  item : Word
  no : Nat
  st : Nat                    -- 0 waits for the older frame to close (R304), 1 open, 2 closed
  area : Bool
  gateItem : Bool
  width : Nat
  fill : Nat
  maxLines : Nat
  fmt : Nat
  phase : Nat
  openedAt : Nat              -- when it opened (order of R342)
  deadline : Pos              -- its item's deadline, for R340
  posSrc : Nat
  sink : Option Nat           -- the pipeline drops its lines and counts them in this counter (R339, R340)
  imgBegun : Bool
  requested : Nat
  trainDone : Bool
  received : Nat
  delivered : Nat
  triggers : Nat
  dropAt : Option Nat
  short : Nat
  long : Nat
  badfmt : Nat
  missed : Nat
  flags : Nat                 -- flags of R314
  dropping : Bool             -- the rest is dropped (R309, R313)
  gateStop : Int              -- CXP_GATE.end as it stood when the frame opened (R306)
  sampled : Bool              -- its sample has been entered (R396)
  lines : List StoredLine     -- delivered lines that the pipeline has not taken
  deriving DecidableEq, Repr

/-- A camera port; index 0-11 is CXP[n], 12-15 is AUX[n - 12]. -/
structure Port where
  frames : List Frame         -- oldest first; at most the newest open one has isOpen
  nextNo : Nat
  gated : List Word           -- items that have had their frame under ITEM gating
  curFmt : Option (Nat × Nat) -- format and Bayer phase of the image header in force
  requests : List (List Word) -- triggers sent that no line has answered: the items of each packet (R299, R303)
  lastItems : List Word       -- the items of the last packet sent
  skips : List Word           -- items with a skipped trigger and no frame yet (R300)
  line : Option (List Nat)    -- AUX: pixels of the line in progress (R301, R302)
  fv : Bool                   -- AUX: FV was active at the last sampling edge
  lost : Bool                 -- AUX: the loss of the pixel clock has been reported (R302)
  storeNext : Nat             -- AUX: next line slot of its store in LPDDR-6 (R308)
  lastTrig : Option DevTime
  trigHigh : Bool             -- AUX_TRIG[n]
  pclk : Bool                 -- pixel clock present
  ccWrite : Bool              -- the control command in flight writes
  ccLen : Nat                 -- its length
  deriving DecidableEq, Repr

/-- A loaded parameter set: the block of R331 and its tables. -/
structure ParamSet where
  block : List Byte
  defect : List Byte
  ff : List Byte
  tone : List Byte
  deriving DecidableEq, Repr

/-- A context of a pipeline (R318, R322, R332). -/
structure PipeCtx where
  active : Option ParamSet
  pending : Option ParamSet
  loadingSet : Bool
  gen : Nat
  loadAddr : Nat              -- address of the block of the load under way
  refOk : Bool                -- a temporal reference frame is held
  refWidth : Nat
  refLines : Nat
  deriving DecidableEq, Repr

/-- A port binding (R335). -/
structure Binding where
  port : Nat
  handle : Nat
  payload : List Byte
  stripes : Nat               -- stripes since the binding
  ord : Nat                   -- which binding it is
  deriving DecidableEq, Repr

/-- The frame a pipeline serves (R342). -/
structure Serving where
  port : Nat
  ctx : Nat
  item : Word
  no : Nat
  set : Option ParamSet
  gen : Nat
  width : Nat
  fmt : Nat
  area : Bool
  raw : List (List Nat)       -- lines taken so far
  doneLines : Nat             -- lines already written in stripes
  buf : Option Nat            -- buffer taken for the next stripe
  waiting : Bool
  crc : Nat                   -- running CRC-64 (R397)
  restart : Bool              -- temporal restart
  t1 : List (List (List Nat)) -- lines after noise reduction, computed so far (R322)
  phase : Nat
  deadline : Pos
  posSrc : Nat
  fit : Bool                  -- dropped because a line exceeds its pitch: only its header is written (R339)
  bind : Option Binding       -- the binding in force
  granted : Bool              -- free_tok was taken for the next stripe
  sigWait : Bool              -- ready_tok waits for a free pair (R341)
  lastSig : Bool              -- the signal that waits is the frame's last
  deriving DecidableEq, Repr

/-- An image pipeline. -/
structure Pipe where
  ctxs : List PipeCtx
  serving : Option Serving
  lastCtx : Nat
  deriving DecidableEq, Repr

/-! ## Engines (11) -/

/-- A queued engine job (R243, R346). Kinds: 0 warp, 1 region, 2 sort, 3 barcode, 4 record, 5 hash, 6 check-value,
7 Caddy, 8 DMA. -/
structure Job where
  kind : Nat
  desc : List Byte
  task : TaskId
  part : Nat
  ord : Nat                   -- order of its queueing
  at_ : DevTime               -- when it was queued (longest queue wait, R384)
  deriving DecidableEq, Repr

/-- A job on its engine. -/
structure Running where
  eng : Nat
  job : Job
  status : Nat
  done : Bool                 -- its writes have completed; ENGINE_JOB_END may follow
  cursor : Nat                -- box, record or symbol number reached
  aux : List Nat              -- counts of the job: delivered, voided, rejected, offset ...
  held : List (List Byte)     -- fragments that deterministic mode holds back (R359)
  current : List Byte         -- header of the record being decoded
  deriving DecidableEq, Repr

/-- A configuration block of a context: warp mesh or barcode profile (R350, R355). -/
structure CtxBlock where
  pool : Nat
  handle : Nat
  ctx : Nat
  block : List Byte
  deriving DecidableEq, Repr

/-- A record stream context (R364). -/
structure Stream where
  handle : Nat
  ctx : Nat
  base : Nat
  len : Nat
  off : Nat
  deriving DecidableEq, Repr

/-- A slot of a Caddy batch (R369, R371). -/
structure Slot where
  item : Word
  sample : Nat
  source : Nat
  eng : Nat
  status : Nat
  settled : Bool              -- written or voided
  taken : Bool                -- false: reserved by a window, not yet filled
  deriving DecidableEq, Repr

/-- A Caddy batch (R368-R371). -/
structure Batch where
  no : Nat
  cfg : List Byte             -- the configuration it was opened under
  slots : List Slot
  closed : Bool
  flags : Nat
  deriving DecidableEq, Repr

/-- A Caddy queue (R367). -/
structure CaddyQ where
  handle : Nat
  q : Nat
  cfg : List Byte             -- configure descriptor that its last batch opened under
  nextCfg : Option (List Byte)
  batchNo : Nat
  batches : List Batch        -- open and closed, oldest first
  waiting : Bool              -- waits for free_tok
  granted : Bool              -- free_tok was taken for the next batch
  window : List (Word × Nat × Bool) -- reserved samples not yet given a slot; true: voided before it has one
  armed : Bool
  deriving DecidableEq, Repr

/-- A check-value context (R377-R381). -/
structure CheckCtx where
  handle : Nat
  ctx : Nat
  alg : Nat
  width : Nat
  refl : Nat
  init : Nat
  poly : Nat
  xor_ : Nat
  value : Nat
  periodic : Option Job
  deriving DecidableEq, Repr

/-- A sample whose hash is to be computed (R396, R402). -/
structure SampleWork where
  item : Word
  summary : List Byte
  deriving DecidableEq, Repr

/-- The loader's jobs that stand in the queues of the check-value and hash engines (R346, R381, R382): their place by age, when they came
there, and how many of each. -/
structure LoaderJobs where
  ord : Nat
  at_ : DevTime
  checks : Nat
  hashes : Nat
  deriving DecidableEq, Repr

/-- The engines' part of the state. -/
structure Engines where
  jobs : List Job             -- age order
  running : List Running
  blocks : List CtxBlock
  streams : List Stream
  caddy : List CaddyQ
  checks : List CheckCtx
  samples : List SampleWork
  loader : Option LoaderJobs
  deriving DecidableEq, Repr

/-! ## The belt and the field side (13) -/

/-- An encoder channel on Ouvfi (R407-R416). -/
structure Encoder where
  pos : Pos
  a : Bool
  b : Bool
  reverse : Bool
  peak : Pos
  last : Option Nat           -- last serial reading
  reading : Bool              -- a serial frame is being clocked out
  phat : BitVec 64            -- 48 integer, 16 fraction bits
  vhat : Int                  -- counts per us, 32 fraction bits
  ahat : Int
  vBefore : Int               -- v-hat 1 ms earlier
  updates : Nat
  zpos : Pos
  biss : Nat
  deriving DecidableEq, Repr

/-- The Eboux copy of an encoder (R20, R417). -/
structure EncCopy where
  pos : Pos
  vhat : Int
  reverse : Bool
  frac : Nat                  -- 32 fraction bits of a copy that runs on (R417)
  deriving DecidableEq, Repr

/-- An output's governor (R435). -/
structure Output where
  on : Bool
  fuse : Bool                 -- held on by its fuse-map reset state until the host configures it (R535)
  locked : Bool               -- off until every source has released
  since : DevTime             -- start of the on-period
  lastOff : Option DevTime
  starts : List DevTime
  deriving DecidableEq, Repr

/-- A DIO input (R419, R420). -/
structure Input where
  raw : Bool
  level : Bool                -- debounced
  start : Option (DevTime × Pos) -- start of the stable period of a new level
  deriving DecidableEq, Repr

/-- An accepted edge on its way to Eboux (R420). -/
structure Edge where
  chan : Nat
  level : Bool
  time : DevTime
  pos : Pos
  opens : List (Nat × Nat)    -- sources it still has to open an item of, with the number of that opening edge
  closes : List Nat           -- sources whose item it still has to close
  deriving DecidableEq, Repr

/-- An entry of the Kerb (R423). -/
structure KerbEntry where
  kind : Nat                  -- 0 free, 1 fire, 2 train
  chan : Nat
  flags : Nat
  item : Word
  enc : Nat                   -- the position source it is compared with
  src : Nat
  target : Pos
  param : Nat
  count : Nat
  stop : Pos
  stopOff : Nat               -- stop offset of the train's plan
  lead : Nat
  judge : Bool                -- it arrived in REVERSE and its late test is still to come (R427)
  onPos : Pos
  onTime : DevTime            -- start of the pulse
  ord : Option Nat            -- opening edge of a train's item (R433)
  deriving DecidableEq, Repr

/-- A message on its way to the Kerb (R424, R432). -/
structure KerbMsg where
  train : Bool
  chan : Nat
  item : Word
  enc : Nat
  src : Nat
  target : Pos
  default_ : Bool
  spacing : Nat
  max : Nat
  stopOff : Nat
  ord : Option Nat            -- opening edge of a train's item (R433)
  deriving DecidableEq, Repr

/-- A trigger plan (R431). -/
structure Plan where
  handle : Nat
  bytes : List Byte           -- 32 bytes of payload
  deriving DecidableEq, Repr

/-- The Ouvfi die. -/
structure Ouvfi where
  powered : Bool
  encs : List Encoder
  outputs : List Output
  inputs : List Input
  entries : List KerbEntry    -- 256
  edgeQ : List Edge           -- at most 64
  edgesLost : Nat             -- lost since the last event 0x0006
  heartbeat : Bool            -- a heartbeat has arrived and not timed out since
  discarded : Nat             -- entries discarded at the last safe state entry
  report : Bool               -- a safe state entry is still to be reported (R437)
  hotTrip : Bool              -- the Ouvfi sensor has read 115 °C and not yet 105 °C or less since (R506)
  time : DevTime              -- the copy of device time (R21)
  openOrd : List Nat          -- opening edges accepted and queued, per source (R433)
  closed : List (Nat × Nat × Pos) -- per source, the opening edge whose close was accepted last, and the close position
  deriving DecidableEq, Repr

/-! ## Time and network (14) -/

/-- A queued transmit entry: kind 0 PTP event frame, 1 result-stream datagram, 2 other (R459). -/
structure TxEntry where
  kind : Nat
  bytes : List Byte           -- without its frame check sequence
  writeBack : Bool            -- its descriptor's write-back bit (R457)
  deferred : Bool             -- the cap has held it back (R464)
  deriving DecidableEq, Repr

/-- An entry of the transmit time-stamp queue (R458). -/
structure TsEntry where
  time : DevTime
  msgType : Nat
  domain : Nat
  seqId : Nat
  deriving DecidableEq, Repr

/-- A step of device time that has been requested (R447): by a distance in units of 2^-8 ns, or to a time. -/
structure PendStep where
  by_ : Int
  to_ : Option DevTime
  at_ : DevTime
  deriving DecidableEq, Repr

/-- Device time, servo and the network port. -/
structure TimeNet where
  now : DevTime
  applied : Nat               -- applied increment in 2^-32 ns
  integral : Int
  lockRun : Nat
  locked : Bool
  stagedLo : Word             -- TIM_INC_LO as staged (R563)
  adj : Int                   -- adjustment in ppb, 16 fraction bits
  pendStep : Option PendStep
  ethUp : Bool
  ptpMaster : Bool            -- the ordinary clock's port is a master, by the best master clock algorithm (R455)
  rxQ : List (List Byte × DevTime) -- frames handed to firmware
  txQ : List TxEntry
  tsQ : List TsEntry
  txDone : List (List Byte × List Byte) -- frames sent by a descriptor with the write-back bit, with its 16-byte status area (R457)
  capFree : Nat               -- device time, in 2^-32 ns, before which the transmit cap lets no frame leave (R459)
  dgram : Nat
  ipId : Nat
  dropMark : Bool             -- records dropped since the last datagram was sent
  deriving DecidableEq, Repr

/-! ## Links, power, reset -/

/-- A Boulevard port (R483-R491). -/
structure Blv where
  expect : Nat                -- next sequence number to deliver
  retry : List Nat            -- channels of the flits in the retry buffer, oldest first (R486)
  held : List Nat             -- channels of the flits that wait for a credit or for room in the retry buffer, oldest first
  credits : List Nat          -- credits toward the peer of VC0, VC1 and VC2 (R485)
  owed : Nat                  -- flits received whose acknowledge and credit have not gone back (R488)
  fails : Nat                 -- failed replays of the flit at hand
  rxIdle : Bool               -- the receive direction is in electrical idle
  locks : List Bool           -- lanes whose pattern checker has locked
  deriving DecidableEq, Repr

/-- One commit as the governor sees it (R507). -/
structure GovCommit where
  src : Nat
  reach : Int
  tailNs : Nat
  freq : Nat
  deriving DecidableEq, Repr

/-- Power, governor and isolation state (16). -/
structure Power where
  levelP : Nat                -- level the power demand asks for
  levelT : Nat                -- level the thermal demand asks for
  demandP : Bool
  demandT : Bool
  commits : List GovCommit    -- newest first
  sourceCommits : List Nat    -- commits per source since it was enabled
  isolated : List BlockUnit
  asleep : List (Nat × Nat)   -- wake chain and unit: released from reset, its clock not yet started (R499)
  busyAt : List Nat           -- per core, TC_BUSY at the governor's last update
  skip : Nat                  -- throttle level × ns since that update (R503, R507)
  vbakOk : Bool
  deriving DecidableEq, Repr

/-- Where the module is in a reset (R523-R526). -/
inductive ResetPhase where
  | running | held | stretching
  deriving DecidableEq, Repr

/-- An entry of the cause history (R538), 64 bits. -/
abbrev HistEntry := DWord

/-- Reset, boot and trust state (17). -/
structure ResetState where
  phase : ResetPhase
  level : Nat                 -- 0 core, 1 system, 2 power-on
  asserted : Nat              -- bitmap of sources asserted now
  sources : Nat               -- bitmap of sources since the assertion
  widened : Bool
  trimRestart : Bool
  trimBusy : Bool
  outHigh : Bool              -- RESET_OUT_N is high (R526, R536)
  before : Nat                -- RST_BOOT.state when the reset in force was asserted
  since : Nat                 -- device time seconds at assertion
  hist : List HistEntry       -- newest first, at most 16 (backup domain)
  bakSys : Word
  bakCore : Word
  bakValid : Bool
  wdogExpired : Bool
  flashA : List Byte
  flashB : List Byte
  fails : List Nat            -- consecutive boot expiries of slots A and B
  measurement : List Byte
  aliasPk : List Byte
  devidPk : List Byte
  aliasSeed : List Byte
  aliasCert : List Byte
  modelKeys : List (Nat × Nat × List Byte) -- slot, parameter set, key
  deriving DecidableEq, Repr

/-- What the function's configuration space holds of the identity and capabilities that the manual gives it (R5, R465, R466). -/
structure PciCfg where
  vendor : Nat
  device : Nat
  classCode : Nat
  noSoftReset : Bool
  ctoMinUs : Nat              -- completion timeout range, µs
  ctoMaxUs : Nat
  msixVectors : Nat
  maxPayload : Nat            -- bytes
  maxRead : Nat               -- bytes
  headerLog : List Word       -- AER header log, 4 words
  deriving DecidableEq, Repr

/-- Host link state (15). -/
structure HostLink where
  cfg : PciCfg
  bme : Bool
  d3 : Bool
  linkUp : Bool
  vecPend : BitVec 64         -- pending bits of the MSI-X vectors (R479, R480)
  deriving DecidableEq, Repr

/-- The whole module. -/
structure State where
  pending : List Instr
  regs : List (Nat × Word)    -- register words by BAR0 offset; an unlisted one holds its reset value
  tv : List TvReg
  ctr : List (Nat × Nat)      -- live counters, keyed by the offset of their snapshot register; unlisted is zero
  latches : List Latched
  snapPending : Bool          -- GLB_SNAP_ALL.pending
  rdata : Nat                 -- what the last reading command returned
  rstat : Nat                 -- the status that the last access row answered
  out : List OutMsg
  fuse : Fuses
  mem : Memory                -- Square and LPDDR-6 by device address
  hostMem : Memory            -- host memory by host address
  peerMem : Memory            -- neighbours' Squares by device address
  fresh : Nat                 -- index of the next free value
  stamp : Nat                 -- order stamp of events that happen
  led : Ledger
  sq : Square
  progs : List Program
  lastHandle : Nat
  tokens : List Token
  tasks : List Task
  cores : List TensorCore
  seqs : List Sequence
  clients : List SqmClient
  ports : List Port
  pipes : List Pipe
  binds : List Binding
  eng : Engines
  ouv : Ouvfi
  copies : List EncCopy
  refreshLost : Bool
  toKerb : List KerbMsg
  plans : List Plan
  tim : TimeNet
  blv : List Blv
  pwr : Power
  rst : ResetState
  host : HostLink
  deriving DecidableEq, Repr

/-- Device time zero (R463). -/
def DevTime.zero : DevTime := { sec := 0, ns := 0, frac := 0 }

/-- The fuse map that State.reset names (DESIGN CHOICE, log entry 3; the output limits are the standard map of R435). -/
def Fuses.standard : Fuses :=
  { serial := 0, stepBuild := 0, subsys := 0, spare := 16, wdogForce := false, dioOut := 0, dioOn := 0, dioSafe := 0
    krbLim := List.replicate 32 (BitVec.ofNat 32 (200 + 20 * 65536))
    krbRate := List.replicate 32 50
    svn := 0, revoked := 0, ethMac := 0, tsLat := 0 }

/-- An encoder channel at reset. -/
def Encoder.reset : Encoder :=
  { pos := 0, a := false, b := false, reverse := false, peak := 0, last := none, reading := false, phat := 0, vhat := 0
    ahat := 0, vBefore := 0, updates := 0, zpos := 0, biss := 0 }

/-- An output that is off. -/
def Output.reset : Output :=
  { on := false, fuse := false, locked := false, since := DevTime.zero, lastOff := none, starts := [] }

/-- An input whose line is off. -/
def Input.reset : Input := { raw := false, level := false, start := none }

/-- A free entry of the Kerb. -/
def KerbEntry.free : KerbEntry :=
  { kind := 0, chan := 0, flags := 0, item := 0, enc := 0, src := 0, target := 0, param := 0, count := 0, stop := 0
    stopOff := 0, lead := 0, judge := false, onPos := 0, onTime := DevTime.zero, ord := none }

/-- A port with no frame. -/
def Port.reset : Port :=
  { frames := [], nextNo := 0, gated := [], curFmt := none, requests := [], lastItems := [], skips := [], line := none, fv := false, lost := false
    storeNext := 0, lastTrig := none, trigHigh := false, pclk := true
    ccWrite := false, ccLen := 0 }

/-- A pipeline context with the built-in pass-through set. -/
def PipeCtx.reset : PipeCtx :=
  { active := none, pending := none, loadingSet := false, gen := 0, loadAddr := 0, refOk := false, refWidth := 0, refLines := 0 }

/-- An idle pipeline. -/
def Pipe.reset : Pipe := { ctxs := [PipeCtx.reset, PipeCtx.reset], serving := none, lastCtx := 0 }

/-- A core in a given state with nothing on it. -/
def TensorCore.idle (st rank : Nat) : TensorCore :=
  { st := st, phase := .idle, task := none, incoming := none, fresh := false, gated := st == 1, pendingFreq := none
    wakePoint := none, rank := rank, yielded := false, roused := false, stray := 0 }

/-- The seventeen cores as a boot leaves them in which every core passes and the fused spare is `spare` (R112). -/
def TensorCore.boot (spare : Nat) : List TensorCore :=
  (List.range 17).map fun n => TensorCore.idle (if n = spare then 1 else 0) n

/-- A Boulevard port in DOWN. -/
def Blv.reset : Blv :=
  { expect := 0, retry := [], held := [], credits := [0, 0, 0], owed := 0, fails := 0, rxIdle := false, locks := [false, false, false, false] }

/-- The ledger with no item. -/
def Ledger.reset : Ledger :=
  { items := [], committing := [], streamQ := [], overflow := [], ovfNext := 0, evtNum := 0
    evtDropped := 0, heldLoss := none, heldReleases := [], lossAfter := 0, ringFailed := false, aborted := [], subQ := [], srcItem := [], ended := [] }

/-- The Square with nothing allocated. -/
def Square.reset : Square :=
  { runs := [], poison := [], ceInPass := List.replicate 128 0, scrubLine := List.replicate 128 0, retiring := []
    sparesUsed := 0, laneFails := [], laneSpare := [] }

/-- Engines with no job and no context. -/
def Engines.reset : Engines :=
  { jobs := [], running := [], blocks := [], streams := [], caddy := [], checks := [], samples := [], loader := none }

/-- The Ouvfi die with its field supply up and the pin states of a fuse map (R535). -/
def Ouvfi.reset (f : Fuses) : Ouvfi :=
  { powered := true, encs := List.replicate 4 Encoder.reset
    outputs := (List.range 32).map fun n => { Output.reset with on := f.dioOut.getLsbD n && f.dioOn.getLsbD n, fuse := f.dioOut.getLsbD n && f.dioOn.getLsbD n }
    inputs := List.replicate 32 Input.reset, entries := List.replicate 256 KerbEntry.free, edgeQ := [], edgesLost := 0
    heartbeat := false, discarded := 0, report := false, hotTrip := false, time := DevTime.zero, openOrd := List.replicate 8 0
    closed := [] }

/-- Device time zero, nominal increment (R443). -/
def TimeNet.reset : TimeNet :=
  { now := DevTime.zero, applied := 10661930936, integral := 0, lockRun := 0, locked := false
    stagedLo := BitVec.ofNat 32 (10661930936 % 2 ^ 32)
    adj := 0, pendStep := none, ethUp := false, ptpMaster := false, rxQ := [], txQ := [], tsQ := [], txDone := [], capFree := 0, dgram := 0, ipId := 0, dropMark := false }

/-- No throttle, nothing isolated. -/
def Power.reset : Power :=
  { levelP := 0, levelT := 0, demandP := false, demandT := false, commits := [], sourceCommits := List.replicate 8 0
    isolated := [], vbakOk := true
    asleep := [], busyAt := List.replicate 17 0, skip := 0 }

/-- Right after the release of a power-on reset: released, the backup domain holding no entry yet. -/
def ResetState.reset : ResetState :=
  { phase := .running, level := 2, asserted := 0, sources := 1, widened := false, trimRestart := false, trimBusy := false
    outHigh := true, before := 0, since := 0, hist := [], bakSys := 0, bakCore := 0, bakValid := false
    wdogExpired := false, flashA := [], flashB := [], fails := [0, 0], measurement := [], aliasPk := [], devidPk := []
    aliasSeed := [], aliasCert := [], modelKeys := [] }

/-- The configuration space of the function at reset (R465, R466): the device ID is the part code of the identity registers (DEDUCED, log
entry 89), and the header log holds nothing. -/
def PciCfg.reset : PciCfg :=
  { vendor := 0x1D57, device := 0x1612, classCode := 0x118000, noSoftReset := false, ctoMinUs := 50, ctoMaxUs := 50000, msixVectors := 64
    maxPayload := 512, maxRead := 4096, headerLog := [0, 0, 0, 0] }

/-- The host link before configuration: no message pending, bus mastering off. -/
def HostLink.reset : HostLink :=
  { cfg := PciCfg.reset, bme := false, d3 := false, linkUp := false, vecPend := 0 }

/-- The module right after reset: every register at its reset value, no program, no item, memory with nothing listed,
the command queue empty. -/
def State.reset : State :=
  { pending := [], regs := [], tv := [], ctr := [], latches := [], snapPending := false, rdata := 0, rstat := 0, out := []
    fuse := Fuses.standard, mem := [], hostMem := [], peerMem := [], fresh := 0, stamp := 0
    led := Ledger.reset, sq := Square.reset, progs := [], lastHandle := 0, tokens := [], tasks := []
    cores := TensorCore.boot Fuses.standard.spare, seqs := [], clients := List.replicate 4 { handle := 0, part := 0, stepBy := [], armed := false }, ports := List.replicate 16 Port.reset
    pipes := List.replicate 14 Pipe.reset, binds := [], eng := Engines.reset, ouv := Ouvfi.reset Fuses.standard
    copies := List.replicate 4 { pos := 0, vhat := 0, reverse := false, frac := 0 }, refreshLost := false, toKerb := [], plans := []
    tim := TimeNet.reset, blv := List.replicate 2 Blv.reset, pwr := Power.reset, rst := ResetState.reset
    host := HostLink.reset }

end Sys2Proof.Machine
end

