-- ==== Sys2Proof/Machine/Mem.lean ====
section
/-! DEFINITION. Memory operations: one canonical list of (address, byte) pairs, read and written by runs of bytes, and the
list of poisoned 8-byte words beside it. -/

namespace Sys2Proof.Machine

open Sys2Proof

/-- The canonical form: addresses strictly rising, no entry equal to what an unlisted address reads as. -/
abbrev Memory.wf (m : Memory) : Prop := m.Pairwise (fun a b => a.1 < b.1) ∧ ∀ c ∈ m, c.2 ≠ 0

/-- What an address that is not listed reads as (DESIGN CHOICE, log entry 6). -/
def memUnlisted : Byte := 0

/-- One byte of a memory. -/
def memGet (m : Memory) (a : Nat) : Byte :=
  match m.find? (fun c => c.1 == a) with
  | some c => c.2
  | none => memUnlisted

/-- `n` bytes of a memory from address `a` on. -/
def memRead (m : Memory) (a n : Nat) : List Byte :=
  let w := m.filter (fun c => decide (a ≤ c.1) && decide (c.1 < a + n))
  (List.range n).map fun i => memGet w (a + i)

/-- The entries that a run of bytes at `a` lists: those that are not zero. -/
def memCells : Nat → List Byte → Memory
  | _, [] => []
  | a, b :: bs => if b = 0 then memCells (a + 1) bs else (a, b) :: memCells (a + 1) bs

/-- Writes a run of bytes at `a`; every other address keeps its byte. -/
def memWrite (m : Memory) (a : Nat) (bs : List Byte) : Memory :=
  m.filter (fun c => decide (c.1 < a)) ++ memCells a bs ++ m.filter (fun c => decide (a + bs.length ≤ c.1))

/-- Writes zero to `n` bytes at `a`. -/
def memZero (m : Memory) (a n : Nat) : Memory :=
  m.filter (fun c => decide (c.1 < a) || decide (a + n ≤ c.1))

/-- The little-endian number of `n` bytes at `a`. -/
def memLe (m : Memory) (a n : Nat) : Nat := ofLe (memRead m a n)

/-- The numbers of the 8-byte words that `n` bytes at `a` touch. -/
def wordsOf (a n : Nat) : List Nat :=
  if n = 0 then [] else (List.range ((a + n - 1) / 8 + 1 - a / 8)).map (· + a / 8)

/-- The big-endian number of `n` bytes at an offset. -/
def beAt (bs : List Byte) (o n : Nat) : Nat := ofLe ((bs.drop o).take n).reverse

/-- The words that `n` bytes at `a` cover whole. -/
def wordsWhole (a n : Nat) : List Nat := (wordsOf a n).filter fun w => decide (a ≤ 8 * w) && decide (8 * w + 8 ≤ a + n)

/-- Some byte of `n` bytes at `a` lies in a poisoned word. -/
def poisonHit (p : List Nat) (a n : Nat) : Bool := p.any fun w => decide (a < 8 * w + 8) && decide (8 * w < a + n) 

/-- Some poisoned word is touched by `n` bytes at `a` but not covered whole (R78). -/
def poisonPart (p : List Nat) (a n : Nat) : Bool :=
  p.any fun w => (decide (a < 8 * w + 8) && decide (8 * w < a + n)) && !(decide (a ≤ 8 * w) && decide (8 * w + 8 ≤ a + n))

/-- Poisons a word. -/
def poisonAdd (p : List Nat) (w : Nat) : List Nat := if p.contains w then p else p ++ [w]

/-- Writing a word whole ends its poison (R78). -/
def poisonClear (p : List Nat) (a n : Nat) : List Nat :=
  p.filter fun w => !(decide (a ≤ 8 * w) && decide (8 * w + 8 ≤ a + n))

end Sys2Proof.Machine
end

