-- ==== Sys2Proof/Machine/RegMap.lean ====
section
/-! DEFINITION. The register map: where each register lies (R552: BAR0 offset = block base + offset), its fields with their
access codes and reset values (R9), who may write it (R559) and its key (R560). Written from the register tables of the
chapters that own the blocks. A reset value that a table calls "fuse", "die" or "boot" stands here as zero and is computed
by `readReg`; KRB 0x00C, BLV and ISP gaps and every offset not listed hold no register (R553). -/

namespace Sys2Proof.Machine

open Sys2Proof

/-- Access codes of R9 (RV bits are the bits no field covers). -/
inductive AccessCode where
  | ro | rw | wo | rws | tv
  deriving DecidableEq, Repr

/-- A register field: lowest bit, width, access code, reset value. -/
structure Field where
  lo : Nat
  w : Nat
  acc : AccessCode
  rst : Nat
  deriving DecidableEq, Repr

/-- A register or an array of registers. `who`: 0 either writer, 1 host only, 2 control complex only (R559). `key`: 0 for
none. `status`: a status register (R11-R14). -/
structure RegDef where
  base : Nat
  n : Nat
  stride : Nat
  m : Nat
  stride2 : Nat
  fields : List Field
  who : Nat
  key : Nat
  status : Bool
  deriving DecidableEq, Repr

/-- The BAR0 offset of element `i` of a register array, word `j`. -/
def RegDef.off (d : RegDef) (i j : Nat) : Nat := d.base + i * d.stride + j * d.stride2

/-- Whether an offset is a word of the register or array. -/
def RegDef.holds (d : RegDef) (off : Nat) : Bool :=
  d.base ≤ off &&
  (let r := off - d.base
   let i := if d.stride = 0 then 0 else min (r / d.stride) (d.n - 1)
   let r2 := r - i * d.stride
   let j := if d.stride2 = 0 then 0 else r2 / d.stride2
   decide (i < d.n) && decide (j < d.m) && decide (i * d.stride + j * d.stride2 = r))

/-- Element number of an offset in a register array. -/
def RegDef.index (d : RegDef) (off : Nat) : Nat :=
  if d.stride = 0 then 0 else min ((off - d.base) / d.stride) (d.n - 1)

/-- Word number of an offset within an element of a register array. -/
def RegDef.word (d : RegDef) (off : Nat) : Nat :=
  if d.stride2 = 0 then 0 else (off - d.base - d.index off * d.stride) / d.stride2

/-- A field of the register tables. -/
def fld (lo w : Nat) (acc : AccessCode) (rst : Nat := 0) : Field := { lo := lo, w := w, acc := acc, rst := rst }

/-- The mask of the bits a field covers. -/
def Field.mask (f : Field) : Nat := (2 ^ f.w - 1) * 2 ^ f.lo

/-- The reset word of a register: every field at its reset value, every other bit zero. -/
def RegDef.resetWord (d : RegDef) : Word :=
  BitVec.ofNat 32 (d.fields.foldl (fun a f => a ||| (f.rst * 2 ^ f.lo)) 0)

/-- The mask of the fields with an access code. -/
def RegDef.maskOf (d : RegDef) (a : AccessCode) : Nat :=
  d.fields.foldl (fun m f => if f.acc = a then m ||| f.mask else m) 0

namespace Reg

/-- The register glbId. -/
def glbId : RegDef :=
  { base := 0x0, n := 1, stride := 0, m := 1, stride2 := 0, who := 0, key := 0x0, status := false
    fields := [fld 0 16 .ro 7511, fld 16 16 .ro 5650] }

/-- The register glbStep. -/
def glbStep : RegDef :=
  { base := 0x4, n := 1, stride := 0, m := 1, stride2 := 0, who := 0, key := 0x0, status := false
    fields := [fld 0 24 .ro, fld 24 8 .ro 2] }

/-- The register glbFeat0. -/
def glbFeat0 : RegDef :=
  { base := 0x8, n := 1, stride := 0, m := 1, stride2 := 0, who := 0, key := 0x0, status := false
    fields := [fld 0 8 .ro 17, fld 8 8 .ro 16, fld 16 8 .ro 12, fld 24 8 .ro 4] }

/-- The register glbFeat1. -/
def glbFeat1 : RegDef :=
  { base := 0xC, n := 1, stride := 0, m := 1, stride2 := 0, who := 0, key := 0x0, status := false
    fields := [fld 0 8 .ro 14, fld 8 8 .ro 2, fld 16 8 .ro 32, fld 24 8 .ro 4] }

/-- The register glbSerialLo. -/
def glbSerialLo : RegDef :=
  { base := 0x10, n := 1, stride := 0, m := 1, stride2 := 0, who := 0, key := 0x0, status := false
    fields := [fld 0 32 .ro] }

/-- The register glbSerialHi. -/
def glbSerialHi : RegDef :=
  { base := 0x14, n := 1, stride := 0, m := 1, stride2 := 0, who := 0, key := 0x0, status := false
    fields := [fld 0 32 .ro] }

/-- The register glbFw. -/
def glbFw : RegDef :=
  { base := 0x18, n := 1, stride := 0, m := 1, stride2 := 0, who := 2, key := 0x0, status := false
    fields := [fld 0 16 .rw, fld 16 6 .rw, fld 31 1 .rw] }

/-- The register glbSubsys. -/
def glbSubsys : RegDef :=
  { base := 0x1C, n := 1, stride := 0, m := 1, stride2 := 0, who := 0, key := 0x0, status := false
    fields := [fld 0 32 .ro] }

/-- The register glbMode. -/
def glbMode : RegDef :=
  { base := 0x20, n := 1, stride := 0, m := 1, stride2 := 0, who := 0, key := 0x0, status := false
    fields := [fld 0 1 .rw, fld 1 1 .ro, fld 8 7 .rw 70] }

/-- The register glbStatus. -/
def glbStatus : RegDef :=
  { base := 0x24, n := 1, stride := 0, m := 1, stride2 := 0, who := 0, key := 0x0, status := true
    fields := [fld 0 1 .rws, fld 1 1 .rws, fld 2 1 .rws, fld 3 1 .rws, fld 16 16 .ro] }

/-- The register glbErr. -/
def glbErr : RegDef :=
  { base := 0x28, n := 1, stride := 0, m := 1, stride2 := 0, who := 0, key := 0x0, status := false
    fields := [fld 0 24 .ro, fld 24 1 .ro, fld 25 1 .ro, fld 26 1 .ro, fld 31 1 .ro] }

/-- The register glbSnapAll. -/
def glbSnapAll : RegDef :=
  { base := 0x2C, n := 1, stride := 0, m := 1, stride2 := 0, who := 0, key := 0x0, status := false
    fields := [fld 0 1 .ro, fld 1 15 .wo, fld 16 16 .ro] }

/-- The register glbCores. -/
def glbCores : RegDef :=
  { base := 0x30, n := 1, stride := 0, m := 1, stride2 := 0, who := 0, key := 0x0, status := false
    fields := [fld 0 17 .ro, fld 24 1 .ro] }

/-- The register glbFenced. -/
def glbFenced : RegDef :=
  { base := 0x34, n := 1, stride := 0, m := 1, stride2 := 0, who := 0, key := 0x0, status := false
    fields := [fld 0 17 .ro] }

/-- The register glbFeat2. -/
def glbFeat2 : RegDef :=
  { base := 0x38, n := 1, stride := 0, m := 1, stride2 := 0, who := 0, key := 0x0, status := false
    fields := [fld 0 16 .ro 512, fld 16 16 .ro 64] }

/-- The register glbSummary. -/
def glbSummary : RegDef :=
  { base := 0x40, n := 1, stride := 0, m := 1, stride2 := 0, who := 0, key := 0x0, status := false
    fields := [fld 0 31 .ro] }

/-- The register glbSem. -/
def glbSem : RegDef :=
  { base := 0x60, n := 1, stride := 0, m := 1, stride2 := 0, who := 1, key := 0x0, status := false
    fields := [fld 0 32 .rw] }

/-- The register glbScratch. -/
def glbScratch : RegDef :=
  { base := 0x80, n := 8, stride := 4, m := 1, stride2 := 0, who := 0, key := 0x0, status := false
    fields := [fld 0 32 .rw] }

/-- The register rstCause. -/
def rstCause : RegDef :=
  { base := 0x10000, n := 1, stride := 0, m := 1, stride2 := 0, who := 0, key := 0x0, status := false
    fields := [fld 0 13 .ro 1, fld 16 2 .ro 2] }

/-- The register rstStatus. -/
def rstStatus : RegDef :=
  { base := 0x10004, n := 1, stride := 0, m := 1, stride2 := 0, who := 0, key := 0x0, status := true
    fields := [fld 0 1 .rws, fld 2 1 .rws, fld 3 1 .rws, fld 16 16 .ro] }

/-- The register rstTrim. -/
def rstTrim : RegDef :=
  { base := 0x10008, n := 1, stride := 0, m := 1, stride2 := 0, who := 0, key := 0x0, status := false
    fields := [fld 0 1 .ro, fld 1 1 .ro, fld 8 8 .ro] }

/-- The register rstCfg. -/
def rstCfg : RegDef :=
  { base := 0x1000C, n := 1, stride := 0, m := 1, stride2 := 0, who := 1, key := 0x0, status := false
    fields := [fld 0 1 .rw, fld 16 16 .rw 100] }

/-- The register rstWdog. -/
def rstWdog : RegDef :=
  { base := 0x10010, n := 1, stride := 0, m := 1, stride2 := 0, who := 1, key := 0x0, status := false
    fields := [fld 0 16 .rw 1000, fld 16 1 .rw 1] }

/-- The register rstKick. -/
def rstKick : RegDef :=
  { base := 0x10014, n := 1, stride := 0, m := 1, stride2 := 0, who := 2, key := 0x6B1C, status := false
    fields := [fld 0 2 .wo, fld 16 16 .wo] }

/-- The register rstReq. -/
def rstReq : RegDef :=
  { base := 0x10018, n := 1, stride := 0, m := 1, stride2 := 0, who := 2, key := 0x9E57, status := false
    fields := [fld 0 2 .wo, fld 16 16 .wo] }

/-- The register rstFuse. -/
def rstFuse : RegDef :=
  { base := 0x1001C, n := 1, stride := 0, m := 1, stride2 := 0, who := 0, key := 0x0, status := false
    fields := [fld 0 1 .tv] }

/-- The register rstBoot. -/
def rstBoot : RegDef :=
  { base := 0x10020, n := 1, stride := 0, m := 1, stride2 := 0, who := 0, key := 0x0, status := false
    fields := [fld 0 4 .ro, fld 4 2 .ro, fld 6 1 .wo, fld 8 24 .wo] }

/-- The register rstBakSys. -/
def rstBakSys : RegDef :=
  { base := 0x10028, n := 1, stride := 0, m := 1, stride2 := 0, who := 0, key := 0x0, status := false
    fields := [fld 0 32 .ro] }

/-- The register rstBakCore. -/
def rstBakCore : RegDef :=
  { base := 0x1002C, n := 1, stride := 0, m := 1, stride2 := 0, who := 0, key := 0x0, status := false
    fields := [fld 0 32 .ro] }

/-- The register rstBakStat. -/
def rstBakStat : RegDef :=
  { base := 0x10030, n := 1, stride := 0, m := 1, stride2 := 0, who := 0, key := 0x0, status := false
    fields := [fld 0 1 .ro] }

/-- The register rstHist. -/
def rstHist : RegDef :=
  { base := 0x10040, n := 32, stride := 4, m := 1, stride2 := 0, who := 0, key := 0x0, status := false
    fields := [fld 0 32 .ro] }

/-- The register secStatus. -/
def secStatus : RegDef :=
  { base := 0x20000, n := 1, stride := 0, m := 1, stride2 := 0, who := 0, key := 0x0, status := true
    fields := [fld 0 1 .ro, fld 1 1 .rws, fld 2 1 .rws, fld 3 1 .rws, fld 4 1 .ro, fld 16 16 .ro] }

/-- The register secPolicy. -/
def secPolicy : RegDef :=
  { base := 0x20004, n := 1, stride := 0, m := 1, stride2 := 0, who := 1, key := 0x0, status := false
    fields := [fld 0 1 .rw, fld 1 1 .rw] }

/-- The register secSvn. -/
def secSvn : RegDef :=
  { base := 0x20008, n := 1, stride := 0, m := 1, stride2 := 0, who := 0, key := 0x0, status := false
    fields := [fld 0 6 .ro, fld 8 7 .ro] }

/-- The register secRoll. -/
def secRoll : RegDef :=
  { base := 0x2000C, n := 1, stride := 0, m := 1, stride2 := 0, who := 1, key := 0x71A3, status := false
    fields := [fld 0 7 .wo, fld 16 16 .wo] }

/-- The register secKeys. -/
def secKeys : RegDef :=
  { base := 0x20010, n := 1, stride := 0, m := 1, stride2 := 0, who := 0, key := 0x0, status := false
    fields := [fld 0 4 .tv, fld 8 2 .ro] }

/-- The register secMeas. -/
def secMeas : RegDef :=
  { base := 0x20040, n := 8, stride := 4, m := 1, stride2 := 0, who := 0, key := 0x0, status := false
    fields := [fld 0 32 .ro] }

/-- The register secAliasPk. -/
def secAliasPk : RegDef :=
  { base := 0x20060, n := 8, stride := 4, m := 1, stride2 := 0, who := 0, key := 0x0, status := false
    fields := [fld 0 32 .ro] }

/-- The register secDevidPk. -/
def secDevidPk : RegDef :=
  { base := 0x20080, n := 8, stride := 4, m := 1, stride2 := 0, who := 0, key := 0x0, status := false
    fields := [fld 0 32 .ro] }

/-- The register pciStatus. -/
def pciStatus : RegDef :=
  { base := 0x30000, n := 1, stride := 0, m := 1, stride2 := 0, who := 0, key := 0x0, status := true
    fields := [fld 0 1 .rws, fld 1 1 .rws, fld 2 1 .rws, fld 3 1 .rws, fld 4 1 .rws, fld 5 1 .rws, fld 6 1 .rws, fld 16 16 .ro] }

/-- The register pciLink. -/
def pciLink : RegDef :=
  { base := 0x30004, n := 1, stride := 0, m := 1, stride2 := 0, who := 0, key := 0x0, status := false
    fields := [fld 0 3 .ro, fld 4 4 .ro, fld 8 1 .ro] }

/-- The register pciAp. -/
def pciAp : RegDef :=
  { base := 0x30008, n := 1, stride := 0, m := 1, stride2 := 0, who := 1, key := 0x0, status := false
    fields := [fld 0 10 .rw] }

/-- The register pciCtl. -/
def pciCtl : RegDef :=
  { base := 0x3000C, n := 1, stride := 0, m := 1, stride2 := 0, who := 0, key := 0x0, status := false
    fields := [fld 0 1 .rw] }

/-- The register pciSnapCtl. -/
def pciSnapCtl : RegDef :=
  { base := 0x30010, n := 1, stride := 0, m := 1, stride2 := 0, who := 0, key := 0x0, status := false
    fields := [fld 0 16 .wo, fld 16 16 .ro] }

/-- The register pciSnapCnt. -/
def pciSnapCnt : RegDef :=
  { base := 0x30020, n := 4, stride := 4, m := 1, stride2 := 0, who := 0, key := 0x0, status := false
    fields := [fld 0 32 .ro] }

/-- The register pciWinLo. -/
def pciWinLo : RegDef :=
  { base := 0x30100, n := 16, stride := 16, m := 1, stride2 := 0, who := 1, key := 0x0, status := false
    fields := [fld 0 32 .rw] }

/-- The register pciWinHi. -/
def pciWinHi : RegDef :=
  { base := 0x30104, n := 16, stride := 16, m := 1, stride2 := 0, who := 1, key := 0x0, status := false
    fields := [fld 0 32 .rw] }

/-- The register pciWinSize. -/
def pciWinSize : RegDef :=
  { base := 0x30108, n := 16, stride := 16, m := 1, stride2 := 0, who := 1, key := 0x0, status := false
    fields := [fld 0 21 .rw] }

/-- The register pciWinCtl. -/
def pciWinCtl : RegDef :=
  { base := 0x3010C, n := 16, stride := 16, m := 1, stride2 := 0, who := 1, key := 0x0, status := false
    fields := [fld 0 1 .rw, fld 1 1 .rw] }

/-- The register msixTable. -/
def msixTable : RegDef :=
  { base := 0x31000, n := 256, stride := 4, m := 1, stride2 := 0, who := 0, key := 0x0, status := false
    fields := [fld 0 32 .rw] }

/-- The register msixPba. -/
def msixPba : RegDef :=
  { base := 0x31800, n := 2, stride := 4, m := 1, stride2 := 0, who := 0, key := 0x0, status := false
    fields := [fld 0 32 .ro] }

/-- The register pwrCtl. -/
def pwrCtl : RegDef :=
  { base := 0x40000, n := 1, stride := 0, m := 1, stride2 := 0, who := 0, key := 0x0, status := false
    fields := [fld 0 1 .rw 1, fld 1 1 .rw 1] }

/-- The register pwrStatus. -/
def pwrStatus : RegDef :=
  { base := 0x40004, n := 1, stride := 0, m := 1, stride2 := 0, who := 0, key := 0x0, status := true
    fields := [fld 0 1 .rws, fld 1 1 .rws, fld 2 1 .rws, fld 3 1 .rws, fld 4 1 .rws, fld 5 1 .rws, fld 6 1 .rws, fld 7 1 .rws, fld 16 16 .ro] }

/-- The register pwrLimit. -/
def pwrLimit : RegDef :=
  { base := 0x40008, n := 1, stride := 0, m := 1, stride2 := 0, who := 1, key := 0x0, status := false
    fields := [fld 0 7 .rw 85] }

/-- The register pwrMeas. -/
def pwrMeas : RegDef :=
  { base := 0x4000C, n := 1, stride := 0, m := 1, stride2 := 0, who := 0, key := 0x0, status := false
    fields := [fld 0 16 .ro, fld 16 16 .ro] }

/-- The register pwrThrot. -/
def pwrThrot : RegDef :=
  { base := 0x40010, n := 1, stride := 0, m := 1, stride2 := 0, who := 0, key := 0x0, status := false
    fields := [fld 0 3 .ro, fld 3 1 .ro, fld 4 1 .ro] }

/-- The register pwrTemp. -/
def pwrTemp : RegDef :=
  { base := 0x40014, n := 1, stride := 0, m := 1, stride2 := 0, who := 0, key := 0x0, status := false
    fields := [fld 0 8 .ro, fld 8 8 .ro, fld 16 6 .ro] }

/-- The register pwrGate. -/
def pwrGate : RegDef :=
  { base := 0x40018, n := 1, stride := 0, m := 1, stride2 := 0, who := 0, key := 0x0, status := false
    fields := [fld 0 16 .rw 10] }

/-- The register pwrGov. -/
def pwrGov : RegDef :=
  { base := 0x4001C, n := 1, stride := 0, m := 1, stride2 := 0, who := 0, key := 0x0, status := false
    fields := [fld 0 8 .rw 20, fld 8 7 .rw 40, fld 16 7 .rw 120, fld 24 7 .rw 90] }

/-- The register pwrGov2. -/
def pwrGov2 : RegDef :=
  { base := 0x40020, n := 1, stride := 0, m := 1, stride2 := 0, who := 0, key := 0x0, status := false
    fields := [fld 0 16 .rw 256, fld 16 8 .rw 5] }

/-- The register pwrGovView. -/
def pwrGovView : RegDef :=
  { base := 0x40024, n := 1, stride := 0, m := 1, stride2 := 0, who := 0, key := 0x0, status := false
    fields := [fld 0 7 .ro 70, fld 8 2 .ro, fld 16 16 .ro] }

/-- The register pwrSnapCtl. -/
def pwrSnapCtl : RegDef :=
  { base := 0x40030, n := 1, stride := 0, m := 1, stride2 := 0, who := 0, key := 0x0, status := false
    fields := [fld 0 16 .wo, fld 16 16 .ro] }

/-- The register pwrSnapCnt. -/
def pwrSnapCnt : RegDef :=
  { base := 0x40040, n := 8, stride := 4, m := 1, stride2 := 0, who := 0, key := 0x0, status := false
    fields := [fld 0 32 .ro] }

/-- The register rasStatus. -/
def rasStatus : RegDef :=
  { base := 0x50000, n := 1, stride := 0, m := 1, stride2 := 0, who := 0, key := 0x0, status := true
    fields := [fld 0 1 .rws, fld 1 1 .rws, fld 2 1 .rws, fld 3 1 .rws, fld 4 1 .rws, fld 5 1 .rws, fld 6 1 .rws, fld 7 1 .rws, fld 16 16 .ro] }

/-- The register rasCfg. -/
def rasCfg : RegDef :=
  { base := 0x50004, n := 1, stride := 0, m := 1, stride2 := 0, who := 0, key := 0x0, status := false
    fields := [fld 0 1 .rw 1] }

/-- The register rasLast. -/
def rasLast : RegDef :=
  { base := 0x50008, n := 1, stride := 0, m := 1, stride2 := 0, who := 0, key := 0x0, status := false
    fields := [fld 0 8 .ro, fld 8 8 .ro, fld 16 8 .ro] }

/-- The register rasBlkrst. -/
def rasBlkrst : RegDef :=
  { base := 0x5000C, n := 1, stride := 0, m := 1, stride2 := 0, who := 1, key := 0xB10C, status := false
    fields := [fld 0 5 .wo, fld 16 16 .wo] }

/-- The register rasSnapCtl. -/
def rasSnapCtl : RegDef :=
  { base := 0x50010, n := 1, stride := 0, m := 1, stride2 := 0, who := 0, key := 0x0, status := false
    fields := [fld 0 16 .wo, fld 16 16 .ro] }

/-- The register rasSnapCnt. -/
def rasSnapCnt : RegDef :=
  { base := 0x50020, n := 8, stride := 4, m := 1, stride2 := 0, who := 0, key := 0x0, status := false
    fields := [fld 0 32 .ro] }

/-- The register itmCtl. -/
def itmCtl : RegDef :=
  { base := 0x60000, n := 1, stride := 0, m := 1, stride2 := 0, who := 0, key := 0x0, status := false
    fields := [fld 0 1 .rw, fld 1 1 .rw, fld 2 1 .rw, fld 8 6 .rw, fld 16 6 .rw 1] }

/-- The register itmStatus. -/
def itmStatus : RegDef :=
  { base := 0x60004, n := 1, stride := 0, m := 1, stride2 := 0, who := 0, key := 0x0, status := true
    fields := [fld 0 1 .rws, fld 1 1 .ro, fld 2 1 .rws, fld 3 1 .rws, fld 4 1 .rws, fld 5 1 .rws, fld 6 1 .rws, fld 7 1 .rws, fld 8 1 .rws, fld 9 1 .rws, fld 16 16 .ro] }

/-- The register itmCfg. -/
def itmCfg : RegDef :=
  { base := 0x60008, n := 1, stride := 0, m := 1, stride2 := 0, who := 0, key := 0x0, status := false
    fields := [fld 0 16 .rw 64] }

/-- The register itmNextId. -/
def itmNextId : RegDef :=
  { base := 0x6000C, n := 1, stride := 0, m := 1, stride2 := 0, who := 0, key := 0x0, status := false
    fields := [fld 0 32 .ro] }

/-- The register itmNextSeq. -/
def itmNextSeq : RegDef :=
  { base := 0x60010, n := 1, stride := 0, m := 1, stride2 := 0, who := 0, key := 0x0, status := false
    fields := [fld 0 32 .ro] }

/-- The register itmOldestId. -/
def itmOldestId : RegDef :=
  { base := 0x60014, n := 1, stride := 0, m := 1, stride2 := 0, who := 0, key := 0x0, status := false
    fields := [fld 0 32 .ro] }

/-- The register itmInflight. -/
def itmInflight : RegDef :=
  { base := 0x60018, n := 1, stride := 0, m := 1, stride2 := 0, who := 0, key := 0x0, status := false
    fields := [fld 0 15 .ro] }

/-- The register itmSubBase. -/
def itmSubBase : RegDef :=
  { base := 0x60020, n := 1, stride := 0, m := 1, stride2 := 0, who := 0, key := 0x0, status := false
    fields := [fld 0 28 .rw] }

/-- The register itmSubSize. -/
def itmSubSize : RegDef :=
  { base := 0x60024, n := 1, stride := 0, m := 1, stride2 := 0, who := 0, key := 0x0, status := false
    fields := [fld 0 5 .rw 6] }

/-- The register itmResBase. -/
def itmResBase : RegDef :=
  { base := 0x60030, n := 1, stride := 0, m := 1, stride2 := 0, who := 0, key := 0x0, status := false
    fields := [fld 0 28 .rw] }

/-- The register itmResSize. -/
def itmResSize : RegDef :=
  { base := 0x60034, n := 1, stride := 0, m := 1, stride2 := 0, who := 0, key := 0x0, status := false
    fields := [fld 0 5 .rw 6] }

/-- The register itmEvtBase. -/
def itmEvtBase : RegDef :=
  { base := 0x60040, n := 1, stride := 0, m := 1, stride2 := 0, who := 0, key := 0x0, status := false
    fields := [fld 0 28 .rw] }

/-- The register itmEvtSize. -/
def itmEvtSize : RegDef :=
  { base := 0x60044, n := 1, stride := 0, m := 1, stride2 := 0, who := 0, key := 0x0, status := false
    fields := [fld 0 5 .rw 6] }

/-- The register itmSubPoll. -/
def itmSubPoll : RegDef :=
  { base := 0x60028, n := 1, stride := 0, m := 1, stride2 := 0, who := 0, key := 0x0, status := false
    fields := [fld 0 16 .rw] }

/-- The register itmSubCidx. -/
def itmSubCidx : RegDef :=
  { base := 0x6002C, n := 1, stride := 0, m := 1, stride2 := 0, who := 0, key := 0x0, status := false
    fields := [fld 0 32 .ro] }

/-- The register itmResPidx. -/
def itmResPidx : RegDef :=
  { base := 0x60038, n := 1, stride := 0, m := 1, stride2 := 0, who := 0, key := 0x0, status := false
    fields := [fld 0 32 .ro] }

/-- The register itmResCidx. -/
def itmResCidx : RegDef :=
  { base := 0x6003C, n := 1, stride := 0, m := 1, stride2 := 0, who := 0, key := 0x0, status := false
    fields := [fld 0 32 .rw] }

/-- The register itmEvtPidx. -/
def itmEvtPidx : RegDef :=
  { base := 0x60048, n := 1, stride := 0, m := 1, stride2 := 0, who := 0, key := 0x0, status := false
    fields := [fld 0 32 .ro] }

/-- The register itmEvtCidx. -/
def itmEvtCidx : RegDef :=
  { base := 0x6004C, n := 1, stride := 0, m := 1, stride2 := 0, who := 0, key := 0x0, status := false
    fields := [fld 0 32 .rw] }

/-- The register itmWbBase. -/
def itmWbBase : RegDef :=
  { base := 0x60050, n := 1, stride := 0, m := 1, stride2 := 0, who := 0, key := 0x0, status := false
    fields := [fld 0 30 .rw] }

/-- The register itmOvfBase. -/
def itmOvfBase : RegDef :=
  { base := 0x60058, n := 1, stride := 0, m := 1, stride2 := 0, who := 0, key := 0x0, status := false
    fields := [fld 0 20 .rw] }

/-- The register itmOvfSize. -/
def itmOvfSize : RegDef :=
  { base := 0x6005C, n := 1, stride := 0, m := 1, stride2 := 0, who := 0, key := 0x0, status := false
    fields := [fld 0 20 .rw] }

/-- The register itmSnapCtl. -/
def itmSnapCtl : RegDef :=
  { base := 0x60060, n := 1, stride := 0, m := 1, stride2 := 0, who := 0, key := 0x0, status := false
    fields := [fld 0 16 .wo, fld 16 16 .ro] }

/-- The register itmSnapCnt. -/
def itmSnapCnt : RegDef :=
  { base := 0x60080, n := 13, stride := 4, m := 1, stride2 := 0, who := 0, key := 0x0, status := false
    fields := [fld 0 32 .ro] }

/-- The register itmSrcCtl. -/
def itmSrcCtl : RegDef :=
  { base := 0x60100, n := 8, stride := 16, m := 1, stride2 := 0, who := 0, key := 0x0, status := false
    fields := [fld 0 1 .rw, fld 1 1 .rw, fld 2 5 .rw, fld 7 1 .rw, fld 8 3 .rw, fld 11 2 .rw, fld 13 2 .rw, fld 15 1 .rw, fld 16 5 .rw, fld 24 8 .rw] }

/-- The register itmSrcDl. -/
def itmSrcDl : RegDef :=
  { base := 0x60104, n := 8, stride := 16, m := 1, stride2 := 0, who := 0, key := 0x0, status := false
    fields := [fld 0 32 .rw] }

/-- The register itmSrcDfire. -/
def itmSrcDfire : RegDef :=
  { base := 0x60108, n := 8, stride := 16, m := 1, stride2 := 0, who := 0, key := 0x0, status := false
    fields := [fld 0 32 .rw] }

/-- The register sqCtl. -/
def sqCtl : RegDef :=
  { base := 0x70000, n := 1, stride := 0, m := 1, stride2 := 0, who := 0, key := 0x0, status := false
    fields := [fld 0 1 .rw 1, fld 1 1 .rw 1] }

/-- The register sqStatus. -/
def sqStatus : RegDef :=
  { base := 0x70004, n := 1, stride := 0, m := 1, stride2 := 0, who := 0, key := 0x0, status := true
    fields := [fld 0 1 .rws, fld 1 1 .rws, fld 2 1 .rws, fld 3 1 .rws, fld 4 1 .rws, fld 5 1 .rws, fld 6 1 .rws, fld 7 1 .rws, fld 8 1 .rws, fld 9 1 .rws, fld 16 16 .ro] }

/-- The register sqScrub. -/
def sqScrub : RegDef :=
  { base := 0x70008, n := 1, stride := 0, m := 1, stride2 := 0, who := 0, key := 0x0, status := false
    fields := [fld 0 16 .rw 1024, fld 16 16 .ro] }

/-- The register sqRetireCfg. -/
def sqRetireCfg : RegDef :=
  { base := 0x7000C, n := 1, stride := 0, m := 1, stride2 := 0, who := 0, key := 0x0, status := false
    fields := [fld 0 8 .rw 16] }

/-- The register sqFree. -/
def sqFree : RegDef :=
  { base := 0x70010, n := 1, stride := 0, m := 1, stride2 := 0, who := 0, key := 0x0, status := false
    fields := [fld 0 14 .ro 8192, fld 16 14 .ro 8192] }

/-- The register sqSpare. -/
def sqSpare : RegDef :=
  { base := 0x70014, n := 1, stride := 0, m := 1, stride2 := 0, who := 0, key := 0x0, status := false
    fields := [fld 0 3 .ro] }

/-- The register sqPartOver. -/
def sqPartOver : RegDef :=
  { base := 0x70018, n := 1, stride := 0, m := 1, stride2 := 0, who := 0, key := 0x0, status := false
    fields := [fld 0 16 .ro] }

/-- The register sqErrAddr. -/
def sqErrAddr : RegDef :=
  { base := 0x7001C, n := 1, stride := 0, m := 1, stride2 := 0, who := 0, key := 0x0, status := false
    fields := [fld 0 29 .ro, fld 29 1 .ro, fld 31 1 .ro] }

/-- The register sqSnapCtl. -/
def sqSnapCtl : RegDef :=
  { base := 0x70030, n := 1, stride := 0, m := 1, stride2 := 0, who := 0, key := 0x0, status := false
    fields := [fld 0 16 .wo, fld 16 16 .ro] }

/-- The register sqSnapCnt. -/
def sqSnapCnt : RegDef :=
  { base := 0x70040, n := 8, stride := 4, m := 1, stride2 := 0, who := 0, key := 0x0, status := false
    fields := [fld 0 32 .ro] }

/-- The register sqQuota. -/
def sqQuota : RegDef :=
  { base := 0x70100, n := 16, stride := 16, m := 1, stride2 := 0, who := 0, key := 0x0, status := false
    fields := [fld 0 14 .rw, fld 31 1 .rw] }

/-- The register sqUse. -/
def sqUse : RegDef :=
  { base := 0x70104, n := 16, stride := 16, m := 1, stride2 := 0, who := 0, key := 0x0, status := false
    fields := [fld 0 14 .ro, fld 16 1 .ro] }

/-- The register sqKvCfg. -/
def sqKvCfg : RegDef :=
  { base := 0x70108, n := 16, stride := 16, m := 1, stride2 := 0, who := 0, key := 0x0, status := false
    fields := [fld 0 9 .rw, fld 16 14 .rw] }

/-- The register sqKvUse. -/
def sqKvUse : RegDef :=
  { base := 0x7010C, n := 16, stride := 16, m := 1, stride2 := 0, who := 0, key := 0x0, status := false
    fields := [fld 0 21 .ro] }

/-- The register sqBankmap. -/
def sqBankmap : RegDef :=
  { base := 0x70200, n := 128, stride := 4, m := 1, stride2 := 0, who := 0, key := 0x0, status := false
    fields := [fld 0 8 .ro, fld 8 1 .ro] }

/-- The register memStatus. -/
def memStatus : RegDef :=
  { base := 0x80000, n := 1, stride := 0, m := 1, stride2 := 0, who := 0, key := 0x0, status := true
    fields := [fld 0 1 .rws, fld 1 1 .rws, fld 2 1 .rws, fld 16 16 .ro] }

/-- The register memEcc. -/
def memEcc : RegDef :=
  { base := 0x80004, n := 1, stride := 0, m := 1, stride2 := 0, who := 0, key := 0x0, status := false
    fields := [fld 0 16 .ro, fld 16 16 .ro] }

/-- The register memErrAddr. -/
def memErrAddr : RegDef :=
  { base := 0x80008, n := 1, stride := 0, m := 1, stride2 := 0, who := 0, key := 0x0, status := false
    fields := [fld 0 32 .ro] }

/-- The register tcSpare. -/
def tcSpare : RegDef :=
  { base := 0x90000, n := 1, stride := 0, m := 1, stride2 := 0, who := 0, key := 0x0, status := false
    fields := [fld 0 5 .tv, fld 8 5 .ro, fld 15 1 .ro] }

/-- The register tcFence. -/
def tcFence : RegDef :=
  { base := 0x90004, n := 1, stride := 0, m := 1, stride2 := 0, who := 1, key := 0xFE4C, status := false
    fields := [fld 0 5 .wo, fld 16 16 .wo] }

/-- The register tcCfg. -/
def tcCfg : RegDef :=
  { base := 0x90008, n := 1, stride := 0, m := 1, stride2 := 0, who := 0, key := 0x0, status := false
    fields := [fld 0 4 .rw 2] }

/-- The register tcSnapCtl. -/
def tcSnapCtl : RegDef :=
  { base := 0x90010, n := 1, stride := 0, m := 1, stride2 := 0, who := 0, key := 0x0, status := false
    fields := [fld 0 16 .wo, fld 16 16 .ro] }

/-- The register tcState. -/
def tcState : RegDef :=
  { base := 0x90100, n := 17, stride := 64, m := 1, stride2 := 0, who := 0, key := 0x0, status := false
    fields := [fld 0 2 .ro, fld 2 1 .ro, fld 3 1 .ro] }

/-- The register tcOpp. -/
def tcOpp : RegDef :=
  { base := 0x90104, n := 17, stride := 64, m := 1, stride2 := 0, who := 2, key := 0x0, status := false
    fields := [fld 0 7 .rw 70, fld 8 8 .rw 100] }

/-- The register tcStatus. -/
def tcStatus : RegDef :=
  { base := 0x90108, n := 17, stride := 64, m := 1, stride2 := 0, who := 0, key := 0x0, status := true
    fields := [fld 0 1 .rws, fld 1 1 .rws, fld 2 1 .rws, fld 3 1 .rws, fld 4 1 .rws, fld 5 1 .rws, fld 16 16 .ro] }

/-- The register tcErrAddr. -/
def tcErrAddr : RegDef :=
  { base := 0x9010C, n := 17, stride := 64, m := 1, stride2 := 0, who := 0, key := 0x0, status := false
    fields := [fld 0 22 .ro] }

/-- The register tcCnt. -/
def tcCnt : RegDef :=
  { base := 0x90110, n := 17, stride := 64, m := 5, stride2 := 4, who := 0, key := 0x0, status := false
    fields := [fld 0 32 .ro] }

/-- The register seqTask. -/
def seqTask : RegDef :=
  { base := 0xA0000, n := 17, stride := 64, m := 1, stride2 := 0, who := 0, key := 0x0, status := false
    fields := [fld 0 8 .ro, fld 8 16 .ro, fld 24 2 .ro] }

/-- The register seqPc. -/
def seqPc : RegDef :=
  { base := 0xA0004, n := 17, stride := 64, m := 1, stride2 := 0, who := 0, key := 0x0, status := false
    fields := [fld 0 32 .ro] }

/-- The register seqStep. -/
def seqStep : RegDef :=
  { base := 0xA0008, n := 17, stride := 64, m := 1, stride2 := 0, who := 0, key := 0x0, status := false
    fields := [fld 0 32 .ro] }

/-- The register seqQdepth. -/
def seqQdepth : RegDef :=
  { base := 0xA000C, n := 17, stride := 64, m := 1, stride2 := 0, who := 0, key := 0x0, status := false
    fields := [fld 0 5 .ro, fld 8 6 .ro, fld 16 7 .ro] }

/-- The register seqStatus. -/
def seqStatus : RegDef :=
  { base := 0xA0010, n := 17, stride := 64, m := 1, stride2 := 0, who := 0, key := 0x0, status := true
    fields := [fld 0 1 .rws, fld 1 1 .rws, fld 16 16 .ro] }

/-- The register seqFault. -/
def seqFault : RegDef :=
  { base := 0xA0014, n := 17, stride := 64, m := 1, stride2 := 0, who := 0, key := 0x0, status := false
    fields := [fld 0 32 .ro] }

/-- The register seqTokLo. -/
def seqTokLo : RegDef :=
  { base := 0xA0018, n := 17, stride := 64, m := 1, stride2 := 0, who := 0, key := 0x0, status := false
    fields := [fld 0 32 .ro] }

/-- The register seqTokHi. -/
def seqTokHi : RegDef :=
  { base := 0xA001C, n := 17, stride := 64, m := 1, stride2 := 0, who := 0, key := 0x0, status := false
    fields := [fld 0 32 .ro] }

/-- The register rbtCtl. -/
def rbtCtl : RegDef :=
  { base := 0xB0000, n := 1, stride := 0, m := 1, stride2 := 0, who := 0, key := 0x0, status := false
    fields := [fld 0 1 .rw 1, fld 8 1 .ro] }

/-- The register rbtStatus. -/
def rbtStatus : RegDef :=
  { base := 0xB0004, n := 1, stride := 0, m := 1, stride2 := 0, who := 0, key := 0x0, status := true
    fields := [fld 0 1 .rws, fld 1 1 .rws, fld 16 16 .ro] }

/-- The register rbtCfg. -/
def rbtCfg : RegDef :=
  { base := 0xB0008, n := 1, stride := 0, m := 1, stride2 := 0, who := 0, key := 0x0, status := false
    fields := [fld 0 16 .rw] }

/-- The register rbtSnapCtl. -/
def rbtSnapCtl : RegDef :=
  { base := 0xB0010, n := 1, stride := 0, m := 1, stride2 := 0, who := 0, key := 0x0, status := false
    fields := [fld 0 16 .wo, fld 16 16 .ro] }

/-- The register rbtSnapCnt. -/
def rbtSnapCnt : RegDef :=
  { base := 0xB0020, n := 6, stride := 4, m := 1, stride2 := 0, who := 0, key := 0x0, status := false
    fields := [fld 0 32 .ro] }

/-- The register rbtReady. -/
def rbtReady : RegDef :=
  { base := 0xB0040, n := 4, stride := 4, m := 1, stride2 := 0, who := 0, key := 0x0, status := false
    fields := [fld 0 13 .ro, fld 16 13 .ro] }

/-- The register sqmStatus. -/
def sqmStatus : RegDef :=
  { base := 0xC0000, n := 1, stride := 0, m := 1, stride2 := 0, who := 0, key := 0x0, status := true
    fields := [fld 0 1 .rws, fld 1 1 .rws, fld 16 16 .ro] }

/-- The register sqmSnapCtl. -/
def sqmSnapCtl : RegDef :=
  { base := 0xC0010, n := 1, stride := 0, m := 1, stride2 := 0, who := 0, key := 0x0, status := false
    fields := [fld 0 16 .wo, fld 16 16 .ro] }

/-- The register sqmSnapCnt. -/
def sqmSnapCnt : RegDef :=
  { base := 0xC0020, n := 6, stride := 4, m := 1, stride2 := 0, who := 0, key := 0x0, status := false
    fields := [fld 0 32 .ro] }

/-- The register sqmCli. -/
def sqmCli : RegDef :=
  { base := 0xC0100, n := 4, stride := 16, m := 1, stride2 := 0, who := 0, key := 0x0, status := false
    fields := [fld 0 8 .ro, fld 8 4 .ro, fld 16 1 .ro] }

/-- The register sqmMemb. -/
def sqmMemb : RegDef :=
  { base := 0xC0104, n := 4, stride := 16, m := 1, stride2 := 0, who := 0, key := 0x0, status := false
    fields := [fld 0 11 .ro, fld 16 11 .ro] }

/-- The register sqmIds. -/
def sqmIds : RegDef :=
  { base := 0xC0108, n := 4, stride := 16, m := 1, stride2 := 0, who := 0, key := 0x0, status := false
    fields := [fld 0 10 .ro, fld 16 11 .ro] }

/-- The register sqmFree. -/
def sqmFree : RegDef :=
  { base := 0xC010C, n := 4, stride := 16, m := 1, stride2 := 0, who := 0, key := 0x0, status := false
    fields := [fld 0 21 .ro] }

/-- The register ispSnapCtl. -/
def ispSnapCtl : RegDef :=
  { base := 0xD0000, n := 1, stride := 0, m := 1, stride2 := 0, who := 0, key := 0x0, status := false
    fields := [fld 0 16 .wo, fld 16 16 .ro] }

/-- The register ispStatus. -/
def ispStatus : RegDef :=
  { base := 0xD0100, n := 14, stride := 256, m := 1, stride2 := 0, who := 0, key := 0x0, status := true
    fields := [fld 0 1 .rws, fld 1 1 .rws, fld 2 1 .rws, fld 3 1 .rws, fld 4 1 .rws, fld 5 1 .rws, fld 6 1 .rws, fld 7 1 .rws, fld 16 16 .ro] }

/-- The register ispRoute. -/
def ispRoute : RegDef :=
  { base := 0xD0204, n := 6, stride := 512, m := 1, stride2 := 0, who := 0, key := 0x0, status := false
    fields := [fld 0 1 .rw, fld 1 2 .rw, fld 4 1 .rw, fld 5 2 .rw] }

/-- The register ispRouteRv. -/
def ispRouteRv : RegDef :=
  { base := 0xD0104, n := 7, stride := 512, m := 1, stride2 := 0, who := 0, key := 0x0, status := false
    fields := [] }

/-- The register ispRouteRv13. -/
def ispRouteRv13 : RegDef :=
  { base := 0xD0E04, n := 1, stride := 0, m := 1, stride2 := 0, who := 0, key := 0x0, status := false
    fields := [] }

/-- The register ispCur. -/
def ispCur : RegDef :=
  { base := 0xD0108, n := 14, stride := 256, m := 1, stride2 := 0, who := 0, key := 0x0, status := false
    fields := [fld 0 1 .ro, fld 1 1 .ro, fld 8 5 .ro, fld 13 1 .ro] }

/-- The register ispPaddr. -/
def ispPaddr : RegDef :=
  { base := 0xD0110, n := 14, stride := 256, m := 2, stride2 := 4, who := 0, key := 0x0, status := false
    fields := [fld 0 32 .rw] }

/-- The register ispPctl. -/
def ispPctl : RegDef :=
  { base := 0xD0118, n := 14, stride := 256, m := 2, stride2 := 4, who := 0, key := 0x0, status := false
    fields := [fld 0 1 .wo, fld 1 1 .ro, fld 2 1 .ro, fld 8 8 .ro] }

/-- The register ispPgen. -/
def ispPgen : RegDef :=
  { base := 0xD0120, n := 14, stride := 256, m := 2, stride2 := 4, who := 0, key := 0x0, status := false
    fields := [fld 0 32 .ro] }

/-- The register ispSnapCnt. -/
def ispSnapCnt : RegDef :=
  { base := 0xD0140, n := 14, stride := 256, m := 8, stride2 := 4, who := 0, key := 0x0, status := false
    fields := [fld 0 32 .ro] }

/-- The register cxpSnapCtl. -/
def cxpSnapCtl : RegDef :=
  { base := 0xE0000, n := 1, stride := 0, m := 1, stride2 := 0, who := 0, key := 0x0, status := false
    fields := [fld 0 16 .wo, fld 16 16 .ro] }

/-- The register cxpCtl. -/
def cxpCtl : RegDef :=
  { base := 0xE0100, n := 12, stride := 256, m := 1, stride2 := 0, who := 0, key := 0x0, status := false
    fields := [fld 0 1 .rw, fld 1 1 .rw, fld 2 1 .rw, fld 3 1 .rw, fld 4 1 .rw, fld 5 1 .rw, fld 6 1 .rw, fld 8 3 .rw, fld 16 4 .rw 6] }

/-- The register cxpStatus. -/
def cxpStatus : RegDef :=
  { base := 0xE0104, n := 12, stride := 256, m := 1, stride2 := 0, who := 0, key := 0x0, status := true
    fields := [fld 0 1 .rws, fld 1 1 .rws, fld 2 1 .rws, fld 3 1 .rws, fld 4 1 .rws, fld 5 1 .rws, fld 6 1 .rws, fld 7 1 .rws, fld 8 1 .rws, fld 9 1 .rws, fld 10 1 .rws, fld 11 1 .rws, fld 12 1 .rws, fld 16 16 .ro] }

/-- The register cxpLink. -/
def cxpLink : RegDef :=
  { base := 0xE0108, n := 12, stride := 256, m := 1, stride2 := 0, who := 0, key := 0x0, status := false
    fields := [fld 0 2 .ro, fld 4 3 .ro, fld 8 4 .ro] }

/-- The register cxpFmt. -/
def cxpFmt : RegDef :=
  { base := 0xE010C, n := 12, stride := 256, m := 1, stride2 := 0, who := 0, key := 0x0, status := false
    fields := [fld 0 4 .rw, fld 4 2 .rw] }

/-- The register cxpWidth. -/
def cxpWidth : RegDef :=
  { base := 0xE0110, n := 12, stride := 256, m := 1, stride2 := 0, who := 0, key := 0x0, status := false
    fields := [fld 0 15 .rw, fld 16 16 .rw] }

/-- The register cxpLines. -/
def cxpLines : RegDef :=
  { base := 0xE0114, n := 12, stride := 256, m := 1, stride2 := 0, who := 0, key := 0x0, status := false
    fields := [fld 0 24 .rw] }

/-- The register cxpGate. -/
def cxpGate : RegDef :=
  { base := 0xE0118, n := 12, stride := 256, m := 1, stride2 := 0, who := 0, key := 0x0, status := false
    fields := [fld 0 16 .rw, fld 16 16 .rw] }

/-- The register cxpTail. -/
def cxpTail : RegDef :=
  { base := 0xE011C, n := 12, stride := 256, m := 1, stride2 := 0, who := 0, key := 0x0, status := false
    fields := [fld 0 16 .rw 100, fld 16 16 .rw 1000] }

/-- The register cxpCcAddr. -/
def cxpCcAddr : RegDef :=
  { base := 0xE0120, n := 12, stride := 256, m := 1, stride2 := 0, who := 0, key := 0x0, status := false
    fields := [fld 0 32 .rw] }

/-- The register cxpCcCtl. -/
def cxpCcCtl : RegDef :=
  { base := 0xE0124, n := 12, stride := 256, m := 1, stride2 := 0, who := 0, key := 0x0, status := false
    fields := [fld 0 1 .wo, fld 1 1 .rw, fld 8 7 .rw, fld 16 16 .rw 200] }

/-- The register cxpCcStat. -/
def cxpCcStat : RegDef :=
  { base := 0xE0128, n := 12, stride := 256, m := 1, stride2 := 0, who := 0, key := 0x0, status := false
    fields := [fld 0 1 .ro, fld 8 8 .ro] }

/-- The register cxpCcBuf. -/
def cxpCcBuf : RegDef :=
  { base := 0xE0140, n := 12, stride := 256, m := 16, stride2 := 4, who := 0, key := 0x0, status := false
    fields := [fld 0 32 .rw] }

/-- The register cxpSnapCnt. -/
def cxpSnapCnt : RegDef :=
  { base := 0xE0180, n := 12, stride := 256, m := 12, stride2 := 4, who := 0, key := 0x0, status := false
    fields := [fld 0 32 .ro] }

/-- The register auxSnapCtl. -/
def auxSnapCtl : RegDef :=
  { base := 0xF0000, n := 1, stride := 0, m := 1, stride2 := 0, who := 0, key := 0x0, status := false
    fields := [fld 0 16 .wo, fld 16 16 .ro] }

/-- The register auxStore. -/
def auxStore : RegDef :=
  { base := 0xF0004, n := 1, stride := 0, m := 1, stride2 := 0, who := 0, key := 0x0, status := false
    fields := [fld 0 20 .rw, fld 31 1 .rw] }

/-- The register auxCtl. -/
def auxCtl : RegDef :=
  { base := 0xF0100, n := 4, stride := 256, m := 1, stride2 := 0, who := 0, key := 0x0, status := false
    fields := [fld 0 1 .rw, fld 3 1 .rw, fld 4 1 .rw, fld 5 1 .rw, fld 6 1 .rw, fld 8 3 .rw, fld 11 1 .rw, fld 12 1 .rw, fld 13 1 .rw, fld 14 1 .rw, fld 15 1 .rw] }

/-- The register auxStatus. -/
def auxStatus : RegDef :=
  { base := 0xF0104, n := 4, stride := 256, m := 1, stride2 := 0, who := 0, key := 0x0, status := true
    fields := [fld 0 1 .rws, fld 1 1 .rws, fld 2 1 .rws, fld 3 1 .rws, fld 4 1 .rws, fld 5 1 .rws, fld 6 1 .rws, fld 7 1 .rws, fld 8 1 .rws, fld 9 1 .rws, fld 10 1 .rws, fld 16 16 .ro] }

/-- The register auxLink. -/
def auxLink : RegDef :=
  { base := 0xF0108, n := 4, stride := 256, m := 1, stride2 := 0, who := 0, key := 0x0, status := false
    fields := [] }

/-- The register auxFmt. -/
def auxFmt : RegDef :=
  { base := 0xF010C, n := 4, stride := 256, m := 1, stride2 := 0, who := 0, key := 0x0, status := false
    fields := [fld 0 4 .rw, fld 4 2 .rw] }

/-- The register auxWidth. -/
def auxWidth : RegDef :=
  { base := 0xF0110, n := 4, stride := 256, m := 1, stride2 := 0, who := 0, key := 0x0, status := false
    fields := [fld 0 15 .rw, fld 16 16 .rw] }

/-- The register auxLines. -/
def auxLines : RegDef :=
  { base := 0xF0114, n := 4, stride := 256, m := 1, stride2 := 0, who := 0, key := 0x0, status := false
    fields := [fld 0 24 .rw] }

/-- The register auxGate. -/
def auxGate : RegDef :=
  { base := 0xF0118, n := 4, stride := 256, m := 1, stride2 := 0, who := 0, key := 0x0, status := false
    fields := [fld 0 16 .rw, fld 16 16 .rw] }

/-- The register auxTail. -/
def auxTail : RegDef :=
  { base := 0xF011C, n := 4, stride := 256, m := 1, stride2 := 0, who := 0, key := 0x0, status := false
    fields := [fld 0 16 .rw 100, fld 16 16 .rw 1000] }

/-- The register auxTrigCfg. -/
def auxTrigCfg : RegDef :=
  { base := 0xF0120, n := 4, stride := 256, m := 1, stride2 := 0, who := 0, key := 0x0, status := false
    fields := [fld 0 16 .rw 10] }

/-- The register auxRv1. -/
def auxRv1 : RegDef :=
  { base := 0xF0124, n := 4, stride := 256, m := 1, stride2 := 0, who := 0, key := 0x0, status := false
    fields := [] }

/-- The register auxRv2. -/
def auxRv2 : RegDef :=
  { base := 0xF0128, n := 4, stride := 256, m := 1, stride2 := 0, who := 0, key := 0x0, status := false
    fields := [] }

/-- The register auxCcBuf. -/
def auxCcBuf : RegDef :=
  { base := 0xF0140, n := 4, stride := 256, m := 16, stride2 := 4, who := 0, key := 0x0, status := false
    fields := [] }

/-- The register auxSnapCnt. -/
def auxSnapCnt : RegDef :=
  { base := 0xF0180, n := 4, stride := 256, m := 12, stride2 := 4, who := 0, key := 0x0, status := false
    fields := [fld 0 32 .ro] }

/-- The register wrpStatus. -/
def wrpStatus : RegDef :=
  { base := 0x100000, n := 1, stride := 0, m := 1, stride2 := 0, who := 0, key := 0x0, status := true
    fields := [fld 0 1 .rws, fld 1 1 .rws, fld 16 16 .ro] }

/-- The register wrpBusy. -/
def wrpBusy : RegDef :=
  { base := 0x100004, n := 1, stride := 0, m := 1, stride2 := 0, who := 0, key := 0x0, status := false
    fields := [fld 0 4 .ro, fld 16 13 .ro] }

/-- The register wrpCfg. -/
def wrpCfg : RegDef :=
  { base := 0x100008, n := 1, stride := 0, m := 1, stride2 := 0, who := 0, key := 0x0, status := false
    fields := [] }

/-- The register wrpSnapCtl. -/
def wrpSnapCtl : RegDef :=
  { base := 0x100010, n := 1, stride := 0, m := 1, stride2 := 0, who := 0, key := 0x0, status := false
    fields := [fld 0 16 .wo, fld 16 16 .ro] }

/-- The register wrpSnapCnt. -/
def wrpSnapCnt : RegDef :=
  { base := 0x100020, n := 6, stride := 4, m := 1, stride2 := 0, who := 0, key := 0x0, status := false
    fields := [fld 0 32 .ro] }

/-- The register roiStatus. -/
def roiStatus : RegDef :=
  { base := 0x110000, n := 1, stride := 0, m := 1, stride2 := 0, who := 0, key := 0x0, status := true
    fields := [fld 0 1 .rws, fld 1 1 .rws, fld 16 16 .ro] }

/-- The register roiBusy. -/
def roiBusy : RegDef :=
  { base := 0x110004, n := 1, stride := 0, m := 1, stride2 := 0, who := 0, key := 0x0, status := false
    fields := [fld 0 2 .ro, fld 16 13 .ro] }

/-- The register roiCfg. -/
def roiCfg : RegDef :=
  { base := 0x110008, n := 1, stride := 0, m := 1, stride2 := 0, who := 0, key := 0x0, status := false
    fields := [] }

/-- The register roiSnapCtl. -/
def roiSnapCtl : RegDef :=
  { base := 0x110010, n := 1, stride := 0, m := 1, stride2 := 0, who := 0, key := 0x0, status := false
    fields := [fld 0 16 .wo, fld 16 16 .ro] }

/-- The register roiSnapCnt. -/
def roiSnapCnt : RegDef :=
  { base := 0x110020, n := 6, stride := 4, m := 1, stride2 := 0, who := 0, key := 0x0, status := false
    fields := [fld 0 32 .ro] }

/-- The register srtStatus. -/
def srtStatus : RegDef :=
  { base := 0x120000, n := 1, stride := 0, m := 1, stride2 := 0, who := 0, key := 0x0, status := true
    fields := [fld 0 1 .rws, fld 1 1 .rws, fld 16 16 .ro] }

/-- The register srtBusy. -/
def srtBusy : RegDef :=
  { base := 0x120004, n := 1, stride := 0, m := 1, stride2 := 0, who := 0, key := 0x0, status := false
    fields := [fld 0 2 .ro, fld 16 13 .ro] }

/-- The register srtCfg. -/
def srtCfg : RegDef :=
  { base := 0x120008, n := 1, stride := 0, m := 1, stride2 := 0, who := 0, key := 0x0, status := false
    fields := [] }

/-- The register srtSnapCtl. -/
def srtSnapCtl : RegDef :=
  { base := 0x120010, n := 1, stride := 0, m := 1, stride2 := 0, who := 0, key := 0x0, status := false
    fields := [fld 0 16 .wo, fld 16 16 .ro] }

/-- The register srtSnapCnt. -/
def srtSnapCnt : RegDef :=
  { base := 0x120020, n := 6, stride := 4, m := 1, stride2 := 0, who := 0, key := 0x0, status := false
    fields := [fld 0 32 .ro] }

/-- The register bcdStatus. -/
def bcdStatus : RegDef :=
  { base := 0x130000, n := 1, stride := 0, m := 1, stride2 := 0, who := 0, key := 0x0, status := true
    fields := [fld 0 1 .rws, fld 1 1 .rws, fld 2 1 .rws, fld 16 16 .ro] }

/-- The register bcdBusy. -/
def bcdBusy : RegDef :=
  { base := 0x130004, n := 1, stride := 0, m := 1, stride2 := 0, who := 0, key := 0x0, status := false
    fields := [fld 0 4 .ro, fld 16 13 .ro] }

/-- The register bcdCfg. -/
def bcdCfg : RegDef :=
  { base := 0x130008, n := 1, stride := 0, m := 1, stride2 := 0, who := 0, key := 0x0, status := false
    fields := [fld 0 16 .rw 2000, fld 16 16 .rw 20000] }

/-- The register bcdSnapCtl. -/
def bcdSnapCtl : RegDef :=
  { base := 0x130010, n := 1, stride := 0, m := 1, stride2 := 0, who := 0, key := 0x0, status := false
    fields := [fld 0 16 .wo, fld 16 16 .ro] }

/-- The register bcdSnapCnt. -/
def bcdSnapCnt : RegDef :=
  { base := 0x130020, n := 6, stride := 4, m := 1, stride2 := 0, who := 0, key := 0x0, status := false
    fields := [fld 0 32 .ro] }

/-- The register recStatus. -/
def recStatus : RegDef :=
  { base := 0x140000, n := 1, stride := 0, m := 1, stride2 := 0, who := 0, key := 0x0, status := true
    fields := [fld 0 1 .rws, fld 1 1 .rws, fld 2 1 .rws, fld 3 1 .rws, fld 16 16 .ro] }

/-- The register recBusy. -/
def recBusy : RegDef :=
  { base := 0x140004, n := 1, stride := 0, m := 1, stride2 := 0, who := 0, key := 0x0, status := false
    fields := [fld 0 4 .ro, fld 16 13 .ro] }

/-- The register recCfg. -/
def recCfg : RegDef :=
  { base := 0x140008, n := 1, stride := 0, m := 1, stride2 := 0, who := 0, key := 0x0, status := false
    fields := [] }

/-- The register recSnapCtl. -/
def recSnapCtl : RegDef :=
  { base := 0x140010, n := 1, stride := 0, m := 1, stride2 := 0, who := 0, key := 0x0, status := false
    fields := [fld 0 16 .wo, fld 16 16 .ro] }

/-- The register recSnapCnt. -/
def recSnapCnt : RegDef :=
  { base := 0x140020, n := 6, stride := 4, m := 1, stride2 := 0, who := 0, key := 0x0, status := false
    fields := [fld 0 32 .ro] }

/-- The register cadStatus. -/
def cadStatus : RegDef :=
  { base := 0x150000, n := 1, stride := 0, m := 1, stride2 := 0, who := 0, key := 0x0, status := true
    fields := [fld 0 1 .rws, fld 1 1 .rws, fld 2 1 .rws, fld 16 16 .ro] }

/-- The register cadBusy. -/
def cadBusy : RegDef :=
  { base := 0x150004, n := 1, stride := 0, m := 1, stride2 := 0, who := 0, key := 0x0, status := false
    fields := [fld 0 4 .ro, fld 16 13 .ro] }

/-- The register cadCfg. -/
def cadCfg : RegDef :=
  { base := 0x150008, n := 1, stride := 0, m := 1, stride2 := 0, who := 0, key := 0x0, status := false
    fields := [] }

/-- The register cadSnapCtl. -/
def cadSnapCtl : RegDef :=
  { base := 0x150010, n := 1, stride := 0, m := 1, stride2 := 0, who := 0, key := 0x0, status := false
    fields := [fld 0 16 .wo, fld 16 16 .ro] }

/-- The register cadSnapCnt. -/
def cadSnapCnt : RegDef :=
  { base := 0x150020, n := 6, stride := 4, m := 1, stride2 := 0, who := 0, key := 0x0, status := false
    fields := [fld 0 32 .ro] }

/-- The register crcStatus. -/
def crcStatus : RegDef :=
  { base := 0x160000, n := 1, stride := 0, m := 1, stride2 := 0, who := 0, key := 0x0, status := true
    fields := [fld 0 1 .rws, fld 1 1 .rws, fld 16 16 .ro] }

/-- The register crcBusy. -/
def crcBusy : RegDef :=
  { base := 0x160004, n := 1, stride := 0, m := 1, stride2 := 0, who := 0, key := 0x0, status := false
    fields := [fld 0 4 .ro, fld 16 13 .ro] }

/-- The register crcCfg. -/
def crcCfg : RegDef :=
  { base := 0x160008, n := 1, stride := 0, m := 1, stride2 := 0, who := 0, key := 0x0, status := false
    fields := [fld 0 6 .rw 2, fld 8 1 .rw 1] }

/-- The register crcSnapCtl. -/
def crcSnapCtl : RegDef :=
  { base := 0x160010, n := 1, stride := 0, m := 1, stride2 := 0, who := 0, key := 0x0, status := false
    fields := [fld 0 16 .wo, fld 16 16 .ro] }

/-- The register crcSnapCnt. -/
def crcSnapCnt : RegDef :=
  { base := 0x160020, n := 6, stride := 4, m := 1, stride2 := 0, who := 0, key := 0x0, status := false
    fields := [fld 0 32 .ro] }

/-- The register hshStatus. -/
def hshStatus : RegDef :=
  { base := 0x170000, n := 1, stride := 0, m := 1, stride2 := 0, who := 0, key := 0x0, status := true
    fields := [fld 0 1 .rws, fld 16 16 .ro] }

/-- The register hshBusy. -/
def hshBusy : RegDef :=
  { base := 0x170004, n := 1, stride := 0, m := 1, stride2 := 0, who := 0, key := 0x0, status := false
    fields := [fld 0 4 .ro, fld 16 13 .ro] }

/-- The register hshCfg. -/
def hshCfg : RegDef :=
  { base := 0x170008, n := 1, stride := 0, m := 1, stride2 := 0, who := 0, key := 0x0, status := false
    fields := [] }

/-- The register hshSnapCtl. -/
def hshSnapCtl : RegDef :=
  { base := 0x170010, n := 1, stride := 0, m := 1, stride2 := 0, who := 0, key := 0x0, status := false
    fields := [fld 0 16 .wo, fld 16 16 .ro] }

/-- The register hshSnapCnt. -/
def hshSnapCnt : RegDef :=
  { base := 0x170020, n := 6, stride := 4, m := 1, stride2 := 0, who := 0, key := 0x0, status := false
    fields := [fld 0 32 .ro] }

/-- The register dmaStatus. -/
def dmaStatus : RegDef :=
  { base := 0x180000, n := 1, stride := 0, m := 1, stride2 := 0, who := 0, key := 0x0, status := true
    fields := [fld 0 1 .rws, fld 1 1 .rws, fld 2 1 .rws, fld 16 16 .ro] }

/-- The register dmaBusy. -/
def dmaBusy : RegDef :=
  { base := 0x180004, n := 1, stride := 0, m := 1, stride2 := 0, who := 0, key := 0x0, status := false
    fields := [fld 0 8 .ro, fld 16 13 .ro] }

/-- The register dmaCfg. -/
def dmaCfg : RegDef :=
  { base := 0x180008, n := 1, stride := 0, m := 1, stride2 := 0, who := 0, key := 0x0, status := false
    fields := [] }

/-- The register dmaSnapCtl. -/
def dmaSnapCtl : RegDef :=
  { base := 0x180010, n := 1, stride := 0, m := 1, stride2 := 0, who := 0, key := 0x0, status := false
    fields := [fld 0 16 .wo, fld 16 16 .ro] }

/-- The register dmaSnapCnt. -/
def dmaSnapCnt : RegDef :=
  { base := 0x180020, n := 6, stride := 4, m := 1, stride2 := 0, who := 0, key := 0x0, status := false
    fields := [fld 0 32 .ro] }

/-- The register blvCtl. -/
def blvCtl : RegDef :=
  { base := 0x190100, n := 2, stride := 256, m := 1, stride2 := 0, who := 0, key := 0x0, status := false
    fields := [fld 0 1 .rw, fld 1 2 .rw, fld 3 1 .rw 1] }

/-- The register blvStatus. -/
def blvStatus : RegDef :=
  { base := 0x190104, n := 2, stride := 256, m := 1, stride2 := 0, who := 0, key := 0x0, status := true
    fields := [fld 0 1 .rws, fld 1 1 .rws, fld 2 1 .rws, fld 3 1 .rws, fld 4 1 .rws, fld 5 1 .rws, fld 6 1 .rws, fld 16 16 .ro] }

/-- The register blvLink. -/
def blvLink : RegDef :=
  { base := 0x190108, n := 2, stride := 256, m := 1, stride2 := 0, who := 0, key := 0x0, status := false
    fields := [fld 0 2 .ro, fld 2 1 .ro, fld 3 1 .ro, fld 16 16 .ro] }

/-- The register blvPm. -/
def blvPm : RegDef :=
  { base := 0x19010C, n := 2, stride := 256, m := 1, stride2 := 0, who := 0, key := 0x0, status := false
    fields := [fld 0 16 .rw 1000] }

/-- The register blvPrbs. -/
def blvPrbs : RegDef :=
  { base := 0x190110, n := 2, stride := 256, m := 4, stride2 := 4, who := 0, key := 0x0, status := false
    fields := [fld 0 32 .ro] }

/-- The register blvSnapCtl. -/
def blvSnapCtl : RegDef :=
  { base := 0x190010, n := 1, stride := 0, m := 1, stride2 := 0, who := 0, key := 0x0, status := false
    fields := [fld 0 16 .wo, fld 16 16 .ro] }

/-- The register blvSnapCnt. -/
def blvSnapCnt : RegDef :=
  { base := 0x190140, n := 2, stride := 256, m := 6, stride2 := 4, who := 0, key := 0x0, status := false
    fields := [fld 0 32 .ro] }

/-- The register timCtl. -/
def timCtl : RegDef :=
  { base := 0x1A0000, n := 1, stride := 0, m := 1, stride2 := 0, who := 0, key := 0x0, status := false
    fields := [fld 0 1 .rw, fld 1 1 .rw 1, fld 8 1 .wo] }

/-- The register timStatus. -/
def timStatus : RegDef :=
  { base := 0x1A0004, n := 1, stride := 0, m := 1, stride2 := 0, who := 0, key := 0x0, status := true
    fields := [fld 0 1 .rws, fld 1 1 .rws, fld 2 1 .rws, fld 3 1 .rws, fld 4 1 .rws, fld 5 1 .rws, fld 6 1 .rws, fld 7 1 .rws, fld 8 1 .rws, fld 9 1 .rws, fld 10 1 .rws, fld 16 16 .ro] }

/-- The register timIncLo. -/
def timIncLo : RegDef :=
  { base := 0x1A0008, n := 1, stride := 0, m := 1, stride2 := 0, who := 0, key := 0x0, status := false
    fields := [fld 0 32 .rw 2071996344] }

/-- The register timIncHi. -/
def timIncHi : RegDef :=
  { base := 0x1A000C, n := 1, stride := 0, m := 1, stride2 := 0, who := 0, key := 0x0, status := false
    fields := [fld 0 4 .rw 2] }

/-- The register timNowSecLo. -/
def timNowSecLo : RegDef :=
  { base := 0x1A0010, n := 1, stride := 0, m := 1, stride2 := 0, who := 0, key := 0x0, status := false
    fields := [fld 0 32 .ro] }

/-- The register timNowSecHi. -/
def timNowSecHi : RegDef :=
  { base := 0x1A0014, n := 1, stride := 0, m := 1, stride2 := 0, who := 0, key := 0x0, status := false
    fields := [fld 0 16 .ro] }

/-- The register timNowNs. -/
def timNowNs : RegDef :=
  { base := 0x1A0018, n := 1, stride := 0, m := 1, stride2 := 0, who := 0, key := 0x0, status := false
    fields := [fld 0 32 .ro] }

/-- The register timNowSub. -/
def timNowSub : RegDef :=
  { base := 0x1A001C, n := 1, stride := 0, m := 1, stride2 := 0, who := 0, key := 0x0, status := false
    fields := [fld 0 16 .ro] }

/-- The register timSetSecLo. -/
def timSetSecLo : RegDef :=
  { base := 0x1A0020, n := 1, stride := 0, m := 1, stride2 := 0, who := 0, key := 0x0, status := false
    fields := [fld 0 32 .rw] }

/-- The register timSetSecHi. -/
def timSetSecHi : RegDef :=
  { base := 0x1A0024, n := 1, stride := 0, m := 1, stride2 := 0, who := 0, key := 0x0, status := false
    fields := [fld 0 16 .rw] }

/-- The register timSetNs. -/
def timSetNs : RegDef :=
  { base := 0x1A0028, n := 1, stride := 0, m := 1, stride2 := 0, who := 0, key := 0x0, status := false
    fields := [fld 0 32 .rw] }

/-- The register timStep. -/
def timStep : RegDef :=
  { base := 0x1A002C, n := 1, stride := 0, m := 1, stride2 := 0, who := 0, key := 0x0, status := false
    fields := [fld 0 32 .wo] }

/-- The register timServo. -/
def timServo : RegDef :=
  { base := 0x1A0030, n := 1, stride := 0, m := 1, stride2 := 0, who := 0, key := 0x0, status := false
    fields := [fld 0 16 .rw 100, fld 16 16 .rw 100] }

/-- The register timServoGain. -/
def timServoGain : RegDef :=
  { base := 0x1A0034, n := 1, stride := 0, m := 1, stride2 := 0, who := 0, key := 0x0, status := false
    fields := [fld 0 16 .rw 180, fld 16 16 .rw 64] }

/-- The register timServoOfs. -/
def timServoOfs : RegDef :=
  { base := 0x1A0038, n := 1, stride := 0, m := 1, stride2 := 0, who := 0, key := 0x0, status := false
    fields := [fld 0 32 .wo] }

/-- The register timServoAdj. -/
def timServoAdj : RegDef :=
  { base := 0x1A003C, n := 1, stride := 0, m := 1, stride2 := 0, who := 0, key := 0x0, status := false
    fields := [fld 0 32 .ro] }

/-- The register timSnapCtl. -/
def timSnapCtl : RegDef :=
  { base := 0x1A0040, n := 1, stride := 0, m := 1, stride2 := 0, who := 0, key := 0x0, status := false
    fields := [fld 0 16 .wo, fld 16 16 .ro] }

/-- The register timSnapCnt. -/
def timSnapCnt : RegDef :=
  { base := 0x1A0050, n := 4, stride := 4, m := 1, stride2 := 0, who := 0, key := 0x0, status := false
    fields := [fld 0 32 .ro] }

/-- The register timCmpSecLo. -/
def timCmpSecLo : RegDef :=
  { base := 0x1A0100, n := 8, stride := 16, m := 1, stride2 := 0, who := 0, key := 0x0, status := false
    fields := [fld 0 32 .rw] }

/-- The register timCmpSecHi. -/
def timCmpSecHi : RegDef :=
  { base := 0x1A0104, n := 8, stride := 16, m := 1, stride2 := 0, who := 0, key := 0x0, status := false
    fields := [fld 0 16 .rw] }

/-- The register timCmpNs. -/
def timCmpNs : RegDef :=
  { base := 0x1A0108, n := 8, stride := 16, m := 1, stride2 := 0, who := 0, key := 0x0, status := false
    fields := [fld 0 32 .rw] }

/-- The register timCmpCtl. -/
def timCmpCtl : RegDef :=
  { base := 0x1A010C, n := 8, stride := 16, m := 1, stride2 := 0, who := 0, key := 0x0, status := false
    fields := [fld 0 1 .rw, fld 1 1 .rw, fld 2 1 .rw, fld 3 1 .rw, fld 4 6 .rw, fld 16 16 .ro] }

/-- The register timCmpPer. -/
def timCmpPer : RegDef :=
  { base := 0x1A0180, n := 8, stride := 4, m := 1, stride2 := 0, who := 0, key := 0x0, status := false
    fields := [fld 0 32 .rw 1000000] }

/-- The register ethCfg. -/
def ethCfg : RegDef :=
  { base := 0x1B0000, n := 1, stride := 0, m := 1, stride2 := 0, who := 0, key := 0x0, status := false
    fields := [fld 0 1 .rw 1, fld 1 2 .rw 1] }

/-- The register ethStatus. -/
def ethStatus : RegDef :=
  { base := 0x1B0004, n := 1, stride := 0, m := 1, stride2 := 0, who := 0, key := 0x0, status := true
    fields := [fld 0 1 .rws, fld 1 1 .rws, fld 2 1 .rws, fld 3 1 .rws, fld 16 16 .ro] }

/-- The register ethTxcap. -/
def ethTxcap : RegDef :=
  { base := 0x1B0008, n := 1, stride := 0, m := 1, stride2 := 0, who := 1, key := 0x0, status := false
    fields := [fld 0 16 .rw 1000] }

/-- The register ethTsq. -/
def ethTsq : RegDef :=
  { base := 0x1B000C, n := 1, stride := 0, m := 1, stride2 := 0, who := 0, key := 0x0, status := false
    fields := [fld 0 5 .ro] }

/-- The register ethMacLo. -/
def ethMacLo : RegDef :=
  { base := 0x1B0010, n := 1, stride := 0, m := 1, stride2 := 0, who := 0, key := 0x0, status := false
    fields := [fld 0 32 .rw] }

/-- The register ethMacHi. -/
def ethMacHi : RegDef :=
  { base := 0x1B0014, n := 1, stride := 0, m := 1, stride2 := 0, who := 0, key := 0x0, status := false
    fields := [fld 0 16 .rw] }

/-- The register ethIp. -/
def ethIp : RegDef :=
  { base := 0x1B0018, n := 1, stride := 0, m := 1, stride2 := 0, who := 0, key := 0x0, status := false
    fields := [fld 0 32 .rw] }

/-- The register ethTsLat. -/
def ethTsLat : RegDef :=
  { base := 0x1B001C, n := 1, stride := 0, m := 1, stride2 := 0, who := 0, key := 0x0, status := false
    fields := [fld 0 32 .rw] }

/-- The register ethStream. -/
def ethStream : RegDef :=
  { base := 0x1B0020, n := 1, stride := 0, m := 1, stride2 := 0, who := 0, key := 0x0, status := false
    fields := [fld 0 1 .rw, fld 8 8 .rw 64, fld 16 6 .rw] }

/-- The register ethDstMacLo. -/
def ethDstMacLo : RegDef :=
  { base := 0x1B0024, n := 1, stride := 0, m := 1, stride2 := 0, who := 0, key := 0x0, status := false
    fields := [fld 0 32 .rw] }

/-- The register ethDstMacHi. -/
def ethDstMacHi : RegDef :=
  { base := 0x1B0028, n := 1, stride := 0, m := 1, stride2 := 0, who := 0, key := 0x0, status := false
    fields := [fld 0 16 .rw] }

/-- The register ethDstIp. -/
def ethDstIp : RegDef :=
  { base := 0x1B002C, n := 1, stride := 0, m := 1, stride2 := 0, who := 0, key := 0x0, status := false
    fields := [fld 0 32 .rw] }

/-- The register ethPorts. -/
def ethPorts : RegDef :=
  { base := 0x1B0030, n := 1, stride := 0, m := 1, stride2 := 0, who := 0, key := 0x0, status := false
    fields := [fld 0 16 .rw, fld 16 16 .rw] }

/-- The register ethSnapCtl. -/
def ethSnapCtl : RegDef :=
  { base := 0x1B0040, n := 1, stride := 0, m := 1, stride2 := 0, who := 0, key := 0x0, status := false
    fields := [fld 0 16 .wo, fld 16 16 .ro] }

/-- The register ethSnapCnt. -/
def ethSnapCnt : RegDef :=
  { base := 0x1B0050, n := 6, stride := 4, m := 1, stride2 := 0, who := 0, key := 0x0, status := false
    fields := [fld 0 32 .ro] }

/-- The register ethFilt. -/
def ethFilt : RegDef :=
  { base := 0x1B0080, n := 8, stride := 4, m := 1, stride2 := 0, who := 0, key := 0x0, status := false
    fields := [fld 0 1 .rw, fld 1 2 .rw, fld 16 16 .rw] }

/-- The register encSnapCtl. -/
def encSnapCtl : RegDef :=
  { base := 0x1C0010, n := 1, stride := 0, m := 1, stride2 := 0, who := 0, key := 0x0, status := false
    fields := [fld 0 16 .wo, fld 16 16 .ro] }

/-- The register encCfg. -/
def encCfg : RegDef :=
  { base := 0x1C0100, n := 4, stride := 64, m := 1, stride2 := 0, who := 0, key := 0x0, status := false
    fields := [fld 0 2 .rw, fld 2 1 .rw, fld 4 3 .rw 1, fld 8 8 .rw 4] }

/-- The register encStatus. -/
def encStatus : RegDef :=
  { base := 0x1C0104, n := 4, stride := 64, m := 1, stride2 := 0, who := 0, key := 0x0, status := true
    fields := [fld 0 1 .rws, fld 1 1 .rws, fld 2 1 .rws, fld 3 1 .rws, fld 16 16 .ro] }

/-- The register encSer. -/
def encSer : RegDef :=
  { base := 0x1C0108, n := 4, stride := 64, m := 1, stride2 := 0, who := 0, key := 0x0, status := false
    fields := [fld 0 7 .rw 10, fld 8 14 .rw 100, fld 24 6 .rw 24, fld 30 1 .rw] }

/-- The register encObs. -/
def encObs : RegDef :=
  { base := 0x1C010C, n := 4, stride := 64, m := 1, stride2 := 0, who := 0, key := 0x0, status := false
    fields := [fld 0 14 .rw 200, fld 16 3 .rw 3] }

/-- The register encPosLo. -/
def encPosLo : RegDef :=
  { base := 0x1C0110, n := 4, stride := 64, m := 1, stride2 := 0, who := 0, key := 0x0, status := false
    fields := [fld 0 32 .ro] }

/-- The register encPosHi. -/
def encPosHi : RegDef :=
  { base := 0x1C0114, n := 4, stride := 64, m := 1, stride2 := 0, who := 0, key := 0x0, status := false
    fields := [fld 0 16 .ro] }

/-- The register encSpeed. -/
def encSpeed : RegDef :=
  { base := 0x1C0118, n := 4, stride := 64, m := 1, stride2 := 0, who := 0, key := 0x0, status := false
    fields := [fld 0 32 .ro] }

/-- The register encAccel. -/
def encAccel : RegDef :=
  { base := 0x1C011C, n := 4, stride := 64, m := 1, stride2 := 0, who := 0, key := 0x0, status := false
    fields := [fld 0 32 .ro] }

/-- The register encState. -/
def encState : RegDef :=
  { base := 0x1C0120, n := 4, stride := 64, m := 1, stride2 := 0, who := 0, key := 0x0, status := false
    fields := [fld 0 1 .ro, fld 8 2 .ro] }

/-- The register encZpos. -/
def encZpos : RegDef :=
  { base := 0x1C0124, n := 4, stride := 64, m := 2, stride2 := 4, who := 0, key := 0x0, status := false
    fields := [fld 0 32 .ro] }

/-- The register encSnapCnt. -/
def encSnapCnt : RegDef :=
  { base := 0x1C0130, n := 4, stride := 64, m := 4, stride2 := 4, who := 0, key := 0x0, status := false
    fields := [fld 0 32 .ro] }

/-- The register dioHb. -/
def dioHb : RegDef :=
  { base := 0x1D0000, n := 1, stride := 0, m := 1, stride2 := 0, who := 0, key := 0x0, status := false
    fields := [fld 0 10 .rw 10] }

/-- The register dioStatus. -/
def dioStatus : RegDef :=
  { base := 0x1D0004, n := 1, stride := 0, m := 1, stride2 := 0, who := 0, key := 0x0, status := true
    fields := [fld 0 1 .rws, fld 2 1 .rws, fld 3 1 .rws, fld 16 16 .ro] }

/-- The register dioSafe. -/
def dioSafe : RegDef :=
  { base := 0x1D0008, n := 1, stride := 0, m := 1, stride2 := 0, who := 1, key := 0x5AFE, status := false
    fields := [fld 0 1 .ro, fld 1 1 .wo, fld 16 16 .wo] }

/-- The register dioOut. -/
def dioOut : RegDef :=
  { base := 0x1D000C, n := 1, stride := 0, m := 1, stride2 := 0, who := 0, key := 0x0, status := false
    fields := [fld 0 32 .rw] }

/-- The register dioIn. -/
def dioIn : RegDef :=
  { base := 0x1D0010, n := 1, stride := 0, m := 1, stride2 := 0, who := 0, key := 0x0, status := false
    fields := [fld 0 32 .ro] }

/-- The register dioOvl. -/
def dioOvl : RegDef :=
  { base := 0x1D0014, n := 1, stride := 0, m := 1, stride2 := 0, who := 0, key := 0x0, status := false
    fields := [fld 0 32 .ro] }

/-- The register dioSnapCtl. -/
def dioSnapCtl : RegDef :=
  { base := 0x1D0018, n := 1, stride := 0, m := 1, stride2 := 0, who := 0, key := 0x0, status := false
    fields := [fld 0 16 .wo, fld 16 16 .ro] }

/-- The register dioSnapCnt. -/
def dioSnapCnt : RegDef :=
  { base := 0x1D0020, n := 4, stride := 4, m := 1, stride2 := 0, who := 0, key := 0x0, status := false
    fields := [fld 0 32 .ro] }

/-- The register dioCfg. -/
def dioCfg : RegDef :=
  { base := 0x1D0100, n := 32, stride := 32, m := 1, stride2 := 0, who := 0, key := 0x0, status := false
    fields := [fld 0 1 .rw, fld 1 1 .rw 1, fld 2 2 .rw, fld 4 1 .rw, fld 5 1 .rw] }

/-- The register dioDeb. -/
def dioDeb : RegDef :=
  { base := 0x1D0104, n := 32, stride := 32, m := 1, stride2 := 0, who := 0, key := 0x0, status := false
    fields := [fld 0 17 .rw 10] }

/-- The register dioEdge. -/
def dioEdge : RegDef :=
  { base := 0x1D0108, n := 32, stride := 32, m := 4, stride2 := 4, who := 0, key := 0x0, status := false
    fields := [fld 0 32 .ro] }

/-- The register krbCfg. -/
def krbCfg : RegDef :=
  { base := 0x1E0000, n := 1, stride := 0, m := 1, stride2 := 0, who := 0, key := 0x0, status := false
    fields := [fld 0 16 .rw, fld 16 16 .rw 65535] }

/-- The register krbStatus. -/
def krbStatus : RegDef :=
  { base := 0x1E0004, n := 1, stride := 0, m := 1, stride2 := 0, who := 0, key := 0x0, status := true
    fields := [fld 0 1 .rws, fld 1 1 .rws, fld 2 1 .rws, fld 3 1 .rws, fld 4 1 .rws, fld 16 16 .ro] }

/-- The register krbUsed. -/
def krbUsed : RegDef :=
  { base := 0x1E0008, n := 1, stride := 0, m := 1, stride2 := 0, who := 0, key := 0x0, status := false
    fields := [fld 0 9 .ro, fld 16 9 .ro] }

/-- The register krbSnapCtl. -/
def krbSnapCtl : RegDef :=
  { base := 0x1E0010, n := 1, stride := 0, m := 1, stride2 := 0, who := 0, key := 0x0, status := false
    fields := [fld 0 16 .wo, fld 16 16 .ro] }

/-- The register krbSnapCnt. -/
def krbSnapCnt : RegDef :=
  { base := 0x1E0020, n := 8, stride := 4, m := 1, stride2 := 0, who := 0, key := 0x0, status := false
    fields := [fld 0 32 .ro] }

/-- The register krbOut. -/
def krbOut : RegDef :=
  { base := 0x1E0100, n := 32, stride := 8, m := 1, stride2 := 0, who := 0, key := 0x0, status := false
    fields := [fld 0 20 .rw] }

/-- The register krbPulse. -/
def krbPulse : RegDef :=
  { base := 0x1E0104, n := 32, stride := 8, m := 1, stride2 := 0, who := 0, key := 0x0, status := false
    fields := [fld 0 24 .rw 10000, fld 31 1 .rw] }

/-- The register krbLim. -/
def krbLim : RegDef :=
  { base := 0x1E0200, n := 32, stride := 8, m := 1, stride2 := 0, who := 0, key := 0x0, status := false
    fields := [fld 0 16 .tv, fld 16 16 .tv] }

/-- The register krbRate. -/
def krbRate : RegDef :=
  { base := 0x1E0204, n := 32, stride := 8, m := 1, stride2 := 0, who := 0, key := 0x0, status := false
    fields := [fld 0 16 .tv] }

/-- The register krbTplan. -/
def krbTplan : RegDef :=
  { base := 0x1E0400, n := 32, stride := 32, m := 8, stride2 := 4, who := 0, key := 0x0, status := false
    fields := [fld 0 32 .ro] }

/-- The register krbEntry. -/
def krbEntry : RegDef :=
  { base := 0x1E1000, n := 256, stride := 32, m := 8, stride2 := 4, who := 0, key := 0x0, status := false
    fields := [fld 0 32 .ro] }

end Reg

/-- Part 0 of the register map. -/
def regMap0 : List RegDef :=
  [Reg.glbId, Reg.glbStep, Reg.glbFeat0, Reg.glbFeat1, Reg.glbSerialLo, Reg.glbSerialHi, Reg.glbFw, Reg.glbSubsys, Reg.glbMode, Reg.glbStatus, Reg.glbErr, Reg.glbSnapAll, Reg.glbCores, Reg.glbFenced, Reg.glbFeat2, Reg.glbSummary, Reg.glbSem, Reg.glbScratch, Reg.rstCause, Reg.rstStatus, Reg.rstTrim, Reg.rstCfg, Reg.rstWdog, Reg.rstKick, Reg.rstReq]

/-- Part 1 of the register map. -/
def regMap1 : List RegDef :=
  [Reg.rstFuse, Reg.rstBoot, Reg.rstBakSys, Reg.rstBakCore, Reg.rstBakStat, Reg.rstHist, Reg.secStatus, Reg.secPolicy, Reg.secSvn, Reg.secRoll, Reg.secKeys, Reg.secMeas, Reg.secAliasPk, Reg.secDevidPk, Reg.pciStatus, Reg.pciLink, Reg.pciAp, Reg.pciCtl, Reg.pciSnapCtl, Reg.pciSnapCnt, Reg.pciWinLo, Reg.pciWinHi, Reg.pciWinSize, Reg.pciWinCtl, Reg.msixTable]

/-- Part 2 of the register map. -/
def regMap2 : List RegDef :=
  [Reg.msixPba, Reg.pwrCtl, Reg.pwrStatus, Reg.pwrLimit, Reg.pwrMeas, Reg.pwrThrot, Reg.pwrTemp, Reg.pwrGate, Reg.pwrGov, Reg.pwrGov2, Reg.pwrGovView, Reg.pwrSnapCtl, Reg.pwrSnapCnt, Reg.rasStatus, Reg.rasCfg, Reg.rasLast, Reg.rasBlkrst, Reg.rasSnapCtl, Reg.rasSnapCnt, Reg.itmCtl, Reg.itmStatus, Reg.itmCfg, Reg.itmNextId, Reg.itmNextSeq, Reg.itmOldestId]

/-- Part 3 of the register map. -/
def regMap3 : List RegDef :=
  [Reg.itmInflight, Reg.itmSubBase, Reg.itmSubSize, Reg.itmResBase, Reg.itmResSize, Reg.itmEvtBase, Reg.itmEvtSize, Reg.itmSubPoll, Reg.itmSubCidx, Reg.itmResPidx, Reg.itmResCidx, Reg.itmEvtPidx, Reg.itmEvtCidx, Reg.itmWbBase, Reg.itmOvfBase, Reg.itmOvfSize, Reg.itmSnapCtl, Reg.itmSnapCnt, Reg.itmSrcCtl, Reg.itmSrcDl, Reg.itmSrcDfire, Reg.sqCtl, Reg.sqStatus, Reg.sqScrub, Reg.sqRetireCfg]

/-- Part 4 of the register map. -/
def regMap4 : List RegDef :=
  [Reg.sqFree, Reg.sqSpare, Reg.sqPartOver, Reg.sqErrAddr, Reg.sqSnapCtl, Reg.sqSnapCnt, Reg.sqQuota, Reg.sqUse, Reg.sqKvCfg, Reg.sqKvUse, Reg.sqBankmap, Reg.memStatus, Reg.memEcc, Reg.memErrAddr, Reg.tcSpare, Reg.tcFence, Reg.tcCfg, Reg.tcSnapCtl, Reg.tcState, Reg.tcOpp, Reg.tcStatus, Reg.tcErrAddr, Reg.tcCnt, Reg.seqTask, Reg.seqPc]

/-- Part 5 of the register map. -/
def regMap5 : List RegDef :=
  [Reg.seqStep, Reg.seqQdepth, Reg.seqStatus, Reg.seqFault, Reg.seqTokLo, Reg.seqTokHi, Reg.rbtCtl, Reg.rbtStatus, Reg.rbtCfg, Reg.rbtSnapCtl, Reg.rbtSnapCnt, Reg.rbtReady, Reg.sqmStatus, Reg.sqmSnapCtl, Reg.sqmSnapCnt, Reg.sqmCli, Reg.sqmMemb, Reg.sqmIds, Reg.sqmFree, Reg.ispSnapCtl, Reg.ispStatus, Reg.ispRoute, Reg.ispRouteRv, Reg.ispRouteRv13, Reg.ispCur]

/-- Part 6 of the register map. -/
def regMap6 : List RegDef :=
  [Reg.ispPaddr, Reg.ispPctl, Reg.ispPgen, Reg.ispSnapCnt, Reg.cxpSnapCtl, Reg.cxpCtl, Reg.cxpStatus, Reg.cxpLink, Reg.cxpFmt, Reg.cxpWidth, Reg.cxpLines, Reg.cxpGate, Reg.cxpTail, Reg.cxpCcAddr, Reg.cxpCcCtl, Reg.cxpCcStat, Reg.cxpCcBuf, Reg.cxpSnapCnt, Reg.auxSnapCtl, Reg.auxStore, Reg.auxCtl, Reg.auxStatus, Reg.auxLink, Reg.auxFmt, Reg.auxWidth]

/-- Part 7 of the register map. -/
def regMap7 : List RegDef :=
  [Reg.auxLines, Reg.auxGate, Reg.auxTail, Reg.auxTrigCfg, Reg.auxRv1, Reg.auxRv2, Reg.auxCcBuf, Reg.auxSnapCnt, Reg.wrpStatus, Reg.wrpBusy, Reg.wrpCfg, Reg.wrpSnapCtl, Reg.wrpSnapCnt, Reg.roiStatus, Reg.roiBusy, Reg.roiCfg, Reg.roiSnapCtl, Reg.roiSnapCnt, Reg.srtStatus, Reg.srtBusy, Reg.srtCfg, Reg.srtSnapCtl, Reg.srtSnapCnt, Reg.bcdStatus, Reg.bcdBusy]

/-- Part 8 of the register map. -/
def regMap8 : List RegDef :=
  [Reg.bcdCfg, Reg.bcdSnapCtl, Reg.bcdSnapCnt, Reg.recStatus, Reg.recBusy, Reg.recCfg, Reg.recSnapCtl, Reg.recSnapCnt, Reg.cadStatus, Reg.cadBusy, Reg.cadCfg, Reg.cadSnapCtl, Reg.cadSnapCnt, Reg.crcStatus, Reg.crcBusy, Reg.crcCfg, Reg.crcSnapCtl, Reg.crcSnapCnt, Reg.hshStatus, Reg.hshBusy, Reg.hshCfg, Reg.hshSnapCtl, Reg.hshSnapCnt, Reg.dmaStatus, Reg.dmaBusy]

/-- Part 9 of the register map. -/
def regMap9 : List RegDef :=
  [Reg.dmaCfg, Reg.dmaSnapCtl, Reg.dmaSnapCnt, Reg.blvCtl, Reg.blvStatus, Reg.blvLink, Reg.blvPm, Reg.blvPrbs, Reg.blvSnapCtl, Reg.blvSnapCnt, Reg.timCtl, Reg.timStatus, Reg.timIncLo, Reg.timIncHi, Reg.timNowSecLo, Reg.timNowSecHi, Reg.timNowNs, Reg.timNowSub, Reg.timSetSecLo, Reg.timSetSecHi, Reg.timSetNs, Reg.timStep, Reg.timServo, Reg.timServoGain, Reg.timServoOfs]

/-- Part 10 of the register map. -/
def regMap10 : List RegDef :=
  [Reg.timServoAdj, Reg.timSnapCtl, Reg.timSnapCnt, Reg.timCmpSecLo, Reg.timCmpSecHi, Reg.timCmpNs, Reg.timCmpCtl, Reg.timCmpPer, Reg.ethCfg, Reg.ethStatus, Reg.ethTxcap, Reg.ethTsq, Reg.ethMacLo, Reg.ethMacHi, Reg.ethIp, Reg.ethTsLat, Reg.ethStream, Reg.ethDstMacLo, Reg.ethDstMacHi, Reg.ethDstIp, Reg.ethPorts, Reg.ethSnapCtl, Reg.ethSnapCnt, Reg.ethFilt, Reg.encSnapCtl]

/-- Part 11 of the register map. -/
def regMap11 : List RegDef :=
  [Reg.encCfg, Reg.encStatus, Reg.encSer, Reg.encObs, Reg.encPosLo, Reg.encPosHi, Reg.encSpeed, Reg.encAccel, Reg.encState, Reg.encZpos, Reg.encSnapCnt, Reg.dioHb, Reg.dioStatus, Reg.dioSafe, Reg.dioOut, Reg.dioIn, Reg.dioOvl, Reg.dioSnapCtl, Reg.dioSnapCnt, Reg.dioCfg, Reg.dioDeb, Reg.dioEdge, Reg.krbCfg, Reg.krbStatus, Reg.krbUsed]

/-- Part 12 of the register map. -/
def regMap12 : List RegDef :=
  [Reg.krbSnapCtl, Reg.krbSnapCnt, Reg.krbOut, Reg.krbPulse, Reg.krbLim, Reg.krbRate, Reg.krbTplan, Reg.krbEntry]

/-- The register map in block order. -/
def regMap : List RegDef :=
  regMap0 ++ regMap1 ++ regMap2 ++ regMap3 ++ regMap4 ++ regMap5 ++ regMap6 ++ regMap7 ++ regMap8 ++ regMap9 ++ regMap10 ++ regMap11 ++ regMap12

/-- The register at an offset, if any (R553). -/
def regAt (off : Nat) : Option RegDef := regMap.find? (fun d => d.holds off)

/-- The reset words of the receive filters: EtherType 0x88F7, UDP 319, UDP 320, EtherType 0x0806, ICMP, then none (14_time). -/
def filterReset (k : Nat) : Word :=
  match k with
  | 0 => (0x88F7_0001 : BitVec 32)
  | 1 => BitVec.ofNat 32 (319 * 65536 + 3)
  | 2 => BitVec.ofNat 32 (320 * 65536 + 3)
  | 3 => (0x0806_0001 : BitVec 32)
  | 4 => 5#32
  | _ => 0#32

/-- The word that a register holds after reset (R9 tables). Partition 0 resets enabled with quota 8,192; the bank map to
the identity; the receive filters as listed. -/
def resetOf (off : Nat) : Word :=
  match regAt off with
  | none => 0
  | some d =>
    if d.base = Reg.sqQuota.base then (if d.index off = 0 then BitVec.ofNat 32 (2 ^ 31 + 8192) else 0)
    else if d.base = Reg.sqBankmap.base then BitVec.ofNat 32 (d.index off)
    else if d.base = Reg.ethFilt.base then filterReset (d.index off)
    else if d.base = Reg.msixTable.base then (if (d.index off) % 4 = 3 then 1 else 0)
    else d.resetWord

end Sys2Proof.Machine
end

