-- ==== Sys2Proof/Machine/Status.lean ====
section
/-! DEFINITION. The status codes of R213 and of the chapters that own codes 0x40-0x7F (R348, R469, R517). -/

namespace Sys2Proof.Machine.Stat

open Sys2Proof

/-- Completed. -/
def ok : Nat := 0x00
/-- A length, count or size exceeds its buffer or region. -/
def length : Nat := 0x01
/-- An operator shape or job geometry is invalid. -/
def shape : Nat := 0x02
/-- A format code, control word, operation code, reserved field or field value is invalid. -/
def badFormat : Nat := 0x03
/-- An instruction word does not decode. -/
def illegal : Nat := 0x04
/-- An address is unmapped or unallocated. -/
def unmapped : Nat := 0x05
/-- Uncorrectable data was read or partly overwritten. -/
def poison : Nat := 0x06
/-- A write touched a pinned extent. -/
def pinned : Nat := 0x07
/-- A signal would exceed 65,535. -/
def tokenOverflow : Nat := 0x08
/-- A remote operation passed its 200 us limit. -/
def timeout : Nat := 0x09
/-- The partition's quota is exceeded. -/
def overQuota : Nat := 0x0A
/-- No free run is large enough. -/
def noSpace : Nat := 0x0B
/-- The item has committed or defaulted. -/
def itemClosed : Nat := 0x0C
/-- The item ID is newer than any issued. -/
def itemUnknown : Nat := 0x0D
/-- The act position is inside the fire margin. -/
def fireLate : Nat := 0x0E
/-- Unknown submission opcode or unsupported operation. -/
def unsupported : Nat := 0x0F
/-- The image targets another part or image version. -/
def imageVersion : Nat := 0x10
/-- The image structure, a check or a hash is wrong. -/
def imageCorrupt : Nat := 0x11
/-- The signature failed, or is required and absent. -/
def signature : Nat := 0x12
/-- The token graph is invalid or differs from the code. -/
def tokenGraph : Nat := 0x13
/-- Resources are insufficient. -/
def shortfall : Nat := 0x14
/-- No loaded program has the handle. -/
def badHandle : Nat := 0x15
/-- The program stopped for want of cores. -/
def progStopped : Nat := 0x16
/-- A reset ended the submission before it completed. -/
def aborted : Nat := 0x17
/-- The item already holds 64 fragments. -/
def fragLimit : Nat := 0x18
/-- A device access to host memory was refused or failed (R469). -/
def hostAbort : Nat := 0x50
/-- The unit is isolated (R517). -/
def isolated : Nat := 0x58

end Sys2Proof.Machine.Stat
end

