-- ==== Sys2Proof/Machine/Ops.lean ====
section
/-! DEFINITION. The named operations that the meanings of the commands share: registers and their fields, status flags,
counters, device time and positions, device memory and host windows, messages to the outside, and events. -/

namespace Sys2Proof.Machine

open Sys2Proof

/-- The result of a command. -/
abbrev Result := Host.Outcome State Fault Refusal

/-! ## Registers -/

/-- The reset value of a register: from its register table, or from the fuse map where the table says "fuse" or "die" (R435, R454, R535,
R566). -/
def resetFor (f : Fuses) (off : Nat) : Word :=
  if off / 65536 = 0 then
    if off = Reg.glbStep.base then resetOf off ||| f.stepBuild.setWidth 32
    else if off = Reg.glbSerialLo.base then f.serial.setWidth 32
    else if off = Reg.glbSerialHi.base then (f.serial >>> 32).setWidth 32
    else if off = Reg.glbSubsys.base then f.subsys
    else resetOf off
  else if off = Reg.ethMacLo.base then f.ethMac.setWidth 32
  else if off = Reg.ethMacHi.base then (f.ethMac >>> 32).setWidth 32
  else if off = Reg.ethTsLat.base then f.tsLat
  else if Reg.dioCfg.holds off then
    let n := Reg.dioCfg.index off
    resetOf off ||| BitVec.ofNat 32 (b2n (f.dioOut.getLsbD n) + 16 * b2n (f.dioSafe.getLsbD n))
  else resetOf off

/-- The word stored for a register: what was last stored, else its reset value. -/
def rdW (s : State) (off : Nat) : Word :=
  match s.regs.lookup off with
  | some v => v
  | none => resetFor s.fuse off

/-- The number stored for a register. -/
def rd (s : State) (off : Nat) : Nat := (rdW s off).toNat

/-- A list of pairs with the entry of a key set: replaced where it stands, else added at the end. -/
def upsert {α : Type} (k : Nat) (v : α) : List (Nat × α) → List (Nat × α)
  | [] => [(k, v)]
  | e :: es => if e.1 = k then (k, v) :: es else e :: upsert k v es

/-- Stores a number in a register. -/
def wr (off v : Nat) (s : State) : State := { s with regs := upsert off (BitVec.ofNat 32 v) s.regs }

/-- A field of a register. -/
def rdF (s : State) (off lo w : Nat) : Nat := bits (rd s off) lo w

/-- Stores a field of a register. -/
def wrF (off lo w v : Nat) (s : State) : State := wr off (setBits (rd s off) lo w v) s

/-- A bit of a register. -/
def rdB (s : State) (off i : Nat) : Bool := (rd s off).testBit i

/-- Drops what is stored for a register, so that it holds its reset value. -/
def wrReset (off : Nat) (s : State) : State := { s with regs := s.regs.filter fun e => e.1 != off }

/-! ## Status registers and counters -/

/-- An event that sets flag `bit` of the status register at `off`: the flag is set and the sequence moves on by one, whether or
not the flag was set (R11). -/
def setFlag (off bit : Nat) (s : State) : State :=
  let w := rd s off
  wr off (((w / 65536 + 1) % 65536) * 65536 + ((w % 65536) ||| 2 ^ bit)) s

/-- Several flags of one status register, each an event of its own (R11). -/
def setFlags (off : Nat) (fs : List Nat) (s : State) : State := fs.foldl (fun s f => setFlag off f s) s

/-- A flag of a status register. -/
def flagOf (s : State) (off bit : Nat) : Bool := (rd s off).testBit bit

/-- A live counter, by the offset of its snapshot register. -/
def ctrOf (s : State) (off : Nat) : Nat := (s.ctr.lookup off).getD 0

/-- Counts `n` in the live counter whose snapshot register lies at `off`. -/
def count (off n : Nat) (s : State) : State := { s with ctr := upsert off (ctrOf s off + n) s.ctr }

/-- Sets a live counter. -/
def setCtr (off n : Nat) (s : State) : State := { s with ctr := upsert off n s.ctr }

/-- Counts one in counter `i` of a block's snapshot registers at `base`. -/
def bump (base i : Nat) (s : State) : State := count (base + 4 * i) 1 s

/-! ## Parts of the state -/

/-- Puts another queue of waiting commands in place. -/
def setPending (q : List Instr) (s : State) : State := { s with pending := q }
/-- Changes the ledger. -/
def modLed (f : Ledger → Ledger) (s : State) : State := { s with led := f s.led }
/-- Changes the Square's part. -/
def modSq (f : Square → Square) (s : State) : State := { s with sq := f s.sq }
/-- Changes the engines' part. -/
def modEng (f : Engines → Engines) (s : State) : State := { s with eng := f s.eng }
/-- Changes the Ouvfi die. -/
def modOuv (f : Ouvfi → Ouvfi) (s : State) : State := { s with ouv := f s.ouv }
/-- Changes device time and the network port. -/
def modTim (f : TimeNet → TimeNet) (s : State) : State := { s with tim := f s.tim }
/-- Changes the power part. -/
def modPwr (f : Power → Power) (s : State) : State := { s with pwr := f s.pwr }
/-- Changes the reset part. -/
def modRst (f : ResetState → ResetState) (s : State) : State := { s with rst := f s.rst }
/-- Changes the host link. -/
def modHost (f : HostLink → HostLink) (s : State) : State := { s with host := f s.host }
/-- Hands a message to the outside. -/
def emit (m : OutMsg) (s : State) : State := { s with out := s.out ++ [m] }

/-- A list with element `i` changed. -/
def modAt {α : Type} (i : Nat) (f : α → α) : List α → List α
  | [] => []
  | x :: xs => match i with
    | 0 => f x :: xs
    | j + 1 => x :: modAt j f xs

/-- Changes camera port `n` (0-11 CXP, 12-15 AUX). -/
def modPort (n : Nat) (f : Port → Port) (s : State) : State := { s with ports := modAt n f s.ports }
/-- Changes pipeline `k`. -/
def modPipe (k : Nat) (f : Pipe → Pipe) (s : State) : State := { s with pipes := modAt k f s.pipes }
/-- Changes core `n`. -/
def modCore (n : Nat) (f : TensorCore → TensorCore) (s : State) : State := { s with cores := modAt n f s.cores }
/-- Changes encoder `n` on Ouvfi. -/
def modEnc (n : Nat) (f : Encoder → Encoder) (s : State) : State :=
  modOuv (fun o => { o with encs := modAt n f o.encs }) s
/-- Changes output `n`. -/
def modOutput (n : Nat) (f : Output → Output) (s : State) : State :=
  modOuv (fun o => { o with outputs := modAt n f o.outputs }) s
/-- Changes the task with a name. -/
def modTask (t : TaskId) (f : Task → Task) (s : State) : State :=
  { s with tasks := updFirst (fun x => x.id == t) f s.tasks }
/-- The task with a name. -/
def taskOf (s : State) (t : TaskId) : Option Task := s.tasks.find? fun x => x.id == t
/-- The program with a load handle (loaded, or whose load is in progress). -/
def progOf (s : State) (h : Nat) : Option Program := s.progs.find? fun p => p.handle == h
/-- Changes the program with a load handle. -/
def modProg (h : Nat) (f : Program → Program) (s : State) : State :=
  { s with progs := updFirst (fun p => p.handle == h) f s.progs }

/-- A fresh free byte (an unspecified byte of the manual) and the state that has used it. -/
def takeFree (n : Nat) (s : State) : List Byte × State :=
  ((List.range n).map fun i => Config.freeByte (s.fresh + i), { s with fresh := s.fresh + n })

/-- The next order stamp. -/
def nextStamp (s : State) : Nat × State := (s.stamp, { s with stamp := s.stamp + 1 })

/-! ## Reset phases -/

/-- The blocks that a core reset holds are running. -/
def coreUp (s : State) : Bool := s.rst.phase == .running

/-- No system or power-on reset is held or stretching: the units outside the reach of a core reset run (R523, R530). -/
def wideUp (s : State) : Bool := coreUp s || s.rst.level == 0

/-- The boot state (RST_BOOT.state): 0 until the boot ROM has run, then as R540 and R541 give. -/
def bootState (s : State) : Nat := rdF s Reg.rstBoot.base 0 4

/-- The module is in RECOVERY (RST_BOOT.state 8, R541). -/
def inRecovery (s : State) : Bool := bootState s == 8

/-- Firmware runs: the boot reached READY (RST_BOOT.state 7, R540) and no reset holds the control complex. -/
def fwUp (s : State) : Bool := coreUp s && bootState s == 7

/-- Configuration requests complete: until READY or RECOVERY they get Configuration Request Retry Status (R543). -/
def cfgAnswers (s : State) : Bool := bootState s == 7 || inRecovery s

/-- A unit's isolation wrapper is open (R517). -/
def unitUp (s : State) (u : BlockUnit) : Bool := !s.pwr.isolated.contains u

/-- A unit's clock has started since the last reset (R499). -/
def awake (s : State) (chain unit : Nat) : Bool := !s.pwr.asleep.contains (chain, unit)

/-- Control processor `n` performs its duties (R23, R518). -/
def cpUp (s : State) (n : Nat) : Bool := fwUp s && unitUp s (.cp n)

/-- Pipeline `k` runs. -/
def pipeUp (s : State) (k : Nat) : Bool := coreUp s && awake s 1 k && unitUp s (.ip k)

/-- Engine group `g` runs. -/
def groupUp (s : State) (g : Nat) : Bool := coreUp s && awake s 2 g && unitUp s (.group g)

/-! ## Time and positions -/

/-- The microsecond position: the low 48 bits of device time in whole microseconds (R34). -/
def usPos (t : DevTime) : Pos := BitVec.ofNat 48 (t.sec * 1000000 + t.ns / 1000)

/-- Device time in units of 2^-32 ns. -/
def timeUnits (t : DevTime) : Nat := (t.sec * 1000000000 + t.ns) * 2 ^ 32 + t.frac

/-- The 16 bytes of a time in records and events (R54): 48-bit seconds, 32-bit ns, 16-bit sub-ns, then zeros. -/
def timeBytes (t : DevTime) : List Byte :=
  leBytes 6 t.sec ++ leBytes 4 t.ns ++ leBytes 2 (t.frac / 65536) ++ [0, 0, 0, 0]

/-- A position field of records and events: [47:0] position, [50:48] position source (R54). -/
def posField (src : Nat) (p : Pos) : Nat := p.toNat + src * 2 ^ 48

/-- The Eboux copy of a position source: the encoder copy of R20, or the microsecond position. -/
def copyPos (s : State) (src : Nat) : Pos :=
  if src < 4 then (s.copies.getD src { pos := 0, vhat := 0, reverse := false, frac := 0 }).pos else usPos s.tim.now

/-- Encoder `n` on Ouvfi. -/
def encOf (s : State) (n : Nat) : Encoder := s.ouv.encs.getD n Encoder.reset

/-! ## Device memory -/

/-- Where a device address lies. -/
inductive Region where
  | square | lpddr | peer (port : Nat) | host | other
  deriving DecidableEq, Repr

/-- The map of device memory (R71, R109, R476, R492). -/
def regionOf (a : Nat) : Region :=
  if a < 0x20000000 then .square
  else if 0x1000000000 ≤ a ∧ a < 0x2000000000 then .lpddr
  else if 0x4000000000 ≤ a ∧ a < 0x4800000000 then .peer 0
  else if 0x4800000000 ≤ a ∧ a < 0x5000000000 then .peer 1
  else if 0x8000000000 ≤ a ∧ a < 0x9000000000 then .host
  else .other

/-- The host window that a device address lies in by its number. -/
def winOf (a : Nat) : Nat := (a - 0x8000000000) / 0x100000000

/-- Window `n` is enabled (R476). -/
def winEn (s : State) (n : Nat) : Bool := rdB s (Reg.pciWinCtl.off n 0) 0

/-- Device writes through window `n` are allowed. -/
def winWr (s : State) (n : Nat) : Bool := rdB s (Reg.pciWinCtl.off n 0) 1

/-- The size of window `n` in bytes. -/
def winBytes (s : State) (n : Nat) : Nat := rdF s (Reg.pciWinSize.off n 0) 0 21 * 4096

/-- The host base of window `n`. -/
def winBase (s : State) (n : Nat) : Nat := rd s (Reg.pciWinLo.off n 0) + rd s (Reg.pciWinHi.off n 0) * 2 ^ 32

/-- `n` bytes at device address `a` lie wholly inside one enabled host window (R56, R476). -/
def winCovers (s : State) (a n : Nat) : Bool :=
  regionOf a == .host && winEn s (winOf a) && decide (a % 0x100000000 + n ≤ winBytes s (winOf a))

/-- The host address of a device address inside a window (R476). -/
def hostAddr (s : State) (a : Nat) : Nat := winBase s (winOf a) + a % 0x100000000

/-- The module may send a write of `n` bytes to device address `a` in host memory (R65, R468, R476, R478). -/
def hostCanWrite (s : State) (a n : Nat) : Bool := s.host.bme && winCovers s a n && winWr s (winOf a)

/-- The module may send a read of `n` bytes. -/
def hostCanRead (s : State) (a n : Nat) : Bool := s.host.bme && winCovers s a n

/-- A device access to host memory that was refused or failed (R469): PCI_STATUS flag 6 and its counter. -/
def hostAbort (s : State) : State := s |> setFlag Reg.pciStatus.base 6 |> bump Reg.pciSnapCnt.base 1

/-- Writes bytes to host memory through a window. -/
def hostPut (a : Nat) (bs : List Byte) (s : State) : State :=
  { s with hostMem := memWrite s.hostMem (hostAddr s a) bs }

/-- Reads bytes of host memory through a window; counted as a device read (R496). -/
def hostGet (s : State) (a n : Nat) : List Byte := memRead s.hostMem (hostAddr s a) n

/-- Writes bytes to the Square or LPDDR-6; a word written whole is no longer poisoned (R78). -/
def devPut (a : Nat) (bs : List Byte) (s : State) : State :=
  { s with mem := memWrite s.mem a bs
           sq := { s.sq with poison := poisonClear s.sq.poison a bs.length } }

/-- Reads bytes of the Square or LPDDR-6. -/
def devGet (s : State) (a n : Nat) : List Byte := memRead s.mem a n

/-- The little-endian number of `n` bytes of device memory. -/
def devLe (s : State) (a n : Nat) : Nat := ofLe (devGet s a n)

/-! ## MSI-X -/

/-- The mask bit of a vector, in word 3 of its table entry (R479). -/
def vecMasked (s : State) (v : Nat) : Bool := rdB s (Reg.msixTable.off (4 * v + 3) 0) 0

/-- Raises a vector: one message is sent, or stays pending while the vector is masked or bus mastering is off (R468, R480). -/
def raiseVec (v : Nat) (s : State) : State :=
  if vecMasked s v || !s.host.bme then modHost (fun h => { h with vecPend := h.vecPend ||| BitVec.twoPow 64 v }) s
  else emit (.msix v) s

/-- Sends the message of a pending vector that is no longer masked (R480). -/
def sendPending (v : Nat) (s : State) : State :=
  if s.host.vecPend.getLsbD v && !vecMasked s v && s.host.bme then
    s |> modHost (fun h => { h with vecPend := h.vecPend &&& ~~~ BitVec.twoPow 64 v }) |> emit (.msix v)
  else s

/-- Sends every pending message that may be sent. -/
def sendAllPending (s : State) : State := (List.range 64).foldl (fun s v => sendPending v s) s

/-! ## Rings -/

/-- The three rings: 0 submission, 1 result, 2 event (the enable bits of ITM_CTL). -/
def ringEn (s : State) (r : Nat) : Bool := rdB s Reg.itmCtl.base r

/-- A ring's base address. -/
def ringBase (s : State) (r : Nat) : Nat := rdF s (Reg.itmSubBase.base + 16 * r) 0 28 * 4096

/-- A ring's size in entries (R56). -/
def ringSize (s : State) (r : Nat) : Nat := 2 ^ rdF s (Reg.itmSubSize.base + 16 * r) 0 5

/-- The offset of a ring's device-owned index. -/
def ringIdx (r : Nat) : Nat :=
  if r = 0 then Reg.itmSubCidx.base else if r = 1 then Reg.itmResPidx.base else Reg.itmEvtPidx.base

/-- The offset of a ring's host-owned consumer index. -/
def ringCidx (r : Nat) : Nat := if r = 1 then Reg.itmResCidx.base else Reg.itmEvtCidx.base

/-- The device address of the write-back block. -/
def wbAddr (s : State) : Nat := 0x8000000000 + rdF s Reg.itmWbBase.base 0 30 * 64

/-- The phase bit of the entry at an index (R58). -/
def phaseOf (i size : Nat) : Bool := (i / size) % 2 == 0

/-- Free space of a result or event ring by its indices alone (R57). -/
def ringRoom (s : State) (r : Nat) : Nat :=
  ringSize s r - (rd s (ringIdx r) + 2 ^ 32 - rd s (ringCidx r)) % 2 ^ 32

/-- A ring's writes would be refused with HOST_ABORT before they are sent, or the result ring's last one met it on the way (R65). -/
def ringRefused (s : State) (r : Nat) : Bool :=
  !hostCanWrite s (ringBase s r) (ringSize s r * 64) || (r == 1 && s.led.ringFailed)

/-- Free space of a ring as R65 and R68 count it: none while the ring is not enabled or its writes would be refused. -/
def ringFree (s : State) (r : Nat) : Nat :=
  if ringEn s r && !ringRefused s r then ringRoom s r else 0

/-- Writes word `i` of the write-back block (R62, R64). A refused write is a HOST_ABORT; while bus mastering is off nothing is
sent. -/
def writeBack (i v : Nat) (s : State) : State :=
  if !s.host.bme then s
  else if hostCanWrite s (wbAddr s) 64 then hostPut (wbAddr s + 4 * i) (leBytes 4 v) s
  else hostAbort s

/-- Writes one 64-byte entry at index `i` of ring `r`, with the phase bit of that index in bit 7 of its first byte where `head`
says so. -/
def ringPut (r i : Nat) (head : Bool) (e : List Byte) (s : State) : State :=
  let size := ringSize s r
  let e' := match e with
    | [] => []
    | b :: bs => (if head then (b &&& 0x7F) ||| (if phaseOf i size then 0x80 else 0) else b) :: bs
  hostPut (ringBase s r + (i % size) * 64) e' s

/-- The 64-byte entries of a byte list. -/
def entriesOf : Nat → List Byte → List (List Byte)
  | 0, _ => []
  | n + 1, bs => bs.take 64 :: entriesOf n (bs.drop 64)

/-- The first `k` writes of a record of whole entries, in the order of R63: from the second entry on, the first entry last. -/
def ringPart (r : Nat) (bs : List Byte) (k : Nat) (s : State) : State :=
  let p := rd s (ringIdx r)
  let n := bs.length / 64
  let es := entriesOf n bs
  (((List.range n).drop 1).take k).foldl (fun s j => ringPut r ((p + j) % 2 ^ 32) false (es.getD j []) s) s

/-- Writes a record or event of whole entries at the ring's producer index: the entries from the second to the last in order, then
the first (R63), the producer index, the write-back block and the vector (R64). -/
def ringWrite (r : Nat) (bs : List Byte) (s : State) : State :=
  let p := rd s (ringIdx r)
  let n := bs.length / 64
  let es := entriesOf n bs
  let s := ringPart r bs n s
  let s := ringPut r p true (es.headD []) s
  let q := (p + n) % 2 ^ 32
  let vec := if r = 1 then rdF s Reg.itmCtl.base 8 6 else rdF s Reg.itmCtl.base 16 6
  s |> wr (ringIdx r) q |> writeBack r q |> raiseVec vec

/-! ## Events -/

/-- The 64 bytes of an event, its phase bit zero (event ring table of 02). -/
def eventBytes (cls code ref : Nat) (t : DevTime) (pos num status : Nat) (data : List Byte) : List Byte :=
  leBytes 1 0x10 ++ leBytes 1 cls ++ leBytes 2 code ++ leBytes 4 ref ++ timeBytes t ++ leBytes 8 pos ++ leBytes 4 num
    ++ leBytes 1 status ++ padTo 27 data

/-- An event that is lost: it takes a number, is counted and sets ITM_STATUS flag 3 (R68). -/
def dropEvent (s : State) : State :=
  s |> modLed (fun l => { l with evtNum := l.evtNum + 1, evtDropped := l.evtDropped + 1 })
    |> setFlag Reg.itmStatus.base 3 |> bump Reg.itmSnapCnt.base 11

/-- Writes one event and gives it the next number. -/
def writeEvent (cls code ref pos status : Nat) (data : List Byte) (s : State) : State :=
  s |> ringWrite 2 (eventBytes cls code ref s.tim.now pos s.led.evtNum.toNat status data)
    |> modLed (fun l => { l with evtNum := l.evtNum + 1 })

/-- The event-loss entry, where events were dropped since the last one and the ring has space (R68, R590). -/
def flushDropped (s : State) : State :=
  if s.led.evtDropped ≠ 0 ∧ ringFree s 2 ≠ 0 then
    s |> writeEvent 5 1 0 0 0 (leBytes 4 (min s.led.evtDropped (2 ^ 32 - 1))) |> modLed (fun l => { l with evtDropped := 0 })
  else s

/-- The held reset-loss event, after the event-loss entry and after every held release older than it (R68, R69, R590): ITM_STATUS flag 6
is set with it. -/
def flushLoss (s : State) : State :=
  match s.led.heldLoss with
  | some h =>
    if s.led.evtDropped = 0 ∧ s.led.lossAfter = 0 ∧ ringFree s 2 ≠ 0 then
      s |> writeEvent 6 1 h.first.toNat 0 0 (leBytes 4 h.last.toNat ++ leBytes 4 h.count)
        |> setFlag Reg.itmStatus.base 6 |> modLed (fun l => { l with heldLoss := none })
    else s
  | none => s

/-- The oldest held reset-release event, after the event-loss entry and a held reset-loss event older than it (R68): class 0x11, code
0x0001, the 64-bit history entry as data (17). -/
def flushRelease (s : State) : State :=
  match s.led.heldReleases with
  | e :: rest =>
    if s.led.evtDropped = 0 ∧ (s.led.heldLoss.isNone ∨ s.led.lossAfter ≠ 0) ∧ ringFree s 2 ≠ 0 then
      s |> writeEvent 0x11 1 0 0 0 (leBytes 8 e.toNat)
        |> modLed (fun l => { l with heldReleases := rest, lossAfter := l.lossAfter - 1 })
    else s
  | [] => s

/-- Writes what waits for space in the event ring, in the order of R68: the event-loss entry, then the held events, oldest first; at most
sixteen releases are held (17). -/
def flushEvents (s : State) : State :=
  (List.range 17).foldl (fun s _ => flushLoss (flushRelease s)) (flushLoss (flushDropped s))

/-- Posts an event (R68): written behind what waits, or dropped and counted. -/
def postEvent (cls code ref : Nat) (pos : Nat) (status : Nat) (data : List Byte) (s : State) : State :=
  let s := flushEvents s
  if s.led.evtDropped = 0 ∧ s.led.heldLoss.isNone ∧ s.led.heldReleases.isEmpty ∧ ringFree s 2 ≠ 0 then
    writeEvent cls code ref pos status data s
  else dropEvent s

/-- A submission's completion event (R61, R590); a status other than OK counts as a refused entry (R70), but for one that a reset ended. -/
def completeSub (op : Nat) (tag : Word) (status : Nat) (data : List Byte) (s : State) : State :=
  let s := if status = Stat.ok ∨ status = Stat.aborted then s else bump Reg.itmSnapCnt.base 12 s
  postEvent 1 op tag.toNat 0 status data s

/-! ## The frame of every command -/

/-- The oldest uncommitted ID: of the items in the ledger, COMMITTING ones included, the one opened first; ITM_NEXT_ID with none. -/
def oldestId (s : State) : Nat :=
  let ids := (s.led.committing.map fun c => c.item.id) ++ s.led.items.map fun i => i.id
  match ids with
  | [] => rd s Reg.itmNextId.base
  | x :: xs => (xs.foldl (fun m y => if (y - m).toInt < 0 then y else m) x).toNat

/-- ITM_OLDEST_ID follows the ledger, but keeps its value from a core reset until the reset-loss event is posted (R69, R590). -/
def settleOldest (s : State) : State :=
  match s.led.heldLoss with
  | some _ => s
  | none => wr Reg.itmOldestId.base (oldestId s) s

/-- Entries of the Kerb in use (KRB_USED.now): it has 256 (R423). -/
def kerbUsed (s : State) : Nat := ((s.ouv.entries.take 256).filter fun e => e.kind != 0).length

/-- KRB_USED.peak is the most entries in use since it was reset. -/
def settlePeak (s : State) : State :=
  if rdF s Reg.krbUsed.base 16 9 < kerbUsed s then wrF Reg.krbUsed.base 16 9 (kerbUsed s) s else s

/-- Brings the two registers that follow other state into step after a command. -/
def settle (s : State) : State := settlePeak (settleOldest s)

/-- The status of the first condition that holds. -/
def firstStatus : List (Bool × Nat) → Option Nat
  | [] => none
  | (c, st) :: r => if c then some st else firstStatus r

end Sys2Proof.Machine
end

