-- ==== Sys2Proof/Machine/Square.lean ====
section
/-! DEFINITION. The Square's operations (03_square.md): granules and partitions, the KV pools, accesses with SEC-DED and poison, and
bank retirement. -/

namespace Sys2Proof.Machine

open Sys2Proof

/-! ## Granules -/

/-- Granules in the Square. -/
def nGran : Nat := 8192

/-- The free gaps between runs sorted by base, as (base, length), lowest first. -/
def gaps : Nat → List GranRun → List (Nat × Nat)
  | p, [] => [(p, nGran - p)]
  | p, r :: rs => (p, r.base - p) :: gaps (max p (r.base + r.n)) rs

/-- The longest run of free granules (SQ_FREE.run). -/
def longestRun (s : State) : Nat := ((gaps 0 s.sq.runs).map (·.2)).foldl max 0

/-- The count of free granules (SQ_FREE.count). -/
def freeGranules (s : State) : Nat := nGran - (s.sq.runs.map (·.n)).sum

/-- The run that holds a granule. -/
def runAt (s : State) (g : Nat) : Option GranRun := s.sq.runs.find? fun r => decide (r.base ≤ g) && decide (g < r.base + r.n)

/-- Granules that a partition holds, its KV pool included (SQ_USE.use). -/
def partUse (s : State) (p : Nat) : Nat := ((s.sq.runs.filter fun r => r.part == p).map (·.n)).sum

/-- A partition's ceiling. -/
def quotaOf (s : State) (p : Nat) : Nat := rdF s (Reg.sqQuota.off p 0) 0 14

/-- A partition is enabled. -/
def partEn (s : State) (p : Nat) : Bool := rdB s (Reg.sqQuota.off p 0) 31

/-- A partition is over quota (R90, R91). -/
def partOver (s : State) (p : Nat) : Bool := decide (quotaOf s p < partUse s p)

/-- Puts a run into the list, sorted by base. -/
def insertRun (r : GranRun) : List GranRun → List GranRun
  | [] => [r]
  | x :: xs => if r.base < x.base then r :: x :: xs else x :: insertRun r xs

/-- Fills granules with zeros and ends their poison (R87). -/
def zeroGranules (base n : Nat) (s : State) : State :=
  let a := base * 65536
  let len := n * 65536
  { s with mem := memZero s.mem a len
           sq := { s.sq with poison := s.sq.poison.filter fun w => decide (w < a / 8) || decide ((a + len) / 8 ≤ w) } }

/-- What an allocation answers: its status and, when OK, its base granule. -/
structure AllocResult where
  status : Nat
  base : Nat
  deriving DecidableEq, Repr

/-- Allocates `n` granules in partition `p` for a holder (R85-R87, R89, R91): the lowest-addressed run that fits, filled with
zeros. -/
def alloc (p n handle kind : Nat) (s : State) : AllocResult × State :=
  if n = 0 then ({ status := Stat.ok, base := 0 }, bump Reg.sqSnapCnt.base 2 s)
  else if !partEn s p || decide (quotaOf s p < partUse s p + n) then
    ({ status := Stat.overQuota, base := 0 }, bump Reg.sqSnapCnt.base 3 s)
  else match (gaps 0 s.sq.runs).find? fun g => decide (n ≤ g.2) with
    | none => ({ status := Stat.noSpace, base := 0 }, bump Reg.sqSnapCnt.base 3 s)
    | some g =>
      let r : GranRun := { base := g.1, n := n, part := p, handle := handle, kind := kind }
      ({ status := Stat.ok, base := g.1 },
       s |> modSq (fun q => { q with runs := insertRun r q.runs }) |> zeroGranules g.1 n |> bump Reg.sqSnapCnt.base 2)

/-- A run less the granules from `b` to `b + n - 1`. -/
def cutRun (b n : Nat) (r : GranRun) : List GranRun :=
  (if r.base < b then [{ r with n := min r.n (b - r.base) }] else []) ++
  (if b + n < r.base + r.n then
    let b' := max r.base (b + n)
    [{ r with base := b', n := r.base + r.n - b' }] else [])

/-- Frees the granules from `b` to `b + n - 1` (R94). -/
def freeGran (b n : Nat) (s : State) : State := modSq (fun q => { q with runs := q.runs.flatMap (cutRun b n) }) s

/-- Frees every run of a holder but KV pools. -/
def freeHolder (h : Nat) (s : State) : State :=
  modSq (fun q => { q with runs := q.runs.filter fun r => !(r.handle == h && r.kind != 4) }) s

/-- Every granule that `n` bytes at Square address `a` touch belongs to some partition. -/
def allocated (s : State) (a n : Nat) : Bool :=
  n = 0 || ((List.range ((a + n - 1) / 65536 + 1 - a / 65536)).all fun i => (runAt s (a / 65536 + i)).isSome)

/-- A refused access to an unmapped or unallocated address: SQ_STATUS flag 7 and its counter (R71, R94). -/
def noteUnmapped (s : State) : State := s |> setFlag Reg.sqStatus.base 7 |> bump Reg.sqSnapCnt.base 5

/-! ## KV pools -/

/-- A partition's KV block size in 256-byte units. -/
def kvBlk (s : State) (p : Nat) : Nat := rdF s (Reg.sqKvCfg.off p 0) 0 9

/-- A partition's KV pool target in granules. -/
def kvTarget (s : State) (p : Nat) : Nat := rdF s (Reg.sqKvCfg.off p 0) 16 14

/-- KV blocks in one granule (R96). -/
def blocksPerGran (blk : Nat) : Nat := if blk = 0 then 0 else 65536 / (blk * 256)

/-- The pool target in blocks. -/
def kvTargetBlocks (s : State) (p : Nat) : Nat := kvTarget s p * blocksPerGran (kvBlk s p)

/-- The granules of a partition's pool, ascending. -/
def poolGran (s : State) (p : Nat) : List Nat :=
  ((s.sq.runs.filter fun r => r.part == p && r.kind == 4).map fun r => (List.range r.n).map (· + r.base)).flatten

/-- The blocks of one granule, as block addresses divided by 256. -/
def granBlocks (blk g : Nat) : List Nat := (List.range (blocksPerGran blk)).map fun i => g * 256 + i * blk

/-- The blocks that sequences of a partition hold. -/
def heldBlocks (s : State) (p : Nat) : List Nat :=
  ((s.seqs.filter fun q => ((s.clients.getD q.client { handle := 0, part := 16, stepBy := [], armed := false }).part == p)).map (·.blocks)).flatten

/-- The blocks in use in a partition's pool with the size each was cut to, as (address divided by 256, 256-byte units). -/
def heldSpans (s : State) (p : Nat) : List (Nat × Nat) :=
  ((s.seqs.filter fun q => ((s.clients.getD q.client { handle := 0, part := 16, stepBy := [], armed := false }).part == p)).map fun q =>
    q.blocks.map fun b => (b, q.blk)).flatten

/-- The free blocks of a partition's pool, ascending: those that touch no block in use, whatever size that one was cut to (log entry 21). -/
def freeBlocks (s : State) (p : Nat) : List Nat :=
  let held := heldSpans s p
  let blk := kvBlk s p
  (((poolGran s p).map (granBlocks blk)).flatten).filter fun b => !held.any fun h => decide (b < h.1 + h.2) && decide (h.1 < b + blk)

/-- Granules of the pool in which no block is in use, highest first (R97; DESIGN CHOICE, log entry 21): a block never straddles
granules (R96). -/
def emptyPoolGran (s : State) (p : Nat) : List Nat :=
  let held := heldBlocks s p
  ((poolGran s p).filter fun g => !held.any fun b => b / 256 == g).reverse

/-- One run of growth of a pool (R97): whether growth goes on, and the state after the run; a run that fails is a refused allocation
(R110). -/
def growRun (p : Nat) (s : State) : Bool × State :=
  let have_ := (poolGran s p).length
  let m := min (kvTarget s p - have_) (min (longestRun s) (quotaOf s p - partUse s p))
  if m = 0 then (false, s)
  else
    let (r, s) := alloc p m 0 4 s
    (r.status == Stat.ok, s)

/-- Grows a pool run by run toward its target; SQ_STATUS flag 6 when it stops short (R97). -/
def growPool : Nat → Nat → State → State
  | 0, _, s => s
  | f + 1, p, s =>
    let (more, s) := growRun p s
    if more then growPool f p s
    else if (poolGran s p).length < kvTarget s p then setFlag Reg.sqStatus.base 6 s else s

/-- Releases the granules of a shrinking pool whose blocks are all free, until the target is met (R97). -/
def shrinkPool (p : Nat) (s : State) : State :=
  let excess := (poolGran s p).length - kvTarget s p
  ((emptyPoolGran s p).take excess).foldl (fun s g => freeGran g 1 s) s

/-- A pool follows a write of its target: it grows or shrinks (R97). A block size of 0 means no pool. A pool that holds granules keeps
them under another block size and is cut anew (DESIGN CHOICE, log entry 21). -/
def adjustPool (p : Nat) (s : State) : State :=
  if kvBlk s p ≠ 0 ∧ (poolGran s p).length < kvTarget s p then growPool nGran p s else shrinkPool p s

/-- A write of a partition's quota register (R90, R93): ignored with flag 9 when it would disable a partition in use; a quota below
the use sets flag 5. -/
def writeQuota (p v : Nat) (s : State) : State :=
  let v := v % 2 ^ 14 + (if v.testBit 31 then 2 ^ 31 else 0)
  if partEn s p && !v.testBit 31 && partUse s p != 0 then setFlag Reg.sqStatus.base 9 s
  else
    let s := wr (Reg.sqQuota.off p 0) v s
    if partOver s p then setFlag Reg.sqStatus.base 5 s else s

/-- A write of a partition's KV register (R96, R97); a block size above 256 is stored as written, and no block of that size fits a granule
(DESIGN CHOICE, log entry 21). -/
def writeKvCfg (p v : Nat) (s : State) : State :=
  s |> wr (Reg.sqKvCfg.off p 0) (bits v 0 9 + bits v 16 14 * 65536) |> adjustPool p

/-! ## Errors and retirement -/

/-- The logical bank of a Square address (R72). -/
def bankOf (a : Nat) : Nat := (a / 256) % 128

/-- The event of a bank that retires (`k` 1, R393) or that finds no spare (`k` 0, R84); the manual gives neither its class nor its code
(log entry 22). -/
def bankEvent (k l : Nat) (s : State) : State :=
  postEvent (Config.bankEvent k 0 % 256) (Config.bankEvent k 1 % 65536) (Config.bankEvent k (2 + l) % 2 ^ 32) 0 0 [] s

/-- A bank meets a retirement condition (R81, R84, R393): its copy to the next spare starts (flag 2), or no spare is free (flag 4), each
with an event. With no spare free, each further error past the threshold is the condition again (DESIGN CHOICE, log entry 22). -/
def retireBank (l : Nat) (s : State) : State :=
  if !rdB s Reg.sqCtl.base 1 || s.sq.retiring.any (fun r => r.bank == l) then s
  else if s.sq.sparesUsed < 4 then
    s |> modSq (fun q => { q with retiring := q.retiring ++ [{ bank := l, spare := 128 + q.sparesUsed }]
                                  sparesUsed := q.sparesUsed + 1 })
      |> setFlag Reg.sqStatus.base 2 |> bankEvent 1 l
  else s |> setFlag Reg.sqStatus.base 4 |> bankEvent 0 l

/-- A corrected error in a word of device memory (R76, R109). -/
def noteCorrected (w : Nat) (s : State) : State :=
  let a := 8 * w
  if a < 0x20000000 then
    let l := bankOf a
    let s := s |> setFlag Reg.sqStatus.base 0 |> bump Reg.sqSnapCnt.base 0
               |> modSq (fun q => { q with ceInPass := modAt l (· + 1) q.ceInPass })
    let t := rdF s Reg.sqRetireCfg.base 0 8
    if t ≠ 0 ∧ t ≤ s.sq.ceInPass.getD l 0 then retireBank l s else s
  else
    let n := rdF s Reg.memEcc.base 0 16
    s |> setFlag Reg.memStatus.base 0 |> wrF Reg.memEcc.base 0 16 (min (n + 1) 65535)

/-- An uncorrectable error found in a word (R77, R109): a word already poisoned records nothing. `scrub`: found by the scrubber. -/
def noteUncorrectable (w : Nat) (scrub : Bool) (s : State) : State :=
  if s.sq.poison.contains w then s
  else
    let a := 8 * w
    let s := modSq (fun q => { q with poison := poisonAdd q.poison w }) s
    if a < 0x20000000 then
      s |> wr Reg.sqErrAddr.base (a + (if scrub then 2 ^ 29 else 0) + 2 ^ 31)
        |> setFlag Reg.sqStatus.base 1 |> bump Reg.sqSnapCnt.base 1 |> retireBank (bankOf a)
    else
      let n := rdF s Reg.memEcc.base 16 16
      s |> wr Reg.memErrAddr.base (a / 256) |> setFlag Reg.memStatus.base 1 |> wrF Reg.memEcc.base 16 16 (min (n + 1) 65535)

/-- What SEC-DED finds while the words that `touched` accepts are read (R76, R77). -/
def applyEcc (touched : Nat → Bool) (scrub : Bool) (ecc : List EccHit) (s : State) : State :=
  ecc.foldl (fun s h => if touched h.word then (if h.double then noteUncorrectable h.word scrub s
                                                 else if s.sq.poison.contains h.word then s else noteCorrected h.word s) else s) s

/-- A word that `n` bytes at `a` touch. -/
def touches (a n w : Nat) : Bool := decide (a < 8 * w + 8) && decide (8 * w < a + n)

/-- A word that `n` bytes at `a` touch without covering it whole. -/
def partWord (a n w : Nat) : Bool := touches a n w && !(decide (a ≤ 8 * w) && decide (8 * w + 8 ≤ a + n))

/-- What SEC-DED finds in the words of the Square and LPDDR-6 that a row's own reads touch (R76, R77, R109): found as the row begins
(log entry 90). -/
def seeEcc (ecc : List EccHit) (s : State) : State :=
  applyEcc (fun w => decide (w < 0x4000000) || (decide (0x200000000 ≤ w) && decide (w < 0x400000000))) false ecc s

/-! ## Accesses -/

/-- What an access answers. -/
structure AccessResult where
  status : Nat
  data : List Byte
  deriving DecidableEq, Repr

/-- Reads `n` bytes of the Square or LPDDR-6 that are mapped: SEC-DED acts, and a poisoned word answers POISON. -/
def readMem (a n : Nat) (ecc : List EccHit) (s : State) : AccessResult × State :=
  let s := applyEcc (touches a n) false ecc s
  if poisonHit s.sq.poison a n then ({ status := Stat.poison, data := [] }, s)
  else ({ status := Stat.ok, data := devGet s a n }, s)

/-- Writes bytes that lie in one line: a write that covers part of a word reads that word first, and is refused with POISON when the
word is poisoned; the line is then unchanged (R74, R78). -/
def writeLine (a : Nat) (bs : List Byte) (ecc : List EccHit) (s : State) : Nat × State :=
  let s := applyEcc (partWord a bs.length) false ecc s
  if poisonPart s.sq.poison a bs.length then (Stat.poison, s) else (Stat.ok, devPut a bs s)

/-- Writes bytes line by line (R74); a refused line ends the write, and the lines before it stay written (R233). -/
def writeMem : Nat → Nat → List Byte → List EccHit → State → Nat × State
  | 0, _, _, _, s => (Stat.ok, s)
  | f + 1, a, bs, ecc, s =>
    match bs with
    | [] => (Stat.ok, s)
    | _ =>
      let n := min bs.length (256 - a % 256)
      let (st, s) := writeLine a (bs.take n) ecc s
      if st = Stat.ok then writeMem f (a + n) (bs.drop n) ecc s else (st, s)

/-- Writes a whole byte list. -/
def writeAll (a : Nat) (bs : List Byte) (ecc : List EccHit) (s : State) : Nat × State := writeMem (bs.length / 256 + 2) a bs ecc s

/-- An access by a unit of the module to an address below LPDDR-6: outside the Square and in a granule of no partition it is
UNMAPPED (R71, R94). -/
def squareAccess (acc : Access) (ecc : List EccHit) (s : State) : AccessResult × State :=
  match acc with
  | .read a n =>
    if n = 0 then ({ status := Stat.ok, data := [] }, s)
    else if 0x20000000 < a + n || !allocated s a n then ({ status := Stat.unmapped, data := [] }, noteUnmapped s)
    else readMem a n ecc s
  | .write a bs =>
    if bs.length = 0 then ({ status := Stat.ok, data := [] }, s)
    else if 0x20000000 < a + bs.length || !allocated s a bs.length then ({ status := Stat.unmapped, data := [] }, noteUnmapped s)
    else
      let (st, s) := writeAll a bs ecc s
      ({ status := st, data := [] }, s)

/-- The granules that a host access touches, as (address, length) pieces within one granule. -/
def granPieces : Nat → Nat → Nat → List (Nat × Nat)
  | 0, _, _ => []
  | f + 1, a, n =>
    if n = 0 then [] else
      let k := min n (65536 - a % 65536)
      (a, k) :: granPieces f (a + k) (n - k)

/-- A host access to the Square (R108): the bytes of an unallocated granule read all ones, writes to one are dropped, and either sets
SQ_STATUS flag 8. -/
def hostSquare (acc : Access) (ecc : List EccHit) (s : State) : AccessResult × State :=
  match acc with
  | .read a n =>
    let ps := granPieces (n / 65536 + 2) a n
    let s := if allocated s a n then s else setFlag Reg.sqStatus.base 8 s
    ps.foldl (fun (r : AccessResult × State) p =>
      if (runAt r.2 (p.1 / 65536)).isSome then
        let (x, s) := readMem p.1 p.2 ecc r.2
        ({ status := if r.1.status = Stat.ok then x.status else r.1.status, data := r.1.data ++ padTo p.2 x.data }, s)
      else ({ r.1 with data := r.1.data ++ List.replicate p.2 0xFF }, r.2)) ({ status := Stat.ok, data := [] }, s)
  | .write a bs =>
    let s := if allocated s a bs.length then s else setFlag Reg.sqStatus.base 8 s
    (granPieces (bs.length / 65536 + 2) a bs.length).foldl (fun (r : AccessResult × State) p =>
      if (runAt r.2 (p.1 / 65536)).isSome then
        let (st, s) := writeAll p.1 ((bs.drop (p.1 - a)).take p.2) ecc r.2
        ({ status := if r.1.status = Stat.ok then st else r.1.status, data := [] }, s)
      else r) ({ status := Stat.ok, data := [] }, s)

end Sys2Proof.Machine
end

