-- ==== Sys2Proof/Machine/Device.lean ====
section
/-! DEFINITION. Accesses by units of the module to any device address: Square, LPDDR-6, host windows and peer Squares (R71, R109, R247,
R468, R469, R476, R492). -/

namespace Sys2Proof.Machine

open Sys2Proof

/-- A Boulevard port is trained (R287, R483), and its wrapper open (R517). -/
def blvUp (s : State) (p : Nat) : Bool := rdF s (Reg.blvLink.off p 0) 0 2 == 3 && unitUp s (.blv p)

/-- A peer's Square: 512 MiB, or 256 MiB of a PWK-0804 (R484, R492). -/
def peerBytes (s : State) (p : Nat) : Nat := if rdB s (Reg.blvLink.off p 0) 2 then 0x10000000 else 0x20000000

/-- First device address of a port's peer Square. -/
def peerBase (p : Nat) : Nat := if p = 0 then 0x4000000000 else 0x4800000000

/-- A run of bytes lies in a port's peer token window (R492). -/
def inWindow (p a n : Nat) : Bool := decide (peerBase p + 0x80000000 ≤ a) && decide (a + n ≤ peerBase p + 0x80800000)

/-- A run of bytes lies in the mapped Square of a trained port's peer, or in its token window (R492). -/
def peerMapped (s : State) (p a n : Nat) : Bool :=
  blvUp s p && (decide (a + n ≤ peerBase p + peerBytes s p) || inWindow p a n)

/-- LPDDR-6 answers: it is not in the self-refresh of D3hot (R109, R467; log entry 92). -/
def memAwake (s : State) : Bool := !s.host.d3

/-- The status of an access of `n` bytes at `a`: OK, or UNMAPPED where it is not wholly in one mapped region. -/
def mapped (s : State) (a n : Nat) : Nat :=
  match regionOf a with
  | .square => if a + n ≤ 0x20000000 && allocated s a n then Stat.ok else Stat.unmapped
  | .lpddr => if memAwake s && decide (a + n ≤ 0x2000000000) then Stat.ok else Stat.unmapped
  | .host => if winCovers s a n then Stat.ok else Stat.unmapped
  | .peer p => if peerMapped s p a n then Stat.ok else Stat.unmapped
  | .other => Stat.unmapped

/-- An access that no memory answers; in the Square's range the Square sees it (R71). -/
def refuseAt (a : Nat) (s : State) : State := if a < 0x1000000000 then noteUnmapped s else s

/-- Changes port `p`. -/
def modBlv (p : Nat) (f : Blv → Blv) (s : State) : State := { s with blv := modAt p f s.blv }

/-- BLV_LINK[p].compat. -/
def blvCompat (s : State) (p : Nat) : Bool := rdB s (Reg.blvLink.off p 0) 2

/-- BLV_LINK[p].idle. -/
def blvIdle (s : State) (p : Nat) : Bool := rdB s (Reg.blvLink.off p 0) 3

/-- A direction, or both, leave idle (R489, R490). -/
def blvWake (p : Nat) (send : Bool) (s : State) : State :=
  let s := if send || !blvCompat s p then wrF (Reg.blvLink.off p 0) 3 1 0 s else s
  if !send || !blvCompat s p then modBlv p (fun b => { b with rxIdle := false }) s else s

/-- A port in idle that has something to send starts a training burst (R489): both directions leave idle, toward a PWK-0804 its own
alone (R490). -/
def burst (p : Nat) (s : State) : State := if blvIdle s p then s |> emit (.linkSignal p 1) |> blvWake p true else s

/-- Port `p`. -/
def blvOf (s : State) (p : Nat) : Blv := s.blv.getD p Blv.reset

/-- A flit of a channel may leave: the receiver has a credit for its channel, and the retry buffer room (R485, R486). -/
def mayLeave (b : Blv) (vc : Nat) : Bool := decide (b.retry.length < 256) && decide (0 < b.credits.getD vc 0)

/-- A port after its oldest held flit of a channel has left: the flit takes a credit and an entry of the retry buffer, and carries what the
port owes. -/
def Blv.leave (b : Blv) (vc : Nat) : Blv :=
  { b with held := dropFirst (· == vc) b.held, retry := b.retry ++ [vc], credits := modAt vc (· - 1) b.credits, owed := 0 }

/-- Held flits leave while they may, each channel in order and none waiting on another (R485); they are counted. -/
def sendHeld : Nat → Nat → State → State
  | 0, _, s => s
  | f + 1, p, s =>
    match (blvOf s p).held.find? (mayLeave (blvOf s p)) with
    | none => s
    | some vc => s |> modBlv p (fun b => b.leave vc) |> count (Reg.blvSnapCnt.off p 0) 1 |> sendHeld f p

/-- Every held flit that may leave does. -/
def releaseHeld (p : Nat) (s : State) : State := sendHeld (blvOf s p).held.length p s

/-- Flits of a channel that carry `n` bytes of payload (R485, R486): one for every 256 bytes, at least one. They wait for the end of idle
(R489), for a credit and for room in the retry buffer. -/
def sendFlits (p vc n : Nat) (s : State) : State :=
  s |> burst p |> modBlv p (fun b => { b with held := b.held ++ List.replicate (max 1 (ceilDiv n 256)) vc }) |> releaseHeld p

/-- The flits in the retry buffer are sent again (R486, R487). -/
def replayFlits (p : Nat) (s : State) : State :=
  if (blvOf s p).retry.isEmpty then s else s |> burst p |> emit (.linkSignal p 4) |> count (Reg.blvSnapCnt.off p 0) (blvOf s p).retry.length

/-- Reads `n` bytes of device memory; what a peer's token reads as is free, since neighbours are not modelled (log entry 87). -/
def devRead (a n : Nat) (ecc : List EccHit) (s : State) : AccessResult × State :=
  if n = 0 then ({ status := Stat.ok, data := [] }, s)
  else if mapped s a n ≠ Stat.ok then ({ status := Stat.unmapped, data := [] }, refuseAt a s)
  else match regionOf a with
    | .host =>
      if s.host.bme then ({ status := Stat.ok, data := hostGet s a n }, bump Reg.pciSnapCnt.base 0 s)
      else ({ status := Stat.hostAbort, data := [] }, hostAbort s)
    | .peer p =>
      if inWindow p a n then let (bs, s) := takeFree n s; ({ status := Stat.ok, data := bs }, sendFlits p 0 0 s)
      else ({ status := Stat.ok, data := memRead s.peerMem a n }, sendFlits p 0 0 s)
    | _ => readMem a n ecc s

/-- Writes bytes to device memory. -/
def devWrite (a : Nat) (bs : List Byte) (ecc : List EccHit) (s : State) : Nat × State :=
  if bs.isEmpty then (Stat.ok, s)
  else if mapped s a bs.length ≠ Stat.ok then (Stat.unmapped, refuseAt a s)
  else match regionOf a with
    | .host => if hostCanWrite s a bs.length then (Stat.ok, hostPut a bs s) else (Stat.hostAbort, hostAbort s)
    | .peer p =>
      if inWindow p a bs.length then (Stat.ok, s |> sendFlits p 2 bs.length |> emit (.peerSignal a bs))
      else (Stat.ok, { s with peerMem := memWrite s.peerMem a bs } |> sendFlits p 0 bs.length |> emit (.peerWrite a bs))
    | _ => writeAll a bs ecc s

/-- The far end of the host link refuses or fails a row's accesses (R469). -/
def farAbort (m : MemRun) (a n : Nat) (s : State) : Bool :=
  m.abort.isSome && n != 0 && regionOf a == .host && mapped s a n == Stat.ok && s.host.bme

/-- A row's read of device memory, whose accesses to host memory may fail at the far end (R469). -/
def runRead (m : MemRun) (a n : Nat) (s : State) : AccessResult × State :=
  if farAbort m a n s then ({ status := Stat.hostAbort, data := [] }, s |> bump Reg.pciSnapCnt.base 0 |> hostAbort) else devRead a n [] s

/-- A row's write of device memory. -/
def runWrite (m : MemRun) (a : Nat) (bs : List Byte) (s : State) : Nat × State :=
  if farAbort m a bs.length s && hostCanWrite s a bs.length then (Stat.hostAbort, hostAbort s) else devWrite a bs [] s

/-- Where a submission's payload lies (R61, R211): UNMAPPED where its first byte is in no region it may lie in, LENGTH where it runs past
the region's end. -/
def payloadAt (s : State) (square : Bool) (a n : Nat) : Nat :=
  match regionOf a with
  | .host => if !winCovers s a 1 then Stat.unmapped else if winCovers s a n then Stat.ok else Stat.length
  | .lpddr => if !memAwake s then Stat.unmapped else if a + n ≤ 0x2000000000 then Stat.ok else Stat.length
  | .square =>
    if !square then Stat.unmapped
    else if 0x20000000 < a + n then Stat.length
    else if allocated s a n then Stat.ok else Stat.unmapped
  | _ => Stat.unmapped

/-- Reads a submission's payload. -/
def payload (m : MemRun) (square : Bool) (a n : Nat) (s : State) : AccessResult × State :=
  if payloadAt s square a n ≠ Stat.ok then ({ status := payloadAt s square a n, data := [] }, s)
  else runRead m a n (seeEcc m.ecc s)

end Sys2Proof.Machine
end

