-- ==== Sys2Proof/Machine/Tile.lean ====
section
/-! DEFINITION. Tile descriptors, extents and the live set of a task (R125-R129), its scalar registers and its state at the
prologue (R188). -/

namespace Sys2Proof.Machine

open Sys2Proof

/-- Bytes in a tile buffer. -/
def tbBytes : Nat := 0x400000

/-- A tile descriptor, unpacked (R125). -/
structure Tile where
  base : Nat      -- in bytes
  rowBytes : Nat
  rows : Nat
  stride : Nat    -- in bytes
  fmt : Nat
  wide : Bool
  live : Bool
  deriving DecidableEq, Repr

/-- The fields of a descriptor word. -/
def tileOf (w : DWord) : Tile :=
  let n := w.toNat
  { base := bits n 0 16 * 64, rowBytes := bits n 16 17, rows := bits n 33 12, stride := bits n 45 12 * 64
    fmt := bits n 57 5, wide := bitOf n 62, live := bitOf n 63 }

/-- A descriptor names no bytes (R126). -/
def Tile.empty (t : Tile) : Bool := t.rows == 0 || t.rowBytes == 0

/-- The extent's first byte past its end (R125). -/
def Tile.stop (t : Tile) : Nat := t.base + (t.rows - 1) * t.stride + t.rowBytes

/-- The offset of row `r`. -/
def Tile.row (t : Tile) (r : Nat) : Nat := t.base + r * t.stride

/-- An extent (start, end) of a tile buffer; empty where the end is not above the start. -/
abbrev Extent := Nat × Nat

/-- The extent of a descriptor; (0, 0) for an empty one. -/
def Tile.extent (t : Tile) : Extent := if t.empty then (0, 0) else (t.base, t.stop)

/-- Two extents share a byte. -/
def extentsMeet (x y : Extent) : Bool := decide (x.1 < y.2) && decide (y.1 < x.2) && decide (x.1 < x.2) && decide (y.1 < y.2)

/-- Descriptor `n` of a task. -/
def tdOf (r : TaskRegs) (n : Nat) : Tile := tileOf (r.t.getD n 0)

/-- The pinned extents (R129): the sources of the planes' loads. -/
def pinned (r : TaskRegs) : List Extent := r.planes.filterMap fun p => p.desc.map fun d => (tileOf d).extent

/-- A run of bytes touches a pinned extent. -/
def touchesPin (r : TaskRegs) (e : Extent) : Bool := (pinned r).any fun p => extentsMeet p e

/-- The live set: the extents of descriptors marked live and the pinned extents (R127). -/
def liveSet (r : TaskRegs) : List Extent :=
  ((r.t.map tileOf).filter (·.live)).map (fun t => (t.extent.1, min t.extent.2 tbBytes)) ++ pinned r

/-- A tile-buffer offset lies in the live set. -/
def inLive (es : List Extent) (a : Nat) : Bool := es.any fun e => decide (e.1 ≤ a) && decide (a < e.2)

/-- What a save keeps and a restore gives back (R128): the live set and its poison; every other tile-buffer byte reads zero, and a plane
whose load had issued is loaded (R223). A poisoned word that lies in part in the live set keeps its poison (DESIGN CHOICE, log entry 100). -/
def keepLive (r : TaskRegs) : TaskRegs :=
  let es := liveSet r
  { r with loads := []
           tb := r.tb.filter fun c => inLive es c.1
           tbPoison := r.tbPoison.filter fun w => es.any fun e => decide (e.1 < 8 * w + 8) && decide (8 * w < e.2) }

/-- Scalar register `n`. -/
def sOf (r : TaskRegs) (n : Nat) : DWord := r.s.getD n 0
/-- Address register `n`. -/
def aOf (r : TaskRegs) (n : Nat) : BitVec 40 := r.a.getD n 0
/-- Predicate `n`. -/
def pOf (r : TaskRegs) (n : Nat) : Bool := r.p.getD n false
/-- Vector register `n`. -/
def vOf (r : TaskRegs) (n : Nat) : List Byte := r.v.getD n []

/-- Writes a scalar register. -/
def setS (n : Nat) (v : DWord) (r : TaskRegs) : TaskRegs := { r with s := modAt n (fun _ => v) r.s }
/-- Writes an address register. -/
def setA (n : Nat) (v : BitVec 40) (r : TaskRegs) : TaskRegs := { r with a := modAt n (fun _ => v) r.a }
/-- Writes a predicate. -/
def setP (n : Nat) (v : Bool) (r : TaskRegs) : TaskRegs := { r with p := modAt n (fun _ => v) r.p }
/-- Writes a descriptor. -/
def setT (n : Nat) (v : DWord) (r : TaskRegs) : TaskRegs := { r with t := modAt n (fun _ => v) r.t }
/-- Writes a vector register. -/
def setV (n : Nat) (v : List Byte) (r : TaskRegs) : TaskRegs := { r with v := modAt n (fun _ => v) r.v }
/-- Writes a scalar register from a number. -/
def setSN (n v : Nat) (r : TaskRegs) : TaskRegs := setS n (BitVec.ofNat 64 v) r

/-- A plane with zero weights in INT8 (R234). -/
def Plane.zero : Plane := { desc := none, fmt := 0, rows := [] }

/-- The state of an instance at its template's prologue (R188, R234). -/
def TaskRegs.prologue (p : Program) (tmpl inst : Nat) : TaskRegs :=
  { s := [BitVec.ofNat 64 inst, BitVec.ofNat 64 p.handle] ++ List.replicate 30 0
    a := [BitVec.ofNat 40 p.const0, BitVec.ofNat 40 p.static0] ++ List.replicate 14 0
    p := List.replicate 8 false, lc := List.replicate 8 0, t := List.replicate 32 0
    v := List.replicate 32 (List.replicate 256 0), acc := List.replicate 256 0, accN := 256, tb := [], tbPoison := []
    planes := [Plane.zero, Plane.zero], loads := [], loops := []
    next := (p.tmpls.getD tmpl { prologue := 0, roundStart := 0, roundEnd := 0, prio := 0, instances := 0, tbLive := 0, tbPeak := 0 }).prologue
    step := 0, seed0 := p.seed, seed1 := BitVec.ofNat 64 (tmpl * 65536 + inst), local_ := List.replicate 64 0
    mx := false, nonfinite := false }

/-- Bytes of a tile buffer. -/
def tbRead (r : TaskRegs) (a n : Nat) : List Byte := memRead r.tb a n

/-- Writes bytes to a tile buffer; words written whole are no longer poisoned (R124, R78). -/
def tbWrite (a : Nat) (bs : List Byte) (r : TaskRegs) : TaskRegs :=
  { r with tb := memWrite r.tb a bs, tbPoison := poisonClear r.tbPoison a bs.length }

/-- Some byte of a run lies in a poisoned word of the tile buffer. -/
def tbHit (r : TaskRegs) (a n : Nat) : Bool := poisonHit r.tbPoison a n

end Sys2Proof.Machine
end

