-- ==== Sys2Proof/Machine/Arith.lean ====
section
/-! DEFINITION. Number formats and exact arithmetic (05_arithmetic.md): decoding and rounding (R150-R153, R163), packed elements (R152),
terms and the term window (R154-R158), readout of one value (R160-R165) and the arithmetic of the vector unit's lanes (R130, R131,
R239, R240). -/

namespace Sys2Proof.Machine

open Sys2Proof

/-! ## Packed elements -/

/-- The first `k` elements of `w` bits of a row (R152). -/
def elements (w k : Nat) (bs : List Byte) : List Nat :=
  let n := ofLe bs
  (List.range k).map fun i => bits n (w * i) w

/-- Elements of `w` bits packed from bit 0 up, as a number. -/
def packNat (w : Nat) : List Nat → Nat
  | [] => 0
  | v :: vs => v % 2 ^ w + packNat w vs * 2 ^ w

/-- Elements packed into bytes. -/
def packBytes (w : Nat) (vs : List Nat) : List Byte := leBytes ((w * vs.length + 7) / 8) (packNat w vs)

/-! ## Numbers -/

/-- A number of a floating format: a finite `(-1)^neg × m × 2^e`, an infinity or NaN. -/
inductive Num where
  | fin (neg : Bool) (m : Nat) (e : Int)
  | inf (neg : Bool)
  | nan
  deriving DecidableEq, Repr

/-- A floating format: exponent and mantissa bits, bias, and its non-finite encodings: 0 none, 1 as IEEE 754, 2 NaN only where every
bit of exponent and mantissa is set (R150, R151). -/
structure FloatFmt where
  ew : Nat
  mw : Nat
  bias : Nat
  special : Nat
  deriving DecidableEq, Repr

/-- The floating format of a code (R119, R150, R151); the element's format for an MX code. -/
def floatFmt (code : Nat) : Option FloatFmt :=
  match code with
  | 0x02 => some ⟨4, 3, 7, 2⟩
  | 0x03 => some ⟨5, 2, 15, 1⟩
  | 0x05 => some ⟨4, 3, 7, 2⟩
  | 0x06 => some ⟨5, 2, 15, 1⟩
  | 0x07 => some ⟨2, 3, 1, 0⟩
  | 0x08 => some ⟨3, 2, 3, 0⟩
  | 0x0A => some ⟨2, 1, 1, 0⟩
  | 0x0B => some ⟨5, 10, 15, 1⟩
  | 0x0C => some ⟨8, 7, 127, 1⟩
  | 0x0D => some ⟨8, 23, 127, 1⟩
  | _ => none

/-- An integer format: width and signedness (R150); MXINT8 counts in 2^-6. -/
def intFmt (code : Nat) : Option (Nat × Bool) :=
  match code with
  | 0x00 => some (8, true)
  | 0x01 => some (8, false)
  | 0x04 => some (8, true)
  | 0x09 => some (4, true)
  | 0x0E => some (32, true)
  | 0x0F => some (16, true)
  | _ => none

/-- The bits of one element of a format; 0 for a reserved code. -/
def elemBits (code : Nat) : Nat :=
  match floatFmt code with
  | some f => f.ew + f.mw + 1
  | none => (intFmt code).elim 0 (·.1)

/-- The value that a floating encoding names. -/
def FloatFmt.decode (f : FloatFmt) (n : Nat) : Num :=
  let neg := n.testBit (f.ew + f.mw)
  let x := bits n f.mw f.ew
  let m := bits n 0 f.mw
  if x = 2 ^ f.ew - 1 ∧ f.special = 1 then (if m = 0 then .inf neg else .nan)
  else if x = 2 ^ f.ew - 1 ∧ m = 2 ^ f.mw - 1 ∧ f.special = 2 then .nan
  else if x = 0 then .fin neg m (1 - (f.bias : Int) - f.mw)
  else .fin neg (m + 2 ^ f.mw) ((x : Int) - f.bias - f.mw)

/-- How a value is rounded: half to even, or against the 24-bit value of R165. -/
inductive Rounding where
  | even
  | stochastic (u : Nat)
  deriving DecidableEq, Repr

/-- A magnitude `m × 2^e` rounded to a multiple of `2^qe`, as that multiple; `neg` gives the side on which the stochastic rule of
R165 measures. -/
def roundTo (mode : Rounding) (neg : Bool) (m : Nat) (e qe : Int) : Nat :=
  if qe ≤ e then m * 2 ^ (e - qe).toNat
  else
    let d := 2 ^ (qe - e).toNat
    let q := m / d
    let r := m % d
    match mode with
    | .even => if 2 * r > d ∨ (2 * r = d ∧ q % 2 = 1) then q + 1 else q
    | .stochastic u =>
      if r = 0 then q
      else if neg then (if u < (d - r) * 2 ^ 24 / d then q else q + 1)
      else (if u < r * 2 ^ 24 / d then q + 1 else q)

/-- The largest finite encoding without its sign. -/
def FloatFmt.top (f : FloatFmt) : Nat :=
  match f.special with
  | 0 => 2 ^ (f.ew + f.mw) - 1
  | 1 => (2 ^ f.ew - 1) * 2 ^ f.mw - 1
  | _ => 2 ^ (f.ew + f.mw) - 2

/-- An encoding with a sign. -/
def FloatFmt.signed (f : FloatFmt) (neg : Bool) (code : Nat) : Nat := code + (if neg then 2 ^ (f.ew + f.mw) else 0)

/-- What a value past the largest finite one becomes (R163). -/
def FloatFmt.over (f : FloatFmt) (sat neg : Bool) : Nat :=
  f.signed neg (if !sat && f.special == 1 then (2 ^ f.ew - 1) * 2 ^ f.mw else f.top)

/-- The canonical NaN (R153): the quiet one, positive; the only one in FP8-E4M3; zero bits where the format has none. -/
def FloatFmt.nanCode (f : FloatFmt) : Nat :=
  match f.special with
  | 1 => (2 ^ f.ew - 1) * 2 ^ f.mw + 2 ^ (f.mw - 1)
  | 2 => 2 ^ (f.ew + f.mw) - 1
  | _ => 0

/-- The encoding of a number in a format (R153, R163). -/
def FloatFmt.encode (f : FloatFmt) (mode : Rounding) (sat : Bool) (x : Num) : Nat :=
  match x with
  | .nan => f.nanCode
  | .inf neg => f.over sat neg
  | .fin neg m e =>
    if m = 0 then f.signed neg 0
    else
      let qmin : Int := 1 - (f.bias : Int) - f.mw
      let qe := max qmin ((Nat.log2 m : Int) + e - f.mw)
      let code := (qe - qmin).toNat * 2 ^ f.mw + roundTo mode neg m e qe
      if f.top < code then f.over sat neg else f.signed neg code

/-- A number rounded to an integer; none for NaN and the infinities. -/
def Num.toInt (mode : Rounding) (x : Num) : Option Int :=
  match x with
  | .fin neg m e =>
    let k := roundTo mode neg m e 0
    some (if neg then -(k : Int) else (k : Int))
  | _ => none

/-- The number of an integer. -/
def Num.ofInt (i : Int) (e : Int) : Num := .fin (decide (i < 0)) i.natAbs e

/-- Least and greatest integer of a format. -/
def intRange (w : Nat) (sg : Bool) : Int × Int :=
  if sg then (-(2 ^ (w - 1) : Nat), ((2 ^ (w - 1) : Nat) : Int) - 1) else (0, ((2 ^ w : Nat) : Int) - 1)

/-- An integer narrowed to a lane: saturated or wrapped (R239). -/
def narrow (w : Nat) (sg sat : Bool) (i : Int) : Nat :=
  if sat then wrapTo w (clampI (intRange w sg).1 (intRange w sg).2 i) else wrapTo w i

/-- The integer that a lane holds. -/
def laneInt (w : Nat) (sg : Bool) (n : Nat) : Int := if sg then signed w n else ((n % 2 ^ w : Nat) : Int)

/-! ## Array formats -/

/-- The rate class of a format code: 0 D, 1 H, 2 F; none for a vector-only or reserved code (R119). -/
def rateClass (code : Nat) : Option Nat :=
  if code ≤ 8 then some 0 else if code ≤ 0xA then some 1 else if code = 0xB then some 2 else none

/-- K and N of a class (R120, R121). -/
def classK (c : Nat) : Nat := if c = 0 then 256 else if c = 1 then 512 else 128
/-- Columns of a class. -/
def classN (c : Nat) : Nat := if c = 2 then 128 else 256

/-- A format with scale bytes. -/
def isMx (code : Nat) : Bool := (decide (4 ≤ code) && decide (code ≤ 8)) || code == 0xA

/-- Bytes of one row of K elements (R119, R120). -/
def rowBytesOf (code : Nat) : Nat :=
  let k := classK ((rateClass code).getD 0)
  k * elemBits code / 8 + (if isMx code then k / 32 else 0)

/-- One element as an integer multiple of 2^-24, which every array format's values are (R155); none for NaN and the infinities. -/
def elemInt (code n : Nat) : Option Int :=
  match floatFmt code with
  | some f =>
    match f.decode n with
    | .fin neg m e => some (let v : Int := (m * 2 ^ (e + 24).toNat : Nat); if neg then -v else v)
    | _ => none
  | none =>
    match intFmt code with
    | some (w, sg) => some (laneInt w sg n * (if code = 4 then 2 ^ 18 else 2 ^ 24))
    | none => some 0

/-- A row of an array operand: its elements and its scale bytes, 127 where the format has none (R120, R154). -/
structure ArrRow where
  vals : List (Option Int)
  scales : List Nat
  deriving DecidableEq, Repr

/-- The row that bytes in a format hold. -/
def arrRow (code : Nat) (bs : List Byte) : ArrRow :=
  let k := classK ((rateClass code).getD 0)
  { vals := (elements (elemBits code) k bs).map (elemInt code)
    scales := if isMx code then (bs.drop (k * elemBits code / 8)).take (k / 32) |>.map (·.toNat) else List.replicate (k / 32) 127 }

/-- What a column sum adds, with the two task flags it sets. Units of 2^-64. -/
structure Term where
  v : Int
  mx : Bool
  nonfinite : Bool
  deriving DecidableEq, Repr

/-- Two contributions together. -/
def Term.add (a b : Term) : Term := { v := a.v + b.v, mx := a.mx || b.mx, nonfinite := a.nonfinite || b.nonfinite }

/-- No contribution. -/
def Term.zero : Term := { v := 0, mx := false, nonfinite := false }

/-- The product of one activation element and one weight element (R155, R157). -/
def plainTerm (a w : Option Int) : Term :=
  match a, w with
  | some x, some y => { v := x * y * 2 ^ 16, mx := false, nonfinite := false }
  | _, _ => { v := 0, mx := false, nonfinite := true }

/-- An exact MX term brought into the term window (R156): `dot` in units of 2^-48, scaled by 2^k. -/
def windowTerm (dot : Int) (k : Int) : Term :=
  let v := dot * 2 ^ 16
  let t := if 0 ≤ k then v * 2 ^ k.toNat else v.tdiv (2 ^ (-k).toNat)
  let cut := decide (k < 0) && decide (t * 2 ^ (-k).toNat ≠ v)
  let top : Int := 2 ^ 119 - 1
  if top < t then { v := top, mx := true, nonfinite := false }
  else if t < -top then { v := -top, mx := true, nonfinite := false }
  else { v := t, mx := cut, nonfinite := false }

/-- The exact dot product of a block; none where an element is not finite. -/
def blockDot : List (Option Int) → List (Option Int) → Option Int
  | a :: as, w :: ws =>
    match a, w, blockDot as ws with
    | some x, some y, some r => some (x * y + r)
    | _, _, _ => none
  | _, _ => some 0

/-- The term of one block (R154, R156, R157). -/
def mxTerm (as ws : List (Option Int)) (ea ew : Nat) : Term :=
  if ea = 255 ∨ ew = 255 then { v := 0, mx := false, nonfinite := true }
  else match blockDot as ws with
    | none => { v := 0, mx := false, nonfinite := true }
    | some d => windowTerm d ((ea : Int) + ew - 254)

/-- What one activation row adds to one column (R154-R158). `mx`: an operand of the pass is an MX format. -/
def columnTerm (mx : Bool) (a w : ArrRow) : Term :=
  if mx then
    ((List.range a.scales.length).map fun j =>
      mxTerm ((a.vals.drop (32 * j)).take 32) ((w.vals.drop (32 * j)).take 32) (a.scales.getD j 127) (w.scales.getD j 127)).foldl
      Term.add Term.zero
  else (List.zipWith plainTerm a.vals w.vals).foldl Term.add Term.zero

/-! ## Readout -/

/-- The value of the generator of R165 for an element. -/
def noise (seed0 seed1 : DWord) (index : Nat) : Nat :=
  let x := seed0 ^^^ seed1.rotateLeft 29 ^^^ BitVec.ofNat 64 (index * 0x9E3779B97F4A7C15)
  let x := (x ^^^ (x >>> 30)) * 0xBF58476D1CE4E5B9
  let x := (x ^^^ (x >>> 27)) * 0x94D049BB133111EB
  let x := x ^^^ (x >>> 31)
  x.toNat % 2 ^ 24

/-- The readout control word (R160). -/
structure ReadCtl where
  stochastic : Bool
  relu : Bool
  sat : Bool
  percol : Bool
  biasEn : Bool
  r : Nat
  z : Int
  m : Int
  deriving DecidableEq, Repr

/-- The fields of a control word. -/
def readCtl (w : DWord) : ReadCtl :=
  let n := w.toNat
  { stochastic := bitOf n 0, relu := bitOf n 1, sat := bitOf n 2, percol := bitOf n 3, biasEn := bitOf n 4
    r := bits n 5 7, z := signed 8 (bits n 16 8), m := signed 32 (bits n 24 32) }

/-- A control word that faults with BAD_FORMAT (R160). -/
def readCtlBad (w : DWord) : Bool :=
  let n := w.toNat
  bits n 12 4 != 0 || bits n 56 8 != 0 || (bitOf n 4 && !bitOf n 3)

/-- One column's m, r and bias. -/
structure ColPar where
  m : Int
  r : Nat
  bias : Int
  deriving DecidableEq, Repr

/-- One accumulator value read out to a format (R162, R163): `x` in units of 2^-64. -/
def readValue (c : ReadCtl) (p : ColPar) (code : Nat) (mode : Rounding) (x : Int) : Nat :=
  let v := (x + (if c.biasEn then p.bias * 2 ^ 32 else 0)) * p.m
  let v := if c.relu && decide (v < 0) then 0 else v
  let num := Num.ofInt v (-64 - (p.r : Int))
  match floatFmt code with
  | some f => f.encode mode c.sat num
  | none =>
    match intFmt code with
    | some (w, sg) =>
      let i := (num.toInt mode).getD 0
      narrow w sg true (i + (if code = 0 ∨ code = 1 ∨ code = 9 then c.z else 0))
    | none => 0

/-- The formats that a readout may produce (R164). -/
def readable (code : Nat) : Bool := [0, 1, 2, 3, 9, 0xB, 0xC, 0xD, 0xE].contains code

/-! ## Vector lanes -/

/-- The format code of a vector type (07). -/
def vecCode (ty : Nat) : Nat :=
  match ty with
  | 0 => 0x0D
  | 1 => 0x0B
  | 2 => 0x0C
  | 3 => 0x0E
  | 4 => 0x0F
  | 5 => 0x00
  | _ => 0x01

/-- A vector type is a floating one. -/
def vecFloat (ty : Nat) : Bool := decide (ty < 3)

/-- Bits of a lane. -/
def laneBits (ty : Nat) : Nat := elemBits (vecCode ty)

/-- Elements in one register. -/
def laneCount (ty : Nat) : Nat := 2048 / laneBits ty

/-- The lanes of a register. -/
def vecLanes (ty : Nat) (v : List Byte) : List Nat := elements (laneBits ty) (laneCount ty) v

/-- A register of lanes. -/
def ofLanes (ty : Nat) (ls : List Nat) : List Byte := padTo 256 (packBytes (laneBits ty) ls)

/-- The floating format of a vector type. -/
def vecFmt (ty : Nat) : FloatFmt := (floatFmt (vecCode ty)).getD ⟨8, 23, 127, 1⟩

/-- A finite number is zero. -/
def Num.isZero : Num → Bool
  | .fin _ m _ => m == 0
  | _ => false

/-- The sign of a number. -/
def Num.neg : Num → Bool
  | .fin n _ _ => n
  | .inf n => n
  | .nan => false

/-- The other sign. -/
def Num.flip : Num → Num
  | .fin n m e => .fin (!n) m e
  | .inf n => .inf (!n)
  | .nan => .nan

/-- The exact product. -/
def Num.mul : Num → Num → Num
  | .nan, _ => .nan
  | _, .nan => .nan
  | .fin n m e, .fin n' m' e' => .fin (n != n') (m * m') (e + e')
  | .inf n, .inf n' => .inf (n != n')
  | .inf n, .fin n' m _ => if m = 0 then .nan else .inf (n != n')
  | .fin n m _, .inf n' => if m = 0 then .nan else .inf (n != n')

/-- The exact sum; an exact zero is negative only where both numbers are. -/
def Num.add : Num → Num → Num
  | .nan, _ => .nan
  | _, .nan => .nan
  | .inf n, .inf n' => if n = n' then .inf n else .nan
  | .inf n, _ => .inf n
  | _, .inf n => .inf n
  | .fin n m e, .fin n' m' e' =>
    let q := min e e'
    let a : Int := (m * 2 ^ (e - q).toNat : Nat)
    let b : Int := (m' * 2 ^ (e' - q).toNat : Nat)
    let v := (if n then -a else a) + (if n' then -b else b)
    if v = 0 then .fin (n && n') 0 q else .fin (decide (v < 0)) v.natAbs q

/-- Compares two numbers that are not NaN: less than; zeros equal. -/
def Num.lt (a b : Num) : Bool :=
  match a, b with
  | .inf n, .inf n' => n && !n'
  | .inf n, .fin .. => n
  | .fin .., .inf n => !n
  | .fin n m e, .fin n' m' e' =>
    match Num.add (.fin n m e) (.fin (!n') m' e') with
    | .fin s k _ => s && k != 0
    | _ => false
  | _, _ => false

/-- Two numbers that are not NaN are equal. -/
def Num.eq (a b : Num) : Bool := a != .nan && b != .nan && !Num.lt a b && !Num.lt b a

/-- The order of minimum and maximum: as `lt`, with +0 above -0 (R169). -/
def Num.below (a b : Num) : Bool := Num.lt a b || (Num.eq a b && a.isZero && a.neg && !b.neg)

/-- The larger number, NaN if either is. -/
def Num.max (a b : Num) : Num := if a == .nan || b == .nan then .nan else if Num.below a b then b else a

/-- The smaller number, NaN if either is. -/
def Num.min (a b : Num) : Num := if a == .nan || b == .nan then .nan else if Num.below b a then b else a

/-- An FP32 result rounded half-even; a NaN is canonical (R153). -/
def fput (ty : Nat) (x : Num) : Nat := (vecFmt ty).encode .even false x

/-- The value of a floating lane. -/
def fget (ty n : Nat) : Num := (vecFmt ty).decode n

/-- A floating lane operation of R238. -/
def fAlu (f : Nat) (a b : Num) : Num :=
  match f with
  | 0 => a.add b
  | 1 => a.add b.flip
  | 2 => a.mul b
  | 3 => Num.min a b
  | 4 => Num.max a b
  | 5 => if a.neg then a.flip else a
  | _ => a.flip

/-- An integer lane operation of R238 on the bit patterns of two lanes (R239). -/
def iAlu (f w : Nat) (sg sat : Bool) (a b : Nat) : Nat :=
  let x := laneInt w sg a
  let y := laneInt w sg b
  let put := narrow w sg sat
  match f with
  | 0 => put (x + y)
  | 1 => put (x - y)
  | 2 => put (x * y)
  | 3 => put (min x y)
  | 4 => put (max x y)
  | 5 => put x.natAbs
  | 6 => put (-x)
  | 7 => a &&& b
  | 8 => a ||| b
  | 9 => a ^^^ b
  | 10 => put (x * 2 ^ (b % w))
  | 11 => a >>> (b % w)
  | _ => put (x.fdiv (2 ^ (b % w)))

/-- One lane of `vec.⟨alu⟩`. -/
def laneAlu (ty f : Nat) (sat : Bool) (a b : Nat) : Nat :=
  if vecFloat ty then fput ty (fAlu f (fget ty a) (fget ty b))
  else iAlu f (laneBits ty) (((intFmt (vecCode ty)).getD (8, true)).2) sat a b

/-- One lane of `vec.fma`: rounded once. -/
def laneFma (ty : Nat) (sat : Bool) (a b c : Nat) : Nat :=
  if vecFloat ty then fput ty (((fget ty a).mul (fget ty b)).add (fget ty c))
  else
    let sg := ((intFmt (vecCode ty)).getD (8, true)).2
    let w := laneBits ty
    narrow w sg sat (laneInt w sg a * laneInt w sg b + laneInt w sg c)

/-- One lane of `vec.⟨cmp⟩` (R239): a comparison with NaN is false, except ne. -/
def laneCmp (ty f : Nat) (a b : Nat) : Bool :=
  if vecFloat ty then
    let x := fget ty a
    let y := fget ty b
    match f with
    | 0 => Num.eq x y
    | 1 => !Num.eq x y
    | 2 => Num.lt x y
    | _ => Num.lt x y || Num.eq x y
  else
    let sg := ((intFmt (vecCode ty)).getD (8, true)).2
    let x := laneInt (laneBits ty) sg a
    let y := laneInt (laneBits ty) sg b
    match f with
    | 0 => x == y
    | 1 => x != y
    | 2 => decide (x < y)
    | _ => decide (x ≤ y)

/-- Neighbours combined: element 2i with 2i + 1; one left over stands alone (R131). -/
def pairUp (f : Nat → Nat → Nat) : List Nat → List Nat
  | a :: b :: rest => f a b :: pairUp f rest
  | l => l

/-- The fixed pairwise tree of R131; the fuel bounds its depth. -/
def redTree (f : Nat → Nat → Nat) : Nat → List Nat → Nat
  | 0, l => l.headD 0
  | _ + 1, [] => 0
  | _ + 1, [x] => x
  | n + 1, l => redTree f n (pairUp f l)

/-- Square root of a natural number, rounded down. -/
def isqrt (n : Nat) : Nat :=
  (List.range (Nat.log2 n / 2 + 1)).reverse.foldl (fun r i => if (r + 2 ^ i) * (r + 2 ^ i) ≤ n then r + 2 ^ i else r) 0

/-- The square root of a number, exact to far more bits than FP32 keeps: the last bit stands for everything that follows. -/
def Num.sqrt : Num → Num
  | .nan => .nan
  | .inf n => if n then .nan else .inf false
  | .fin n m e =>
    if m = 0 then .fin n 0 e
    else if n then .nan
    else
      let e' := if e % 2 = 0 then e else e - 1
      let m' := (if e % 2 = 0 then m else 2 * m) * 2 ^ 80
      let r := isqrt m'
      .fin false (2 * r + (if r * r = m' then 0 else 1)) (e' / 2 - 41)

/-! ## Conversions -/

/-- A format that `vec.cvt` converts: not MX, not reserved (R239). -/
def convertible (code : Nat) : Bool := decide (code < 0x10) && !isMx code

/-- The number that an element of a format holds. -/
def elemNum (code n : Nat) : Num :=
  match floatFmt code with
  | some f => f.decode n
  | none =>
    match intFmt code with
    | some (w, sg) => .ofInt (laneInt w sg n) 0
    | none => .fin false 0 0

/-- One element converted (R153, R163, R239). An infinity saturates; NaN, and an infinity that does not saturate, have no stated integer
and give a free one. -/
def cvtElem (src dst : Nat) (sat : Bool) (n : Nat) : Nat :=
  let x := elemNum src n
  match floatFmt dst with
  | some f => f.encode .even sat x
  | none =>
    match intFmt dst with
    | none => 0
    | some (w, sg) =>
      match x.toInt .even, x with
      | some i, _ => narrow w sg sat i
      | none, .inf neg => if sat then narrow w sg true (if neg then (intRange w sg).1 else (intRange w sg).2)
                          else Config.cvtInt src dst n % 2 ^ w
      | none, _ => Config.cvtInt src dst n % 2 ^ w

/-- A register converted: as many elements as both fit, packed from byte 0, the rest zero. -/
def cvtVec (src dst : Nat) (sat : Bool) (v : List Byte) : List Byte :=
  let k := min (2048 / elemBits src) (2048 / elemBits dst)
  padTo 256 (packBytes (elemBits dst) ((elements (elemBits src) k v).map (cvtElem src dst sat)))

/-! ## MX packing -/

/-- The emax of an MX format (R241). -/
def mxEmax (code : Nat) : Int :=
  match code with
  | 0x05 => 8
  | 0x06 => 15
  | 0x07 => 2
  | 0x08 => 4
  | 0x0A => 2
  | _ => 0

/-- The scale byte of a block of FP32 values (R241). -/
def mxScale (code : Nat) (xs : List Num) : Nat :=
  if xs.contains .nan then 255
  else
    let logs : List Int := xs.filterMap fun x => match x with
      | .fin _ m e => if m = 0 then none else some ((Nat.log2 m : Int) + e)
      | .inf _ => some 1000
      | .nan => none
    match logs with
    | [] => 0
    | l :: ls => (clampI 0 254 (ls.foldl max l - mxEmax code + 127)).toNat

/-- One element of an MX row: x × 2^(127 − e), rounded half-even and saturated. A NaN in a format that has none is a free element. -/
def mxElem (code e : Nat) (x : Num) : Nat :=
  let y := x.mul (.fin false 1 (127 - (e : Int)))
  match floatFmt code with
  | some f => if x == .nan && f.special == 0 then Config.mxNan code % 2 ^ elemBits code else f.encode .even true y
  | none =>
    match y.mul (.fin false 1 6) with
    | .nan => Config.mxNan code % 256
    | .inf neg => narrow 8 true true (if neg then -128 else 127)
    | z => narrow 8 true true ((z.toInt .even).getD 0)

/-- Blocks of 32. -/
def blocks32 : Nat → List Num → List (List Num)
  | 0, _ => []
  | n + 1, l => l.take 32 :: blocks32 n (l.drop 32)

/-- One MX row of K FP32 values (R120, R241). -/
def mxRow (code : Nat) (xs : List Num) : List Byte :=
  let bs := blocks32 (xs.length / 32) xs
  let es := bs.map (mxScale code)
  packBytes (elemBits code) ((List.zipWith (fun e b => b.map (mxElem code e)) es bs).flatten) ++ es.map (BitVec.ofNat 8)

end Sys2Proof.Machine
end

