-- ==== Sys2Proof/Machine/Words.lean ====
section
/-! DEFINITION. Instruction words (07_instruction_reference.md): the fields of the base word (R215), which fields each instruction uses and
when a word is illegal (R216). -/

namespace Sys2Proof.Machine

open Sys2Proof

/-! ## Legal words -/

/-- What a register field names; `.none` is a field the instruction does not use. -/
inductive RegKind where
  | none | s | a | p | lc | t | v
  deriving DecidableEq, Repr

/-- How an instruction uses its word: the kind of each register field, the used bits of imm, whether an extension word is forbidden
(0), required (1) or allowed (2), and whether it names a queue. -/
structure Use where
  fd : RegKind := .none
  fa : RegKind := .none
  fb : RegKind := .none
  fc : RegKind := .none
  imm : Nat := 0
  long : Nat := 0
  q : Bool := false
  skip : Nat := 0        -- words after the instruction that a false guard passes over (R218)
  deriving DecidableEq, Repr

/-- A register field is in range for what it names (R216). -/
def RegKind.holds (k : RegKind) (n : Nat) : Bool :=
  match k with
  | .none => n == 0
  | .s => decide (n < 32)
  | .a => decide (n < 16)
  | .p => decide (n < 8)
  | .lc => decide (n < 8)
  | .t => decide (n < 32)
  | .v => decide (n < 32)

/-- The fields of a word lie in their widths (R215). -/
def Iw.inRange (i : Iw) : Bool :=
  decide (i.pg < 8) && decide (i.q < 4) && decide (i.func < 16) && decide (i.fd < 32) && decide (i.fa < 32) && decide (i.fb < 32)
    && decide (i.fc < 32)

/-- A word that its use allows (R216): unused fields zero, registers that exist, the form that its L bit says. -/
def Use.allows (u : Use) (i : Iw) : Bool :=
  Iw.inRange i && u.fd.holds i.fd && u.fa.holds i.fa && u.fb.holds i.fb && u.fc.holds i.fc
    && (i.imm.toNat &&& (2 ^ 24 - 1 - u.imm)) == 0
    && (match u.long with | 0 => !i.long | 1 => i.long | _ => true) && (i.long || i.x == 0)
    && (u.q || i.q == 0) && (i.pe || (!i.pn && i.pg == 0))

/-- The whole 24-bit immediate is used. -/
def immAll : Nat := 2 ^ 24 - 1

/-- The immediate, sign-extended. -/
def sext (i : Iw) : Int := i.imm.toInt

/-- "X or imm" (R224). -/
def xOrImm (i : Iw) : DWord := if i.long then i.x else BitVec.ofInt 64 (sext i)

/-- Words that an instruction takes. -/
def wordsOfIw (i : Iw) : Nat := if i.long then 2 else 1

/-! ## The uses of the instructions -/

/-- A use where the function code is zero. -/
def useIf0 (u : Use) (i : Iw) : Option Use := if i.func = 0 then some u else none

/-- The options of a transfer (R231). -/
def tileUse (i : Iw) : Option Use :=
  if i.func < 8 then
    some { fd := .t, fa := .a, fb := if i.func.testBit 0 then .s else .none, fc := if i.func.testBit 2 then .s else .none, imm := immAll }
  else none

/-- The vector type of a word. -/
def vecTy (i : Iw) : Nat := i.imm.toNat % 8

/-- A use of three vector registers at most, with a type, where the type is not 7. -/
def vecUse (u : Use) (i : Iw) : Option Use := if vecTy i = 7 then none else some u

/-- Registers that `vec.mxp` reads for a format. -/
def mxpRegs (code : Nat) : Nat := if code = 0xA then 8 else 4

/-- A use of a tok word: the amount takes X[15:0], and a local index imm[5:0]. -/
def tokUse (u : Use) (i : Iw) : Option Use :=
  if i.long ∧ 65535 < i.x.toNat then none
  else some { u with imm := if i.func.testBit 0 then immAll else 0x3F, long := 2, q := true }

/-- CTL_NOP (0x00). -/
def useCtlNop : Iw → Option Use :=
  useIf0 {}

/-- CTL_ALU (0x01). -/
def useCtlAlu : Iw → Option Use :=
  fun i => if i.func ≤ 12 then some { fd := .s, fa := .s, fb := .s }
                             else if i.func = 13 then some { fd := .s, fa := .s } else none

/-- CTL_ALUI (0x02). -/
def useCtlAlui : Iw → Option Use :=
  fun i => if i.func ≤ 12 then some { fd := .s, fa := .s, imm := if i.long then 0 else immAll, long := 2 } else none

/-- CTL_LI (0x03). -/
def useCtlLi : Iw → Option Use :=
  fun i => useIf0 { fd := .s, imm := if i.long then 0 else immAll, long := 2 } i

/-- CTL_AMOV (0x04). -/
def useCtlAmov : Iw → Option Use :=
  fun i => match i.func with
      | 0 => some { fd := .a, fa := .s }
      | 1 => some { fd := .s, fa := .a }
      | 2 => some { fd := .a, fa := .a, imm := immAll }
      | 3 => some { fd := .a, fa := .a, fb := .s }
      | _ => none

/-- CTL_CMP (0x05). -/
def useCtlCmp : Iw → Option Use :=
  fun i => if i.func ≤ 9 then some { fd := .p, fa := .s, fb := if i.long then .none else .s, long := 2 } else none

/-- CTL_POP (0x06). -/
def useCtlPop : Iw → Option Use :=
  fun i => match i.func with
      | 0 | 1 | 2 => some { fd := .p, fa := .p, fb := .p }
      | 3 => some { fd := .p, fa := .p }
      | 4 | 5 => some { fd := .p }
      | _ => none

/-- CTL_BR (0x07). -/
def useCtlBr : Iw → Option Use :=
  useIf0 { imm := immAll }

/-- CTL_LOOP (0x08). -/
def useCtlLoop : Iw → Option Use :=
  fun i => if i.func = 0 ∧ i.imm ≠ 0 then some { fd := .lc, fa := .s, imm := immAll, skip := i.imm.toNat } else none

/-- CTL_YIELD (0x09). -/
def useCtlYield : Iw → Option Use :=
  useIf0 {}

/-- CTL_END (0x0A). -/
def useCtlEnd : Iw → Option Use :=
  useIf0 {}

/-- CTL_CKPT (0x0B). -/
def useCtlCkpt : Iw → Option Use :=
  useIf0 {}

/-- CTL_TDESC (0x0C). -/
def useCtlTdesc : Iw → Option Use :=
  fun i => match i.func with
      | 0 => some { fd := .t, fa := .s }
      | 1 => some { fd := .t, long := 1 }
      | 2 => some { fd := .s, fa := .t }
      | 3 => some { fd := .t, fa := .t, imm := immAll }
      | 4 => some { fd := .t, fa := .t, fb := .s }
      | _ => none

/-- CTL_SYS (0x0D). -/
def useCtlSys : Iw → Option Use :=
  fun i => match i.func with
      | 0 | 1 | 2 | 5 | 8 | 9 => some { fd := .s }
      | 3 | 4 => some { fa := .s }
      | 6 => some {}
      | 7 => some { fd := .s, fa := .lc }
      | _ => none

/-- CTL_ALLOC (0x0E). -/
def useCtlAlloc : Iw → Option Use :=
  useIf0 { fd := .s, fa := .s, fc := .s }

/-- CTL_FREE (0x0F). -/
def useCtlFree : Iw → Option Use :=
  useIf0 { fa := .s, fb := .s }

/-- TILE_LOAD (0x10). -/
def useTileLoad : Iw → Option Use :=
  tileUse

/-- TILE_STORE (0x11). -/
def useTileStore : Iw → Option Use :=
  tileUse

/-- TILE_COPY (0x12). -/
def useTileCopy : Iw → Option Use :=
  fun i => if i.func = 0 then some { fd := .t, fa := .t } else none

/-- TILE_FILL (0x13). -/
def useTileFill : Iw → Option Use :=
  fun i => if i.func = 0 then some { fd := .t, fa := .s } else none

/-- ARR_WLOAD (0x20). -/
def useArrWload : Iw → Option Use :=
  fun i => if i.func ≤ 1 then some { fa := .t } else none

/-- ARR_MMA (0x21). -/
def useArrMma : Iw → Option Use :=
  fun i => if i.func < 8 then some { fd := if i.func.testBit 1 then .t else .none, fa := .t } else none

/-- ARR_CONV (0x22). -/
def useArrConv : Iw → Option Use :=
  fun i => if i.func < 16 then some { fd := .t, fa := .t, fb := .s, fc := .s } else none

/-- ARR_WGCONV (0x23). -/
def useArrWgconv : Iw → Option Use :=
  fun i => if i.func < 16 then some { fd := .t, fa := .t, fb := .s, fc := .s, imm := 0x3F } else none

/-- ARR_READ (0x24). -/
def useArrRead : Iw → Option Use :=
  fun i =>
    if i.func < 6 then
      some { fd := .t, fa := if i.func = 0 then .none else .t, fb := .s, fc := .t, imm := if i.func < 2 then 0x1F else 0x1FFFF }
    else none

/-- VEC_LD (0x30). -/
def useVecLd : Iw → Option Use :=
  fun i => if i.func ≤ 1 then some { fd := .v, fa := .t, fb := .s, imm := 0x1FFF } else none

/-- VEC_ST (0x31). -/
def useVecSt : Iw → Option Use :=
  fun i => if i.func ≤ 1 then some { fd := .t, fa := .v, fb := .s, imm := 0x1FFF } else none

/-- VEC_ALU (0x32). -/
def useVecAlu : Iw → Option Use :=
  fun i =>
      if 12 < i.func ∨ vecTy i = 7 ∨ (7 ≤ i.func ∧ vecFloat (vecTy i) = true) then none
      else some { fd := .v, fa := .v, fb := if i.func = 5 ∨ i.func = 6 then .none else .v, imm := 0xF }

/-- VEC_FMA (0x33). -/
def useVecFma : Iw → Option Use :=
  fun i => if i.func = 0 then vecUse { fd := .v, fa := .v, fb := .v, fc := .v, imm := 0xF } i else none

/-- VEC_CMP (0x34). -/
def useVecCmp : Iw → Option Use :=
  fun i => if i.func ≤ 3 then vecUse { fd := .v, fa := .v, fb := .v, imm := 7 } i else none

/-- VEC_SEL (0x35). -/
def useVecSel : Iw → Option Use :=
  fun i => if i.func = 0 then vecUse { fd := .v, fa := .v, fb := .v, fc := .v, imm := 7 } i else none

/-- VEC_RED (0x36). -/
def useVecRed : Iw → Option Use :=
  fun i =>
      let n := bits i.imm.toNat 4 6
      if 2 < i.func ∨ 32 < n ∨ 32 < i.fa + n then none else vecUse { fd := .v, fa := .v, imm := 0x3FF } i

/-- VEC_CVT (0x37). -/
def useVecCvt : Iw → Option Use :=
  useIf0 { fd := .v, fa := .v, imm := 0x11F1F }

/-- VEC_FN (0x38). -/
def useVecFn : Iw → Option Use :=
  fun i => if i.func ≤ 6 ∧ vecFloat (vecTy i) = true then some { fd := .v, fa := .v, imm := 7 } else none

/-- VEC_PERM (0x39). -/
def useVecPerm : Iw → Option Use :=
  fun i => if i.func = 0 then vecUse { fd := .v, fa := .v, fb := .v, imm := 7 } i else none

/-- VEC_DUP (0x3A). -/
def useVecDup : Iw → Option Use :=
  fun i => if i.func = 0 then vecUse { fd := .v, fa := .s, imm := 7 } i else none

/-- VEC_EXT (0x3B). -/
def useVecExt : Iw → Option Use :=
  fun i => if i.func = 0 then vecUse { fd := .s, fa := .v, imm := 0xFF07 } i else none

/-- VEC_MXP (0x3C). -/
def useVecMxp : Iw → Option Use :=
  fun i =>
      let code := i.imm.toNat % 32
      if i.func ≠ 0 ∨ (isMx code = true ∧ 32 < i.fa + mxpRegs code) then none
      else some { fd := .t, fa := .v, fb := .s, imm := 0x1F }

/-- ENG_ENQ (0x40). -/
def useEngEnq : Iw → Option Use :=
  fun i => if i.func ≤ 8 then some { fa := .a, fb := .s, imm := immAll } else none

/-- TOK_WAIT (0x50). -/
def useTokWait : Iw → Option Use :=
  fun i => match i.func with
      | 0 => tokUse {} i
      | 1 => tokUse {} i
      | 3 => tokUse { fa := .s, fc := .p } i
      | 5 => tokUse { fd := .s } i
      | 7 => tokUse { fd := .s, fa := .s, fc := .p } i
      | _ => none

/-- TOK_SIG (0x51). -/
def useTokSig : Iw → Option Use :=
  fun i => match i.func with
      | 0 => tokUse {} i
      | 1 => tokUse {} i
      | 3 => tokUse { fa := .s } i
      | _ => none

/-- TOK_TRY (0x52). -/
def useTokTry : Iw → Option Use :=
  fun i => if i.func = 0 then tokUse { fd := .p } i else none

/-- ITM_ATTACH (0x60). -/
def useItmAttach : Iw → Option Use :=
  fun i =>
      if i.imm.toNat % 256 < 0x40 then none
      else if i.func = 0 then some { fd := .s, fa := .s, fb := .t, imm := immAll }
      else if i.func = 1 then some { fd := .s, fa := .s, fb := .t, fc := .s, imm := 0xFF }
      else none

/-- ITM_COMMIT (0x61). -/
def useItmCommit : Iw → Option Use :=
  fun i => if i.func ≤ 2 then some { fd := .s, fa := .s, fb := .s, imm := 0x1F } else none

/-- ITM_GET (0x62). -/
def useItmGet : Iw → Option Use :=
  fun i => if i.func ≤ 5 then some { fd := .s, fa := .s, fb := .p } else none

/-- SEQ_JOIN (0x70). -/
def useSeqJoin : Iw → Option Use :=
  useIf0 { fd := .s, fa := .s, fb := .s, fc := .s, imm := 3 }

/-- SEQ_STEP (0x71). -/
def useSeqStep : Iw → Option Use :=
  fun i => if i.func ≤ 1 then some { fd := .s, fa := .a, imm := 3 } else none

/-- SEQ_LEAVE (0x72). -/
def useSeqLeave : Iw → Option Use :=
  useIf0 { fa := .s, imm := 3 }

/-- The use of a word by its opcode; none for a reserved unit or operation (R216). -/
def useOf (op : Nat) (i : Iw) : Option Use :=
  match op with
  | 0x00 => useCtlNop i
  | 0x01 => useCtlAlu i
  | 0x02 => useCtlAlui i
  | 0x03 => useCtlLi i
  | 0x04 => useCtlAmov i
  | 0x05 => useCtlCmp i
  | 0x06 => useCtlPop i
  | 0x07 => useCtlBr i
  | 0x08 => useCtlLoop i
  | 0x09 => useCtlYield i
  | 0x0A => useCtlEnd i
  | 0x0B => useCtlCkpt i
  | 0x0C => useCtlTdesc i
  | 0x0D => useCtlSys i
  | 0x0E => useCtlAlloc i
  | 0x0F => useCtlFree i
  | 0x10 => useTileLoad i
  | 0x11 => useTileStore i
  | 0x12 => useTileCopy i
  | 0x13 => useTileFill i
  | 0x20 => useArrWload i
  | 0x21 => useArrMma i
  | 0x22 => useArrConv i
  | 0x23 => useArrWgconv i
  | 0x24 => useArrRead i
  | 0x30 => useVecLd i
  | 0x31 => useVecSt i
  | 0x32 => useVecAlu i
  | 0x33 => useVecFma i
  | 0x34 => useVecCmp i
  | 0x35 => useVecSel i
  | 0x36 => useVecRed i
  | 0x37 => useVecCvt i
  | 0x38 => useVecFn i
  | 0x39 => useVecPerm i
  | 0x3A => useVecDup i
  | 0x3B => useVecExt i
  | 0x3C => useVecMxp i
  | 0x40 => useEngEnq i
  | 0x50 => useTokWait i
  | 0x51 => useTokSig i
  | 0x52 => useTokTry i
  | 0x60 => useItmAttach i
  | 0x61 => useItmCommit i
  | 0x62 => useItmGet i
  | 0x70 => useSeqJoin i
  | 0x71 => useSeqStep i
  | 0x72 => useSeqLeave i
  | _ => none

/-- The fields of a base word and an extension word, and its opcode (R215). -/
def iwOf (w x : DWord) : Nat × Iw :=
  let n := w.toNat
  (bits n 0 8, { long := bitOf n 8, pe := bitOf n 9, pn := bitOf n 10, pg := bits n 11 3, q := bits n 14 2, func := bits n 16 4
                 fd := bits n 20 5, fa := bits n 25 5, fb := bits n 30 5, fc := bits n 35 5, imm := BitVec.ofNat 24 (bits n 40 24)
                 x := if bitOf n 8 then x else 0 })

/-- A word is legal: its instruction exists and its use allows it (R216). -/
def legalWord (op : Nat) (i : Iw) : Bool := (useOf op i).elim false fun u => u.allows i

end Sys2Proof.Machine
end

