-- ==== Sys2Proof/Machine/Hold.lean ====
section
/-! DEFINITION. What holds a word of a task back (04_tensor_cores.md, 07_instruction_reference.md, 08_scheduling.md): pending registers (R219),
the queues (R132-R135), the recovery record's room (R513), and whether a held task is PARKED (R223, R259). -/

namespace Sys2Proof.Machine

open Sys2Proof

/-! ## Pending registers -/

/-- The scalar registers that an instruction writes from its queue (R219). -/
def writesS (op : Nat) (i : Iw) : List Nat :=
  match op with
  | 0x0E => [i.fd, i.fc]
  | 0x50 => if i.func.testBit 2 then [i.fd] else []
  | 0x3B | 0x60 | 0x61 | 0x62 | 0x70 | 0x71 => [i.fd]
  | _ => []

/-- The predicates that an instruction writes from its queue (R219). -/
def writesP (op : Nat) (i : Iw) : List Nat :=
  match op with
  | 0x50 => if i.func.testBit 1 then [i.fc] else []
  | 0x52 => [i.fd]
  | 0x62 => [i.fb]
  | _ => []

/-- The scalar registers that a waiting instruction will write. -/
def waitS : Wait → List Nat
  | .queued x => writesS x.op x.i
  | .take _ _ _ sd _ => sd.toList
  | .step _ _ sd _ => [sd]
  | .join _ _ _ _ sd => [sd]
  | _ => []

/-- The predicates that a waiting instruction will write. -/
def waitP : Wait → List Nat
  | .queued x => writesP x.op x.i
  | .take _ _ _ _ pc => pc.toList
  | _ => []

/-- Scalar registers that an instruction reads beside its register fields: the base of stochastic rounding (R237). -/
def alsoReads (op : Nat) (i : Iw) : List Nat := if op = 0x24 then [i.imm.toNat % 32] else []

/-- A field names a pending register. -/
def fieldPending (ss ps : List Nat) (k : RegKind) (n : Nat) : Bool :=
  match k with
  | .s => ss.contains n
  | .p => ps.contains n
  | _ => false

/-- The guard of a word names a pending predicate (R219). -/
def guardPending (k : Task) (i : Iw) : Bool := i.pe && (k.waits.flatMap fun w => waitP w.w).contains i.pg

/-- The word reads or writes a pending register (R219). -/
def namesPending (k : Task) (u : Use) (op : Nat) (i : Iw) : Bool :=
  let ss := k.waits.flatMap fun w => waitS w.w
  let ps := k.waits.flatMap fun w => waitP w.w
  fieldPending ss ps u.fd i.fd || fieldPending ss ps u.fa i.fa || fieldPending ss ps u.fb i.fb || fieldPending ss ps u.fc i.fc
    || (alsoReads op i).any ss.contains

/-! ## Queues -/

/-- The queue of an instruction (the unit table of R217): 0 the sequencer, 1 A, 2 V, 3 M; a tok word names its own. -/
def queueOf (op : Nat) (i : Iw) : Nat :=
  match op / 16 with
  | 0 => if op = 0x0E ∨ op = 0x0F then 3 else 0
  | 2 => 1
  | 3 => 2
  | 5 => i.q
  | _ => 3

/-- Entries of a queue (R132). -/
def queueSize (q : Nat) : Nat := match q with | 1 => 16 | 2 => 32 | _ => 64

/-- What an instruction needs before it begins: nothing more than its own queue, that every older pass is checked (R135), or that every
older instruction and pass is done (R47, R227, R228). -/
inductive Needs where
  | queue | checked | all
  deriving DecidableEq, Repr

/-- What an instruction needs (R47, R135, R227, R228). -/
def needOf (op : Nat) (i : Iw) : Needs :=
  match op with
  | 0x0A | 0x0B | 0x61 => .all
  | 0x11 | 0x71 => .checked
  | 0x51 => if i.func.testBit 0 then .checked else .queue
  | _ => .queue

/-- The tile-buffer extents that an instruction reads and those that it writes (R133). -/
def tileExtents (op : Nat) (i : Iw) (o : Operands) : List Extent × List Extent :=
  let e := fun (n : Nat) => (tileOf (o.t.getD n 0)).extent
  match op with
  | 0x10 | 0x13 | 0x31 | 0x3C => ([], [e i.fd])
  | 0x11 => ([e i.fd], [])
  | 0x12 => ([e i.fa], [e i.fd])
  | 0x20 | 0x30 => ([e i.fa], [])
  | 0x21 => if i.func.testBit 1 then ([e i.fa, e i.fd], [e i.fd]) else ([e i.fa], [])
  | 0x22 | 0x23 => ([e i.fa, e i.fd], [e i.fd])
  | 0x24 => ((if i.func = 0 then [] else [e i.fa]) ++ (if (readCtl (o.s.getD i.fb 0)).percol then [e i.fc] else []), [e i.fd])
  | 0x60 => ([e i.fb], [])
  | _ => ([], [])

/-- Two instructions of one task, the first older, touch the tile buffer in a way that keeps the second from beginning before the first
is done (R133). The accumulators, planes and vector registers are each used by one queue alone. -/
def tileConflict (old new : List Extent × List Extent) : Bool :=
  old.2.any (fun x => new.1.any (extentsMeet x) || new.2.any (extentsMeet x)) || old.1.any fun x => new.2.any (extentsMeet x)

/-- A waiting instruction that will write the Square (R135). -/
def writesSquare : Wait → Bool
  | .queued x => x.op == 0x11 || x.op == 0x71
  | .step .. => true
  | _ => false

/-- A waiting instruction that will stream a pass through the array. -/
def willPass : Wait → Bool
  | .queued x => decide (0x21 ≤ x.op) && decide (x.op ≤ 0x23)
  | _ => false

/-- The plane that a pass must find loaded (R234). An `arr.wload` issues while another load runs and waits for it in the background (R116). -/
def planeBusy (r : TaskRegs) (op : Nat) (i : Iw) : Bool := decide (0x21 ≤ op) && decide (op ≤ 0x23) && r.loads.contains (i.func % 2)

/-- An instruction of a task may begin, where `older` are the older ones that still wait (R132, R133, R135, R234). -/
def mayBegin (k : Task) (older : List Waiting) (op : Nat) (i : Iw) (o : Operands) : Bool :=
  let q := queueOf op i
  !(q != 0 && older.any fun w => w.q == q)
    && !older.any (fun w => match w.w with
      | .queued x => w.q != q && tileConflict (tileExtents x.op x.i x.ops) (tileExtents op i o)
      | _ => false)
    && !planeBusy k.regs op i
    && match needOf op i with
      | .queue => true
      | .checked => k.passes == 0 && !older.any (fun w => willPass w.w) && (op != 0x51 || !older.any fun w => writesSquare w.w)
      | .all => k.passes == 0 && older.isEmpty

/-! ## Held decode -/

/-- Entries that an instruction will add to the recovery record (R513). -/
def entriesOfWord (op : Nat) (i : Iw) (o : Operands) : Nat :=
  match op with
  | 0x0E | 0x0F | 0x70 | 0x72 => 1
  | 0x40 => min 64 (o.s.getD i.fb 0).toNat
  | 0x50 => if i.func.testBit 0 then 1 else 0
  | _ => 0

/-- Entries that a waiting instruction will add to the recovery record. -/
def entriesOfWait : Wait → Nat
  | .queued x => entriesOfWord x.op x.i x.ops
  | .take .. => 1
  | .enq _ _ left => left
  | .join .. => 1
  | _ => 0

/-- The recovery record holds `n` more entries beside those of the instructions that wait (R513). -/
def recordRoom (k : Task) (n : Nat) : Bool := decide (k.rec_.entries.length + (k.waits.map fun w => entriesOfWait w.w).sum + n ≤ 64)

/-- The operands that an instruction captures at decode (R132, R219). -/
def capture (r : TaskRegs) : Operands := { s := r.s, a := r.a, p := r.p, lc := r.lc, t := r.t }

/-- The word waits for every older instruction and pass: it needs them done, or a checkpoint comes before it (R227, R228, R513). -/
def needsAll (k : Task) (op : Nat) (i : Iw) : Bool := needOf op i == .all || !recordRoom k (entriesOfWord op i (capture k.regs))

/-- Decode is held before this word: its registers are pending, it needs every older instruction done, or its queue is full (R132, R219,
R227, R228). -/
def decodeHeld (k : Task) (u : Use) (op : Nat) (i : Iw) : Bool :=
  namesPending k u op i || (needsAll k op i && !k.waits.isEmpty)
    || (queueOf op i != 0 && decide (queueSize (queueOf op i) ≤ (k.waits.filter fun w => w.q == queueOf op i).length))

/-- A waiting instruction of queue 0 remains. -/
def heldByQ0 (t : Task) : Bool := t.waits.any fun w => w.q == 0

/-- A waiting instruction that has begun: one of the "Any queue" row of R223. -/
def Wait.begun : Wait → Bool
  | .queued _ => false
  | _ => true

/-- The A and V queues of a task are empty, and one of its instructions waits (R259). -/
def mayPark (k : Task) : Bool := k.waits.any (fun w => w.w.begun) && !k.waits.any fun w => w.q == 1 || w.q == 2

/-- A task whose sequencer is held: PARKED or RUNNING (R259). -/
def heldState (k : Task) : TaskState := if mayPark k then .parked else .running

/-- The word that decode is held before is held still, as the task now stands (R132, R133, R219). -/
def heldStill (k : Task) : Bool :=
  k.held.elim false fun h =>
    match useOf h.1 h.2 with
    | none => false
    | some u =>
      guardPending k h.2 || (!(h.2.pe && pOf k.regs h.2.pg == h.2.pn) &&
        (decodeHeld k u h.1 h.2 || (queueOf h.1 h.2 == 0 && !k.waits.isEmpty && !mayBegin k k.waits h.1 h.2 (capture k.regs))))

/-- Decode of a task is held: by a wait of its sequencer's own, or before a word (R219, R223, R259). -/
def stalled (k : Task) : Bool := heldByQ0 k || heldStill k

end Sys2Proof.Machine
end

