-- ==== Sys2Proof/Machine/Tokens.lean ====
section
/-! DEFINITION. Tokens (R194-R198, R249-R251): waits, signals and what serving a wait does to the task, pipeline or batch queue that
waits (R260, R336, R368). -/

namespace Sys2Proof.Machine

open Sys2Proof

/-! ## Items as tokens see them -/

/-- The item with an ID, while it is OPEN or BOUND. -/
def itemOf (s : State) (id : Word) : Option Item := s.led.items.find? fun i => i.id == id

/-- An ID has been issued: by signed difference it is older than ITM_NEXT_ID (R32). -/
def itemIssued (s : State) (id : Word) : Bool := decide ((id - rdW s Reg.itmNextId.base).toInt < 0)

/-- An item has committed or defaulted: its ID was issued and it is no longer OPEN or BOUND. -/
def itemEnded (s : State) (id : Word) : Bool := itemIssued s id && (itemOf s id).isNone

/-- An item's deadline has been reached, whether the item is in the ledger or has ended: a stage discards work that it would start for it
(R19). -/
def lateItem (s : State) (id : Word) : Bool :=
  match itemOf s id with
  | some i => reached (copyPos s i.posSrc) i.deadline
  | none => (s.led.ended.find? fun e => e.id == id).elim false fun e => reached (copyPos s e.posSrc) e.deadline

/-! ## Waking -/

/-- A task becomes READY now. -/
def makeReady (t : TaskId) (s : State) : State :=
  let (n, s) := nextStamp s
  modTask t (fun k => { k with st := .ready, readyAt := n, readySince := s.tim.now }) s

/-- A task whose wait was served (R260): PARKED, it decodes again; SAVED, it becomes READY. While decode is held still it is PARKED once its
A and V queues are empty (R259). -/
def wake (t : TaskId) (s : State) : State :=
  match taskOf s t with
  | none => s
  | some k =>
    if stalled k then (if k.st = .running then modTask t (fun k => { k with st := heldState k }) s else s)
    else match k.st with
      | .parked => modTask t (fun k => { k with st := .running }) s
      | .saved => s |> makeReady t |> modTask t fun k => { k with served := true }
      | _ => s

/-- The core of a task has completed an instruction since the task entered it (R272). -/
def notFresh (t : TaskId) (s : State) : State :=
  match (taskOf s t).bind (·.core) with
  | some n => modCore n (fun c => { c with fresh := false }) s
  | none => s

/-- The scalar registers that the first wait that `sel` accepts writes, with their values. -/
def servedResults (ws : List Waiting) (sel : Wait → Bool) (r : TaskRegs) : List (Nat × DWord) :=
  (ws.find? fun w => sel w.w).elim [] fun w => (waitS w.w).map fun n => (n, sOf r n)

/-- Ends the first waiting instruction that `sel` accepts: `g` writes its results, the step counter counts it (R221), `es` enters the
recovery record (R513), its round may end (R264), and the task wakes. -/
def finishWait (t : TaskId) (sel : Wait → Bool) (g : TaskRegs → TaskRegs) (es : List RecEntry) (s : State) : State :=
  s |> modTask t (fun k =>
        { k with waits := dropFirst (fun w => sel w.w) k.waits
                 regs := { g k.regs with step := k.regs.step + 1 }
                 rec_ := { k.rec_ with entries := k.rec_.entries ++ es }
                 results := if k.saved then k.results ++ servedResults k.waits sel (g k.regs) else k.results
                 atRound := k.atRound || (k.waits.find? fun w => sel w.w).elim false (·.ends) })
    |> notFresh t |> wake t

/-- A waiting take of a token. -/
def isTake (tok : Nat) (item : Option Word) : Wait → Bool
  | .take k _ i _ _ => k == tok && i == item
  | _ => false

/-- A waiting signal of a tagged token. -/
def isSigPair (tok : Nat) (item : Word) : Wait → Bool
  | .sigPair k _ i => k == tok && i == item
  | _ => false

/-- The token of a program by its program-relative index. -/
def tokOf (s : State) (h i : Nat) : Option Token := s.tokens.find? fun k => k.handle == h && k.idx == i

/-- Changes a token. -/
def modTok (h i : Nat) (f : Token → Token) (s : State) : State :=
  { s with tokens := updFirst (fun k => k.handle == h && k.idx == i) f s.tokens }

/-- A waiting instruction is discarded: it leaves the queues of waiters that it stands in. -/
def forgetWait (t : TaskId) (w : Wait) (s : State) : State :=
  match w with
  | .take tok amt item _ _ =>
    modTok t.handle tok (fun k => { k with waiters := dropFirst (fun x => x == { who := .task t, amt := amt, item := item }) k.waiters }) s
  | .sigPair tok amt item =>
    modTok t.handle tok (fun k => { k with sigs := dropFirst (fun x => x == { who := some (.task t), amt := amt, item := item }) k.sigs }) s
  | .step c _ _ _ => { s with clients := modAt c (fun k => { k with stepBy := dropFirst (fun x => x == t) k.stepBy }) s.clients }
  | _ => s

/-- An instruction decoded at `since` faults (R137): younger ones are discarded, older ones go on, and the fault is taken once they are
done. -/
def faultDue (t : TaskId) (since status q word : Nat) (s : State) : State :=
  match taskOf s t with
  | none => s
  | some k =>
    let s := (k.waits.filter fun w => decide (since ≤ w.since)).foldl (fun s w => forgetWait t w.w s) s
    modTask t (fun k => { k with waits := k.waits.filter (fun w => decide (w.since < since))
                                 due := some (status, q, word) }) s

/-- A waiting instruction ends in a fault. -/
def failWait (t : TaskId) (sel : Wait → Bool) (status : Nat) (s : State) : State :=
  match (taskOf s t).bind fun k => k.waits.find? fun w => sel w.w with
  | some w => faultDue t w.since status w.q w.word s
  | none => s

/-! ## Serving -/

/-- The count that a waiter draws on: the token's, or its item's pair's (R194, R195). -/
def drawn (k : Token) (item : Option Word) : Nat :=
  match item with
  | none => k.count
  | some id => (k.pairs.lookup id).getD 0

/-- The token less an amount; a pair that falls to zero frees (R195). -/
def takeFrom (k : Token) (item : Option Word) (amt : Nat) : Token :=
  match item with
  | none => { k with count := k.count - amt }
  | some id =>
    { k with pairs := (k.pairs.map fun p => if p.1 = id then (p.1, p.2 - amt) else p).filter fun p => p.2 != 0 }

/-- The oldest waiter that may be served: each waiter behind an unserved one of its own count waits (R194). On a tagged token every item's
pair is a count of its own, so waiters for one item do not hold back those for another (DESIGN CHOICE, log entry 99). -/
def nextWaiter (k : Token) : List (Option Word) → List TokWaiter → Option TokWaiter
  | _, [] => none
  | blocked, w :: ws =>
    if blocked.contains w.item then nextWaiter k blocked ws
    else if w.amt ≤ drawn k w.item then some w
    else nextWaiter k (w.item :: blocked) ws

/-- A latch that faults the wait that reaches it (R251). -/
def latchFaults (l : Nat) : Bool := l == Stat.timeout || l == Stat.poison

/-- The results of a take that succeeded: the predicate of a tagged wait, the status latch of an .st wait (R249). -/
def takeDone (t : TaskId) (tok : Nat) (item : Option Word) (latch : Nat) (s : State) : State :=
  match taskOf s t with
  | none => s
  | some k =>
    match k.waits.find? fun w => isTake tok item w.w with
    | some { w := .take _ amt _ sd pc, .. } =>
      let g := fun (r : TaskRegs) =>
        let r := match sd with | some d => setSN d latch r | none => r
        match pc with | some p => setP p true r | none => r
      let s := match sd with | some _ => modTok t.handle tok (fun k => { k with latch := 0 }) s | none => s
      finishWait t (isTake tok item) g [.take tok amt item Stat.ok] s
    | _ => s

/-- A wait whose item commits or defaults ends without taking: its predicate clears (R195). The destination of an .st wait and the latch
stay as they are (DESIGN CHOICE, log entry 99). -/
def takeClosed (t : TaskId) (tok : Nat) (item : Option Word) (s : State) : State :=
  match taskOf s t with
  | none => s
  | some k =>
    match k.waits.find? fun w => isTake tok item w.w with
    | some { w := .take _ _ _ _ pc, .. } =>
      finishWait t (isTake tok item) (fun r => match pc with | some p => setP p false r | none => r) [] s
    | _ => s

/-- A wait that reaches a latch of TIMEOUT or POISON (R251): nothing is taken; a SAVED task becomes READY and its re-issued wait
faults, any other faults now. -/
def takeFault (t : TaskId) (tok : Nat) (item : Option Word) (latch : Nat) (s : State) : State :=
  match taskOf s t with
  | none => s
  | some k =>
    match k.st with
    | .saved => makeReady t s
    | _ => failWait t (isTake tok item) latch s

/-- A token's count has changed: the low-water alarm of a Caddy queue whose ready_tok it is (R375). The alarm arms when the count reaches
low_water, and is raised once when it falls below. -/
def lowWater (h i : Nat) (s : State) : State :=
  match tokOf s h i with
  | none => s
  | some k =>
    (s.eng.caddy.filter fun c => c.handle == h && leAt c.cfg 0x1C 2 == i && leAt c.cfg 0x16 2 != 0).foldl (fun s c =>
      let arm := fun (b : Bool) (s : State) =>
        modEng (fun e => { e with caddy := updFirst (fun x => x.handle == h && x.q == c.q) (fun x => { x with armed := b }) e.caddy }) s
      if leAt c.cfg 0x16 2 ≤ k.count then arm true s
      else if c.armed then
        s |> arm false |> setFlag Reg.cadStatus.base 0 |> bump Reg.cadSnapCnt.base 4
          |> postEvent 0x0B 1 h 0 0 (leBytes 1 c.q ++ leBytes 2 k.count)
      else s) s

/-- Serves the oldest waiter that may be served, if there is one. -/
def serveOne (h i : Nat) (s : State) : Option State :=
  match tokOf s h i with
  | none => none
  | some k =>
    match nextWaiter k [] k.waiters with
    | none => none
    | some w =>
      let drop := fun (k : Token) => { k with waiters := dropFirst (fun x => x == w) k.waiters }
      match w.who with
      | .task t =>
        if k.jobTmpl.isSome && latchFaults k.latch then some (s |> modTok h i drop |> takeFault t i w.item k.latch)
        else some (s |> modTok h i (fun k => takeFrom (drop k) w.item w.amt) |> lowWater h i |> takeDone t i w.item k.latch)
      | .pipe n =>
        some (s |> modTok h i (fun k => takeFrom (drop k) w.item w.amt) |> lowWater h i
                |> modPipe n (fun p => { p with serving := p.serving.map fun v => { v with waiting := false, granted := true } }))
      | .caddy q =>
        some (s |> modTok h i (fun k => takeFrom (drop k) w.item w.amt) |> lowWater h i
                |> modEng (fun e => { e with caddy := updFirst (fun c => c.handle == h && c.q == q)
                                                        (fun c => { c with waiting := false, granted := true }) e.caddy }))
      | .neighbour _ => some (modTok h i drop s)

/-- Serves waiters until none can be served. -/
def serveLoop : Nat → Nat → Nat → State → State
  | 0, _, _, s => s
  | f + 1, h, i, s =>
    match serveOne h i s with
    | some s' => serveLoop f h i s'
    | none => s

/-- Serves the waiters of a token. -/
def serveToken (h i : Nat) (s : State) : State :=
  serveLoop ((tokOf s h i).elim 0 fun k => k.waiters.length) h i s

/-! ## Signals -/

/-- The pair of an item with an amount added. -/
def addPair (id : Word) (amt : Nat) (ps : List (Word × Nat)) : List (Word × Nat) :=
  if ps.any (fun p => p.1 == id) then ps.map fun p => if p.1 = id then (p.1, p.2 + amt) else p else ps ++ [(id, amt)]

/-- A tagged signal can act now: its item has a pair, or a pair is free. -/
def pairRoom (k : Token) (id : Word) : Bool := k.pairs.any (fun p => p.1 == id) || decide (k.pairs.length < 32)

/-- The oldest held signal or returned take that can act, returned takes first (R195, R514). -/
def heldReady (k : Token) : Option SigWaiter :=
  match k.sigs with
  | [] => none
  | w :: _ => if pairRoom k w.item then some w else none

/-- What a held signal's task gets when it acts (R135, R513) or is discarded (R195). -/
def sigDone (who : Option Waiter) (tok : Nat) (item : Word) (counted : Bool) (s : State) : State :=
  match who with
  | some (.task t) =>
    s |> modTask t (fun k => { k with rec_ := { k.rec_ with sigs := k.rec_.sigs + (if counted then 1 else 0) } })
      |> finishWait t (isSigPair tok item) id []
  | some (.pipe n) => modPipe n (fun p => { p with serving := p.serving.map fun v => { v with sigWait := false } }) s
  | _ => s

/-- A held signal would raise its pair above 65,535: it faults the signaller (R194). -/
def sigFault (who : Option Waiter) (tok : Nat) (item : Word) (s : State) : State :=
  match who with
  | some (.task t) => failWait t (isSigPair tok item) Stat.tokenOverflow s
  | _ => sigDone who tok item false s

/-- Lets held signals act, oldest first, while pairs are free. -/
def drainSigs : Nat → Nat → Nat → State → State
  | 0, _, _, s => s
  | f + 1, h, i, s =>
    match tokOf s h i with
    | none => s
    | some k =>
      match heldReady k with
      | none => s
      | some w =>
        let past := decide (65535 < drawn k (some w.item) + w.amt)
        let s := modTok h i (fun k => { k with sigs := k.sigs.drop 1, pairs := if past then k.pairs else addPair w.item w.amt k.pairs }) s
        drainSigs f h i (if past then sigFault w.who i w.item s else s |> sigDone w.who i w.item true |> serveToken h i)

/-- Tasks that `f` makes READY became READY in one clock (R262). -/
def oneClock (f : State → State) (s : State) : State :=
  let s' := f s
  if s'.stamp = s.stamp then s'
  else { s' with tasks := s'.tasks.map fun k => if s.stamp ≤ k.readyAt then { k with readyAt := s.stamp } else k }

/-- Serves a token's waiters and then lets held signals take the pairs that freed. -/
def settleToken (h i : Nat) (s : State) : State :=
  let s := oneClock (serveToken h i) s
  drainSigs ((tokOf s h i).elim 0 fun k => k.sigs.length) h i s

/-- What a signal answers: a status, or that it waits for a free pair. -/
inductive SigResult where
  | done (status : Nat)
  | waits
  deriving DecidableEq, Repr

/-- A signal to a token by `who` (R194, R195): its status, or that it waits for a free pair. A signal for an item that has ended, or
for an unissued ID, is discarded and counted. -/
def signal (h i amt : Nat) (item : Option Word) (who : Option Waiter) (s : State) : SigResult × State :=
  match tokOf s h i with
  | none => (.done Stat.ok, s)
  | some k =>
    if amt = 0 then (.done Stat.ok, s)
    else match item with
      | none =>
        if 65535 < k.count + amt then (.done Stat.tokenOverflow, s)
        else (.done Stat.ok, s |> modTok h i (fun k => { k with count := k.count + amt }) |> lowWater h i |> settleToken h i)
      | some id =>
        if (itemOf s id).isNone then (.done Stat.ok, modTok h i (fun k => { k with discarded := k.discarded + 1 }) s)
        else if !(pairRoom k id && (k.sigs.isEmpty || k.pairs.any fun p => p.1 == id)) then
          (.waits, modTok h i (fun k => { k with sigs := k.sigs ++ [{ who := who, amt := amt, item := id }] }) s)
        else if 65535 < drawn k item + amt then (.done Stat.tokenOverflow, s)
        else (.done Stat.ok, s |> modTok h i (fun k => { k with pairs := addPair id amt k.pairs }) |> settleToken h i)

/-- An engine job's signal of its token by one (R182, R245): a status other than OK first enters an empty status latch (R251). -/
def signalJob (h i status : Nat) (s : State) : State :=
  let s := if status = Stat.ok then s
           else modTok h i (fun k => if k.jobTmpl.isSome && k.latch == 0 then { k with latch := status } else k) s
  (signal h i 1 none none s).2

/-- A take returned at a restart (R514): OK, or TOKEN_OVERFLOW when a counting token would pass 65,535. -/
def giveBack (h i amt : Nat) (item : Option Word) (s : State) : Nat × State :=
  match tokOf s h i with
  | none => (Stat.ok, s)
  | some k =>
    match item with
    | none =>
      if 65535 < k.count + amt then (Stat.tokenOverflow, s)
      else (Stat.ok, s |> modTok h i (fun k => { k with count := k.count + amt }) |> lowWater h i |> settleToken h i)
    | some id =>
      if (itemOf s id).isNone then (Stat.ok, s)
      else if pairRoom k id then (Stat.ok, s |> modTok h i (fun k => { k with pairs := addPair id amt k.pairs }) |> settleToken h i)
      else
        let n := (k.sigs.filter fun w => w.who.isNone).length
        (Stat.ok, modTok h i (fun k => { k with sigs := k.sigs.take n ++ [{ who := none, amt := amt, item := id }] ++ k.sigs.drop n }) s)

/-- An item has committed or defaulted: in one token, its pair frees, its held signals are discarded and counted, and the waits on
it end (R195). -/
def closeInToken (id : Word) (h i : Nat) (s : State) : State :=
  match tokOf s h i with
  | none => s
  | some k =>
    if !k.tagged then s
    else
      let gone := k.sigs.filter fun w => w.item == id
      let ends := k.waiters.filter fun w => w.item == some id
      let s := modTok h i (fun k => { k with
        pairs := k.pairs.filter fun p => p.1 != id
        sigs := k.sigs.filter fun w => w.item != id
        waiters := k.waiters.filter fun w => w.item != some id
        discarded := k.discarded + (gone.filter fun w => w.who.isSome).length }) s
      let s := gone.foldl (fun s w => sigDone w.who i id true s) s
      let s := ends.foldl (fun s w =>
        match w.who with
        | .task t => takeClosed t i (some id) s
        | .pipe n => modPipe n (fun p => { p with serving := p.serving.map fun v => { v with waiting := false } }) s
        | .caddy _ => s
        | .neighbour _ => s) s
      drainSigs ((tokOf s h i).elim 0 fun k => k.sigs.length) h i s

/-- An item has committed or defaulted: every tagged token lets it go (R195). -/
def closeInTokens (id : Word) (s : State) : State :=
  oneClock (fun s => (s.tokens.map fun k => (k.handle, k.idx)).foldl (fun s k => closeInToken id k.1 k.2 s) s) s

/-- A task leaves every queue of waiters and held signals; younger waiters may then be served. -/
def dropWaits (t : TaskId) (s : State) : State :=
  let ks := (s.tokens.filter fun k => k.waiters.any fun w => w.who == .task t).map fun k => (k.handle, k.idx)
  let s := { s with
    tokens := s.tokens.map fun k => { k with waiters := k.waiters.filter fun w => w.who != .task t
                                             sigs := k.sigs.filter fun w => w.who != some (.task t) }
    clients := s.clients.map fun c => { c with stepBy := c.stepBy.filter fun x => x != t } }
  ks.foldl (fun s k => settleToken k.1 k.2 s) s

end Sys2Proof.Machine
end

