-- ==== Sys2Proof/Machine/Items.lean ====
section
/-! DEFINITION. The item ledger's operations (02_items_and_commit.md): opening an item, attaching fragments, accepting a commit or a
default with its digest (12_determinism.md), and what the end of an item does to its frames (R311), its tokens (R195) and its
reserved Caddy slots (R376). -/

namespace Sys2Proof.Machine

open Sys2Proof

/-! ## Sources -/

/-- ITM_SRC_CTL[n]. -/
def srcCtl (s : State) (n : Nat) : Nat := rd s (Reg.itmSrcCtl.off n 0)
/-- Source `n` is enabled. -/
def srcEn (s : State) (n : Nat) : Bool := bitOf (srcCtl s n) 0
/-- Source `n` is a host submission source. -/
def srcHost (s : State) (n : Nat) : Bool := bitOf (srcCtl s n) 1
/-- Its DIO input. -/
def srcDin (s : State) (n : Nat) : Nat := bits (srcCtl s n) 2 5
/-- Its opening edge: false rising, true falling. -/
def srcFalling (s : State) (n : Nat) : Bool := bitOf (srcCtl s n) 7
/-- Its position source. -/
def srcPos (s : State) (n : Nat) : Nat := bits (srcCtl s n) 8 3
/-- The load handle of its program. -/
def srcProg (s : State) (n : Nat) : Nat := bits (srcCtl s n) 24 8
/-- Its default output. -/
def srcOut (s : State) (n : Nat) : Nat := bits (srcCtl s n) 16 5

/-- Items in the ledger (ITM_INFLIGHT): OPEN, BOUND and COMMITTING ones. -/
def inflight (s : State) : Nat := s.led.items.length + (s.led.committing.filter (·.admitted)).length

/-- The program that a handle names as loaded: placed, not being unloaded. -/
def loadedProg (s : State) (h : Nat) : Option Program := s.progs.find? fun p => p.handle == h && !p.loading

/-- Changes an item that is OPEN or BOUND. -/
def modItem (id : Word) (f : Item → Item) (s : State) : State :=
  modLed (fun l => { l with items := updFirst (fun i => i.id == id) f l.items }) s

/-- The first input or fragment of an item: OPEN becomes BOUND. -/
def bindItem (id : Word) (s : State) : State := modItem id (fun i => { i with bound := true }) s

/-! ## Fragments -/

/-- Attaches a fragment to an item (R42, R43, R45). A task's fragment is pending (R44). -/
def attach (id : Word) (kind key origin : Nat) (payload : List Byte) (pend : Option TaskId) (issuer : TaskId) (s : State) :
    Nat × State :=
  if payload.isEmpty then (Stat.ok, s)
  else if 1016 < payload.length then (Stat.length, s)
  else if !itemIssued s id then (Stat.itemUnknown, s)
  else match itemOf s id with
    | none => (Stat.itemClosed, bump Reg.itmSnapCnt.base 5 s)
    | some i =>
      let s := if kind = 4 then modItem id (fun i => { i with sampleVoid := true }) s else s
      if 64 ≤ i.frags.length then
        (Stat.fragLimit, s |> modItem id (fun i => { i with fragRefused := true }) |> bump Reg.itmSnapCnt.base 6)
      else
        (Stat.ok, modItem id (fun i => { i with
          bound := true
          frags := i.frags ++ [{ kind := kind, key := key, origin := origin, payload := payload, pend := pend
                                 issuer := issuer, ord := i.nextOrd }]
          nextOrd := i.nextOrd + 1 }) s)

/-- The issuer that stands for a unit of the device. -/
def deviceId : TaskId := { handle := 0, tmpl := 0, inst := 0 }

/-- A device unit's attach: a refusal shows only in the counter and the flag (R43). -/
def attachDevice (id : Word) (kind key origin : Nat) (payload : List Byte) (s : State) : State :=
  (attach id kind key origin payload none deviceId s).2

/-- A task's pending fragments stop being pending: it reached a checkpoint, committed or ended (R44). -/
def settleFrags (t : TaskId) (s : State) : State :=
  modLed (fun l => { l with items := l.items.map fun i =>
    { i with frags := i.frags.map fun f => if f.pend == some t then { f with pend := none } else f } }) s

/-- A task's pending fragments are discarded and their places freed (R44). -/
def dropFrags (t : TaskId) (s : State) : State :=
  modLed (fun l => { l with items := l.items.map fun i => { i with frags := i.frags.filter fun f => f.pend != some t } }) s

/-! ## Samples -/

/-- The 32 bytes of a sample summary (R396). -/
def sampleSummary (source sample fmt status width lines crc : Nat) : List Byte :=
  leBytes 2 source ++ leBytes 2 sample ++ leBytes 1 fmt ++ leBytes 1 status ++ leBytes 2 width ++ leBytes 4 lines
    ++ leBytes 4 0 ++ leBytes 8 crc ++ leBytes 8 0

/-- A summary's entry for a sample list: its key and its hash. -/
def sampleRef (summary : List Byte) : SampleRef :=
  { source := leAt summary 0 2, sample := leAt summary 2 2, hash := BitVec.ofNat 256 (ofLe (shake256 summary 32)) }

/-- The order of a sample list: source, then sample, then hash (R399). -/
def sampleLt (a b : SampleRef) : Bool :=
  decide (a.source < b.source) || (a.source == b.source && (decide (a.sample < b.sample) ||
    (a.sample == b.sample && decide (a.hash.toNat < b.hash.toNat))))

/-- Puts a sample into a list in key order; the 64 lowest stay (R399). -/
def insertSample (x : SampleRef) : List SampleRef → List SampleRef
  | [] => [x]
  | y :: ys => if sampleLt x y then x :: y :: ys else y :: insertSample x ys

/-- A sample enters an item's list. -/
def addSample (x : SampleRef) (i : Item) : Item :=
  { i with samples := (insertSample x i.samples).take 64, sampleCount := i.sampleCount + 1 }

/-! ## Camera ports and their pipelines -/

/-- The register group of a port: index 0-11 is CXP[n], 12-15 AUX[n - 12]. -/
def portBase (p : Nat) : Nat := if p < 12 then Reg.cxpCtl.off p 0 else Reg.auxCtl.off (p - 12) 0
/-- CXP_CTL or AUX_CTL of a port. -/
def portCtl (s : State) (p : Nat) : Nat := rd s (portBase p)
/-- The port's status register. -/
def portStatus (p : Nat) : Nat := portBase p + 4
/-- Counts `n` in counter `i` of a port. -/
def portCount (p i n : Nat) (s : State) : State := count (portBase p + 0x80 + 4 * i) n s
/-- The port code (R291). -/
def portCode (p : Nat) : Nat := if p < 12 then p else p + 4
/-- The port index of a port code; 99 for a code that names no port. -/
def portIndex (code : Nat) : Nat := if code < 12 then code else if 16 ≤ code ∧ code < 20 then code - 4 else 99

/-- CXP[2m] and CXP[2m + 1] are ganged (R292). -/
def ganged (s : State) (m : Nat) : Bool := bitOf (portCtl s (2 * m)) 2

/-- The route that gives an AUX port to a freed pipeline: (pipeline, context) (R318, R319). -/
def routeOf (s : State) (aux : Nat) : Option (Nat × Nat) :=
  (List.range 6).findSome? fun m =>
    if !ganged s m then none
    else
      let r := rd s (Reg.ispRoute.off m 0)
      if bitOf r 0 && bits r 1 2 == aux then some (2 * m + 1, 0)
      else if bitOf r 4 && bits r 5 2 == aux then some (2 * m + 1, 1)
      else none

/-- The pipeline and context that a port feeds (R291, R292, R318). -/
def pipeOf (s : State) (p : Nat) : Nat × Nat :=
  if p < 12 then (p, 0)
  else match routeOf s (p - 12) with
    | some r => r
    | none => (12 + (p - 12) / 2, (p - 12) % 2)

/-- A context of a pipeline. -/
def ctxOf (s : State) (k c : Nat) : PipeCtx := (s.pipes.getD k Pipe.reset).ctxs.getD c PipeCtx.reset

/-- The output format of a parameter set; 0 for the built-in pass-through. -/
def outFmt (p : Option ParamSet) : Nat := p.elim 0 fun p => leAt p.block 0x59 1

/-- Sets a flag of the newest frame of a kind once, with the port's status flag that goes with it (R307, 09). -/
def frameStatusBit (flag : Nat) : Option Nat :=
  if flag < 5 then some (flag + 3) else if flag = 6 then some 9 else if flag = 7 then some 10 else none

/-- The frame that a port holds open. -/
def openFrameOf (s : State) (p : Nat) : Option Frame := ((s.ports.getD p Port.reset).frames).find? fun f => f.st == 1

/-- Changes the frame that a port holds open. -/
def modOpen (p : Nat) (f : Frame → Frame) (s : State) : State :=
  modPort p (fun q => { q with frames := updFirst (fun x => x.st == 1) f q.frames }) s

/-- The open frame meets the case of a flag: the flag is set, and the port's status flag the first time. -/
def flagFrame (p flag : Nat) (s : State) : State :=
  match openFrameOf s p with
  | none => s
  | some f =>
    if f.flags.testBit flag then s
    else
      let s := modOpen p (fun f => { f with flags := f.flags ||| 2 ^ flag }) s
      match frameStatusBit flag with
      | some b => setFlag (portStatus p) b s
      | none => s

/-- A frame of an item that has not opened yet; `skipped`: a trigger of the item has been skipped before (R300). -/
def newFrame (i : Item) (skipped : Bool) : Frame :=
  { item := i.id, no := 0, st := 0, area := false, gateItem := false, width := 0, fill := 0, maxLines := 0, fmt := 0, phase := 0
    openedAt := 0, deadline := i.deadline, posSrc := i.posSrc, sink := none, imgBegun := false, requested := 0, trainDone := false
    received := 0, delivered := 0, triggers := 0, dropAt := none, short := 0, long := 0, badfmt := 0, missed := 0
    flags := if skipped then 2 ^ 6 else 0, dropping := false, gateStop := 0, sampled := false, lines := [] }

/-- The configuration that a frame takes when it opens (R306), and its number. -/
def startFrame (p : Nat) (overlap : Bool) (f : Frame) (s : State) : State :=
  let b := portBase p
  let q := s.ports.getD p Port.reset
  let (t, s) := nextStamp s
  let f := { f with
    st := 1, no := q.nextNo, gateItem := bitOf (rd s b) 4, area := bitOf (rd s b) 5, width := rdF s (b + 0x10) 0 15
    fill := rdF s (b + 0x10) 16 16, maxLines := rdF s (b + 0x14) 0 24, fmt := rdF s (b + 0xC) 0 4, phase := rdF s (b + 0xC) 4 2
    openedAt := t, imgBegun := false, gateStop := signed 16 (rdF s (b + 0x18) 16 16) }
  let s := modPort p (fun q => { q with
    frames := (dropFirst (fun x => x.st == 0 && x.item == f.item) q.frames) ++ [f], nextNo := (q.nextNo + 1) % 2 ^ 32 }) s
  if overlap then flagFrame p 7 s else s

/-- A frame of an item opens, or waits for the older frame of the port to close (R304). -/
def openFrame (p : Nat) (i : Item) (s : State) : State :=
  let skipped := (s.ports.getD p Port.reset).skips.contains i.id
  let s := if skipped then s |> setFlag (portStatus p) 9 |> modPort p (fun q => { q with skips := q.skips.filter (· != i.id) }) else s
  if (openFrameOf s p).isSome then modPort p (fun q => { q with frames := q.frames ++ [newFrame i skipped] }) s
  else startFrame p false (newFrame i skipped) s

/-- The second port of a gang, which does nothing of its own (R292). -/
def gangHalf (s : State) (p : Nat) : Bool := decide (p < 12) && p % 2 == 1 && ganged s (p / 2)

/-- A port takes lines: enabled and linked, or with its pixel clock (R296, R297, R302). -/
def portUp (s : State) (p : Nat) : Bool :=
  coreUp s && bitOf (portCtl s p) 0 && !gangHalf s p &&
    (if p < 12 then rdF s (portBase p + 8) 0 2 == 2 else (s.ports.getD p Port.reset).pclk)

/-- The position at which the window of an item begins at a port under ITEM gating (R303). -/
def gateStart (s : State) (p : Nat) (i : Item) : Pos := i.openPos + BitVec.ofInt 48 (signed 16 (rdF s (portBase p + 0x18) 0 16))

/-- The position at which the window of a frame ends, once its item has its close position: by the offset that the frame opened with
(R306). -/
def gateEnd (f : Frame) (i : Item) : Option Pos := i.closePos.map fun c => c + BitVec.ofInt 48 f.gateStop

/-- The frame that has waited longest for the older one to close opens (R304). -/
def openWaiting (p : Nat) (s : State) : State :=
  if (openFrameOf s p).isSome then s
  else match (s.ports.getD p Port.reset).frames.find? fun f => f.st == 0 with
    | some f => startFrame p true f s
    | none => s

/-- The payload of a kind 0x03 fragment (R314). -/
def framePayload (s : State) (p : Nat) (f : Frame) : List Byte :=
  leBytes 1 (portCode p) ++ leBytes 1 (pipeOf s p).1 ++ leBytes 2 f.flags ++ leBytes 4 f.delivered ++ leBytes 4 f.received
    ++ leBytes 4 (if f.gateItem then 0 else f.triggers) ++ leBytes 4 (f.dropAt.getD f.received) ++ leBytes 4 f.short ++ leBytes 4 f.long
    ++ leBytes 4 f.badfmt ++ leBytes 4 f.missed ++ leBytes 4 0 ++ timeBytes s.tim.now

/-- Flags of R307 and R313: truncated to bad_fmt, link_lost, empty and closed_by_item. -/
def shapeFlags : Nat := 0x33F

/-- The pipeline has let an area frame go: with a flag of R307 or R313 it leaves no temporal reference behind (R322). -/
def spoilRef (p : Nat) (f : Frame) (s : State) : State :=
  if f.area && f.flags &&& shapeFlags != 0 then
    let (k, c) := pipeOf s p
    modPipe k (fun q => { q with ctxs := modAt c (fun x => { x with refOk := false }) q.ctxs }) s
  else s

/-- No line is expected any more for an item's triggers. -/
def dropRequests (p : Nat) (item : Word) (s : State) : State :=
  modPort p (fun q => { q with requests := (q.requests.map fun e => e.filter (· != item)).filter fun e => !e.isEmpty }) s

/-- The open frame of a port closes with further flags (R303, R307, R313, R314): the fragment where one is due, and the next waiting
frame opens. Lines that its triggers still ask for are given up, unless its item ended: then they arrive and are stray (R311). -/
def closeFrame (p : Nat) (flags : List Nat) (fragment : Bool) (s : State) : State :=
  match openFrameOf s p with
  | none => s
  | some f0 =>
    let s := (if f0.delivered = 0 then flags ++ [8] else flags).foldl (fun s b => flagFrame p b s) s
    let f := (openFrameOf s p).getD f0
    let s := if fragment && (bitOf (portCtl s p) 6 || f.flags != 0) then
               attachDevice f.item 3 (portCode p) 1 (framePayload s p f) s else s
    let s := if f.sink.isSome then spoilRef p f s else s
    let s := if flags.contains 9 then s else dropRequests p f.item s
    s |> modOpen p (fun f => { f with st := 2 }) |> portCount p 0 1 |> openWaiting p

/-- The window of the open frame under ITEM gating has ended at a position of its source (R303). -/
def gateOver (s : State) (p : Nat) (pos : Item → Pos) : Bool :=
  (openFrameOf s p).elim false fun f =>
    f.gateItem && (itemOf s f.item).elim false fun i => (gateEnd f i).elim false fun e => reached (pos i) e

/-- The frames under ITEM gating whose windows have ended at a position close, each letting the next one open (R303, R304). -/
def shutGates (p : Nat) (pos : Item → Pos) (s : State) : State :=
  (List.range ((s.ports.getD p Port.reset).frames.length + 1)).foldl (fun s _ => if gateOver s p pos then closeFrame p [] true s else s) s

/-- The items of a port's source whose window has begun and that have had no frame, oldest first. -/
def gateDue (s : State) (p : Nat) : List Item :=
  s.led.items.filter fun i =>
    i.src == bits (portCtl s p) 8 3 && reached (copyPos s i.posSrc) (gateStart s p i) && !(s.ports.getD p Port.reset).gated.contains i.id

/-- An item has had its frame. -/
def markGated (p : Nat) (i : Item) (s : State) : State :=
  modPort p (fun q => { q with gated := (q.gated.filter fun x => (itemOf s x).isSome) ++ [i.id] }) s

/-- The items of a port's source whose window has begun open their frames (R303, R304); a window that ended where the next one begins, or
before, has closed its frame first. -/
def gateOpen (p : Nat) (s : State) : State :=
  if !(portUp s p && bitOf (portCtl s p) 4) then s
  else (gateDue s p).foldl (fun s i => s |> shutGates p (fun _ => gateStart s p i) |> openFrame p i |> markGated p i) s

/-- Every port looks for windows that have begun, in ascending order (R303, R342). -/
def gateOpenAll (s : State) : State := (List.range 16).foldl (fun s p => gateOpen p s) s

/-- The window of an item has ended, by the offset that the port has now. -/
def windowOver (s : State) (p : Nat) (i : Item) : Bool :=
  i.closePos.elim false fun c => reached (copyPos s i.posSrc) (c + BitVec.ofInt 48 (signed 16 (rdF s (portBase p + 0x18) 16 16)))

/-- A port begins to take frames of its source: a window that is over has no frame (R297, R303). -/
def passGates (p : Nat) (s : State) : State :=
  if !(portUp s p && bitOf (portCtl s p) 4) then s
  else ((gateDue s p).filter (windowOver s p)).foldl (fun s i => markGated p i s) s

/-- The item of a frame ends while the frame is open (R311); a frame of the item that still waits to open never opens. -/
def closeFramesOf (id : Word) (s : State) : State :=
  (List.range 16).foldl (fun s p =>
    let s := modPort p (fun q => { q with frames := q.frames.filter (fun f => !(f.st == 0 && f.item == id))
                                          skips := q.skips.filter (· != id) }) s
    match openFrameOf s p with
    | some f => if f.item = id then closeFrame p [9] false s else s
    | none => s) s

/-- A sample enters the hash engine's work (R396, R402). -/
def queueSample (item : Word) (summary : List Byte) (s : State) : State :=
  modEng (fun e => { e with samples := e.samples ++ [{ item := item, summary := summary }] }) s

/-- The summaries of the frames of an item that are open, with status 0xFF (R396, R399): each frame once, so none whose sample the pipeline
has entered already. -/
def openSamples (s : State) (id : Word) : List SampleRef :=
  (List.range 16).filterMap fun p =>
    match openFrameOf s p with
    | some f =>
      if f.item = id ∧ f.sampled = false then
        let (k, c) := pipeOf s p
        let set := match (s.pipes.getD k Pipe.reset).serving with
          | some v => if v.port = p ∧ v.no = f.no then v.set else (ctxOf s k c).active
          | none => (ctxOf s k c).active
        some (sampleRef (sampleSummary (portCode p) 0 (outFmt set) 0xFF f.width 0 0))
      else none
    | none => none

/-! ## Reserved Caddy slots -/

/-- The payload of a kind 0x04 fragment (R374). -/
def voidPayload (item : Word) (sample source cause q slot batch : Nat) : List Byte :=
  leBytes 4 item.toNat ++ leBytes 4 sample ++ leBytes 1 source ++ leBytes 1 cause ++ leBytes 1 q ++ leBytes 1 slot
    ++ leBytes 4 batch

/-- A slot was voided or a sample refused (R374): CAD_STATUS flag 1, counter `c`, and the fragment. -/
def voidSample (c : Nat) (item : Word) (payload : List Byte) (s : State) : State :=
  s |> setFlag Reg.cadStatus.base 1 |> bump Reg.cadSnapCnt.base c |> attachDevice item 4 0 3 payload

/-- A sample that took no slot was refused as corrupt (R369, R374): the flag and the fragment, and no slot voided. -/
def refusedSample (item : Word) (payload : List Byte) (s : State) : State :=
  s |> setFlag Reg.cadStatus.base 1 |> attachDevice item 4 0 3 payload

/-- Voids the reserved samples of an item that reached its deadline (R376): slots not yet filled now, samples that have no slot yet when
they get one. -/
def voidReserved (id : Word) (s : State) : State :=
  let hit := fun (x : Slot) => x.item == id && !x.taken && !x.settled
  let frags := s.eng.caddy.flatMap fun c => c.batches.flatMap fun b =>
    (b.slots.zipIdx.filter fun x => hit x.1).map fun x => voidPayload id x.1.sample x.1.source Stat.itemClosed c.q x.2 b.no
  let s := modEng (fun e => { e with caddy := e.caddy.map fun c => { c with
    window := c.window.map fun w => if w.1 = id then (w.1, w.2.1, true) else w
    batches := c.batches.map fun b =>
      { b with slots := b.slots.map fun x => if hit x then { x with settled := true, status := Stat.itemClosed } else x } } }) s
  frags.foldl (fun s f => voidSample 2 id f s) s

/-! ## Acceptance -/

/-- The order of fragments in a record: kind, sort key, then attach order; in deterministic mode origin and issuer stand before the
attach order (R54, R390). -/
def fragKey (det : Bool) (f : Frag) : List Nat :=
  [f.kind, f.key] ++ (if det then [f.origin, f.issuer.tmpl, f.issuer.inst] else []) ++ [f.ord]

/-- Lexical order of two lists of numbers. -/
def lexLt : List Nat → List Nat → Bool
  | [], [] => false
  | [], _ :: _ => true
  | _ :: _, [] => false
  | x :: xs, y :: ys => decide (x < y) || (x == y && lexLt xs ys)

/-- Puts a fragment into an ordered list. -/
def insertFrag (det : Bool) (f : Frag) : List Frag → List Frag
  | [] => [f]
  | g :: gs => if lexLt (fragKey det f) (fragKey det g) then f :: g :: gs else g :: insertFrag det f gs

/-- Fragments in record order. -/
def sortFrags (det : Bool) (fs : List Frag) : List Frag := fs.foldl (fun l f => insertFrag det f l) []

/-- Deterministic mode is on (R385). -/
def detMode (s : State) : Bool := rdB s Reg.glbMode.base 0

/-- The digest message (R400, R401). -/
def digestMessage (p : Option Program) (det : Bool) (count : Nat) (hs : List SampleRef) : List Byte :=
  [0x50, 0x57, 0x4B, 0x44, 0x47, 0x01, 0x00, 0x00]
    ++ padTo 32 (p.elim [] (·.progHash)) ++ padTo 32 (p.elim [] (·.weightHash)) ++ leBytes 4 (b2n det) ++ leBytes 4 count
    ++ leBytes 8 (p.elim 0 fun p => p.seed.toNat) ++ hs.flatMap fun h => leBytes 32 h.hash.toNat

/-- What an accepted commit or default says (R48, R50). -/
structure Verdict where
  disp : Nat
  action : Nat
  out : Nat
  fire : Pos
  flags : Nat
  prog : Nat                -- the prog byte of the record
  by_ : Option Program      -- whose hashes and seed the digest takes
  admitted : Bool
  deriving DecidableEq, Repr

/-- A commit or default is accepted (R35, R46, R51, R54, R399): the sequence number is taken, the pending fragments are left out, the
digest is formed, the item leaves OPEN and BOUND for COMMITTING, and frames, tokens and waits let it go. -/
def acceptItem (i : Item) (v : Verdict) (s : State) : State :=
  let det := detMode s
  let frags := sortFrags det (i.frags.filter fun f => f.pend.isNone)
  let i' := (openSamples s i.id).foldl (fun i x => addSample x i) i
  let flags := v.flags ||| (if i.fragRefused then 2 ^ 5 else 0) ||| (if frags.any (fun f => f.kind == 3) then 2 ^ 6 else 0)
    ||| (if i.sampleVoid then 2 ^ 7 else 0) ||| (if det then 2 ^ 9 else 0)
  let seq := rdW s Reg.itmNextSeq.base
  let c : Commit :=
    { item := { i' with frags := frags, bound := true }
      disp := v.disp, action := v.action, flags := flags, seq := seq, prog := v.prog
      out := if v.action = 0 then 0 else v.out, firePos := if v.action = 0 then 0 else v.fire
      commitPos := copyPos s i.posSrc, commitTime := s.tim.now
      digest := shake256 (digestMessage v.by_ det i'.sampleCount i'.samples) 32, admitted := v.admitted }
  s |> wr Reg.itmNextSeq.base (seq.toNat + 1)
    |> modLed (fun l => { l with items := l.items.filter (fun x => x.id != i.id), committing := l.committing ++ [c]
                                 ended := { id := i.id, posSrc := i.posSrc, deadline := i.deadline } :: l.ended })
    |> closeFramesOf i.id
    |> closeInTokens i.id

/-- The fire position of a default or void (R50). -/
def defaultFire (s : State) (i : Item) : Pos :=
  let ref := match i.closePos with
    | some c => if bitOf (srcCtl s i.src) 15 then i.openPos + BitVec.ofInt 48 ((posDiff c i.openPos).fdiv 2) else i.openPos
    | none => i.openPos
  ref + BitVec.ofNat 48 (rd s (Reg.itmSrcDfire.off i.src 0))

/-- The ledger ends an item as DEFAULT or VOID (R37, R40, R50). Where the source's action field holds 3, which R591 keeps from an enabled
source only, the record carries action 3 and a fire is sent like any action but PASS (DESIGN CHOICE, log entry 93). -/
def endItem (i : Item) (disp flags : Nat) (admitted : Bool) (s : State) : State :=
  let void := disp == 4
  let action := if void then bits (srcCtl s i.src) 13 2 else bits (srcCtl s i.src) 11 2
  s |> bump Reg.itmSnapCnt.base (if void then 3 else 2)
    |> acceptItem i { disp := disp, action := action, out := srcOut s i.src, fire := defaultFire s i
                      flags := flags ||| (if void then 2 else 0), prog := 0, by_ := loadedProg s (srcProg s i.src)
                      admitted := admitted }
    |> voidReserved i.id

/-- Ends an item as at its deadline: BOUND as DEFAULT, OPEN as VOID (R37). -/
def defaultItem (i : Item) (flags : Nat) (s : State) : State := endItem i (if i.bound then 3 else 4) flags true s

/-- A stop of a program ends every OPEN or BOUND item of the sources bound to it, in ascending ID, with flag prog_stop; ITM_STATUS
flag 7 once (R40). The head of such a record flags prog_stop, and void where the item was OPEN, but not deadline (DESIGN CHOICE, log entry
94). -/
def endProgItems (h : Nat) (s : State) : State :=
  let is := s.led.items.filter fun i => srcProg s i.src == h
  let s := is.foldl (fun s i =>
    match itemOf s i.id with
    | some i => defaultItem i 8 s
    | none => s) s
  if is.isEmpty then s else setFlag Reg.itmStatus.base 7 s

/-! ## Opening -/

/-- The trains that an admitted open sends to the Kerb (R431, R432). -/
def trainsOf (s : State) (i : Item) : List KerbMsg :=
  s.plans.filterMap fun p =>
    let b := p.bytes
    if leAt b 0 1 = i.src ∧ (leAt b 2 1).testBit 0 = true ∧ leAt b 0x10 4 ≠ 0 then
      some { train := true, chan := leAt b 1 1, item := i.id, enc := i.posSrc, src := i.src
             target := i.openPos + BitVec.ofInt 48 (signed 32 (leAt b 4 4)), default_ := false, spacing := leAt b 0xC 2
             max := leAt b 0x10 4, stopOff := leAt b 8 4, ord := i.ord }
    else none

/-- Opens an item from source `n` (R32-R34, R36, R193, R432). -/
def openItem (n : Nat) (pos : Pos) (time : DevTime) (ord : Option Nat) (s : State) : State :=
  let id := rdW s Reg.itmNextId.base
  let i : Item :=
    { id := id, src := n, posSrc := srcPos s n, openPos := pos, openTime := time
      deadline := pos + BitVec.ofNat 48 (rd s (Reg.itmSrcDl.off n 0)), closePos := none, closeTime := DevTime.zero, bound := false
      frags := [], nextOrd := 0, fragRefused := false, sampleVoid := false, samples := [], sampleCount := 0, lastIn := none
      ord := ord }
  let full := decide (16384 ≤ inflight s)
  let s := s |> wr Reg.itmNextId.base (id.toNat + 1) |> bump Reg.itmSnapCnt.base 0
             |> modLed (fun l => { l with srcItem := upsert n id l.srcItem })
  if full then
    s |> setFlag Reg.itmStatus.base 0 |> bump Reg.itmSnapCnt.base 4 |> endItem i 3 4 false
  else
    let s := modLed (fun l => { l with items := l.items ++ [i] }) s
    match loadedProg s (srcProg s n) with
    | some p =>
      if p.stopped then s |> endItem i 4 8 true |> setFlag Reg.itmStatus.base 7
      else gateOpenAll { s with toKerb := s.toKerb ++ trainsOf s i }
    | none => s |> endItem i 4 8 true |> setFlag Reg.itmStatus.base 7

/-- The close edge of a source reaches Eboux: the most recently opened item of the source takes its close position and time, if its
record is not yet written and it has none (R35). -/
def closeItem (n : Nat) (pos : Pos) (time : DevTime) (s : State) : State :=
  match s.led.srcItem.lookup n with
  | none => s
  | some id =>
    let set := fun (i : Item) => if i.id = id ∧ i.closePos.isNone then { i with closePos := some pos, closeTime := time } else i
    modLed (fun l => { l with items := l.items.map set
                              committing := l.committing.map fun c => { c with item := set c.item } }) s

/-! ## Commits of programs -/

/-- The lead that the Kerb applies: min(round-half-even(max(v, 0) × latency), lead_max) (R425); `v` has 32 fraction bits. -/
def leadOf (s : State) (v : Int) (latency : Nat) : Nat :=
  min (divHalfEven (max v 0 * latency) (2 ^ 32)).toNat (rdF s Reg.krbCfg.base 16 16)

/-- The speed of a position source as Eboux knows it: the copy of the estimated speed, or one count per microsecond for the microsecond
position (DEDUCED, log entry 24). -/
def copySpeed (s : State) (src : Nat) : Int :=
  if src < 4 then (s.copies.getD src { pos := 0, vhat := 0, reverse := false, frac := 0 }).vhat else 2 ^ 32

/-- A commit of EJECT or DIVERT comes too late (R49). -/
def fireLate (s : State) (posSrc out : Nat) (fire : Pos) : Bool :=
  let lead := leadOf s (copySpeed s posSrc) (rdF s (Reg.krbOut.off out 0) 0 20)
  decide (posDiff (fire - BitVec.ofNat 48 lead) (copyPos s posSrc) < (rdF s Reg.itmCfg.base 0 16 : Int))

/-- The clock of the ACTIVE cores in 10 MHz units (R509: all take one point). -/
def coreFreq (s : State) : Nat :=
  match (List.range 17).find? fun n => (s.cores.getD n (TensorCore.idle 2 0)).st == 0 with
  | some n => rdF s (Reg.tcOpp.off n 0) 0 7
  | none => 0

/-- What the ledger keeps for the governor of an item that a program committed (R507): its reach, its tail and the clock; an item without
an input sample has neither. -/
def noteCommit (i : Item) (s : State) : State :=
  let s := modPwr (fun p => { p with sourceCommits := modAt i.src (· + 1) p.sourceCommits }) s
  match i.lastIn with
  | none => s
  | some (p, t) =>
    let g : GovCommit := { src := i.src, reach := posDiff i.deadline p
                           tailNs := (timeUnits s.tim.now - timeUnits t) / 2 ^ 32, freq := coreFreq s }
    modPwr (fun p => { p with commits := g :: p.commits }) s

/-- The ledger judges a program's commit (R48, R49): its status, and the state after it. -/
def commitItem (id : Word) (disp out : Nat) (fire : Pos) (p : Program) (mx : Bool) (s : State) : Nat × State :=
  if !itemIssued s id then (Stat.itemUnknown, s)
  else match itemOf s id with
    | none => (Stat.itemClosed, s)
    | some i =>
      if disp ≠ 0 ∧ fireLate s i.posSrc out fire = true then
        (Stat.fireLate, s |> setFlag Reg.itmStatus.base 8 |> bump Reg.itmSnapCnt.base 7)
      else
        (Stat.ok, s |> bump Reg.itmSnapCnt.base 1 |> noteCommit i
                    |> acceptItem i { disp := disp, action := disp, out := out, fire := fire
                                      flags := if mx then 2 ^ 8 else 0, prog := p.handle, by_ := some p, admitted := true })

end Sys2Proof.Machine
end

