-- ==== Sys2Proof/Machine/Tasks.lean ====
section
/-! DEFINITION. Tasks and cores (06_programs.md, 08_scheduling.md, 16_power_and_faults.md): checkpoints and restarts, faults and
program stops, fencing, and the frame of every command that drains faults which a served wait left behind. -/

namespace Sys2Proof.Machine

open Sys2Proof

/-! ## Cores -/

/-- A core; a FENCED one past the seventeenth. -/
def coreOf (s : State) (n : Nat) : TensorCore := s.cores.getD n (TensorCore.idle 2 0)

/-- The cores in ACTIVE, ascending. -/
def activeCores (s : State) : List Nat := (List.range 17).filter fun n => (coreOf s n).st == 0

/-- The core in SPARE. -/
def spareCore (s : State) : Option Nat := (List.range 17).find? fun n => (coreOf s n).st == 1

/-- A core is left by its task: it is idle, and a task that was to displace it is READY with no victim. -/
def freeCore (n : Nat) (s : State) : State :=
  modCore n (fun c => { c with phase := .idle, task := none, incoming := none, fresh := false, yielded := false }) s

/-- A task leaves the core it holds; passes of its whose residue check is open are checked there still (R139). -/
def leaveCore (t : TaskId) (s : State) : State :=
  match taskOf s t with
  | none => s
  | some k =>
    match k.core with
    | none => s
    | some n => s |> freeCore n |> modCore n (fun c => { c with stray := c.stray + k.passes }) |> modTask t fun k => { k with core := none }

/-- The core whose READY task `t` waits for a victim loses that claim. -/
def dropClaim (t : TaskId) (s : State) : State :=
  { s with cores := s.cores.map fun c => if c.incoming = some t then { c with incoming := none } else c }

/-- The event-ring ref and RAS_LAST record of a fault (16). -/
def rasLast (cls unit status : Nat) (s : State) : State := wr Reg.rasLast.base (cls + unit * 256 + status * 65536) s

/-! ## Checkpoints and restarts -/

/-- A checkpoint of a task (R44, R227, R513, R516): its state, with its pending fragments ended and its recovery record empty. -/
def checkpoint (t : TaskId) (s : State) : State :=
  s |> settleFrags t
    |> modTask t fun k => { k with ckpt := k.regs, rec_ := { sigs := 0, entries := [] }, match_ := { sigs := 0, entries := [] }
                                   poisoned := false }

/-- The entries of a recovery record that a restart matches; takes are given back instead (R514). -/
def notTake : RecEntry → Bool
  | .take .. => false
  | _ => true

/-- Gives the recorded takes back, the last first; false when a counting token would pass 65,535 (R514). -/
def giveBackAll (h : Nat) : List RecEntry → State → Bool × State
  | [], s => (true, s)
  | .take k amt item _ :: es, s =>
    let (st, s) := giveBack h k amt item s
    if st = Stat.ok then giveBackAll h es s else (false, s)
  | _ :: es, s => giveBackAll h es s

/-- A restart from the last checkpoint (R44, R128, R514): the record is applied, the pending fragments go, the task leaves its core and
is READY. False when a take could not be given back. -/
def restartTask (t : TaskId) (s : State) : Bool × State :=
  match taskOf s t with
  | none => (true, s)
  | some k =>
    let s := s |> dropWaits t |> dropFrags t |> leaveCore t
    let s := modTask t (fun k => { k with
      regs := keepLive k.ckpt, waits := [], served := false, passes := 0, due := none, atRound := false, held := none, saved := false, results := []
      match_ := { sigs := k.match_.sigs + k.rec_.sigs, entries := k.rec_.entries.filter notTake ++ k.match_.entries }
      rec_ := { sigs := 0, entries := [] } }) s
    let (good, s) := giveBackAll t.handle k.rec_.entries.reverse s
    (good, makeReady t s)

/-! ## Stops -/

/-- An instance ends (R40, R228, R259): it waits no more, its core is free, its pending fragments end. -/
def endTask (t : TaskId) (s : State) : State :=
  s |> dropWaits t |> dropClaim t |> leaveCore t |> settleFrags t
    |> modTask t fun k => { k with st := .ended, waits := [], passes := 0, due := none, held := none }

/-- A program stops (R40, R193): the open items of its sources end, also where it has stopped before and a source names it since (R209),
and its instances end at this boundary. -/
def stopProgram (h : Nat) (s : State) : State :=
  match progOf s h with
  | none => s
  | some p =>
    let s := endProgItems h s
    if p.stopped then s
    else
      let s := modProg h (fun p => { p with stopped := true }) s
      ((s.tasks.filter fun k => k.id.handle == h && k.st != .ended).map (·.id)).foldl (fun s t => endTask t s) s

/-- The program-stop event of a fault (R192). -/
def stopEvent (h tmpl inst core word status : Nat) (s : State) : State :=
  postEvent 7 1 h 0 status (leBytes 2 tmpl ++ leBytes 2 inst ++ leBytes 1 core ++ leBytes 4 word) s

/-- A fault stops a task's program (R191). -/
def faultStop (t : TaskId) (core word status : Nat) (s : State) : State :=
  s |> setFlag Reg.rasStatus.base 2 |> bump Reg.rasSnapCnt.base 3
    |> stopEvent t.handle t.tmpl t.inst core word status |> stopProgram t.handle

/-- A value of `w` bits that no rule states. -/
def freeBits (w : Nat) (s : State) : Nat × State := (Config.freeNat s.fresh % 2 ^ w, { s with fresh := s.fresh + 1 })

/-- A program whose cores_min is no longer met stops (R192, R210). No rule gives its event a core or a word offset. -/
def coresMinStops (s : State) : State :=
  ((s.progs.filter fun p => !p.stopped && !p.loading && decide ((activeCores s).length < p.coresMin)).map (·.handle)).foldl
    (fun s h =>
      let (core, s) := freeBits 8 s
      let (word, s) := freeBits 32 s
      s |> stopEvent h 0xFFFF 0xFFFF core word Stat.progStopped |> stopProgram h) s

/-! ## Faults of tasks -/

/-- A restart for POISON as host software sees it (16), with its row of R510. -/
def noteRestart (cls core : Nat) (s : State) : State :=
  s |> setFlag Reg.rasStatus.base 1 |> bump Reg.rasSnapCnt.base 1 |> bump Reg.rasSnapCnt.base 2
    |> rasLast cls core Stat.poison |> postEvent 0x10 2 core 0 0 []

/-- A task faults (R137, R142, R191, R516): POISON restarts it from its checkpoint unless it restarted for POISON and took no
checkpoint since; any other status stops its program. `q`: 0 scalar, 1 A, 2 V, 3 M, and 4 more for an error in the tile buffer, which is row 2
of R510 where another is row 4. No rule names a core for a task that has none. -/
def faultTask (t : TaskId) (status q word : Nat) (s : State) : State :=
  match taskOf s t with
  | none => s
  | some k =>
    let (n, s) := match k.core with
      | some n => (n, s)
      | none => freeBits 8 s
    let s := match k.core with
      | some n => s |> setFlag (Reg.seqStatus.off n 0) 0
                    |> wr (Reg.seqFault.off n 0) (status + q % 4 * 256 + (word % 2 ^ 22) * 1024)
      | none => s
    if status = Stat.poison ∧ k.poisoned = false then
      let (good, s) := s |> modTask t (fun k => { k with poisoned := true }) |> noteRestart (if q < 4 then 4 else 2) n |> restartTask t
      if good then s else faultStop t n word Stat.tokenOverflow s
    else faultStop t n word status s

/-- Takes the faults whose older instructions are all done (R137, R251). -/
def drainDue : Nat → State → State
  | 0, s => s
  | f + 1, s =>
    match s.tasks.find? fun k => k.due.isSome && k.waits.isEmpty && k.st != .ended with
    | none => s
    | some k =>
      match k.due with
      | some (status, q, word) =>
        drainDue f (s |> modTask k.id (fun k => { k with due := none }) |> faultTask k.id status q word)
      | none => s

/-! ## Fencing -/

/-- The ACTIVE cores by rank (R266): a spare that replaced a core stands in its place. -/
def rankedCores (s : State) : List Nat :=
  (List.range 17).filterMap fun r => (activeCores s).find? fun n => (coreOf s n).rank == r

/-- A core is fenced (R113, R511-R512, R515): it stops, the spare takes its place and its rank, its task restarts there or becomes
READY, and programs that need more cores stop. `writing`: it was writing a checkpoint, as in its saving phase it writes a save; the program
then stops. What the event says of a missing task, a missing spare and a word is free. -/
def fenceWhile (writing : Bool) (n cls status : Nat) (s : State) : State :=
  let c := coreOf s n
  if c.st ≠ 0 then s
  else
    let sp := spareCore s
    let t := c.task
    let saving := writing || c.phase == .saving
    let s := s |> freeCore n |> modCore n (fun c => { c with st := 2, gated := false, pendingFreq := none, wakePoint := none, stray := 0 })
               |> setFlag (Reg.tcStatus.off n 0) 4
    let s := match t with
      | some t => modTask t (fun k => { k with core := none }) s
      | none => s
    let s := match sp with
      | some m => modCore m (fun x => { x with st := 0, rank := c.rank, roused := true }) s
      | none => setFlag Reg.rbtStatus.base 1 s
    let (core, s) := match sp with
      | some m => (m, s)
      | none => freeBits 8 s
    let (who, s) := match t with
      | some t => (leBytes 1 t.handle ++ leBytes 2 t.tmpl ++ leBytes 2 t.inst, s)
      | none => takeFree 5 s
    let (word, s) := freeBits 32 s
    let s := s |> setFlag Reg.rasStatus.base 0 |> bump Reg.rasSnapCnt.base 0 |> rasLast cls n status |> postEvent 0x10 1 n 0 0 (who ++ leBytes 1 core)
    let s := match t with
      | none => s
      | some t =>
        if saving then faultStop t n word Stat.poison s
        else
          let (good, s) := restartTask t s
          if !good then faultStop t n word Stat.tokenOverflow s
          else
            let s := s |> setFlag Reg.rasStatus.base 1 |> bump Reg.rasSnapCnt.base 1
            match sp with
            | some m => s |> modCore m (fun x => { x with task := some t, phase := .recovering })
                          |> modTask t (fun k => { k with st := .running, core := some m })
            | none => s
    coresMinStops s

/-- A core is fenced that writes no checkpoint. -/
def fenceCore (n cls status : Nat) (s : State) : State := fenceWhile false n cls status s

/-- A residue, converter or parity error in a core fences it (R139-R141, R143): `flag` of TC_STATUS. A parity error sets its own flag alone, and
is not counted in TC_RESFAIL (DESIGN CHOICE, log entry 108). -/
def coreError (n flag : Nat) (s : State) : State :=
  if (coreOf s n).st ≠ 0 then s
  else
    let s := setFlag (Reg.tcStatus.off n 0) flag s
    let s := if flag = 0 then count (Reg.tcCnt.off n 4) 1 s else s
    fenceCore n 1 0 s

/-! ## The frame of every command -/

/-- No task is left with a fault that is still to be taken, but behind older instructions. -/
def clearDue (s : State) : State := { s with tasks := s.tasks.map fun k => if k.waits.isEmpty then { k with due := none } else k }

/-- What ends every command: the faults that served waits left behind are taken, and the registers that follow other state follow it. -/
def finish (s : State) : State := settle (clearDue (drainDue (2 * s.tasks.length) s))

/-- A command's effect on everything but the queue. -/
def run (f : State → State) (s : State) : Result := .next (setPending s.pending (finish (f (setPending [] s))))

/-- The same for a row of a unit that a system or power-on reset stops (R523). -/
def runWide (f : State → State) (s : State) : Result := run (fun s => if wideUp s then f s else s) s

end Sys2Proof.Machine
end

