-- ==== Sys2Proof/Machine/Issue.lean ====
section
/-! DEFINITION. What every sequencer row shares (04_tensor_cores.md, 07_instruction_reference.md): when a word is illegal (R216), the
guard (R218), the registers that are pending (R219), parking (R223, R259), the step from word to word with loops and rounds
(R225, R264), and how a row completes or faults (R137, R221). -/

namespace Sys2Proof.Machine

open Sys2Proof

/-! ## From word to word -/

/-- The template of a task. -/
def tmplOf (p : Program) (t : TaskId) : Template :=
  p.tmpls.getD t.tmpl { prologue := 0, roundStart := 0, roundEnd := 0, prio := 0, instances := 0, tbLive := 0, tbPeak := 0 }

/-- A word offset lies among the words of the instruction at `w`. -/
def coversWord (w n x : Nat) : Bool := decide (w ≤ x) && decide (x < w + n)

/-- What follows the instruction at `w` of `n` words that falls through, in a stack of loops: the innermost loop that it ends counts
down and repeats, or ends and lets the loop around it be asked (R225). -/
def afterLoops (w n : Nat) : List LoopFrame → TaskRegs → TaskRegs × Bool
  | [], r => ({ r with next := w + n, loops := [] }, true)
  | f :: fs, r =>
    if coversWord w n f.last then
      let c := r.lc.getD f.ctr 0 - 1
      let r := { r with lc := modAt f.ctr (fun _ => c) r.lc }
      if c = 0 then afterLoops w n fs r else ({ r with next := f.first, loops := f :: fs }, false)
    else ({ r with next := w + n, loops := f :: fs }, true)

/-- Control falls through the instruction at `next`: loops first, then the end of the round (R225, R264). True when a round ended. -/
def fallThrough (tm : Template) (n : Nat) (r : TaskRegs) : TaskRegs × Bool :=
  let w := r.next
  let (r', through) := afterLoops w n r.loops r
  if through && coversWord w n tm.roundEnd then ({ r' with next := tm.roundStart }, true) else (r', false)

/-- A branch to `target`: the loops whose bodies do not hold it end (R225). -/
def branchTo (target : Nat) (r : TaskRegs) : TaskRegs :=
  { r with next := target, loops := r.loops.dropWhile fun f => !(decide (f.first ≤ target) && decide (target ≤ f.last)) }

/-! ## Issue -/

/-- What an instruction works on: its core, the task there and its program, the task's registers with the operands as they were captured,
the word and its offset. `late`: it comes from its queue, decoded at `since` as a word that `ends` its round or does not. -/
structure Issue where
  n : Nat
  t : TaskId
  k : Task
  r : TaskRegs
  p : Program
  cr : CoreRun
  mismatch : Bool
  op : Nat
  i : Iw
  w : Nat
  late : Bool
  since : Nat
  ends : Bool

/-- The instruction's queue. -/
def Issue.q (x : Issue) : Nat := queueOf x.op x.i

/-- An instruction completes: its results, the step counter (R189, R221), and, where it has just been decoded, the next word `n` words
on. -/
def completeN (x : Issue) (n : Nat) (g : TaskRegs → TaskRegs) (s : State) : State :=
  let r := (taskOf s x.t).elim x.r (·.regs)
  let (r, ended) := if x.late then (r, x.ends) else fallThrough (tmplOf x.p x.t) n r
  let r := g { r with step := r.step + 1 }
  s |> modTask x.t (fun k => { k with regs := r, atRound := if x.late then k.atRound || ended else ended })
    |> modCore x.n (fun c => { c with fresh := false })

/-- An instruction completes and falls through to the next word. -/
def complete (x : Issue) (g : TaskRegs → TaskRegs) (s : State) : State := completeN x (wordsOfIw x.i) g s

/-- A branch completes. -/
def completeAt (x : Issue) (target : Nat) (g : TaskRegs → TaskRegs) (s : State) : State :=
  s |> modTask x.t (fun k => { k with regs := branchTo target (g { k.regs with step := k.regs.step + 1 }), atRound := false })
    |> modCore x.n (fun c => { c with fresh := false })

/-- An instruction begins to wait in queue `q` (R223), or enters it: a wait of the sequencer holds decode, and parks its task once its A and
V queues are empty (R259). -/
def beginWait (x : Issue) (q : Nat) (w : Wait) (s : State) : State :=
  if x.late then
    modTask x.t (fun k => { k with waits := k.waits ++ [{ q := q, word := x.w, w := w, since := x.since, ends := x.ends }] }) s
  else
    let (r, ended) := fallThrough (tmplOf x.p x.t) (wordsOfIw x.i) ((taskOf s x.t).elim x.r (·.regs))
    let (n, s) := nextStamp s
    s |> modTask x.t (fun k => { k with
          regs := r, atRound := false, waits := k.waits ++ [{ q := q, word := x.w, w := w, since := n, ends := ended }] })
      |> fun s => if q = 0 then modTask x.t (fun k => { k with st := heldState k }) s else s

/-- The waiting instructions that are older than an instruction. -/
def Issue.older (x : Issue) (k : Task) : List Waiting := k.waits.filter fun w => !x.late || decide (w.since < x.since)

/-- An instruction faults (R137): at once where no older one still waits. -/
def faultAt (x : Issue) (q status : Nat) (s : State) : State :=
  if ((taskOf s x.t).elim [] x.older).isEmpty && (taskOf s x.t).elim true (fun k => k.waits.isEmpty) then faultTask x.t status q x.w s
  else faultDue x.t (if x.late then x.since else s.stamp) status q x.w s

/-- A tile-buffer error of task `t` on core `n`: TC_STATUS flag, counter and, for an uncorrectable one, address and poison (R124). -/
def tileEcc (n : Nat) (t : TaskId) (h : EccHit) (s : State) : State :=
  if (taskOf s t).elim false (fun k => k.regs.tbPoison.contains h.word) then s
  else if h.double then
    s |> setFlag (Reg.tcStatus.off n 0) 2 |> count (Reg.tcCnt.off n 3) 1 |> wr (Reg.tcErrAddr.off n 0) (8 * h.word)
      |> modTask t (fun k => { k with regs := { k.regs with tbPoison := poisonAdd k.regs.tbPoison h.word } })
  else s |> setFlag (Reg.tcStatus.off n 0) 1 |> count (Reg.tcCnt.off n 2) 1

/-- The live set of a task is read, for a save or a checkpoint (R124, R128): SEC-DED acts on its words. -/
def readLive (n : Nat) (t : TaskId) (ecc : List EccHit) (s : State) : State :=
  match taskOf s t with
  | none => s
  | some k =>
    let hit := fun (h : EccHit) => (liveSet k.regs).any fun e => decide (e.1 < 8 * h.word + 8) && decide (8 * h.word < e.2)
    (ecc.filter hit).foldl (fun s h => tileEcc n t h s) s

/-- Uncorrectable tile-buffer errors fence the core when they reach the limit (R142). -/
def tbLimitHit (s : State) (n : Nat) : Bool :=
  let l := rdF s Reg.tcCfg.base 0 4
  l != 0 && decide (l ≤ ctrOf s (Reg.tcCnt.off n 3))

/-- A row reads runs of bytes of the tile buffer: SEC-DED acts on the words it touches (R124). What follows goes on with the task's
registers as they then stand. True when a run holds poison. -/
def readTile (x : Issue) (runs : List (Nat × Nat)) (s : State) : Bool × State :=
  let hit := fun (h : EccHit) => runs.any fun e => decide (e.1 < 8 * h.word + 8) && decide (8 * h.word < e.1 + e.2)
  let s := (x.cr.tb.filter hit).foldl (fun s h => tileEcc x.n x.t h s) s
  let r := (taskOf s x.t).elim x.r (·.regs)
  (runs.any fun e => tbHit r e.1 e.2, s)

/-- A task reads poison in its tile buffer (R142, row 2 of R510): it restarts, and the core is fenced at the limit. -/
def tilePoison (x : Issue) (q : Nat) (s : State) : State :=
  let s := faultAt x (q + 4) Stat.poison s
  if tbLimitHit s x.n then fenceCore x.n 2 Stat.poison s else s

/-- An armed replay stop holds decode back once its step count is decoded (R405). -/
def replayHolds (p : Program) (k : Task) : Bool :=
  match p.replay with
  | some r => r.task == k.id && decide (r.step ≤ k.regs.step + k.waits.length)
  | none => false

/-- Words of the instruction that stands at a word offset of a program's code: its L bit in the Square (R215). -/
def sizeAt (s : State) (p : Program) (w : Nat) : Nat := if bitOf (devLe s (p.codeBase + 8 * w) 2) 8 then 2 else 1

/-- Words that an instruction passes over when it does nothing: its own, and the body of a loop up to its last instruction (R218,
R225). -/
def skipWords (s : State) (p : Program) (w : Nat) (i : Iw) (u : Use) : Nat :=
  if u.skip = 0 then wordsOfIw i else u.skip + sizeAt s p (w + u.skip)

/-- Issues a word on a core (R132, R133, R218, R219, R223): it is passed over under a false guard, holds decode, begins, or enters its
queue. A word of the sequencer's own that may not begin yet holds decode. -/
def doIssue (u : Use) (op : Nat) (body : Issue → State → State) (cr : CoreRun) (mismatch : Bool) (i : Iw) (s : State) : State :=
  let c := coreOf s cr.n
  if c.st ≠ 0 ∨ c.phase ≠ .running then s
  else match c.task.bind (taskOf s) with
    | none => s
    | some k =>
      match progOf s k.id.handle with
      | none => s
      | some p =>
        let x : Issue := { n := cr.n, t := k.id, k := k, r := k.regs, p := p, cr := cr, mismatch := mismatch, op := op, i := i
                           w := k.regs.next, late := false, since := 0, ends := false }
        let hold := fun (s : State) => modTask k.id (fun k => { k with st := heldState k, held := some (op, i) }) s
        let go := fun (s : State) => modTask k.id (fun k => { k with st := .running, held := none }) s
        if heldByQ0 k || k.due.isSome || replayHolds p k then s
        else if cr.parity then coreError cr.n 3 s
        else if guardPending k i then hold s
        else if i.pe && (pOf k.regs i.pg == i.pn) then completeN x (skipWords s p x.w i u) id (go s)
        else if decodeHeld k u op i then hold s
        else if needsAll k op i && k.passes != 0 then s
        else if mayBegin k k.waits op i (capture k.regs) then body x (go s)
        else if queueOf op i = 0 then (if k.waits.isEmpty then s else hold s)
        else beginWait x (queueOf op i) (.queued { op := op, i := i, ops := capture k.regs, cr := cr, mismatch := mismatch }) (go s)

/-- A sequencer row: an illegal word is refused by name, any other is issued. -/
def issue (mn : String) (op : Nat) (body : Issue → State → State) (cr : CoreRun) (mismatch : Bool) (i : Iw) (s : State) : Result :=
  match useOf op i with
  | none => .refused (.illegalWord mn)
  | some u => if u.allows i then run (doIssue u op body cr mismatch i) s else .refused (.illegalWord mn)

/-! ## The recovery record -/

/-- Core `n` reads the live set of a task for a save or a checkpoint: uncorrectable errors in it that reach the limit fence the core while it
writes (R142, R512). False when they do. -/
def readForSave (n : Nat) (t : TaskId) (ecc : List EccHit) (s : State) : Bool × State :=
  let s' := readLive n t ecc s
  if ctrOf s' (Reg.tcCnt.off n 3) != ctrOf s (Reg.tcCnt.off n 3) && tbLimitHit s' n then (false, fenceWhile true n 2 Stat.poison s') else (true, s')

/-- An instruction's checkpoint (R227): the live set is read, and the instruction goes on unless that fences the core, which stops the
program (R512). -/
def takeCkpt (x : Issue) (f : State → State) (s : State) : State :=
  let (good, s) := readForSave x.n x.t x.cr.tb s
  if good then f (checkpoint x.t s) else s

/-- An instruction that would add a 65th entry to the recovery record is preceded by a checkpoint (R513); decode was held until older
instructions were done, as for `ctl.ckpt` (R227). One from its queue found its room when it was decoded. -/
def withRoomFor (x : Issue) (n : Nat) (f : State → State) (s : State) : State :=
  match taskOf s x.t with
  | none => s
  | some k => if x.late || recordRoom k n then f s else takeCkpt x (fun s => s |> bump Reg.rasSnapCnt.base 7 |> f) s

/-- The same for an instruction that adds one entry. -/
def withRoom (x : Issue) (f : State → State) (s : State) : State := withRoomFor x 1 f s

/-- Adds an entry to a task's recovery record. -/
def record (t : TaskId) (e : RecEntry) (s : State) : State :=
  modTask t (fun k => { k with rec_ := { k.rec_ with entries := k.rec_.entries ++ [e] } }) s

/-- The next entry of a kind that a restarted task still has to match, taken out of the list and back in the record (R514). -/
def matchEntry (t : TaskId) (sel : RecEntry → Bool) (s : State) : Option (RecEntry × State) :=
  match (taskOf s t).bind fun k => k.match_.entries.find? sel with
  | none => none
  | some e =>
    some (e, modTask t (fun k => { k with match_ := { k.match_ with entries := dropFirst sel k.match_.entries }
                                          rec_ := { k.rec_ with entries := k.rec_.entries ++ [e] } }) s)

/-- A global signal that took effect before the restart completes without effect (R514). -/
def matchSignal (t : TaskId) (s : State) : Option State :=
  match taskOf s t with
  | none => none
  | some k =>
    if k.match_.sigs = 0 then none
    else some (modTask t (fun k => { k with match_ := { k.match_ with sigs := k.match_.sigs - 1 }
                                            rec_ := { k.rec_ with sigs := k.rec_.sigs + 1 } }) s)

end Sys2Proof.Machine
end

