-- ==== Sys2Proof/Machine/SeqTile.lean ====
section
/-! DEFINITION. The tile instructions (07_instruction_reference.md, R231-R233) and the checks on tile extents that other units share
(R126, R129). -/

namespace Sys2Proof.Machine

open Sys2Proof

/-! ## Extents -/

/-- A descriptor that an operation refuses whole under the length rule (R126): its extent ends beyond the tile buffer, or its format code
is reserved. -/
def Tile.refused (t : Tile) : Bool := decide (tbBytes < t.stop) || (!t.wide && decide (0x10 ≤ t.fmt))

/-- A descriptor that may not be written through (R126): several rows that overlap. -/
def Tile.rowsMeet (t : Tile) : Bool := decide (1 < t.rows) && decide (t.stride < t.rowBytes)

/-- The first `n` rows of a descriptor as runs of bytes. -/
def Tile.runs (t : Tile) (n : Nat) : List (Nat × Nat) := (List.range n).map fun r => (t.row r, t.rowBytes)

/-- Some run touches a pinned extent (R129). -/
def runsPinned (r : TaskRegs) (runs : List (Nat × Nat)) : Bool := runs.any fun e => touchesPin r (e.1, e.1 + e.2)

/-- Writes rows into the tile buffer. -/
def putRuns (runs : List (Nat × List Byte)) (r : TaskRegs) : TaskRegs := runs.foldl (fun r e => tbWrite e.1 e.2 r) r

/-- A row that writes runs of the tile buffer: a word written in part is read first, so SEC-DED acts on it; true when one of them is
poisoned (R78, R124). -/
def writeHits (x : Issue) (runs : List (Nat × Nat)) (s : State) : Bool × State :=
  let hit := fun (h : EccHit) => runs.any fun e => partWord e.1 e.2 h.word
  let s := (x.cr.tb.filter hit).foldl (fun s h => tileEcc x.n x.t h s) s
  let r := (taskOf s x.t).elim x.r (·.regs)
  (runs.any fun e => poisonPart r.tbPoison e.1 e.2, s)

/-- An M instruction completes by writing runs of the tile buffer, or faults (R129, R142). -/
def storeRuns (x : Issue) (q : Nat) (runs : List (Nat × List Byte)) (s : State) : State :=
  let es := runs.map fun e => (e.1, e.2.length)
  if runsPinned x.r es then faultAt x q Stat.pinned s
  else
    let (bad, s) := writeHits x es s
    if bad then tilePoison x q s else complete x (putRuns runs) s

/-! ## Transfers -/

/-- A transfer's rows: tile offsets, and the Square addresses they pair with. Status OK when it may move bytes (R126, R144, R231, R232). -/
structure Transfer where
  status : Nat
  rows : List (Nat × Nat)     -- tile offset, Square address
  len : Nat                   -- bytes per row
  deriving DecidableEq, Repr

/-- A transfer that is refused. -/
def Transfer.bad (st : Nat) : Transfer := { status := st, rows := [], len := 0 }

/-- The transfer that a `tile.load` or `tile.store` names. Row addresses are modulo 2^40 (R220); the range runs from the lowest byte of the
rows to the highest. -/
def transferOf (x : Issue) (writes : Bool) (s : State) : Transfer :=
  let i := x.i
  let t := tdOf x.r i.fd
  let a := (aOf x.r i.fa + BitVec.ofInt 40 (sext i)).toNat
  let one := i.func.testBit 2
  let sc := (sOf x.r i.fc).toNat
  if t.empty then { status := Stat.ok, rows := [], len := 0 }
  else if t.refused || (writes && t.rowsMeet) then Transfer.bad Stat.length
  else if one && !i.func.testBit 1 && decide (t.rows ≤ sc) then Transfer.bad Stat.length
  else
    let n := if one then 1 else t.rows
    let step := if i.func.testBit 0 then (sOf x.r i.fb).toNat else t.rowBytes
    let addrs := (List.range n).map fun j => (a + j * step) % 2 ^ 40
    let first := addrs.foldl min a
    let stop := addrs.foldl max a + t.rowBytes
    if 0x20000000 ≤ a then Transfer.bad Stat.unmapped
    else if 0x20000000 < stop then Transfer.bad Stat.length
    else if !allocated s first (stop - first) then Transfer.bad Stat.unmapped
    else
      { status := Stat.ok, len := t.rowBytes
        rows := addrs.zipIdx.map fun e => (t.row (if one then (if i.func.testBit 1 then sc % t.rows else sc) else e.2), e.1) }

/-- A refused transfer faults; an unmapped one is also seen by the Square (R71). -/
def faultTransfer (x : Issue) (st : Nat) (s : State) : State :=
  faultAt x 3 st (if st = Stat.unmapped then noteUnmapped s else s)

/-- Reads rows of the Square; the first status that is not OK ends the read. -/
def readRows (ecc : List EccHit) (len : Nat) : List (Nat × Nat) → State → Nat × List (Nat × List Byte) × State
  | [], s => (Stat.ok, [], s)
  | e :: es, s =>
    let (a, s) := readMem e.2 len ecc s
    if a.status ≠ Stat.ok then (a.status, [], s)
    else
      let (st, rs, s) := readRows ecc len es s
      (st, (e.1, a.data) :: rs, s)

/-- Writes rows to the Square; a refused line ends the write (R233). -/
def writeRows (ecc : List EccHit) : List (Nat × List Byte) → State → Nat × State
  | [], s => (Stat.ok, s)
  | e :: es, s =>
    let (st, s) := writeAll e.1 e.2 ecc s
    if st ≠ Stat.ok then (st, s) else writeRows ecc es s

/-- TILE_LOAD (R231-R233). -/
def beginTileLoad (x : Issue) (s : State) : State :=
  let tr := transferOf x true s
  if tr.status ≠ Stat.ok then faultTransfer x tr.status s
  else if runsPinned x.r (tr.rows.map fun e => (e.1, tr.len)) then faultAt x 3 Stat.pinned s
  else
    let (st, rows, s) := readRows x.cr.sq tr.len tr.rows s
    if st ≠ Stat.ok then faultAt x 3 st s else storeRuns x 3 rows s

/-- TILE_LOAD. -/
def execTileLoad (core : CoreRun) (i : Iw) (s : State) : Result :=
  issue "TILE_LOAD" 0x10 beginTileLoad core false i s

/-- TILE_STORE (R135, R231-R233). -/
def beginTileStore (x : Issue) (s : State) : State :=
  let tr := transferOf x false s
  if tr.status ≠ Stat.ok then faultTransfer x tr.status s
  else
    let (bad, s) := readTile x (tr.rows.map fun e => (e.1, tr.len)) s
    if bad then tilePoison x 3 s
    else
      let (st, s) := writeRows x.cr.sq (tr.rows.map fun e => (e.2, tbRead x.r e.1 tr.len)) s
      if st ≠ Stat.ok then faultAt x 3 st s else complete x id s

/-- TILE_STORE. -/
def execTileStore (core : CoreRun) (i : Iw) (s : State) : Result :=
  issue "TILE_STORE" 0x11 beginTileStore core false i s

/-- TILE_COPY (R231): as if the source were read whole first. -/
def beginTileCopy (x : Issue) (s : State) : State :=
  let i := x.i
  let d := tdOf x.r i.fd
  let a := tdOf x.r i.fa
  if a.empty || d.empty then complete x id s
  else if a.refused || d.refused || d.rowsMeet || a.rowBytes != d.rowBytes || decide (d.rows < a.rows) then
    faultAt x 3 Stat.length s
  else
    let (bad, s) := readTile x (a.runs a.rows) s
    if bad then tilePoison x 3 s
    else storeRuns x 3 ((List.range a.rows).map fun r => (d.row r, tbRead x.r (a.row r) a.rowBytes)) s

/-- TILE_COPY. -/
def execTileCopy (core : CoreRun) (i : Iw) (s : State) : Result :=
  issue "TILE_COPY" 0x12 beginTileCopy core false i s

/-- TILE_FILL (R231). -/
def beginTileFill (x : Issue) (s : State) : State :=
  let i := x.i
  let d := tdOf x.r i.fd
  if d.empty then complete x id s
  else if d.refused || d.rowsMeet then faultAt x 3 Stat.length s
  else
    let pat := leBytes 8 (sOf x.r i.fa).toNat
    let row := ((List.replicate (d.rowBytes / 8 + 1) pat).flatten).take d.rowBytes
    storeRuns x 3 ((List.range d.rows).map fun r => (d.row r, row)) s

/-- TILE_FILL. -/
def execTileFill (core : CoreRun) (i : Iw) (s : State) : Result :=
  issue "TILE_FILL" 0x13 beginTileFill core false i s

end Sys2Proof.Machine
end

