-- ==== Sys2Proof/Machine/Jobs.lean ====
section
/-! DEFINITION. Engine jobs (R106, R242-R245, R346, R348): the queue of each kind, its tracker entries, taking a job to an engine and ending
it. -/

namespace Sys2Proof.Machine

open Sys2Proof

/-! ## Entries -/

/-- The job tracker entries of a kind (R106). -/
def jobShare (kind : Nat) : Nat :=
  match kind with
  | 0 => 2048
  | 1 => 2048
  | 2 => 1024
  | 3 => 4096
  | 4 => 2048
  | 5 => 1024
  | 6 => 1024
  | 7 => 1024
  | _ => 8192

/-- Engines of a kind (R16, 11): warp, region, sort, barcode, record, hash, check-value, Caddy, DMA channels. -/
def engCount (kind : Nat) : Nat :=
  match kind with
  | 0 => 4
  | 1 => 2
  | 2 => 2
  | 3 => 4
  | 4 => 2
  | 5 => 1
  | 6 => 4
  | 7 => 1
  | _ => 8

/-- The periodic scans hold their job entries (R381). -/
def periodicJobs (s : State) : List Job := s.eng.checks.filterMap (·.periodic)

/-- Entries of a kind in use. -/
def jobsInUse (s : State) (kind : Nat) : Nat :=
  (s.eng.jobs.filter fun j => j.kind == kind).length + (s.eng.running.filter fun r => r.job.kind == kind).length
    + (if kind = 6 then (periodicJobs s).length else 0)

/-- A job takes an entry at the end of its kind's queue (R243, R346). -/
def queueJob (kind : Nat) (desc : List Byte) (t : TaskId) (part : Nat) (s : State) : State :=
  let (n, s) := nextStamp s
  modEng (fun e => { e with jobs := e.jobs ++ [{ kind := kind, desc := desc, task := t, part := part, ord := n, at_ := s.tim.now }] }) s

/-- Where a kind's descriptor holds its job token (R178, R181, R246, R348). -/
def tokenAt (kind : Nat) : Nat := if kind = 8 then 2 else 0x30

/-- The job token of a descriptor. -/
def jobToken (kind : Nat) (desc : List Byte) : Nat := leAt desc (tokenAt kind) 2

/-- The token that a descriptor names is a job token of the task's template (R244). -/
def jobTokenOk (s : State) (t : TaskId) (kind : Nat) (desc : List Byte) : Bool :=
  match tokOf s t.handle (jobToken kind desc) with
  | some k => k.jobTmpl == some t.tmpl
  | none => false

/-! ## eng.enq -/

/-- A waiting `eng.enq` of a kind. -/
def isEnq (kind : Nat) : Wait → Bool
  | .enq k _ _ => k == kind
  | _ => false

/-- A task runs on its core: its queues are not stopped by a switch (R223). -/
def onCore (s : State) (k : Task) : Bool := k.core.elim false fun n => (coreOf s n).phase == .running

/-- The oldest task on its core whose `eng.enq` waits for an entry of a kind; one that is off its core waits again when it resumes (R223). -/
def oldestEnq (s : State) (kind : Nat) : Option (TaskId × Waiting) :=
  ((s.tasks.filter (onCore s)).filterMap fun k => (k.waits.find? fun w => isEnq kind w.w).map fun w => (k.id, w)).foldl
    (fun m x => match m with
      | some y => if x.2.since < y.2.since then some x else some y
      | none => some x) none

/-- A task's waiting `eng.enq` moves on to its next descriptor. -/
def advanceEnq (t : TaskId) (kind addr left : Nat) (s : State) : State :=
  modTask t (fun k => { k with waits := updFirst (fun w => isEnq kind w.w) (fun w => { w with w := .enq kind addr left }) k.waits
                               rec_ := { k.rec_ with entries := k.rec_.entries ++ [.enq kind] } }) s

/-- An entry of a kind is free: the oldest waiting `eng.enq` copies its next descriptor (R243). -/
def resumeEnq (kind : Nat) (s : State) : State :=
  if jobShare kind ≤ jobsInUse s kind then s
  else match oldestEnq s kind with
    | none => s
    | some (t, w) =>
      match w.w, progOf s t.handle with
      | .enq _ addr left, some p =>
        let (a, s) := readMem addr 64 [] s
        if a.status ≠ Stat.ok then failWait t (isEnq kind) a.status s
        else if !jobTokenOk s t kind a.data then failWait t (isEnq kind) Stat.badFormat s
        else
          let s := queueJob kind a.data t p.part s
          if left ≤ 1 then finishWait t (isEnq kind) id [.enq kind] s else advanceEnq t kind (addr + 64) (left - 1) s
      | _, _ => s

/-! ## Jobs on engines -/

/-- The job that an engine runs. -/
def runningOn (s : State) (kind eng : Nat) : Option Running := s.eng.running.find? fun r => r.job.kind == kind && r.eng == eng

/-- Changes the job that an engine runs. -/
def modRunning (kind eng : Nat) (f : Running → Running) (s : State) : State :=
  modEng (fun e => { e with running := updFirst (fun r => r.job.kind == kind && r.eng == eng) f e.running }) s

/-- A job's checks and work are over: its writes have completed with a status, and its end may follow (R245). -/
def jobDone (kind eng status : Nat) (s : State) : State := modRunning kind eng (fun r => { r with status := status, done := true }) s

/-- A job ends on its engine: its entry frees and its token is signalled by one (R182, R245, R251). -/
def endJob (kind eng : Nat) (s : State) : State :=
  match runningOn s kind eng with
  | none => s
  | some r =>
    s |> modEng (fun e => { e with running := dropFirst (fun x => x.job.kind == kind && x.eng == eng) e.running })
      |> signalJob r.job.task.handle (jobToken kind r.job.desc) r.status
      |> resumeEnq kind

end Sys2Proof.Machine
end

