-- ==== Sys2Proof/Machine/Sampling.lean ====
section
/-! DEFINITION. Where the geometry engines sample and how (R175, R176, R350-R352): crop positions, mesh and lens positions, bilinear and
bicubic weights, and the rounding of the sum. Positions are in 2^-16 pixels. -/

namespace Sys2Proof.Machine

open Sys2Proof

/-- A source image: width, height, channels, bytes of one element, bytes between rows, its address, its format code and whether a pixel
outside takes the nearest edge pixel. -/
structure Image where
  w : Nat
  h : Nat
  chans : Nat
  size : Nat
  stride : Nat
  addr : Nat
  fmt : Nat
  edge : Bool
  deriving DecidableEq, Repr

/-- The value of an element in a format of 05: an integer or a floating code. -/
def pixNum (fmt v : Nat) : Num :=
  match floatFmt fmt with
  | some f => f.decode v
  | none => match intFmt fmt with
    | some (w, sg) => Num.ofInt (laneInt w sg v) 0
    | none => Num.ofInt v 0

/-- An integer format of the engines: 8 or 16 bits. `u16` stands for the code 0x10, which no array format has. -/
def engInt (fmt : Nat) : Option (Nat × Bool) := if fmt = 0x10 then some (16, false) else intFmt fmt

/-- A result rounded once, half-even, to a format; an integer is clamped to its range (R176, R352). A NaN has no integer: that value is
free. -/
def roundOut (fmt : Nat) (x : Num) : Nat :=
  match floatFmt fmt with
  | some f => f.encode .even false x
  | none =>
    match engInt fmt with
    | none => 0
    | some (w, sg) =>
      match x with
      | .nan => Config.cvtInt 0x0D fmt 0x7FC00000 % 2 ^ w
      | .inf neg => wrapTo w (if neg then (intRange w sg).1 else (intRange w sg).2)
      | .fin n m e => narrow w sg true ((Num.toInt .even (.fin n m e)).getD 0)

/-- One tap of a sample: pixel column and row, none outside the image under the zero border, and its weight. -/
structure Tap where
  at_ : Option (Nat × Nat)
  weight : Int
  deriving DecidableEq, Repr

/-- A pixel index inside the image, or the nearest one under the edge border (R176). -/
def clampIdx (edge : Bool) (n : Nat) (i : Int) : Option Nat :=
  if 0 ≤ i ∧ i < n then some i.toNat else if edge then some (clampI 0 ((n : Int) - 1) i).toNat else none

/-- The taps of one sample: a column index and weight for each of the columns, and the same for rows. An image of width or height 0 has
no nearest edge pixel: its taps read 0 (DESIGN CHOICE, log entry 33). -/
def tapsOf (im : Image) (xs ys : List (Int × Int)) : List Tap :=
  ys.flatMap fun y => xs.map fun x =>
    { at_ := match clampIdx im.edge im.w x.1, clampIdx im.edge im.h y.1 with
        | some i, some j => if im.w = 0 ∨ im.h = 0 then none else some (i, j)
        | _, _ => none
      weight := x.2 * y.2 }

/-- Some tap of a sample lies outside the image. -/
def outsideTap (im : Image) (xs ys : List (Int × Int)) : Bool :=
  xs.any (fun x => decide (x.1 < 0) || decide ((im.w : Int) ≤ x.1)) || ys.any fun y => decide (y.1 < 0) || decide ((im.h : Int) ≤ y.1)

/-- The two taps of one axis in bilinear sampling, with weights of 16 fraction bits (R176). -/
def linearAxis (p : Int) : List (Int × Int) :=
  let i := p.fdiv 65536
  let f := p - i * 65536
  [(i, 65536 - f), (i + 1, f)]

/-- The Keys kernel with a = -0.5 for taps 0 to 3 where tap 1 lies `i`/1024 before the position, in units of 2^-31 (R352). -/
def keysExact (i tap : Nat) : Int :=
  let t : Int := i
  let o : Int := 1024
  match tap with
  | 0 => -t * t * t + 2 * t * t * o - t * o * o
  | 1 => 3 * t * t * t - 5 * t * t * o + 2 * o * o * o
  | 2 => -3 * t * t * t + 4 * t * t * o + t * o * o
  | _ => t * t * t - t * t * o

/-- The weight of one tap in units of 2^-14: exact where the kernel's value is a multiple of it, else one of its two neighbours, which
no rule chooses. -/
def keysRounded (i tap : Nat) : Int :=
  let v := keysExact i tap
  let q := v.fdiv (2 ^ 17)
  if q * 2 ^ 17 = v then q else q + (if Config.keysUp i tap then 1 else 0)

/-- The nearest of the four taps. -/
def keysNearest (i : Nat) : Nat := if i < 512 then 1 else 2

/-- The four weights of a fraction index: the nearest tap's weight makes the sum 2^14 (R352). -/
def keysWeights (i : Nat) : List Int :=
  let others := ((List.range 4).filter (· != keysNearest i)).map (keysRounded i)
  (List.range 4).map fun t => if t = keysNearest i then 2 ^ 14 - others.sum else keysRounded i t

/-- The four taps of one axis in bicubic sampling (R352). -/
def cubicAxis (p : Int) : List (Int × Int) :=
  let i := p.fdiv 65536
  let f := (p - i * 65536).toNat
  (keysWeights (f / 64)).zipIdx.map fun x => (i - 1 + (x.2 : Int), x.1)

/-- Where a tap's element of a channel lies. -/
def tapAddr (im : Image) (ch : Nat) (t : Nat × Nat) : Nat := im.addr + t.2 * im.stride + (t.1 * im.chans + ch) * im.size

/-- The value of a sample of one channel: the exact sum of its taps, scaled by 2^-scale. `get` reads an element. An infinite pixel whose
weight is 0 makes the sum NaN (DESIGN CHOICE, log entry 33). -/
def sumTaps (get : Nat → Num) (im : Image) (ch scale : Nat) (ts : List Tap) : Num :=
  Num.mul (ts.foldl (fun a t =>
    match t.at_ with
    | none => a
    | some p => Num.add a (Num.mul (get (tapAddr im ch p)) (Num.ofInt t.weight 0))) (.fin false 0 0)) (.fin false 1 (-(scale : Int)))

/-! ## Crops -/

/-- The position that output column (or row) `j` of `n` samples between two corners (R175). -/
def cropPos (c0 c1 : Int) (j n : Nat) : Int := c0 + ((2 * (j : Int) + 1) * (c1 - c0)).fdiv (2 * (n : Int)) - 0x8000

/-- A box lies wholly outside its image on one axis (R177). A box that only touches an edge of the image is outside, one of no width at 0
is not (DESIGN CHOICE, log entry 33). -/
def axisOutside (c0 c1 : Int) (n : Nat) : Bool :=
  let lo := min c0 c1
  let hi := max c0 c1
  decide ((n : Int) * 65536 ≤ lo) || decide (hi < 0) || (hi == 0 && decide (lo < 0))

/-! ## Meshes -/

/-- The blend of a cell's four vertices at `a`, `b` inside a cell of `cw` × `chh` (R350). -/
def meshBlend (v00 v10 v01 v11 : Int) (a b cw chh : Nat) : Int :=
  divHalfEven (v00 * ((cw - a) * (chh - b) : Nat) + v10 * (a * (chh - b) : Nat) + v01 * ((cw - a) * b : Nat) + v11 * (a * b : Nat))
    (cw * chh)

/-- Vertex (c, r) of a mesh block: its x and y (R350). -/
def meshVertex (m : List Byte) (cols c r : Nat) : Int × Int :=
  let o := 16 + 8 * (r * cols + c)
  (signed 32 (leAt m o 4), signed 32 (leAt m (o + 4) 4))

/-- The source position of frame coordinates (X, Y) in a mesh (R350). -/
def meshPos (m : List Byte) (x y : Nat) : Int × Int :=
  let cols := leAt m 0 2
  let cw := leAt m 4 2
  let ch := leAt m 6 2
  let c := min (x / cw) (cols - 2)
  let r := min (y / ch) (leAt m 2 2 - 2)
  let a := x - c * cw
  let b := y - r * ch
  let p00 := meshVertex m cols c r
  let p10 := meshVertex m cols (c + 1) r
  let p01 := meshVertex m cols c (r + 1)
  let p11 := meshVertex m cols (c + 1) (r + 1)
  (meshBlend p00.1 p10.1 p01.1 p11.1 a b cw ch, meshBlend p00.2 p10.2 p01.2 p11.2 a b cw ch)

/-! ## Lenses -/

/-- An FP32 value rounded half-even. -/
def f32 (x : Num) : Num := (vecFmt 0).decode (fput 0 x)

/-- The FP32 quotient, rounded once half-even. -/
def divF32 : Num → Num → Num
  | .nan, _ => .nan
  | _, .nan => .nan
  | .inf _, .inf _ => .nan
  | .inf n, .fin n' _ _ => .inf (n != n')
  | .fin n _ _, .inf n' => .fin (n != n') 0 0
  | .fin n m e, .fin n' m' e' =>
    if m' = 0 then (if m = 0 then .nan else .inf (n != n'))
    else
      let k := 64 + Nat.log2 m'
      let q := m * 2 ^ k / m'
      let r := m * 2 ^ k % m'
      f32 (.fin (n != n') (2 * q + (if r = 0 then 0 else 1)) (e - e' - k - 1))

/-- The FP32 number of a natural number. -/
def natF32 (n : Nat) : Num := f32 (.fin false n 0)

/-- The source position of frame coordinates (X, Y) through a lens block, as FP32 numbers (R351). -/
def lensNums (b : List Byte) (x y : Nat) : Num × Num :=
  let p := fun (i : Nat) => (vecFmt 0).decode (leAt b (4 * i) 4)
  let add := fun (u v : Num) => f32 (Num.add u v)
  let mul := fun (u v : Num) => f32 (Num.mul u v)
  let sub := fun (u v : Num) => f32 (Num.add u v.flip)
  let half : Num := .fin false 1 (-1)
  let two : Num := .fin false 1 1
  let xn := divF32 (sub (add (natF32 x) half) (p 2)) (p 0)
  let yn := divF32 (sub (add (natF32 y) half) (p 3)) (p 1)
  let r2 := add (mul xn xn) (mul yn yn)
  let k := add (natF32 1) (mul r2 (add (p 4) (mul r2 (add (p 5) (mul r2 (p 6))))))
  let xd := add (add (mul xn k) (mul (mul (mul two (p 7)) xn) yn)) (mul (p 8) (add r2 (mul (mul two xn) xn)))
  let yd := add (add (mul yn k) (mul (p 7) (add r2 (mul (mul two yn) yn)))) (mul (mul (mul two (p 8)) xn) yn)
  (add (mul (p 0) xd) (p 2), add (mul (p 1) yd) (p 3))

/-- A coordinate far outside every image, on one side. -/
def farOut (neg : Bool) : Int := if neg then -(2 ^ 40) else 2 ^ 40

/-- An FP32 coordinate in units of R175: one that is not finite, or beyond 2^15 pixels, lies outside the image (R351); on which side a
NaN lies is free. -/
def lensCoord (v : Num) : Int :=
  match v with
  | .nan => farOut (Config.cvtInt 0x0D 0x0E 0x7FC00000 % 2 == 1)
  | .inf n => farOut n
  | .fin n m e =>
    let i := (Num.toInt .even (.fin n m (e + 16))).getD 0
    if 2 ^ 31 < i ∨ i < -(2 ^ 31) then farOut n else i

end Sys2Proof.Machine
end

