-- ==== Sys2Proof/Machine/Engines.lean ====
section
/-! DEFINITION. What the job engines share (11_engines.md): which job an engine takes next (R346, R347, R365), how a descriptor is checked
(R245, R348), extents in the Square (R247, R353) and the drawing of sampled rows. -/

namespace Sys2Proof.Machine

open Sys2Proof

/-! ## Taking a job -/

/-- The engine group that holds the engines of a kind (R16). -/
def groupOfKind (kind : Nat) : Nat :=
  match kind with
  | 0 => 0
  | 1 => 1
  | 2 => 1
  | 7 => 1
  | 3 => 2
  | 4 => 2
  | _ => 3

/-- The operation code of a descriptor. -/
def opOf (d : List Byte) : Nat := leAt d 0 1

/-- The operations of a kind; any other code ends the job with BAD_FORMAT. -/
def kindOps (kind : Nat) : List Nat :=
  match kind with
  | 0 => [1, 2, 3]
  | 3 => [1, 2]
  | 6 => [1, 2, 3, 4, 5, 6]
  | 7 => [1, 2, 3]
  | _ => [1]

/-- The context that a job names, and whether no other job of that context may run beside it: it loads the context (R347), or it decodes
its stream (R365). -/
def jobCtx (j : Job) : Option (Nat × Bool) :=
  match j.kind with
  | 0 => if opOf j.desc = 2 then none else some (leAt j.desc 0x25 1, opOf j.desc == 3)
  | 3 => some (leAt j.desc 2 1, opOf j.desc == 2)
  | 4 => some (leAt j.desc 1 1, true)
  | 6 => some (leAt j.desc 1 1, opOf j.desc == 1)
  | _ => none

/-- Job `k` came before job `j` and keeps it from starting. -/
def blocks (k j : Job) : Bool :=
  k.kind == j.kind && decide (k.ord < j.ord) && k.task.handle == j.task.handle &&
    match jobCtx k, jobCtx j with
    | some a, some b => a.1 == b.1 && (a.2 || b.2)
    | _, _ => false

/-- Every job that has not ended: queued, running, or periodic. -/
def liveJobs (s : State) : List Job := s.eng.jobs ++ s.eng.running.map (·.job) ++ periodicJobs s

/-- A job stands behind the loader's in the queue of a check-value or hash engine (R381, R382). -/
def behindLoader (s : State) (j : Job) : Bool :=
  s.eng.loader.elim false fun l => decide (l.ord < j.ord) && ((j.kind == 6 && l.checks != 0) || (j.kind == 5 && l.hashes != 0))

/-- The job that the next free engine of a kind takes: the oldest that may start. -/
def nextJob (s : State) (kind : Nat) : Option Job :=
  s.eng.jobs.find? fun j => j.kind == kind && !behindLoader s j && !(liveJobs s).any fun k => blocks k j

/-- A job on the engine that took it. -/
def Running.start (eng : Nat) (j : Job) : Running :=
  { eng := eng, job := j, status := Stat.ok, done := false, cursor := 0, aux := [], held := [], current := [] }

/-- An engine takes the next job of its kind, where that job's operation is one of `ops` or none of the kind's, and `f` works on it
once it stands on the engine. -/
def takeOp (kind eng : Nat) (ops : List Nat) (f : Job → State → State) (s : State) : State :=
  if !groupUp s (groupOfKind kind) || engCount kind ≤ eng || (runningOn s kind eng).isSome then s
  else match nextJob s kind with
    | none => s
    | some j =>
      let known := (kindOps kind).contains (opOf j.desc)
      if known && !ops.contains (opOf j.desc) then s
      else
        let s := modEng (fun e => { e with jobs := dropFirst (fun x => x == j) e.jobs, running := e.running ++ [Running.start eng j] }) s
        if known then f j s else jobDone kind eng Stat.badFormat s

/-- The same with what the memories answer while `f` works. -/
def takeRun (kind eng : Nat) (ops : List Nat) (m : MemRun) (f : Job → State → State) (s : State) : State :=
  takeOp kind eng ops (fun j s => f j (seeEcc m.ecc s)) s

/-! ## Checks -/

/-- Every byte of a descriptor outside the listed fields (offset, size) is zero (R178, R181, R246, R348). -/
def descClean (fields : List (Nat × Nat)) (d : List Byte) : Bool :=
  (List.range 64).all fun i => fields.any (fun f => decide (f.1 ≤ i) && decide (i < f.1 + f.2)) || leAt d i 1 == 0

/-- What a job's start gives: a refusal by its fields, a no-op that ends with OK, a refusal by its geometry, or nothing: it runs. -/
def startStatus (fields : List (Bool × Nat)) (noop : Bool) (geometry : List (Bool × Nat)) : Option Nat :=
  match firstStatus fields with
  | some st => some st
  | none => if noop then some Stat.ok else firstStatus geometry

/-- Contexts that a job's program holds in a pool (R200, R347). -/
def poolCount (s : State) (h pool : Nat) : Nat := (progOf s h).elim 0 fun p => p.ctx.getD pool 0

/-- An extent of the Square: OK, LENGTH past its end, UNMAPPED outside allocated granules (R247, R353). -/
def sqExtent (s : State) (a n : Nat) : Nat :=
  if n = 0 then Stat.ok
  else if 0x20000000 ≤ a then Stat.unmapped
  else if 0x20000000 < a + n then Stat.length
  else if allocated s a n then Stat.ok else Stat.unmapped

/-- An extent of the Square or LPDDR-6. -/
def localExtent (s : State) (a n : Nat) : Nat :=
  if n = 0 then Stat.ok
  else match regionOf a with
    | .lpddr => if !memAwake s then Stat.unmapped else if a + n ≤ 0x2000000000 then Stat.ok else Stat.length
    | _ => sqExtent s a n

/-- A status that is not OK, as a condition with that status. -/
def bad (st : Nat) : Bool × Nat := (st != Stat.ok, st)

/-- Bytes from the first of `rows` rows to the end of the last. -/
def rowsExtent (rows stride rowBytes : Nat) : Nat := if rows = 0 ∨ rowBytes = 0 then 0 else (rows - 1) * stride + rowBytes

/-- Two extents share a byte. -/
def meets (a n b m : Nat) : Bool := n != 0 && m != 0 && decide (a < b + m) && decide (b < a + n)

/-! ## Drawing -/

/-- The taps of a pixel's columns and of its rows. -/
abbrev Point := List (Int × Int) × List (Int × Int)

/-- Some pixel that the taps read holds a poisoned word. -/
def pointsPoison (s : State) (im : Image) (ps : List Point) : Bool :=
  ps.any fun p => (tapsOf im p.1 p.2).any fun t => t.at_.elim false fun q => poisonHit s.sq.poison (tapAddr im 0 q) (im.chans * im.size)

/-- The bytes of one output row. -/
def pointsBytes (s : State) (im : Image) (fmt size scale : Nat) (ps : List Point) : List Byte :=
  ps.flatMap fun p => (List.range im.chans).flatMap fun ch =>
    leBytes size (roundOut fmt (sumTaps (fun a => pixNum im.fmt (devLe s a im.size)) im ch scale (tapsOf im p.1 p.2)))

/-- Writes `n` output rows from row `i` on; poison met in the source ends the drawing, and rows already written stay. -/
def drawRows (im : Image) (fmt size scale stride out : Nat) (row : Nat → List Point) : Nat → Nat → State → Nat × State
  | 0, _, s => (Stat.ok, s)
  | n + 1, i, s =>
    if pointsPoison s im (row i) then (Stat.poison, s)
    else
      let (st, s) := writeAll (out + i * stride) (pointsBytes s im fmt size scale (row i)) [] s
      if st = Stat.ok then drawRows im fmt size scale stride out row n (i + 1) s else (st, s)

/-- Pixels of an output for which a tap lies outside the image. -/
def borderCount (im : Image) (rows : Nat) (row : Nat → List Point) : Nat :=
  ((List.range rows).map fun i => ((row i).filter fun p => outsideTap im p.1 p.2).length).sum

end Sys2Proof.Machine
end

