-- ==== Sys2Proof/Machine/Geometry.lean ====
section
/-! DEFINITION. The warp engines (R349-R353), the region engines' crops (R175-R178) and the sort engines (R179-R181). -/

namespace Sys2Proof.Machine

open Sys2Proof

/-! ## Warp -/

/-- The format code of an element code: U8, U16, FP16, FP32 (R348). -/
def elemFmt (code : Nat) : Nat := match code with | 0 => 1 | 1 => 0x10 | 2 => 0x0B | _ => 0x0D

/-- Bytes of an element code. -/
def elemSize (code : Nat) : Nat := match code with | 0 => 1 | 1 => 2 | 2 => 2 | _ => 4

/-- The source of a warp descriptor (R349). -/
def warpImage (d : List Byte) : Image :=
  { w := leAt d 4 2, h := leAt d 6 2, chans := leAt d 0x24 1, size := elemSize (leAt d 1 1), stride := leAt d 0x10 4
    addr := leAt d 8 8, fmt := elemFmt (leAt d 1 1), edge := bitOf (leAt d 3 1) 1 }

/-- Bytes of a source image from its first to its last. -/
def imageBytes (im : Image) : Nat := rowsExtent im.h im.stride (im.w * im.chans * im.size)

/-- Bytes of a warp job's output. -/
def warpOut (d : List Byte) : Nat :=
  rowsExtent (leAt d 0x16 2) (leAt d 0x20 4) (leAt d 0x14 2 * leAt d 0x24 1 * elemSize (leAt d 2 1))

/-- Field checks that the warp jobs share; `ctx`: the job names a mesh context. -/
def warpFields (s : State) (j : Job) (ctx : Bool) : List (Bool × Nat) :=
  let d := j.desc
  [(!descClean [(0, 0x26), (0x28, 8), (0x30, 2), (0x34, 4)] d, Stat.badFormat),
   (ctx && decide (poolCount s j.task.handle 1 ≤ leAt d 0x25 1), Stat.badFormat)]

/-- The checks of a warp that draws (R349, R353). -/
def warpStart (s : State) (j : Job) (ctx : Bool) (more : List (Bool × Nat)) : Option Nat :=
  let d := j.desc
  let im := warpImage d
  let src := sqExtent s im.addr (imageBytes im)
  let out := sqExtent s (leAt d 0x18 8) (warpOut d)
  startStatus
    (warpFields s j ctx ++ [(decide (2 < leAt d 1 1) || decide (3 < leAt d 2 1) || im.chans == 0 || decide (4 < im.chans), Stat.badFormat)])
    (leAt d 0x14 2 == 0 || leAt d 0x16 2 == 0)
    ([(src == Stat.length || out == Stat.length, Stat.length), (meets im.addr (imageBytes im) (leAt d 0x18 8) (warpOut d), Stat.shape),
      bad src, bad out] ++ more)

/-- Draws a warp job's output from the source positions of its pixels (R352). -/
def warpDraw (eng : Nat) (d : List Byte) (posAt : Nat → Nat → Int × Int) (s : State) : State :=
  let im := warpImage d
  let cubic := bitOf (leAt d 3 1) 0
  let axis := fun (p : Int) => if cubic then cubicAxis (p - 0x8000) else linearAxis (p - 0x8000)
  let w := leAt d 0x14 2
  let h := leAt d 0x16 2
  let row := fun (i : Nat) => (List.range w).map fun j =>
    let p := posAt (leAt d 0x34 2 + j) (leAt d 0x36 2 + i)
    (axis p.1, axis p.2)
  let code := leAt d 2 1
  let (st, s) := drawRows im (elemFmt code) (elemSize code) (if cubic then 28 else 32) (leAt d 0x20 4) (leAt d 0x18 8) row h 0 s
  let s := if st = Stat.ok then s |> count (Reg.wrpSnapCnt.base + 4) (w * h) |> count (Reg.wrpSnapCnt.base + 16) (borderCount im h row) else s
  jobDone 0 eng st s

/-- The configuration block in a context. -/
def blockOf (s : State) (pool h c : Nat) : Option CtxBlock :=
  s.eng.blocks.find? fun b => b.pool == pool && b.handle == h && b.ctx == c

/-- Loads a configuration block into a context. -/
def setBlock (b : CtxBlock) (s : State) : State :=
  modEng (fun e => { e with blocks := (e.blocks.filter fun x => !(x.pool == b.pool && x.handle == b.handle && x.ctx == b.ctx)) ++ [b] }) s

/-- The largest frame coordinates of a job pass the mesh's end (R350); a context with no mesh covers nothing. -/
def meshShort (m : List Byte) (d : List Byte) : Bool :=
  decide ((leAt m 0 2 - 1) * leAt m 4 2 < leAt d 0x34 2 + leAt d 0x14 2 - 1) ||
  decide ((leAt m 2 2 - 1) * leAt m 6 2 < leAt d 0x36 2 + leAt d 0x16 2 - 1) || leAt m 0 2 == 0

/-- WARP_MESH_WARP (R349, R350, R352, R353). -/
def execWarpMeshWarp (eng : Nat) (m : MemRun) (s : State) : Result :=
  run (takeRun 0 eng [1] m fun j s =>
    let b := (blockOf s 1 j.task.handle (leAt j.desc 0x25 1)).elim [] (·.block)
    match warpStart s j true [(meshShort b j.desc, Stat.shape)] with
    | some st => jobDone 0 eng st s
    | none => warpDraw eng j.desc (meshPos b) s) s

/-- WARP_LENS_WARP (R349, R351-R353). -/
def execWarpLensWarp (eng : Nat) (m : MemRun) (s : State) : Result :=
  run (takeRun 0 eng [2] m fun j s =>
    let a := leAt j.desc 0x28 8
    match warpStart s j false [bad (localExtent s a 64)] with
    | some st => jobDone 0 eng st s
    | none =>
      let (r, s) := readMem a 64 [] s
      if r.status ≠ Stat.ok then jobDone 0 eng r.status s
      else if leAt r.data 36 28 ≠ 0 then jobDone 0 eng Stat.badFormat s
      else warpDraw eng j.desc (fun x y => let p := lensNums r.data x y; (lensCoord p.1, lensCoord p.2)) s) s

/-- The header of a mesh block is valid (R350). -/
def meshOk (h : List Byte) : Bool :=
  let within := fun (o hi lo : Nat) => decide (lo ≤ leAt h o 2) && decide (leAt h o 2 ≤ hi)
  within 0 129 2 && within 2 129 2 && within 4 4096 1 && within 6 4096 1 && leAt h 8 8 == 0

/-- WARP_LOAD_MESH (R347, R349, R350). -/
def execWarpLoadMesh (eng : Nat) (m : MemRun) (s : State) : Result :=
  run (takeRun 0 eng [3] m fun j s =>
    let a := leAt j.desc 0x28 8
    match startStatus (warpFields s j true) false [bad (localExtent s a 16)] with
    | some st => jobDone 0 eng st s
    | none =>
      let (h, s) := readMem a 16 [] s
      if h.status ≠ Stat.ok then jobDone 0 eng h.status s
      else if !meshOk h.data then jobDone 0 eng Stat.badFormat s
      else
        let n := 16 + 8 * (leAt h.data 0 2 * leAt h.data 2 2)
        if localExtent s a n ≠ Stat.ok then jobDone 0 eng (localExtent s a n) s
        else
          let (r, s) := readMem a n [] s
          if r.status ≠ Stat.ok then jobDone 0 eng r.status s
          else s |> setBlock { pool := 1, handle := j.task.handle, ctx := leAt j.desc 0x25 1, block := r.data }
                 |> setFlag Reg.wrpStatus.base 1 |> bump Reg.wrpSnapCnt.base 2 |> jobDone 0 eng Stat.ok) s

/-! ## Region -/

/-- Bytes of a pixel format of the region engines (R178). -/
def regionSize (fmt : Nat) : Nat := if fmt ≤ 1 then 1 else if fmt = 0x0B then 2 else 4

/-- The source of a region descriptor. -/
def regionImage (d : List Byte) : Image :=
  { w := leAt d 4 2, h := leAt d 6 2, chans := leAt d 0x22 1, size := regionSize (leAt d 1 1), stride := leAt d 0x10 4
    addr := leAt d 8 8, fmt := leAt d 1 1, edge := bitOf (leAt d 3 1) 0 }

/-- Bytes of one crop. -/
def cropBytes (d : List Byte) : Nat := leAt d 0x14 2 * leAt d 0x16 2 * leAt d 0x22 1 * regionSize (leAt d 2 1)

/-- The job's crops go to the Caddy. -/
def toCaddy (d : List Byte) : Bool := bitOf (leAt d 3 1) 1

/-- Box `b` of a box list. -/
def boxOf (boxes : List Byte) (b : Nat) : List Byte := (boxes.drop (32 * b)).take 32

/-- Corner `k` of a box: x0, y0, x1, y1. -/
def corner (box : List Byte) (k : Nat) : Int := signed 32 (leAt box (4 * k) 4)

/-- A box lies wholly outside the image (R177). -/
def boxOutside (d box : List Byte) : Bool :=
  axisOutside (corner box 0) (corner box 2) (leAt d 4 2) || axisOutside (corner box 1) (corner box 3) (leAt d 6 2)

/-- The status byte of a box. -/
def boxStatus (d box : List Byte) : Byte := if boxOutside d box then 1 else 0

/-- The samples of row `i` of a crop (R175, R176); a box wholly outside takes border values alone (R177), so that under the zero border
it is sampled past the image's reach. -/
def cropRow (d box : List Byte) (i : Nat) : List Point :=
  let w := leAt d 0x14 2
  let axis := fun (p : Int) => linearAxis (if boxOutside d box && !(regionImage d).edge then -131072 else p)
  (List.range w).map fun j =>
    (axis (cropPos (corner box 0) (corner box 2) j w), axis (cropPos (corner box 1) (corner box 3) i (leAt d 0x16 2)))

/-- Cuts and resizes one box to an address (R175-R177). -/
def drawCrop (d box : List Byte) (out : Nat) (s : State) : Nat × State :=
  let im := regionImage d
  let fmt := leAt d 2 1
  drawRows im fmt (regionSize fmt) 32 (leAt d 0x14 2 * im.chans * regionSize fmt) out (cropRow d box) (leAt d 0x16 2) 0 s

/-- What a box that has been cropped leaves: its status byte, counters and the flag of a box outside (R177). -/
def boxCropped (d box : List Byte) (b : Nat) (s : State) : State :=
  let s := s |> devPut (leAt d 0x34 4 + b) [boxStatus d box] |> bump Reg.roiSnapCnt.base 1
  if boxOutside d box then s |> setFlag Reg.roiStatus.base 1 |> bump Reg.roiSnapCnt.base 4 else s

/-- The crops of a job in box order, to the Square; poison met in the source ends the job, and a crop for an item past its deadline is
discarded (R19, log entry 97). -/
def cropAll (d boxes : List Byte) : Nat → Nat → State → Nat × State
  | 0, _, s => (Stat.ok, s)
  | n + 1, b, s =>
    let box := boxOf boxes b
    if lateItem s (BitVec.ofNat 32 (leAt box 0x10 4)) then cropAll d boxes n (b + 1) s
    else
    let (st, s) := drawCrop d box (leAt d 0x28 8 + b * leAt d 0x24 4) s
    if st = Stat.ok then cropAll d boxes n (b + 1) (boxCropped d box b s) else (st, s)

/-- The Caddy queue that takes a program's region jobs (R367). -/
def regionQueue (s : State) (h : Nat) : Option CaddyQ :=
  s.eng.caddy.find? fun c => c.handle == h && bitOf (leAt (c.nextCfg.getD c.cfg) 2 1) 1

/-- The checks of a region job (R177, R178, R367). -/
def regionStart (s : State) (j : Job) : Option Nat :=
  let d := j.desc
  let im := regionImage d
  let n := leAt d 0x20 2
  let out := if toCaddy d then 0 else rowsExtent n (leAt d 0x24 4) (cropBytes d)
  let fits := localExtent s (leAt d 0x28 8) out
  startStatus
    [(!descClean [(0, 0x23), (0x24, 0xC), (0x30, 2), (0x34, 4)] d || decide (4 ≤ leAt d 3 1), Stat.badFormat),
     (!([0, 1, 0x0B].contains (leAt d 1 1) && [0, 1, 0x0B, 0x0D].contains (leAt d 2 1)) || im.chans == 0 || decide (4 < im.chans), Stat.badFormat)]
    (n == 0 || leAt d 0x14 2 == 0 || leAt d 0x16 2 == 0)
    [(decide (4096 < n), Stat.shape), (toCaddy d && (regionQueue s j.task.handle).isNone, Stat.badFormat),
     (toCaddy d && (regionQueue s j.task.handle).elim false (fun c => decide (leAt (c.nextCfg.getD c.cfg) 4 4 < cropBytes d)), Stat.length),
     (fits == Stat.length, Stat.shape),
     (meets (leAt d 0x28 8) out im.addr (imageBytes im) || meets (leAt d 0x28 8) out (leAt d 0x18 8) (32 * n), Stat.shape),
     (meets (leAt d 0x34 4) n im.addr (imageBytes im) || meets (leAt d 0x34 4) n (leAt d 0x18 8) (32 * n), Stat.shape),
     bad (localExtent s im.addr (imageBytes im)), bad (localExtent s (leAt d 0x18 8) (32 * n)), bad fits, bad (sqExtent s (leAt d 0x34 4) n)]

/-- A reserved byte of a box entry is not zero (R178). -/
def boxesBad (n : Nat) (boxes : List Byte) : Bool := (List.range n).any fun b => leAt boxes (32 * b + 0x18) 8 != 0

/-- REGION_CROP (R175-R178): to the Square the job does all its crops; to the Caddy it holds its boxes, which take slots one by one. -/
def execRegionCrop (eng : Nat) (m : MemRun) (s : State) : Result :=
  run (takeRun 1 eng [1] m fun j s =>
    match regionStart s j with
    | some st => jobDone 1 eng st s
    | none =>
      let d := j.desc
      let n := leAt d 0x20 2
      let (r, s) := readMem (leAt d 0x18 8) (32 * n) [] s
      if r.status ≠ Stat.ok then jobDone 1 eng r.status s
      else if boxesBad n r.data then jobDone 1 eng Stat.badFormat s
      else if toCaddy d then modRunning 1 eng (fun x => { x with current := r.data }) s
      else
        let (st, s) := cropAll d r.data n 0 s
        jobDone 1 eng st s) s

/-! ## Sort -/

/-- A candidate of a sort: its score and its index. -/
abbrev Scored := Num × Nat

/-- Order of selection: score descending, then index ascending (R179). -/
def scoreBefore (a b : Scored) : Bool := Num.lt b.1 a.1 || (!Num.lt a.1 b.1 && decide (a.2 < b.2))

/-- Puts a candidate into the list selected so far, of at most `k`. -/
def selectScore (k : Nat) (l : List Scored) (x : Scored) : List Scored :=
  ((l.takeWhile fun y => scoreBefore y x) ++ x :: l.dropWhile fun y => scoreBefore y x).take k

/-- Bytes of a score. -/
def scoreSize (fmt : Nat) : Nat := if fmt = 0x0B ∨ fmt = 0x0C then 2 else 4

/-- The checks of a sort job (R180, R181). An output extent of the overlap test reaches for the min(K, N) entries that are written (DESIGN
CHOICE, log entry 34). -/
def sortStart (s : State) (j : Job) : Option Nat :=
  let d := j.desc
  let n := leAt d 4 4
  let k := min (leAt d 0x10 2) n
  let z := scoreSize (leAt d 1 1)
  let sc := leAt d 8 8
  let outN := if bitOf (leAt d 2 1) 1 then z * k else 0
  startStatus
    [(!descClean [(0, 3), (4, 14), (0x14, 0x1E)] d || decide (4 ≤ leAt d 2 1), Stat.badFormat),
     (!([0x0B, 0x0C, 0x0D, 0x0E].contains (leAt d 1 1)), Stat.badFormat)]
    false
    [(decide (4096 < leAt d 0x10 2) || decide (1048576 < n), Stat.shape),
     (meets sc (z * n) (leAt d 0x18 8) (4 * k) || meets sc (z * n) (leAt d 0x20 8) outN || (meets sc (z * n) (leAt d 0x28 8) 8 && k != 0), Stat.shape),
     bad (localExtent s (leAt d 0x28 8) 8), bad (if k = 0 then Stat.ok else localExtent s sc (z * n)), bad (localExtent s (leAt d 0x18 8) (4 * k)),
     bad (localExtent s (leAt d 0x20 8) outN)]

/-- The list that a sort selects from scores, and how many are NaN (R179). -/
def topK (fmt k : Nat) (threshold : Option Num) (scores : List Nat) : List Scored × Nat :=
  let xs := (scores.map (pixNum fmt)).zipIdx
  let good := xs.filter fun x => x.1 != .nan && threshold.elim true fun t => t != .nan && !Num.lt x.1 t
  (good.foldl (selectScore k) [], (xs.filter fun x => x.1 == .nan).length)

/-- Runs of writes in order, the first that is refused ending them. -/
def writeRuns (m : MemRun) : List (Nat × List Byte) → State → Nat × State
  | [], s => (Stat.ok, s)
  | (a, bs) :: r, s =>
    let (st, s) := runWrite m a bs s
    if st = Stat.ok then writeRuns m r s else (st, s)

/-- SORT_TOP_K (R179-R182). -/
def execSortTopK (eng : Nat) (m : MemRun) (s : State) : Result :=
  run (takeRun 2 eng [1] m fun j s =>
    match sortStart s j with
    | some st => jobDone 2 eng st s
    | none =>
      let d := j.desc
      let fmt := leAt d 1 1
      let z := scoreSize fmt
      let n := if leAt d 0x10 2 = 0 then 0 else leAt d 4 4
      let (r, s) := readMem (leAt d 8 8) (z * n) [] s
      if n ≠ 0 ∧ r.status ≠ Stat.ok then jobDone 2 eng r.status s
      else
        let scores := (List.range n).map fun i => leAt r.data (z * i) z
        let t := if bitOf (leAt d 2 1) 0 then some (pixNum fmt (leAt d 0x14 z)) else none
        let (sel, nans) := topK fmt (leAt d 0x10 2) t scores
        let (st, s) := writeRuns m
          ([(leAt d 0x18 8, sel.flatMap fun x => leBytes 4 x.2)]
            ++ (if bitOf (leAt d 2 1) 1 then [(leAt d 0x20 8, sel.flatMap fun x => leBytes z (scores.getD x.2 0))] else [])
            ++ [(leAt d 0x28 8, leBytes 4 sel.length ++ leBytes 4 nans)]) s
        s |> count (Reg.srtSnapCnt.base + 4) n |> count (Reg.srtSnapCnt.base + 8) nans |> count (Reg.srtSnapCnt.base + 16) sel.length
          |> (fun s => if nans = 0 then s else setFlag Reg.srtStatus.base 1 s) |> jobDone 2 eng st) s

end Sys2Proof.Machine
end

