-- ==== Sys2Proof/Machine/Barcode.lean ====
section
/-! DEFINITION. The barcode engines (R354-R360): profiles, decode jobs, the fragments of symbols and of searches that found none, budgets. A
running job counts its symbols in count 0. -/

namespace Sys2Proof.Machine

open Sys2Proof

/-! ## Profiles -/

/-- A profile block is valid (R355): nothing outside its fields, symbologies that exist, polarity and mirror in range. -/
def profileOk (b : List Byte) : Bool :=
  (List.range 44).all (fun i => leAt b (0x14 + i) 1 == 0) && decide (leAt b 0 2 < 2 ^ 11) && decide (leAt b 6 1 ≤ 2) && decide (leAt b 7 1 ≤ 1)

/-- A job's profile block; a context that holds none enables no symbology. -/
def profileOf (s : State) (j : Job) : List Byte := (blockOf s 2 j.task.handle (leAt j.desc 2 1)).elim [] (·.block)

/-- BARCODE_LOAD_PROFILE (R347, R355, R356). -/
def execBarcodeLoadProfile (eng : Nat) (m : MemRun) (s : State) : Result :=
  run (takeRun 3 eng [2] m fun j s =>
    let d := j.desc
    let a := leAt d 8 8
    match startStatus [(decide (poolCount s j.task.handle 2 ≤ leAt d 2 1), Stat.badFormat), (!descClean [(0, 0x25), (0x28, 10)] d, Stat.badFormat)]
        false [bad (localExtent s a 64)] with
    | some st => jobDone 3 eng st s
    | none =>
      let (r, s) := readMem a 64 [] s
      if r.status ≠ Stat.ok then jobDone 3 eng r.status s
      else if !profileOk r.data then jobDone 3 eng Stat.badFormat s
      else s |> setBlock { pool := 2, handle := j.task.handle, ctx := leAt d 2 1, block := r.data } |> jobDone 3 eng Stat.ok) s

/-! ## Decode jobs -/

/-- The item that a decode job's fragments go to. -/
def barItem (j : Job) : Word := BitVec.ofNat 32 (leAt j.desc 0x1C 4)

/-- Bytes of the image of a decode job. -/
def barImage (d : List Byte) : Nat := rowsExtent (leAt d 6 2) (leAt d 0x10 4) (leAt d 4 2 * (leAt d 1 1 + 1))

/-- The checks of a decode job (R356, R360); work for an item past its deadline is not started (R19, log entry 97). -/
def barcodeStart (s : State) (j : Job) : Option Nat :=
  let d := j.desc
  startStatus
    [(!descClean [(0, 0x25), (0x28, 10)] d, Stat.badFormat), (decide (poolCount s j.task.handle 2 ≤ leAt d 2 1), Stat.badFormat),
     (decide (1 < leAt d 1 1) || decide (16 < leAt d 0x24 1), Stat.badFormat)]
    (leAt d 0x24 1 == 0 || decide (leAt d 0x18 2 ≤ leAt d 0x14 2) || decide (leAt d 0x1A 2 ≤ leAt d 0x16 2))
    [(decide (leAt d 4 2 < leAt d 0x18 2) || decide (leAt d 6 2 < leAt d 0x1A 2), Stat.shape),
     bad (sqExtent s (leAt d 8 8) (barImage d)), bad (sqExtent s (leAt d 0x28 8) 16),
     (itemEnded s (barItem j) || lateItem s (barItem j), Stat.itemClosed)]

/-- BARCODE_DECODE (R354, R356, R357, R360): the search begins; what it finds arrives as symbols. Pixels that it meets may be
poisoned. -/
def execBarcodeDecode (eng : Nat) (m : MemRun) (s : State) : Result :=
  run (takeRun 3 eng [1] m fun j s =>
    match barcodeStart s j with
    | some st => jobDone 3 eng st s
    | none =>
      let d := j.desc
      let row := fun (i : Nat) => leAt d 8 8 + (leAt d 0x16 2 + i) * leAt d 0x10 4 + leAt d 0x14 2 * (leAt d 1 1 + 1)
      let hit := (List.range (leAt d 0x1A 2 - leAt d 0x16 2)).any fun i =>
        poisonHit s.sq.poison (row i) ((leAt d 0x18 2 - leAt d 0x14 2) * (leAt d 1 1 + 1))
      if hit then jobDone 3 eng Stat.poison s else modRunning 3 eng (fun r => { r with aux := [0] }) s) s

/-- An earlier-queued job for the same item has not ended (R359). -/
def barEarlier (s : State) (j : Job) : Bool :=
  (liveJobs s).any fun k => k.kind == 3 && opOf k.desc == 1 && decide (k.ord < j.ord) && barItem k == barItem j

/-- Attaches a barcode fragment: kinds 0x01 and 0x02 (R359). -/
def barAttach (j : Job) (kind : Nat) (payload : List Byte) (s : State) : State := (attach (barItem j) kind 0 2 payload none j.task s).2

/-- The first byte of what the engine holds back gives the fragment's kind. -/
def barFlushOne (j : Job) (s : State) (f : List Byte) : State := barAttach j (leAt f 0 1) (f.drop 1) s

/-- Attaches the fragments that an engine holds back. -/
def barFlush (eng : Nat) (s : State) : State :=
  match runningOn s 3 eng with
  | none => s
  | some r => modRunning 3 eng (fun r => { r with held := [] }) (r.held.foldl (barFlushOne r.job) s)

/-- A job's fragment attaches, or in deterministic mode is held until every earlier-queued job for the item has attached its own (R358,
R359). -/
def barFragment (eng kind : Nat) (payload : List Byte) (s : State) : State :=
  match runningOn s 3 eng with
  | none => s
  | some r =>
    let s := modRunning 3 eng (fun r => { r with held := r.held ++ [leBytes 1 kind ++ payload] }) s
    if detMode s && barEarlier s r.job then s else barFlush eng s

/-- The payload of a kind 0x01 fragment (R359). -/
def symbolPayload (y : Symbol) : List Byte :=
  let data := y.data.take 976
  let flags := y.flags % 16 / 4 * 4 + y.flags % 2 + (if 976 < y.data.length then 2 else 0)
  leBytes 1 y.code ++ leBytes 1 flags ++ leBytes 2 y.corrected ++ leBytes 2 data.length ++ leBytes 2 0 ++ padTo 32 y.corners ++ data

/-- A byte is a decimal digit. -/
def isDigit (b : Byte) : Bool := decide (0x30 ≤ b.toNat) && decide (b.toNat ≤ 0x39)

/-- A byte is a character of the standard set of Code 39: digits, capitals, space and - . $ / + %. -/
def isCode39 (b : Byte) : Bool :=
  isDigit b || (decide (0x41 ≤ b.toNat) && decide (b.toNat ≤ 0x5A)) || [0x20, 0x24, 0x25, 0x2B, 0x2D, 0x2E, 0x2F].contains b.toNat

/-- The limits of R354 on a symbol of a symbology. The digits of the EAN and UPC codes and the set of Code 39 are the symbologies' own
(PRESUMED, log entry 98); the linear codes correct nothing and are not mirrored. -/
def symbolLimits (y : Symbol) : Bool :=
  let n := y.data.length
  let digits := y.data.all isDigit
  let linear := y.corrected == 0 && !y.flags.testBit 0 && !y.flags.testBit 2
  (y.code == 0x0A || !y.flags.testBit 3) &&
  match y.code with
  | 1 | 2 => linear
  | 3 => linear && digits && n == 13
  | 4 => linear && digits && n == 8
  | 5 => linear && digits && n == 12
  | 6 => linear && digits && n == 8
  | 7 => linear && digits && n % 2 == 0 && decide (2 ≤ n) && decide (n ≤ 64)
  | 8 => linear && y.data.all isCode39
  | _ => true

/-- A symbol that a profile lets the engine decode (R354, R355). -/
def symbolAllowed (b : List Byte) (y : Symbol) : Bool :=
  decide (1 ≤ y.code) && decide (y.code ≤ 11) && bitOf (leAt b 0 2) (y.code - 1) && decide (leAt b 0x10 2 ≤ y.data.length)
    && (leAt b 0x12 2 == 0 || decide (y.data.length ≤ leAt b 0x12 2)) && (!y.flags.testBit 2 || leAt b 7 1 == 1) && symbolLimits y

/-- BARCODE_SYMBOL_DECODED (R358, R359): a symbol's decode completes; sym_max symbols end the job. -/
def execBarcodeSymbolDecoded (eng : Nat) (sym : Symbol) (s : State) : Result :=
  run (fun s =>
    match runningOn s 3 eng with
    | none => s
    | some r =>
      if !groupUp s 2 || r.done || opOf r.job.desc != 1 || !symbolAllowed (profileOf s r.job) sym then s
      else
        let n := r.aux.headD 0 + 1
        let s := s |> barFragment eng 1 (symbolPayload sym) |> modRunning 3 eng (fun r => { r with aux := [n] })
                   |> bump Reg.bcdSnapCnt.base 1 |> count (Reg.bcdSnapCnt.base + 16) sym.corrected
        if leAt r.job.desc 0x24 1 ≤ n then jobDone 3 eng Stat.ok s else s) s

/-- The budget of a job in the mode's unit: its own, its profile's, or BCD_CFG's (R355-R357). -/
def barBudget (s : State) (j : Job) : Nat :=
  let p := profileOf s j
  let pick := fun (a b : Nat) => if a = 0 then b else a
  pick (leAt j.desc 0x20 4) (if detMode s then pick (leAt p 0xC 4) (rdF s Reg.bcdCfg.base 16 16) else pick (leAt p 8 4) (rdF s Reg.bcdCfg.base 0 16))

/-- A job whose item has closed while it ran ends at this step: a multiple of 256 (R360). -/
def closedAt (s : State) (j : Job) (steps : Nat) : Bool := itemEnded s (barItem j) && steps != 0 && steps % 256 == 0

/-- The search of a job is over with `st`: the status of R358 and R360, the fragment of a search that decoded nothing, and the 16-byte
status (R356). -/
def barFinish (eng : Nat) (r : Running) (none_ steps us located : Nat) (s : State) : State :=
  let n := r.aux.headD 0
  let st := if r.done then r.status else if closedAt s r.job steps then Stat.itemClosed else if n ≠ 0 then Stat.ok else none_
  let s := if st = none_ ∧ !bitOf (leAt r.job.desc 3 1) 0 then
             barFragment eng 2 (leBytes 1 none_ ++ leBytes 1 (min located 255) ++ leBytes 2 0 ++ leBytes 4 steps) s else s
  let (w, s) := writeAll (leAt r.job.desc 0x28 8) (leBytes 1 st ++ leBytes 1 n ++ leBytes 2 0 ++ leBytes 4 steps ++ leBytes 4 us ++ leBytes 4 0) [] s
  jobDone 3 eng (if st = Stat.ok then w else st) s

/-- BARCODE_BUDGET_EXPIRY (R357, R358, R360): a step boundary at which the job has used its budget, or finds its item closed at a
multiple of 256 steps. -/
def execBarcodeBudgetExpiry (eng : Nat) (steps us located : Nat) (s : State) : Result :=
  run (fun s =>
    match runningOn s 3 eng with
    | none => s
    | some r =>
      if !groupUp s 2 || r.done || opOf r.job.desc != 1 then s
      else if closedAt s r.job steps then
        s |> barFinish eng r 0x41 steps us located |> modRunning 3 eng fun r => { r with cursor := 1 }
      else if (if detMode s then steps else us) < barBudget s r.job then s
      else s |> setFlag Reg.bcdStatus.base 0 |> barFinish eng r 0x41 steps us located
             |> modRunning 3 eng fun r => { r with cursor := 1 }) s

end Sys2Proof.Machine
end

