-- ==== Sys2Proof/Machine/Checks.lean ====
section
/-! DEFINITION. The check-value units (R377-R381), the hash engine (R382, R402) and the DMA channels (R246-R248). -/

namespace Sys2Proof.Machine

open Sys2Proof

/-! ## Check-value contexts -/

/-- A context that nothing has configured: algorithm 0 with the running value 0 (DESIGN CHOICE, log entry 31). -/
def CheckCtx.fresh (h c : Nat) : CheckCtx :=
  { handle := h, ctx := c, alg := 0, width := 32, refl := 3, init := 0xFFFFFFFF, poly := 0x1EDC6F41, xor_ := 0xFFFFFFFF, value := 0, periodic := none }

/-- A context of a program. -/
def checkOf (s : State) (h c : Nat) : CheckCtx := (s.eng.checks.find? fun x => x.handle == h && x.ctx == c).getD (CheckCtx.fresh h c)

/-- Sets a context. -/
def setCheck (x : CheckCtx) (s : State) : State :=
  modEng (fun e => { e with checks := (e.checks.filter fun y => !(y.handle == x.handle && y.ctx == x.ctx)) ++ [x] }) s

/-- A context configured for an algorithm (R377, R378); its running value is the initial one. -/
def configured (x : CheckCtx) (d : List Byte) : CheckCtx :=
  let w := leAt d 5 1
  let y := match leAt d 4 1 with
    | 0 => { CheckCtx.fresh x.handle x.ctx with alg := 0 }
    | 1 => { CheckCtx.fresh x.handle x.ctx with alg := 1, poly := 0x04C11DB7 }
    | 2 => { x with alg := 2, width := 64, refl := 0, init := 0, poly := 0x42F0E1EBA9EA3693, xor_ := 0 }
    | 3 => { x with alg := 3, width := 32, refl := 0, init := 1, poly := 0, xor_ := 0 }
    | _ => { x with alg := 4, width := w, refl := leAt d 6 1 % 4, init := leAt d 0x18 8 % 2 ^ w, poly := leAt d 0x20 8 % 2 ^ w
                    xor_ := leAt d 0x28 8 % 2 ^ w }
  { y with value := y.init, periodic := x.periodic }

/-- One byte into the internal register of a CRC (R379): the register runs unreflected, the byte enters reflected where configured. -/
def crcFeed (x : CheckCtx) (reg : Nat) (b : Byte) : Nat :=
  (List.range 8).foldl (fun r i => crcBitN x.width x.poly r (b.toNat.testBit (if x.refl.testBit 0 then i else 7 - i))) reg

/-- One byte into Adler-32, whose value is b × 2^16 + a (R379). -/
def adlerFeed (v : Nat) (b : Byte) : Nat :=
  let a := (v % 65536 + b.toNat) % 65521
  (v / 65536 + a) % 65521 * 65536 + a

/-- The running value after more bytes. -/
def feedAll (x : CheckCtx) (v : Nat) (bs : List Byte) : Nat := if x.alg = 3 then bs.foldl adlerFeed v else bs.foldl (crcFeed x) v

/-- The finished value of a running value (R379). -/
def finished (x : CheckCtx) (v : Nat) : Nat :=
  if x.alg = 3 then v else (if x.refl.testBit 1 then revBits x.width v else v) ^^^ x.xor_

/-- A compare failed (R380). -/
def noteMismatch (h ctx addr len : Nat) (s : State) : State :=
  s |> setFlag Reg.crcStatus.base 0 |> bump Reg.crcSnapCnt.base 1
    |> postEvent 0x0A (Config.checkEventCode % 65536) h 0 0 (leBytes 1 ctx ++ leBytes 8 addr ++ leBytes 8 len)
    |> fun s => if rdB s Reg.crcCfg.base 8 then raiseVec (rdF s Reg.crcCfg.base 0 6) s else s

/-- The field checks of every check-value job; `fields` are its operation's own (R378). -/
def checkFields (s : State) (j : Job) (fields : List (Nat × Nat)) : List (Bool × Nat) :=
  [(!descClean ([(0, 2), (0x30, 2)] ++ fields) j.desc, Stat.badFormat), (decide (poolCount s j.task.handle 5 ≤ leAt j.desc 1 1), Stat.badFormat)]

/-- The context that a job names. -/
def jobCheck (s : State) (j : Job) : CheckCtx := checkOf s j.task.handle (leAt j.desc 1 1)

/-- CRC_CONFIGURE (R347, R378). -/
def execCrcConfigure (eng : Nat) (s : State) : Result :=
  run (takeOp 6 eng [1] fun j s =>
    let d := j.desc
    match startStatus (checkFields s j [(4, 3), (0x18, 0x18)] ++
        [(decide (4 < leAt d 4 1), Stat.badFormat),
         (leAt d 4 1 == 4 && (decide (leAt d 5 1 < 8) || decide (64 < leAt d 5 1)), Stat.badFormat)]) false [] with
    | some st => jobDone 6 eng st s
    | none => s |> setCheck (configured (jobCheck s j) d) |> jobDone 6 eng Stat.ok) s

/-- CRC_SCAN (R378-R380). -/
def execCrcScan (eng : Nat) (m : MemRun) (s : State) : Result :=
  run (takeRun 6 eng [2] m fun j s =>
    let d := j.desc
    let f := leAt d 2 1
    let a := leAt d 8 8
    let n := leAt d 0x10 8
    match startStatus (checkFields s j [(2, 1), (8, 0x20)]) (n == 0)
        [bad (localExtent s a n), bad (if bitOf f 2 then localExtent s (leAt d 0x20 8) 8 else Stat.ok)] with
    | some st => jobDone 6 eng st s
    | none =>
      let (r, s) := readMem a n [] s
      if r.status ≠ Stat.ok then jobDone 6 eng r.status s
      else
        let x := jobCheck s j
        let v := feedAll x (if bitOf f 0 then x.init else x.value) r.data
        let s := s |> setCheck { x with value := v } |> bump Reg.crcSnapCnt.base 0 |> count (Reg.crcSnapCnt.base + 8) n
        let (w, s) := if bitOf f 2 then writeAll (leAt d 0x20 8) (leBytes 8 v) [] s else (Stat.ok, s)
        if bitOf f 1 && finished x v != leAt d 0x18 8 then s |> noteMismatch j.task.handle (leAt d 1 1) a n |> jobDone 6 eng 0x42
        else jobDone 6 eng w s) s

/-- CRC_SET_VALUE (R378, R379). -/
def execCrcSetValue (eng : Nat) (s : State) : Result :=
  run (takeOp 6 eng [3] fun j s =>
    match startStatus (checkFields s j [(0x18, 8)]) false [] with
    | some st => jobDone 6 eng st s
    | none =>
      let x := jobCheck s j
      s |> setCheck { x with value := leAt j.desc 0x18 8 % 2 ^ x.width } |> jobDone 6 eng Stat.ok) s

/-- CRC_READ_VALUE (R378, R379). -/
def execCrcReadValue (eng : Nat) (m : MemRun) (s : State) : Result :=
  run (takeRun 6 eng [4] m fun j s =>
    let a := leAt j.desc 0x20 8
    match startStatus (checkFields s j [(0x20, 8)]) false [bad (localExtent s a 8)] with
    | some st => jobDone 6 eng st s
    | none =>
      let (w, s) := writeAll a (leBytes 8 (jobCheck s j).value) [] s
      jobDone 6 eng w s) s

/-- CRC_PERIODIC_SCAN (R378, R381): the job leaves its unit and keeps its entry. -/
def execCrcPeriodicScan (eng : Nat) (s : State) : Result :=
  run (takeOp 6 eng [5] fun j s =>
    let d := j.desc
    let n := leAt d 0x10 8
    match startStatus (checkFields s j [(8, 0x18), (0x34, 4)]) (n == 0)
        [bad (localExtent s (leAt d 8 8) n), ((jobCheck s j).periodic.isSome, Stat.badFormat)] with
    | some st => jobDone 6 eng st s
    | none =>
      s |> setCheck { jobCheck s j with periodic := some j }
        |> modEng fun e => { e with running := dropFirst (fun r => r.job.kind == 6 && r.eng == eng) e.running }) s

/-- CRC_CANCEL_PERIODIC (R378, R381): the periodic scan ends, its entry frees and its token is signalled once. -/
def execCrcCancelPeriodic (eng : Nat) (m : MemRun) (s : State) : Result :=
  run (takeRun 6 eng [6] m fun j s =>
    match startStatus (checkFields s j []) false [] with
    | some st => jobDone 6 eng st s
    | none =>
      let x := jobCheck s j
      match x.periodic with
      | none => jobDone 6 eng Stat.ok s
      | some p => s |> setCheck { x with periodic := none } |> signalJob p.task.handle (jobToken 6 p.desc) Stat.ok |> resumeEnq 6
                    |> jobDone 6 eng Stat.ok) s

/-- The device context of pool 5 that a check-value context is (R200). -/
def devCheck (s : State) (x : CheckCtx) : Nat := (((progOf s x.handle).elim [] (·.ctxIds)).getD 5 []).getD x.ctx 999

/-- CRC_PERIODIC_PASS (R380, R381): a period elapses. The pass takes a unit when no other job waits, or when it is a full period late.
It runs from the initial value and leaves the context's running value alone (DESIGN CHOICE, log entry 31). -/
def execCrcPeriodicPass (ctx : Nat) (late : Bool) (m : MemRun) (s : State) : Result :=
  run (fun s =>
    let busy := (s.eng.running.filter fun r => r.job.kind == 6).length
    let waits := s.eng.jobs.any (fun j => j.kind == 6) || s.eng.loader.any fun l => l.checks != 0
    if !groupUp s 3 || decide (4 ≤ busy) || (waits && !late) then s
    else match s.eng.checks.find? fun x => x.periodic.isSome && devCheck s x == ctx with
      | none => s
      | some x =>
        match x.periodic with
        | none => s
        | some j =>
          let a := leAt j.desc 8 8
          let n := leAt j.desc 0x10 8
          let (r, s) := readMem a n [] (seeEcc m.ecc s)
          let s := s |> bump Reg.crcSnapCnt.base 3 |> (fun s => if late then bump Reg.crcSnapCnt.base 4 s else s)
          if r.status ≠ Stat.ok then s
          else
            let v := feedAll x x.init r.data
            let s := count (Reg.crcSnapCnt.base + 8) n s
            if finished x v = leAt j.desc 0x18 8 then s else noteMismatch x.handle x.ctx a n s) s

/-! ## Hash -/

/-- Reads a list of extents in order; a refused one ends it. -/
def readExtents : List (Nat × Nat) → List Byte → State → AccessResult × State
  | [], acc, s => ({ status := Stat.ok, data := acc }, s)
  | (a, n) :: r, acc, s =>
    if n = 0 then readExtents r acc s
    else
      let (x, s) := readMem a n [] s
      if x.status = Stat.ok then readExtents r (acc ++ x.data) s else (x, s)

/-- HASH_SHAKE256 (R382); samples that wait for their hash go before every job (R402). -/
def execHashShake256 (m : MemRun) (s : State) : Result :=
  run (fun s => if !s.eng.samples.isEmpty then s else takeRun 5 0 [1] m (fun j s =>
    let d := j.desc
    let n := leAt d 2 2
    let k := leAt d 0x18 4
    let wait := (timeUnits s.tim.now - timeUnits j.at_) / 2 ^ 32 / 1000
    let s := setCtr (Reg.hshSnapCnt.base + 20) (max wait (ctrOf s (Reg.hshSnapCnt.base + 20))) s
    match startStatus [(!descClean [(0, 1), (2, 2), (8, 0x14), (0x30, 2)] d, Stat.badFormat), (decide (64 < n) || decide (512 < k), Stat.badFormat)]
        (n == 0 || k == 0) [bad (sqExtent s (leAt d 8 8) (16 * n)), bad (sqExtent s (leAt d 0x10 8) k)] with
    | some st => jobDone 5 0 st s
    | none =>
      let (l, s) := readMem (leAt d 8 8) (16 * n) [] s
      if l.status ≠ Stat.ok then jobDone 5 0 l.status s
      else
        let es := (List.range n).map fun i => (leAt l.data (16 * i) 8, leAt l.data (16 * i + 8) 8)
        match firstStatus (es.map fun e => bad (localExtent s e.1 e.2)) with
        | some st => jobDone 5 0 st s
        | none =>
          let (x, s) := readExtents es [] s
          if x.status ≠ Stat.ok then jobDone 5 0 x.status s
          else
            let s := count (Reg.hshSnapCnt.base + 4) x.data.length s
            let (w, s) := writeAll (leAt d 0x10 8) (shake256 x.data k) [] s
            jobDone 5 0 w s) s) s

/-! ## DMA -/

/-- The two extents of a copy: source and destination (R246). -/
def dmaSrc (d : List Byte) : Nat := rowsExtent (leAt d 0x18 4) (leAt d 0x1C 4) (leAt d 4 4)

/-- Bytes of the destination extent. -/
def dmaDst (d : List Byte) : Nat := rowsExtent (leAt d 0x18 4) (leAt d 0x20 4) (leAt d 4 4)

/-- An endpoint lies in a peer Square. -/
def isPeer (a : Nat) : Bool := match regionOf a with | .peer _ => true | _ => false

/-- An endpoint lies in host memory. -/
def isHost (a : Nat) : Bool := regionOf a == .host

/-- The pairs of endpoints that R247 allows. -/
def dmaPair (a b : Nat) : Bool :=
  let loc := fun (x : Nat) => regionOf x == .square || regionOf x == .lpddr
  (loc a || loc b) && (!isPeer a || regionOf b == .square) && (!isPeer b || regionOf a == .square)

/-- An endpoint that names a peer token window takes 8-byte signals as a destination and gives 4-byte counts as a source, at token addresses
(R494); other endpoints take any rows. -/
def windowRows (a stride n bytes : Nat) : Bool :=
  match regionOf a with
  | .peer p => !inWindow p a 1 || (n == bytes && a % 8 == 0 && stride % 8 == 0)
  | _ => true

/-- The checks of a DMA job (R246, R247, R494). -/
def dmaStart (s : State) (j : Job) : Option Nat :=
  let d := j.desc
  let a := leAt d 8 8
  let b := leAt d 0x10 8
  startStatus [(!descClean [(0, 1), (2, 0x22)] d, Stat.badFormat)] (leAt d 0x18 4 == 0 || leAt d 4 4 == 0)
    [(!dmaPair a b || !windowRows a (leAt d 0x1C 4) (leAt d 4 4) 4 || !windowRows b (leAt d 0x20 4) (leAt d 4 4) 8 || mapped s a (dmaSrc d) != Stat.ok || mapped s b (dmaDst d) != Stat.ok, Stat.unmapped),
     (meets a (dmaSrc d) b (dmaDst d), Stat.shape)]

/-- A write of a job to host memory carries Relaxed Ordering while PCI_CTL.ro_en is 1 (R470). -/
def noteOrdering (a n : Nat) (s : State) : State :=
  if isHost a then emit (.hostWrite (hostAddr s a) n (rdB s Reg.pciCtl.base 0)) s else s

/-- Copies `n` rows from row `i` on: the status and how many rows are written (R246, R248, R469). -/
def dmaRows (d : List Byte) : Nat → Nat → State → (Nat × Nat) × State
  | 0, i, s => ((Stat.ok, i), s)
  | n + 1, i, s =>
    let (r, s) := devRead (leAt d 8 8 + i * leAt d 0x1C 4) (leAt d 4 4) [] s
    if r.status ≠ Stat.ok then ((r.status, i), s)
    else
      let (w, s) := devWrite (leAt d 0x10 8 + i * leAt d 0x20 4) r.data [] s
      if w ≠ Stat.ok then ((w, i), s)
      else s |> noteOrdering (leAt d 0x10 8 + i * leAt d 0x20 4) r.data.length |> dmaRows d n (i + 1)

/-- The port that a job's far endpoint lies behind. -/
def dmaPort (d : List Byte) : Option Nat :=
  match regionOf (leAt d 8 8), regionOf (leAt d 0x10 8) with
  | .peer p, _ => some p
  | _, .peer p => some p
  | _, _ => none

/-- A copy through a port stands still while the port is not trained (R487), or flits of its requests still wait there (R485). -/
def dmaStands (s : State) (d : List Byte) : Bool :=
  match dmaPort d with
  | some p => !blvUp s p || (blvOf s p).held.any (· != 1)
  | none => false

/-- The access of a copy's far endpoint at which it does not go on ends the job: at a host endpoint with HOST_ABORT (R469), at a peer with
the peer's answer (R493), or the access stays open (R248). -/
def dmaFails (ch : Nat) (d : List Byte) (answer : Nat) (s : State) : State :=
  match dmaPort d with
  | none => s |> hostAbort |> jobDone 8 ch Stat.hostAbort
  | some p =>
    let s := sendFlits p (if inWindow p (leAt d 0x10 8) 1 then 2 else 0) (if isPeer (leAt d 0x10 8) then leAt d 4 4 else 0) s
    match answer with
    | 1 => jobDone 8 ch Stat.unmapped s
    | 2 => jobDone 8 ch Stat.poison s
    | _ => s

/-- A channel goes on with its job from the row it has reached; `farEnd`: the row at which an access of its far endpoint does not complete. -/
def dmaGo (ch : Nat) (farEnd : Option FarEnd) (s : State) : State :=
  match runningOn s 8 ch with
  | none => s
  | some r =>
    let d := r.job.desc
    if dmaStands s d then s else
    let peer := (dmaPort d).isSome
    let far := isHost (leAt d 8 8) || isHost (leAt d 0x10 8) || peer
    let rows := leAt d 0x18 4
    let stop := match farEnd with | some k => if far then max r.cursor (min k.row rows) else rows | none => rows
    let ((st, i), s) := dmaRows d (stop - r.cursor) r.cursor s
    let moved := (i - r.cursor) * leAt d 4 4
    let s := s |> count (Reg.dmaSnapCnt.base + 4) moved |> (fun s => if peer then count (Reg.dmaSnapCnt.base + 20) moved s else s)
               |> modRunning 8 ch fun r => { r with cursor := i }
    if st ≠ Stat.ok then jobDone 8 ch st s
    else if i < rows then dmaFails ch d ((farEnd.map (·.answer)).getD 0) s
    else if dmaStands s d then s
    else jobDone 8 ch Stat.ok s

/-- DMA_COPY (R246-R248, R469, R476). -/
def execDmaCopy (ch : Nat) (far : Option FarEnd) (m : MemRun) (s : State) : Result :=
  run (fun s =>
    match runningOn s 8 ch with
    | some r => if r.done || !groupUp s 3 then s else dmaGo ch far (seeEcc m.ecc s)
    | none =>
      takeRun 8 ch [1] m (fun j s =>
        match dmaStart s j with
        | some st => jobDone 8 ch st s
        | none => dmaGo ch far s) s) s

/-- PEER_ACCESS_TIMEOUT (R248, R278): an access to a peer Square that has not completed within 200 us ends its job; rows already written stay
written. -/
def execPeerAccessTimeout (ch : Nat) (s : State) : Result :=
  run (fun s =>
    match runningOn s 8 ch with
    | none => s
    | some r =>
      if r.done || !groupUp s 3 || !(isPeer (leAt r.job.desc 8 8) || isPeer (leAt r.job.desc 0x10 8)) then s
      else jobDone 8 ch Stat.timeout s) s

end Sys2Proof.Machine
end

