-- ==== Sys2Proof/Machine/Caddy.lean ====
section
/-! DEFINITION. The Caddy (R367-R376): configuring a queue, window and flush jobs, batches, slots and the void fragments. -/

namespace Sys2Proof.Machine

open Sys2Proof

/-! ## Queues -/

/-- A queue of a program. -/
def caddyOf (s : State) (h q : Nat) : Option CaddyQ := s.eng.caddy.find? fun c => c.handle == h && c.q == q

/-- Changes a queue. -/
def modCaddy (h q : Nat) (f : CaddyQ → CaddyQ) (s : State) : State :=
  modEng (fun e => { e with caddy := updFirst (fun c => c.handle == h && c.q == q) f e.caddy }) s

/-- A queue that nothing has configured. -/
def CaddyQ.fresh (h q : Nat) : CaddyQ :=
  { handle := h, q := q, cfg := [], nextCfg := none, batchNo := 0, batches := [], waiting := false, granted := false, window := []
    armed := false }

/-- A program's queue stands in the list. -/
def ensureQueue (h q : Nat) (s : State) : State :=
  if (caddyOf s h q).isSome then s else modEng (fun e => { e with caddy := e.caddy ++ [CaddyQ.fresh h q] }) s

/-- The device context of pool 4 that a queue is (R200). -/
def devQueue (s : State) (c : CaddyQ) : Nat := (((progOf s c.handle).elim [] (·.ctxIds)).getD 4 []).getD c.q 999

/-- The queue in a device context. -/
def queueAt (s : State) (dev : Nat) : Option CaddyQ := s.eng.caddy.find? fun c => devQueue s c == dev

/-- The configuration that the next batch takes (R367). -/
def CaddyQ.latest (c : CaddyQ) : List Byte := c.nextCfg.getD c.cfg

/-- Slots per batch. -/
def cfgSize (cfg : List Byte) : Nat := if leAt cfg 3 1 = 0 then 256 else leAt cfg 3 1

/-- A batch that is a window batch (R376). -/
def Batch.isWindow (b : Batch) : Bool := bitOf b.flags 2

/-- Every slot of a batch is written or voided. -/
def Batch.settled (b : Batch) : Bool := b.slots.all (·.settled)

/-- A batch is closed (R370); a window batch when all its reserved slots are settled (R376). -/
def Batch.shut (b : Batch) : Bool := b.closed || (b.isWindow && !b.slots.isEmpty && b.settled)

/-- The open batch of a queue. -/
def CaddyQ.open_ (c : CaddyQ) : Option Batch := c.batches.find? fun b => !b.shut

/-- Changes a batch of a queue. -/
def modBatch (h q no : Nat) (f : Batch → Batch) (s : State) : State :=
  modCaddy h q (fun c => { c with batches := updFirst (fun b => b.no == no) f c.batches }) s

/-- The buffer of a batch: j mod nbuf (R368). -/
def batchAddr (b : Batch) : Nat := leAt b.cfg 8 8 + b.no % max 1 (leAt b.cfg 0x14 2) * leAt b.cfg 0x10 4

/-- Where a slot's sample lies (R371). -/
def slotAddr (b : Batch) (i : Nat) : Nat := batchAddr b + 0x1040 + i * leAt b.cfg 4 4

/-- A reserved slot of a window, voided at once when its item has reached its deadline (R376). -/
def windowSlot (w : Word × Nat × Bool) : Slot :=
  { item := w.1, sample := w.2.1, source := 0, eng := 0, status := if w.2.2 then Stat.itemClosed else Stat.ok, settled := w.2.2, taken := false }

/-- Moves reserved samples into the open window batch while it has room (R376). -/
def fillWindow (h q : Nat) (s : State) : State :=
  match caddyOf s h q with
  | none => s
  | some c =>
    match c.open_ with
    | none => s
    | some b =>
      if !b.isWindow then s
      else
        let n := cfgSize b.cfg - b.slots.length
        let ws := c.window.take n
        let s := s |> modBatch h q b.no (fun b => { b with slots := b.slots ++ ws.map windowSlot })
                   |> modCaddy h q fun c => { c with window := c.window.drop n }
        (ws.zipIdx.filter fun x => x.1.2.2).foldl (fun s x =>
          voidSample 2 x.1.1 (voidPayload x.1.1 x.1.2.1 0 Stat.itemClosed q (b.slots.length + x.2) b.no) s) s

/-! ## Jobs -/

/-- Every granule that `n` bytes at `a` touch belongs to a partition (R367). -/
def heldBy (s : State) (part a n : Nat) : Bool :=
  n == 0 || (decide (a + n ≤ 0x20000000) &&
    (List.range ((a + n - 1) / 65536 + 1 - a / 65536)).all fun i => (runAt s (a / 65536 + i)).elim false fun r => r.part == part)

/-- A token that a Caddy queue may name: an external counting token of the program (R367). -/
def externalCount (s : State) (h i : Nat) : Bool := (tokOf s h i).elim false fun k => k.external && !k.tagged

/-- The field checks of every Caddy job. -/
def caddyFields (s : State) (j : Job) : List (Bool × Nat) :=
  [(!descClean [(0, 0x2A), (0x30, 2)] j.desc, Stat.badFormat), (decide (poolCount s j.task.handle 4 ≤ leAt j.desc 1 1), Stat.badFormat)]

/-- The checks of a configure job (R367). -/
def configureStart (s : State) (j : Job) : Option Nat :=
  let d := j.desc
  let h := j.task.handle
  let other := s.eng.caddy.any fun c => c.handle == h && c.q != leAt d 1 1 && bitOf (leAt c.latest 2 1) 1
  let nbuf := leAt d 0x14 2
  startStatus
    (caddyFields s j ++
      [(leAt d 4 4 % 64 != 0 || nbuf == 0 || decide (256 < nbuf), Stat.badFormat),
       (!externalCount s h (leAt d 0x1C 2) || !externalCount s h (leAt d 0x1E 2), Stat.badFormat),
       (bitOf (leAt d 2 1) 1 && other, Stat.badFormat)])
    false
    [(decide (leAt d 0x10 4 < 0x1040 + cfgSize d * leAt d 4 4), Stat.length),
     (!heldBy s j.part (leAt d 8 8) (nbuf * leAt d 0x10 4), Stat.unmapped)]

/-- CADDY_CONFIGURE (R367). -/
def execCaddyConfigure (s : State) : Result :=
  run (takeOp 7 0 [1] fun j s =>
    match configureStart s j with
    | some st => jobDone 7 0 st s
    | none =>
      let h := j.task.handle
      let q := leAt j.desc 1 1
      s |> ensureQueue h q |> modCaddy h q (fun c => { c with nextCfg := some j.desc }) |> jobDone 7 0 Stat.ok) s

/-- The samples that window entries name, in list order (R376). -/
def windowSamples (n : Nat) (bs : List Byte) : List (Word × Nat × Bool) :=
  (List.range n).flatMap fun k =>
    (List.range (leAt bs (8 * k + 6) 2)).map fun i => (BitVec.ofNat 32 (leAt bs (8 * k) 4), leAt bs (8 * k + 4) 2 + i, false)

/-- CADDY_WINDOW (R376): outside deterministic mode the job does nothing. -/
def execCaddyWindow (m : MemRun) (s : State) : Result :=
  run (takeRun 7 0 [2] m fun j s =>
    let n := leAt j.desc 0x28 2
    let a := leAt j.desc 0x20 8
    match startStatus (caddyFields s j ++ [(decide (256 < n), Stat.badFormat)]) (!detMode s || n == 0) [bad (localExtent s a (8 * n))] with
    | some st => jobDone 7 0 st s
    | none =>
      let (r, s) := readMem a (8 * n) [] s
      if r.status ≠ Stat.ok then jobDone 7 0 r.status s
      else
        let h := j.task.handle
        let q := leAt j.desc 1 1
        s |> ensureQueue h q |> modCaddy h q (fun c => { c with window := c.window ++ windowSamples n r.data }) |> fillWindow h q
          |> jobDone 7 0 Stat.ok) s

/-- Some slot of a batch was taken. -/
def Batch.begun (b : Batch) : Bool := b.slots.any (·.taken)

/-- CADDY_FLUSH (R370, R376): the open batch closes if a slot of it was taken. -/
def execCaddyFlush (s : State) : Result :=
  run (takeOp 7 0 [3] fun j s =>
    match startStatus (caddyFields s j) false [] with
    | some st => jobDone 7 0 st s
    | none =>
      let h := j.task.handle
      let q := leAt j.desc 1 1
      let s := match (caddyOf s h q).bind (·.open_) with
        | some b => if b.begun && !b.isWindow then modBatch h q b.no (fun b => { b with closed := true, flags := b.flags ||| 2 }) s else s
        | none => s
      jobDone 7 0 Stat.ok s) s

/-! ## Producers -/

/-- A sample that a producer offers to a queue: from a region job (0) or a record decoder (1) on an engine. -/
structure Offer where
  source : Nat
  eng : Nat
  item : Word
  sample : Nat
  deriving DecidableEq, Repr

/-- Number `i` of a running job's counts. -/
def Running.num (r : Running) (i : Nat) : Nat := r.aux.getD i 0

/-- A region job's next box, offered to a queue. -/
def regionOffer (s : State) (c : CaddyQ) (eng : Nat) : Option Offer :=
  match runningOn s 1 eng with
  | none => none
  | some r =>
    if r.done || r.job.task.handle != c.handle || !toCaddy r.job.desc || (regionQueue s c.handle).elim true (fun x => x.q != c.q) then none
    else
      let b := boxOf r.current r.cursor
      some { source := 0, eng := eng, item := BitVec.ofNat 32 (leAt b 0x10 4), sample := leAt b 0x14 4 }

/-- A record decoder's record that has no slot yet, offered to a queue (its slot state is count 5). -/
def recordOffer (s : State) (c : CaddyQ) (eng : Nat) : Option Offer :=
  match runningOn s 4 eng with
  | none => none
  | some r =>
    if r.done || r.job.task.handle != c.handle || !bitOf (leAt r.job.desc 2 1) 1 || leAt r.job.desc 3 1 != c.q || r.current.isEmpty
        || r.num 5 != 0 then none
    else some { source := 1, eng := eng, item := BitVec.ofNat 32 (leAt r.current 0xC 4), sample := leAt r.current 0x14 2 }

/-- The samples ready for a queue, in the order of R369. -/
def offers (s : State) (c : CaddyQ) : List Offer :=
  (List.range 2).filterMap (regionOffer s c) ++ (List.range 2).filterMap (recordOffer s c)

/-! ## Slots -/

/-- A sample takes slot `i` of a batch; the last slot closes it (R369, R370). -/
def takeSlot (c : CaddyQ) (b : Batch) (i : Nat) (o : Offer) (s : State) : State :=
  let slot : Slot := { item := o.item, sample := o.sample, source := o.source, eng := o.eng, status := Stat.ok, settled := false, taken := true }
  s |> modBatch c.handle c.q b.no (fun b =>
        let slots := if i < b.slots.length then modAt i (fun _ => slot) b.slots else b.slots ++ [slot]
        { b with slots := slots, closed := b.closed || (!b.isWindow && decide (cfgSize b.cfg ≤ slots.length)) })
    |> bump Reg.cadSnapCnt.base 1

/-- A slot is written, or voided with a status (R372, R374). -/
def settleSlot (h q no i st : Nat) (o : Offer) (s : State) : State :=
  let s := modBatch h q no (fun b => { b with slots := modAt i (fun x => { x with settled := true, status := st }) b.slots }) s
  if st = Stat.ok then s else voidSample 2 o.item (voidPayload o.item o.sample o.source st q i no) s

/-- Where a ready sample goes: a slot of the open batch, refused because no window names it, or nowhere yet. -/
inductive Place where
  | slot (b : Batch) (i : Nat)
  | refused
  | later
  deriving DecidableEq, Repr

/-- The place of a sample (R369, R376). -/
def placeOf (s : State) (c : CaddyQ) (o : Offer) : Place :=
  match c.open_ with
  | some b =>
    if b.isWindow then
      match (b.slots.zipIdx.find? fun x => x.1.item == o.item && x.1.sample == o.sample && !x.1.taken && !x.1.settled) with
      | some x => .slot b x.2
      | none => if c.window.any (fun w => w.1 == o.item && w.2.1 == o.sample && !w.2.2) then .later else .refused
    else if b.slots.length < cfgSize b.cfg then .slot b b.slots.length
    else .later
  | none =>
    if detMode s && !c.window.any (fun w => w.1 == o.item && w.2.1 == o.sample && !w.2.2) then .refused else .later

/-- A region job moves on to its next box; after the last one it is over. -/
def nextBox (eng : Nat) (s : State) : State :=
  match runningOn s 1 eng with
  | none => s
  | some r =>
    let s := modRunning 1 eng (fun r => { r with cursor := r.cursor + 1 }) s
    if leAt r.job.desc 0x20 2 ≤ r.cursor + 1 then jobDone 1 eng Stat.ok s else s

/-- The first row of a crop reads poison: the sample is corrupt before its first byte is ready (R369). -/
def cropPoisonFirst (s : State) (d box : List Byte) : Bool :=
  pointsPoison s (regionImage d) (cropRow d box 0)

/-- A region job's crop goes into slot `i` of a batch (R367, R369, R372). -/
def cropToSlot (c : CaddyQ) (b : Batch) (i : Nat) (o : Offer) (s : State) : State :=
  match runningOn s 1 o.eng with
  | none => s
  | some r =>
    let d := r.job.desc
    let box := boxOf r.current r.cursor
    if leAt b.cfg 4 4 < cropBytes d then jobDone 1 o.eng Stat.length s
    else if cropPoisonFirst s d box then
      s |> refusedSample o.item (voidPayload o.item o.sample 0 Stat.poison c.q 0xFF 0) |> nextBox o.eng
    else
      let s := takeSlot c b i o s
      let (st, s) := drawCrop d box (slotAddr b i) s
      s |> boxCropped d box r.cursor |> bump Reg.roiSnapCnt.base 2 |> settleSlot c.handle c.q b.no i st o |> nextBox o.eng

/-- A record takes slot `i` of a batch: its batch and slot stand in counts 6 and 7. -/
def recordToSlot (c : CaddyQ) (b : Batch) (i : Nat) (o : Offer) (s : State) : State :=
  s |> takeSlot c b i o
    |> modRunning 4 o.eng fun r => { r with aux := r.aux |> modAt 5 (fun _ => 1) |> modAt 6 (fun _ => b.no) |> modAt 7 (fun _ => i) }

/-- A sample that no open window names is discarded (R376, R374). -/
def refuseSample (c : CaddyQ) (o : Offer) (s : State) : State :=
  let s := voidSample 5 o.item (voidPayload o.item o.sample o.source 0x45 c.q 0xFF 0) s
  if o.source = 0 then nextBox o.eng s else modRunning 4 o.eng (fun r => { r with current := [] }) s

/-- A producer drops a sample of an item past its deadline and forwards nothing (R19, log entry 97). -/
def dropSample (o : Offer) (s : State) : State :=
  if o.source = 0 then nextBox o.eng s else modRunning 4 o.eng (fun r => { r with current := [] }) s

/-- CADDY_SAMPLE_SLOT (R19, R369, R370, R374, R376): the first ready sample that has a place takes it. -/
def execCaddySampleSlot (q : Nat) (m : MemRun) (s : State) : Result :=
  run (fun s =>
    if !groupUp s 1 then s
    else match queueAt s q with
      | none => s
      | some c =>
        let s := seeEcc m.ecc s
        match (offers s c).find? fun o => lateItem s o.item || placeOf s c o != .later with
        | none => s
        | some o =>
          if lateItem s o.item then dropSample o s
          else match placeOf s c o with
          | .slot b i => if o.source = 0 then cropToSlot c b i o s else recordToSlot c b i o s
          | .refused => refuseSample c o s
          | .later => s) s

/-! ## Batches -/

/-- A queue opens a batch (R367, R368, R376). -/
def openBatch (h q : Nat) (s : State) : State :=
  s |> modCaddy h q (fun c =>
        { c with cfg := c.latest, nextCfg := none, batchNo := (c.batchNo + 1) % 2 ^ 32, granted := false
                 batches := c.batches ++ [{ no := c.batchNo, cfg := c.latest, slots := [], closed := false
                                            flags := if detMode s then 4 else 0 }] })
    |> fillWindow h q

/-- CADDY_BATCH_OPEN (R368): a queue that is enabled, that a sample or a window asks for a batch and that has none open takes 1 from
free_tok, or waits for it. -/
def execCaddyBatchOpen (q : Nat) (s : State) : Result :=
  run (fun s =>
    if !groupUp s 1 then s
    else match queueAt s q with
      | none => s
      | some c =>
        let asked := if detMode s then !c.window.isEmpty else !(offers s c).isEmpty
        if c.granted then openBatch c.handle c.q s
        else if c.waiting || c.open_.isSome || !asked || !bitOf (leAt c.latest 2 1) 0 then s
        else
          let t := leAt c.latest 0x1E 2
          let s := s |> modCaddy c.handle c.q (fun c => { c with waiting := true })
                     |> modTok c.handle t (fun k => { k with waiters := k.waiters ++ [{ who := .caddy c.q, amt := 1, item := none }] })
                     |> serveToken c.handle t
          if (caddyOf s c.handle c.q).elim false (·.granted) then openBatch c.handle c.q s else s) s

/-- CADDY_BATCH_TIMEOUT (R370, R376): timeout_us after its first slot was taken, the open batch closes. -/
def execCaddyBatchTimeout (q : Nat) (s : State) : Result :=
  run (fun s =>
    if !groupUp s 1 then s
    else match queueAt s q with
      | none => s
      | some c =>
        match c.open_ with
        | some b =>
          if b.begun && !b.isWindow && leAt b.cfg 0x18 4 != 0 then
            s |> modBatch c.handle c.q b.no (fun b => { b with closed := true, flags := b.flags ||| 1 })
              |> setFlag Reg.cadStatus.base 2 |> bump Reg.cadSnapCnt.base 3
          else s
        | none => s) s

/-- The header of a batch (R371). -/
def batchHeader (b : Batch) : List Byte :=
  leBytes 4 b.no ++ leBytes 2 b.slots.length ++ leBytes 2 (cfgSize b.cfg) ++ leBytes 2 b.flags ++ leBytes 6 0
    ++ leBytes 32 (b.slots.zipIdx.foldl (fun n x => if x.1.status = Stat.ok then n + 2 ^ x.2 else n) 0) ++ leBytes 16 0
    ++ padTo 4096 (b.slots.flatMap fun x => leBytes 4 x.item.toNat ++ leBytes 4 x.sample ++ leBytes 1 x.source ++ leBytes 1 x.eng
                                              ++ leBytes 1 x.status ++ leBytes 5 0)

/-- CADDY_BATCH_READY (R370, R371): the oldest batch, closed with every slot settled, gets its header and is signalled. -/
def execCaddyBatchReady (q : Nat) (s : State) : Result :=
  run (fun s =>
    if !groupUp s 1 then s
    else match queueAt s q with
      | none => s
      | some c =>
        match c.batches with
        | b :: _ =>
          if b.shut && b.settled then
            let (_, s) := writeAll (batchAddr b) (batchHeader b) [] s
            let s := s |> modCaddy c.handle c.q (fun c => { c with batches := c.batches.drop 1 }) |> bump Reg.cadSnapCnt.base 0
            (signal c.handle (leAt b.cfg 0x1C 2) 1 none (some (.caddy c.q)) s).2
          else s
        | [] => s) s

end Sys2Proof.Machine
end

