-- ==== Sys2Proof/Machine/Gate.lean ====
section
/-! DEFINITION. What every register write and read passes first (18_registers.md): blocks that do not answer (R533, R552), offsets that
hold no register (R553), who may write (R559) and keys (R560). -/

namespace Sys2Proof.Machine

open Sys2Proof

/-- A block that a core reset holds: "All ones" in the block map (R552). -/
def heldBlock (off : Nat) : Bool := let b := off / 65536; b == 6 || b == 7 || (decide (9 ≤ b) && decide (b ≤ 24))

/-- An offset in RST, SEC or PCI. -/
def bootBlock (off : Nat) : Bool := decide (1 ≤ off / 65536) && decide (off / 65536 ≤ 3)

/-- The GLB identity registers that answer in RECOVERY (R541, R552). -/
def identityOff (off : Nat) : Bool := decide (off ≤ 0x14) || off == 0x38

/-- A refused access is recorded (R553-R555): GLB_STATUS flag 0 and GLB_ERR. -/
def badAccess (w : Writer) (off : Nat) (viaAlias write : Bool) (s : State) : State :=
  s |> setFlag Reg.glbStatus.base 0
    |> wr Reg.glbErr.base (off % 2 ^ 24 + (if w = .complex then 2 ^ 24 else 0) + (if viaAlias then 2 ^ 25 else 0)
                            + (if write then 2 ^ 26 else 0) + 2 ^ 31)

/-- A read or write of this offset meets a block that does not answer: every block while a system or power-on reset is held or stretching
(R523), most of them in RECOVERY (R541), and those that a core reset holds (R533). -/
def silent (s : State) (off : Nat) (write : Bool) : Bool :=
  if !wideUp s then true
  else if inRecovery s then !bootBlock off && !(identityOff off && !write)
  else !coreUp s && heldBlock off

/-- A write from this side is ignored under R559. -/
def wrongWriter (d : RegDef) (w : Writer) : Bool := (d.who == 1 && w == .complex) || (d.who == 2 && w == .host)

/-- The write of a register goes through to `f` unless a block is silent, the offset holds no register or the writer is the wrong one. -/
def pass (w : Writer) (off : Nat) (f : State → State) (s : State) : State :=
  if silent s off true then s
  else match regAt off with
    | none => badAccess w off false true s
    | some d =>
      if wrongWriter d w then
        let s := setFlag Reg.glbStatus.base 3 s
        if off / 65536 = 3 then bump Reg.pciSnapCnt.base 3 s else s
      else f s

/-- A write of a register, which its key must open where it has one (R560). -/
def gate (w : Writer) (off : Nat) (v : Word) (f : State → State) (s : State) : State :=
  pass w off (fun s => match regAt off with
    | some d => if d.key ≠ 0 ∧ bits v.toNat 16 16 ≠ d.key then s else f s
    | none => s) s

end Sys2Proof.Machine
end

