-- ==== Sys2Proof/Machine/Sched.lean ====
section
/-! DEFINITION. The Roundabout (08_scheduling.md): placement, victims, the switch, round ends, and the rows of fencing (16). -/

namespace Sys2Proof.Machine

open Sys2Proof

/-! ## Order -/

/-- The order in which READY tasks are placed (R262). -/
def readyKey (k : Task) : List Nat := [3 - k.prio, k.readyAt, k.id.handle, k.id.tmpl, k.id.inst]

/-- Puts a task into an ordered list. -/
def insertReady (k : Task) : List Task → List Task
  | [] => [k]
  | x :: xs => if lexLt (readyKey k) (readyKey x) then k :: x :: xs else x :: insertReady k xs

/-- The READY tasks in placement order. -/
def readyTasks (s : State) : List Task := (s.tasks.filter fun k => k.st == .ready).foldl (fun l k => insertReady k l) []

/-- The number of an instance in its program: template order, then instance order (R266). -/
def taskIndex (p : Program) (t : TaskId) : Nat := ((p.tmpls.take t.tmpl).map (·.instances)).sum + t.inst

/-- The one core that an instance may run on in deterministic mode (R266). -/
def homeCore (s : State) (t : TaskId) : Option Nat :=
  let cs := rankedCores s
  match progOf s t.handle with
  | some p => if cs.isEmpty then none else cs[taskIndex p t % cs.length]?
  | none => none

/-- A core that a task may run on: any in normal mode, its home in deterministic mode (R266). -/
def mayRun (s : State) (t : TaskId) (n : Nat) : Bool := !detMode s || homeCore s t == some n

/-- A core is idle and ACTIVE. -/
def idleCore (s : State) (n : Nat) : Bool := (coreOf s n).st == 0 && (coreOf s n).phase == .idle

/-- The lowest-numbered idle ACTIVE core for a task. -/
def idleFor (s : State) (t : TaskId) : Option Nat := (List.range 17).find? fun n => idleCore s n && mayRun s t n

/-- The core that a READY task has claimed. -/
def claimOf (s : State) (t : TaskId) : Option Nat := (List.range 17).find? fun n => (coreOf s n).incoming == some t

/-! ## Placement -/

/-- Device time between two moments in whole microseconds. -/
def microsSince (a b : DevTime) : Nat := (timeUnits b - timeUnits a) / (1000 * 2 ^ 32)

/-- A task enters a core by a restore (R263). -/
def placeOn (t : TaskId) (n : Nat) (s : State) : State :=
  let waited := (taskOf s t).elim 0 fun k => microsSince k.readySince s.tim.now
  s |> modCore n (fun c => { c with task := some t, incoming := none, phase := .restoring, fresh := true, yielded := false })
    |> modTask t (fun k => { k with st := .running, core := some n })
    |> bump Reg.rbtSnapCnt.base 0
    |> setCtr (Reg.rbtSnapCnt.base + 16) (max (ctrOf s (Reg.rbtSnapCnt.base + 16)) waited)

/-- A waiting `eng.enq` of the task on a core goes on (R223): it copies descriptors while entries are free. -/
def enqGoesOn (n : Nat) (s : State) : State :=
  match (coreOf s n).task.bind (taskOf s) with
  | none => s
  | some k => k.waits.foldl (fun s w => match w.w with
      | .enq kind _ left => (List.range left).foldl (fun s _ => resumeEnq kind s) s
      | _ => s) s

/-- A victim's stop is cancelled: it decodes again where it stopped (R271). -/
def cancelStop (n : Nat) (s : State) : State :=
  s |> modCore n (fun c => { c with incoming := none, phase := .running, yielded := false }) |> enqGoesOn n

/-- Places one READY task on an idle core, unless its victim's save has begun (R262, R271). -/
def placeReady (k : Task) (s : State) : State :=
  match claimOf s k.id with
  | some n =>
    if (coreOf s n).phase != .stopping then s
    else match idleFor s k.id with
      | some m => s |> cancelStop n |> placeOn k.id m
      | none => s
  | none =>
    match idleFor s k.id with
    | some m => placeOn k.id m s
    | none => s

/-- A task waits on the token of a peer DMA job: a job of its program that names the token and moves bytes through a Boulevard port. -/
def waitsOnPeer (s : State) (k : Task) : Bool :=
  k.waits.any fun w => match w.w with
    | .take tok _ _ _ _ =>
      (s.eng.jobs ++ s.eng.running.map (·.job)).any fun j =>
        j.kind == 8 && j.task.handle == k.id.handle && leAt j.desc 2 2 == tok &&
          (decide (0x4000000000 ≤ leAt j.desc 8 8) && decide (leAt j.desc 8 8 < 0x5000000000) ||
           decide (0x4000000000 ≤ leAt j.desc 0x10 8) && decide (leAt j.desc 0x10 8 < 0x5000000000))
    | _ => false

/-- The task on a core may be stopped at all (R270, R272, R405). -/
def stoppable (s : State) (n : Nat) : Option Task :=
  let c := coreOf s n
  if c.st ≠ 0 ∨ c.phase ≠ .running ∨ c.incoming.isSome ∨ c.fresh then none
  else match c.task.bind (taskOf s) with
    | none => none
    | some k =>
      match progOf s k.id.handle with
      | some p => if replayHolds p k then none else some k
      | none => none

/-- A better victim: lower priority, then the higher core (R269). -/
def betterVictim (a b : Nat × Task) : Bool := decide (a.2.prio < b.2.prio) || (a.2.prio == b.2.prio && decide (b.1 < a.1))

/-- The best of a list of victims. -/
def bestVictim : List (Nat × Task) → Option (Nat × Task)
  | [] => none
  | v :: vs => match bestVictim vs with
    | none => some v
    | some w => if betterVictim w v then some w else some v

/-- The victim for a READY task (R269, R276). -/
def victimFor (s : State) (k : Task) : Option Nat :=
  let cs := (List.range 17).filterMap fun n => if mayRun s k.id n then (stoppable s n).map fun v => (n, v) else none
  let parked := cs.filter fun v => v.2.st == .parked && (rdB s Reg.rbtCtl.base 0 || waitsOnPeer s v.2)
  match bestVictim parked with
  | some v => some v.1
  | none => (bestVictim (cs.filter fun v => v.2.st == .running && decide (v.2.prio < k.prio))).map (·.1)

/-- Chooses a victim for a READY task that has none and finds no idle core. -/
def claimVictim (k : Task) (s : State) : State :=
  if (claimOf s k.id).isSome || (idleFor s k.id).isSome || (taskOf s k.id).elim true (fun k => k.st != .ready) then s
  else match victimFor s k with
    | some n => modCore n (fun c => { c with phase := .stopping, incoming := some k.id }) s
    | none => s

/-- The Roundabout's decision (R262, R269-R271): idle cores first, then victims, both in placement order. -/
def placeAll (s : State) : State :=
  let s := (readyTasks s).foldl (fun s k => placeReady k s) s
  (readyTasks s).foldl (fun s k => claimVictim k s) s

/-- A placement point of a RUNNING task, at `ctl.yield` or the end of a round (R226, R264): a READY task of equal or higher priority that
finds no idle core takes this one, unless a replay stop holds it (R405). -/
def placementPoint (t : TaskId) (n : Nat) (s : State) : State :=
  match taskOf s t with
  | none => s
  | some k =>
    let c := coreOf s n
    if c.phase ≠ .running ∨ c.incoming.isSome ∨ (progOf s t.handle).elim false (fun p => replayHolds p k) then s
    else match (readyTasks s).find? fun r =>
        decide (k.prio ≤ r.prio) && (claimOf s r.id).isNone && (idleFor s r.id).isNone && mayRun s r.id n with
      | some r => modCore n (fun c => { c with phase := .stopping, incoming := some r.id, yielded := true }) s
      | none => s

/-! ## Rows -/

/-- TASK_PLACEMENT (R262-R272). -/
def execTaskPlacement (s : State) : Result := run placeAll s

/-- TASK_SAVE_START (R273, R275): a victim whose queues have stopped and whose passes are checked begins its save. -/
def execTaskSaveStart (core : CoreRun) (s : State) : Result :=
  run (fun s =>
    let c := coreOf s core.n
    match c.task.bind (taskOf s) with
    | some k => if c.phase = .stopping ∧ k.passes = 0 then modCore core.n (fun c => { c with phase := .saving }) s else s
    | none => s) s

/-- The live set as extents that share no byte, in ascending order (R127). -/
def liveRuns (r : TaskRegs) : List Extent :=
  let add := fun (e : Extent) (l : List Extent) => (l.takeWhile fun x => decide (x.1 ≤ e.1)) ++ [e] ++ l.dropWhile fun x => decide (x.1 ≤ e.1)
  let es := (liveSet r).foldl (fun l e => add e l) []
  ((es.foldl (fun (a : List Extent × Nat) e => (a.1 ++ [(max e.1 a.2, e.2)], max a.2 e.2)) ([], 0)).1).filter fun e => decide (e.1 < e.2)

/-- The bytes that a switch moves: the live set, overlapping extents counted once, and 13,312 bytes of state (R127, R274). -/
def liveBytes (r : TaskRegs) : Nat := 13312 + ((liveRuns r).map fun e => e.2 - e.1).sum

/-- The time of a save or restore in ns: a fixed part and the bytes at 512 bytes per clock of the slower side (R274). -/
def moveNs (s : State) (n fixed bytes : Nat) : Nat := fixed + bytes * 100 / (512 * min 100 (max 1 (rdF s (Reg.tcOpp.off n 0) 0 7)))

/-- Where a task's save area begins (R190). -/
def saveAt (s : State) (t : TaskId) : Option Nat := ((progOf s t.handle).bind fun p => p.saves[taskIndex p t]?).map (· * 65536)

/-- The 8-byte words of the tile buffer that hold the live set, ascending. -/
def liveWords (r : TaskRegs) : List Nat :=
  ((liveRuns r).flatMap fun e => (List.range ((e.2 + 7) / 8 - e.1 / 8)).map (e.1 / 8 + ·)).eraseDups

/-- What a save area holds (R274): scalar and descriptor registers, vector registers and accumulators in the order of R406, then the words of
the live set. No rule gives the layout (DESIGN CHOICE, log entry 100). -/
def saveImage (r : TaskRegs) : List Byte :=
  r.s.flatMap (fun x => leBytes 8 x.toNat) ++ r.t.flatMap (fun x => leBytes 8 x.toNat) ++ r.v.flatMap (padTo 256)
    ++ r.acc.flatMap (fun x => leBytes 18 x.toNat) ++ (liveWords r).flatMap fun w => tbRead r (8 * w) 8

/-- A save writes its save area, poisoned words of the live set marked poisoned (R128, R190, R274). -/
def writeSave (k : Task) (s : State) : State :=
  match saveAt s k.id with
  | none => s
  | some a =>
    s |> devPut a (saveImage k.regs)
      |> modSq fun q => { q with poison :=
          (liveWords k.regs).zipIdx.foldl (fun l e => if k.regs.tbPoison.contains e.1 then poisonAdd l ((a + 13312) / 8 + e.2) else l) q.poison }

/-- The registers that a save area's bytes give back to a task; `bad` tells of each of its words whether it is poisoned (R128). -/
def loadImage (bs : List Byte) (bad : Nat → Bool) (r : TaskRegs) : TaskRegs :=
  let ws := (liveWords r).zipIdx
  { r with s := (List.range 32).map fun i => BitVec.ofNat 64 (leAt bs (8 * i) 8)
           t := (List.range 32).map fun i => BitVec.ofNat 64 (leAt bs (256 + 8 * i) 8)
           v := (List.range 32).map fun i => (bs.drop (512 + 256 * i)).take 256
           acc := (List.range 256).map fun i => BitVec.ofNat 144 (leAt bs (8704 + 18 * i) 18)
           tb := (ws.foldl (fun m e => memWrite m (8 * e.1) ((bs.drop (13312 + 8 * e.2)).take 8)) r.tb).filter fun c => inLive (liveSet r) c.1
           tbPoison := ws.filterMap fun e => if bad (1664 + e.2) then some e.1 else none }

/-- A restore reads the save area back (R76, R128, R274): the task's registers, and whether a word of them that is not of the live set reads
poisoned. -/
def readSave (k : Task) (ecc : List EccHit) (s : State) : Bool × State :=
  match saveAt s k.id with
  | none => (true, s)
  | some a =>
    let n := 13312 + 8 * (liveWords k.regs).length
    let s := applyEcc (touches a n) false ecc s
    let bad := fun (w : Nat) => s.sq.poison.contains (a / 8 + w)
    (!(List.range 1664).any bad, modTask k.id (fun k => { k with 
        regs := k.results.foldl (fun r e => setS e.1 e.2 r) (loadImage (devGet s a n) bad k.regs), saved := false, results := [] }) s)

/-- Each plane that was loaded is loaded again from its pinned extent (R124, R128): SEC-DED acts on its words. False when one is poisoned. -/
def reloadPlanes (n : Nat) (t : TaskId) (ecc : List EccHit) (s : State) : Bool × State :=
  match taskOf s t with
  | none => (true, s)
  | some k =>
    let hit := fun (h : EccHit) => (pinned k.regs).any fun e => decide (e.1 < 8 * h.word + 8) && decide (8 * h.word < e.2)
    let s := (ecc.filter hit).foldl (fun s h => tileEcc n t h s) s
    let load := fun (r : TaskRegs) (p : Plane) => match p.desc with
      | some d => { p with rows := ((tileOf d).runs (tileOf d).rows).map fun e => tbRead r e.1 e.2 }
      | none => p
    let s := modTask t (fun k => { k with regs := { k.regs with planes := k.regs.planes.map (load k.regs) } }) s
    (!(pinned k.regs).any fun e => (taskOf s t).elim false fun k => tbHit k.regs e.1 (e.2 - e.1), s)

/-- TASK_SAVE_DONE (R128, R259, R274, R275): the victim is READY, or SAVED if it was PARKED; the task that displaced it enters. -/
def execTaskSaveDone (core : CoreRun) (s : State) : Result :=
  run (fun s =>
    let n := core.n
    let c := coreOf s n
    match c.phase, c.task.bind (taskOf s) with
    | .saving, some k =>
      match readForSave n k.id core.tb s with
      | (false, s) => s
      | (true, s) =>
        let k := (taskOf s k.id).getD k
        let s := s |> writeSave k |> setFlag (Reg.seqStatus.off n 0) 1
                   |> bump Reg.rbtSnapCnt.base (if c.yielded then 2 else if k.st = .parked then 3 else 1)
                   |> count (Reg.rbtSnapCnt.base + 20) (moveNs s n 50 (liveBytes k.regs))
                   |> freeCore n
                   |> modTask k.id (fun k => { k with regs := keepLive k.regs, core := none, ran := true, saved := true, atRound := false })
        let s := if k.st = .parked then modTask k.id (fun k => { k with st := .saved }) s else makeReady k.id s
        match c.incoming.bind (taskOf s) with
        | some i => if i.st = .ready then placeOn i.id n s else s
        | none => s
    | _, _ => s) s

/-- A SAVED task's waits are issued again when it resumes (R223, R260, R278): one that a job latch faulted faults now, and what is younger is
discarded unstarted (R137). -/
def reissueWaits (k : Task) (s : State) : State :=
  k.waits.foldl (fun s w =>
    match w.w with
    | .take tok _ item _ _ =>
      match tokOf s k.id.handle tok with
      | some x =>
        if x.waiters.any (fun y => y.who == .task k.id && y.item == item) || !(taskOf s k.id).elim false (·.waits.contains w) then s
        else if x.jobTmpl.isSome && latchFaults x.latch then faultDue k.id w.since x.latch w.q w.word s
        else s
      | none => s
    | _ => s) s

/-- A restore's reads have met poison (R128, R142, R516): the task faults where it would resume, `q` as for `faultTask`. -/
def restorePoison (n : Nat) (t : TaskId) (q : Nat) (s : State) : State :=
  let s := faultTask t Stat.poison q ((taskOf s t).elim 0 (·.regs.next)) s
  if tbLimitHit s n && decide (4 ≤ q) then fenceCore n 2 Stat.poison s else s

/-- What a restore on core `n` reads (R128, R274): the save area, if the task's state stands there, and the pinned extents of its planes. The task
then goes on as `f` says, or faults at poison. -/
def restoreReads (core : CoreRun) (k : Task) (f : State → State) (s : State) : State :=
  let (good, s) := if k.saved then readSave k core.sq s else (true, s)
  if !good then restorePoison core.n k.id 3 s
  else
    let (good, s) := reloadPlanes core.n k.id core.tb s
    if good then f s else restorePoison core.n k.id 5 s

/-- TASK_RESTORE_DONE (R128, R263, R272, R274): the task decodes again, or waits again. -/
def execTaskRestoreDone (core : CoreRun) (s : State) : Result :=
  run (fun s =>
    let n := core.n
    let c := coreOf s n
    match c.phase, c.task.bind (taskOf s) with
    | .restoring, some k =>
      if c.gated || !awake s 0 n then s
      else s |> count (Reg.rbtSnapCnt.base + 20) (moveNs s n 350 (if k.ran then liveBytes k.regs else 0))
        |> modCore n (fun c => { c with phase := .running, fresh := !k.served })
        |> modTask k.id (fun k => { k with st := if stalled k then heldState k else .running, served := false, ran := true })
        |> restoreReads core k fun s => s |> reissueWaits k |> enqGoesOn n
    | _, _ => s) s

/-- ROUND_END (R264): the last word of a round has completed. -/
def execRoundEnd (core : Nat) (s : State) : Result :=
  run (fun s =>
    match (coreOf s core).task.bind (taskOf s) with
    | some k =>
      if k.atRound ∧ (coreOf s core).phase = .running ∧ k.st = .running then
        s |> modTask k.id (fun k => { k with atRound := false }) |> placementPoint k.id core
      else s
    | none => s) s

/-- RBT_WAIT_ALARM (R262): a task has stayed READY for `us` microseconds, longer than RBT_CFG.alarm_us. -/
def execRbtWaitAlarm (us : Nat) (s : State) : Result :=
  run (fun s =>
    let a := rdF s Reg.rbtCfg.base 0 16
    if a ≠ 0 ∧ a < us ∧ (readyTasks s).isEmpty = false then
      s |> setFlag Reg.rbtStatus.base 0
        |> setCtr (Reg.rbtSnapCnt.base + 16) (max (ctrOf s (Reg.rbtSnapCnt.base + 16)) us)
    else s) s

/-- RESIDUE_CHECK (R139, R140): the oldest open pass of a core is checked: one of a task that has left it, then one of its task's. -/
def execResidueCheck (core : Nat) (ok : Bool) (s : State) : Result :=
  run (fun s =>
    if (coreOf s core).stray ≠ 0 then
      if ok then modCore core (fun c => { c with stray := c.stray - 1 }) s else coreError core 0 s
    else match (coreOf s core).task.bind (taskOf s) with
    | some k =>
      if k.passes = 0 ∨ k.core ≠ some core then s
      else if ok then modTask k.id (fun k => { k with passes := k.passes - 1 }) s
      else coreError core 0 s
    | none => s) s

/-- TASK_RESTORE_ON_SPARE (R511 step 4): the restarted task decodes from its checkpoint on the new core. -/
def execTaskRestoreOnSpare (core : CoreRun) (s : State) : Result :=
  run (fun s =>
    let n := core.n
    let c := coreOf s n
    match c.phase, c.task with
    | .recovering, some t =>
      if c.gated || !awake s 0 n then s
      else
        let s := s |> modCore n (fun c => { c with phase := .running, fresh := true })
                   |> modTask t (fun k => { k with st := .running, core := some n })
        match taskOf s t with
        | some k => restoreReads core k id s
        | none => s
    | _, _ => s) s

/-- The effect of a keyed write to TC_FENCE (R148): it fences alone, and neither sets TC_STATUS.residue nor counts in TC_RESFAIL (DESIGN CHOICE,
log entry 108). -/
def writeFence (v : Word) (s : State) : State :=
  let n := bits v.toNat 0 5
  if n < 17 ∧ (coreOf s n).st = 0 then fenceCore n 1 0 s else s

/-- TC_FENCE_WRITE (R148, R559, R560). -/
def execTcFenceWrite (w : Writer) (v : Word) (s : State) : Result := run (gate w Reg.tcFence.base v (writeFence v)) s

end Sys2Proof.Machine
end

