-- ==== Sys2Proof/Machine/Cameras.lean ====
section
/-! DEFINITION. Camera ports (09_camera_ports.md): links, the control mailbox, triggers, lines and frames, and the rows of the CXP and AUX
ports. -/

namespace Sys2Proof.Machine

open Sys2Proof

/-! ## Port registers -/

/-- Port index of AUX[n]. -/
def auxPort (n : Nat) : Nat := 12 + n

/-- Connections of a CXP port (R291, R292). -/
def conns (s : State) (n : Nat) : Nat := if n % 2 = 0 ∧ ganged s (n / 2) = true then 4 else 2

/-- CXP_PWR_EN[k] (R291, R292, R295). -/
def cxpPwrEn (s : State) (k : Nat) : Bool :=
  let n := if ganged s (k / 4) then k / 4 * 2 else k / 2
  bitOf (portCtl s n) 1

/-- CXP_LINK[n].state. -/
def linkState (s : State) (n : Nat) : Nat := rdF s (Reg.cxpLink.off n 0) 0 2

/-- The link event of class 0x09 (R316). -/
def linkEvent (p code speed conns : Nat) (s : State) : State :=
  postEvent 9 code (portCode p) 0 0 (leBytes 1 speed ++ leBytes 1 conns) s

/-- Sets CXP_LINK[n]; a change to UP or away from it posts an event and sets flag 0 or 1 (R296, R297, R316). -/
def setLink (n state up speed : Nat) (s : State) : State :=
  let was := linkState s n
  let s := wr (Reg.cxpLink.off n 0) (state + up * 16 + speed * 256) s
  if state = 2 ∧ was ≠ 2 then s |> setFlag (portStatus n) 0 |> linkEvent n 1 speed up
  else if was = 2 ∧ state ≠ 2 then s |> setFlag (portStatus n) 1 |> linkEvent n 2 speed up
  else s

/-- Packets sent for an item that no line has answered. -/
def outstanding (s : State) (p : Nat) (item : Word) : Nat := ((s.ports.getD p Port.reset).requests.filter (·.contains item)).length

/-- Every frame of a port ends early (R313): the lines that the open one's triggers still asked for are dropped, it closes with further
flags, and one that waits to open never does. -/
def endFrames (p : Nat) (flags : List Nat) (s : State) : State :=
  let rest := (openFrameOf s p).elim 0 fun f => outstanding s p f.item
  s |> portCount p 4 rest |> modPort p (fun q => { q with frames := q.frames.filter fun f => f.st != 0 }) |> closeFrame p flags true
    |> modPort p (fun q => { q with requests := [], skips := [], line := none })

/-- An enable of a CXP port is refused (R294, 09): a reserved speed, format or width. -/
def cxpRefused (s : State) (n v : Nat) : Bool :=
  decide (6 < bits v 16 4) || decide (8 < rdF s (Reg.cxpFmt.off n 0) 0 4) || decide (16384 < rdF s (Reg.cxpWidth.off n 0) 0 15)

/-- An enable of an AUX port is refused (R310, 09): no store, or a format or width out of range. -/
def auxRefused (s : State) (n : Nat) : Bool :=
  let f := rdF s (Reg.auxFmt.off n 0) 0 4
  !rdB s Reg.auxStore.base 31 || !(decide (f < 4) || f == 9) || decide (4096 < rdF s (Reg.auxWidth.off n 0) 0 15)

/-- The AUX ports that a route word names (R319). -/
def routed (r : Nat) : List Nat := (if bitOf r 0 then [bits r 1 2] else []) ++ (if bitOf r 4 then [bits r 5 2] else [])

/-- AUX port `n` is enabled. -/
def auxEn (s : State) (n : Nat) : Bool := bitOf (portCtl s (auxPort n)) 0

/-- A write of the gang bit is refused (R292, R319): a port of the pair is enabled, or the freed pipeline's route names an enabled port. -/
def gangRefused (s : State) (n : Nat) (on : Bool) : Bool :=
  bitOf (portCtl s n) 0 || bitOf (portCtl s (n + 1)) 0 ||
    (!on && (routed (rd s (Reg.ispRoute.off (n / 2) 0))).any fun a => auxEn s a)

/-- A write of CXP_CTL[n] (R292, R295, R296, R306, R319): one that may not change the gang bit is ignored whole, a rising enable is under
its checks, a falling enable closes the open frame. -/
def writeCxpCtl (n v : Nat) (s : State) : State :=
  let b := Reg.cxpCtl.off n 0
  let old := rd s b
  let gang := bitOf v 2
  let bad := n % 2 == 0 && gang != bitOf old 2 && gangRefused s n gang
  if gangHalf s n then s
  else if bad then setFlag (portStatus n) 2 s
  else
    let gang := n % 2 == 0 && gang
    let rise := bitOf v 0 && !bitOf old 0
    let refused := rise && cxpRefused s n v
    let s := if refused then setFlag (portStatus n) 2 s else s
    let en := bitOf v 0 && !refused
    let w := (v &&& 0xF077A) + b2n en + 4 * b2n gang
    let fall := bitOf old 0 && !en
    let s := if fall then s |> endFrames n [] |> setLink n 0 0 (rdF s (Reg.cxpLink.off n 0) 8 4) else s
    let s := wr b w s
    let s := if w &&& 0x710 = old &&& 0x710 then s else passGates n s
    if rise && !refused then s |> modPort n (fun q => { q with curFmt := none }) |> setLink n 1 0 0 else s

/-- A write of AUX_CTL[n]. -/
def writeAuxCtl (n v : Nat) (s : State) : State :=
  let b := Reg.auxCtl.off n 0
  let old := rd s b
  let rise := bitOf v 0 && !bitOf old 0
  let refused := rise && auxRefused s n
  let s := if refused then setFlag (portStatus (auxPort n)) 2 s else s
  let en := bitOf v 0 && !refused
  let s := if bitOf old 0 && !en then endFrames (auxPort n) [] s else s
  let s := if rise && en then modPort (auxPort n) (fun q => { q with lost := false }) s else s
  let w := (v &&& 0xFF78) ||| b2n en
  let s := wr b w s
  if w &&& 0x711 = old &&& 0x711 then s else passGates (auxPort n) s

/-- CXP_PORT_ENABLE (R296): a write that sets CXP_CTL[n].en. -/
def execCxpPortEnable (w : Writer) (n : Nat) (s : State) : Result :=
  run (fun s => if 12 ≤ n then s else gate w (Reg.cxpCtl.off n 0) 0 (writeCxpCtl n (setBits (portCtl s n) 0 1 1)) s) s

/-- CXP_PORT_DISABLE (R306, R313). -/
def execCxpPortDisable (w : Writer) (n : Nat) (s : State) : Result :=
  run (fun s => if 12 ≤ n then s else gate w (Reg.cxpCtl.off n 0) 0 (writeCxpCtl n (setBits (portCtl s n) 0 1 0)) s) s

/-- CXP_POWER_ENABLE (R295). -/
def execCxpPowerEnable (w : Writer) (n : Nat) (on : Bool) (s : State) : Result :=
  run (fun s => if 12 ≤ n then s else gate w (Reg.cxpCtl.off n 0) 0 (writeCxpCtl n (setBits (portCtl s n) 1 1 (b2n on))) s) s

/-- CXP_GANG_WRITE (R292, R319): `m` is the pair. -/
def execCxpGangWrite (w : Writer) (m : Nat) (on : Bool) (s : State) : Result :=
  run (fun s => if 6 ≤ m then s else
    gate w (Reg.cxpCtl.off (2 * m) 0) 0 (writeCxpCtl (2 * m) (setBits (portCtl s (2 * m)) 2 1 (b2n on))) s) s

/-! ## Links -/

/-- CXP_DISCOVERY_DONE (R296, R316): every connection of the port is up at the lower of max_speed and the camera's highest, or one failed. -/
def execCxpDiscoveryDone (n : Nat) (ok : Bool) (camSpeed : Nat) (s : State) : Result :=
  run (fun s =>
    if 12 ≤ n ∨ coreUp s = false ∨ linkState s n ≠ 1 ∨ gangHalf s n = true then s
    else if ok then s |> setLink n 2 (conns s n) (min (bits (portCtl s n) 16 4) camSpeed) |> passGates n
    else setLink n 3 0 0 s) s

/-- CXP_LINK_LOST (R297, R313, R316). -/
def execCxpLinkLost (n : Nat) (s : State) : Result :=
  run (fun s =>
    if 12 ≤ n ∨ linkState s n ≠ 2 then s
    else s |> endFrames n [5] |> portCount n 11 1 |> setLink n 1 0 (rdF s (Reg.cxpLink.off n 0) 8 4)) s

/-! ## The control mailbox (R298) -/

/-- The mailbox is busy. -/
def ccBusy (s : State) (n : Nat) : Bool := rdB s (Reg.cxpCcStat.off n 0) 0

/-- The first bytes of the mailbox buffer. -/
def ccData (s : State) (n len : Nat) : List Byte := ((List.range 16).flatMap fun j => leBytes 4 (rd s (Reg.cxpCcBuf.off n j))).take len

/-- A write of CXP_CC_CTL[n]. -/
def writeCcCtl (n v : Nat) (s : State) : State :=
  let s := wr (Reg.cxpCcCtl.off n 0) (v &&& 0xFFFF7F02) s
  let len := bits v 8 7
  if !bitOf v 0 || gangHalf s n then s
  else if ccBusy s n then setFlag (portStatus n) 12 s
  else if len = 0 then s |> wr (Reg.cxpCcStat.off n 0) 0 |> setFlag (portStatus n) 11
  else if 64 < len then setFlag (portStatus n) 12 s
  else
    s |> modPort n (fun q => { q with ccWrite := bitOf v 1, ccLen := len })
      |> wrF (Reg.cxpCcStat.off n 0) 0 1 1
      |> emit (.camCommand n len (rd s (Reg.cxpCcAddr.off n 0)) (bitOf v 1) (if bitOf v 1 then ccData s n len else []))

/-- CXP_CC_GO (R298); the mailbox of a gang's second port does nothing (R292). -/
def execCxpCcGo (w : Writer) (n : Nat) (v : Word) (s : State) : Result :=
  run (fun s => if 12 ≤ n then s else gate w (Reg.cxpCcCtl.off n 0) v (writeCcCtl n v.toNat) s) s

/-- CXP_CC_ACK (R298): read data goes to CXP_CC_BUF[n]. -/
def execCxpCcAck (n : Nat) (ack : Nat) (data : List Byte) (s : State) : Result :=
  run (fun s =>
    if 12 ≤ n ∨ ccBusy s n = false then s
    else
      let q := s.ports.getD n Port.reset
      let bs := data.take q.ccLen ++ (ccData s n 64).drop (min data.length q.ccLen)
      let s := if q.ccWrite then s else (List.range 16).foldl (fun s j => wr (Reg.cxpCcBuf.off n j) (leAt bs (4 * j) 4) s) s
      s |> wr (Reg.cxpCcStat.off n 0) (ack % 256 * 256) |> setFlag (portStatus n) 11) s

/-- CXP_CC_TIMEOUT (R298). -/
def execCxpCcTimeout (n : Nat) (s : State) : Result :=
  run (fun s =>
    if 12 ≤ n ∨ ccBusy s n = false then s else s |> wrF (Reg.cxpCcStat.off n 0) 0 1 0 |> setFlag (portStatus n) 12) s

/-! ## Lines -/

/-- Channels of a raw format (R294). -/
def rawChans (fmt : Nat) : Nat := if fmt = 7 ∨ fmt = 8 then 3 else 1

/-- Bits of a raw value (09, AUX_FMT 9 is Mono16). -/
def rawBits (fmt : Nat) : Nat :=
  match fmt with
  | 1 => 10
  | 2 => 12
  | 3 => 14
  | 5 => 10
  | 6 => 12
  | 8 => 10
  | 9 => 16
  | _ => 8

/-- Bytes of a stored line (R308). -/
def lineBytes (f : Frame) : Nat := ceilDiv (f.width * rawChans f.fmt * rawBits f.fmt) 8

/-- Pipeline `k`. -/
def pipeAt (s : State) (k : Nat) : Pipe := s.pipes.getD k Pipe.reset

/-- Ports that feed a pipeline. -/
def portsOf (s : State) (k : Nat) : List Nat := (List.range 16).filter fun p => (pipeOf s p).1 == k && !gangHalf s p

/-- The frames that wait for a pipeline, with their ports. -/
def waitingFrames (s : State) (k : Nat) : List (Nat × Frame) :=
  (portsOf s k).flatMap fun p => ((s.ports.getD p Port.reset).frames.filter fun f => f.st != 0 && f.sink.isNone).map fun f => (p, f)

/-- The frame that its port opened first (R342). -/
def oldestFrame : List (Nat × Frame) → Option (Nat × Frame)
  | [] => none
  | x :: xs => match oldestFrame xs with
    | some y => if y.2.openedAt < x.2.openedAt then some y else some x
    | none => some x

/-- The pipeline takes a port's lines at once: it serves this frame and waits for no token, or it is idle and this frame is the one that it
serves next (R341-R343). -/
def takesNow (s : State) (p : Nat) (f : Frame) : Bool :=
  let k := (pipeOf s p).1
  match (pipeAt s k).serving with
  | some v => v.port == p && v.no == f.no && !v.waiting && !v.sigWait
  | none => pipeUp s k && (oldestFrame (waitingFrames s k)).elim false fun x => x.1 == p && x.2.no == f.no

/-- The port store has room for one more line of a frame (R308, R309). -/
def storeRoom (s : State) (p : Nat) (f : Frame) : Bool :=
  let fs := (s.ports.getD p Port.reset).frames
  if p < 12 then decide ((fs.map fun g => g.lines.length * lineBytes g).sum + lineBytes f ≤ 524288)
  else decide ((fs.map fun g => g.lines.length).sum < 8192)

/-- The place of a line slot in an AUX port's store (R308, R310). -/
def storeSlot (s : State) (p slot : Nat) : Nat :=
  0x1000000000 + rdF s Reg.auxStore.base 0 20 * 65536 + (p - 12) * 0x4000000 + slot * 8192

/-- A line is put into the port store: on the die, or for an AUX port in LPDDR-6, raw values packed from bit 0; a poisoned
word that it covers in part stays as it was (R78, R109, log entry 105). -/
def storeLine (p : Nat) (f : Frame) (px : List Nat) (s : State) : StoredLine × State :=
  if p < 12 then ({ px := px, slot := none }, s)
  else
    let k := (s.ports.getD p Port.reset).storeNext
    ({ px := [], slot := some k },
     (writeAll (storeSlot s p k) (leBytes (lineBytes f) (packFields (rawBits f.fmt) px)) [] s).2
       |> modPort p (fun q => { q with storeNext := (k + 1) % 8192 }))
where
  /-- Fields of `w` bits from bit 0 up. -/
  packFields (w : Nat) : List Nat → Nat
    | [] => 0
    | v :: vs => v % 2 ^ w + packFields w vs * 2 ^ w

/-- A waiting line as the pipeline takes it; a value that lies in a poisoned word is free, as no rule gives one (log entry 105). -/
def fetchLine (p : Nat) (f : Frame) (l : StoredLine) (s : State) : List Nat × State :=
  match l.slot with
  | none => (l.px, s)
  | some k =>
    let a := storeSlot s p k
    let n := f.width * rawChans f.fmt
    let w := rawBits f.fmt
    let v := ofLe (devGet s a (lineBytes f))
    let bad := fun (i : Nat) => poisonHit s.sq.poison (a + w * i / 8) ((w * i + w + 7) / 8 - w * i / 8)
    ((List.range n).map fun i => if bad i then Config.freeNat (s.fresh + i) % 2 ^ w else bits v (w * i) w, { s with fresh := s.fresh + n })

/-- The lines of a frame in service pass from the port to the pipeline, in order (R308, R341). -/
def takeLines (p : Nat) (s : State) : State :=
  let k := (pipeOf s p).1
  match (s.pipes.getD k Pipe.reset).serving with
  | none => s
  | some v =>
    if v.port ≠ p ∨ v.waiting = true ∨ v.sigWait = true then s
    else match (s.ports.getD p Port.reset).frames.find? fun f => f.st != 0 && f.no == v.no with
      | none => s
      | some f =>
        let (px, s) := f.lines.foldl (fun a l => let (x, t) := fetchLine p f l a.2; (a.1 ++ [x], t)) ([], s)
        s |> modPipe k (fun q => { q with serving := q.serving.map fun v => { v with raw := v.raw ++ px } })
          |> modPort p (fun q => { q with frames := updFirst (fun x => x.st != 0 && x.no == v.no) (fun x => { x with lines := [] }) q.frames })

/-- A line of the right format for an open frame below its maximum: padded, cut, stored or dropped (R307, R309). -/
def deliverLine (p : Nat) (px : List Nat) (f : Frame) (s : State) : State :=
  let s := if f.sink.isSome || takesNow s p f || storeRoom s p f then s else
    let s := s |> flagFrame p 3 |> portCount p 4 1 |> (fun s => if f.dropAt.isNone then portCount p 5 1 s else s)
    modOpen p (fun f => { f with dropping := true, dropAt := some (f.dropAt.getD f.received) }) s
  let f := (openFrameOf s p).getD f
  if f.dropping then s
  else
    let n := f.width * rawChans f.fmt
    let s := if px.length < n then s |> flagFrame p 1 |> portCount p 10 1 |> modOpen p (fun f => { f with short := f.short + 1 })
             else if n < px.length then s |> flagFrame p 2 |> portCount p 10 1 |> modOpen p (fun f => { f with long := f.long + 1 })
             else s
    let line := (px ++ List.replicate (n - px.length) f.fill).take n
    let s := portCount p 2 1 s
    match f.sink with
    | some c => s |> modOpen p (fun f => { f with delivered := f.delivered + 1 })
                  |> count (Reg.ispSnapCnt.off (pipeOf s p).1 c) 1
    | none =>
      let (l, s) := if takesNow s p f then ({ px := line, slot := none }, s) else storeLine p f line s
      s |> modOpen p (fun f => { f with delivered := f.delivered + 1, lines := f.lines ++ [l] }) |> takeLines p

/-- The image header in force has another pixel format than a frame: for Bayer the phase counts too (R294, R307). -/
def headerBad (s : State) (p : Nat) (f : Frame) : Bool :=
  (s.ports.getD p Port.reset).curFmt.elim false fun c => c.1 != f.fmt || (decide (4 ≤ f.fmt) && decide (f.fmt ≤ 6) && c.2 != f.phase)

/-- A line joins the open frame (R303, R307); waiting frames that it was meant for miss it (R304). -/
def joinLine (p : Nat) (px : List Nat) (f : Frame) (misses : Frame → Bool) (s : State) : State :=
  let s :=
    if headerBad s p f then s |> flagFrame p 4 |> portCount p 6 1 |> modOpen p (fun f => { f with badfmt := f.badfmt + 1 })
    else if f.dropping then portCount p 4 1 s
    else if f.maxLines ≤ f.delivered then s |> flagFrame p 0 |> portCount p 3 1
    else deliverLine p px f s
  s |> modOpen p (fun f => { f with received := f.received + 1 })
    |> modPort p (fun q => { q with frames := q.frames.map fun x => if x.st = 0 ∧ misses x = true then { x with missed := x.missed + 1 } else x })

/-- A stray line (R305). -/
def strayLine (p : Nat) (s : State) : State := s |> portCount p 7 1 |> setFlag (portStatus p) 8

/-- A line-scan frame whose train has ended and whose every request is answered closes, and the frames that waited for it after it (R303,
R304). -/
def closeIfDone (p : Nat) (s : State) : State :=
  let one := fun (s : State) =>
    match openFrameOf s p with
    | some f => if !f.gateItem && !f.area && f.trainDone && outstanding s p f.item == 0 then closeFrame p [] true s else s
    | none => s
  (List.range ((s.ports.getD p Port.reset).frames.length + 1)).foldl (fun s _ => one s) s

/-- The frames under ITEM gating whose windows have ended close (R303). -/
def gateClose (p : Nat) (s : State) : State := shutGates p (fun i => copyPos s i.posSrc) s

/-- A line begins inside the window of an item whose frame waits to open (R303, R304). -/
def inWindowOf (s : State) (p : Nat) (x : Frame) : Bool :=
  (itemOf s x.item).elim true fun i => reached (copyPos s i.posSrc) (gateStart s p i) && !windowOver s p i

/-- A line answers the oldest request of a port (R303): it joins the open frame, if it was meant for that frame or for one that waits
behind it (R304), and is stray otherwise (R305, R311). -/
def answerLine (p : Nat) (px : List Nat) (f : Option Frame) (s : State) : State :=
  let q := s.ports.getD p Port.reset
  match q.requests with
  | [] => strayLine p s
  | e :: rest =>
    let s := modPort p (fun q => { q with requests := rest }) s
    let waits := fun (x : Frame) => x.st == 0 && e.contains x.item
    match f with
    | some f => if e.contains f.item || q.frames.any waits then s |> joinLine p px f waits |> closeIfDone p else strayLine p s
    | none => strayLine p s

/-- A port receives a line (R303-R309). -/
def lineArrives (p : Nat) (px : List Nat) (s : State) : State :=
  let s := s |> portCount p 1 1 |> gateOpen p |> gateClose p
  match openFrameOf s p with
  | some f =>
    if f.gateItem then joinLine p px f (inWindowOf s p) s
    else if f.area then (if f.imgBegun then joinLine p px f (·.imgBegun) s else strayLine p s)
    else answerLine p px (some f) s
  | none => answerLine p px none s

/-- An image begins (R303): an area-scan frame that waits for its image takes this one; a frame that waits to open sees it pass. -/
def imageBegins (p : Nat) (s : State) : State :=
  s |> modOpen p (fun f => if f.area && !f.gateItem && decide (0 < f.requested) then { f with imgBegun := true } else f)
    |> modPort p (fun q => { q with frames := q.frames.map fun f => if f.st = 0 then { f with imgBegun := decide (0 < f.requested) } else f })

/-- An image ends: the area-scan frame that took it closes. -/
def imageEnds (p : Nat) (s : State) : State :=
  match openFrameOf s p with
  | some f => if f.area && !f.gateItem && f.imgBegun then closeFrame p [] true s else s
  | none => s

/-- The header of an image that the open frame takes has another format: the frame has the flag already at the header (R307). -/
def judgeHeader (p : Nat) (s : State) : State :=
  match openFrameOf s p with
  | some f => if headerBad s p f && (f.gateItem || !f.area || f.imgBegun) then flagFrame p 4 s else s
  | none => s

/-- CXP_STREAM_PACKET (R294, R295, R303-R309). -/
def execCxpStreamPacket (n : Nat) (pkt : StreamPacket) (s : State) : Result :=
  run (fun s =>
    if 12 ≤ n ∨ portUp s n = false then s
    else match pkt with
      | .header fmt phase => s |> modPort n (fun q => { q with curFmt := some (fmt, phase) }) |> gateOpen n |> gateClose n |> imageBegins n |> judgeHeader n
      | .line px => lineArrives n px s
      | .imageEnd => imageEnds n s
      | .other => portCount n 7 1 s) s

/-- An AUX port's pins at one edge of its pixel clock (R301): on the edge that AUX_CTL selects, FV may begin or end an image, LV begins or
ends a line, and a pixel is taken while LV and DV are active, and FV too under fv_use. -/
def auxSample (p : Nat) (e : AuxEdge) (s : State) : State :=
  let ctl := portCtl s p
  if e.rising == bitOf ctl 11 then s
  else
    let fv := e.fv != bitOf ctl 13
    let lv := e.lv != bitOf ctl 14
    let dv := e.dv != bitOf ctl 15
    let q := s.ports.getD p Port.reset
    let s := modPort p (fun q => { q with fv := fv }) s
    let s := if fv && !q.fv then imageBegins p s else s
    let s :=
      if lv then
        let px := if dv && (!bitOf ctl 12 || fv) then [e.d] else []
        modPort p (fun q => { q with line := some (q.line.getD [] ++ px) }) s
      else match q.line with
        | some px => s |> modPort p (fun q => { q with line := none }) |> lineArrives p px
        | none => s
    if q.fv && !fv then imageEnds p s else s

/-- AUX_LINE_RECEIVE (R301, R303): the edges of the pixel clock over one active period of LV, up to the one that ends it. -/
def execAuxLineReceive (n : Nat) (edges : List AuxEdge) (ecc : List EccHit) (s : State) : Result :=
  run (fun s =>
    let p := auxPort n
    if 4 ≤ n ∨ portUp s p = false then s else edges.foldl (fun s e => auxSample p e s) (seeEcc ecc s)) s

/-- AUX_PCLK_LOST (R302, R316): the line in progress ends as a short line, and every open frame ends. -/
def execAuxPclkLost (n : Nat) (ecc : List EccHit) (s : State) : Result :=
  run (fun s =>
    let p := auxPort n
    let q := s.ports.getD p Port.reset
    if 4 ≤ n ∨ coreUp s = false ∨ auxEn s n = false ∨ q.lost = true then s
    else
      let s := match q.line with | some px => lineArrives p px (seeEcc ecc s) | none => s
      s |> endFrames p [5] |> modPort p (fun q => { q with pclk := false, lost := true }) |> setFlag (portStatus p) 1 |> portCount p 11 1
        |> linkEvent p 2 0 0) s

/-- AUX_PCLK_RETURN (R302, R316). -/
def execAuxPclkReturn (n : Nat) (s : State) : Result :=
  run (fun s =>
    let p := auxPort n
    if 4 ≤ n ∨ coreUp s = false ∨ auxEn s n = false ∨ (s.ports.getD p Port.reset).pclk = true then s
    else s |> modPort p (fun q => { q with pclk := true, lost := false }) |> setFlag (portStatus p) 0 |> linkEvent p 1 0 0 |> passGates p) s

/-! ## Triggers (R299, R300, R303) -/

/-- A packet or pulse has gone out for an item: it opens the item's frame, or requests one more line (R303). `shared`: it is the packet that
another item's trigger of the same clock has sent (R299). -/
def requestLine (p : Nat) (item : Word) (shared : Bool) (s : State) : State :=
  let mine := fun (f : Frame) => f.st != 2 && f.item == item
  let s := if (s.ports.getD p Port.reset).frames.any mine then s else
    match itemOf s item with
    | some i => openFrame p i s
    | none => s
  let area := match (s.ports.getD p Port.reset).frames.find? mine with
    | some f => if f.st = 1 then f.area else bitOf (portCtl s p) 5
    | none => bitOf (portCtl s p) 5
  let more := fun (f : Frame) => { f with requested := f.requested + 1, triggers := f.triggers + 1 }
  let ask := fun (l : List (List Word)) =>
    if area then l
    else match shared, l.getLast? with
      | true, some e => l.dropLast ++ [e ++ [item]]
      | _, _ => l ++ [[item]]
  modPort p (fun q => { q with frames := updFirst mine more q.frames, requests := ask q.requests }) s

/-- The least spacing of a port's triggers in units of 2^-32 ns (R300). -/
def minGap (s : State) (p : Nat) : Nat := max 1000 (rdF s (portBase p + 0x1C) 16 16) * 10 * 2 ^ 32

/-- Triggers of an item that are not sent: counted, and the frame's trig_skip flag (R300, R432, R434); where the item has no frame yet, the
one that it gets carries the flag from its opening. -/
def markSkip (p : Nat) (item : Word) (n : Nat) (s : State) : State :=
  let mine := fun (f : Frame) => f.st != 2 && f.item == item
  let fs := (s.ports.getD p Port.reset).frames
  let s := portCount p 9 n s
  if fs.any mine then
    let s := if fs.any (fun f => mine f && f.flags.testBit 6) then s else setFlag (portStatus p) 9 s
    modPort p (fun q => { q with frames := updFirst mine (fun f => { f with flags := f.flags ||| 2 ^ 6 }) q.frames }) s
  else if (itemOf s item).isNone || fs.any (fun f => f.item == item) then s
  else modPort p (fun q => { q with skips := if q.skips.contains item then q.skips else q.skips ++ [item] }) s

/-- A port can send triggers: enabled, and a CXP port with its link up; an AUX pulse needs no pixel clock (R299). -/
def canTrigger (s : State) (p : Nat) : Bool :=
  coreUp s && bitOf (portCtl s p) 0 && !gangHalf s p && bitOf (portCtl s p) 3 && (decide (12 ≤ p) || portUp s p)

/-- The item's triggers form its frame: its open frame does not stand under ITEM gating, or, before it opens, the port does not (R306). -/
def trigGated (s : State) (p : Nat) (item : Word) : Bool :=
  match (s.ports.getD p Port.reset).frames.find? fun f => f.st == 1 && f.item == item with
  | some f => !f.gateItem
  | none => !bitOf (portCtl s p) 4

/-- The Kerb's trigger reaches a port (R299, R300): a packet or pulse, one packet for triggers of two trains in one clock, counted
once against each of their frames, or a skip. -/
def sendTrigger (p : Nat) (item : Word) (s : State) : State :=
  let q := s.ports.getD p Port.reset
  if !canTrigger s p then s
  else
    let trig := trigGated s p item && portUp s p
    match q.lastTrig.map fun t => (timeUnits s.tim.now : Int) - (timeUnits t : Int) with
    | some d =>
      if d = 0 ∧ q.lastItems.contains item = true then s
      else if d = 0 then
        let s := modPort p (fun q => { q with lastItems := q.lastItems ++ [item] }) s
        if trig then requestLine p item true s else s
      else if d < minGap s p then markSkip p item 1 s
      else send trig s
    | none => send trig s
where
  /-- The packet or pulse itself. -/
  send (trig : Bool) (s : State) : State :=
    let s := s |> emit (.trigger p item) |> portCount p 8 1
               |> modPort p (fun q => { q with lastTrig := some s.tim.now, lastItems := [item], trigHigh := q.trigHigh || decide (12 ≤ p) })
    if trig then requestLine p item false s else s

/-- Another train of an item for a port runs, or is on its way to the Kerb (R431, R432). -/
def trainsLeft (s : State) (p : Nat) (item : Word) : Bool :=
  s.ouv.entries.any (fun k => k.kind == 2 && portIndex k.chan == p && k.item == item)
    || s.toKerb.any fun m => m.train && portIndex m.chan == p && m.item == item

/-- A train of an item has ended; with the last one the port has had the last trigger of the item's frame (R303, R312). -/
def trainEnded (p : Nat) (item : Word) (s : State) : State :=
  if trainsLeft s p item then s else
  s |> modPort p (fun q => { q with frames := q.frames.map fun f => if f.st ≠ 2 ∧ f.item = item then { f with trainDone := true } else f })
    |> closeIfDone p

/-- AUX_TRIG_PULSE_END (R299). -/
def execAuxTrigPulseEnd (n : Nat) (s : State) : Result :=
  run (fun s => if 4 ≤ n then s else modPort (auxPort n) (fun q => { q with trigHigh := false }) s) s

/-- FRAME_TAIL_TIMEOUT (R303, R312, R314): tail_us has passed since the item's last trigger. -/
def execFrameTailTimeout (port : Nat) (s : State) : Result :=
  run (fun s =>
    match openFrameOf s port with
    | some f => if !f.gateItem && (if f.area then !f.imgBegun else f.trainDone) then closeFrame port [] true s else s
    | none => s) s

/-- FRAME_GATE_CLOSE (R303, R314): the position reaches the item's close position plus end. -/
def execFrameGateClose (port : Nat) (s : State) : Result :=
  run (fun s => if 16 ≤ port then s else s |> gateOpen port |> gateClose port) s

end Sys2Proof.Machine
end

