-- ==== Sys2Proof/Machine/Imaging.lean ====
section
/-! DEFINITION. The stages of an image pipeline (R320-R329) on rows of working values. A row is a list of pixels, a pixel a list of one or
three channels. -/

namespace Sys2Proof.Machine

open Sys2Proof

/-- One pixel's channels. -/
abbrev Pixel := List Nat
/-- One line of pixels. -/
abbrev Row := List Pixel

/-- A result clamped to 0-65,535 (R320). -/
def clamp16 (x : Int) : Nat := (clampI 0 65535 x).toNat

/-- A list cut into groups of `n`. -/
def groupsOf (n : Nat) : Nat → List Nat → List (List Nat)
  | 0, _ => []
  | f + 1, l => match l with
    | [] => []
    | _ => l.take n :: groupsOf n f (l.drop n)

/-- Stage 1: raw values of `b` bits as working values. -/
def unpackRow (b ch : Nat) (px : List Nat) : Row := groupsOf ch px.length (px.map fun v => v % 2 ^ b * 2 ^ (16 - b))

/-- The element of a list nearest to a signed index. -/
def nearest {α : Type} (d : α) (l : List α) (i : Int) : α := l.getD (clampI 0 ((l.length : Int) - 1) i).toNat d

/-- The pixel at a position, the nearest one inside for a position outside (R320). -/
def rawAt (rows : List Row) (x y : Int) : Pixel := nearest [] (nearest [] rows y) x

/-- A channel of a pixel; a one-channel pixel has the same value in each. -/
def chan (p : Pixel) (c : Nat) : Nat := if p.length = 1 then p.getD 0 0 else p.getD c 0

/-- A field of a parameter block. -/
def setField (p : ParamSet) (o n : Nat) : Nat := leAt p.block o n

/-- A stage is enabled. -/
def stageOn (p : Option ParamSet) (bit : Nat) : Bool := match p with
  | some p => (setField p 0 2).testBit bit
  | none => false

/-- A signed 16-bit field. -/
def setSigned (p : ParamSet) (o : Nat) : Int := signed 16 (setField p o 2)

/-! ## Noise reduction and defects -/

/-- A position is in the defect map (R323): a bitmap of columns for line cameras, a list of positions for area cameras. -/
def inMap (p : ParamSet) (area : Bool) (x y : Nat) : Bool :=
  let n := setField p 0x38 4
  if area then (List.range n).any fun i =>
    let e := leAt p.defect (4 * i) 4
    bits e 0 14 == x && bits e 14 14 == y
  else decide (x < n) && (leAt p.defect (x / 8) 1).testBit (x % 8)

/-- The distance class of an offset (R321). -/
def distClass (dx dy : Int) : Nat :=
  let d := dx * dx + dy * dy
  if d = 0 then 0 else if d = 1 then 1 else if d = 2 then 2 else if d = 4 then 3 else if d = 5 then 4 else 5

/-- The offsets that take part for a format (R321). -/
def windowOf (bayer : Bool) : List (Int × Int) :=
  let r : List Int := if bayer then [-2, 0, 2] else [-2, -1, 0, 1, 2]
  r.flatMap fun dy => r.map fun dx => (dx, dy)

/-- Stage 2, spatial part, of one channel of a pixel (R321). -/
def spatialChan (p : ParamSet) (bayer area : Bool) (rows : List Row) (w h x y c : Nat) : Nat :=
  let centre := chan (rawAt rows x y) c
  let thr := setField p 0xA 2
  let parts := (windowOf bayer).filterMap fun d =>
    let nx := clampI 0 ((w : Int) - 1) (x + d.1)
    let ny := clampI 0 ((h : Int) - 1) (y + d.2)
    let v := chan (rawAt rows nx ny) c
    let near := decide (v - centre ≤ thr) && decide (centre - v ≤ thr) && !inMap p area nx.toNat ny.toNat
    if (d.1 = 0 ∧ d.2 = 0) ∨ near = true then some (setField p (4 + distClass d.1 d.2) 1, v) else none
  let den := (parts.map fun q => q.1).sum
  if den = 0 then centre else clamp16 (divHalfEven ((parts.map fun q => q.1 * q.2).sum : Nat) den)

/-- Stage 2, spatial part, of row `y`. -/
def spatialRow (p : Option ParamSet) (bayer area : Bool) (rows : List Row) (y : Nat) : Row :=
  let r := rows.getD y []
  match p with
  | some p =>
    if stageOn (some p) 0 then
      (List.range r.length).map fun x =>
        (List.range (r.getD x []).length).map fun c => spatialChan p bayer area rows r.length rows.length x y c
    else r
  | none => r

/-- Stage 2, temporal part, of one value against its reference (R322). -/
def temporalVal (p : ParamSet) (x r : Nat) : Nat :=
  let d : Int := x - r
  if (setField p 0xE 2 : Int) < d.natAbs then x else clamp16 (r + divHalfEven (d * setField p 0xC 2) 256)

/-- Stage 2, temporal part, of a row against a reference row. -/
def temporalRow (p : ParamSet) (r ref : Row) : Row := List.zipWith (List.zipWith (temporalVal p)) r ref

/-- Stage 3 of one pixel (R323): the mean of its usable neighbours, and whether it had none. -/
def defectPixel (p : ParamSet) (bayer area : Bool) (r : Row) (x y : Nat) : Pixel × Bool :=
  let v := r.getD x []
  if !inMap p area x y then (v, false)
  else
    let d := if bayer then 2 else 1
    let left := if d ≤ x ∧ inMap p area (x - d) y = false then some (r.getD (x - d) []) else none
    let right := if x + d < r.length ∧ inMap p area (x + d) y = false then some (r.getD (x + d) []) else none
    match left, right with
    | some a, some b => (List.zipWith (fun m n => clamp16 (divHalfEven ((m + n : Nat) : Int) 2)) a b, false)
    | some a, none => (a, false)
    | none, some b => (b, false)
    | none, none => (v, true)

/-- Stage 3 of a row, and how many mapped pixels had no usable neighbour. -/
def defectRow (p : Option ParamSet) (bayer area : Bool) (r : Row) (y : Nat) : Row × Nat :=
  match p with
  | some p =>
    if stageOn (some p) 2 then
      let l := (List.range r.length).map fun x => defectPixel p bayer area r x y
      (l.map (·.1), (l.filter (·.2)).length)
    else (r, 0)
  | none => (r, 0)

/-! ## Black level and flat field -/

/-- Stage 4 of a row: the offset of each Bayer phase position, entry 0 for mono and RGB. -/
def blackRow (p : Option ParamSet) (bayer : Bool) (r : Row) (y : Nat) : Row :=
  match p with
  | some p =>
    if stageOn (some p) 3 then
      r.zipIdx.map fun q => q.1.map fun v => v - setField p (0x10 + 2 * (if bayer then y % 2 * 2 + q.2 % 2 else 0)) 2
    else r
  | none => r

/-- The column gain and offset (R324). -/
def ffColumn (p : ParamSet) (x : Nat) : Nat × Int :=
  if x < setField p 0x48 4 then (leAt p.ff (4 * x) 2, signed 16 (leAt p.ff (4 * x + 2) 2)) else (2 ^ 14, 0)

/-- The row gain. -/
def ffRowGain (p : ParamSet) (y : Nat) : Nat :=
  if y < setField p 0x4C 4 then leAt p.ff (4 * setField p 0x48 4 + 2 * y) 2 else 2 ^ 14

/-- Stage 5 of a row (R324). -/
def flatRow (p : Option ParamSet) (area : Bool) (r : Row) (y : Nat) : Row :=
  match p with
  | some p =>
    if stageOn (some p) 4 then
      r.zipIdx.map fun q =>
        let (g, o) := ffColumn p q.2
        q.1.map fun (v : Nat) =>
          if area then clamp16 (divHalfEven (v * g * ffRowGain p y : Nat) (2 ^ 28) + o) else clamp16 (divHalfEven (v * g : Nat) (2 ^ 14) + o)
    else r
  | none => r

/-! ## Colour, matrix, tone -/

/-- The colour of a Bayer position: 0 red, 1 green, 2 blue (09, CXP_FMT.phase: GR, RG, GB, BG name the first two pixels of row 0). -/
def bayerColour (phase : Nat) (x y : Int) : Nat :=
  let at_ := (y % 2).toNat * 2 + (x % 2).toNat
  let t := match phase with
    | 0 => [1, 0, 2, 1]
    | 1 => [0, 1, 1, 2]
    | 2 => [1, 2, 0, 1]
    | _ => [2, 1, 1, 0]
  t.getD at_ 1

/-- Bilinear demosaic of one channel (R325): the pixel's own value, or the mean of the nearest positions of that colour in the 3 × 3 window,
with the values of R320 outside the frame. -/
def bilinear (phase : Nat) (rows : List Row) (x y c : Nat) : Nat :=
  let near := windowOf3.filter fun d => bayerColour phase (x + d.1) (y + d.2) == c
  let dist := fun (d : Int × Int) => d.1.natAbs + d.2.natAbs
  let best := (near.map dist).foldl min 2
  let vs := (near.filter fun d => dist d == best).map fun d => chan (rawAt rows (x + d.1) (y + d.2)) 0
  clamp16 (divHalfEven (vs.sum : Nat) (max 1 vs.length))
where
  /-- The offsets of a 3 × 3 window. -/
  windowOf3 : List (Int × Int) := [-1, 0, 1].flatMap fun dy => [-1, 0, 1].map fun dx => (dx, dy)

/-- One channel of a Bayer pixel. The gradient-corrected form is free in the values of its 5 × 5 window (log entry 88). -/
def demosaic (p : ParamSet) (phase : Nat) (rows : List Row) (x y c : Nat) : Nat :=
  if setField p 2 1 = 1 then
    min 65535 (Config.demosaic (bayerColour phase x y) (bayerColour phase (x + 1) y)
      ((windowOf false).map fun d => chan (rawAt rows (x + d.1) (y + d.2)) 0) c)
  else bilinear phase rows x y c

/-- Stage 6 of row `y` (R325): trilinear alignment of RGB line-scan, demosaic of Bayer, or pass. -/
def colourRow (p : Option ParamSet) (bayer rgb area : Bool) (phase : Nat) (rows : List Row) (y : Nat) : Row :=
  let r := rows.getD y []
  match p with
  | some p =>
    if !stageOn (some p) 5 then r
    else if bayer then
      (List.range r.length).map fun x => (List.range 3).map (demosaic p phase rows x y)
    else if rgb && !area then
      let s := bits (setField p 3 1) 0 4
      let first := nearest [] rows ((y : Int) - s)
      let third := nearest [] rows ((y : Int) + s)
      let (red, blue) := if (setField p 3 1).testBit 4 then (third, first) else (first, third)
      (List.range r.length).map fun x => [chan (red.getD x []) 0, chan (r.getD x []) 1, chan (blue.getD x []) 2]
    else r
  | none => r

/-- Stage 7 of a pixel (R326). -/
def matrixPixel (p : Option ParamSet) (q : Pixel) : Pixel :=
  match p with
  | some p =>
    if stageOn (some p) 6 && q.length == 3 then
      (List.range 3).map fun i =>
        let acc : Int := ((List.range 3).map fun j => setSigned p (0x18 + 6 * i + 2 * j) * (chan q j : Int)).sum
        clamp16 (divHalfEven acc (2 ^ 12) + setSigned p (0x2A + 2 * i))
    else q
  | none => q

/-- Stage 8 of a pixel (R327). -/
def tonePixel (p : Option ParamSet) (q : Pixel) : Pixel :=
  match p with
  | some p =>
    if stageOn (some p) 7 then
      q.zipIdx.map fun e =>
        let base := if setField p 0x58 1 = 3 then e.2 * 2050 else 0
        let i := e.1 / 64
        let t : Nat → Int := fun k => leAt p.tone (base + 2 * k) 2
        clamp16 (t i + divHalfEven ((t (i + 1) - t i) * (e.1 % 64 : Nat)) 64)
    else q
  | none => q

/-! ## Output -/

/-- A value as U8 (R328). -/
def toU8 (v : Nat) : Byte := BitVec.ofNat 8 (min 255 (divHalfEven v 256).toNat)

/-- The channel that codes 0 and 1 take. -/
def green (q : Pixel) : Nat := chan q 1

/-- The Y value of code 4. -/
def lumaOf (q : Pixel) : Nat := clamp16 (divHalfEven (77 * chan q 0 + 150 * chan q 1 + 29 * chan q 2 : Nat) 256)

/-- A line in an output format (R328). -/
def outLine (fmt : Nat) (r : Row) : List Byte :=
  match fmt with
  | 0 => r.map fun q => toU8 (green q)
  | 1 => r.flatMap fun q => leBytes 2 (green q)
  | 2 => r.flatMap fun q => (List.range 3).map fun c => toU8 (chan q c)
  | 3 => (List.range 3).flatMap fun c => r.map fun q => toU8 (chan q c)
  | _ => r.map fun q => toU8 (lumaOf q)

/-- Bytes of a line of `w` pixels (R328). -/
def outBytes (fmt w : Nat) : Nat := match fmt with
  | 0 => w
  | 1 => 2 * w
  | 2 => 3 * w
  | 3 => 3 * w
  | _ => w

/-- A tap byte: its tap, enable and form (R329). -/
def tapOf (p : Option ParamSet) (b : Nat) : Option (Nat × Nat) :=
  match p with
  | some p =>
    let t := setField p (0x5A + b) 1
    if t.testBit 3 then some (bits t 0 3, if t.testBit 4 then 0 else 1) else none
  | none => none

/-- Every stage of one line: the values at taps T1 to T6 and after stage 8. -/
structure Stages where
  t2 : Row
  t3 : Row
  t4 : Row
  t5 : Row
  t6 : Row
  out : Row
  unfixed : Nat
  deriving DecidableEq, Repr

/-- Stages 3 to 5 of row `y` of the noise-reduced rows. -/
def flatOf (p : Option ParamSet) (bayer area : Bool) (t1 : List Row) (y : Nat) : Row :=
  flatRow p area (blackRow p bayer (defectRow p bayer area (t1.getD y []) y).1 y) y

/-- Stages 3 to 8 of row `y` of the noise-reduced rows. -/
def stagesOf (p : Option ParamSet) (bayer rgb area : Bool) (phase : Nat) (t1 : List Row) (y : Nat) : Stages :=
  let (t2, bad) := defectRow p bayer area (t1.getD y []) y
  let t3 := blackRow p bayer t2 y
  let t4 := flatRow p area t3 y
  let t5 := colourRow p bayer rgb area phase ((List.range t1.length).map fun i => flatOf p bayer area t1 i) y
  let t6 := t5.map (matrixPixel p)
  { t2 := t2, t3 := t3, t4 := t4, t5 := t5, t6 := t6, out := t6.map (tonePixel p), unfixed := bad }

/-- The values at a tap. -/
def tapRow (g : Stages) (t0 t1 : Row) (tap : Nat) : Row :=
  match tap with
  | 0 => t0
  | 1 => t1
  | 2 => g.t2
  | 3 => g.t3
  | 4 => g.t4
  | 5 => g.t5
  | _ => g.t6

end Sys2Proof.Machine
end

