-- ==== Sys2Proof/Machine/Pipes.lean ====
section
/-! DEFINITION. Image pipelines (10_image_pipelines.md): routes, parameter sets, frames in service, stripes and their signals. -/

namespace Sys2Proof.Machine

open Sys2Proof

/-! ## Parts -/

/-- Changes a context of a pipeline. -/
def modCtx (k c : Nat) (f : PipeCtx → PipeCtx) (s : State) : State := modPipe k (fun p => { p with ctxs := modAt c f p.ctxs }) s

/-- Changes the frame in service. -/
def modServing (k : Nat) (f : Serving → Serving) (s : State) : State := modPipe k (fun p => { p with serving := p.serving.map f }) s

/-- Counts `n` in counter `i` of a pipeline. -/
def pipeCount (k i n : Nat) (s : State) : State := count (Reg.ispSnapCnt.off k i) n s

/-- ISP_STATUS[k]. -/
def pipeStatus (k : Nat) : Nat := Reg.ispStatus.off k 0

/-! ## Routes (R318, R319) -/

/-- A write of ISP_ROUTE[k] with an invalid or disturbing value. -/
def routeRefused (s : State) (k v : Nat) : Bool :=
  let old := routed (rd s (Reg.ispRoute.off (k / 2) 0))
  let new := routed v
  let others := ((List.range 6).filter fun m => m != k / 2).flatMap fun m => routed (rd s (Reg.ispRoute.off m 0))
  (old ++ new).any (fun a => auxEn s a) || (match new with | [a, b] => a == b | _ => false) || new.any fun a => others.contains a

/-- A write of ISP_ROUTE[k], odd k below 12. -/
def writeRoute (k v : Nat) (s : State) : State :=
  if routeRefused s k v then setFlag (pipeStatus k) 7 s else wr (Reg.ispRoute.off (k / 2) 0) (v &&& 0x77) s

/-- ISP_ROUTE_WRITE (R319); the register is RV for even k and for k = 13. -/
def execIspRouteWrite (w : Writer) (k : Nat) (v : Word) (s : State) : Result :=
  run (fun s => if k % 2 = 0 ∨ 12 ≤ k then s else gate w (Reg.ispRoute.off (k / 2) 0) v (writeRoute k v.toNat) s) s

/-! ## Parameter sets (R331-R334) -/

/-- A write of ISP_PCTL[k][c]. -/
def writePctl (k c v : Nat) (s : State) : State :=
  if !bitOf v 0 then s
  else if (ctxOf s k c).loadingSet then s |> setFlag (pipeStatus k) 1 |> wrF (Reg.ispPctl.off k c) 8 8 Stat.badFormat
  else modCtx k c (fun x => { x with pending := none, loadingSet := true, loadAddr := rd s (Reg.ispPaddr.off k c) * 256 }) s

/-- ISP_PARAM_LOAD_GO (R332, R334). -/
def execIspParamLoadGo (w : Writer) (k c : Nat) (v : Word) (s : State) : Result :=
  run (fun s => if 14 ≤ k ∨ 2 ≤ c then s else gate w (Reg.ispPctl.off k c) v (writePctl k c v.toNat) s) s

/-- Parameter sets lie in LPDDR-6 or an enabled host window (R331). -/
def setMapped (s : State) (a n : Nat) : Bool :=
  match regionOf a with
  | .lpddr => decide (a + n ≤ 0x2000000000)
  | .host => winCovers s a n
  | _ => false

/-- The tables that a block names, as (address, length): defect map, flat field, tone, with counts no larger than their ranges. A
zero-length table is none. -/
def setTables (b : List Byte) (area : Bool) : List (Nat × Nat) :=
  let n := min (leAt b 0x38 4) (if area then 4096 else 16384)
  [(leAt b 0x30 8, if area then 4 * n else ceilDiv n 8),
   (leAt b 0x40 8, 4 * min 16384 (leAt b 0x48 4) + (if area then 2 * min 16384 (leAt b 0x4C 4) else 0)),
   (leAt b 0x50 8, (if leAt b 0x58 1 = 3 then 3 else 1) * 2050)]

/-- The counts of a block lie in their ranges (R331). -/
def setCounts (b : List Byte) (area : Bool) : Bool :=
  decide (leAt b 0x38 4 ≤ if area then 4096 else 16384) && decide (leAt b 0x48 4 ≤ 16384) && decide (leAt b 0x4C 4 ≤ 16384)

/-- A tap byte is valid (R329). -/
def tapOk (t : Nat) : Bool := decide (bits t 0 3 ≤ 6) && bits t 5 3 == 0

/-- Reserved fields are zero, w[0] is not, and the codes are valid (R331). -/
def setCodes (b defect : List Byte) (area : Bool) : Bool :=
  leAt b 1 1 == 0 && decide (leAt b 2 1 ≤ 1) && bits (leAt b 3 1) 5 3 == 0 && leAt b 4 1 != 0
    && decide (1 ≤ leAt b 0xC 2) && decide (leAt b 0xC 2 ≤ 256)
    && leAt b 0x3C 4 == 0 && (leAt b 0x58 1 == 1 || leAt b 0x58 1 == 3) && decide (leAt b 0x59 1 ≤ 4)
    && tapOk (leAt b 0x5A 1) && tapOk (leAt b 0x5B 1) && leAt b 0x5C 4 == 0 && leAt b 0x68 24 == 0
    && (!area || (List.range (leAt b 0x38 4)).all fun i => bits (leAt defect (4 * i) 4) 28 4 == 0)

/-- The camera behind a context is an area camera. -/
def ctxArea (s : State) (k c : Nat) : Bool :=
  (List.range 16).any fun p => pipeOf s p == (k, c) && !gangHalf s p && bitOf (portCtl s p) 5

/-- What a load finds (R332): a status, and the set when it is OK. Every address of the block, tone_addr and tnr_ref included, is checked
whatever the enables. -/
def loadSet (m : MemRun) (k c a : Nat) (s : State) : Nat × Option ParamSet × State :=
  let area := ctxArea s k c
  if !setMapped s a 128 then (Stat.unmapped, none, s)
  else
    let (r, s) := runRead m a 128 s
    if r.status ≠ Stat.ok then (r.status, none, s)
    else
      let b := r.data
      let named := (setTables b area).filter fun t => t.2 != 0
      if !(named.all fun t => setMapped s t.1 t.2) || !setMapped s (leAt b 0x60 8) 1 then (Stat.unmapped, none, s)
      else if !setCounts b area then (Stat.length, none, s)
      else
        let rds := (setTables b area).foldl (fun (acc : List AccessResult × State) t =>
          let (r, s) := if t.2 = 0 then ({ status := Stat.ok, data := [] }, acc.2) else runRead m t.1 t.2 acc.2
          (acc.1 ++ [r], s)) ([], s)
        let tab := fun i => (rds.1.getD i { status := Stat.ok, data := [] })
        if !setCodes b (tab 0).data area then (Stat.badFormat, none, rds.2)
        else match rds.1.find? fun r => r.status != Stat.ok with
          | some r => (r.status, none, rds.2)
          | none => (Stat.ok, some { block := b, defect := (tab 0).data, ff := (tab 1).data, tone := (tab 2).data }, rds.2)

/-- ISP_PARAM_LOAD_DONE (R332). -/
def execIspParamLoadDone (k c : Nat) (m : MemRun) (s : State) : Result :=
  run (fun s =>
    if 14 ≤ k ∨ 2 ≤ c ∨ pipeUp s k = false ∨ (ctxOf s k c).loadingSet = false then s
    else
      let (st, set, s) := loadSet m k c (ctxOf s k c).loadAddr (seeEcc m.ecc s)
      s |> modCtx k c (fun x => { x with loadingSet := false, pending := set })
        |> wrF (Reg.ispPctl.off k c) 8 8 st |> setFlag (pipeStatus k) (if st = Stat.ok then 0 else 1)) s

/-! ## Frames in service -/

/-- The frame in service as its port holds it. -/
def servedFrame (s : State) (v : Serving) : Option Frame :=
  (s.ports.getD v.port Port.reset).frames.find? fun f => f.st != 0 && f.no == v.no

/-- Changes the frame in service as its port holds it. -/
def modServed (v : Serving) (f : Frame → Frame) (s : State) : State :=
  modPort v.port (fun q => { q with frames := updFirst (fun x => x.st != 0 && x.no == v.no) f q.frames }) s

/-- The port has closed the frame and the pipeline has taken its every line. -/
def allTaken (s : State) (v : Serving) : Bool :=
  match servedFrame s v with
  | some f => f.st == 2 && f.lines.isEmpty
  | none => true

/-- The sample of a frame in service enters the hash engine's work (R396, R402), once. -/
def queueFrameSample (v : Serving) (summary : List Byte) (s : State) : State :=
  s |> queueSample v.item summary |> modServed v (fun f => { f with sampled := true })

/-- The pipeline lets a frame go (R343): lines that still arrive are dropped and counted in counter `c`. -/
def letFrameGo (k c : Nat) (v : Serving) (s : State) : State :=
  let left := match servedFrame s v with | some f => f.lines.length | none => 0
  let s := match servedFrame s v with | some f => if f.st = 2 then spoilRef v.port f s else s | none => s
  s |> pipeCount k c left |> modServed v (fun f => { f with lines := [], sink := some c })
    |> modPort v.port (fun q => { q with frames := q.frames.filter fun f => !(f.st == 2 && f.sink.isSome) })
    |> modPipe k (fun p => { p with serving := none, lastCtx := v.ctx }) |> pipeCount k 0 1

/-- A frame ends with its last stripe (R343, R396, R322). -/
def finishFrame (k : Nat) (v : Serving) (s : State) : State :=
  let n := v.raw.length
  let f := servedFrame s v
  let summary := if v.fit then sampleSummary (portCode v.port) 0 (outFmt v.set) 0xFE v.width 0 0
                 else sampleSummary (portCode v.port) 0 (outFmt v.set) 0 v.width n v.crc
  let clean := f.elim false fun f => f.flags &&& shapeFlags == 0
  s |> queueFrameSample v summary
    |> modCtx k v.ctx (fun x => if stageOn v.set 1 && v.area && !v.fit then { x with refOk := clean, refWidth := v.width, refLines := n } else x)
    |> letFrameGo k 5 v

/-- A frame that is dropped after some of its rows have gone over the reference area leaves no reference behind (R322, log entry 30). -/
def dropRef (k : Nat) (v : Serving) (s : State) : State :=
  if stageOn v.set 1 && v.area && !v.t1.isEmpty then modCtx k v.ctx (fun x => { x with refOk := false }) s else s

/-- A frame is dropped whole because its port has no binding (R339). -/
def dropUnbound (k : Nat) (v : Serving) (s : State) : State :=
  s |> setFlag (pipeStatus k) 4 |> pipeCount k 5 v.raw.length
    |> queueFrameSample v (sampleSummary (portCode v.port) 0 (outFmt v.set) 0xFE v.width 0 0) |> letFrameGo k 5 v

/-- A main or tap line is longer than its pitch (R339). -/
def fitFails (set : Option ParamSet) (b : Binding) (width : Nat) : Bool :=
  let tap := fun (i pitch base : Nat) => match tapOf set i with
    | some (_, form) => leAt b.payload base 8 != 0 && decide (leAt b.payload pitch 4 < outBytes form width)
    | none => false
  decide (leAt b.payload 0x14 4 < outBytes (outFmt set) width) || tap 0 0x24 0x18 || tap 1 0x34 0x28

/-- A pending set becomes active with the first line of a frame (R333). -/
def applyPending (k c : Nat) (s : State) : State :=
  match (ctxOf s k c).pending with
  | none => s
  | some p =>
    s |> modCtx k c (fun x => { x with active := some p, pending := none, gen := (x.gen + 1) % 2 ^ 32, refOk := false })
      |> setFlag (pipeStatus k) 2

/-- The pipeline takes a frame into service. -/
def serveFrame (k p : Nat) (f : Frame) (s : State) : State :=
  let c := (pipeOf s p).2
  let s := if f.lines.isEmpty then s else applyPending k c s
  let x := ctxOf s k c
  let b := s.binds.find? fun b => b.port == p
  let temporal := stageOn x.active 1 && f.area
  let v : Serving :=
    { port := p, ctx := c, item := f.item, no := f.no, set := x.active, gen := x.gen, width := f.width, fmt := f.fmt, area := f.area, raw := []
      doneLines := 0, buf := none, waiting := false, crc := 0, restart := temporal && (!x.refOk || x.refWidth != f.width), t1 := []
      phase := f.phase, deadline := f.deadline, posSrc := f.posSrc, fit := b.any fun b => fitFails x.active b f.width, bind := b
      granted := false, sigWait := false, lastSig := false }
  let s := if (pipeAt s k).lastCtx = c then s else pipeCount k 7 1 s
  let s := modPipe k (fun q => { q with serving := some v }) s
  if b.isNone then dropUnbound k v s
  else if v.fit then s |> setFlag (pipeStatus k) 3 |> pipeCount k 5 f.lines.length |> modServed v (fun f => { f with lines := [], sink := some 5 })
  else takeLines p s

/-- A frame whose last signal waited for a pair is finished once it has acted (R341, R343). -/
def settlePipe (k : Nat) (s : State) : State :=
  match (pipeAt s k).serving with
  | some v => if v.lastSig && !v.sigWait then finishFrame k v s else takeLines v.port s
  | none => s

/-- PIPELINE_FRAME_START (R333, R339, R342, R343): the oldest frame, once its first line is there or it has closed without one. -/
def execPipelineFrameStart (k : Nat) (ecc : List EccHit) (s : State) : Result :=
  run (fun s =>
    if 14 ≤ k ∨ pipeUp s k = false then s
    else
      let s := s |> seeEcc ecc |> settlePipe k
      if (pipeAt s k).serving.isSome then s
      else match oldestFrame (waitingFrames s k) with
        | some (p, f) => if f.lines.isEmpty && f.st != 2 then s else serveFrame k p f s
        | none => s) s

/-! ## Stripes -/

/-- Lines that stage 2 looks ahead. -/
def lookNoise (v : Serving) : Nat := if stageOn v.set 0 then 2 else 0

/-- The format of a frame is Bayer. -/
def isBayer (v : Serving) : Bool := decide (4 ≤ v.fmt) && decide (v.fmt ≤ 6)

/-- The format of a frame is RGB. -/
def isRgb (v : Serving) : Bool := v.fmt == 7 || v.fmt == 8

/-- Lines that stage 6 looks ahead (R330). -/
def lookColour (v : Serving) : Nat :=
  match v.set with
  | none => 0
  | some p =>
    if !stageOn v.set 5 then 0
    else if isBayer v then (if setField p 2 1 = 1 then 2 else 1)
    else if isRgb v && !v.area then bits (setField p 3 1) 0 4
    else 0

/-- Whether the frame keeps its temporal reference is known: an area frame under temporal reduction waits for its line count (R322). -/
def countKnown (s : State) (v : Serving) : Bool := !(stageOn v.set 1 && v.area && !v.restart) || allTaken s v

/-- The frame passes temporal reduction unchanged (R322). -/
def restarts (s : State) (v : Serving) : Bool :=
  v.restart || (stageOn v.set 1 && v.area && (ctxOf s (pipeOf s v.port).1 v.ctx).refLines != v.raw.length)

/-- Lines of a stripe. -/
def stripeLines (v : Serving) : Nat := v.bind.elim 1 fun b => leAt b.payload 0xE 2

/-- Lines of the next stripe that can leave now, and whether it is the last; none while the stripe is not complete. A frame that closes after
its last full stripe ends with a header alone (R337). -/
def stripeReady (s : State) (v : Serving) : Option (Nat × Bool) :=
  let n := v.raw.length
  if v.fit then some (0, true)
  else if !countKnown s v then none
  else if allTaken s v then
    let m := min (stripeLines v) (n - v.doneLines)
    some (m, decide (n ≤ v.doneLines + m))
  else if v.doneLines + stripeLines v + lookNoise v + lookColour v ≤ n then some (stripeLines v, false)
  else none

/-- The address of row `y` of the reference area. -/
def refAddr (p : ParamSet) (w ch y : Nat) : Nat := setField p 0x60 8 + y * w * ch * 2

/-- One more row after noise reduction (R321, R322); area frames read and then write the reference area. -/
def nextT1 (restart : Bool) (v : Serving) (rows : List Row) (acc : List Row × State) (y : Nat) : List Row × State :=
  let x := spatialRow v.set (isBayer v) v.area rows y
  match v.set with
  | none => (acc.1 ++ [x], acc.2)
  | some p =>
    if !stageOn v.set 1 then (acc.1 ++ [x], acc.2)
    else if v.area then
      let ch := rawChans v.fmt
      let (r, s) := if restart then ({ status := Stat.ok, data := [] }, acc.2) else devRead (refAddr p v.width ch y) (v.width * ch * 2) [] acc.2
      let row := if restart || r.status != Stat.ok then x
                 else temporalRow p x (groupsOf ch (v.width * ch) ((List.range (v.width * ch)).map fun i => leAt r.data (2 * i) 2))
      (acc.1 ++ [row], (devWrite (refAddr p v.width ch y) (row.flatMap fun q => q.flatMap (leBytes 2)) [] s).2)
    else match acc.1.getLast? with
      | some r => (acc.1 ++ [temporalRow p x r], acc.2)
      | none => (acc.1 ++ [x], acc.2)

/-- The header of a stripe (R338). -/
def stripeHeader (v : Serving) (lines flags : Nat) : List Byte :=
  leBytes 4 v.item.toNat ++ leBytes 4 v.no ++ leBytes 4 v.doneLines ++ leBytes 2 lines ++ leBytes 2 flags ++ leBytes 1 (portCode v.port)
    ++ leBytes 1 (outFmt v.set) ++ leBytes 2 v.width ++ leBytes 4 v.gen ++ List.replicate 40 0

/-- Writes the header and the lines of a stripe into a buffer (R336, R338). -/
def putStripe (base pitch : Nat) (header : List Byte) (lines : List (List Byte)) (s : State) : State :=
  let s := (squareAccess (.write base header) [] s).2
  lines.zipIdx.foldl (fun s l => (squareAccess (.write (base + 64 + l.2 * pitch) l.1) [] s).2) s

/-- A tap's buffer in a binding: base of buffer 0, bytes per buffer, pitch. -/
def tapBuffer (b : Binding) (i : Nat) : Option (Nat × Nat × Nat) :=
  let o := 0x18 + 16 * i
  if leAt b.payload o 8 = 0 then none else some (leAt b.payload o 8, leAt b.payload (o + 8) 4, leAt b.payload (o + 12) 4)

/-- Writes the next stripe of `m` lines, main output and taps, and signals it (R336-R338, R397). Every mapped pixel without a usable
neighbour is one event of ISP_STATUS flag 6, whose seq counts them (R323). -/
def writeStripe (k : Nat) (v : Serving) (b : Binding) (j m : Nat) (last : Bool) (s : State) : State :=
  let rows := v.raw.map (unpackRow (rawBits v.fmt) (rawChans v.fmt))
  let rs := restarts s v
  let need := if allTaken s v then rows.length else v.doneLines + m + lookColour v
  let (t1, s) := ((List.range need).drop v.t1.length).foldl (nextT1 rs v rows) (v.t1, s)
  let ys := (List.range m).map (· + v.doneLines)
  let gs := ys.map fun y => stagesOf v.set (isBayer v) (isRgb v) v.area v.phase t1 y
  let unfixed := (gs.map (·.unfixed)).sum
  let flags := b2n last + 2 * b2n v.fit + 4 * b2n (rs && stageOn v.set 1 && v.area) + 8 * b2n (unfixed != 0)
  let header := stripeHeader v m flags
  let main := gs.map fun g => outLine (outFmt v.set) g.out
  let s := putStripe (leAt b.payload 0 8 + j * leAt b.payload 8 4) (leAt b.payload 0x14 4) header main s
  let s := (List.range 2).foldl (fun s i =>
    match tapOf v.set i, tapBuffer b i with
    | some (tap, form), some (base, bytes, pitch) =>
      let lines := (List.zip ys gs).map fun e => outLine form (tapRow e.2 (rows.getD e.1 []) (t1.getD e.1 []) tap)
      s |> putStripe (base + j * bytes) pitch header lines |> pipeCount k 3 1
    | _, _ => s) s
  let s := s |> bindItem v.item |> (fun s => (List.range unfixed).foldl (fun s _ => setFlag (pipeStatus k) 6 s) s) |> pipeCount k 1 m |> pipeCount k 2 1
             |> modServing k (fun v => { v with buf := none, t1 := t1, doneLines := v.doneLines + m, crc := crc64 v.crc main.flatten
                                                restart := rs, lastSig := last })
  let (r, s) := signal b.handle (leAt b.payload 0x12 2) 1 (some v.item) (some (.pipe k)) s
  match r with
  | .waits => modServing k (fun v => { v with sigWait := true }) s
  | .done _ => settlePipe k s

/-- A buffer is the pipeline's for the next stripe (R336): buffer j mod nbuf, where j counts the stripes of the binding. -/
def assignBuffer (k : Nat) (b : Binding) (s : State) : State :=
  let up := fun (x : Binding) => { x with stripes := x.stripes + 1 }
  { s with binds := updFirst (fun x => x.ord == b.ord) up s.binds }
    |> modServing k (fun v => { v with granted := false, waiting := false, buf := some (b.stripes % max 1 (leAt b.payload 0xC 2)), bind := some (up b) })

/-- The item's deadline has been reached (R19, R340). -/
def pastDeadline (s : State) (v : Serving) : Bool := reached (copyPos s v.posSrc) v.deadline

/-- A next stripe is due: it has a line, or the frame has closed (R336, R337). -/
def stripeDue (s : State) (v : Serving) : Bool :=
  !v.lastSig && (v.fit || decide (v.doneLines < v.raw.length) || allTaken s v)

/-- STRIPE_BUFFER_ACQUIRE (R30, R336, R340, R341): the deadline check, then 1 from free_tok, waiting while there is none. -/
def execStripeBufferAcquire (k : Nat) (m : MemRun) (s : State) : Result :=
  run (fun s =>
    if 14 ≤ k ∨ pipeUp s k = false then s
    else
      let s := s |> seeEcc m.ecc |> settlePipe k
      match (pipeAt s k).serving with
      | none => s
      | some v =>
        match v.bind with
        | none => s |> pipeCount k 5 (v.raw.length - v.doneLines) |> dropRef k v |> letFrameGo k 5 v
        | some b =>
          if v.granted then assignBuffer k b s
          else if v.buf.isSome || v.waiting || v.sigWait || !stripeDue s v then s
          else if pastDeadline s v then
            s |> setFlag (pipeStatus k) 5 |> pipeCount k 4 (v.raw.length - v.doneLines) |> dropRef k v |> letFrameGo k 4 v
          else
            let t := leAt b.payload 0x10 2
            let s := s |> modServing k (fun v => { v with waiting := true })
                       |> modTok b.handle t (fun q => { q with waiters := q.waiters ++ [{ who := .pipe k, amt := 1, item := none }] })
                       |> serveToken b.handle t
            match (pipeAt s k).serving with
            | some v => if v.granted then assignBuffer k b s else s
            | none => s) s

/-- STRIPE_WRITE_DONE (R320-R329, R336-R338, R397). -/
def execStripeWriteDone (k : Nat) (m : MemRun) (s : State) : Result :=
  run (fun s =>
    if 14 ≤ k ∨ pipeUp s k = false then s
    else match (pipeAt s k).serving with
      | none => s
      | some v =>
        let s := seeEcc m.ecc s
        match v.bind, v.buf, stripeReady s v with
        | some b, some j, some (m, last) => writeStripe k v b j m last s
        | _, _, _ => settlePipe k s) s

end Sys2Proof.Machine
end

