-- ==== Sys2Proof/Machine/Records.lean ====
section
/-! DEFINITION. The record decoders (R361-R366, R398): checking headers, resynchronising, and delivering records to buffers or to the
Caddy. A running job counts in order: delivered, voided, rejected, offset after the current record, device address of its payload,
whether the record has a slot, its batch and its slot. -/

namespace Sys2Proof.Machine

open Sys2Proof

/-! ## The stream -/

/-- The stream of a context; none has been started: an empty one. -/
def streamOf (s : State) (h c : Nat) : Stream :=
  (s.eng.streams.find? fun x => x.handle == h && x.ctx == c).getD { handle := h, ctx := c, base := 0, len := 0, off := 0 }

/-- Sets the stream of a context. -/
def setStream (x : Stream) (s : State) : State :=
  modEng (fun e => { e with streams := (e.streams.filter fun y => !(y.handle == x.handle && y.ctx == x.ctx)) ++ [x] }) s

/-- The stream that a job decodes. -/
def jobStream (s : State) (j : Job) : Stream := streamOf s j.task.handle (leAt j.desc 1 1)

/-- Moves a job's stream to an offset. -/
def seekStream (j : Job) (off : Nat) (s : State) : State := setStream { jobStream s j with off := off } s

/-- The magic of a record header. -/
def recMagic (h : List Byte) : Bool := h.take 4 == [0x50, 0x4C, 0x52, 0x43]

/-- The header check of a record (R361). -/
def recCheck (h : List Byte) : Bool := leAt h 0x16 2 == crc32c (h.take 0x16 ++ [0, 0] ++ (h.drop 0x18).take 8) % 65536

/-- Decoded bytes of a record's pixels. -/
def recPixels (h : List Byte) : Nat := leAt h 6 2 * leAt h 0x12 2 * (leAt h 5 1 + 1)

/-- The format of a header is one of R361's and its width no larger than a line; a width or a number of lines of 0 gives a record without
pixels (R211). -/
def recFields (h : List Byte) : Bool := decide (leAt h 5 1 ≤ 2) && decide (leAt h 6 2 ≤ 16384)

/-! ## JPEG-LS codestreams (R362; the markers are T.87's, PRESUMED, log entry 36) -/

/-- The segments of a codestream: each marker with the bytes of its parameters; entropy-coded bytes, which hold no marker, are passed. -/
def jlsSegs : Nat → List Byte → List (Nat × List Byte)
  | 0, _ => []
  | _ + 1, [] => []
  | f + 1, b :: r =>
    if b ≠ 0xFF then jlsSegs f r
    else
      let k := leAt r 0 1
      if k = 0xFF then jlsSegs f r
      else if k < 0x80 then jlsSegs f (r.drop 1)
      else if 0xD0 ≤ k ∧ k ≤ 0xD9 then (k, []) :: jlsSegs f (r.drop 1)
      else
        let n := max 2 (beAt r 1 2)
        (k, (r.drop 3).take (n - 2)) :: jlsSegs f (r.drop (1 + n))

/-- Components of a record's format. -/
def fmtComps (fmt : Nat) : Nat := if fmt = 2 then 3 else 1

/-- A frame header agrees with the record: precision, lines, width and components. -/
def jlsFrameOk (fmt w h : Nat) (b : List Byte) : Bool :=
  (if fmt = 1 then decide (2 ≤ leAt b 0 1) && decide (leAt b 0 1 ≤ 16) else leAt b 0 1 == 8)
    && beAt b 1 2 == h && beAt b 3 2 == w && leAt b 5 1 == fmtComps fmt && b.length == 6 + 3 * fmtComps fmt

/-- A scan header is one that the decoders support: no mapping table, NEAR 0, interleave none for one component, or line or sample for
all. -/
def jlsScanOk (fmt : Nat) (b : List Byte) : Bool :=
  let n := leAt b 0 1
  let ilv := leAt b (2 + 2 * n) 1
  b.length == 4 + 2 * n && (List.range n).all (fun i => leAt b (2 + 2 * i) 1 == 0) && leAt b (1 + 2 * n) 1 == 0
    && leAt b (3 + 2 * n) 1 == 0 && (if ilv = 0 then n == 1 else decide (ilv ≤ 2) && n == fmtComps fmt)

/-- Any other segment is one that the decoders support: thresholds by LSE, no mapping tables, no restart markers. -/
def jlsOtherOk (x : Nat × List Byte) : Bool :=
  match x.1 with
  | 0xF8 => leAt x.2 0 1 == 1 && x.2.length == 11
  | 0xDD => ofLe x.2 == 0
  | k => !(decide (0xD0 ≤ k) && decide (k ≤ 0xD7)) && !(decide (0xC0 ≤ k) && decide (k ≤ 0xCF))

/-- The segments before the first pixel: SOI, the frame header and the first scan header, with what may stand between them. -/
def jlsHeadOk (fmt w h : Nat) (segs : List (Nat × List Byte)) : Bool :=
  let head := segs.takeWhile fun x => x.1 != 0xDA
  (head.head?.elim false fun x => x.1 == 0xD8) && (head.filter fun x => x.1 == 0xF7).length == 1
    && head.all (fun x => if x.1 = 0xF7 then jlsFrameOk fmt w h x.2 else jlsOtherOk x)
    && ((segs.drop head.length).head?.elim false fun x => jlsScanOk fmt x.2)

/-- The segments after the first pixel: one scan for each component that is not interleaved, up to EOI. -/
def jlsTailOk (fmt : Nat) (segs : List (Nat × List Byte)) : Bool :=
  let scans := segs.filter fun x => x.1 == 0xDA
  let tail := (segs.dropWhile fun x => x.1 != 0xDA).drop 1
  tail.all (fun x => if x.1 = 0xDA then jlsScanOk fmt x.2 else x.1 != 0xF7 && x.1 != 0xD8 && jlsOtherOk x)
    && (tail.getLast?.elim false fun x => x.1 == 0xD9)
    && (scans.map fun x => leAt x.2 0 1).sum == fmtComps fmt

/-- A JPEG-LS payload, decoded: the pixel bytes of its width × lines, as many as there are, and whether it was valid to its end; none where it
is invalid before its first pixel (R362, R366). The entropy decoding is free. -/
def jlsDecode (payload : List Byte) (fmt w h : Nat) : Option (List Byte × Bool) :=
  let segs := jlsSegs payload.length payload
  let n := w * h * (match fmt with | 1 => 2 | 2 => 3 | _ => 1)
  if jlsHeadOk fmt w h segs then
    (Config.jpegLs payload fmt w h).map fun r => (r.1.take n, r.2 && jlsTailOk fmt segs && decide (n ≤ r.1.length))
  else none

/-! ## Resynchronising -/

/-- The next 8-byte-aligned offset at or after a byte count. -/
def align8 (n : Nat) : Nat := (n + 7) / 8 * 8

/-- The offset of the record after the one at `off`. -/
def recNext (off : Nat) (h : List Byte) : Nat := align8 (off + 32 + leAt h 8 4)

/-- Scans forward from an offset to the first header with magic and check; the offset past which none fits otherwise (R363). -/
def resync (m : MemRun) (base len : Nat) : Nat → Nat → State → (Nat × Nat) × State
  | 0, o, s => ((Stat.ok, o), s)
  | f + 1, o, s =>
    if len < o + 32 then ((Stat.ok, o), s)
    else
      let (r, s) := runRead m (base + o) 32 s
      if r.status ≠ Stat.ok then ((r.status, o), s)
      else if recMagic r.data && recCheck r.data then ((Stat.ok, o), s)
      else resync m base len f (o + 8) s

/-! ## Outcomes -/

/-- A job's decoding is over: its 16-byte status is written (R364). -/
def finishRecords (eng st : Nat) (s : State) : State :=
  match runningOn s 4 eng with
  | none => s
  | some r =>
    let (st', s) := writeAll (leAt r.job.desc 0x28 8)
      (leBytes 4 (r.num 0) ++ leBytes 4 (r.num 1) ++ leBytes 4 (r.num 2) ++ leBytes 4 (jobStream s r.job).off) [] s
    jobDone 4 eng (if st = Stat.ok then st' else st) s

/-- Adds one to a count of the running job. -/
def recCount (eng i : Nat) (s : State) : State := modRunning 4 eng (fun r => { r with aux := modAt i (· + 1) r.aux }) s

/-- The queue of a job's destination, 0 for the Square. -/
def recQueue (d : List Byte) : Nat := if bitOf (leAt d 2 1) 1 then leAt d 3 1 else 0

/-- The summary of a record (R396). -/
def recSummary (h : List Byte) (st crc : Nat) : List Byte :=
  sampleSummary (leAt h 0x10 2) (leAt h 0x14 2) (leAt h 5 1 % 16) st (leAt h 6 2) (leAt h 0x12 2) crc

/-- The item of a record. -/
def recItem (h : List Byte) : Word := BitVec.ofNat 32 (leAt h 0xC 4)

/-- A record is rejected (R363): counted, and after its header check a fragment and a sample with cause RECORD_REJECT. -/
def rejectRecord (eng : Nat) (d h : List Byte) (checked : Bool) (s : State) : State :=
  let s := s |> setFlag Reg.recStatus.base 0 |> bump Reg.recSnapCnt.base 1 |> recCount eng 2
  if checked then
    s |> attachDevice (recItem h) 4 0 3 (voidPayload (recItem h) (leAt h 0x14 2) 1 0x43 (recQueue d) 0xFF 0)
      |> queueSample (recItem h) (recSummary h 0x43 0)
  else s

/-- A decoder resynchronises from an offset (R363): where it goes on, or the status that ends the job. -/
def resyncFrom (m : MemRun) (eng : Nat) (j : Job) (x : Stream) (o : Nat) (s : State) : State :=
  let s := s |> setFlag Reg.recStatus.base 1 |> bump Reg.recSnapCnt.base 3
  let (r, s) := resync m x.base x.len (x.len / 8 + 2) o s
  let s := s |> seekStream j r.2 |> count (Reg.recSnapCnt.base + 16) (r.2 - x.off)
  if r.1 = Stat.ok then s else finishRecords eng r.1 s

/-- Bytes that a record may take with its 0x40 bytes of header and status: its record buffer, or a slot of the queue (R364). -/
def recRoom (s : State) (j : Job) : Nat :=
  if bitOf (leAt j.desc 2 1) 1 then (caddyOf s j.task.handle (leAt j.desc 3 1)).elim 0 fun c => leAt c.latest 4 4
  else leAt j.desc 0x20 4

/-- A record is accepted: it becomes the current one. -/
def acceptRecord (eng : Nat) (j : Job) (x : Stream) (h : List Byte) (s : State) : State :=
  s |> seekStream j (recNext x.off h)
    |> modRunning 4 eng fun r =>
      { r with current := h, aux := r.aux |> modAt 3 (fun _ => recNext x.off h) |> modAt 4 (fun _ => x.base + x.off + 32) |> modAt 5 (fun _ => 0) }

/-- A header whose magic and check are right: bounds, type and size (R363), an item past its deadline, whose record is skipped (R19, log
entry 97), and a JPEG-LS payload that is invalid before its first pixel (R366, R369). -/
def judgeRecord (m : MemRun) (eng : Nat) (j : Job) (x : Stream) (h : List Byte) (s : State) : State :=
  let skip := fun (s : State) => seekStream j (recNext x.off h) s
  let ty := leAt h 4 1
  if x.len < x.off + 32 + leAt h 8 4 then s |> rejectRecord eng j.desc h true |> resyncFrom m eng j x (x.off + 8)
  else if ty ≠ 1 ∧ ty ≠ 2 then
    s |> skip |> bump Reg.recSnapCnt.base 5 |> count (Reg.recSnapCnt.base + 16) (recNext x.off h - x.off)
  else if !recFields h || decide (recRoom s j < 0x40 + recPixels h) || (ty == 1 && leAt h 8 4 != recPixels h) then
    s |> rejectRecord eng j.desc h true |> skip
  else if lateItem s (recItem h) then skip s
  else if ty = 1 ∨ recPixels h = 0 then acceptRecord eng j x h s
  else
    let (r, s) := runRead m (x.base + x.off + 32) (leAt h 8 4) s
    if r.status ≠ Stat.ok then finishRecords eng r.status s
    else if (jlsDecode r.data (leAt h 5 1) (leAt h 6 2) (leAt h 0x12 2)).isNone then
      s |> setFlag Reg.recStatus.base 3 |> rejectRecord eng j.desc h true |> skip
    else acceptRecord eng j x h s

/-- Goes on through the stream until a record is accepted or the job is over (R363, R364). -/
def advanceRecords (m : MemRun) (eng : Nat) : Nat → State → State
  | 0, s => s
  | f + 1, s =>
    match runningOn s 4 eng with
    | none => s
    | some r =>
      let j := r.job
      let x := jobStream s j
      if r.done || !r.current.isEmpty then s
      else if leAt j.desc 4 4 ≤ r.num 0 + r.num 1 then finishRecords eng Stat.ok s
      else if x.len < x.off + 32 then
        s |> count (Reg.recSnapCnt.base + 16) (x.len - x.off) |> seekStream j (max x.off x.len) |> finishRecords eng Stat.ok
      else
        let (h, s) := runRead m (x.base + x.off) 32 s
        if h.status ≠ Stat.ok then finishRecords eng h.status s
        else if !recMagic h.data then advanceRecords m eng f (resyncFrom m eng j x (x.off + 8) s)
        else if !recCheck h.data then
          advanceRecords m eng f (s |> rejectRecord eng j.desc h.data false |> resyncFrom m eng j x (x.off + 8))
        else advanceRecords m eng f (judgeRecord m eng j x h.data s)

/-- A stream lies wholly in the Square, LPDDR-6 or a host window (R361, R364). -/
def streamExtent (s : State) (a n : Nat) : Nat :=
  if n = 0 then Stat.ok
  else match regionOf a with
    | .host => if winCovers s a n then Stat.ok else Stat.unmapped
    | _ => localExtent s a n

/-- The checks of a decode job (R364). -/
def recordStart (s : State) (j : Job) : Option Nat :=
  let d := j.desc
  let caddy := bitOf (leAt d 2 1) 1
  let restart := bitOf (leAt d 2 1) 0
  startStatus
    [(!descClean [(0, 0x26), (0x28, 10)] d, Stat.badFormat), (decide (poolCount s j.task.handle 3 ≤ leAt d 1 1), Stat.badFormat),
     (caddy && decide (poolCount s j.task.handle 4 ≤ leAt d 3 1), Stat.badFormat), (leAt d 0x20 4 % 64 != 0, Stat.badFormat)]
    (leAt d 4 4 == 0)
    [(decide (leAt d 0x24 2 < leAt d 4 4), Stat.length),
     bad (if caddy then Stat.ok else sqExtent s (leAt d 0x18 8) (leAt d 4 4 * leAt d 0x20 4)),
     bad (sqExtent s (leAt d 0x28 8) 16), bad (if restart then streamExtent s (leAt d 8 8) (leAt d 0x10 8) else Stat.ok)]

/-- RECORD_DECODE (R361-R366): takes a job, or goes on with one whose last record is complete. -/
def execRecordDecode (eng : Nat) (m : MemRun) (s : State) : Result :=
  run (fun s =>
    let go := fun (s : State) => advanceRecords m eng (((runningOn s 4 eng).elim 0 fun r => (jobStream s r.job).len) / 8 + 4) s
    match runningOn s 4 eng with
    | some _ => if groupUp s 2 then s |> seeEcc m.ecc |> go else s
    | none =>
      takeRun 4 eng [1] m (fun j s =>
        match recordStart s j with
        | some st => jobDone 4 eng st s
        | none =>
          let d := j.desc
          let s := if bitOf (leAt d 2 1) 0 then
                     setStream { handle := j.task.handle, ctx := leAt d 1 1, base := leAt d 8 8, len := leAt d 0x10 8, off := 0 } s else s
          go (modRunning 4 eng (fun r => { r with aux := List.replicate 8 0 }) s)) s) s

/-- The pixel bytes of a record, and whether the codestream was valid to its end. -/
def recDecode (h payload : List Byte) : List Byte × Bool :=
  if leAt h 4 1 = 1 then (payload, true)
  else if recPixels h = 0 then ([], true)
  else (jlsDecode payload (leAt h 5 1) (leAt h 6 2) (leAt h 0x12 2)).getD ([], false)

/-- Where the current record's buffer lies: record buffer k of the job, or its slot (R364). -/
def recAddr (s : State) (r : Running) : Nat :=
  let d := r.job.desc
  if bitOf (leAt d 2 1) 1 then
    match (caddyOf s r.job.task.handle (leAt d 3 1)).bind fun c => c.batches.find? fun b => b.no == r.num 6 with
    | some b => slotAddr b (r.num 7)
    | none => 0
  else leAt d 0x18 8 + (r.num 0 + r.num 1) * leAt d 0x20 4

/-- The offer that the current record was. -/
def recOffer (eng : Nat) (h : List Byte) : Offer := { source := 1, eng := eng, item := recItem h, sample := leAt h 0x14 2 }

/-- A record is delivered or voided with a status (R364, R366, R374, R396). -/
def closeRecord (eng : Nat) (r : Running) (st crc : Nat) (s : State) : State :=
  let d := r.job.desc
  let h := r.current
  let caddy := bitOf (leAt d 2 1) 1
  let s := if caddy then settleSlot r.job.task.handle (leAt d 3 1) (r.num 6) (r.num 7) st (recOffer eng h) s
           else if st = Stat.ok then s
           else attachDevice (recItem h) 4 0 3 (voidPayload (recItem h) (leAt h 0x14 2) 1 st 0 0xFF 0) s
  let i := if st = Stat.ok then 0 else 1
  s |> bump Reg.recSnapCnt.base (2 * i) |> recCount eng i |> bindItem (recItem h) |> queueSample (recItem h) (recSummary h st crc)
    |> modRunning 4 eng fun r => { r with current := [] }

/-- RECORD_COMPLETE (R364, R366, R398). -/
def execRecordComplete (eng : Nat) (m : MemRun) (s : State) : Result :=
  run (fun s =>
    match runningOn s 4 eng with
    | none => s
    | some r =>
      let d := r.job.desc
      let h := r.current
      if !groupUp s 2 || r.done || h.isEmpty || (bitOf (leAt d 2 1) 1 && r.num 5 == 0) then s
      else
        let (p, s) := runRead m (r.num 4) (leAt h 8 4) (seeEcc m.ecc s)
        if p.status ≠ Stat.ok then s |> closeRecord eng r p.status 0 |> finishRecords eng p.status
        else
          let (px, valid) := recDecode h p.data
          let good := crc32c p.data == leAt h 0x1C 4
          let st := if !valid then 0x44 else if !good then 0x42 else Stat.ok
          let s := if good then s else setFlag Reg.recStatus.base 2 s
          let s := if valid then s else setFlag Reg.recStatus.base 3 s
          let a := recAddr s r
          let (w, s) := writeRuns m [(a, h), (a + 0x20, leBytes 1 st), (a + 0x40, px)] s
          if w ≠ Stat.ok then s |> closeRecord eng r w 0 |> finishRecords eng w
          else
            let s := closeRecord eng r st (crc64 0 px) s
            if leAt d 4 4 ≤ r.num 0 + r.num 1 + 1 then finishRecords eng Stat.ok s else s) s

end Sys2Proof.Machine
end

