-- ==== Sys2Proof/Machine/EngEnd.lean ====
section
/-! DEFINITION. The end of an engine job (R182, R245, R251, R359), with its block's flags and counters (R384, R571); the sample hashes of
the hash engine (R396, R399, R402). -/

namespace Sys2Proof.Machine

open Sys2Proof

/-- The status register of a kind's block. -/
def kindStatus (kind : Nat) : Nat :=
  match kind with
  | 0 => Reg.wrpStatus.base
  | 1 => Reg.roiStatus.base
  | 2 => Reg.srtStatus.base
  | 3 => Reg.bcdStatus.base
  | 5 => Reg.hshStatus.base
  | 6 => Reg.crcStatus.base
  | _ => Reg.dmaStatus.base

/-- The first counter of a kind's block. -/
def kindCount (kind : Nat) : Nat :=
  match kind with
  | 0 => Reg.wrpSnapCnt.base
  | 1 => Reg.roiSnapCnt.base
  | 2 => Reg.srtSnapCnt.base
  | 3 => Reg.bcdSnapCnt.base
  | 5 => Reg.hshSnapCnt.base
  | 6 => Reg.crcSnapCnt.base
  | _ => Reg.dmaSnapCnt.base

/-- Which counter of a block counts jobs with errors. -/
def errCount (kind : Nat) : Nat := if kind = 6 then 5 else 3

/-- Flags and counters of a barcode job's end. -/
def noteBarcode (st : Nat) (s : State) : State :=
  if st = 0x40 then s |> setFlag Reg.bcdStatus.base 1 |> bump Reg.bcdSnapCnt.base 2
  else if st = 0x41 then s |> setFlag Reg.bcdStatus.base 1 |> bump Reg.bcdSnapCnt.base 3
  else if st = Stat.ok then s else setFlag Reg.bcdStatus.base 2 s

/-- Flags and counters of a DMA job's end (R571). -/
def noteDma (st : Nat) (s : State) : State :=
  if st = Stat.ok then s
  else
    let s := setFlag Reg.dmaStatus.base 0 s
    if st = Stat.hostAbort then s |> setFlag Reg.dmaStatus.base 1 |> bump Reg.dmaSnapCnt.base 2
    else if st = Stat.timeout then s |> setFlag Reg.dmaStatus.base 2 |> bump Reg.dmaSnapCnt.base 3
    else bump Reg.dmaSnapCnt.base 4 s

/-- What the end of a job leaves in its block's registers (R384, R571). The record decoders and the Caddy count samples, not jobs. -/
def noteEnd (kind st us : Nat) (s : State) : State :=
  match kind with
  | 3 => s |> bump Reg.bcdSnapCnt.base 0 |> count (Reg.bcdSnapCnt.base + 20) us |> noteBarcode st
  | 4 => s
  | 7 => s
  | 8 => s |> bump Reg.dmaSnapCnt.base 0 |> noteDma st
  | _ =>
    let s := if kind = 6 then s else s |> bump (kindCount kind) 0 |> count (kindCount kind + (if kind = 5 then 16 else 20)) us
    if st = Stat.ok ∨ (kind = 6 ∧ st = 0x42) then s
    else s |> setFlag (kindStatus kind) (if kind = 6 then 1 else 0) |> bump (kindCount kind) (errCount kind)

/-- A job that is over leaves its engine. -/
def leaveEngine (kind eng us : Nat) (s : State) : State :=
  match runningOn s kind eng with
  | none => s
  | some r => if r.done then s |> noteEnd kind r.status us |> endJob kind eng else s

/-- The end of a barcode job (R357-R360): a search that is still on ends here, its status is written once, and fragments that are held
back keep it on its engine. -/
def leaveBarcode (eng steps us located : Nat) (s : State) : State :=
  match runningOn s 3 eng with
  | none => s
  | some r =>
    let s := if r.aux.isEmpty || r.cursor == 1 then s
             else s |> barFinish eng r 0x40 steps us located |> modRunning 3 eng fun r => { r with cursor := 1 }
    match runningOn s 3 eng with
    | none => s
    | some r => if !r.held.isEmpty && barEarlier s r.job then s else s |> barFlush eng |> leaveEngine 3 eng us

/-- ENGINE_JOB_END (R182, R245, R251, R346). -/
def execEngineJobEnd (kind eng steps us located : Nat) (m : MemRun) (s : State) : Result :=
  run (fun s =>
    if !groupUp s (groupOfKind kind) then s
    else if kind = 3 then s |> seeEcc m.ecc |> leaveBarcode eng steps us located
    else s |> seeEcc m.ecc |> leaveEngine kind eng us) s

/-- SAMPLE_HASH_DONE (R396, R399, R402): the oldest sample's hash completes and enters the list of its item, if that is OPEN or BOUND. -/
def execSampleHashDone (s : State) : Result :=
  run (fun s =>
    match s.eng.samples with
    | [] => s
    | x :: xs =>
      if !groupUp s 3 then s
      else
        let s := s |> modEng (fun e => { e with samples := xs }) |> count (Reg.hshSnapCnt.base + 4) x.summary.length
        modItem x.item (fun i => { addSample (sampleRef x.summary) i with lastIn := some (copyPos s i.posSrc, s.tim.now) }) s) s

end Sys2Proof.Machine
end

