-- ==== Sys2Proof/Machine/Trim.lean ====
section
/-! DEFINITION. TV fields (R9, R534): what the fuse map gives them, their three copies, and their majority. -/

namespace Sys2Proof.Machine

open Sys2Proof

/-- The word that the fuse map gives a register with TV fields. -/
def fuseWord (f : Fuses) (off : Nat) : Word :=
  if off = Reg.tcSpare.base then BitVec.ofNat 32 (f.spare % 32)
  else if off = Reg.rstFuse.base then BitVec.ofNat 32 (b2n f.wdogForce)
  else if off = Reg.secKeys.base then BitVec.ofNat 32 (f.revoked % 16)
  else if Reg.krbLim.holds off then f.krbLim.getD (Reg.krbLim.index off) 0
  else if Reg.krbRate.holds off then f.krbRate.getD (Reg.krbRate.index off) 0
  else 0

/-- The bitwise majority of three words. -/
def majority (a b c : Word) : Word := (a &&& b) ||| (a &&& c) ||| (b &&& c)

/-- The copies of a register with TV fields. -/
def tvCopies (s : State) (off : Nat) : TvReg :=
  (s.tv.find? fun t => t.off == off).getD { off := off, c0 := fuseWord s.fuse off, c1 := fuseWord s.fuse off, c2 := fuseWord s.fuse off }

/-- What a register with TV fields reads as. -/
def tvRead (s : State) (off : Nat) : Nat := let t := tvCopies s off; (majority t.c0 t.c1 t.c2).toNat

end Sys2Proof.Machine
end

