-- ==== Sys2Proof/Machine/Outputs.lean ====
section
/-! DEFINITION. The DIO outputs (R421, R422, R435): what holds one on, the governor with its fused limits, overload, and the writes of
DIO_OUT and DIO_CFG; the inputs' part of a change of direction (R419). -/

namespace Sys2Proof.Machine

open Sys2Proof

/-- Changes input `n`. -/
def modInput (n : Nat) (f : Input → Input) (s : State) : State := modOuv (fun o => { o with inputs := modAt n f o.inputs }) s

/-- Changes entry `e` of the Kerb. -/
def modEntry (e : Nat) (f : KerbEntry → KerbEntry) (s : State) : State := modOuv (fun o => { o with entries := modAt e f o.entries }) s

/-- Entry `e` of the Kerb. -/
def entryOf (s : State) (e : Nat) : KerbEntry := s.ouv.entries.getD e KerbEntry.free

/-- DIO_CFG[n], which resets to the fuse map's direction and safe level (R535). -/
def dioCfg (s : State) (n : Nat) : Nat := rd s (Reg.dioCfg.off n 0)

/-- The channel is an output. -/
def isOut (s : State) (n : Nat) : Bool := decide (n < 32) && bitOf (dioCfg s n) 0

/-- The encoder that stamps a channel. -/
def dioEnc (s : State) (n : Nat) : Nat := bits (dioCfg s n) 2 2

/-- The safe state holds (R437). -/
def safeOn (s : State) : Bool := rdB s Reg.dioSafe.base 0

/-- Output `n`. -/
def outputOf (s : State) (n : Nat) : Output := s.ouv.outputs.getD n Output.reset

/-- The level of an output: its safe level in the safe state, else the governed level (R421, R437). -/
def outLevel (s : State) (n : Nat) : Bool :=
  s.ouv.powered && isOut s n && (if safeOn s then bitOf (dioCfg s n) 4 else (outputOf s n).on)

/-- The live position that an entry is compared with on Ouvfi. -/
def fieldPos (s : State) (enc : Nat) : Pos := if enc < 4 then (encOf s enc).pos else usPos s.ouv.time

/-- The position of an event about a channel (R439). -/
def chanPos (s : State) (n : Nat) : Nat := posField (dioEnc s n) (fieldPos s (dioEnc s n))

/-- A pulse of the Kerb holds a channel (R421, R428). -/
def pulsing (n : Nat) (e : KerbEntry) : Bool := e.kind == 1 && e.chan == n && e.flags.testBit 4

/-- Some source holds the output on: its DIO_OUT bit, a pulse, or its fuse-map reset state (R421, R535). -/
def wantsOn (s : State) (n : Nat) : Bool :=
  rdB s Reg.dioOut.base n || (outputOf s n).fuse || s.ouv.entries.any (pulsing n)

/-- A governed cut or suppression (R435, R439): KRB_STATUS flag 3, its counter, and the event. -/
def governed (n limit : Nat) (s : State) : State :=
  let (ref, pos) := match s.ouv.entries.find? (pulsing n) with
    | some e => (e.item.toNat, posField e.enc (fieldPos s e.enc))
    | none => (0, chanPos s n)
  s |> setFlag Reg.krbStatus.base 3 |> bump Reg.krbSnapCnt.base 4 |> postEvent 3 4 ref pos 0 (leBytes 1 n ++ leBytes 1 limit)

/-- Nanoseconds from one time to another, modulo 2^48 s. -/
def nsSince (t u : DevTime) : Nat :=
  ((((timeUnits u : Int) - timeUnits t) % ((2 ^ 48 * 1000000000 * 2 ^ 32 : Nat) : Int)) / 2 ^ 32).toNat

/-- The limit that a start now would break: 1 gap, 2 rate (R435). -/
def startLimit (s : State) (n : Nat) : Option Nat :=
  let o := outputOf s n
  let gap := bits (tvRead s (Reg.krbLim.off n 0)) 16 16 * 100000
  let rate := bits (tvRead s (Reg.krbRate.off n 0)) 0 16
  if gap ≠ 0 ∧ o.lastOff.elim false (fun t => decide (nsSince t s.ouv.time < gap)) = true then some 1
  else if rate ≠ 0 ∧ rate ≤ (o.starts.filter fun t => decide (nsSince t s.ouv.time < 1000000000)).length then some 2
  else none

/-- An output follows its sources (R421, R435); one that was cut or suppressed stays off until every source has released, also while the
safe state holds or the channel is no output. -/
def driveOut (n : Nat) (s : State) : State :=
  let o := outputOf s n
  if !(isOut s n && !safeOn s && wantsOn s n) then
    modOutput n (fun o => { o with
      on := false, locked := o.locked && wantsOn s n, lastOff := if o.on then some s.ouv.time else o.lastOff }) s
  else if o.on || o.locked then s
  else match startLimit s n with
    | some l => s |> modOutput n (fun o => { o with locked := true }) |> governed n l
    | none => modOutput n (fun o => { o with
        on := true, since := s.ouv.time
        starts := s.ouv.time :: o.starts.filter fun t => decide (nsSince t s.ouv.time < 1000000000) }) s

/-- Every output follows its sources. -/
def driveAll (s : State) : State := (List.range 32).foldl (fun s n => driveOut n s) s

/-- OUTPUT_MAX_PULSE_CUT (R435): the on-period has reached the fused maximum. -/
def execOutputMaxPulseCut (n : Nat) (s : State) : Result :=
  run (fun s =>
    if !s.ouv.powered || !(outputOf s n).on || safeOn s || bits (tvRead s (Reg.krbLim.off n 0)) 0 16 == 0 then s
    else s |> modOutput n (fun o => { o with on := false, locked := true, lastOff := some s.ouv.time }) |> governed n 0) s

/-- OUTPUT_OVERLOAD (R421, R439). -/
def execOutputOverload (n : Nat) (s : State) : Result :=
  run (fun s =>
    if !s.ouv.powered || !isOut s n || rdB s Reg.dioOvl.base n then s
    else s |> wr Reg.dioOvl.base (rd s Reg.dioOvl.base ||| 2 ^ n) |> setFlag Reg.dioStatus.base 2 |> bump Reg.dioSnapCnt.base 3
           |> postEvent 0x0C 4 n (chanPos s n) 0 []) s

/-- OUTPUT_OVERLOAD_CLEAR (R421). -/
def execOutputOverloadClear (n : Nat) (s : State) : Result :=
  run (fun s => if s.ouv.powered && decide (n < 32) then wrF Reg.dioOvl.base n 1 0 s else s) s

/-! ## Writes -/

/-- A write of DIO_OUT (R421, R535): a bit that changes is the host's from now on. -/
def writeDioOut (v : Word) (s : State) : State :=
  if !s.ouv.powered then s
  else
    let old := rd s Reg.dioOut.base
    s |> wr Reg.dioOut.base v.toNat
      |> modOuv (fun o => { o with outputs := o.outputs.zipIdx.map fun x =>
            if (v.toNat.testBit x.2) != (old.testBit x.2) then { x.1 with fuse := false } else x.1 })
      |> driveAll

/-- DIO_OUT_WRITE (R421, R435). -/
def execDioOutWrite (w : Writer) (v : Word) (s : State) : Result := run (gate w Reg.dioOut.base v (writeDioOut v)) s

/-- Some item source names a channel (R422): an enabled DIO source by its input, or an enabled source by a default output that its actions
use. -/
def sourceNames (s : State) (n : Nat) : Bool :=
  (List.range 8).any fun k =>
    let c := rd s (Reg.itmSrcCtl.off k 0)
    let fires := fun (a : Nat) => a == 1 || a == 2
    bitOf c 0 && ((!bitOf c 1 && bits c 2 5 == n) || (bits c 16 5 == n && (fires (bits c 11 2) || fires (bits c 13 2))))

/-- A channel's direction may not change (R422). -/
def dirFixed (s : State) (n : Nat) : Bool :=
  outLevel s n || s.ouv.entries.any (fun e => e.kind == 1 && e.chan == n) || sourceNames s n

/-- A channel that becomes an input starts at level 0; a line that is on begins a stable period now (R419). -/
def becomeInput (n : Nat) (s : State) : State :=
  let p := fieldPos s (dioEnc s n)
  modInput n (fun i => { i with level := false, start := if i.raw then some (s.ouv.time, p) else none }) s

/-- A write of DIO_CFG[n] (R418, R422, R535). -/
def writeDioCfg (n : Nat) (v : Word) (s : State) : State :=
  if !s.ouv.powered then s
  else
    let was := isOut s n
    let is_ := v.toNat.testBit 0
    if (was != is_) && dirFixed s n then setFlag Reg.dioStatus.base 3 s
    else
      let s := s |> wr (Reg.dioCfg.off n 0) (v.toNat % 64) |> modOutput n (fun o => { o with fuse := false })
      let s := if was && !is_ then becomeInput n s
               else if !was && is_ then modInput n (fun i => { i with level := false, start := none }) s else s
      driveOut n s

/-- DIO_CFG_WRITE (R422). -/
def execDioCfgWrite (w : Writer) (n : Nat) (v : Word) (s : State) : Result :=
  run (fun s => if 32 ≤ n then s else gate w (Reg.dioCfg.off n 0) v (writeDioCfg n v) s) s

end Sys2Proof.Machine
end

