-- ==== Sys2Proof/Machine/Kerb.lean ====
section
/-! DEFINITION. The Kerb (R423-R434): fire entries with their leads, late tests and pulses, and trigger trains. -/

namespace Sys2Proof.Machine

open Sys2Proof

/-- A position source runs FORWARD; the microsecond position always does. -/
def forward (s : State) (enc : Nat) : Bool := decide (4 ≤ enc) || !(encOf s enc).reverse

/-- The estimated speed of a position source on Ouvfi, 32 fraction bits (log entry 24 for the microsecond position). -/
def fieldSpeed (s : State) (enc : Nat) : Int := if enc < 4 then (encOf s enc).vhat else 2 ^ 32

/-- An entry's act position (R425). -/
def actOf (e : KerbEntry) : Pos := e.target - BitVec.ofNat 48 e.lead

/-- Frees an entry; an output that it held may turn off. -/
def freeEntry (e : Nat) (s : State) : State :=
  let k := entryOf s e
  let s := modEntry e (fun _ => KerbEntry.free) s
  if k.kind = 1 then driveOut k.chan s else s

/-- An entry is refused (R430). -/
def refuseEntry (m : KerbMsg) (code flag : Nat) (s : State) : State :=
  s |> setFlag Reg.krbStatus.base flag |> bump Reg.krbSnapCnt.base 3
    |> postEvent 3 code m.item.toNat (posField m.enc (fieldPos s m.enc)) 0 (leBytes 1 m.chan ++ leBytes 1 (if m.train then 2 else 1))

/-- The free entry that an arriving one takes, or the refusal of R430 as its code and flag. -/
def placeEntry (s : State) (m : KerbMsg) : Nat ⊕ (Nat × Nat) :=
  match s.ouv.entries.zipIdx.find? fun x => x.1.kind == 0 with
  | none => .inr (2, 1)
  | some x => if (!m.train && !isOut s m.chan) || safeOn s then .inr (3, 2) else .inl x.2

/-! ## Fire entries -/

/-- An entry fires (R426-R428, R435): it stays as a pulse, or is freed at once when the output does not turn on for it. -/
def fireEntry (e : Nat) (late : Bool) (s : State) : State :=
  let k := entryOf s e
  let s := s |> bump Reg.krbSnapCnt.base 0 |> (fun s => if late then bump Reg.krbSnapCnt.base 1 s else s)
             |> modEntry e (fun k => { k with flags := k.flags ||| 16 ||| (if late then 8 else 0), judge := false
                                              onPos := fieldPos s k.enc, onTime := s.ouv.time })
             |> driveOut k.chan
  if (outputOf s k.chan).on then s else freeEntry e s

/-- The late test of an entry whose act position is reached (R427). -/
def judgeEntry (e : Nat) (s : State) : State :=
  let k := entryOf s e
  if posDiff (fieldPos s k.enc) (actOf k) ≤ (rdF s Reg.krbCfg.base 0 16 : Int) then fireEntry e true s
  else
    s |> setFlag Reg.krbStatus.base 0 |> bump Reg.krbSnapCnt.base 2
      |> postEvent 3 1 k.item.toNat (posField k.enc (fieldPos s k.enc)) 0 (leBytes 1 k.chan ++ leBytes 6 k.target.toNat ++ leBytes 6 (actOf k).toNat)
      |> freeEntry e

/-- A fire entry takes its place (R424, R425, R427). -/
def arriveFire (m : KerbMsg) (s : State) : State :=
  match placeEntry s m with
  | .inr (code, flag) => refuseEntry m code flag s
  | .inl e =>
    let lat := rdF s (Reg.krbOut.off m.chan 0) 0 20
    let pul := rd s (Reg.krbPulse.off m.chan 0)
    let k : KerbEntry := { KerbEntry.free with
      kind := 1, chan := m.chan, flags := b2n (bitOf pul 31) + 2 * b2n m.default_, item := m.item, enc := m.enc, src := m.src
      target := m.target, param := lat, count := bits pul 0 24, lead := leadOf s (fieldSpeed s m.enc) lat, judge := !forward s m.enc }
    let s := modEntry e (fun _ => k) s
    if forward s m.enc && reached (fieldPos s m.enc) (actOf k) then judgeEntry e s else s

/-- Takes the oldest message of a kind on its way to the Kerb. -/
def takeMsg (train : Bool) (f : KerbMsg → State → State) (s : State) : State :=
  if !s.ouv.powered then s
  else match s.toKerb.find? fun m => m.train == train with
    | none => s
    | some m => f m { s with toKerb := dropFirst (fun x => x.train == train) s.toKerb }

/-- KERB_FIRE_ENTRY_ARRIVE (R424, R425, R427, R430). -/
def execKerbFireEntryArrive (s : State) : Result := run (takeMsg false arriveFire) s

/-- A fire entry that has not fired and whose late test is not still to come. -/
def KerbEntry.armed (k : KerbEntry) : Bool := k.kind == 1 && !k.flags.testBit 4 && !k.judge

/-- KERB_FIRE (R426, R428): the belt moving FORWARD reaches the act position. -/
def execKerbFire (e : Nat) (s : State) : Result :=
  run (fun s =>
    let k := entryOf s e
    if s.ouv.powered && k.armed && forward s k.enc && reached (fieldPos s k.enc) (actOf k) then fireEntry e false s else s) s

/-- KERB_PULSE_END (R428, R429): a pulse in counts ends at its position. -/
def execKerbPulseEnd (e : Nat) (s : State) : Result :=
  run (fun s =>
    let k := entryOf s e
    if !s.ouv.powered || k.kind != 1 || !k.flags.testBit 4 then s
    else if k.flags.testBit 0 && !reached (fieldPos s k.enc) (k.onPos + BitVec.ofNat 48 k.count) then s
    else freeEntry e s) s

/-- The entries of an encoder whose late test was put off: the direction is FORWARD again (R427). -/
def judgeDeferred (enc : Nat) (s : State) : State :=
  (List.range 256).foldl (fun s e =>
    let k := entryOf s e
    if k.kind == 1 && k.judge && k.enc == enc && forward s enc then
      let s := modEntry e (fun k => { k with judge := false }) s
      if reached (fieldPos s enc) (actOf k) then judgeEntry e s else s
    else s) s

/-- Every fire entry of an encoder takes its lead from the new estimate (R425). -/
def setLeads (enc : Nat) (s : State) : State :=
  modOuv (fun o => { o with entries := o.entries.map fun k =>
    if k.kind == 1 && !k.flags.testBit 4 && k.enc == enc then { k with lead := leadOf s (fieldSpeed s enc) k.param } else k }) s

/-! ## Trains -/

/-- A train ends (R433). -/
def endTrain (e : Nat) (s : State) : State :=
  let k := entryOf s e
  s |> modEntry e (fun _ => KerbEntry.free) |> trainEnded (portIndex k.chan) k.item

/-- Triggers that a train skips (R432, R434). -/
def skipTriggers (k : KerbEntry) (n : Nat) (s : State) : State :=
  if n = 0 then s else s |> count (Reg.krbSnapCnt.base + 24) n |> markSkip (portIndex k.chan) k.item n

/-- A train takes its stop; it ends if its next position has reached it (R433). -/
def setStop (e : Nat) (close : Pos) (s : State) : State :=
  let k := entryOf s e
  let stop := close + BitVec.ofInt 48 (signed 32 k.stopOff)
  let s := modEntry e (fun k => { k with stop := stop, flags := k.flags ||| 4 }) s
  if reached k.target stop then endTrain e s else s

/-- Positions of a train that a position has reached, at most those still allowed. -/
def positionsReached (k : KerbEntry) (p : Pos) : Nat :=
  if reached p k.target then min ((posDiff p k.target).toNat / max 1 k.param + 1) k.count else 0

/-- A train moves past `n` positions. -/
def passPositions (e n : Nat) (s : State) : State :=
  modEntry e (fun k => { k with count := k.count - n, target := k.target + BitVec.ofNat 48 (n * k.param) }) s

/-- A train takes its place and begins at the first position still ahead (R432, R433). -/
def arriveTrain (m : KerbMsg) (s : State) : State :=
  match placeEntry s m with
  | .inr (code, flag) => s |> refuseEntry m code flag |> trainEnded (portIndex m.chan) m.item
  | .inl e =>
    let k : KerbEntry := { KerbEntry.free with
      kind := 2, chan := m.chan, item := m.item, enc := m.enc, src := m.src, target := m.target, param := m.spacing, count := m.max
      stopOff := m.stopOff, ord := m.ord }
    let n := positionsReached k (fieldPos s m.enc)
    let s := s |> modEntry e (fun _ => k) |> skipTriggers k n |> passPositions e n
    if k.count ≤ n then endTrain e s
    else match m.ord, s.ouv.closed.find? fun c => c.1 == m.src with
      | some o, some c => if c.2.1 = o then setStop e c.2.2 s else s
      | _, _ => s

/-- KERB_TRAIN_ARRIVE (R430, R432, R433). -/
def execKerbTrainArrive (s : State) : Result := run (takeMsg true arriveTrain) s

/-- Positions of a train before its stop, at least one. -/
def beforeStop (k : KerbEntry) : Nat :=
  if k.flags.testBit 2 then max 1 (ceilDiv (posDiff k.stop k.target).toNat (max 1 k.param)) else k.count

/-- KERB_TRAIN_TRIGGER (R433, R434): one trigger, and the other positions reached in the same update count as skipped. -/
def execKerbTrainTrigger (e : Nat) (s : State) : Result :=
  run (fun s =>
    let k := entryOf s e
    let n := min (positionsReached k (fieldPos s k.enc)) (beforeStop k)
    if !s.ouv.powered || k.kind != 2 || !forward s k.enc || n == 0 then s
    else
      let s := s |> bump Reg.krbSnapCnt.base 5 |> sendTrigger (portIndex k.chan) k.item |> skipTriggers k (n - 1) |> passPositions e n
      let k' := entryOf s e
      if k'.count == 0 || (k'.flags.testBit 2 && reached k'.target k'.stop) then endTrain e s else s) s

end Sys2Proof.Machine
end

