-- ==== Sys2Proof/Machine/Encoders.lean ====
section
/-! DEFINITION. The encoder channels (R407-R416): quadrature counts, the Z latch, serial readings, direction, the tracking observer, and the
companion link's refreshes (R20, R21, R417, R510). -/

namespace Sys2Proof.Machine

open Sys2Proof

/-- ENC_CFG[n].mode: 0 off, 1 incremental, 2 SSI, 3 BiSS C. -/
def encMode (s : State) (n : Nat) : Nat := rdF s (Reg.encCfg.off n 0) 0 2

/-- ENC_CFG[n].invert. -/
def encInvert (s : State) (n : Nat) : Bool := rdB s (Reg.encCfg.off n 0) 2

/-- ENC_CFG[n].hyst; 0 acts as 1. -/
def encHyst (s : State) (n : Nat) : Nat := max 1 (rdF s (Reg.encCfg.off n 0) 8 8)

/-- The Ouvfi die has power and the channel exists. -/
def encUp (s : State) (n : Nat) : Bool := s.ouv.powered && decide (n < 4)

/-- Bits of a serial position (R410). -/
def encBits (s : State) (n : Nat) : Nat := max 8 (min 48 (rdF s (Reg.encSer.off n 0) 24 6))

/-! ## Direction -/

/-- The direction state follows the position (R416). -/
def followDirection (n : Nat) (s : State) : State :=
  let e := encOf s n
  let d := if e.reverse then posDiff e.peak e.pos else posDiff e.pos e.peak
  if 0 < d then modEnc n (fun e => { e with peak := e.pos }) s
  else if d ≤ -(encHyst s n : Int) then
    let s := s |> modEnc n (fun e => { e with reverse := !e.reverse, peak := e.pos }) |> setFlag (Reg.encStatus.off n 0) 0
               |> bump (Reg.encSnapCnt.off n 0) 0
               |> postEvent 0x0C 1 n (posField n e.pos) 0 (leBytes 1 (b2n (!e.reverse)))
    if e.reverse then judgeDeferred n s else s
  else s

/-- A position moves by a difference. -/
def movePos (n : Nat) (d : Int) (s : State) : State :=
  s |> modEnc n (fun e => { e with pos := e.pos + BitVec.ofInt 48 d }) |> followDirection n

/-! ## Incremental channels -/

/-- The place of the levels of A and B in the quadrature cycle; A leads B when counting up. -/
def quadPlace (a b : Bool) : Nat :=
  match a, b with
  | false, false => 0
  | true, false => 1
  | true, true => 2
  | false, true => 3

/-- ENC_QUAD_CHANGE (R408): accepted new levels of A and B. -/
def execEncQuadChange (n : Nat) (a b : Bool) (s : State) : Result :=
  run (fun s =>
    let e := encOf s n
    let s := modEnc n (fun e => { e with a := a, b := b }) s
    if !encUp s n then s
    else
      if encMode s n ≠ 1 then s
      else
        let step := (quadPlace a b + 4 - quadPlace e.a e.b) % 4
        let sign : Int := if encInvert s n then -1 else 1
        if step = 1 then movePos n sign s
        else if step = 3 then movePos n (-sign) s
        else if step = 2 then setFlag (Reg.encStatus.off n 0) 3 s
        else s) s

/-- ENC_Z_EDGE (R409). -/
def execEncZEdge (n : Nat) (s : State) : Result :=
  run (fun s =>
    if !encUp s n || encMode s n != 1 then s
    else s |> modEnc n (fun e => { e with zpos := e.pos }) |> setFlag (Reg.encStatus.off n 0) 1 |> bump (Reg.encSnapCnt.off n 0) 1) s

/-! ## Serial channels -/

/-- The binary number of a Gray code of 48 bits. -/
def grayDecode (g : Nat) : Nat := (List.range 48).foldl (fun b i => b ^^^ (g >>> i)) 0

/-- A channel reads a serial sensor. -/
def encSerial (s : State) (n : Nat) : Bool := encUp s n && decide (2 ≤ encMode s n)

/-- ENC_SERIAL_READ (R410): the period has passed and a frame is clocked out. -/
def execEncSerialRead (n : Nat) (s : State) : Result :=
  run (fun s => if encSerial s n then s |> modEnc n (fun e => { e with reading := true }) |> emit (.serialClock n) else s) s

/-- A valid reading enters the position (R410). -/
def takeReading (n v : Nat) (s : State) : State :=
  let s' := modEnc n (fun e => { e with last := some v }) s
  match (encOf s n).last with
  | none => s' |> modEnc n (fun e => { e with pos := BitVec.ofNat 48 v }) |> followDirection n
  | some l =>
    let w := encBits s n
    let d := signed w (v + 2 ^ w - l % 2 ^ w)
    movePos n (if encInvert s n then -d else d) s'

/-- ENC_SERIAL_FRAME (R410, R411): a frame ends; `whole` says that it is complete and, for BiSS C, that its CRC holds; `sensor` is the error
and warning bits of a BiSS C sensor. -/
def execEncSerialFrame (n raw : Nat) (whole : Bool) (sensor : Nat) (s : State) : Result :=
  run (fun s =>
    if !encSerial s n || !(encOf s n).reading then s
    else
      let s := modEnc n (fun e => { e with reading := false }) s
      if !whole then s |> setFlag (Reg.encStatus.off n 0) 2 |> bump (Reg.encSnapCnt.off n 0) 2
      else
        let v := raw % 2 ^ encBits s n
        let s := if encMode s n = 3 then modEnc n (fun e => { e with biss := sensor % 4 }) s else s
        takeReading n (if encMode s n = 2 ∧ rdB s (Reg.encSer.off n 0) 30 = true then grayDecode v else v) s) s

/-! ## The observer -/

/-- π × 10^50, rounded down. -/
def pi50 : Nat := 314159265358979323846264338327950288419716939937510

/-- ENC_OBS[n].bw (R414). -/
def obsBw (s : State) (n : Nat) : Nat := max 1 (min 10000 (rdF s (Reg.encObs.off n 0) 0 14))

/-- ki = (2π bw T)² with 40 fraction bits (R414). -/
def obsKi (bw : Nat) : Int := divHalfEven (4 * pi50 * pi50 * bw * bw * 2 ^ 40) (10 ^ 112)

/-- kp = 2ζ × 2π bw T with ζ = 0.7071 and 40 fraction bits (R414). -/
def obsKp (bw : Nat) : Int := divHalfEven (4 * 7071 * pi50 * bw * 2 ^ 40) (10 ^ 60)

/-- The observer starts from the measured position (R415). -/
def Encoder.restart (e : Encoder) : Encoder :=
  { e with phat := BitVec.ofNat 64 (e.pos.toNat * 65536), vhat := 0, ahat := 0 }

/-- Steps 2 and 3 of the update from the error of step 1 (R414). -/
def Encoder.track (e : Encoder) (ki kp err : Int) : Encoder :=
  let v := clampI (-(2 ^ 39)) (2 ^ 39 - 1) (divHalfEven (e.vhat * 2 ^ 24 + ki * err) (2 ^ 24))
  { e with vhat := v, phat := BitVec.ofInt 64 (divHalfEven ((e.phat.toNat : Int) * 2 ^ 40 + v * 2 ^ 24 + kp * err) (2 ^ 40)) }

/-- Step 4, every 1,000 updates (R414): the change of speed over 1 ms filters into the acceleration. -/
def Encoder.accel (e : Encoder) (shift : Nat) : Encoder :=
  let raw := (e.vhat - e.vBefore) * 10 ^ 9
  let a := divHalfEven (e.ahat * 2 ^ (32 + shift) + raw - e.ahat * 2 ^ 32) (2 ^ (32 + shift))
  { e with ahat := clampI (-(2 ^ 31)) (2 ^ 31 - 1) a, vBefore := e.vhat }

/-- One update of a channel's observer (R414, R415). -/
def observe (n : Nat) (s : State) : State :=
  let e := encOf s n
  let err := (BitVec.ofNat 64 (e.pos.toNat * 65536) - e.phat).toInt
  let bw := obsBw s n
  let far := decide (65535 * 65536 < err.natAbs)
  let e := if far then e.restart else e.track (obsKi bw) (obsKp bw) err
  let e := { e with updates := e.updates + 1 }
  let e := if e.updates % 1000 = 0 then e.accel (rdF s (Reg.encObs.off n 0) 16 3) else e
  let s := modEnc n (fun _ => e) s
  if far then bump (Reg.encSnapCnt.off n 0) 3 s else s

/-- OBSERVER_UPDATE (R414, R415, R425): 1 µs has passed; the Kerb's leads follow. -/
def execObserverUpdate (n : Nat) (s : State) : Result :=
  run (fun s => if encUp s n && encMode s n != 0 then s |> observe n |> setLeads n else s) s

/-- A write of ENC_CFG[n] that enables a channel, or gives it another mode, starts it afresh (R410, R415, R416). -/
def writeEncCfg (n : Nat) (v : Word) (s : State) : State :=
  if !s.ouv.powered then s
  else
    let was := encMode s n
    let s := wr (Reg.encCfg.off n 0) (v.toNat &&& 0xFF77) s
    let mode := encMode s n
    if mode = was then s
    else
      let s := modEnc n (fun e => { e with reading := false }) s
      if mode = 0 then s
      else
        s |> modEnc n (fun e => { e.restart with reverse := false, peak := e.pos, last := none, vBefore := 0, updates := 0 })
          |> judgeDeferred n |> setLeads n

/-! ## The companion link -/

/-- COMPANION_POSITION_REFRESH (R20, R417). -/
def execCompanionPositionRefresh (s : State) : Result :=
  runWide (fun s =>
    if !s.ouv.powered then s
    else
      let lost := s.refreshLost
      let s := { s with refreshLost := false
                        copies := s.ouv.encs.map fun e => { pos := e.pos, vhat := e.vhat, reverse := e.reverse, frac := 0 } }
      let s := if lost then postEvent 0x0C 7 0 0 0 (leBytes 1 1) s else s
      gateOpenAll s) s

/-- A copy runs on for 10 µs at the last speed received (R417). -/
def EncCopy.runOn (c : EncCopy) : EncCopy :=
  let x := (c.frac : Int) + c.vhat * 10
  { c with pos := c.pos + BitVec.ofInt 48 (x.fdiv (2 ^ 32)), frac := (x.fmod (2 ^ 32)).toNat }

/-- COMPANION_REFRESH_LOST (R417): no refresh for 10 µs. -/
def execCompanionRefreshLost (s : State) : Result :=
  runWide (fun s =>
    let first := !s.refreshLost
    let s := { s with refreshLost := true, copies := s.copies.map EncCopy.runOn }
    let s := if first then postEvent 0x0C 7 0 0 0 (leBytes 1 0) s else s
    gateOpenAll s) s

/-- COMPANION_TIME_REFRESH (R21). -/
def execCompanionTimeRefresh (s : State) : Result :=
  runWide (fun s => if s.ouv.powered then modOuv (fun o => { o with time := s.tim.now }) s else s) s

/-- COMPANION_FRAME_RESEND (R510): a frame of the companion link fails its CRC and is sent again. -/
def execCompanionFrameResend (s : State) : Result :=
  runWide (fun s => if s.ouv.powered then s |> setFlag Reg.rasStatus.base 7 |> rasLast 10 0 0 else s) s

end Sys2Proof.Machine
end

