-- ==== Sys2Proof/Machine/Ledger.lean ====
section
/-! DEFINITION. The ledger's rows (02_items_and_commit.md, R460-R462): items that DIO edges open and close, deadlines, records and their
hand-off, the overflow area and the result stream. -/

namespace Sys2Proof.Machine

open Sys2Proof

/-! ## Edges -/

/-- Nothing is left to do of an edge: no enabled source opens an item by it, no source has an item to close by it. -/
def edgeSpent (s : State) (e : Edge) : Bool :=
  e.opens.all (fun o => !srcEn s o.1) && e.closes.all fun k => (s.led.srcItem.lookup k).isNone

/-- The companion link carries the edges in their order; one of which nothing is left to do leaves the queue (R420). -/
def settleEdges (s : State) : State := modOuv (fun o => { o with edgeQ := o.edgeQ.dropWhile (edgeSpent s) }) s

/-- Edges that were lost are reported once the queue has space again (R420). -/
def reportLost (s : State) : State :=
  let n := s.ouv.edgesLost
  if n = 0 ∨ 64 ≤ s.ouv.edgeQ.length then s
  else s |> modOuv (fun o => { o with edgesLost := 0 }) |> postEvent 0x0C 6 0 0 0 (leBytes 2 (min n 65535))

/-- Changes the oldest edge of the queue. -/
def modEdge (f : Edge → Edge) (s : State) : State :=
  modOuv (fun o => { o with edgeQ := match o.edgeQ with | e :: es => f e :: es | [] => [] }) s

/-- The position stamp that a source takes from an edge: the edge's own, or the microsecond position of its time (R33, R34, R419). -/
def edgePos (s : State) (src : Nat) (e : Edge) : Pos := if srcPos s src < 4 then e.pos else usPos e.time

/-- ITEM_OPEN (R26, R32, R33): the oldest queued edge opens an item of source `src`; a source that has been disabled since opens none. -/
def execItemOpen (src : Nat) (s : State) : Result :=
  run (fun s =>
    match s.ouv.edgeQ with
    | e :: _ =>
      match e.opens.find? fun o => o.1 == src with
      | some o =>
        let t := modEdge (fun e => { e with opens := dropFirst (fun x => x == o) e.opens }) s
        (if srcEn s src then openItem src (edgePos s src e) e.time (some o.2) t else t) |> settleEdges |> reportLost
      | none => s
    | [] => s) s

/-- ITEM_CLOSE_EDGE (R35): the oldest queued edge closes the latest item of source `src`. -/
def execItemCloseEdge (src : Nat) (s : State) : Result :=
  run (fun s =>
    match s.ouv.edgeQ with
    | e :: _ =>
      if e.closes.contains src then
        s |> modEdge (fun e => { e with closes := e.closes.filter fun x => x != src })
          |> closeItem src (edgePos s src e) e.time |> settleEdges |> reportLost
      else s
    | [] => s) s

/-- ITEM_DEADLINE (R37): the item's deadline position is reached by the Eboux copy. -/
def execItemDeadline (item : Word) (s : State) : Result :=
  run (fun s =>
    match itemOf s item with
    | some i => if reached (copyPos s i.posSrc) i.deadline then defaultItem i 1 s else s
    | none => s) s

/-! ## Records -/

/-- Entries of a fragment (R55). -/
def fragEntries (f : Frag) : Nat := if f.payload.length ≤ 56 then 1 else 1 + ceilDiv (f.payload.length - 56) 64

/-- The bytes of a fragment. -/
def fragBytes (f : Frag) : List Byte :=
  padTo (64 * fragEntries f)
    (leBytes 1 2 ++ leBytes 1 f.kind ++ leBytes 1 (fragEntries f) ++ leBytes 1 f.origin ++ leBytes 2 f.payload.length
      ++ leBytes 2 f.key ++ f.payload)

/-- A record's head (R54) with a given check field, its phase bit zero; `host`: the source opens items by submission, whose items have no
close edge to miss (R35). -/
def headBytes (host : Bool) (c : Commit) (check : Nat) : List Byte :=
  let i := c.item
  let n := 2 + (i.frags.map fragEntries).sum
  let noClose := !host && i.closePos.isNone
  leBytes 1 1 ++ leBytes 1 c.disp ++ leBytes 1 c.action ++ leBytes 1 i.frags.length ++ leBytes 2 n
    ++ leBytes 2 (c.flags ||| (if noClose then 2 ^ 4 else 0)) ++ leBytes 4 i.id.toNat ++ leBytes 4 c.seq.toNat
    ++ leBytes 8 (posField i.posSrc i.openPos) ++ leBytes 8 (i.closePos.elim 0 (posField i.posSrc))
    ++ leBytes 8 (posField i.posSrc i.deadline) ++ leBytes 8 (posField i.posSrc c.commitPos) ++ leBytes 8 c.firePos.toNat
    ++ leBytes 1 c.out ++ leBytes 1 i.src ++ leBytes 1 c.prog ++ leBytes 1 0 ++ leBytes 4 check
    ++ timeBytes i.openTime ++ timeBytes c.commitTime ++ padTo 32 c.digest

/-- A record: its head and its fragments (R54, R55), its phase bit zero. -/
def recordBytes (host : Bool) (c : Commit) : List Byte :=
  let frags := c.item.frags.flatMap fragBytes
  headBytes host c (crc32c (headBytes host c 0 ++ frags)) ++ frags

/-! ## The overflow area -/

/-- The first byte of the overflow area. -/
def ovfBase (s : State) : Nat := 0x1000000000 + rdF s Reg.itmOvfBase.base 0 20 * 65536

/-- The area runs past the end of LPDDR-6 (R67). -/
def ovfPast (s : State) : Bool := decide (0x2000000000 < ovfBase s + rdF s Reg.itmOvfSize.base 0 20 * 65536)

/-- 64-byte entries of the area; none where it runs past the end of LPDDR-6. -/
def ovfCap (s : State) : Nat := if ovfPast s then 0 else rdF s Reg.itmOvfSize.base 0 20 * 1024

/-- Entries in use. -/
def ovfUsed (s : State) : Nat := (s.led.overflow.map (·.entries)).sum

/-- Writes entries into the area, which is circular. -/
def ovfPut (s : State) (at_ : Nat) (es : List (List Byte)) : State :=
  es.zipIdx.foldl (fun s' e => devPut (ovfBase s + (at_ + e.2) % ovfCap s * 64) e.1 s') s

/-- Reads entries back. -/
def ovfGet (s : State) (o : OvfRec) : List Byte :=
  (List.range o.entries).flatMap fun j => devGet s (ovfBase s + (o.at_ + j) % ovfCap s * 64) 64

/-- A record goes to the overflow area, or is lost (R65, R67). -/
def toOverflow (id seq : Word) (bs : List Byte) (s : State) : State :=
  let n := bs.length / 64
  if ovfCap s < ovfUsed s + n then
    s |> setFlag Reg.itmStatus.base 2 |> bump Reg.itmSnapCnt.base 10 |> postEvent 4 1 id.toNat 0 0 (leBytes 4 seq.toNat)
  else
    let at_ := if s.led.overflow.isEmpty then 0 else s.led.ovfNext
    ovfPut s at_ (entriesOf n bs)
      |> modLed (fun l => { l with overflow := l.overflow ++ [{ item := id, seq := seq, at_ := at_, entries := n }]
                                   ovfNext := (at_ + n) % ovfCap s })
      |> bump Reg.itmSnapCnt.base 8

/-- The write of a record into the ring meets HOST_ABORT after `k` of its entries (R65): a partial copy stands there without its first
entry, no index moves, and the ring has no free space until a write can be sent again. -/
def ringAbort (bs : List Byte) (k : Nat) (s : State) : State :=
  s |> ringPart 1 bs k |> hostAbort |> modLed fun l => { l with ringFailed := true }

/-- The entry of a record of `n` entries at which its write meets HOST_ABORT, when `abort` accesses pass before it (log entry 90). -/
def abortIn (abort : Option Nat) (n : Nat) : Option Nat := abort.filter fun k => decide (k < n)

/-- A record for the result ring (R63-R67); `abort`: the entry at which the write meets HOST_ABORT. -/
def putRecord (id seq : Word) (bs : List Byte) (abort : Option Nat) (s : State) : State :=
  if s.led.overflow.isEmpty && decide (bs.length / 64 ≤ ringFree s 1) then
    match abortIn abort (bs.length / 64) with
    | some k => s |> ringAbort bs k |> toOverflow id seq bs
    | none => ringWrite 1 bs s
  else (if ringEn s 1 && ringRefused s 1 then hostAbort s else s) |> toOverflow id seq bs

/-- The Kerb entry of a commit or default whose action is EJECT or DIVERT (R424). -/
def fireMsg (c : Commit) : List KerbMsg :=
  if c.action = 0 then []
  else [{ train := false, chan := c.out, item := c.item.id, enc := c.item.posSrc, src := c.item.src, target := c.firePos
          default_ := decide (3 ≤ c.disp), spacing := 0, max := 0, stopOff := 0, ord := none }]

/-- RECORD_HANDOFF (R35, R41, R51, R63-R67, R424, R460). Whether the source is one of host submissions is read at the hand-off (DESIGN
CHOICE, log entry 95). -/
def execRecordHandoff (m : MemRun) (s : State) : Result :=
  run (fun s =>
    match s.led.committing with
    | [] => s
    | c :: cs =>
      let bs := recordBytes (srcHost s c.item.src) c
      let s := s |> modLed (fun l => { l with committing := cs }) |> putRecord c.item.id c.seq bs m.abort
      let s := { s with toKerb := s.toKerb ++ fireMsg c }
      if rdB s Reg.ethStream.base 0 then modLed (fun l => { l with streamQ := l.streamQ ++ [bs] }) s else s) s

/-- Moves whole records from the overflow area to the ring while they fit (R66); the one whose write meets HOST_ABORT stays, and those after
it (R65). -/
def drainOverflow : Nat → Option Nat → State → State
  | 0, _, s => s
  | f + 1, abort, s =>
    match s.led.overflow with
    | [] => s
    | o :: os =>
      if o.entries ≤ ringFree s 1 then
        match abortIn abort o.entries with
        | some k => ringAbort (ovfGet s o) k s
        | none => drainOverflow f (abort.map (· - o.entries)) (s |> ringWrite 1 (ovfGet s o) |> modLed (fun l => { l with overflow := os }))
      else s

/-- The overflow area is to be drained (R65, R66): a ring write is tried again; where it would be refused the records stay where they are,
as they do from the one whose write meets HOST_ABORT after `abort` entries of the drain. -/
def tryDrain (abort : Option Nat) (s : State) : State :=
  let s := modLed (fun l => { l with ringFailed := false }) s
  if ringEn s 1 && ringRefused s 1 && !s.led.overflow.isEmpty then hostAbort s
  else drainOverflow s.led.overflow.length abort s

/-- OVERFLOW_DRAIN (R65, R66). -/
def execOverflowDrain (m : MemRun) (s : State) : Result := run (fun s => s |> seeEcc m.ecc |> tryDrain m.abort) s

/-! ## The result stream -/

/-- The one's complement sum of 16-bit big-endian words. -/
def inetSum : List Byte → Nat
  | [] => 0
  | [a] => a.toNat * 256
  | a :: b :: rest => a.toNat * 256 + b.toNat + inetSum rest

/-- An Internet checksum. -/
def inetChecksum (bs : List Byte) : Nat :=
  let n := inetSum bs
  let n := n % 65536 + n / 65536
  let n := n % 65536 + n / 65536
  65535 - n

/-- A MAC register pair as the six bytes on the wire: the most significant first. -/
def macBytes (s : State) (lo : Nat) : List Byte := beBytes 6 (rd s lo + rdF s (lo + 4) 0 16 * 2 ^ 32)

/-- The 16-bit UDP checksum of a payload between two addresses (8 bytes), under a UDP header's ports and length (6 bytes). -/
def udpCheck (addrs head payload : List Byte) : Nat :=
  let ck := inetChecksum (addrs ++ beBytes 1 0 ++ beBytes 1 17 ++ beBytes 2 (8 + payload.length) ++ head ++ beBytes 2 0 ++ payload)
  if ck = 0 then 65535 else ck

/-- A datagram with flags[2] set: records were dropped since the previous one was sent (R460, R462). -/
def markDropped (bs : List Byte) : List Byte :=
  let payload := modAt 1 (fun b => b ||| 4) (bs.drop 42)
  let head := (bs.drop 34).take 6
  bs.take 34 ++ head ++ beBytes 2 (udpCheck ((bs.drop 26).take 8) head payload) ++ payload

/-- One datagram of the result stream (R460), with flags[2] at 0. -/
def datagram (s : State) (seq part parts : Nat) (entries : List Byte) : List Byte :=
  let n := entries.length / 64
  let flags := b2n (part == 0) + 2 * b2n (part + 1 == parts)
  let head := beBytes 1 1 ++ beBytes 1 flags ++ beBytes 1 part ++ beBytes 1 parts ++ beBytes 4 seq ++ beBytes 4 s.tim.dgram
    ++ beBytes 2 n ++ beBytes 2 0
  let payload := head ++ entries
  let ip := rd s Reg.ethIp.base
  let dst := rd s Reg.ethDstIp.base
  let ports := rd s Reg.ethPorts.base
  let udpLen := 8 + payload.length
  let udp := beBytes 2 (ports % 65536) ++ beBytes 2 (ports / 65536) ++ beBytes 2 udpLen
  let hdr := fun (ck : Nat) =>
    beBytes 1 0x45 ++ beBytes 1 (rdF s Reg.ethStream.base 16 6 * 4) ++ beBytes 2 (20 + udpLen) ++ beBytes 2 s.tim.ipId
      ++ beBytes 2 0x4000 ++ beBytes 1 (rdF s Reg.ethStream.base 8 8) ++ beBytes 1 17 ++ beBytes 2 ck ++ beBytes 4 ip ++ beBytes 4 dst
  macBytes s Reg.ethDstMacLo.base ++ macBytes s Reg.ethMacLo.base ++ beBytes 2 0x0800 ++ hdr (inetChecksum (hdr 0))
    ++ udp ++ beBytes 2 (udpCheck (beBytes 4 ip ++ beBytes 4 dst) udp payload) ++ payload

/-- Bytes of result-stream datagrams that wait in the transmit buffer. -/
def streamBytes (s : State) : Nat := ((s.tim.txQ.filter fun e => e.kind == 1).map fun e => e.bytes.length).sum

/-- The datagrams of a record, queued one by one. -/
def queueParts (seq parts : Nat) (bs : List Byte) : Nat → State → State
  | 0, s => s
  | n + 1, s =>
    let part := parts - (n + 1)
    let d := datagram s seq part parts ((bs.drop (part * 1408)).take 1408)
    queueParts seq parts bs n (modTim (fun t => { t with
      txQ := t.txQ ++ [{ kind := 1, bytes := d, writeBack := false, deferred := false }], dgram := (t.dgram + 1) % 2 ^ 32
      ipId := (t.ipId + 1) % 65536 }) s)

/-- RESULT_STREAM_RECORD (R460-R462): 42 bytes of headers and 16 of stream header stand before the entries of each part. -/
def execResultStreamRecord (s : State) : Result :=
  run (fun s =>
    match s.led.streamQ with
    | [] => s
    | bs :: rest =>
      let s := modLed (fun l => { l with streamQ := rest }) s
      let parts := ceilDiv bs.length 1408
      let seq := leAt bs 0xC 4
      if 262144 < streamBytes s + bs.length + parts * 58 then
        s |> modTim (fun t => { t with dropMark := true }) |> setFlag Reg.ethStatus.base 2 |> bump Reg.ethSnapCnt.base 3
          |> postEvent 0x0D 5 seq 0 0 (leBytes 4 1)
      else queueParts seq parts bs parts s) s

end Sys2Proof.Machine
end

