-- ==== Sys2Proof/Machine/Power.lean ====
section
/-! DEFINITION. Power rows (16_power_and_faults.md, R114, R115): operating points, gating and wake chains, the power ceiling, temperature and
the governor. -/

namespace Sys2Proof.Machine

open Sys2Proof

/-! ## Operating points -/

/-- The clock of a core in 10 MHz units. -/
def coreClock (s : State) (n : Nat) : Nat := rdF s (Reg.tcOpp.off n 0) 0 7

/-- A clock and a voltage that R114 allows. -/
def pointOk (f v : Nat) : Bool := decide (40 ≤ f) && decide (f ≤ 120) && decide (90 ≤ v) && decide (v ≤ 150)

/-- The least voltage of a clock, inside the range of R114. -/
def voltFor (f : Nat) : Nat := max 90 (min 150 (Config.minVolt f))

/-- The clock of a core switches: TC_STATUS flag 5. -/
def switchClock (n f : Nat) (s : State) : State :=
  if coreClock s n = f then s else s |> wrF (Reg.tcOpp.off n 0) 0 7 f |> setFlag (Reg.tcStatus.off n 0) 5

/-- A core takes an operating point (R115): for a rise the voltage first and the clock once the regulator has settled; otherwise the clock
first. The voltage stays at or above the least one of the clock (R114). -/
def setPoint (n f v : Nat) (s : State) : State :=
  let v := max v (voltFor f)
  if coreClock s n < f then
    s |> wrF (Reg.tcOpp.off n 0) 8 8 (max v (voltFor (coreClock s n))) |> modCore n (fun c => { c with pendingFreq := some f })
  else s |> switchClock n f |> wrF (Reg.tcOpp.off n 0) 8 8 v |> modCore n (fun c => { c with pendingFreq := none })

/-- The deterministic point (R388): values outside 40-120 act as 70. -/
def detFreq (s : State) : Nat :=
  let f := rdF s Reg.glbMode.base 8 7
  if 40 ≤ f ∧ f ≤ 120 then f else 70

/-- A write of TC_OPP[core] (R114): a value outside the range changes nothing, a core that is not ACTIVE keeps its point (R500), and in
deterministic mode only the frozen point is taken (R387, R388). -/
def writeOpp (core : Nat) (v : Word) (s : State) : State :=
  let f := bits v.toNat 0 7
  let u := bits v.toNat 8 8
  if (coreOf s core).st ≠ 0 ∨ (detMode s && (f != detFreq s || u != voltFor f)) = true then s
  else if pointOk f u then setPoint core f u s else s

/-- OPP_CHANGE (R114, R115, R559): a write of TC_OPP[core] by CP[3]. -/
def execOppChange (w : Writer) (core : Nat) (v : Word) (s : State) : Result :=
  run (fun s => if 16 < core then s else gate w (Reg.tcOpp.off core 0) v (writeOpp core v) s) s

/-- OPP_REGULATOR_SETTLED (R115). -/
def execOppRegulatorSettled (core : Nat) (s : State) : Result :=
  run (fun s =>
    match (coreOf s core).pendingFreq with
    | some f => if 16 < core then s else s |> modCore core (fun c => { c with pendingFreq := none }) |> switchClock core f
    | none => s) s

/-! ## Gating and wake chains -/

/-- CORE_CLOCK_GATE (R498): an ACTIVE core with no task has been idle for PWR_GATE.idle_us. -/
def execCoreClockGate (n : Nat) (s : State) : Result :=
  run (fun s =>
    let c := coreOf s n
    if rdB s Reg.pwrCtl.base 1 && rdF s Reg.pwrGate.base 0 16 != 0 && c.st == 0 && c.phase == .idle && awake s 0 n then
      modCore n (fun c => { c with gated := true }) s
    else s) s

/-- A core waits for its wake: it starts after a reset, or it is gated and a task is placed on it or it has become ACTIVE in a fenced core's
place (R511). -/
def coreWants (s : State) (n : Nat) : Bool := !awake s 0 n || ((coreOf s n).gated && ((coreOf s n).task.isSome || (coreOf s n).roused))

/-- The unit of a chain whose wake is served next (R499): the recovery wake first, then the lowest index. -/
def nextWake (s : State) (chain : Nat) : Option Nat :=
  match chain with
  | 0 =>
    match (List.range 17).find? fun n => coreWants s n && (coreOf s n).roused with
    | some n => some n
    | none => (List.range 17).find? fun n => coreWants s n
  | 1 => (List.range 14).find? fun n => !awake s 1 n
  | 2 => (List.range 4).find? fun n => !awake s 2 n
  | _ => none

/-- CORE_WAKE (R499, R500, R509, R511): a chain (0 cores, 1 pipelines, 2 engine groups) starts its next unit's clock; a core takes the operating
point that was set while it slept. The SPARE core stays gated, and its slot counts as no wake. -/
def execCoreWake (chain unit : Nat) (s : State) : Result :=
  run (fun s =>
    if !coreUp s || nextWake s chain != some unit then s
    else
      let s := modPwr (fun p => { p with asleep := p.asleep.filter fun x => x != (chain, unit) }) s
      if chain = 0 then
        let s := if (coreOf s unit).st = 1 then s else bump Reg.pwrSnapCnt.base 6 s
        let point := (coreOf s unit).wakePoint
        let s := modCore unit (fun c => { c with gated := c.st == 1, wakePoint := none, roused := false }) s
        match point with
        | some p => if detMode s then setPoint unit (detFreq s) (voltFor (detFreq s)) s else setPoint unit p.1 p.2 s
        | none => s
      else s) s

/-! ## The ceiling and temperature -/

/-- The throttle level L (R503, R506): the higher of the two demands. -/
def throttle (s : State) : Nat := max s.pwr.levelP s.pwr.levelT

/-- The power ceiling in 0.1 W. -/
def ceiling (s : State) : Nat := rdF s Reg.pwrLimit.base 0 7 * 10

/-- PWR_MEAS and PWR_TEMP show a measurement (R501, R505), but in a system or power-on reset (R523); an Ouvfi sensor at 105 °C or less lifts
the bar on a release (R506). -/
def noteMeter (m : Meter) (s : State) : State :=
  let peak := rdF s Reg.pwrMeas.base 16 16
  let s := if !wideUp s then s else
             s |> wr Reg.pwrMeas.base (m.power % 65536 + (max peak (m.power % 65536)) * 65536)
               |> wr Reg.pwrTemp.base (wrapTo 8 m.eboux + wrapTo 8 m.ouvfi * 256 + (m.place % 64) * 65536)
  s |> modOuv (fun o => { o with hotTrip := o.hotTrip && decide (105 < m.ouvfi) })

/-- A throttle event of class 0x0F. -/
def throttleEvent (code : Nat) (on : Bool) (s : State) : State := postEvent 0x0F code 0 0 0 (leBytes 1 (b2n on)) s

/-- The power demand asks for a level: flag 0, a counted engagement and an event when it engages, an event when it is released. -/
def setPowerLevel (l : Nat) (s : State) : State :=
  let was := s.pwr.levelP
  let idle := throttle s == 0
  let s := modPwr (fun p => { p with levelP := l, demandP := l != 0 }) s
  let s := if idle && l != 0 then setFlag Reg.pwrStatus.base 0 s else s
  if was = 0 ∧ l ≠ 0 then s |> bump Reg.pwrSnapCnt.base 3 |> throttleEvent 1 true
  else if was ≠ 0 ∧ l = 0 then throttleEvent 1 false s
  else s

/-- The thermal demand asks for a level (R506): flag 2 is set where the demand engages, and again where it was cleared meanwhile. -/
def setThermalLevel (l : Nat) (s : State) : State :=
  let was := s.pwr.demandT
  let idle := throttle s == 0
  let s := modPwr (fun p => { p with levelT := l, demandT := l != 0 }) s
  let s := if idle && l != 0 then setFlag Reg.pwrStatus.base 0 s else s
  let s := if l ≠ 0 ∧ (!was || !flagOf s Reg.pwrStatus.base 2) = true then setFlag Reg.pwrStatus.base 2 s else s
  if !was && l != 0 then s |> bump Reg.pwrSnapCnt.base 3 |> throttleEvent 3 true
  else if was && l == 0 then throttleEvent 3 false s
  else s

/-- THROTTLE_RAISE (R503, R506): one step for each demand that is active in this measurement. -/
def execThrottleRaise (m : Meter) (s : State) : Result :=
  runWide (fun s =>
    let s := noteMeter m s
    let s := if ceiling s < m.power then setPowerLevel (min 7 (s.pwr.levelP + 1)) s else s
    if 105 ≤ m.eboux then setThermalLevel (min 7 (s.pwr.levelT + 1)) s else s) s

/-- THROTTLE_LOWER (R503): the power has stayed below 97 % of the ceiling for 100 µs. -/
def execThrottleLower (m : Meter) (s : State) : Result :=
  runWide (fun s =>
    let s := noteMeter m s
    if m.power * 100 < ceiling s * 97 ∧ s.pwr.levelP ≠ 0 then setPowerLevel (s.pwr.levelP - 1) s else s) s

/-- CEILING_SATURATED (R504). -/
def execCeilingSaturated (m : Meter) (s : State) : Result :=
  runWide (fun s =>
    let s := noteMeter m s
    if throttle s = 7 ∧ ceiling s < m.power then s |> setFlag Reg.pwrStatus.base 1 |> postEvent 0x0F 2 0 0 0 [] else s) s

/-- THERMAL_RELEASE (R506): every sensor reads 103 °C or less. -/
def execThermalRelease (m : Meter) (s : State) : Result :=
  runWide (fun s =>
    let s := noteMeter m s
    if m.eboux ≤ 103 ∧ s.pwr.demandT = true then setThermalLevel 0 s else s) s

/-- A write of PWR_LIMIT by either side (R502, R559). -/
def requestLimit (w : Writer) (v : Word) (s : State) : State :=
  let n := bits v.toNat 0 7
  let s := if w = .complex ∧ silent s Reg.pwrLimit.base true = false then setFlag Reg.pwrStatus.base 6 s else s
  gate w Reg.pwrLimit.base v (fun s => if 25 ≤ n ∧ n ≤ 110 then wr Reg.pwrLimit.base n s else setFlag Reg.pwrStatus.base 6 s) s

/-- PWR_LIMIT_WRITE (R502, R559). -/
def execPwrLimitWrite (w : Writer) (v : Word) (s : State) : Result := run (fun s => requestLimit w v s) s

/-- SUPPLY_EXCURSION (R577): a supply leaves its flagged range; `flag` is the PWR_STATUS flag, 3 to 5. In a system or
power-on reset only the loss of VBAK is remembered (R523, R537). -/
def execSupplyExcursion (flag : Nat) (s : State) : Result :=
  run (fun s =>
    if flag < 3 ∨ 5 < flag then s
    else
      let s := modPwr (fun p => { p with vbakOk := p.vbakOk && flag != 5 }) s
      if !wideUp s then s
      else s |> setFlag Reg.pwrStatus.base flag |> bump Reg.pwrSnapCnt.base 7 |> postEvent 0x0F 4 0 0 0 (leBytes 1 flag)) s

/-! ## The governor -/

/-- Every ACTIVE core takes a point at once, a gated one when it wakes (R509). -/
def setAllPoints (f : Nat) (s : State) : State :=
  (activeCores s).foldl (fun s n =>
    if (coreOf s n).gated || !awake s 0 n then modCore n (fun c => { c with wakePoint := some (f, voltFor f) }) s
    else setPoint n f (voltFor f) s) s

/-- PWR_GOV fields: slack margin in ns, lowest and highest clock, busy target in percent. -/
def govMargin (s : State) : Nat := rdF s Reg.pwrGov.base 0 8 * 1000000
def govMin (s : State) : Nat := rdF s Reg.pwrGov.base 8 7
def govMax (s : State) : Nat := rdF s Reg.pwrGov.base 16 7
def govBusy (s : State) : Nat := rdF s Reg.pwrGov.base 24 7

/-- The last PWR_GOV2.window commits of a source, newest first. -/
def govWindow (s : State) (src : Nat) : List GovCommit :=
  (s.pwr.commits.filter fun c => c.src == src).take (rdF s Reg.pwrGov2.base 0 16)

/-- Puts a number into an ascending list. -/
def insertNat (x : Nat) : List Nat → List Nat
  | [] => [x]
  | y :: ys => if x ≤ y then x :: y :: ys else y :: insertNat x ys

/-- The 90th percentile of a list, by nearest rank; 0 of an empty list. -/
def p90 (l : List Nat) : Nat := (l.foldl (fun a x => insertNat x a) []).getD (ceilDiv (9 * l.length) 10 - 1) 0

/-- The least reach of a window. -/
def leastReach (l : List GovCommit) : Option Int :=
  l.foldl (fun m c => match m with | none => some c.reach | some r => some (min r c.reach)) none

/-- D of a source in ns (R507 step 1): the least reach at the present speed; none while the belt does not move forward or no commit has a
reach. -/
def govD (s : State) (src : Nat) : Option Int :=
  let v := copySpeed s (srcPos s src)
  match leastReach (govWindow s src) with
  | none => none
  | some r => if v ≤ 0 then none else some ((r * 1000 * 2 ^ 32).fdiv v)

/-- The slack bound of a source in 10 MHz units, rounded up (R507 steps 1-3); f_max for a source with fewer than 16 commits (R508). -/
def slackBound (s : State) (src : Nat) : Nat :=
  if s.pwr.sourceCommits.getD src 0 < 16 then govMax s
  else
    let v := copySpeed s (srcPos s src)
    match leastReach (govWindow s src) with
    | none => 0
    | some r =>
      if v ≤ 0 then 0
      else
        let room := r * 1000 * 2 ^ 32 - govMargin s * v
        if room ≤ 0 then govMax s
        else ceilDiv (p90 ((govWindow s src).map fun c => c.tailNs * c.freq) * v.toNat) room.toNat

/-- Rows that entered the arrays of the ACTIVE cores since the last update. -/
def busyRows (s : State) : Nat :=
  ((activeCores s).map fun n => ctrOf s (Reg.tcCnt.off n 1) - s.pwr.busyAt.getD n 0).sum

/-- The throughput bound in 10 MHz units, rounded up (R507 step 4): f_now × busy / busy_max over the 1 ms since the last update, in which a
core at f_now has f_now × 10,000 clocks less those that the throttle skipped, L of every 8 (R503). -/
def busyBound (s : State) : Nat :=
  let a := (activeCores s).length
  if a = 0 ∨ govBusy s = 0 then 0 else ceilDiv (80000 * busyRows s) (a * govBusy s * (8000000 - min s.pwr.skip 7000000))

/-- The enabled sources. -/
def govSources (s : State) : List Nat := (List.range 8).filter fun n => srcEn s n

/-- Least D over the enabled sources in whole ms, saturating; 65,535 with none. -/
def govDMin (s : State) : Nat :=
  ((govSources s).filterMap fun n => govD s n).foldl (fun m d => min m (d.toNat / 1000000)) 65535

/-- The clock that the governor wants, and which bound gave it (PWR_GOV_VIEW.bound). -/
def govTarget (s : State) : Nat × Nat :=
  let slack := (govSources s).foldl (fun m n => max m (slackBound s n)) 0
  let busy := busyBound s
  let lo := govMin s
  let f := max lo (max slack busy)
  (max lo (min (govMax s) f), if f = lo then 0 else if busy ≤ slack then 1 else 2)

/-- The present clock f_now (R507, R508): that of the ACTIVE cores that run, the highest should they differ; with none running, the last
point (log entry 55). -/
def govNow (s : State) : Nat :=
  match (activeCores s).filter fun n => awake s 0 n && !(coreOf s n).gated with
  | [] => rdF s Reg.pwrGovView.base 0 7
  | l => l.foldl (fun m n => max m (coreClock s n)) 0

/-- The next point (R508): a rise at once, a fall by at most PWR_GOV2.fall; one step down while PWR_STATUS flag 1 is set. -/
def govNext (s : State) : Nat × Nat :=
  let now := govNow s
  if flagOf s Reg.pwrStatus.base 1 then (max (govMin s) (now - 1), 3)
  else
    let t := govTarget s
    (max t.1 (now - max 1 (rdF s Reg.pwrGov2.base 16 8)), t.2)

/-- The next millisecond of the busy measure begins. -/
def busySeen (s : State) : State :=
  modPwr (fun p => { p with busyAt := (List.range 17).map fun n => ctrOf s (Reg.tcCnt.off n 1), skip := 0 }) s

/-- GOVERNOR_UPDATE (R388, R507-R509): in deterministic mode the cores are only held at the frozen point. -/
def execGovernorUpdate (s : State) : Result :=
  run (fun s =>
    if !cpUp s 3 then s
    else if detMode s then setAllPoints (detFreq s) (busySeen s)
    else
      let now := govNow s
      let (f, bound) := if rdB s Reg.pwrCtl.base 0 then govNext s else (govMax s, rdF s Reg.pwrGovView.base 8 2)
      let d := govDMin s
      let s := s |> bump Reg.pwrSnapCnt.base 0
                 |> (fun s => if now < f then bump Reg.pwrSnapCnt.base 1 s else if f < now then bump Reg.pwrSnapCnt.base 2 s else s)
                 |> wr Reg.pwrGovView.base (f + bound * 256 + d * 65536)
      setAllPoints f (busySeen s)) s

end Sys2Proof.Machine
end

