-- ==== Sys2Proof/Machine/Dio.lean ====
section
/-! DEFINITION. DIO inputs and their edges (R419, R420, R433), the heartbeat and the safe state (R436-R438, R506), the reset frame (R532) and
the field supply (R535, R579). -/

namespace Sys2Proof.Machine

open Sys2Proof

/-! ## Inputs -/

/-- Input `n`. -/
def inputOf (s : State) (n : Nat) : Input := s.ouv.inputs.getD n Input.reset

/-- DIO_RAW_TRANSITION (R419): a line changes; a level that differs from the accepted one begins a stable period. -/
def execDioRawTransition (n : Nat) (level : Bool) (s : State) : Result :=
  run (fun s =>
    let i := inputOf s n
    if i.raw == level then s
    else
      let p := fieldPos s (dioEnc s n)
      let start := if s.ouv.powered && !isOut s n && level != i.level then some (s.ouv.time, p) else none
      modInput n (fun i => { i with raw := level, start := start }) s) s

/-- The enabled DIO sources that name an input (R35). -/
def sourcesAt (s : State) (n : Nat) : List Nat :=
  (List.range 8).filter fun k => srcEn s k && !srcHost s k && srcDin s k == n

/-- A source takes the level as its opening edge; else it is its closing edge. -/
def opening (s : State) (level : Bool) (k : Nat) : Bool := level != srcFalling s k

/-- The close edge of a source reaches the Kerb (R433): the trains of its most recently opened item take their stop. -/
def closeTrains (k : Nat) (p : Pos) (s : State) : State :=
  let o := s.ouv.openOrd.getD k 0
  if o = 0 ∨ (s.ouv.closed.any fun c => c.1 == k && c.2.1 == o) = true then s
  else
    let s := modOuv (fun u => { u with closed := (k, o, p) :: u.closed.filter fun c => c.1 != k }) s
    (List.range 256).foldl (fun s e =>
      let x := entryOf s e
      if x.kind == 2 && x.src == k && x.ord == some o && !x.flags.testBit 2 then setStop e p s else s) s

/-- The words of DIO_EDGE[n] (R440). -/
def writeEdgeWords (n : Nat) (level : Bool) (t : DevTime) (p : Pos) (s : State) : State :=
  s |> wr (Reg.dioEdge.off n 0) t.ns |> wr (Reg.dioEdge.off n 1) t.sec |> wr (Reg.dioEdge.off n 2) p.toNat
    |> wr (Reg.dioEdge.off n 3) (p.toNat / 2 ^ 32 + 65536 * b2n level)

/-- Puts an edge into the queue: behind what was accepted before it, but before an edge of a higher input with the same time stamp (R26). -/
def insertEdge (e : Edge) : List Edge → List Edge
  | [] => [e]
  | x :: xs => if x.time = e.time ∧ e.chan < x.chan then e :: x :: xs else x :: insertEdge e xs

/-- An accepted edge goes to the sources and, where DIO_CFG[n].evt is 1, to the event ring; one that finds 64 edges queued is lost
(R420). -/
def queueEdge (e : Edge) (s : State) : State :=
  if 64 ≤ s.ouv.edgeQ.length then s |> bump Reg.dioSnapCnt.base 1 |> modOuv (fun o => { o with edgesLost := o.edgesLost + 1 })
  else
    let opens := (sourcesAt s e.chan).filter (opening s e.level)
    let s := modOuv (fun o => { o with openOrd := opens.foldl (fun l k => modAt k (· + 1) l) o.openOrd }) s
    let e := { e with opens := opens.map fun k => (k, s.ouv.openOrd.getD k 0)
                      closes := (sourcesAt s e.chan).filter fun k => !opening s e.level k }
    let s := s |> modOuv (fun o => { o with edgeQ := insertEdge e o.edgeQ }) |> settleEdges
    if bitOf (dioCfg s e.chan) 5 then
      postEvent 0x0C 5 e.chan (posField (dioEnc s e.chan) e.pos) 0 (leBytes 1 (b2n e.level) ++ leBytes 1 (dioEnc s e.chan)) s
    else s

/-- DIO_EDGE_ACCEPT (R419, R420, R433): the level has held for the debounce time. -/
def execDioEdgeAccept (n : Nat) (s : State) : Result :=
  run (fun s =>
    let i := inputOf s n
    match i.start with
    | none => s
    | some (t, p) =>
      if !s.ouv.powered || isOut s n || i.raw == i.level then s
      else
        let e : Edge := { chan := n, level := i.raw, time := t, pos := p, opens := [], closes := [] }
        let s := s |> modInput n (fun i => { i with level := i.raw, start := none }) |> writeEdgeWords n i.raw t p
                   |> bump Reg.dioSnapCnt.base 0
        let closing := (sourcesAt s n).filter fun k => !opening s i.raw k
        let s := closing.foldl (fun s k => closeTrains k (edgePos s k e) s) s
        queueEdge e s) s

/-! ## The safe state -/

/-- Every entry of the Kerb is discarded and counted (R437, R532). -/
def discardEntries (s : State) : State :=
  let n := kerbUsed s
  let trains := s.ouv.entries.filter fun k => k.kind == 2
  let s := modOuv (fun o => { o with entries := List.replicate 256 KerbEntry.free }) s
  let s := if n = 0 then s else s |> setFlag Reg.krbStatus.base 4 |> count (Reg.krbSnapCnt.base + 28) n
  trains.foldl (fun s k => trainEnded (portIndex k.chan) k.item s) s

/-- Ouvfi enters the safe state (R437). -/
def enterSafe (s : State) : State :=
  if safeOn s then s
  else
    let n := kerbUsed s
    s |> wrF Reg.dioSafe.base 0 1 1 |> discardEntries |> modOuv (fun o => { o with report := true, discarded := n })
      |> bump Reg.dioSnapCnt.base 2 |> driveAll

/-- The always-on island sends heartbeats (R436). -/
def beating (s : State) : Bool := (coreUp s || s.rst.level == 0) && !s.rst.wdogExpired

/-- HEARTBEAT (R436, R437). -/
def execHeartbeat (s : State) : Result :=
  run (fun s =>
    if !s.ouv.powered || !beating s then s
    else
      let report := s.ouv.report
      let s := modOuv (fun o => { o with heartbeat := true, report := false }) s
      if report then s |> setFlag Reg.dioStatus.base 0 |> postEvent 0x0C 2 0 0 0 (leBytes 2 s.ouv.discarded) else s) s

/-- HEARTBEAT_TIMEOUT (R437). -/
def execHeartbeatTimeout (s : State) : Result :=
  run (fun s => if s.ouv.powered then s |> modOuv (fun o => { o with heartbeat := false }) |> enterSafe else s) s

/-- A write of DIO_SAFE (R438, R506). -/
def writeDioSafe (v : Word) (s : State) : State :=
  if !v.toNat.testBit 1 || !s.ouv.powered || !safeOn s || !s.ouv.heartbeat || s.ouv.hotTrip then s
  else
    s |> wrF Reg.dioSafe.base 0 1 0
      |> modOuv (fun o => { o with outputs := o.outputs.map fun x => { x with lastOff := some o.time } })
      |> postEvent 0x0C 3 0 0 0 [] |> driveAll

/-- SAFE_STATE_RELEASE (R438). -/
def execSafeStateRelease (w : Writer) (v : Word) (s : State) : Result := run (gate w Reg.dioSafe.base v (writeDioSafe v)) s

/-- OUVFI_THERMAL_TRIP (R506): the Ouvfi sensor reads 115 °C. -/
def execOuvfiThermalTrip (m : Meter) (s : State) : Result :=
  run (fun s =>
    let s := noteMeter m s
    if m.ouvfi < 115 ∨ s.ouv.powered = false then s
    else s |> (fun s => if wideUp s then setFlag Reg.pwrStatus.base 7 s else s) |> modOuv (fun o => { o with hotTrip := true }) |> enterSafe) s

/-! ## Resets of the die -/

/-- An offset of ENC, DIO or KRB. -/
def fieldOff (off : Nat) : Bool := decide (0x1C ≤ off / 65536) && decide (off / 65536 ≤ 0x1E)

/-- Every register, counter and latched word at an offset that satisfies `p` takes its reset value. -/
def clearRegs (p : Nat → Bool) (s : State) : State :=
  { s with regs := s.regs.filter fun e => !p e.1
           ctr := s.ctr.filter fun e => !p e.1
           latches := s.latches.filter fun l => !p l.off }

/-- The units of the die as their reset values and the fuse map leave them; lines keep their levels, and the governor its memory of each
output (R435, R532, R535). -/
def Ouvfi.again (f : Fuses) (o : Ouvfi) : Ouvfi :=
  { Ouvfi.reset f with
    powered := o.powered
    encs := o.encs.map fun e => { Encoder.reset with a := e.a, b := e.b }
    outputs := o.outputs.zipIdx.map fun x =>
      { x.1 with fuse := f.dioOut.getLsbD x.2 && f.dioOn.getLsbD x.2, locked := false }
    inputs := o.inputs.map fun i => { Input.reset with raw := i.raw }
    heartbeat := o.heartbeat, discarded := o.discarded, report := o.report, hotTrip := o.hotTrip, time := o.time }

/-- Inputs start again under R419, outputs take their sources. -/
def applyPins (s : State) : State :=
  driveAll ((List.range 32).foldl (fun s n => if isOut s n then s else becomeInput n s) s)

/-- RESET_FRAME (R440, R532): a power-on or system reset has been asserted; the most entries in use since power-on stays
in a system reset. -/
def execResetFrame (s : State) : Result :=
  run (fun s =>
    if !s.ouv.powered || coreUp s || s.rst.level == 0 then s
    else
      let safe := safeOn s
      let peak := rdF s Reg.krbUsed.base 16 9
      let s := s |> discardEntries |> clearRegs fieldOff |> wrF Reg.krbUsed.base 16 9 (if s.rst.level = 2 then 0 else peak)
      let s := { s with ouv := s.ouv.again s.fuse }
      let s := if safe then wrF Reg.dioSafe.base 0 1 1 s else s
      applyPins s) s

/-- FIELD_SUPPLY_LOSS (R579): Ouvfi is unpowered. -/
def execFieldSupplyLoss (s : State) : Result :=
  run (fun s =>
    if !s.ouv.powered then s
    else
      let s := clearRegs fieldOff s
      { s with tv := s.tv.filter fun t => !fieldOff t.off
               ouv := { s.ouv.again s.fuse with
                        powered := false, heartbeat := false, discarded := 0, report := false, hotTrip := false
                        outputs := List.replicate 32 Output.reset } }) s

/-- FIELD_SUPPLY_RETURN (R535, R579). -/
def execFieldSupplyReturn (s : State) : Result :=
  run (fun s =>
    if s.ouv.powered then s
    else applyPins { s with ouv := { s.ouv.again s.fuse with powered := true } }) s

end Sys2Proof.Machine
end

