-- ==== Sys2Proof/Machine/Avenue.lean ====
section
/-! DEFINITION. What is wired: the Avenues' mesh with the unit at each of its 64 stops and the links between neighbours (R22, R99, R100),
and the rates and widths of the host link (R8, R465). -/

namespace Sys2Proof.Machine

open Sys2Proof

/-- What a stop of the Avenues serves (R22). -/
inductive StopUnit where
  | pipes (n : Nat)    -- P[n]: IP[2n] and IP[2n + 1]
  | engines (g : Nat)  -- E[g]: engine group g
  | core (n : Nat)     -- TC[n]
  | bank (b : Nat)     -- B[b]: physical banks 4b to 4b + 3
  | host | peer | memory
  deriving DecidableEq, Repr

/-- The stops row by row, rows y = 0 to 3 (R99). -/
def upperStops : List (List StopUnit) :=
  [ [.pipes 0, .pipes 1, .pipes 2, .pipes 3, .pipes 4, .pipes 5, .pipes 6, .engines 0]
  , [.core 0, .bank 0, .bank 1, .core 1, .bank 2, .bank 3, .core 2, .bank 4]
  , [.core 3, .bank 5, .bank 6, .core 4, .bank 7, .bank 8, .core 5, .bank 9]
  , [.bank 10, .bank 11, .core 6, .bank 12, .bank 13, .core 7, .bank 14, .bank 15] ]

/-- Rows y = 4 to 7 (R99). -/
def lowerStops : List (List StopUnit) :=
  [ [.bank 16, .bank 17, .core 8, .bank 18, .bank 19, .core 9, .bank 20, .bank 21]
  , [.core 10, .bank 22, .bank 23, .core 11, .bank 24, .bank 25, .core 12, .bank 26]
  , [.core 13, .bank 27, .bank 28, .core 14, .bank 29, .bank 30, .core 15, .bank 31]
  , [.engines 1, .engines 2, .engines 3, .host, .peer, .memory, .core 16, .bank 32] ]

/-- The stops row by row, y = 0 first (R99). -/
def stopGrid : List (List StopUnit) := upperStops ++ lowerStops

/-- The unit at stop number 8y + x; none past the mesh. -/
def unitAt (stop : Nat) : Option StopUnit := ((stopGrid.getD (stop / 8) [])[stop % 8]?)

/-- The number of the stop that serves a unit. -/
def stopOf (u : StopUnit) : Nat := ((List.range 64).find? fun n => unitAt n == some u).getD 64

/-- A stop whose unit sends accesses to the Square: every stop but the bank stops, which serve them. -/
def sends (stop : Nat) : Bool :=
  match unitAt stop with
  | some (.bank _) => false
  | some _ => true
  | none => false

/-- The stop at the other end of a link: link 4 n + d leaves stop n toward x + 1, x - 1, y + 1 or y - 1 for d = 0 to 3 (R100); the
numbers of links are the model's (log entry 91). -/
def linkEnd (link : Nat) : Option Nat :=
  let n := link / 4
  let x := n % 8
  if 256 ≤ link then none
  else match link % 4 with
    | 0 => if x = 7 then none else some (n + 1)
    | 1 => if x = 0 then none else some (n - 1)
    | 2 => if 56 ≤ n then none else some (n + 8)
    | _ => if n < 8 then none else some (n - 8)

/-- Two stops are joined by this link. -/
def linkExists (link : Nat) : Bool := (linkEnd link).isSome

/-- A rate and width of the host link (R465): 2.5 to 64 GT/s as codes 1 to 6, the last in FLIT mode; x1, x2, x4 or x8. -/
def linkListed (speed width : Nat) (flit : Bool) : Bool :=
  decide (1 ≤ speed) && decide (speed ≤ 6) && [1, 2, 4, 8].contains width && (speed != 6 || flit)

end Sys2Proof.Machine
end

