-- ==== Sys2Proof/Machine/SqRows.lean ====
section
/-! DEFINITION. The Square's rows (03_square.md): accesses, their time bound, the patrol scrubber, bank retirement, partition and KV
registers, and the resends of an Avenue link. -/

namespace Sys2Proof.Machine

open Sys2Proof

/-- An access row answers a status and data. -/
def answer (r : AccessResult × State) : State := { r.2 with rdata := ofLe r.1.data, rstat := r.1.status }

/-- SQUARE_ACCESS (R22, R71, R74, R76-R78, R94, R99): an access by the unit at a stop that sends accesses. -/
def execSquareAccess (stop : Nat) (acc : Access) (ecc : List EccHit) (s : State) : Result :=
  run (fun s => if coreUp s && sends stop then answer (squareAccess acc ecc s) else s) s

/-- The number of the bank stop that serves the physical bank of a logical bank (R99). -/
def bankStop (s : State) (l : Nat) : Nat := stopOf (.bank (rdF s (Reg.sqBankmap.off l 0) 0 8 / 4))

/-- The access lies in the Square's range. -/
def inSquare : Access → Bool
  | .read a n => decide (a + n ≤ 0x20000000)
  | .write a bs => decide (a + bs.length ≤ 0x20000000)

/-- HOST_SQUARE_ACCESS (R108, R496): an access by the host that the aperture has brought to the Square. -/
def execHostSquareAccess (acc : Access) (ecc : List EccHit) (s : State) : Result :=
  run (fun s => if coreUp s && inSquare acc then answer (hostSquare acc ecc (bump Reg.pciSnapCnt.base 2 s)) else s) s

/-- The address of line `n` of logical bank `l` (R72). -/
def lineAddr (l n : Nat) : Nat := n * 32768 + l * 256

/-- The scrubber has read a line of a bank: the next line follows, and after the last one a pass has completed (R79). -/
def nextLine (l : Nat) (s : State) : State :=
  let n := s.sq.scrubLine.getD l 0 + 1
  if n < 16384 then modSq (fun q => { q with scrubLine := modAt l (fun _ => n) q.scrubLine }) s
  else
    let s := modSq (fun q => { q with scrubLine := modAt l (fun _ => 0) q.scrubLine, ceInPass := modAt l (fun _ => 0) q.ceInPass }) s
    if l = 0 then wrF Reg.sqScrub.base 16 16 (rdF s Reg.sqScrub.base 16 16 + 1) s else s

/-- SCRUB_READ (R76, R77, R79-R81): the scrubber of a bank reads its next line. -/
def execScrubRead (bank : Nat) (ecc : List EccHit) (s : State) : Result :=
  run (fun s =>
    if !coreUp s || !rdB s Reg.sqCtl.base 0 || decide (128 ≤ bank) then s
    else s |> applyEcc (touches (lineAddr bank (s.sq.scrubLine.getD bank 0)) 256) true ecc |> nextLine bank) s

/-- BANK_RETIRE_DONE (R82): the copy of a logical bank is complete and the map switches to the spare. -/
def execBankRetireDone (bank : Nat) (s : State) : Result :=
  run (fun s =>
    match s.sq.retiring.find? fun r => r.bank == bank with
    | none => s
    | some r =>
      s |> modSq (fun q => { q with retiring := dropFirst (fun x => x.bank == bank) q.retiring
                                    ceInPass := modAt bank (fun _ => 0) q.ceInPass })
        |> wr (Reg.sqBankmap.off bank 0) r.spare |> setFlag Reg.sqStatus.base 3) s

/-- SQ_QUOTA_WRITE (R90, R92, R93). -/
def execSqQuotaWrite (w : Writer) (p : Nat) (v : Word) (s : State) : Result :=
  run (fun s => if p < 16 then gate w (Reg.sqQuota.off p 0) v (writeQuota p v.toNat) s else s) s

/-- PARTITION_DISABLE_WRITE (R93): the write clears SQ_QUOTA[p].en. -/
def execPartitionDisableWrite (w : Writer) (p : Nat) (v : Word) (s : State) : Result :=
  run (fun s => if p < 16 ∧ v.getLsbD 31 = false then gate w (Reg.sqQuota.off p 0) v (writeQuota p v.toNat) s else s) s

/-- SQ_KV_POOL_WRITE (R96, R97). -/
def execSqKvPoolWrite (w : Writer) (p : Nat) (v : Word) (s : State) : Result :=
  run (fun s => if p < 16 then gate w (Reg.sqKvCfg.off p 0) v (writeKvCfg p v.toNat) s else s) s

/-- KV_GRANULE_RELEASE (R97): the granules of a shrinking pool whose blocks have freed. -/
def execKvGranuleRelease (p : Nat) (s : State) : Result := run (fun s => if p < 16 then shrinkPool p s else s) s

/-- Failed resends of the flit at hand on a link. -/
def laneFails (s : State) (link : Nat) : Nat := (s.sq.laneFails.lookup link).getD 0

/-- AVENUE_PARITY_ERROR (R103, R510): a flit arrives with bad parity and a resend is requested; after three failed resends of one flit the
link takes its spare lane. -/
def execAvenueParityError (link : Nat) (resend : Bool) (s : State) : Result :=
  run (fun s =>
    if !coreUp s || !linkExists link then s
    else
      let n := if resend then laneFails s link + 1 else 0
      let s := modSq (fun q => { q with laneFails := upsert link n q.laneFails }) s
      if n = 3 ∧ s.sq.laneSpare.contains link = false then
        s |> modSq (fun q => { q with laneFails := upsert link 0 q.laneFails, laneSpare := q.laneSpare ++ [link] })
          |> setFlag Reg.rasStatus.base 4 |> bump Reg.rasSnapCnt.base 5 |> rasLast 6 link 0 |> postEvent 0x10 4 link 0 0 []
      else s) s

end Sys2Proof.Machine
end

