-- ==== Sys2Proof/Machine/Subs.lean ====
section
/-! DEFINITION. The submission ring (R59-R62, R468, R469, R531) and what the rows of its submissions share (R61, R202, R588). -/

namespace Sys2Proof.Machine

open Sys2Proof

/-! ## Entries -/

/-- A submission entry, read. -/
def subOf (e : List Byte) : Submission :=
  { op := leAt e 0 1, arg := leAt e 2 2, tag := BitVec.ofNat 32 (leAt e 4 4), addr := leAt e 8 8, len := leAt e 0x10 4
    params := (e.drop 0x14).take 43, early := none }

/-- A parameter of a submission, by its offset in the entry. -/
def par (e : Submission) (o n : Nat) : Nat := leAt e.params (o - 0x14) n

/-- What ends a submission by its entry alone: an opcode or policy class that no rule gives, a reserved byte that is not zero, a length where
none may stand (R61, R588). -/
def earlyStatus (raw : List Byte) (e : Submission) : Option Nat :=
  if 5 < e.op then some Stat.unsupported
  else if leAt raw 1 1 ≠ 0 ∨ 1 < leAt raw 0x3F 1 then some Stat.badFormat
  else if (e.op = 0 ∨ e.op = 2 ∨ e.op = 4) ∧ e.len ≠ 0 then some Stat.length
  else if e.op = 3 ∧ (par e 0x14 1 < 1 ∨ 7 < par e 0x14 1) then some Stat.unsupported
  else none

/-- The data of a completion that carries no load result. -/
def noData : List Byte := []

/-- The data of a load's completion (R206): handle, shortfall entries, stage, offset. -/
def loadData (handle n stage off : Nat) : List Byte := leBytes 1 handle ++ leBytes 1 n ++ leBytes 1 stage ++ leBytes 4 off

/-- A submission that CP[0] carries out, in ring order (R202). -/
def serialOp (e : Submission) : Bool := e.op != 0 && e.op != 4

/-- A consumed entry: it is outstanding until its completion event (R61). One that its entry alone ends does so at once, or, where CP[0] would
carry it out, in its turn (R202). -/
def takeEntry (raw : List Byte) (s : State) : State :=
  let e := subOf raw
  match earlyStatus raw e with
  | some st =>
    if serialOp e && decide (e.op ≤ 5) then modLed (fun l => { l with subQ := l.subQ ++ [{ e with early := some st }] }) s
    else completeSub e.op e.tag st noData s
  | none => modLed (fun l => { l with subQ := l.subQ ++ [e] }) s

/-- Submissions that are outstanding (R531): consumed and not completed, and those that a core reset ended and whose completions are held. -/
def openCount (s : State) : Nat := s.led.subQ.length + s.led.aborted.length

/-- Reads entries while their phase bits are new (R58-R60), at most `f`; no entry is read while 64 are outstanding (R531). The number
consumed; none of it where a read meets HOST_ABORT, as read number `abort` of the poll does. -/
def pollEntries (abort : Option Nat) : Nat → Nat → State → Nat × State
  | 0, n, s => (n, s)
  | f + 1, n, s =>
    if 64 ≤ openCount s then (n, s)
    else
      let size := ringSize s 0
      let i := rd s (ringIdx 0)
      let a := ringBase s 0 + (i % size) * 64
      if !hostCanRead s a 64 || abort == some n then
        (n, s |> bump Reg.pciSnapCnt.base 0 |> hostAbort |> setFlag Reg.pciStatus.base 0 |> wrF Reg.itmCtl.base 0 1 0)
      else
        let raw := hostGet s a 64
        let s := bump Reg.pciSnapCnt.base 0 s
        if bitOf (leAt raw 0x3F 1) 0 != phaseOf i size then (n, s)
        else pollEntries abort f (n + 1) (s |> wr (ringIdx 0) (i + 1) |> takeEntry raw)

/-! ## Serving -/

/-- A submission ends (R61). -/
def dropSub (e : Submission) (status : Nat) (data : List Byte) (s : State) : State :=
  s |> modLed (fun l => { l with subQ := dropFirst (fun x => x == e) l.subQ }) |> completeSub e.op e.tag status data

/-- A load or an unload is under way: CP[0] takes no other submission until it completes (R202). -/
def loaderBusy (s : State) : Bool := s.progs.any fun p => p.loading || p.unloading

/-- The submission whose turn it is at CP[0] (R202). -/
def turn (s : State) : Option Submission := if !cpUp s 0 || loaderBusy s then none else s.led.subQ.find? serialOp

/-- Submissions whose turn it is and that their entries alone end, end (R61, R202, R588). -/
def endEarlyN : Nat → State → State
  | 0, s => s
  | f + 1, s =>
    match turn s with
    | none => s
    | some e =>
      match e.early with
      | none => s
      | some st => endEarlyN f (dropSub e st noData s)

/-- The same until none is left. -/
def endEarly (s : State) : State := endEarlyN s.led.subQ.length s

/-- SUB_RING_POLL (R59-R62, R468, R469): CP[1] polls while the ring is enabled, the interval is not zero and bus mastering is on. -/
def execSubRingPoll (m : MemRun) (s : State) : Result :=
  run (fun s =>
    if !cpUp s 1 || !ringEn s 0 || rdF s Reg.itmSubPoll.base 0 16 == 0 || !s.host.bme then s
    else
      let (n, s) := pollEntries m.abort (ringSize s 0) 0 s
      endEarly (if n = 0 then s else writeBack 0 (rd s (ringIdx 0)) s)) s

/-- A submission ends (R61), and those behind it that their entries alone end (R202). -/
def finishSub (e : Submission) (status : Nat) (data : List Byte) (s : State) : State :=
  endEarly (dropSub e status data s)

/-- The submission that CP[0] takes next, if `sel` accepts it. -/
def nextSub (sel : Submission → Bool) (s : State) : Option Submission :=
  match turn s with
  | some e => if sel e && e.early.isNone then some e else none
  | none => none

/-- The params bytes from `o` on are zero (R588). -/
def parsZero (e : Submission) (o : Nat) : Bool := par e o (0x3F - o) == 0

/-- The reserved bits of arg and params are zero, and what a table limits there is in range (R588): of a load (R201), a quota (R592) and a
policy of each class (R267, R335, R404, R431, R546, R549, R542). -/
def entryClean (e : Submission) : Bool :=
  match e.op with
  | 1 => decide (e.arg ≤ 15) && decide (par e 0x30 1 ≤ 1) && parsZero e 0x31
  | 5 => decide (e.arg ≤ 15)
  | 3 =>
    match par e 0x14 1 with
    | 2 => decide (portIndex (par e 0x15 1) < 16) && parsZero e 0x16
    | 5 => e.arg == 0 && par e 0x15 3 == 0 && parsZero e 0x24
    | 6 => e.arg == 0 && parsZero e 0x15
    | 7 => e.arg == 0 && parsZero e 0x15
    | _ => parsZero e 0x15
  | _ => true

/-- Serves CP[0]'s next submission of a kind: length 0 is a no-op (R61), in an entry whose reserved bits are zero (R588). -/
def serve (sel : Submission → Bool) (f : Submission → State → State) (s : State) : State :=
  match nextSub sel s with
  | none => endEarly s
  | some e =>
    if e.len = 0 ∧ e.op ≠ 2 then finishSub e (if entryClean e then Stat.ok else Stat.badFormat) noData s else f e s

/-- A policy submission of a class. -/
def isPolicy (cls : Nat) (e : Submission) : Bool := e.op == 3 && par e 0x14 1 == cls

/-- Reads a submission's payload and goes on with it, or ends the submission with the status of R61. -/
def withPayload (m : MemRun) (e : Submission) (square : Bool) (f : List Byte → State → State) (s : State) : State :=
  let (r, s) := payload m square e.addr e.len s
  if r.status ≠ Stat.ok then finishSub e r.status noData s else f r.data s

/-- The loaded program that arg names (R205). -/
def argProg (s : State) (e : Submission) : Option Program := loadedProg s e.arg

/-! ## Rows -/

/-- SUB_NOP (R61). -/
def execSubNop (s : State) : Result :=
  run (fun s =>
    if !cpUp s 1 then s
    else match s.led.subQ.find? fun e => e.op == 0 with
      | some e => finishSub e Stat.ok noData s
      | none => s) s

/-- SUB_OPEN_ITEM (R33, R589): CP[1] does not hold it behind loads (R202). -/
def execSubOpenItem (s : State) : Result :=
  run (fun s =>
    if !cpUp s 1 then s
    else match s.led.subQ.find? fun e => e.op == 4 with
      | none => s
      | some e =>
        if 7 < e.arg ∨ srcEn s e.arg = false ∨ srcHost s e.arg = false then finishSub e Stat.badFormat noData s
        else s |> openItem e.arg (copyPos s (srcPos s e.arg)) s.tim.now none |> finishSub e Stat.ok noData) s

/-- SUB_QUOTA (R95, R592): enable, quota, KV pool, disable, each as the register write would apply it; a figure past its register's 14
bits acts as 16,383, which never binds either (DESIGN CHOICE, log entry 72). -/
def execSubQuota (m : MemRun) (s : State) : Result :=
  run (serve (fun e => e.op == 5) fun e s =>
    if !entryClean e then finishSub e Stat.badFormat noData s
    else if e.len ≠ 16 then finishSub e Stat.length noData s
    else withPayload m e true (fun bs s =>
      let q := leAt bs 0 4
      let kv := leAt bs 4 4
      let fl := leAt bs 8 1
      let p := e.arg
      if (bitOf fl 2 && bitOf fl 3) || decide (15 < fl) || !(leAt bs 9 7 == 0) then
        finishSub e Stat.badFormat noData s
      else
        let cur := fun (s : State) => rd s (Reg.sqQuota.off p 0)
        let s := if bitOf fl 2 then writeQuota p (setBits (cur s) 31 1 1) s else s
        let s := if bitOf fl 0 then writeQuota p (setBits (cur s) 0 14 (min q 16383)) s else s
        let s := if bitOf fl 1 then writeKvCfg p (setBits (rd s (Reg.sqKvCfg.off p 0)) 16 14 (min kv 16383)) s else s
        let s := if bitOf fl 3 then writeQuota p (setBits (cur s) 31 1 0) s else s
        finishSub e Stat.ok noData s) s) s

/-- The 4-byte entries of a priority policy. -/
def prioEntries (bs : List Byte) : List (Nat × Nat × Nat) :=
  (List.range (bs.length / 4)).map fun k => (leAt bs (4 * k) 2, leAt bs (4 * k + 2) 1, leAt bs (4 * k + 3) 1)

/-- Sets a template's priority for every instance of it (R268). -/
def setPrio (h tmpl prio : Nat) (s : State) : State :=
  let s := modProg h (fun p => { p with tmpls := modAt tmpl (fun t => { t with prio := prio }) p.tmpls }) s
  { s with tasks := updAll (fun k => k.id.handle == h && k.id.tmpl == tmpl) (fun k => { k with prio := prio }) s.tasks }

/-- POLICY_PRIORITY (R267, R268): the tables are CP[1]'s (R23). -/
def execPolicyPriority (m : MemRun) (s : State) : Result :=
  run (serve (fun e => isPolicy 1 e && cpUp s 1) fun e s =>
    match argProg s e with
    | none => finishSub e Stat.badHandle noData s
    | some p =>
      if !entryClean e then finishSub e Stat.badFormat noData s
      else if e.len % 4 ≠ 0 then finishSub e Stat.length noData s
      else withPayload m e true (fun bs s =>
        let es := prioEntries bs
        if es.any fun x => decide (p.tmpls.length ≤ x.1) || decide (3 < x.2.1) || x.2.2 != 0 then finishSub e Stat.badFormat noData s
        else finishSub e Stat.ok noData (es.foldl (fun s x => setPrio p.handle x.1 x.2.1 s) s)) s) s

/-- A token of a program's graph of a kind, external (R335). -/
def extToken (s : State) (h i : Nat) (tagged : Bool) : Bool :=
  match tokOf s h i with
  | some k => k.external && k.tagged == tagged
  | none => false

/-- Every granule of an extent belongs to a partition. -/
def inPartition (s : State) (part a n : Nat) : Bool :=
  decide (a + n ≤ 0x20000000) && (n == 0 || ((List.range ((a + n - 1) / 65536 + 1 - a / 65536)).all fun i =>
    (runAt s (a / 65536 + i)).elim false fun r => r.part == part))

/-- The buffers of a binding that carry data: base, bytes per buffer, bytes between line slots. -/
def bindExtents (b : List Byte) : List (Nat × Nat × Nat) :=
  [(leAt b 0 8, leAt b 8 4, leAt b 0x14 4)]
    ++ (if leAt b 0x18 8 = 0 then [] else [(leAt b 0x18 8, leAt b 0x20 4, leAt b 0x24 4)])
    ++ (if leAt b 0x28 8 = 0 then [] else [(leAt b 0x28 8, leAt b 0x30 4, leAt b 0x34 4)])

/-- POLICY_PORT_BINDING (R335): refused beyond the pool 0 contexts that the program holds (R200). -/
def execPolicyPortBinding (m : MemRun) (s : State) : Result :=
  run (serve (isPolicy 2) fun e s =>
    let port := portIndex (par e 0x15 1)
    match argProg s e with
    | none => finishSub e Stat.badHandle noData s
    | some p =>
      if !entryClean e then finishSub e Stat.badFormat noData s
      else if e.len ≠ 64 then finishSub e Stat.length noData s
      else withPayload m e true (fun b s =>
        let nbuf := leAt b 0xC 2
        let lines := leAt b 0xE 2
        if nbuf = 0 then finishSub e Stat.ok noData s
        else if 256 < nbuf ∨ lines < 1 ∨ 4096 < lines ∨ leAt b 8 4 % 64 ≠ 0 ∨ leAt b 0x38 8 ≠ 0 then finishSub e Stat.badFormat noData s
        else if (bindExtents b).any fun x => decide (x.2.1 < 64 + lines * x.2.2) then finishSub e Stat.length noData s
        else if (bindExtents b).any fun x => !inPartition s p.part x.1 (nbuf * x.2.1) then finishSub e Stat.unmapped noData s
        else if !extToken s p.handle (leAt b 0x10 2) false || !extToken s p.handle (leAt b 0x12 2) true then
          finishSub e Stat.badFormat noData s
        else if p.ctx.getD 0 0 ≤ (s.binds.filter fun x => x.handle == p.handle && x.port != port).length then
          finishSub e Stat.shortfall noData s
        else
          let (n, s) := nextStamp s
          finishSub e Stat.ok noData { s with
            binds := (s.binds.filter fun x => x.port != port) ++ [{ port := port, handle := p.handle, payload := b, stripes := 0, ord := n }] })
        s) s

/-- POLICY_REPLAY_STOP (R404). -/
def execPolicyReplayStop (m : MemRun) (s : State) : Result :=
  run (serve (isPolicy 3) fun e s =>
    match argProg s e with
    | none => finishSub e Stat.badHandle noData s
    | some p =>
      if !entryClean e then finishSub e Stat.badFormat noData s
      else if e.len ≠ 32 then finishSub e Stat.length noData s
      else withPayload m e true (fun b s =>
        let t : TaskId := { handle := p.handle, tmpl := leAt b 0 2, inst := leAt b 2 2 }
        let step := leAt b 8 8
        let dump := leAt b 0x10 8
        match taskOf s t with
        | none => finishSub e Stat.badFormat noData s
        | some k =>
          if leAt b 4 4 ≠ 0 ∨ leAt b 0x18 8 ≠ 0 ∨ step < k.regs.step + k.waits.length then finishSub e Stat.badFormat noData s
          else if (regionOf dump ≠ .lpddr ∧ regionOf dump ≠ .host) ∨ mapped s dump 4208064 ≠ Stat.ok then
            finishSub e Stat.unmapped noData s
          else s |> modProg p.handle (fun p => { p with replay := some { task := t, step := step, dump := dump, reached := false } })
                 |> finishSub e Stat.ok noData) s) s

/-- One entry of a trigger-plan payload is well formed (R431). -/
def planOk (b : List Byte) : Bool :=
  decide (leAt b 0 1 ≤ 7) && decide (portIndex (leAt b 1 1) < 16) && decide (leAt b 2 1 ≤ 1) && leAt b 3 1 == 0 && leAt b 0xC 2 != 0
    && leAt b 0xE 2 == 0 && decide (leAt b 0x10 4 ≤ 16777215) && leAt b 0x14 12 == 0

/-- POLICY_TRIGGER_PLANS (R431): the program's plans are replaced; the new ones follow every plan still held. -/
def execPolicyTriggerPlans (m : MemRun) (s : State) : Result :=
  run (serve (isPolicy 4) fun e s =>
    match argProg s e with
    | none => finishSub e Stat.badHandle noData s
    | some p =>
      if !entryClean e then finishSub e Stat.badFormat noData s
      else
        let kept := s.plans.filter fun x => x.handle != p.handle
        if e.len % 32 ≠ 0 ∨ 32 < kept.length + e.len / 32 then finishSub e Stat.length noData s
        else withPayload m e true (fun bs s =>
          let ps := (List.range (e.len / 32)).map fun k => (bs.drop (32 * k)).take 32
          if ps.all planOk then
            finishSub e Stat.ok noData { s with plans := kept ++ ps.map fun b => { handle := p.handle, bytes := b } }
          else finishSub e Stat.badFormat noData s) s) s

/-- The model-key entries of a payload. -/
def keyEntries (bs : List Byte) : List (Nat × Nat × Nat × List Byte) :=
  (List.range (bs.length / 68)).map fun k =>
    (leAt bs (68 * k) 1, leAt bs (68 * k + 1) 1, leAt bs (68 * k + 2) 2, (bs.drop (68 * k + 4)).take 64)

/-- POLICY_MODEL_KEYS (R549). -/
def execPolicyModelKeys (m : MemRun) (s : State) : Result :=
  run (serve (isPolicy 6) fun e s =>
    if rdB s Reg.secPolicy.base 1 || !entryClean e then finishSub e Stat.badFormat noData s
    else if e.len % 68 ≠ 0 ∨ 8 * 68 < e.len then finishSub e Stat.length noData s
    else withPayload m e true (fun bs s =>
      let ks := keyEntries bs
      if ks.any fun k => decide (7 < k.1) || (k.2.1 != 1 && k.2.1 != 2) || k.2.2.1 != 0 then finishSub e Stat.badFormat noData s
      else
        let put := fun (l : List (Nat × Nat × List Byte)) (k : Nat × Nat × Nat × List Byte) =>
          (l.filter fun x => x.1 != k.1) ++ [(k.1, k.2.1, if k.2.1 = 1 then k.2.2.2.take 32 else k.2.2.2)]
        s |> modRst (fun r => { r with modelKeys := ks.foldl put r.modelKeys }) |> finishSub e Stat.ok noData) s) s

end Sys2Proof.Machine
end

