-- ==== Sys2Proof/Machine/Hosting.lean ====
section
/-! DEFINITION. The host link (R465-R480) and the rings that live in host memory (R56-R58, R68): bus mastering, the aperture, host windows,
MSI-X, ring enables and consumer indices. -/

namespace Sys2Proof.Machine

open Sys2Proof

/-! ## Bus mastering -/

/-- BME_CLEAR (R468, R543): a configuration write. -/
def execBmeClear (s : State) : Result :=
  run (fun s => if s.host.bme && cfgAnswers s then s |> modHost (fun h => { h with bme := false }) |> setFlag Reg.pciStatus.base 1 else s) s

/-- BME_SET (R468, R543): a configuration write; pending messages leave, and what waits for the event ring is written. -/
def execBmeSet (s : State) : Result :=
  run (fun s => if s.host.bme || !cfgAnswers s then s else s |> modHost (fun h => { h with bme := true }) |> sendAllPending |> flushEvents) s

/-- A link event of class 0x0E (15): `ref` is 0 for PCI and 1 + p for BLV[p]. -/
def portEvent (code ref : Nat) (s : State) : State := postEvent 0x0E code ref 0 0 [] s

/-- PCIE_LINK_UP (R8, R465): the link comes up at a rate and width that the manual lists; at any other it does not come up. -/
def execPcieLinkUp (speed width : Nat) (flit : Bool) (s : State) : Result :=
  run (fun s =>
    if linkListed speed width flit && wideUp s then
      s |> wr Reg.pciLink.base (speed + width * 16 + 256 * b2n flit) |> modHost (fun h => { h with linkUp := true }) |> portEvent 1 0
    else s) s

/-! ## The aperture -/

/-- A base of PCI_AP that selects the Square, a range of LPDDR-6 or a peer Square (R472, R492). -/
def apertureOk (b : Nat) : Bool := b == 0 || (decide (64 ≤ b) && decide (b ≤ 127)) || b == 256 || b == 288

/-- A write of PCI_AP (R472). -/
def writeAperture (v : Word) (s : State) : State :=
  if apertureOk (bits v.toNat 0 10) then wr Reg.pciAp.base (bits v.toNat 0 10) s else setFlag Reg.pciStatus.base 4 s

/-- APERTURE_BASE_WRITE (R472). -/
def execApertureBaseWrite (w : Writer) (v : Word) (s : State) : Result := run (gate w Reg.pciAp.base v (writeAperture v)) s

/-- An access moved by an offset. -/
def moveAccess (d : Nat) : Access → Access
  | .read a n => .read (a + d) n
  | .write a bs => .write (a + d) bs

/-- Its address and its length. -/
def accessSpan : Access → Nat × Nat
  | .read a n => (a, n)
  | .write a bs => (a, bs.length)

/-- An access that finds no memory, or times out: all ones, or dropped; PCI_STATUS flag 3 (R472, R473). -/
def apertureMiss (acc : Access) (s : State) : AccessResult × State :=
  ({ status := Stat.ok
     data := match acc with | .read _ n => List.replicate n 0xFF | .write _ _ => [] }, setFlag Reg.pciStatus.base 3 s)

/-- An access to memory that holds it whole, in LPDDR-6, in a peer Square, or in the Square while the ROM waits in RECOVERY (R541). -/
def plainAccess (acc : Access) (ecc : List EccHit) (s : State) : AccessResult × State :=
  match acc with
  | .read a n => readMem a n ecc s
  | .write a bs => let (st, s) := writeAll a bs ecc s; ({ status := st, data := [] }, s)

/-- An access through the aperture at a device address (R472, R473, R541). -/
def apertureAt (acc : Access) (ecc : List EccHit) (late : Bool) (s : State) : AccessResult × State :=
  let (a, n) := accessSpan acc
  match regionOf a with
  | .square =>
    if !coreUp s || !inSquare acc then apertureMiss acc s
    else if inRecovery s then plainAccess acc ecc s else hostSquare acc ecc s
  | .lpddr => if coreUp s && memAwake s && decide (a + n ≤ 0x2000000000) then plainAccess acc ecc s else apertureMiss acc s
  | .peer p =>
    if late || !peerMapped s p a n then apertureMiss acc s
    else match acc with
      | .read a n => devRead a n ecc s
      | .write a bs => let (st, s) := devWrite a bs ecc s; ({ status := st, data := [] }, s)
  | _ => apertureMiss acc s

/-- APERTURE_ACCESS (R471-R473): an access of the host to BAR2; the address of `acc` is an offset in BAR2. `late`: an access to a peer
reached its 200 µs limit. -/
def execApertureAccess (acc : Access) (ecc : List EccHit) (late : Bool) (s : State) : Result :=
  run (fun s =>
    if decide (0x40000000 < (accessSpan acc).1 + (accessSpan acc).2) || !wideUp s then s
    else
    let base := if inRecovery s then 0 else rdF s Reg.pciAp.base 0 10
    answer (apertureAt (moveAccess (base * 0x40000000) acc) ecc late (bump Reg.pciSnapCnt.base 2 s))) s

/-! ## Windows -/

/-- The bytes that ring `r` occupies. -/
def ringBytes (s : State) (r : Nat) : Nat := ringSize s r * 64

/-- Two runs of bytes meet. -/
def overlaps (a n b m : Nat) : Bool := decide (a < b + m) && decide (b < a + n)

/-- An enabled ring or the write-back block lies in a window (R478). -/
def windowUsed (s : State) (n : Nat) : Bool :=
  let a := 0x8000000000 + n * 0x100000000
  let inWin := fun (b m : Nat) => overlaps a (winBytes s n) b m
  inWin (wbAddr s) 64 || (List.range 3).any fun r => ringEn s r && inWin (ringBase s r) (ringBytes s r)

/-- The base is aligned and the size in range (R476). -/
def windowOk (s : State) (n : Nat) : Bool :=
  let pages := rdF s (Reg.pciWinSize.off n 0) 0 21
  rdF s (Reg.pciWinLo.off n 0) 0 12 == 0 && decide (1 ≤ pages) && decide (pages ≤ 1048576)

/-- A write of PCI_WIN_CTL[n] (R476, R478). -/
def writeWinCtl (n : Nat) (v : Word) (s : State) : State :=
  let off := Reg.pciWinCtl.off n 0
  let on := v.toNat.testBit 0
  if on && !winEn s n && !windowOk s n then s |> wr off (v.toNat % 4 - 1) |> setFlag Reg.pciStatus.base 5
  else if !on && winEn s n && windowUsed s n then setFlag Reg.pciStatus.base 5 s
  else s |> wr off (v.toNat % 4) |> flushEvents

/-- HOST_WINDOW_ENABLE (R476): a write of PCI_WIN_CTL[n] with the enable. -/
def execHostWindowEnable (w : Writer) (n : Nat) (v : Word) (s : State) : Result :=
  run (fun s => if n < 16 ∧ v.getLsbD 0 = true then gate w (Reg.pciWinCtl.off n 0) v (writeWinCtl n v) s else s) s

/-- HOST_WINDOW_DISABLE (R478): a write of PCI_WIN_CTL[n] without it. -/
def execHostWindowDisable (w : Writer) (n : Nat) (v : Word) (s : State) : Result :=
  run (fun s => if n < 16 ∧ v.getLsbD 0 = false then gate w (Reg.pciWinCtl.off n 0) v (writeWinCtl n v) s else s) s

/-- A write of the base or size of a window: ignored while it is enabled (R478). -/
def writeWinWord (n off : Nat) (v : Word) (s : State) : State :=
  if winEn s n then s else wr off (if off % 16 = 8 then bits v.toNat 0 21 else v.toNat) s

/-! ## MSI-X -/

/-- A write of a word of the MSI-X table (R479, R480). -/
def writeMsix (off : Nat) (v : Word) (s : State) : State :=
  let i := Reg.msixTable.index off
  if i % 4 = 3 then s |> wr off (v.toNat % 2) |> sendPending (i / 4) else wr off v.toNat s

/-- MSIX_UNMASK (R480). -/
def execMsixUnmask (vec : Nat) (s : State) : Result :=
  runWide (fun s => if vec < 64 then writeMsix (Reg.msixTable.off (4 * vec + 3) 0) 0 s else s) s

/-! ## Rings -/

/-- A ring keeps the placement rules of R56, and the write-back block lies in an enabled window. -/
def ringOk (s : State) (r : Nat) : Bool :=
  let k := rdF s (Reg.itmSubSize.base + 16 * r) 0 5
  decide (6 ≤ k) && decide (k ≤ 16) && winCovers s (ringBase s r) (ringBytes s r) && winCovers s (wbAddr s) 64

/-- The submissions that a core reset ended complete with ABORTED, after the reset-loss event (R531). -/
def postAborted (s : State) : State :=
  if s.led.heldLoss.isSome || !ringEn s 2 then s
  else
    let es := s.led.aborted
    es.foldl (fun s e => completeSub e.op e.tag Stat.aborted [] s) (modLed (fun l => { l with aborted := [] }) s)

/-- A write of ITM_CTL (R56, R68, R69): an enable that breaks R56 stays 0, with ITM_STATUS flag 5. -/
def writeItmCtl (v : Word) (s : State) : State :=
  let old := rd s Reg.itmCtl.base
  let rises := (List.range 3).filter fun r => bitOf v.toNat r && !bitOf old r
  let bad := rises.filter fun r => !ringOk s r
  let v' := bad.foldl (fun x r => setBits x r 1 0) (v.toNat &&& 0x3F3F07)
  let s := s |> wr Reg.itmCtl.base v' |> setFlags Reg.itmStatus.base (bad.map fun _ => 5)
  if rises.contains 2 && !bad.contains 2 then s |> flushEvents |> postAborted else s

/-- A write that sets one ring enable of ITM_CTL and leaves the rest as it stands. -/
def enableRing (w : Writer) (r : Nat) (s : State) : State :=
  let v := BitVec.ofNat 32 (setBits (rd s Reg.itmCtl.base) r 1 1)
  gate w Reg.itmCtl.base v (writeItmCtl v) s

/-- SUB_RING_ENABLE (R56). -/
def execSubRingEnable (w : Writer) (s : State) : Result := run (enableRing w 0) s

/-- RES_RING_ENABLE (R56). -/
def execResRingEnable (w : Writer) (s : State) : Result := run (enableRing w 1) s

/-- EVT_RING_ENABLE (R56, R68, R69, R531). -/
def execEvtRingEnable (w : Writer) (s : State) : Result := run (enableRing w 2) s

/-- A write of a consumer index of ring `r` (R57, R68). -/
def writeCidx (r : Nat) (v : Word) (s : State) : State :=
  let used := (rd s (ringIdx r) + 2 ^ 32 - v.toNat) % 2 ^ 32
  if ringSize s r < used then setFlag Reg.itmStatus.base 4 s
  else s |> wr (ringCidx r) v.toNat |> (fun s => if r = 2 then postAborted (flushEvents s) else s)

/-- RES_CIDX_WRITE (R57). -/
def execResCidxWrite (w : Writer) (v : Word) (s : State) : Result := run (gate w Reg.itmResCidx.base v (writeCidx 1 v)) s

/-- EVT_CIDX_WRITE (R57, R68). -/
def execEvtCidxWrite (w : Writer) (v : Word) (s : State) : Result := run (gate w Reg.itmEvtCidx.base v (writeCidx 2 v)) s

/-! ## Item sources -/

/-- A write of ITM_SRC_CTL[n] (R591): ignored whole where it would leave the source enabled with a reserved field. -/
def writeSource (n : Nat) (v : Word) (s : State) : State :=
  let c := v.toNat &&& 0xFF1FFFFF
  if bitOf c 0 && (decide (5 ≤ bits c 8 3) || bits c 11 2 == 3 || bits c 13 2 == 3) then setFlag Reg.itmStatus.base 9 s
  else
    let rises := bitOf c 0 && !srcEn s n
    let s := wr (Reg.itmSrcCtl.off n 0) c s
    if rises then modPwr (fun p => { p with sourceCommits := modAt n (fun _ => 0) p.sourceCommits }) s else s

/-- ITEM_SOURCE_WRITE (R591). -/
def execItemSourceWrite (w : Writer) (n : Nat) (v : Word) (s : State) : Result :=
  run (fun s => if n < 8 then gate w (Reg.itmSrcCtl.off n 0) v (writeSource n v) s else s) s

end Sys2Proof.Machine
end

