-- ==== Sys2Proof/Machine/Peers.lean ====
section
/-! DEFINITION. The Boulevard ports (R481-R495): training and identity, flits with replay and retrain, electrical idle and sleep, test
patterns, and what a peer's accesses and token signals do here. -/

namespace Sys2Proof.Machine

open Sys2Proof

/-- BLV_LINK[p].state: 0 DOWN, 1 TRAIN, 2 DESKEW, 3 UP. -/
def blvState (s : State) (p : Nat) : Nat := rdF s (Reg.blvLink.off p 0) 0 2

/-- BLV_CTL[p].en. -/
def blvEn (s : State) (p : Nat) : Bool := rdB s (Reg.blvCtl.off p 0) 0

/-- BLV_CTL[p].mode. -/
def blvMode (s : State) (p : Nat) : Nat := rdF s (Reg.blvCtl.off p 0) 1 2

/-- A pattern of R491 is sent. -/
def blvTest (s : State) (p : Nat) : Bool := blvMode s p == 1 || blvMode s p == 2

/-- The port exists, and no wider reset or isolation holds it (R495, R517). -/
def blvLive (s : State) (p : Nat) : Bool := decide (p < 2) && (coreUp s || s.rst.level == 0) && unitUp s (.blv p)

/-- Sets the state of a port; idle ends with it. -/
def setBlvState (p st : Nat) (s : State) : State :=
  s |> wrF (Reg.blvLink.off p 0) 0 2 st |> wrF (Reg.blvLink.off p 0) 3 1 0 |> modBlv p (fun b => { b with rxIdle := false })

/-- A port leaves UP or fails its training (R483). -/
def blvDown (p st : Nat) (s : State) : State :=
  s |> setBlvState p st |> setFlag (Reg.blvStatus.off p 0) 1 |> portEvent 2 (1 + p)

/-- Training begins afresh (R483). -/
def blvTrain (p : Nat) (s : State) : State := s |> modBlv p (fun b => { Blv.reset with locks := b.locks }) |> setBlvState p 1

/-- A write of BLV_CTL[p] (R483, R491): the checkers of a test that begins have not locked. -/
def writeBlvCtl (p : Nat) (v : Word) (s : State) : State :=
  let was := blvEn s p && !blvTest s p
  let s := if bits v.toNat 1 2 = blvMode s p then s else modBlv p (fun b => { b with locks := Blv.reset.locks }) s
  let s := wr (Reg.blvCtl.off p 0) (v.toNat % 16) s
  let now := blvEn s p && !blvTest s p
  if was && !now then (if blvState s p = 3 then blvDown p 0 s else setBlvState p 0 s)
  else if !was && now then blvTrain p s
  else s

/-- BLV_ENABLE (R483): a write that sets BLV_CTL[p].en. -/
def execBlvEnable (w : Writer) (p : Nat) (s : State) : Result :=
  run (fun s =>
    if 2 ≤ p then s
    else
      let v := BitVec.ofNat 32 (setBits (rd s (Reg.blvCtl.off p 0)) 0 1 1)
      gate w (Reg.blvCtl.off p 0) v (writeBlvCtl p v) s) s

/-- The peer's part code has come, and with it its credits (R484, R485). -/
def blvMeets (p part : Nat) (credits : List Nat) (s : State) : State :=
  let s := wrF (Reg.blvLink.off p 0) 16 16 part s
  if part = 0x1612 ∨ part = 0x0804 then
    s |> wrF (Reg.blvLink.off p 0) 2 1 (b2n (part == 0x0804)) |> modBlv p (fun b => { b with credits := credits }) |> setBlvState p 3
      |> setFlag (Reg.blvStatus.off p 0) 0 |> portEvent 1 (1 + p)
  else s |> setFlag (Reg.blvStatus.off p 0) 6 |> blvDown p 0

/-- BLV_TRAINED (R482-R485): FEC has locked on every lane and deskew begins (no part code yet), or training ends with the peer's part code,
the skew found between lanes and the peer's credits. -/
def execBlvTrained (p : Nat) (part : Option Nat) (skew : Nat) (credits : List Nat) (s : State) : Result :=
  run (fun s =>
    if !blvLive s p || !(blvState s p == 1 || blvState s p == 2) then s
    else if 128 < skew then blvDown p 0 s
    else match part with
      | none => setBlvState p 2 s
      | some c => blvMeets p c credits s) s

/-- BLV_TRAIN_TIMEOUT (R483). -/
def execBlvTrainTimeout (p : Nat) (s : State) : Result :=
  run (fun s => if blvLive s p && (blvState s p == 1 || blvState s p == 2) then blvDown p 0 s else s) s

/-- BLV_TRAINING_RETRY (R483). -/
def execBlvTrainingRetry (p : Nat) (s : State) : Result :=
  run (fun s => if blvLive s p && blvState s p == 0 && blvEn s p && !blvTest s p then blvTrain p s else s) s

/-! ## Flits -/

/-- A port retrains, keeps its retry buffer and then replays (R487); `failed`: three retrains have failed. -/
def retrain (p : Nat) (failed : Bool) (s : State) : State :=
  let s := s |> modBlv p (fun b => { b with fails := 0 }) |> setFlag (Reg.blvStatus.off p 0) 2 |> portEvent 3 (1 + p)
  if failed then s |> blvDown p 0 |> rasLast 9 (20 + p) 0 else replayFlits p s

/-- Credits after a return of some for each channel. -/
def addCredits (a b : List Nat) : List Nat := (List.range 3).map fun i => a.getD i 0 + b.getD i 0

/-- A good flit that is the next in order (R485, R486): it is owed an acknowledge and a credit, and brings those of the peer; held flits may
leave, and a replay that it asks for follows. -/
def takeFlit (p : Nat) (f : Flit) (s : State) : State :=
  s |> modBlv p (fun b => { b with expect := (b.expect + 1) % 4096, retry := b.retry.drop f.ack, credits := addCredits b.credits f.credits
                                   owed := b.owed + 1, fails := 0 })
    |> count (Reg.blvSnapCnt.off p 1) 1
    |> (fun s => if f.replay then replayFlits p s else s)
    |> (fun s => if (blvOf s p).held.isEmpty then s else s |> burst p |> releaseHeld p)

/-- BLV_FLIT_RECEIVE (R485-R487): a flit is delivered, discarded because one before it failed, or bad and replayed. -/
def execBlvFlitReceive (p : Nat) (f : Flit) (retrainFailed : Bool) (s : State) : Result :=
  run (fun s =>
    if !blvLive s p || blvState s p != 3 then s
    else
      let cnt := fun i => Reg.blvSnapCnt.off p i
      let s := count (cnt 3) f.corrected s
      if f.crcOk && f.wordOk then
        if f.seqNo % 4096 ≠ (blvOf s p).expect then s else takeFlit p f s
      else
        let s := if f.wordOk then s else count (cnt 5) 1 s
        let n := (blvOf s p).fails + 1
        let s := s |> modBlv p (fun b => { b with fails := n }) |> count (cnt 2) 1 |> setFlag (Reg.blvStatus.off p 0) 3
                   |> burst p |> emit (.linkSignal p 2)
        if 8 < n then retrain p retrainFailed s else s) s

/-- What a port owes goes back in a clock in which nothing is commanded, where no flit has carried it before (DESIGN CHOICE, log entry
63). -/
def sendOwed (s : State) (p : Nat) : State :=
  if blvLive s p && blvState s p == 3 && (blvOf s p).owed != 0 then s |> burst p |> modBlv p (fun b => { b with owed := 0 }) else s

/-! ## Idle -/

/-- The port may go idle (R488, R490): nothing waits to be sent, and no acknowledge or credit is owed. -/
def idleOk (s : State) (p : Nat) : Bool :=
  blvLive s p && blvState s p == 3 && rdB s (Reg.blvCtl.off p 0) 3 && !blvIdle s p && (blvOf s p).held.isEmpty && (blvOf s p).owed == 0

/-- BLV_IDLE_ENTRY (R488): the idle request is sent and acknowledged, or cancelled by a flit queued on either side before that. -/
def execBlvIdleEntry (p : Nat) (cancelled : Bool) (s : State) : Result :=
  run (fun s =>
    if idleOk s p && !blvCompat s p then
      let s := emit (.linkSignal p 0) s
      if cancelled then s else s |> wrF (Reg.blvLink.off p 0) 3 1 1 |> modBlv p (fun b => { b with rxIdle := true })
    else s) s

/-- BLV_COMPAT_SLEEP (R490). -/
def execBlvCompatSleep (p : Nat) (s : State) : Result :=
  run (fun s => if idleOk s p && blvCompat s p then wrF (Reg.blvLink.off p 0) 3 1 1 s else s) s

/-- BLV_IDLE_EXIT (R489, R490). -/
def execBlvIdleExit (p : Nat) (s : State) : Result :=
  run (fun s => if blvLive s p && blvState s p == 3 then burst p s else s) s

/-- PEER_TRAINING_BURST (R489, R490). -/
def execPeerTrainingBurst (p : Nat) (s : State) : Result :=
  run (fun s => if blvLive s p && blvState s p == 3 then blvWake p false s else s) s

/-! ## Test patterns -/

/-- A lane's checker has locked and counted bit errors (R491). -/
def addErrors (p l n : Nat) (s : State) : State :=
  let off := Reg.blvPrbs.off p l
  s |> wr off (min (rd s off + n) (2 ^ 32 - 1)) |> modBlv p (fun b => { b with locks := modAt l (fun _ => true) b.locks })

/-- BLV_PRBS_MODE (R491): a write of BLV_CTL[p].mode; `errors` are the bit errors of each lane whose checker has locked. -/
def execBlvPrbsMode (w : Writer) (p mode : Nat) (errors : List (Option Nat)) (s : State) : Result :=
  run (fun s =>
    if 2 ≤ p then s
    else
      let v := BitVec.ofNat 32 (setBits (rd s (Reg.blvCtl.off p 0)) 1 2 mode)
      let s := gate w (Reg.blvCtl.off p 0) v (writeBlvCtl p v) s
      if !blvTest s p || !blvLive s p then s
      else
        let s := s |> emit (.linkSignal p 3)
        let s := ((errors.take 4).zipIdx).foldl (fun s x => x.1.elim s fun n => addErrors p x.2 n s) s
        if (errors.take 4).any (fun n => n.getD 0 != 0) then setFlag (Reg.blvStatus.off p 0) 5 s else s) s

/-! ## A peer's accesses -/

/-- An answer leaves through a port: its flits wait for the end of idle (R489). -/
def sendReply (p status : Nat) (data : List Byte) (s : State) : State :=
  s |> sendFlits p 1 data.length |> emit (.peerReply p status data)

/-- PEER_SQUARE_ACCESS (R493): an access that arrives at the peer stop. -/
def execPeerSquareAccess (p : Nat) (acc : Access) (ecc : List EccHit) (s : State) : Result :=
  run (fun s =>
    if !coreUp s || !blvLive s p || blvState s p != 3 then s
    else
      let (r, s) := squareAccess acc ecc s
      sendReply p r.status r.data s) s

/-- The load handle and the token index that an offset in the token window names (R494). -/
def windowToken (addr : Nat) : Nat × Nat := (addr / 0x8000 % 256, addr % 0x8000 / 8)

/-- The token that a peer may reach: of a loaded program. -/
def peerToken (s : State) (addr : Nat) : Option Token :=
  match loadedProg s (windowToken addr).1 with
  | some p => if p.unloading then none else tokOf s (windowToken addr).1 (windowToken addr).2
  | none => none

/-- A peer's signal is discarded and counted (R494). -/
def dropSignal (p : Nat) (s : State) : State := s |> setFlag (Reg.blvStatus.off p 0) 4 |> count (Reg.blvSnapCnt.off p 4) 1

/-- PEER_TOKEN_SIGNAL (R194, R195, R494). -/
def execPeerTokenSignal (p addr : Nat) (v : DWord) (s : State) : Result :=
  run (fun s =>
    if !coreUp s || !blvLive s p || blvState s p != 3 then s
    else
      let tagged := v.getLsbD 48
      match peerToken s addr with
      | none => dropSignal p s
      | some k =>
        if !k.external || k.tagged != tagged then dropSignal p s
        else
          let item := if tagged then some (BitVec.ofNat 32 (bits v.toNat 16 32)) else none
          match signal k.handle k.idx (bits v.toNat 0 16) item (some (.neighbour p)) s with
          | (.done st, s) => if st = Stat.ok then s else dropSignal p s
          | (.waits, s) => s) s

/-- PEER_TOKEN_READ (R494): four bytes; what an address of no token reads as is free. -/
def execPeerTokenRead (p addr : Nat) (s : State) : Result :=
  run (fun s =>
    if !coreUp s || !blvLive s p || blvState s p != 3 then s
    else match peerToken s addr with
      | some k => sendReply p Stat.ok (leBytes 4 (if k.tagged then 0 else k.count)) s
      | none => let (bs, s) := takeFree 4 s; sendReply p Stat.ok bs s) s

end Sys2Proof.Machine
end

