-- ==== Sys2Proof/Machine/Resets.lean ====
section
/-! DEFINITION. Resets (R521-R538): their sources and reach, what each level clears, the stretch and the trim load, and the release. -/

namespace Sys2Proof.Machine

open Sys2Proof

/-! ## What each level clears -/

/-- The block of an offset (R552). -/
def blockNo (off : Nat) : Nat := off / 65536

/-- The ITM registers that a core reset keeps (R69, R530). -/
def itmKept (off : Nat) : Bool :=
  [Reg.itmNextId.base, Reg.itmNextSeq.base, Reg.itmOldestId.base, Reg.itmOvfBase.base, Reg.itmOvfSize.base].contains off

/-- The SQ registers that a core reset keeps (R530): quotas, KV pool targets, scrub and retirement settings, bank map, error address. -/
def sqKept (off : Nat) : Bool :=
  [Reg.sqCtl.base, Reg.sqScrub.base, Reg.sqRetireCfg.base, Reg.sqErrAddr.base].contains off || Reg.sqQuota.holds off
    || Reg.sqKvCfg.holds off || Reg.sqBankmap.holds off

/-- The configuration fields of the engine blocks, which a core reset keeps (R383). -/
def engKept (off : Nat) : Bool := [Reg.bcdCfg.base, Reg.crcCfg.base].contains off

/-- The counters that hold the largest value since power-on: the longest arbitration wait (R110), the longest READY wait (R289) and the
largest member count (R290). -/
def sinceOn (off : Nat) : Bool :=
  off == Reg.sqSnapCnt.base + 24 || off == Reg.rbtSnapCnt.base + 16 || off == Reg.sqmSnapCnt.base + 20

/-- An offset that a core reset clears; the ITM counters never clear by it (R70). -/
def coreClears (off : Nat) : Bool :=
  let b := blockNo off
  (b == 6 && !itmKept off && !Reg.itmSnapCnt.holds off) || (b == 7 && !sqKept off && !sinceOn off) || (decide (9 ≤ b) && decide (b ≤ 12) && !sinceOn off) || (decide (16 ≤ b) && decide (b ≤ 24) && !engKept off)

/-- An offset that a system (false) or power-on reset (true) clears: the field die has its reset frame, RST_CAUSE and SQ_ERR_ADDR are kept
by a system reset (R530). -/
def systemClears (powerOn : Bool) (off : Nat) : Bool :=
  !fieldOff off && (powerOn || !(off == Reg.rstCause.base || off == Reg.sqErrAddr.base || sinceOn off))

/-- A core stops; a FENCED one stays FENCED (R113). -/
def TensorCore.stopped (c : TensorCore) : TensorCore := TensorCore.idle c.st c.rank

/-- Every unit waits for its wake chain (R499). -/
def allAsleep : List (Nat × Nat) :=
  (List.range 17).map (fun n => (0, n)) ++ (List.range 14).map (fun k => (1, k)) ++ (List.range 4).map fun g => (2, g)

/-- The submissions that are consumed and not completed, a load or unload under way among them (R531). -/
def openSubs (s : State) : List Submission := s.led.subQ

/-- The reset-loss event that a core reset leaves to be posted (R69, R590): from ITM_OLDEST_ID through ITM_NEXT_ID - 1. -/
def lossRange (s : State) : ResetLoss :=
  let first := rdW s Reg.itmOldestId.base
  let next := rdW s Reg.itmNextId.base
  { first := first, last := next - 1, count := (next - first).toNat }

/-- A port at a core reset (R315): no frame and nothing stored. -/
def Port.coreReset (p : Port) : Port := 
  { p with frames := [], gated := [], requests := [], lastItems := [], skips := [], line := none }

/-- A pipeline at a core reset (R344): its sets stay. -/
def Pipe.coreReset (p : Pipe) : Pipe :=
  { p with serving := none, ctxs := p.ctxs.map fun c => { c with loadingSet := false, refOk := false, refWidth := 0, refLines := 0 } }

/-- Programs, tasks, tokens, engines and allocation, which every reset clears (R530). -/
def clearCompute (s : State) : State :=
  { s with
    progs := [], lastHandle := 0, tokens := [], tasks := [], seqs := []
    clients := List.replicate 4 { handle := 0, part := 0, stepBy := [], armed := false }
    cores := s.cores.map TensorCore.stopped, eng := Engines.reset, binds := [], plans := []
    sq := { s.sq with runs := [], laneFails := [] }
    pwr := { s.pwr with commits := [], sourceCommits := List.replicate 8 0, isolated := [], asleep := allAsleep
                        busyAt := List.replicate 17 0, skip := 0 } }

/-- A core reset closes the frames that are open, and their ports count them (R315, R317). -/
def countClosed (s : State) : State :=
  (List.range 16).foldl (fun s p => if (openFrameOf s p).isSome then portCount p 0 1 s else s) s

/-- What a core reset clears (R69, R315, R344, R530, R531). -/
def coreResetUnits (s : State) : State :=
  let led : Ledger :=
    { s.led with items := [], committing := [], subQ := [], srcItem := [], ended := [], heldLoss := some (lossRange s), ringFailed := false
                 lossAfter := if s.led.heldLoss.isSome then s.led.lossAfter else s.led.heldReleases.length
                 aborted := s.led.aborted ++ openSubs s }
  let s := s |> countClosed |> clearCompute |> clearRegs coreClears
  { s with led := led, ports := s.ports.map Port.coreReset, pipes := s.pipes.map Pipe.coreReset
           rst := { s.rst with modelKeys := [], before := bootState s } } |> wrF Reg.rstBoot.base 0 4 0

/-- What a system or power-on reset clears (R463, R495, R530). -/
def systemResetUnits (powerOn : Bool) (s : State) : State :=
  let s := s |> clearCompute |> clearRegs (systemClears powerOn)
  { s with
    tv := s.tv.filter fun t => fieldOff t.off
    snapPending := false, latches := []
    led := { Ledger.reset with heldReleases := s.led.heldReleases }
    sq := Square.reset, mem := []
    ports := s.ports.map fun p => { Port.reset with pclk := p.pclk }
    pipes := List.replicate 14 Pipe.reset
    copies := List.replicate 4 { pos := 0, vhat := 0, reverse := false, frac := 0 }, refreshLost := false, toKerb := []
    tim := TimeNet.reset, blv := List.replicate 2 Blv.reset, host := HostLink.reset
    pwr := { Power.reset with vbakOk := s.pwr.vbakOk, asleep := allAsleep }
    rst := { s.rst with modelKeys := [], measurement := [], aliasPk := [], devidPk := [], aliasSeed := [], aliasCert := [] } }

/-- The backup domain is checked at each power-on (R537): after a VBAK loss it is cleared. -/
def checkBackup (s : State) : State :=
  if s.pwr.vbakOk then s
  else
    s |> modRst (fun r => { r with hist := [], bakSys := 0, bakCore := 0, bakValid := false, fails := [0, 0] })
      |> modLed (fun l => { l with heldReleases := [] }) |> modPwr (fun p => { p with vbakOk := true })
      |> setFlag Reg.rstStatus.base 2

/-- RESET_OUT_N is driven to a level (R523, R526). -/
def driveResetOut (high : Bool) (s : State) : State :=
  if s.rst.outHigh = high then s else s |> modRst (fun r => { r with outHigh := high }) |> emit (.resetOut high)

/-- A reset of a reach takes hold (R523). -/
def enterReset (level : Nat) (s : State) : State :=
  let s := if level ≠ 0 ∨ rdB s Reg.rstCfg.base 0 = true then driveResetOut false s else s
  if level = 0 then coreResetUnits s
  else if level = 1 then systemResetUnits false s
  else systemResetUnits true s

/-! ## Sources -/

/-- A source of a reach asserts (R521, R524, R525, R534). -/
def assertReset (src reach : Nat) (s : State) : State :=
  let bit := 2 ^ src
  let r := s.rst
  if coreUp s then
    s |> modRst (fun r => { r with phase := .held, level := reach, asserted := bit, sources := bit, widened := false
                                   trimRestart := false, trimBusy := false, since := s.tim.now.sec % 2 ^ 32 })
      |> enterReset reach
  else
    let s := modRst (fun r => { r with phase := .held, asserted := r.asserted ||| bit, sources := r.sources ||| bit
                                       trimRestart := r.trimRestart || r.trimBusy, trimBusy := false }) s
    if reach ≤ r.level then s
    else s |> modRst (fun r => { r with level := reach, widened := true }) |> enterReset reach

/-- POWER_GOOD_FALL (R521). -/
def execPowerGoodFall (s : State) : Result := run (assertReset 0 2) s

/-- RESET_IN_ASSERT (R521): RESET_IN_N has been low for 1 µs. -/
def execResetInAssert (s : State) : Result := run (assertReset 1 1) s

/-- PERST_ASSERT (R466, R521). -/
def execPerstAssert (s : State) : Result := run (assertReset 2 1) s

/-- The function's own reset (R466): Bus Master Enable and the MSI-X table return to their reset values. -/
def functionReset (s : State) : State :=
  let s := if s.host.bme then setFlag Reg.pciStatus.base 1 s else s
  s |> modHost (fun h => { h with bme := false, vecPend := 0 }) |> clearRegs Reg.msixTable.holds

/-- A source of core reach asserts together with what else it does to the host link; in a wider reset it adds its bit and changes nothing
else (R524). -/
def linkReset (src : Nat) (f : State → State) (s : State) : State := assertReset src 0 (if wideUp s then f s else s)

/-- HOT_RESET (R466, R521). -/
def execHotReset (s : State) : Result := run (linkReset 3 functionReset) s

/-- FUNCTION_LEVEL_RESET (R466, R521). -/
def execFunctionLevelReset (s : State) : Result := run (linkReset 4 functionReset) s

/-- The link goes down: its registers show it, and its event is posted. -/
def linkFalls (s : State) : State :=
  s |> functionReset |> modHost (fun h => { h with linkUp := false }) |> wr Reg.pciLink.base 0 |> portEvent 2 0

/-- LINK_DL_DOWN (R466, R521): the link is down. -/
def execLinkDlDown (s : State) : Result := run (linkReset 5 linkFalls) s

/-- D3HOT_ENTRY (R467, R521, R543): a configuration write, which completes in READY and RECOVERY only. -/
def execD3hotEntry (s : State) : Result :=
  run (fun s =>
    if s.host.d3 || !cfgAnswers s then s
    else linkReset 6 (fun s => s |> modHost (fun h => { h with d3 := true }) |> setFlag Reg.pciStatus.base 2) s) s

/-- D3HOT_EXIT (R466, R521, R543). -/
def execD3hotExit (s : State) : Result :=
  run (fun s =>
    if s.host.d3 && cfgAnswers s then linkReset 6 (fun s => s |> modHost (fun h => { h with d3 := false }) |> functionReset) s else s) s

/-- The watchdog runs (R528, R529); it is suspended in RECOVERY. -/
def wdogOn (s : State) : Bool := coreUp s && (rdB s Reg.rstWdog.base 16 || bitOf (tvRead s Reg.rstFuse.base) 0) && !inRecovery s

/-- A flash slot: 0 A, 1 B. -/
def flashOf (s : State) (slot : Nat) : List Byte := if slot = 0 then s.rst.flashA else s.rst.flashB

/-- The slots in the order in which the ROM tries them (R540, R541): the header with the higher svn first, slot A winning a tie; a slot
with three expiries in a row is skipped. -/
def slotOrder (s : State) : List Nat :=
  let l := if leAt (flashOf s 0) 6 1 < leAt (flashOf s 1) 6 1 then [1, 0] else [0, 1]
  l.filter fun k => decide (s.rst.fails.getD k 0 < 3)

/-- WATCHDOG_EXPIRY (R528, R541): a processor has missed its window, or CP[0] the boot window; an expiry before READY counts against the
slot that was to boot. -/
def execWatchdogExpiry (cp : Nat) (s : State) : Result :=
  run (fun s =>
    if !wdogOn s || decide (3 < cp) || (bootState s != 7 && cp != 0) then s
    else
      let slot := if bootState s = 9 then rdF s Reg.rstBoot.base 4 2 else (slotOrder s).headD 2
      let s := if bootState s = 7 then s else modRst (fun r => { r with fails := modAt slot (· + 1) r.fails }) s
      s |> modRst (fun r => { r with wdogExpired := true }) |> assertReset 7 1) s

/-- RST_KICK (R528, R559, R560): the write restarts a window, whose length is time and no part of State. -/
def execRstKick (w : Writer) (v : Word) (s : State) : Result := run (gate w Reg.rstKick.base v id) s

/-- A write of RST_REQ (R527). -/
def writeRstReq (v : Word) (s : State) : State :=
  let l := bits v.toNat 0 2
  if l = 3 then setFlag Reg.rstStatus.base 3 s else assertReset 8 l s

/-- A write of RST_REQ by either side (R527, R559, R560). -/
def requestReset (w : Writer) (v : Word) (s : State) : State :=
  let s := if w = .host ∧ silent s Reg.rstReq.base true = false then setFlag Reg.rstStatus.base 3 s else s
  gate w Reg.rstReq.base v (writeRstReq v) s

/-- FW_CORE_RESET_REQUEST (R527). -/
def execFwCoreResetRequest (w : Writer) (v : Word) (s : State) : Result := run (requestReset w v) s

/-- FW_SYSTEM_RESET_REQUEST (R527). -/
def execFwSystemResetRequest (w : Writer) (v : Word) (s : State) : Result := run (fun s => requestReset w v s) s

/-- FW_POWER_ON_RESET_REQUEST (R527). -/
def execFwPowerOnResetRequest (w : Writer) (v : Word) (s : State) : Result := run (fun s => requestReset w v s) s

/-- THERMAL_TRIP (R506, R521). -/
def execThermalTrip (m : Meter) (s : State) : Result :=
  run (fun s => let s := noteMeter m s; if 115 ≤ m.eboux then assertReset 9 1 s else s) s

/-- CRITICAL_STATE_ERROR (R522): core class, or system class. -/
def execCriticalStateError (system : Bool) (s : State) : Result :=
  run (fun s => if system then assertReset 11 1 s else assertReset 10 0 s) s

/-- AVENUE_LANE_OUT (R103, R521): a link whose spare lane is in use fails again. -/
def execAvenueLaneOut (link : Nat) (s : State) : Result :=
  run (fun s =>
    if linkExists link && s.sq.laneSpare.contains link && laneFails s link == 3 then
      s |> setFlag Reg.rasStatus.base 5 |> rasLast 11 link 0 |> assertReset 12 1
    else s) s

/-! ## Release -/

/-- The last source has released (R525, R526, R534): the stretch begins, and the trim load of a wider reset. -/
def beginStretch (s : State) : State :=
  let wide := s.rst.level != 0
  let s := modRst (fun r => { r with phase := .stretching, trimBusy := wide }) s
  if wide then
    s |> wr Reg.rstTrim.base (min 255 (rdF s Reg.rstTrim.base 8 8 + 1) * 256) |> wrF Reg.rstBoot.base 0 4 1
  else s

/-- RESET_SOURCE_RELEASE (R525). -/
def execResetSourceRelease (source : Nat) (s : State) : Result :=
  run (fun s =>
    if !s.rst.asserted.testBit source then s
    else
      let s := modRst (fun r => { r with asserted := r.asserted - 2 ^ source }) s
      if s.rst.asserted = 0 ∧ s.rst.phase = .held then beginStretch s else s) s

/-- The registers whose TV fields the always-on island shadows. -/
def shadowRegs : List RegDef := [Reg.tcSpare, Reg.rstFuse, Reg.secKeys]

/-- The copies of a register after a load with upsets (R534). -/
def loadCopies (f : Fuses) (ups : List Upset) (off : Nat) : TvReg :=
  let v := fun c => ((ups.find? fun u => u.off == off && u.copy == c).map (·.value)).getD (fuseWord f off)
  { off := off, c0 := v 0, c1 := v 1, c2 := v 2 }

/-- The values that the three copies of a register hold for a field. -/
def copiesOf (f : Field) (t : TvReg) : Nat × Nat × Nat :=
  let x := fun (w : Word) => bits w.toNat f.lo f.w
  (x t.c0, x t.c1, x t.c2)

/-- One copy is outvoted by the two others. -/
def outvoted : Nat × Nat × Nat → Bool
  | (a, b, c) => (a == b || b == c || a == c) && !(a == b && b == c)

/-- All three disagree. -/
def threeWays : Nat × Nat × Nat → Bool
  | (a, b, c) => a != b && b != c && a != c

/-- Some TV field of the shadows has copies of this kind. -/
def anyShadow (p : Nat × Nat × Nat → Bool) (ts : List (RegDef × TvReg)) : Bool :=
  ts.any fun x => (x.1.fields.filter fun f => f.acc == .tv).any fun f => p (copiesOf f x.2)

/-- TRIM_LOAD_DONE (R522, R534). -/
def execTrimLoadDone (upsets : List Upset) (s : State) : Result :=
  run (fun s =>
    if s.rst.phase != .stretching || !s.rst.trimBusy then s
    else
      let ts := shadowRegs.map fun d => (d, loadCopies s.fuse upsets d.base)
      let s := { s with tv := (s.tv.filter fun t => fieldOff t.off) ++ ts.map (·.2) }
      let s := s |> modRst (fun r => { r with trimBusy := false }) |> wrF Reg.rstTrim.base 0 1 1
                 |> wrF Reg.rstTrim.base 1 1 (b2n (anyShadow outvoted ts))
      if anyShadow threeWays ts then assertReset 11 1 s else s) s

/-- The cause-history entry of the reset at hand (R538). -/
def histEntry (r : ResetState) : HistEntry :=
  BitVec.ofNat 64 (r.sources % 8192 + r.level * 2 ^ 16 + b2n r.widened * 2 ^ 18 + b2n r.trimRestart * 2 ^ 19
    + (if r.level = 2 then 0 else r.since * 2 ^ 32))

/-- A release's event is held; one older than the 16 most recent is dropped and counted (R68, 17). -/
def holdRelease (e : HistEntry) (s : State) : State :=
  let s := if 16 ≤ s.led.heldReleases.length then dropEvent (modLed (fun l => { l with heldReleases := l.heldReleases.drop 1, lossAfter := l.lossAfter - 1 }) s) else s
  modLed (fun l => { l with heldReleases := l.heldReleases ++ [e] }) s

/-- What boot does at the release of a core reset (R530): firmware that ran starts again from its locked copy; a ROM that had not come so
far stands where it stood (DESIGN CHOICE, log entry 65). -/
def bootAgain (s : State) : State := wrF Reg.rstBoot.base 0 4 s.rst.before s

/-- RESET_RELEASE (R526, R531, R537, R538, R593): the stretch has ended and the shadows are loaded. -/
def execResetRelease (s : State) : Result :=
  run (fun s =>
    if s.rst.phase != .stretching || s.rst.trimBusy then s
    else
      let r := s.rst
      let e := histEntry r
      let s := if r.level = 2 then checkBackup s else s
      let s := modRst (fun r => { r with
        phase := .running, hist := (e :: r.hist).take 16, bakValid := true, wdogExpired := false
        bakSys := if r.level = 0 then r.bakSys else r.bakSys + 1, bakCore := if r.level = 0 then r.bakCore + 1 else r.bakCore }) s
      let s := s |> wr Reg.rstCause.base (r.sources % 8192 + r.level * 65536) |> holdRelease e
      let s := driveResetOut true s
      if r.level = 0 then
        let s := s |> setFlag Reg.rstStatus.base 0 |> bootAgain
        (List.range 16).foldl (fun s p => if kvBlk s p ≠ 0 ∧ kvTarget s p ≠ 0 then adjustPool p s else s) s
      else wrF Reg.rstBoot.base 0 4 2 s) s

end Sys2Proof.Machine
end

