-- ==== Sys2Proof/Machine/Blocks.lean ====
section
/-! DEFINITION. Block resets (R510, R517, R518): isolation of one unit, what its reset does, and its release. -/

namespace Sys2Proof.Machine

open Sys2Proof

/-- The block code of a unit (RAS_BLKRST.block). -/
def unitCode (u : BlockUnit) : Nat :=
  match u with
  | .ip k => k
  | .group g => 16 + g
  | .blv p => 20 + p
  | .cp n => 24 + n

/-- The unit of a block code; a code that names none has none. -/
def codeUnit (b : Nat) : Option BlockUnit :=
  if b < 14 then some (.ip b)
  else if 16 ≤ b ∧ b < 20 then some (.group (b - 16))
  else if 20 ≤ b ∧ b < 22 then some (.blv (b - 20))
  else if 24 ≤ b ∧ b < 28 then some (.cp (b - 24))
  else none

/-- The unit exists. -/
def unitExists (u : BlockUnit) : Bool := codeUnit (unitCode u) == some u

/-- The reset of a pipeline (R313, R317, R518): the frame in service ends early with the overflow flag, which its port counts; temporal references are lost; sets, routes and
bindings stay. -/
def resetPipe (k : Nat) (s : State) : State :=
  let s := match (pipeAt s k).serving with
    | none => s
    | some v =>
      let s := match servedFrame s v with
        | some f =>
          let s := if f.flags.testBit 3 then s else portCount v.port 5 1 s
          if f.st = 1 then s |> portCount v.port 4 (outstanding s v.port f.item) |> closeFrame v.port [3] true
          else modServed v (fun f => { f with flags := f.flags ||| 8 }) s
        | none => s
      modServing k (fun v => { v with restart := stageOn v.set 1 && v.area }) s
  s |> modCtx k 0 (fun c => { c with refOk := false }) |> modCtx k 1 (fun c => { c with refOk := false })

/-- A record under decode is voided when its decoder is reset, or its job ends with another error. -/
def voidRecord (status : Nat) (r : Running) (s : State) : State :=
  if r.job.kind ≠ 4 ∨ r.current.isEmpty then s
  else if bitOf (leAt r.job.desc 2 1) 1 && r.num 5 == 0 then
    attachDevice (recItem r.current) 4 0 3
      (voidPayload (recItem r.current) (leAt r.current 0x14 2) 1 status (recQueue r.job.desc) 0xFF 0) s
  else closeRecord r.eng r status 0 s

/-- A job that an engine runs is cut short with a status: it ends and signals its token. -/
def cutJob (status : Nat) (r : Running) (s : State) : State :=
  s |> voidRecord status r |> jobDone r.job.kind r.eng status |> leaveEngine r.job.kind r.eng 0

/-- The reset of an engine group (R245, R518): its running jobs end with ISOLATED and signal their tokens; queued jobs and contexts stay. -/
def resetGroup (g : Nat) (s : State) : State :=
  (s.eng.running.filter fun r => groupOfKind r.job.kind == g).foldl (fun s r => cutJob Stat.isolated r s) s

/-- The copies whose accesses through a port are open when its wrapper closes end with ISOLATED (R517). -/
def endPeerJobs (p : Nat) (s : State) : State :=
  (s.eng.running.filter fun r => r.job.kind == 8 && !r.done && dmaPort r.job.desc == some p).foldl
    (fun s r => jobDone 8 r.eng Stat.isolated s) s

/-- The reset of a Boulevard port (R487, R517, R518). -/
def resetPort (p : Nat) (s : State) : State :=
  let s := endPeerJobs p s
  if blvState s p = 3 then retrain p false s else if blvState s p = 0 then s else blvTrain p s

/-- A unit is isolated and reset (R517, R518); the duties of a control processor wait. -/
def isolateUnit (u : BlockUnit) (s : State) : State :=
  if !unitExists u || !unitUp s u then s
  else
    let s := match u with
      | .ip k => resetPipe k s
      | .group g => resetGroup g s
      | .blv p => resetPort p s
      | .cp _ => s
    modPwr (fun p => { p with isolated := p.isolated ++ [u] }) s

/-- A fault of a class of R510 resets a block: RAS_LAST holds it. -/
def faultBlock (cls : Nat) (u : BlockUnit) (s : State) : State :=
  if !unitExists u || !unitUp s u then s
  else s |> rasLast cls (unitCode u) (match u with | .group _ => Stat.isolated | _ => 0) |> isolateUnit u

/-- BLOCK_RESET (R510, R518): datapath parity in a pipeline or an engine group while RAS_CFG.blkrst_en is 1. -/
def execBlockReset (u : BlockUnit) (s : State) : Result :=
  run (fun s => if coreUp s && rdB s Reg.rasCfg.base 0 then faultBlock 7 u s else s) s

/-- A write of RAS_BLKRST with its key (R518, R560). -/
def writeBlkrst (w : Writer) (v : Word) (s : State) : State :=
  if w = .host ∧ coreUp s = true then (codeUnit (bits v.toNat 0 5)).elim s fun u => isolateUnit u s else s

/-- RAS_BLKRST_WRITE (R518, R560). -/
def execRasBlkrstWrite (w : Writer) (v : Word) (s : State) : Result := run (gate w Reg.rasBlkrst.base v (writeBlkrst w v)) s

/-- BLOCK_RESET_RELEASE (R518). -/
def execBlockResetRelease (u : BlockUnit) (s : State) : Result :=
  run (fun s =>
    if unitUp s u then s
    else
      let s := s |> modPwr (fun p => { p with isolated := p.isolated.filter (· != u) })
                 |> setFlag Reg.rasStatus.base 3 |> bump Reg.rasSnapCnt.base 4 |> postEvent 0x10 3 (unitCode u) 0 0 []
      match u with
      | .ip k => settlePipe k s
      | _ => s) s

/-- The answer POISON reaches whoever made a Square access (R107, R510): a unit reads it, a task faults, a job ends. The word and queue that
a task's fault names are free: the row names no instruction (log entry 54). -/
def answerPoison (by_ : Requester) (s : State) : State :=
  match by_ with
  | .unit => { s with rstat := Stat.poison }
  | .core n =>
    match (coreOf s n).task with
    | none => s
    | some t =>
      let (q, s) := freeBits 2 s
      let (word, s) := freeBits 22 s
      faultTask t Stat.poison q word s
  | .job kind eng =>
    match runningOn s kind eng with
    | none => s
    | some r => if r.done then s else cutJob Stat.poison r s

/-- SQUARE_ACCESS_TIMEOUT (R107, R510): the access ends with POISON, the bank is retired as under R81, and RAS reports it. -/
def execSquareAccessTimeout (addr : Nat) (by_ : Requester) (s : State) : Result :=
  run (fun s =>
    if !coreUp s || decide (0x20000000 ≤ addr) then s
    else
      let st := bankStop s (bankOf addr)
      s |> answerPoison by_ |> retireBank (bankOf addr)
        |> setFlag Reg.rasStatus.base 6 |> bump Reg.rasSnapCnt.base 6 |> rasLast 5 st Stat.poison |> postEvent 0x10 5 st 0 0 []) s

/-- CP_LOCKSTEP_MISMATCH (R510, R518): a processor of a pair disagrees with the other. -/
def execCpLockstepMismatch (cp : Nat) (s : State) : Result := run (fun s => if coreUp s then faultBlock 8 (.cp cp) s else s) s

end Sys2Proof.Machine
end

