-- ==== Sys2Proof/Machine/Boot.lean ====
section
/-! DEFINITION. Boot, identity and attestation (R112, R539-R547): the self-test, the choice and verification of an image, the derivation of
the layer secrets, RECOVERY, the rollback count, and the two policies that rest on them. -/

namespace Sys2Proof.Machine

open Sys2Proof

/-! ## Images -/

/-- Bytes of a firmware image's header and body. -/
def imageBody (img : List Byte) : List Byte := img.take (128 + leAt img 8 4)

/-- The checks of R539 and R540. -/
def imageAccepted (s : State) (img : List Byte) : Bool :=
  let n := leAt img 8 4
  let slot := leAt img 7 1
  let pub := (img.drop 0xC).take 64
  img.take 4 == [0x50, 0x57, 0x46, 0x57] && leAt img 4 2 == 0x1612 && decide (leAt img 6 1 ≤ 63) && decide (slot ≤ 3)
    && decide (1 ≤ n) && decide (n ≤ 16744448) && decide (128 + n + 29792 ≤ img.length)
    && shake256 pub 32 == Config.keyHash slot && !bitOf (tvRead s Reg.secKeys.base) slot && decide (s.fuse.svn ≤ leAt img 6 1)
    && Config.slhVerify 2 pub (imageBody img) ((img.drop (128 + n)).take 29792)

/-! ## Self-test -/

/-- The cores after their self-test (R112): failed ones are FENCED; with none the fused spare is SPARE, else every other is ACTIVE. -/
def testedCores (fused : Nat) (failed : List Nat) : List TensorCore :=
  let sp := min fused 16
  (List.range 17).map fun n =>
    TensorCore.idle (if failed.contains n then 2 else if n = sp ∧ !(List.range 17).any failed.contains then 1 else 0) n

/-- The bank map after the banks' self-test: a bad bank is replaced by the next spare while one is free. -/
def testedBanks (bad : List Nat) (s : State) : State :=
  let l := ((List.range 128).filter bad.contains).take 4
  (l.zipIdx.foldl (fun s x => wr (Reg.sqBankmap.off x.1 0) (128 + x.2) s) s) |> modSq fun q => { q with sparesUsed := l.length }

/-! ## Starting firmware -/

/-- The 48 seed bytes of the DeviceID key pair (R544): "PWK-DID1". -/
def deviceSeed : List Byte := shake256 ([0x50, 0x57, 0x4B, 0x2D, 0x44, 0x49, 0x44, 0x31] ++ Config.uds) 48

/-- CDI (R544): "PWK-CDI1". -/
def cdiOf (m : List Byte) (svn rec : Nat) : List Byte :=
  shake256 ([0x50, 0x57, 0x4B, 0x2D, 0x43, 0x44, 0x49, 0x31] ++ Config.uds ++ m ++ leBytes 1 svn ++ leBytes 1 rec) 32

/-- The 48 seed bytes of the alias key pair (R544): "PWK-ALS1". -/
def aliasSeedOf (cdi : List Byte) : List Byte := shake256 ([0x50, 0x57, 0x4B, 0x2D, 0x41, 0x4C, 0x53, 0x31] ++ cdi) 48

/-- The alias certificate (R545): "PWK-ACT1" and what follows it, signed by the DeviceID key. -/
def aliasCertOf (m : List Byte) (svn : Nat) (pk : List Byte) : List Byte :=
  padTo 17088 (Config.slhSign deviceSeed ([0x50, 0x57, 0x4B, 0x2D, 0x41, 0x43, 0x54, 0x31] ++ m ++ leBytes 1 svn ++ pk))

/-- The boot of an accepted image from a slot, 2 for a recovered one (R540-R545): measurement, secrets, lock, firmware, READY. -/
def startFirmware (slot : Nat) (img : List Byte) (s : State) : State :=
  let svn := leAt img 6 1
  let m := shake256 (imageBody img) 32
  let seed := aliasSeedOf (cdiOf m svn (if slot = 2 then 1 else 0))
  let pk := padTo 32 (Config.slhPublic seed)
  let s := modRst (fun r => { r with
    measurement := m, aliasPk := pk, devidPk := padTo 32 (Config.slhPublic deviceSeed), aliasSeed := seed
    aliasCert := aliasCertOf m svn pk, fails := modAt slot (fun _ => 0) r.fails }) s
  s |> wrF Reg.secStatus.base 0 1 1 |> wrF Reg.secStatus.base 4 1 1 |> wrF Reg.secSvn.base 0 6 svn
    |> wrF Reg.secKeys.base 8 2 (leAt img 7 1)
    |> wr Reg.glbFw.base ((Config.fwBuild (imageBody img)).toNat + svn * 65536 + 2 ^ 31)
    |> wr Reg.rstBoot.base (7 + slot * 16)

/-- BOOT_ROM (R109, R112, R540, R541): what the self-tests find, then the first slot whose image is accepted, else RECOVERY; LPDDR-6 that
fails training fails the boot. -/
def execBootRom (failed badBanks : List Nat) (lpddrBad : Bool) (s : State) : Result :=
  run (fun s =>
    if !coreUp s || decide (2 < bootState s) then s
    else
      let s := testedBanks badBanks { s with cores := testedCores (bits (tvRead s Reg.tcSpare.base) 0 5) failed }
      if lpddrBad then s |> setFlag Reg.memStatus.base 2 |> wrF Reg.rstBoot.base 0 4 9
      else match (slotOrder s).find? fun k => imageAccepted s (flashOf s k) with
        | some k => startFirmware k (flashOf s k) s
        | none => s |> setFlag Reg.secStatus.base 1 |> wrF Reg.rstBoot.base 0 4 8) s

/-- A write of RST_BOOT: its go bit in RECOVERY verifies the image staged at the Square's first bytes (R541). -/
def writeRstBoot (v : Word) (s : State) : State :=
  if !inRecovery s || !v.getLsbD 6 then s
  else
    let img := devGet s 0 (bits v.toNat 8 24)
    if imageAccepted s img then startFirmware 2 img s else wr Reg.rstBoot.base (9 + 2 * 16) s

/-- RST_BOOT_GO (R541). -/
def execRstBootGo (w : Writer) (v : Word) (s : State) : Result := run (gate w Reg.rstBoot.base v (writeRstBoot v)) s

/-- A host write of SEC_ROLL (R547): one that does not raise the count, for its key or its target, is ignored and sets SEC_STATUS flag 2. -/
def writeRoll (v : Word) (s : State) : State :=
  let t := bits v.toNat 0 7
  if bits v.toNat 16 16 = Reg.secRoll.key ∧ s.fuse.svn < t ∧ t ≤ rdF s Reg.secSvn.base 0 6 then { s with fuse := { s.fuse with svn := t } } else setFlag Reg.secStatus.base 2 s

/-- SEC_ROLL_WRITE (R547, R559, R560). -/
def execSecRollWrite (w : Writer) (v : Word) (s : State) : Result := run (pass w Reg.secRoll.base (writeRoll v)) s

/-! ## Policies -/

/-- The entry of a loaded program in a report (R546). -/
def reportEntry (p : Program) : List Byte :=
  leBytes 1 p.handle ++ leBytes 1 p.part ++ leBytes 1 (if p.signedSlot.isSome then 1 else 0) ++ leBytes 1 (p.signedSlot.getD 0) ++ leBytes 4 0
    ++ padTo 32 p.progHash ++ padTo 32 p.weightHash

/-- The loaded programs in handle order. -/
def reportProgs (s : State) : List Program := (List.range 256).filterMap fun h => s.progs.find? fun p => p.handle == h && !p.loading

/-- A report up to its last signature (R546). -/
def reportBody (nonce : List Byte) (s : State) : List Byte :=
  let flags := rdF s Reg.glbMode.base 0 1 + 2 * rdF s Reg.secPolicy.base 0 1 + 4 * rdF s Reg.secPolicy.base 1 1
    + 8 * (if rdF s Reg.rstBoot.base 4 2 = 2 then 1 else 0)
  let ps := reportProgs s
  [0x50, 0x57, 0x4B, 0x41] ++ leBytes 2 1 ++ leBytes 2 0x1612 ++ padTo 32 nonce ++ padTo 32 s.rst.measurement
    ++ leBytes 1 (rdF s Reg.secSvn.base 0 6) ++ leBytes 1 s.fuse.svn ++ leBytes 2 flags ++ leBytes 4 ps.length
    ++ padTo 32 s.rst.aliasPk ++ padTo 32 s.rst.devidPk ++ List.replicate 24 0 ++ ps.flatMap reportEntry ++ padTo 17088 s.rst.aliasCert

/-- A whole report: the body and the alias key's signature over it. -/
def reportOf (nonce : List Byte) (s : State) : List Byte :=
  let b := reportBody nonce s
  b ++ padTo 17088 (Config.slhSign s.rst.aliasSeed b)

/-- POLICY_ATTESTATION (R546). -/
def execPolicyAttestation (m : MemRun) (s : State) : Result :=
  run (serve (isPolicy 5) fun e s =>
    if !entryClean e then finishSub e Stat.badFormat noData s
    else if e.len ≠ 32 then finishSub e Stat.length noData s
    else withPayload m e true (fun nonce s =>
      let r := reportOf nonce s
      if par e 0x20 4 < r.length then finishSub e Stat.length noData s
      else
        let (st, s) := runWrite m (par e 0x18 8) r s
        finishSub e st noData s) s) s

/-- The slot not in use (R542): the other one; after a recovery boot either, a choice that no rule makes. -/
def slotToWrite (s : State) : Nat :=
  match rdF s Reg.rstBoot.base 4 2 with
  | 0 => 1
  | 1 => 0
  | _ => Config.freeNat s.fresh % 2

/-- POLICY_FIRMWARE_SLOT (R542). -/
def execPolicyFirmwareSlot (m : MemRun) (s : State) : Result :=
  run (serve (isPolicy 7) fun e s =>
    if !entryClean e then finishSub e Stat.badFormat noData s
    else withPayload m e true (fun img s =>
      if !imageAccepted s img then finishSub e Stat.signature noData s
      else
        let k := slotToWrite s
        { s with fresh := s.fresh + 1 }
          |> modRst (fun r => { r with flashA := if k = 0 then img else r.flashA, flashB := if k = 0 then r.flashB else img
                                       fails := modAt k (fun _ => 0) r.fails })
          |> finishSub e Stat.ok noData) s) s

end Sys2Proof.Machine
end

