-- ==== Sys2Proof/Machine/SeqCtl.lean ====
section
/-! DEFINITION. The ctl instructions (07_instruction_reference.md, R224-R230). -/

namespace Sys2Proof.Machine

open Sys2Proof

/-- CTL_NOP. -/
def beginCtlNop (x : Issue) (s : State) : State :=
  complete x id s

/-- CTL_NOP. -/
def execCtlNop (core : CoreRun) (i : Iw) (s : State) : Result :=
  issue "CTL_NOP" 0x00 beginCtlNop core false i s

/-- The scalar operations of R224. -/
def alu (f : Nat) (a b : DWord) : DWord :=
  let n := b.toNat % 64
  match f with
  | 0 => a + b
  | 1 => a - b
  | 2 => a * b
  | 3 => a &&& b
  | 4 => a ||| b
  | 5 => a ^^^ b
  | 6 => a <<< n
  | 7 => a >>> n
  | 8 => a.sshiftRight n
  | 9 => if a.slt b then a else b
  | 10 => if a.slt b then b else a
  | 11 => if a.ult b then a else b
  | 12 => if a.ult b then b else a
  | _ => a

/-- CTL_ALU: sd ← sa ⟨alu⟩ sb. -/
def beginCtlAlu (x : Issue) (s : State) : State :=
  let i := x.i
  complete x (fun r => setS i.fd (alu i.func (sOf r i.fa) (sOf r i.fb)) r) s

/-- CTL_ALU. -/
def execCtlAlu (core : CoreRun) (i : Iw) (s : State) : Result :=
  issue "CTL_ALU" 0x01 beginCtlAlu core false i s

/-- CTL_ALUI: sd ← sa ⟨alu⟩ (X or imm). -/
def beginCtlAlui (x : Issue) (s : State) : State :=
  let i := x.i
  complete x (fun r => setS i.fd (alu i.func (sOf r i.fa) (xOrImm i)) r) s

/-- CTL_ALUI. -/
def execCtlAlui (core : CoreRun) (i : Iw) (s : State) : Result :=
  issue "CTL_ALUI" 0x02 beginCtlAlui core false i s

/-- CTL_LI: sd ← X or imm. -/
def beginCtlLi (x : Issue) (s : State) : State :=
  let i := x.i
  complete x (setS i.fd (xOrImm i)) s

/-- CTL_LI. -/
def execCtlLi (core : CoreRun) (i : Iw) (s : State) : Result :=
  issue "CTL_LI" 0x03 beginCtlLi core false i s

/-- CTL_AMOV: moves between scalar and address registers (R220: modulo 2^40). -/
def beginCtlAmov (x : Issue) (s : State) : State :=
  let i := x.i
  complete x (fun r => match i.func with
    | 0 => setA i.fd ((sOf r i.fa).setWidth 40) r
    | 1 => setS i.fd ((aOf r i.fa).setWidth 64) r
    | 2 => setA i.fd (aOf r i.fa + BitVec.ofInt 40 (sext i)) r
    | _ => setA i.fd (aOf r i.fa + (sOf r i.fb).setWidth 40) r) s

/-- CTL_AMOV. -/
def execCtlAmov (core : CoreRun) (i : Iw) (s : State) : Result :=
  issue "CTL_AMOV" 0x04 beginCtlAmov core false i s

/-- The comparisons of R224. -/
def cmp (f : Nat) (a b : DWord) : Bool :=
  match f with
  | 0 => a == b
  | 1 => a != b
  | 2 => a.slt b
  | 3 => a.sle b
  | 4 => a.ult b
  | 5 => a.ule b
  | 6 => decide (((a - b).setWidth 32).toInt < 0)
  | 7 => decide (((a - b).setWidth 32).toInt ≤ 0)
  | 8 => decide (((a - b).setWidth 48).toInt < 0)
  | _ => decide (((a - b).setWidth 48).toInt ≤ 0)

/-- CTL_CMP: pd ← a comparison of sa with sb, or with X. -/
def beginCtlCmp (x : Issue) (s : State) : State :=
  let i := x.i
  complete x (fun r => setP i.fd (cmp i.func (sOf r i.fa) (if i.long then i.x else sOf r i.fb)) r) s

/-- CTL_CMP. -/
def execCtlCmp (core : CoreRun) (i : Iw) (s : State) : Result :=
  issue "CTL_CMP" 0x05 beginCtlCmp core false i s

/-- CTL_POP: predicate operations. -/
def beginCtlPop (x : Issue) (s : State) : State :=
  let i := x.i
  complete x (fun r => setP i.fd (match i.func with
    | 0 => pOf r i.fa && pOf r i.fb
    | 1 => pOf r i.fa || pOf r i.fb
    | 2 => pOf r i.fa != pOf r i.fb
    | 3 => !pOf r i.fa
    | 4 => true
    | _ => false) r) s

/-- CTL_POP. -/
def execCtlPop (core : CoreRun) (i : Iw) (s : State) : Result :=
  issue "CTL_POP" 0x06 beginCtlPop core false i s

/-- CTL_BR: the next word is this word + sext(imm). -/
def beginCtlBr (x : Issue) (s : State) : State :=
  let i := x.i
  completeAt x ((x.w : Int) + sext i).toNat id s

/-- CTL_BR. -/
def execCtlBr (core : CoreRun) (i : Iw) (s : State) : Result :=
  issue "CTL_BR" 0x07 beginCtlBr core false i s

/-- CTL_LOOP (R225). An imm of 0 is no loop body. -/
def beginCtlLoop (x : Issue) (s : State) : State :=
  let i := x.i
  let c := (sOf x.r i.fa).toNat
  if 2 ^ 32 ≤ c then faultAt x 0 Stat.length s
  else if c = 0 then completeN x (i.imm.toNat + sizeAt s x.p (x.w + i.imm.toNat)) (fun r => { r with lc := modAt i.fd (fun _ => 0) r.lc }) s
  else
    s |> modTask x.t (fun k => { k with
          regs := { k.regs with
            step := k.regs.step + 1, next := x.w + 1, lc := modAt i.fd (fun _ => BitVec.ofNat 32 c) k.regs.lc
            loops := { ctr := i.fd, first := x.w + 1, last := x.w + i.imm.toNat } :: k.regs.loops }
          atRound := false })
      |> modCore x.n (fun c => { c with fresh := false })

/-- CTL_LOOP. -/
def execCtlLoop (core : CoreRun) (i : Iw) (s : State) : Result :=
  issue "CTL_LOOP" 0x08 beginCtlLoop core false i s

/-- CTL_YIELD (R226). -/
def beginCtlYield (x : Issue) (s : State) : State :=
  s |> complete x id |> placementPoint x.t x.n

/-- CTL_YIELD. -/
def execCtlYield (core : CoreRun) (i : Iw) (s : State) : Result :=
  issue "CTL_YIELD" 0x09 beginCtlYield core false i s

/-- CTL_END (R228). -/
def beginCtlEnd (x : Issue) (s : State) : State :=
  s |> complete x id |> endTask x.t

/-- CTL_END. -/
def execCtlEnd (core : CoreRun) (i : Iw) (s : State) : Result :=
  issue "CTL_END" 0x0A beginCtlEnd core false i s

/-- CTL_CKPT (R227): the checkpoint holds the state after it completes. -/
def beginCtlCkpt (x : Issue) (s : State) : State :=
  s |> complete x id |> takeCkpt x id

/-- CTL_CKPT. -/
def execCtlCkpt (core : CoreRun) (i : Iw) (s : State) : Result :=
  issue "CTL_CKPT" 0x0B beginCtlCkpt core false i s

/-- A descriptor with another base, in 64-byte units, or another row count. -/
def tdWith (w : DWord) (lo n v : Nat) : DWord := BitVec.ofNat 64 (setBits w.toNat lo n v)

/-- CTL_TDESC (R125, R224). -/
def beginCtlTdesc (x : Issue) (s : State) : State :=
  let i := x.i
  let ta := x.r.t.getD i.fa 0
  match i.func with
  | 0 => complete x (fun r => setT i.fd (sOf r i.fa) r) s
  | 1 => complete x (setT i.fd i.x) s
  | 2 => complete x (setS i.fd ta) s
  | 3 =>
    let b : Int := (bits ta.toNat 0 16 : Int) + sext i
    if b < 0 ∨ 65535 < b then faultAt x 0 Stat.length s else complete x (setT i.fd (tdWith ta 0 16 b.toNat)) s
  | _ =>
    let n := (sOf x.r i.fb).toNat
    if 4096 ≤ n then faultAt x 0 Stat.length s else complete x (setT i.fd (tdWith ta 33 12 n)) s

/-- CTL_TDESC. -/
def execCtlTdesc (core : CoreRun) (i : Iw) (s : State) : Result :=
  issue "CTL_TDESC" 0x0C beginCtlTdesc core false i s

/-- CTL_SYS: the system table of R224. -/
def beginCtlSys (x : Issue) (s : State) : State :=
  let i := x.i
  complete x (fun r => match i.func with
    | 0 => setSN i.fd x.r.step r
    | 1 => setS i.fd r.seed0 r
    | 2 => setS i.fd r.seed1 r
    | 3 => { r with seed0 := sOf r i.fa }
    | 4 => { r with seed1 := sOf r i.fa }
    | 5 => setSN i.fd (b2n r.mx + 2 * b2n r.nonfinite) r
    | 6 => { r with nonfinite := false }
    | 7 => setSN i.fd (x.r.lc.getD i.fa 0).toNat r
    | 8 => setSN i.fd x.t.inst r
    | _ => setSN i.fd x.t.tmpl r) s

/-- CTL_SYS. -/
def execCtlSys (core : CoreRun) (i : Iw) (s : State) : Result :=
  issue "CTL_SYS" 0x0D beginCtlSys core false i s

/-- A recorded allocation. -/
def isAlloc : RecEntry → Bool
  | .alloc _ _ => true
  | _ => false

/-- CTL_ALLOC (R85-R89, R229, R513, R514). -/
def beginCtlAlloc (x : Issue) (s : State) : State :=
  let i := x.i
  let n := (sOf x.r i.fa).toNat
  let put := fun (base st : Nat) (r : TaskRegs) => setSN i.fc st (setSN i.fd base r)
  if 8192 < n then faultAt x 3 Stat.length s
  else match matchEntry x.t isAlloc s with
    | some (.alloc b st, s) => complete x (put b st) s
    | _ =>
      withRoom x (fun s =>
        let (a, s) := alloc x.p.part n x.p.handle 3 s
        let b := if a.status = Stat.ok then a.base * 65536 else 0
        s |> record x.t (.alloc b a.status) |> complete x (put b a.status)) s

/-- CTL_ALLOC. -/
def execCtlAlloc (core : CoreRun) (i : Iw) (s : State) : Result :=
  issue "CTL_ALLOC" 0x0E beginCtlAlloc core false i s

/-- Granules that a program may free: in its partition, and no placed section, save area or KV pool (R230). -/
def freeable (s : State) (part g : Nat) : Bool :=
  match runAt s g with
  | some r => r.part == part && (r.kind == 2 || r.kind == 3)
  | none => false

/-- CTL_FREE (R94, R230, R513, R514). -/
def beginCtlFree (x : Issue) (s : State) : State :=
  let i := x.i
  let a := (sOf x.r i.fa).toNat
  let n := (sOf x.r i.fb).toNat
  match matchEntry x.t (fun e => e == .free) s with
  | some (_, s) => complete x id s
  | none =>
    if n = 0 then withRoom x (fun s => s |> record x.t .free |> complete x id) s
    else if a % 65536 ≠ 0 ∨ nGran < n ∨ (List.range n).all (fun j => freeable s x.p.part (a / 65536 + j)) = false then
      faultAt x 3 Stat.unmapped s
    else withRoom x (fun s => s |> freeGran (a / 65536) n |> record x.t .free |> complete x id) s

/-- CTL_FREE. -/
def execCtlFree (core : CoreRun) (i : Iw) (s : State) : Result :=
  issue "CTL_FREE" 0x0F beginCtlFree core false i s

end Sys2Proof.Machine
end

