-- ==== Sys2Proof/Machine/Sqm.lean ====
section
/-! DEFINITION. The sequence manager (R98, R255-R258, R279-R285): sequence IDs, joins, step boundaries and the step table. -/

namespace Sys2Proof.Machine

open Sys2Proof

/-- A client of the sequence manager. -/
def clientOf (s : State) (c : Nat) : SqmClient := s.clients.getD c { handle := 0, part := 0, stepBy := [], armed := false }

/-- Changes a client. -/
def modClient (c : Nat) (f : SqmClient → SqmClient) (s : State) : State := { s with clients := modAt c f s.clients }

/-- The device client that a program's context `c` stands for (R200, R255); none past its contexts. -/
def clientFor (p : Program) (c : Nat) : Option Nat := (p.ctxIds.getD 6 [])[c]?

/-- KV blocks that a join reserves (R282). -/
def reservation (max : Nat) : Nat := ceilDiv max 16

/-- The lowest free sequence ID of a program (R279). -/
def freeSeqId (s : State) (p : Program) : Option Nat :=
  (List.range p.kvSeqs).findSome? fun i =>
    if s.seqs.any (fun q => q.handle == p.handle && q.id == p.idFirst + i) then none else some (p.idFirst + i)

/-- A boundary of a client may form (R281). -/
def arm (c : Nat) (s : State) : State := modClient c (fun k => { k with armed := true }) s

/-- A join takes an ID and is queued (R280, R281). -/
def queueJoin (p : Program) (c id : Nat) (item : Word) (max tag : Nat) (s : State) : State :=
  let q : Sequence :=
    { id := id, client := c, handle := p.handle, item := item, max := max, tag := tag, member := false, justJoined := false
      leaving := false, held := 0, blocks := [], blk := 0 }
  { (arm c s) with seqs := s.seqs ++ [q] }

/-- A waiting `seq.join`. -/
def isJoin : Wait → Bool
  | .join .. => true
  | _ => false

/-- The oldest task of a program whose `seq.join` waits for an ID. -/
def oldestJoin (s : State) (h : Nat) : Option (TaskId × Waiting) :=
  (s.tasks.filterMap fun k => if k.id.handle = h then (k.waits.find? fun w => isJoin w.w).map fun w => (k.id, w) else none).foldl
    (fun m x => match m with
      | some y => if x.2.since < y.2.since then some x else some y
      | none => some x) none

/-- Waiting joins of a program take IDs that have freed, the oldest first (R256, R280). -/
def serveJoins : Nat → Nat → State → State
  | 0, _, s => s
  | f + 1, h, s =>
    match progOf s h with
    | none => s
    | some p =>
      match freeSeqId s p, oldestJoin s h with
      | some id, some (t, w) =>
        match w.w with
        | .join c item max tag sd =>
          serveJoins f h (s |> queueJoin p c id item max tag |> finishWait t isJoin (setSN sd id) [.join id])
        | _ => s
      | _, _ => s

/-- An item is in the ledger no more as OPEN or BOUND: it has committed or defaulted (R284). -/
def seqItemGone (s : State) (q : Sequence) : Bool := itemEnded s q.item

/-- The event of a join removed at a boundary (R284). -/
def removedJoin (q : Sequence) (code : Nat) (s : State) : State :=
  let s := s |> bump Reg.sqmSnapCnt.base 2
             |> postEvent 8 code q.item.toNat 0 0 (leBytes 2 q.id ++ leBytes 1 q.client ++ leBytes 1 q.handle)
  if code = 2 then setFlag Reg.sqmStatus.base 0 s else s

/-- Sequences leave under a test; their IDs free, and blocks that return to a partition's pool let its clients form a boundary (R281). -/
def dropSeqs (f : Sequence → Bool) (s : State) : State :=
  let parts := (s.seqs.filter fun q => f q && !q.blocks.isEmpty).map fun q => (clientOf s q.client).part
  { s with seqs := s.seqs.filter fun q => !f q
           clients := s.clients.map fun k => if parts.contains k.part then { k with armed := true } else k }

/-- Step 1 of a boundary (R282, R284): queued joins whose item has ended or whose reservation exceeds the pool target, and members whose
item has ended. -/
def removeGone (c : Nat) (s : State) : State :=
  let target := kvTargetBlocks s (clientOf s c).part
  let gone := fun (q : Sequence) => q.client == c && !q.member && seqItemGone s q
  let tooBig := fun (q : Sequence) => q.client == c && !q.member && !seqItemGone s q && decide (target < reservation q.max)
  let left := fun (q : Sequence) => q.client == c && q.member && seqItemGone s q
  let s' := (s.seqs.filter fun q => gone q || tooBig q).foldl (fun s' q => removedJoin q (if gone q then 1 else 2) s') s
  let s' := count (Reg.sqmSnapCnt.base + 12) (s.seqs.filter left).length s'
  dropSeqs (fun q => gone q || tooBig q || left q) s'

/-- Step 2 (R257, R282): leaves received since the last boundary, and members at their declared maximum. -/
def applyLeaves (c : Nat) (s : State) : State :=
  let goes := fun (q : Sequence) => q.client == c && (q.leaving || (q.member && decide (q.max ≤ q.held)))
  s |> count (Reg.sqmSnapCnt.base + 12) (s.seqs.filter goes).length |> dropSeqs goes

/-- Step 3 (R98, R282, R283): queued joins enter in order, each with its whole reservation, up to the first that does not fit. A join
that an over-quota partition holds back is a refused admission (R110 [4]); one short of blocks is a boundary of R290 [4]. -/
def admitJoins (c : Nat) : Nat → State → State
  | 0, s => s
  | f + 1, s =>
    match s.seqs.find? fun q => q.client == c && !q.member with
    | none => s
    | some q =>
      let p := (clientOf s c).part
      let free := freeBlocks s p
      let n := reservation q.max
      if partOver s p then bump Reg.sqSnapCnt.base 4 s
      else if free.length < n then s |> setFlag Reg.sqmStatus.base 1 |> bump Reg.sqmSnapCnt.base 4
      else
        admitJoins c f (bump Reg.sqmSnapCnt.base 1 { s with
          seqs := updFirst (fun x => x.handle == q.handle && x.id == q.id)
                    (fun x => { x with member := true, justJoined := true, blocks := free.take n, blk := kvBlk s p }) s.seqs })

/-- The members of a client in ascending sequence ID. -/
def membersOf (s : State) (c : Nat) : List Sequence :=
  (s.seqs.filter fun q => q.client == c && q.member).foldl
    (fun l q => (l.takeWhile fun x => decide (x.id < q.id)) ++ [q] ++ l.dropWhile fun x => decide (x.id < q.id)) []

/-- One entry of the step table (R258). -/
def stepEntry (c : Nat) (q : Sequence) : List Byte :=
  leBytes 2 q.id ++ leBytes 2 (b2n q.justJoined + 2 * b2n (decide (q.held = q.max))) ++ leBytes 4 q.item.toNat ++ leBytes 4 q.held
    ++ leBytes 4 q.max ++ leBytes 4 q.tag ++ leBytes 4 q.blocks.length ++ leBytes 8 (Config.blockListAddr c q.id)

/-- Writes a client's block lists where the module keeps them (R258). -/
def writeBlockLists (c : Nat) (s : State) : State :=
  (membersOf s c).foldl (fun s q => devPut (Config.blockListAddr c q.id) (q.blocks.flatMap (leBytes 4)) s) s

/-- A waiting `seq.step` of a client. -/
def isStep (c : Nat) : Wait → Bool
  | .step k _ _ _ => k == c
  | _ => false

/-- A `seq.step` of a client that waits for members: one without .nowait (SQM_CLI.step_wait). -/
def stepWaits (c : Nat) : Wait → Bool
  | .step k _ _ nowait => k == c && !nowait
  | _ => false

/-- A step boundary of a client (R281, R282): it completes the client's oldest `seq.step` when a member is left, or under .nowait. A step
that is left waiting forms its own once the one before it has completed; otherwise a join or returned blocks must come first. -/
def boundary (c : Nat) (s : State) : State :=
  match (clientOf s c).stepBy, (clientOf s c).armed with
  | [], _ => s
  | _, false => s
  | t :: rest, true =>
    match (taskOf s t).bind fun k => k.waits.find? fun w => isStep c w.w with
    | some { w := .step _ addr sd nowait, .. } =>
      let h := (clientOf s c).handle
      let s := { s with seqs := s.seqs.map fun q => if q.client = c then { q with justJoined := false } else q }
      let s := s |> bump Reg.sqmSnapCnt.base 0 |> removeGone c |> applyLeaves c
      let s := admitJoins c s.seqs.length s
      let s := { s with seqs := s.seqs.map fun q => if q.client = c ∧ q.member = true then { q with held := q.held + 1 } else q }
      let ms := membersOf s c
      let s := setCtr (Reg.sqmSnapCnt.base + 20) (max (ctrOf s (Reg.sqmSnapCnt.base + 20)) ms.length) s
      let s := modClient c (fun k => { k with armed := false }) s
      let s :=
        if ms.isEmpty && !nowait then s
        else
          let s := modClient c (fun k => { k with stepBy := k.stepBy.drop 1, armed := !rest.isEmpty }) (writeBlockLists c s)
          let (st, s) := if allocated s addr 32768 then writeAll addr (ms.flatMap (stepEntry c)) [] s else (Stat.unmapped, noteUnmapped s)
          if st = Stat.ok then finishWait t (isStep c) (setSN sd ms.length) [] s else failWait t (isStep c) st s
      serveJoins s.tasks.length h s
    | _ => s

end Sys2Proof.Machine
end

