-- ==== Sys2Proof/Machine/SeqMove.lean ====
section
/-! DEFINITION. The eng, tok, itm and seq instructions (R242-R258) and the step boundary row. -/

namespace Sys2Proof.Machine

open Sys2Proof

/-! ## eng -/

/-- Descriptors of 64 bytes, cut from a run of bytes. -/
def descriptors : Nat → List Byte → List (List Byte)
  | 0, _ => []
  | n + 1, bs => bs.take 64 :: descriptors n (bs.drop 64)

/-- Queues descriptors one after the other: each takes an entry, and the rest waits when none is free. -/
def enqLoop (x : Issue) (kind addr : Nat) : List (List Byte) → State → State
  | [], s => complete x id s
  | d :: ds, s =>
    if jobShare kind ≤ jobsInUse s kind then beginWait x 3 (.enq kind addr (ds.length + 1)) s
    else enqLoop x kind (addr + 64) ds (s |> queueJob kind d x.t x.p.part |> record x.t (.enq kind))

/-- Recorded jobs of a kind that a restarted task has still to match (R514). -/
def jobsToMatch (s : State) (t : TaskId) (kind : Nat) : Nat :=
  ((taskOf s t).elim [] (·.match_.entries)).countP fun e => e == .enq kind

/-- Matches `m` recorded jobs (R514). -/
def matchJobs (t : TaskId) (kind : Nat) : Nat → State → State
  | 0, s => s
  | m + 1, s =>
    match matchEntry t (fun e => e == .enq kind) s with
    | some (_, s) => matchJobs t kind m s
    | none => s

/-- ENG_ENQ (R242-R244, R514): jobs that the recovery record holds complete first, unread, and the rest is checked and queued. -/
def beginEngEnq (x : Issue) (s : State) : State :=
  let i := x.i
  let n := (sOf x.r i.fb).toNat
  let a := (aOf x.r i.fa + BitVec.ofInt 40 (sext i)).toNat
  let m := min n (jobsToMatch s x.t i.func)
  let a := a + 64 * m
  let n := n - m
  let s := matchJobs x.t i.func m s
  if n = 0 then complete x id s
  else if 64 < n then faultAt x 3 Stat.length s
  else if 0x20000000 ≤ a then faultTransfer x Stat.unmapped s
  else if 0x20000000 < a + 64 * n then faultAt x 3 Stat.length s
  else if !allocated s a (64 * n) then faultTransfer x Stat.unmapped s
  else
    let (r, s) := readMem a (64 * n) x.cr.sq s
    if r.status ≠ Stat.ok then faultAt x 3 r.status s
    else
      let ds := descriptors n r.data
      if ds.any (fun d => !jobTokenOk s x.t i.func d) then faultAt x 3 Stat.badFormat s
      else withRoomFor x n (enqLoop x i.func a ds) s

/-- ENG_ENQ. -/
def execEngEnq (core : CoreRun) (i : Iw) (s : State) : Result :=
  issue "ENG_ENQ" 0x40 beginEngEnq core false i s

/-! ## tok -/

/-- The amount of a tok instruction. -/
def tokAmt (i : Iw) : Nat := if i.long then i.x.toNat % 65536 else 1

/-- The token that a tok instruction names: a local index, or a global one by the instance (R249). -/
def tokIndex (x : Issue) : Nat :=
  let n := x.i.imm.toNat
  if x.i.func.testBit 0 then n % 4096 + x.t.inst * bits n 12 12 else n % 64

/-- A waiting take of a local token. -/
def isLocal (tok : Nat) : Wait → Bool
  | .localTake k _ => k == tok
  | _ => false

/-- A local token's count. -/
def localOf (r : TaskRegs) (tok : Nat) : Nat := r.local_.getD tok 0

/-- Sets a local token's count. -/
def setLocal (tok v : Nat) (r : TaskRegs) : TaskRegs := { r with local_ := modAt tok (fun _ => v) r.local_ }

/-- Serves a task's waits on a local token in age order (R194). -/
def serveLocal (t : TaskId) (tok : Nat) : Nat → State → State
  | 0, s => s
  | f + 1, s =>
    match taskOf s t with
    | none => s
    | some k =>
      match k.waits.find? fun w => isLocal tok w.w with
      | some { w := .localTake _ amt, .. } =>
        if amt ≤ localOf k.regs tok then
          serveLocal t tok f (finishWait t (isLocal tok) (fun r => setLocal tok (localOf r tok - amt) r) [] s)
        else s
      | _ => s

/-- A take of a global token (R194, R195, R251): it ends at once, faults at a latch, or waits. -/
def waitGlobal (x : Issue) (h tok : Nat) (k : Token) (s : State) : State :=
  let i := x.i
  let item : Option Word := if i.func.testBit 1 then some ((sOf x.r i.fa).setWidth 32) else none
  let sd := if i.func.testBit 2 then some i.fd else none
  let pc := if i.func.testBit 1 then some i.fc else none
  let amt := tokAmt i
  let done := fun (r : TaskRegs) =>
    let r := match sd with | some d => setSN d k.latch r | none => r
    match pc with | some p => setP p true r | none => r
  let clear := fun (s : State) => if sd.isSome then modTok h tok (fun k => { k with latch := 0 }) s else s
  if (item.elim false (itemEnded s)) = true then
    complete x (fun r => match pc with | some p => setP p false r | none => r) s
  else if amt = 0 then s |> clear |> complete x done
  else if amt ≤ drawn k item && !k.waiters.any (fun w => w.item == item) then
    if k.jobTmpl.isSome && latchFaults k.latch then faultAt x i.q k.latch s
    else withRoom x (fun s =>
      s |> modTok h tok (fun k => takeFrom k item amt) |> lowWater h tok |> clear |> record x.t (.take tok amt item Stat.ok)
        |> complete x done |> settleToken h tok) s
  else withRoom x (fun s =>
    s |> modTok h tok (fun k => { k with waiters := k.waiters ++ [{ who := .task x.t, amt := amt, item := item }] })
      |> beginWait x i.q (.take tok amt item sd pc)) s

/-- TOK_WAIT (R136, R194, R195, R249-R251). -/
def beginTokWait (x : Issue) (s : State) : State :=
  let i := x.i
  let n := tokIndex x
  if i.func.testBit 0 then
    match tokOf s x.p.handle n with
    | none => s
    | some k => waitGlobal x x.p.handle n k s
  else
    let amt := tokAmt i
    if amt = 0 ∨ (amt ≤ localOf x.r n ∧ x.k.waits.any (fun w => isLocal n w.w) = false) then
      complete x (fun r => setLocal n (localOf r n - amt) r) s
    else beginWait x i.q (.localTake n amt) s

/-- TOK_WAIT. -/
def execTokWait (core : CoreRun) (i : Iw) (s : State) : Result :=
  issue "TOK_WAIT" 0x50 beginTokWait core false i s

/-- TOK_SIG (R135, R136, R194, R195, R249, R514). -/
def beginTokSig (x : Issue) (s : State) : State :=
  let i := x.i
  let n := tokIndex x
  let amt := tokAmt i
  if i.func.testBit 0 then
    match matchSignal x.t s with
      | some s => complete x id s
      | none =>
        let item : Option Word := if i.func.testBit 1 then some ((sOf x.r i.fa).setWidth 32) else none
        let h := x.p.handle
        let counted := fun (s : State) => modTask x.t (fun k => { k with rec_ := { k.rec_ with sigs := k.rec_.sigs + 1 } }) s
        match signal h n amt item (some (.task x.t)) s with
        | (.waits, s) => beginWait x i.q (.sigPair n amt (item.getD 0)) s
        | (.done st, s) => if st = Stat.ok then s |> counted |> complete x id else faultAt x i.q st s
  else if 65535 < localOf x.r n + amt then faultAt x i.q Stat.tokenOverflow s
  else
    s |> complete x (fun r => setLocal n (localOf r n + amt) r) |> serveLocal x.t n x.k.waits.length

/-- TOK_SIG. -/
def execTokSig (core : CoreRun) (i : Iw) (s : State) : Result :=
  issue "TOK_SIG" 0x51 beginTokSig core false i s

/-- TOK_TRY (R249). -/
def beginTokTry (x : Issue) (s : State) : State :=
  let i := x.i
  let n := tokIndex x
  let amt := tokAmt i
  complete x (fun r => if amt ≤ localOf r n then setP i.fd true (setLocal n (localOf r n - amt) r) else setP i.fd false r) s

/-- TOK_TRY. -/
def execTokTry (core : CoreRun) (i : Iw) (s : State) : Result :=
  issue "TOK_TRY" 0x52 beginTokTry core false i s

/-! ## itm -/

/-- ITM_ATTACH (R42-R45, R252). -/
def beginItmAttach (x : Issue) (s : State) : State :=
  let i := x.i
  let t := tdOf x.r i.fb
  let key := if i.func = 1 then (sOf x.r i.fc).toNat % 65536 else bits i.imm.toNat 8 16
  if !t.empty && (t.refused || decide (1016 < t.rows * t.rowBytes)) then faultAt x 3 Stat.length s
  else
    let runs := if t.empty then [] else t.runs t.rows
    let (bad, s) := readTile x runs s
    if bad then tilePoison x 3 s
    else
      let (st, s) := attach ((sOf x.r i.fa).setWidth 32) (i.imm.toNat % 256) key 0
                       (runs.flatMap fun e => tbRead x.r e.1 e.2) (some x.t) x.t s
      if st = Stat.length then faultAt x 3 st s else complete x (setSN i.fd st) s

/-- ITM_ATTACH. -/
def execItmAttach (core : CoreRun) (i : Iw) (s : State) : Result :=
  issue "ITM_ATTACH" 0x60 beginItmAttach core false i s

/-- ITM_COMMIT (R46-R51, R252, R253): the checkpoint is taken first, whatever the ledger then answers. -/
def beginItmCommit (x : Issue) (s : State) : State :=
  let i := x.i
  s |> complete x id |> takeCkpt x fun s =>
    let (st, s) := commitItem ((sOf x.r i.fa).setWidth 32) i.func (i.imm.toNat % 32) ((sOf x.r i.fb).setWidth 48) x.p x.r.mx s
    modTask x.t (fun k => { k with regs := setSN i.fd st k.regs, ckpt := setSN i.fd st k.ckpt }) s

/-- ITM_COMMIT. -/
def execItmCommit (core : CoreRun) (i : Iw) (s : State) : Result :=
  issue "ITM_COMMIT" 0x61 beginItmCommit core false i s

/-- A field of an item (R254). -/
def itemField (f : Nat) (committing : Bool) (i : Item) : Option Nat :=
  match f with
  | 0 => some i.openPos.toNat
  | 1 => i.closePos.map (·.toNat)
  | 2 => some i.deadline.toNat
  | 3 => some (if committing then 2 else if i.bound then 1 else 0)
  | 4 => some i.src
  | _ => some i.posSrc

/-- ITM_GET (R254). -/
def beginItmGet (x : Issue) (s : State) : State :=
  let i := x.i
  let id : Word := (sOf x.r i.fa).setWidth 32
  let v := match itemOf s id with
    | some it => itemField i.func false it
    | none => (s.led.committing.find? fun (c : Commit) => c.item.id == id && c.admitted).bind fun c => itemField i.func true c.item
  complete x (fun r => setP i.fb v.isSome (setSN i.fd (v.getD 0) r)) s

/-- ITM_GET. -/
def execItmGet (core : CoreRun) (i : Iw) (s : State) : Result :=
  issue "ITM_GET" 0x62 beginItmGet core false i s

/-! ## seq -/

/-- A recorded join. -/
def isJoinEntry : RecEntry → Bool
  | .join _ => true
  | _ => false

/-- SEQ_JOIN (R255, R256, R280). -/
def beginSeqJoin (x : Issue) (s : State) : State :=
  let i := x.i
  let n := (sOf x.r i.fb).toNat
  match clientFor x.p (i.imm.toNat % 4) with
  | none => s
  | some c =>
    if n = 0 then complete x id s
    else match matchEntry x.t isJoinEntry s with
      | some (.join id, s) => complete x (setSN i.fd id) s
      | _ =>
        if kvTargetBlocks s (clientOf s c).part < reservation n then faultAt x 3 Stat.length s
        else withRoom x (fun s =>
          let item : Word := (sOf x.r i.fa).setWidth 32
          let tag := (sOf x.r i.fc).toNat % 2 ^ 32
          match freeSeqId s x.p with
          | some id => s |> queueJoin x.p c id item n tag |> record x.t (.join id) |> complete x (setSN i.fd id)
          | none => beginWait x 3 (.join c item n tag i.fd) s) s

/-- SEQ_JOIN. -/
def execSeqJoin (core : CoreRun) (i : Iw) (s : State) : Result :=
  issue "SEQ_JOIN" 0x70 beginSeqJoin core false i s

/-- SEQ_STEP (R255, R258, R281): the step waits for the client's next boundary. No rule gives .nowait a func value: 1 spells it, and 2 to 15 are
illegal (DESIGN CHOICE, log entry 109). -/
def beginSeqStep (x : Issue) (s : State) : State :=
  let i := x.i
  let a := (aOf x.r i.fa).toNat
  match clientFor x.p (i.imm.toNat % 4) with
  | none => s
  | some c =>
    if 0x20000000 < a + 32768 || !allocated s a 32768 then faultTransfer x Stat.unmapped s
    else s |> modClient c (fun k => { k with stepBy := k.stepBy ++ [x.t], armed := true }) |> beginWait x 3 (.step c a i.fd (i.func == 1))

/-- SEQ_STEP. -/
def execSeqStep (core : CoreRun) (i : Iw) (s : State) : Result :=
  issue "SEQ_STEP" 0x71 beginSeqStep core false i s

/-- SEQ_LEAVE (R255, R257). -/
def beginSeqLeave (x : Issue) (s : State) : State :=
  let i := x.i
  match clientFor x.p (i.imm.toNat % 4) with
  | none => s
  | some c =>
    match matchEntry x.t (fun e => e == .leave) s with
    | some (_, s) => complete x id s
    | none =>
      withRoom x (fun s =>
        let n := (sOf x.r i.fa).toNat
        { s with seqs := updAll (fun q => q.client == c && q.id == n) (fun q => { q with leaving := true }) s.seqs }
          |> record x.t .leave |> complete x id) s

/-- SEQ_LEAVE. -/
def execSeqLeave (core : CoreRun) (i : Iw) (s : State) : Result :=
  issue "SEQ_LEAVE" 0x72 beginSeqLeave core false i s

/-- SEQ_BOUNDARY (R281, R282, R285). -/
def execSeqBoundary (client : Nat) (s : State) : Result := run (fun s => if cpUp s 2 then boundary client s else s) s

end Sys2Proof.Machine
end

