-- ==== Sys2Proof/Machine/Image.lean ====
section
/-! DEFINITION. Program images (R184-R187, R196-R199, R203, R216, R217, R548): their header, section table, manifest and code, and the
checks that need nothing but the image. -/

namespace Sys2Proof.Machine

open Sys2Proof

/-! ## Failures -/

/-- How a load fails: its status, the stage and the image offset of R206. -/
structure LoadFail where
  status : Nat
  stage : Nat
  off : Nat
  deriving DecidableEq, Repr

/-- The first failure of a list of checks: each is whether it fails, and how. -/
def firstFail : List (Bool × LoadFail) → Option LoadFail
  | [] => none
  | c :: cs => if c.1 then some c.2 else firstFail cs

/-- A stage 1 failure of the image's structure at an offset. -/
def corrupt1 (off : Nat) : LoadFail := { status := Stat.imageCorrupt, stage := 1, off := off }

/-- A stage 1 failure where a condition holds. -/
def bad1 (b : Bool) (off : Nat) : Bool × LoadFail := (b, corrupt1 off)

/-- A run of bytes must hold the given ones: the first that differs is the faulty byte (R206). -/
def bytesCheck (img : List Byte) (o : Nat) (want : List Byte) : Bool × LoadFail :=
  match (List.range want.length).find? fun k => leAt img (o + k) 1 != (want.getD k 0).toNat with
  | some k => bad1 true (o + k)
  | none => bad1 false o

/-- A run of bytes must be zero. -/
def zeroCheck (img : List Byte) (o n : Nat) : Bool × LoadFail := bytesCheck img o (List.replicate n 0)

/-! ## Header and section table (R184-R186) -/

/-- A section of the table. -/
structure Sec where
  idx : Nat
  ty : Nat
  flags : Nat
  off : Nat
  len : Nat
  check : Nat
  deriving DecidableEq, Repr

/-- The number of sections. -/
def secCount (img : List Byte) : Nat := leAt img 0xC 2

/-- Where entry `k` of the section table stands. -/
def entryOff (k : Nat) : Nat := 0x80 + 16 * k

/-- Entry `k` of the section table. -/
def secOf (img : List Byte) (k : Nat) : Sec :=
  let o := entryOff k
  { idx := k, ty := leAt img o 1, flags := leAt img (o + 1) 1, off := leAt img (o + 4) 4, len := leAt img (o + 8) 4
    check := leAt img (o + 0xC) 4 }

/-- The sections in table order. -/
def secsOf (img : List Byte) : List Sec := (List.range (secCount img)).map (secOf img)

/-- The bytes of a section. -/
def secBytes (img : List Byte) (x : Sec) : List Byte := (img.drop x.off).take x.len

/-- Sections of a type that are not empty (R186). -/
def secsOfTy (img : List Byte) (ty : Nat) : List Sec := (secsOf img).filter fun x => x.ty == ty && x.len != 0

/-- The bytes of the one section of a type. -/
def oneSec (img : List Byte) (ty : Nat) : List Byte :=
  match secsOfTy img ty with
  | x :: _ => secBytes img x
  | [] => []

/-- The offset of the one section of a type. -/
def oneOff (img : List Byte) (ty : Nat) : Nat :=
  match secsOfTy img ty with
  | x :: _ => x.off
  | [] => 0

/-- Sections of a type in the table, empty ones included. -/
def tyCount (img : List Byte) (ty : Nat) : Nat := ((secsOf img).filter fun x => x.ty == ty).length

/-- A streamed section: placed in LPDDR-6 (R185). -/
def Sec.streamed (x : Sec) : Bool := x.ty == 3 && bitOf x.flags 0

/-- An image is signed: its header says so (R184). -/
def imgSigned (img : List Byte) : Bool := bitOf (leAt img 0xE 2) 0

/-- Two sections that are not empty share a byte. -/
def secsMeet (x y : Sec) : Bool := x.len != 0 && y.len != 0 && decide (x.off < y.off + y.len) && decide (y.off < x.off + x.len)

/-- A section that overlaps one that stands before it in the table. -/
def secOverlaps (img : List Byte) (x : Sec) : Bool := (secsOf img).any fun y => decide (y.idx < x.idx) && secsMeet x y

/-- The field checks of one entry of the table, each at the first byte of its field: type, flags, zero bytes, place, end, overlap. -/
def entryChecks (img : List Byte) (x : Sec) : List (Bool × LoadFail) :=
  let o := entryOff x.idx
  [ bad1 (decide (x.ty < 1) || decide (8 < x.ty)) o, bad1 (decide (1 < x.flags) || (x.flags == 1 && x.ty != 3)) (o + 1), zeroCheck img (o + 2) 2
  , bad1 (x.off % 64 != 0) (o + 4), bad1 (decide (img.length < x.off + x.len)) (o + 8), bad1 (secOverlaps img x) (o + 4) ]

/-- Sections that an image may hold of a type (R185). -/
def secLimit (ty : Nat) : Nat := match ty with | 2 => 16 | 3 => 48 | _ => 1

/-- The checks of the numbers of sections (R185): one too many of its type, or a signature that is not the last, at its entry's type; one
of the three that must be there, at its length where it is empty, or at no byte where it is missing. An empty section counts for the number
of its type (DESIGN CHOICE, log entry 49). -/
def numberChecks (img : List Byte) : List (Bool × LoadFail) :=
  (secsOf img).map (fun x =>
      bad1 (decide (secLimit x.ty ≤ ((secsOf img).filter fun y => y.ty == x.ty && decide (y.idx < x.idx)).length)
        || (x.ty == 7 && x.idx + 1 != secCount img)) (entryOff x.idx))
    ++ [1, 5, 6].map fun ty =>
      match (secsOf img).find? fun x => x.ty == ty with
      | some x => bad1 (x.len == 0) (entryOff x.idx + 8)
      | none => bad1 true 0

/-- The header flags agree with the table: signed with a signature, streamed with a streamed section. -/
def flagsAgree (img : List Byte) : Bool :=
  imgSigned img == !(secsOfTy img 7).isEmpty && bitOf (leAt img 0xE 2) 1 == (secsOfTy img 3).any (·.streamed)

/-! ## The manifest (R199) -/

/-- The manifest's header fields, its templates and its Winograd table. -/
structure Manifest where
  coresMin : Nat
  coresBuild : Nat
  tokens : Nat
  sqStatic : Nat
  lpGran : Nat
  kvBlk : Nat
  kvSeqs : Nat
  kvBlocks : Nat
  localToks : Nat
  det : Bool
  ctx : List Nat
  jobs : List Nat
  tmpls : List Template
  winograd : List (Nat × Nat)
  deriving DecidableEq, Repr

/-- Templates of a manifest. -/
def tmplCount (m : List Byte) : Nat := leAt m 2 2

/-- Template `k` of a manifest. -/
def tmplAt (m : List Byte) (k : Nat) : Template :=
  let o := 0x40 + 32 * k
  { prologue := leAt m o 4, roundStart := leAt m (o + 4) 4, roundEnd := leAt m (o + 8) 4, prio := leAt m (o + 0xC) 1
    instances := leAt m (o + 0xE) 2, tbLive := leAt m (o + 0x10) 4, tbPeak := leAt m (o + 0x14) 4 }

/-- Where the Winograd table begins. -/
def wgBase (m : List Byte) : Nat := 0x40 + 32 * tmplCount m

/-- A manifest section, read. -/
def manifestOf (m : List Byte) : Manifest :=
  { coresMin := leAt m 0 1, coresBuild := leAt m 1 1, tokens := leAt m 4 2, sqStatic := leAt m 8 4, lpGran := leAt m 0xC 4
    kvBlk := leAt m 0x10 2, kvSeqs := leAt m 0x12 2, kvBlocks := leAt m 0x14 4, localToks := leAt m 0x18 1
    det := bitOf (leAt m 0x19 1) 0, ctx := (List.range 16).map fun i => leAt m (0x20 + i) 1
    jobs := (List.range 8).map fun i => leAt m (0x30 + 2 * i) 2
    tmpls := (List.range (tmplCount m)).map (tmplAt m)
    winograd := (List.range (leAt m 6 2)).map fun k => (leAt m (wgBase m + 8 * k) 4, leAt m (wgBase m + 8 * k + 4) 1) }

/-- The checks of template entry `k`, for a manifest at image offset `o` and code of `words` words. -/
def tmplChecks (img m : List Byte) (o words k : Nat) : List (Bool × LoadFail) :=
  let t := tmplAt m k
  let e := o + 0x40 + 32 * k
  [ bad1 (decide (words ≤ t.prologue)) e, bad1 (decide (words ≤ t.roundStart)) (e + 4)
  , bad1 (decide (words ≤ t.roundEnd) || decide (t.roundEnd < t.roundStart)) (e + 8), bad1 (decide (3 < t.prio)) (e + 0xC)
  , zeroCheck img (e + 0xD) 1, bad1 (decide (t.instances < 1) || decide (4096 < t.instances)) (e + 0xE), zeroCheck img (e + 0x18) 8 ]

/-- The field checks of a manifest section at image offset `o`. -/
def manifestChecks (img m : List Byte) (o words : Nat) : List (Bool × LoadFail) :=
  let f := fun (bad : Bool) (d : Nat) => bad1 bad (o + d)
  let n := tmplCount m
  [ f (decide (m.length < 0x40)) 0, f (decide (leAt m 0 1 < 1) || decide (16 < leAt m 0 1)) 0
  , f (decide (leAt m 1 1 < leAt m 0 1) || decide (16 < leAt m 1 1)) 1, f (decide (n < 1) || decide (1024 < n)) 2
  , f (decide (4096 < leAt m 4 2)) 4, f (decide (m.length < wgBase m + 8 * leAt m 6 2)) 6, f (decide (256 < leAt m 0x10 2)) 0x10
  , f (decide (1024 < leAt m 0x12 2)) 0x12, f (decide (64 < leAt m 0x18 1)) 0x18, f (decide (1 < leAt m 0x19 1)) 0x19
  , zeroCheck img (o + 0x1A) 6, zeroCheck img (o + 0x27) 9 ]
    ++ (List.range n).flatMap (tmplChecks img m o words)
    ++ (List.range (leAt m 6 2)).flatMap fun k =>
         let e := wgBase m + 8 * k
         [f (decide (1 < leAt m (e + 4) 1)) (e + 4), zeroCheck img (o + e + 5) 3]

/-! ## Stage 1 -/

/-- Granules that hold a number of bytes. -/
def granules (n : Nat) : Nat := ceilDiv n 65536

/-- Granules that the streamed sections take in LPDDR-6. -/
def streamedGran (img : List Byte) : Nat := (((secsOfTy img 3).filter (·.streamed)).map fun x => granules x.len).sum

/-- The part code of the GLB identity registers. -/
def partCode : Nat := 0x1612

/-- The checks of stage 1 (R6, R184-R186, R199, R203) in the order of R203: what makes an image corrupt, then its version, then its part. -/
def stage1 (img : List Byte) (len : Nat) : Option LoadFail :=
  let head := img.take 128
  let ver := fun (off : Nat) => ({ status := Stat.imageVersion, stage := 1, off := off } : LoadFail)
  match firstFail
    [ bad1 (decide (len < 128)) 0, bytesCheck img 0 [0x50, 0x57, 0x4B, 0x49]
    , bad1 (crc32c (head.take 0x54 ++ [0, 0, 0, 0] ++ head.drop 0x58) != leAt img 0x54 4) 0x54
    , bad1 (leAt img 8 4 != len) 8, bad1 (decide (secCount img < 3) || decide (64 < secCount img) || decide (len < 128 + 16 * secCount img)) 0xC
    , bad1 (decide (3 < leAt img 0xE 2)) 0xE, zeroCheck img 0x58 40 ] with
  | some f => some f
  | none =>
    match firstFail ((secsOf img).flatMap (entryChecks img) ++ numberChecks img ++ [bad1 (!flagsAgree img) 0xE]) with
    | some f => some f
    | none =>
      let o := oneOff img 5
      let m := oneSec img 5
      let code := ((secsOfTy img 1).map fun x => bad1 (x.len % 8 != 0) (entryOff x.idx + 8))
      firstFail
        ((secsOfTy img 5).map (fun x => bad1 (crc32c (secBytes img x) != x.check) (entryOff x.idx + 0xC)) ++ code
          ++ manifestChecks img m o ((oneSec img 1).length / 8)
          ++ [ bad1 (decide ((manifestOf m).lpGran < streamedGran img)) (o + 0xC), (leAt img 4 2 != 0x0200, ver 4)
             , (leAt img 6 2 != partCode, ver 6) ])

/-! ## Hashes (R184, R187, R199) -/

/-- The bytes that prog_hash covers, for an image whose sections hold `f`. -/
def progMessage (img : List Byte) (f : Sec → List Byte) : List Byte :=
  img.take 0x10 ++ List.replicate 64 0 ++ (img.drop 0x50).take 4 ++ List.replicate 4 0 ++ (img.drop 0x58).take 40
    ++ (img.drop 0x80).take (16 * secCount img) ++ (((secsOf img).filter fun x => x.ty != 3 && x.ty != 7).map f).flatten

/-- One entry of a weight-reference section: device address, length, hash. -/
structure WeightRef where
  off : Nat
  addr : Nat
  len : Nat
  hash : List Byte
  deriving DecidableEq, Repr

/-- The entries of the weight-reference section; bytes past the last whole entry say nothing (DESIGN CHOICE, log entry 49). -/
def weightRefs (img : List Byte) : List WeightRef :=
  ((secsOfTy img 4).map fun x => (List.range (x.len / 48)).map fun k =>
    let o := x.off + 48 * k
    ({ off := o, addr := leAt img o 8, len := leAt img (o + 8) 8, hash := (img.drop (o + 16)).take 32 } : WeightRef)).flatten

/-- The bytes that weight_hash covers, in table order, for sections that hold `f` and referenced regions that hold `g`. -/
def weightMessage (img : List Byte) (f : Sec → List Byte) (g : WeightRef → List Byte) : List Byte :=
  ((secsOf img).map fun x =>
    if x.ty = 3 then f x else if x.ty = 4 ∧ x.len ≠ 0 then ((weightRefs img).map g).flatten else []).flatten

/-- The stage 3 checks of the weight references and of both hashes (R203). `g` reads a region; `good` says that it lies in LPDDR-6 and
could be read. -/
def hashChecks (img : List Byte) (f : Sec → List Byte) (g : WeightRef → List Byte) (good : WeightRef → Bool) : List (Bool × LoadFail) :=
  let c := fun (off : Nat) => ({ status := Stat.imageCorrupt, stage := 3, off := off } : LoadFail)
  [ (shake256 (progMessage img f) 32 != (img.drop 0x10).take 32, c 0x10)
  , ((weightRefs img).any (fun r => !good r), c (oneOff img 4))
  , (shake256 (weightMessage img f g) 32 != (img.drop 0x30).take 32, c 0x30) ]
    ++ (weightRefs img).map fun r => (r.len != 0 && shake256 (g r) 32 != r.hash, c (r.off + 16))

/-- The section checks of stage 3. -/
def crcChecks (img : List Byte) : List (Bool × LoadFail) :=
  ((secsOf img).filter fun x => x.len != 0).map fun x =>
    (crc32c (secBytes img x) != x.check, { status := Stat.imageCorrupt, stage := 3, off := x.off })

/-! ## Code (R216, R217) -/

/-- An instruction of the code section: its word offset, opcode and fields. -/
structure Ins where
  w : Nat
  op : Nat
  i : Iw
  deriving DecidableEq, Repr

/-- Words of an instruction. -/
def Ins.size (x : Ins) : Nat := wordsOfIw x.i

/-- Word `w` of a code section. -/
def wordAt (code : List Byte) (w : Nat) : DWord := BitVec.ofNat 64 (leAt code (8 * w) 8)

/-- The instructions from word `w` on, or the offset of the first illegal word. -/
def insFrom (code : List Byte) (n : Nat) : Nat → Nat → List Ins × Option Nat
  | 0, _ => ([], none)
  | f + 1, w =>
    if n ≤ w then ([], none)
    else
      let d := iwOf (wordAt code w) (wordAt code (w + 1))
      let x : Ins := { w := w, op := d.1, i := d.2 }
      if !legalWord x.op x.i || decide (n < w + x.size) then ([], some w)
      else
        let r := insFrom code n f (w + x.size)
        (x :: r.1, r.2)

/-- The instructions of a code section. -/
def insOf (code : List Byte) : List Ins × Option Nat := insFrom code (code.length / 8) (code.length / 8) 0

/-- The target of a branch, or the last word of a loop body, whose immediate is unsigned (R217, R225). -/
def Ins.target (x : Ins) : Int := (x.w : Int) + if x.op = 8 then (x.i.imm.toNat : Int) else sext x.i

/-- A word offset is the first word of an instruction. -/
def isIns (is : List Ins) (t : Int) : Bool := is.any fun y => (y.w : Int) == t

/-- A word offset lies in the body of a loop. -/
def inBody (l : Ins) (t : Int) : Bool := decide ((l.w : Int) + 1 ≤ t) && decide (t ≤ l.target)

/-- The loops whose bodies hold a word. -/
def loopsAround (ls : List Ins) (w : Nat) : List Ins := ls.filter fun l => inBody l w

/-- A branch or a loop that R217 refuses. What stands past an undecodable word at `cut` is not judged: that word is at fault. -/
def badFlow (cut : Option Nat) (is ls : List Ins) (x : Ins) : Bool :=
  let outer := loopsAround ls x.w
  let noIns := fun (t : Int) => !isIns is t && cut.elim true fun w => decide (t < (w : Int))
  if x.op = 7 then
    noIns x.target || ls.any (fun l => inBody l x.target && !inBody l x.w) || ls.any (fun l => l.target == (x.w : Int))
  else if x.op = 8 then
    noIns x.target || outer.any (fun l => decide (l.target < x.target)) || decide (8 ≤ outer.length)
      || outer.any (fun l => l.i.fd == x.i.fd)
  else false

/-- A word that the manifest makes illegal: the position of an `arr.wgconv` past its mode's points (R236), a sequence client past the
program's contexts (R255). -/
def badByManifest (m : Manifest) (x : Ins) : Bool :=
  (x.op == 0x23 && decide ((if m.winograd.lookup x.w == some 1 then 36 else 16) ≤ x.i.imm.toNat))
    || (decide (0x70 ≤ x.op) && decide (m.ctx.getD 6 0 ≤ x.i.imm.toNat % 4))

/-- The first illegal word of a program (R216, R217). -/
def illegalAt (m : Manifest) (code : List Byte) : Option Nat :=
  let (is, bad) := insOf code
  let ls := is.filter fun x => x.op == 8
  match is.find? fun x => badFlow bad is ls x || badByManifest m x with
  | some x => some x.w
  | none => bad

/-- The Winograd table holds exactly one entry for every `arr.wgconv`, and no other (R199): the word that breaks it. -/
def badWinograd (m : Manifest) (is : List Ins) : Option Nat :=
  let ws := (is.filter fun x => x.op == 0x23).map (·.w)
  match ws.find? fun w => (m.winograd.filter fun e => e.1 == w).length != 1 with
  | some w => some w
  | none => (m.winograd.find? fun e => !ws.contains e.1).map (·.1)

end Sys2Proof.Machine
end

