-- ==== Sys2Proof/Machine/SeqArr.lean ====
section
/-! DEFINITION. The array instructions (04_tensor_cores.md, 05_arithmetic.md, R234-R237): weight planes, passes in hold and wide mode,
convolution taps, Winograd positions and readout. -/

namespace Sys2Proof.Machine

open Sys2Proof

/-! ## Columns and wide rows -/

/-- The weights of a plane, one row for each loaded column. -/
def planeWeights (pl : Plane) : List ArrRow := pl.rows.map (arrRow pl.fmt)

/-- The weights of a plane in a Winograd pass over `k` input channels: 13-bit signed integers (R171, R173), in the unit of 2^-24 of every
other operand. -/
def winogradWeights (k : Nat) (pl : Plane) : List ArrRow :=
  pl.rows.map fun w => { vals := (List.range k).map fun c => some ((Config.wgWeight pl.fmt w c).toInt * 2 ^ 24), scales := [] }

/-- What one activation row adds to each of `n` columns of a plane with weights `ws`; columns past the loaded ones hold zero weights (R121). -/
def passRow (mx : Bool) (n : Nat) (pl : Plane) (ws : List ArrRow) (a : ArrRow) : List Term :=
  ws.map (columnTerm mx a) ++ List.replicate (n - ws.length) (columnTerm mx a (arrRow pl.fmt []))

/-- A value in an accumulator (R154, R158). -/
def accAdd (b : BitVec 144) (t : Term) : BitVec 144 := b + BitVec.ofInt 144 t.v

/-- Column sums added to a row of accumulators, or set in it; accumulators past the columns keep their values. -/
def sumRow (init : Bool) (old : List (BitVec 144)) (ts : List Term) : List (BitVec 144) :=
  (List.range old.length).map fun i =>
    match ts[i]? with
    | some t => accAdd (if init then 0 else old.getD i 0) t
    | none => old.getD i 0

/-- The 144-bit values of a wide row (R154). -/
def wideRow (n : Nat) (bs : List Byte) : List (BitVec 144) := (elements 144 n bs).map (BitVec.ofNat 144)

/-- The bytes of a wide row. -/
def wideBytes (vs : List (BitVec 144)) : List Byte := packBytes 144 (vs.map (·.toNat))

/-- A plane of a task. -/
def planeOf (r : TaskRegs) (n : Nat) : Plane := r.planes.getD n Plane.zero

/-- The flags that the terms of a pass set (R156, R157). -/
def setTermFlags (ts : List (List Term)) (r : TaskRegs) : TaskRegs :=
  { r with mx := r.mx || ts.any (fun l => l.any (·.mx)), nonfinite := r.nonfinite || ts.any (fun l => l.any (·.nonfinite)) }

/-- The array instruction completes: its results, and its passes, whose residue checks are then open (R117, R139). `rows`: rows that
entered the array. -/
def completePass (x : Issue) (rows : Nat) (g : TaskRegs → TaskRegs) (s : State) : State :=
  let n := ceilDiv rows 256
  s |> complete x g
    |> modTask x.t (fun k => { k with passes := k.passes + n })
    |> count (Reg.tcCnt.off x.n 0) n |> count (Reg.tcCnt.off x.n 1) rows

/-- A pass whose row `j` sums into the wide row at the offset paired with it (R118). -/
def widePass (x : Issue) (rows : Nat) (init : Bool) (n : Nat) (work : List (Nat × List Term)) (s : State) : State :=
  let es := work.map fun w => (w.1, 18 * n)
  if runsPinned x.r es then faultAt x 1 Stat.pinned s
  else
    let (bad, s) := if init then writeHits x es s else readTile x es s
    if bad then tilePoison x 1 s
    else
      completePass x rows (fun r =>
        setTermFlags (work.map (·.2))
          (work.foldl (fun r w => tbWrite w.1 (wideBytes (sumRow init (wideRow n (tbRead r w.1 (18 * n))) w.2)) r) r)) s

/-- A descriptor that takes the sums of a wide pass of at least `rows` rows (R234). -/
def wideFits (t : Tile) (rows n : Nat) : Bool := t.wide && decide (rows ≤ t.rows) && t.rowBytes == 18 * n && !t.refused && !t.rowsMeet

/-- The class of an activation descriptor on a plane, where the pass is allowed (R119). A wide descriptor names no array format. -/
def passClass (t : Tile) (pl : Plane) : Option Nat :=
  match rateClass t.fmt with
  | some c => if !t.wide && rateClass pl.fmt == some c then some c else none
  | none => none

/-! ## Weight planes -/

/-- Plane `plane` has loaded: its load is the one that runs, the oldest that has issued (R234). -/
def endLoad (plane : Nat) (r : TaskRegs) : TaskRegs := if r.loads.head? = some plane then { r with loads := r.loads.drop 1 } else r

/-- ARR_PLANE_LOAD_DONE (R116, R234): a plane's load has ended. -/
def execArrPlaneLoadDone (core plane : Nat) (s : State) : Result :=
  run (fun s =>
    match (coreOf s core).task with
    | some t => modTask t (fun k => { k with regs := endLoad plane k.regs }) s
    | none => s) s

/-- ARR_WLOAD (R116, R119-R121, R129). -/
def beginArrWload (x : Issue) (s : State) : State :=
  let i := x.i
  let t := tdOf x.r i.fa
  if t.empty then complete x id s
  else if t.refused then faultAt x 1 Stat.length s
  else match rateClass t.fmt, t.wide with
    | some c, false =>
      if t.rowBytes ≠ rowBytesOf t.fmt ∨ classN c < t.rows then faultAt x 1 Stat.length s
      else
        let (bad, s) := readTile x (t.runs t.rows) s
        if bad then tilePoison x 1 s
        else
          let pl : Plane := { desc := some (x.r.t.getD i.fa 0), fmt := t.fmt
                              rows := (List.range t.rows).map fun j => tbRead x.r (t.row j) t.rowBytes }
          complete x (fun r => { r with planes := modAt i.func (fun _ => pl) r.planes, loads := r.loads ++ [i.func] }) s
    | _, _ => faultAt x 1 Stat.badFormat s

/-- ARR_WLOAD. -/
def execArrWload (core : CoreRun) (i : Iw) (s : State) : Result :=
  issue "ARR_WLOAD" 0x20 beginArrWload core false i s

/-! ## Passes -/

/-- ARR_MMA (R117-R120, R234). -/
def beginArrMma (x : Issue) (s : State) : State :=
  let i := x.i
  let t := tdOf x.r i.fa
  let d := tdOf x.r i.fd
  let pl := planeOf x.r (i.func % 2)
  let wide := i.func.testBit 1
  let init := i.func.testBit 2
  if t.empty || (wide && d.empty) then complete x id s
  else if t.refused || (wide && d.refused) then faultAt x 1 Stat.length s
  else match passClass t pl with
    | none => faultAt x 1 Stat.badFormat s
    | some c =>
      let n := classN c
      if t.rowBytes ≠ rowBytesOf t.fmt ∨ (wide = true ∧ wideFits d t.rows n = false) then faultAt x 1 Stat.length s
      else
        let (bad, s) := readTile x (t.runs t.rows) s
        if bad then tilePoison x 1 s
        else
          let mx := isMx t.fmt || isMx pl.fmt
          let ts := (List.range t.rows).map fun j => passRow mx n pl (planeWeights pl) (arrRow t.fmt (tbRead x.r (t.row j) t.rowBytes))
          if wide then widePass x t.rows init n ((List.range t.rows).map fun j => (d.row j, ts.getD j [])) s
          else
            completePass x t.rows (fun r =>
              setTermFlags ts { r with accN := n, acc := (ts.foldl (fun (a : Bool × List (BitVec 144)) l => (false, sumRow a.1 a.2 l)) (init, r.acc)).2 }) s

/-- ARR_MMA. -/
def execArrMma (core : CoreRun) (i : Iw) (s : State) : Result :=
  issue "ARR_MMA" 0x21 beginArrMma core false i s

/-! ## Convolution -/

/-- The control word of `arr.conv` (R235). -/
structure ConvCtl where
  inW : Nat
  inH : Nat
  outW : Nat
  sx : Nat
  dx : Nat
  kw : Nat
  kx : Nat
  pbx : Nat
  pax : Nat
  deriving DecidableEq, Repr

/-- Its fields. -/
def convCtl (w : DWord) : ConvCtl :=
  let n := w.toNat
  { inW := bits n 0 12, inH := bits n 12 12, outW := bits n 24 12, sx := bits n 36 4, dx := bits n 40 4, kw := bits n 44 4
    kx := bits n 48 4, pbx := bits n 52 6, pax := bits n 58 6 }

/-- The output size along an axis (R166). -/
def outSize (h k st d pb pa : Nat) : Int := ((h : Int) + pb + pa - d * ((k : Int) - 1) - 1).fdiv st + 1

/-- A convolution's shape fault (R235). -/
def ConvCtl.bad (c : ConvCtl) : Bool :=
  c.sx == 0 || c.dx == 0 || c.kw == 0 || c.inW == 0 || c.inH == 0 || decide (c.kw ≤ c.kx)
    || decide (outSize c.inW c.kw c.sx c.dx c.pbx c.pax < (c.outW : Int))

/-- A padding position takes zero, or the nearest valid position (R168): none is zero padding. -/
def padPos (edge : Bool) (h : Nat) (p : Int) : Option Nat :=
  if 0 ≤ p ∧ p < (h : Int) then some p.toNat else if edge then some (clampI 0 ((h : Int) - 1) p).toNat else none

/-- The line-buffer row that holds image row `y`; none past the last row without the ring option (R144). -/
def lineRow (ring : Bool) (rows y : Nat) : Option Nat := if ring then some (y % rows) else if y < rows then some y else none

/-- The line-buffer offset of a pixel: `some none` is zero padding, `none` a row that the line buffer does not hold, whatever column is
asked of it (R235). -/
def pixelAt (t : Tile) (ring edge : Bool) (inW inH b : Nat) (y px : Int) : Option (Option Nat) :=
  match padPos edge inH y with
  | none => some none
  | some yy => (lineRow ring t.rows yy).map fun r => (padPos edge inW px).map fun xx => t.row r + xx * b

/-- ARR_CONV (R166-R168, R235). -/
def beginArrConv (x : Issue) (s : State) : State :=
  let i := x.i
  let t := tdOf x.r i.fa
  let d := tdOf x.r i.fd
  let pl := planeOf x.r (i.func % 2)
  let c := convCtl (sOf x.r i.fb)
  let y := (sOf x.r i.fc).toInt
  if t.empty || d.empty || c.outW == 0 then complete x id s
  else if t.refused || d.refused then faultAt x 1 Stat.length s
  else if c.bad then faultAt x 1 Stat.shape s
  else match passClass t pl with
    | none => faultAt x 1 Stat.badFormat s
    | some cl =>
      let n := classN cl
      let b := rowBytesOf t.fmt
      let px := (List.range c.outW).map fun m =>
        pixelAt t (i.func.testBit 2) (i.func.testBit 3) c.inW c.inH b y ((m * c.sx + c.dx * c.kx : Nat) - (c.pbx : Int))
      if t.rowBytes < c.inW * b ∨ px.contains none = true ∨ wideFits d c.outW n = false then faultAt x 1 Stat.length s
      else
        let offs := px.map fun p => p.join
        let (bad, s) := readTile x (offs.filterMap fun o => o.map fun a => (a, b)) s
        if bad then tilePoison x 1 s
        else
          let mx := isMx t.fmt || isMx pl.fmt
          let row := fun (o : Option Nat) => arrRow t.fmt (o.elim (List.replicate b 0) fun a => tbRead x.r a b)
          widePass x c.outW (i.func.testBit 1) n
            ((List.range c.outW).map fun m => (d.row m, passRow mx n pl (planeWeights pl) (row (offs.getD m none)))) s

/-- ARR_CONV. -/
def execArrConv (core : CoreRun) (i : Iw) (s : State) : Result :=
  issue "ARR_CONV" 0x22 beginArrConv core false i s

/-! ## Winograd -/

/-- Bᵀ of F(2×2, 3×3) and of F(4×4, 3×3) (R170, R173). -/
def wgB (f4 : Bool) : List (List Int) :=
  if f4 then [[4, 0, -5, 0, 1, 0], [0, -4, -4, 1, 1, 0], [0, 4, -4, -1, 1, 0], [0, -2, -1, 2, 1, 0], [0, 2, -1, -2, 1, 0],
              [0, 4, 0, -5, 0, 1]]
  else [[1, 0, -1, 0], [0, 1, 1, 0], [0, -1, 1, 0], [0, 1, 0, -1]]

/-- Aᵀ of the two modes. -/
def wgA (f4 : Bool) : List (List Int) :=
  if f4 then [[1, 1, 1, 1, 1, 0], [0, 1, -1, 2, -2, 0], [0, 1, 1, 4, 4, 0], [0, 1, -1, 8, -8, 1]]
  else [[1, 1, 1, 0], [0, 1, -1, -1]]

/-- An entry of a matrix. -/
def entry (m : List (List Int)) (a b : Nat) : Int := (m.getD a []).getD b 0

/-- Formats that Winograd takes (R170, R174). -/
def wgFormat (f4 : Bool) (code : Nat) : Bool := code == 0 || (!f4 && (code == 1 || code == 9))

/-- The integers of a pixel's channels. -/
def pixelInts (code : Nat) (bs : List Byte) : List Int :=
  (arrRow code bs).vals.map fun v => v.getD 0

/-- ARR_WGCONV (R168, R170-R173, R236). -/
def beginArrWgconv (x : Issue) (s : State) : State :=
  let i := x.i
  let t := tdOf x.r i.fa
  let d := tdOf x.r i.fd
  let pl := planeOf x.r (i.func % 2)
  let w := (sOf x.r i.fb).toNat
  let inW := bits w 0 12
  let inH := bits w 12 12
  let tiles := bits w 24 12
  let y := (sOf x.r i.fc).toInt
  let pos := i.imm.toNat % 64
  match x.p.winograd.lookup x.w with
  | none => s
  | some mode =>
    let f4 := mode == 1
    let m := if f4 then 4 else 2
    let p := (m + 2) * (m + 2)
    if p ≤ pos then s
    else if t.empty || d.empty || tiles == 0 then complete x id s
    else if t.refused || d.refused then faultAt x 1 Stat.length s
    else if bits w 42 22 ≠ 0 then faultAt x 1 Stat.badFormat s
    else if !wgFormat f4 t.fmt || !wgFormat f4 pl.fmt || inW == 0 || inH == 0 then faultAt x 1 Stat.shape s
    else match passClass t pl with
      | none => faultAt x 1 Stat.badFormat s
      | some cl =>
        let n := classN cl
        let b := rowBytesOf t.fmt
        let px := fun (tl a c : Nat) =>
          pixelAt t (i.func.testBit 2) (i.func.testBit 3) inW inH b (y + a) (((m * tl + c : Nat) : Int) - (bits w 36 6 : Nat))
        let cells := (List.range tiles).map fun tl =>
          (List.range (m + 2)).flatMap fun a => (List.range (m + 2)).map fun c => ((a, c), px tl a c)
        if t.rowBytes < inW * b ∨ cells.any (fun l => l.any fun e => e.2 == none) = true ∨ wideFits d (tiles * p) n = false then
          faultAt x 1 Stat.length s
        else
          let (bad, s) := readTile x ((cells.flatten.filterMap fun e => e.2.join).map fun a => (a, b)) s
          if bad then tilePoison x 1 s
          else
            let row := fun (l : List ((Nat × Nat) × Option (Option Nat))) =>
              let parts := l.map fun e =>
                let k := entry (wgB f4) (pos / (m + 2)) e.1.1 * entry (wgB f4) (pos % (m + 2)) e.1.2
                (pixelInts t.fmt (e.2.join.elim (List.replicate b 0) fun a => tbRead x.r a b)).map (k * ·)
              let sum := parts.foldl (fun a l => List.zipWith (· + ·) a l) (List.replicate (classK cl) 0)
              ({ vals := sum.map some, scales := [] } : ArrRow)
            widePass x (if f4 then 2 * tiles else tiles) (i.func.testBit 1) n
              ((List.range tiles).map fun tl => (d.row (tl * p + pos), passRow false n pl (winogradWeights (classK cl) pl) (row (cells.getD tl [])))) s

/-- ARR_WGCONV. -/
def execArrWgconv (core : CoreRun) (i : Iw) (s : State) : Result :=
  issue "ARR_WGCONV" 0x23 beginArrWgconv core false i s

/-! ## Readout -/

/-- The rows that an `arr.read` converts: the source runs, and each output row as values with, for each, the row and column that R165 counts
it by (log entry 26). -/
structure ReadPlan where
  runs : List (Nat × Nat)
  n : Nat                     -- columns
  pixels : Nat                -- pixels in an output row
  rows : Nat
  deriving DecidableEq, Repr

/-- The values of output row `j`. -/
def readRow (x : Issue) (form : Nat) (t : Tile) (pl : ReadPlan) (j : Nat) : List (BitVec 144) :=
  if form = 0 then (if x.i.func % 2 = 1 then wideRow pl.n (tbRead x.r (t.row j) (18 * pl.n)) else x.r.acc.take pl.n)
  else
    let f4 := form == 2
    let m := if f4 then 4 else 2
    let p := (m + 2) * (m + 2)
    (List.range pl.pixels).flatMap fun px =>
      let rows := (List.range p).map fun q => wideRow pl.n (tbRead x.r (t.row (px / m * p + q)) (18 * pl.n))
      (List.range pl.n).map fun c =>
        let v := ((List.range p).map fun q =>
          entry (wgA f4) j (q / (m + 2)) * entry (wgA f4) (px % m) (q % (m + 2)) * ((rows.getD q []).getD c 0).toInt).sum
        let y := BitVec.ofInt 144 v
        if f4 then y else y.sshiftRight 2

/-- The rounding of the value at index `k` of output row `j` (R165). -/
def readMode (x : Issue) (form : Nat) (ctl : ReadCtl) (pl : ReadPlan) (j k : Nat) : Rounding :=
  if !ctl.stochastic then .even
  else
    let base := (sOf x.r (x.i.imm.toNat % 32)).toNat
    if form = 0 then .stochastic (noise x.r.seed0 x.r.seed1 (base + j * 256 + k))
    else
      let m := if form = 2 then 4 else 2
      let px := k / pl.n
      .stochastic (noise x.r.seed0 x.r.seed1 (base + Config.wgRow (px / m) (j * m + px % m) * 256 + k % pl.n))

/-- A column table's rows (R161). -/
def colPars (x : Issue) (tc : Tile) (n : Nat) : List (ColPar × Bool) :=
  (List.range n).map fun c =>
    let bs := tbRead x.r (tc.row c) 16
    ({ m := signed 32 (leAt bs 0 4), r := leAt bs 4 1, bias := signed 64 (leAt bs 8 8) }, decide (127 < leAt bs 4 1) || leAt bs 5 3 != 0)

/-- ARR_READ (R122, R141, R160-R165, R171, R173, R237). A plain readout gives the N elements of the pass that last summed into the
accumulators; a source that is no wide tile faults with LENGTH, as R234 says of a wide destination, and a Winograd form into a wide
descriptor with BAD_FORMAT (log entry 41). -/
def beginArrRead (x : Issue) (s : State) : State :=
  let i := x.i
  let mismatch := x.mismatch
  let form := i.func / 2
  let src := i.func != 0
  let t := tdOf x.r i.fa
  let d := tdOf x.r i.fd
  let m := if form = 2 then 4 else 2
  let p := (m + 2) * (m + 2)
  let w := bits i.imm.toNat 5 12
  let n := if src then t.rowBytes / 18 else x.r.accN
  let cw := sOf x.r i.fb
  let ctl := readCtl cw
  let tc := tdOf x.r i.fc
  let table := ctl.percol && !d.wide
  if (src && t.empty) || d.empty || (form != 0 && w == 0) then complete x id s
  else if (src && (t.refused || !t.wide || (n != 256 && n != 128) || t.rowBytes != 18 * n)) || d.refused || d.rowsMeet then
    faultAt x 1 Stat.length s
  else if (form ≠ 0 ∧ d.wide = true) ∨ (d.wide = false ∧ (readable d.fmt = false ∨ readCtlBad cw = true)) then
    faultAt x 1 Stat.badFormat s
  else
    let pl : ReadPlan :=
      if form = 0 then { runs := if src then t.runs t.rows else [], n := n, pixels := 1, rows := if src then t.rows else 1 }
      else { runs := t.runs t.rows, n := n, pixels := w, rows := m }
    let len := if d.wide then 18 * n else (pl.pixels * n * elemBits d.fmt + 7) / 8
    if (form ≠ 0 ∧ (t.rows % p ≠ 0 ∨ m * (t.rows / p) < w)) ∨ d.rows < pl.rows ∨ d.rowBytes < len
        ∨ (table = true ∧ (tc.refused = true ∨ tc.rows < n ∨ tc.rowBytes < 16)) then faultAt x 1 Stat.length s
    else
      let (bad, s) := readTile x (pl.runs ++ (if table then tc.runs n else [])) s
      if bad then tilePoison x 1 s
      else
        let pars := if table then colPars x tc n else []
        if pars.any (·.2) then faultAt x 1 Stat.badFormat s
        else if mismatch && !d.wide then coreError x.n 0 s
        else
          let par := fun (c : Nat) => if table then (pars.getD c (⟨0, 0, 0⟩, false)).1 else { m := ctl.m, r := ctl.r, bias := 0 }
          let out := fun (j : Nat) =>
            let vs := readRow x form t pl j
            if d.wide then wideBytes vs
            else packBytes (elemBits d.fmt) (vs.zipIdx.map fun e =>
              readValue ctl (par (e.2 % n)) d.fmt (readMode x form ctl pl j e.2) e.1.toInt)
          storeRuns x 1 ((List.range pl.rows).map fun j => (d.row j, out j)) s

/-- ARR_READ. -/
def execArrRead (core : CoreRun) (i : Iw) (mismatch : Bool) (s : State) : Result :=
  issue "ARR_READ" 0x24 beginArrRead core mismatch i s

end Sys2Proof.Machine
end

