-- ==== Sys2Proof/Machine/Static.lean ====
section
/-! DEFINITION. What the loader sees in the code without running it (R203): which words a template reaches, which registers hold constants
there, and from them the static lengths, formats and shapes that refuse a load (R119, R126, R158, R164, R166, R170, R174). No rule says
what makes a value static: here it is one that every path to the word gives the same (log entry 101). -/

namespace Sys2Proof.Machine

open Sys2Proof

/-! ## Reached words -/

/-- The instruction covers a word offset. -/
def Ins.covers (x : Ins) (w : Nat) : Bool := coversWord x.w x.size w

/-- The word after an instruction of a template whose last word falls through. -/
def afterIns (t : Template) (x : Ins) : Nat := if x.covers t.roundEnd then t.roundStart else x.w + x.size

/-- The words that can follow an instruction of a template: the next one, a target, the first word of a loop that it ends. -/
def nextWords (is : List Ins) (t : Template) (x : Ins) : List Nat :=
  let again := (is.filter fun l => l.op == 8 && x.covers l.target.toNat).map fun l => l.w + 1
  let on :=
    if x.op = 7 then x.target.toNat :: (if x.i.pe then [afterIns t x] else [])
    else if x.op = 0xA ∧ x.i.pe = false then []
    else if x.op = 8 then afterIns t x :: ((is.filter fun y => (y.w : Int) == x.target).map (afterIns t))
    else [afterIns t x]
  on ++ again

/-! ## Constants -/

/-- What is known before a word: scalar registers, descriptors and the formats of the planes; none where paths differ. -/
structure Consts where
  s : List (Option DWord)
  t : List (Option DWord)
  fmt : List (Option Nat)
  deriving DecidableEq, Repr

/-- What is known at a prologue (R188, R234). -/
def Consts.prologue : Consts :=
  { s := [none, none] ++ List.replicate 30 (some 0), t := List.replicate 32 (some 0), fmt := [some 0, some 0] }

/-- What two paths agree on. -/
def Consts.join (a b : Consts) : Consts :=
  let meet := fun (x y : Option DWord) => if x == y then x else none
  { s := List.zipWith meet a.s b.s, t := List.zipWith meet a.t b.t
    fmt := List.zipWith (fun x y => if x == y then x else none) a.fmt b.fmt }

/-- A scalar register. -/
def Consts.sc (c : Consts) (n : Nat) : Option DWord := (c.s.getD n none)
/-- A descriptor. -/
def Consts.td (c : Consts) (n : Nat) : Option Tile := (c.t.getD n none).map tileOf
/-- Writes a scalar register. -/
def Consts.setS (n : Nat) (v : Option DWord) (c : Consts) : Consts := { c with s := modAt n (fun _ => v) c.s }
/-- Writes a descriptor. -/
def Consts.setT (n : Nat) (v : Option DWord) (c : Consts) : Consts := { c with t := modAt n (fun _ => v) c.t }

/-- The base of a descriptor moved by an immediate, where it stays in range (R224). -/
def movedBase (x : Ins) (d : DWord) : Option DWord :=
  let b : Int := (bits d.toNat 0 16 : Int) + sext x.i
  if b < 0 ∨ 65535 < b then none else some (tdWith d 0 16 b.toNat)

/-- What is known after an instruction has completed. -/
def Consts.after (x : Ins) (c : Consts) : Consts :=
  let i := x.i
  match x.op with
  | 0x01 => c.setS i.fd (match c.sc i.fa, c.sc i.fb with | some a, some b => some (alu i.func a b) | _, _ => none)
  | 0x02 => c.setS i.fd ((c.sc i.fa).map fun a => alu i.func a (xOrImm i))
  | 0x03 => c.setS i.fd (some (xOrImm i))
  | 0x04 => if i.func = 1 then c.setS i.fd none else c
  | 0x0C =>
    match i.func with
    | 0 => c.setT i.fd (c.sc i.fa)
    | 1 => c.setT i.fd (some i.x)
    | 2 => c.setS i.fd (c.t.getD i.fa none)
    | 3 => c.setT i.fd ((c.t.getD i.fa none).bind (movedBase x))
    | _ => c.setT i.fd (match c.t.getD i.fa none, c.sc i.fb with
      | some d, some n => if n.toNat < 4096 then some (tdWith d 33 12 n.toNat) else none
      | _, _ => none)
  | 0x0D => if i.func = 3 ∨ i.func = 4 ∨ i.func = 6 then c else c.setS i.fd none
  | 0x20 =>
    match c.td i.fa with
    | some t => if t.empty then c else { c with fmt := modAt i.func (fun _ => some t.fmt) c.fmt }
    | none => { c with fmt := modAt i.func (fun _ => none) c.fmt }
  | _ => (writesS x.op i).foldl (fun c n => c.setS n none) c

/-- What is known before the words that follow an instruction. -/
def Consts.out (x : Ins) (c : Consts) : Consts := if x.i.pe then c.join (c.after x) else c.after x

/-- What is known before each reached word of a template. -/
abbrev Flow := List (Nat × Consts)

/-- A word is reached with what is known on one more path. -/
def meetAt (w : Nat) (c : Consts) : Flow → Flow
  | [] => [(w, c)]
  | e :: es => if e.1 = w then (w, e.2.join c) :: es else e :: meetAt w c es

/-- One round of the analysis over all instructions. -/
def flowRound (is : List Ins) (t : Template) (f : Flow) : Flow :=
  is.foldl (fun f x => match f.lookup x.w with
    | some c => (nextWords is t x).foldl (fun f w => meetAt w (c.out x) f) f
    | none => f) f

/-- The analysis of a template: rounds until nothing changes. Every register of every word changes at most once. -/
def flowFrom (is : List Ins) (t : Template) : Nat → Flow → Flow
  | 0, f => f
  | n + 1, f =>
    let g := flowRound is t f
    if g == f then f else flowFrom is t n g

/-- What is known at each word that a template reaches. -/
def flowOf (is : List Ins) (t : Template) : Flow := flowFrom is t (67 * is.length + 1) [(t.prologue, Consts.prologue)]

/-! ## Lengths and formats (R119, R126, R164) -/

/-- The class of a pass whose two formats are static: none for a pass that is not allowed (R119). -/
def staticClass (t : Tile) (fmt : Option Nat) : Option (Option Nat) :=
  match rateClass t.fmt, t.wide, fmt with
  | some c, false, some f => some (if rateClass f == some c then some c else none)
  | some _, false, none => none
  | _, _, _ => some none

/-- A static descriptor and what is known of a destination: a condition on both. -/
def both (d : Option Tile) (f : Tile → Bool) : Bool := d.elim false fun d => !d.empty && f d

/-- The status of LENGTH or BAD_FORMAT with which an instruction cannot but end, by its static descriptors and operands. -/
def staticFail (c : Consts) (x : Ins) : Option Nat :=
  let i := x.i
  let len := fun (b : Bool) => (b, Stat.length)
  let fmt := fun (b : Bool) => (b, Stat.badFormat)
  let on := fun (t : Option Tile) (f : Tile → List (Bool × Nat)) =>
    match t with
    | some t => if t.empty then none else firstStatus (f t)
    | none => none
  let past := fun (n m : Nat) => (c.sc n).elim false fun v => decide (m ≤ v.toNat)
  match x.op with
  | 0x08 => firstStatus [len (past i.fa (2 ^ 32))]
  | 0x0C =>
    firstStatus [len (i.func == 3 && (c.t.getD i.fa none).elim false fun d => (movedBase x d).isNone), len (i.func == 4 && past i.fb 4096)]
  | 0x0E => firstStatus [len (past i.fa 8193)]
  | 0x40 => firstStatus [len (past i.fb 65)]
  | 0x10 | 0x11 =>
    on (c.td i.fd) fun t =>
      [len (t.refused || (x.op == 0x10 && t.rowsMeet)), len (i.func.testBit 2 && !i.func.testBit 1 && past i.fc t.rows)]
  | 0x12 =>
    on (c.td i.fa) fun a =>
      [len (both (c.td i.fd) fun d => a.refused || d.refused || d.rowsMeet || a.rowBytes != d.rowBytes || decide (d.rows < a.rows))]
  | 0x13 => on (c.td i.fd) fun d => [len (d.refused || d.rowsMeet)]
  | 0x20 =>
    on (c.td i.fa) fun t =>
      [len t.refused, fmt (t.wide || (rateClass t.fmt).isNone)
      , len (t.rowBytes != rowBytesOf t.fmt || decide (classN ((rateClass t.fmt).getD 0) < t.rows))]
  | 0x21 =>
    on (c.td i.fa) fun t =>
      let wide := i.func.testBit 1
      let cl := staticClass t (c.fmt.getD (i.func % 2) none)
      [ len (if wide then both (c.td i.fd) fun d => t.refused || d.refused else t.refused), fmt (cl == some none)
      , len (t.rowBytes != rowBytesOf t.fmt && (!wide || both (c.td i.fd) fun _ => true))
      , len (wide && both (c.td i.fd) fun d => (cl.join).elim false fun k => !wideFits d t.rows (classN k)) ]
  | 0x22 | 0x23 =>
    on (c.td i.fa) fun t =>
      let cl := staticClass t (c.fmt.getD (i.func % 2) none)
      let w := (c.sc i.fb).map (·.toNat)
      let some_ := both (c.td i.fd) (fun _ => true) && w.elim false fun w => bits w 24 12 != 0
      [ len (both (c.td i.fd) fun d => t.refused || d.refused), fmt (x.op == 0x23 && some_ && w.elim false fun w => bits w 42 22 != 0)
      , fmt (x.op == 0x22 && cl == some none)
      , len (x.op == 0x22 && both (c.td i.fd) fun d => (cl.join).elim false fun k => !wideFits d d.rows (classN k))
      , len (some_ && w.elim false fun w => decide (t.rowBytes < bits w 0 12 * rowBytesOf t.fmt))
      , len (x.op == 0x22 && both (c.td i.fd) fun d => w.elim false fun w => decide (d.rows < bits w 24 12)) ]
  | 0x24 =>
    let form := i.func / 2
    let w := bits i.imm.toNat 5 12
    let m := if form = 2 then 4 else 2
    let group := (m + 2) * (m + 2)
    let src := c.td i.fa
    let n := if i.func = 0 then some 128 else src.map fun t => t.rowBytes / 18
    let goes := (i.func == 0 || both src fun _ => true) && (form == 0 || w != 0)
    let small := fun (d : Tile) =>
      let rows := if i.func = 0 then some 1 else if form = 0 then src.map (·.rows) else some m
      let cols := n.map fun n => (if form = 0 then 1 else w) * n
      rows.elim false (fun r => decide (d.rows < r))
        || cols.elim false fun k => decide (d.rowBytes < if d.wide then 18 * k else (k * elemBits d.fmt + 7) / 8)
    let ctl := (c.sc i.fb).map readCtl
    on (c.td i.fd) fun d =>
      [ len ((i.func == 0 || both (c.td i.fa) fun _ => true) && (form == 0 || bits i.imm.toNat 5 12 != 0) && (d.refused || d.rowsMeet))
      , len ((form == 0 || bits i.imm.toNat 5 12 != 0) && i.func != 0 && both (c.td i.fa) fun t =>
          t.refused || !t.wide || (t.rowBytes != 4608 && t.rowBytes != 2304))
      , fmt ((form == 0 || bits i.imm.toNat 5 12 != 0) && (if d.wide then form != 0 else !readable d.fmt))
      , fmt (goes && !d.wide && (c.sc i.fb).elim false readCtlBad)
      , len (goes && form != 0 && both src fun t => t.rows % group != 0 || decide (m * (t.rows / group) < w))
      , len (goes && small d)
      , len (goes && !d.wide && ctl.elim false (·.percol) && (c.td i.fc).elim false fun tc =>
          tc.refused || decide (tc.rowBytes < 16) || n.elim false fun n => decide (tc.rows < n)) ]
  | 0x30 => on (c.td i.fa) fun t => [len (t.refused || decide (t.rowBytes < i.imm.toNat % 0x2000 + 256)), len (i.func != 1 && past i.fb t.rows)]
  | 0x31 =>
    on (c.td i.fd) fun t =>
      [len (t.refused || t.rowsMeet || decide (t.rowBytes < i.imm.toNat % 0x2000 + 256)), len (i.func != 1 && past i.fb t.rows)]
  | 0x37 => firstStatus [fmt (!convertible (i.imm.toNat % 32) || !convertible (bits i.imm.toNat 8 5))]
  | 0x3C =>
    match firstStatus [fmt (!isMx (i.imm.toNat % 32))] with
    | some st => some st
    | none => on (c.td i.fd) fun t => [len (t.refused || t.rowsMeet), len (past i.fb t.rows)]
  | 0x60 => on (c.td i.fb) fun t => [len (t.refused || decide (1016 < t.rows * t.rowBytes))]
  | _ => none

/-! ## Shapes (R158, R166, R170, R174) -/

/-- A shape that the loader refuses: a control word that faults with SHAPE whatever else it meets (R166, R212, R235, R236), a Winograd pass on
formats that its mode does not take (R170, R174). -/
def staticShape (m : Manifest) (c : Consts) (x : Ins) : Bool :=
  let i := x.i
  match x.op with
  | 0x22 =>
    (c.sc i.fb).elim false fun w =>
      let k := convCtl w
      k.outW != 0 && k.bad
  | 0x23 =>
    (c.sc i.fb).elim false (fun w => bits w.toNat 24 12 != 0 && (bits w.toNat 0 12 == 0 || bits w.toNat 12 12 == 0)) ||
    let f4 := m.winograd.lookup x.w == some 1
    both (c.td i.fa) (fun t => t.wide || !wgFormat f4 t.fmt) || (c.fmt.getD (i.func % 2) none).elim false fun f => !wgFormat f4 f
  | _ => false

/-- What a stretch of code does to one reduction: whether it begins it anew, what it then holds (none where that is not static), what it
adds before it begins it anew, and the longest that it is seen to reach within. -/
structure Chain where
  init : Bool
  add : Option Nat
  head : Nat
  peak : Nat
  deriving DecidableEq, Repr

/-- Code that leaves the reduction alone. -/
def Chain.none_ : Chain := { init := false, add := some 0, head := 0, peak := 0 }

/-- Code after which the reduction's length is not static. -/
def Chain.lost : Chain := { init := true, add := none, head := 0, peak := 0 }

/-- One stretch after another. -/
def Chain.seq (a b : Chain) : Chain :=
  let upto := fun (n : Nat) => a.add.elim 0 (· + n)
  { init := a.init || b.init
    add := if b.init then b.add else match a.add, b.add with | some x, some y => some (x + y) | _, _ => none
    head := if a.init then a.head else a.add.elim a.head fun n => max a.head (n + b.head)
    peak := max (max a.peak b.peak) (if a.init then upto b.head else 0) }

/-- A stretch that runs `n` times; not static where `n` is not known. -/
def Chain.times (n : Option Nat) (a : Chain) : Chain :=
  match n with
  | some 0 => Chain.none_
  | some k =>
    if a.init then { a with peak := max a.peak (if k = 1 then 0 else a.add.elim 0 (· + a.head)) }
    else { a with add := a.add.map (k * ·), head := k * a.head }
  | none => { (if a == Chain.none_ then a else Chain.lost) with peak := a.peak }

/-- A reduction: the accumulators, or the wide tile that a descriptor names. -/
abbrev RedKey := Option DWord

/-- An instruction writes the tile buffer through descriptor fd, and may touch the wide tile that `key` names: its extent is not known, or
meets the tile's. -/
def mayTouch (c : Consts) (key : RedKey) (x : Ins) : Bool :=
  key.elim false fun k => (c.td x.i.fd).elim true fun d => extentsMeet d.extent (tileOf k).extent

/-- What one instruction adds to a reduction (R118, R154): elements of every row that a pass sums, and none where it begins anew. Code
that otherwise writes the bytes of a wide tile ends the loader's sight of it, and a guarded pass of its sum. -/
def chainOf (c : Consts) (key : RedKey) (x : Ins) : Chain :=
  let i := x.i
  let wide := x.op == 0x22 || x.op == 0x23 || (x.op == 0x21 && i.func.testBit 1)
  let init := if x.op = 0x21 then i.func.testBit 2 else i.func.testBit 1
  let pass := decide (0x21 ≤ x.op) && decide (x.op ≤ 0x23)
  let mine := if wide then key.isSome && c.t.getD i.fd none == key else key.isNone
  if pass then
    if !mine then (if wide && mayTouch c key x then Chain.lost else Chain.none_)
    else if x.i.pe then Chain.lost
    else match (c.td i.fa).bind fun t => (rateClass t.fmt).map fun k => (if wide then 1 else t.rows) * classK k with
      | some n => { init := init, add := some n, head := if init then 0 else n, peak := if init then n else 0 }
      | none => Chain.lost
  else if [0x10, 0x12, 0x13, 0x24, 0x31, 0x3C].contains x.op && mayTouch c key x then Chain.lost
  else Chain.none_

/-- The passes of a loop as its count gives them. -/
def tripsOf (f : Flow) (l : Ins) : Option Nat :=
  if l.i.pe then none else ((f.lookup l.w).bind fun c => c.sc l.i.fa).map (·.toNat)

/-- The chain of a run of instructions in program order: a loop's body counts as often as it runs, and a branch ends the loader's sight. -/
def chainRun (f : Flow) (key : RedKey) : Nat → List Ins → Chain
  | 0, _ => Chain.lost
  | _ + 1, [] => Chain.none_
  | n + 1, x :: xs =>
    if x.op = 8 then
      let body := xs.takeWhile fun y => decide ((y.w : Int) ≤ x.target)
      let rest := xs.dropWhile fun y => decide ((y.w : Int) ≤ x.target)
      ((chainRun f key n body).times (tripsOf f x)).seq (chainRun f key n rest)
    else if x.op = 7 then Chain.lost.seq (chainRun f key n xs)
    else ((f.lookup x.w).elim Chain.none_ fun c => chainOf c key x).seq (chainRun f key n xs)

/-- The reached instructions of a template's prologue and of its round, each in program order (log entry 102). -/
def partsOf (is : List Ins) (t : Template) (f : Flow) : List Ins × List Ins :=
  let r := is.filter fun x => (f.lookup x.w).isSome
  let inRound := fun (x : Ins) => decide (t.roundStart ≤ x.w) && decide (x.w ≤ t.roundEnd)
  (r.filter fun x => !inRound x, r.filter inRound)

/-- Some static reduction of a template is longer than 2^24 elements (R158): the last pass of the shortest stretch that shows it. -/
def longReduction (is : List Ins) (t : Template) (f : Flow) : Option Nat :=
  let (pro, round) := partsOf is t f
  let all := pro ++ round
  let passes := all.filter fun x => decide (0x21 ≤ x.op) && decide (x.op ≤ 0x23)
  let keys : List RedKey := none :: (passes.filterMap fun x => ((f.lookup x.w).bind fun c => c.t.getD x.i.fd none).map some)
  let long := fun (xs : List Ins) (k : RedKey) =>
    let c := chainRun f k (xs.length + 1) xs
    decide (2 ^ 24 < max c.peak c.head)
  match keys.find? (long all) with
  | none => none
  | some k =>
    let n := ((List.range (all.length + 1)).find? fun n => long (all.take n) k).getD all.length
    ((passes.filter fun x => (all.take n).contains x).getLast?).map (·.w)

/-! ## The checks of stage 3 -/

/-- The flows of a manifest's templates. -/
def flowsOf (is : List Ins) (m : Manifest) : List (Template × Flow) := m.tmpls.map fun t => (t, flowOf is t)

/-- The first instruction that a test refuses in some template; where no template reaches it, by what stands in its word alone. -/
def firstStatic {α : Type} (is : List Ins) (fs : List (Template × Flow)) (test : Consts → Ins → Option α) : Option (Nat × α) :=
  let blind : Consts := { s := List.replicate 32 none, t := List.replicate 32 none, fmt := [none, none] }
  is.findSome? fun x =>
    let cs := fs.filterMap fun f => f.2.lookup x.w
    ((if cs.isEmpty then [blind] else cs).findSome? fun c => test c x).map fun v => (x.w, v)

/-- Static lengths and formats: the word and the status. -/
def badStatic (is : List Ins) (fs : List (Template × Flow)) : Option (Nat × Nat) := firstStatic is fs staticFail

/-- Static shapes: the word. -/
def badShape (m : Manifest) (is : List Ins) (fs : List (Template × Flow)) : Option Nat :=
  match firstStatic is fs (fun c x => if staticShape m c x then some () else none) with
  | some e => some e.1
  | none => fs.findSome? fun f => longReduction is f.1 f.2

end Sys2Proof.Machine
end

