-- ==== Sys2Proof/Machine/Graph.lean ====
section
/-! DEFINITION. The token graph (R196-R198, R249, R389): the segments and edges that the loader derives from the code, and the conditions
under which it accepts them. -/

namespace Sys2Proof.Machine

open Sys2Proof

/-! ## Token operands -/

/-- A tok instruction. -/
def Ins.isTok (x : Ins) : Bool := decide (0x50 ≤ x.op) && decide (x.op ≤ 0x52)

/-- A tok instruction names a global token. -/
def Ins.global (x : Ins) : Bool := x.op != 0x52 && x.i.func.testBit 0

/-- The global token that a tok instruction names for an instance (R249). -/
def Ins.token (x : Ins) (inst : Nat) : Nat := x.i.imm.toNat % 4096 + inst * bits x.i.imm.toNat 12 12

/-- A wait on a global token. -/
def Ins.waitsGlobal (x : Ins) : Bool := x.op == 0x50 && x.global

/-- A signal of a global token. -/
def Ins.sigsGlobal (x : Ins) : Bool := x.op == 0x51 && x.global

/-- The tok instructions that a template reaches. -/
def tokInsOf (is : List Ins) (f : Flow) : List Ins := is.filter fun x => x.isTok && (f.lookup x.w).isSome

/-- A token declaration: tagged, external, template of a job token, initial count. -/
abbrev TokDecl := Bool × Bool × Option Nat × Nat

/-- A token that tok.sig signals: no external one, and no job's (R251). -/
def TokDecl.internal (d : TokDecl) : Bool := !d.2.1 && d.2.2.1.isNone

/-- A tok instruction that the manifest or the declarations refuse for some of `n` instances (R249). -/
def badTok (m : Manifest) (ds : List TokDecl) (n : Nat) (x : Ins) : Bool :=
  if x.global then
    (List.range n).any fun inst =>
      decide (m.tokens ≤ x.token inst) || ((ds[x.token inst]?).elim true fun d => d.1 != x.i.func.testBit 1)
  else decide (m.localToks ≤ x.i.imm.toNat % 64)

/-- The same of a tok instruction whether or not a template reaches it: every template has an instance 0. -/
def badIdleTok (m : Manifest) (ds : List TokDecl) (x : Ins) : Bool := x.isTok && badTok m ds 1 x

/-! ## Segments and edges (R196) -/

/-- A segment: its instance and its instructions in program order. -/
structure Segment where
  tmpl : Nat
  inst : Nat
  ins : List Ins
  deriving DecidableEq, Repr

/-- Instructions cut at every wait on a global token, which begins the next segment. -/
def cutAt : List Ins → List (List Ins)
  | [] => [[]]
  | x :: xs =>
    match cutAt xs with
    | [] => [[x]]
    | y :: ys => if x.waitsGlobal then [] :: (x :: y) :: ys else (x :: y) :: ys

/-- The segments of an instance: its prologue's, then its round's. -/
def segmentsOf (parts : List Ins × List Ins) (tmpl inst : Nat) : List Segment :=
  (cutAt parts.1 ++ cutAt parts.2).map fun l => { tmpl := tmpl, inst := inst, ins := l }

/-- The segments of a program, in template and instance order. -/
def allSegments (is : List Ins) (fs : List (Template × Flow)) : List Segment :=
  fs.zipIdx.flatMap fun e =>
    let parts := partsOf is e.1.1 e.1.2
    (List.range e.1.1.instances).flatMap fun i => segmentsOf parts e.2 i

/-- The tokens that a segment waits on or signals. -/
def Segment.tokens (g : Segment) (sel : Ins → Bool) : List Nat := ((g.ins.filter sel).map (·.token g.inst)).eraseDups

/-- An edge between two segments: along program order (0), or for a token (its index plus 1). -/
abbrev GraphEdge := Nat × Nat × Nat

/-- The edges of a program's segments. -/
def edgesOf (ds : List TokDecl) (gs : List Segment) : List GraphEdge :=
  let ix := gs.zipIdx
  let next := (ix.zip (ix.drop 1)).filterMap fun e =>
    if e.1.1.tmpl = e.2.1.tmpl ∧ e.1.1.inst = e.2.1.inst then some (e.1.2, e.2.2, 0) else none
  let toks := ix.flatMap fun a => (a.1.tokens Ins.sigsGlobal).flatMap fun k =>
    if (ds[k]?).elim false TokDecl.internal then
      ix.filterMap fun b => if (b.1.tokens Ins.waitsGlobal).contains k then some (a.2, b.2, k + 1) else none
    else []
  next ++ toks

/-! ## Conditions (R197) -/

/-- How often an instruction of the round runs in one round, by the loops of the round that hold it: none where a count is not static. -/
def timesIn (round : List Ins) (f : Flow) (x : Ins) : Option Nat :=
  (loopsAround (round.filter fun l => l.op == 8) x.w).foldl (fun n l =>
    match n, tripsOf f l with
    | some a, some b => some (a * b)
    | _, _ => none) (some 1)

/-- What the instances of a template signal to or wait on a token in one round. -/
def roundTotal (is : List Ins) (t : Template) (f : Flow) (sel : Ins → Bool) (k : Nat) : Nat :=
  let (_, round) := partsOf is t f
  (((round.filter sel).map fun x =>
    ((List.range t.instances).filter fun i => x.token i == k).length * (tokAmt x.i * (timesIn round f x).getD 0))).sum

/-- The total over all templates. -/
def roundSum (is : List Ins) (fs : List (Template × Flow)) (sel : Ins → Bool) (k : Nat) : Nat :=
  (fs.map fun e => roundTotal is e.1 e.2 sel k).sum

/-- An instruction lies in a loop that a backward branch makes, whose count is not static (R197, R217). -/
def branchedBack (round : List Ins) (x : Ins) : Bool :=
  round.any fun y => y.op == 7 && decide (y.target ≤ (x.w : Int)) && decide (x.w ≤ y.w)

/-- A global tok instruction of a round stands in a loop whose count is not static (R197). -/
def looseLoop (is : List Ins) (fs : List (Template × Flow)) : Option Nat :=
  fs.findSome? fun e =>
    let (_, round) := partsOf is e.1 e.2
    (round.find? fun x => x.isTok && x.global && ((timesIn round e.2 x).isNone || branchedBack round x)).map (·.w)

/-- The instances that wait on a token. -/
def waitersOf (gs : List Segment) (k : Nat) : List (Nat × Nat) :=
  ((gs.filter fun g => (g.tokens Ins.waitsGlobal).contains k).map fun g => (g.tmpl, g.inst)).eraseDups

/-- What one declaration needs of the code (R197): rounds in balance, no wait without a signal, a job token waited on by one task of the
template that issues the job, no initial count on a tagged token. -/
def tokenHolds (is : List Ins) (fs : List (Template × Flow)) (gs : List Segment) (d : TokDecl) (k : Nat) : Bool :=
  let ws := waitersOf gs k
  (!d.1 || d.2.2.2 == 0)
    && (!d.internal || d.1 || roundSum is fs Ins.sigsGlobal k == roundSum is fs Ins.waitsGlobal k)
    && (!d.internal || ws.isEmpty || gs.any fun g => (g.tokens Ins.sigsGlobal).contains k)
    && d.2.2.1.elim true fun j => decide (ws.length ≤ 1) && ws.all fun w => w.1 == j

/-- The edges that stay for the search for cycles: a counting token's go where its initial count covers what a round waits for. -/
def keptEdges (is : List Ins) (fs : List (Template × Flow)) (ds : List TokDecl) (es : List GraphEdge) : List GraphEdge :=
  es.filter fun e =>
    match e.2.2 with
    | 0 => true
    | k + 1 => (ds[k]?).elim true fun d => d.1 || decide (d.2.2.2 < roundSum is fs Ins.waitsGlobal k)

/-- The nodes among `ns` that some edge from another of them enters, taken again until no node goes: those on or behind a cycle. -/
def stuckNodes (es : List GraphEdge) : Nat → List Nat → List Nat
  | 0, ns => ns
  | f + 1, ns =>
    let rest := ns.filter fun n => es.any fun e => e.2.1 == n && ns.contains e.1
    if rest.length = ns.length then ns else stuckNodes es f rest

/-- The graph holds (R196, R197): it is the one that the section spells, within the limits, its tokens in order, and without a cycle. -/
def graphHolds (is : List Ins) (fs : List (Template × Flow)) (ds : List TokDecl) (g : List Byte) : Bool :=
  let gs := allSegments is fs
  let es := edgesOf ds gs
  let spelt := gs.map fun x => (x.tmpl, x.inst, (x.ins.head?).elim 0 (·.w), x.ins.length)
  decide (gs.length ≤ 65536) && decide (es.length ≤ 262144) && Config.graphSpelt g == (spelt, es)
    && (ds.zipIdx.all fun d => tokenHolds is fs gs d.1 d.2)
    && (stuckNodes (keptEdges is fs ds es) gs.length (List.range gs.length)).isEmpty

/-- A counting token is waited on by more than one instance (R389). -/
def sharedCount (ds : List TokDecl) (gs : List Segment) : Bool :=
  ds.zipIdx.any fun d => !d.1.1 && decide (1 < (waitersOf gs d.2).length)

/-- The token checks of stage 3: the first faulty instruction, or the graph section where no one instruction is at fault. -/
def badTokens (m : Manifest) (img : List Byte) (is : List Ins) (fs : List (Template × Flow)) (det : Bool) : Option Nat :=
  let g := oneSec img 6
  let ds := Config.tokenDecls g
  let word := fun (w : Nat) => oneOff img 1 + 8 * w
  let bad := is.find? fun x => badIdleTok m ds x || fs.any fun e => (tokInsOf is e.2).contains x && badTok m ds e.1.instances x
  match bad, looseLoop is fs with
  | some x, _ => some (word x.w)
  | none, some w => some (word w)
  | none, none =>
    if ds.length ≠ m.tokens ∨ graphHolds is fs ds g = false ∨ (det = true ∧ sharedCount ds (allSegments is fs) = true) then
      some (oneOff img 6)
    else none

end Sys2Proof.Machine
end

