-- ==== Sys2Proof/Machine/Load.lean ====
section
/-! DEFINITION. The loader (R184-R212, R279, R386, R389, R548, R550): loads and unloads of programs. -/

namespace Sys2Proof.Machine

open Sys2Proof

/-! ## Resources (R200, R208) -/

/-- The sizes of the context pools. -/
def poolSizes : List Nat := [16, 32, 16, 8, 16, 16, 4, 0, 0, 0, 0, 0, 0, 0, 0, 0]

/-- A shortfall entry: code, index, needed, available, unit. -/
abbrev Short := Nat × Nat × Nat × Nat × Nat

/-- Allocations that a program takes: granules and kind of each (R190, R199): sections, the static area, save areas, each an allocation of
its own and in this order, which no rule gives (log entry 103). -/
def allocsOf (img : List Byte) (m : Manifest) : List (Nat × Nat) :=
  ((secsOfTy img 1 ++ secsOfTy img 2 ++ (secsOfTy img 3).filter fun x => !x.streamed).map fun x => (granules x.len, 0))
    ++ (if m.sqStatic = 0 then [] else [(m.sqStatic, 2)])
    ++ (m.tmpls.map fun t => List.replicate t.instances (granules (t.tbLive + 13696), 1)).flatten

/-- The device contexts of a pool that no program holds, ascending. -/
def freeCtx (s : State) (pool : Nat) : List Nat :=
  (List.range (poolSizes.getD pool 0)).filter fun c => !(s.progs.any fun p => (p.ctxIds.getD pool []).contains c)

/-- A sequence ID that some program's range holds. -/
def idHeld (s : State) (i : Nat) : Bool := s.progs.any fun p => decide (p.idFirst ≤ i) && decide (i < p.idFirst + p.kvSeqs)

/-- The run of free sequence IDs from `i` on, at most `f`. -/
def idRun (s : State) (i : Nat) : Nat → Nat
  | 0 => 0
  | f + 1 => if idHeld s i then 0 else 1 + idRun s (i + 1) f

/-- The longest run of free sequence IDs. -/
def longestIds (s : State) : Nat := ((List.range 1024).map fun i => idRun s i (1024 - i)).foldl max 0

/-- The lowest run of `n` free sequence IDs. -/
def findIds (s : State) (n : Nat) : Nat := ((List.range 1024).find? fun i => decide (n ≤ idRun s i (1024 - i))).getD 0

/-- Two runs of 64 KiB units share one. -/
def runsMeet (a n b m : Nat) : Bool := n != 0 && m != 0 && decide (a < b + m) && decide (b < a + n)

/-- LPDDR-6 granules of a load's region: none where it overlaps the overflow area or another program's region. A region that runs past
LPDDR-6 counts as none too, and a program without streamed sections holds no region (log entry 103). -/
def lpAvail (s : State) (base size : Nat) : Nat :=
  if runsMeet base size (rdF s Reg.itmOvfBase.base 0 20) (if ovfPast s then 0 else rdF s Reg.itmOvfSize.base 0 20)
      || s.progs.any (fun p => runsMeet base size p.lpBase p.lpSize) || decide (1048576 < base + size) then 0
  else size

/-- The resources that fall short (R208). The KV block size has the unit code of a count (log entry 103). -/
def shortfalls (s : State) (part lpBase lpSize : Nat) (img : List Byte) : List Short :=
  let m := manifestOf (oneSec img 5)
  let al := allocsOf img m
  let insts := fun (ts : List Template) => (ts.map (·.instances)).sum
  let all : List Short :=
    [ (1, 0xFFFF, m.coresMin, (activeCores s).length, 0), (2, part, (al.map (·.1)).sum, quotaOf s part - partUse s part, 1)
    , (3, 0xFFFF, (al.map (·.1)).foldl max 0, longestRun s, 1), (4, part, 1, b2n (partEn s part), 0)
    , (5, 0xFFFF, 1, 255 - s.progs.length, 0), (6, 0xFFFF, (m.tmpls.map (·.tbPeak)).foldl max 0, tbBytes, 2)
    , (7, 0xFFFF, m.localToks, 64, 0), (8, 0xFFFF, m.tokens, 4096 - (s.progs.map (·.tokens)).sum, 0)
    , (9, 0xFFFF, insts m.tmpls, 4096 - (s.progs.map fun p => insts p.tmpls).sum, 0) ]
    ++ ((List.range 16).map fun i => (0xA, i, m.ctx.getD i 0, (freeCtx s i).length, 0))
    ++ ((List.range 8).map fun i => (0xB, i, m.jobs.getD i 0, jobShare i, 0))
    ++ [ (0xC, part, m.kvBlk, if m.kvBlk = 0 then 0 else kvBlk s part, 0), (0xD, part, m.kvBlocks, kvTargetBlocks s part, 3)
       , (0xE, 0xFFFF, m.kvSeqs, longestIds s, 0), (0xF, 0xFFFF, m.lpGran, lpAvail s lpBase lpSize, 1) ]
  all.filter fun x => decide (x.2.2.2.1 < x.2.2.1)

/-- An entry of the shortfall report (R207). -/
def shortBytes (x : Short) : List Byte :=
  leBytes 2 x.1 ++ leBytes 2 x.2.1 ++ leBytes 4 (min x.2.2.1 (2 ^ 32 - 1)) ++ leBytes 4 (min x.2.2.2.1 (2 ^ 32 - 1)) ++ leBytes 1 x.2.2.2.2
    ++ [0, 0, 0]

/-- A refusal with SHORTFALL: the report (R207) and the completion (R206). A report that cannot be written leaves the completion as it is (DESIGN
CHOICE, log entry 50). -/
def refuseShort (m : MemRun) (e : Submission) (stage : Nat) (short : List Short) (s : State) : State :=
  let n := short.length
  let room := par e 0x1C 4
  let full := n != 0 && decide (32 + 16 * n ≤ room)
  let head := leBytes 4 e.tag.toNat ++ leBytes 1 Stat.shortfall ++ leBytes 1 n ++ leBytes 1 (b2n full) ++ leBytes 1 stage
                ++ List.replicate 24 0
  let s := if room < 32 then s
           else (runWrite m (par e 0x14 8) (head ++ if full then short.flatMap shortBytes else []) s).2
  finishSub e Stat.shortfall (loadData 0 n stage 0) s

/-! ## Stage 3 -/

/-- The bytes of a referenced weight region. -/
def refBytes (s : State) (r : WeightRef) : List Byte := devGet s r.addr r.len

/-- A referenced weight region lies in LPDDR-6, which answers, and holds no poison. -/
def refGood (s : State) (r : WeightRef) : Bool :=
  r.len == 0 || (memAwake s && decide (0x1000000000 ≤ r.addr) && decide (r.addr + r.len ≤ 0x2000000000) && !poisonHit s.sq.poison r.addr r.len)

/-- The signature section verifies (R548, R550). -/
def signatureOk (s : State) (img : List Byte) : Bool :=
  let g := oneSec img 7
  let set := leAt g 0 1
  let slot := leAt g 1 1
  match s.rst.modelKeys.find? fun k => k.1 == slot with
  | none => false
  | some k =>
    (set == 1 || set == 2) && decide (slot ≤ 7) && leAt g 2 2 == 0 && k.2.1 == set
      && leAt g 4 4 == (if set = 1 then 17088 else 29792) && g.length == 8 + leAt g 4 4
      && Config.slhVerify set k.2.2
           ([0x50, 0x57, 0x4B, 0x4D, 0x53, 0x49, 0x47, 0x31] ++ (img.drop 0x10).take 64 ++ (img.drop 6).take 2 ++ (img.drop 4).take 2)
           (g.drop 8)

/-- A signature that is required and absent. -/
def signatureMissing (s : State) (e : Submission) (img : List Byte) : Bool :=
  !imgSigned img && (bitOf (par e 0x30 1) 0 || rdB s Reg.secPolicy.base 0)

/-- The checks of stage 3 in their order (R203). -/
def stage3 (s : State) (e : Submission) (img : List Byte) : Option LoadFail :=
  let code := oneSec img 1
  let m := manifestOf (oneSec img 5)
  let cOff := oneOff img 1
  let at3 := fun (st off : Nat) => ({ status := st, stage := 3, off := off } : LoadFail)
  let word := fun (w : Option Nat) => cOff + 8 * w.getD 0
  let is := (insOf code).1
  let fs := flowsOf is m
  match firstFail (crcChecks img ++ hashChecks img (secBytes img) (refBytes s) (refGood s)) with
  | some f => some f
  | none =>
    let st := badStatic is fs
    let tok := badTokens m img is fs (detMode s)
    firstFail
      [ (imgSigned img && !signatureOk s img, at3 Stat.signature (oneOff img 7)), (signatureMissing s e img, at3 Stat.signature 0)
      , ((illegalAt m code).isSome, at3 Stat.illegal (word (illegalAt m code)))
      , (st.isSome, at3 (st.elim 0 (·.2)) (word (st.map (·.1))))
      , ((badWinograd m is).isSome, at3 Stat.shape (word (badWinograd m is)))
      , ((badShape m is fs).isSome, at3 Stat.shape (word (badShape m is fs)))
      , (tok.isSome, at3 Stat.tokenGraph (tok.getD 0)) ]

/-! ## The loader's jobs on the engines (R381, R382, R384) -/

/-- Checks of a list that are made: all up to the first that fails. -/
def checksMade (cs : List (Bool × LoadFail)) : Nat := min cs.length ((cs.takeWhile fun c => !c.1).length + 1)

/-- Bytes that the hashes of `hashChecks` absorb, in its order; none for the check that is no hash. -/
def hashLengths (img : List Byte) (f : Sec → List Byte) (g : WeightRef → List Byte) : List (Option Nat) :=
  [some (progMessage img f).length, none, some (weightMessage img f g).length]
    ++ (weightRefs img).map fun r => if r.len = 0 then none else some r.len

/-- Microseconds that the hash engine is busy with messages of these lengths: 24 clocks of 800 MHz for each 136-byte block (R382). -/
def hashMicros (ls : List Nat) : Nat := ((ls.map fun n => n / 136 + 1).sum * 30) / 1000

/-- The hash engine has done the loader's jobs: one for each hash that the checks `cs` came to (log entry 104). -/
def loaderHashes (cs : List (Bool × LoadFail)) (ls : List (Option Nat)) (s : State) : State :=
  let done := (ls.take (checksMade cs)).filterMap id
  s |> count Reg.hshSnapCnt.base done.length |> count (Reg.hshSnapCnt.base + 4) done.sum
    |> count (Reg.hshSnapCnt.base + 8) done.length |> count (Reg.hshSnapCnt.base + 16) (hashMicros done)

/-- The engines have done the loader's jobs of stage 3: a scan for each section's check, then the hashes. -/
def loaderJobs (img : List Byte) (s : State) : State :=
  let crc := crcChecks img
  let ls := (((secsOf img).filter fun x => x.len != 0).map (·.len)).take (checksMade crc)
  let s' := s |> count Reg.crcSnapCnt.base ls.length |> count (Reg.crcSnapCnt.base + 8) ls.sum
  if (firstFail crc).isSome then s'
  else loaderHashes (hashChecks img (secBytes img) (refBytes s) (refGood s)) (hashLengths img (secBytes img) (refBytes s)) s'

/-- The loader queues its jobs (R346, R381, R382): they keep the place that they took. -/
def queueLoader (checks hashes : Nat) (s : State) : State :=
  if s.eng.loader.isSome then s
  else
    let (n, s) := nextStamp s
    modEng (fun e => { e with loader := some { ord := n, at_ := s.tim.now, checks := checks, hashes := hashes } }) s

/-- The loader's jobs wait (R346, R381, R382, R402): behind older check-value and hash jobs, samples that wait for their hash, the hash job that
runs, and, for a section's check, while every unit runs a job. -/
def loaderWaits (s : State) : Bool :=
  s.eng.loader.elim false fun l =>
    !groupUp s 3 || !s.eng.samples.isEmpty
      || s.eng.jobs.any (fun j => (j.kind == 5 || j.kind == 6) && decide (j.ord < l.ord)) || s.eng.running.any (fun r => r.job.kind == 5)
      || (l.checks != 0 && decide (4 ≤ (s.eng.running.filter fun r => r.job.kind == 6).length))

/-- The loader's jobs leave the queues: the hash engine's longest wait counts theirs (R384). -/
def loaderStarts (s : State) : State :=
  let wait := s.eng.loader.elim 0 fun l => (timeUnits s.tim.now - timeUnits l.at_) / 2 ^ 32 / 1000
  s |> setCtr (Reg.hshSnapCnt.base + 20) (max wait (ctrOf s (Reg.hshSnapCnt.base + 20)))
    |> modEng fun e => { e with loader := none }

/-- The jobs that a load queues for stage 3: a scan for each section that is not empty, and its hashes. -/
def queueChecks (img : List Byte) (s : State) : State :=
  queueLoader ((secsOf img).filter fun x => x.len != 0).length ((hashLengths img (secBytes img) (refBytes s)).filterMap id).length s

/-! ## Placement (R203-R205) -/

/-- The lowest free load handle above the one last issued, wrapping from 255 to 1 (R205). -/
def nextHandle (s : State) : Nat :=
  let order := (List.range 255).map fun i => (s.lastHandle + i) % 255 + 1
  (order.find? fun h => (progOf s h).isNone).getD 0

/-- Takes allocations one by one: the base granules in order, or the size that did not fit. -/
def takeAll (part handle : Nat) : List (Nat × Nat) → State → (List Nat × Option Nat) × State
  | [], s => (([], none), s)
  | x :: xs, s =>
    let (a, s) := alloc part x.1 handle x.2 s
    if a.status ≠ Stat.ok then (([], some x.1), s)
    else
      let (r, s) := takeAll part handle xs s
      ((a.base :: r.1, r.2), s)

/-- Where the placed sections go: (image offset, length, device address), Square sections at their granules and streamed ones in table
order in the region. -/
def placedOf (img : List Byte) (bases : List Nat) (lp : Nat) : List (Nat × Nat × Nat) :=
  let sq := secsOfTy img 1 ++ secsOfTy img 2 ++ (secsOfTy img 3).filter fun x => !x.streamed
  let str := (secsOfTy img 3).filter (·.streamed)
  (sq.zip bases).map (fun x => (x.1.off, x.1.len, x.2 * 65536))
    ++ (str.foldl (fun (a : Nat × List (Nat × Nat × Nat)) x => (a.1 + granules x.len, a.2 ++ [(x.off, x.len, lp + a.1 * 65536)])) (0, [])).2

/-- Copies the placed sections. -/
def copyPlaced (img : List Byte) (ps : List (Nat × Nat × Nat)) (s : State) : State :=
  ps.foldl (fun s p => devPut p.2.2 ((img.drop p.1).take p.2.1) s) s

/-- Starts placing an image that passed stages 1 to 3 (R204): allocations and copies; everything goes back where an allocation fails. -/
def startPlacing (mr : MemRun) (e : Submission) (img : List Byte) (s : State) : State :=
  let m := manifestOf (oneSec img 5)
  let part := e.arg % 16
  let h := nextHandle s
  let lpBase := par e 0x20 4
  let lpSize := par e 0x24 4
  let ((bases, bad), s) := takeAll part h (allocsOf img m) s
  match bad with
  | some n =>
    let run := longestRun s
    let s := freeHolder h s
    let sh := shortfalls s part lpBase lpSize img
    refuseShort mr e 4 (if sh.isEmpty then [(3, 0xFFFF, n, run, 1)] else sh) s
  | none =>
    let ps := placedOf img bases (0x1000000000 + lpBase * 65536)
    let nCode := (secsOfTy img 1).length
    let nConst := (secsOfTy img 2).length
    let nSq := nCode + nConst + ((secsOfTy img 3).filter fun x => !x.streamed).length
    let p : Program :=
      { handle := h, part := part, stopped := false, loading := true, unloading := false, coresMin := m.coresMin
        coresBuild := m.coresBuild, tmpls := m.tmpls, codeBase := bases.getD 0 0 * 65536, codeWords := (oneSec img 1).length / 8
        const0 := if nConst = 0 then 0 else bases.getD nCode 0 * 65536
        static0 := if m.sqStatic = 0 then 0 else bases.getD nSq 0 * 65536
        saves := bases.drop (if m.sqStatic = 0 then nSq else nSq + 1)
        winograd := m.winograd, ctx := m.ctx, ctxIds := [], tokens := m.tokens, localToks := m.localToks, kvBlk := m.kvBlk
        kvSeqs := m.kvSeqs, idFirst := findIds s m.kvSeqs, seed := BitVec.ofNat 64 (par e 0x28 8)
        lpBase := lpBase, lpSize := if m.lpGran = 0 then 0 else lpSize
        progHash := (img.drop 0x10).take 32, weightHash := (img.drop 0x30).take 32
        signedSlot := if imgSigned img then some (leAt (oneSec img 7) 1 1) else none
        needsDet := m.det, replay := none, tag := e.tag, image := img, placed := ps }
    copyPlaced img ps { s with progs := s.progs ++ [p] }

/-- A load that a check refuses: the status and where (R206); SEC_STATUS flag 3 with SIGNATURE. -/
def refuseLoad (e : Submission) (f : LoadFail) (s : State) : State :=
  s |> (fun s => if f.status = Stat.signature then setFlag Reg.secStatus.base 3 s else s)
    |> finishSub e f.status (loadData 0 0 f.stage f.off)

/-- SUB_LOAD_PROGRAM (R186, R201-R208, R386, R588). A load that comes to stage 3 waits for older jobs of its engines. -/
def execSubLoadProgram (m : MemRun) (s : State) : Result :=
  run (serve (fun e => e.op == 1) fun e s =>
    if !entryClean e then finishSub e Stat.badFormat (loadData 0 0 0 0) s
    else
      let s₀ := s
      let (r, s) := payload m false e.addr e.len s
      let img := r.data
      if r.status ≠ Stat.ok then finishSub e r.status (loadData 0 0 1 0) s
      else match stage1 img e.len with
        | some f => refuseLoad e f s
        | none =>
          if (manifestOf (oneSec img 5)).det && !detMode s then finishSub e Stat.unsupported (loadData 0 0 1 0) s
          else
            let short := shortfalls s (e.arg % 16) (par e 0x20 4) (par e 0x24 4) img
            if !short.isEmpty then refuseShort m e 2 short s
            else if loaderWaits (queueChecks img s) then queueChecks img s₀
            else
              let s := loaderStarts (queueChecks img s)
              match stage3 s e img with
              | some f => refuseLoad e f (loaderJobs img s)
              | none => startPlacing m e img (loaderJobs img s)) s

/-- The bytes of a section as placed; a section that is not placed is the loader's copy (R187). -/
def asPlaced (s : State) (p : Program) (x : Sec) : List Byte :=
  match p.placed.find? fun q => q.1 == x.off && q.2.1 == x.len && x.len != 0 with
  | some q => devGet s q.2.2 q.2.1
  | none => secBytes p.image x

/-- The global tokens of a program from its declarations (R198). -/
def tokensOf (p : Program) : List Token :=
  (Config.tokenDecls (oneSec p.image 6)).zipIdx.map fun d =>
    { handle := p.handle, idx := d.2, tagged := d.1.1, external := d.1.2.1, jobTmpl := d.1.2.2.1
      count := if d.1.1 then 0 else min d.1.2.2.2 65535, pairs := [], latch := Stat.ok, waiters := [], sigs := [], discarded := 0 }

/-- An instance at its prologue (R188). -/
def newTask (p : Program) (tmpl inst stamp : Nat) (now : DevTime) : Task :=
  let r := TaskRegs.prologue p tmpl inst
  { id := { handle := p.handle, tmpl := tmpl, inst := inst }, st := .ready, prio := (p.tmpls.getD tmpl noTmpl).prio, readyAt := stamp
    core := none, regs := r, ckpt := r, rec_ := { sigs := 0, entries := [] }, match_ := { sigs := 0, entries := [] }, waits := []
    ran := false, poisoned := false, passes := 0, attached := 0, served := false, readySince := now, atRound := false, due := none
    held := none, saved := false, results := [] }
where
  /-- A template that no manifest holds. -/
  noTmpl : Template := { prologue := 0, roundStart := 0, roundEnd := 0, prio := 0, instances := 0, tbLive := 0, tbPeak := 0 }

/-- The instances of a program. -/
def newTasks (p : Program) (stamp : Nat) (now : DevTime) : List Task :=
  (p.tmpls.zipIdx.map fun t => (List.range t.1.instances).map fun i => newTask p t.2 i stamp now).flatten

/-- The contexts that a program takes: the lowest free ones of each pool (R200). -/
def takeCtx (s : State) (p : Program) : List (List Nat) := (List.range 16).map fun i => (freeCtx s i).take (p.ctx.getD i 0)

/-- Binds the sequence manager's clients of a program (R255). -/
def bindClients (h part : Nat) (ids : List Nat) (s : State) : State :=
  ids.foldl (fun s c => modClient c (fun _ => { handle := h, part := part, stepBy := [], armed := false }) s) s

/-- The load in progress ends without a program: everything it took goes back, its granules holding zeros (R87, R204). -/
def dropLoad (h : Nat) (s : State) : State :=
  let s := freeHolder h ((s.sq.runs.filter fun r => r.handle == h && r.kind != 4).foldl (fun s r => zeroGranules r.base r.n s) s)
  { s with progs := s.progs.filter fun p => p.handle != h }

/-- A placed section can be read: no word of it is poisoned. -/
def placedGood (s : State) (p : Program) : Bool := p.placed.all fun q => !poisonHit s.sq.poison q.2.2 q.2.1

/-- The checks of a load as placed (R187, R204). -/
def placedChecks (s : State) (p : Program) : List (Bool × LoadFail) :=
  hashChecks p.image (asPlaced s p) (refBytes s) (refGood s) ++ [(!placedGood s p, { status := Stat.imageCorrupt, stage := 4, off := 0 })]

/-- PROGRAM_LOAD_COMPLETE (R187, R188, R198, R204-R206, R261, R279): a hash of the sections as placed that is wrong, or too few ACTIVE
cores, refuses the load with SHORTFALL. -/
def execProgramLoadComplete (m : MemRun) (s : State) : Result :=
  run (fun s =>
    if !cpUp s 0 then s
    else match s.progs.find? (·.loading), s.led.subQ.find? serialOp with
      | some p, some e =>
        let s := queueLoader 0 ((hashLengths p.image (asPlaced s p) (refBytes s)).filterMap id).length s
        if loaderWaits s then s
        else
          let s := seeEcc m.ecc (loaderStarts s)
          let cs := placedChecks s p
          let s := loaderHashes cs (hashLengths p.image (asPlaced s p) (refBytes s)) s
          if (firstFail cs).isSome ∨ (activeCores s).length < p.coresMin then
            let s := dropLoad p.handle s
            refuseShort m e 4 (shortfalls s p.part p.lpBase (par e 0x24 4) p.image) s
          else
            let ids := takeCtx s p
            let (n, s) := nextStamp s
            let s := modProg p.handle (fun p => { p with loading := false, image := [], placed := [], ctxIds := ids }) s
            { s with lastHandle := p.handle, tokens := s.tokens ++ tokensOf p, tasks := s.tasks ++ newTasks p n s.tim.now }
              |> bindClients p.handle p.part (ids.getD 6 []) |> finishSub e Stat.ok (loadData p.handle 0 0 0)
      | _, _ => s) s

/-! ## Unload (R209) -/

/-- The periodic scans of a program end: each signals its token once (R381). -/
def endPeriodic (h : Nat) (s : State) : State :=
  let js := (s.eng.checks.filter fun c => c.handle == h).filterMap (·.periodic)
  let s := modEng (fun e => { e with checks := e.checks.map fun c => if c.handle = h then { c with periodic := none } else c }) s
  js.foldl (fun s j => signalJob h (jobToken 6 j.desc) Stat.ok s) s

/-- SUB_UNLOAD (R40, R209): the program stops; its jobs go on to their end. -/
def execSubUnload (s : State) : Result :=
  run (serve (fun e => e.op == 2) fun e s =>
    match argProg s e with
    | none => finishSub e Stat.badHandle noData s
    | some p => s |> stopProgram p.handle |> modProg p.handle (fun p => { p with unloading := true }) |> endPeriodic p.handle) s

/-- Jobs of a program that are queued or running. -/
def jobsOfProg (s : State) (h : Nat) : Nat :=
  (s.eng.jobs.filter fun j => j.task.handle == h).length + (s.eng.running.filter fun r => r.job.task.handle == h).length

/-- What a program held goes back: granules, tokens, contexts with what stands in them, bindings, plans, sequences, instances (R94, R198,
R200, R209, R335, R431). -/
def release (h : Nat) (s : State) : State :=
  let ids := ((progOf s h).elim [] fun p => p.ctxIds.getD 6 [])
  let s := s |> freeHolder h |> dropSeqs (fun q => q.handle == h) |> bindClients 0 0 ids
  { s with
    progs := s.progs.filter fun p => p.handle != h
    tokens := s.tokens.filter fun k => k.handle != h
    tasks := s.tasks.filter fun k => k.id.handle != h
    binds := s.binds.filter fun b => b.handle != h
    plans := s.plans.filter fun x => x.handle != h
    pipes := s.pipes.map fun k => { k with serving := k.serving.map (letGo h) }
    eng := { s.eng with
      blocks := s.eng.blocks.filter fun b => b.handle != h
      streams := s.eng.streams.filter fun b => b.handle != h
      caddy := s.eng.caddy.filter fun c => c.handle != h
      checks := s.eng.checks.filter fun c => c.handle != h } }
where
  /-- A pipeline that serves a frame under a binding that ends waits for no token. -/
  letGo (h : Nat) (v : Serving) : Serving :=
    if v.bind.any (fun b => b.handle == h) then { v with waiting := false, sigWait := false, granted := false, buf := none, bind := none } else v

/-- UNLOAD_COMPLETE (R209): once no job of the program is left. -/
def execUnloadComplete (s : State) : Result :=
  run (fun s =>
    if !cpUp s 0 then s
    else match s.progs.find? (·.unloading), s.led.subQ.find? serialOp with
      | some p, some e => if jobsOfProg s p.handle ≠ 0 then s else s |> release p.handle |> finishSub e Stat.ok noData
      | _, _ => s) s

end Sys2Proof.Machine
end

