-- ==== Sys2Proof/Machine/VecFns.lean ====
section
/-! DEFINITION. The functions of the vector unit (R240): their values to far more than FP32's precision, and the result, which is free
within the error bound that the rule gives. -/

namespace Sys2Proof.Machine

open Sys2Proof

/-! ## Fixed point -/

/-- Fraction bits of a fixed-point number. -/
def fixBits : Nat := 200

/-- One, as a fixed-point number. -/
def fixOne : Nat := 2 ^ fixBits

/-- A number `m × 2^e` in fixed point. -/
def fixOf (m : Nat) (e : Int) : Nat := roundTo .even false m e (-(fixBits : Int))

/-- ln of a fixed-point number from 1 up to 2, by the series of the inverse hyperbolic tangent. -/
def fixLn (m : Nat) : Nat :=
  let z := (m - fixOne) * fixOne / (m + fixOne)
  let sq := z * z / fixOne
  2 * ((List.range 70).foldl (fun (a : Nat × Nat) k => (a.1 + a.2 / (2 * k + 1), a.2 * sq / fixOne)) (0, z)).1

/-- ln 2. -/
def fixLn2 : Nat := 2 * fixLn (3 * fixOne / 2) - fixLn (9 * fixOne / 8)

/-- e to the power of a fixed-point number below 1. -/
def fixExp (x : Nat) : Nat :=
  ((List.range 60).foldl (fun (a : Nat × Nat) k => (a.1 + a.2, a.2 * x / fixOne / (k + 1))) (0, fixOne)).1

/-- e to the power of minus a fixed-point number: a fixed-point mantissa and a power of two. -/
def expNeg (x : Nat) : Nat × Int :=
  let n := x / fixLn2 + 1
  (fixExp (n * fixLn2 - x), -(n : Int))

/-! ## The functions -/

/-- The value of a function at a finite operand `(-1)^neg × m × 2^e`, m not 0 where the function has a special value there. Operands past
every finite result are cut to 2^10. -/
def fnValue (f : Nat) (neg : Bool) (m : Nat) (e : Int) : Num :=
  let fix : Int := fixBits
  let x := if (Nat.log2 m : Int) + e < 10 then fixOf m e else 1024 * fixOne
  match f with
  | 0 =>
    let y : Int := if neg then -(x : Int) else x
    let n := y.fdiv fixOne
    .fin false (fixExp ((y - n * fixOne).toNat * fixLn2 / fixOne)) (n - fix)
  | 1 =>
    let k := Nat.log2 m
    let y : Int := ((k : Int) + e) * fixOne + (fixLn (fixOf m (-(k : Int))) * fixOne / fixLn2 : Nat)
    .fin (decide (y < 0)) y.natAbs (-fix)
  | 2 => .fin neg (2 ^ (fixBits + Nat.log2 m) / m) (-fix - Nat.log2 m - e)
  | 3 =>
    let e' := if e % 2 = 0 then e else e - 1
    let m' := if e % 2 = 0 then m else 2 * m
    .fin false (2 ^ (2 * fixBits) / isqrt (m' * 2 ^ (2 * fixBits))) (-fix - e' / 2)
  | 5 =>
    if (Nat.log2 m : Int) + e < -40 then .fin neg m e
    else
      let (u, k) := expNeg (2 * x)
      let u := roundTo .even false u (k - fix) (-fix)
      .fin neg ((fixOne - u) * fixOne / (fixOne + u)) (-fix)
  | _ =>
    let (u, k) := expNeg x
    let d := fixOne + roundTo .even false u (k - fix) (-fix)
    if neg then .fin false (u * fixOne / d) (k - fix) else .fin false (fixOne * fixOne / d) (-fix)

/-- Ulps within which R240 holds a function. -/
def fnUlps (f : Nat) : Nat := if f = 5 ∨ f = 6 then 2 else 1

/-- `c` lies within `k` ulps of FP32 of the value `y`; a 2^64th of an ulp stands for what the fixed-point value leaves off. -/
def withinUlps (k : Nat) (y c : Num) : Bool :=
  match y, c with
  | .fin ny my ey, .fin nc mc ec =>
    let u : Int := if my = 0 then -149 else max (-149) ((Nat.log2 my : Int) + ey - 23)
    let b := min (min ey ec) (u - 64)
    let at_ := fun (n : Bool) (m : Nat) (e : Int) => (if n then -1 else 1) * ((m * 2 ^ (e - b).toNat : Nat) : Int)
    decide ((at_ ny my ey - at_ nc mc ec).natAbs ≤ k * 2 ^ (u - b).toNat + 2 ^ (u - 64 - b).toNat)
  | _, _ => false

/-- The FP32 result of `vec.⟨fn⟩` (R240): special values as listed, sqrt correctly rounded, any other value free within its bound, and
free at an infinity or a negative operand for which the rule states none. -/
def fnF32 (f : Nat) (x : Num) : Num :=
  let f32 := vecFmt 0
  let free := f32.decode (Config.vecFn f (BitVec.ofNat 32 (f32.encode .even false x))).toNat
  match x with
  | .nan => .nan
  | .inf n =>
    match f with
    | 0 => if n then .fin false 0 0 else free
    | 1 => if n then .nan else free
    | 4 => x.sqrt
    | _ => free
  | .fin n m e =>
    let near := fun (_ : Unit) =>
      let y := fnValue f n m e
      if withinUlps (fnUlps f) y free then free else f32.decode (f32.encode .even false y)
    match f with
    | 1 => if m = 0 then .inf true else if n then .nan else near ()
    | 2 => if m = 0 then .inf n else near ()
    | 3 => if m = 0 then (if n then free else .inf false) else if n then free else near ()
    | 4 => x.sqrt
    | _ => near ()

/-- One lane of `vec.⟨fn⟩`. FP16 and BF16 lanes are computed in FP32 and rounded once. -/
def laneFn (ty f n : Nat) : Nat := fput ty (fnF32 f (fget ty n))

end Sys2Proof.Machine
end

