-- ==== Sys2Proof/Machine/SeqVec.lean ====
section
/-! DEFINITION. The vector instructions (R130, R131, R153, R238-R241). -/

namespace Sys2Proof.Machine

open Sys2Proof

/-- A vector register of a task: always 256 bytes. -/
def vreg (r : TaskRegs) (n : Nat) : List Byte := padTo 256 (vOf r n)

/-- The row of a descriptor that a vector access names (R144, R238): none past its rows without the ring option. -/
def vecRow (t : Tile) (ring : Bool) (sb : Nat) : Option Nat := (lineOf ring t.rows sb).map t.row
where
  /-- A row number, reduced under the ring option. -/
  lineOf (ring : Bool) (rows n : Nat) : Option Nat := if ring then some (n % rows) else if n < rows then some n else none

/-- VEC_LD (R238). -/
def beginVecLd (x : Issue) (s : State) : State :=
  let i := x.i
  let t := tdOf x.r i.fa
  let off := i.imm.toNat % 0x2000
  if t.empty then complete x id s
  else if t.refused || decide (t.rowBytes < off + 256) then faultAt x 2 Stat.length s
  else match vecRow t (i.func == 1) (sOf x.r i.fb).toNat with
    | none => faultAt x 2 Stat.length s
    | some a =>
      let (bad, s) := readTile x [(a + off, 256)] s
      if bad then tilePoison x 2 s else complete x (setV i.fd (tbRead x.r (a + off) 256)) s

/-- VEC_LD. -/
def execVecLd (core : CoreRun) (i : Iw) (s : State) : Result :=
  issue "VEC_LD" 0x30 beginVecLd core false i s

/-- VEC_ST (R129, R238). -/
def beginVecSt (x : Issue) (s : State) : State :=
  let i := x.i
  let t := tdOf x.r i.fd
  let off := i.imm.toNat % 0x2000
  if t.empty then complete x id s
  else if t.refused || t.rowsMeet || decide (t.rowBytes < off + 256) then faultAt x 2 Stat.length s
  else match vecRow t (i.func == 1) (sOf x.r i.fb).toNat with
    | none => faultAt x 2 Stat.length s
    | some a => storeRuns x 2 [(a + off, vreg x.r i.fa)] s

/-- VEC_ST. -/
def execVecSt (core : CoreRun) (i : Iw) (s : State) : Result :=
  issue "VEC_ST" 0x31 beginVecSt core false i s

/-- VEC_ALU (R238, R239): with abs and neg, vb is v0 and ignored. -/
def beginVecAlu (x : Issue) (s : State) : State :=
  let i := x.i
  complete x (fun r =>
    let ty := vecTy i
    setV i.fd (ofLanes ty (List.zipWith (laneAlu ty i.func (i.imm.getLsbD 3)) (vecLanes ty (vreg r i.fa)) (vecLanes ty (vreg r i.fb)))) r) s

/-- VEC_ALU. -/
def execVecAlu (core : CoreRun) (i : Iw) (s : State) : Result :=
  issue "VEC_ALU" 0x32 beginVecAlu core false i s

/-- VEC_FMA: va × vb + vc, rounded once. -/
def beginVecFma (x : Issue) (s : State) : State :=
  let i := x.i
  complete x (fun r =>
    let ty := vecTy i
    let ab := List.zip (vecLanes ty (vreg r i.fa)) (vecLanes ty (vreg r i.fb))
    setV i.fd (ofLanes ty (List.zipWith (fun e c => laneFma ty (i.imm.getLsbD 3) e.1 e.2 c) ab (vecLanes ty (vreg r i.fc)))) r) s

/-- VEC_FMA. -/
def execVecFma (core : CoreRun) (i : Iw) (s : State) : Result :=
  issue "VEC_FMA" 0x33 beginVecFma core false i s

/-- VEC_CMP: all ones where true. -/
def beginVecCmp (x : Issue) (s : State) : State :=
  let i := x.i
  complete x (fun r =>
    let ty := vecTy i
    setV i.fd (ofLanes ty (List.zipWith (fun a b => if laneCmp ty i.func a b then 2 ^ laneBits ty - 1 else 0)
      (vecLanes ty (vreg r i.fa)) (vecLanes ty (vreg r i.fb)))) r) s

/-- VEC_CMP. -/
def execVecCmp (core : CoreRun) (i : Iw) (s : State) : Result :=
  issue "VEC_CMP" 0x34 beginVecCmp core false i s

/-- VEC_SEL: va where the lane of vc is non-zero, vb otherwise. -/
def beginVecSel (x : Issue) (s : State) : State :=
  let i := x.i
  complete x (fun r =>
    let ty := vecTy i
    let ab := List.zip (vecLanes ty (vreg r i.fa)) (vecLanes ty (vreg r i.fb))
    setV i.fd (ofLanes ty (List.zipWith (fun e c => if c ≠ 0 then e.1 else e.2) ab (vecLanes ty (vreg r i.fc)))) r) s

/-- VEC_SEL. -/
def execVecSel (core : CoreRun) (i : Iw) (s : State) : Result :=
  issue "VEC_SEL" 0x35 beginVecSel core false i s

/-- The lane operation of a reduction: sum, max or min. -/
def redOp (f ty : Nat) (sat : Bool) : Nat → Nat → Nat := laneAlu ty (if f = 0 then 0 else if f = 1 then 4 else 3) sat

/-- VEC_RED (R131, R238). -/
def beginVecRed (x : Issue) (s : State) : State :=
  let i := x.i
  let n := bits i.imm.toNat 4 6
  if n = 0 then complete x id s
  else complete x (fun r =>
    let ty := vecTy i
    let f := redOp i.func ty (i.imm.getLsbD 3)
    let each := (List.range n).map fun j => redTree f 9 (vecLanes ty (vreg r (i.fa + j)))
    setV i.fd (ofLanes ty (redTree f 6 each :: List.replicate (laneCount ty - 1) 0)) r) s

/-- VEC_RED. -/
def execVecRed (core : CoreRun) (i : Iw) (s : State) : Result :=
  issue "VEC_RED" 0x36 beginVecRed core false i s

/-- VEC_CVT (R153, R239). -/
def beginVecCvt (x : Issue) (s : State) : State :=
  let i := x.i
  let src := i.imm.toNat % 32
  let dst := bits i.imm.toNat 8 5
  if !convertible src || !convertible dst then faultAt x 2 Stat.badFormat s
  else complete x (fun r => setV i.fd (cvtVec src dst (i.imm.getLsbD 16) (vreg r i.fa)) r) s

/-- VEC_CVT. -/
def execVecCvt (core : CoreRun) (i : Iw) (s : State) : Result :=
  issue "VEC_CVT" 0x37 beginVecCvt core false i s

/-- VEC_FN (R240): floating types only. -/
def beginVecFn (x : Issue) (s : State) : State :=
  let i := x.i
  complete x (fun r =>
    let ty := vecTy i
    setV i.fd (ofLanes ty ((vecLanes ty (vreg r i.fa)).map (laneFn ty i.func))) r) s

/-- VEC_FN. -/
def execVecFn (core : CoreRun) (i : Iw) (s : State) : Result :=
  issue "VEC_FN" 0x38 beginVecFn core false i s

/-- VEC_PERM. -/
def beginVecPerm (x : Issue) (s : State) : State :=
  let i := x.i
  complete x (fun r =>
    let ty := vecTy i
    let a := vecLanes ty (vreg r i.fa)
    setV i.fd (ofLanes ty ((vecLanes ty (vreg r i.fb)).map fun b => a.getD (b % laneCount ty) 0)) r) s

/-- VEC_PERM. -/
def execVecPerm (core : CoreRun) (i : Iw) (s : State) : Result :=
  issue "VEC_PERM" 0x39 beginVecPerm core false i s

/-- VEC_DUP. -/
def beginVecDup (x : Issue) (s : State) : State :=
  let i := x.i
  complete x (fun r =>
    let ty := vecTy i
    setV i.fd (ofLanes ty (List.replicate (laneCount ty) ((sOf x.r i.fa).toNat % 2 ^ laneBits ty))) r) s

/-- VEC_DUP. -/
def execVecDup (core : CoreRun) (i : Iw) (s : State) : Result :=
  issue "VEC_DUP" 0x3A beginVecDup core false i s

/-- VEC_EXT: sign- or zero-extended by type; floating types as their bit pattern. -/
def beginVecExt (x : Issue) (s : State) : State :=
  let i := x.i
  complete x (fun r =>
    let ty := vecTy i
    let v := (vecLanes ty (vreg r i.fa)).getD (bits i.imm.toNat 8 8 % laneCount ty) 0
    let sg := !vecFloat ty && ty != 6
    setS i.fd (BitVec.ofInt 64 (laneInt (laneBits ty) sg v)) r) s

/-- VEC_EXT. -/
def execVecExt (core : CoreRun) (i : Iw) (s : State) : Result :=
  issue "VEC_EXT" 0x3B beginVecExt core false i s

/-- VEC_MXP (R129, R241). -/
def beginVecMxp (x : Issue) (s : State) : State :=
  let i := x.i
  let code := i.imm.toNat % 32
  let t := tdOf x.r i.fd
  let sb := (sOf x.r i.fb).toNat
  if !isMx code then faultAt x 2 Stat.badFormat s
  else if t.empty then complete x id s
  else if t.refused || t.rowsMeet || decide (t.rows ≤ sb) || decide (t.rowBytes < rowBytesOf code) then faultAt x 2 Stat.length s
  else
    let xs := ((List.range (mxpRegs code)).map fun j => (vecLanes 0 (vreg x.r (i.fa + j))).map (fget 0)).flatten
    storeRuns x 2 [(t.row sb, mxRow code xs)] s

/-- VEC_MXP. -/
def execVecMxp (core : CoreRun) (i : Iw) (s : State) : Result :=
  issue "VEC_MXP" 0x3C beginVecMxp core false i s

end Sys2Proof.Machine
end

