-- ==== Sys2Proof/Machine/Queues.lean ====
section
/-! DEFINITION. The A, V and M queues between rows (R132, R133): an instruction that entered its queue because it could not begin begins
once nothing holds it back. -/

namespace Sys2Proof.Machine

open Sys2Proof

/-- What an instruction does once it begins. -/
def beginOf (op : Nat) : Issue → State → State :=
  match op with
  | 0x00 => beginCtlNop
  | 0x01 => beginCtlAlu
  | 0x02 => beginCtlAlui
  | 0x03 => beginCtlLi
  | 0x04 => beginCtlAmov
  | 0x05 => beginCtlCmp
  | 0x06 => beginCtlPop
  | 0x07 => beginCtlBr
  | 0x08 => beginCtlLoop
  | 0x09 => beginCtlYield
  | 0x0A => beginCtlEnd
  | 0x0B => beginCtlCkpt
  | 0x0C => beginCtlTdesc
  | 0x0D => beginCtlSys
  | 0x0E => beginCtlAlloc
  | 0x0F => beginCtlFree
  | 0x10 => beginTileLoad
  | 0x11 => beginTileStore
  | 0x12 => beginTileCopy
  | 0x13 => beginTileFill
  | 0x20 => beginArrWload
  | 0x21 => beginArrMma
  | 0x22 => beginArrConv
  | 0x23 => beginArrWgconv
  | 0x24 => beginArrRead
  | 0x30 => beginVecLd
  | 0x31 => beginVecSt
  | 0x32 => beginVecAlu
  | 0x33 => beginVecFma
  | 0x34 => beginVecCmp
  | 0x35 => beginVecSel
  | 0x36 => beginVecRed
  | 0x37 => beginVecCvt
  | 0x38 => beginVecFn
  | 0x39 => beginVecPerm
  | 0x3A => beginVecDup
  | 0x3B => beginVecExt
  | 0x3C => beginVecMxp
  | 0x40 => beginEngEnq
  | 0x50 => beginTokWait
  | 0x51 => beginTokSig
  | 0x52 => beginTokTry
  | 0x60 => beginItmAttach
  | 0x61 => beginItmCommit
  | 0x62 => beginItmGet
  | 0x70 => beginSeqJoin
  | 0x71 => beginSeqStep
  | 0x72 => beginSeqLeave
  | _ => fun _ s => s

/-- The older instructions of a task that still wait. -/
def olderThan (k : Task) (since : Nat) : List Waiting := k.waits.filter fun w => decide (w.since < since)

/-- An instruction stands in its queue and may begin. -/
def startable (k : Task) (w : Waiting) : Bool :=
  match w.w with
  | .queued x => mayBegin k (olderThan k w.since) x.op x.i x.ops
  | _ => false

/-- The task that decodes on a core, with its program. -/
def decoding (s : State) (n : Nat) : Option (Task × Program) :=
  let c := coreOf s n
  if c.st ≠ 0 ∨ c.phase ≠ .running then none
  else match c.task.bind (taskOf s) with
    | none => none
    | some k => (progOf s k.id.handle).map fun p => (k, p)

/-- The first instruction in a core's queues that may begin leaves its queue and begins, with the operands it captured (R132). -/
def beginQueued (n : Nat) (s : State) : Option State :=
  match decoding s n with
  | none => none
  | some (k, p) =>
    match k.waits.find? (startable k) with
    | some w =>
      match w.w with
      | .queued x =>
        let k' := { k with waits := dropFirst (fun y => y == w) k.waits }
        let o := x.ops
        let y : Issue := { n := n, t := k.id, k := k', r := { k.regs with s := o.s, a := o.a, p := o.p, lc := o.lc, t := o.t }, p := p
                           cr := { x.cr with n := n }, mismatch := x.mismatch, op := x.op, i := x.i, w := w.word, late := true
                           since := w.since, ends := w.ends }
        some (s |> modTask k.id (fun _ => k') |> beginOf x.op y |> wake k.id)
      | _ => none
    | none => none

/-- Every instruction in a core's queues that may begin does. -/
def runQueues (n : Nat) : Nat → State → State
  | 0, s => s
  | f + 1, s =>
    match beginQueued n s with
    | some s => runQueues n f s
    | none => s

/-- Some task has an instruction in a queue that has not begun. -/
def anyQueued (s : State) : Bool := s.tasks.any fun k => k.waits.any fun w => !w.w.begun

/-- The queues of every core go on. -/
def queuesGoOn (s : State) : State :=
  if anyQueued s then finish ((List.range 17).foldl (fun s n => runQueues n (((decoding s n).elim 0 fun x => x.1.waits.length) + 1) s) s) else s

end Sys2Proof.Machine
end

