-- ==== Sys2Proof/Machine/Tick.lean ====
section
/-! DEFINITION. One clock (R132, R443): the applied increment, in units of 2^-32 ns, is added; the counters of microseconds
count where a microsecond of device time ends (R345, R519). -/

namespace Sys2Proof.Machine

open Sys2Proof

/-- Device time plus a number of 2^-32 ns units. -/
def DevTime.advance (t : DevTime) (inc : Nat) : DevTime :=
  let f := t.frac + inc
  let n := t.ns + f / 2 ^ 32
  { sec := (t.sec + n / 1000000000) % 2 ^ 48, ns := n % 1000000000, frac := f % 2 ^ 32 }

/-- Pipeline `k` waits for a buffer or a tagged pair (R341). -/
def pipeWaits (s : State) (k : Nat) : Bool := (pipeAt s k).serving.elim false fun v => v.waiting || v.sigWait

/-- What the end of a microsecond counts: throttled and hot microseconds (R519), and pipelines that wait (R345). -/
def countMicro (s : State) : State :=
  let s := if throttle s = 0 then s else bump Reg.pwrSnapCnt.base 4 s
  let s := if s.pwr.demandT then bump Reg.pwrSnapCnt.base 5 s else s
  (List.range 14).foldl (fun s k => if pipeWaits s k then pipeCount k 6 1 s else s) s

/-- One clock with nothing commanded: device time takes the applied increment, and what stands in the cores' queues goes on. A system or
power-on reset that is held or stretching stops the time island (R463, R523). -/
def tick (s : State) : State :=
  if !wideUp s then s else
  let s := [0, 1].foldl sendOwed (queuesGoOn s)
  let t := s.tim.now.advance s.tim.applied
  let s' := if t.ns / 1000 = s.tim.now.ns / 1000 then s else countMicro s
  let s' := if throttle s' = 0 then s' else
              modPwr (fun p => { p with skip := p.skip + throttle s' * ((t.ns + 1000000000 - s.tim.now.ns) % 1000000000) }) s'
  { s' with tim := { s'.tim with now := t } }

end Sys2Proof.Machine
end

