-- ==== Sys2Proof/Machine/Time.lean ====
section
/-! DEFINITION. Device time, its servo, steps and compare channels, and the Ethernet port (14_time.md, R563). -/

namespace Sys2Proof.Machine

open Sys2Proof

/-! ## The servo -/

/-- TIM_INC: the nominal increment in 2^-32 ns. -/
def timInc (s : State) : Nat := rd s Reg.timIncLo.base + rdF s Reg.timIncHi.base 0 4 * 2 ^ 32

/-- The applied increment of an adjustment in ppb with 16 fraction bits (R445 step 4). -/
def appliedInc (inc : Nat) (adj : Int) : Nat := (divHalfEven (inc * (10 ^ 9 * 2 ^ 16 + adj)) (10 ^ 9 * 2 ^ 16)).toNat

/-- The applied increment follows the nominal one and the adjustment (R445, R563). -/
def settleInc (s : State) : State := modTim (fun t => { t with applied := appliedInc (timInc s) t.adj }) s

/-- TIM_SERVO_ADJ shows the adjustment in whole ppb; which way a fraction goes is free. -/
def showAdj (s : State) : State :=
  let up := if s.tim.adj % 2 ^ 16 = 0 then 0 else Config.freeNat s.fresh % 2
  { s with fresh := s.fresh + 1 } |> wr Reg.timServoAdj.base (wrapTo 32 (s.tim.adj.fdiv (2 ^ 16) + (up : Nat)))

/-- The lock state changes (R446, R452). -/
def setLock (on : Bool) (s : State) : State :=
  if s.tim.locked == on then s
  else
    s |> modTim (fun t => { t with locked := on }) |> setFlag Reg.timStatus.base (if on then 10 else 9)
      |> (fun s => if on then s else bump Reg.timSnapCnt.base 3 s) |> postEvent 0x0D 3 0 0 0 (leBytes 1 (b2n on))

/-- An offset, in 2^-8 ns, judged for the lock (R446). -/
def judgeLock (o : Int) (s : State) : State :=
  if o.natAbs ≤ rdF s Reg.timServo.base 16 16 * 256 then
    let n := s.tim.lockRun + 1
    let s := modTim (fun t => { t with lockRun := n }) s
    if 8 ≤ n then setLock true s else s
  else s |> modTim (fun t => { t with lockRun := 0 }) |> setLock false

/-- A step is requested; it replaces one that is pending (R447). -/
def requestStep (by_ : Int) (to_ : Option DevTime) (s : State) : State :=
  modTim (fun t => { t with pendStep := some { by_ := by_, to_ := to_, at_ := t.now } }) s

/-- The servo takes an offset (R445). -/
def servoOffset (o : Int) (s : State) : State :=
  if !rdB s Reg.timCtl.base 0 then s
  else
    let s := s |> bump Reg.timSnapCnt.base 0 |> judgeLock o
    if rdB s Reg.timCtl.base 1 && decide (rdF s Reg.timServo.base 0 16 * 256000 < o.natAbs) then
      s |> requestStep (-o) none |> modTim (fun t => { t with integral := 0 })
    else
      let kp : Int := rdF s Reg.timServoGain.base 0 16
      let ki := rdF s Reg.timServoGain.base 16 16
      let top : Int := 500000 * 2 ^ 16
      let i := s.tim.integral + o
      let i := if ki = 0 then i else clampI (-(top.fdiv ki)) (top.fdiv ki) i
      let adj := clampI (-top) top (-(kp * o + ki * i))
      s |> modTim (fun t => { t with integral := i, adj := adj }) |> settleInc |> showAdj

/-- SERVO_OFFSET_WRITE (R445, R446). -/
def execServoOffsetWrite (w : Writer) (v : Word) (s : State) : Result :=
  run (gate w Reg.timServoOfs.base v (servoOffset v.toInt)) s

/-- A write of TIM_INC_LO is staged (R563). -/
def writeTimIncLo (v : Word) (s : State) : State := modTim (fun t => { t with stagedLo := v }) s

/-- A write of TIM_INC_HI takes the staged low word with it (R563). -/
def writeTimIncHi (v : Word) (s : State) : State :=
  s |> wr Reg.timIncLo.base s.tim.stagedLo.toNat |> wr Reg.timIncHi.base (bits v.toNat 0 4) |> settleInc

/-- TIM_INC_LO_WRITE (R563). -/
def execTimIncLoWrite (w : Writer) (v : Word) (s : State) : Result := run (gate w Reg.timIncLo.base v (writeTimIncLo v)) s

/-- TIM_INC_HI_WRITE (R563). -/
def execTimIncHiWrite (w : Writer) (v : Word) (s : State) : Result := run (gate w Reg.timIncHi.base v (writeTimIncHi v)) s

/-! ## Steps -/

/-- A time from a number of 2^-32 ns, modulo 2^48 seconds. -/
def DevTime.ofUnits (u : Int) : DevTime :=
  let n := (u % ((2 ^ 48 * 1000000000 * 2 ^ 32 : Nat) : Int)).toNat
  { sec := n / 2 ^ 32 / 1000000000, ns := n / 2 ^ 32 % 1000000000, frac := n % 2 ^ 32 }

/-- The time in TIM_SET. -/
def timSet (s : State) : DevTime :=
  DevTime.ofUnits (((rd s Reg.timSetSecLo.base + rdF s Reg.timSetSecHi.base 0 16 * 2 ^ 32) * 1000000000 + rd s Reg.timSetNs.base) * 2 ^ 32 : Nat)

/-- A write of TIM_CTL (R445, R447): servo_en at 0 clears the adjustment; set requests a step to TIM_SET. -/
def writeTimCtl (v : Word) (s : State) : State :=
  let s := wr Reg.timCtl.base (bits v.toNat 0 2) s
  let s := if v.toNat.testBit 0 then s
           else s |> modTim (fun t => { t with adj := 0 }) |> settleInc |> wr Reg.timServoAdj.base 0
  if v.toNat.testBit 8 then requestStep 0 (some (timSet s)) s else s

/-- TIME_STEP_REQUEST (R447): a write of TIM_STEP. -/
def execTimeStepRequest (w : Writer) (v : Word) (s : State) : Result :=
  run (gate w Reg.timStep.base v (requestStep (v.toInt * 256) none)) s

/-- TIME_SET_REQUEST (R447): a write of TIM_CTL. -/
def execTimeSetRequest (w : Writer) (v : Word) (s : State) : Result := run (gate w Reg.timCtl.base v (writeTimCtl v)) s

/-- The instant of a step, in 2^-32 ns: the first whole millisecond at least 10 µs after the request (R447). -/
def stepInstant (p : PendStep) : Nat := ceilDiv (timeUnits p.at_ + 10000 * 2 ^ 32) (1000000 * 2 ^ 32) * (1000000 * 2 ^ 32)

/-- Whole ns of a distance in 2^-32 ns; which way a fraction goes is free. -/
def roundNs (d : Int) (s : State) : Int × State :=
  (d.fdiv (2 ^ 32) + (if d % 2 ^ 32 = 0 then (0 : Int) else (Config.freeNat s.fresh % 2 : Nat)), { s with fresh := s.fresh + 1 })

/-- The times that durations are measured from, moved along with a step, so that a step lengthens and shortens none of them (R448): an
output's governor, the spacing of triggers, waits, and the transmit cap. -/
def shiftTimes (d : Int) (s : State) : State :=
  let mv := fun (t : DevTime) => DevTime.ofUnits ((timeUnits t : Int) + d)
  let job := fun (j : Job) => { j with at_ := mv j.at_ }
  { s with
    ouv := { s.ouv with outputs := s.ouv.outputs.map fun o =>
      { o with since := mv o.since, lastOff := o.lastOff.map mv, starts := o.starts.map mv } }
    ports := s.ports.map fun p => { p with lastTrig := p.lastTrig.map mv }
    tasks := s.tasks.map fun k => { k with readySince := mv k.readySince }
    eng := { s.eng with jobs := s.eng.jobs.map job, running := s.eng.running.map fun r => { r with job := job r.job } }
    led := { s.led with items := s.led.items.map fun i => { i with lastIn := i.lastIn.map fun x => (x.1, mv x.2) } }
    tim := { s.tim with capFree := ((s.tim.capFree : Int) + d).toNat } }

/-- TIME_STEP_APPLY (R446-R448, R452). -/
def execTimeStepApply (s : State) : Result :=
  run (fun s =>
    match s.tim.pendStep with
    | none => s
    | some p =>
      if timeUnits s.tim.now < stepInstant p then s
      else
        let was : Int := timeUnits s.tim.now
        let t := match p.to_ with
          | some t => t
          | none => DevTime.ofUnits (was + p.by_ * 2 ^ 24)
        let d : Int := match p.to_ with | some t => (timeUnits t : Int) - was | none => p.by_ * 2 ^ 24
        let (ns, s) := roundNs d s
        s |> shiftTimes d |> modTim (fun u => { u with now := t, pendStep := none, lockRun := 0 })
          |> modOuv (fun o => if o.powered then { o with time := t } else o)
          |> setFlag Reg.timStatus.base 8 |> bump Reg.timSnapCnt.base 1 |> postEvent 0x0D 2 0 0 0 (leBytes 8 (wrapTo 64 ns))
          |> setLock false) s

/-! ## Compare channels -/

/-- The target of channel `k` in ns. -/
def cmpTarget (s : State) (k : Nat) : Nat :=
  (rd s (Reg.timCmpSecLo.off k 0) + rdF s (Reg.timCmpSecHi.off k 0) 0 16 * 2 ^ 32) * 1000000000 + rd s (Reg.timCmpNs.off k 0)

/-- Device time minus the target: a signed count of ns modulo 2^48 s (R449). -/
def cmpDiff (s : State) (k : Nat) : Int :=
  let m : Int := 2 ^ 48 * 1000000000
  let d := (((s.tim.now.sec * 1000000000 + s.tim.now.ns : Nat) : Int) - cmpTarget s k) % m
  if d < m / 2 then d else d - m

/-- The period of channel `k`; below 1,000 acts as 1,000. -/
def cmpPer (s : State) (k : Nat) : Nat := max 1000 (rd s (Reg.timCmpPer.off k 0))

/-- Sets the target of a channel. -/
def setTarget (k n : Nat) (s : State) : State :=
  let sec := n / 1000000000
  s |> wr (Reg.timCmpSecLo.off k 0) (sec % 2 ^ 32) |> wr (Reg.timCmpSecHi.off k 0) (sec / 2 ^ 32 % 65536)
    |> wr (Reg.timCmpNs.off k 0) (n % 1000000000)

/-- An armed channel's target is reached. -/
def cmpDue (s : State) (k : Nat) : Bool := rdB s (Reg.timCmpCtl.off k 0) 0 && decide (0 ≤ cmpDiff s k)

/-- A step that is due, or a lower channel that is, comes first in this clock (R451). -/
def cmpWaits (s : State) (k : Nat) : Bool :=
  s.tim.pendStep.elim false (fun p => decide (stepInstant p ≤ timeUnits s.tim.now)) || (List.range k).any (cmpDue s)

/-- COMPARE_FIRE (R449-R452). -/
def execCompareFire (k : Nat) (s : State) : Result :=
  run (fun s =>
    let c := rd s (Reg.timCmpCtl.off k 0)
    let d := cmpDiff s k
    if 8 ≤ k ∨ bitOf c 0 = false ∨ d < 0 ∨ cmpWaits s k = true then s
    else
      let periodic := bitOf c 1
      let skipped := if periodic then d.toNat / cmpPer s k else 0
      let s := if periodic then
                 s |> setTarget k (cmpTarget s k + (skipped + 1) * cmpPer s k)
                   |> wrF (Reg.timCmpCtl.off k 0) 16 16 (min 65535 (bits c 16 16 + skipped))
               else wrF (Reg.timCmpCtl.off k 0) 0 1 0 s
      let s := s |> setFlag Reg.timStatus.base k |> bump Reg.timSnapCnt.base 2
      let s := if bitOf c 2 then postEvent 0x0D 1 k 0 0 (leBytes 2 (min 65535 skipped)) s else s
      if bitOf c 3 then raiseVec (bits c 4 6) s else s) s

/-! ## The Ethernet port -/

/-- The module's MAC address. -/
def macOf (s : State) : Nat := rd s Reg.ethMacLo.base + rdF s Reg.ethMacHi.base 0 16 * 2 ^ 32

/-- A frame that the port takes (R453, R454): its length, no VLAN tag, and an address of the port. -/
def frameTaken (s : State) (f : List Byte) : Bool :=
  decide (f.length ≤ 1522) && decide (beAt f 12 2 ≠ 0x8100) &&
    [macOf s, 0xFFFFFFFFFFFF, 0x011B19000000, 0x0180C200000E].contains (beAt f 0 6)

/-- A frame is IPv4 to ETH_IP with a protocol number. -/
def ipTo (s : State) (f : List Byte) (proto : Nat) : Bool :=
  beAt f 12 2 == 0x0800 && beAt f 23 1 == proto && beAt f 30 4 == rd s Reg.ethIp.base

/-- Where the payload of an IPv4 frame begins. -/
def ipPayload (f : List Byte) : Nat := 14 + 4 * (beAt f 14 1 % 16)

/-- A frame matches a filter word (R454). -/
def filterHit (s : State) (f : List Byte) (c : Nat) : Bool :=
  bitOf c 0 && (match bits c 1 2 with
    | 0 => beAt f 12 2 == bits c 16 16
    | 1 => ipTo s f 17 && beAt f (ipPayload f + 2) 2 == bits c 16 16
    | 2 => ipTo s f 1
    | _ => false)

/-- A time moved by a number of 2^-8 ns. -/
def DevTime.shift (t : DevTime) (d : Int) : DevTime := DevTime.ofUnits ((timeUnits t : Int) + d * 2 ^ 24)

/-- Where the PTP message of a frame begins: after the MAC header, or after the UDP header (R455). -/
def ptpAt (f : List Byte) : Nat := if beAt f 12 2 = 0x88F7 then 14 else ipPayload f + 8

/-- A frame carries a PTP message over a transport of R455: IEEE 802.3, or UDP over IPv4 by the ports of the reset filters. -/
def carriesPtp (f : List Byte) : Bool :=
  beAt f 12 2 == 0x88F7 ||
    (beAt f 12 2 == 0x0800 && beAt f 23 1 == 17 && [319, 320].contains (beAt f (ipPayload f + 2) 2))

/-- The messageType of a PTP frame. -/
def ptpType (f : List Byte) : Nat := beAt f (ptpAt f) 1 % 16

/-- An event message: Sync, Delay_Req, Pdelay_Req, Pdelay_Resp (R458). -/
def ptpEvent (f : List Byte) : Bool := decide (ptpType f < 4)

/-- A PTP frame that the module's clock takes part in (R455): a domain of 0 to 127, and no management message. -/
def ptpServed (f : List Byte) : Bool := carriesPtp f && decide (beAt f (ptpAt f + 4) 1 ≤ 127) && decide (ptpType f ≠ 0xD)

/-- A PTP frame that the module may send (R455): one of those, and two-step where the message has that flag, in Sync and Pdelay_Resp. -/
def ptpSendable (f : List Byte) : Bool :=
  ptpServed f && ((ptpType f != 0 && ptpType f != 3) || (beAt f (ptpAt f + 6) 1).testBit 1)

/-- A message that an ordinary clock sends as what it is (R455): a master Sync, Follow_Up, Delay_Resp and Announce, a slave Delay_Req; the
delay messages of the mechanism that policy selects, and no others. -/
def ptpOfRole (master : Bool) (f : List Byte) : Bool :=
  match ptpType f with
  | 0 | 8 | 0xB => master
  | 1 => !master && !Config.ptpPeerDelay
  | 9 => master && !Config.ptpPeerDelay
  | 2 | 3 | 0xA => Config.ptpPeerDelay
  | _ => true

/-- A frame of at most 1,522 bytes with its check sequence (R453). -/
def fitsWire (b : List Byte) : Bool := decide (b.length ≤ 1518)

/-- Whether the clock is a master once it has taken a frame: in slave-only operation never, else as the best master clock algorithm decides,
which is named only (R455, log entry 61). -/
def bestMaster (s : State) (f : List Byte) : Bool :=
  if !fwUp s || !ptpServed f then s.tim.ptpMaster else !Config.ptpSlaveOnly && Config.freeNat s.fresh % 4 / 2 == 1

/-- What PTP firmware sends on a PTP frame (R454, R455): which messages, and whether their descriptors have the write-back bit, is free. -/
def ptpFrames (s : State) (f : List Byte) : List TxEntry :=
  if !ptpServed f then []
  else ((Config.ptpSends s.fresh f).filter fun b => ptpSendable b && ptpOfRole (bestMaster s f) b && fitsWire b).map fun b =>
    { kind := if ptpEvent b then 0 else 2, bytes := b, writeBack := Config.freeNat s.fresh % 2 == 1, deferred := false }

/-- A frame that firmware queues. -/
def plainFrame (b : List Byte) : TxEntry := { kind := 2, bytes := b, writeBack := false, deferred := false }

/-- An answer, if it is no longer than a frame may be (R453). -/
def answerFrame (b : List Byte) : List TxEntry := if fitsWire b then [plainFrame b] else []

/-- What firmware answers a frame with: ARP for ETH_IP, ICMP echo, and PTP (R454). -/
def replyTo (s : State) (f : List Byte) : List TxEntry :=
  if !fwUp s then []
  else if beAt f 12 2 = 0x0806 ∧ beAt f 20 2 = 1 ∧ beAt f 38 4 = rd s Reg.ethIp.base then answerFrame (Config.frameReply 0 f)
  else if ipTo s f 1 = true ∧ beAt f (ipPayload f) 1 = 8 then answerFrame (Config.frameReply 1 f)
  else ptpFrames s f

/-- No power-on or system reset holds the port (R463). -/
def portsUp (s : State) : Bool := coreUp s || s.rst.level == 0

/-- ETH_FRAME_RECEIVE (R453, R454, R456). -/
def execEthFrameReceive (frame : List Byte) (s : State) : Result :=
  run (fun s =>
    if !s.tim.ethUp || !portsUp s then s
    else
      let s := bump Reg.ethSnapCnt.base 0 s
      if frameTaken s frame && (List.range 8).any (fun k => filterHit s frame (rd s (Reg.ethFilt.off k 0))) then
        let t := s.tim.now.shift (-(rdF s Reg.ethTsLat.base 0 16 : Int))
        { modTim (fun u => { u with rxQ := u.rxQ ++ [(frame, t)], txQ := u.txQ ++ replyTo s frame, ptpMaster := bestMaster s frame }) s with fresh := s.fresh + 1 }
      else bump Reg.ethSnapCnt.base 1 s) s

/-- The entry that leaves next: PTP event frames, then datagrams, then other frames (R459). -/
def nextTx (q : List TxEntry) : Option TxEntry :=
  match q.find? fun e => e.kind == 0 with
  | some e => some e
  | none => match q.find? fun e => e.kind == 1 with
    | some e => some e
    | none => q.head?

/-- A PTP event message enters the time-stamp queue, or is dropped (R458). -/
def pushStamp (f : List Byte) (t : DevTime) (s : State) : State :=
  if 16 ≤ s.tim.tsQ.length then
    s |> setFlag Reg.ethStatus.base 3 |> bump Reg.ethSnapCnt.base 4 |> postEvent 0x0D 6 0 0 0 (leBytes 4 1)
  else
    let p := ptpAt f
    modTim (fun u => { u with tsQ := u.tsQ ++ [{ time := t, msgType := beAt f p 1 % 16, domain := beAt f (p + 4) 1,
                                                  seqId := beAt f (p + 30) 2 }] }) s

/-- The frame check sequence that ends a frame on the wire, which R461 counts in its length: CRC-32 of IEEE 802.3 (log entry 96). -/
def frameCheck (bs : List Byte) : List Byte :=
  leBytes 4 (revBits 32 (bs.foldl (fun r b => (List.range 8).foldl (fun r i => crcBitN 32 0x04C11DB7 r (b.toNat.testBit i)) r) 0xFFFFFFFF) ^^^ 0xFFFFFFFF)

/-- ETH_TXCAP.mbps. -/
def txCap (s : State) : Nat := rdF s Reg.ethTxcap.base 0 16

/-- The cap holds back the next frame (R459): at 0 every frame, else until the one before it has taken its time at the capped rate (log
entry 61). -/
def txHeld (s : State) : Bool := txCap s == 0 || decide (timeUnits s.tim.now < s.tim.capFree)

/-- The cap defers a frame: counted once for each frame (R464). -/
def deferTx (e : TxEntry) (s : State) : State :=
  if e.deferred then s
  else s |> modTim (fun u => { u with txQ := updFirst (fun x => x == e) (fun x => { x with deferred := true }) u.txQ })
         |> bump Reg.ethSnapCnt.base 5

/-- The frame that an entry puts on the wire: the first datagram sent after a drop carries its mark (R462). -/
def wireBytes (s : State) (e : TxEntry) : List Byte :=
  let bs := if e.kind = 1 ∧ s.tim.dropMark = true then markDropped e.bytes else e.bytes
  bs ++ frameCheck bs

/-- A frame leaves (R456-R460, R462). -/
def sendFrame (e : TxEntry) (s : State) : State :=
  let t := s.tim.now.shift (rdF s Reg.ethTsLat.base 16 16)
  let w := wireBytes s e
  let s := modTim (fun u => { u with
    txQ := dropFirst (fun x => x == e) u.txQ, dropMark := if e.kind = 1 then false else u.dropMark
    capFree := max (timeUnits u.now) u.capFree + ceilDiv (w.length * 8 * 1000 * 2 ^ 32) (txCap s)
    txDone := if e.writeBack then u.txDone ++ [(e.bytes, timeBytes t)] else u.txDone }) s
  let s := if e.kind = 1 then s |> bump Reg.ethSnapCnt.base 2 |> emit (.datagram w) else emit (.frame w) s
  if e.kind = 0 then pushStamp e.bytes t s else s

/-- ETH_FRAME_TRANSMITTED (R456-R460, R462, R464). -/
def execEthFrameTransmitted (s : State) : Result :=
  run (fun s =>
    if !s.tim.ethUp || !portsUp s then s
    else match nextTx s.tim.txQ with
    | none => s
    | some e => if txHeld s then deferTx e s else sendFrame e s) s

/-- TIMESTAMP_QUEUE_CONSUMED (R458). -/
def execTimestampQueueConsumed (s : State) : Result :=
  run (fun s => if fwUp s then modTim (fun t => { t with tsQ := t.tsQ.drop 1 }) s else s) s

/-- ETH_CFG names a mode of the port (R453): 25GBASE-R with no FEC, RS-FEC or BASE-R FEC, 10GBASE-R without FEC. -/
def ethModeOk (s : State) : Bool :=
  let fec := rdF s Reg.ethCfg.base 1 2
  if rdB s Reg.ethCfg.base 0 then decide (fec ≤ 2) else fec == 0

/-- The link comes up or falls: flag and event. -/
def setEthLink (up : Bool) (s : State) : State :=
  s |> modTim (fun t => { t with ethUp := up }) |> setFlag Reg.ethStatus.base (if up then 0 else 1)
    |> postEvent 0x0D 4 0 0 0 (leBytes 1 (b2n up) ++ leBytes 1 (b2n (rdB s Reg.ethCfg.base 0)))

/-- A write of ETH_CFG: in no mode of the port the link cannot stay up (R453, log entry 61). -/
def judgeEthMode (s : State) : State := if s.tim.ethUp && !ethModeOk s then setEthLink false s else s

/-- ETH_LINK_CHANGE (R452, R453): in no other mode does the link come up. -/
def execEthLinkChange (up : Bool) (s : State) : Result :=
  run (fun s =>
    if s.tim.ethUp == up || !portsUp s || (up && !ethModeOk s) then s else setEthLink up s) s

end Sys2Proof.Machine
end

