-- ==== Sys2Proof/Machine/Views.lean ====
section
/-! DEFINITION. Reading registers (R9, R552-R556, R560, R562): the words that follow other state, the latch groups, and the accesses that no
register answers. -/

namespace Sys2Proof.Machine

open Sys2Proof

/-! ## Words that follow other state -/

/-- A bitmap of the indices below `n` that satisfy `p`. -/
def bitmap (n : Nat) (p : Nat → Bool) : Nat := ((List.range n).map fun i => if p i then 2 ^ i else 0).sum

/-- SQ_FREE, SQ_SPARE, SQ_PART_OVER, SQ_USE, SQ_KV_USE, SQ_BANKMAP (03). -/
def viewSq (s : State) (off : Nat) : Option Nat :=
  if off = Reg.sqFree.base then some (freeGranules s + longestRun s * 65536)
  else if off = Reg.sqSpare.base then some s.sq.sparesUsed
  else if off = Reg.sqPartOver.base then some (bitmap 16 (partOver s))
  else if Reg.sqUse.holds off then
    let p := Reg.sqUse.index off
    some (partUse s p + 65536 * b2n (partOver s p))
  else if Reg.sqKvUse.holds off then some (heldBlocks s (Reg.sqKvUse.index off)).length
  else if Reg.sqBankmap.holds off then
    some (rd s off + 256 * b2n (s.sq.retiring.any fun r => r.bank == Reg.sqBankmap.index off))
  else none

/-- TC_SPARE and TC_STATE (04). -/
def viewTc (s : State) (off : Nat) : Option Nat :=
  if off = Reg.tcSpare.base then
    some (bits (tvRead s off) 0 5 + (spareCore s).getD 0 * 256 + 32768 * b2n (spareCore s).isNone)
  else if Reg.tcState.holds off then
    let c := coreOf s (Reg.tcState.index off)
    some (c.st + 4 * b2n c.task.isSome + 8 * b2n c.gated)
  else none

/-- The SEQ views of a core (04): zero while no task is on it. -/
def viewSeq (s : State) (off : Nat) : Option Nat :=
  let n := (off - 0xA0000) / 64
  if off / 65536 ≠ 0xA ∨ 16 < n then none
  else
    let f := fun (g : Task → Nat) => some (((coreOf s n).task.bind (taskOf s)).elim 0 g)
    match off % 64 with
    | 0 => f fun k => k.id.handle + ((progOf s k.id.handle).elim 0 fun p => taskIndex p k.id) * 256 + k.prio * 2 ^ 24
    | 4 => f fun k => k.regs.next
    | 8 => f fun k => k.regs.step
    | 12 => f fun k =>
      let q := fun (i : Nat) => (k.waits.filter fun w => w.q == i).length
      q 1 + q 2 * 256 + q 3 * 65536
    | 24 => f fun k => bitmap 32 fun i => k.regs.local_.getD i 0 != 0
    | 28 => f fun k => bitmap 32 fun i => k.regs.local_.getD (32 + i) 0 != 0
    | _ => none

/-- RBT_CTL.det, RBT_READY and the SQM clients (08). -/
def viewSched (s : State) (off : Nat) : Option Nat :=
  let tasks := fun (st : TaskState) (p : Nat) => (s.tasks.filter fun k => k.st == st && k.prio == p).length
  if off = Reg.rbtCtl.base then some (rd s off + 256 * b2n (detMode s))
  else if Reg.rbtReady.holds off then
    let p := Reg.rbtReady.index off
    some (tasks .ready p + tasks .saved p * 65536)
  else if Reg.sqmCli.holds off then
    let c := clientOf s (Reg.sqmCli.index off)
    some (c.handle + c.part * 256 + 65536 * b2n (s.tasks.any fun k => k.waits.any fun w => stepWaits (Reg.sqmCli.index off) w.w))
  else if Reg.sqmMemb.holds off then
    let q := s.seqs.filter fun x => x.client == Reg.sqmMemb.index off
    some ((q.filter (·.member)).length + (q.filter fun x => !x.member).length * 65536)
  else if Reg.sqmIds.holds off then
    some ((progOf s (clientOf s (Reg.sqmIds.index off)).handle).elim 0 fun p => p.idFirst + p.kvSeqs * 65536)
  else if Reg.sqmFree.holds off then
    let c := clientOf s (Reg.sqmFree.index off)
    some (if c.handle = 0 then 0 else (freeBlocks s c.part).length)
  else none

/-- ISP_CUR, ISP_PCTL, ISP_PGEN (10). -/
def viewIsp (s : State) (off : Nat) : Option Nat :=
  if Reg.ispCur.holds off then
    some ((pipeAt s (Reg.ispCur.index off)).serving.elim 0 fun v =>
      1 + 2 * v.ctx + portCode v.port * 256 + 8192 * b2n (v.waiting || v.sigWait))
  else if Reg.ispPctl.holds off then
    let x := ctxOf s (Reg.ispPctl.index off) (Reg.ispPctl.word off)
    some (rd s off / 256 * 256 + 2 * b2n x.loadingSet + 4 * b2n x.pending.isSome)
  else if Reg.ispPgen.holds off then some (ctxOf s (Reg.ispPgen.index off) (Reg.ispPgen.word off)).gen
  else none

/-- The kind of engine whose X_BUSY register lies at an offset. -/
def busyKind (off : Nat) : Option Nat :=
  if off = Reg.wrpBusy.base then some 0
  else if off = Reg.roiBusy.base then some 1
  else if off = Reg.srtBusy.base then some 2
  else if off = Reg.bcdBusy.base then some 3
  else if off = Reg.recBusy.base then some 4
  else if off = Reg.hshBusy.base then some 5
  else if off = Reg.crcBusy.base then some 6
  else if off = Reg.cadBusy.base then some 7
  else if off = Reg.dmaBusy.base then some 8
  else none

/-- Jobs of the loader that wait in a kind's queue (R381, R382). -/
def loaderQueued (s : State) (k : Nat) : Nat := s.eng.loader.elim 0 fun l => if k = 5 then l.hashes else if k = 6 then l.checks else 0

/-- X_BUSY (R571, 11). -/
def viewBusy (s : State) (off : Nat) : Option Nat :=
  (busyKind off).map fun k =>
    bitmap (engCount k) (fun e => (runningOn s k e).isSome) + ((s.eng.jobs.filter fun j => j.kind == k).length + loaderQueued s k) * 65536

/-- The reset, trust, host-link and power words (15-17). -/
def viewTrust (s : State) (off : Nat) : Option Nat :=
  let word := fun (l : List Byte) (d : RegDef) => some (leAt l (4 * d.index off) 4)
  if off = Reg.rstFuse.base then some (tvRead s off % 2)
  else if off = Reg.rstWdog.base then some (setBits (rd s off) 16 1 (b2n (rdB s off 16 || bitOf (tvRead s Reg.rstFuse.base) 0)))
  else if off = Reg.rstBakSys.base then some s.rst.bakSys.toNat
  else if off = Reg.rstBakCore.base then some s.rst.bakCore.toNat
  else if off = Reg.rstBakStat.base then some (b2n s.rst.bakValid)
  else if Reg.rstHist.holds off then
    let i := Reg.rstHist.index off
    some (bits (s.rst.hist.getD (i / 2) 0).toNat (32 * (i % 2)) 32)
  else if off = Reg.secSvn.base then some (rdF s off 0 6 + s.fuse.svn * 256)
  else if off = Reg.secKeys.base then some (tvRead s off % 16 + rdF s off 8 2 * 256)
  else if Reg.secMeas.holds off then word s.rst.measurement Reg.secMeas
  else if Reg.secAliasPk.holds off then word s.rst.aliasPk Reg.secAliasPk
  else if Reg.secDevidPk.holds off then word s.rst.devidPk Reg.secDevidPk
  else if Reg.msixPba.holds off then some (bits s.host.vecPend.toNat (32 * Reg.msixPba.index off) 32)
  else if off = Reg.pwrThrot.base then some (throttle s + 8 * b2n s.pwr.demandP + 16 * b2n s.pwr.demandT)
  else if Reg.blvPrbs.holds off then
    let e := rd s off
    some (if e < 2 ^ 31 then e + 2 ^ 31 * b2n ((blvOf s (Reg.blvPrbs.index off)).locks.getD (Reg.blvPrbs.word off) false) else e)
  else none

/-- ENC words of a channel (R440). -/
def viewEnc (s : State) (off : Nat) : Option Nat :=
  let at_ := fun (d : RegDef) => encOf s (d.index off)
  if Reg.encPosLo.holds off then some ((at_ Reg.encPosLo).pos.toNat % 2 ^ 32)
  else if Reg.encPosHi.holds off then some ((at_ Reg.encPosHi).pos.toNat / 2 ^ 32)
  else if Reg.encSpeed.holds off then some (wrapTo 32 (divHalfEven ((at_ Reg.encSpeed).vhat * 1000) (2 ^ 22)))
  else if Reg.encAccel.holds off then some (wrapTo 32 (at_ Reg.encAccel).ahat)
  else if Reg.encState.holds off then
    let e := at_ Reg.encState
    some (b2n e.reverse + e.biss % 4 * 256)
  else if Reg.encZpos.holds off then some (bits (at_ Reg.encZpos).zpos.toNat (32 * Reg.encZpos.word off) 32)
  else none

/-- The bytes of a Kerb entry (R423). -/
def entryBytes (e : KerbEntry) : List Byte :=
  if e.kind = 0 then List.replicate 32 0
  else leBytes 1 e.kind ++ leBytes 1 e.chan ++ leBytes 1 e.flags ++ leBytes 1 0 ++ leBytes 4 e.item.toNat ++ leBytes 8 e.target.toNat
    ++ leBytes 4 e.param ++ leBytes 4 e.count ++ leBytes 8 (if e.kind = 2 then e.stop.toNat else 0)

/-- DIO_IN and the KRB words (R421, R423, R431, R435). -/
def viewField (s : State) (off : Nat) : Option Nat :=
  if off = Reg.dioIn.base then some (bitmap 32 fun n => (inputOf s n).level)
  else if off = Reg.krbUsed.base then some (kerbUsed s + rdF s off 16 9 * 65536)
  else if Reg.krbLim.holds off ∨ Reg.krbRate.holds off then some (tvRead s off)
  else if Reg.krbTplan.holds off then
    some (leAt ((s.plans[Reg.krbTplan.index off]?).elim [] (·.bytes)) (4 * Reg.krbTplan.word off) 4)
  else if Reg.krbEntry.holds off then
    some (leAt (entryBytes (s.ouv.entries.getD (Reg.krbEntry.index off) KerbEntry.free)) (4 * Reg.krbEntry.word off) 4)
  else none

/-- Device time and the time-stamp queue (R444, R458). -/
def viewTime (s : State) (off : Nat) : Option Nat :=
  let t := s.tim.now
  if off = Reg.timNowSecLo.base then some (t.sec % 2 ^ 32)
  else if off = Reg.timNowSecHi.base then some (t.sec / 2 ^ 32 % 65536)
  else if off = Reg.timNowNs.base then some t.ns
  else if off = Reg.timNowSub.base then some (t.frac / 65536)
  else if off = Reg.ethTsq.base then some s.tim.tsQ.length
  else none

/-- A status register's flags and sequence: ITM_STATUS flag 1 follows the overflow area (R65). -/
def statusWord (s : State) (off : Nat) : Nat :=
  if off = Reg.itmStatus.base then setBits (rd s off) 1 1 (b2n (!s.led.overflow.isEmpty)) else rd s off

/-- GLB_SUMMARY (R567): bit b while a flag of a status register of block b is 1. -/
def summaryWord (s : State) : Nat :=
  bitmap 31 fun b => (regMap.filter fun d => d.status && d.base / 65536 == b).any fun d =>
    (List.range d.n).any fun i => statusWord s (d.off i 0) % 65536 != 0

/-- Some program is loaded (GLB_MODE.loaded, R385). -/
def anyLoaded (s : State) : Bool := s.progs.any fun p => !p.loading

/-- The GLB words (R566, R567, R569). -/
def viewGlb (s : State) (off : Nat) : Option Nat :=
  if off = Reg.glbMode.base then some (rd s off + 2 * b2n (anyLoaded s))
  else if off = Reg.glbSnapAll.base then some (rd s off + b2n s.snapPending)
  else if off = Reg.glbCores.base then
    some (bitmap 17 (fun n => (coreOf s n).st == 0) + 2 ^ 24 * b2n (spareCore s).isSome)
  else if off = Reg.glbFenced.base then some (bitmap 17 fun n => (coreOf s n).st == 2)
  else if off = Reg.glbSummary.base then some (summaryWord s)
  else if off = Reg.itmStatus.base then some (statusWord s off)
  else if off = Reg.itmInflight.base then some (inflight s)
  else none

/-- The first of the views that knows an offset. -/
def firstView : List (Option Nat) → Option Nat
  | [] => none
  | some v :: _ => some v
  | none :: l => firstView l

/-- What a register reads as now (R9): WO and RV bits as zero. -/
def liveWord (s : State) (off : Nat) : Nat :=
  (firstView [viewGlb s off, viewTrust s off, viewSq s off, viewTc s off, viewSeq s off, viewSched s off, viewIsp s off, viewBusy s off,
              viewTime s off, viewEnc s off, viewField s off]).getD (rd s off) % 2 ^ 32

/-! ## Latch groups -/

/-- The offsets that a read of the first word of a latch group latches (R562). -/
def groupOf (off : Nat) : List Nat :=
  if off = Reg.timNowSecLo.base then [Reg.timNowSecHi.base, Reg.timNowNs.base, Reg.timNowSub.base]
  else if Reg.encPosLo.holds off then
    let n := Reg.encPosLo.index off
    [Reg.encPosHi.off n 0, Reg.encSpeed.off n 0, Reg.encAccel.off n 0, Reg.encState.off n 0]
  else if Reg.dioEdge.holds off && Reg.dioEdge.word off == 0 then [off + 4, off + 8, off + 12]
  else []

/-- A later word of a latch group. -/
def latchedWord (off : Nat) : Bool :=
  off == Reg.timNowSecHi.base || off == Reg.timNowNs.base || off == Reg.timNowSub.base || Reg.encPosHi.holds off || Reg.encSpeed.holds off
    || Reg.encAccel.holds off || Reg.encState.holds off || (Reg.dioEdge.holds off && Reg.dioEdge.word off != 0)

/-- The word that a requester latched last, zero if none (R562). -/
def latchOf (s : State) (w : Writer) (off : Nat) : Nat :=
  ((s.latches.find? fun l => l.who == w && l.off == off).map fun l => l.v.toNat).getD 0

/-- A requester latches words. -/
def latchWords (w : Writer) (offs : List Nat) (s : State) : State :=
  let new := offs.map fun o => ({ who := w, off := o, v := BitVec.ofNat 32 (liveWord s o) } : Latched)
  { s with latches := (s.latches.filter fun l => !(l.who == w && offs.contains l.off)) ++ new }

/-! ## Reads -/

/-- A register read by one side (R552-R556, R562): all ones from a silent block, zero and a record where no register is; what an Ouvfi
without field supply answers is free. -/
def readReg (w : Writer) (off : Nat) (s : State) : Nat × State :=
  if silent s off false then (2 ^ 32 - 1, s)
  else if (regAt off).isNone then (0, badAccess w off false false s)
  else if fieldOff off && !s.ouv.powered then (Config.freeNat s.fresh % 2 ^ 32, { s with fresh := s.fresh + 1 })
  else if latchedWord off then (latchOf s w off, s)
  else (liveWord s off, latchWords w (groupOf off) s)

/-- LATCH_GROUP_READ (R440, R444, R554, R562): a read by one side of `n` bytes of a register word, the first at `off`; the whole word is
read, and the bytes asked for are the row's answer. The first word of a group latches the others. -/
def execLatchGroupRead (w : Writer) (off n : Nat) (s : State) : Result :=
  run (fun s =>
    let (v, s) := readReg w (off / 4 * 4) s
    { s with rdata := bits v (8 * (off % 4)) (8 * n) }) s

end Sys2Proof.Machine
end

