-- ==== Sys2Proof/Machine/Registers.lean ====
section
/-! DEFINITION. Writing registers (R9-R14, R474, R475, R552-R571): the plain store of a register's fields, the writes that a block acts on,
clearing of status flags, snapshots, the bit alias of the control page, and the semaphores. -/

namespace Sys2Proof.Machine

open Sys2Proof

/-! ## Plain stores and status registers -/

/-- A write stores the RW fields of a register and leaves every other bit (R9). -/
def storeFields (d : RegDef) (off : Nat) (v : Word) (s : State) : State :=
  let m := BitVec.ofNat 32 (d.maskOf .rw)
  wr off ((rdW s off &&& ~~~m) ||| (v &&& m)).toNat s

/-- Flags that a clear cannot take away because what sets them holds (R503, R506). -/
def heldFlags (s : State) (off : Nat) : Nat :=
  if off = Reg.pwrStatus.base then b2n (throttle s != 0) + 4 * b2n (decide (105 ≤ (BitVec.ofNat 8 (rdF s Reg.pwrTemp.base 0 8)).toInt)) else 0

/-- A write of a status register (R13): clears the RWS flags written as 1 if the written sequence is the current one. -/
def clearFlags (d : RegDef) (off : Nat) (v : Word) (s : State) : State :=
  let cur := rdW s off
  if bits v.toNat 16 16 ≠ bits cur.toNat 16 16 then s
  else
    let m := BitVec.ofNat 32 (d.maskOf .rws % 65536) &&& ~~~BitVec.ofNat 32 (heldFlags s off)
    wr off (cur &&& ~~~(v &&& m)).toNat s

/-! ## Snapshots -/

/-- A block's snapshot control register and its counters. -/
structure SnapBlock where
  ctl : RegDef
  cnt : RegDef
  deriving DecidableEq, Repr

/-- The blocks of Eboux that keep counters (R564, R565). -/
def snapEboux : List SnapBlock :=
  [⟨Reg.pciSnapCtl, Reg.pciSnapCnt⟩, ⟨Reg.pwrSnapCtl, Reg.pwrSnapCnt⟩, ⟨Reg.rasSnapCtl, Reg.rasSnapCnt⟩, ⟨Reg.itmSnapCtl, Reg.itmSnapCnt⟩,
   ⟨Reg.sqSnapCtl, Reg.sqSnapCnt⟩, ⟨Reg.tcSnapCtl, Reg.tcCnt⟩, ⟨Reg.rbtSnapCtl, Reg.rbtSnapCnt⟩, ⟨Reg.sqmSnapCtl, Reg.sqmSnapCnt⟩,
   ⟨Reg.ispSnapCtl, Reg.ispSnapCnt⟩, ⟨Reg.cxpSnapCtl, Reg.cxpSnapCnt⟩, ⟨Reg.auxSnapCtl, Reg.auxSnapCnt⟩, ⟨Reg.wrpSnapCtl, Reg.wrpSnapCnt⟩]
  ++
  [⟨Reg.roiSnapCtl, Reg.roiSnapCnt⟩, ⟨Reg.srtSnapCtl, Reg.srtSnapCnt⟩, ⟨Reg.bcdSnapCtl, Reg.bcdSnapCnt⟩, ⟨Reg.recSnapCtl, Reg.recSnapCnt⟩,
   ⟨Reg.cadSnapCtl, Reg.cadSnapCnt⟩, ⟨Reg.crcSnapCtl, Reg.crcSnapCnt⟩, ⟨Reg.hshSnapCtl, Reg.hshSnapCnt⟩, ⟨Reg.dmaSnapCtl, Reg.dmaSnapCnt⟩,
   ⟨Reg.blvSnapCtl, Reg.blvSnapCnt⟩, ⟨Reg.timSnapCtl, Reg.timSnapCnt⟩, ⟨Reg.ethSnapCtl, Reg.ethSnapCnt⟩]

/-- The blocks of Ouvfi that keep counters. -/
def snapOuvfi : List SnapBlock :=
  [⟨Reg.encSnapCtl, Reg.encSnapCnt⟩, ⟨Reg.dioSnapCtl, Reg.dioSnapCnt⟩, ⟨Reg.krbSnapCtl, Reg.krbSnapCnt⟩]

/-- What a counter's unit holds of what the model counts: units of 1,024 (R384, R571), ns counted and µs shown (R289). -/
def counterScale (off : Nat) : Nat :=
  if [Reg.wrpSnapCnt.base + 4, Reg.wrpSnapCnt.base + 16, Reg.recSnapCnt.base + 16, Reg.crcSnapCnt.base + 8, Reg.hshSnapCnt.base + 4,
      Reg.srtSnapCnt.base + 4, Reg.dmaSnapCnt.base + 4, Reg.dmaSnapCnt.base + 20].contains off then 1024
  else if off = Reg.rbtSnapCnt.base + 20 then 1000
  else 1

/-- What a snapshot of a counter latches; ITM_SNAP_CNT[9] is the number of records in the overflow area (R70). -/
def counterNow (s : State) (off : Nat) : Nat :=
  if off = Reg.itmSnapCnt.base + 36 then s.led.overflow.length else ctrOf s off / counterScale off

/-- The counter registers of a block. -/
def counterOffs (d : RegDef) : List Nat := (List.range d.n).flatMap fun i => (List.range d.m).map fun j => d.off i j

/-- What the two SQ counters of waiting have come to by a latch (R110): no rule says how long an access waits, so the longest wait, at most
128 rounds and never less than before, and the clocks that have passed with a unit waiting are free (log entry 17). -/
def noteWaits (s : State) : State :=
  let o := Reg.sqSnapCnt.base
  { s with fresh := s.fresh + 2 } |> setCtr (o + 24) (max (ctrOf s (o + 24)) (Config.freeNat s.fresh % 129))
    |> count (o + 28) (Config.freeNat (s.fresh + 1))

/-- Latches every counter of a block and counts the latch (R564); a PWR latch starts a new peak (R501). -/
def latchBlock (b : SnapBlock) (s : State) : State :=
  let s := if b.ctl.base = Reg.sqSnapCtl.base then noteWaits s else s
  let s := (counterOffs b.cnt).foldl (fun s o => wr o (counterNow s o) s) s
  let s := wr b.ctl.base ((rd s b.ctl.base / 65536 + 1) % 65536 * 65536) s
  if b.ctl.base = Reg.pwrSnapCtl.base then wrF Reg.pwrMeas.base 16 16 0 s else s

/-- The block of a snapshot control register. -/
def snapOf (off : Nat) : Option SnapBlock := (snapEboux ++ snapOuvfi).find? fun b => b.ctl.base == off

/-- A write of GLB_SNAP_ALL (R565). -/
def snapAll (s : State) : State := if s.snapPending then s else { snapEboux.foldl (fun s b => latchBlock b s) s with snapPending := true }

/-! ## Writes that a block acts on -/

/-- A write of GLB_MODE (R385, R388). -/
def writeMode (v : Word) (s : State) : State :=
  let new := v.toNat &&& 0x7F01
  let old := rd s Reg.glbMode.base &&& 0x7F01
  if anyLoaded s && new != old then setFlag Reg.glbStatus.base 2 s
  else
    let s := wr Reg.glbMode.base new s
    if bitOf new 0 && new != old then setAllPoints (detFreq s) s else s

/-- A write of PWR_GOV or PWR_GOV2 (16): out of range, it is ignored with PWR_STATUS flag 6. -/
def writeGov (off : Nat) (v : Word) (s : State) : State :=
  let lo := bits v.toNat 8 7
  let hi := bits v.toNat 16 7
  let busy := bits v.toNat 24 7
  let window := bits v.toNat 0 16
  let ok := if off = Reg.pwrGov.base then decide (40 ≤ lo) && decide (lo ≤ 120) && decide (lo ≤ hi) && decide (hi ≤ 120)
                                            && decide (50 ≤ busy) && decide (busy ≤ 100)
            else decide (16 ≤ window) && decide (window ≤ 4096)
  if ok then wr off (v.toNat &&& (if off = Reg.pwrGov.base then 0x7F7F7FFF else 0xFFFFFF)) s else setFlag Reg.pwrStatus.base 6 s

/-- A write of a ring's base or size: the ring does not follow it while it is enabled (R561). -/
def writeRing (d : RegDef) (off r : Nat) (v : Word) (s : State) : State := if ringEn s r then s else storeFields d off v s

/-- A write of the overflow area's base or size (R65, R67). -/
def writeOvf (d : RegDef) (off : Nat) (v : Word) (s : State) : State :=
  if !s.led.overflow.isEmpty then s
  else
    let s := storeFields d off v s
    if ovfPast s then setFlag Reg.itmStatus.base 5 s else s

/-- A write of a compare target, which an armed channel does not take (R449). -/
def writeTarget (d : RegDef) (off : Nat) (v : Word) (s : State) : State :=
  if rdB s (Reg.timCmpCtl.off (d.index off) 0) 0 then s else storeFields d off v s

/-- A write of SEC_POLICY: mkey_lock is only set (17). -/
def writePolicy (v : Word) (s : State) : State :=
  wr Reg.secPolicy.base (bits v.toNat 0 1 + 2 * b2n (v.getLsbD 1 || rdB s Reg.secPolicy.base 1)) s

/-- A write of RST_WDOG: en ignores it while the fuse forces the watchdog (R529). -/
def writeWdog (v : Word) (s : State) : State :=
  let en := if bitOf (tvRead s Reg.rstFuse.base) 0 then rdB s Reg.rstWdog.base 16 else v.getLsbD 16
  wr Reg.rstWdog.base (bits v.toNat 0 16 + 65536 * b2n en) s

/-- A write of AUX_STORE, ignored while an AUX port is enabled (09). -/
def writeStore (v : Word) (s : State) : State :=
  if (List.range 4).any (fun a => auxEn s a) then s else storeFields Reg.auxStore Reg.auxStore.base v s

/-- A write of TC_SPARE by the control complex loads the three copies of its TV field (R9). -/
def writeSpare (w : Writer) (v : Word) (s : State) : State :=
  if w = .host then s
  else
    let x := BitVec.ofNat 32 (bits v.toNat 0 5)
    { s with tv := (s.tv.filter fun t => t.off != Reg.tcSpare.base) ++ [{ off := Reg.tcSpare.base, c0 := x, c1 := x, c2 := x }] }

/-- Registers of Ouvfi take no write while its field supply is down. -/
def onOuvfi (f : State → State) (s : State) : State := if s.ouv.powered then f s else s

/-- What a write of a register does (R9), in the control, boot, host-link and power blocks. -/
def storeLow (d : RegDef) (off : Nat) (w : Writer) (v : Word) : Option (State → State) :=
  if off = Reg.glbMode.base then some (writeMode v)
  else if off = Reg.glbSnapAll.base then some snapAll
  else if off = Reg.rstWdog.base then some (writeWdog v)
  else if off = Reg.rstKick.base then some id
  else if off = Reg.rstReq.base then some (writeRstReq v)
  else if off = Reg.rstBoot.base then some (writeRstBoot v)
  else if off = Reg.secPolicy.base then some (writePolicy v)
  else if off = Reg.secRoll.base then some (writeRoll v)
  else if off = Reg.pciAp.base then some (writeAperture v)
  else if Reg.pciWinCtl.holds off then some (writeWinCtl (d.index off) v)
  else if Reg.pciWinLo.holds off ∨ Reg.pciWinHi.holds off ∨ Reg.pciWinSize.holds off then some (writeWinWord (d.index off) off v)
  else if Reg.msixTable.holds off then some (writeMsix off v)
  else if off = Reg.pwrGov.base ∨ off = Reg.pwrGov2.base then some (writeGov off v)
  else if off = Reg.rasBlkrst.base then some (writeBlkrst w v)
  else none

/-- In the item, Square, core and camera blocks. -/
def storeMid (d : RegDef) (off : Nat) (w : Writer) (v : Word) : Option (State → State) :=
  let n := d.index off
  if off = Reg.itmCtl.base then some (writeItmCtl v)
  else if off = Reg.itmSubBase.base ∨ off = Reg.itmSubSize.base then some (writeRing d off 0 v)
  else if off = Reg.itmResBase.base ∨ off = Reg.itmResSize.base then some (writeRing d off 1 v)
  else if off = Reg.itmEvtBase.base ∨ off = Reg.itmEvtSize.base then some (writeRing d off 2 v)
  else if off = Reg.itmResCidx.base then some (writeCidx 1 v)
  else if off = Reg.itmEvtCidx.base then some (writeCidx 2 v)
  else if off = Reg.itmOvfBase.base ∨ off = Reg.itmOvfSize.base then some (writeOvf d off v)
  else if Reg.itmSrcCtl.holds off then some (writeSource n v)
  else if Reg.sqQuota.holds off then some (writeQuota n v.toNat)
  else if Reg.sqKvCfg.holds off then some (writeKvCfg n v.toNat)
  else if off = Reg.tcSpare.base then some (writeSpare w v)
  else if off = Reg.tcFence.base then some (writeFence v)
  else if Reg.tcOpp.holds off then some (writeOpp n v)
  else if Reg.ispRoute.holds off then some (writeRoute (2 * n + 1) v.toNat)
  else if Reg.ispPctl.holds off then some (writePctl n (d.word off) v.toNat)
  else if Reg.cxpCtl.holds off then some (writeCxpCtl n v.toNat)
  else if Reg.cxpCcCtl.holds off then some (writeCcCtl n v.toNat)
  else if Reg.auxCtl.holds off then some (writeAuxCtl n v.toNat)
  else if off = Reg.auxStore.base then some (writeStore v)
  else none

/-- In the peer, time and field blocks. -/
def storeHigh (d : RegDef) (off : Nat) (v : Word) : Option (State → State) :=
  let n := d.index off
  if Reg.blvCtl.holds off then some (writeBlvCtl n v)
  else if off = Reg.timCtl.base then some (writeTimCtl v)
  else if off = Reg.timIncLo.base then some (writeTimIncLo v)
  else if off = Reg.timIncHi.base then some (writeTimIncHi v)
  else if off = Reg.timStep.base then some (requestStep (v.toInt * 256) none)
  else if off = Reg.timServoOfs.base then some (servoOffset v.toInt)
  else if Reg.timCmpSecLo.holds off ∨ Reg.timCmpSecHi.holds off ∨ Reg.timCmpNs.holds off then some (writeTarget d off v)
  else if off = Reg.ethCfg.base then some (fun s => s |> storeFields d off v |> judgeEthMode)
  else if Reg.encCfg.holds off then some (writeEncCfg n v)
  else if off = Reg.dioOut.base then some (writeDioOut v)
  else if off = Reg.dioSafe.base then some (writeDioSafe v)
  else if Reg.dioCfg.holds off then some (writeDioCfg n v)
  else none

/-- The first write that a block knows. -/
def firstWrite : List (Option (State → State)) → Option (State → State)
  | [] => none
  | some f :: _ => some f
  | none :: l => firstWrite l

/-- A write that has passed the gate: a status register, a snapshot, a write that a block acts on, or the plain store (R9, R13, R564). -/
def storeReg (d : RegDef) (off : Nat) (w : Writer) (v : Word) (s : State) : State :=
  let f : State → State :=
    if d.status then clearFlags d off v
    else match snapOf off with
      | some b => latchBlock b
      | none => (firstWrite [storeLow d off w v, storeMid d off w v, storeHigh d off v]).getD (storeFields d off v)
  if fieldOff off then onOuvfi f s else f s

/-- A word write through the map by one side: PWR_LIMIT and RST_REQ also note a write from the wrong side (R502, R527). -/
def writeWord (w : Writer) (off : Nat) (v : Word) (s : State) : State :=
  if off = Reg.pwrLimit.base then requestLimit w v s
  else if off = Reg.rstReq.base then requestReset w v s
  else if off = Reg.secRoll.base then pass w off (writeRoll v) s
  else gate w off v (fun s => match regAt off with | some d => storeReg d off w v s | none => s) s

/-! ## Rows -/

/-- REGISTER_WRITE (R9, R552-R561): `enables` are the four byte enables of the access (R554). -/
def execRegisterWrite (w : Writer) (off enables : Nat) (v : Word) (s : State) : Result :=
  run (fun s =>
    if silent s off true then s
    else if enables ≠ 15 ∨ off % 4 ≠ 0 then badAccess w off false true s
    else writeWord w off v s) s

/-- STATUS_REGISTER_CLEAR (R13): a write of a status register. -/
def execStatusRegisterClear (w : Writer) (off : Nat) (v : Word) (s : State) : Result :=
  run (fun s =>
    match regAt off with
    | some d => if d.status then gate w off v (storeReg d off w v) s else s
    | none => s) s

/-- SNAP_LATCH (R564): a write of a block's snapshot control register. -/
def execSnapLatch (w : Writer) (off : Nat) (v : Word) (s : State) : Result :=
  run (fun s =>
    match snapOf off with
    | some b => gate w off v (fun s => if fieldOff off then onOuvfi (latchBlock b) s else latchBlock b s) s
    | none => s) s

/-- GLB_SNAP_ALL (R565). -/
def execGlbSnapAll (w : Writer) (v : Word) (s : State) : Result := run (gate w Reg.glbSnapAll.base v snapAll) s

/-- OUVFI_SNAP_LATCH (R565): the request reaches Ouvfi. -/
def execOuvfiSnapLatch (s : State) : Result :=
  run (fun s =>
    if !s.snapPending || !s.ouv.powered then s
    else
      let s := snapOuvfi.foldl (fun s b => latchBlock b s) s
      { s with snapPending := false } |> wr Reg.glbSnapAll.base ((rd s Reg.glbSnapAll.base / 65536 + 1) % 65536 * 65536)) s

/-- GLB_MODE_WRITE (R385). -/
def execGlbModeWrite (w : Writer) (v : Word) (s : State) : Result := run (gate w Reg.glbMode.base v (writeMode v)) s

/-! ## The bit alias -/

/-- The register offset of a BAR4 address (R474). -/
def aliasOff (a : Nat) : Nat := a / 4 / 32 * 4

/-- The bit of a BAR4 address. -/
def aliasBit (a : Nat) : Nat := a / 4 % 32

/-- The access code of a bit of a register; none for an RV bit. -/
def bitAccess (d : RegDef) (b : Nat) : Option AccessCode := (d.fields.find? fun f => decide (f.lo ≤ b) && decide (b < f.lo + f.w)).map (·.acc)

/-- An alias write that R475 ignores. -/
def aliasRefused (d : RegDef) (b : Nat) : Bool := d.status || d.key != 0 || bitAccess d b == none || bitAccess d b == some .tv

/-- An alias write that finds a register (R474, R475, R559). -/
def aliasWrite (d : RegDef) (a : Nat) (v : Word) (s : State) : State :=
  let off := aliasOff a
  if aliasRefused d (aliasBit a) then setFlag Reg.glbStatus.base 1 s
  else if wrongWriter d .host then setFlag Reg.glbStatus.base 3 s
  else storeReg d off .host (BitVec.ofNat 32 (setBits (rd s off) (aliasBit a) 1 (v.toNat % 2))) s

/-- BAR4_ALIAS_WRITE (R474, R475, R553, R555): a host write of `size` bytes at a BAR4 offset. -/
def execBar4AliasWrite (off size : Nat) (v : Word) (s : State) : Result :=
  run (fun s =>
    let r := aliasOff off
    if silent s r true then s
    else if size ≠ 4 ∨ off % 4 ≠ 0 then badAccess .host r true true s
    else match (if 65536 ≤ r then none else regAt r) with
      | none => badAccess .host r true true s
      | some d => aliasWrite d off v s) s

/-- A host read of `size` bytes at a BAR4 offset (R474, R553, R555): the bit that the word aliases, and zero elsewhere; a semaphore bit is
set by the same access (R556, R570). -/
def aliasRead (a size : Nat) (s : State) : Nat × State :=
  let off := aliasOff a
  if silent s off false then (2 ^ 32 - 1, s)
  else if size ≠ 4 ∨ a % 4 ≠ 0 then (0, badAccess .host off true false s)
  else if 65536 ≤ off ∨ (regAt off).isNone = true then (0, badAccess .host off true false s)
  else if off = Reg.glbSem.base then (rdF s off (aliasBit a) 1, wrF off (aliasBit a) 1 1 s)
  else (bits (liveWord s off) (aliasBit a) 1, s)

/-- GLB_SEM_TEST_AND_SET (R474, R555, R556, R570): a host read through BAR4. -/
def execGlbSemTestAndSet (off size : Nat) (s : State) : Result :=
  run (fun s => let (v, s) := aliasRead off size s; { s with rdata := v }) s

end Sys2Proof.Machine
end

