-- ==== Sys2Proof/Machine/Replay.lean ====
section
/-! DEFINITION. Replay stops (R404-R406): an armed instance stops decoding, empties its queues, writes its whole state and stops its
program. -/

namespace Sys2Proof.Machine

open Sys2Proof

/-- The running task of a core with its program, when its replay stop holds it (R405). -/
def replayTask (s : State) (core : Nat) : Option (Task × Program × ReplayStop) :=
  let c := coreOf s core
  if c.phase ≠ .running then none
  else match c.task.bind (taskOf s) with
    | none => none
    | some k =>
      match progOf s k.id.handle with
      | none => none
      | some p => match p.replay with
        | some r => if replayHolds p k then some (k, p, r) else none
        | none => none

/-- REPLAY_STOP_REACHED (R405): the instance has decoded its step count; from here on it decodes nothing and is no victim. -/
def execReplayStopReached (core : Nat) (s : State) : Result :=
  run (fun s =>
    match replayTask s core with
    | none => s
    | some (_, p, r) => modProg p.handle (fun p => { p with replay := some { r with reached := true } }) s) s

/-- The dump of a task (R406). -/
def replayDump (core : Nat) (k : Task) : List Byte :=
  let r := k.regs
  let flags := r.p.zipIdx.foldl (fun n x => if x.1 then n + 2 ^ x.2 else n) 0
  [0x50, 0x57, 0x44, 0x50] ++ leBytes 2 k.id.tmpl ++ leBytes 2 k.id.inst ++ leBytes 8 r.step ++ leBytes 1 core
    ++ padTo 2 (r.planes.map fun x => BitVec.ofNat 8 x.fmt) ++ List.replicate 45 0
    ++ r.s.flatMap (fun x => leBytes 8 x.toNat) ++ r.t.flatMap (fun x => leBytes 8 x.toNat)
    ++ r.v.flatMap (padTo 256) ++ r.acc.flatMap (fun x => leBytes 18 x.toNat) ++ r.a.flatMap (fun x => leBytes 8 x.toNat)
    ++ r.lc.flatMap (fun x => leBytes 4 x.toNat) ++ leBytes 1 flags ++ leBytes 1 (b2n r.mx + 2 * b2n r.nonfinite) ++ leBytes 6 0
    ++ leBytes 8 r.seed0.toNat ++ leBytes 8 r.seed1.toNat ++ r.local_.flatMap (leBytes 2) ++ List.replicate 72 0
    ++ tbRead r 0 tbBytes

/-- Where the tile buffer lies in a dump (R406). -/
def dumpTile : Nat := 0x35C0

/-- The poisoned words of the tile buffer stand in the dump poisoned, where it lies in memory that holds poison (DESIGN CHOICE, log entry 100). -/
def dumpPoison (r : TaskRegs) (a : Nat) (s : State) : State :=
  match regionOf a with
  | .square | .lpddr => modSq (fun q => { q with poison := r.tbPoison.foldl (fun l w => poisonAdd l ((a + dumpTile) / 8 + w)) q.poison }) s
  | _ => s

/-- REPLAY_DUMP_WRITTEN (R124, R405, R406): every queue is empty and every pass checked; the dump is written and the program stops. -/
def execReplayDumpWritten (cr : CoreRun) (m : MemRun) (s : State) : Result :=
  run (fun s =>
    let core := cr.n
    match replayTask s core with
    | none => s
    | some (k, p, r) =>
      if !r.reached || !k.waits.isEmpty || k.passes != 0 then s
      else
        let s := cr.tb.foldl (fun s h => tileEcc core k.id h s) (seeEcc m.ecc s)
        let k := (taskOf s k.id).getD k
        let (st, s) := runWrite m r.dump (replayDump core k) s
        let s := if st = Stat.ok then dumpPoison k.regs r.dump s else s
        s |> postEvent 7 2 p.handle 0 Stat.ok (leBytes 2 k.id.tmpl ++ leBytes 2 k.id.inst ++ leBytes 1 core ++ leBytes 4 k.regs.next)
          |> stopProgram p.handle) s

end Sys2Proof.Machine
end

