-- ==== Sys2Proof/Machine/Dispatch.lean ====
section
/-! DEFINITION. The effect of each command on everything but the queue: one arm per command, each one call of its meaning. -/

namespace Sys2Proof.Machine

open Sys2Proof

/-- The effect of a command (the queue is left as it is). -/
def exec (i : Instr) (s : State) : Host.Outcome State Fault Refusal :=
  match i with
  | .registerWrite w off enables v => Sys2Proof.Machine.execRegisterWrite w off enables v s
  | .statusRegisterClear w off v => Sys2Proof.Machine.execStatusRegisterClear w off v s
  | .latchGroupRead w off n => Sys2Proof.Machine.execLatchGroupRead w off n s
  | .snapLatch w off v => Sys2Proof.Machine.execSnapLatch w off v s
  | .glbSnapAll w v => Sys2Proof.Machine.execGlbSnapAll w v s
  | .ouvfiSnapLatch => Sys2Proof.Machine.execOuvfiSnapLatch s
  | .bar4AliasWrite off size v => Sys2Proof.Machine.execBar4AliasWrite off size v s
  | .glbSemTestAndSet off size => Sys2Proof.Machine.execGlbSemTestAndSet off size s
  | .glbModeWrite w v => Sys2Proof.Machine.execGlbModeWrite w v s
  | .timIncLoWrite w v => Sys2Proof.Machine.execTimIncLoWrite w v s
  | .timIncHiWrite w v => Sys2Proof.Machine.execTimIncHiWrite w v s
  | .subRingEnable w => Sys2Proof.Machine.execSubRingEnable w s
  | .resRingEnable w => Sys2Proof.Machine.execResRingEnable w s
  | .evtRingEnable w => Sys2Proof.Machine.execEvtRingEnable w s
  | .resCidxWrite w v => Sys2Proof.Machine.execResCidxWrite w v s
  | .evtCidxWrite w v => Sys2Proof.Machine.execEvtCidxWrite w v s
  | .itemSourceWrite w n v => Sys2Proof.Machine.execItemSourceWrite w n v s
  | .subRingPoll m => Sys2Proof.Machine.execSubRingPoll m s
  | .subNop => Sys2Proof.Machine.execSubNop s
  | .subLoadProgram m => Sys2Proof.Machine.execSubLoadProgram m s
  | .programLoadComplete m => Sys2Proof.Machine.execProgramLoadComplete m s
  | .subUnload => Sys2Proof.Machine.execSubUnload s
  | .unloadComplete => Sys2Proof.Machine.execUnloadComplete s
  | .subOpenItem => Sys2Proof.Machine.execSubOpenItem s
  | .subQuota m => Sys2Proof.Machine.execSubQuota m s
  | .policyPriority m => Sys2Proof.Machine.execPolicyPriority m s
  | .policyPortBinding m => Sys2Proof.Machine.execPolicyPortBinding m s
  | .policyReplayStop m => Sys2Proof.Machine.execPolicyReplayStop m s
  | .policyTriggerPlans m => Sys2Proof.Machine.execPolicyTriggerPlans m s
  | .policyAttestation m => Sys2Proof.Machine.execPolicyAttestation m s
  | .policyModelKeys m => Sys2Proof.Machine.execPolicyModelKeys m s
  | .policyFirmwareSlot m => Sys2Proof.Machine.execPolicyFirmwareSlot m s
  | .itemOpen src => Sys2Proof.Machine.execItemOpen src s
  | .itemCloseEdge src => Sys2Proof.Machine.execItemCloseEdge src s
  | .itemDeadline item => Sys2Proof.Machine.execItemDeadline item s
  | .recordHandoff m => Sys2Proof.Machine.execRecordHandoff m s
  | .overflowDrain m => Sys2Proof.Machine.execOverflowDrain m s
  | .resultStreamRecord => Sys2Proof.Machine.execResultStreamRecord s
  | .squareAccess stop acc ecc => Sys2Proof.Machine.execSquareAccess stop acc ecc s
  | .squareAccessTimeout addr by_ => Sys2Proof.Machine.execSquareAccessTimeout addr by_ s
  | .hostSquareAccess acc ecc => Sys2Proof.Machine.execHostSquareAccess acc ecc s
  | .scrubRead bank ecc => Sys2Proof.Machine.execScrubRead bank ecc s
  | .bankRetireDone bank => Sys2Proof.Machine.execBankRetireDone bank s
  | .sqQuotaWrite w p v => Sys2Proof.Machine.execSqQuotaWrite w p v s
  | .partitionDisableWrite w p v => Sys2Proof.Machine.execPartitionDisableWrite w p v s
  | .sqKvPoolWrite w p v => Sys2Proof.Machine.execSqKvPoolWrite w p v s
  | .kvGranuleRelease p => Sys2Proof.Machine.execKvGranuleRelease p s
  | .avenueParityError link resend => Sys2Proof.Machine.execAvenueParityError link resend s
  | .residueCheck core ok => Sys2Proof.Machine.execResidueCheck core ok s
  | .taskRestoreOnSpare core => Sys2Proof.Machine.execTaskRestoreOnSpare core s
  | .tcFenceWrite w v => Sys2Proof.Machine.execTcFenceWrite w v s
  | .oppChange w core v => Sys2Proof.Machine.execOppChange w core v s
  | .oppRegulatorSettled core => Sys2Proof.Machine.execOppRegulatorSettled core s
  | .arrPlaneLoadDone core plane => Sys2Proof.Machine.execArrPlaneLoadDone core plane s
  | .ctlNop core iw => Sys2Proof.Machine.execCtlNop core iw s
  | .ctlAlu core iw => Sys2Proof.Machine.execCtlAlu core iw s
  | .ctlAlui core iw => Sys2Proof.Machine.execCtlAlui core iw s
  | .ctlLi core iw => Sys2Proof.Machine.execCtlLi core iw s
  | .ctlAmov core iw => Sys2Proof.Machine.execCtlAmov core iw s
  | .ctlCmp core iw => Sys2Proof.Machine.execCtlCmp core iw s
  | .ctlPop core iw => Sys2Proof.Machine.execCtlPop core iw s
  | .ctlBr core iw => Sys2Proof.Machine.execCtlBr core iw s
  | .ctlLoop core iw => Sys2Proof.Machine.execCtlLoop core iw s
  | .ctlYield core iw => Sys2Proof.Machine.execCtlYield core iw s
  | .ctlEnd core iw => Sys2Proof.Machine.execCtlEnd core iw s
  | .ctlCkpt core iw => Sys2Proof.Machine.execCtlCkpt core iw s
  | .ctlTdesc core iw => Sys2Proof.Machine.execCtlTdesc core iw s
  | .ctlSys core iw => Sys2Proof.Machine.execCtlSys core iw s
  | .ctlAlloc core iw => Sys2Proof.Machine.execCtlAlloc core iw s
  | .ctlFree core iw => Sys2Proof.Machine.execCtlFree core iw s
  | .tileLoad core iw => Sys2Proof.Machine.execTileLoad core iw s
  | .tileStore core iw => Sys2Proof.Machine.execTileStore core iw s
  | .tileCopy core iw => Sys2Proof.Machine.execTileCopy core iw s
  | .tileFill core iw => Sys2Proof.Machine.execTileFill core iw s
  | .arrWload core iw => Sys2Proof.Machine.execArrWload core iw s
  | .arrMma core iw => Sys2Proof.Machine.execArrMma core iw s
  | .arrConv core iw => Sys2Proof.Machine.execArrConv core iw s
  | .arrWgconv core iw => Sys2Proof.Machine.execArrWgconv core iw s
  | .arrRead core iw mismatch => Sys2Proof.Machine.execArrRead core iw mismatch s
  | .vecLd core iw => Sys2Proof.Machine.execVecLd core iw s
  | .vecSt core iw => Sys2Proof.Machine.execVecSt core iw s
  | .vecAlu core iw => Sys2Proof.Machine.execVecAlu core iw s
  | .vecFma core iw => Sys2Proof.Machine.execVecFma core iw s
  | .vecCmp core iw => Sys2Proof.Machine.execVecCmp core iw s
  | .vecSel core iw => Sys2Proof.Machine.execVecSel core iw s
  | .vecRed core iw => Sys2Proof.Machine.execVecRed core iw s
  | .vecCvt core iw => Sys2Proof.Machine.execVecCvt core iw s
  | .vecFn core iw => Sys2Proof.Machine.execVecFn core iw s
  | .vecPerm core iw => Sys2Proof.Machine.execVecPerm core iw s
  | .vecDup core iw => Sys2Proof.Machine.execVecDup core iw s
  | .vecExt core iw => Sys2Proof.Machine.execVecExt core iw s
  | .vecMxp core iw => Sys2Proof.Machine.execVecMxp core iw s
  | .engEnq core iw => Sys2Proof.Machine.execEngEnq core iw s
  | .tokWait core iw => Sys2Proof.Machine.execTokWait core iw s
  | .tokSig core iw => Sys2Proof.Machine.execTokSig core iw s
  | .tokTry core iw => Sys2Proof.Machine.execTokTry core iw s
  | .itmAttach core iw => Sys2Proof.Machine.execItmAttach core iw s
  | .itmCommit core iw => Sys2Proof.Machine.execItmCommit core iw s
  | .itmGet core iw => Sys2Proof.Machine.execItmGet core iw s
  | .seqJoin core iw => Sys2Proof.Machine.execSeqJoin core iw s
  | .seqStep core iw => Sys2Proof.Machine.execSeqStep core iw s
  | .seqLeave core iw => Sys2Proof.Machine.execSeqLeave core iw s
  | .seqBoundary client => Sys2Proof.Machine.execSeqBoundary client s
  | .taskPlacement => Sys2Proof.Machine.execTaskPlacement s
  | .taskSaveStart core => Sys2Proof.Machine.execTaskSaveStart core s
  | .taskSaveDone core => Sys2Proof.Machine.execTaskSaveDone core s
  | .taskRestoreDone core => Sys2Proof.Machine.execTaskRestoreDone core s
  | .roundEnd core => Sys2Proof.Machine.execRoundEnd core s
  | .rbtWaitAlarm us => Sys2Proof.Machine.execRbtWaitAlarm us s
  | .replayStopReached core => Sys2Proof.Machine.execReplayStopReached core s
  | .replayDumpWritten core m => Sys2Proof.Machine.execReplayDumpWritten core m s
  | .cxpPortEnable w n => Sys2Proof.Machine.execCxpPortEnable w n s
  | .cxpPortDisable w n => Sys2Proof.Machine.execCxpPortDisable w n s
  | .cxpPowerEnable w n on => Sys2Proof.Machine.execCxpPowerEnable w n on s
  | .cxpGangWrite w m on => Sys2Proof.Machine.execCxpGangWrite w m on s
  | .cxpDiscoveryDone n ok camSpeed => Sys2Proof.Machine.execCxpDiscoveryDone n ok camSpeed s
  | .cxpLinkLost n => Sys2Proof.Machine.execCxpLinkLost n s
  | .cxpCcGo w n v => Sys2Proof.Machine.execCxpCcGo w n v s
  | .cxpCcAck n ack data => Sys2Proof.Machine.execCxpCcAck n ack data s
  | .cxpCcTimeout n => Sys2Proof.Machine.execCxpCcTimeout n s
  | .cxpStreamPacket n pkt => Sys2Proof.Machine.execCxpStreamPacket n pkt s
  | .auxLineReceive n edges ecc => Sys2Proof.Machine.execAuxLineReceive n edges ecc s
  | .auxPclkLost n ecc => Sys2Proof.Machine.execAuxPclkLost n ecc s
  | .auxPclkReturn n => Sys2Proof.Machine.execAuxPclkReturn n s
  | .auxTrigPulseEnd n => Sys2Proof.Machine.execAuxTrigPulseEnd n s
  | .frameTailTimeout port => Sys2Proof.Machine.execFrameTailTimeout port s
  | .frameGateClose port => Sys2Proof.Machine.execFrameGateClose port s
  | .ispRouteWrite w k v => Sys2Proof.Machine.execIspRouteWrite w k v s
  | .ispParamLoadGo w k c v => Sys2Proof.Machine.execIspParamLoadGo w k c v s
  | .ispParamLoadDone k c m => Sys2Proof.Machine.execIspParamLoadDone k c m s
  | .pipelineFrameStart k ecc => Sys2Proof.Machine.execPipelineFrameStart k ecc s
  | .stripeBufferAcquire k m => Sys2Proof.Machine.execStripeBufferAcquire k m s
  | .stripeWriteDone k m => Sys2Proof.Machine.execStripeWriteDone k m s
  | .engineJobEnd kind eng steps us located m => Sys2Proof.Machine.execEngineJobEnd kind eng steps us located m s
  | .warpMeshWarp eng m => Sys2Proof.Machine.execWarpMeshWarp eng m s
  | .warpLensWarp eng m => Sys2Proof.Machine.execWarpLensWarp eng m s
  | .warpLoadMesh eng m => Sys2Proof.Machine.execWarpLoadMesh eng m s
  | .regionCrop eng m => Sys2Proof.Machine.execRegionCrop eng m s
  | .sortTopK eng m => Sys2Proof.Machine.execSortTopK eng m s
  | .barcodeDecode eng m => Sys2Proof.Machine.execBarcodeDecode eng m s
  | .barcodeSymbolDecoded eng sym => Sys2Proof.Machine.execBarcodeSymbolDecoded eng sym s
  | .barcodeBudgetExpiry eng steps us located => Sys2Proof.Machine.execBarcodeBudgetExpiry eng steps us located s
  | .barcodeLoadProfile eng m => Sys2Proof.Machine.execBarcodeLoadProfile eng m s
  | .recordDecode eng m => Sys2Proof.Machine.execRecordDecode eng m s
  | .recordComplete eng m => Sys2Proof.Machine.execRecordComplete eng m s
  | .caddyConfigure => Sys2Proof.Machine.execCaddyConfigure s
  | .caddyWindow m => Sys2Proof.Machine.execCaddyWindow m s
  | .caddyFlush => Sys2Proof.Machine.execCaddyFlush s
  | .caddyBatchOpen q => Sys2Proof.Machine.execCaddyBatchOpen q s
  | .caddySampleSlot q m => Sys2Proof.Machine.execCaddySampleSlot q m s
  | .caddyBatchTimeout q => Sys2Proof.Machine.execCaddyBatchTimeout q s
  | .caddyBatchReady q => Sys2Proof.Machine.execCaddyBatchReady q s
  | .crcConfigure eng => Sys2Proof.Machine.execCrcConfigure eng s
  | .crcScan eng m => Sys2Proof.Machine.execCrcScan eng m s
  | .crcSetValue eng => Sys2Proof.Machine.execCrcSetValue eng s
  | .crcReadValue eng m => Sys2Proof.Machine.execCrcReadValue eng m s
  | .crcPeriodicScan eng => Sys2Proof.Machine.execCrcPeriodicScan eng s
  | .crcCancelPeriodic eng m => Sys2Proof.Machine.execCrcCancelPeriodic eng m s
  | .crcPeriodicPass ctx late m => Sys2Proof.Machine.execCrcPeriodicPass ctx late m s
  | .hashShake256 m => Sys2Proof.Machine.execHashShake256 m s
  | .dmaCopy ch far m => Sys2Proof.Machine.execDmaCopy ch far m s
  | .sampleHashDone => Sys2Proof.Machine.execSampleHashDone s
  | .encQuadChange n a b => Sys2Proof.Machine.execEncQuadChange n a b s
  | .encZEdge n => Sys2Proof.Machine.execEncZEdge n s
  | .encSerialRead n => Sys2Proof.Machine.execEncSerialRead n s
  | .encSerialFrame n raw whole sensor => Sys2Proof.Machine.execEncSerialFrame n raw whole sensor s
  | .observerUpdate n => Sys2Proof.Machine.execObserverUpdate n s
  | .companionPositionRefresh => Sys2Proof.Machine.execCompanionPositionRefresh s
  | .companionRefreshLost => Sys2Proof.Machine.execCompanionRefreshLost s
  | .companionTimeRefresh => Sys2Proof.Machine.execCompanionTimeRefresh s
  | .companionFrameResend => Sys2Proof.Machine.execCompanionFrameResend s
  | .dioRawTransition n level => Sys2Proof.Machine.execDioRawTransition n level s
  | .dioEdgeAccept n => Sys2Proof.Machine.execDioEdgeAccept n s
  | .dioOutWrite w v => Sys2Proof.Machine.execDioOutWrite w v s
  | .dioCfgWrite w n v => Sys2Proof.Machine.execDioCfgWrite w n v s
  | .outputOverload n => Sys2Proof.Machine.execOutputOverload n s
  | .outputOverloadClear n => Sys2Proof.Machine.execOutputOverloadClear n s
  | .kerbFireEntryArrive => Sys2Proof.Machine.execKerbFireEntryArrive s
  | .kerbFire e => Sys2Proof.Machine.execKerbFire e s
  | .kerbPulseEnd e => Sys2Proof.Machine.execKerbPulseEnd e s
  | .outputMaxPulseCut n => Sys2Proof.Machine.execOutputMaxPulseCut n s
  | .kerbTrainArrive => Sys2Proof.Machine.execKerbTrainArrive s
  | .kerbTrainTrigger e => Sys2Proof.Machine.execKerbTrainTrigger e s
  | .heartbeat => Sys2Proof.Machine.execHeartbeat s
  | .heartbeatTimeout => Sys2Proof.Machine.execHeartbeatTimeout s
  | .safeStateRelease w v => Sys2Proof.Machine.execSafeStateRelease w v s
  | .resetFrame => Sys2Proof.Machine.execResetFrame s
  | .servoOffsetWrite w v => Sys2Proof.Machine.execServoOffsetWrite w v s
  | .timeStepRequest w v => Sys2Proof.Machine.execTimeStepRequest w v s
  | .timeSetRequest w v => Sys2Proof.Machine.execTimeSetRequest w v s
  | .timeStepApply => Sys2Proof.Machine.execTimeStepApply s
  | .compareFire k => Sys2Proof.Machine.execCompareFire k s
  | .ethFrameReceive frame => Sys2Proof.Machine.execEthFrameReceive frame s
  | .ethFrameTransmitted => Sys2Proof.Machine.execEthFrameTransmitted s
  | .ethLinkChange up => Sys2Proof.Machine.execEthLinkChange up s
  | .bmeClear => Sys2Proof.Machine.execBmeClear s
  | .bmeSet => Sys2Proof.Machine.execBmeSet s
  | .apertureBaseWrite w v => Sys2Proof.Machine.execApertureBaseWrite w v s
  | .apertureAccess acc ecc peerTimeout => Sys2Proof.Machine.execApertureAccess acc ecc peerTimeout s
  | .hostWindowEnable w n v => Sys2Proof.Machine.execHostWindowEnable w n v s
  | .hostWindowDisable w n v => Sys2Proof.Machine.execHostWindowDisable w n v s
  | .msixUnmask vec => Sys2Proof.Machine.execMsixUnmask vec s
  | .blvEnable w p => Sys2Proof.Machine.execBlvEnable w p s
  | .blvTrained p part skew credits => Sys2Proof.Machine.execBlvTrained p part skew credits s
  | .blvTrainTimeout p => Sys2Proof.Machine.execBlvTrainTimeout p s
  | .blvFlitReceive p f retrainFailed => Sys2Proof.Machine.execBlvFlitReceive p f retrainFailed s
  | .blvIdleEntry p cancelled => Sys2Proof.Machine.execBlvIdleEntry p cancelled s
  | .blvCompatSleep p => Sys2Proof.Machine.execBlvCompatSleep p s
  | .blvIdleExit p => Sys2Proof.Machine.execBlvIdleExit p s
  | .blvPrbsMode w p mode errors => Sys2Proof.Machine.execBlvPrbsMode w p mode errors s
  | .peerSquareAccess p acc ecc => Sys2Proof.Machine.execPeerSquareAccess p acc ecc s
  | .peerTokenSignal p addr v => Sys2Proof.Machine.execPeerTokenSignal p addr v s
  | .peerTokenRead p addr => Sys2Proof.Machine.execPeerTokenRead p addr s
  | .peerAccessTimeout ch => Sys2Proof.Machine.execPeerAccessTimeout ch s
  | .coreClockGate n => Sys2Proof.Machine.execCoreClockGate n s
  | .coreWake chain unit => Sys2Proof.Machine.execCoreWake chain unit s
  | .throttleRaise m => Sys2Proof.Machine.execThrottleRaise m s
  | .throttleLower m => Sys2Proof.Machine.execThrottleLower m s
  | .ceilingSaturated m => Sys2Proof.Machine.execCeilingSaturated m s
  | .pwrLimitWrite w v => Sys2Proof.Machine.execPwrLimitWrite w v s
  | .thermalRelease m => Sys2Proof.Machine.execThermalRelease m s
  | .ouvfiThermalTrip m => Sys2Proof.Machine.execOuvfiThermalTrip m s
  | .supplyExcursion flag => Sys2Proof.Machine.execSupplyExcursion flag s
  | .fieldSupplyLoss => Sys2Proof.Machine.execFieldSupplyLoss s
  | .fieldSupplyReturn => Sys2Proof.Machine.execFieldSupplyReturn s
  | .governorUpdate => Sys2Proof.Machine.execGovernorUpdate s
  | .blockReset u => Sys2Proof.Machine.execBlockReset u s
  | .rasBlkrstWrite w v => Sys2Proof.Machine.execRasBlkrstWrite w v s
  | .blockResetRelease u => Sys2Proof.Machine.execBlockResetRelease u s
  | .cpLockstepMismatch cp => Sys2Proof.Machine.execCpLockstepMismatch cp s
  | .powerGoodFall => Sys2Proof.Machine.execPowerGoodFall s
  | .resetInAssert => Sys2Proof.Machine.execResetInAssert s
  | .perstAssert => Sys2Proof.Machine.execPerstAssert s
  | .hotReset => Sys2Proof.Machine.execHotReset s
  | .functionLevelReset => Sys2Proof.Machine.execFunctionLevelReset s
  | .linkDlDown => Sys2Proof.Machine.execLinkDlDown s
  | .d3hotEntry => Sys2Proof.Machine.execD3hotEntry s
  | .d3hotExit => Sys2Proof.Machine.execD3hotExit s
  | .watchdogExpiry cp => Sys2Proof.Machine.execWatchdogExpiry cp s
  | .rstKick w v => Sys2Proof.Machine.execRstKick w v s
  | .fwCoreResetRequest w v => Sys2Proof.Machine.execFwCoreResetRequest w v s
  | .fwSystemResetRequest w v => Sys2Proof.Machine.execFwSystemResetRequest w v s
  | .fwPowerOnResetRequest w v => Sys2Proof.Machine.execFwPowerOnResetRequest w v s
  | .thermalTrip m => Sys2Proof.Machine.execThermalTrip m s
  | .criticalStateError system => Sys2Proof.Machine.execCriticalStateError system s
  | .avenueLaneOut link => Sys2Proof.Machine.execAvenueLaneOut link s
  | .resetSourceRelease source => Sys2Proof.Machine.execResetSourceRelease source s
  | .trimLoadDone upsets => Sys2Proof.Machine.execTrimLoadDone upsets s
  | .resetRelease => Sys2Proof.Machine.execResetRelease s
  | .bootRom failed badBanks lpddrBad => Sys2Proof.Machine.execBootRom failed badBanks lpddrBad s
  | .rstBootGo w v => Sys2Proof.Machine.execRstBootGo w v s
  | .secRollWrite w v => Sys2Proof.Machine.execSecRollWrite w v s
  | .pcieLinkUp speed width flit => Sys2Proof.Machine.execPcieLinkUp speed width flit s
  | .blvTrainingRetry p => Sys2Proof.Machine.execBlvTrainingRetry p s
  | .peerTrainingBurst p => Sys2Proof.Machine.execPeerTrainingBurst p s
  | .timestampQueueConsumed => Sys2Proof.Machine.execTimestampQueueConsumed s

end Sys2Proof.Machine
end

