-- ==== Sys2Proof/Safety.lean ====
section
/-! DEFINITION. What the statements about the module say: when a command completes and what it leaves, when a register write passes, and when
an instruction of the sequencer begins. -/

namespace Sys2Proof.Machine

open Sys2Proof

/-- No task has a fault that is still to be taken, but behind older instructions that still wait (R137): so it is between any two commands. -/
abbrev Quiet (s : State) : Prop := ∀ k ∈ s.tasks, k.waits = [] → k.due = none

/-- The command completes and leaves `t`, the queue as it was, and ITM_OLDEST_ID and KRB_USED.peak, which follow the ledger and the Kerb
(R69, R423), brought up to date. -/
def Gives (c : Instr) (s t : State) : Prop := exec c s = .next (setPending s.pending (settle t))

/-- The command completes and leaves `t`, after the faults that served waits of tasks left behind in `t` are taken (R251) and the two
registers are brought up to date. -/
def GivesThen (c : Instr) (s t : State) : Prop := exec c s = .next (setPending s.pending (finish t))

/-- A register at an offset takes a write from one side: R559 lets the side write it, and its key is right (R560). -/
def writable (w : Writer) (off : Nat) (v : Word) : Bool :=
  match regAt off with
  | some d => !wrongWriter d w && (d.key == 0 || bits v.toNat 16 16 == d.key)
  | none => false

/-- A write of a register by one side takes effect: its block answers (R533, R541) and the register takes it. -/
abbrev MayWrite (s : State) (w : Writer) (off : Nat) (v : Word) : Prop := silent s off true = false ∧ writable w off v = true

/-- No block gives a write of the register at an offset an effect of its own: it is no status register, no snapshot control and none of the
registers that `storeLow`, `storeMid` and `storeHigh` list. -/
def plainReg (d : RegDef) (off : Nat) (w : Writer) (v : Word) : Bool :=
  !d.status && (snapOf off).isNone && (firstWrite [storeLow d off w v, storeMid d off w v, storeHigh d off v]).isNone
    && off != Reg.pwrLimit.base && off != Reg.rstReq.base

/-- A register of Ouvfi takes writes only while the field supply is up. -/
abbrev FieldUp (s : State) (off : Nat) : Prop := fieldOff off = true → s.ouv.powered = true

/-- ITM_CTL with the enable of ring `r` set and the rest as it stands. -/
def ctlWith (s : State) (r : Nat) : Nat := (BitVec.ofNat 32 (setBits (rd s Reg.itmCtl.base) r 1 1)).toNat &&& 0x3F3F07

/-- The payload of the submission is read whole: these are its bytes, and this is the state after the read. -/
abbrev Payload (m : MemRun) (square : Bool) (e : Submission) (s : State) (bs : List Byte) (s1 : State) : Prop :=
  payload m square e.addr e.len s = ({ status := Stat.ok, data := bs }, s1)

/-! ## Instructions of the sequencer -/

/-- The sequencer's rows with their opcodes. -/
def seqRows (cr : CoreRun) (i : Iw) (mismatch : Bool) : List (Nat × Instr) :=
  [ (0x00, .ctlNop cr i), (0x01, .ctlAlu cr i), (0x02, .ctlAlui cr i), (0x03, .ctlLi cr i), (0x04, .ctlAmov cr i), (0x05, .ctlCmp cr i)
  , (0x06, .ctlPop cr i), (0x07, .ctlBr cr i), (0x08, .ctlLoop cr i), (0x09, .ctlYield cr i), (0x0A, .ctlEnd cr i), (0x0B, .ctlCkpt cr i)
  , (0x0C, .ctlTdesc cr i), (0x0D, .ctlSys cr i), (0x0E, .ctlAlloc cr i), (0x0F, .ctlFree cr i), (0x10, .tileLoad cr i)
  , (0x11, .tileStore cr i), (0x12, .tileCopy cr i), (0x13, .tileFill cr i), (0x20, .arrWload cr i), (0x21, .arrMma cr i)
  , (0x22, .arrConv cr i), (0x23, .arrWgconv cr i), (0x24, .arrRead cr i mismatch), (0x30, .vecLd cr i), (0x31, .vecSt cr i)
  , (0x32, .vecAlu cr i), (0x33, .vecFma cr i), (0x34, .vecCmp cr i), (0x35, .vecSel cr i), (0x36, .vecRed cr i), (0x37, .vecCvt cr i)
  , (0x38, .vecFn cr i), (0x39, .vecPerm cr i), (0x3A, .vecDup cr i), (0x3B, .vecExt cr i), (0x3C, .vecMxp cr i), (0x40, .engEnq cr i)
  , (0x50, .tokWait cr i), (0x51, .tokSig cr i), (0x52, .tokTry cr i), (0x60, .itmAttach cr i), (0x61, .itmCommit cr i), (0x62, .itmGet cr i)
  , (0x70, .seqJoin cr i), (0x71, .seqStep cr i), (0x72, .seqLeave cr i) ]

/-- Core `cr.n` is ACTIVE and decodes task `k` of program `p`, whose next word is `i`, a legal word of opcode `op`, and its guard, which does not
wait for a predicate, is false (R218, R219); no fault waits, no replay stop holds it. -/
def GuardFails (op : Nat) (u : Use) (cr : CoreRun) (i : Iw) (k : Task) (p : Program) (s : State) : Prop :=
  (coreOf s cr.n).st = 0 ∧ (coreOf s cr.n).phase = .running ∧ (coreOf s cr.n).task = some k.id
    ∧ taskOf s k.id = some k ∧ progOf s k.id.handle = some p ∧ heldByQ0 k = false ∧ k.due = none ∧ replayHolds p k = false ∧ cr.parity = false
    ∧ useOf op i = some u ∧ u.allows i = true ∧ guardPending k i = false ∧ i.pe = true ∧ pOf k.regs i.pg = i.pn

/-- Core `cr.n` is ACTIVE and decodes task `k` of program `p`, whose next word is `i`, a legal word of opcode `op`: no fault waits, no replay stop
holds it, no register that it names is pending, its queue has room, its guard passes, and older instructions and passes are as far on as it
needs, so that it begins at once (R132, R133, R135, R216, R218, R219, R223, R227, R405). -/
def MayBegin (op : Nat) (cr : CoreRun) (i : Iw) (k : Task) (p : Program) (s : State) : Prop :=
  (coreOf s cr.n).st = 0 ∧ (coreOf s cr.n).phase = .running ∧ (coreOf s cr.n).task = some k.id
    ∧ taskOf s k.id = some k ∧ progOf s k.id.handle = some p ∧ heldByQ0 k = false ∧ k.due = none ∧ replayHolds p k = false ∧ cr.parity = false
    ∧ (∃ u, useOf op i = some u ∧ u.allows i = true ∧ decodeHeld k u op i = false)
    ∧ guardPending k i = false ∧ (i.pe = true → pOf k.regs i.pg ≠ i.pn)
    ∧ (needsAll k op i = true → k.passes = 0) ∧ mayBegin k k.waits op i (capture k.regs) = true

/-- Task `k` after its instruction of `n` words completed and control fell through it: `g` wrote the results, the step counter counted it (R221),
and the loops and the round moved on (R225, R264). -/
def doneTaskN (p : Program) (n : Nat) (g : TaskRegs → TaskRegs) (k : Task) : Task :=
  let e := fallThrough (tmplOf p k.id) n k.regs
  { k with st := .running, regs := g { e.1 with step := k.regs.step + 1 }, atRound := e.2, held := none }

/-- The same of its instruction `i`. -/
def doneTask (p : Program) (i : Iw) (g : TaskRegs → TaskRegs) (k : Task) : Task := doneTaskN p (wordsOfIw i) g k

/-- Task `k` of core `n` becomes `k'`, which has completed an instruction there; nothing else changes. -/
def putDone (n : Nat) (k k' : Task) (s : State) : State :=
  { s with tasks := updFirst (fun x => x.id == k.id) (fun _ => k') s.tasks, cores := modAt n (fun c => { c with fresh := false }) s.cores }

/-- The instruction completes with the results that `g` writes; nothing but its task and its core's `fresh` mark changes. -/
def stepped (cr : CoreRun) (i : Iw) (k : Task) (p : Program) (g : TaskRegs → TaskRegs) (s : State) : State :=
  putDone cr.n k (doneTask p i g k) s

/-- The instruction faults with a status: at once, or once the older instructions that still wait are done (R137, R191). -/
def faulted (k : Task) (q status : Nat) (s : State) : State :=
  let s := modTask k.id (fun k => { k with st := .running, held := none }) s
  if k.waits.isEmpty then faultTask k.id status q k.regs.next s else faultDue k.id s.stamp status q k.regs.next s

/-- What a row of the sequencer works on. -/
def issueOf (op : Nat) (cr : CoreRun) (i : Iw) (k : Task) (p : Program) (mismatch : Bool := false) : Issue :=
  { n := cr.n, t := k.id, k := k, r := k.regs, p := p, cr := cr, mismatch := mismatch, op := op, i := i, w := k.regs.next
    late := false, since := 0, ends := false }

/-- An instruction may read these runs of the tile buffer: none holds poison (R124, R142). -/
abbrev TileClean (r : TaskRegs) (runs : List (Nat × Nat)) : Prop := ∀ e ∈ runs, tbHit r e.1 e.2 = false

/-- An instruction may write these runs: none touches a pinned extent (R129), and no word written in part is poisoned (R78). -/
abbrev TileFree (r : TaskRegs) (runs : List (Nat × Nat)) : Prop :=
  runsPinned r runs = false ∧ ∀ e ∈ runs, poisonPart r.tbPoison e.1 e.2 = false

/-- An array instruction completes with its passes open and counted (R117, R139), `rows` rows entered. -/
def passed (cr : CoreRun) (i : Iw) (k : Task) (p : Program) (rows : Nat) (g : TaskRegs → TaskRegs) (s : State) : State :=
  count (Reg.tcCnt.off cr.n 1) rows (count (Reg.tcCnt.off cr.n 0) (ceilDiv rows 256)
    (putDone cr.n k { doneTask p i g k with passes := k.passes + ceilDiv rows 256 } s))

/-- What a wide pass writes (R118): each row of `work` adds its column sums to the wide row at its offset, or sets it. -/
def wideSums (init : Bool) (n : Nat) (work : List (Nat × List Term)) (r : TaskRegs) : TaskRegs :=
  setTermFlags (work.map (·.2))
    (work.foldl (fun r w => tbWrite w.1 (wideBytes (sumRow init (wideRow n (tbRead r w.1 (18 * n))) w.2)) r) r)

/-- A wide pass may write its rows: none is pinned, and it meets no poison (R129, R142). -/
abbrev WideFree (r : TaskRegs) (init : Bool) (n : Nat) (work : List (Nat × List Term)) : Prop :=
  runsPinned r (work.map fun w => (w.1, 18 * n)) = false
    ∧ ∀ w ∈ work, if init then poisonPart r.tbPoison w.1 (18 * n) = false else tbHit r w.1 (18 * n) = false

/-- Task `k` after its instruction `i` began to wait in queue `q` (R223): a wait of the sequencer holds decode, and parks the task once its A and V
queues are empty (R259). -/
def waitingTask (p : Program) (i : Iw) (q : Nat) (w : Wait) (since : Nat) (k : Task) : Task :=
  let e := fallThrough (tmplOf p k.id) (wordsOfIw i) k.regs
  let k' := { k with st := .running, regs := e.1, atRound := false, held := none
                     waits := k.waits ++ [{ q := q, word := k.regs.next, w := w, since := since, ends := e.2 }] }
  if q = 0 then { k' with st := heldState k' } else k'

/-- The instruction waits, and nothing but its task and the order stamp changes. -/
def waitsFor (i : Iw) (k : Task) (p : Program) (q : Nat) (w : Wait) (s : State) : State :=
  { s with stamp := s.stamp + 1, tasks := updFirst (fun x => x.id == k.id) (fun _ => waitingTask p i q w s.stamp k) s.tasks }

/-- The recovery record takes `n` entries more without a checkpoint (R227, R513). -/
abbrev RecordRoom (k : Task) (n : Nat) : Prop := k.rec_.entries.length + (k.waits.map fun w => entriesOfWait w.w).sum + n ≤ 64

/-- Task `k` completed its instruction, and the recovery record took entries. -/
def recorded (cr : CoreRun) (i : Iw) (k : Task) (p : Program) (es : List RecEntry) (g : TaskRegs → TaskRegs) (s : State) : State :=
  putDone cr.n k { doneTask p i g k with rec_ := { k.rec_ with entries := k.rec_.entries ++ es } } s

/-! ## Jobs -/

/-- Engine `eng` of a kind is free and runs, and job `j` is the next it takes (R346, R347, R365). -/
abbrev MayTake (kind eng : Nat) (j : Job) (s : State) : Prop :=
  groupUp s (groupOfKind kind) = true ∧ eng < engCount kind ∧ runningOn s kind eng = none ∧ nextJob s kind = some j

/-- The job has left the queue and stands on its engine. -/
def taken (eng : Nat) (j : Job) (s : State) : State :=
  modEng (fun e => { e with jobs := dropFirst (fun x => x == j) e.jobs, running := e.running ++ [Running.start eng j] }) s

/-! ## The invariant -/

/-- What holds between any two commands: no task has a fault still to be taken but behind older instructions, ITM_OLDEST_ID names the oldest uncommitted item unless a reset's loss
event is still to be posted (R69, R590), the Kerb's peak is no less than its entries in use, which are at most 256 (R423). -/
structure Inv (s : State) : Prop where
  quiet : Quiet s
  oldest : s.led.heldLoss = none → rd s Reg.itmOldestId.base = oldestId s
  peak : kerbUsed s ≤ rdF s Reg.krbUsed.base 16 9
  room : kerbUsed s ≤ 256

end Sys2Proof.Machine
end

