-- ==== Sys2Proof/WellFormed.lean ====
section
/-! DEFINITION. When the operands of a command are ones that the module's parts can carry: numbers of ports, cores, engines, sources and
units that exist, addresses and values in their widths, and instruction words that decode (R216, R217). -/

namespace Sys2Proof

open Sys2Proof.Machine

/-- A word offset of BAR0 (R552): 16 MiB of registers. -/
def offOk (off : Nat) : Bool := decide (off < 2 ^ 24)

/-- A SEC-DED finding names one of the words that a row of `n` words can touch (R76, R124). -/
def eccOk (n : Nat) (l : List EccHit) : Bool := l.all fun h => decide (h.word < n)

/-- One of the seventeen cores (R111). -/
def coreOk (n : Nat) : Bool := decide (n < 17)

/-- What a row finds in memory: words of the 40-bit device address space (R71, R109). -/
def MemRun.ok (m : MemRun) : Bool := eccOk (2 ^ 37) m.ecc

/-- A core and what its checkers find in a row that is no instruction: words of its tile buffer and of the Square (R124, R274). -/
def CoreRun.ok (c : CoreRun) : Bool := coreOk c.n && eccOk 524288 c.tb && eccOk (2 ^ 26) c.sq

/-- An access lies in the 40-bit device address space and moves at least one byte (R71, R108). -/
def Access.ok : Access → Bool
  | .read a n => decide (0 < n) && decide (a + n ≤ 2 ^ 40)
  | .write a bs => decide (0 < bs.length) && decide (a + bs.length ≤ 2 ^ 40)

/-- An access to BAR2: its offset lies in 1 GiB (R471). -/
def Access.inBar2 : Access → Bool
  | .read a n => decide (0 < n) && decide (a + n ≤ 2 ^ 30)
  | .write a bs => decide (0 < bs.length) && decide (a + bs.length ≤ 2 ^ 30)

/-- A sequencer row: a core that exists, findings in its tile buffer and in the Square, and a word that decodes (R216, R217). -/
def rowOk (op : Nat) (cr : CoreRun) (i : Iw) : Bool := cr.ok && legalWord op i

/-- An engine of a kind (R16): warp, region, sort, barcode, record, hash, check-value, Caddy, DMA channels. -/
def engineOk (kind eng : Nat) : Bool := decide (eng < [4, 2, 2, 4, 2, 1, 4, 1, 8].getD kind 0)

/-- Whoever made a Square access exists: a core, an engine, or a unit (R107). -/
def Requester.ok : Requester → Bool
  | .unit => true
  | .core n => coreOk n
  | .job kind eng => engineOk kind eng

/-- A unit behind a wrapper (R517): fourteen pipelines, four engine groups, two Boulevard ports, four control processors. -/
def BlockUnit.ok : BlockUnit → Bool
  | .ip k => decide (k < 14)
  | .group g => decide (g < 4)
  | .blv p => decide (p < 2)
  | .cp n => decide (n < 4)

/-- The fields of a barcode symbol in their widths (R359). -/
def Symbol.ok (x : Symbol) : Bool :=
  decide (x.code < 256) && decide (x.flags < 256) && decide (x.corrected < 65536) && x.corners.length == 32

/-- The fields of a flit in their widths (R485, R486). -/
def Flit.ok (f : Flit) : Bool := decide (f.vc < 3) && decide (f.seqNo < 4096) && f.credits.length == 3

/-- A meter reads a power and sensor number that its registers can show (R501). -/
def Meter.ok (m : Meter) : Bool := decide (m.power < 65536) && decide (m.place < 256)

/-- The operands of a command are in range. -/
def wellFormed : Instr → Bool
  | .registerWrite _ off enables _ => offOk off && decide (enables < 16)
  | .statusRegisterClear _ off _ => offOk off && (regAt off).elim false (·.status)
  | .latchGroupRead _ off n => offOk off && decide (1 ≤ n) && decide (off % 4 + n ≤ 4)
  | .snapLatch _ off _ => offOk off
  | .bar4AliasWrite off size _ => decide (off < 2 ^ 21) && decide (0 < size) && decide (size ≤ 8)
  | .glbSemTestAndSet off size => decide (off < 2 ^ 21) && decide (0 < size) && decide (size ≤ 8)
  | .itemSourceWrite _ n _ | .itemOpen n | .itemCloseEdge n => decide (n < 8)
  | .squareAccess stop acc ecc => decide (stop < 64) && acc.ok && eccOk (2 ^ 37) ecc
  | .squareAccessTimeout addr by_ => decide (addr < 0x20000000) && by_.ok
  | .hostSquareAccess acc ecc => acc.ok && eccOk (2 ^ 37) ecc
  | .apertureAccess acc ecc _ => acc.inBar2 && eccOk (2 ^ 37) ecc
  | .peerSquareAccess p acc ecc => decide (p < 2) && acc.ok && eccOk (2 ^ 37) ecc
  | .scrubRead bank ecc => decide (bank < 128) && eccOk (2 ^ 26) ecc
  | .bankRetireDone bank => decide (bank < 128)
  | .sqQuotaWrite _ p _ | .partitionDisableWrite _ p _ | .sqKvPoolWrite _ p _ | .kvGranuleRelease p => decide (p < 16)
  | .avenueParityError link _ | .avenueLaneOut link => linkExists link
  | .residueCheck core _ | .oppRegulatorSettled core
  | .roundEnd core | .replayStopReached core | .coreClockGate core => coreOk core
  | .replayDumpWritten core m => core.ok && m.ok
  | .taskSaveStart c | .taskSaveDone c | .taskRestoreDone c | .taskRestoreOnSpare c => c.ok
  | .oppChange _ core _ => coreOk core
  | .arrPlaneLoadDone core plane => coreOk core && decide (plane < 2)
  | .ctlNop c i => rowOk 0x00 c i
  | .ctlAlu c i => rowOk 0x01 c i
  | .ctlAlui c i => rowOk 0x02 c i
  | .ctlLi c i => rowOk 0x03 c i
  | .ctlAmov c i => rowOk 0x04 c i
  | .ctlCmp c i => rowOk 0x05 c i
  | .ctlPop c i => rowOk 0x06 c i
  | .ctlBr c i => rowOk 0x07 c i
  | .ctlLoop c i => rowOk 0x08 c i
  | .ctlYield c i => rowOk 0x09 c i
  | .ctlEnd c i => rowOk 0x0A c i
  | .ctlCkpt c i => rowOk 0x0B c i
  | .ctlTdesc c i => rowOk 0x0C c i
  | .ctlSys c i => rowOk 0x0D c i
  | .ctlAlloc c i => rowOk 0x0E c i
  | .ctlFree c i => rowOk 0x0F c i
  | .tileLoad c i => rowOk 0x10 c i
  | .tileStore c i => rowOk 0x11 c i
  | .tileCopy c i => rowOk 0x12 c i
  | .tileFill c i => rowOk 0x13 c i
  | .arrWload c i => rowOk 0x20 c i
  | .arrMma c i => rowOk 0x21 c i
  | .arrConv c i => rowOk 0x22 c i
  | .arrWgconv c i => rowOk 0x23 c i
  | .arrRead c i _ => rowOk 0x24 c i
  | .vecLd c i => rowOk 0x30 c i
  | .vecSt c i => rowOk 0x31 c i
  | .vecAlu c i => rowOk 0x32 c i
  | .vecFma c i => rowOk 0x33 c i
  | .vecCmp c i => rowOk 0x34 c i
  | .vecSel c i => rowOk 0x35 c i
  | .vecRed c i => rowOk 0x36 c i
  | .vecCvt c i => rowOk 0x37 c i
  | .vecFn c i => rowOk 0x38 c i
  | .vecPerm c i => rowOk 0x39 c i
  | .vecDup c i => rowOk 0x3A c i
  | .vecExt c i => rowOk 0x3B c i
  | .vecMxp c i => rowOk 0x3C c i
  | .engEnq c i => rowOk 0x40 c i
  | .tokWait c i => rowOk 0x50 c i
  | .tokSig c i => rowOk 0x51 c i
  | .tokTry c i => rowOk 0x52 c i
  | .itmAttach c i => rowOk 0x60 c i
  | .itmCommit c i => rowOk 0x61 c i
  | .itmGet c i => rowOk 0x62 c i
  | .seqJoin c i => rowOk 0x70 c i
  | .seqStep c i => rowOk 0x71 c i
  | .seqLeave c i => rowOk 0x72 c i
  | .seqBoundary client => decide (client < 4)
  | .cxpPortEnable _ n | .cxpPortDisable _ n | .cxpLinkLost n | .cxpCcTimeout n => decide (n < 12)
  | .cxpPowerEnable _ n _ => decide (n < 12)
  | .cxpGangWrite _ m _ => decide (m < 6)
  | .cxpDiscoveryDone n _ camSpeed => decide (n < 12) && decide (camSpeed < 16)
  | .cxpCcGo _ n _ => decide (n < 12)
  | .cxpCcAck n ack data => decide (n < 12) && decide (ack < 256) && decide (data.length ≤ 64)
  | .cxpStreamPacket n pkt =>
    decide (n < 12) && (match pkt with
      | .header fmt phase => decide (fmt < 65536) && decide (phase < 4)
      | .line px => px.all fun v => decide (v < 65536)
      | .imageEnd => true
      | .other => true)
  | .auxLineReceive n es ecc => decide (n < 4) && (es.all fun e => decide (e.d < 65536)) && eccOk (2 ^ 37) ecc
  | .auxPclkLost n ecc => decide (n < 4) && eccOk (2 ^ 37) ecc
  | .auxPclkReturn n | .auxTrigPulseEnd n => decide (n < 4)
  | .frameTailTimeout port | .frameGateClose port => decide (port < 16)
  | .ispRouteWrite _ k _ => decide (k < 14)
  | .ispParamLoadGo _ k c _ => decide (k < 14) && decide (c < 2)
  | .ispParamLoadDone k c m => decide (k < 14) && decide (c < 2) && m.ok
  | .pipelineFrameStart k ecc => decide (k < 14) && eccOk (2 ^ 37) ecc
  | .stripeBufferAcquire k m | .stripeWriteDone k m => decide (k < 14) && m.ok
  | .engineJobEnd kind eng _ _ _ m => engineOk kind eng && m.ok
  | .warpMeshWarp e m | .warpLensWarp e m | .warpLoadMesh e m => engineOk 0 e && m.ok
  | .regionCrop e m => engineOk 1 e && m.ok
  | .sortTopK e m => engineOk 2 e && m.ok
  | .barcodeDecode e m | .barcodeLoadProfile e m => engineOk 3 e && m.ok
  | .barcodeSymbolDecoded e sym => engineOk 3 e && sym.ok
  | .barcodeBudgetExpiry e _ _ _ => engineOk 3 e
  | .recordDecode e m | .recordComplete e m => engineOk 4 e && m.ok
  | .caddyBatchOpen q | .caddyBatchTimeout q | .caddyBatchReady q => decide (q < 16)
  | .caddySampleSlot q m => decide (q < 16) && m.ok
  | .crcConfigure e | .crcSetValue e | .crcPeriodicScan e => engineOk 6 e
  | .crcScan e m | .crcReadValue e m | .crcCancelPeriodic e m => engineOk 6 e && m.ok
  | .crcPeriodicPass ctx _ m => decide (ctx < 16) && m.ok
  | .dmaCopy ch far m => engineOk 8 ch && far.elim true (fun k => decide (k.answer < 3)) && m.ok
  | .peerAccessTimeout ch => engineOk 8 ch
  | .encQuadChange n _ _ | .encZEdge n | .encSerialRead n | .observerUpdate n => decide (n < 4)
  | .encSerialFrame n raw _ sensor => decide (n < 4) && decide (raw < 2 ^ 48) && decide (sensor < 4)
  | .dioRawTransition n _ | .dioEdgeAccept n | .outputOverload n | .outputOverloadClear n | .outputMaxPulseCut n => decide (n < 32)
  | .dioCfgWrite _ n _ => decide (n < 32)
  | .kerbFire e | .kerbPulseEnd e | .kerbTrainTrigger e => decide (e < 256)
  | .compareFire k => decide (k < 8)
  | .ethFrameReceive frame => decide (14 ≤ frame.length)
  | .hostWindowEnable _ n _ | .hostWindowDisable _ n _ => decide (n < 16)
  | .msixUnmask vec => decide (vec < 64)
  | .blvEnable _ p | .blvTrainTimeout p | .blvIdleEntry p _ | .blvCompatSleep p | .blvIdleExit p | .blvTrainingRetry p
  | .peerTrainingBurst p => decide (p < 2)
  | .blvTrained p part _ credits => decide (p < 2) && part.elim true (fun c => decide (c < 65536)) && credits.length == 3
  | .blvFlitReceive p f _ => decide (p < 2) && f.ok
  | .blvPrbsMode _ p mode errors => decide (p < 2) && decide (mode < 4) && decide (errors.length ≤ 4)
  | .peerTokenSignal p addr _ | .peerTokenRead p addr => decide (p < 2) && decide (addr < 2 ^ 40)
  | .coreWake chain unit => decide (chain < 3) && decide (unit < [17, 14, 4].getD chain 0)
  | .throttleRaise m | .throttleLower m | .ceilingSaturated m | .thermalRelease m | .ouvfiThermalTrip m | .thermalTrip m => m.ok
  | .supplyExcursion flag => decide (flag < 16)
  | .blockReset u | .blockResetRelease u => u.ok
  | .cpLockstepMismatch cp | .watchdogExpiry cp => decide (cp < 4)
  | .resetSourceRelease source => decide (source < 16)
  | .trimLoadDone upsets => upsets.all fun u => decide (u.copy < 3) && offOk u.off
  | .bootRom failed badBanks _ => failed.all coreOk && badBanks.all fun b => decide (b < 128)
  | .pcieLinkUp speed width flit => linkListed speed width flit
  | .subRingPoll m | .subLoadProgram m | .programLoadComplete m | .subQuota m | .policyPriority m | .policyPortBinding m
  | .policyReplayStop m | .policyTriggerPlans m | .policyAttestation m | .policyModelKeys m | .policyFirmwareSlot m
  | .recordHandoff m | .overflowDrain m | .caddyWindow m | .hashShake256 m => m.ok
  | .rbtWaitAlarm us => decide (us < 2 ^ 32)
  | .glbSnapAll .. | .ouvfiSnapLatch .. | .glbModeWrite .. | .timIncLoWrite .. | .timIncHiWrite .. | .subRingEnable ..
  | .resRingEnable .. | .evtRingEnable .. | .resCidxWrite .. | .evtCidxWrite .. | .subNop .. | .subUnload .. | .unloadComplete ..
  | .subOpenItem .. | .itemDeadline .. | .resultStreamRecord .. | .tcFenceWrite .. | .taskPlacement .. | .caddyConfigure ..
  | .caddyFlush .. | .sampleHashDone .. | .companionPositionRefresh .. | .companionRefreshLost .. | .companionTimeRefresh ..
  | .companionFrameResend .. | .dioOutWrite .. | .kerbFireEntryArrive .. | .kerbTrainArrive .. | .heartbeat ..
  | .heartbeatTimeout .. | .safeStateRelease .. | .resetFrame .. | .servoOffsetWrite .. | .timeStepRequest ..
  | .timeSetRequest .. | .timeStepApply .. | .ethFrameTransmitted .. | .ethLinkChange .. | .bmeClear .. | .bmeSet ..
  | .apertureBaseWrite .. | .pwrLimitWrite .. | .fieldSupplyLoss .. | .fieldSupplyReturn .. | .governorUpdate ..
  | .rasBlkrstWrite .. | .powerGoodFall .. | .resetInAssert .. | .perstAssert .. | .hotReset .. | .functionLevelReset ..
  | .linkDlDown .. | .d3hotEntry .. | .d3hotExit .. | .rstKick .. | .fwCoreResetRequest .. | .fwSystemResetRequest ..
  | .fwPowerOnResetRequest .. | .criticalStateError .. | .resetRelease .. | .rstBootGo .. | .secRollWrite ..
  | .timestampQueueConsumed .. => true

end Sys2Proof
end

