-- ==== Sys2Proof/Certificates/Slice0/Obligations.lean ====
section
/-! DEFINITION. The statements for the provers. -/

open Sys2Proof Sys2Proof.Machine

/-- A step with a command at the front of the queue is that command's meaning on the state with the rest of the queue; and every well-formed
command completes in every state: its meaning answers a next state, the queue as it was. (What the next state holds, the other statements say.
That commands stand in a queue, that no command stops and what operands are well formed rest on the model's choices of log entries 1, 4 and 76.) -/
def Obligations.StepRunsTheFrontCommand : Prop :=
  (∀ (c : Instr) (rest : List Instr) (s : State), step { s with pending := c :: rest } = exec c { s with pending := rest })
  ∧ (∀ (c : Instr) (s : State), wellFormed c = true → ∃ t, exec c s = .next t ∧ t.pending = s.pending)

/-- R11: an event sets its flag and moves the sequence of the status register on by one, set before or not; no other flag and no other
register changes. -/
def Obligations.FlagEventMovesSequence : Prop :=
  ∀ (off bit : Nat) (s : State), bit < 16 →
    flagOf (setFlag off bit s) off bit = true
    ∧ (∀ b, b < 16 → b ≠ bit → flagOf (setFlag off bit s) off b = flagOf s off b)
    ∧ rdF (setFlag off bit s) off 16 16 = (rdF s off 16 16 + 1) % 65536
    ∧ (∀ r, r ≠ off → rdW (setFlag off bit s) r = rdW s r)
    ∧ setFlag off bit s = { s with regs := (setFlag off bit s).regs }

/-- R13: a write to a status register clears the flags written as 1 only if the written sequence is the current one; otherwise nothing
changes. The flags of PWR_STATUS that hold stay: flag 0 while the throttle level is above 0 (R503), flag 2 while the hottest Eboux
sensor reads 105 °C or more (R506). -/
def Obligations.StatusClearNeedsSequence : Prop :=
  ∀ (w : Writer) (off : Nat) (v : Word) (d : RegDef) (s : State),
    Quiet s → MayWrite s w off v → FieldUp s off → regAt off = some d → d.status = true →
    (bits v.toNat 16 16 ≠ rdF s off 16 16 → Gives (.statusRegisterClear w off v) s s)
    ∧ (bits v.toNat 16 16 = rdF s off 16 16 → off ≠ Reg.pwrStatus.base →
        Gives (.statusRegisterClear w off v) s (wr off (rdW s off &&& ~~~(v &&& BitVec.ofNat 32 (d.maskOf .rws % 65536))).toNat s))
    ∧ (bits v.toNat 16 16 = rdF s off 16 16 → off = Reg.pwrStatus.base →
        Gives (.statusRegisterClear w off v) s
          (wr off (rdW s off &&& ~~~(v &&& (BitVec.ofNat 32 (d.maskOf .rws % 65536) &&&
            ~~~BitVec.ofNat 32 (b2n (throttle s != 0)
              + 4 * b2n (decide (105 ≤ (BitVec.ofNat 8 (rdF s Reg.pwrTemp.base 0 8)).toInt)))))).toNat s))

/-- R9: a write stores the RW fields of a register whose write has no other effect, and leaves every other bit and all else. -/
def Obligations.PlainWriteStoresFields : Prop :=
  ∀ (w : Writer) (off : Nat) (v : Word) (d : RegDef) (s : State),
    Quiet s → MayWrite s w off v → FieldUp s off → off % 4 = 0 → regAt off = some d → plainReg d off w v = true →
    Gives (.registerWrite w off 15 v) s
      (wr off ((rdW s off &&& ~~~BitVec.ofNat 32 (d.maskOf .rw)) ||| (v &&& BitVec.ofNat 32 (d.maskOf .rw))).toNat s)

/-- R533, R553, R554, R559, R560, R547: the writes that change no register but GLB_STATUS, GLB_ERR and a counter, and a
SEC_ROLL write with a wrong key, which sets its flag (log entry 53). -/
def Obligations.RefusedWritesChangeNothing : Prop :=
  ∀ (w : Writer) (off enables : Nat) (v : Word) (s : State), Quiet s →
    (silent s off true = true → Gives (.registerWrite w off enables v) s s)
    ∧ (silent s off true = false → (enables ≠ 15 ∨ off % 4 ≠ 0) →
        Gives (.registerWrite w off enables v) s (badAccess w off false true s))
    ∧ (silent s off true = false → off % 4 = 0 → regAt off = none →
        Gives (.registerWrite w off 15 v) s (badAccess w off false true s))
    ∧ (∀ d, silent s off true = false → off % 4 = 0 → regAt off = some d → wrongWriter d w = true → off / 65536 ≠ 3 →
        off ≠ Reg.pwrLimit.base → off ≠ Reg.rstReq.base → Gives (.registerWrite w off 15 v) s (setFlag Reg.glbStatus.base 3 s))
    ∧ (∀ d, silent s off true = false → off % 4 = 0 → regAt off = some d → wrongWriter d w = true → off / 65536 = 3 →
        Gives (.registerWrite w off 15 v) s (bump Reg.pciSnapCnt.base 3 (setFlag Reg.glbStatus.base 3 s)))
    ∧ (∀ d, silent s off true = false → off % 4 = 0 → regAt off = some d → wrongWriter d w = false → d.key ≠ 0 →
        bits v.toNat 16 16 ≠ d.key → off ≠ Reg.rstReq.base → off ≠ Reg.secRoll.base → Gives (.registerWrite w off 15 v) s s)
    ∧ (∀ d, silent s Reg.secRoll.base true = false → regAt Reg.secRoll.base = some d → wrongWriter d w = false →
        bits v.toNat 16 16 ≠ d.key → Gives (.registerWrite w Reg.secRoll.base 15 v) s (setFlag Reg.secStatus.base 2 s))

/-- R553-R556, R562: a read of a register answers its word; a read of the first word of a latch group latches the others for that side, a
later word answers what that side latched; a read where no register is answers zero and is recorded. Of the word, a read inside it answers
the bytes asked for (R554). -/
def Obligations.RegisterReadAnswers : Prop :=
  ∀ (w : Writer) (off b n : Nat) (s : State), Quiet s → off % 4 = 0 → b < 4 → b + n ≤ 4 →
    (silent s off false = true → Gives (.latchGroupRead w (off + b) n) s { s with rdata := bits (2 ^ 32 - 1) (8 * b) (8 * n) })
    ∧ (silent s off false = false → regAt off = none →
        Gives (.latchGroupRead w (off + b) n) s { badAccess w off false false s with rdata := 0 })
    ∧ (silent s off false = false → (regAt off).isSome = true → FieldUp s off → latchedWord off = true →
        Gives (.latchGroupRead w (off + b) n) s { s with rdata := bits (latchOf s w off) (8 * b) (8 * n) })
    ∧ (silent s off false = false → (regAt off).isSome = true → FieldUp s off → latchedWord off = false →
        Gives (.latchGroupRead w (off + b) n) s { latchWords w (groupOf off) s with rdata := bits (liveWord s off) (8 * b) (8 * n) })
    ∧ (∀ o ∈ groupOf off, latchOf (latchWords w (groupOf off) s) w o = liveWord s o)
    ∧ (∀ u o, u ≠ w → latchOf (latchWords w (groupOf off) s) u o = latchOf s u o)

/-- R564, R565: a snapshot write latches a block's counters and moves its generation on; GLB_SNAP_ALL does it for every Eboux block and
asks Ouvfi, which latches when the request arrives. -/
def Obligations.SnapshotsLatchCounters : Prop :=
  ∀ (w : Writer) (v : Word) (s : State), Quiet s →
    (∀ b ∈ snapEboux, MayWrite s w b.ctl.base v → Gives (.snapLatch w b.ctl.base v) s (latchBlock b s))
    ∧ (∀ b ∈ snapOuvfi, MayWrite s w b.ctl.base v → s.ouv.powered = true → Gives (.snapLatch w b.ctl.base v) s (latchBlock b s))
    ∧ (MayWrite s w Reg.glbSnapAll.base v → s.snapPending = false →
        Gives (.glbSnapAll w v) s { snapEboux.foldl (fun s b => latchBlock b s) s with snapPending := true })
    ∧ (MayWrite s w Reg.glbSnapAll.base v → s.snapPending = true → Gives (.glbSnapAll w v) s s)
    ∧ (s.snapPending = true → s.ouv.powered = true →
        Gives .ouvfiSnapLatch s
          (wr Reg.glbSnapAll.base ((rd s Reg.glbSnapAll.base / 65536 + 1) % 65536 * 65536)
            { snapOuvfi.foldl (fun s b => latchBlock b s) s with snapPending := false }))
    ∧ (∀ b ∈ snapEboux ++ snapOuvfi,
        (∀ o ∈ counterOffs b.cnt, rd (latchBlock b s) o = counterNow s o % 2 ^ 32)
        ∧ rdF (latchBlock b s) b.ctl.base 16 16 = (rdF s b.ctl.base 16 16 + 1) % 65536)

/-- R474, R475, R555, R570: an alias write changes one bit by a read-modify-write of its register; the writes that are ignored set their
flag; an alias read answers the bit, and that of a semaphore bit also sets it; a read of another size or alignment answers zero and is
recorded. -/
def Obligations.AliasActsOnOneBit : Prop :=
  ∀ (a size : Nat) (v : Word) (d : RegDef) (s : State), Quiet s →
    (size = 4 → a % 4 = 0 → aliasOff a < 65536 → silent s (aliasOff a) true = false → regAt (aliasOff a) = some d →
      wrongWriter d .host = false → aliasRefused d (aliasBit a) = false → (∀ x, plainReg d (aliasOff a) .host x = true) →
      Gives (.bar4AliasWrite a size v) s
        (wr (aliasOff a) ((rdW s (aliasOff a) &&& ~~~BitVec.ofNat 32 (d.maskOf .rw)) |||
          (BitVec.ofNat 32 (setBits (rd s (aliasOff a)) (aliasBit a) 1 (v.toNat % 2)) &&& BitVec.ofNat 32 (d.maskOf .rw))).toNat s))
    ∧ (size = 4 → a % 4 = 0 → aliasOff a < 65536 → silent s (aliasOff a) true = false → regAt (aliasOff a) = some d →
      aliasRefused d (aliasBit a) = true →
      Gives (.bar4AliasWrite a size v) s (setFlag Reg.glbStatus.base 1 s))
    ∧ (size ≠ 4 ∨ a % 4 ≠ 0 → silent s (aliasOff a) true = false →
      Gives (.bar4AliasWrite a size v) s (badAccess .host (aliasOff a) true true s))
    ∧ (∀ bit, bit < 32 → silent s Reg.glbSem.base false = false →
      Gives (.glbSemTestAndSet ((Reg.glbSem.base * 8 + bit) * 4) 4) s
        { wrF Reg.glbSem.base bit 1 1 s with rdata := rdF s Reg.glbSem.base bit 1 })
    ∧ (a % 4 = 0 → aliasOff a < 65536 → aliasOff a ≠ Reg.glbSem.base → silent s (aliasOff a) false = false →
      (regAt (aliasOff a)).isSome = true → Gives (.glbSemTestAndSet a 4) s { s with rdata := bits (liveWord s (aliasOff a)) (aliasBit a) 1 })
    ∧ (size ≠ 4 ∨ a % 4 ≠ 0 → silent s (aliasOff a) false = false →
      Gives (.glbSemTestAndSet a size) s { badAccess .host (aliasOff a) true false s with rdata := 0 })

/-- R385, R388, R563: GLB_MODE is written only while no program is loaded, and a write that turns determinism on, or changes it, sets every
core's point; the words of the nominal increment take effect together. -/
def Obligations.ModeAndIncrementWrites : Prop :=
  ∀ (w : Writer) (v : Word) (s : State), Quiet s →
    (MayWrite s w Reg.glbMode.base v → anyLoaded s = false → v.getLsbD 0 = false →
      Gives (.glbModeWrite w v) s (wr Reg.glbMode.base (v.toNat &&& 0x7F01) s))
    ∧ (MayWrite s w Reg.glbMode.base v → anyLoaded s = false → v.getLsbD 0 = true →
      v.toNat &&& 0x7F01 ≠ rd s Reg.glbMode.base &&& 0x7F01 →
      Gives (.glbModeWrite w v) s
        (setAllPoints (detFreq (wr Reg.glbMode.base (v.toNat &&& 0x7F01) s)) (wr Reg.glbMode.base (v.toNat &&& 0x7F01) s)))
    ∧ (MayWrite s w Reg.glbMode.base v → anyLoaded s = true → v.toNat &&& 0x7F01 ≠ rd s Reg.glbMode.base &&& 0x7F01 →
      Gives (.glbModeWrite w v) s (setFlag Reg.glbStatus.base 2 s))
    ∧ (MayWrite s w Reg.timIncLo.base v →
      Gives (.timIncLoWrite w v) s { s with tim := { s.tim with stagedLo := v } })
    ∧ (MayWrite s w Reg.timIncHi.base v →
      ∃ t, Gives (.timIncHiWrite w v) s t
        ∧ rd t Reg.timIncLo.base = s.tim.stagedLo.toNat ∧ rd t Reg.timIncHi.base = bits v.toNat 0 4
        ∧ t.tim = { s.tim with applied := appliedInc (s.tim.stagedLo.toNat + bits v.toNat 0 4 * 2 ^ 32) s.tim.adj }
        ∧ t = { s with regs := t.regs, tim := t.tim }
        ∧ ∀ r, r ≠ Reg.timIncLo.base → r ≠ Reg.timIncHi.base → rdW t r = rdW s r)
/-- R56, R68: an enable of a ring that keeps the placement rules stands, and the event ring then writes what waits for it; one that breaks
them stays 0 with ITM_STATUS flag 5. -/
def Obligations.RingEnables : Prop :=
  ∀ (w : Writer) (s : State), Quiet s → silent s Reg.itmCtl.base true = false →
    (ringEn s 0 = false → ringOk s 0 = true → Gives (.subRingEnable w) s (wr Reg.itmCtl.base (ctlWith s 0) s))
    ∧ (ringEn s 1 = false → ringOk s 1 = true → Gives (.resRingEnable w) s (wr Reg.itmCtl.base (ctlWith s 1) s))
    ∧ (ringEn s 2 = false → ringOk s 2 = true →
        Gives (.evtRingEnable w) s (postAborted (flushEvents (wr Reg.itmCtl.base (ctlWith s 2) s))))
    ∧ (ringEn s 0 = false → ringOk s 0 = false → Gives (.subRingEnable w) s
        (setFlag Reg.itmStatus.base 5 (wr Reg.itmCtl.base (setBits (ctlWith s 0) 0 1 0) s)))
    ∧ (ringEn s 1 = false → ringOk s 1 = false → Gives (.resRingEnable w) s
        (setFlag Reg.itmStatus.base 5 (wr Reg.itmCtl.base (setBits (ctlWith s 1) 1 1 0) s)))
    ∧ (ringEn s 2 = false → ringOk s 2 = false → Gives (.evtRingEnable w) s
        (setFlag Reg.itmStatus.base 5 (wr Reg.itmCtl.base (setBits (ctlWith s 2) 2 1 0) s)))

/-- R57, R68: a consumer index is taken where the free space it leaves lies between 0 and the ring's size, and is ignored with ITM_STATUS
flag 4 elsewhere; the event ring then writes what waits for space. -/
def Obligations.ConsumerIndexWrites : Prop :=
  ∀ (v : Word) (s : State), Quiet s → silent s Reg.itmResCidx.base true = false →
    ((rd s Reg.itmResPidx.base + 2 ^ 32 - v.toNat) % 2 ^ 32 ≤ ringSize s 1 →
      Gives (.resCidxWrite .host v) s (wr Reg.itmResCidx.base v.toNat s))
    ∧ (ringSize s 1 < (rd s Reg.itmResPidx.base + 2 ^ 32 - v.toNat) % 2 ^ 32 →
      Gives (.resCidxWrite .host v) s (setFlag Reg.itmStatus.base 4 s))
    ∧ ((rd s Reg.itmEvtPidx.base + 2 ^ 32 - v.toNat) % 2 ^ 32 ≤ ringSize s 2 →
      Gives (.evtCidxWrite .host v) s (postAborted (flushEvents (wr Reg.itmEvtCidx.base v.toNat s))))
    ∧ (ringSize s 2 < (rd s Reg.itmEvtPidx.base + 2 ^ 32 - v.toNat) % 2 ^ 32 →
      Gives (.evtCidxWrite .host v) s (setFlag Reg.itmStatus.base 4 s))

/-- R591: a write to ITM_SRC_CTL[n] that would leave the source enabled with pos_src at 5-7, or with an action of 3, is ignored whole and
sets ITM_STATUS flag 9; any other write is taken. -/
def Obligations.SourceWriteChecksFields : Prop :=
  ∀ (w : Writer) (n : Nat) (v : Word) (s : State), Quiet s → n < 8 → silent s (Reg.itmSrcCtl.off n 0) true = false →
    (v.getLsbD 0 = true → 5 ≤ bits v.toNat 8 3 ∨ bits v.toNat 11 2 = 3 ∨ bits v.toNat 13 2 = 3 →
      Gives (.itemSourceWrite w n v) s (setFlag Reg.itmStatus.base 9 s))
    ∧ (v.getLsbD 0 = false ∨ (bits v.toNat 8 3 < 5 ∧ bits v.toNat 11 2 ≠ 3 ∧ bits v.toNat 13 2 ≠ 3) →
      Gives (.itemSourceWrite w n v) s
        (if v.getLsbD 0 = true ∧ srcEn s n = false then
           modPwr (fun p => { p with sourceCommits := modAt n (fun _ => 0) p.sourceCommits })
             (wr (Reg.itmSrcCtl.off n 0) (v.toNat &&& 0xFF1FFFFF) s)
         else wr (Reg.itmSrcCtl.off n 0) (v.toNat &&& 0xFF1FFFFF) s))

/-- R59-R62, R202, R468, R469, R531: a poll consumes each new entry and writes the consumer index back; with none it changes no index; a read
that the link or a window refuses ends the ring's enable; with 64 submissions outstanding none is read. A no-op completes with its event. An
entry that by itself ends a load, an unload, a policy or a quota ends in its turn, in ring order. -/
def Obligations.PollConsumesNewEntries : Prop :=
  ∀ (m : MemRun) (s : State), Quiet s → cpUp s 1 = true →
    (m.abort ≠ some 0 → ringEn s 0 = true → rdF s Reg.itmSubPoll.base 0 16 ≠ 0 → s.host.bme = true → openCount s < 64 →
      hostCanRead s (ringBase s 0 + (rd s Reg.itmSubCidx.base % ringSize s 0) * 64) 64 = true →
      bitOf (leAt (hostGet s (ringBase s 0 + (rd s Reg.itmSubCidx.base % ringSize s 0) * 64) 64) 0x3F 1) 0
        ≠ phaseOf (rd s Reg.itmSubCidx.base) (ringSize s 0) →
      Gives (.subRingPoll m) s (endEarly (bump Reg.pciSnapCnt.base 0 s)))
    ∧ (∀ n s1, ringEn s 0 = true → rdF s Reg.itmSubPoll.base 0 16 ≠ 0 → s.host.bme = true →
      pollEntries m.abort (ringSize s 0) 0 s = (n + 1, s1) →
      Gives (.subRingPoll m) s (endEarly (writeBack 0 (rd s1 Reg.itmSubCidx.base) s1)))
    ∧ (ringEn s 0 = true → rdF s Reg.itmSubPoll.base 0 16 ≠ 0 → s.host.bme = true → openCount s < 64 →
      m.abort = some 0 ∨ hostCanRead s (ringBase s 0 + (rd s Reg.itmSubCidx.base % ringSize s 0) * 64) 64 = false →
      Gives (.subRingPoll m) s
        (endEarly (wrF Reg.itmCtl.base 0 1 0 (setFlag Reg.pciStatus.base 0 (hostAbort (bump Reg.pciSnapCnt.base 0 s))))))
    ∧ (∀ f n, 64 ≤ openCount s → pollEntries m.abort (f + 1) n s = (n, s))
    ∧ (∀ n f raw, m.abort ≠ some n → openCount s < 64 →
      hostCanRead s (ringBase s 0 + (rd s Reg.itmSubCidx.base % ringSize s 0) * 64) 64 = true →
      hostGet s (ringBase s 0 + (rd s Reg.itmSubCidx.base % ringSize s 0) * 64) 64 = raw →
      bitOf (leAt raw 0x3F 1) 0 = phaseOf (rd s Reg.itmSubCidx.base) (ringSize s 0) →
      pollEntries m.abort (f + 1) n s
        = pollEntries m.abort f (n + 1) (takeEntry raw (wr Reg.itmSubCidx.base (rd s Reg.itmSubCidx.base + 1) (bump Reg.pciSnapCnt.base 0 s))))
    ∧ (∀ e, (s.led.subQ.find? fun e => e.op == 0) = some e →
      Gives .subNop s (endEarly (postEvent 1 e.op e.tag.toNat 0 Stat.ok []
        (modLed (fun l => { l with subQ := dropFirst (fun x => x == e) l.subQ }) s))))
    ∧ (∀ e, turn s = none ∨ (turn s = some e ∧ e.early = none) → endEarly s = s)
    ∧ (∀ e st, turn s = some e → e.early = some st → endEarly s = endEarly (dropSub e st [] s))

/-- R33, R589, R95: an open-item submission opens an item on an enabled host source or completes with BAD_FORMAT; a quota submission applies
its parts as the register writes would, enable, quota, KV pool, disable, in that order (R592); one of length 0 does nothing (R61, R588). -/
def Obligations.OpenItemAndQuotaSubmissions : Prop :=
  ∀ (m : MemRun) (e : Submission) (s : State), Quiet s →
    (cpUp s 1 = true → (s.led.subQ.find? fun e => e.op == 4) = some e → e.arg < 8 → srcEn s e.arg = true → srcHost s e.arg = true →
      GivesThen .subOpenItem s
        (finishSub e Stat.ok [] (openItem e.arg (copyPos s (srcPos s e.arg)) s.tim.now none s)))
    ∧ (cpUp s 1 = true → (s.led.subQ.find? fun e => e.op == 4) = some e →
      7 < e.arg ∨ srcEn s e.arg = false ∨ srcHost s e.arg = false → Gives .subOpenItem s (finishSub e Stat.badFormat [] s))
    ∧ (∀ bs s1 s2 s3 s4 s5, nextSub (fun e => e.op == 5) s = some e → e.arg ≤ 15 → e.len = 16 → Payload m true e s bs s1 →
      leAt bs 8 1 ≤ 15 → leAt bs 9 7 = 0 →
      (bitOf (leAt bs 8 1) 2 && bitOf (leAt bs 8 1) 3) = false →
      s2 = (if bitOf (leAt bs 8 1) 2 then writeQuota e.arg (setBits (rd s1 (Reg.sqQuota.off e.arg 0)) 31 1 1) s1 else s1) →
      s3 = (if bitOf (leAt bs 8 1) 0 then writeQuota e.arg (setBits (rd s2 (Reg.sqQuota.off e.arg 0)) 0 14 (min (leAt bs 0 4) 16383)) s2 else s2) →
      s4 = (if bitOf (leAt bs 8 1) 1 then writeKvCfg e.arg (setBits (rd s3 (Reg.sqKvCfg.off e.arg 0)) 16 14 (min (leAt bs 4 4) 16383)) s3 else s3) →
      s5 = (if bitOf (leAt bs 8 1) 3 then writeQuota e.arg (setBits (rd s4 (Reg.sqQuota.off e.arg 0)) 31 1 0) s4 else s4) →
      GivesThen (.subQuota m) s (finishSub e Stat.ok [] s5))
    ∧ (nextSub (fun e => e.op == 5) s = some e → e.len = 0 →
      Gives (.subQuota m) s (finishSub e (if e.arg ≤ 15 then Stat.ok else Stat.badFormat) [] s))

/-- R202-R206, R187, R188, R198, R381, R382: a load that passes stages 1 to 3 is placed, behind the jobs of its engines; its completion makes the
program's instances READY, gives it its tokens and posts the handle; a load that falls short, or that a check refuses, completes with its report
or the check's status, and a hash of the sections as placed that is wrong, or too few cores, gives everything back, its granules zeroed. The
loader's jobs keep the place in the engines' queues that they took (R382). -/
def Obligations.ProgramLoads : Prop :=
  ∀ (m : MemRun) (e : Submission) (s : State), Quiet s →
    (∀ img s1, nextSub (fun e => e.op == 1) s = some e → e.len ≠ 0 → e.arg ≤ 15 → par e 0x30 1 ≤ 1 → parsZero e 0x31 = true →
      Payload m false e s img s1 →
      (∀ f, stage1 img e.len = some f → GivesThen (.subLoadProgram m) s (refuseLoad e f s1))
      ∧ (stage1 img e.len = none → ((manifestOf (oneSec img 5)).det && !detMode s1) = false →
        (∀ x xs, shortfalls s1 (e.arg % 16) (par e 0x20 4) (par e 0x24 4) img = x :: xs →
          GivesThen (.subLoadProgram m) s (refuseShort m e 2 (x :: xs) s1))
        ∧ (shortfalls s1 (e.arg % 16) (par e 0x20 4) (par e 0x24 4) img = [] →
          (loaderWaits (queueChecks img s1) = true → Gives (.subLoadProgram m) s (queueChecks img s))
          ∧ (∀ u, loaderWaits (queueChecks img s1) = false → u = loaderStarts (queueChecks img s1) →
            (stage3 u e img = none → GivesThen (.subLoadProgram m) s (startPlacing m e img (loaderJobs img u)))
            ∧ (∀ f, stage3 u e img = some f → GivesThen (.subLoadProgram m) s (refuseLoad e f (loaderJobs img u)))))))
    ∧ (∀ p u, cpUp s 0 = true → (s.progs.find? (·.loading)) = some p → s.led.subQ.find? serialOp = some e → m.ecc = [] →
      u = queueLoader 0 ((hashLengths p.image (asPlaced s p) (refBytes s)).filterMap id).length s → loaderWaits u = false →
      firstFail (placedChecks u p) = none → p.coresMin ≤ (activeCores s).length →
      ∃ t, exec (.programLoadComplete m) s = .next t
        ∧ t.lastHandle = p.handle ∧ t.tokens = s.tokens ++ tokensOf p ∧ t.tasks = s.tasks ++ newTasks p u.stamp s.tim.now
        ∧ t.progs = updFirst (fun q => q.handle == p.handle)
            (fun q => { q with loading := false, image := [], placed := [], ctxIds := takeCtx s p }) s.progs
        ∧ ((∀ x ∈ s.led.subQ, x.early = none) → t.led.subQ = dropFirst (fun x => x == e) s.led.subQ)
        ∧ (∀ k ∈ newTasks p u.stamp s.tim.now, k.st = .ready ∧ k.core = none ∧ k.waits = [] ∧ k.id.handle = p.handle)
        ∧ t.mem = s.mem ∧ t.sq = s.sq ∧ t.cores = s.cores ∧ t.ouv = s.ouv ∧ t.eng = { s.eng with loader := none } ∧ t.ports = s.ports ∧ t.pipes = s.pipes
        ∧ t.led.items = s.led.items ∧ t.led.committing = s.led.committing ∧ t.pending = s.pending)
    ∧ (∀ p u s1 s2, cpUp s 0 = true → (s.progs.find? (·.loading)) = some p → s.led.subQ.find? serialOp = some e →
      u = queueLoader 0 ((hashLengths p.image (asPlaced s p) (refBytes s)).filterMap id).length s → loaderWaits u = false →
      s1 = seeEcc m.ecc (loaderStarts u) → (firstFail (placedChecks s1 p)).isSome = true ∨ (activeCores s1).length < p.coresMin →
      s2 = dropLoad p.handle (loaderHashes (placedChecks s1 p) (hashLengths p.image (asPlaced s1 p) (refBytes s1)) s1) →
      GivesThen (.programLoadComplete m) s (refuseShort m e 4 (shortfalls s2 p.part p.lpBase (par e 0x24 4) p.image) s2))

/-- R40, R209, R94, R198, R200: an unload stops the program at once and is complete when no job of it is left; then its granules, tokens,
contexts and tasks are gone. -/
def Obligations.ProgramUnloads : Prop :=
  ∀ (e : Submission) (p : Program) (s : State), Quiet s →
    (nextSub (fun e => e.op == 2) s = some e → argProg s e = some p →
      GivesThen .subUnload s
        (endPeriodic p.handle (modProg p.handle (fun p => { p with unloading := true }) (stopProgram p.handle s))))
    ∧ (nextSub (fun e => e.op == 2) s = some e → argProg s e = none → Gives .subUnload s (finishSub e Stat.badHandle [] s))
    ∧ (cpUp s 0 = true → s.progs.find? (·.unloading) = some p → s.led.subQ.find? serialOp = some e → jobsOfProg s p.handle ≠ 0 →
      Gives .unloadComplete s s)
    ∧ (cpUp s 0 = true → s.progs.find? (·.unloading) = some p → s.led.subQ.find? serialOp = some e → jobsOfProg s p.handle = 0 →
      ∃ t, Gives .unloadComplete s t ∧ (∀ q ∈ t.progs, q.handle ≠ p.handle) ∧ (∀ k ∈ t.tokens, k.handle ≠ p.handle)
        ∧ (∀ k ∈ t.tasks, k.id.handle ≠ p.handle) ∧ (∀ b ∈ t.binds, b.handle ≠ p.handle) ∧ (∀ x ∈ t.plans, x.handle ≠ p.handle)
        ∧ (∀ r ∈ t.sq.runs, r.handle = p.handle → r.kind = 4)
        ∧ ((∀ x ∈ s.led.subQ, x.early = none) → t.led.subQ = dropFirst (fun x => x == e) s.led.subQ)
        ∧ t.mem = s.mem ∧ t.cores = s.cores ∧ t.led.items = s.led.items ∧ t.led.committing = s.led.committing)
/-- R267, R268, R335, R404, R431: what each policy submission leaves when its payload passes its checks; it completes with OK. The priority
tables are CP[1]'s (R23). -/
def Obligations.ProgramPolicies : Prop :=
  ∀ (m : MemRun) (e : Submission) (p : Program) (bs : List Byte) (s s1 : State), Quiet s → e.len ≠ 0 → argProg s e = some p →
    Payload m true e s bs s1 →
    (nextSub (isPolicy 1) s = some e → cpUp s 1 = true → parsZero e 0x15 = true → e.len % 4 = 0 →
      (∀ x ∈ prioEntries bs, x.1 < p.tmpls.length ∧ x.2.1 ≤ 3 ∧ x.2.2 = 0) →
      Gives (.policyPriority m) s (finishSub e Stat.ok [] ((prioEntries bs).foldl (fun s x => setPrio p.handle x.1 x.2.1 s) s1)))
    ∧ (nextSub (isPolicy 2) s = some e → portIndex (par e 0x15 1) < 16 → parsZero e 0x16 = true → e.len = 64 →
      leAt bs 0xC 2 ≠ 0 → leAt bs 0xC 2 ≤ 256 → 1 ≤ leAt bs 0xE 2 → leAt bs 0xE 2 ≤ 4096 → leAt bs 8 4 % 64 = 0 → leAt bs 0x38 8 = 0 →
      (∀ x ∈ bindExtents bs, 64 + leAt bs 0xE 2 * x.2.2 ≤ x.2.1 ∧ inPartition s1 p.part x.1 (leAt bs 0xC 2 * x.2.1) = true) →
      extToken s1 p.handle (leAt bs 0x10 2) false = true → extToken s1 p.handle (leAt bs 0x12 2) true = true →
      (s1.binds.filter fun x => x.handle == p.handle && x.port != portIndex (par e 0x15 1)).length < p.ctx.getD 0 0 →
      Gives (.policyPortBinding m) s (finishSub e Stat.ok [] { s1 with
        stamp := s1.stamp + 1
        binds := (s1.binds.filter fun x => x.port != portIndex (par e 0x15 1))
          ++ [{ port := portIndex (par e 0x15 1), handle := p.handle, payload := bs, stripes := 0, ord := s1.stamp }] }))
    ∧ (∀ k, nextSub (isPolicy 3) s = some e → parsZero e 0x15 = true → e.len = 32 →
      taskOf s1 { handle := p.handle, tmpl := leAt bs 0 2, inst := leAt bs 2 2 } = some k → leAt bs 4 4 = 0 → leAt bs 0x18 8 = 0 →
      k.regs.step + k.waits.length ≤ leAt bs 8 8 →
      regionOf (leAt bs 0x10 8) = .lpddr ∨ regionOf (leAt bs 0x10 8) = .host → mapped s1 (leAt bs 0x10 8) 4208064 = Stat.ok →
      Gives (.policyReplayStop m) s (finishSub e Stat.ok [] (modProg p.handle
        (fun p => { p with replay := some { task := { handle := p.handle, tmpl := leAt bs 0 2, inst := leAt bs 2 2 }
                                            step := leAt bs 8 8, dump := leAt bs 0x10 8, reached := false } }) s1)))
    ∧ (∀ ps, nextSub (isPolicy 4) s = some e → parsZero e 0x15 = true → e.len % 32 = 0 →
      (s.plans.filter fun x => x.handle != p.handle).length + e.len / 32 ≤ 32 →
      ps = ((List.range (e.len / 32)).map fun k => (bs.drop (32 * k)).take 32) → ps.all planOk = true →
      Gives (.policyTriggerPlans m) s (finishSub e Stat.ok [] { s1 with
        plans := (s.plans.filter fun x => x.handle != p.handle) ++ ps.map fun b => { handle := p.handle, bytes := b } }))

/-- R542, R546, R549: attestation writes a report that the alias key signs; model keys replace their slots unless they are locked; an
accepted firmware image goes to the slot not in use. It rests on the model's choices of log entries 51 (the slot after a recovery boot) and
52 (the slot's count of expiries starts again at the write). -/
def Obligations.TrustPolicies : Prop :=
  ∀ (m : MemRun) (e : Submission) (bs : List Byte) (s s1 : State), Quiet s → e.len ≠ 0 → Payload m true e s bs s1 →
    (∀ st s2, nextSub (isPolicy 5) s = some e → e.arg = 0 → par e 0x15 3 = 0 → parsZero e 0x24 = true → e.len = 32 →
      (reportOf bs s1).length ≤ par e 0x20 4 → runWrite m (par e 0x18 8) (reportOf bs s1) s1 = (st, s2) →
      GivesThen (.policyAttestation m) s (finishSub e st [] s2))
    ∧ (nextSub (isPolicy 5) s = some e → e.arg = 0 → par e 0x15 3 = 0 → parsZero e 0x24 = true → e.len = 32 →
      par e 0x20 4 < (reportOf bs s1).length → GivesThen (.policyAttestation m) s (finishSub e Stat.length [] s1))
    ∧ (nextSub (isPolicy 6) s = some e → rdB s Reg.secPolicy.base 1 = false → parsZero e 0x15 = true → e.arg = 0 → e.len % 68 = 0 →
      e.len ≤ 544 → (∀ k ∈ keyEntries bs, k.1 ≤ 7 ∧ (k.2.1 = 1 ∨ k.2.1 = 2) ∧ k.2.2.1 = 0) →
      ∃ t, GivesThen (.policyModelKeys m) s (finishSub e Stat.ok [] t) ∧ t = { s1 with rst := { s1.rst with modelKeys := t.rst.modelKeys } }
        ∧ (∀ k, (keyEntries bs).getLast? = some k →
            (k.1, k.2.1, if k.2.1 = 1 then k.2.2.2.take 32 else k.2.2.2) ∈ t.rst.modelKeys)
        ∧ (∀ x ∈ s1.rst.modelKeys, (∀ k ∈ keyEntries bs, k.1 ≠ x.1) → x ∈ t.rst.modelKeys))
    ∧ (nextSub (isPolicy 6) s = some e → rdB s Reg.secPolicy.base 1 = true →
      Gives (.policyModelKeys m) s (finishSub e Stat.badFormat [] s))
    ∧ (∀ k, nextSub (isPolicy 7) s = some e → e.arg = 0 → parsZero e 0x15 = true → imageAccepted s1 bs = true → slotToWrite s1 = k →
      GivesThen (.policyFirmwareSlot m) s (finishSub e Stat.ok [] (modRst (fun r => { r with
        flashA := if k = 0 then bs else r.flashA, flashB := if k = 0 then r.flashB else bs
        fails := modAt k (fun _ => 0) r.fails }) { s1 with fresh := s1.fresh + 1 })))
    ∧ (nextSub (isPolicy 7) s = some e → e.arg = 0 → parsZero e 0x15 = true → imageAccepted s1 bs = false →
      GivesThen (.policyFirmwareSlot m) s (finishSub e Stat.signature [] s1))

/-- R32, R33, R35-R37, R431: an opening edge opens an item of its source with the next ID, its deadline at a fixed distance from its open
position, and sends the source's trains; the opposite edge gives its close position; an item whose deadline is reached is ended as a
default or void. It rests on the model's choices of log entry 23: rows act on the edge at the head of the queue, and a source that was disabled
since opens nothing. (An opened item's gated frames open with it, R303.) -/
def Obligations.ItemsOpenCloseAndEnd : Prop :=
  ∀ (s : State), Quiet s →
    (∀ (src : Nat) (e : Edge) (es : List Edge) (o : Nat × Nat), s.ouv.edgeQ = e :: es → e.opens.find? (fun o => o.1 == src) = some o →
      (srcEn s src = true →
        GivesThen (.itemOpen src) s (reportLost (settleEdges (openItem src (edgePos s src e) e.time (some o.2)
          (modEdge (fun e => { e with opens := dropFirst (fun x => x == o) e.opens }) s)))))
      ∧ (srcEn s src = false →
        Gives (.itemOpen src) s (reportLost (settleEdges (modEdge (fun e => { e with opens := dropFirst (fun x => x == o) e.opens }) s)))))
    ∧ (∀ (n : Nat) (pos : Pos) (time : DevTime) (ord : Option Nat) (p : Program), inflight s < 16384 →
      loadedProg s (srcProg s n) = some p → p.stopped = false →
      ∃ i t, openItem n pos time ord s = gateOpenAll t ∧ t.led.items = s.led.items ++ [i] ∧ i.id = rdW s Reg.itmNextId.base ∧ i.src = n
        ∧ i.posSrc = srcPos s n ∧ i.openPos = pos ∧ i.openTime = time ∧ i.closePos = none ∧ i.bound = false ∧ i.frags = []
        ∧ i.deadline = pos + BitVec.ofNat 48 (rd s (Reg.itmSrcDl.off n 0))
        ∧ rdW t Reg.itmNextId.base = rdW s Reg.itmNextId.base + 1 ∧ t.led.srcItem.lookup n = some i.id
        ∧ ctrOf t Reg.itmSnapCnt.base = ctrOf s Reg.itmSnapCnt.base + 1 ∧ t.toKerb = s.toKerb ++ trainsOf s i
        ∧ t.led.committing = s.led.committing ∧ t.mem = s.mem ∧ t.hostMem = s.hostMem ∧ t.tasks = s.tasks ∧ t.tokens = s.tokens)
    ∧ (∀ (src : Nat) (e : Edge) (es : List Edge) (id : Word), s.ouv.edgeQ = e :: es → e.closes.contains src = true →
      s.led.srcItem.lookup src = some id →
      ∃ t, Gives (.itemCloseEdge src) s t
        ∧ (∀ i ∈ s.led.items, i.id = id → i.closePos = none →
            { i with closePos := some (edgePos s src e), closeTime := e.time } ∈ t.led.items)
        ∧ (∀ i ∈ s.led.items, i.id ≠ id ∨ i.closePos ≠ none → i ∈ t.led.items)
        ∧ t.led.items.length = s.led.items.length ∧ t.mem = s.mem ∧ t.tasks = s.tasks ∧ t.cores = s.cores ∧ t.tokens = s.tokens
        ∧ ∀ r, r ≠ Reg.itmEvtPidx.base → r ≠ Reg.itmStatus.base → r ≠ Reg.pciStatus.base → rdW t r = rdW s r)
    ∧ (∀ (id : Word) (i : Item), itemOf s id = some i → reached (copyPos s i.posSrc) i.deadline = true →
      GivesThen (.itemDeadline id) s (defaultItem i 1 s))
    ∧ (∀ (id : Word) (i : Item), itemOf s id = some i → reached (copyPos s i.posSrc) i.deadline = false →
      Gives (.itemDeadline id) s s)

/-- R37, R50, R51, R54: an item that is ended as at its deadline leaves OPEN and BOUND, takes the next sequence number, and stands last among
the committing ones as DEFAULT where it was BOUND and as VOID where it was OPEN. -/
def Obligations.EndedItemTakesASequenceNumber : Prop :=
  ∀ (id : Word) (i : Item) (s t : State), itemOf s id = some i → t = defaultItem i 1 s →
    (∀ x ∈ t.led.items, x.id ≠ i.id) ∧ (∀ x ∈ t.led.items, x ∈ s.led.items) ∧ (∀ x ∈ s.led.items, x.id ≠ i.id → x ∈ t.led.items)
      ∧ rdW t Reg.itmNextSeq.base = rdW s Reg.itmNextSeq.base + 1 ∧ rdW t Reg.itmNextId.base = rdW s Reg.itmNextId.base
      ∧ ∃ c, t.led.committing = s.led.committing ++ [c] ∧ c.item.id = i.id ∧ c.seq = rdW s Reg.itmNextSeq.base
        ∧ c.disp = (if i.bound then 3 else 4) ∧ c.commitPos = copyPos s i.posSrc ∧ c.commitTime = s.tim.now ∧ c.digest.length = 32

/-- R41, R51, R63-R67, R424, R460: a committing item leaves for the ring where it fits and the overflow area is empty, its Kerb entry for the
companion link; where the area has no room either, it is lost, flagged and counted (R67); the area drains whole records in order, and the one
whose write meets HOST_ABORT stays with those behind it; a committed record is queued for the result stream or dropped whole. It rests on the
model's choices of log entries 18 (the ring after HOST_ABORT), 90 (the entry at which a write meets it) and 95 (the kind of the source is read
at the hand-off). -/
def Obligations.RecordsAreHandedOff : Prop :=
  ∀ (m : MemRun) (s : State), Quiet s →
    (∀ (c : Commit) (cs : List Commit) (bs : List Byte) (s1 : State), s.led.committing = c :: cs →
      bs = recordBytes (srcHost s c.item.src) c → s1 = putRecord c.item.id c.seq bs m.abort (modLed (fun l => { l with committing := cs }) s) →
      Gives (.recordHandoff m) s
        (if rdB s1 Reg.ethStream.base 0 then
           modLed (fun l => { l with streamQ := l.streamQ ++ [bs] }) { s1 with toKerb := s1.toKerb ++ fireMsg c }
         else { s1 with toKerb := s1.toKerb ++ fireMsg c }))
    ∧ (∀ (id seq : Word) (bs : List Byte), s.led.overflow = [] → bs.length / 64 ≤ ringFree s 1 →
      putRecord id seq bs none s = ringWrite 1 bs s)
    ∧ (∀ (id seq : Word) (bs : List Byte) (k : Nat), s.led.overflow = [] → bs.length / 64 ≤ ringFree s 1 →
      (k < bs.length / 64 → putRecord id seq bs (some k) s = toOverflow id seq bs (ringAbort bs k s))
      ∧ (bs.length / 64 ≤ k → putRecord id seq bs (some k) s = ringWrite 1 bs s))
    ∧ (∀ (id seq : Word) (bs : List Byte), s.led.overflow = [] → ringFree s 1 < bs.length / 64 → (ringEn s 1 && ringRefused s 1) = false →
      ∀ ab, putRecord id seq bs ab s = toOverflow id seq bs s)
    ∧ (∀ (id seq : Word) (bs : List Byte), ovfCap s < ovfUsed s + bs.length / 64 →
      toOverflow id seq bs s =
        postEvent 4 1 id.toNat 0 0 (leBytes 4 seq.toNat) (bump Reg.itmSnapCnt.base 10 (setFlag Reg.itmStatus.base 2 s)))
    ∧ (∀ (id seq : Word) (bs : List Byte) (ab : Option Nat), s.led.overflow ≠ [] →
      ((ringEn s 1 && ringRefused s 1) = false → putRecord id seq bs ab s = toOverflow id seq bs s)
      ∧ ((ringEn s 1 && ringRefused s 1) = true → putRecord id seq bs ab s = toOverflow id seq bs (hostAbort s)))
    ∧ (∀ (o : OvfRec) (os : List OvfRec) (u : State), m.ecc = [] → s.led.overflow = o :: os → u = modLed (fun l => { l with ringFailed := false }) s →
      ((ringEn u 1 && ringRefused u 1) = true → Gives (.overflowDrain m) s (hostAbort u))
      ∧ ((ringEn u 1 && ringRefused u 1) = false → ringFree u 1 < o.entries → Gives (.overflowDrain m) s u)
      ∧ ((ringEn u 1 && ringRefused u 1) = false → o.entries ≤ ringFree u 1 → m.abort = none →
        Gives (.overflowDrain m) s (drainOverflow os.length none (modLed (fun l => { l with overflow := os }) (ringWrite 1 (ovfGet u o) u))))
      ∧ (∀ k, (ringEn u 1 && ringRefused u 1) = false → o.entries ≤ ringFree u 1 → m.abort = some k →
        (k < o.entries → Gives (.overflowDrain m) s (ringAbort (ovfGet u o) k u))
        ∧ (o.entries ≤ k → Gives (.overflowDrain m) s
            (drainOverflow os.length (some (k - o.entries)) (modLed (fun l => { l with overflow := os }) (ringWrite 1 (ovfGet u o) u))))))
    ∧ (∀ (bs : List Byte) (rest : List (List Byte)), s.led.streamQ = bs :: rest →
      streamBytes s + bs.length + ceilDiv bs.length 1408 * 58 ≤ 262144 →
      Gives .resultStreamRecord s
        (queueParts (leAt bs 0xC 4) (ceilDiv bs.length 1408) bs (ceilDiv bs.length 1408) (modLed (fun l => { l with streamQ := rest }) s)))
    ∧ (∀ (bs : List Byte) (rest : List (List Byte)), s.led.streamQ = bs :: rest →
      262144 < streamBytes s + bs.length + ceilDiv bs.length 1408 * 58 →
      Gives .resultStreamRecord s
        (postEvent 0x0D 5 (leAt bs 0xC 4) 0 0 (leBytes 4 1) (bump Reg.ethSnapCnt.base 3 (setFlag Reg.ethStatus.base 2
          (modTim (fun t => { t with dropMark := true }) (modLed (fun l => { l with streamQ := rest }) s))))))
/-- R71, R74, R76-R78, R94: an access to one line of allocated granules reads or writes its bytes and nothing else; a poisoned word answers
POISON; an unallocated granule answers UNMAPPED; what SEC-DED finds is recorded, and an uncorrectable word is poisoned. That a
write of a line that covers part of a poisoned word is refused whole is the model's choice (log entry 54). -/
def Obligations.SquareAccessEffects : Prop :=
  ∀ (stop a n : Nat) (bs : List Byte) (s : State), Quiet s → coreUp s = true → sends stop = true →
    (0 < n → a % 256 + n ≤ 256 → a + n ≤ 0x20000000 → allocated s a n = true → poisonHit s.sq.poison a n = false →
      Gives (.squareAccess stop (.read a n) []) s { s with rdata := ofLe (devGet s a n), rstat := Stat.ok })
    ∧ (0 < n → a + n ≤ 0x20000000 → allocated s a n = true → poisonHit s.sq.poison a n = true →
      Gives (.squareAccess stop (.read a n) []) s { s with rdata := 0, rstat := Stat.poison })
    ∧ (0 < bs.length → a % 256 + bs.length ≤ 256 → a + bs.length ≤ 0x20000000 → allocated s a bs.length = true →
      poisonPart s.sq.poison a bs.length = false →
      Gives (.squareAccess stop (.write a bs) []) s { devPut a bs s with rdata := 0, rstat := Stat.ok })
    ∧ (0 < bs.length → a % 256 + bs.length ≤ 256 → a + bs.length ≤ 0x20000000 → allocated s a bs.length = true →
      poisonPart s.sq.poison a bs.length = true →
      Gives (.squareAccess stop (.write a bs) []) s { s with rdata := 0, rstat := Stat.poison })
    ∧ (0 < n → 0x20000000 < a + n ∨ allocated s a n = false →
      Gives (.squareAccess stop (.read a n) []) s { noteUnmapped s with rdata := 0, rstat := Stat.unmapped })
    ∧ (0 < bs.length → 0x20000000 < a + bs.length ∨ allocated s a bs.length = false →
      Gives (.squareAccess stop (.write a bs) []) s { noteUnmapped s with rdata := 0, rstat := Stat.unmapped })
    ∧ (∀ w, 0 < n → a + n ≤ 0x20000000 → allocated s a n = true → poisonHit s.sq.poison a n = false → touches a n w = true →
      Gives (.squareAccess stop (.read a n) [⟨w, false⟩]) s
        { noteCorrected w s with rdata := ofLe (devGet s a n), rstat := Stat.ok })
    ∧ (∀ w, 0 < n → a + n ≤ 0x20000000 → allocated s a n = true → s.sq.poison.contains w = false → touches a n w = true →
      Gives (.squareAccess stop (.read a n) [⟨w, true⟩]) s
        { noteUncorrectable w false s with rdata := 0, rstat := Stat.poison })
    ∧ (∀ x, x < a ∨ a + bs.length ≤ x → memGet (devPut a bs s).mem x = memGet s.mem x)
    ∧ (∀ i, i < bs.length → memGet (devPut a bs s).mem (a + i) = bs.getD i 0)

/-- R99, R107, R108, R510: the host reads allocated granules, finds all ones in unallocated ones, where its writes are dropped, and either sets
SQ_STATUS flag 8; each access of its counts in PCI counter 2 (R496); a bank's stop sends no access; an access past its time ends with POISON
for the unit, the task or the job that made it, retires the bank and is reported to RAS. It rests on the model's choices of log entry 54: the
bank's stop as reference and unit, the free word and queue of the task's fault. -/
def Obligations.HostAccessAndTimeout : Prop :=
  ∀ (a n : Nat) (bs : List Byte) (s : State), Quiet s → coreUp s = true →
    (0 < n → a % 65536 + n ≤ 65536 → a + n ≤ 0x20000000 → allocated s a n = true → poisonHit s.sq.poison a n = false →
      Gives (.hostSquareAccess (.read a n) []) s { bump Reg.pciSnapCnt.base 2 s with rdata := ofLe (devGet s a n), rstat := Stat.ok })
    ∧ (0 < n → a % 65536 + n ≤ 65536 → a + n ≤ 0x20000000 → runAt s (a / 65536) = none →
      Gives (.hostSquareAccess (.read a n) []) s
        { setFlag Reg.sqStatus.base 8 (bump Reg.pciSnapCnt.base 2 s) with rdata := 2 ^ (8 * n) - 1, rstat := Stat.ok })
    ∧ (0 < bs.length → a % 256 + bs.length ≤ 256 → a + bs.length ≤ 0x20000000 → allocated s a bs.length = true →
      poisonPart s.sq.poison a bs.length = false →
      Gives (.hostSquareAccess (.write a bs) []) s { devPut a bs (bump Reg.pciSnapCnt.base 2 s) with rdata := 0, rstat := Stat.ok })
    ∧ (0 < bs.length → a % 65536 + bs.length ≤ 65536 → a + bs.length ≤ 0x20000000 → runAt s (a / 65536) = none →
      Gives (.hostSquareAccess (.write a bs) []) s
        { setFlag Reg.sqStatus.base 8 (bump Reg.pciSnapCnt.base 2 s) with rdata := 0, rstat := Stat.ok })
    ∧ (∀ stop acc ecc, sends stop = false → Gives (.squareAccess stop acc ecc) s s)
    ∧ (∀ by_, a < 0x20000000 →
      GivesThen (.squareAccessTimeout a by_) s
        (postEvent 0x10 5 (bankStop s (bankOf a)) 0 0 [] (wr Reg.rasLast.base (5 + bankStop s (bankOf a) * 256 + Stat.poison * 65536)
          (bump Reg.rasSnapCnt.base 6 (setFlag Reg.rasStatus.base 6 (retireBank (bankOf a) (answerPoison by_ s)))))))
    ∧ answerPoison .unit s = { s with rstat := Stat.poison }
    ∧ (∀ n t, (coreOf s n).task = some t →
        ∃ q w, q < 4 ∧ w < 2 ^ 22 ∧ answerPoison (.core n) s = faultTask t Stat.poison q w { s with fresh := s.fresh + 2 })
    ∧ (∀ kind eng r, runningOn s kind eng = some r → r.done = false → answerPoison (.job kind eng) s = cutJob Stat.poison r s)

/-- R79-R82, R103: the scrubber moves on by a line, and after the last line a pass has completed; a finished copy switches the bank map to
the spare; the third failed resend of a flit takes the link's spare lane, which RAS reports (R510). It rests on the model's choices of log
entry 54: the corrected errors of a retired bank are counted anew, and the count of resends starts again at the spare lane. -/
def Obligations.ScrubRetireAndLinks : Prop :=
  ∀ (bank : Nat) (s : State), Quiet s → coreUp s = true →
    (bank < 128 → rdB s Reg.sqCtl.base 0 = true → s.sq.scrubLine.getD bank 0 + 1 < 16384 →
      Gives (.scrubRead bank []) s
        { s with sq := { s.sq with scrubLine := modAt bank (fun _ => s.sq.scrubLine.getD bank 0 + 1) s.sq.scrubLine } })
    ∧ (bank < 128 → rdB s Reg.sqCtl.base 0 = true → s.sq.scrubLine.getD bank 0 + 1 = 16384 → bank ≠ 0 →
      Gives (.scrubRead bank []) s
        { s with sq := { s.sq with scrubLine := modAt bank (fun _ => 0) s.sq.scrubLine
                                   ceInPass := modAt bank (fun _ => 0) s.sq.ceInPass } })
    ∧ (rdB s Reg.sqCtl.base 0 = true → s.sq.scrubLine.getD 0 0 + 1 = 16384 →
      Gives (.scrubRead 0 []) s
        (wrF Reg.sqScrub.base 16 16 (rdF s Reg.sqScrub.base 16 16 + 1)
          { s with sq := { s.sq with scrubLine := modAt 0 (fun _ => 0) s.sq.scrubLine
                                     ceInPass := modAt 0 (fun _ => 0) s.sq.ceInPass } }))
    ∧ (∀ w, bank < 128 → rdB s Reg.sqCtl.base 0 = true → s.sq.scrubLine.getD bank 0 + 1 < 16384 → s.sq.poison.contains w = false →
      touches (lineAddr bank (s.sq.scrubLine.getD bank 0)) 256 w = true →
      Gives (.scrubRead bank [⟨w, true⟩]) s (nextLine bank (noteUncorrectable w true s)))
    ∧ (∀ r, (s.sq.retiring.find? fun r => r.bank == bank) = some r →
      Gives (.bankRetireDone bank) s
        (setFlag Reg.sqStatus.base 3 (wr (Reg.sqBankmap.off bank 0) r.spare
          { s with sq := { s.sq with retiring := dropFirst (fun x => x.bank == bank) s.sq.retiring
                                     ceInPass := modAt bank (fun _ => 0) s.sq.ceInPass } })))
    ∧ (∀ link r, linkExists link = false → Gives (.avenueParityError link r) s s)
    ∧ (∀ link, linkExists link = true → Gives (.avenueParityError link false) s { s with sq := { s.sq with laneFails := upsert link 0 s.sq.laneFails } })
    ∧ (∀ link, linkExists link = true → laneFails s link < 2 →
      Gives (.avenueParityError link true) s { s with sq := { s.sq with laneFails := upsert link (laneFails s link + 1) s.sq.laneFails } })
    ∧ (∀ link, linkExists link = true → laneFails s link = 2 → s.sq.laneSpare.contains link = false →
      ∃ t, Gives (.avenueParityError link true) s (postEvent 0x10 4 link 0 0 [] t) ∧ t.sq.laneSpare = s.sq.laneSpare ++ [link]
        ∧ laneFails t link = 0 ∧ t = { s with regs := t.regs, ctr := t.ctr, sq := t.sq }
        ∧ flagOf t Reg.rasStatus.base 4 = true ∧ rd t Reg.rasLast.base = (6 + link * 256) % 2 ^ 32
        ∧ ctrOf t (Reg.rasSnapCnt.base + 20) = ctrOf s (Reg.rasSnapCnt.base + 20) + 1)

/-- R90, R92, R93, R96, R97: a quota write is stored, and leaves a partition that holds more over quota with flag 5; a write that would
disable a partition in use is ignored with flag 9; a KV write is stored and the pool follows it. -/
def Obligations.PartitionRegisters : Prop :=
  ∀ (w : Writer) (p : Nat) (v : Word) (s : State), Quiet s → p < 16 → silent s (Reg.sqQuota.off p 0) true = false →
    (v.getLsbD 31 = true → partUse s p ≤ bits v.toNat 0 14 →
      Gives (.sqQuotaWrite w p v) s (wr (Reg.sqQuota.off p 0) (bits v.toNat 0 14 + 2 ^ 31) s))
    ∧ (v.getLsbD 31 = true → bits v.toNat 0 14 < partUse s p →
      Gives (.sqQuotaWrite w p v) s (setFlag Reg.sqStatus.base 5 (wr (Reg.sqQuota.off p 0) (bits v.toNat 0 14 + 2 ^ 31) s)))
    ∧ (v.getLsbD 31 = false → partEn s p = true → partUse s p ≠ 0 →
      Gives (.partitionDisableWrite w p v) s (setFlag Reg.sqStatus.base 9 s)
      ∧ Gives (.sqQuotaWrite w p v) s (setFlag Reg.sqStatus.base 9 s))
    ∧ (v.getLsbD 31 = false → partEn s p = false ∨ partUse s p = 0 →
      ∃ t, t = (if bits v.toNat 0 14 < partUse s p then setFlag Reg.sqStatus.base 5 (wr (Reg.sqQuota.off p 0) (bits v.toNat 0 14) s)
                else wr (Reg.sqQuota.off p 0) (bits v.toNat 0 14) s)
        ∧ Gives (.partitionDisableWrite w p v) s t ∧ Gives (.sqQuotaWrite w p v) s t)
    ∧ Gives (.sqKvPoolWrite w p v) s
        (adjustPool p (wr (Reg.sqKvCfg.off p 0) (bits v.toNat 0 9 + bits v.toNat 16 14 * 65536) s))
    ∧ Gives (.kvGranuleRelease p) s
        (((emptyPoolGran s p).take ((poolGran s p).length - kvTarget s p)).foldl (fun s g => freeGran g 1 s) s)
    ∧ (∀ g, ∀ r ∈ (freeGran g 1 s).sq.runs, g < r.base ∨ r.base + r.n ≤ g)

/-- R85-R89: an allocation inside the quota takes the lowest-addressed free run that holds it, as granules of its partition, and fills them
with zeros; past the quota it is OVER_QUOTA, with no run long enough NO_SPACE; a length of 0 takes nothing. -/
def Obligations.AllocationTakesLowestRun : Prop :=
  ∀ (p n handle kind : Nat) (s : State),
    (n = 0 → alloc p n handle kind s = ({ status := Stat.ok, base := 0 }, bump Reg.sqSnapCnt.base 2 s))
    ∧ (n ≠ 0 → partEn s p = false ∨ quotaOf s p < partUse s p + n →
      alloc p n handle kind s = ({ status := Stat.overQuota, base := 0 }, bump Reg.sqSnapCnt.base 3 s))
    ∧ (n ≠ 0 → partEn s p = true → partUse s p + n ≤ quotaOf s p → (∀ g ∈ gaps 0 s.sq.runs, g.2 < n) →
      alloc p n handle kind s = ({ status := Stat.noSpace, base := 0 }, bump Reg.sqSnapCnt.base 3 s))
    ∧ (n ≠ 0 → partEn s p = true → partUse s p + n ≤ quotaOf s p → (∃ g ∈ gaps 0 s.sq.runs, n ≤ g.2) →
      ∃ b t, alloc p n handle kind s = ({ status := Stat.ok, base := b }, t)
        ∧ (∃ g, (gaps 0 s.sq.runs).find? (fun g => decide (n ≤ g.2)) = some g ∧ g.1 = b)
        ∧ { base := b, n := n, part := p, handle := handle, kind := kind } ∈ t.sq.runs
        ∧ (∀ r ∈ s.sq.runs, r ∈ t.sq.runs) ∧ partUse t p = partUse s p + n
        ∧ (∀ x, b * 65536 ≤ x → x < (b + n) * 65536 → memGet t.mem x = 0)
        ∧ (∀ x, x < b * 65536 ∨ (b + n) * 65536 ≤ x → memGet t.mem x = memGet s.mem x) ∧ t.regs = s.regs)
/-- R139, R140, R148, R511, R512: a good residue check closes the oldest open pass, first one of a task that has left the core; a bad one fences
the core; a keyed host write to TC_FENCE fences the ACTIVE core that it names. A fenced core leaves ACTIVE and holds no task; the spare stands
in its place and rank and, where a task was there, recovers it from its checkpoint; without a spare the task is READY; a save that was under way
stops its program. A task recovered on the spare loads its planes from their pinned extents and decodes again. That TC_FENCE alone sets neither
TC_STATUS.residue nor TC_RESFAIL is the model's choice (log entry 108). -/
def Obligations.ResidueAndFencing : Prop :=
  ∀ (n : Nat) (s : State), Quiet s →
    ((coreOf s n).stray ≠ 0 → Gives (.residueCheck n true) s (modCore n (fun c => { c with stray := c.stray - 1 }) s))
    ∧ (∀ k, (coreOf s n).stray = 0 → (coreOf s n).task = some k.id → taskOf s k.id = some k → k.core = some n → 0 < k.passes →
      Gives (.residueCheck n true) s (modTask k.id (fun k => { k with passes := k.passes - 1 }) s))
    ∧ ((coreOf s n).stray ≠ 0 ∨ (∃ k, (coreOf s n).task = some k.id ∧ taskOf s k.id = some k ∧ k.core = some n ∧ 0 < k.passes) →
      (coreOf s n).st = 0 →
      GivesThen (.residueCheck n false) s
        (fenceCore n 1 0 (count (Reg.tcCnt.off n 4) 1 (setFlag (Reg.tcStatus.off n 0) 0 s))))
    ∧ (∀ ok, (coreOf s n).stray = 0 → (coreOf s n).task = none → Gives (.residueCheck n ok) s s)
    ∧ (∀ v, MayWrite s .host Reg.tcFence.base v → bits v.toNat 0 5 = n → n < 17 → (coreOf s n).st = 0 →
      GivesThen (.tcFenceWrite .host v) s (fenceCore n 1 0 s))
    ∧ (∀ v, MayWrite s .host Reg.tcFence.base v → bits v.toNat 0 5 = n → (17 ≤ n ∨ (coreOf s n).st ≠ 0) →
      Gives (.tcFenceWrite .host v) s s)
    ∧ (∀ (cr : CoreRun) k u, cr.n = n → (coreOf s n).phase = .recovering → (coreOf s n).task = some k.id → taskOf s k.id = some k →
      (coreOf s n).gated = false → awake s 0 n = true →
      u = modTask k.id (fun k => { k with st := .running, core := some n }) (modCore n (fun c => { c with phase := .running, fresh := true }) s) →
      GivesThen (.taskRestoreOnSpare cr) s (restoreReads cr { k with st := .running, core := some n } id u)
      ∧ (k.saved = false → cr.tb = [] → k.regs.tbPoison = [] →
        Gives (.taskRestoreOnSpare cr) s (modTask k.id (fun k => { k with regs := { k.regs with planes := k.regs.planes.map fun p =>
          match p.desc with
          | some d => { p with rows := ((tileOf d).runs (tileOf d).rows).map fun e => tbRead k.regs e.1 e.2 }
          | none => p } }) u)))
    ∧ (∀ cls status u, (coreOf s n).st = 0 → u = fenceCore n cls status s →
      (coreOf u n).st = 2 ∧ (coreOf u n).task = none
        ∧ (∀ m, spareCore s = some m → (coreOf u m).st = 0 ∧ (coreOf u m).rank = (coreOf s n).rank)
        ∧ (spareCore s = none → flagOf u Reg.rbtStatus.base 1 = true)
        ∧ (∀ k, (coreOf s n).task = some k.id → taskOf s k.id = some k → (coreOf s n).phase ≠ .saving → k.rec_.entries = [] →
          (∀ p ∈ s.progs, p.stopped = true ∨ p.loading = true ∨ p.coresMin < (activeCores s).length) →
          ∃ k', taskOf u k.id = some k' ∧ k'.regs = keepLive k.ckpt ∧ k'.waits = [] ∧ k'.passes = 0
            ∧ (∀ m, spareCore s = some m → k'.st = .running ∧ k'.core = some m ∧ (coreOf u m).task = some k.id
                ∧ (coreOf u m).phase = .recovering ∧ (coreOf u m).roused = true)
            ∧ (spareCore s = none → k'.st = .ready ∧ k'.core = none))
        ∧ (∀ t p, (coreOf s n).task = some t → (coreOf s n).phase = .saving → progOf s t.handle = some p →
          ∃ p', progOf u t.handle = some p' ∧ p'.stopped = true))

/-- R114, R115, R116, R559: an operating point that R114 allows takes the voltage first for a rise, and the clock first otherwise; the clock
of a rise follows when the regulator settles; a value out of range changes nothing, as does any value for a core that is not ACTIVE (R500); a
plane whose load completes may be used. It rests on the model's choices of log entry 55: what a write out of range or off the frozen point
does, and the least voltage. -/
def Obligations.OperatingPoints : Prop :=
  ∀ (n : Nat) (v : Word) (s : State), Quiet s → n < 17 →
    (MayWrite s .complex (Reg.tcOpp.off n 0) v → (coreOf s n).st = 0 → detMode s = false →
      pointOk (bits v.toNat 0 7) (bits v.toNat 8 8) = true → coreClock s n < bits v.toNat 0 7 →
      ∃ t, Gives (.oppChange .complex n v) s t
        ∧ t = modCore n (fun c => { c with pendingFreq := some (bits v.toNat 0 7) })
            (wrF (Reg.tcOpp.off n 0) 8 8 (max (max (bits v.toNat 8 8) (voltFor (bits v.toNat 0 7))) (voltFor (coreClock s n))) s)
        ∧ coreClock t n = coreClock s n)
    ∧ (MayWrite s .complex (Reg.tcOpp.off n 0) v → (coreOf s n).st ≠ 0 → Gives (.oppChange .complex n v) s s)
    ∧ (MayWrite s .complex (Reg.tcOpp.off n 0) v → (coreOf s n).st = 0 → detMode s = false →
      pointOk (bits v.toNat 0 7) (bits v.toNat 8 8) = true → bits v.toNat 0 7 ≤ coreClock s n →
      ∃ t, Gives (.oppChange .complex n v) s t ∧ coreClock t n = bits v.toNat 0 7
        ∧ rdF t (Reg.tcOpp.off n 0) 8 8 = max (bits v.toNat 8 8) (voltFor (bits v.toNat 0 7))
        ∧ t = { s with regs := t.regs, cores := modAt n (fun c => { c with pendingFreq := none }) s.cores }
        ∧ ∀ r, r ≠ Reg.tcOpp.off n 0 → r ≠ Reg.tcStatus.off n 0 → rdW t r = rdW s r)
    ∧ (MayWrite s .complex (Reg.tcOpp.off n 0) v → pointOk (bits v.toNat 0 7) (bits v.toNat 8 8) = false →
      Gives (.oppChange .complex n v) s s)
    ∧ (MayWrite s .complex (Reg.tcOpp.off n 0) v → detMode s = true →
      bits v.toNat 0 7 ≠ detFreq s ∨ bits v.toNat 8 8 ≠ voltFor (detFreq s) → Gives (.oppChange .complex n v) s s)
    ∧ (∀ f, (coreOf s n).pendingFreq = some f → coreClock s n ≠ f →
      Gives (.oppRegulatorSettled n) s (setFlag (Reg.tcStatus.off n 0) 5 (wrF (Reg.tcOpp.off n 0) 0 7 f
        (modCore n (fun c => { c with pendingFreq := none }) s))))
    ∧ (∀ f t, (coreOf s n).pendingFreq = some f → coreClock s n = f → t = modCore n (fun c => { c with pendingFreq := none }) s →
      Gives (.oppRegulatorSettled n) s t)
    ∧ (∀ plane k, (coreOf s n).task = some k.id → taskOf s k.id = some k →
      (k.regs.loads.head? = some plane →
        Gives (.arrPlaneLoadDone n plane) s (modTask k.id (fun k => { k with regs := { k.regs with loads := k.regs.loads.drop 1 } }) s))
      ∧ (k.regs.loads.head? ≠ some plane → Gives (.arrPlaneLoadDone n plane) s s))

/-- R498-R500, R509, R511: an idle ACTIVE core is gated where PWR_GATE allows it; a wake chain starts its next unit, a core roused in a fenced
one's place first, and a core then takes the point that waited for it; the SPARE core stays gated and counts as no wake. -/
def Obligations.GatingAndWakes : Prop :=
  ∀ (n : Nat) (s : State), Quiet s →
    (rdB s Reg.pwrCtl.base 1 = true → rdF s Reg.pwrGate.base 0 16 ≠ 0 → (coreOf s n).st = 0 → (coreOf s n).phase = .idle →
      awake s 0 n = true → Gives (.coreClockGate n) s (modCore n (fun c => { c with gated := true }) s))
    ∧ (rdB s Reg.pwrCtl.base 1 = false ∨ rdF s Reg.pwrGate.base 0 16 = 0 → Gives (.coreClockGate n) s s)
    ∧ (∀ chain, chain = 1 ∨ chain = 2 → coreUp s = true → nextWake s chain = some n →
      Gives (.coreWake chain n) s (modPwr (fun p => { p with asleep := p.asleep.filter fun x => x != (chain, n) }) s))
    ∧ (∀ u v, coreUp s = true → nextWake s 0 = some n → u = modPwr (fun p => { p with asleep := p.asleep.filter fun x => x != (0, n) }) s →
      v = modCore n (fun c => { c with gated := c.st == 1, wakePoint := none, roused := false })
            (if (coreOf s n).st = 1 then u else bump Reg.pwrSnapCnt.base 6 u) →
      ((coreOf s n).wakePoint = none → Gives (.coreWake 0 n) s v)
      ∧ (∀ p, (coreOf s n).wakePoint = some p → detMode s = false → Gives (.coreWake 0 n) s (setPoint n p.1 p.2 v))
      ∧ (∀ p, (coreOf s n).wakePoint = some p → detMode s = true →
          Gives (.coreWake 0 n) s (setPoint n (detFreq s) (voltFor (detFreq s)) v)))
    ∧ (∀ m, nextWake s 0 = some n → coreWants s m = true → (coreOf s m).roused = true → m < 17 → (coreOf s n).roused = true)

/-- R501-R504, R506, R577: the throttle rises by one step for each demand that holds, falls by one below 97 % of the ceiling, and releases the
thermal demand; level 7 that does not meet the ceiling sets flag 1; PWR_LIMIT takes 25-110 from the host, and one from the control complex also
sets GLB_STATUS flag 3 (R559). In a system or power-on reset none of it happens, and of a supply's excursion only the loss of VBAK is remembered
(R523, R537). The thermal level that drops to 0 at the release is the model's choice (log entry 55). -/
def Obligations.CeilingAndThrottle : Prop :=
  ∀ (m : Meter) (s : State), Quiet s →
    (wideUp s = true → ceiling s < m.power → m.eboux < 105 →
      Gives (.throttleRaise m) s (setPowerLevel (min 7 (s.pwr.levelP + 1)) (noteMeter m s)))
    ∧ (wideUp s = true → m.power ≤ ceiling s → 105 ≤ m.eboux →
      Gives (.throttleRaise m) s (setThermalLevel (min 7 (s.pwr.levelT + 1)) (noteMeter m s)))
    ∧ (wideUp s = true → ceiling s < m.power → 105 ≤ m.eboux →
      Gives (.throttleRaise m) s
        (setThermalLevel (min 7 (s.pwr.levelT + 1)) (setPowerLevel (min 7 (s.pwr.levelP + 1)) (noteMeter m s))))
    ∧ (wideUp s = true → m.power * 100 < ceiling s * 97 → s.pwr.levelP ≠ 0 →
      Gives (.throttleLower m) s (setPowerLevel (s.pwr.levelP - 1) (noteMeter m s)))
    ∧ (wideUp s = true → throttle s = 7 → ceiling s < m.power →
      Gives (.ceilingSaturated m) s (postEvent 0x0F 2 0 0 0 [] (setFlag Reg.pwrStatus.base 1 (noteMeter m s))))
    ∧ (wideUp s = true → m.eboux ≤ 103 → s.pwr.demandT = true → Gives (.thermalRelease m) s (setThermalLevel 0 (noteMeter m s)))
    ∧ (wideUp s = false → Gives (.throttleRaise m) s s ∧ Gives (.throttleLower m) s s ∧ Gives (.ceilingSaturated m) s s
        ∧ Gives (.thermalRelease m) s s)
    ∧ (∀ l t, t = setPowerLevel l s → t.pwr = { s.pwr with levelP := l, demandP := l != 0 } ∧ throttle t = max l s.pwr.levelT
        ∧ (throttle s = 0 → l ≠ 0 → flagOf t Reg.pwrStatus.base 0 = true))
    ∧ (∀ l t, t = setThermalLevel l s → t.pwr = { s.pwr with levelT := l, demandT := l != 0 }
        ∧ (s.pwr.demandT = false → l ≠ 0 → flagOf t Reg.pwrStatus.base 2 = true))
    ∧ (∀ v, silent s Reg.pwrLimit.base true = false → 25 ≤ bits v.toNat 0 7 → bits v.toNat 0 7 ≤ 110 →
      Gives (.pwrLimitWrite .host v) s (wr Reg.pwrLimit.base (bits v.toNat 0 7) s))
    ∧ (∀ v, silent s Reg.pwrLimit.base true = false → bits v.toNat 0 7 < 25 ∨ 110 < bits v.toNat 0 7 →
      Gives (.pwrLimitWrite .host v) s (setFlag Reg.pwrStatus.base 6 s))
    ∧ (∀ v, silent s Reg.pwrLimit.base true = false →
      Gives (.pwrLimitWrite .complex v) s (setFlag Reg.glbStatus.base 3 (setFlag Reg.pwrStatus.base 6 s)))
    ∧ (∀ flag, 3 ≤ flag → flag ≤ 5 → wideUp s = true →
      Gives (.supplyExcursion flag) s (postEvent 0x0F 4 0 0 0 (leBytes 1 flag) (bump Reg.pwrSnapCnt.base 7
        (setFlag Reg.pwrStatus.base flag (modPwr (fun p => { p with vbakOk := p.vbakOk && flag != 5 }) s)))))
    ∧ (∀ flag, 3 ≤ flag → flag ≤ 5 → wideUp s = false →
      Gives (.supplyExcursion flag) s (modPwr (fun p => { p with vbakOk := p.vbakOk && flag != 5 }) s))

/-- R388, R507-R509: the governor sets one clock for every ACTIVE core: the clock its bounds ask for, the highest where it is off, the frozen
point in deterministic mode; the clock stays in its range and falls by no more than the step from the clock that the cores have (f_now with
no core running is the last point: log entry 55). -/
def Obligations.GovernorSetsOneClock : Prop :=
  ∀ (s : State), Quiet s → cpUp s 3 = true →
    (detMode s = true → Gives .governorUpdate s (setAllPoints (detFreq s) (busySeen s)))
    ∧ (detMode s = false → rdB s Reg.pwrCtl.base 0 = true →
      ∃ t, Gives .governorUpdate s (setAllPoints (govNext s).1 t)
        ∧ rd t Reg.pwrGovView.base = ((govNext s).1 + (govNext s).2 * 256 + govDMin s * 65536) % 2 ^ 32
        ∧ t.pwr = { s.pwr with busyAt := (List.range 17).map fun n => ctrOf s (Reg.tcCnt.off n 1), skip := 0 }
        ∧ t = { s with regs := t.regs, ctr := t.ctr, pwr := t.pwr } ∧ ∀ r, r ≠ Reg.pwrGovView.base → rdW t r = rdW s r)
    ∧ (detMode s = false → rdB s Reg.pwrCtl.base 0 = false →
      ∃ t, Gives .governorUpdate s (setAllPoints (govMax s) t) ∧ t = { s with regs := t.regs, ctr := t.ctr, pwr := t.pwr }
        ∧ ∀ r, r ≠ Reg.pwrGovView.base → rdW t r = rdW s r)
    ∧ govMin s ≤ (govNext s).1
    ∧ (flagOf s Reg.pwrStatus.base 1 = false → govNow s - max 1 (rdF s Reg.pwrGov2.base 16 8) ≤ (govNext s).1)
    ∧ (flagOf s Reg.pwrStatus.base 1 = false → govMin s ≤ govMax s → (govTarget s).1 ≤ govMax s)

/-- R218-R221, R224: a ctl instruction that computes writes the result that R224 gives from the registers as they stand when it begins, and
nothing else; control falls through. An instruction of any unit whose guard is false does nothing but count as a step and pass control on, a
loop's to what stands after its body. -/
def Obligations.ControlInstructionsCompute : Prop :=
  ∀ (cr : CoreRun) (i : Iw) (k : Task) (p : Program) (s : State), Quiet s →
    (∀ (b : Bool) (u : Use), ∀ x ∈ seqRows cr i b, GuardFails x.1 u cr i k p s →
      Gives x.2 s (putDone cr.n k (doneTaskN p (skipWords s p k.regs.next i u) id k) s))
    ∧ (∀ u : Use, u.skip = 0 → skipWords s p k.regs.next i u = wordsOfIw i)
    ∧ (MayBegin 0x00 cr i k p s → Gives (.ctlNop cr i) s (stepped cr i k p id s))
    ∧ (MayBegin 0x01 cr i k p s →
        Gives (.ctlAlu cr i) s (stepped cr i k p (setS i.fd (alu i.func (sOf k.regs i.fa) (sOf k.regs i.fb))) s))
    ∧ (MayBegin 0x02 cr i k p s →
        Gives (.ctlAlui cr i) s (stepped cr i k p (setS i.fd (alu i.func (sOf k.regs i.fa) (xOrImm i))) s))
    ∧ (MayBegin 0x03 cr i k p s → Gives (.ctlLi cr i) s (stepped cr i k p (setS i.fd (xOrImm i)) s))
    ∧ (MayBegin 0x04 cr i k p s →
        (i.func = 0 → Gives (.ctlAmov cr i) s (stepped cr i k p (setA i.fd ((sOf k.regs i.fa).setWidth 40)) s))
        ∧ (i.func = 1 → Gives (.ctlAmov cr i) s (stepped cr i k p (setS i.fd ((aOf k.regs i.fa).setWidth 64)) s))
        ∧ (i.func = 2 → Gives (.ctlAmov cr i) s (stepped cr i k p (setA i.fd (aOf k.regs i.fa + BitVec.ofInt 40 (sext i))) s))
        ∧ (i.func = 3 →
            Gives (.ctlAmov cr i) s (stepped cr i k p (setA i.fd (aOf k.regs i.fa + (sOf k.regs i.fb).setWidth 40)) s)))
    ∧ (MayBegin 0x05 cr i k p s →
        Gives (.ctlCmp cr i) s
          (stepped cr i k p (setP i.fd (cmp i.func (sOf k.regs i.fa) (if i.long then i.x else sOf k.regs i.fb))) s))
    ∧ (MayBegin 0x06 cr i k p s →
        ∃ b, Gives (.ctlPop cr i) s (stepped cr i k p (setP i.fd b) s)
          ∧ (i.func = 0 → b = (pOf k.regs i.fa && pOf k.regs i.fb)) ∧ (i.func = 1 → b = (pOf k.regs i.fa || pOf k.regs i.fb))
          ∧ (i.func = 2 → b = (pOf k.regs i.fa != pOf k.regs i.fb)) ∧ (i.func = 3 → b = !pOf k.regs i.fa)
          ∧ (i.func = 4 → b = true) ∧ (i.func = 5 → b = false))
    ∧ (MayBegin 0x0D cr i k p s →
        (i.func = 0 → Gives (.ctlSys cr i) s (stepped cr i k p (setSN i.fd k.regs.step) s))
        ∧ (i.func = 1 → Gives (.ctlSys cr i) s (stepped cr i k p (setS i.fd k.regs.seed0) s))
        ∧ (i.func = 2 → Gives (.ctlSys cr i) s (stepped cr i k p (setS i.fd k.regs.seed1) s))
        ∧ (i.func = 3 → Gives (.ctlSys cr i) s (stepped cr i k p (fun r => { r with seed0 := sOf k.regs i.fa }) s))
        ∧ (i.func = 4 → Gives (.ctlSys cr i) s (stepped cr i k p (fun r => { r with seed1 := sOf k.regs i.fa }) s))
        ∧ (i.func = 5 → Gives (.ctlSys cr i) s (stepped cr i k p (setSN i.fd (b2n k.regs.mx + 2 * b2n k.regs.nonfinite)) s))
        ∧ (i.func = 6 → Gives (.ctlSys cr i) s (stepped cr i k p (fun r => { r with nonfinite := false }) s))
        ∧ (i.func = 7 → Gives (.ctlSys cr i) s (stepped cr i k p (setSN i.fd (k.regs.lc.getD i.fa 0).toNat) s))
        ∧ (i.func = 8 → Gives (.ctlSys cr i) s (stepped cr i k p (setSN i.fd k.id.inst) s))
        ∧ (i.func = 9 → Gives (.ctlSys cr i) s (stepped cr i k p (setSN i.fd k.id.tmpl) s)))
    ∧ (MayBegin 0x0C cr i k p s →
        (i.func = 0 → Gives (.ctlTdesc cr i) s (stepped cr i k p (setT i.fd (sOf k.regs i.fa)) s))
        ∧ (i.func = 1 → Gives (.ctlTdesc cr i) s (stepped cr i k p (setT i.fd i.x) s))
        ∧ (i.func = 2 → Gives (.ctlTdesc cr i) s (stepped cr i k p (setS i.fd (k.regs.t.getD i.fa 0)) s))
        ∧ (∀ b : Nat, i.func = 3 → (b : Int) = bits (k.regs.t.getD i.fa 0).toNat 0 16 + sext i → b ≤ 65535 →
            Gives (.ctlTdesc cr i) s (stepped cr i k p (setT i.fd (tdWith (k.regs.t.getD i.fa 0) 0 16 b)) s))
        ∧ (∀ b : Int, i.func = 3 → b = bits (k.regs.t.getD i.fa 0).toNat 0 16 + sext i → b < 0 ∨ 65535 < b →
            GivesThen (.ctlTdesc cr i) s (faulted k 0 Stat.length s))
        ∧ (i.func = 4 → (sOf k.regs i.fb).toNat < 4096 →
            Gives (.ctlTdesc cr i) s (stepped cr i k p (setT i.fd (tdWith (k.regs.t.getD i.fa 0) 33 12 (sOf k.regs i.fb).toNat)) s))
        ∧ (i.func = 4 → 4096 ≤ (sOf k.regs i.fb).toNat → GivesThen (.ctlTdesc cr i) s (faulted k 0 Stat.length s)))

/-- R225-R230, R264: branches, loops, yields, ends and checkpoints, and the allocation and freeing of granules. -/
def Obligations.ControlFlowAndGranules : Prop :=
  ∀ (cr : CoreRun) (i : Iw) (k : Task) (p : Program) (s : State), Quiet s →
    (MayBegin 0x07 cr i k p s →
      Gives (.ctlBr cr i) s (putDone cr.n k
        { k with st := .running, atRound := false, held := none
                 regs := branchTo ((k.regs.next : Int) + sext i).toNat { k.regs with step := k.regs.step + 1 } } s))
    ∧ (MayBegin 0x08 cr i k p s →
      (0 < (sOf k.regs i.fa).toNat → (sOf k.regs i.fa).toNat < 2 ^ 32 →
        Gives (.ctlLoop cr i) s (putDone cr.n k
          { k with st := .running, atRound := false, held := none
                   regs := { k.regs with
                     step := k.regs.step + 1, next := k.regs.next + 1, lc := modAt i.fd (fun _ => (sOf k.regs i.fa).setWidth 32) k.regs.lc
                     loops := { ctr := i.fd, first := k.regs.next + 1, last := k.regs.next + i.imm.toNat } :: k.regs.loops } } s))
      ∧ (2 ^ 32 ≤ (sOf k.regs i.fa).toNat → GivesThen (.ctlLoop cr i) s (faulted k 0 Stat.length s)))
    ∧ (∀ e, MayBegin 0x08 cr i k p s → (sOf k.regs i.fa).toNat = 0 →
      e = fallThrough (tmplOf p k.id) (i.imm.toNat + sizeAt s p (k.regs.next + i.imm.toNat)) k.regs →
      Gives (.ctlLoop cr i) s (putDone cr.n k
        { k with st := .running, atRound := e.2, held := none
                 regs := { e.1 with step := k.regs.step + 1, lc := modAt i.fd (fun _ => 0) e.1.lc } } s))
    ∧ (MayBegin 0x09 cr i k p s →
      Gives (.ctlYield cr i) s (placementPoint k.id cr.n (stepped cr i k p id s)))
    ∧ (MayBegin 0x0A cr i k p s → GivesThen (.ctlEnd cr i) s (endTask k.id (stepped cr i k p id s)))
    ∧ (MayBegin 0x0B cr i k p s →
      (cr.tb = [] → Gives (.ctlCkpt cr i) s (checkpoint k.id (stepped cr i k p id s)))
      ∧ GivesThen (.ctlCkpt cr i) s (takeCkpt (issueOf 0x0B cr i k p) id (stepped cr i k p id s)))
    ∧ (∀ a t, MayBegin 0x0E cr i k p s → (sOf k.regs i.fa).toNat ≤ 8192 → k.match_.entries.find? isAlloc = none →
      RecordRoom k 1 → alloc p.part (sOf k.regs i.fa).toNat p.handle 3 s = (a, t) →
      Gives (.ctlAlloc cr i) s (recorded cr i k p [.alloc (if a.status = Stat.ok then a.base * 65536 else 0) a.status]
        (fun r => setSN i.fc a.status (setSN i.fd (if a.status = Stat.ok then a.base * 65536 else 0) r)) t))
    ∧ (MayBegin 0x0E cr i k p s → 8192 < (sOf k.regs i.fa).toNat → GivesThen (.ctlAlloc cr i) s (faulted k 3 Stat.length s))
    ∧ (MayBegin 0x0F cr i k p s → k.match_.entries.find? (fun e => e == .free) = none → (sOf k.regs i.fb).toNat ≠ 0 →
      (sOf k.regs i.fa).toNat % 65536 = 0 → (sOf k.regs i.fb).toNat ≤ nGran →
      (∀ j, j < (sOf k.regs i.fb).toNat → freeable s p.part ((sOf k.regs i.fa).toNat / 65536 + j) = true) →
      RecordRoom k 1 → Gives (.ctlFree cr i) s (recorded cr i k p [.free] id (freeGran ((sOf k.regs i.fa).toNat / 65536) (sOf k.regs i.fb).toNat s)))
    ∧ (∀ j, MayBegin 0x0F cr i k p s → k.match_.entries.find? (fun e => e == .free) = none →
      j < (sOf k.regs i.fb).toNat → freeable s p.part ((sOf k.regs i.fa).toNat / 65536 + j) = false →
      GivesThen (.ctlFree cr i) s (faulted k 3 Stat.unmapped s))

/-- R231-R233: a transfer moves the rows that the descriptor, the address and the options pair; a copy writes the source's rows as they stood;
a fill repeats 8 bytes in every row; a write to a pinned extent faults. -/
def Obligations.TileInstructions : Prop :=
  ∀ (cr : CoreRun) (i : Iw) (k : Task) (p : Program) (s : State), Quiet s → cr.tb = [] → cr.sq = [] →
    (∀ tr, MayBegin 0x10 cr i k p s → tr = transferOf (issueOf 0x10 cr i k p) true s → tr.status = Stat.ok →
      (∀ e ∈ tr.rows, poisonHit s.sq.poison e.2 tr.len = false) → TileFree k.regs (tr.rows.map fun e => (e.1, tr.len)) →
      Gives (.tileLoad cr i) s (stepped cr i k p (putRuns (tr.rows.map fun e => (e.1, devGet s e.2 tr.len))) s))
    ∧ (∀ tr, MayBegin 0x10 cr i k p s → tr = transferOf (issueOf 0x10 cr i k p) true s → tr.status = Stat.ok →
      runsPinned k.regs (tr.rows.map fun e => (e.1, tr.len)) = true → GivesThen (.tileLoad cr i) s (faulted k 3 Stat.pinned s))
    ∧ (∀ tr, MayBegin 0x10 cr i k p s → tr = transferOf (issueOf 0x10 cr i k p) true s → tr.status = Stat.length →
      GivesThen (.tileLoad cr i) s (faulted k 3 Stat.length s))
    ∧ (∀ tr, MayBegin 0x11 cr i k p s → tr = transferOf (issueOf 0x11 cr i k p) false s → tr.status = Stat.ok →
      TileClean k.regs (tr.rows.map fun e => (e.1, tr.len)) → (∀ e ∈ tr.rows, poisonPart s.sq.poison e.2 tr.len = false) →
      Gives (.tileStore cr i) s (stepped cr i k p id (tr.rows.foldl (fun s e => devPut e.2 (tbRead k.regs e.1 tr.len) s) s)))
    ∧ (∀ (w : Bool) t n a step, t = tdOf k.regs i.fd → t.empty = false → t.refused = false → (w = true → t.rowsMeet = false) →
      a = (aOf k.regs i.fa + BitVec.ofInt 40 (sext i)).toNat → n = (if i.func.testBit 2 then 1 else t.rows) →
      (i.func.testBit 2 = true → i.func.testBit 1 = true ∨ (sOf k.regs i.fc).toNat < t.rows) →
      step = (if i.func.testBit 0 then (sOf k.regs i.fb).toNat else t.rowBytes) →
      a + (n - 1) * step + t.rowBytes ≤ 0x20000000 → allocated s a ((n - 1) * step + t.rowBytes) = true →
      (transferOf (issueOf 0x10 cr i k p) w s).status = Stat.ok ∧ (transferOf (issueOf 0x10 cr i k p) w s).len = t.rowBytes
        ∧ (transferOf (issueOf 0x10 cr i k p) w s).rows = (List.range n).map fun j =>
            (t.base + (if i.func.testBit 2 then (sOf k.regs i.fc).toNat % t.rows else j) * t.stride, a + j * step))
    ∧ (∀ a d, MayBegin 0x12 cr i k p s → a = tdOf k.regs i.fa → d = tdOf k.regs i.fd → a.empty = false → d.empty = false →
      a.refused = false → d.refused = false → d.rowsMeet = false → a.rowBytes = d.rowBytes → a.rows ≤ d.rows → TileClean k.regs (a.runs a.rows) →
      TileFree k.regs ((List.range a.rows).map fun r => (d.row r, a.rowBytes)) →
      Gives (.tileCopy cr i) s
        (stepped cr i k p (putRuns ((List.range a.rows).map fun r => (d.row r, tbRead k.regs (a.row r) a.rowBytes))) s))
    ∧ (∀ a d, MayBegin 0x12 cr i k p s → a = tdOf k.regs i.fa → d = tdOf k.regs i.fd → a.empty = true ∨ d.empty = true →
      Gives (.tileCopy cr i) s (stepped cr i k p id s))
    ∧ (∀ d, MayBegin 0x13 cr i k p s → d = tdOf k.regs i.fd → d.empty = false → d.refused = false → d.rowsMeet = false →
      TileFree k.regs ((List.range d.rows).map fun r => (d.row r, d.rowBytes)) →
      Gives (.tileFill cr i) s (stepped cr i k p (putRuns ((List.range d.rows).map fun r =>
        (d.row r, (List.range d.rowBytes).map fun j => (leBytes 8 (sOf k.regs i.fa).toNat).getD (j % 8) 0))) s))
    ∧ (∀ d, MayBegin 0x13 cr i k p s → d = tdOf k.regs i.fd → d.empty = false → d.refused = true ∨ d.rowsMeet = true →
      GivesThen (.tileFill cr i) s (faulted k 3 Stat.length s))

/-- R116-R122, R234-R237: a plane takes the descriptor's rows; a pass adds the products' sums to the accumulators or to wide rows and opens its
checks; a convolution and a Winograd row do so for the pixels of a line; a readout converts and writes its rows. It rests on the model's choices
of log entry 41: the accumulators that a plain readout reads, the columns of a wide source, and what refuses a column table. -/
def Obligations.ArrayInstructions : Prop :=
  ∀ (cr : CoreRun) (i : Iw) (k : Task) (p : Program) (x : Issue) (s : State), Quiet s → cr.tb = [] → x = issueOf 0x24 cr i k p →
    (∀ t c, MayBegin 0x20 cr i k p s → t = tdOf k.regs i.fa → t.empty = false → t.refused = false → t.wide = false →
      rateClass t.fmt = some c → t.rowBytes = rowBytesOf t.fmt → t.rows ≤ classN c → TileClean k.regs (t.runs t.rows) →
      Gives (.arrWload cr i) s (stepped cr i k p (fun r => { r with
        planes := modAt i.func (fun _ => { desc := some (k.regs.t.getD i.fa 0), fmt := t.fmt
                                           rows := (List.range t.rows).map fun j => tbRead k.regs (t.row j) t.rowBytes }) r.planes
        loads := r.loads ++ [i.func] }) s))
    ∧ (∀ t, MayBegin 0x20 cr i k p s → t = tdOf k.regs i.fa → t.empty = false → t.refused = false →
      rateClass t.fmt = none ∨ t.wide = true → GivesThen (.arrWload cr i) s (faulted k 1 Stat.badFormat s))
    ∧ (∀ t pl c ts, MayBegin 0x21 cr i k p s → t = tdOf k.regs i.fa → pl = planeOf k.regs (i.func % 2) →
      t.empty = false → t.refused = false → passClass t pl = some c → t.rowBytes = rowBytesOf t.fmt → TileClean k.regs (t.runs t.rows) →
      ts = ((List.range t.rows).map fun j =>
        passRow (isMx t.fmt || isMx pl.fmt) (classN c) pl (planeWeights pl) (arrRow t.fmt (tbRead k.regs (t.row j) t.rowBytes))) →
      (i.func.testBit 1 = false →
        Gives (.arrMma cr i) s (passed cr i k p t.rows (fun r => setTermFlags ts { r with
          accN := classN c, acc := (ts.foldl (fun (a : Bool × List (BitVec 144)) l => (false, sumRow a.1 a.2 l)) (i.func.testBit 2, r.acc)).2 }) s))
      ∧ (∀ d work, i.func.testBit 1 = true → d = tdOf k.regs i.fd → d.empty = false → wideFits d t.rows (classN c) = true →
        work = ((List.range t.rows).map fun j => (d.row j, ts.getD j [])) → WideFree k.regs (i.func.testBit 2) (classN c) work →
        Gives (.arrMma cr i) s (passed cr i k p t.rows (wideSums (i.func.testBit 2) (classN c) work) s)))
    ∧ (∀ (init : Bool) (acc : List (BitVec 144)) (ts : List (List Term)) (j : Nat) (z : Term), ts ≠ [] → j < acc.length →
      (∀ l ∈ ts, j < l.length) →
      (ts.foldl (fun (a : Bool × List (BitVec 144)) l => (false, sumRow a.1 a.2 l)) (init, acc)).2.getD j 0
        = (if init then 0 else acc.getD j 0) + BitVec.ofInt 144 ((ts.map fun l => (l.getD j z).v).sum))
    ∧ (∀ t d pl c cl px work, MayBegin 0x22 cr i k p s → t = tdOf k.regs i.fa → d = tdOf k.regs i.fd →
      pl = planeOf k.regs (i.func % 2) → c = convCtl (sOf k.regs i.fb) → t.empty = false → d.empty = false → c.outW ≠ 0 → t.refused = false →
      d.refused = false → c.bad = false → passClass t pl = some cl → c.inW * rowBytesOf t.fmt ≤ t.rowBytes → wideFits d c.outW (classN cl) = true →
      px = ((List.range c.outW).map fun m => pixelAt t (i.func.testBit 2) (i.func.testBit 3) c.inW c.inH (rowBytesOf t.fmt)
        (sOf k.regs i.fc).toInt ((m * c.sx + c.dx * c.kx : Nat) - (c.pbx : Int))) → px.contains none = false →
      TileClean k.regs (px.filterMap fun o => o.join.map fun a => (a, rowBytesOf t.fmt)) →
      work = ((List.range c.outW).map fun m => (d.row m, passRow (isMx t.fmt || isMx pl.fmt) (classN cl) pl (planeWeights pl) (arrRow t.fmt
        ((px.getD m none).join.elim (List.replicate (rowBytesOf t.fmt) 0) fun a => tbRead k.regs a (rowBytesOf t.fmt))))) →
      WideFree k.regs (i.func.testBit 1) (classN cl) work →
      Gives (.arrConv cr i) s (passed cr i k p c.outW (wideSums (i.func.testBit 1) (classN cl) work) s))
    ∧ (∀ t d, MayBegin 0x22 cr i k p s → t = tdOf k.regs i.fa → d = tdOf k.regs i.fd → t.empty = false → d.empty = false →
      (convCtl (sOf k.regs i.fb)).outW ≠ 0 → t.refused = false → d.refused = false → (convCtl (sOf k.regs i.fb)).bad = true →
      GivesThen (.arrConv cr i) s (faulted k 1 Stat.shape s))
    ∧ (∀ t d pl w (f4 : Bool) (m n tiles pos b : Nat) (y : Int) (cells : Nat → List ((Nat × Nat) × Option (Option Nat)))
        (rows : Nat → List (List Int)) cl work, MayBegin 0x23 cr i k p s →
      p.winograd.lookup k.regs.next = some (if f4 then 1 else 0) → t = tdOf k.regs i.fa → d = tdOf k.regs i.fd →
      pl = planeOf k.regs (i.func % 2) → w = (sOf k.regs i.fb).toNat → m = (if f4 then 4 else 2) → tiles = bits w 24 12 →
      pos = i.imm.toNat % 64 → pos < (m + 2) * (m + 2) → y = (sOf k.regs i.fc).toInt → t.empty = false → d.empty = false → tiles ≠ 0 →
      t.refused = false → d.refused = false → bits w 42 22 = 0 → wgFormat f4 t.fmt = true → wgFormat f4 pl.fmt = true → bits w 0 12 ≠ 0 →
      bits w 12 12 ≠ 0 → passClass t pl = some cl → n = classN cl → b = rowBytesOf t.fmt → bits w 0 12 * b ≤ t.rowBytes →
      wideFits d (tiles * ((m + 2) * (m + 2))) n = true →
      cells = (fun (tl : Nat) => (List.range (m + 2)).flatMap fun (a : Nat) => (List.range (m + 2)).map fun (c : Nat) => ((a, c),
        pixelAt t (i.func.testBit 2) (i.func.testBit 3) (bits w 0 12) (bits w 12 12) b (y + (a : Int))
          (((m * tl + c : Nat) : Int) - (bits w 36 6 : Nat)))) →
      (∀ tl, tl < tiles → ∀ e ∈ cells tl, e.2 ≠ none ∧ ∀ a, e.2 = some (some a) → tbHit k.regs a b = false) →
      rows = (fun tl => (cells tl).map fun e =>
        (pixelInts t.fmt (e.2.join.elim (List.replicate b 0) fun a => tbRead k.regs a b)).map
          (entry (wgB f4) (pos / (m + 2)) e.1.1 * entry (wgB f4) (pos % (m + 2)) e.1.2 * ·)) →
      work = ((List.range tiles).map fun tl => (d.row (tl * ((m + 2) * (m + 2)) + pos), passRow false n pl (winogradWeights (classK cl) pl)
        { vals := ((rows tl).foldl (fun a l => List.zipWith (· + ·) a l) (List.replicate (classK cl) 0)).map some, scales := [] })) →
      WideFree k.regs (i.func.testBit 1) n work →
      Gives (.arrWgconv cr i) s (passed cr i k p (if f4 then 2 * tiles else tiles) (wideSums (i.func.testBit 1) n work) s))
    ∧ (∀ (mm table : Bool) t d tc ctl form m n pl pars out, MayBegin 0x24 cr i k p s → t = tdOf k.regs i.fa →
      d = tdOf k.regs i.fd → tc = tdOf k.regs i.fc → ctl = readCtl (sOf k.regs i.fb) → form = i.func / 2 → m = (if form = 2 then 4 else 2) →
      n = (if i.func = 0 then k.regs.accN else t.rowBytes / 18) → table = (ctl.percol && !d.wide) →
      pl = (if form = 0 then
              { runs := if i.func = 0 then [] else t.runs t.rows, n := n, pixels := 1, rows := if i.func = 0 then 1 else t.rows }
            else { runs := t.runs t.rows, n := n, pixels := bits i.imm.toNat 5 12, rows := m }) →
      d.empty = false → d.refused = false → d.rowsMeet = false →
      (i.func ≠ 0 → t.empty = false ∧ t.refused = false ∧ t.wide = true ∧ (n = 256 ∨ n = 128) ∧ t.rowBytes = 18 * n) →
      (form ≠ 0 → d.wide = false ∧ bits i.imm.toNat 5 12 ≠ 0 ∧ t.rows % ((m + 2) * (m + 2)) = 0
        ∧ bits i.imm.toNat 5 12 ≤ m * (t.rows / ((m + 2) * (m + 2)))) →
      (d.wide = false → readable d.fmt = true ∧ readCtlBad (sOf k.regs i.fb) = false) → pl.rows ≤ d.rows →
      (if d.wide then 18 * n else (pl.pixels * n * elemBits d.fmt + 7) / 8) ≤ d.rowBytes →
      (table = true → tc.refused = false ∧ n ≤ tc.rows ∧ 16 ≤ tc.rowBytes ∧ ∀ c ∈ colPars x tc n, c.2 = false) →
      TileClean k.regs (pl.runs ++ if table then tc.runs n else []) →
      pars = (fun c => if table then ((colPars x tc n).getD c (⟨0, 0, 0⟩, false)).1 else { m := ctl.m, r := ctl.r, bias := 0 }) →
      out = ((List.range pl.rows).map fun j => (d.row j,
        if d.wide then wideBytes (readRow x form t pl j)
        else packBytes (elemBits d.fmt) ((readRow x form t pl j).zipIdx.map fun e =>
          readValue ctl (pars (e.2 % n)) d.fmt (readMode x form ctl pl j e.2) e.1.toInt))) →
      (mm = false ∨ d.wide = true → TileFree k.regs (out.map fun e => (e.1, e.2.length)) →
        Gives (.arrRead cr i mm) s (stepped cr i k p (putRuns out) s))
      ∧ (mm = true → d.wide = false →
        GivesThen (.arrRead cr i mm) s (coreError cr.n 0 (modTask k.id (fun k => { k with st := .running, held := none }) s))))

/-- R130, R131, R153, R238-R241: a vector load or store moves 256 bytes of one row; the lane instructions write their lanes' results; the MX
packing writes one row. It rests on the model's choices of log entries 42 (the ring at func[0], lane selection, conversion corners) and 107 (the
codes that vec.cvt refuses). -/
def Obligations.VectorInstructions : Prop :=
  ∀ (cr : CoreRun) (i : Iw) (k : Task) (p : Program) (ty : Nat) (v : Nat → List Nat) (s : State), Quiet s → cr.tb = [] → ty = vecTy i →
    v = (fun n => vecLanes ty (vreg k.regs n)) →
    (∀ t row a, MayBegin 0x30 cr i k p s → t = tdOf k.regs i.fa → t.empty = false → t.refused = false →
      i.imm.toNat % 0x2000 + 256 ≤ t.rowBytes → a = t.row row + i.imm.toNat % 0x2000 →
      (i.func = 0 ∧ row = (sOf k.regs i.fb).toNat ∧ row < t.rows ∨ i.func = 1 ∧ row = (sOf k.regs i.fb).toNat % t.rows) →
      TileClean k.regs [(a, 256)] → Gives (.vecLd cr i) s (stepped cr i k p (setV i.fd (tbRead k.regs a 256)) s))
    ∧ (∀ t, MayBegin 0x30 cr i k p s → t = tdOf k.regs i.fa → t.empty = false → i.func = 0 → t.rows ≤ (sOf k.regs i.fb).toNat →
      GivesThen (.vecLd cr i) s (faulted k 2 Stat.length s))
    ∧ (∀ t row a, MayBegin 0x31 cr i k p s → t = tdOf k.regs i.fd → t.empty = false → t.refused = false → t.rowsMeet = false →
      i.imm.toNat % 0x2000 + 256 ≤ t.rowBytes → a = t.row row + i.imm.toNat % 0x2000 →
      (i.func = 0 ∧ row = (sOf k.regs i.fb).toNat ∧ row < t.rows ∨ i.func = 1 ∧ row = (sOf k.regs i.fb).toNat % t.rows) →
      TileFree k.regs [(a, 256)] → Gives (.vecSt cr i) s (stepped cr i k p (tbWrite a (vreg k.regs i.fa)) s))
    ∧ (MayBegin 0x32 cr i k p s →
      Gives (.vecAlu cr i) s (stepped cr i k p
        (setV i.fd (ofLanes ty (List.zipWith (laneAlu ty i.func (i.imm.getLsbD 3)) (v i.fa) (v i.fb)))) s))
    ∧ (MayBegin 0x33 cr i k p s →
      Gives (.vecFma cr i) s (stepped cr i k p
        (setV i.fd (ofLanes ty (List.zipWith (fun e c => laneFma ty (i.imm.getLsbD 3) e.1 e.2 c) (List.zip (v i.fa) (v i.fb)) (v i.fc)))) s))
    ∧ (MayBegin 0x34 cr i k p s →
      Gives (.vecCmp cr i) s (stepped cr i k p
        (setV i.fd (ofLanes ty (List.zipWith (fun a b => if laneCmp ty i.func a b then 2 ^ laneBits ty - 1 else 0) (v i.fa) (v i.fb)))) s))
    ∧ (MayBegin 0x35 cr i k p s →
      Gives (.vecSel cr i) s (stepped cr i k p
        (setV i.fd (ofLanes ty (List.zipWith (fun e c => if c ≠ 0 then e.1 else e.2) (List.zip (v i.fa) (v i.fb)) (v i.fc)))) s))
    ∧ (∀ n, MayBegin 0x36 cr i k p s → n = bits i.imm.toNat 4 6 →
      (n = 0 → Gives (.vecRed cr i) s (stepped cr i k p id s))
      ∧ (n ≠ 0 → Gives (.vecRed cr i) s (stepped cr i k p (setV i.fd (ofLanes ty
          (redTree (redOp i.func ty (i.imm.getLsbD 3)) 6 ((List.range n).map fun j => redTree (redOp i.func ty (i.imm.getLsbD 3)) 9 (v (i.fa + j)))
            :: List.replicate (laneCount ty - 1) 0))) s)))
    ∧ (MayBegin 0x37 cr i k p s → convertible (i.imm.toNat % 32) = true → convertible (bits i.imm.toNat 8 5) = true →
      Gives (.vecCvt cr i) s (stepped cr i k p
        (setV i.fd (cvtVec (i.imm.toNat % 32) (bits i.imm.toNat 8 5) (i.imm.getLsbD 16) (vreg k.regs i.fa))) s))
    ∧ (MayBegin 0x37 cr i k p s → convertible (i.imm.toNat % 32) = false ∨ convertible (bits i.imm.toNat 8 5) = false →
      GivesThen (.vecCvt cr i) s (faulted k 2 Stat.badFormat s))
    ∧ (MayBegin 0x38 cr i k p s →
      Gives (.vecFn cr i) s (stepped cr i k p (setV i.fd (ofLanes ty ((v i.fa).map (laneFn ty i.func)))) s))
    ∧ (MayBegin 0x39 cr i k p s →
      Gives (.vecPerm cr i) s (stepped cr i k p
        (setV i.fd (ofLanes ty ((v i.fb).map fun b => (v i.fa).getD (b % laneCount ty) 0))) s))
    ∧ (MayBegin 0x3A cr i k p s →
      Gives (.vecDup cr i) s (stepped cr i k p
        (setV i.fd (ofLanes ty (List.replicate (laneCount ty) ((sOf k.regs i.fa).toNat % 2 ^ laneBits ty)))) s))
    ∧ (MayBegin 0x3B cr i k p s →
      Gives (.vecExt cr i) s (stepped cr i k p (setS i.fd (BitVec.ofInt 64
        (laneInt (laneBits ty) (!vecFloat ty && ty != 6) ((v i.fa).getD (bits i.imm.toNat 8 8 % laneCount ty) 0)))) s))
    ∧ (∀ t code row, MayBegin 0x3C cr i k p s → t = tdOf k.regs i.fd → code = i.imm.toNat % 32 → isMx code = true →
      t.empty = false → t.refused = false → t.rowsMeet = false → (sOf k.regs i.fb).toNat < t.rows → rowBytesOf code ≤ t.rowBytes →
      row = mxRow code (((List.range (mxpRegs code)).map fun j => (vecLanes 0 (vreg k.regs (i.fa + j))).map (fget 0)).flatten) →
      TileFree k.regs [(t.row (sOf k.regs i.fb).toNat, row.length)] →
      Gives (.vecMxp cr i) s (stepped cr i k p (tbWrite (t.row (sOf k.regs i.fb).toNat) row) s))
    ∧ (MayBegin 0x3C cr i k p s → isMx (i.imm.toNat % 32) = false → GivesThen (.vecMxp cr i) s (faulted k 2 Stat.badFormat s))

/-- R194, R195, R242-R244, R249-R251, R513: `eng.enq` queues its descriptors in order, or waits while no entry of the kind is free; a take ends at
once, waits in age order or faults at a latch; a signal adds its amount and serves the waits, or faults past 65,535. Jobs that a restarted task
has queued before complete unread (R514). It rests on the model's choices of log entries 43 (a closed item is judged before all else) and 99
(waits for separate items do not hold each other back, and the predicate clears where the item ended). -/
def Obligations.JobAndTokenInstructions : Prop :=
  ∀ (cr : CoreRun) (i : Iw) (k : Task) (p : Program) (s : State), Quiet s → cr.sq = [] →
    (MayBegin 0x40 cr i k p s → (sOf k.regs i.fb).toNat = 0 → Gives (.engEnq cr i) s (stepped cr i k p id s))
    ∧ (∀ n, MayBegin 0x40 cr i k p s → n = (sOf k.regs i.fb).toNat → n ≤ k.match_.entries.countP (fun e => e == .enq i.func) →
      Gives (.engEnq cr i) s (complete (issueOf 0x40 cr i k p) id
        (matchJobs k.id i.func n (modTask k.id (fun k => { k with st := .running, held := none }) s))))
    ∧ (∀ n a ds, MayBegin 0x40 cr i k p s → n = (sOf k.regs i.fb).toNat → 0 < n → n ≤ 64 →
      a = (aOf k.regs i.fa + BitVec.ofInt 40 (sext i)).toNat → a + 64 * n ≤ 0x20000000 → allocated s a (64 * n) = true →
      poisonHit s.sq.poison a (64 * n) = false → ds = ((List.range n).map fun j => devGet s (a + 64 * j) 64) →
      (∀ d ∈ ds, jobTokenOk s k.id i.func d = true) → k.match_.entries.find? (fun e => e == .enq i.func) = none → RecordRoom k n →
      (jobsInUse s i.func + n ≤ jobShare i.func →
        Gives (.engEnq cr i) s (recorded cr i k p (List.replicate n (.enq i.func)) id
          (ds.foldl (fun s d => queueJob i.func d k.id p.part s) s)))
      ∧ (jobShare i.func ≤ jobsInUse s i.func → Gives (.engEnq cr i) s (waitsFor i k p 3 (.enq i.func a n) s)))
    ∧ (∀ n a j, MayBegin 0x40 cr i k p s → n = (sOf k.regs i.fb).toNat → n ≤ 64 → k.match_.entries.find? (fun e => e == .enq i.func) = none →
      a = (aOf k.regs i.fa + BitVec.ofInt 40 (sext i)).toNat → a + 64 * n ≤ 0x20000000 → allocated s a (64 * n) = true →
      poisonHit s.sq.poison a (64 * n) = false → j < n → jobTokenOk s k.id i.func (devGet s (a + 64 * j) 64) = false →
      GivesThen (.engEnq cr i) s (faulted k 3 Stat.badFormat s))
    ∧ (∀ n amt, n = i.imm.toNat % 64 → amt = tokAmt i → i.func = 0 →
      (MayBegin 0x50 cr i k p s → amt ≤ localOf k.regs n → k.waits.any (fun w => isLocal n w.w) = false →
        Gives (.tokWait cr i) s (stepped cr i k p (setLocal n (localOf k.regs n - amt)) s))
      ∧ (MayBegin 0x50 cr i k p s → amt ≠ 0 → localOf k.regs n < amt →
        Gives (.tokWait cr i) s (waitsFor i k p i.q (.localTake n amt) s))
      ∧ (MayBegin 0x51 cr i k p s → localOf k.regs n + amt ≤ 65535 →
        GivesThen (.tokSig cr i) s
          (serveLocal k.id n k.waits.length (stepped cr i k p (setLocal n (localOf k.regs n + amt)) s)))
      ∧ (MayBegin 0x51 cr i k p s → 65535 < localOf k.regs n + amt →
        GivesThen (.tokSig cr i) s (faulted k i.q Stat.tokenOverflow s))
      ∧ (MayBegin 0x52 cr i k p s →
        (amt ≤ localOf k.regs n →
          Gives (.tokTry cr i) s (stepped cr i k p (fun r => setP i.fd true (setLocal n (localOf k.regs n - amt) r)) s))
        ∧ (localOf k.regs n < amt → Gives (.tokTry cr i) s (stepped cr i k p (setP i.fd false) s))))
    ∧ (∀ n amt tk item, MayBegin 0x50 cr i k p s → i.func.testBit 0 = true → amt = tokAmt i →
      n = i.imm.toNat % 4096 + k.id.inst * bits i.imm.toNat 12 12 → tokOf s p.handle n = some tk →
      item = (if i.func.testBit 1 then some ((sOf k.regs i.fa).setWidth 32) else none) →
      (∀ id, item = some id → itemEnded s id = true → Gives (.tokWait cr i) s (stepped cr i k p (setP i.fc false) s))
      ∧ (item.elim false (itemEnded s) = false → amt ≠ 0 → amt ≤ drawn tk item → (∀ w ∈ tk.waiters, w.item ≠ item) → RecordRoom k 1 →
        (tk.jobTmpl = none ∨ latchFaults tk.latch = false) →
        GivesThen (.tokWait cr i) s
          (settleToken p.handle n (recorded cr i k p [.take n amt item Stat.ok]
            (fun r => (fun r => if i.func.testBit 1 then setP i.fc true r else r) (if i.func.testBit 2 then setSN i.fd tk.latch r else r))
            ((fun s => if i.func.testBit 2 then modTok p.handle n (fun k => { k with latch := 0 }) s else s)
              (lowWater p.handle n (modTok p.handle n (fun k => takeFrom k item amt) s))))))
      ∧ (item.elim false (itemEnded s) = false → amt ≠ 0 → amt ≤ drawn tk item → (∀ w ∈ tk.waiters, w.item ≠ item) →
        tk.jobTmpl ≠ none → latchFaults tk.latch = true → GivesThen (.tokWait cr i) s (faulted k i.q tk.latch s))
      ∧ (item.elim false (itemEnded s) = false → amt ≠ 0 → drawn tk item < amt ∨ (∃ w ∈ tk.waiters, w.item = item) → RecordRoom k 1 →
        Gives (.tokWait cr i) s
          (waitsFor i k p i.q (.take n amt item (if i.func.testBit 2 then some i.fd else none) (if i.func.testBit 1 then some i.fc else none))
            (modTok p.handle n (fun t => { t with waiters := t.waiters ++ [{ who := .task k.id, amt := amt, item := item }] }) s))))
    ∧ (∀ n amt tk, MayBegin 0x51 cr i k p s → i.func.testBit 0 = true → amt = tokAmt i → amt ≠ 0 →
      n = i.imm.toNat % 4096 + k.id.inst * bits i.imm.toNat 12 12 → tokOf s p.handle n = some tk →
      k.waits.any (fun w => writesSquare w.w) = false → k.match_.sigs = 0 →
      (i.func = 1 → tk.count + amt ≤ 65535 →
        GivesThen (.tokSig cr i) s (complete (issueOf 0x51 cr i k p) id
          (modTask k.id (fun k => { k with rec_ := { k.rec_ with sigs := k.rec_.sigs + 1 } })
            (settleToken p.handle n (lowWater p.handle n (modTok p.handle n (fun k => { k with count := k.count + amt })
              (modTask k.id (fun k => { k with st := .running, held := none }) s)))))))
      ∧ (i.func = 1 → 65535 < tk.count + amt → GivesThen (.tokSig cr i) s (faulted k i.q Stat.tokenOverflow s))
      ∧ (∀ x, i.func = 3 → x = (sOf k.regs i.fa).setWidth 32 → (itemOf s x).isSome = true →
        tk.pairs.any (fun y => y.1 == x) = true ∨ (tk.pairs.length < 32 ∧ tk.sigs = []) → drawn tk (some x) + amt ≤ 65535 →
        GivesThen (.tokSig cr i) s (complete (issueOf 0x51 cr i k p) id
          (modTask k.id (fun k => { k with rec_ := { k.rec_ with sigs := k.rec_.sigs + 1 } })
            (settleToken p.handle n (modTok p.handle n (fun k => { k with pairs := addPair x amt k.pairs })
              (modTask k.id (fun k => { k with st := .running, held := none }) s)))))))

/-- R42-R51, R252-R258, R279-R284: what the item and sequence instructions leave, and what the ledger answers; a boundary removes what has ended,
what leaves and what is at its maximum, and admits queued joins in order, up to one that its partition's quota (R91, R110) or the free blocks hold
back; with no step waiting, or no join or returned block since the last, none is formed. It rests on the model's choices of log entries 43 (an item
judged closed) and 109 (the func of .nowait). -/
def Obligations.ItemAndSequenceInstructions : Prop :=
  ∀ (cr : CoreRun) (i : Iw) (k : Task) (p : Program) (s : State), Quiet s → cr.tb = [] →
    (∀ t bs key st s1, MayBegin 0x60 cr i k p s → t = tdOf k.regs i.fb →
      t.empty = true ∨ (t.refused = false ∧ t.rows * t.rowBytes ≤ 1016 ∧ TileClean k.regs (t.runs t.rows)) →
      bs = (if t.empty then [] else (t.runs t.rows).flatMap fun e => tbRead k.regs e.1 e.2) →
      key = (if i.func = 1 then (sOf k.regs i.fc).toNat % 65536 else bits i.imm.toNat 8 16) →
      attach ((sOf k.regs i.fa).setWidth 32) (i.imm.toNat % 256) key 0 bs (some k.id) k.id s = (st, s1) →
      Gives (.itmAttach cr i) s (stepped cr i k p (setSN i.fd st) s1))
    ∧ (∀ id kind key origin bs pend who, bs ≠ [] → bs.length ≤ 1016 →
      (itemIssued s id = false → attach id kind key origin bs pend who s = (Stat.itemUnknown, s))
      ∧ (itemIssued s id = true → itemOf s id = none → attach id kind key origin bs pend who s = (Stat.itemClosed, bump Reg.itmSnapCnt.base 5 s))
      ∧ (∀ it, itemIssued s id = true → itemOf s id = some it → kind ≠ 4 → it.frags.length < 64 →
        attach id kind key origin bs pend who s = (Stat.ok, modItem id (fun i => { i with
          bound := true, nextOrd := i.nextOrd + 1
          frags := i.frags ++ [{ kind := kind, key := key, origin := origin, payload := bs, pend := pend, issuer := who, ord := i.nextOrd }] }) s))
      ∧ (∀ it, itemIssued s id = true → itemOf s id = some it → kind ≠ 4 → 64 ≤ it.frags.length →
        attach id kind key origin bs pend who s
          = (Stat.fragLimit, bump Reg.itmSnapCnt.base 6 (modItem id (fun i => { i with fragRefused := true }) s))))
    ∧ (∀ st s1, MayBegin 0x61 cr i k p s →
      commitItem ((sOf k.regs i.fa).setWidth 32) i.func (i.imm.toNat % 32) ((sOf k.regs i.fb).setWidth 48) p k.regs.mx
        (checkpoint k.id (stepped cr i k p id s)) = (st, s1) →
      GivesThen (.itmCommit cr i) s
        (modTask k.id (fun k => { k with regs := setSN i.fd st k.regs, ckpt := setSN i.fd st k.ckpt }) s1))
    ∧ (∀ id disp out fire mx,
      (itemIssued s id = false → commitItem id disp out fire p mx s = (Stat.itemUnknown, s))
      ∧ (itemIssued s id = true → itemOf s id = none → commitItem id disp out fire p mx s = (Stat.itemClosed, s))
      ∧ (∀ it, itemIssued s id = true → itemOf s id = some it → disp ≠ 0 → fireLate s it.posSrc out fire = true →
        commitItem id disp out fire p mx s = (Stat.fireLate, bump Reg.itmSnapCnt.base 7 (setFlag Reg.itmStatus.base 8 s)))
      ∧ (∀ it, itemIssued s id = true → itemOf s id = some it → disp = 0 ∨ fireLate s it.posSrc out fire = false →
        (commitItem id disp out fire p mx s).1 = Stat.ok ∧ ∀ x ∈ (commitItem id disp out fire p mx s).2.led.items, x.id ≠ it.id))
    ∧ (∀ it v, MayBegin 0x62 cr i k p s →
      (itemOf s ((sOf k.regs i.fa).setWidth 32) = some it →
        (i.func = 0 → v = some it.openPos.toNat) → (i.func = 1 → v = it.closePos.map (·.toNat)) → (i.func = 2 → v = some it.deadline.toNat) →
        (i.func = 3 → v = some (if it.bound then 1 else 0)) → (i.func = 4 → v = some it.src) → (i.func = 5 → v = some it.posSrc) →
        Gives (.itmGet cr i) s (stepped cr i k p (fun r => setP i.fb v.isSome (setSN i.fd (v.getD 0) r)) s))
      ∧ (itemOf s ((sOf k.regs i.fa).setWidth 32) = none →
        (s.led.committing.find? fun c => c.item.id == (sOf k.regs i.fa).setWidth 32 && c.admitted) = none →
        Gives (.itmGet cr i) s (stepped cr i k p (fun r => setP i.fb false (setSN i.fd 0 r)) s))
      ∧ (∀ c, itemOf s ((sOf k.regs i.fa).setWidth 32) = none →
        (s.led.committing.find? fun c => c.item.id == (sOf k.regs i.fa).setWidth 32 && c.admitted) = some c →
        (i.func = 0 → v = some c.item.openPos.toNat) → (i.func = 1 → v = c.item.closePos.map (·.toNat)) →
        (i.func = 2 → v = some c.item.deadline.toNat) → (i.func = 3 → v = some 2) → (i.func = 4 → v = some c.item.src) →
        (i.func = 5 → v = some c.item.posSrc) →
        Gives (.itmGet cr i) s (stepped cr i k p (fun r => setP i.fb v.isSome (setSN i.fd (v.getD 0) r)) s)))
    ∧ (∀ c n, MayBegin 0x70 cr i k p s → clientFor p (i.imm.toNat % 4) = some c → n = (sOf k.regs i.fb).toNat →
      (n = 0 → Gives (.seqJoin cr i) s (stepped cr i k p id s))
      ∧ (n ≠ 0 → k.match_.entries.find? isJoinEntry = none → kvTargetBlocks s (clientOf s c).part < reservation n →
        GivesThen (.seqJoin cr i) s (faulted k 3 Stat.length s))
      ∧ (∀ id, n ≠ 0 → reservation n ≤ kvTargetBlocks s (clientOf s c).part → k.match_.entries.find? isJoinEntry = none → RecordRoom k 1 →
        freeSeqId s p = some id →
        Gives (.seqJoin cr i) s (recorded cr i k p [.join id] (setSN i.fd id)
          (queueJoin p c id ((sOf k.regs i.fa).setWidth 32) n ((sOf k.regs i.fc).toNat % 2 ^ 32) s)))
      ∧ (n ≠ 0 → reservation n ≤ kvTargetBlocks s (clientOf s c).part → k.match_.entries.find? isJoinEntry = none → RecordRoom k 1 →
        freeSeqId s p = none →
        Gives (.seqJoin cr i) s
          (waitsFor i k p 3 (.join c ((sOf k.regs i.fa).setWidth 32) n ((sOf k.regs i.fc).toNat % 2 ^ 32) i.fd) s)))
    ∧ (∀ c a, MayBegin 0x71 cr i k p s → clientFor p (i.imm.toNat % 4) = some c → a = (aOf k.regs i.fa).toNat →
      (a + 32768 ≤ 0x20000000 → allocated s a 32768 = true →
        Gives (.seqStep cr i) s (waitsFor i k p 3 (.step c a i.fd (i.func == 1))
          (modClient c (fun x => { x with stepBy := x.stepBy ++ [k.id], armed := true }) s)))
      ∧ (0x20000000 < a + 32768 ∨ allocated s a 32768 = false →
        GivesThen (.seqStep cr i) s (faulted k 3 Stat.unmapped (noteUnmapped s))))
    ∧ (∀ c, MayBegin 0x72 cr i k p s → clientFor p (i.imm.toNat % 4) = some c →
      k.match_.entries.find? (fun e => e == .leave) = none → RecordRoom k 1 →
      Gives (.seqLeave cr i) s (recorded cr i k p [.leave] id { s with
        seqs := s.seqs.map fun q => if q.client = c ∧ q.id = (sOf k.regs i.fa).toNat then { q with leaving := true } else q }))
    ∧ (∀ c, (cpUp s 2 = true → GivesThen (.seqBoundary c) s (boundary c s))
      ∧ (cpUp s 2 = false ∨ (clientOf s c).stepBy = [] ∨ (clientOf s c).armed = false → Gives (.seqBoundary c) s s))
    ∧ (∀ c, (removeGone c s).seqs = s.seqs.filter (fun q => !(q.client == c && seqItemGone s q)
              && !(q.client == c && !q.member && decide (kvTargetBlocks s (clientOf s c).part < reservation q.max)))
        ∧ (applyLeaves c s).seqs = s.seqs.filter (fun q => !(q.client == c && (q.leaving || (q.member && decide (q.max ≤ q.held))))))
    ∧ (∀ c f q, s.seqs.find? (fun q => q.client == c && !q.member) = some q →
        reservation q.max ≤ (freeBlocks s (clientOf s c).part).length → partOver s (clientOf s c).part = false →
        admitJoins c (f + 1) s = admitJoins c f (bump Reg.sqmSnapCnt.base 1 { s with
          seqs := updFirst (fun x => x.handle == q.handle && x.id == q.id)
            (fun x => { x with member := true, justJoined := true, blk := kvBlk s (clientOf s c).part
                               blocks := (freeBlocks s (clientOf s c).part).take (reservation q.max) }) s.seqs }))
    ∧ (∀ c f q, s.seqs.find? (fun q => q.client == c && !q.member) = some q →
        (partOver s (clientOf s c).part = true → admitJoins c (f + 1) s = bump Reg.sqSnapCnt.base 4 s)
        ∧ (partOver s (clientOf s c).part = false → (freeBlocks s (clientOf s c).part).length < reservation q.max →
          admitJoins c (f + 1) s = bump Reg.sqmSnapCnt.base 4 (setFlag Reg.sqmStatus.base 1 s)))

/-- R128, R226, R259, R262-R275, R404-R406, R190: the Roundabout places a READY task on the lowest idle core or stops a victim; a save leaves the
victim READY or SAVED, its save area written and its core to the other task; READY tasks are placed by priority, then by how long they have been
READY; a restored task's state is read back, its planes are loaded and it decodes again; a replay stop writes its dump and stops its program. It
rests on the model's choices of log entries 73 (the event of a replay stop) and 100 (the layout of a save area, and the dump's poison). -/
def Obligations.SchedulerRows : Prop :=
  ∀ (cr : CoreRun) (mr : MemRun) (n : Nat) (k : Task) (s : State), Quiet s → cr.n = n →
    (readyTasks s = [] → Gives .taskPlacement s s)
    ∧ (∀ m, readyTasks s = [k] → taskOf s k.id = some k → claimOf s k.id = none → idleFor s k.id = some m →
      Gives .taskPlacement s (placeOn k.id m s))
    ∧ (∀ m, readyTasks s = [k] → taskOf s k.id = some k → claimOf s k.id = none → idleFor s k.id = none → victimFor s k = some m →
      Gives .taskPlacement s (modCore m (fun c => { c with phase := .stopping, incoming := some k.id }) s))
    ∧ (readyTasks s = [k] → taskOf s k.id = some k → claimOf s k.id = none → idleFor s k.id = none → victimFor s k = none →
      Gives .taskPlacement s s)
    ∧ ((readyTasks s).Pairwise (fun a b => lexLt (readyKey b) (readyKey a) = false) ∧ ∀ x, x ∈ readyTasks s ↔ x ∈ s.tasks ∧ x.st = .ready)
    ∧ (∀ a b : Task, a.prio ≤ 3 → b.prio ≤ 3 → a.prio < b.prio ∨ (a.prio = b.prio ∧ b.readyAt < a.readyAt) →
      lexLt (readyKey b) (readyKey a) = true)
    ∧ (∀ ks m, readyTasks s = k :: ks → (s.tasks.map (·.id)).Nodup → (∀ j, (coreOf s j).incoming = none) → idleFor s k.id = some m →
      ∃ t k', Gives .taskPlacement s t ∧ taskOf t k.id = some k' ∧ k'.st = .running ∧ k'.core = some m ∧ (coreOf t m).task = some k.id
        ∧ (coreOf t m).phase = .restoring
        ∧ ((∀ j, idleCore s j = true → j = m) → ∀ x ∈ ks, taskOf t x.id = some x))
    ∧ (∀ m, idleFor s k.id = some m → detMode s = false →
      (coreOf s m).st = 0 ∧ (coreOf s m).phase = .idle ∧ ∀ j, j < m → ¬((coreOf s j).st = 0 ∧ (coreOf s j).phase = .idle))
    ∧ ((coreOf s n).task = some k.id → taskOf s k.id = some k → (coreOf s n).phase = .stopping → k.passes = 0 →
      Gives (.taskSaveStart cr) s (modCore n (fun c => { c with phase := .saving }) s))
    ∧ ((coreOf s n).task = some k.id → taskOf s k.id = some k → (coreOf s n).phase = .stopping → k.passes ≠ 0 → Gives (.taskSaveStart cr) s s)
    ∧ (∀ p k0 s0, (coreOf s n).task = some k.id → taskOf s k.id = some k → progOf s k.id.handle = some p → (coreOf s n).phase = .saving →
      (coreOf s n).incoming ≠ some k.id → readForSave n k.id cr.tb s = (true, s0) → taskOf s0 k.id = some k0 →
      ∃ k' t, Gives (.taskSaveDone cr) s t ∧ taskOf t k.id = some k' ∧ k'.regs = keepLive k0.regs ∧ k'.saved = true ∧ k'.core = none
        ∧ k'.ckpt = k.ckpt ∧ k'.waits = k.waits ∧ k'.st = (if k.st = .parked then .saved else .ready)
        ∧ flagOf t (Reg.seqStatus.off n 0) 1 = true ∧ t.tokens = s.tokens ∧ t.led = s.led ∧ t.sq.runs = s.sq.runs
        ∧ (∀ g j, p.saves[taskIndex p k.id]? = some g → j < (saveImage k0.regs).length →
            memGet t.mem (g * 65536 + j) = (saveImage k0.regs).getD j 0)
        ∧ (∀ a, (∀ g, p.saves[taskIndex p k.id]? = some g → a < g * 65536 ∨ g * 65536 + (saveImage k0.regs).length ≤ a) →
            memGet t.mem a = memGet s.mem a)
        ∧ ((coreOf s n).incoming = none → (coreOf t n).phase = .idle ∧ (coreOf t n).task = none)
        ∧ (∀ i x, (coreOf s n).incoming = some i → taskOf s i = some x → x.st = .ready →
            (coreOf t n).phase = .restoring ∧ (coreOf t n).task = some i ∧ (taskOf t i).map (·.st) = some .running))
    ∧ (∀ s0, (coreOf s n).task = some k.id → taskOf s k.id = some k → (coreOf s n).phase = .saving →
      readForSave n k.id cr.tb s = (false, s0) → GivesThen (.taskSaveDone cr) s s0)
    ∧ (∀ (r : TaskRegs) (bad : Nat → Bool), r.s.length = 32 → r.t.length = 32 → r.v.length = 32 → r.acc.length = 256 →
      (loadImage (saveImage r) bad r).s = r.s ∧ (loadImage (saveImage r) bad r).t = r.t
        ∧ (loadImage (saveImage r) bad r).v = r.v.map (padTo 256) ∧ (loadImage (saveImage r) bad r).acc = r.acc)
    ∧ (∀ u, (coreOf s n).task = some k.id → taskOf s k.id = some k → (coreOf s n).phase = .restoring → (coreOf s n).gated = false →
      awake s 0 n = true →
      u = modTask k.id (fun k => { k with st := if stalled k then heldState k else .running, served := false, ran := true })
            (modCore n (fun c => { c with phase := .running, fresh := !k.served })
              (count (Reg.rbtSnapCnt.base + 20) (moveNs s n 350 (if k.ran then liveBytes k.regs else 0)) s)) →
      GivesThen (.taskRestoreDone cr) s (restoreReads cr k (fun s => enqGoesOn n (reissueWaits k s)) u)
      ∧ (k.saved = false → k.waits = [] → cr.tb = [] → k.regs.tbPoison = [] →
        Gives (.taskRestoreDone cr) s (modTask k.id (fun k => { k with regs := { k.regs with planes := k.regs.planes.map fun p =>
          match p.desc with
          | some d => { p with rows := ((tileOf d).runs (tileOf d).rows).map fun e => tbRead k.regs e.1 e.2 }
          | none => p } }) u)))
    ∧ ((coreOf s n).task = some k.id → taskOf s k.id = some k →
      ((coreOf s n).phase = .running → k.atRound = true → k.st = .running →
        Gives (.roundEnd n) s (placementPoint k.id n (modTask k.id (fun k => { k with atRound := false }) s)))
      ∧ (k.atRound = false → Gives (.roundEnd n) s s))
    ∧ (∀ r p, taskOf s k.id = some k → progOf s k.id.handle = some p → replayHolds p k = false → (coreOf s n).phase = .running →
      (coreOf s n).incoming = none →
      (readyTasks s).find? (fun r => decide (k.prio ≤ r.prio) && (claimOf s r.id).isNone && (idleFor s r.id).isNone && mayRun s r.id n) = some r →
      placementPoint k.id n s = modCore n (fun c => { c with phase := .stopping, incoming := some r.id, yielded := true }) s)
    ∧ (∀ us, rdF s Reg.rbtCfg.base 0 16 ≠ 0 → rdF s Reg.rbtCfg.base 0 16 < us → readyTasks s ≠ [] →
      Gives (.rbtWaitAlarm us) s (setCtr (Reg.rbtSnapCnt.base + 16) (max (ctrOf s (Reg.rbtSnapCnt.base + 16)) us)
        (setFlag Reg.rbtStatus.base 0 s)))
    ∧ (∀ p r, replayTask s n = some (k, p, r) →
      Gives (.replayStopReached n) s (modProg p.handle (fun p => { p with replay := some { r with reached := true } }) s))
    ∧ (∀ p r k0 s0 st s1, replayTask s n = some (k, p, r) → r.reached = true → k.waits = [] → k.passes = 0 →
      s0 = cr.tb.foldl (fun s h => tileEcc n k.id h s) (seeEcc mr.ecc s) → taskOf s0 k.id = some k0 →
      runWrite mr r.dump (replayDump n k0) s0 = (st, s1) →
      GivesThen (.replayDumpWritten cr mr) s (stopProgram p.handle
        (postEvent 7 2 p.handle 0 Stat.ok (leBytes 2 k.id.tmpl ++ leBytes 2 k.id.inst ++ leBytes 1 n ++ leBytes 4 k0.regs.next)
          (if st = Stat.ok then dumpPoison k0.regs r.dump s1 else s1))))
    ∧ (k.regs.s.length = 32 → k.regs.t.length = 32 → k.regs.v.length = 32 → k.regs.acc.length = 256 → k.regs.a.length = 16 →
      k.regs.lc.length = 8 → k.regs.local_.length = 64 → (replayDump n k).length = 4208064)

/-- R291-R298, R306, R313, R316: the port's enable starts its discovery or is refused, its disable closes its frames, and the links come up, are
lost and fail; the mailbox sends one command at a time and takes its answer. -/
def Obligations.CameraPortLinks : Prop :=
  ∀ (w : Writer) (n b old : Nat) (s : State), Quiet s → n < 12 → b = Reg.cxpCtl.off n 0 → old = rd s b →
    (MayWrite s w b 0 → gangHalf s n = false → bitOf old 0 = false →
      (cxpRefused s n old = false → Gives (.cxpPortEnable w n) s (setLink n 1 0 0 (modPort n (fun q => { q with curFmt := none })
        (wr b ((old &&& 0xF077A) + 1 + 4 * b2n (n % 2 == 0 && bitOf old 2)) s))))
      ∧ (cxpRefused s n old = true → Gives (.cxpPortEnable w n) s
          (wr b ((old &&& 0xF077A) + 4 * b2n (n % 2 == 0 && bitOf old 2)) (setFlag (portStatus n) 2 s))))
    ∧ (MayWrite s w b 0 → gangHalf s n = false → bitOf old 0 = true →
      Gives (.cxpPortDisable w n) s (wr b ((old &&& 0xF077A) + 4 * b2n (n % 2 == 0 && bitOf old 2))
        (setLink n 0 0 (rdF s (Reg.cxpLink.off n 0) 8 4) (endFrames n [] s))))
    ∧ (∀ on, MayWrite s w b 0 → gangHalf s n = false →
      Gives (.cxpPowerEnable w n on) s
        (wr b ((setBits old 1 1 (b2n on) &&& 0xF077A) + b2n (bitOf old 0) + 4 * b2n (n % 2 == 0 && bitOf old 2)) s))
    ∧ (∀ m on, n = 2 * m → MayWrite s w b 0 →
      (bitOf old 2 = on ∨ gangRefused s n on = false →
        Gives (.cxpGangWrite w m on) s (wr b ((old &&& 0xF077A) + b2n (bitOf old 0) + 4 * b2n on) s))
      ∧ (bitOf old 2 ≠ on → gangRefused s n on = true →
        Gives (.cxpGangWrite w m on) s (setFlag (portStatus n) 2 s)))
    ∧ (∀ speed, coreUp s = true → linkState s n = 1 → gangHalf s n = false →
      Gives (.cxpDiscoveryDone n true speed) s (passGates n (setLink n 2 (conns s n) (min (bits old 16 4) speed) s))
      ∧ Gives (.cxpDiscoveryDone n false speed) s (setLink n 3 0 0 s))
    ∧ (linkState s n = 2 →
      Gives (.cxpLinkLost n) s (setLink n 1 0 (rdF s (Reg.cxpLink.off n 0) 8 4) (portCount n 11 1 (endFrames n [5] s))))
    ∧ (∀ st up speed,
      (st = 2 → linkState s n ≠ 2 → setLink n st up speed s
        = postEvent 9 1 n 0 0 (leBytes 1 speed ++ leBytes 1 up) (setFlag (portStatus n) 0 (wr (Reg.cxpLink.off n 0) (st + up * 16 + speed * 256) s)))
      ∧ (st ≠ 2 → linkState s n = 2 → setLink n st up speed s
        = postEvent 9 2 n 0 0 (leBytes 1 speed ++ leBytes 1 up) (setFlag (portStatus n) 1 (wr (Reg.cxpLink.off n 0) (st + up * 16 + speed * 256) s)))
      ∧ ((st = 2 ↔ linkState s n = 2) → setLink n st up speed s = wr (Reg.cxpLink.off n 0) (st + up * 16 + speed * 256) s))
    ∧ (∀ v len, MayWrite s w (Reg.cxpCcCtl.off n 0) v → len = bits v.toNat 8 7 →
      (v.getLsbD 0 = false ∨ gangHalf s n = true → Gives (.cxpCcGo w n v) s (wr (Reg.cxpCcCtl.off n 0) (v.toNat &&& 0xFFFF7F02) s))
      ∧ (v.getLsbD 0 = true → gangHalf s n = false → ccBusy s n = true ∨ 64 < len →
        Gives (.cxpCcGo w n v) s (setFlag (portStatus n) 12 (wr (Reg.cxpCcCtl.off n 0) (v.toNat &&& 0xFFFF7F02) s)))
      ∧ (v.getLsbD 0 = true → gangHalf s n = false → ccBusy s n = false → len = 0 →
        Gives (.cxpCcGo w n v) s
          (setFlag (portStatus n) 11 (wr (Reg.cxpCcStat.off n 0) 0 (wr (Reg.cxpCcCtl.off n 0) (v.toNat &&& 0xFFFF7F02) s))))
      ∧ (v.getLsbD 0 = true → gangHalf s n = false → ccBusy s n = false → 0 < len → len ≤ 64 →
        Gives (.cxpCcGo w n v) s
          (emit (.camCommand n len (rd s (Reg.cxpCcAddr.off n 0)) (v.getLsbD 1) (if v.getLsbD 1 then ccData s n len else []))
            (wrF (Reg.cxpCcStat.off n 0) 0 1 1 (modPort n (fun q => { q with ccWrite := v.getLsbD 1, ccLen := len })
              (wr (Reg.cxpCcCtl.off n 0) (v.toNat &&& 0xFFFF7F02) s))))))
    ∧ (∀ ack bs q, ccBusy s n = true → q = s.ports.getD n Port.reset →
      (q.ccWrite = true → Gives (.cxpCcAck n ack bs) s (setFlag (portStatus n) 11 (wr (Reg.cxpCcStat.off n 0) (ack % 256 * 256) s)))
      ∧ (q.ccWrite = false → ∃ t, Gives (.cxpCcAck n ack bs) s t ∧ t = { s with regs := t.regs }
          ∧ rd t (Reg.cxpCcStat.off n 0) = ack % 256 * 256 ∧ flagOf t (portStatus n) 11 = true
          ∧ (q.ccLen ≤ 64 → (ccData t n 64).take (min bs.length q.ccLen) = bs.take (min bs.length q.ccLen)
              ∧ (ccData t n 64).drop (min bs.length q.ccLen) = (ccData s n 64).drop (min bs.length q.ccLen))))
    ∧ (ccBusy s n = true → Gives (.cxpCcTimeout n) s (setFlag (portStatus n) 12 (wrF (Reg.cxpCcStat.off n 0) 0 1 0 s)))

/-- R301-R314: a line is stray, or joins the open frame and is delivered; frames close at their image's end, their tail, their window's end and with
their pixel clock; a closing frame attaches its fragment where one is due, and the next waiting frame opens. It rests on the model's choices of log
entries 27 (one open frame at a time, and what waits), 28 (stray lines, the AUX pins) and 105 (the line slots, and free values where a slot is
poisoned). -/
def Obligations.CameraLinesAndFrames : Prop :=
  ∀ (p : Nat) (s : State), Quiet s →
    (p < 12 → portUp s p = true →
      (∀ fmt phase, Gives (.cxpStreamPacket p (.header fmt phase)) s
        (judgeHeader p (imageBegins p (gateClose p (gateOpen p (modPort p (fun q => { q with curFmt := some (fmt, phase) }) s))))))
      ∧ (∀ px, Gives (.cxpStreamPacket p (.line px)) s (lineArrives p px s))
      ∧ Gives (.cxpStreamPacket p .imageEnd) s (imageEnds p s)
      ∧ Gives (.cxpStreamPacket p .other) s (portCount p 7 1 s))
    ∧ (∀ f fmt phase, openFrameOf s p = some f → (s.ports.getD p Port.reset).curFmt = some (fmt, phase) →
      (f.gateItem = true ∨ f.area = false ∨ f.imgBegun = true → (fmt ≠ f.fmt ∨ (4 ≤ f.fmt ∧ f.fmt ≤ 6 ∧ phase ≠ f.phase)) →
        judgeHeader p s = flagFrame p 4 s)
      ∧ (fmt = f.fmt → phase = f.phase → judgeHeader p s = s))
    ∧ (∀ n es ecc, n < 4 → p = 12 + n → portUp s p = true →
      Gives (.auxLineReceive n es ecc) s (es.foldl (fun s e => auxSample p e s) (seeEcc ecc s)))
    ∧ (∀ e fv lv dv q, fv = (e.fv != bitOf (portCtl s p) 13) → lv = (e.lv != bitOf (portCtl s p) 14) →
      dv = (e.dv != bitOf (portCtl s p) 15) → q = s.ports.getD p Port.reset →
      (e.rising = bitOf (portCtl s p) 11 → auxSample p e s = s)
      ∧ (e.rising ≠ bitOf (portCtl s p) 11 → lv = false → q.line = none →
        (q.fv = false → fv = true → auxSample p e s = imageBegins p (modPort p (fun q => { q with fv := true }) s))
        ∧ (q.fv = true → fv = false → auxSample p e s = imageEnds p (modPort p (fun q => { q with fv := false }) s)))
      ∧ (e.rising ≠ bitOf (portCtl s p) 11 → fv = q.fv → lv = true →
        auxSample p e s = modPort p (fun q => { q with line := some (q.line.getD []
          ++ (if dv = true ∧ (bitOf (portCtl s p) 12 = false ∨ fv = true) then [e.d] else [])) }) (modPort p (fun q => { q with fv := fv }) s))
      ∧ (∀ px, e.rising ≠ bitOf (portCtl s p) 11 → fv = q.fv → lv = false → q.line = some px →
        auxSample p e s = lineArrives p px (modPort p (fun q => { q with line := none }) (modPort p (fun q => { q with fv := fv }) s))))
    ∧ (∀ px, bitOf (portCtl s p) 4 = false →
      (∀ f, openFrameOf s p = some f → f.area = true → f.gateItem = false →
        (f.imgBegun = true → lineArrives p px s = joinLine p px f (·.imgBegun) (portCount p 1 1 s))
        ∧ (f.imgBegun = false → lineArrives p px s = strayLine p (portCount p 1 1 s)))
      ∧ ((∀ f, openFrameOf s p = some f → f.area = false ∧ f.gateItem = false) → (s.ports.getD p Port.reset).requests = [] →
        lineArrives p px s = strayLine p (portCount p 1 1 s))
      ∧ (∀ e rest, (s.ports.getD p Port.reset).requests = e :: rest →
        (openFrameOf s p = none →
          lineArrives p px s = strayLine p (modPort p (fun q => { q with requests := rest }) (portCount p 1 1 s)))
        ∧ (∀ f, openFrameOf s p = some f → f.area = false → f.gateItem = false →
          (e.contains f.item = true ∨ (∃ x ∈ (s.ports.getD p Port.reset).frames, x.st = 0 ∧ e.contains x.item = true) →
            lineArrives p px s = closeIfDone p (joinLine p px f (fun x => x.st == 0 && e.contains x.item)
              (modPort p (fun q => { q with requests := rest }) (portCount p 1 1 s))))
          ∧ (e.contains f.item = false → (∀ x ∈ (s.ports.getD p Port.reset).frames, x.st = 0 → e.contains x.item = false) →
            lineArrives p px s = strayLine p (modPort p (fun q => { q with requests := rest }) (portCount p 1 1 s))))))
    ∧ (∀ px f u, u = gateClose p (gateOpen p (portCount p 1 1 s)) → openFrameOf u p = some f → f.gateItem = true →
      lineArrives p px s = joinLine p px f (inWindowOf u p) u)
    ∧ strayLine p s = setFlag (portStatus p) 8 (portCount p 7 1 s)
    ∧ (∀ f px l s1, openFrameOf s p = some f → f.dropping = false → f.sink = none → takesNow s p f = true ∨ storeRoom s p f = true →
      px.length = f.width * rawChans f.fmt →
      (l, s1) = (if takesNow s p f then ({ px := px, slot := none }, portCount p 2 1 s) else storeLine p f px (portCount p 2 1 s)) →
      deliverLine p px f s = takeLines p (modOpen p (fun f => { f with delivered := f.delivered + 1, lines := f.lines ++ [l] }) s1))
    ∧ (∀ f px l s1, 12 ≤ p → px.length = f.width * rawChans f.fmt → (∀ v ∈ px, v < 2 ^ rawBits f.fmt) →
      poisonHit s.sq.poison (storeSlot s p (s.ports.getD p Port.reset).storeNext) (lineBytes f) = false → storeLine p f px s = (l, s1) →
      fetchLine p f l s1 = (px, { s1 with fresh := s1.fresh + px.length }))
    ∧ (∀ f u, openFrameOf s p = some f → f.delivered ≠ 0 →
      u = (if bitOf (portCtl s p) 6 = true ∨ f.flags ≠ 0 then attachDevice f.item 3 (portCode p) 1 (framePayload s p f) s else s) →
      closeFrame p [] true s = openWaiting p (portCount p 0 1 (modOpen p (fun f => { f with st := 2 })
        (dropRequests p f.item (if f.sink.isSome then spoilRef p f u else u)))))
    ∧ (∀ f, openFrameOf s p = some f → f.area = true → f.gateItem = false → f.imgBegun = true → imageEnds p s = closeFrame p [] true s)
    ∧ (∀ n ecc u, n < 4 → p = 12 + n → coreUp s = true → auxEn s n = true → (s.ports.getD p Port.reset).lost = false →
      ((s.ports.getD p Port.reset).line = none → u = s) →
      (∀ px, (s.ports.getD p Port.reset).line = some px → u = lineArrives p px (seeEcc ecc s)) →
      Gives (.auxPclkLost n ecc) s (linkEvent p 2 0 0 (portCount p 11 1 (setFlag (portStatus p) 1
        (modPort p (fun q => { q with pclk := false, lost := true }) (endFrames p [5] u))))))
    ∧ (∀ n, n < 4 → p = 12 + n → coreUp s = true → auxEn s n = true → (s.ports.getD p Port.reset).pclk = false →
      Gives (.auxPclkReturn n) s
        (passGates p (linkEvent p 1 0 0 (setFlag (portStatus p) 0 (modPort p (fun q => { q with pclk := true, lost := false }) s)))))
    ∧ (∀ n, n < 4 → p = 12 + n → Gives (.auxTrigPulseEnd n) s (modPort p (fun q => { q with trigHigh := false }) s))
    ∧ (∀ f, openFrameOf s p = some f → f.gateItem = false → (if f.area then f.imgBegun = false else f.trainDone = true) →
      Gives (.frameTailTimeout p) s (closeFrame p [] true s))
    ∧ (openFrameOf s p = none → Gives (.frameTailTimeout p) s s)
    ∧ (p < 16 → Gives (.frameGateClose p) s (gateClose p (gateOpen p s)))
    ∧ (∀ f i e, openFrameOf s p = some f → f.gateItem = true → itemOf s f.item = some i → gateEnd f i = some e →
      (reached (copyPos s i.posSrc) e = true → gateOver (closeFrame p [] true s) p (fun i => copyPos s i.posSrc) = false →
        gateClose p s = closeFrame p [] true s)
      ∧ (reached (copyPos s i.posSrc) e = false → gateClose p s = s))
    ∧ (∀ i, portUp s p = true → bitOf (portCtl s p) 4 = true →
      (gateDue s p = [] → gateOpen p s = s)
      ∧ (gateDue s p = [i] → gateOpen p s = markGated p i (openFrame p i (shutGates p (fun _ => gateStart s p i) s))))

/-- R318, R319, R331-R342: routes, parameter loads, the start of the oldest frame, the buffers that stripes take from their token, the deadline drop
and the stripe with its header. A frame dropped after rows of it have gone over the temporal reference leaves none (R322). It rests on the model's
choices of log entry 30. -/
def Obligations.ImagePipelines : Prop :=
  ∀ (w : Writer) (m : MemRun) (k : Nat) (v : Word) (s : State), Quiet s → k < 14 →
    (k % 2 = 1 → k < 12 → MayWrite s w (Reg.ispRoute.off (k / 2) 0) v →
      (routeRefused s k v.toNat = false → Gives (.ispRouteWrite w k v) s (wr (Reg.ispRoute.off (k / 2) 0) (v.toNat &&& 0x77) s))
      ∧ (routeRefused s k v.toNat = true → Gives (.ispRouteWrite w k v) s (setFlag (pipeStatus k) 7 s)))
    ∧ (k % 2 = 0 ∨ 12 ≤ k → Gives (.ispRouteWrite w k v) s s)
    ∧ (∀ c, c < 2 → MayWrite s w (Reg.ispPctl.off k c) v →
      (v.getLsbD 0 = false → Gives (.ispParamLoadGo w k c v) s s)
      ∧ (v.getLsbD 0 = true → (ctxOf s k c).loadingSet = false → Gives (.ispParamLoadGo w k c v) s
          (modCtx k c (fun x => { x with pending := none, loadingSet := true, loadAddr := rd s (Reg.ispPaddr.off k c) * 256 }) s))
      ∧ (v.getLsbD 0 = true → (ctxOf s k c).loadingSet = true → Gives (.ispParamLoadGo w k c v) s
          (wrF (Reg.ispPctl.off k c) 8 8 Stat.badFormat (setFlag (pipeStatus k) 1 s))))
    ∧ (∀ c st set s1, c < 2 → pipeUp s k = true → (ctxOf s k c).loadingSet = true →
      loadSet m k c (ctxOf s k c).loadAddr (seeEcc m.ecc s) = (st, set, s1) →
      Gives (.ispParamLoadDone k c m) s (setFlag (pipeStatus k) (if st = Stat.ok then 0 else 1) (wrF (Reg.ispPctl.off k c) 8 8 st
        (modCtx k c (fun x => { x with loadingSet := false, pending := set }) s1))))
    ∧ (∀ c a, (setMapped s a 128 = false → loadSet m k c a s = (Stat.unmapped, none, s))
        ∧ ((loadSet m k c a s).2.1.isSome = true → (loadSet m k c a s).1 = Stat.ok))
    ∧ (∀ c x, (ctxOf s k c).pending = some x →
      applyPending k c s = setFlag (pipeStatus k) 2
        (modCtx k c (fun y => { y with active := some x, pending := none, gen := (y.gen + 1) % 2 ^ 32, refOk := false }) s))
    ∧ (∀ ecc p f u, u = seeEcc ecc s → pipeUp s k = true → (pipeAt u k).serving = none → oldestFrame (waitingFrames u k) = some (p, f) →
      f.lines ≠ [] ∨ f.st = 2 → Gives (.pipelineFrameStart k ecc) s (serveFrame k p f u))
    ∧ (∀ ecc u, u = seeEcc ecc s → pipeUp s k = true → (pipeAt u k).serving = none → waitingFrames u k = [] →
      Gives (.pipelineFrameStart k ecc) s u)
    ∧ (∀ x b u, u = seeEcc m.ecc s → pipeUp s k = true → settlePipe k u = u → (pipeAt u k).serving = some x → x.bind = some b → x.granted = false → x.buf = none →
      x.waiting = false → x.sigWait = false → stripeDue u x = true →
      (pastDeadline u x = true → Gives (.stripeBufferAcquire k m) s
        (letFrameGo k 4 x (dropRef k x (pipeCount k 4 (x.raw.length - x.doneLines) (setFlag (pipeStatus k) 5 u)))))
      ∧ (∀ tk, pastDeadline u x = false → tokOf u b.handle (leAt b.payload 0x10 2) = some tk → tk.waiters = [] →
        (tk.count = 0 → Gives (.stripeBufferAcquire k m) s
          (modTok b.handle (leAt b.payload 0x10 2) (fun q => { q with waiters := [{ who := .pipe k, amt := 1, item := none }] })
            (modServing k (fun y => { y with waiting := true }) u)))
        ∧ (tk.count ≠ 0 → ∃ t, Gives (.stripeBufferAcquire k m) s t
            ∧ (tokOf t b.handle (leAt b.payload 0x10 2)).map (·.count) = some (tk.count - 1)
            ∧ (pipeAt t k).serving = some { x with buf := some (b.stripes % max 1 (leAt b.payload 0xC 2))
                                                   bind := some { b with stripes := b.stripes + 1 } })))
    ∧ (∀ x u, u = seeEcc m.ecc s → pipeUp s k = true → settlePipe k u = u → (pipeAt u k).serving = some x → x.bind = none →
      Gives (.stripeBufferAcquire k m) s (letFrameGo k 5 x (dropRef k x (pipeCount k 5 (x.raw.length - x.doneLines) u))))
    ∧ (∀ x b j lines last u, u = seeEcc m.ecc s → pipeUp s k = true → (pipeAt s k).serving = some x → x.bind = some b → x.buf = some j →
      stripeReady u x = some (lines, last) → GivesThen (.stripeWriteDone k m) s (writeStripe k x b j lines last u))
    ∧ (∀ x, pipeUp s k = true → (pipeAt s k).serving = some x → x.buf = none → Gives (.stripeWriteDone k m) s (settlePipe k (seeEcc m.ecc s)))
    ∧ (∀ x lines flags h, h = stripeHeader x lines flags →
      h.length = 64 ∧ leAt h 0 4 = x.item.toNat ∧ leAt h 4 4 = x.no % 2 ^ 32 ∧ leAt h 8 4 = x.doneLines % 2 ^ 32
        ∧ leAt h 12 2 = lines % 2 ^ 16 ∧ leAt h 14 2 = flags % 2 ^ 16 ∧ leAt h 16 1 = portCode x.port % 256
        ∧ leAt h 17 1 = outFmt x.set % 256 ∧ leAt h 18 2 = x.width % 2 ^ 16 ∧ leAt h 20 4 = x.gen % 2 ^ 32)

/-- R175-R182, R245, R251, R346-R353: an engine takes its next job; what its checks refuse ends with their status, an operation that does not
exist with BAD_FORMAT; the warps, crops and sorts do their work; the job's end frees its entry and signals its token by one. The order of a job's
checks is log entry 32's. -/
def Obligations.GeometryAndSortJobs : Prop :=
  ∀ (m : MemRun) (eng : Nat) (j : Job) (s u : State), Quiet s → u = seeEcc m.ecc (taken eng j s) →
    (MayTake 0 eng j s → (kindOps 0).contains (opOf j.desc) = false →
      Gives (.warpMeshWarp eng m) s (jobDone 0 eng Stat.badFormat (taken eng j s)))
    ∧ (∀ b, MayTake 0 eng j s → opOf j.desc = 1 → b = (blockOf u 1 j.task.handle (leAt j.desc 0x25 1)).elim [] (·.block) →
      (∀ st, warpStart u j true [(meshShort b j.desc, Stat.shape)] = some st →
        Gives (.warpMeshWarp eng m) s (jobDone 0 eng st u))
      ∧ (warpStart u j true [(meshShort b j.desc, Stat.shape)] = none →
        Gives (.warpMeshWarp eng m) s (warpDraw eng j.desc (meshPos b) u)))
    ∧ (∀ a, MayTake 0 eng j s → opOf j.desc = 2 → a = leAt j.desc 0x28 8 →
      (∀ st, warpStart u j false [bad (localExtent u a 64)] = some st → Gives (.warpLensWarp eng m) s (jobDone 0 eng st u))
      ∧ (warpStart u j false [bad (localExtent u a 64)] = none → poisonHit u.sq.poison a 64 = false → leAt (devGet u a 64) 36 28 = 0 →
        Gives (.warpLensWarp eng m) s (warpDraw eng j.desc
          (fun x y => (lensCoord (lensNums (devGet u a 64) x y).1, lensCoord (lensNums (devGet u a 64) x y).2)) u))
      ∧ (warpStart u j false [bad (localExtent u a 64)] = none → poisonHit u.sq.poison a 64 = false → leAt (devGet u a 64) 36 28 ≠ 0 →
        Gives (.warpLensWarp eng m) s (jobDone 0 eng Stat.badFormat u)))
    ∧ (∀ a n, MayTake 0 eng j s → opOf j.desc = 3 → a = leAt j.desc 0x28 8 →
      startStatus (warpFields u j true) false [bad (localExtent u a 16)] = none → poisonHit u.sq.poison a 16 = false →
      n = 16 + 8 * (leAt (devGet u a 16) 0 2 * leAt (devGet u a 16) 2 2) →
      (meshOk (devGet u a 16) = true → localExtent u a n = Stat.ok → poisonHit u.sq.poison a n = false →
        Gives (.warpLoadMesh eng m) s (jobDone 0 eng Stat.ok (bump Reg.wrpSnapCnt.base 2 (setFlag Reg.wrpStatus.base 1
          (setBlock { pool := 1, handle := j.task.handle, ctx := leAt j.desc 0x25 1, block := devGet u a n } u)))))
      ∧ (meshOk (devGet u a 16) = false → Gives (.warpLoadMesh eng m) s (jobDone 0 eng Stat.badFormat u)))
    ∧ (∀ i, i < 1024 → (keysWeights i).length = 4 ∧ (keysWeights i).sum = 2 ^ 14)
    ∧ (∀ p, ((linearAxis p).map (·.2)).sum = 65536)
    ∧ (∀ boxes st s1, MayTake 1 eng j s → opOf j.desc = 1 → boxes = devGet u (leAt j.desc 0x18 8) (32 * leAt j.desc 0x20 2) →
      (regionStart u j = some st → Gives (.regionCrop eng m) s (jobDone 1 eng st u))
      ∧ (regionStart u j = none → poisonHit u.sq.poison (leAt j.desc 0x18 8) (32 * leAt j.desc 0x20 2) = true →
        Gives (.regionCrop eng m) s (jobDone 1 eng Stat.poison u))
      ∧ (regionStart u j = none → poisonHit u.sq.poison (leAt j.desc 0x18 8) (32 * leAt j.desc 0x20 2) = false →
        boxesBad (leAt j.desc 0x20 2) boxes = false →
        (toCaddy j.desc = true → Gives (.regionCrop eng m) s (modRunning 1 eng (fun x => { x with current := boxes }) u))
        ∧ (toCaddy j.desc = false → cropAll j.desc boxes (leAt j.desc 0x20 2) 0 u = (st, s1) →
          Gives (.regionCrop eng m) s (jobDone 1 eng st s1))))
    ∧ (∀ n z scores sel st s1 c, MayTake 2 eng j s → opOf j.desc = 1 → sortStart u j = none →
      n = (if leAt j.desc 0x10 2 = 0 then 0 else leAt j.desc 4 4) → z = scoreSize (leAt j.desc 1 1) →
      n = 0 ∨ poisonHit u.sq.poison (leAt j.desc 8 8) (z * n) = false →
      scores = ((List.range n).map fun i => leAt (devGet u (leAt j.desc 8 8) (z * n)) (z * i) z) →
      sel = topK (leAt j.desc 1 1) (leAt j.desc 0x10 2)
        (if bitOf (leAt j.desc 2 1) 0 then some (pixNum (leAt j.desc 1 1) (leAt j.desc 0x14 z)) else none) scores →
      writeRuns m ([(leAt j.desc 0x18 8, sel.1.flatMap fun x => leBytes 4 x.2)]
          ++ (if bitOf (leAt j.desc 2 1) 1 then [(leAt j.desc 0x20 8, sel.1.flatMap fun x => leBytes z (scores.getD x.2 0))] else [])
          ++ [(leAt j.desc 0x28 8, leBytes 4 sel.1.length ++ leBytes 4 sel.2)]) u = (st, s1) →
      c = count (Reg.srtSnapCnt.base + 16) sel.1.length (count (Reg.srtSnapCnt.base + 8) sel.2 (count (Reg.srtSnapCnt.base + 4) n s1)) →
      Gives (.sortTopK eng m) s (jobDone 2 eng st (if sel.2 = 0 then c else setFlag Reg.srtStatus.base 1 c)))
    ∧ (∀ st, MayTake 2 eng j s → opOf j.desc = 1 → sortStart u j = some st → Gives (.sortTopK eng m) s (jobDone 2 eng st u))
    ∧ (∀ fmt k t scores, (topK fmt k t scores).1.length = min k (((scores.map (pixNum fmt)).zipIdx.filter fun x =>
        x.1 != .nan && t.elim true fun t => t != .nan && !Num.lt x.1 t).length))
    ∧ (∀ kind steps us located r, kind ≠ 3 → groupUp s (groupOfKind kind) = true → runningOn s kind eng = some r →
      (r.done = true → GivesThen (.engineJobEnd kind eng steps us located m) s (endJob kind eng (noteEnd kind r.status us (seeEcc m.ecc s))))
      ∧ (r.done = false → Gives (.engineJobEnd kind eng steps us located m) s (seeEcc m.ecc s)))
    ∧ (∀ h i st tk, tokOf s h i = some tk → tk.waiters = [] → tk.sigs = [] → tk.count + 1 ≤ 65535 →
      signalJob h i st s = lowWater h i (modTok h i (fun k => { k with
        count := k.count + 1, latch := if st ≠ Stat.ok ∧ k.jobTmpl.isSome = true ∧ k.latch = 0 then st else k.latch }) s))

/-- R354-R366: a decode job's search begins, takes its symbols, ends at its budget or with its last symbol; a record decoder accepts records,
resynchronises after a bad one, rejects one whose payload cannot be decoded, and delivers a record with its header, status and pixels. A record of
an item past its deadline is passed over without trace by log entry 97, and what of a payload is tested before its first pixel is log entry 36's. -/
def Obligations.BarcodesAndRecords : Prop :=
  ∀ (m : MemRun) (eng : Nat) (s : State), Quiet s →
    (∀ j u, u = seeEcc m.ecc (taken eng j s) → MayTake 3 eng j s → opOf j.desc = 1 →
      (∀ st, barcodeStart u j = some st → Gives (.barcodeDecode eng m) s (jobDone 3 eng st u))
      ∧ (barcodeStart u j = none → u.sq.poison = [] →
        Gives (.barcodeDecode eng m) s (modRunning 3 eng (fun r => { r with aux := [0] }) u)))
    ∧ (∀ j a u, u = seeEcc m.ecc (taken eng j s) → MayTake 3 eng j s → opOf j.desc = 2 → a = leAt j.desc 8 8 →
      leAt j.desc 2 1 < poolCount u j.task.handle 2 →
      descClean [(0, 0x25), (0x28, 10)] j.desc = true → localExtent u a 64 = Stat.ok → poisonHit u.sq.poison a 64 = false →
      (profileOk (devGet u a 64) = true → Gives (.barcodeLoadProfile eng m) s (jobDone 3 eng Stat.ok
        (setBlock { pool := 2, handle := j.task.handle, ctx := leAt j.desc 2 1, block := devGet u a 64 } u)))
      ∧ (profileOk (devGet u a 64) = false → Gives (.barcodeLoadProfile eng m) s (jobDone 3 eng Stat.badFormat u)))
    ∧ (∀ r y t, runningOn s 3 eng = some r → groupUp s 2 = true → r.done = false → opOf r.job.desc = 1 →
      symbolAllowed (profileOf s r.job) y = true →
      t = count (Reg.bcdSnapCnt.base + 16) y.corrected (bump Reg.bcdSnapCnt.base 1
        (modRunning 3 eng (fun r => { r with aux := [r.aux.headD 0 + 1] }) (barFragment eng 1 (symbolPayload y) s))) →
      (r.aux.headD 0 + 1 < leAt r.job.desc 0x24 1 → Gives (.barcodeSymbolDecoded eng y) s t)
      ∧ (leAt r.job.desc 0x24 1 ≤ r.aux.headD 0 + 1 → Gives (.barcodeSymbolDecoded eng y) s (jobDone 3 eng Stat.ok t)))
    ∧ (∀ r kind bs, runningOn s 3 eng = some r → detMode s = false → r.held = [] → kind < 256 →
      barFragment eng kind bs s = (attach (BitVec.ofNat 32 (leAt r.job.desc 0x1C 4)) kind 0 2 bs none r.job.task s).2)
    ∧ (∀ r steps us located, runningOn s 3 eng = some r → groupUp s 2 = true → r.done = false → opOf r.job.desc = 1 →
      closedAt s r.job steps = false → barBudget s r.job ≤ (if detMode s then steps else us) →
      Gives (.barcodeBudgetExpiry eng steps us located) s (modRunning 3 eng (fun r => { r with cursor := 1 })
        (barFinish eng r 0x41 steps us located (setFlag Reg.bcdStatus.base 0 s))))
    ∧ (∀ r steps us located, runningOn s 3 eng = some r → groupUp s 2 = true → r.done = false → opOf r.job.desc = 1 →
      closedAt s r.job steps = false → (if detMode s then steps else us) < barBudget s r.job →
      Gives (.barcodeBudgetExpiry eng steps us located) s s)
    ∧ (∀ r steps us located, runningOn s 3 eng = some r → groupUp s 2 = true → r.done = false → opOf r.job.desc = 1 →
      itemEnded s (barItem r.job) = true → steps ≠ 0 → steps % 256 = 0 →
      Gives (.barcodeBudgetExpiry eng steps us located) s (modRunning 3 eng (fun r => { r with cursor := 1 })
        (barFinish eng r 0x41 steps us located s)))
    ∧ (∀ r none_ steps us located, runningOn s 3 eng = some r → r.done = false → opOf r.job.desc = 1 → closedAt s r.job steps = true →
      none_ ≠ Stat.itemClosed →
      barFinish eng r none_ steps us located s = jobDone 3 eng Stat.itemClosed (writeAll (leAt r.job.desc 0x28 8)
        (leBytes 1 Stat.itemClosed ++ leBytes 1 (r.aux.headD 0) ++ leBytes 2 0 ++ leBytes 4 steps ++ leBytes 4 us ++ leBytes 4 0) [] s).2)
    ∧ (∀ r steps us located u, u = seeEcc m.ecc s → runningOn s 3 eng = some r → groupUp s 2 = true → r.held = [] →
      (r.done = true → r.aux = [] ∨ r.cursor = 1 →
        GivesThen (.engineJobEnd 3 eng steps us located m) s (endJob 3 eng (noteEnd 3 r.status us u)))
      ∧ (r.done = false → r.aux ≠ [] → r.cursor ≠ 1 → detMode s = false →
        GivesThen (.engineJobEnd 3 eng steps us located m) s (leaveEngine 3 eng us (barFlush eng
          (modRunning 3 eng (fun r => { r with cursor := 1 }) (barFinish eng r 0x40 steps us located u))))))
    ∧ (∀ j t u, u = seeEcc m.ecc (taken eng j s) → MayTake 4 eng j s → opOf j.desc = 1 →
      t = modRunning 4 eng (fun r => { r with aux := List.replicate 8 0 })
        (if bitOf (leAt j.desc 2 1) 0 then
           setStream { handle := j.task.handle, ctx := leAt j.desc 1 1, base := leAt j.desc 8 8, len := leAt j.desc 0x10 8, off := 0 } u
         else u) →
      (∀ st, recordStart u j = some st → Gives (.recordDecode eng m) s (jobDone 4 eng st u))
      ∧ (recordStart u j = none → Gives (.recordDecode eng m) s (advanceRecords m eng ((jobStream t j).len / 8 + 4) t)))
    ∧ (∀ r u, u = seeEcc m.ecc s → runningOn s 4 eng = some r → groupUp s 2 = true →
      Gives (.recordDecode eng m) s (advanceRecords m eng ((jobStream u r.job).len / 8 + 4) u))
    ∧ (∀ f r x h, runningOn s 4 eng = some r → x = jobStream s r.job → r.done = false → r.current = [] →
      (leAt r.job.desc 4 4 ≤ r.num 0 + r.num 1 → advanceRecords m eng (f + 1) s = finishRecords eng Stat.ok s)
      ∧ (r.num 0 + r.num 1 < leAt r.job.desc 4 4 → x.len < x.off + 32 → advanceRecords m eng (f + 1) s
          = finishRecords eng Stat.ok (seekStream r.job (max x.off x.len) (count (Reg.recSnapCnt.base + 16) (x.len - x.off) s)))
      ∧ (r.num 0 + r.num 1 < leAt r.job.desc 4 4 → x.off + 32 ≤ x.len → ∀ u, runRead m (x.base + x.off) 32 s = ({ status := Stat.ok, data := h }, u) →
        (recMagic h = false → advanceRecords m eng (f + 1) s = advanceRecords m eng f (resyncFrom m eng r.job x (x.off + 8) u))
        ∧ (recMagic h = true → recCheck h = false → advanceRecords m eng (f + 1) s
            = advanceRecords m eng f (resyncFrom m eng r.job x (x.off + 8) (rejectRecord eng r.job.desc h false u)))
        ∧ (recMagic h = true → recCheck h = true → x.off + 32 + leAt h 8 4 ≤ x.len → leAt h 4 1 = 1 → recFields h = true →
            0x40 + recPixels h ≤ recRoom u r.job → leAt h 8 4 = recPixels h →
            advanceRecords m eng (f + 1) s = advanceRecords m eng f
              (if lateItem u (recItem h) then seekStream r.job (recNext x.off h) u else acceptRecord eng r.job x h u))
        ∧ (∀ bs v, recMagic h = true → recCheck h = true → x.off + 32 + leAt h 8 4 ≤ x.len → leAt h 4 1 = 2 → recFields h = true →
            recPixels h ≠ 0 → 0x40 + recPixels h ≤ recRoom u r.job → lateItem u (recItem h) = false →
            runRead m (x.base + x.off + 32) (leAt h 8 4) u = ({ status := Stat.ok, data := bs }, v) →
            (jlsDecode bs (leAt h 5 1) (leAt h 6 2) (leAt h 0x12 2) = none → advanceRecords m eng (f + 1) s = advanceRecords m eng f
              (seekStream r.job (recNext x.off h) (rejectRecord eng r.job.desc h true (setFlag Reg.recStatus.base 3 v))))
            ∧ (jlsDecode bs (leAt h 5 1) (leAt h 6 2) (leAt h 0x12 2) ≠ none →
              advanceRecords m eng (f + 1) s = advanceRecords m eng f (acceptRecord eng r.job x h v)))))
    ∧ (∀ r h bs px st a u s1 t, runningOn s 4 eng = some r → groupUp s 2 = true → r.done = false → h = r.current → h ≠ [] →
      bitOf (leAt r.job.desc 2 1) 1 = false → runRead m (r.num 4) (leAt h 8 4) (seeEcc m.ecc s) = ({ status := Stat.ok, data := bs }, u) →
      recDecode h bs = (px, true) → st = (if crc32c bs = leAt h 0x1C 4 then Stat.ok else 0x42) →
      a = leAt r.job.desc 0x18 8 + (r.num 0 + r.num 1) * leAt r.job.desc 0x20 4 →
      writeRuns m [(a, h), (a + 0x20, leBytes 1 st), (a + 0x40, px)] (if st = Stat.ok then u else setFlag Reg.recStatus.base 2 u) = (Stat.ok, s1) →
      t = closeRecord eng r st (crc64 0 px) s1 →
      (r.num 0 + r.num 1 + 1 < leAt r.job.desc 4 4 → Gives (.recordComplete eng m) s t)
      ∧ (leAt r.job.desc 4 4 ≤ r.num 0 + r.num 1 + 1 → Gives (.recordComplete eng m) s (finishRecords eng Stat.ok t)))

/-- R367-R376: a queue is configured, opens a batch when it gets a token, gives a ready sample its slot, closes the batch when it is full, flushed or
late, and signals the oldest when every slot is settled. That a sample of an item past its deadline leaves nothing at all is log entry 97's reading
of R19. -/
def Obligations.CaddyBatches : Prop :=
  ∀ (m : MemRun) (s : State), Quiet s →
    (∀ j, MayTake 7 0 j s → opOf j.desc = 1 →
      (∀ st, configureStart s j = some st → Gives .caddyConfigure s (jobDone 7 0 st (taken 0 j s)))
      ∧ (configureStart s j = none → Gives .caddyConfigure s (jobDone 7 0 Stat.ok
          (modCaddy j.task.handle (leAt j.desc 1 1) (fun c => { c with nextCfg := some j.desc })
            (ensureQueue j.task.handle (leAt j.desc 1 1) (taken 0 j s))))))
    ∧ (∀ j n a u, u = seeEcc m.ecc (taken 0 j s) → MayTake 7 0 j s → opOf j.desc = 2 → n = leAt j.desc 0x28 2 → a = leAt j.desc 0x20 8 →
      firstStatus (caddyFields u j) = none →
      (detMode u = false → n ≤ 256 → Gives (.caddyWindow m) s (jobDone 7 0 Stat.ok u))
      ∧ (256 < n → Gives (.caddyWindow m) s (jobDone 7 0 Stat.badFormat u))
      ∧ (detMode u = true → n ≠ 0 → n ≤ 256 → localExtent u a (8 * n) = Stat.ok → poisonHit u.sq.poison a (8 * n) = false →
        Gives (.caddyWindow m) s (jobDone 7 0 Stat.ok (fillWindow j.task.handle (leAt j.desc 1 1)
          (modCaddy j.task.handle (leAt j.desc 1 1) (fun c => { c with window := c.window ++ windowSamples n (devGet u a (8 * n)) })
            (ensureQueue j.task.handle (leAt j.desc 1 1) u))))))
    ∧ (∀ j b, MayTake 7 0 j s → opOf j.desc = 3 → firstStatus (caddyFields s j) = none →
      ((caddyOf s j.task.handle (leAt j.desc 1 1)).bind (·.open_) = some b → b.begun = true → b.isWindow = false →
        Gives .caddyFlush s (jobDone 7 0 Stat.ok (modBatch j.task.handle (leAt j.desc 1 1) b.no
          (fun b => { b with closed := true, flags := b.flags ||| 2 }) (taken 0 j s))))
      ∧ ((caddyOf s j.task.handle (leAt j.desc 1 1)).bind (·.open_) = none → Gives .caddyFlush s (jobDone 7 0 Stat.ok (taken 0 j s))))
    ∧ (∀ q c, groupUp s 1 = true → queueAt s q = some c → caddyOf s c.handle c.q = some c →
      (c.granted = true → Gives (.caddyBatchOpen q) s (openBatch c.handle c.q s))
      ∧ (c.granted = false → c.waiting = true ∨ c.open_.isSome = true ∨ bitOf (leAt c.latest 2 1) 0 = false → Gives (.caddyBatchOpen q) s s)
      ∧ (∀ tk, c.granted = false → c.waiting = false → c.open_ = none → bitOf (leAt c.latest 2 1) 0 = true → detMode s = false →
        offers s c ≠ [] → tokOf s c.handle (leAt c.latest 0x1E 2) = some tk → tk.waiters = [] →
        (tk.count = 0 → Gives (.caddyBatchOpen q) s
          (modTok c.handle (leAt c.latest 0x1E 2) (fun k => { k with waiters := [{ who := .caddy c.q, amt := 1, item := none }] })
            (modCaddy c.handle c.q (fun c => { c with waiting := true }) s)))
        ∧ (tk.count ≠ 0 → ∃ t x, Gives (.caddyBatchOpen q) s t
            ∧ (tokOf t c.handle (leAt c.latest 0x1E 2)).map (·.count) = some (tk.count - 1) ∧ caddyOf t c.handle c.q = some x
            ∧ x.cfg = c.latest ∧ x.nextCfg = none ∧ x.batchNo = (c.batchNo + 1) % 2 ^ 32 ∧ x.granted = false ∧ x.waiting = false
            ∧ x.batches = c.batches ++ [{ no := c.batchNo, cfg := c.latest, slots := [], closed := false, flags := 0 }])))
    ∧ (∀ q c o u, u = seeEcc m.ecc s → groupUp s 1 = true → queueAt s q = some c →
      (offers u c).find? (fun o => lateItem u o.item || placeOf u c o != .later) = some o →
      (∀ b i, lateItem u o.item = false → placeOf u c o = .slot b i → o.source = 0 → Gives (.caddySampleSlot q m) s (cropToSlot c b i o u))
      ∧ (∀ b i, lateItem u o.item = false → placeOf u c o = .slot b i → o.source ≠ 0 → Gives (.caddySampleSlot q m) s (recordToSlot c b i o u))
      ∧ (lateItem u o.item = false → placeOf u c o = .refused → Gives (.caddySampleSlot q m) s (refuseSample c o u))
      ∧ (lateItem u o.item = true → o.source = 0 → Gives (.caddySampleSlot q m) s (nextBox o.eng u))
      ∧ (lateItem u o.item = true → o.source ≠ 0 →
        Gives (.caddySampleSlot q m) s (modRunning 4 o.eng (fun r => { r with current := [] }) u)))
    ∧ (∀ q c, groupUp s 1 = true → queueAt s q = some c → offers (seeEcc m.ecc s) c = [] →
      Gives (.caddySampleSlot q m) s (seeEcc m.ecc s))
    ∧ (∀ c o b, c.open_ = some b → b.isWindow = false →
      (b.slots.length < cfgSize b.cfg → placeOf s c o = .slot b b.slots.length) ∧ (cfgSize b.cfg ≤ b.slots.length → placeOf s c o = .later))
    ∧ (∀ q c b, groupUp s 1 = true → queueAt s q = some c → c.open_ = some b → b.isWindow = false →
      (b.begun = true → leAt b.cfg 0x18 4 ≠ 0 → Gives (.caddyBatchTimeout q) s (bump Reg.cadSnapCnt.base 3 (setFlag Reg.cadStatus.base 2
        (modBatch c.handle c.q b.no (fun b => { b with closed := true, flags := b.flags ||| 1 }) s))))
      ∧ (b.begun = false ∨ leAt b.cfg 0x18 4 = 0 → Gives (.caddyBatchTimeout q) s s))
    ∧ (∀ q c b bs st s1, groupUp s 1 = true → queueAt s q = some c → c.batches = b :: bs → b.shut = true → b.settled = true →
      writeAll (batchAddr b) (batchHeader b) [] s = (st, s1) →
      GivesThen (.caddyBatchReady q) s (signal c.handle (leAt b.cfg 0x1C 2) 1 none (some (.caddy c.q))
        (bump Reg.cadSnapCnt.base 0 (modCaddy c.handle c.q (fun c => { c with batches := c.batches.drop 1 }) s1))).2)
    ∧ (∀ q c b bs, groupUp s 1 = true → queueAt s q = some c → c.batches = b :: bs → b.shut = false ∨ b.settled = false →
      Gives (.caddyBatchReady q) s s)
    ∧ (∀ b, (batchHeader b).length = 0x1040 ∧ leAt (batchHeader b) 0 4 = b.no % 2 ^ 32 ∧ leAt (batchHeader b) 4 2 = b.slots.length % 2 ^ 16
        ∧ leAt (batchHeader b) 6 2 = cfgSize b.cfg % 2 ^ 16 ∧ leAt (batchHeader b) 8 2 = b.flags % 2 ^ 16)

/-- R246-R248, R377-R382, R396, R399: the check-value units, the hash engine and the DMA channels do their jobs; the check column of R377 holds; a
sample's hash enters the list of its item. That a periodic scan's pass leaves the context's running value alone, the value it keeps where a scan
does not go on from it, is the model's choice (log entry 31). -/
def Obligations.ChecksHashesAndCopies : Prop :=
  ∀ (m : MemRun) (eng : Nat) (j : Job) (x w : CheckCtx) (s u : State), Quiet s → x = jobCheck s j →
    u = seeEcc m.ecc (taken eng j s) → w = jobCheck u j →
    (∀ (v : Nat) (h c : Nat), v = 0 ∨ v = 1 ∨ v = 2 ∨ v = 3 →
      let y := configured (CheckCtx.fresh h c) (List.replicate 4 0 ++ leBytes 1 v ++ List.replicate 59 0)
      let r := finished y (feedAll y y.init [0x31, 0x32, 0x33, 0x34, 0x35, 0x36, 0x37, 0x38, 0x39])
      (v = 0 → r = 0xE3069283) ∧ (v = 1 → r = 0xCBF43926) ∧ (v = 2 → r = 0x6C40DF5F0B497347) ∧ (v = 3 → r = 0x091E01DE))
    ∧ (MayTake 6 eng j s → opOf j.desc = 1 → firstStatus (checkFields s j [(4, 3), (0x18, 0x18)]) = none →
      (leAt j.desc 4 1 < 4 ∨ (leAt j.desc 4 1 = 4 ∧ 8 ≤ leAt j.desc 5 1 ∧ leAt j.desc 5 1 ≤ 64) →
        Gives (.crcConfigure eng) s (jobDone 6 eng Stat.ok (setCheck (configured x j.desc) (taken eng j s))))
      ∧ (4 < leAt j.desc 4 1 ∨ (leAt j.desc 4 1 = 4 ∧ (leAt j.desc 5 1 < 8 ∨ 64 < leAt j.desc 5 1)) →
        Gives (.crcConfigure eng) s (jobDone 6 eng Stat.badFormat (taken eng j s))))
    ∧ (∀ f a n v t, MayTake 6 eng j s → opOf j.desc = 2 → firstStatus (checkFields u j [(2, 1), (8, 0x20)]) = none → f = leAt j.desc 2 1 →
      a = leAt j.desc 8 8 → n = leAt j.desc 0x10 8 → v = feedAll w (if bitOf f 0 then w.init else w.value) (devGet u a n) →
      t = count (Reg.crcSnapCnt.base + 8) n (bump Reg.crcSnapCnt.base 0 (setCheck { w with value := v } u)) →
      (n = 0 → Gives (.crcScan eng m) s (jobDone 6 eng Stat.ok u))
      ∧ (n ≠ 0 → localExtent u a n = Stat.ok → poisonHit u.sq.poison a n = false → bitOf f 2 = false →
        (bitOf f 1 = false ∨ finished w v = leAt j.desc 0x18 8 → Gives (.crcScan eng m) s (jobDone 6 eng Stat.ok t))
        ∧ (bitOf f 1 = true → finished w v ≠ leAt j.desc 0x18 8 →
          Gives (.crcScan eng m) s (jobDone 6 eng 0x42 (noteMismatch j.task.handle (leAt j.desc 1 1) a n t))))
      ∧ (∀ st s1, n ≠ 0 → localExtent u a n = Stat.ok → poisonHit u.sq.poison a n = false → bitOf f 2 = true → bitOf f 1 = false →
        localExtent u (leAt j.desc 0x20 8) 8 = Stat.ok → writeAll (leAt j.desc 0x20 8) (leBytes 8 v) [] t = (st, s1) →
        Gives (.crcScan eng m) s (jobDone 6 eng st s1)))
    ∧ (MayTake 6 eng j s → opOf j.desc = 3 → firstStatus (checkFields s j [(0x18, 8)]) = none →
      Gives (.crcSetValue eng) s (jobDone 6 eng Stat.ok (setCheck { x with value := leAt j.desc 0x18 8 % 2 ^ x.width } (taken eng j s))))
    ∧ (∀ st s1, MayTake 6 eng j s → opOf j.desc = 4 → firstStatus (checkFields u j [(0x20, 8)]) = none →
      localExtent u (leAt j.desc 0x20 8) 8 = Stat.ok → writeAll (leAt j.desc 0x20 8) (leBytes 8 w.value) [] u = (st, s1) →
      Gives (.crcReadValue eng m) s (jobDone 6 eng st s1))
    ∧ (MayTake 6 eng j s → opOf j.desc = 5 → firstStatus (checkFields s j [(8, 0x18), (0x34, 4)]) = none → leAt j.desc 0x10 8 ≠ 0 →
      localExtent s (leAt j.desc 8 8) (leAt j.desc 0x10 8) = Stat.ok → x.periodic = none →
      Gives (.crcPeriodicScan eng) s (modEng (fun e => { e with running := dropFirst (fun r => r.job.kind == 6 && r.eng == eng) e.running })
        (setCheck { x with periodic := some j } (taken eng j s))))
    ∧ (MayTake 6 eng j s → opOf j.desc = 6 → firstStatus (checkFields u j []) = none →
      (w.periodic = none → Gives (.crcCancelPeriodic eng m) s (jobDone 6 eng Stat.ok u))
      ∧ (∀ p, w.periodic = some p → GivesThen (.crcCancelPeriodic eng m) s (jobDone 6 eng Stat.ok (resumeEnq 6
          (signalJob p.task.handle (jobToken 6 p.desc) Stat.ok (setCheck { w with periodic := none } u))))))
    ∧ (∀ ctx late y p v t z, z = seeEcc m.ecc s → groupUp s 3 = true → (s.eng.running.filter fun r => r.job.kind == 6).length < 4 →
      late = true ∨ (s.eng.jobs.any (fun j => j.kind == 6) = false ∧ s.eng.loader.any (fun l => l.checks != 0) = false) → s.eng.checks.find? (fun x => x.periodic.isSome && devCheck s x == ctx) = some y →
      y.periodic = some p → poisonHit z.sq.poison (leAt p.desc 8 8) (leAt p.desc 0x10 8) = false →
      v = feedAll y y.init (devGet z (leAt p.desc 8 8) (leAt p.desc 0x10 8)) →
      t = count (Reg.crcSnapCnt.base + 8) (leAt p.desc 0x10 8)
        (if late then bump Reg.crcSnapCnt.base 4 (bump Reg.crcSnapCnt.base 3 z) else bump Reg.crcSnapCnt.base 3 z) →
      (finished y v = leAt p.desc 0x18 8 → Gives (.crcPeriodicPass ctx late m) s t)
      ∧ (finished y v ≠ leAt p.desc 0x18 8 →
        Gives (.crcPeriodicPass ctx late m) s (noteMismatch y.handle y.ctx (leAt p.desc 8 8) (leAt p.desc 0x10 8) t)))
    ∧ (∀ n k a es msg st s1 t y, y = seeEcc m.ecc (taken 0 j s) → s.eng.samples = [] → MayTake 5 0 j s → opOf j.desc = 1 → descClean [(0, 1), (2, 2), (8, 0x14), (0x30, 2)] j.desc = true →
      n = leAt j.desc 2 2 → k = leAt j.desc 0x18 4 → a = leAt j.desc 8 8 → 0 < n → n ≤ 64 → 0 < k → k ≤ 512 →
      sqExtent y a (16 * n) = Stat.ok → sqExtent y (leAt j.desc 0x10 8) k = Stat.ok → y.sq.poison = [] →
      es = ((List.range n).map fun i => (leAt (devGet y a (16 * n)) (16 * i) 8, leAt (devGet y a (16 * n)) (16 * i + 8) 8)) →
      (∀ e ∈ es, localExtent y e.1 e.2 = Stat.ok) → msg = es.flatMap (fun e => devGet y e.1 e.2) →
      t = count (Reg.hshSnapCnt.base + 4) msg.length (setCtr (Reg.hshSnapCnt.base + 20)
        (max ((timeUnits s.tim.now - timeUnits j.at_) / 2 ^ 32 / 1000) (ctrOf y (Reg.hshSnapCnt.base + 20))) y) →
      writeAll (leAt j.desc 0x10 8) (shake256 msg k) [] t = (st, s1) → Gives (.hashShake256 m) s (jobDone 5 0 st s1))
    ∧ (s.eng.samples ≠ [] → Gives (.hashShake256 m) s s)
    ∧ (∀ ch y, y = seeEcc m.ecc (taken ch j s) → MayTake 8 ch j s → opOf j.desc = 1 →
      (∀ st, dmaStart y j = some st → Gives (.dmaCopy ch none m) s (jobDone 8 ch st y))
      ∧ (dmaStart y j = none → ∀ st i s1, dmaRows j.desc (leAt j.desc 0x18 4) 0 y = ((st, i), s1) →
        isPeer (leAt j.desc 8 8) = false → isPeer (leAt j.desc 0x10 8) = false →
        Gives (.dmaCopy ch none m) s (jobDone 8 ch st
          (modRunning 8 ch (fun r => { r with cursor := i }) (count (Reg.dmaSnapCnt.base + 4) (i * leAt j.desc 4 4) s1)))))
    ∧ (∀ d n i, memAwake s = true → regionOf (leAt d 8 8 + i * leAt d 0x1C 4) = .lpddr → regionOf (leAt d 0x10 8 + i * leAt d 0x20 4) = .lpddr →
      leAt d 8 8 + i * leAt d 0x1C 4 + leAt d 4 4 ≤ 0x2000000000 → leAt d 0x10 8 + i * leAt d 0x20 4 + leAt d 4 4 ≤ 0x2000000000 →
      0 < leAt d 4 4 → s.sq.poison = [] →
      dmaRows d (n + 1) i s = dmaRows d n (i + 1)
        (devPut (leAt d 0x10 8 + i * leAt d 0x20 4) (devGet s (leAt d 8 8 + i * leAt d 0x1C 4) (leAt d 4 4)) s))
    ∧ (∀ w ws, groupUp s 3 = true → s.eng.samples = w :: ws →
      Gives .sampleHashDone s (modItem w.item (fun i => { addSample (sampleRef w.summary) i with lastIn := some (copyPos s i.posSrc, s.tim.now) })
        (count (Reg.hshSnapCnt.base + 4) w.summary.length (modEng (fun e => { e with samples := ws }) s))))

/-- R20, R21, R407-R417, R510: what quadrature changes, Z edges, serial frames and the observer's update leave in an encoder channel, and what the
companion link's refreshes leave on the other die, which takes none while a system or power-on reset is held (R523).
Which values the copies take, how they run on, and that a restarted observer keeps its update count are log entry 57's. -/
def Obligations.EncodersAndCopies : Prop :=
  ∀ (n : Nat) (e : Encoder) (s : State), Quiet s → n < 4 → e = encOf s n → n < s.ouv.encs.length →
    (∀ a b step, s.ouv.powered = true → encMode s n = 1 → step = (quadPlace a b + 4 - quadPlace e.a e.b) % 4 →
      (step = 0 → Gives (.encQuadChange n a b) s (modEnc n (fun e => { e with a := a, b := b }) s))
      ∧ (step = 1 → Gives (.encQuadChange n a b) s
          (movePos n (if encInvert s n then -1 else 1) (modEnc n (fun e => { e with a := a, b := b }) s)))
      ∧ (step = 2 → Gives (.encQuadChange n a b) s (setFlag (Reg.encStatus.off n 0) 3 (modEnc n (fun e => { e with a := a, b := b }) s)))
      ∧ (step = 3 → Gives (.encQuadChange n a b) s
          (movePos n (if encInvert s n then 1 else -1) (modEnc n (fun e => { e with a := a, b := b }) s))))
    ∧ (∀ d, (encOf (movePos n d s) n).pos = e.pos + BitVec.ofInt 48 d ∧ (encOf (movePos n d s) n).zpos = e.zpos)
    ∧ (∀ t, t = followDirection n s → e.reverse = false →
      (0 < posDiff e.pos e.peak → t = modEnc n (fun e => { e with peak := e.pos }) s)
      ∧ (posDiff e.pos e.peak ≤ 0 → -(encHyst s n : Int) < posDiff e.pos e.peak → t = s)
      ∧ (posDiff e.pos e.peak ≤ -(encHyst s n : Int) → (encOf t n).reverse = true ∧ (encOf t n).peak = e.pos
          ∧ flagOf t (Reg.encStatus.off n 0) 0 = true))
    ∧ (s.ouv.powered = true → encMode s n = 1 →
      Gives (.encZEdge n) s (bump (Reg.encSnapCnt.off n 0) 1 (setFlag (Reg.encStatus.off n 0) 1 (modEnc n (fun e => { e with zpos := e.pos }) s))))
    ∧ (s.ouv.powered = true → 2 ≤ encMode s n →
      Gives (.encSerialRead n) s (emit (.serialClock n) (modEnc n (fun e => { e with reading := true }) s)))
    ∧ (∀ raw sensor v t, s.ouv.powered = true → 2 ≤ encMode s n → e.reading = true →
      t = modEnc n (fun e => { e with reading := false }) s →
      v = (if encMode s n = 2 ∧ rdB s (Reg.encSer.off n 0) 30 = true then grayDecode (raw % 2 ^ encBits s n) else raw % 2 ^ encBits s n) →
      Gives (.encSerialFrame n raw false sensor) s (bump (Reg.encSnapCnt.off n 0) 2 (setFlag (Reg.encStatus.off n 0) 2 t))
      ∧ Gives (.encSerialFrame n raw true sensor) s
          (takeReading n v (if encMode s n = 3 then modEnc n (fun e => { e with biss := sensor % 4 }) t else t)))
    ∧ (∀ v, (e.last = none → (encOf (takeReading n v s) n).pos = BitVec.ofNat 48 v)
        ∧ (∀ l d, e.last = some l → v < 2 ^ encBits s n → l < 2 ^ encBits s n → d = (v : Int) - l → -(2 ^ (encBits s n - 1) : Int) ≤ d →
            d < 2 ^ (encBits s n - 1) →
            (encOf (takeReading n v s) n).pos = e.pos + BitVec.ofInt 48 (if encInvert s n then -d else d)))
    ∧ (s.ouv.powered = true → encMode s n ≠ 0 → Gives (.observerUpdate n) s (setLeads n (observe n s)))
    ∧ (∀ err v bw, err = (BitVec.ofNat 64 (e.pos.toNat * 65536) - e.phat).toInt → bw = obsBw s n →
      v = clampI (-(2 ^ 39)) (2 ^ 39 - 1) (divHalfEven (e.vhat * 2 ^ 24 + obsKi bw * err) (2 ^ 24)) → (e.updates + 1) % 1000 ≠ 0 →
      (err.natAbs ≤ 65535 * 65536 → observe n s = modEnc n (fun e => { e with
        updates := e.updates + 1, vhat := v
        phat := BitVec.ofInt 64 (divHalfEven ((e.phat.toNat : Int) * 2 ^ 40 + v * 2 ^ 24 + obsKp bw * err) (2 ^ 40)) }) s)
      ∧ (65535 * 65536 < err.natAbs → observe n s = bump (Reg.encSnapCnt.off n 0) 3 (modEnc n (fun e => { e with
          updates := e.updates + 1, vhat := 0, ahat := 0, phat := BitVec.ofNat 64 (e.pos.toNat * 65536) }) s)))
    ∧ (∀ t, wideUp s = true → s.ouv.powered = true → t = { s with
        refreshLost := false
        copies := s.ouv.encs.map fun e => { pos := e.pos, vhat := e.vhat, reverse := e.reverse, frac := 0 } } →
      Gives .companionPositionRefresh s (gateOpenAll (if s.refreshLost then postEvent 0x0C 7 0 0 0 (leBytes 1 1) t else t)))
    ∧ (∀ t, wideUp s = true → t = { s with refreshLost := true, copies := s.copies.map EncCopy.runOn } →
      Gives .companionRefreshLost s (gateOpenAll (if s.refreshLost then t else postEvent 0x0C 7 0 0 0 (leBytes 1 0) t)))
    ∧ (wideUp s = true → s.ouv.powered = true → Gives .companionTimeRefresh s (modOuv (fun o => { o with time := s.tim.now }) s))
    ∧ (wideUp s = true → s.ouv.powered = true → Gives .companionFrameResend s (wr Reg.rasLast.base 10 (setFlag Reg.rasStatus.base 7 s)))
    ∧ (wideUp s = false → Gives .companionPositionRefresh s s ∧ Gives .companionRefreshLost s s ∧ Gives .companionTimeRefresh s s
      ∧ Gives .companionFrameResend s s)

/-- R418-R422, R435, R439: an input's stable period begins and ends at its line's changes, an accepted edge is latched, counted and queued, an
output follows its sources within its fused limits, and a write of DIO_CFG changes a direction only while nothing uses the channel. That an output
that was cut or suppressed stays off until its sources release it, and where a new input starts, are log entry 58's. -/
def Obligations.FieldInputsAndOutputs : Prop :=
  ∀ (w : Writer) (n : Nat) (v : Word) (i : Input) (o : Output) (s : State), Quiet s → n < 32 → i = inputOf s n → o = outputOf s n →
    (∀ level, i.raw = level → Gives (.dioRawTransition n level) s s)
    ∧ (∀ level, i.raw ≠ level →
      (s.ouv.powered = true → isOut s n = false → level ≠ i.level → Gives (.dioRawTransition n level) s
        (modInput n (fun i => { i with raw := level, start := some (s.ouv.time, fieldPos s (dioEnc s n)) }) s))
      ∧ (s.ouv.powered = false ∨ isOut s n = true ∨ level = i.level → Gives (.dioRawTransition n level) s
        (modInput n (fun i => { i with raw := level, start := none }) s)))
    ∧ (∀ t p e u, i.start = some (t, p) → s.ouv.powered = true → isOut s n = false → i.raw ≠ i.level →
      e = { chan := n, level := i.raw, time := t, pos := p, opens := [], closes := [] } →
      u = bump Reg.dioSnapCnt.base 0 (wr (Reg.dioEdge.off n 3) (p.toNat / 2 ^ 32 + 65536 * b2n i.raw) (wr (Reg.dioEdge.off n 2) p.toNat
        (wr (Reg.dioEdge.off n 1) t.sec (wr (Reg.dioEdge.off n 0) t.ns
          (modInput n (fun i => { i with level := i.raw, start := none }) s))))) →
      Gives (.dioEdgeAccept n) s
        (queueEdge e (((sourcesAt u n).filter fun k => !opening u i.raw k).foldl (fun u k => closeTrains k (edgePos u k e) u) u)))
    ∧ (∀ e, (64 ≤ s.ouv.edgeQ.length →
          queueEdge e s = modOuv (fun o => { o with edgesLost := o.edgesLost + 1 }) (bump Reg.dioSnapCnt.base 1 s))
        ∧ (∀ opens u x, s.ouv.edgeQ.length < 64 → opens = (sourcesAt s e.chan).filter (opening s e.level) →
          u = modOuv (fun o => { o with openOrd := opens.foldl (fun l k => modAt k (· + 1) l) o.openOrd }) s →
          x = { e with opens := opens.map (fun k => (k, u.ouv.openOrd.getD k 0))
                       closes := (sourcesAt s e.chan).filter fun k => !opening s e.level k } →
          (bitOf (dioCfg s e.chan) 5 = false →
            queueEdge e s = settleEdges (modOuv (fun o => { o with edgeQ := insertEdge x o.edgeQ }) u))
          ∧ (bitOf (dioCfg s e.chan) 5 = true → queueEdge e s = postEvent 0x0C 5 e.chan (posField (dioEnc s e.chan) e.pos) 0
              (leBytes 1 (b2n e.level) ++ leBytes 1 (dioEnc s e.chan))
              (settleEdges (modOuv (fun o => { o with edgeQ := insertEdge x o.edgeQ }) u))))
        ∧ (∀ q, ∃ a b, q = a ++ b ∧ insertEdge e q = a ++ e :: b ∧ (∀ x ∈ a, x.time = e.time → x.chan ≤ e.chan)
            ∧ ∀ x, b.head? = some x → x.time = e.time ∧ e.chan < x.chan))
    ∧ (MayWrite s w Reg.dioOut.base v → s.ouv.powered = true →
      Gives (.dioOutWrite w v) s (driveAll (modOuv (fun o => { o with outputs := o.outputs.zipIdx.map (fun x =>
        if v.toNat.testBit x.2 = (rd s Reg.dioOut.base).testBit x.2 then x.1 else { x.1 with fuse := false }) })
          (wr Reg.dioOut.base v.toNat s))))
    ∧ (∀ used, used = (isOut s n && !safeOn s && wantsOn s n) →
      (used = false → driveOut n s = modOutput n (fun x => { x with
        on := false, locked := o.locked && wantsOn s n, lastOff := if o.on then some s.ouv.time else x.lastOff }) s)
      ∧ (used = true → o.on = true ∨ o.locked = true → driveOut n s = s)
      ∧ (used = true → o.on = false → o.locked = false → startLimit s n = none → driveOut n s = modOutput n (fun x => { x with
          on := true, since := s.ouv.time, starts := s.ouv.time :: x.starts.filter fun t => decide (nsSince t s.ouv.time < 1000000000) }) s)
      ∧ (∀ l, used = true → o.on = false → o.locked = false → startLimit s n = some l →
          driveOut n s = governed n l (modOutput n (fun x => { x with locked := true }) s)))
    ∧ (∀ gap rate, gap = bits (tvRead s (Reg.krbLim.off n 0)) 16 16 * 100000 → rate = bits (tvRead s (Reg.krbRate.off n 0)) 0 16 →
      (startLimit s n = some 1 ↔ gap ≠ 0 ∧ ∃ t, o.lastOff = some t ∧ nsSince t s.ouv.time < gap)
      ∧ (startLimit s n = none → rate = 0 ∨ (o.starts.filter fun t => decide (nsSince t s.ouv.time < 1000000000)).length < rate))
    ∧ (∀ t, t = modOutput n (fun x => { x with fuse := false }) (wr (Reg.dioCfg.off n 0) (v.toNat % 64) s) →
      MayWrite s w (Reg.dioCfg.off n 0) v → s.ouv.powered = true →
      (isOut s n = v.toNat.testBit 0 → Gives (.dioCfgWrite w n v) s (driveOut n t))
      ∧ (isOut s n ≠ v.toNat.testBit 0 → dirFixed s n = true → Gives (.dioCfgWrite w n v) s (setFlag Reg.dioStatus.base 3 s))
      ∧ (isOut s n = true → v.toNat.testBit 0 = false → dirFixed s n = false → Gives (.dioCfgWrite w n v) s
          (driveOut n (modInput n (fun x => { x with
            level := false, start := if i.raw then some (s.ouv.time, fieldPos s (bits v.toNat 2 2)) else none }) t)))
      ∧ (isOut s n = false → v.toNat.testBit 0 = true → dirFixed s n = false → Gives (.dioCfgWrite w n v) s
          (driveOut n (modInput n (fun x => { x with level := false, start := none }) t))))
    ∧ (s.ouv.powered = true → isOut s n = true →
      (rdB s Reg.dioOvl.base n = false → Gives (.outputOverload n) s (postEvent 0x0C 4 n (chanPos s n) 0 []
        (bump Reg.dioSnapCnt.base 3 (setFlag Reg.dioStatus.base 2 (wr Reg.dioOvl.base (rd s Reg.dioOvl.base ||| 2 ^ n) s)))))
      ∧ (rdB s Reg.dioOvl.base n = true → Gives (.outputOverload n) s s))
    ∧ (s.ouv.powered = true → Gives (.outputOverloadClear n) s (wrF Reg.dioOvl.base n 1 0 s))
    ∧ (s.ouv.powered = true → o.on = true → safeOn s = false → bits (tvRead s (Reg.krbLim.off n 0)) 0 16 ≠ 0 →
      Gives (.outputMaxPulseCut n) s
        (governed n 0 (modOutput n (fun x => { x with on := false, locked := true, lastOff := some s.ouv.time }) s)))
    ∧ (∀ l, governed n l s = postEvent 3 4
        (match s.ouv.entries.find? (pulsing n) with | some e => e.item.toNat | none => 0)
        (match s.ouv.entries.find? (pulsing n) with | some e => posField e.enc (fieldPos s e.enc) | none => chanPos s n) 0
        (leBytes 1 n ++ leBytes 1 l) (bump Reg.krbSnapCnt.base 4 (setFlag Reg.krbStatus.base 3 s)))
    ∧ (s.ouv.powered = false →
      Gives (.dioEdgeAccept n) s s ∧ Gives (.outputOverload n) s s ∧ Gives (.outputOverloadClear n) s s ∧ Gives (.outputMaxPulseCut n) s s
      ∧ (MayWrite s w Reg.dioOut.base v → Gives (.dioOutWrite w v) s s)
      ∧ (MayWrite s w (Reg.dioCfg.off n 0) v → Gives (.dioCfgWrite w n v) s s))

/-- R424-R430, R432-R434: a fire entry takes a place or is refused, is judged late on arrival, fires with its pulse and ends; a train begins at the
first position ahead, triggers once for each update and takes its stop, and ends. (A lead on the microsecond position uses the speed of log entry
24; what a fire leaves whose output is held off, and how many positions a train counts as skipped, are log entry 58's.) -/
def Obligations.KerbFiresAndTrains : Prop :=
  ∀ (e : Nat) (k : KerbEntry) (m : KerbMsg) (s t : State), Quiet s → e < s.ouv.entries.length → s.ouv.entries.length = 256 →
    s.ouv.outputs.length = 32 → k = entryOf s e → s.ouv.powered = true →
    (s.toKerb.find? (fun x => x.train == false) = some m → t = { s with toKerb := dropFirst (fun x => x.train == false) s.toKerb } →
      Gives .kerbFireEntryArrive s (arriveFire m t))
    ∧ (s.toKerb.find? (fun x => x.train == true) = some m → t = { s with toKerb := dropFirst (fun x => x.train == true) s.toKerb } →
      Gives .kerbTrainArrive s (arriveTrain m t))
    ∧ (∀ code, (code = 2 ∧ (∀ x ∈ s.ouv.entries, x.kind ≠ 0))
          ∨ (code = 3 ∧ (∃ x ∈ s.ouv.entries, x.kind = 0) ∧ (m.train = false ∧ isOut s m.chan = false ∨ safeOn s = true)) →
        t = postEvent 3 code m.item.toNat (posField m.enc (fieldPos s m.enc)) 0 (leBytes 1 m.chan ++ leBytes 1 (if m.train then 2 else 1))
          (bump Reg.krbSnapCnt.base 3 (setFlag Reg.krbStatus.base (code - 1) s)) →
        (m.train = false → arriveFire m s = t) ∧ (m.train = true → arriveTrain m s = t))
    ∧ (∀ lat pul k', placeEntry s m = .inl e → lat = rdF s (Reg.krbOut.off m.chan 0) 0 20 → pul = rd s (Reg.krbPulse.off m.chan 0) →
      k' = { KerbEntry.free with
        kind := 1, chan := m.chan, flags := b2n (bitOf pul 31) + 2 * b2n m.default_, item := m.item, enc := m.enc, src := m.src
        target := m.target, param := lat, count := bits pul 0 24, lead := leadOf s (fieldSpeed s m.enc) lat, judge := !forward s m.enc } →
      (forward s m.enc = true → reached (fieldPos s m.enc) (actOf k') = true →
          arriveFire m s = judgeEntry e (modEntry e (fun _ => k') s))
      ∧ (forward s m.enc = false ∨ reached (fieldPos s m.enc) (actOf k') = false → arriveFire m s = modEntry e (fun _ => k') s))
    ∧ (posDiff (fieldPos s k.enc) (actOf k) ≤ rdF s Reg.krbCfg.base 0 16 → judgeEntry e s = fireEntry e true s)
    ∧ ((rdF s Reg.krbCfg.base 0 16 : Int) < posDiff (fieldPos s k.enc) (actOf k) →
      judgeEntry e s = freeEntry e (postEvent 3 1 k.item.toNat (posField k.enc (fieldPos s k.enc)) 0
        (leBytes 1 k.chan ++ leBytes 6 k.target.toNat ++ leBytes 6 (actOf k).toNat)
        (bump Reg.krbSnapCnt.base 2 (setFlag Reg.krbStatus.base 0 s))))
    ∧ (∀ late, t = driveOut k.chan (modEntry e (fun k => { k with
          flags := k.flags ||| 16 ||| (if late then 8 else 0), judge := false, onPos := fieldPos s k.enc, onTime := s.ouv.time })
          (if late then bump Reg.krbSnapCnt.base 1 (bump Reg.krbSnapCnt.base 0 s) else bump Reg.krbSnapCnt.base 0 s)) →
      ((outputOf t k.chan).on = true → fireEntry e late s = t) ∧ ((outputOf t k.chan).on = false → fireEntry e late s = freeEntry e t))
    ∧ (k.kind = 1 → k.flags.testBit 4 = false → k.judge = false → forward s k.enc = true →
      (reached (fieldPos s k.enc) (actOf k) = true → Gives (.kerbFire e) s (fireEntry e false s))
      ∧ (reached (fieldPos s k.enc) (actOf k) = false → Gives (.kerbFire e) s s))
    ∧ (forward s k.enc = false → Gives (.kerbFire e) s s ∧ Gives (.kerbTrainTrigger e) s s)
    ∧ (k.kind = 1 → k.flags.testBit 4 = true →
      (k.flags.testBit 0 = false ∨ reached (fieldPos s k.enc) (k.onPos + BitVec.ofNat 48 k.count) = true →
        Gives (.kerbPulseEnd e) s (driveOut k.chan (modEntry e (fun _ => KerbEntry.free) s)))
      ∧ (k.flags.testBit 0 = true → reached (fieldPos s k.enc) (k.onPos + BitVec.ofNat 48 k.count) = false → Gives (.kerbPulseEnd e) s s))
    ∧ (∀ k' n, placeEntry s m = .inl e →
      k' = { KerbEntry.free with
        kind := 2, chan := m.chan, item := m.item, enc := m.enc, src := m.src, target := m.target, param := m.spacing, count := m.max
        stopOff := m.stopOff, ord := m.ord } →
      n = positionsReached k' (fieldPos s m.enc) →
      t = passPositions e n (skipTriggers k' n (modEntry e (fun _ => k') s)) →
      (m.max ≤ n → arriveTrain m s = endTrain e t)
      ∧ (n < m.max → m.ord = none ∨ (s.ouv.closed.find? fun c => c.1 == m.src) = none → arriveTrain m s = t)
      ∧ (∀ o c, n < m.max → m.ord = some o → (s.ouv.closed.find? fun c => c.1 == m.src) = some c →
          (c.2.1 = o → arriveTrain m s = setStop e c.2.2 t) ∧ (c.2.1 ≠ o → arriveTrain m s = t)))
    ∧ (∀ n, k.kind = 2 → forward s k.enc = true → n = min (positionsReached k (fieldPos s k.enc)) (beforeStop k) →
      t = passPositions e n (skipTriggers k (n - 1) (sendTrigger (portIndex k.chan) k.item (bump Reg.krbSnapCnt.base 5 s))) →
      (n = 0 → Gives (.kerbTrainTrigger e) s s)
      ∧ (0 < n → (k.count = n ∨ (k.flags.testBit 2 = true ∧ reached (k.target + BitVec.ofNat 48 (n * k.param)) k.stop = true)) →
          Gives (.kerbTrainTrigger e) s (endTrain e t))
      ∧ (0 < n → n < k.count → (k.flags.testBit 2 = false ∨ reached (k.target + BitVec.ofNat 48 (n * k.param)) k.stop = false) →
          Gives (.kerbTrainTrigger e) s t))
    ∧ (∀ close, t = modEntry e (fun k => { k with stop := close + BitVec.ofInt 48 (signed 32 k.stopOff), flags := k.flags ||| 4 }) s →
      (reached k.target (close + BitVec.ofInt 48 (signed 32 k.stopOff)) = true → setStop e close s = endTrain e t)
      ∧ (reached k.target (close + BitVec.ofInt 48 (signed 32 k.stopOff)) = false → setStop e close s = t))
    ∧ (∀ p close o, o = s.ouv.openOrd.getD p 0 → o ≠ 0 → (∀ c ∈ s.ouv.closed, ¬(c.1 = p ∧ c.2.1 = o)) →
      (∀ x ∈ s.ouv.entries, x.kind = 2 → x.src = p → x.ord = some o → x.flags.testBit 2 = true) →
      closeTrains p close s = modOuv (fun u => { u with closed := (p, o, close) :: u.closed.filter fun c => c.1 != p }) s)

/-- R436-R438, R506, R532, R535, R579: a heartbeat that stays away, or a hot sensor, takes Ouvfi into the safe state: its entries are discarded and
its outputs go to their safe levels; a host's write with heartbeats back ends it. A reset frame puts the die's registers back to reset and keeps
the safe state; the loss of the field supply clears everything, and its return starts from reset. (That a reset frame needs a reset in force and
that the governor's memory lives through it are the model's: log entry 46; when the safe state is reported is log entry 59's.) -/
def Obligations.SafeStateAndFieldSupply : Prop :=
  ∀ (w : Writer) (v : Word) (m : Meter) (s t : State), Quiet s → s.ouv.outputs.length = 32 → s.ouv.entries.length = 256 →
    (s.ouv.powered = true → (coreUp s = true ∨ s.rst.level = 0) → s.rst.wdogExpired = false →
      t = modOuv (fun o => { o with heartbeat := true, report := false }) s →
      (s.ouv.report = false → Gives .heartbeat s t)
      ∧ (s.ouv.report = true → Gives .heartbeat s (postEvent 0x0C 2 0 0 0 (leBytes 2 s.ouv.discarded) (setFlag Reg.dioStatus.base 0 t))))
    ∧ (s.ouv.powered = true → Gives .heartbeatTimeout s (enterSafe (modOuv (fun o => { o with heartbeat := false }) s)))
    ∧ (safeOn s = true → enterSafe s = s)
    ∧ (safeOn s = false → enterSafe s = driveAll (bump Reg.dioSnapCnt.base 2
        (modOuv (fun o => { o with report := true, discarded := kerbUsed s }) (discardEntries (wrF Reg.dioSafe.base 0 1 1 s)))))
    ∧ (safeOn s = false → (∀ x ∈ s.ouv.entries, x.kind ≠ 2) →
      safeOn (enterSafe s) = true ∧ (∀ x ∈ (enterSafe s).ouv.entries, x = KerbEntry.free) ∧ kerbUsed (enterSafe s) = 0
        ∧ (enterSafe s).ouv.discarded = kerbUsed s ∧ (enterSafe s).ouv.report = true
        ∧ (0 < kerbUsed s → flagOf (enterSafe s) Reg.krbStatus.base 4 = true)
        ∧ (∀ n, n < 32 → isOut s n = true →
            outLevel (enterSafe s) n = (s.ouv.powered && bitOf (dioCfg s n) 4) ∧ (outputOf (enterSafe s) n).on = false))
    ∧ (MayWrite s w Reg.dioSafe.base v →
      (v.getLsbD 1 = true → s.ouv.powered = true → safeOn s = true → s.ouv.heartbeat = true → s.ouv.hotTrip = false →
        t = modOuv (fun o => { o with outputs := o.outputs.map fun x => { x with lastOff := some o.time } }) (wrF Reg.dioSafe.base 0 1 0 s) →
        Gives (.safeStateRelease w v) s (driveAll (postEvent 0x0C 3 0 0 0 [] t)))
      ∧ (v.getLsbD 1 = false ∨ s.ouv.powered = false ∨ safeOn s = false ∨ s.ouv.heartbeat = false ∨ s.ouv.hotTrip = true →
        Gives (.safeStateRelease w v) s s))
    ∧ (s.ouv.powered = true → t = noteMeter m s →
      (115 ≤ m.ouvfi → Gives (.ouvfiThermalTrip m) s
        (enterSafe (modOuv (fun o => { o with hotTrip := true }) (if wideUp s then setFlag Reg.pwrStatus.base 7 t else t))))
      ∧ (m.ouvfi < 115 → Gives (.ouvfiThermalTrip m) s t))
    ∧ (s.ouv.powered = true → coreUp s = false → s.rst.level ≠ 0 →
      t = { wrF Reg.krbUsed.base 16 9 (if s.rst.level = 2 then 0 else rdF s Reg.krbUsed.base 16 9) (clearRegs fieldOff (discardEntries s)) with
        ouv := (discardEntries s).ouv.again s.fuse } →
      Gives .resetFrame s (applyPins (if safeOn s then wrF Reg.dioSafe.base 0 1 1 t else t)))
    ∧ (∀ p off, rdW (clearRegs p s) off = if p off then rdW { s with regs := [] } off else rdW s off)
    ∧ (∀ o, o = s.ouv.again s.fuse → (∀ x ∈ o.entries, x = KerbEntry.free) ∧ o.edgeQ = [] ∧ o.heartbeat = s.ouv.heartbeat
        ∧ o.time = s.ouv.time ∧ o.encs = s.ouv.encs.map (fun e => { Encoder.reset with a := e.a, b := e.b })
        ∧ o.inputs = s.ouv.inputs.map (fun i => { raw := i.raw, level := false, start := none })
        ∧ (∀ n, n < 32 → (outputOf { s with ouv := o } n).fuse = (s.fuse.dioOut.getLsbD n && s.fuse.dioOn.getLsbD n)
            ∧ (outputOf { s with ouv := o } n).lastOff = (outputOf s n).lastOff))
    ∧ (s.ouv.powered = true → ∃ u, Gives .fieldSupplyLoss s u ∧ u.ouv.powered = false ∧ safeOn u = false ∧ u.ouv.heartbeat = false
        ∧ u.ouv.hotTrip = false ∧ (∀ x ∈ u.ouv.entries, x = KerbEntry.free) ∧ (∀ n, outputOf u n = Output.reset)
        ∧ (∀ off, fieldOff off = true → rdW u off = rdW { s with regs := [] } off)
        ∧ u = { s with regs := u.regs, ctr := u.ctr, latches := u.latches, tv := u.tv, ouv := u.ouv })
    ∧ (s.ouv.powered = false → t = { s with ouv := { s.ouv.again s.fuse with powered := true } } →
      Gives .fieldSupplyReturn s (driveAll ((List.range 32).foldl (fun s n => if isOut s n then s else becomeInput n s) t)))
    ∧ (s.ouv.powered = false → Gives .heartbeat s s ∧ Gives .heartbeatTimeout s s ∧ Gives .resetFrame s s ∧ Gives .fieldSupplyLoss s s)
    ∧ (coreUp s = true → Gives .resetFrame s s)

/-- R443-R460: the servo takes an offset into its adjustment, its lock or a step; steps are requested and applied at a whole millisecond; a compare
channel fires and moves to its next period; the Ethernet port takes, filters and sends frames with their time stamps. (What firmware answers to a
frame, and which way a fraction of a ns goes, are free: log entry 47; when a servo's parts settle is log entry 60's, where a frame's stamps are taken,
how the cap defers and that a link in no mode falls, log entry 61's.) -/
def Obligations.TimeAndNetwork : Prop :=
  ∀ (w : Writer) (v : Word) (s t u : State), Quiet s →
    (MayWrite s w Reg.timServoOfs.base v →
      (rdB s Reg.timCtl.base 0 = false → Gives (.servoOffsetWrite w v) s s)
      ∧ (rdB s Reg.timCtl.base 0 = true → u = judgeLock v.toInt (bump Reg.timSnapCnt.base 0 s) →
        (rdB u Reg.timCtl.base 1 = true → rdF u Reg.timServo.base 0 16 * 256000 < v.toInt.natAbs →
          Gives (.servoOffsetWrite w v) s (modTim (fun x => { x with integral := 0 }) (requestStep (-v.toInt) none u)))
        ∧ (∀ kp ki i adj, rdB u Reg.timCtl.base 1 = false ∨ v.toInt.natAbs ≤ rdF u Reg.timServo.base 0 16 * 256000 →
          kp = rdF u Reg.timServoGain.base 0 16 → ki = rdF u Reg.timServoGain.base 16 16 →
          (ki = 0 → i = u.tim.integral + v.toInt) →
          (0 < ki → i = clampI (-((500000 * 2 ^ 16 : Int).fdiv ki)) ((500000 * 2 ^ 16 : Int).fdiv ki) (u.tim.integral + v.toInt)) →
          adj = clampI (-(500000 * 2 ^ 16)) (500000 * 2 ^ 16) (-((kp : Int) * v.toInt + (ki : Int) * i)) →
          ∃ r : Nat, r ≤ 1 ∧ (adj % 2 ^ 16 = 0 → r = 0)
            ∧ Gives (.servoOffsetWrite w v) s (wr Reg.timServoAdj.base (wrapTo 32 (adj.fdiv (2 ^ 16) + r)) { u with
                fresh := u.fresh + 1
                tim := { u.tim with integral := i, adj := adj, applied := appliedInc (timInc u) adj } }))))
    ∧ (∀ o : Int, (o.natAbs ≤ rdF s Reg.timServo.base 16 16 * 256 →
          (s.tim.lockRun < 7 → judgeLock o s = modTim (fun x => { x with lockRun := s.tim.lockRun + 1 }) s)
          ∧ (7 ≤ s.tim.lockRun → judgeLock o s = setLock true (modTim (fun x => { x with lockRun := s.tim.lockRun + 1 }) s)))
        ∧ (rdF s Reg.timServo.base 16 16 * 256 < o.natAbs → judgeLock o s = setLock false (modTim (fun x => { x with lockRun := 0 }) s)))
    ∧ (s.tim.locked = false → setLock false s = s ∧ setLock true s
        = postEvent 0x0D 3 0 0 0 (leBytes 1 1) (setFlag Reg.timStatus.base 10 (modTim (fun x => { x with locked := true }) s)))
    ∧ (s.tim.locked = true → setLock true s = s ∧ setLock false s = postEvent 0x0D 3 0 0 0 (leBytes 1 0)
        (bump Reg.timSnapCnt.base 3 (setFlag Reg.timStatus.base 9 (modTim (fun x => { x with locked := false }) s))))
    ∧ (MayWrite s w Reg.timStep.base v → Gives (.timeStepRequest w v) s (modTim (fun x => { x with
        pendStep := some { by_ := v.toInt * 256, to_ := none, at_ := s.tim.now } }) s))
    ∧ (MayWrite s w Reg.timCtl.base v → t = wr Reg.timCtl.base (bits v.toNat 0 2) s →
      u = (if v.getLsbD 0 then t else wr Reg.timServoAdj.base 0 (settleInc (modTim (fun x => { x with adj := 0 }) t))) →
      (v.getLsbD 8 = false → Gives (.timeSetRequest w v) s u)
      ∧ (v.getLsbD 8 = true → Gives (.timeSetRequest w v) s (modTim (fun x => { x with
          pendStep := some { by_ := 0, to_ := some (timSet s), at_ := s.tim.now } }) u)))
    ∧ (s.tim.pendStep = none → Gives .timeStepApply s s)
    ∧ (∀ p d, s.tim.pendStep = some p →
      (timeUnits s.tim.now < stepInstant p → Gives .timeStepApply s s)
      ∧ (stepInstant p ≤ timeUnits s.tim.now → d = (match p.to_ with | some x => (timeUnits x : Int) - timeUnits s.tim.now | none => p.by_ * 2 ^ 24) →
        ∃ ns x, (d % 2 ^ 32 = 0 → ns * 2 ^ 32 = d) ∧ (ns * 2 ^ 32 - d).natAbs < 2 ^ 32
          ∧ (∀ y, p.to_ = some y → x = y) ∧ (p.to_ = none → x = DevTime.ofUnits ((timeUnits s.tim.now : Int) + p.by_ * 2 ^ 24))
          ∧ Gives .timeStepApply s (setLock false (postEvent 0x0D 2 0 0 0 (leBytes 8 (wrapTo 64 ns)) (bump Reg.timSnapCnt.base 1
              (setFlag Reg.timStatus.base 8 (modOuv (fun o => if o.powered then { o with time := x } else o)
                (modTim (fun y => { y with now := x, pendStep := none, lockRun := 0 }) (shiftTimes d { s with fresh := s.fresh + 1 }))))))))
      ∧ stepInstant p % (1000000 * 2 ^ 32) = 0 ∧ timeUnits p.at_ + 10000 * 2 ^ 32 ≤ stepInstant p
        ∧ stepInstant p < timeUnits p.at_ + 1010000 * 2 ^ 32)
    ∧ (∀ k c skip ev, k < 8 → c = rd s (Reg.timCmpCtl.off k 0) →
      ev = (fun x : State => if bitOf c 2 then postEvent 0x0D 1 k 0 0 (leBytes 2 (min 65535 skip))
        (bump Reg.timSnapCnt.base 2 (setFlag Reg.timStatus.base k x)) else bump Reg.timSnapCnt.base 2 (setFlag Reg.timStatus.base k x)) →
      (bitOf c 0 = false ∨ cmpDiff s k < 0 ∨ (∃ p, s.tim.pendStep = some p ∧ stepInstant p ≤ timeUnits s.tim.now)
          ∨ (∃ j, j < k ∧ cmpDue s j = true) → Gives (.compareFire k) s s)
      ∧ (bitOf c 0 = true → 0 ≤ cmpDiff s k → bitOf c 1 = false → skip = 0 → cmpWaits s k = false → t = ev (wrF (Reg.timCmpCtl.off k 0) 0 1 0 s) →
        Gives (.compareFire k) s (if bitOf c 3 then raiseVec (bits c 4 6) t else t))
      ∧ (bitOf c 0 = true → 0 ≤ cmpDiff s k → bitOf c 1 = true → skip = (cmpDiff s k).toNat / cmpPer s k → cmpWaits s k = false →
        t = ev (wrF (Reg.timCmpCtl.off k 0) 16 16 (min 65535 (bits c 16 16 + skip)) (setTarget k (cmpTarget s k + (skip + 1) * cmpPer s k) s)) →
        Gives (.compareFire k) s (if bitOf c 3 then raiseVec (bits c 4 6) t else t)))
    ∧ (∀ f hit, s.tim.ethUp = true → portsUp s = true → t = bump Reg.ethSnapCnt.base 0 s →
      hit = (frameTaken s f && (List.range 8).any fun k => filterHit s f (rd s (Reg.ethFilt.off k 0))) →
      (hit = true → Gives (.ethFrameReceive f) s { modTim (fun x => { x with
        rxQ := x.rxQ ++ [(f, s.tim.now.shift (-(rdF s Reg.ethTsLat.base 0 16 : Int)))], txQ := x.txQ ++ replyTo s f
        ptpMaster := bestMaster s f }) t with
          fresh := s.fresh + 1 })
      ∧ (hit = false → Gives (.ethFrameReceive f) s (bump Reg.ethSnapCnt.base 1 t)))
    ∧ (∀ e x bs, s.tim.ethUp = true → portsUp s = true → nextTx s.tim.txQ = some e → x = s.tim.now.shift (rdF s Reg.ethTsLat.base 16 16) →
      bs = wireBytes s e →
      t = modTim (fun y => { y with
        txQ := dropFirst (fun z => z == e) y.txQ, dropMark := if e.kind = 1 then false else y.dropMark
        capFree := max (timeUnits y.now) y.capFree + ceilDiv (bs.length * 8 * 1000 * 2 ^ 32) (rdF s Reg.ethTxcap.base 0 16)
        txDone := if e.writeBack then y.txDone ++ [(e.bytes, timeBytes x)] else y.txDone }) s →
      (rdF s Reg.ethTxcap.base 0 16 ≠ 0 → s.tim.capFree ≤ timeUnits s.tim.now →
        (e.kind = 0 → Gives .ethFrameTransmitted s (pushStamp e.bytes x (emit (.frame bs) t)))
        ∧ (e.kind = 1 → Gives .ethFrameTransmitted s (emit (.datagram bs) (bump Reg.ethSnapCnt.base 2 t)))
        ∧ (2 ≤ e.kind → Gives .ethFrameTransmitted s (emit (.frame bs) t)))
      ∧ (rdF s Reg.ethTxcap.base 0 16 = 0 ∨ timeUnits s.tim.now < s.tim.capFree → Gives .ethFrameTransmitted s (deferTx e s)))
    ∧ (∀ e, (e.deferred = true → deferTx e s = s) ∧ (e.deferred = false → deferTx e s = bump Reg.ethSnapCnt.base 5
        (modTim (fun x => { x with txQ := updFirst (fun y => y == e) (fun y => { y with deferred := true }) x.txQ }) s)))
    ∧ (∀ e, wireBytes s e = (if e.kind = 1 ∧ s.tim.dropMark = true then markDropped e.bytes else e.bytes)
        ++ frameCheck (if e.kind = 1 ∧ s.tim.dropMark = true then markDropped e.bytes else e.bytes))
    ∧ (∀ f x p, p = ptpAt f →
      (16 ≤ s.tim.tsQ.length → pushStamp f x s
        = postEvent 0x0D 6 0 0 0 (leBytes 4 1) (bump Reg.ethSnapCnt.base 4 (setFlag Reg.ethStatus.base 3 s)))
      ∧ (s.tim.tsQ.length < 16 → pushStamp f x s = modTim (fun y => { y with tsQ := y.tsQ ++ [{
          time := x, msgType := beAt f p 1 % 16, domain := beAt f (p + 4) 1, seqId := beAt f (p + 30) 2 }] }) s))
    ∧ (fwUp s = true → Gives .timestampQueueConsumed s (modTim (fun x => { x with tsQ := x.tsQ.drop 1 }) s))
    ∧ (∀ up, portsUp s = true →
      (s.tim.ethUp ≠ up → up = false ∨ ethModeOk s = true → Gives (.ethLinkChange up) s (setEthLink up s))
      ∧ (s.tim.ethUp = up ∨ (up = true ∧ ethModeOk s = false) → Gives (.ethLinkChange up) s s)
      ∧ setEthLink up s = postEvent 0x0D 4 0 0 0 (leBytes 1 (b2n up) ++ leBytes 1 (b2n (rdB s Reg.ethCfg.base 0)))
          (setFlag Reg.ethStatus.base (if up then 0 else 1) (modTim (fun x => { x with ethUp := up }) s)))
    ∧ (∀ d, regAt Reg.ethCfg.base = some d → MayWrite s w Reg.ethCfg.base v → t = storeFields d Reg.ethCfg.base v s →
      (s.tim.ethUp = true → ethModeOk t = false → Gives (.registerWrite w Reg.ethCfg.base 15 v) s (setEthLink false t))
      ∧ (s.tim.ethUp = false ∨ ethModeOk t = true → Gives (.registerWrite w Reg.ethCfg.base 15 v) s t))
    ∧ (∀ f b, (fitsWire b = true ↔ b.length ≤ 1518) ∧ (∀ e ∈ replyTo s f, e.bytes.length ≤ 1518)
      ∧ (∀ e ∈ ptpFrames s f, ptpSendable e.bytes = true ∧ ptpOfRole (bestMaster s f) e.bytes = true)
      ∧ (Config.ptpSlaveOnly = true → s.tim.ptpMaster = false → bestMaster s f = false))

/-- R465, R468, R471-R480, R248: bus mastering off holds back messages and events and its return sends them; the aperture takes only the bases of
R472 and brings an access to the Square, LPDDR-6 or a peer, or answers all ones; a window is enabled only when it is well placed and disabled only
when no ring needs it; an unmasked vector sends its pending message. (Which parts of a refused window write are stored is log entry 62's, that LPDDR-6
answers nothing in D3hot log entry 92's.) -/
def Obligations.HostLinkWindowsAndVectors : Prop :=
  ∀ (w : Writer) (n : Nat) (v : Word) (s t : State), Quiet s →
    (s.host.bme = true → cfgAnswers s = true → Gives .bmeClear s (setFlag Reg.pciStatus.base 1 (modHost (fun h => { h with bme := false }) s)))
    ∧ (s.host.bme = false → cfgAnswers s = true → Gives .bmeSet s (flushEvents (sendAllPending (modHost (fun h => { h with bme := true }) s))))
    ∧ (cfgAnswers s = false → Gives .bmeClear s s ∧ Gives .bmeSet s s)
    ∧ (∀ vec, vec < 64 → (s.host.bme = false ∨ vecMasked s vec = true →
          raiseVec vec s = modHost (fun h => { h with vecPend := h.vecPend ||| BitVec.twoPow 64 vec }) s)
        ∧ (s.host.bme = true → vecMasked s vec = false → raiseVec vec s = emit (.msix vec) s)
        ∧ (wideUp s = true → t = wr (Reg.msixTable.off (4 * vec + 3) 0) 0 s →
          (s.host.bme = true → s.host.vecPend.getLsbD vec = true → Gives (.msixUnmask vec) s
            (emit (.msix vec) (modHost (fun h => { h with vecPend := h.vecPend &&& ~~~ BitVec.twoPow 64 vec }) t)))
          ∧ (s.host.bme = false ∨ s.host.vecPend.getLsbD vec = false → Gives (.msixUnmask vec) s t)))
    ∧ (∀ speed width flit,
      (wideUp s = true → 1 ≤ speed → speed ≤ 6 → (width = 1 ∨ width = 2 ∨ width = 4 ∨ width = 8) → (speed = 6 → flit = true) →
        Gives (.pcieLinkUp speed width flit) s (postEvent 0x0E 1 0 0 0 []
          (modHost (fun h => { h with linkUp := true }) (wr Reg.pciLink.base (speed + width * 16 + 256 * b2n flit) s))))
      ∧ (wideUp s = false ∨ linkListed speed width flit = false → Gives (.pcieLinkUp speed width flit) s s))
    ∧ (∀ b, b = bits v.toNat 0 10 → MayWrite s w Reg.pciAp.base v →
      (b = 0 ∨ (64 ≤ b ∧ b ≤ 127) ∨ b = 256 ∨ b = 288 → Gives (.apertureBaseWrite w v) s (wr Reg.pciAp.base b s))
      ∧ (¬(b = 0 ∨ (64 ≤ b ∧ b ≤ 127) ∨ b = 256 ∨ b = 288) → Gives (.apertureBaseWrite w v) s (setFlag Reg.pciStatus.base 4 s)))
    ∧ (∀ acc ecc late, wideUp s = false ∨ 0x40000000 < (accessSpan acc).1 + (accessSpan acc).2 → Gives (.apertureAccess acc ecc late) s s)
    ∧ (∀ a m bs ecc late d, wideUp s = true → inRecovery s = false → a + m ≤ 0x40000000 → a + bs.length ≤ 0x40000000 → d = a + rdF s Reg.pciAp.base 0 10 * 0x40000000 → t = bump Reg.pciSnapCnt.base 2 s →
      (∀ r, r = regionOf d →
        ((r = .host ∨ r = .other) ∨ ((r = .square ∨ r = .lpddr) ∧ coreUp s = false) ∨ (r = .lpddr ∧ s.host.d3 = true) ∨ (r = .square ∧ 0x20000000 < d + m)
            ∨ (r = .lpddr ∧ 0x2000000000 < d + m) ∨ (∃ p, r = .peer p ∧ (late = true ∨ peerMapped s p d m = false))) →
        Gives (.apertureAccess (.read a m) ecc late) s
          { setFlag Reg.pciStatus.base 3 t with rdata := ofLe (List.replicate m 0xFF), rstat := Stat.ok }
        ∧ (bs.length = m → Gives (.apertureAccess (.write a bs) ecc late) s
          { setFlag Reg.pciStatus.base 3 t with rdata := 0, rstat := Stat.ok }))
      ∧ (regionOf d = .square → coreUp s = true →
        (d + m ≤ 0x20000000 → Gives (.apertureAccess (.read a m) ecc late) s (answer (hostSquare (.read d m) ecc t)))
        ∧ (d + bs.length ≤ 0x20000000 → Gives (.apertureAccess (.write a bs) ecc late) s (answer (hostSquare (.write d bs) ecc t))))
      ∧ (regionOf d = .lpddr → coreUp s = true → s.host.d3 = false →
        (d + m ≤ 0x2000000000 → Gives (.apertureAccess (.read a m) ecc late) s (answer (readMem d m ecc t)))
        ∧ (d + bs.length ≤ 0x2000000000 → Gives (.apertureAccess (.write a bs) ecc late) s
            { (writeAll d bs ecc t).2 with rdata := 0, rstat := (writeAll d bs ecc t).1 }))
      ∧ (∀ p, regionOf d = .peer p → late = false →
        (peerMapped s p d m = true → Gives (.apertureAccess (.read a m) ecc late) s (answer (devRead d m ecc t)))
        ∧ (peerMapped s p d bs.length = true → Gives (.apertureAccess (.write a bs) ecc late) s
            { (devWrite d bs ecc t).2 with rdata := 0, rstat := (devWrite d bs ecc t).1 })))
    ∧ (∀ off old, n < 16 → off = Reg.pciWinCtl.off n 0 → old = winEn s n → MayWrite s w off v →
      (v.getLsbD 0 = true → old = true ∨ windowOk s n = true →
        Gives (.hostWindowEnable w n v) s (flushEvents (wr off (v.toNat % 4) s)))
      ∧ (v.getLsbD 0 = true → old = false → windowOk s n = false →
        Gives (.hostWindowEnable w n v) s (setFlag Reg.pciStatus.base 5 (wr off (v.toNat % 4 - 1) s)))
      ∧ (v.getLsbD 0 = false → old = true → windowUsed s n = true →
        Gives (.hostWindowDisable w n v) s (setFlag Reg.pciStatus.base 5 s))
      ∧ (v.getLsbD 0 = false → old = false ∨ windowUsed s n = false →
        Gives (.hostWindowDisable w n v) s (flushEvents (wr off (v.toNat % 4) s))))
    ∧ (n < 16 → (windowOk s n = true ↔ rdF s (Reg.pciWinLo.off n 0) 0 12 = 0 ∧ 1 ≤ rdF s (Reg.pciWinSize.off n 0) 0 21
        ∧ rdF s (Reg.pciWinSize.off n 0) 0 21 ≤ 1048576))
    ∧ (∀ ch r, runningOn s 8 ch = some r → r.done = false → groupUp s 3 = true →
      isPeer (leAt r.job.desc 8 8) = true ∨ isPeer (leAt r.job.desc 0x10 8) = true →
      Gives (.peerAccessTimeout ch) s (jobDone 8 ch Stat.timeout s))

/-- R194, R195, R481-R494: a Boulevard port trains, comes up with its peer or goes down, delivers and replays flits and retrains after eight failed
replays, sends held flits as credits and its retry buffer let it, sleeps and wakes, sends test patterns; a peer reaches the Square and the tokens
that programs declare external. (What a read of no token answers is free. When an owed acknowledge goes back, the ninth bad arrival that retrains and
how a failed link is reported are log entry 63's.) -/
def Obligations.BoulevardAndPeers : Prop :=
  ∀ (w : Writer) (p : Nat) (s t : State), Quiet s → p < 2 → s.blv.length = 2 →
    (∀ v, v = BitVec.ofNat 32 (setBits (rd s (Reg.blvCtl.off p 0)) 0 1 1) → MayWrite s w (Reg.blvCtl.off p 0) v →
      t = wr (Reg.blvCtl.off p 0) (v.toNat % 16) s →
      (blvEn s p = false → blvTest s p = false → Gives (.blvEnable w p) s (blvTrain p t))
      ∧ (blvEn s p = true ∨ blvTest s p = true → Gives (.blvEnable w p) s t))
    ∧ (blvState (blvTrain p s) p = 1 ∧ blvIdle (blvTrain p s) p = false)
    ∧ (∀ part skew credits, blvLive s p = true → (blvState s p = 1 ∨ blvState s p = 2) →
      t = wrF (Reg.blvLink.off p 0) 16 16 part s →
      (∀ c, 128 < skew → Gives (.blvTrained p c skew credits) s (blvDown p 0 s))
      ∧ (skew ≤ 128 → Gives (.blvTrained p none skew credits) s (setBlvState p 2 s))
      ∧ (skew ≤ 128 → part ≠ 0x1612 → part ≠ 0x0804 →
          Gives (.blvTrained p (some part) skew credits) s (blvDown p 0 (setFlag (Reg.blvStatus.off p 0) 6 t)))
      ∧ (skew ≤ 128 → part = 0x1612 ∨ part = 0x0804 → Gives (.blvTrained p (some part) skew credits) s
          (postEvent 0x0E 1 (1 + p) 0 0 [] (setFlag (Reg.blvStatus.off p 0) 0
            (setBlvState p 3 (modBlv p (fun b => { b with credits := credits })
              (wrF (Reg.blvLink.off p 0) 2 1 (if part = 0x0804 then 1 else 0) t))))))
      ∧ Gives (.blvTrainTimeout p) s (blvDown p 0 s))
    ∧ (∀ st, blvDown p st s = postEvent 0x0E 2 (1 + p) 0 0 [] (setFlag (Reg.blvStatus.off p 0) 1 (setBlvState p st s)))
    ∧ (blvLive s p = true → blvState s p = 0 → blvEn s p = true → blvTest s p = false → Gives (.blvTrainingRetry p) s (blvTrain p s))
    ∧ (∀ f failed b, b = blvOf s p → blvLive s p = true → blvState s p = 3 → t = count (Reg.blvSnapCnt.off p 3) f.corrected s →
      (∀ u x, f.crcOk = true → f.wordOk = true → f.seqNo % 4096 = b.expect →
        u = count (Reg.blvSnapCnt.off p 1) 1 (modBlv p (fun y => { y with
          expect := (b.expect + 1) % 4096, retry := b.retry.drop f.ack, credits := addCredits b.credits f.credits
          owed := b.owed + 1, fails := 0 }) t) →
        x = (if f.replay then replayFlits p u else u) →
        Gives (.blvFlitReceive p f failed) s (if (blvOf x p).held = [] then x else releaseHeld p (burst p x)))
      ∧ (f.crcOk = true → f.wordOk = true → f.seqNo % 4096 ≠ b.expect → Gives (.blvFlitReceive p f failed) s t)
      ∧ (∀ u x, f.crcOk = false ∨ f.wordOk = false → u = (if f.wordOk then t else count (Reg.blvSnapCnt.off p 5) 1 t) →
        x = emit (.linkSignal p 2) (burst p (setFlag (Reg.blvStatus.off p 0) 3
          (count (Reg.blvSnapCnt.off p 2) 1 (modBlv p (fun y => { y with fails := b.fails + 1 }) u)))) →
        (b.fails < 8 → Gives (.blvFlitReceive p f failed) s x) ∧ (8 ≤ b.fails → Gives (.blvFlitReceive p f failed) s (retrain p failed x))))
    ∧ (t = postEvent 0x0E 3 (1 + p) 0 0 [] (setFlag (Reg.blvStatus.off p 0) 2 (modBlv p (fun b => { b with fails := 0 }) s)) →
      retrain p false s = replayFlits p t ∧ retrain p true s = rasLast 9 (20 + p) 0 (blvDown p 0 t))
    ∧ (∀ b n vc, b = blvOf s p →
      sendFlits p vc n s = releaseHeld p (modBlv p (fun x => { x with held := x.held ++ List.replicate (max 1 (ceilDiv n 256)) vc }) (burst p s))
      ∧ ((∀ c ∈ b.held, 256 ≤ b.retry.length ∨ b.credits.getD c 0 = 0) → releaseHeld p s = s)
      ∧ (b.held = [vc] → b.retry.length < 256 → 0 < b.credits.getD vc 0 → releaseHeld p s = count (Reg.blvSnapCnt.off p 0) 1
          (modBlv p (fun x => { x with held := [], retry := b.retry ++ [vc], credits := modAt vc (· - 1) b.credits, owed := 0 }) s))
      ∧ (b.retry = [] → replayFlits p s = s)
      ∧ (b.retry ≠ [] → replayFlits p s = count (Reg.blvSnapCnt.off p 0) b.retry.length (emit (.linkSignal p 4) (burst p s))))
    ∧ (blvLive s p = true → blvState s p = 3 → rdB s (Reg.blvCtl.off p 0) 3 = true → blvIdle s p = false → (blvOf s p).held = [] →
      (blvOf s p).owed = 0 →
      (blvCompat s p = false → Gives (.blvIdleEntry p true) s (emit (.linkSignal p 0) s))
      ∧ (blvCompat s p = false → Gives (.blvIdleEntry p false) s
        (modBlv p (fun b => { b with rxIdle := true }) (wrF (Reg.blvLink.off p 0) 3 1 1 (emit (.linkSignal p 0) s))))
      ∧ (blvCompat s p = true → Gives (.blvCompatSleep p) s (wrF (Reg.blvLink.off p 0) 3 1 1 s))
      ∧ (∀ c, blvCompat s p = true → Gives (.blvIdleEntry p c) s s) ∧ (blvCompat s p = false → Gives (.blvCompatSleep p) s s))
    ∧ (∀ c, (blvOf s p).held ≠ [] ∨ (blvOf s p).owed ≠ 0 → Gives (.blvIdleEntry p c) s s ∧ Gives (.blvCompatSleep p) s s)
    ∧ (blvLive s p = true → blvState s p = 3 →
      (blvIdle s p = false → Gives (.blvIdleExit p) s s)
      ∧ (blvIdle s p = true → blvCompat s p = true → Gives (.blvIdleExit p) s (wrF (Reg.blvLink.off p 0) 3 1 0 (emit (.linkSignal p 1) s)))
      ∧ (blvIdle s p = true → blvCompat s p = false → Gives (.blvIdleExit p) s
          (modBlv p (fun b => { b with rxIdle := false }) (wrF (Reg.blvLink.off p 0) 3 1 0 (emit (.linkSignal p 1) s))))
      ∧ (blvCompat s p = true → Gives (.peerTrainingBurst p) s (modBlv p (fun b => { b with rxIdle := false }) s))
      ∧ (blvCompat s p = false → Gives (.peerTrainingBurst p) s
          (modBlv p (fun b => { b with rxIdle := false }) (wrF (Reg.blvLink.off p 0) 3 1 0 s))))
    ∧ (∀ mode errors v, v = BitVec.ofNat 32 (setBits (rd s (Reg.blvCtl.off p 0)) 1 2 mode) → MayWrite s w (Reg.blvCtl.off p 0) v →
      t = writeBlvCtl p v s →
      (mode % 4 = 0 ∨ mode % 4 = 3 ∨ blvLive t p = false → Gives (.blvPrbsMode w p mode errors) s t)
      ∧ (mode % 4 = 1 ∨ mode % 4 = 2 → blvLive t p = true → (blvOf t p).locks.length = 4 → ∃ u, Gives (.blvPrbsMode w p mode errors) s u
          ∧ ∀ l, l < 4 → (blvOf u p).locks.getD l false = ((blvOf t p).locks.getD l false || (errors.getD l none).isSome))
      ∧ (mode % 4 = 1 ∨ mode % 4 = 2 → blvLive t p = true → (∀ n ∈ errors.take 4, n.getD 0 = 0) → ∃ u, Gives (.blvPrbsMode w p mode errors) s u
          ∧ ∀ l, l < 4 → rd u (Reg.blvPrbs.off p l) = rd t (Reg.blvPrbs.off p l))
      ∧ (mode % 4 = 1 ∨ mode % 4 = 2 → blvLive t p = true → (∃ n ∈ errors.take 4, n.getD 0 ≠ 0) → ∃ u, Gives (.blvPrbsMode w p mode errors) s u
          ∧ flagOf u (Reg.blvStatus.off p 0) 5 = true
          ∧ ∀ l, l < min 4 errors.length →
              rd u (Reg.blvPrbs.off p l) = min (rd t (Reg.blvPrbs.off p l) + (errors.getD l none).getD 0) (2 ^ 32 - 1)))
    ∧ (coreUp s = true → blvLive s p = true → blvState s p = 3 →
      (∀ acc ecc, Gives (.peerSquareAccess p acc ecc) s
        (sendReply p (squareAccess acc ecc s).1.status (squareAccess acc ecc s).1.data (squareAccess acc ecc s).2))
      ∧ (∀ st bs, sendReply p st bs s = emit (.peerReply p st bs) (sendFlits p 1 bs.length s))
      ∧ (∀ addr v, (peerToken s addr = none ∨ ∃ k, peerToken s addr = some k ∧ (k.external = false ∨ k.tagged ≠ v.getLsbD 48)) →
          Gives (.peerTokenSignal p addr v) s (count (Reg.blvSnapCnt.off p 4) 1 (setFlag (Reg.blvStatus.off p 0) 4 s)))
      ∧ (∀ addr v k item r, peerToken s addr = some k → k.external = true → k.tagged = v.getLsbD 48 →
          item = (if v.getLsbD 48 then some (BitVec.ofNat 32 (bits v.toNat 16 32)) else none) →
          r = signal k.handle k.idx (bits v.toNat 0 16) item (some (.neighbour p)) s →
          (r.1 = .waits ∨ r.1 = .done Stat.ok → GivesThen (.peerTokenSignal p addr v) s r.2)
          ∧ (∀ st, r.1 = .done st → st ≠ Stat.ok → GivesThen (.peerTokenSignal p addr v) s (dropSignal p r.2)))
      ∧ (∀ addr k, peerToken s addr = some k →
          Gives (.peerTokenRead p addr) s (sendReply p Stat.ok (leBytes 4 (if k.tagged then 0 else k.count)) s))
      ∧ (∀ addr, peerToken s addr = none → ∃ bs, bs.length = 4
          ∧ Gives (.peerTokenRead p addr) s (sendReply p Stat.ok bs (takeFree 4 s).2)))
    ∧ (blvState s p ≠ 3 → Gives (.peerTrainingBurst p) s s ∧ Gives (.blvIdleExit p) s s
      ∧ (∀ acc ecc, Gives (.peerSquareAccess p acc ecc) s s) ∧ ∀ f failed, Gives (.blvFlitReceive p f failed) s s)

/-- R245, R313, R487, R510, R517, R518: a parity error, a lockstep mismatch or the host's keyed write isolates one unit: an engine group's job ends
with ISOLATED, as every other job that runs on the group, a pipeline's frame overflows and its references are lost, a port retrains and copies through
it end with ISOLATED, a processor only stops; the release brings it back with an event and a count. (What a reset leaves of a record under decode, and
what RAS_LAST holds, is log entry 66's.) -/
def Obligations.BlockResets : Prop :=
  ∀ (u : BlockUnit) (s t : State), Quiet s → unitExists u = true → coreUp s = true →
    (unitUp s u = true → rdB s Reg.rasCfg.base 0 = true →
      t = rasLast 7 (unitCode u) (match u with | .group _ => 0x58 | _ => 0) s → GivesThen (.blockReset u) s (isolateUnit u t))
    ∧ (rdB s Reg.rasCfg.base 0 = false → Gives (.blockReset u) s s)
    ∧ (unitUp s u = false → Gives (.blockReset u) s s)
    ∧ (∀ v, MayWrite s .host Reg.rasBlkrst.base v →
      (codeUnit (bits v.toNat 0 5) = some u → GivesThen (.rasBlkrstWrite .host v) s (isolateUnit u s))
      ∧ (codeUnit (bits v.toNat 0 5) = none → Gives (.rasBlkrstWrite .host v) s s))
    ∧ (∀ n, u = .cp n → unitUp s u = true → Gives (.cpLockstepMismatch n) s
        (modPwr (fun p => { p with isolated := p.isolated ++ [.cp n] }) (rasLast 8 (24 + n) 0 s)))
    ∧ (unitUp s u = false → isolateUnit u s = s)
    ∧ (unitUp s u = true → t = (match u with | .ip k => resetPipe k s | .group g => resetGroup g s | .blv p => resetPort p s | .cp _ => s) →
        isolateUnit u s = modPwr (fun p => { p with isolated := p.isolated ++ [u] }) t)
    ∧ (∀ g, resetGroup g s = (s.eng.running.filter (fun r => groupOfKind r.job.kind == g)).foldl
        (fun t r => leaveEngine r.job.kind r.eng 0 (jobDone r.job.kind r.eng 0x58 (voidRecord 0x58 r t))) s)
    ∧ (∀ g, (s.eng.running.filter (fun r => groupOfKind r.job.kind == g) = [] → resetGroup g s = s)
        ∧ ∀ r, s.eng.running.filter (fun r => groupOfKind r.job.kind == g) = [r] → r.job.kind ≠ 4 ∨ r.current = [] →
          resetGroup g s = leaveEngine r.job.kind r.eng 0 (jobDone r.job.kind r.eng 0x58 s))
    ∧ (∀ st r, (r.job.kind ≠ 4 ∨ r.current = [] → voidRecord st r s = s)
        ∧ (r.job.kind = 4 → r.current ≠ [] → bitOf (leAt r.job.desc 2 1) 1 = false → voidRecord st r s = closeRecord r.eng r st 0 s))
    ∧ (∀ k, ((pipeAt s k).serving = none → resetPipe k s = modCtx k 1 (fun c => { c with refOk := false }) (modCtx k 0 (fun c => { c with refOk := false }) s))
        ∧ ∀ v f u', (pipeAt s k).serving = some v → servedFrame s v = some f →
          u' = (if f.flags.testBit 3 then s else portCount v.port 5 1 s) →
          t = modServing k (fun v => { v with restart := stageOn v.set 1 && v.area })
            (if f.st = 1 then closeFrame v.port [3] true (portCount v.port 4 (outstanding u' v.port f.item) u')
             else modServed v (fun f => { f with flags := f.flags ||| 8 }) u') →
          resetPipe k s = modCtx k 1 (fun c => { c with refOk := false }) (modCtx k 0 (fun c => { c with refOk := false }) t))
    ∧ (∀ p, t = endPeerJobs p s →
        (blvState s p = 3 → resetPort p s = retrain p false t) ∧ (blvState s p = 0 → resetPort p s = t)
        ∧ (blvState s p = 1 ∨ blvState s p = 2 → resetPort p s = blvTrain p t)
        ∧ (∀ ch r, runningOn s 8 ch = some r → r.done = false → dmaPort r.job.desc = some p →
            runningOn t 8 ch = some { r with status := 0x58, done := true }))
    ∧ (unitUp s u = false → t = postEvent 0x10 3 (unitCode u) 0 0 [] (bump Reg.rasSnapCnt.base 4 (setFlag Reg.rasStatus.base 3
          (modPwr (fun p => { p with isolated := p.isolated.filter (· != u) }) s))) →
      ((∀ k, u ≠ .ip k) → Gives (.blockResetRelease u) s t) ∧ (∀ k, u = .ip k → GivesThen (.blockResetRelease u) s (settlePipe k t)) ∧ unitUp t u = true)
    ∧ (unitUp s u = true → Gives (.blockResetRelease u) s s)

/-- R466-R468, R506, R521-R538, R593: every source asserts its reach, the widest applies and narrower ones only add their bit; what each level clears
and keeps; the stretch and the trim load; the release with its history entry, its counter and the pools' growth. (That a function reset clears Bus
Master Enable and the MSI-X table is presumed: log entry 44; what boot finds is log entry 52's, which registers a core reset clears log entry 64's, how resets
meet and what a release finds log entry 65's.) -/
def Obligations.ResetsAndRelease : Prop :=
  ∀ (w : Writer) (v : Word) (m : Meter) (s t : State), Quiet s →
    (Gives .powerGoodFall s (assertReset 0 2 s) ∧ Gives .resetInAssert s (assertReset 1 1 s) ∧ Gives .perstAssert s (assertReset 2 1 s)
      ∧ Gives (.criticalStateError true) s (assertReset 11 1 s) ∧ Gives (.criticalStateError false) s (assertReset 10 0 s))
    ∧ (functionReset s = { (clearRegs Reg.msixTable.holds (if s.host.bme then setFlag Reg.pciStatus.base 1 s else s)) with
        host := { s.host with bme := false, vecPend := 0 } })
    ∧ (wideUp s = true → Gives .hotReset s (assertReset 3 0 (functionReset s)) ∧ Gives .functionLevelReset s (assertReset 4 0 (functionReset s)))
    ∧ (wideUp s = true → Gives .linkDlDown s (assertReset 5 0 (postEvent 0x0E 2 0 0 0 [] (wr Reg.pciLink.base 0
        (modHost (fun h => { h with linkUp := false }) (functionReset s))))))
    ∧ (wideUp s = false → Gives .hotReset s (assertReset 3 0 s) ∧ Gives .functionLevelReset s (assertReset 4 0 s)
        ∧ Gives .linkDlDown s (assertReset 5 0 s))
    ∧ (wideUp s = true → cfgAnswers s = true →
      (s.host.d3 = false → Gives .d3hotEntry s (assertReset 6 0 (setFlag Reg.pciStatus.base 2 (modHost (fun h => { h with d3 := true }) s))))
      ∧ (s.host.d3 = true → Gives .d3hotExit s (assertReset 6 0 (functionReset (modHost (fun h => { h with d3 := false }) s)))))
    ∧ (cfgAnswers s = false → Gives .d3hotEntry s s ∧ Gives .d3hotExit s s)
    ∧ ((s.host.d3 = true → Gives .d3hotEntry s s) ∧ (s.host.d3 = false → Gives .d3hotExit s s))
    ∧ (115 ≤ m.eboux → Gives (.thermalTrip m) s (assertReset 9 1 (noteMeter m s)))
    ∧ (m.eboux < 115 → Gives (.thermalTrip m) s (noteMeter m s))
    ∧ (∀ l, linkExists l = true → l ∈ s.sq.laneSpare → laneFails s l = 3 →
      Gives (.avenueLaneOut l) s (assertReset 12 1 (rasLast 11 l 0 (setFlag Reg.rasStatus.base 5 s))))
    ∧ (∀ l, l ∉ s.sq.laneSpare → Gives (.avenueLaneOut l) s s)
    ∧ (∀ cp, cp ≤ 3 → wdogOn s = true → t = modRst (fun r => { r with wdogExpired := true }) s →
      (bootState s = 7 → Gives (.watchdogExpiry cp) s (assertReset 7 1 t))
      ∧ (bootState s ≠ 7 → cp ≠ 0 → Gives (.watchdogExpiry cp) s s)
      ∧ (∀ slot, bootState s ≠ 7 → cp = 0 → slot = (if bootState s = 9 then rdF s Reg.rstBoot.base 4 2 else (slotOrder s).headD 2) →
          Gives (.watchdogExpiry cp) s (assertReset 7 1 (modRst (fun r => { r with fails := modAt slot (· + 1) r.fails }) t))))
    ∧ (MayWrite s w Reg.rstKick.base v → Gives (.rstKick w v) s s)
    ∧ (MayWrite s .complex Reg.rstReq.base v → ∀ l, l = bits v.toNat 0 2 → l ≤ 2 →
      Gives (.fwCoreResetRequest .complex v) s (assertReset 8 l s) ∧ Gives (.fwSystemResetRequest .complex v) s (assertReset 8 l s)
        ∧ Gives (.fwPowerOnResetRequest .complex v) s (assertReset 8 l s))
    ∧ (MayWrite s .complex Reg.rstReq.base v → bits v.toNat 0 2 = 3 → Gives (.fwCoreResetRequest .complex v) s (setFlag Reg.rstStatus.base 3 s))
    ∧ (silent s Reg.rstReq.base true = false → Gives (.fwCoreResetRequest .host v) s (setFlag Reg.glbStatus.base 3 (setFlag Reg.rstStatus.base 3 s))
      ∧ Gives (.fwSystemResetRequest .host v) s (setFlag Reg.glbStatus.base 3 (setFlag Reg.rstStatus.base 3 s))
      ∧ Gives (.fwPowerOnResetRequest .host v) s (setFlag Reg.glbStatus.base 3 (setFlag Reg.rstStatus.base 3 s)))
    ∧ (∀ src reach r, r = s.rst →
      (coreUp s = true → assertReset src reach s = enterReset reach { s with rst := { r with
        phase := .held, level := reach, asserted := 2 ^ src, sources := 2 ^ src, widened := false, trimRestart := false, trimBusy := false
        since := s.tim.now.sec % 2 ^ 32 } })
      ∧ (coreUp s = false → t = { s with rst := { r with
            phase := .held, asserted := r.asserted ||| 2 ^ src, sources := r.sources ||| 2 ^ src
            trimRestart := r.trimRestart || r.trimBusy, trimBusy := false } } →
        (reach ≤ r.level → assertReset src reach s = t)
        ∧ (r.level < reach → assertReset src reach s = enterReset reach { t with rst := { t.rst with level := reach, widened := true } })))
    ∧ (t = coreResetUnits s →
      t.progs = [] ∧ t.tokens = [] ∧ t.tasks = [] ∧ t.seqs = [] ∧ t.binds = [] ∧ t.plans = [] ∧ t.sq.runs = [] ∧ t.lastHandle = 0
      ∧ t.led.items = [] ∧ t.led.committing = [] ∧ t.led.subQ = [] ∧ t.eng = Engines.reset
      ∧ t.led.heldLoss = some (lossRange s) ∧ t.led.aborted = s.led.aborted ++ s.led.subQ ∧ t.led.ended = [] ∧ t.led.streamQ = s.led.streamQ ∧ t.led.heldReleases = s.led.heldReleases
      ∧ t.mem = s.mem ∧ t.hostMem = s.hostMem ∧ t.tim = s.tim ∧ t.blv = s.blv ∧ t.host = s.host ∧ t.copies = s.copies ∧ t.toKerb = s.toKerb
      ∧ t.ouv.entries = s.ouv.entries ∧ t.rst.hist = s.rst.hist ∧ t.tv = s.tv
      ∧ t.rst.before = bootState s ∧ bootState t = 0
      ∧ (∀ off, coreClears off = false → off ≠ Reg.rstBoot.base → rdW t off = rdW s off)
      ∧ (∀ off, coreClears off = true → rdW t off = rdW { s with regs := [] } off)
      ∧ (∀ n, n < s.cores.length → (coreOf t n).st = (coreOf s n).st ∧ (coreOf t n).task = none))
    ∧ (∀ b, t = systemResetUnits b s →
      t.progs = [] ∧ t.tokens = [] ∧ t.tasks = [] ∧ t.mem = [] ∧ t.tim = TimeNet.reset ∧ t.sq = Square.reset ∧ t.host = HostLink.reset
      ∧ t.led = { Ledger.reset with heldReleases := s.led.heldReleases } ∧ t.ouv = s.ouv ∧ t.hostMem = s.hostMem ∧ t.rst.hist = s.rst.hist
      ∧ (∀ off, systemClears b off = true → rdW t off = rdW { s with regs := [] } off)
      ∧ (∀ off, systemClears b off = false → rdW t off = rdW s off))
    ∧ (systemClears false Reg.rstCause.base = false ∧ systemClears false Reg.sqErrAddr.base = false ∧ systemClears true Reg.rstCause.base = true
      ∧ coreClears (Reg.sqQuota.off 0 0) = false ∧ coreClears Reg.itmNextId.base = false ∧ coreClears (Reg.itmSrcCtl.off 0 0) = true
      ∧ coreClears Reg.bcdCfg.base = false ∧ coreClears Reg.itmSnapCnt.base = false ∧ coreClears (Reg.rbtSnapCnt.base + 16) = false
      ∧ coreClears (Reg.rbtSnapCnt.base + 12) = true)
    ∧ (∀ src r, r = s.rst → r.asserted.testBit src = true →
      (r.asserted ≠ 2 ^ src → Gives (.resetSourceRelease src) s { s with rst := { r with asserted := r.asserted - 2 ^ src } })
      ∧ (r.asserted = 2 ^ src → r.phase = .held → r.level = 0 →
        Gives (.resetSourceRelease src) s { s with rst := { r with asserted := 0, phase := .stretching, trimBusy := false } })
      ∧ (r.asserted = 2 ^ src → r.phase = .held → r.level ≠ 0 → Gives (.resetSourceRelease src) s (wrF Reg.rstBoot.base 0 4 1
          (wr Reg.rstTrim.base (min 255 (rdF s Reg.rstTrim.base 8 8 + 1) * 256)
            { s with rst := { r with asserted := 0, phase := .stretching, trimBusy := true } }))))
    ∧ (∀ ups ts, s.rst.phase = .stretching → s.rst.trimBusy = true → ts = shadowRegs.map (fun d => (d, loadCopies s.fuse ups d.base)) →
      t = wrF Reg.rstTrim.base 1 1 (b2n (anyShadow outvoted ts)) (wrF Reg.rstTrim.base 0 1 1 { s with
        tv := (s.tv.filter fun t => fieldOff t.off) ++ ts.map (·.2), rst := { s.rst with trimBusy := false } }) →
      (anyShadow threeWays ts = false → Gives (.trimLoadDone ups) s t)
      ∧ (anyShadow threeWays ts = true → Gives (.trimLoadDone ups) s (assertReset 11 1 t)))
    ∧ (∀ a b c, (outvoted (a, b, c) = true ↔ (a = b ∧ b ≠ c) ∨ (b = c ∧ a ≠ b) ∨ (a = c ∧ a ≠ b))
        ∧ (threeWays (a, b, c) = true ↔ a ≠ b ∧ b ≠ c ∧ a ≠ c))
    ∧ (∀ b, b = driveResetOut true →
      (∀ x : State, (x.rst.outHigh = true → b x = x) ∧ (x.rst.outHigh = false → b x = emit (.resetOut true) (modRst (fun r => { r with outHigh := true }) x))))
    ∧ (s.pwr.vbakOk = true → checkBackup s = s)
    ∧ (s.pwr.vbakOk = false → checkBackup s = setFlag Reg.rstStatus.base 2 { s with
        rst := { s.rst with hist := [], bakSys := 0, bakCore := 0, bakValid := false, fails := [0, 0] }
        led := { s.led with heldReleases := [] }, pwr := { s.pwr with vbakOk := true } })
    ∧ (∀ r e c, s.rst.phase = .stretching → s.rst.trimBusy = false → c = (if s.rst.level = 2 then checkBackup s else s) → r = c.rst →
      e = histEntry s.rst →
      t = holdRelease e (wr Reg.rstCause.base (r.sources % 8192 + r.level * 65536) { c with rst := { r with
        phase := .running, hist := (e :: r.hist).take 16, bakValid := true, wdogExpired := false
        bakSys := if r.level = 0 then r.bakSys else r.bakSys + 1, bakCore := if r.level = 0 then r.bakCore + 1 else r.bakCore } }) →
      (r.level ≠ 0 → Gives .resetRelease s (wrF Reg.rstBoot.base 0 4 2 (driveResetOut true t)))
      ∧ (r.level = 0 → Gives .resetRelease s ((List.range 16).foldl
          (fun s p => if kvBlk s p ≠ 0 ∧ kvTarget s p ≠ 0 then adjustPool p s else s)
          (wrF Reg.rstBoot.base 0 4 s.rst.before (setFlag Reg.rstStatus.base 0 (driveResetOut true t))))))

/-- R109, R112, R539-R541, R544, R547: the ROM tests cores and banks, boots the first slot whose image passes every check, and waits in RECOVERY for
an image in the Square when none does; the firmware it starts is measured, locked in and READY; the rollback count only rises, up to the booted
image's. (The signature check is a free function: log entry 5; what the ROM makes of bad banks, of training that fails and of an image that it does
not accept is log entry 52's, that a wrong key sets the flag of a refused raise log entry 53's.) -/
def Obligations.BootAndRollback : Prop :=
  ∀ (w : Writer) (v : Word) (failed bad : List Nat) (s t : State), Quiet s →
    (coreUp s = true → bootState s ≤ 2 →
      t = testedBanks bad { s with cores := testedCores (bits (tvRead s Reg.tcSpare.base) 0 5) failed } →
      Gives (.bootRom failed bad true) s (wrF Reg.rstBoot.base 0 4 9 (setFlag Reg.memStatus.base 2 t))
      ∧ (∀ k, (slotOrder t).find? (fun k => imageAccepted t (flashOf t k)) = some k →
          Gives (.bootRom failed bad false) s (startFirmware k (flashOf t k) t))
      ∧ ((∀ k ∈ slotOrder t, imageAccepted t (flashOf t k) = false) →
          Gives (.bootRom failed bad false) s (wrF Reg.rstBoot.base 0 4 8 (setFlag Reg.secStatus.base 1 t))))
    ∧ (2 < bootState s ∨ coreUp s = false → ∀ l, Gives (.bootRom failed bad l) s s)
    ∧ (∀ fused n, n < 17 → ((testedCores fused failed).getD n (TensorCore.idle 0 0)).st
        = (if n ∈ failed then 2 else if n = min fused 16 ∧ (∀ m ∈ List.range 17, m ∉ failed) then 1 else 0))
    ∧ (∀ f0 f1 a b, f0 = s.rst.fails.getD 0 0 → f1 = s.rst.fails.getD 1 0 → a = leAt s.rst.flashA 6 1 → b = leAt s.rst.flashB 6 1 →
      (f0 < 3 → f1 < 3 → b ≤ a → slotOrder s = [0, 1]) ∧ (f0 < 3 → f1 < 3 → a < b → slotOrder s = [1, 0])
      ∧ (3 ≤ f0 → f1 < 3 → slotOrder s = [1]) ∧ (f0 < 3 → 3 ≤ f1 → slotOrder s = [0]) ∧ (3 ≤ f0 → 3 ≤ f1 → slotOrder s = []))
    ∧ (∀ img n, n = leAt img 8 4 → imageAccepted s img = true →
      img.take 4 = [0x50, 0x57, 0x46, 0x57] ∧ leAt img 4 2 = 0x1612 ∧ leAt img 7 1 ≤ 3 ∧ 128 + n + 29792 ≤ img.length
        ∧ shake256 ((img.drop 0xC).take 64) 32 = Config.keyHash (leAt img 7 1) ∧ bitOf (tvRead s Reg.secKeys.base) (leAt img 7 1) = false
        ∧ s.fuse.svn ≤ leAt img 6 1
        ∧ Config.slhVerify 2 ((img.drop 0xC).take 64) (imageBody img) ((img.drop (128 + n)).take 29792) = true)
    ∧ (∀ slot img, slot ≤ 2 → leAt img 6 1 ≤ 63 → t = startFirmware slot img s →
      bootState t = 7 ∧ rdF t Reg.rstBoot.base 4 2 = slot ∧ t.rst.measurement = shake256 (imageBody img) 32
        ∧ rdB t Reg.secStatus.base 0 = true ∧ rdB t Reg.secStatus.base 4 = true ∧ rdF t Reg.secSvn.base 0 6 = leAt img 6 1
        ∧ t.rst.aliasSeed = aliasSeedOf (cdiOf (shake256 (imageBody img) 32) (leAt img 6 1) (if slot = 2 then 1 else 0))
        ∧ t.mem = s.mem ∧ t.led = s.led ∧ t.fuse = s.fuse)
    ∧ (∀ img, MayWrite s w Reg.rstBoot.base v → img = devGet s 0 (bits v.toNat 8 24) →
      (inRecovery s = true → v.getLsbD 6 = true → imageAccepted s img = true → Gives (.rstBootGo w v) s (startFirmware 2 img s))
      ∧ (inRecovery s = true → v.getLsbD 6 = true → imageAccepted s img = false → Gives (.rstBootGo w v) s (wr Reg.rstBoot.base 41 s))
      ∧ (inRecovery s = false ∨ v.getLsbD 6 = false → Gives (.rstBootGo w v) s s))
    ∧ (silent s Reg.secRoll.base true = false → bits v.toNat 16 16 ≠ Reg.secRoll.key →
      Gives (.secRollWrite .host v) s (setFlag Reg.secStatus.base 2 s))
    ∧ (MayWrite s w Reg.secRoll.base v →
      (s.fuse.svn < bits v.toNat 0 7 → bits v.toNat 0 7 ≤ rdF s Reg.secSvn.base 0 6 →
        Gives (.secRollWrite w v) s { s with fuse := { s.fuse with svn := bits v.toNat 0 7 } })
      ∧ (bits v.toNat 0 7 ≤ s.fuse.svn ∨ rdF s Reg.secSvn.base 0 6 < bits v.toNat 0 7 →
        Gives (.secRollWrite w v) s (setFlag Reg.secStatus.base 2 s)))

/-- R132, R443, R488, R507, R523 and the model's choices of log entries 2, 63 and 106: with no command waiting, one clock passes: what stands in the
cores' queues goes on, the Boulevard ports send back what they owe, device time takes the applied increment, microseconds that end and clocks that
throttling skips are counted, and nothing else changes; in a system or power-on reset nothing changes at all. -/
def Obligations.IdleStepAdvancesTime : Prop :=
  ∀ (s t : State), s.pending = [] →
    (wideUp s = false → step s = .next s)
    ∧ (∀ u, wideUp s = true → u = sendOwed (sendOwed (queuesGoOn s) 0) 1 → step s = .next t →
      t = { u with ctr := t.ctr, pwr := { u.pwr with skip := t.pwr.skip }, tim := { u.tim with now := u.tim.now.advance u.tim.applied } }
      ∧ t.pwr.skip = u.pwr.skip + throttle u * ((t.tim.now.ns + 1000000000 - u.tim.now.ns) % 1000000000))
    ∧ (∃ u, step s = .next u)
    ∧ (anyQueued s = false → queuesGoOn s = s)
    ∧ (∀ p, blvLive s p = true → blvState s p = 3 → (blvOf s p).owed ≠ 0 → sendOwed s p = modBlv p (fun b => { b with owed := 0 }) (burst p s))
    ∧ (wideUp s = true → anyQueued s = false → (∀ p, p < 2 → (blvOf s p).owed = 0) → throttle s = 0 → (s.tim.now.advance s.tim.applied).ns / 1000 = s.tim.now.ns / 1000 →
        step s = .next { s with tim := { s.tim with now := s.tim.now.advance s.tim.applied } })
    ∧ (s.tim.now.ns < 1000000000 → s.tim.now.frac < 2 ^ 32 → s.tim.now.sec < 2 ^ 48 →
        (timeUnits s.tim.now + s.tim.applied) % (2 ^ 48 * 1000000000 * 2 ^ 32) = timeUnits (s.tim.now.advance s.tim.applied)
        ∧ (s.tim.now.advance s.tim.applied).ns < 1000000000 ∧ (s.tim.now.advance s.tim.applied).frac < 2 ^ 32)

/-- What reset leaves: the queue empty, no program, item, task or token, nothing allocated, device time 0, and registers of each block at
the values that their tables give. (That the module stands just after the release
of a power-on reset, with no boot begun, is the model's: log entry 3.) -/
def Obligations.ResetValues : Prop :=
  State.reset.pending = [] ∧ State.reset.progs = [] ∧ State.reset.led.items = [] ∧ State.reset.tasks = [] ∧ State.reset.tokens = []
  ∧ State.reset.sq.runs = [] ∧ State.reset.tim.now = DevTime.zero ∧ coreUp State.reset = true ∧ bootState State.reset = 0
  ∧ State.reset.host.bme = false ∧ kerbUsed State.reset = 0
  ∧ rd State.reset Reg.glbId.base = 0x16121D57 ∧ rdF State.reset Reg.rstCfg.base 16 16 = 100 ∧ rdF State.reset Reg.rstWdog.base 0 16 = 1000
  ∧ rdF State.reset Reg.pwrLimit.base 0 7 = 85 ∧ rdB State.reset Reg.rasCfg.base 0 = true ∧ rdF State.reset Reg.itmSubSize.base 0 5 = 6
  ∧ rdF State.reset (Reg.tcOpp.off 3 0) 0 7 = 70 ∧ rdF State.reset Reg.sqScrub.base 0 16 = 1024 ∧ rdF State.reset (Reg.cxpTail.off 5 0) 16 16 = 1000
  ∧ rdF State.reset Reg.bcdCfg.base 16 16 = 20000 ∧ rdF State.reset (Reg.blvPm.off 1 0) 0 16 = 1000
  ∧ rd State.reset Reg.timIncLo.base + rdF State.reset Reg.timIncHi.base 0 4 * 2 ^ 32 = 10661930936
  ∧ rdF State.reset (Reg.encObs.off 2 0) 0 14 = 200 ∧ rdF State.reset Reg.dioHb.base 0 10 = 10 ∧ rdF State.reset Reg.krbCfg.base 16 16 = 65535

/-- The state after reset meets the invariant. -/
def Obligations.ResetMeetsInvariant : Prop := Inv State.reset

/-- Every step keeps the invariant: from any state that meets it, a command or a clock leaves one that meets it. -/
def Obligations.EveryStepKeepsTheInvariant : Prop := ∀ (s t : State), Inv s → step s = .next t → Inv t
end

