-- ==== Sys2Proof/Laws/State.lean ====
section
/-! SUPPORT. What each named update leaves in each field of the state: one small lemma a field. -/

namespace Sys2Proof.Machine

open Sys2Proof

/-! ## setPending -/

@[simp] theorem setPending_pending (q : List Instr) (s : State) : (setPending q s).pending = q := rfl
@[simp] theorem setPending_regs (q : List Instr) (s : State) : (setPending q s).regs = s.regs := rfl
@[simp] theorem setPending_tv (q : List Instr) (s : State) : (setPending q s).tv = s.tv := rfl
@[simp] theorem setPending_ctr (q : List Instr) (s : State) : (setPending q s).ctr = s.ctr := rfl
@[simp] theorem setPending_latches (q : List Instr) (s : State) : (setPending q s).latches = s.latches := rfl
@[simp] theorem setPending_snapPending (q : List Instr) (s : State) : (setPending q s).snapPending = s.snapPending := rfl
@[simp] theorem setPending_rdata (q : List Instr) (s : State) : (setPending q s).rdata = s.rdata := rfl
@[simp] theorem setPending_rstat (q : List Instr) (s : State) : (setPending q s).rstat = s.rstat := rfl
@[simp] theorem setPending_out (q : List Instr) (s : State) : (setPending q s).out = s.out := rfl
@[simp] theorem setPending_fuse (q : List Instr) (s : State) : (setPending q s).fuse = s.fuse := rfl
@[simp] theorem setPending_mem (q : List Instr) (s : State) : (setPending q s).mem = s.mem := rfl
@[simp] theorem setPending_hostMem (q : List Instr) (s : State) : (setPending q s).hostMem = s.hostMem := rfl
@[simp] theorem setPending_peerMem (q : List Instr) (s : State) : (setPending q s).peerMem = s.peerMem := rfl
@[simp] theorem setPending_fresh (q : List Instr) (s : State) : (setPending q s).fresh = s.fresh := rfl
@[simp] theorem setPending_stamp (q : List Instr) (s : State) : (setPending q s).stamp = s.stamp := rfl
@[simp] theorem setPending_led (q : List Instr) (s : State) : (setPending q s).led = s.led := rfl
@[simp] theorem setPending_sq (q : List Instr) (s : State) : (setPending q s).sq = s.sq := rfl
@[simp] theorem setPending_progs (q : List Instr) (s : State) : (setPending q s).progs = s.progs := rfl
@[simp] theorem setPending_lastHandle (q : List Instr) (s : State) : (setPending q s).lastHandle = s.lastHandle := rfl
@[simp] theorem setPending_tokens (q : List Instr) (s : State) : (setPending q s).tokens = s.tokens := rfl
@[simp] theorem setPending_tasks (q : List Instr) (s : State) : (setPending q s).tasks = s.tasks := rfl
@[simp] theorem setPending_cores (q : List Instr) (s : State) : (setPending q s).cores = s.cores := rfl
@[simp] theorem setPending_seqs (q : List Instr) (s : State) : (setPending q s).seqs = s.seqs := rfl
@[simp] theorem setPending_clients (q : List Instr) (s : State) : (setPending q s).clients = s.clients := rfl
@[simp] theorem setPending_ports (q : List Instr) (s : State) : (setPending q s).ports = s.ports := rfl
@[simp] theorem setPending_pipes (q : List Instr) (s : State) : (setPending q s).pipes = s.pipes := rfl
@[simp] theorem setPending_binds (q : List Instr) (s : State) : (setPending q s).binds = s.binds := rfl
@[simp] theorem setPending_eng (q : List Instr) (s : State) : (setPending q s).eng = s.eng := rfl
@[simp] theorem setPending_ouv (q : List Instr) (s : State) : (setPending q s).ouv = s.ouv := rfl
@[simp] theorem setPending_copies (q : List Instr) (s : State) : (setPending q s).copies = s.copies := rfl
@[simp] theorem setPending_refreshLost (q : List Instr) (s : State) : (setPending q s).refreshLost = s.refreshLost := rfl
@[simp] theorem setPending_toKerb (q : List Instr) (s : State) : (setPending q s).toKerb = s.toKerb := rfl
@[simp] theorem setPending_plans (q : List Instr) (s : State) : (setPending q s).plans = s.plans := rfl
@[simp] theorem setPending_tim (q : List Instr) (s : State) : (setPending q s).tim = s.tim := rfl
@[simp] theorem setPending_blv (q : List Instr) (s : State) : (setPending q s).blv = s.blv := rfl
@[simp] theorem setPending_pwr (q : List Instr) (s : State) : (setPending q s).pwr = s.pwr := rfl
@[simp] theorem setPending_rst (q : List Instr) (s : State) : (setPending q s).rst = s.rst := rfl
@[simp] theorem setPending_host (q : List Instr) (s : State) : (setPending q s).host = s.host := rfl
@[simp] theorem setPending_setPending (q z : List Instr) (s : State) : setPending q (setPending z s) = setPending q s := rfl
@[simp] theorem rdW_setPending (q : List Instr) (s : State) (r : Nat) : rdW (setPending q s) r = rdW s r := rfl
@[simp] theorem rd_setPending (q : List Instr) (s : State) (r : Nat) : rd (setPending q s) r = rd s r := rfl
@[simp] theorem rdF_setPending (q : List Instr) (s : State) (r l_ w_ : Nat) : rdF (setPending q s) r l_ w_ = rdF s r l_ w_ := rfl
@[simp] theorem rdB_setPending (q : List Instr) (s : State) (r p : Nat) : rdB (setPending q s) r p = rdB s r p := rfl
@[simp] theorem ctrOf_setPending (q : List Instr) (s : State) (r : Nat) : ctrOf (setPending q s) r = ctrOf s r := rfl

/-! ## wr -/

@[simp] theorem wr_pending (off v : Nat) (s : State) : (wr off v s).pending = s.pending := rfl
@[simp] theorem wr_regs (off v : Nat) (s : State) : (wr off v s).regs = upsert off (BitVec.ofNat 32 v) s.regs := rfl
@[simp] theorem wr_tv (off v : Nat) (s : State) : (wr off v s).tv = s.tv := rfl
@[simp] theorem wr_ctr (off v : Nat) (s : State) : (wr off v s).ctr = s.ctr := rfl
@[simp] theorem wr_latches (off v : Nat) (s : State) : (wr off v s).latches = s.latches := rfl
@[simp] theorem wr_snapPending (off v : Nat) (s : State) : (wr off v s).snapPending = s.snapPending := rfl
@[simp] theorem wr_rdata (off v : Nat) (s : State) : (wr off v s).rdata = s.rdata := rfl
@[simp] theorem wr_rstat (off v : Nat) (s : State) : (wr off v s).rstat = s.rstat := rfl
@[simp] theorem wr_out (off v : Nat) (s : State) : (wr off v s).out = s.out := rfl
@[simp] theorem wr_fuse (off v : Nat) (s : State) : (wr off v s).fuse = s.fuse := rfl
@[simp] theorem wr_mem (off v : Nat) (s : State) : (wr off v s).mem = s.mem := rfl
@[simp] theorem wr_hostMem (off v : Nat) (s : State) : (wr off v s).hostMem = s.hostMem := rfl
@[simp] theorem wr_peerMem (off v : Nat) (s : State) : (wr off v s).peerMem = s.peerMem := rfl
@[simp] theorem wr_fresh (off v : Nat) (s : State) : (wr off v s).fresh = s.fresh := rfl
@[simp] theorem wr_stamp (off v : Nat) (s : State) : (wr off v s).stamp = s.stamp := rfl
@[simp] theorem wr_led (off v : Nat) (s : State) : (wr off v s).led = s.led := rfl
@[simp] theorem wr_sq (off v : Nat) (s : State) : (wr off v s).sq = s.sq := rfl
@[simp] theorem wr_progs (off v : Nat) (s : State) : (wr off v s).progs = s.progs := rfl
@[simp] theorem wr_lastHandle (off v : Nat) (s : State) : (wr off v s).lastHandle = s.lastHandle := rfl
@[simp] theorem wr_tokens (off v : Nat) (s : State) : (wr off v s).tokens = s.tokens := rfl
@[simp] theorem wr_tasks (off v : Nat) (s : State) : (wr off v s).tasks = s.tasks := rfl
@[simp] theorem wr_cores (off v : Nat) (s : State) : (wr off v s).cores = s.cores := rfl
@[simp] theorem wr_seqs (off v : Nat) (s : State) : (wr off v s).seqs = s.seqs := rfl
@[simp] theorem wr_clients (off v : Nat) (s : State) : (wr off v s).clients = s.clients := rfl
@[simp] theorem wr_ports (off v : Nat) (s : State) : (wr off v s).ports = s.ports := rfl
@[simp] theorem wr_pipes (off v : Nat) (s : State) : (wr off v s).pipes = s.pipes := rfl
@[simp] theorem wr_binds (off v : Nat) (s : State) : (wr off v s).binds = s.binds := rfl
@[simp] theorem wr_eng (off v : Nat) (s : State) : (wr off v s).eng = s.eng := rfl
@[simp] theorem wr_ouv (off v : Nat) (s : State) : (wr off v s).ouv = s.ouv := rfl
@[simp] theorem wr_copies (off v : Nat) (s : State) : (wr off v s).copies = s.copies := rfl
@[simp] theorem wr_refreshLost (off v : Nat) (s : State) : (wr off v s).refreshLost = s.refreshLost := rfl
@[simp] theorem wr_toKerb (off v : Nat) (s : State) : (wr off v s).toKerb = s.toKerb := rfl
@[simp] theorem wr_plans (off v : Nat) (s : State) : (wr off v s).plans = s.plans := rfl
@[simp] theorem wr_tim (off v : Nat) (s : State) : (wr off v s).tim = s.tim := rfl
@[simp] theorem wr_blv (off v : Nat) (s : State) : (wr off v s).blv = s.blv := rfl
@[simp] theorem wr_pwr (off v : Nat) (s : State) : (wr off v s).pwr = s.pwr := rfl
@[simp] theorem wr_rst (off v : Nat) (s : State) : (wr off v s).rst = s.rst := rfl
@[simp] theorem wr_host (off v : Nat) (s : State) : (wr off v s).host = s.host := rfl
@[simp] theorem wr_setPending (off v : Nat) (z : List Instr) (s : State) : wr off v (setPending z s) = setPending z (wr off v s) := rfl
@[simp] theorem ctrOf_wr (off v : Nat) (s : State) (r : Nat) : ctrOf (wr off v s) r = ctrOf s r := rfl

/-! ## wrF -/

@[simp] theorem wrF_pending (off lo w v : Nat) (s : State) : (wrF off lo w v s).pending = s.pending := rfl
@[simp] theorem wrF_tv (off lo w v : Nat) (s : State) : (wrF off lo w v s).tv = s.tv := rfl
@[simp] theorem wrF_ctr (off lo w v : Nat) (s : State) : (wrF off lo w v s).ctr = s.ctr := rfl
@[simp] theorem wrF_latches (off lo w v : Nat) (s : State) : (wrF off lo w v s).latches = s.latches := rfl
@[simp] theorem wrF_snapPending (off lo w v : Nat) (s : State) : (wrF off lo w v s).snapPending = s.snapPending := rfl
@[simp] theorem wrF_rdata (off lo w v : Nat) (s : State) : (wrF off lo w v s).rdata = s.rdata := rfl
@[simp] theorem wrF_rstat (off lo w v : Nat) (s : State) : (wrF off lo w v s).rstat = s.rstat := rfl
@[simp] theorem wrF_out (off lo w v : Nat) (s : State) : (wrF off lo w v s).out = s.out := rfl
@[simp] theorem wrF_fuse (off lo w v : Nat) (s : State) : (wrF off lo w v s).fuse = s.fuse := rfl
@[simp] theorem wrF_mem (off lo w v : Nat) (s : State) : (wrF off lo w v s).mem = s.mem := rfl
@[simp] theorem wrF_hostMem (off lo w v : Nat) (s : State) : (wrF off lo w v s).hostMem = s.hostMem := rfl
@[simp] theorem wrF_peerMem (off lo w v : Nat) (s : State) : (wrF off lo w v s).peerMem = s.peerMem := rfl
@[simp] theorem wrF_fresh (off lo w v : Nat) (s : State) : (wrF off lo w v s).fresh = s.fresh := rfl
@[simp] theorem wrF_stamp (off lo w v : Nat) (s : State) : (wrF off lo w v s).stamp = s.stamp := rfl
@[simp] theorem wrF_led (off lo w v : Nat) (s : State) : (wrF off lo w v s).led = s.led := rfl
@[simp] theorem wrF_sq (off lo w v : Nat) (s : State) : (wrF off lo w v s).sq = s.sq := rfl
@[simp] theorem wrF_progs (off lo w v : Nat) (s : State) : (wrF off lo w v s).progs = s.progs := rfl
@[simp] theorem wrF_lastHandle (off lo w v : Nat) (s : State) : (wrF off lo w v s).lastHandle = s.lastHandle := rfl
@[simp] theorem wrF_tokens (off lo w v : Nat) (s : State) : (wrF off lo w v s).tokens = s.tokens := rfl
@[simp] theorem wrF_tasks (off lo w v : Nat) (s : State) : (wrF off lo w v s).tasks = s.tasks := rfl
@[simp] theorem wrF_cores (off lo w v : Nat) (s : State) : (wrF off lo w v s).cores = s.cores := rfl
@[simp] theorem wrF_seqs (off lo w v : Nat) (s : State) : (wrF off lo w v s).seqs = s.seqs := rfl
@[simp] theorem wrF_clients (off lo w v : Nat) (s : State) : (wrF off lo w v s).clients = s.clients := rfl
@[simp] theorem wrF_ports (off lo w v : Nat) (s : State) : (wrF off lo w v s).ports = s.ports := rfl
@[simp] theorem wrF_pipes (off lo w v : Nat) (s : State) : (wrF off lo w v s).pipes = s.pipes := rfl
@[simp] theorem wrF_binds (off lo w v : Nat) (s : State) : (wrF off lo w v s).binds = s.binds := rfl
@[simp] theorem wrF_eng (off lo w v : Nat) (s : State) : (wrF off lo w v s).eng = s.eng := rfl
@[simp] theorem wrF_ouv (off lo w v : Nat) (s : State) : (wrF off lo w v s).ouv = s.ouv := rfl
@[simp] theorem wrF_copies (off lo w v : Nat) (s : State) : (wrF off lo w v s).copies = s.copies := rfl
@[simp] theorem wrF_refreshLost (off lo w v : Nat) (s : State) : (wrF off lo w v s).refreshLost = s.refreshLost := rfl
@[simp] theorem wrF_toKerb (off lo w v : Nat) (s : State) : (wrF off lo w v s).toKerb = s.toKerb := rfl
@[simp] theorem wrF_plans (off lo w v : Nat) (s : State) : (wrF off lo w v s).plans = s.plans := rfl
@[simp] theorem wrF_tim (off lo w v : Nat) (s : State) : (wrF off lo w v s).tim = s.tim := rfl
@[simp] theorem wrF_blv (off lo w v : Nat) (s : State) : (wrF off lo w v s).blv = s.blv := rfl
@[simp] theorem wrF_pwr (off lo w v : Nat) (s : State) : (wrF off lo w v s).pwr = s.pwr := rfl
@[simp] theorem wrF_rst (off lo w v : Nat) (s : State) : (wrF off lo w v s).rst = s.rst := rfl
@[simp] theorem wrF_host (off lo w v : Nat) (s : State) : (wrF off lo w v s).host = s.host := rfl
@[simp] theorem wrF_setPending (off lo w v : Nat) (z : List Instr) (s : State) : wrF off lo w v (setPending z s) = setPending z (wrF off lo w v s) := rfl
@[simp] theorem ctrOf_wrF (off lo w v : Nat) (s : State) (r : Nat) : ctrOf (wrF off lo w v s) r = ctrOf s r := rfl

/-! ## wrReset -/

@[simp] theorem wrReset_pending (off : Nat) (s : State) : (wrReset off s).pending = s.pending := rfl
@[simp] theorem wrReset_regs (off : Nat) (s : State) : (wrReset off s).regs = s.regs.filter fun e => e.1 != off := rfl
@[simp] theorem wrReset_tv (off : Nat) (s : State) : (wrReset off s).tv = s.tv := rfl
@[simp] theorem wrReset_ctr (off : Nat) (s : State) : (wrReset off s).ctr = s.ctr := rfl
@[simp] theorem wrReset_latches (off : Nat) (s : State) : (wrReset off s).latches = s.latches := rfl
@[simp] theorem wrReset_snapPending (off : Nat) (s : State) : (wrReset off s).snapPending = s.snapPending := rfl
@[simp] theorem wrReset_rdata (off : Nat) (s : State) : (wrReset off s).rdata = s.rdata := rfl
@[simp] theorem wrReset_rstat (off : Nat) (s : State) : (wrReset off s).rstat = s.rstat := rfl
@[simp] theorem wrReset_out (off : Nat) (s : State) : (wrReset off s).out = s.out := rfl
@[simp] theorem wrReset_fuse (off : Nat) (s : State) : (wrReset off s).fuse = s.fuse := rfl
@[simp] theorem wrReset_mem (off : Nat) (s : State) : (wrReset off s).mem = s.mem := rfl
@[simp] theorem wrReset_hostMem (off : Nat) (s : State) : (wrReset off s).hostMem = s.hostMem := rfl
@[simp] theorem wrReset_peerMem (off : Nat) (s : State) : (wrReset off s).peerMem = s.peerMem := rfl
@[simp] theorem wrReset_fresh (off : Nat) (s : State) : (wrReset off s).fresh = s.fresh := rfl
@[simp] theorem wrReset_stamp (off : Nat) (s : State) : (wrReset off s).stamp = s.stamp := rfl
@[simp] theorem wrReset_led (off : Nat) (s : State) : (wrReset off s).led = s.led := rfl
@[simp] theorem wrReset_sq (off : Nat) (s : State) : (wrReset off s).sq = s.sq := rfl
@[simp] theorem wrReset_progs (off : Nat) (s : State) : (wrReset off s).progs = s.progs := rfl
@[simp] theorem wrReset_lastHandle (off : Nat) (s : State) : (wrReset off s).lastHandle = s.lastHandle := rfl
@[simp] theorem wrReset_tokens (off : Nat) (s : State) : (wrReset off s).tokens = s.tokens := rfl
@[simp] theorem wrReset_tasks (off : Nat) (s : State) : (wrReset off s).tasks = s.tasks := rfl
@[simp] theorem wrReset_cores (off : Nat) (s : State) : (wrReset off s).cores = s.cores := rfl
@[simp] theorem wrReset_seqs (off : Nat) (s : State) : (wrReset off s).seqs = s.seqs := rfl
@[simp] theorem wrReset_clients (off : Nat) (s : State) : (wrReset off s).clients = s.clients := rfl
@[simp] theorem wrReset_ports (off : Nat) (s : State) : (wrReset off s).ports = s.ports := rfl
@[simp] theorem wrReset_pipes (off : Nat) (s : State) : (wrReset off s).pipes = s.pipes := rfl
@[simp] theorem wrReset_binds (off : Nat) (s : State) : (wrReset off s).binds = s.binds := rfl
@[simp] theorem wrReset_eng (off : Nat) (s : State) : (wrReset off s).eng = s.eng := rfl
@[simp] theorem wrReset_ouv (off : Nat) (s : State) : (wrReset off s).ouv = s.ouv := rfl
@[simp] theorem wrReset_copies (off : Nat) (s : State) : (wrReset off s).copies = s.copies := rfl
@[simp] theorem wrReset_refreshLost (off : Nat) (s : State) : (wrReset off s).refreshLost = s.refreshLost := rfl
@[simp] theorem wrReset_toKerb (off : Nat) (s : State) : (wrReset off s).toKerb = s.toKerb := rfl
@[simp] theorem wrReset_plans (off : Nat) (s : State) : (wrReset off s).plans = s.plans := rfl
@[simp] theorem wrReset_tim (off : Nat) (s : State) : (wrReset off s).tim = s.tim := rfl
@[simp] theorem wrReset_blv (off : Nat) (s : State) : (wrReset off s).blv = s.blv := rfl
@[simp] theorem wrReset_pwr (off : Nat) (s : State) : (wrReset off s).pwr = s.pwr := rfl
@[simp] theorem wrReset_rst (off : Nat) (s : State) : (wrReset off s).rst = s.rst := rfl
@[simp] theorem wrReset_host (off : Nat) (s : State) : (wrReset off s).host = s.host := rfl
@[simp] theorem wrReset_setPending (off : Nat) (z : List Instr) (s : State) : wrReset off (setPending z s) = setPending z (wrReset off s) := rfl
@[simp] theorem ctrOf_wrReset (off : Nat) (s : State) (r : Nat) : ctrOf (wrReset off s) r = ctrOf s r := rfl

/-! ## setFlag -/

@[simp] theorem setFlag_pending (off bit : Nat) (s : State) : (setFlag off bit s).pending = s.pending := rfl
@[simp] theorem setFlag_tv (off bit : Nat) (s : State) : (setFlag off bit s).tv = s.tv := rfl
@[simp] theorem setFlag_ctr (off bit : Nat) (s : State) : (setFlag off bit s).ctr = s.ctr := rfl
@[simp] theorem setFlag_latches (off bit : Nat) (s : State) : (setFlag off bit s).latches = s.latches := rfl
@[simp] theorem setFlag_snapPending (off bit : Nat) (s : State) : (setFlag off bit s).snapPending = s.snapPending := rfl
@[simp] theorem setFlag_rdata (off bit : Nat) (s : State) : (setFlag off bit s).rdata = s.rdata := rfl
@[simp] theorem setFlag_rstat (off bit : Nat) (s : State) : (setFlag off bit s).rstat = s.rstat := rfl
@[simp] theorem setFlag_out (off bit : Nat) (s : State) : (setFlag off bit s).out = s.out := rfl
@[simp] theorem setFlag_fuse (off bit : Nat) (s : State) : (setFlag off bit s).fuse = s.fuse := rfl
@[simp] theorem setFlag_mem (off bit : Nat) (s : State) : (setFlag off bit s).mem = s.mem := rfl
@[simp] theorem setFlag_hostMem (off bit : Nat) (s : State) : (setFlag off bit s).hostMem = s.hostMem := rfl
@[simp] theorem setFlag_peerMem (off bit : Nat) (s : State) : (setFlag off bit s).peerMem = s.peerMem := rfl
@[simp] theorem setFlag_fresh (off bit : Nat) (s : State) : (setFlag off bit s).fresh = s.fresh := rfl
@[simp] theorem setFlag_stamp (off bit : Nat) (s : State) : (setFlag off bit s).stamp = s.stamp := rfl
@[simp] theorem setFlag_led (off bit : Nat) (s : State) : (setFlag off bit s).led = s.led := rfl
@[simp] theorem setFlag_sq (off bit : Nat) (s : State) : (setFlag off bit s).sq = s.sq := rfl
@[simp] theorem setFlag_progs (off bit : Nat) (s : State) : (setFlag off bit s).progs = s.progs := rfl
@[simp] theorem setFlag_lastHandle (off bit : Nat) (s : State) : (setFlag off bit s).lastHandle = s.lastHandle := rfl
@[simp] theorem setFlag_tokens (off bit : Nat) (s : State) : (setFlag off bit s).tokens = s.tokens := rfl
@[simp] theorem setFlag_tasks (off bit : Nat) (s : State) : (setFlag off bit s).tasks = s.tasks := rfl
@[simp] theorem setFlag_cores (off bit : Nat) (s : State) : (setFlag off bit s).cores = s.cores := rfl
@[simp] theorem setFlag_seqs (off bit : Nat) (s : State) : (setFlag off bit s).seqs = s.seqs := rfl
@[simp] theorem setFlag_clients (off bit : Nat) (s : State) : (setFlag off bit s).clients = s.clients := rfl
@[simp] theorem setFlag_ports (off bit : Nat) (s : State) : (setFlag off bit s).ports = s.ports := rfl
@[simp] theorem setFlag_pipes (off bit : Nat) (s : State) : (setFlag off bit s).pipes = s.pipes := rfl
@[simp] theorem setFlag_binds (off bit : Nat) (s : State) : (setFlag off bit s).binds = s.binds := rfl
@[simp] theorem setFlag_eng (off bit : Nat) (s : State) : (setFlag off bit s).eng = s.eng := rfl
@[simp] theorem setFlag_ouv (off bit : Nat) (s : State) : (setFlag off bit s).ouv = s.ouv := rfl
@[simp] theorem setFlag_copies (off bit : Nat) (s : State) : (setFlag off bit s).copies = s.copies := rfl
@[simp] theorem setFlag_refreshLost (off bit : Nat) (s : State) : (setFlag off bit s).refreshLost = s.refreshLost := rfl
@[simp] theorem setFlag_toKerb (off bit : Nat) (s : State) : (setFlag off bit s).toKerb = s.toKerb := rfl
@[simp] theorem setFlag_plans (off bit : Nat) (s : State) : (setFlag off bit s).plans = s.plans := rfl
@[simp] theorem setFlag_tim (off bit : Nat) (s : State) : (setFlag off bit s).tim = s.tim := rfl
@[simp] theorem setFlag_blv (off bit : Nat) (s : State) : (setFlag off bit s).blv = s.blv := rfl
@[simp] theorem setFlag_pwr (off bit : Nat) (s : State) : (setFlag off bit s).pwr = s.pwr := rfl
@[simp] theorem setFlag_rst (off bit : Nat) (s : State) : (setFlag off bit s).rst = s.rst := rfl
@[simp] theorem setFlag_host (off bit : Nat) (s : State) : (setFlag off bit s).host = s.host := rfl
@[simp] theorem setFlag_setPending (off bit : Nat) (z : List Instr) (s : State) : setFlag off bit (setPending z s) = setPending z (setFlag off bit s) := rfl
@[simp] theorem ctrOf_setFlag (off bit : Nat) (s : State) (r : Nat) : ctrOf (setFlag off bit s) r = ctrOf s r := rfl

/-! ## count -/

@[simp] theorem count_pending (off n : Nat) (s : State) : (count off n s).pending = s.pending := rfl
@[simp] theorem count_regs (off n : Nat) (s : State) : (count off n s).regs = s.regs := rfl
@[simp] theorem count_tv (off n : Nat) (s : State) : (count off n s).tv = s.tv := rfl
@[simp] theorem count_ctr (off n : Nat) (s : State) : (count off n s).ctr = upsert off (ctrOf s off + n) s.ctr := rfl
@[simp] theorem count_latches (off n : Nat) (s : State) : (count off n s).latches = s.latches := rfl
@[simp] theorem count_snapPending (off n : Nat) (s : State) : (count off n s).snapPending = s.snapPending := rfl
@[simp] theorem count_rdata (off n : Nat) (s : State) : (count off n s).rdata = s.rdata := rfl
@[simp] theorem count_rstat (off n : Nat) (s : State) : (count off n s).rstat = s.rstat := rfl
@[simp] theorem count_out (off n : Nat) (s : State) : (count off n s).out = s.out := rfl
@[simp] theorem count_fuse (off n : Nat) (s : State) : (count off n s).fuse = s.fuse := rfl
@[simp] theorem count_mem (off n : Nat) (s : State) : (count off n s).mem = s.mem := rfl
@[simp] theorem count_hostMem (off n : Nat) (s : State) : (count off n s).hostMem = s.hostMem := rfl
@[simp] theorem count_peerMem (off n : Nat) (s : State) : (count off n s).peerMem = s.peerMem := rfl
@[simp] theorem count_fresh (off n : Nat) (s : State) : (count off n s).fresh = s.fresh := rfl
@[simp] theorem count_stamp (off n : Nat) (s : State) : (count off n s).stamp = s.stamp := rfl
@[simp] theorem count_led (off n : Nat) (s : State) : (count off n s).led = s.led := rfl
@[simp] theorem count_sq (off n : Nat) (s : State) : (count off n s).sq = s.sq := rfl
@[simp] theorem count_progs (off n : Nat) (s : State) : (count off n s).progs = s.progs := rfl
@[simp] theorem count_lastHandle (off n : Nat) (s : State) : (count off n s).lastHandle = s.lastHandle := rfl
@[simp] theorem count_tokens (off n : Nat) (s : State) : (count off n s).tokens = s.tokens := rfl
@[simp] theorem count_tasks (off n : Nat) (s : State) : (count off n s).tasks = s.tasks := rfl
@[simp] theorem count_cores (off n : Nat) (s : State) : (count off n s).cores = s.cores := rfl
@[simp] theorem count_seqs (off n : Nat) (s : State) : (count off n s).seqs = s.seqs := rfl
@[simp] theorem count_clients (off n : Nat) (s : State) : (count off n s).clients = s.clients := rfl
@[simp] theorem count_ports (off n : Nat) (s : State) : (count off n s).ports = s.ports := rfl
@[simp] theorem count_pipes (off n : Nat) (s : State) : (count off n s).pipes = s.pipes := rfl
@[simp] theorem count_binds (off n : Nat) (s : State) : (count off n s).binds = s.binds := rfl
@[simp] theorem count_eng (off n : Nat) (s : State) : (count off n s).eng = s.eng := rfl
@[simp] theorem count_ouv (off n : Nat) (s : State) : (count off n s).ouv = s.ouv := rfl
@[simp] theorem count_copies (off n : Nat) (s : State) : (count off n s).copies = s.copies := rfl
@[simp] theorem count_refreshLost (off n : Nat) (s : State) : (count off n s).refreshLost = s.refreshLost := rfl
@[simp] theorem count_toKerb (off n : Nat) (s : State) : (count off n s).toKerb = s.toKerb := rfl
@[simp] theorem count_plans (off n : Nat) (s : State) : (count off n s).plans = s.plans := rfl
@[simp] theorem count_tim (off n : Nat) (s : State) : (count off n s).tim = s.tim := rfl
@[simp] theorem count_blv (off n : Nat) (s : State) : (count off n s).blv = s.blv := rfl
@[simp] theorem count_pwr (off n : Nat) (s : State) : (count off n s).pwr = s.pwr := rfl
@[simp] theorem count_rst (off n : Nat) (s : State) : (count off n s).rst = s.rst := rfl
@[simp] theorem count_host (off n : Nat) (s : State) : (count off n s).host = s.host := rfl
@[simp] theorem count_setPending (off n : Nat) (z : List Instr) (s : State) : count off n (setPending z s) = setPending z (count off n s) := rfl
@[simp] theorem rdW_count (off n : Nat) (s : State) (r : Nat) : rdW (count off n s) r = rdW s r := rfl
@[simp] theorem rd_count (off n : Nat) (s : State) (r : Nat) : rd (count off n s) r = rd s r := rfl
@[simp] theorem rdF_count (off n : Nat) (s : State) (r l_ w_ : Nat) : rdF (count off n s) r l_ w_ = rdF s r l_ w_ := rfl
@[simp] theorem rdB_count (off n : Nat) (s : State) (r p : Nat) : rdB (count off n s) r p = rdB s r p := rfl

/-! ## setCtr -/

@[simp] theorem setCtr_pending (off n : Nat) (s : State) : (setCtr off n s).pending = s.pending := rfl
@[simp] theorem setCtr_regs (off n : Nat) (s : State) : (setCtr off n s).regs = s.regs := rfl
@[simp] theorem setCtr_tv (off n : Nat) (s : State) : (setCtr off n s).tv = s.tv := rfl
@[simp] theorem setCtr_ctr (off n : Nat) (s : State) : (setCtr off n s).ctr = upsert off n s.ctr := rfl
@[simp] theorem setCtr_latches (off n : Nat) (s : State) : (setCtr off n s).latches = s.latches := rfl
@[simp] theorem setCtr_snapPending (off n : Nat) (s : State) : (setCtr off n s).snapPending = s.snapPending := rfl
@[simp] theorem setCtr_rdata (off n : Nat) (s : State) : (setCtr off n s).rdata = s.rdata := rfl
@[simp] theorem setCtr_rstat (off n : Nat) (s : State) : (setCtr off n s).rstat = s.rstat := rfl
@[simp] theorem setCtr_out (off n : Nat) (s : State) : (setCtr off n s).out = s.out := rfl
@[simp] theorem setCtr_fuse (off n : Nat) (s : State) : (setCtr off n s).fuse = s.fuse := rfl
@[simp] theorem setCtr_mem (off n : Nat) (s : State) : (setCtr off n s).mem = s.mem := rfl
@[simp] theorem setCtr_hostMem (off n : Nat) (s : State) : (setCtr off n s).hostMem = s.hostMem := rfl
@[simp] theorem setCtr_peerMem (off n : Nat) (s : State) : (setCtr off n s).peerMem = s.peerMem := rfl
@[simp] theorem setCtr_fresh (off n : Nat) (s : State) : (setCtr off n s).fresh = s.fresh := rfl
@[simp] theorem setCtr_stamp (off n : Nat) (s : State) : (setCtr off n s).stamp = s.stamp := rfl
@[simp] theorem setCtr_led (off n : Nat) (s : State) : (setCtr off n s).led = s.led := rfl
@[simp] theorem setCtr_sq (off n : Nat) (s : State) : (setCtr off n s).sq = s.sq := rfl
@[simp] theorem setCtr_progs (off n : Nat) (s : State) : (setCtr off n s).progs = s.progs := rfl
@[simp] theorem setCtr_lastHandle (off n : Nat) (s : State) : (setCtr off n s).lastHandle = s.lastHandle := rfl
@[simp] theorem setCtr_tokens (off n : Nat) (s : State) : (setCtr off n s).tokens = s.tokens := rfl
@[simp] theorem setCtr_tasks (off n : Nat) (s : State) : (setCtr off n s).tasks = s.tasks := rfl
@[simp] theorem setCtr_cores (off n : Nat) (s : State) : (setCtr off n s).cores = s.cores := rfl
@[simp] theorem setCtr_seqs (off n : Nat) (s : State) : (setCtr off n s).seqs = s.seqs := rfl
@[simp] theorem setCtr_clients (off n : Nat) (s : State) : (setCtr off n s).clients = s.clients := rfl
@[simp] theorem setCtr_ports (off n : Nat) (s : State) : (setCtr off n s).ports = s.ports := rfl
@[simp] theorem setCtr_pipes (off n : Nat) (s : State) : (setCtr off n s).pipes = s.pipes := rfl
@[simp] theorem setCtr_binds (off n : Nat) (s : State) : (setCtr off n s).binds = s.binds := rfl
@[simp] theorem setCtr_eng (off n : Nat) (s : State) : (setCtr off n s).eng = s.eng := rfl
@[simp] theorem setCtr_ouv (off n : Nat) (s : State) : (setCtr off n s).ouv = s.ouv := rfl
@[simp] theorem setCtr_copies (off n : Nat) (s : State) : (setCtr off n s).copies = s.copies := rfl
@[simp] theorem setCtr_refreshLost (off n : Nat) (s : State) : (setCtr off n s).refreshLost = s.refreshLost := rfl
@[simp] theorem setCtr_toKerb (off n : Nat) (s : State) : (setCtr off n s).toKerb = s.toKerb := rfl
@[simp] theorem setCtr_plans (off n : Nat) (s : State) : (setCtr off n s).plans = s.plans := rfl
@[simp] theorem setCtr_tim (off n : Nat) (s : State) : (setCtr off n s).tim = s.tim := rfl
@[simp] theorem setCtr_blv (off n : Nat) (s : State) : (setCtr off n s).blv = s.blv := rfl
@[simp] theorem setCtr_pwr (off n : Nat) (s : State) : (setCtr off n s).pwr = s.pwr := rfl
@[simp] theorem setCtr_rst (off n : Nat) (s : State) : (setCtr off n s).rst = s.rst := rfl
@[simp] theorem setCtr_host (off n : Nat) (s : State) : (setCtr off n s).host = s.host := rfl
@[simp] theorem setCtr_setPending (off n : Nat) (z : List Instr) (s : State) : setCtr off n (setPending z s) = setPending z (setCtr off n s) := rfl
@[simp] theorem rdW_setCtr (off n : Nat) (s : State) (r : Nat) : rdW (setCtr off n s) r = rdW s r := rfl
@[simp] theorem rd_setCtr (off n : Nat) (s : State) (r : Nat) : rd (setCtr off n s) r = rd s r := rfl
@[simp] theorem rdF_setCtr (off n : Nat) (s : State) (r l_ w_ : Nat) : rdF (setCtr off n s) r l_ w_ = rdF s r l_ w_ := rfl
@[simp] theorem rdB_setCtr (off n : Nat) (s : State) (r p : Nat) : rdB (setCtr off n s) r p = rdB s r p := rfl

/-! ## bump -/

@[simp] theorem bump_pending (base i : Nat) (s : State) : (bump base i s).pending = s.pending := rfl
@[simp] theorem bump_regs (base i : Nat) (s : State) : (bump base i s).regs = s.regs := rfl
@[simp] theorem bump_tv (base i : Nat) (s : State) : (bump base i s).tv = s.tv := rfl
@[simp] theorem bump_latches (base i : Nat) (s : State) : (bump base i s).latches = s.latches := rfl
@[simp] theorem bump_snapPending (base i : Nat) (s : State) : (bump base i s).snapPending = s.snapPending := rfl
@[simp] theorem bump_rdata (base i : Nat) (s : State) : (bump base i s).rdata = s.rdata := rfl
@[simp] theorem bump_rstat (base i : Nat) (s : State) : (bump base i s).rstat = s.rstat := rfl
@[simp] theorem bump_out (base i : Nat) (s : State) : (bump base i s).out = s.out := rfl
@[simp] theorem bump_fuse (base i : Nat) (s : State) : (bump base i s).fuse = s.fuse := rfl
@[simp] theorem bump_mem (base i : Nat) (s : State) : (bump base i s).mem = s.mem := rfl
@[simp] theorem bump_hostMem (base i : Nat) (s : State) : (bump base i s).hostMem = s.hostMem := rfl
@[simp] theorem bump_peerMem (base i : Nat) (s : State) : (bump base i s).peerMem = s.peerMem := rfl
@[simp] theorem bump_fresh (base i : Nat) (s : State) : (bump base i s).fresh = s.fresh := rfl
@[simp] theorem bump_stamp (base i : Nat) (s : State) : (bump base i s).stamp = s.stamp := rfl
@[simp] theorem bump_led (base i : Nat) (s : State) : (bump base i s).led = s.led := rfl
@[simp] theorem bump_sq (base i : Nat) (s : State) : (bump base i s).sq = s.sq := rfl
@[simp] theorem bump_progs (base i : Nat) (s : State) : (bump base i s).progs = s.progs := rfl
@[simp] theorem bump_lastHandle (base i : Nat) (s : State) : (bump base i s).lastHandle = s.lastHandle := rfl
@[simp] theorem bump_tokens (base i : Nat) (s : State) : (bump base i s).tokens = s.tokens := rfl
@[simp] theorem bump_tasks (base i : Nat) (s : State) : (bump base i s).tasks = s.tasks := rfl
@[simp] theorem bump_cores (base i : Nat) (s : State) : (bump base i s).cores = s.cores := rfl
@[simp] theorem bump_seqs (base i : Nat) (s : State) : (bump base i s).seqs = s.seqs := rfl
@[simp] theorem bump_clients (base i : Nat) (s : State) : (bump base i s).clients = s.clients := rfl
@[simp] theorem bump_ports (base i : Nat) (s : State) : (bump base i s).ports = s.ports := rfl
@[simp] theorem bump_pipes (base i : Nat) (s : State) : (bump base i s).pipes = s.pipes := rfl
@[simp] theorem bump_binds (base i : Nat) (s : State) : (bump base i s).binds = s.binds := rfl
@[simp] theorem bump_eng (base i : Nat) (s : State) : (bump base i s).eng = s.eng := rfl
@[simp] theorem bump_ouv (base i : Nat) (s : State) : (bump base i s).ouv = s.ouv := rfl
@[simp] theorem bump_copies (base i : Nat) (s : State) : (bump base i s).copies = s.copies := rfl
@[simp] theorem bump_refreshLost (base i : Nat) (s : State) : (bump base i s).refreshLost = s.refreshLost := rfl
@[simp] theorem bump_toKerb (base i : Nat) (s : State) : (bump base i s).toKerb = s.toKerb := rfl
@[simp] theorem bump_plans (base i : Nat) (s : State) : (bump base i s).plans = s.plans := rfl
@[simp] theorem bump_tim (base i : Nat) (s : State) : (bump base i s).tim = s.tim := rfl
@[simp] theorem bump_blv (base i : Nat) (s : State) : (bump base i s).blv = s.blv := rfl
@[simp] theorem bump_pwr (base i : Nat) (s : State) : (bump base i s).pwr = s.pwr := rfl
@[simp] theorem bump_rst (base i : Nat) (s : State) : (bump base i s).rst = s.rst := rfl
@[simp] theorem bump_host (base i : Nat) (s : State) : (bump base i s).host = s.host := rfl
@[simp] theorem bump_setPending (base i : Nat) (z : List Instr) (s : State) : bump base i (setPending z s) = setPending z (bump base i s) := rfl
@[simp] theorem rdW_bump (base i : Nat) (s : State) (r : Nat) : rdW (bump base i s) r = rdW s r := rfl
@[simp] theorem rd_bump (base i : Nat) (s : State) (r : Nat) : rd (bump base i s) r = rd s r := rfl
@[simp] theorem rdF_bump (base i : Nat) (s : State) (r l_ w_ : Nat) : rdF (bump base i s) r l_ w_ = rdF s r l_ w_ := rfl
@[simp] theorem rdB_bump (base i : Nat) (s : State) (r p : Nat) : rdB (bump base i s) r p = rdB s r p := rfl

/-! ## modLed -/

@[simp] theorem modLed_pending (f : Ledger → Ledger) (s : State) : (modLed f s).pending = s.pending := rfl
@[simp] theorem modLed_regs (f : Ledger → Ledger) (s : State) : (modLed f s).regs = s.regs := rfl
@[simp] theorem modLed_tv (f : Ledger → Ledger) (s : State) : (modLed f s).tv = s.tv := rfl
@[simp] theorem modLed_ctr (f : Ledger → Ledger) (s : State) : (modLed f s).ctr = s.ctr := rfl
@[simp] theorem modLed_latches (f : Ledger → Ledger) (s : State) : (modLed f s).latches = s.latches := rfl
@[simp] theorem modLed_snapPending (f : Ledger → Ledger) (s : State) : (modLed f s).snapPending = s.snapPending := rfl
@[simp] theorem modLed_rdata (f : Ledger → Ledger) (s : State) : (modLed f s).rdata = s.rdata := rfl
@[simp] theorem modLed_rstat (f : Ledger → Ledger) (s : State) : (modLed f s).rstat = s.rstat := rfl
@[simp] theorem modLed_out (f : Ledger → Ledger) (s : State) : (modLed f s).out = s.out := rfl
@[simp] theorem modLed_fuse (f : Ledger → Ledger) (s : State) : (modLed f s).fuse = s.fuse := rfl
@[simp] theorem modLed_mem (f : Ledger → Ledger) (s : State) : (modLed f s).mem = s.mem := rfl
@[simp] theorem modLed_hostMem (f : Ledger → Ledger) (s : State) : (modLed f s).hostMem = s.hostMem := rfl
@[simp] theorem modLed_peerMem (f : Ledger → Ledger) (s : State) : (modLed f s).peerMem = s.peerMem := rfl
@[simp] theorem modLed_fresh (f : Ledger → Ledger) (s : State) : (modLed f s).fresh = s.fresh := rfl
@[simp] theorem modLed_stamp (f : Ledger → Ledger) (s : State) : (modLed f s).stamp = s.stamp := rfl
@[simp] theorem modLed_led (f : Ledger → Ledger) (s : State) : (modLed f s).led = f s.led := rfl
@[simp] theorem modLed_sq (f : Ledger → Ledger) (s : State) : (modLed f s).sq = s.sq := rfl
@[simp] theorem modLed_progs (f : Ledger → Ledger) (s : State) : (modLed f s).progs = s.progs := rfl
@[simp] theorem modLed_lastHandle (f : Ledger → Ledger) (s : State) : (modLed f s).lastHandle = s.lastHandle := rfl
@[simp] theorem modLed_tokens (f : Ledger → Ledger) (s : State) : (modLed f s).tokens = s.tokens := rfl
@[simp] theorem modLed_tasks (f : Ledger → Ledger) (s : State) : (modLed f s).tasks = s.tasks := rfl
@[simp] theorem modLed_cores (f : Ledger → Ledger) (s : State) : (modLed f s).cores = s.cores := rfl
@[simp] theorem modLed_seqs (f : Ledger → Ledger) (s : State) : (modLed f s).seqs = s.seqs := rfl
@[simp] theorem modLed_clients (f : Ledger → Ledger) (s : State) : (modLed f s).clients = s.clients := rfl
@[simp] theorem modLed_ports (f : Ledger → Ledger) (s : State) : (modLed f s).ports = s.ports := rfl
@[simp] theorem modLed_pipes (f : Ledger → Ledger) (s : State) : (modLed f s).pipes = s.pipes := rfl
@[simp] theorem modLed_binds (f : Ledger → Ledger) (s : State) : (modLed f s).binds = s.binds := rfl
@[simp] theorem modLed_eng (f : Ledger → Ledger) (s : State) : (modLed f s).eng = s.eng := rfl
@[simp] theorem modLed_ouv (f : Ledger → Ledger) (s : State) : (modLed f s).ouv = s.ouv := rfl
@[simp] theorem modLed_copies (f : Ledger → Ledger) (s : State) : (modLed f s).copies = s.copies := rfl
@[simp] theorem modLed_refreshLost (f : Ledger → Ledger) (s : State) : (modLed f s).refreshLost = s.refreshLost := rfl
@[simp] theorem modLed_toKerb (f : Ledger → Ledger) (s : State) : (modLed f s).toKerb = s.toKerb := rfl
@[simp] theorem modLed_plans (f : Ledger → Ledger) (s : State) : (modLed f s).plans = s.plans := rfl
@[simp] theorem modLed_tim (f : Ledger → Ledger) (s : State) : (modLed f s).tim = s.tim := rfl
@[simp] theorem modLed_blv (f : Ledger → Ledger) (s : State) : (modLed f s).blv = s.blv := rfl
@[simp] theorem modLed_pwr (f : Ledger → Ledger) (s : State) : (modLed f s).pwr = s.pwr := rfl
@[simp] theorem modLed_rst (f : Ledger → Ledger) (s : State) : (modLed f s).rst = s.rst := rfl
@[simp] theorem modLed_host (f : Ledger → Ledger) (s : State) : (modLed f s).host = s.host := rfl
@[simp] theorem modLed_setPending (f : Ledger → Ledger) (z : List Instr) (s : State) : modLed f (setPending z s) = setPending z (modLed f s) := rfl
@[simp] theorem rdW_modLed (f : Ledger → Ledger) (s : State) (r : Nat) : rdW (modLed f s) r = rdW s r := rfl
@[simp] theorem rd_modLed (f : Ledger → Ledger) (s : State) (r : Nat) : rd (modLed f s) r = rd s r := rfl
@[simp] theorem rdF_modLed (f : Ledger → Ledger) (s : State) (r l_ w_ : Nat) : rdF (modLed f s) r l_ w_ = rdF s r l_ w_ := rfl
@[simp] theorem rdB_modLed (f : Ledger → Ledger) (s : State) (r p : Nat) : rdB (modLed f s) r p = rdB s r p := rfl
@[simp] theorem ctrOf_modLed (f : Ledger → Ledger) (s : State) (r : Nat) : ctrOf (modLed f s) r = ctrOf s r := rfl

/-! ## modSq -/

@[simp] theorem modSq_pending (f : Square → Square) (s : State) : (modSq f s).pending = s.pending := rfl
@[simp] theorem modSq_regs (f : Square → Square) (s : State) : (modSq f s).regs = s.regs := rfl
@[simp] theorem modSq_tv (f : Square → Square) (s : State) : (modSq f s).tv = s.tv := rfl
@[simp] theorem modSq_ctr (f : Square → Square) (s : State) : (modSq f s).ctr = s.ctr := rfl
@[simp] theorem modSq_latches (f : Square → Square) (s : State) : (modSq f s).latches = s.latches := rfl
@[simp] theorem modSq_snapPending (f : Square → Square) (s : State) : (modSq f s).snapPending = s.snapPending := rfl
@[simp] theorem modSq_rdata (f : Square → Square) (s : State) : (modSq f s).rdata = s.rdata := rfl
@[simp] theorem modSq_rstat (f : Square → Square) (s : State) : (modSq f s).rstat = s.rstat := rfl
@[simp] theorem modSq_out (f : Square → Square) (s : State) : (modSq f s).out = s.out := rfl
@[simp] theorem modSq_fuse (f : Square → Square) (s : State) : (modSq f s).fuse = s.fuse := rfl
@[simp] theorem modSq_mem (f : Square → Square) (s : State) : (modSq f s).mem = s.mem := rfl
@[simp] theorem modSq_hostMem (f : Square → Square) (s : State) : (modSq f s).hostMem = s.hostMem := rfl
@[simp] theorem modSq_peerMem (f : Square → Square) (s : State) : (modSq f s).peerMem = s.peerMem := rfl
@[simp] theorem modSq_fresh (f : Square → Square) (s : State) : (modSq f s).fresh = s.fresh := rfl
@[simp] theorem modSq_stamp (f : Square → Square) (s : State) : (modSq f s).stamp = s.stamp := rfl
@[simp] theorem modSq_led (f : Square → Square) (s : State) : (modSq f s).led = s.led := rfl
@[simp] theorem modSq_sq (f : Square → Square) (s : State) : (modSq f s).sq = f s.sq := rfl
@[simp] theorem modSq_progs (f : Square → Square) (s : State) : (modSq f s).progs = s.progs := rfl
@[simp] theorem modSq_lastHandle (f : Square → Square) (s : State) : (modSq f s).lastHandle = s.lastHandle := rfl
@[simp] theorem modSq_tokens (f : Square → Square) (s : State) : (modSq f s).tokens = s.tokens := rfl
@[simp] theorem modSq_tasks (f : Square → Square) (s : State) : (modSq f s).tasks = s.tasks := rfl
@[simp] theorem modSq_cores (f : Square → Square) (s : State) : (modSq f s).cores = s.cores := rfl
@[simp] theorem modSq_seqs (f : Square → Square) (s : State) : (modSq f s).seqs = s.seqs := rfl
@[simp] theorem modSq_clients (f : Square → Square) (s : State) : (modSq f s).clients = s.clients := rfl
@[simp] theorem modSq_ports (f : Square → Square) (s : State) : (modSq f s).ports = s.ports := rfl
@[simp] theorem modSq_pipes (f : Square → Square) (s : State) : (modSq f s).pipes = s.pipes := rfl
@[simp] theorem modSq_binds (f : Square → Square) (s : State) : (modSq f s).binds = s.binds := rfl
@[simp] theorem modSq_eng (f : Square → Square) (s : State) : (modSq f s).eng = s.eng := rfl
@[simp] theorem modSq_ouv (f : Square → Square) (s : State) : (modSq f s).ouv = s.ouv := rfl
@[simp] theorem modSq_copies (f : Square → Square) (s : State) : (modSq f s).copies = s.copies := rfl
@[simp] theorem modSq_refreshLost (f : Square → Square) (s : State) : (modSq f s).refreshLost = s.refreshLost := rfl
@[simp] theorem modSq_toKerb (f : Square → Square) (s : State) : (modSq f s).toKerb = s.toKerb := rfl
@[simp] theorem modSq_plans (f : Square → Square) (s : State) : (modSq f s).plans = s.plans := rfl
@[simp] theorem modSq_tim (f : Square → Square) (s : State) : (modSq f s).tim = s.tim := rfl
@[simp] theorem modSq_blv (f : Square → Square) (s : State) : (modSq f s).blv = s.blv := rfl
@[simp] theorem modSq_pwr (f : Square → Square) (s : State) : (modSq f s).pwr = s.pwr := rfl
@[simp] theorem modSq_rst (f : Square → Square) (s : State) : (modSq f s).rst = s.rst := rfl
@[simp] theorem modSq_host (f : Square → Square) (s : State) : (modSq f s).host = s.host := rfl
@[simp] theorem modSq_setPending (f : Square → Square) (z : List Instr) (s : State) : modSq f (setPending z s) = setPending z (modSq f s) := rfl
@[simp] theorem rdW_modSq (f : Square → Square) (s : State) (r : Nat) : rdW (modSq f s) r = rdW s r := rfl
@[simp] theorem rd_modSq (f : Square → Square) (s : State) (r : Nat) : rd (modSq f s) r = rd s r := rfl
@[simp] theorem rdF_modSq (f : Square → Square) (s : State) (r l_ w_ : Nat) : rdF (modSq f s) r l_ w_ = rdF s r l_ w_ := rfl
@[simp] theorem rdB_modSq (f : Square → Square) (s : State) (r p : Nat) : rdB (modSq f s) r p = rdB s r p := rfl
@[simp] theorem ctrOf_modSq (f : Square → Square) (s : State) (r : Nat) : ctrOf (modSq f s) r = ctrOf s r := rfl

/-! ## modEng -/

@[simp] theorem modEng_pending (f : Engines → Engines) (s : State) : (modEng f s).pending = s.pending := rfl
@[simp] theorem modEng_regs (f : Engines → Engines) (s : State) : (modEng f s).regs = s.regs := rfl
@[simp] theorem modEng_tv (f : Engines → Engines) (s : State) : (modEng f s).tv = s.tv := rfl
@[simp] theorem modEng_ctr (f : Engines → Engines) (s : State) : (modEng f s).ctr = s.ctr := rfl
@[simp] theorem modEng_latches (f : Engines → Engines) (s : State) : (modEng f s).latches = s.latches := rfl
@[simp] theorem modEng_snapPending (f : Engines → Engines) (s : State) : (modEng f s).snapPending = s.snapPending := rfl
@[simp] theorem modEng_rdata (f : Engines → Engines) (s : State) : (modEng f s).rdata = s.rdata := rfl
@[simp] theorem modEng_rstat (f : Engines → Engines) (s : State) : (modEng f s).rstat = s.rstat := rfl
@[simp] theorem modEng_out (f : Engines → Engines) (s : State) : (modEng f s).out = s.out := rfl
@[simp] theorem modEng_fuse (f : Engines → Engines) (s : State) : (modEng f s).fuse = s.fuse := rfl
@[simp] theorem modEng_mem (f : Engines → Engines) (s : State) : (modEng f s).mem = s.mem := rfl
@[simp] theorem modEng_hostMem (f : Engines → Engines) (s : State) : (modEng f s).hostMem = s.hostMem := rfl
@[simp] theorem modEng_peerMem (f : Engines → Engines) (s : State) : (modEng f s).peerMem = s.peerMem := rfl
@[simp] theorem modEng_fresh (f : Engines → Engines) (s : State) : (modEng f s).fresh = s.fresh := rfl
@[simp] theorem modEng_stamp (f : Engines → Engines) (s : State) : (modEng f s).stamp = s.stamp := rfl
@[simp] theorem modEng_led (f : Engines → Engines) (s : State) : (modEng f s).led = s.led := rfl
@[simp] theorem modEng_sq (f : Engines → Engines) (s : State) : (modEng f s).sq = s.sq := rfl
@[simp] theorem modEng_progs (f : Engines → Engines) (s : State) : (modEng f s).progs = s.progs := rfl
@[simp] theorem modEng_lastHandle (f : Engines → Engines) (s : State) : (modEng f s).lastHandle = s.lastHandle := rfl
@[simp] theorem modEng_tokens (f : Engines → Engines) (s : State) : (modEng f s).tokens = s.tokens := rfl
@[simp] theorem modEng_tasks (f : Engines → Engines) (s : State) : (modEng f s).tasks = s.tasks := rfl
@[simp] theorem modEng_cores (f : Engines → Engines) (s : State) : (modEng f s).cores = s.cores := rfl
@[simp] theorem modEng_seqs (f : Engines → Engines) (s : State) : (modEng f s).seqs = s.seqs := rfl
@[simp] theorem modEng_clients (f : Engines → Engines) (s : State) : (modEng f s).clients = s.clients := rfl
@[simp] theorem modEng_ports (f : Engines → Engines) (s : State) : (modEng f s).ports = s.ports := rfl
@[simp] theorem modEng_pipes (f : Engines → Engines) (s : State) : (modEng f s).pipes = s.pipes := rfl
@[simp] theorem modEng_binds (f : Engines → Engines) (s : State) : (modEng f s).binds = s.binds := rfl
@[simp] theorem modEng_eng (f : Engines → Engines) (s : State) : (modEng f s).eng = f s.eng := rfl
@[simp] theorem modEng_ouv (f : Engines → Engines) (s : State) : (modEng f s).ouv = s.ouv := rfl
@[simp] theorem modEng_copies (f : Engines → Engines) (s : State) : (modEng f s).copies = s.copies := rfl
@[simp] theorem modEng_refreshLost (f : Engines → Engines) (s : State) : (modEng f s).refreshLost = s.refreshLost := rfl
@[simp] theorem modEng_toKerb (f : Engines → Engines) (s : State) : (modEng f s).toKerb = s.toKerb := rfl
@[simp] theorem modEng_plans (f : Engines → Engines) (s : State) : (modEng f s).plans = s.plans := rfl
@[simp] theorem modEng_tim (f : Engines → Engines) (s : State) : (modEng f s).tim = s.tim := rfl
@[simp] theorem modEng_blv (f : Engines → Engines) (s : State) : (modEng f s).blv = s.blv := rfl
@[simp] theorem modEng_pwr (f : Engines → Engines) (s : State) : (modEng f s).pwr = s.pwr := rfl
@[simp] theorem modEng_rst (f : Engines → Engines) (s : State) : (modEng f s).rst = s.rst := rfl
@[simp] theorem modEng_host (f : Engines → Engines) (s : State) : (modEng f s).host = s.host := rfl
@[simp] theorem modEng_setPending (f : Engines → Engines) (z : List Instr) (s : State) : modEng f (setPending z s) = setPending z (modEng f s) := rfl
@[simp] theorem rdW_modEng (f : Engines → Engines) (s : State) (r : Nat) : rdW (modEng f s) r = rdW s r := rfl
@[simp] theorem rd_modEng (f : Engines → Engines) (s : State) (r : Nat) : rd (modEng f s) r = rd s r := rfl
@[simp] theorem rdF_modEng (f : Engines → Engines) (s : State) (r l_ w_ : Nat) : rdF (modEng f s) r l_ w_ = rdF s r l_ w_ := rfl
@[simp] theorem rdB_modEng (f : Engines → Engines) (s : State) (r p : Nat) : rdB (modEng f s) r p = rdB s r p := rfl
@[simp] theorem ctrOf_modEng (f : Engines → Engines) (s : State) (r : Nat) : ctrOf (modEng f s) r = ctrOf s r := rfl

/-! ## modOuv -/

@[simp] theorem modOuv_pending (f : Ouvfi → Ouvfi) (s : State) : (modOuv f s).pending = s.pending := rfl
@[simp] theorem modOuv_regs (f : Ouvfi → Ouvfi) (s : State) : (modOuv f s).regs = s.regs := rfl
@[simp] theorem modOuv_tv (f : Ouvfi → Ouvfi) (s : State) : (modOuv f s).tv = s.tv := rfl
@[simp] theorem modOuv_ctr (f : Ouvfi → Ouvfi) (s : State) : (modOuv f s).ctr = s.ctr := rfl
@[simp] theorem modOuv_latches (f : Ouvfi → Ouvfi) (s : State) : (modOuv f s).latches = s.latches := rfl
@[simp] theorem modOuv_snapPending (f : Ouvfi → Ouvfi) (s : State) : (modOuv f s).snapPending = s.snapPending := rfl
@[simp] theorem modOuv_rdata (f : Ouvfi → Ouvfi) (s : State) : (modOuv f s).rdata = s.rdata := rfl
@[simp] theorem modOuv_rstat (f : Ouvfi → Ouvfi) (s : State) : (modOuv f s).rstat = s.rstat := rfl
@[simp] theorem modOuv_out (f : Ouvfi → Ouvfi) (s : State) : (modOuv f s).out = s.out := rfl
@[simp] theorem modOuv_fuse (f : Ouvfi → Ouvfi) (s : State) : (modOuv f s).fuse = s.fuse := rfl
@[simp] theorem modOuv_mem (f : Ouvfi → Ouvfi) (s : State) : (modOuv f s).mem = s.mem := rfl
@[simp] theorem modOuv_hostMem (f : Ouvfi → Ouvfi) (s : State) : (modOuv f s).hostMem = s.hostMem := rfl
@[simp] theorem modOuv_peerMem (f : Ouvfi → Ouvfi) (s : State) : (modOuv f s).peerMem = s.peerMem := rfl
@[simp] theorem modOuv_fresh (f : Ouvfi → Ouvfi) (s : State) : (modOuv f s).fresh = s.fresh := rfl
@[simp] theorem modOuv_stamp (f : Ouvfi → Ouvfi) (s : State) : (modOuv f s).stamp = s.stamp := rfl
@[simp] theorem modOuv_led (f : Ouvfi → Ouvfi) (s : State) : (modOuv f s).led = s.led := rfl
@[simp] theorem modOuv_sq (f : Ouvfi → Ouvfi) (s : State) : (modOuv f s).sq = s.sq := rfl
@[simp] theorem modOuv_progs (f : Ouvfi → Ouvfi) (s : State) : (modOuv f s).progs = s.progs := rfl
@[simp] theorem modOuv_lastHandle (f : Ouvfi → Ouvfi) (s : State) : (modOuv f s).lastHandle = s.lastHandle := rfl
@[simp] theorem modOuv_tokens (f : Ouvfi → Ouvfi) (s : State) : (modOuv f s).tokens = s.tokens := rfl
@[simp] theorem modOuv_tasks (f : Ouvfi → Ouvfi) (s : State) : (modOuv f s).tasks = s.tasks := rfl
@[simp] theorem modOuv_cores (f : Ouvfi → Ouvfi) (s : State) : (modOuv f s).cores = s.cores := rfl
@[simp] theorem modOuv_seqs (f : Ouvfi → Ouvfi) (s : State) : (modOuv f s).seqs = s.seqs := rfl
@[simp] theorem modOuv_clients (f : Ouvfi → Ouvfi) (s : State) : (modOuv f s).clients = s.clients := rfl
@[simp] theorem modOuv_ports (f : Ouvfi → Ouvfi) (s : State) : (modOuv f s).ports = s.ports := rfl
@[simp] theorem modOuv_pipes (f : Ouvfi → Ouvfi) (s : State) : (modOuv f s).pipes = s.pipes := rfl
@[simp] theorem modOuv_binds (f : Ouvfi → Ouvfi) (s : State) : (modOuv f s).binds = s.binds := rfl
@[simp] theorem modOuv_eng (f : Ouvfi → Ouvfi) (s : State) : (modOuv f s).eng = s.eng := rfl
@[simp] theorem modOuv_ouv (f : Ouvfi → Ouvfi) (s : State) : (modOuv f s).ouv = f s.ouv := rfl
@[simp] theorem modOuv_copies (f : Ouvfi → Ouvfi) (s : State) : (modOuv f s).copies = s.copies := rfl
@[simp] theorem modOuv_refreshLost (f : Ouvfi → Ouvfi) (s : State) : (modOuv f s).refreshLost = s.refreshLost := rfl
@[simp] theorem modOuv_toKerb (f : Ouvfi → Ouvfi) (s : State) : (modOuv f s).toKerb = s.toKerb := rfl
@[simp] theorem modOuv_plans (f : Ouvfi → Ouvfi) (s : State) : (modOuv f s).plans = s.plans := rfl
@[simp] theorem modOuv_tim (f : Ouvfi → Ouvfi) (s : State) : (modOuv f s).tim = s.tim := rfl
@[simp] theorem modOuv_blv (f : Ouvfi → Ouvfi) (s : State) : (modOuv f s).blv = s.blv := rfl
@[simp] theorem modOuv_pwr (f : Ouvfi → Ouvfi) (s : State) : (modOuv f s).pwr = s.pwr := rfl
@[simp] theorem modOuv_rst (f : Ouvfi → Ouvfi) (s : State) : (modOuv f s).rst = s.rst := rfl
@[simp] theorem modOuv_host (f : Ouvfi → Ouvfi) (s : State) : (modOuv f s).host = s.host := rfl
@[simp] theorem modOuv_setPending (f : Ouvfi → Ouvfi) (z : List Instr) (s : State) : modOuv f (setPending z s) = setPending z (modOuv f s) := rfl
@[simp] theorem rdW_modOuv (f : Ouvfi → Ouvfi) (s : State) (r : Nat) : rdW (modOuv f s) r = rdW s r := rfl
@[simp] theorem rd_modOuv (f : Ouvfi → Ouvfi) (s : State) (r : Nat) : rd (modOuv f s) r = rd s r := rfl
@[simp] theorem rdF_modOuv (f : Ouvfi → Ouvfi) (s : State) (r l_ w_ : Nat) : rdF (modOuv f s) r l_ w_ = rdF s r l_ w_ := rfl
@[simp] theorem rdB_modOuv (f : Ouvfi → Ouvfi) (s : State) (r p : Nat) : rdB (modOuv f s) r p = rdB s r p := rfl
@[simp] theorem ctrOf_modOuv (f : Ouvfi → Ouvfi) (s : State) (r : Nat) : ctrOf (modOuv f s) r = ctrOf s r := rfl

/-! ## modTim -/

@[simp] theorem modTim_pending (f : TimeNet → TimeNet) (s : State) : (modTim f s).pending = s.pending := rfl
@[simp] theorem modTim_regs (f : TimeNet → TimeNet) (s : State) : (modTim f s).regs = s.regs := rfl
@[simp] theorem modTim_tv (f : TimeNet → TimeNet) (s : State) : (modTim f s).tv = s.tv := rfl
@[simp] theorem modTim_ctr (f : TimeNet → TimeNet) (s : State) : (modTim f s).ctr = s.ctr := rfl
@[simp] theorem modTim_latches (f : TimeNet → TimeNet) (s : State) : (modTim f s).latches = s.latches := rfl
@[simp] theorem modTim_snapPending (f : TimeNet → TimeNet) (s : State) : (modTim f s).snapPending = s.snapPending := rfl
@[simp] theorem modTim_rdata (f : TimeNet → TimeNet) (s : State) : (modTim f s).rdata = s.rdata := rfl
@[simp] theorem modTim_rstat (f : TimeNet → TimeNet) (s : State) : (modTim f s).rstat = s.rstat := rfl
@[simp] theorem modTim_out (f : TimeNet → TimeNet) (s : State) : (modTim f s).out = s.out := rfl
@[simp] theorem modTim_fuse (f : TimeNet → TimeNet) (s : State) : (modTim f s).fuse = s.fuse := rfl
@[simp] theorem modTim_mem (f : TimeNet → TimeNet) (s : State) : (modTim f s).mem = s.mem := rfl
@[simp] theorem modTim_hostMem (f : TimeNet → TimeNet) (s : State) : (modTim f s).hostMem = s.hostMem := rfl
@[simp] theorem modTim_peerMem (f : TimeNet → TimeNet) (s : State) : (modTim f s).peerMem = s.peerMem := rfl
@[simp] theorem modTim_fresh (f : TimeNet → TimeNet) (s : State) : (modTim f s).fresh = s.fresh := rfl
@[simp] theorem modTim_stamp (f : TimeNet → TimeNet) (s : State) : (modTim f s).stamp = s.stamp := rfl
@[simp] theorem modTim_led (f : TimeNet → TimeNet) (s : State) : (modTim f s).led = s.led := rfl
@[simp] theorem modTim_sq (f : TimeNet → TimeNet) (s : State) : (modTim f s).sq = s.sq := rfl
@[simp] theorem modTim_progs (f : TimeNet → TimeNet) (s : State) : (modTim f s).progs = s.progs := rfl
@[simp] theorem modTim_lastHandle (f : TimeNet → TimeNet) (s : State) : (modTim f s).lastHandle = s.lastHandle := rfl
@[simp] theorem modTim_tokens (f : TimeNet → TimeNet) (s : State) : (modTim f s).tokens = s.tokens := rfl
@[simp] theorem modTim_tasks (f : TimeNet → TimeNet) (s : State) : (modTim f s).tasks = s.tasks := rfl
@[simp] theorem modTim_cores (f : TimeNet → TimeNet) (s : State) : (modTim f s).cores = s.cores := rfl
@[simp] theorem modTim_seqs (f : TimeNet → TimeNet) (s : State) : (modTim f s).seqs = s.seqs := rfl
@[simp] theorem modTim_clients (f : TimeNet → TimeNet) (s : State) : (modTim f s).clients = s.clients := rfl
@[simp] theorem modTim_ports (f : TimeNet → TimeNet) (s : State) : (modTim f s).ports = s.ports := rfl
@[simp] theorem modTim_pipes (f : TimeNet → TimeNet) (s : State) : (modTim f s).pipes = s.pipes := rfl
@[simp] theorem modTim_binds (f : TimeNet → TimeNet) (s : State) : (modTim f s).binds = s.binds := rfl
@[simp] theorem modTim_eng (f : TimeNet → TimeNet) (s : State) : (modTim f s).eng = s.eng := rfl
@[simp] theorem modTim_ouv (f : TimeNet → TimeNet) (s : State) : (modTim f s).ouv = s.ouv := rfl
@[simp] theorem modTim_copies (f : TimeNet → TimeNet) (s : State) : (modTim f s).copies = s.copies := rfl
@[simp] theorem modTim_refreshLost (f : TimeNet → TimeNet) (s : State) : (modTim f s).refreshLost = s.refreshLost := rfl
@[simp] theorem modTim_toKerb (f : TimeNet → TimeNet) (s : State) : (modTim f s).toKerb = s.toKerb := rfl
@[simp] theorem modTim_plans (f : TimeNet → TimeNet) (s : State) : (modTim f s).plans = s.plans := rfl
@[simp] theorem modTim_tim (f : TimeNet → TimeNet) (s : State) : (modTim f s).tim = f s.tim := rfl
@[simp] theorem modTim_blv (f : TimeNet → TimeNet) (s : State) : (modTim f s).blv = s.blv := rfl
@[simp] theorem modTim_pwr (f : TimeNet → TimeNet) (s : State) : (modTim f s).pwr = s.pwr := rfl
@[simp] theorem modTim_rst (f : TimeNet → TimeNet) (s : State) : (modTim f s).rst = s.rst := rfl
@[simp] theorem modTim_host (f : TimeNet → TimeNet) (s : State) : (modTim f s).host = s.host := rfl
@[simp] theorem modTim_setPending (f : TimeNet → TimeNet) (z : List Instr) (s : State) : modTim f (setPending z s) = setPending z (modTim f s) := rfl
@[simp] theorem rdW_modTim (f : TimeNet → TimeNet) (s : State) (r : Nat) : rdW (modTim f s) r = rdW s r := rfl
@[simp] theorem rd_modTim (f : TimeNet → TimeNet) (s : State) (r : Nat) : rd (modTim f s) r = rd s r := rfl
@[simp] theorem rdF_modTim (f : TimeNet → TimeNet) (s : State) (r l_ w_ : Nat) : rdF (modTim f s) r l_ w_ = rdF s r l_ w_ := rfl
@[simp] theorem rdB_modTim (f : TimeNet → TimeNet) (s : State) (r p : Nat) : rdB (modTim f s) r p = rdB s r p := rfl
@[simp] theorem ctrOf_modTim (f : TimeNet → TimeNet) (s : State) (r : Nat) : ctrOf (modTim f s) r = ctrOf s r := rfl

/-! ## modPwr -/

@[simp] theorem modPwr_pending (f : Power → Power) (s : State) : (modPwr f s).pending = s.pending := rfl
@[simp] theorem modPwr_regs (f : Power → Power) (s : State) : (modPwr f s).regs = s.regs := rfl
@[simp] theorem modPwr_tv (f : Power → Power) (s : State) : (modPwr f s).tv = s.tv := rfl
@[simp] theorem modPwr_ctr (f : Power → Power) (s : State) : (modPwr f s).ctr = s.ctr := rfl
@[simp] theorem modPwr_latches (f : Power → Power) (s : State) : (modPwr f s).latches = s.latches := rfl
@[simp] theorem modPwr_snapPending (f : Power → Power) (s : State) : (modPwr f s).snapPending = s.snapPending := rfl
@[simp] theorem modPwr_rdata (f : Power → Power) (s : State) : (modPwr f s).rdata = s.rdata := rfl
@[simp] theorem modPwr_rstat (f : Power → Power) (s : State) : (modPwr f s).rstat = s.rstat := rfl
@[simp] theorem modPwr_out (f : Power → Power) (s : State) : (modPwr f s).out = s.out := rfl
@[simp] theorem modPwr_fuse (f : Power → Power) (s : State) : (modPwr f s).fuse = s.fuse := rfl
@[simp] theorem modPwr_mem (f : Power → Power) (s : State) : (modPwr f s).mem = s.mem := rfl
@[simp] theorem modPwr_hostMem (f : Power → Power) (s : State) : (modPwr f s).hostMem = s.hostMem := rfl
@[simp] theorem modPwr_peerMem (f : Power → Power) (s : State) : (modPwr f s).peerMem = s.peerMem := rfl
@[simp] theorem modPwr_fresh (f : Power → Power) (s : State) : (modPwr f s).fresh = s.fresh := rfl
@[simp] theorem modPwr_stamp (f : Power → Power) (s : State) : (modPwr f s).stamp = s.stamp := rfl
@[simp] theorem modPwr_led (f : Power → Power) (s : State) : (modPwr f s).led = s.led := rfl
@[simp] theorem modPwr_sq (f : Power → Power) (s : State) : (modPwr f s).sq = s.sq := rfl
@[simp] theorem modPwr_progs (f : Power → Power) (s : State) : (modPwr f s).progs = s.progs := rfl
@[simp] theorem modPwr_lastHandle (f : Power → Power) (s : State) : (modPwr f s).lastHandle = s.lastHandle := rfl
@[simp] theorem modPwr_tokens (f : Power → Power) (s : State) : (modPwr f s).tokens = s.tokens := rfl
@[simp] theorem modPwr_tasks (f : Power → Power) (s : State) : (modPwr f s).tasks = s.tasks := rfl
@[simp] theorem modPwr_cores (f : Power → Power) (s : State) : (modPwr f s).cores = s.cores := rfl
@[simp] theorem modPwr_seqs (f : Power → Power) (s : State) : (modPwr f s).seqs = s.seqs := rfl
@[simp] theorem modPwr_clients (f : Power → Power) (s : State) : (modPwr f s).clients = s.clients := rfl
@[simp] theorem modPwr_ports (f : Power → Power) (s : State) : (modPwr f s).ports = s.ports := rfl
@[simp] theorem modPwr_pipes (f : Power → Power) (s : State) : (modPwr f s).pipes = s.pipes := rfl
@[simp] theorem modPwr_binds (f : Power → Power) (s : State) : (modPwr f s).binds = s.binds := rfl
@[simp] theorem modPwr_eng (f : Power → Power) (s : State) : (modPwr f s).eng = s.eng := rfl
@[simp] theorem modPwr_ouv (f : Power → Power) (s : State) : (modPwr f s).ouv = s.ouv := rfl
@[simp] theorem modPwr_copies (f : Power → Power) (s : State) : (modPwr f s).copies = s.copies := rfl
@[simp] theorem modPwr_refreshLost (f : Power → Power) (s : State) : (modPwr f s).refreshLost = s.refreshLost := rfl
@[simp] theorem modPwr_toKerb (f : Power → Power) (s : State) : (modPwr f s).toKerb = s.toKerb := rfl
@[simp] theorem modPwr_plans (f : Power → Power) (s : State) : (modPwr f s).plans = s.plans := rfl
@[simp] theorem modPwr_tim (f : Power → Power) (s : State) : (modPwr f s).tim = s.tim := rfl
@[simp] theorem modPwr_blv (f : Power → Power) (s : State) : (modPwr f s).blv = s.blv := rfl
@[simp] theorem modPwr_pwr (f : Power → Power) (s : State) : (modPwr f s).pwr = f s.pwr := rfl
@[simp] theorem modPwr_rst (f : Power → Power) (s : State) : (modPwr f s).rst = s.rst := rfl
@[simp] theorem modPwr_host (f : Power → Power) (s : State) : (modPwr f s).host = s.host := rfl
@[simp] theorem modPwr_setPending (f : Power → Power) (z : List Instr) (s : State) : modPwr f (setPending z s) = setPending z (modPwr f s) := rfl
@[simp] theorem rdW_modPwr (f : Power → Power) (s : State) (r : Nat) : rdW (modPwr f s) r = rdW s r := rfl
@[simp] theorem rd_modPwr (f : Power → Power) (s : State) (r : Nat) : rd (modPwr f s) r = rd s r := rfl
@[simp] theorem rdF_modPwr (f : Power → Power) (s : State) (r l_ w_ : Nat) : rdF (modPwr f s) r l_ w_ = rdF s r l_ w_ := rfl
@[simp] theorem rdB_modPwr (f : Power → Power) (s : State) (r p : Nat) : rdB (modPwr f s) r p = rdB s r p := rfl
@[simp] theorem ctrOf_modPwr (f : Power → Power) (s : State) (r : Nat) : ctrOf (modPwr f s) r = ctrOf s r := rfl

/-! ## modRst -/

@[simp] theorem modRst_pending (f : ResetState → ResetState) (s : State) : (modRst f s).pending = s.pending := rfl
@[simp] theorem modRst_regs (f : ResetState → ResetState) (s : State) : (modRst f s).regs = s.regs := rfl
@[simp] theorem modRst_tv (f : ResetState → ResetState) (s : State) : (modRst f s).tv = s.tv := rfl
@[simp] theorem modRst_ctr (f : ResetState → ResetState) (s : State) : (modRst f s).ctr = s.ctr := rfl
@[simp] theorem modRst_latches (f : ResetState → ResetState) (s : State) : (modRst f s).latches = s.latches := rfl
@[simp] theorem modRst_snapPending (f : ResetState → ResetState) (s : State) : (modRst f s).snapPending = s.snapPending := rfl
@[simp] theorem modRst_rdata (f : ResetState → ResetState) (s : State) : (modRst f s).rdata = s.rdata := rfl
@[simp] theorem modRst_rstat (f : ResetState → ResetState) (s : State) : (modRst f s).rstat = s.rstat := rfl
@[simp] theorem modRst_out (f : ResetState → ResetState) (s : State) : (modRst f s).out = s.out := rfl
@[simp] theorem modRst_fuse (f : ResetState → ResetState) (s : State) : (modRst f s).fuse = s.fuse := rfl
@[simp] theorem modRst_mem (f : ResetState → ResetState) (s : State) : (modRst f s).mem = s.mem := rfl
@[simp] theorem modRst_hostMem (f : ResetState → ResetState) (s : State) : (modRst f s).hostMem = s.hostMem := rfl
@[simp] theorem modRst_peerMem (f : ResetState → ResetState) (s : State) : (modRst f s).peerMem = s.peerMem := rfl
@[simp] theorem modRst_fresh (f : ResetState → ResetState) (s : State) : (modRst f s).fresh = s.fresh := rfl
@[simp] theorem modRst_stamp (f : ResetState → ResetState) (s : State) : (modRst f s).stamp = s.stamp := rfl
@[simp] theorem modRst_led (f : ResetState → ResetState) (s : State) : (modRst f s).led = s.led := rfl
@[simp] theorem modRst_sq (f : ResetState → ResetState) (s : State) : (modRst f s).sq = s.sq := rfl
@[simp] theorem modRst_progs (f : ResetState → ResetState) (s : State) : (modRst f s).progs = s.progs := rfl
@[simp] theorem modRst_lastHandle (f : ResetState → ResetState) (s : State) : (modRst f s).lastHandle = s.lastHandle := rfl
@[simp] theorem modRst_tokens (f : ResetState → ResetState) (s : State) : (modRst f s).tokens = s.tokens := rfl
@[simp] theorem modRst_tasks (f : ResetState → ResetState) (s : State) : (modRst f s).tasks = s.tasks := rfl
@[simp] theorem modRst_cores (f : ResetState → ResetState) (s : State) : (modRst f s).cores = s.cores := rfl
@[simp] theorem modRst_seqs (f : ResetState → ResetState) (s : State) : (modRst f s).seqs = s.seqs := rfl
@[simp] theorem modRst_clients (f : ResetState → ResetState) (s : State) : (modRst f s).clients = s.clients := rfl
@[simp] theorem modRst_ports (f : ResetState → ResetState) (s : State) : (modRst f s).ports = s.ports := rfl
@[simp] theorem modRst_pipes (f : ResetState → ResetState) (s : State) : (modRst f s).pipes = s.pipes := rfl
@[simp] theorem modRst_binds (f : ResetState → ResetState) (s : State) : (modRst f s).binds = s.binds := rfl
@[simp] theorem modRst_eng (f : ResetState → ResetState) (s : State) : (modRst f s).eng = s.eng := rfl
@[simp] theorem modRst_ouv (f : ResetState → ResetState) (s : State) : (modRst f s).ouv = s.ouv := rfl
@[simp] theorem modRst_copies (f : ResetState → ResetState) (s : State) : (modRst f s).copies = s.copies := rfl
@[simp] theorem modRst_refreshLost (f : ResetState → ResetState) (s : State) : (modRst f s).refreshLost = s.refreshLost := rfl
@[simp] theorem modRst_toKerb (f : ResetState → ResetState) (s : State) : (modRst f s).toKerb = s.toKerb := rfl
@[simp] theorem modRst_plans (f : ResetState → ResetState) (s : State) : (modRst f s).plans = s.plans := rfl
@[simp] theorem modRst_tim (f : ResetState → ResetState) (s : State) : (modRst f s).tim = s.tim := rfl
@[simp] theorem modRst_blv (f : ResetState → ResetState) (s : State) : (modRst f s).blv = s.blv := rfl
@[simp] theorem modRst_pwr (f : ResetState → ResetState) (s : State) : (modRst f s).pwr = s.pwr := rfl
@[simp] theorem modRst_rst (f : ResetState → ResetState) (s : State) : (modRst f s).rst = f s.rst := rfl
@[simp] theorem modRst_host (f : ResetState → ResetState) (s : State) : (modRst f s).host = s.host := rfl
@[simp] theorem modRst_setPending (f : ResetState → ResetState) (z : List Instr) (s : State) : modRst f (setPending z s) = setPending z (modRst f s) := rfl
@[simp] theorem rdW_modRst (f : ResetState → ResetState) (s : State) (r : Nat) : rdW (modRst f s) r = rdW s r := rfl
@[simp] theorem rd_modRst (f : ResetState → ResetState) (s : State) (r : Nat) : rd (modRst f s) r = rd s r := rfl
@[simp] theorem rdF_modRst (f : ResetState → ResetState) (s : State) (r l_ w_ : Nat) : rdF (modRst f s) r l_ w_ = rdF s r l_ w_ := rfl
@[simp] theorem rdB_modRst (f : ResetState → ResetState) (s : State) (r p : Nat) : rdB (modRst f s) r p = rdB s r p := rfl
@[simp] theorem ctrOf_modRst (f : ResetState → ResetState) (s : State) (r : Nat) : ctrOf (modRst f s) r = ctrOf s r := rfl

/-! ## modHost -/

@[simp] theorem modHost_pending (f : HostLink → HostLink) (s : State) : (modHost f s).pending = s.pending := rfl
@[simp] theorem modHost_regs (f : HostLink → HostLink) (s : State) : (modHost f s).regs = s.regs := rfl
@[simp] theorem modHost_tv (f : HostLink → HostLink) (s : State) : (modHost f s).tv = s.tv := rfl
@[simp] theorem modHost_ctr (f : HostLink → HostLink) (s : State) : (modHost f s).ctr = s.ctr := rfl
@[simp] theorem modHost_latches (f : HostLink → HostLink) (s : State) : (modHost f s).latches = s.latches := rfl
@[simp] theorem modHost_snapPending (f : HostLink → HostLink) (s : State) : (modHost f s).snapPending = s.snapPending := rfl
@[simp] theorem modHost_rdata (f : HostLink → HostLink) (s : State) : (modHost f s).rdata = s.rdata := rfl
@[simp] theorem modHost_rstat (f : HostLink → HostLink) (s : State) : (modHost f s).rstat = s.rstat := rfl
@[simp] theorem modHost_out (f : HostLink → HostLink) (s : State) : (modHost f s).out = s.out := rfl
@[simp] theorem modHost_fuse (f : HostLink → HostLink) (s : State) : (modHost f s).fuse = s.fuse := rfl
@[simp] theorem modHost_mem (f : HostLink → HostLink) (s : State) : (modHost f s).mem = s.mem := rfl
@[simp] theorem modHost_hostMem (f : HostLink → HostLink) (s : State) : (modHost f s).hostMem = s.hostMem := rfl
@[simp] theorem modHost_peerMem (f : HostLink → HostLink) (s : State) : (modHost f s).peerMem = s.peerMem := rfl
@[simp] theorem modHost_fresh (f : HostLink → HostLink) (s : State) : (modHost f s).fresh = s.fresh := rfl
@[simp] theorem modHost_stamp (f : HostLink → HostLink) (s : State) : (modHost f s).stamp = s.stamp := rfl
@[simp] theorem modHost_led (f : HostLink → HostLink) (s : State) : (modHost f s).led = s.led := rfl
@[simp] theorem modHost_sq (f : HostLink → HostLink) (s : State) : (modHost f s).sq = s.sq := rfl
@[simp] theorem modHost_progs (f : HostLink → HostLink) (s : State) : (modHost f s).progs = s.progs := rfl
@[simp] theorem modHost_lastHandle (f : HostLink → HostLink) (s : State) : (modHost f s).lastHandle = s.lastHandle := rfl
@[simp] theorem modHost_tokens (f : HostLink → HostLink) (s : State) : (modHost f s).tokens = s.tokens := rfl
@[simp] theorem modHost_tasks (f : HostLink → HostLink) (s : State) : (modHost f s).tasks = s.tasks := rfl
@[simp] theorem modHost_cores (f : HostLink → HostLink) (s : State) : (modHost f s).cores = s.cores := rfl
@[simp] theorem modHost_seqs (f : HostLink → HostLink) (s : State) : (modHost f s).seqs = s.seqs := rfl
@[simp] theorem modHost_clients (f : HostLink → HostLink) (s : State) : (modHost f s).clients = s.clients := rfl
@[simp] theorem modHost_ports (f : HostLink → HostLink) (s : State) : (modHost f s).ports = s.ports := rfl
@[simp] theorem modHost_pipes (f : HostLink → HostLink) (s : State) : (modHost f s).pipes = s.pipes := rfl
@[simp] theorem modHost_binds (f : HostLink → HostLink) (s : State) : (modHost f s).binds = s.binds := rfl
@[simp] theorem modHost_eng (f : HostLink → HostLink) (s : State) : (modHost f s).eng = s.eng := rfl
@[simp] theorem modHost_ouv (f : HostLink → HostLink) (s : State) : (modHost f s).ouv = s.ouv := rfl
@[simp] theorem modHost_copies (f : HostLink → HostLink) (s : State) : (modHost f s).copies = s.copies := rfl
@[simp] theorem modHost_refreshLost (f : HostLink → HostLink) (s : State) : (modHost f s).refreshLost = s.refreshLost := rfl
@[simp] theorem modHost_toKerb (f : HostLink → HostLink) (s : State) : (modHost f s).toKerb = s.toKerb := rfl
@[simp] theorem modHost_plans (f : HostLink → HostLink) (s : State) : (modHost f s).plans = s.plans := rfl
@[simp] theorem modHost_tim (f : HostLink → HostLink) (s : State) : (modHost f s).tim = s.tim := rfl
@[simp] theorem modHost_blv (f : HostLink → HostLink) (s : State) : (modHost f s).blv = s.blv := rfl
@[simp] theorem modHost_pwr (f : HostLink → HostLink) (s : State) : (modHost f s).pwr = s.pwr := rfl
@[simp] theorem modHost_rst (f : HostLink → HostLink) (s : State) : (modHost f s).rst = s.rst := rfl
@[simp] theorem modHost_host (f : HostLink → HostLink) (s : State) : (modHost f s).host = f s.host := rfl
@[simp] theorem modHost_setPending (f : HostLink → HostLink) (z : List Instr) (s : State) : modHost f (setPending z s) = setPending z (modHost f s) := rfl
@[simp] theorem rdW_modHost (f : HostLink → HostLink) (s : State) (r : Nat) : rdW (modHost f s) r = rdW s r := rfl
@[simp] theorem rd_modHost (f : HostLink → HostLink) (s : State) (r : Nat) : rd (modHost f s) r = rd s r := rfl
@[simp] theorem rdF_modHost (f : HostLink → HostLink) (s : State) (r l_ w_ : Nat) : rdF (modHost f s) r l_ w_ = rdF s r l_ w_ := rfl
@[simp] theorem rdB_modHost (f : HostLink → HostLink) (s : State) (r p : Nat) : rdB (modHost f s) r p = rdB s r p := rfl
@[simp] theorem ctrOf_modHost (f : HostLink → HostLink) (s : State) (r : Nat) : ctrOf (modHost f s) r = ctrOf s r := rfl

/-! ## emit -/

@[simp] theorem emit_pending (m : OutMsg) (s : State) : (emit m s).pending = s.pending := rfl
@[simp] theorem emit_regs (m : OutMsg) (s : State) : (emit m s).regs = s.regs := rfl
@[simp] theorem emit_tv (m : OutMsg) (s : State) : (emit m s).tv = s.tv := rfl
@[simp] theorem emit_ctr (m : OutMsg) (s : State) : (emit m s).ctr = s.ctr := rfl
@[simp] theorem emit_latches (m : OutMsg) (s : State) : (emit m s).latches = s.latches := rfl
@[simp] theorem emit_snapPending (m : OutMsg) (s : State) : (emit m s).snapPending = s.snapPending := rfl
@[simp] theorem emit_rdata (m : OutMsg) (s : State) : (emit m s).rdata = s.rdata := rfl
@[simp] theorem emit_rstat (m : OutMsg) (s : State) : (emit m s).rstat = s.rstat := rfl
@[simp] theorem emit_out (m : OutMsg) (s : State) : (emit m s).out = s.out ++ [m] := rfl
@[simp] theorem emit_fuse (m : OutMsg) (s : State) : (emit m s).fuse = s.fuse := rfl
@[simp] theorem emit_mem (m : OutMsg) (s : State) : (emit m s).mem = s.mem := rfl
@[simp] theorem emit_hostMem (m : OutMsg) (s : State) : (emit m s).hostMem = s.hostMem := rfl
@[simp] theorem emit_peerMem (m : OutMsg) (s : State) : (emit m s).peerMem = s.peerMem := rfl
@[simp] theorem emit_fresh (m : OutMsg) (s : State) : (emit m s).fresh = s.fresh := rfl
@[simp] theorem emit_stamp (m : OutMsg) (s : State) : (emit m s).stamp = s.stamp := rfl
@[simp] theorem emit_led (m : OutMsg) (s : State) : (emit m s).led = s.led := rfl
@[simp] theorem emit_sq (m : OutMsg) (s : State) : (emit m s).sq = s.sq := rfl
@[simp] theorem emit_progs (m : OutMsg) (s : State) : (emit m s).progs = s.progs := rfl
@[simp] theorem emit_lastHandle (m : OutMsg) (s : State) : (emit m s).lastHandle = s.lastHandle := rfl
@[simp] theorem emit_tokens (m : OutMsg) (s : State) : (emit m s).tokens = s.tokens := rfl
@[simp] theorem emit_tasks (m : OutMsg) (s : State) : (emit m s).tasks = s.tasks := rfl
@[simp] theorem emit_cores (m : OutMsg) (s : State) : (emit m s).cores = s.cores := rfl
@[simp] theorem emit_seqs (m : OutMsg) (s : State) : (emit m s).seqs = s.seqs := rfl
@[simp] theorem emit_clients (m : OutMsg) (s : State) : (emit m s).clients = s.clients := rfl
@[simp] theorem emit_ports (m : OutMsg) (s : State) : (emit m s).ports = s.ports := rfl
@[simp] theorem emit_pipes (m : OutMsg) (s : State) : (emit m s).pipes = s.pipes := rfl
@[simp] theorem emit_binds (m : OutMsg) (s : State) : (emit m s).binds = s.binds := rfl
@[simp] theorem emit_eng (m : OutMsg) (s : State) : (emit m s).eng = s.eng := rfl
@[simp] theorem emit_ouv (m : OutMsg) (s : State) : (emit m s).ouv = s.ouv := rfl
@[simp] theorem emit_copies (m : OutMsg) (s : State) : (emit m s).copies = s.copies := rfl
@[simp] theorem emit_refreshLost (m : OutMsg) (s : State) : (emit m s).refreshLost = s.refreshLost := rfl
@[simp] theorem emit_toKerb (m : OutMsg) (s : State) : (emit m s).toKerb = s.toKerb := rfl
@[simp] theorem emit_plans (m : OutMsg) (s : State) : (emit m s).plans = s.plans := rfl
@[simp] theorem emit_tim (m : OutMsg) (s : State) : (emit m s).tim = s.tim := rfl
@[simp] theorem emit_blv (m : OutMsg) (s : State) : (emit m s).blv = s.blv := rfl
@[simp] theorem emit_pwr (m : OutMsg) (s : State) : (emit m s).pwr = s.pwr := rfl
@[simp] theorem emit_rst (m : OutMsg) (s : State) : (emit m s).rst = s.rst := rfl
@[simp] theorem emit_host (m : OutMsg) (s : State) : (emit m s).host = s.host := rfl
@[simp] theorem emit_setPending (m : OutMsg) (z : List Instr) (s : State) : emit m (setPending z s) = setPending z (emit m s) := rfl
@[simp] theorem rdW_emit (m : OutMsg) (s : State) (r : Nat) : rdW (emit m s) r = rdW s r := rfl
@[simp] theorem rd_emit (m : OutMsg) (s : State) (r : Nat) : rd (emit m s) r = rd s r := rfl
@[simp] theorem rdF_emit (m : OutMsg) (s : State) (r l_ w_ : Nat) : rdF (emit m s) r l_ w_ = rdF s r l_ w_ := rfl
@[simp] theorem rdB_emit (m : OutMsg) (s : State) (r p : Nat) : rdB (emit m s) r p = rdB s r p := rfl
@[simp] theorem ctrOf_emit (m : OutMsg) (s : State) (r : Nat) : ctrOf (emit m s) r = ctrOf s r := rfl

/-! ## modPort -/

@[simp] theorem modPort_pending (n : Nat) (f : Port → Port) (s : State) : (modPort n f s).pending = s.pending := rfl
@[simp] theorem modPort_regs (n : Nat) (f : Port → Port) (s : State) : (modPort n f s).regs = s.regs := rfl
@[simp] theorem modPort_tv (n : Nat) (f : Port → Port) (s : State) : (modPort n f s).tv = s.tv := rfl
@[simp] theorem modPort_ctr (n : Nat) (f : Port → Port) (s : State) : (modPort n f s).ctr = s.ctr := rfl
@[simp] theorem modPort_latches (n : Nat) (f : Port → Port) (s : State) : (modPort n f s).latches = s.latches := rfl
@[simp] theorem modPort_snapPending (n : Nat) (f : Port → Port) (s : State) : (modPort n f s).snapPending = s.snapPending := rfl
@[simp] theorem modPort_rdata (n : Nat) (f : Port → Port) (s : State) : (modPort n f s).rdata = s.rdata := rfl
@[simp] theorem modPort_rstat (n : Nat) (f : Port → Port) (s : State) : (modPort n f s).rstat = s.rstat := rfl
@[simp] theorem modPort_out (n : Nat) (f : Port → Port) (s : State) : (modPort n f s).out = s.out := rfl
@[simp] theorem modPort_fuse (n : Nat) (f : Port → Port) (s : State) : (modPort n f s).fuse = s.fuse := rfl
@[simp] theorem modPort_mem (n : Nat) (f : Port → Port) (s : State) : (modPort n f s).mem = s.mem := rfl
@[simp] theorem modPort_hostMem (n : Nat) (f : Port → Port) (s : State) : (modPort n f s).hostMem = s.hostMem := rfl
@[simp] theorem modPort_peerMem (n : Nat) (f : Port → Port) (s : State) : (modPort n f s).peerMem = s.peerMem := rfl
@[simp] theorem modPort_fresh (n : Nat) (f : Port → Port) (s : State) : (modPort n f s).fresh = s.fresh := rfl
@[simp] theorem modPort_stamp (n : Nat) (f : Port → Port) (s : State) : (modPort n f s).stamp = s.stamp := rfl
@[simp] theorem modPort_led (n : Nat) (f : Port → Port) (s : State) : (modPort n f s).led = s.led := rfl
@[simp] theorem modPort_sq (n : Nat) (f : Port → Port) (s : State) : (modPort n f s).sq = s.sq := rfl
@[simp] theorem modPort_progs (n : Nat) (f : Port → Port) (s : State) : (modPort n f s).progs = s.progs := rfl
@[simp] theorem modPort_lastHandle (n : Nat) (f : Port → Port) (s : State) : (modPort n f s).lastHandle = s.lastHandle := rfl
@[simp] theorem modPort_tokens (n : Nat) (f : Port → Port) (s : State) : (modPort n f s).tokens = s.tokens := rfl
@[simp] theorem modPort_tasks (n : Nat) (f : Port → Port) (s : State) : (modPort n f s).tasks = s.tasks := rfl
@[simp] theorem modPort_cores (n : Nat) (f : Port → Port) (s : State) : (modPort n f s).cores = s.cores := rfl
@[simp] theorem modPort_seqs (n : Nat) (f : Port → Port) (s : State) : (modPort n f s).seqs = s.seqs := rfl
@[simp] theorem modPort_clients (n : Nat) (f : Port → Port) (s : State) : (modPort n f s).clients = s.clients := rfl
@[simp] theorem modPort_ports (n : Nat) (f : Port → Port) (s : State) : (modPort n f s).ports = modAt n f s.ports := rfl
@[simp] theorem modPort_pipes (n : Nat) (f : Port → Port) (s : State) : (modPort n f s).pipes = s.pipes := rfl
@[simp] theorem modPort_binds (n : Nat) (f : Port → Port) (s : State) : (modPort n f s).binds = s.binds := rfl
@[simp] theorem modPort_eng (n : Nat) (f : Port → Port) (s : State) : (modPort n f s).eng = s.eng := rfl
@[simp] theorem modPort_ouv (n : Nat) (f : Port → Port) (s : State) : (modPort n f s).ouv = s.ouv := rfl
@[simp] theorem modPort_copies (n : Nat) (f : Port → Port) (s : State) : (modPort n f s).copies = s.copies := rfl
@[simp] theorem modPort_refreshLost (n : Nat) (f : Port → Port) (s : State) : (modPort n f s).refreshLost = s.refreshLost := rfl
@[simp] theorem modPort_toKerb (n : Nat) (f : Port → Port) (s : State) : (modPort n f s).toKerb = s.toKerb := rfl
@[simp] theorem modPort_plans (n : Nat) (f : Port → Port) (s : State) : (modPort n f s).plans = s.plans := rfl
@[simp] theorem modPort_tim (n : Nat) (f : Port → Port) (s : State) : (modPort n f s).tim = s.tim := rfl
@[simp] theorem modPort_blv (n : Nat) (f : Port → Port) (s : State) : (modPort n f s).blv = s.blv := rfl
@[simp] theorem modPort_pwr (n : Nat) (f : Port → Port) (s : State) : (modPort n f s).pwr = s.pwr := rfl
@[simp] theorem modPort_rst (n : Nat) (f : Port → Port) (s : State) : (modPort n f s).rst = s.rst := rfl
@[simp] theorem modPort_host (n : Nat) (f : Port → Port) (s : State) : (modPort n f s).host = s.host := rfl
@[simp] theorem modPort_setPending (n : Nat) (f : Port → Port) (z : List Instr) (s : State) : modPort n f (setPending z s) = setPending z (modPort n f s) := rfl
@[simp] theorem rdW_modPort (n : Nat) (f : Port → Port) (s : State) (r : Nat) : rdW (modPort n f s) r = rdW s r := rfl
@[simp] theorem rd_modPort (n : Nat) (f : Port → Port) (s : State) (r : Nat) : rd (modPort n f s) r = rd s r := rfl
@[simp] theorem rdF_modPort (n : Nat) (f : Port → Port) (s : State) (r l_ w_ : Nat) : rdF (modPort n f s) r l_ w_ = rdF s r l_ w_ := rfl
@[simp] theorem rdB_modPort (n : Nat) (f : Port → Port) (s : State) (r p : Nat) : rdB (modPort n f s) r p = rdB s r p := rfl
@[simp] theorem ctrOf_modPort (n : Nat) (f : Port → Port) (s : State) (r : Nat) : ctrOf (modPort n f s) r = ctrOf s r := rfl

/-! ## modPipe -/

@[simp] theorem modPipe_pending (n : Nat) (f : Pipe → Pipe) (s : State) : (modPipe n f s).pending = s.pending := rfl
@[simp] theorem modPipe_regs (n : Nat) (f : Pipe → Pipe) (s : State) : (modPipe n f s).regs = s.regs := rfl
@[simp] theorem modPipe_tv (n : Nat) (f : Pipe → Pipe) (s : State) : (modPipe n f s).tv = s.tv := rfl
@[simp] theorem modPipe_ctr (n : Nat) (f : Pipe → Pipe) (s : State) : (modPipe n f s).ctr = s.ctr := rfl
@[simp] theorem modPipe_latches (n : Nat) (f : Pipe → Pipe) (s : State) : (modPipe n f s).latches = s.latches := rfl
@[simp] theorem modPipe_snapPending (n : Nat) (f : Pipe → Pipe) (s : State) : (modPipe n f s).snapPending = s.snapPending := rfl
@[simp] theorem modPipe_rdata (n : Nat) (f : Pipe → Pipe) (s : State) : (modPipe n f s).rdata = s.rdata := rfl
@[simp] theorem modPipe_rstat (n : Nat) (f : Pipe → Pipe) (s : State) : (modPipe n f s).rstat = s.rstat := rfl
@[simp] theorem modPipe_out (n : Nat) (f : Pipe → Pipe) (s : State) : (modPipe n f s).out = s.out := rfl
@[simp] theorem modPipe_fuse (n : Nat) (f : Pipe → Pipe) (s : State) : (modPipe n f s).fuse = s.fuse := rfl
@[simp] theorem modPipe_mem (n : Nat) (f : Pipe → Pipe) (s : State) : (modPipe n f s).mem = s.mem := rfl
@[simp] theorem modPipe_hostMem (n : Nat) (f : Pipe → Pipe) (s : State) : (modPipe n f s).hostMem = s.hostMem := rfl
@[simp] theorem modPipe_peerMem (n : Nat) (f : Pipe → Pipe) (s : State) : (modPipe n f s).peerMem = s.peerMem := rfl
@[simp] theorem modPipe_fresh (n : Nat) (f : Pipe → Pipe) (s : State) : (modPipe n f s).fresh = s.fresh := rfl
@[simp] theorem modPipe_stamp (n : Nat) (f : Pipe → Pipe) (s : State) : (modPipe n f s).stamp = s.stamp := rfl
@[simp] theorem modPipe_led (n : Nat) (f : Pipe → Pipe) (s : State) : (modPipe n f s).led = s.led := rfl
@[simp] theorem modPipe_sq (n : Nat) (f : Pipe → Pipe) (s : State) : (modPipe n f s).sq = s.sq := rfl
@[simp] theorem modPipe_progs (n : Nat) (f : Pipe → Pipe) (s : State) : (modPipe n f s).progs = s.progs := rfl
@[simp] theorem modPipe_lastHandle (n : Nat) (f : Pipe → Pipe) (s : State) : (modPipe n f s).lastHandle = s.lastHandle := rfl
@[simp] theorem modPipe_tokens (n : Nat) (f : Pipe → Pipe) (s : State) : (modPipe n f s).tokens = s.tokens := rfl
@[simp] theorem modPipe_tasks (n : Nat) (f : Pipe → Pipe) (s : State) : (modPipe n f s).tasks = s.tasks := rfl
@[simp] theorem modPipe_cores (n : Nat) (f : Pipe → Pipe) (s : State) : (modPipe n f s).cores = s.cores := rfl
@[simp] theorem modPipe_seqs (n : Nat) (f : Pipe → Pipe) (s : State) : (modPipe n f s).seqs = s.seqs := rfl
@[simp] theorem modPipe_clients (n : Nat) (f : Pipe → Pipe) (s : State) : (modPipe n f s).clients = s.clients := rfl
@[simp] theorem modPipe_ports (n : Nat) (f : Pipe → Pipe) (s : State) : (modPipe n f s).ports = s.ports := rfl
@[simp] theorem modPipe_pipes (n : Nat) (f : Pipe → Pipe) (s : State) : (modPipe n f s).pipes = modAt n f s.pipes := rfl
@[simp] theorem modPipe_binds (n : Nat) (f : Pipe → Pipe) (s : State) : (modPipe n f s).binds = s.binds := rfl
@[simp] theorem modPipe_eng (n : Nat) (f : Pipe → Pipe) (s : State) : (modPipe n f s).eng = s.eng := rfl
@[simp] theorem modPipe_ouv (n : Nat) (f : Pipe → Pipe) (s : State) : (modPipe n f s).ouv = s.ouv := rfl
@[simp] theorem modPipe_copies (n : Nat) (f : Pipe → Pipe) (s : State) : (modPipe n f s).copies = s.copies := rfl
@[simp] theorem modPipe_refreshLost (n : Nat) (f : Pipe → Pipe) (s : State) : (modPipe n f s).refreshLost = s.refreshLost := rfl
@[simp] theorem modPipe_toKerb (n : Nat) (f : Pipe → Pipe) (s : State) : (modPipe n f s).toKerb = s.toKerb := rfl
@[simp] theorem modPipe_plans (n : Nat) (f : Pipe → Pipe) (s : State) : (modPipe n f s).plans = s.plans := rfl
@[simp] theorem modPipe_tim (n : Nat) (f : Pipe → Pipe) (s : State) : (modPipe n f s).tim = s.tim := rfl
@[simp] theorem modPipe_blv (n : Nat) (f : Pipe → Pipe) (s : State) : (modPipe n f s).blv = s.blv := rfl
@[simp] theorem modPipe_pwr (n : Nat) (f : Pipe → Pipe) (s : State) : (modPipe n f s).pwr = s.pwr := rfl
@[simp] theorem modPipe_rst (n : Nat) (f : Pipe → Pipe) (s : State) : (modPipe n f s).rst = s.rst := rfl
@[simp] theorem modPipe_host (n : Nat) (f : Pipe → Pipe) (s : State) : (modPipe n f s).host = s.host := rfl
@[simp] theorem modPipe_setPending (n : Nat) (f : Pipe → Pipe) (z : List Instr) (s : State) : modPipe n f (setPending z s) = setPending z (modPipe n f s) := rfl
@[simp] theorem rdW_modPipe (n : Nat) (f : Pipe → Pipe) (s : State) (r : Nat) : rdW (modPipe n f s) r = rdW s r := rfl
@[simp] theorem rd_modPipe (n : Nat) (f : Pipe → Pipe) (s : State) (r : Nat) : rd (modPipe n f s) r = rd s r := rfl
@[simp] theorem rdF_modPipe (n : Nat) (f : Pipe → Pipe) (s : State) (r l_ w_ : Nat) : rdF (modPipe n f s) r l_ w_ = rdF s r l_ w_ := rfl
@[simp] theorem rdB_modPipe (n : Nat) (f : Pipe → Pipe) (s : State) (r p : Nat) : rdB (modPipe n f s) r p = rdB s r p := rfl
@[simp] theorem ctrOf_modPipe (n : Nat) (f : Pipe → Pipe) (s : State) (r : Nat) : ctrOf (modPipe n f s) r = ctrOf s r := rfl

/-! ## modCore -/

@[simp] theorem modCore_pending (n : Nat) (f : TensorCore → TensorCore) (s : State) : (modCore n f s).pending = s.pending := rfl
@[simp] theorem modCore_regs (n : Nat) (f : TensorCore → TensorCore) (s : State) : (modCore n f s).regs = s.regs := rfl
@[simp] theorem modCore_tv (n : Nat) (f : TensorCore → TensorCore) (s : State) : (modCore n f s).tv = s.tv := rfl
@[simp] theorem modCore_ctr (n : Nat) (f : TensorCore → TensorCore) (s : State) : (modCore n f s).ctr = s.ctr := rfl
@[simp] theorem modCore_latches (n : Nat) (f : TensorCore → TensorCore) (s : State) : (modCore n f s).latches = s.latches := rfl
@[simp] theorem modCore_snapPending (n : Nat) (f : TensorCore → TensorCore) (s : State) : (modCore n f s).snapPending = s.snapPending := rfl
@[simp] theorem modCore_rdata (n : Nat) (f : TensorCore → TensorCore) (s : State) : (modCore n f s).rdata = s.rdata := rfl
@[simp] theorem modCore_rstat (n : Nat) (f : TensorCore → TensorCore) (s : State) : (modCore n f s).rstat = s.rstat := rfl
@[simp] theorem modCore_out (n : Nat) (f : TensorCore → TensorCore) (s : State) : (modCore n f s).out = s.out := rfl
@[simp] theorem modCore_fuse (n : Nat) (f : TensorCore → TensorCore) (s : State) : (modCore n f s).fuse = s.fuse := rfl
@[simp] theorem modCore_mem (n : Nat) (f : TensorCore → TensorCore) (s : State) : (modCore n f s).mem = s.mem := rfl
@[simp] theorem modCore_hostMem (n : Nat) (f : TensorCore → TensorCore) (s : State) : (modCore n f s).hostMem = s.hostMem := rfl
@[simp] theorem modCore_peerMem (n : Nat) (f : TensorCore → TensorCore) (s : State) : (modCore n f s).peerMem = s.peerMem := rfl
@[simp] theorem modCore_fresh (n : Nat) (f : TensorCore → TensorCore) (s : State) : (modCore n f s).fresh = s.fresh := rfl
@[simp] theorem modCore_stamp (n : Nat) (f : TensorCore → TensorCore) (s : State) : (modCore n f s).stamp = s.stamp := rfl
@[simp] theorem modCore_led (n : Nat) (f : TensorCore → TensorCore) (s : State) : (modCore n f s).led = s.led := rfl
@[simp] theorem modCore_sq (n : Nat) (f : TensorCore → TensorCore) (s : State) : (modCore n f s).sq = s.sq := rfl
@[simp] theorem modCore_progs (n : Nat) (f : TensorCore → TensorCore) (s : State) : (modCore n f s).progs = s.progs := rfl
@[simp] theorem modCore_lastHandle (n : Nat) (f : TensorCore → TensorCore) (s : State) : (modCore n f s).lastHandle = s.lastHandle := rfl
@[simp] theorem modCore_tokens (n : Nat) (f : TensorCore → TensorCore) (s : State) : (modCore n f s).tokens = s.tokens := rfl
@[simp] theorem modCore_tasks (n : Nat) (f : TensorCore → TensorCore) (s : State) : (modCore n f s).tasks = s.tasks := rfl
@[simp] theorem modCore_cores (n : Nat) (f : TensorCore → TensorCore) (s : State) : (modCore n f s).cores = modAt n f s.cores := rfl
@[simp] theorem modCore_seqs (n : Nat) (f : TensorCore → TensorCore) (s : State) : (modCore n f s).seqs = s.seqs := rfl
@[simp] theorem modCore_clients (n : Nat) (f : TensorCore → TensorCore) (s : State) : (modCore n f s).clients = s.clients := rfl
@[simp] theorem modCore_ports (n : Nat) (f : TensorCore → TensorCore) (s : State) : (modCore n f s).ports = s.ports := rfl
@[simp] theorem modCore_pipes (n : Nat) (f : TensorCore → TensorCore) (s : State) : (modCore n f s).pipes = s.pipes := rfl
@[simp] theorem modCore_binds (n : Nat) (f : TensorCore → TensorCore) (s : State) : (modCore n f s).binds = s.binds := rfl
@[simp] theorem modCore_eng (n : Nat) (f : TensorCore → TensorCore) (s : State) : (modCore n f s).eng = s.eng := rfl
@[simp] theorem modCore_ouv (n : Nat) (f : TensorCore → TensorCore) (s : State) : (modCore n f s).ouv = s.ouv := rfl
@[simp] theorem modCore_copies (n : Nat) (f : TensorCore → TensorCore) (s : State) : (modCore n f s).copies = s.copies := rfl
@[simp] theorem modCore_refreshLost (n : Nat) (f : TensorCore → TensorCore) (s : State) : (modCore n f s).refreshLost = s.refreshLost := rfl
@[simp] theorem modCore_toKerb (n : Nat) (f : TensorCore → TensorCore) (s : State) : (modCore n f s).toKerb = s.toKerb := rfl
@[simp] theorem modCore_plans (n : Nat) (f : TensorCore → TensorCore) (s : State) : (modCore n f s).plans = s.plans := rfl
@[simp] theorem modCore_tim (n : Nat) (f : TensorCore → TensorCore) (s : State) : (modCore n f s).tim = s.tim := rfl
@[simp] theorem modCore_blv (n : Nat) (f : TensorCore → TensorCore) (s : State) : (modCore n f s).blv = s.blv := rfl
@[simp] theorem modCore_pwr (n : Nat) (f : TensorCore → TensorCore) (s : State) : (modCore n f s).pwr = s.pwr := rfl
@[simp] theorem modCore_rst (n : Nat) (f : TensorCore → TensorCore) (s : State) : (modCore n f s).rst = s.rst := rfl
@[simp] theorem modCore_host (n : Nat) (f : TensorCore → TensorCore) (s : State) : (modCore n f s).host = s.host := rfl
@[simp] theorem modCore_setPending (n : Nat) (f : TensorCore → TensorCore) (z : List Instr) (s : State) : modCore n f (setPending z s) = setPending z (modCore n f s) := rfl
@[simp] theorem rdW_modCore (n : Nat) (f : TensorCore → TensorCore) (s : State) (r : Nat) : rdW (modCore n f s) r = rdW s r := rfl
@[simp] theorem rd_modCore (n : Nat) (f : TensorCore → TensorCore) (s : State) (r : Nat) : rd (modCore n f s) r = rd s r := rfl
@[simp] theorem rdF_modCore (n : Nat) (f : TensorCore → TensorCore) (s : State) (r l_ w_ : Nat) : rdF (modCore n f s) r l_ w_ = rdF s r l_ w_ := rfl
@[simp] theorem rdB_modCore (n : Nat) (f : TensorCore → TensorCore) (s : State) (r p : Nat) : rdB (modCore n f s) r p = rdB s r p := rfl
@[simp] theorem ctrOf_modCore (n : Nat) (f : TensorCore → TensorCore) (s : State) (r : Nat) : ctrOf (modCore n f s) r = ctrOf s r := rfl

/-! ## modEnc -/

@[simp] theorem modEnc_pending (n : Nat) (f : Encoder → Encoder) (s : State) : (modEnc n f s).pending = s.pending := rfl
@[simp] theorem modEnc_regs (n : Nat) (f : Encoder → Encoder) (s : State) : (modEnc n f s).regs = s.regs := rfl
@[simp] theorem modEnc_tv (n : Nat) (f : Encoder → Encoder) (s : State) : (modEnc n f s).tv = s.tv := rfl
@[simp] theorem modEnc_ctr (n : Nat) (f : Encoder → Encoder) (s : State) : (modEnc n f s).ctr = s.ctr := rfl
@[simp] theorem modEnc_latches (n : Nat) (f : Encoder → Encoder) (s : State) : (modEnc n f s).latches = s.latches := rfl
@[simp] theorem modEnc_snapPending (n : Nat) (f : Encoder → Encoder) (s : State) : (modEnc n f s).snapPending = s.snapPending := rfl
@[simp] theorem modEnc_rdata (n : Nat) (f : Encoder → Encoder) (s : State) : (modEnc n f s).rdata = s.rdata := rfl
@[simp] theorem modEnc_rstat (n : Nat) (f : Encoder → Encoder) (s : State) : (modEnc n f s).rstat = s.rstat := rfl
@[simp] theorem modEnc_out (n : Nat) (f : Encoder → Encoder) (s : State) : (modEnc n f s).out = s.out := rfl
@[simp] theorem modEnc_fuse (n : Nat) (f : Encoder → Encoder) (s : State) : (modEnc n f s).fuse = s.fuse := rfl
@[simp] theorem modEnc_mem (n : Nat) (f : Encoder → Encoder) (s : State) : (modEnc n f s).mem = s.mem := rfl
@[simp] theorem modEnc_hostMem (n : Nat) (f : Encoder → Encoder) (s : State) : (modEnc n f s).hostMem = s.hostMem := rfl
@[simp] theorem modEnc_peerMem (n : Nat) (f : Encoder → Encoder) (s : State) : (modEnc n f s).peerMem = s.peerMem := rfl
@[simp] theorem modEnc_fresh (n : Nat) (f : Encoder → Encoder) (s : State) : (modEnc n f s).fresh = s.fresh := rfl
@[simp] theorem modEnc_stamp (n : Nat) (f : Encoder → Encoder) (s : State) : (modEnc n f s).stamp = s.stamp := rfl
@[simp] theorem modEnc_led (n : Nat) (f : Encoder → Encoder) (s : State) : (modEnc n f s).led = s.led := rfl
@[simp] theorem modEnc_sq (n : Nat) (f : Encoder → Encoder) (s : State) : (modEnc n f s).sq = s.sq := rfl
@[simp] theorem modEnc_progs (n : Nat) (f : Encoder → Encoder) (s : State) : (modEnc n f s).progs = s.progs := rfl
@[simp] theorem modEnc_lastHandle (n : Nat) (f : Encoder → Encoder) (s : State) : (modEnc n f s).lastHandle = s.lastHandle := rfl
@[simp] theorem modEnc_tokens (n : Nat) (f : Encoder → Encoder) (s : State) : (modEnc n f s).tokens = s.tokens := rfl
@[simp] theorem modEnc_tasks (n : Nat) (f : Encoder → Encoder) (s : State) : (modEnc n f s).tasks = s.tasks := rfl
@[simp] theorem modEnc_cores (n : Nat) (f : Encoder → Encoder) (s : State) : (modEnc n f s).cores = s.cores := rfl
@[simp] theorem modEnc_seqs (n : Nat) (f : Encoder → Encoder) (s : State) : (modEnc n f s).seqs = s.seqs := rfl
@[simp] theorem modEnc_clients (n : Nat) (f : Encoder → Encoder) (s : State) : (modEnc n f s).clients = s.clients := rfl
@[simp] theorem modEnc_ports (n : Nat) (f : Encoder → Encoder) (s : State) : (modEnc n f s).ports = s.ports := rfl
@[simp] theorem modEnc_pipes (n : Nat) (f : Encoder → Encoder) (s : State) : (modEnc n f s).pipes = s.pipes := rfl
@[simp] theorem modEnc_binds (n : Nat) (f : Encoder → Encoder) (s : State) : (modEnc n f s).binds = s.binds := rfl
@[simp] theorem modEnc_eng (n : Nat) (f : Encoder → Encoder) (s : State) : (modEnc n f s).eng = s.eng := rfl
@[simp] theorem modEnc_ouv (n : Nat) (f : Encoder → Encoder) (s : State) : (modEnc n f s).ouv = { s.ouv with encs := modAt n f s.ouv.encs } := rfl
@[simp] theorem modEnc_copies (n : Nat) (f : Encoder → Encoder) (s : State) : (modEnc n f s).copies = s.copies := rfl
@[simp] theorem modEnc_refreshLost (n : Nat) (f : Encoder → Encoder) (s : State) : (modEnc n f s).refreshLost = s.refreshLost := rfl
@[simp] theorem modEnc_toKerb (n : Nat) (f : Encoder → Encoder) (s : State) : (modEnc n f s).toKerb = s.toKerb := rfl
@[simp] theorem modEnc_plans (n : Nat) (f : Encoder → Encoder) (s : State) : (modEnc n f s).plans = s.plans := rfl
@[simp] theorem modEnc_tim (n : Nat) (f : Encoder → Encoder) (s : State) : (modEnc n f s).tim = s.tim := rfl
@[simp] theorem modEnc_blv (n : Nat) (f : Encoder → Encoder) (s : State) : (modEnc n f s).blv = s.blv := rfl
@[simp] theorem modEnc_pwr (n : Nat) (f : Encoder → Encoder) (s : State) : (modEnc n f s).pwr = s.pwr := rfl
@[simp] theorem modEnc_rst (n : Nat) (f : Encoder → Encoder) (s : State) : (modEnc n f s).rst = s.rst := rfl
@[simp] theorem modEnc_host (n : Nat) (f : Encoder → Encoder) (s : State) : (modEnc n f s).host = s.host := rfl
@[simp] theorem modEnc_setPending (n : Nat) (f : Encoder → Encoder) (z : List Instr) (s : State) : modEnc n f (setPending z s) = setPending z (modEnc n f s) := rfl
@[simp] theorem rdW_modEnc (n : Nat) (f : Encoder → Encoder) (s : State) (r : Nat) : rdW (modEnc n f s) r = rdW s r := rfl
@[simp] theorem rd_modEnc (n : Nat) (f : Encoder → Encoder) (s : State) (r : Nat) : rd (modEnc n f s) r = rd s r := rfl
@[simp] theorem rdF_modEnc (n : Nat) (f : Encoder → Encoder) (s : State) (r l_ w_ : Nat) : rdF (modEnc n f s) r l_ w_ = rdF s r l_ w_ := rfl
@[simp] theorem rdB_modEnc (n : Nat) (f : Encoder → Encoder) (s : State) (r p : Nat) : rdB (modEnc n f s) r p = rdB s r p := rfl
@[simp] theorem ctrOf_modEnc (n : Nat) (f : Encoder → Encoder) (s : State) (r : Nat) : ctrOf (modEnc n f s) r = ctrOf s r := rfl

/-! ## modOutput -/

@[simp] theorem modOutput_pending (n : Nat) (f : Output → Output) (s : State) : (modOutput n f s).pending = s.pending := rfl
@[simp] theorem modOutput_regs (n : Nat) (f : Output → Output) (s : State) : (modOutput n f s).regs = s.regs := rfl
@[simp] theorem modOutput_tv (n : Nat) (f : Output → Output) (s : State) : (modOutput n f s).tv = s.tv := rfl
@[simp] theorem modOutput_ctr (n : Nat) (f : Output → Output) (s : State) : (modOutput n f s).ctr = s.ctr := rfl
@[simp] theorem modOutput_latches (n : Nat) (f : Output → Output) (s : State) : (modOutput n f s).latches = s.latches := rfl
@[simp] theorem modOutput_snapPending (n : Nat) (f : Output → Output) (s : State) : (modOutput n f s).snapPending = s.snapPending := rfl
@[simp] theorem modOutput_rdata (n : Nat) (f : Output → Output) (s : State) : (modOutput n f s).rdata = s.rdata := rfl
@[simp] theorem modOutput_rstat (n : Nat) (f : Output → Output) (s : State) : (modOutput n f s).rstat = s.rstat := rfl
@[simp] theorem modOutput_out (n : Nat) (f : Output → Output) (s : State) : (modOutput n f s).out = s.out := rfl
@[simp] theorem modOutput_fuse (n : Nat) (f : Output → Output) (s : State) : (modOutput n f s).fuse = s.fuse := rfl
@[simp] theorem modOutput_mem (n : Nat) (f : Output → Output) (s : State) : (modOutput n f s).mem = s.mem := rfl
@[simp] theorem modOutput_hostMem (n : Nat) (f : Output → Output) (s : State) : (modOutput n f s).hostMem = s.hostMem := rfl
@[simp] theorem modOutput_peerMem (n : Nat) (f : Output → Output) (s : State) : (modOutput n f s).peerMem = s.peerMem := rfl
@[simp] theorem modOutput_fresh (n : Nat) (f : Output → Output) (s : State) : (modOutput n f s).fresh = s.fresh := rfl
@[simp] theorem modOutput_stamp (n : Nat) (f : Output → Output) (s : State) : (modOutput n f s).stamp = s.stamp := rfl
@[simp] theorem modOutput_led (n : Nat) (f : Output → Output) (s : State) : (modOutput n f s).led = s.led := rfl
@[simp] theorem modOutput_sq (n : Nat) (f : Output → Output) (s : State) : (modOutput n f s).sq = s.sq := rfl
@[simp] theorem modOutput_progs (n : Nat) (f : Output → Output) (s : State) : (modOutput n f s).progs = s.progs := rfl
@[simp] theorem modOutput_lastHandle (n : Nat) (f : Output → Output) (s : State) : (modOutput n f s).lastHandle = s.lastHandle := rfl
@[simp] theorem modOutput_tokens (n : Nat) (f : Output → Output) (s : State) : (modOutput n f s).tokens = s.tokens := rfl
@[simp] theorem modOutput_tasks (n : Nat) (f : Output → Output) (s : State) : (modOutput n f s).tasks = s.tasks := rfl
@[simp] theorem modOutput_cores (n : Nat) (f : Output → Output) (s : State) : (modOutput n f s).cores = s.cores := rfl
@[simp] theorem modOutput_seqs (n : Nat) (f : Output → Output) (s : State) : (modOutput n f s).seqs = s.seqs := rfl
@[simp] theorem modOutput_clients (n : Nat) (f : Output → Output) (s : State) : (modOutput n f s).clients = s.clients := rfl
@[simp] theorem modOutput_ports (n : Nat) (f : Output → Output) (s : State) : (modOutput n f s).ports = s.ports := rfl
@[simp] theorem modOutput_pipes (n : Nat) (f : Output → Output) (s : State) : (modOutput n f s).pipes = s.pipes := rfl
@[simp] theorem modOutput_binds (n : Nat) (f : Output → Output) (s : State) : (modOutput n f s).binds = s.binds := rfl
@[simp] theorem modOutput_eng (n : Nat) (f : Output → Output) (s : State) : (modOutput n f s).eng = s.eng := rfl
@[simp] theorem modOutput_ouv (n : Nat) (f : Output → Output) (s : State) : (modOutput n f s).ouv = { s.ouv with outputs := modAt n f s.ouv.outputs } := rfl
@[simp] theorem modOutput_copies (n : Nat) (f : Output → Output) (s : State) : (modOutput n f s).copies = s.copies := rfl
@[simp] theorem modOutput_refreshLost (n : Nat) (f : Output → Output) (s : State) : (modOutput n f s).refreshLost = s.refreshLost := rfl
@[simp] theorem modOutput_toKerb (n : Nat) (f : Output → Output) (s : State) : (modOutput n f s).toKerb = s.toKerb := rfl
@[simp] theorem modOutput_plans (n : Nat) (f : Output → Output) (s : State) : (modOutput n f s).plans = s.plans := rfl
@[simp] theorem modOutput_tim (n : Nat) (f : Output → Output) (s : State) : (modOutput n f s).tim = s.tim := rfl
@[simp] theorem modOutput_blv (n : Nat) (f : Output → Output) (s : State) : (modOutput n f s).blv = s.blv := rfl
@[simp] theorem modOutput_pwr (n : Nat) (f : Output → Output) (s : State) : (modOutput n f s).pwr = s.pwr := rfl
@[simp] theorem modOutput_rst (n : Nat) (f : Output → Output) (s : State) : (modOutput n f s).rst = s.rst := rfl
@[simp] theorem modOutput_host (n : Nat) (f : Output → Output) (s : State) : (modOutput n f s).host = s.host := rfl
@[simp] theorem modOutput_setPending (n : Nat) (f : Output → Output) (z : List Instr) (s : State) : modOutput n f (setPending z s) = setPending z (modOutput n f s) := rfl
@[simp] theorem rdW_modOutput (n : Nat) (f : Output → Output) (s : State) (r : Nat) : rdW (modOutput n f s) r = rdW s r := rfl
@[simp] theorem rd_modOutput (n : Nat) (f : Output → Output) (s : State) (r : Nat) : rd (modOutput n f s) r = rd s r := rfl
@[simp] theorem rdF_modOutput (n : Nat) (f : Output → Output) (s : State) (r l_ w_ : Nat) : rdF (modOutput n f s) r l_ w_ = rdF s r l_ w_ := rfl
@[simp] theorem rdB_modOutput (n : Nat) (f : Output → Output) (s : State) (r p : Nat) : rdB (modOutput n f s) r p = rdB s r p := rfl
@[simp] theorem ctrOf_modOutput (n : Nat) (f : Output → Output) (s : State) (r : Nat) : ctrOf (modOutput n f s) r = ctrOf s r := rfl

/-! ## modTask -/

@[simp] theorem modTask_pending (x : TaskId) (f : Task → Task) (s : State) : (modTask x f s).pending = s.pending := rfl
@[simp] theorem modTask_regs (x : TaskId) (f : Task → Task) (s : State) : (modTask x f s).regs = s.regs := rfl
@[simp] theorem modTask_tv (x : TaskId) (f : Task → Task) (s : State) : (modTask x f s).tv = s.tv := rfl
@[simp] theorem modTask_ctr (x : TaskId) (f : Task → Task) (s : State) : (modTask x f s).ctr = s.ctr := rfl
@[simp] theorem modTask_latches (x : TaskId) (f : Task → Task) (s : State) : (modTask x f s).latches = s.latches := rfl
@[simp] theorem modTask_snapPending (x : TaskId) (f : Task → Task) (s : State) : (modTask x f s).snapPending = s.snapPending := rfl
@[simp] theorem modTask_rdata (x : TaskId) (f : Task → Task) (s : State) : (modTask x f s).rdata = s.rdata := rfl
@[simp] theorem modTask_rstat (x : TaskId) (f : Task → Task) (s : State) : (modTask x f s).rstat = s.rstat := rfl
@[simp] theorem modTask_out (x : TaskId) (f : Task → Task) (s : State) : (modTask x f s).out = s.out := rfl
@[simp] theorem modTask_fuse (x : TaskId) (f : Task → Task) (s : State) : (modTask x f s).fuse = s.fuse := rfl
@[simp] theorem modTask_mem (x : TaskId) (f : Task → Task) (s : State) : (modTask x f s).mem = s.mem := rfl
@[simp] theorem modTask_hostMem (x : TaskId) (f : Task → Task) (s : State) : (modTask x f s).hostMem = s.hostMem := rfl
@[simp] theorem modTask_peerMem (x : TaskId) (f : Task → Task) (s : State) : (modTask x f s).peerMem = s.peerMem := rfl
@[simp] theorem modTask_fresh (x : TaskId) (f : Task → Task) (s : State) : (modTask x f s).fresh = s.fresh := rfl
@[simp] theorem modTask_stamp (x : TaskId) (f : Task → Task) (s : State) : (modTask x f s).stamp = s.stamp := rfl
@[simp] theorem modTask_led (x : TaskId) (f : Task → Task) (s : State) : (modTask x f s).led = s.led := rfl
@[simp] theorem modTask_sq (x : TaskId) (f : Task → Task) (s : State) : (modTask x f s).sq = s.sq := rfl
@[simp] theorem modTask_progs (x : TaskId) (f : Task → Task) (s : State) : (modTask x f s).progs = s.progs := rfl
@[simp] theorem modTask_lastHandle (x : TaskId) (f : Task → Task) (s : State) : (modTask x f s).lastHandle = s.lastHandle := rfl
@[simp] theorem modTask_tokens (x : TaskId) (f : Task → Task) (s : State) : (modTask x f s).tokens = s.tokens := rfl
@[simp] theorem modTask_tasks (x : TaskId) (f : Task → Task) (s : State) : (modTask x f s).tasks = updFirst (fun k => k.id == x) f s.tasks := rfl
@[simp] theorem modTask_cores (x : TaskId) (f : Task → Task) (s : State) : (modTask x f s).cores = s.cores := rfl
@[simp] theorem modTask_seqs (x : TaskId) (f : Task → Task) (s : State) : (modTask x f s).seqs = s.seqs := rfl
@[simp] theorem modTask_clients (x : TaskId) (f : Task → Task) (s : State) : (modTask x f s).clients = s.clients := rfl
@[simp] theorem modTask_ports (x : TaskId) (f : Task → Task) (s : State) : (modTask x f s).ports = s.ports := rfl
@[simp] theorem modTask_pipes (x : TaskId) (f : Task → Task) (s : State) : (modTask x f s).pipes = s.pipes := rfl
@[simp] theorem modTask_binds (x : TaskId) (f : Task → Task) (s : State) : (modTask x f s).binds = s.binds := rfl
@[simp] theorem modTask_eng (x : TaskId) (f : Task → Task) (s : State) : (modTask x f s).eng = s.eng := rfl
@[simp] theorem modTask_ouv (x : TaskId) (f : Task → Task) (s : State) : (modTask x f s).ouv = s.ouv := rfl
@[simp] theorem modTask_copies (x : TaskId) (f : Task → Task) (s : State) : (modTask x f s).copies = s.copies := rfl
@[simp] theorem modTask_refreshLost (x : TaskId) (f : Task → Task) (s : State) : (modTask x f s).refreshLost = s.refreshLost := rfl
@[simp] theorem modTask_toKerb (x : TaskId) (f : Task → Task) (s : State) : (modTask x f s).toKerb = s.toKerb := rfl
@[simp] theorem modTask_plans (x : TaskId) (f : Task → Task) (s : State) : (modTask x f s).plans = s.plans := rfl
@[simp] theorem modTask_tim (x : TaskId) (f : Task → Task) (s : State) : (modTask x f s).tim = s.tim := rfl
@[simp] theorem modTask_blv (x : TaskId) (f : Task → Task) (s : State) : (modTask x f s).blv = s.blv := rfl
@[simp] theorem modTask_pwr (x : TaskId) (f : Task → Task) (s : State) : (modTask x f s).pwr = s.pwr := rfl
@[simp] theorem modTask_rst (x : TaskId) (f : Task → Task) (s : State) : (modTask x f s).rst = s.rst := rfl
@[simp] theorem modTask_host (x : TaskId) (f : Task → Task) (s : State) : (modTask x f s).host = s.host := rfl
@[simp] theorem modTask_setPending (x : TaskId) (f : Task → Task) (z : List Instr) (s : State) : modTask x f (setPending z s) = setPending z (modTask x f s) := rfl
@[simp] theorem rdW_modTask (x : TaskId) (f : Task → Task) (s : State) (r : Nat) : rdW (modTask x f s) r = rdW s r := rfl
@[simp] theorem rd_modTask (x : TaskId) (f : Task → Task) (s : State) (r : Nat) : rd (modTask x f s) r = rd s r := rfl
@[simp] theorem rdF_modTask (x : TaskId) (f : Task → Task) (s : State) (r l_ w_ : Nat) : rdF (modTask x f s) r l_ w_ = rdF s r l_ w_ := rfl
@[simp] theorem rdB_modTask (x : TaskId) (f : Task → Task) (s : State) (r p : Nat) : rdB (modTask x f s) r p = rdB s r p := rfl
@[simp] theorem ctrOf_modTask (x : TaskId) (f : Task → Task) (s : State) (r : Nat) : ctrOf (modTask x f s) r = ctrOf s r := rfl

/-! ## modProg -/

@[simp] theorem modProg_pending (h : Nat) (f : Program → Program) (s : State) : (modProg h f s).pending = s.pending := rfl
@[simp] theorem modProg_regs (h : Nat) (f : Program → Program) (s : State) : (modProg h f s).regs = s.regs := rfl
@[simp] theorem modProg_tv (h : Nat) (f : Program → Program) (s : State) : (modProg h f s).tv = s.tv := rfl
@[simp] theorem modProg_ctr (h : Nat) (f : Program → Program) (s : State) : (modProg h f s).ctr = s.ctr := rfl
@[simp] theorem modProg_latches (h : Nat) (f : Program → Program) (s : State) : (modProg h f s).latches = s.latches := rfl
@[simp] theorem modProg_snapPending (h : Nat) (f : Program → Program) (s : State) : (modProg h f s).snapPending = s.snapPending := rfl
@[simp] theorem modProg_rdata (h : Nat) (f : Program → Program) (s : State) : (modProg h f s).rdata = s.rdata := rfl
@[simp] theorem modProg_rstat (h : Nat) (f : Program → Program) (s : State) : (modProg h f s).rstat = s.rstat := rfl
@[simp] theorem modProg_out (h : Nat) (f : Program → Program) (s : State) : (modProg h f s).out = s.out := rfl
@[simp] theorem modProg_fuse (h : Nat) (f : Program → Program) (s : State) : (modProg h f s).fuse = s.fuse := rfl
@[simp] theorem modProg_mem (h : Nat) (f : Program → Program) (s : State) : (modProg h f s).mem = s.mem := rfl
@[simp] theorem modProg_hostMem (h : Nat) (f : Program → Program) (s : State) : (modProg h f s).hostMem = s.hostMem := rfl
@[simp] theorem modProg_peerMem (h : Nat) (f : Program → Program) (s : State) : (modProg h f s).peerMem = s.peerMem := rfl
@[simp] theorem modProg_fresh (h : Nat) (f : Program → Program) (s : State) : (modProg h f s).fresh = s.fresh := rfl
@[simp] theorem modProg_stamp (h : Nat) (f : Program → Program) (s : State) : (modProg h f s).stamp = s.stamp := rfl
@[simp] theorem modProg_led (h : Nat) (f : Program → Program) (s : State) : (modProg h f s).led = s.led := rfl
@[simp] theorem modProg_sq (h : Nat) (f : Program → Program) (s : State) : (modProg h f s).sq = s.sq := rfl
@[simp] theorem modProg_progs (h : Nat) (f : Program → Program) (s : State) : (modProg h f s).progs = updFirst (fun p => p.handle == h) f s.progs := rfl
@[simp] theorem modProg_lastHandle (h : Nat) (f : Program → Program) (s : State) : (modProg h f s).lastHandle = s.lastHandle := rfl
@[simp] theorem modProg_tokens (h : Nat) (f : Program → Program) (s : State) : (modProg h f s).tokens = s.tokens := rfl
@[simp] theorem modProg_tasks (h : Nat) (f : Program → Program) (s : State) : (modProg h f s).tasks = s.tasks := rfl
@[simp] theorem modProg_cores (h : Nat) (f : Program → Program) (s : State) : (modProg h f s).cores = s.cores := rfl
@[simp] theorem modProg_seqs (h : Nat) (f : Program → Program) (s : State) : (modProg h f s).seqs = s.seqs := rfl
@[simp] theorem modProg_clients (h : Nat) (f : Program → Program) (s : State) : (modProg h f s).clients = s.clients := rfl
@[simp] theorem modProg_ports (h : Nat) (f : Program → Program) (s : State) : (modProg h f s).ports = s.ports := rfl
@[simp] theorem modProg_pipes (h : Nat) (f : Program → Program) (s : State) : (modProg h f s).pipes = s.pipes := rfl
@[simp] theorem modProg_binds (h : Nat) (f : Program → Program) (s : State) : (modProg h f s).binds = s.binds := rfl
@[simp] theorem modProg_eng (h : Nat) (f : Program → Program) (s : State) : (modProg h f s).eng = s.eng := rfl
@[simp] theorem modProg_ouv (h : Nat) (f : Program → Program) (s : State) : (modProg h f s).ouv = s.ouv := rfl
@[simp] theorem modProg_copies (h : Nat) (f : Program → Program) (s : State) : (modProg h f s).copies = s.copies := rfl
@[simp] theorem modProg_refreshLost (h : Nat) (f : Program → Program) (s : State) : (modProg h f s).refreshLost = s.refreshLost := rfl
@[simp] theorem modProg_toKerb (h : Nat) (f : Program → Program) (s : State) : (modProg h f s).toKerb = s.toKerb := rfl
@[simp] theorem modProg_plans (h : Nat) (f : Program → Program) (s : State) : (modProg h f s).plans = s.plans := rfl
@[simp] theorem modProg_tim (h : Nat) (f : Program → Program) (s : State) : (modProg h f s).tim = s.tim := rfl
@[simp] theorem modProg_blv (h : Nat) (f : Program → Program) (s : State) : (modProg h f s).blv = s.blv := rfl
@[simp] theorem modProg_pwr (h : Nat) (f : Program → Program) (s : State) : (modProg h f s).pwr = s.pwr := rfl
@[simp] theorem modProg_rst (h : Nat) (f : Program → Program) (s : State) : (modProg h f s).rst = s.rst := rfl
@[simp] theorem modProg_host (h : Nat) (f : Program → Program) (s : State) : (modProg h f s).host = s.host := rfl
@[simp] theorem modProg_setPending (h : Nat) (f : Program → Program) (z : List Instr) (s : State) : modProg h f (setPending z s) = setPending z (modProg h f s) := rfl
@[simp] theorem rdW_modProg (h : Nat) (f : Program → Program) (s : State) (r : Nat) : rdW (modProg h f s) r = rdW s r := rfl
@[simp] theorem rd_modProg (h : Nat) (f : Program → Program) (s : State) (r : Nat) : rd (modProg h f s) r = rd s r := rfl
@[simp] theorem rdF_modProg (h : Nat) (f : Program → Program) (s : State) (r l_ w_ : Nat) : rdF (modProg h f s) r l_ w_ = rdF s r l_ w_ := rfl
@[simp] theorem rdB_modProg (h : Nat) (f : Program → Program) (s : State) (r p : Nat) : rdB (modProg h f s) r p = rdB s r p := rfl
@[simp] theorem ctrOf_modProg (h : Nat) (f : Program → Program) (s : State) (r : Nat) : ctrOf (modProg h f s) r = ctrOf s r := rfl

/-! ## hostPut -/

@[simp] theorem hostPut_pending (a : Nat) (bs : List Byte) (s : State) : (hostPut a bs s).pending = s.pending := rfl
@[simp] theorem hostPut_regs (a : Nat) (bs : List Byte) (s : State) : (hostPut a bs s).regs = s.regs := rfl
@[simp] theorem hostPut_tv (a : Nat) (bs : List Byte) (s : State) : (hostPut a bs s).tv = s.tv := rfl
@[simp] theorem hostPut_ctr (a : Nat) (bs : List Byte) (s : State) : (hostPut a bs s).ctr = s.ctr := rfl
@[simp] theorem hostPut_latches (a : Nat) (bs : List Byte) (s : State) : (hostPut a bs s).latches = s.latches := rfl
@[simp] theorem hostPut_snapPending (a : Nat) (bs : List Byte) (s : State) : (hostPut a bs s).snapPending = s.snapPending := rfl
@[simp] theorem hostPut_rdata (a : Nat) (bs : List Byte) (s : State) : (hostPut a bs s).rdata = s.rdata := rfl
@[simp] theorem hostPut_rstat (a : Nat) (bs : List Byte) (s : State) : (hostPut a bs s).rstat = s.rstat := rfl
@[simp] theorem hostPut_out (a : Nat) (bs : List Byte) (s : State) : (hostPut a bs s).out = s.out := rfl
@[simp] theorem hostPut_fuse (a : Nat) (bs : List Byte) (s : State) : (hostPut a bs s).fuse = s.fuse := rfl
@[simp] theorem hostPut_mem (a : Nat) (bs : List Byte) (s : State) : (hostPut a bs s).mem = s.mem := rfl
@[simp] theorem hostPut_hostMem (a : Nat) (bs : List Byte) (s : State) : (hostPut a bs s).hostMem = memWrite s.hostMem (hostAddr s a) bs := rfl
@[simp] theorem hostPut_peerMem (a : Nat) (bs : List Byte) (s : State) : (hostPut a bs s).peerMem = s.peerMem := rfl
@[simp] theorem hostPut_fresh (a : Nat) (bs : List Byte) (s : State) : (hostPut a bs s).fresh = s.fresh := rfl
@[simp] theorem hostPut_stamp (a : Nat) (bs : List Byte) (s : State) : (hostPut a bs s).stamp = s.stamp := rfl
@[simp] theorem hostPut_led (a : Nat) (bs : List Byte) (s : State) : (hostPut a bs s).led = s.led := rfl
@[simp] theorem hostPut_sq (a : Nat) (bs : List Byte) (s : State) : (hostPut a bs s).sq = s.sq := rfl
@[simp] theorem hostPut_progs (a : Nat) (bs : List Byte) (s : State) : (hostPut a bs s).progs = s.progs := rfl
@[simp] theorem hostPut_lastHandle (a : Nat) (bs : List Byte) (s : State) : (hostPut a bs s).lastHandle = s.lastHandle := rfl
@[simp] theorem hostPut_tokens (a : Nat) (bs : List Byte) (s : State) : (hostPut a bs s).tokens = s.tokens := rfl
@[simp] theorem hostPut_tasks (a : Nat) (bs : List Byte) (s : State) : (hostPut a bs s).tasks = s.tasks := rfl
@[simp] theorem hostPut_cores (a : Nat) (bs : List Byte) (s : State) : (hostPut a bs s).cores = s.cores := rfl
@[simp] theorem hostPut_seqs (a : Nat) (bs : List Byte) (s : State) : (hostPut a bs s).seqs = s.seqs := rfl
@[simp] theorem hostPut_clients (a : Nat) (bs : List Byte) (s : State) : (hostPut a bs s).clients = s.clients := rfl
@[simp] theorem hostPut_ports (a : Nat) (bs : List Byte) (s : State) : (hostPut a bs s).ports = s.ports := rfl
@[simp] theorem hostPut_pipes (a : Nat) (bs : List Byte) (s : State) : (hostPut a bs s).pipes = s.pipes := rfl
@[simp] theorem hostPut_binds (a : Nat) (bs : List Byte) (s : State) : (hostPut a bs s).binds = s.binds := rfl
@[simp] theorem hostPut_eng (a : Nat) (bs : List Byte) (s : State) : (hostPut a bs s).eng = s.eng := rfl
@[simp] theorem hostPut_ouv (a : Nat) (bs : List Byte) (s : State) : (hostPut a bs s).ouv = s.ouv := rfl
@[simp] theorem hostPut_copies (a : Nat) (bs : List Byte) (s : State) : (hostPut a bs s).copies = s.copies := rfl
@[simp] theorem hostPut_refreshLost (a : Nat) (bs : List Byte) (s : State) : (hostPut a bs s).refreshLost = s.refreshLost := rfl
@[simp] theorem hostPut_toKerb (a : Nat) (bs : List Byte) (s : State) : (hostPut a bs s).toKerb = s.toKerb := rfl
@[simp] theorem hostPut_plans (a : Nat) (bs : List Byte) (s : State) : (hostPut a bs s).plans = s.plans := rfl
@[simp] theorem hostPut_tim (a : Nat) (bs : List Byte) (s : State) : (hostPut a bs s).tim = s.tim := rfl
@[simp] theorem hostPut_blv (a : Nat) (bs : List Byte) (s : State) : (hostPut a bs s).blv = s.blv := rfl
@[simp] theorem hostPut_pwr (a : Nat) (bs : List Byte) (s : State) : (hostPut a bs s).pwr = s.pwr := rfl
@[simp] theorem hostPut_rst (a : Nat) (bs : List Byte) (s : State) : (hostPut a bs s).rst = s.rst := rfl
@[simp] theorem hostPut_host (a : Nat) (bs : List Byte) (s : State) : (hostPut a bs s).host = s.host := rfl
@[simp] theorem hostPut_setPending (a : Nat) (bs : List Byte) (z : List Instr) (s : State) : hostPut a bs (setPending z s) = setPending z (hostPut a bs s) := rfl
@[simp] theorem rdW_hostPut (a : Nat) (bs : List Byte) (s : State) (r : Nat) : rdW (hostPut a bs s) r = rdW s r := rfl
@[simp] theorem rd_hostPut (a : Nat) (bs : List Byte) (s : State) (r : Nat) : rd (hostPut a bs s) r = rd s r := rfl
@[simp] theorem rdF_hostPut (a : Nat) (bs : List Byte) (s : State) (r l_ w_ : Nat) : rdF (hostPut a bs s) r l_ w_ = rdF s r l_ w_ := rfl
@[simp] theorem rdB_hostPut (a : Nat) (bs : List Byte) (s : State) (r p : Nat) : rdB (hostPut a bs s) r p = rdB s r p := rfl
@[simp] theorem ctrOf_hostPut (a : Nat) (bs : List Byte) (s : State) (r : Nat) : ctrOf (hostPut a bs s) r = ctrOf s r := rfl

/-! ## devPut -/

@[simp] theorem devPut_pending (a : Nat) (bs : List Byte) (s : State) : (devPut a bs s).pending = s.pending := rfl
@[simp] theorem devPut_regs (a : Nat) (bs : List Byte) (s : State) : (devPut a bs s).regs = s.regs := rfl
@[simp] theorem devPut_tv (a : Nat) (bs : List Byte) (s : State) : (devPut a bs s).tv = s.tv := rfl
@[simp] theorem devPut_ctr (a : Nat) (bs : List Byte) (s : State) : (devPut a bs s).ctr = s.ctr := rfl
@[simp] theorem devPut_latches (a : Nat) (bs : List Byte) (s : State) : (devPut a bs s).latches = s.latches := rfl
@[simp] theorem devPut_snapPending (a : Nat) (bs : List Byte) (s : State) : (devPut a bs s).snapPending = s.snapPending := rfl
@[simp] theorem devPut_rdata (a : Nat) (bs : List Byte) (s : State) : (devPut a bs s).rdata = s.rdata := rfl
@[simp] theorem devPut_rstat (a : Nat) (bs : List Byte) (s : State) : (devPut a bs s).rstat = s.rstat := rfl
@[simp] theorem devPut_out (a : Nat) (bs : List Byte) (s : State) : (devPut a bs s).out = s.out := rfl
@[simp] theorem devPut_fuse (a : Nat) (bs : List Byte) (s : State) : (devPut a bs s).fuse = s.fuse := rfl
@[simp] theorem devPut_mem (a : Nat) (bs : List Byte) (s : State) : (devPut a bs s).mem = memWrite s.mem a bs := rfl
@[simp] theorem devPut_hostMem (a : Nat) (bs : List Byte) (s : State) : (devPut a bs s).hostMem = s.hostMem := rfl
@[simp] theorem devPut_peerMem (a : Nat) (bs : List Byte) (s : State) : (devPut a bs s).peerMem = s.peerMem := rfl
@[simp] theorem devPut_fresh (a : Nat) (bs : List Byte) (s : State) : (devPut a bs s).fresh = s.fresh := rfl
@[simp] theorem devPut_stamp (a : Nat) (bs : List Byte) (s : State) : (devPut a bs s).stamp = s.stamp := rfl
@[simp] theorem devPut_led (a : Nat) (bs : List Byte) (s : State) : (devPut a bs s).led = s.led := rfl
@[simp] theorem devPut_sq (a : Nat) (bs : List Byte) (s : State) : (devPut a bs s).sq = { s.sq with poison := poisonClear s.sq.poison a bs.length } := rfl
@[simp] theorem devPut_progs (a : Nat) (bs : List Byte) (s : State) : (devPut a bs s).progs = s.progs := rfl
@[simp] theorem devPut_lastHandle (a : Nat) (bs : List Byte) (s : State) : (devPut a bs s).lastHandle = s.lastHandle := rfl
@[simp] theorem devPut_tokens (a : Nat) (bs : List Byte) (s : State) : (devPut a bs s).tokens = s.tokens := rfl
@[simp] theorem devPut_tasks (a : Nat) (bs : List Byte) (s : State) : (devPut a bs s).tasks = s.tasks := rfl
@[simp] theorem devPut_cores (a : Nat) (bs : List Byte) (s : State) : (devPut a bs s).cores = s.cores := rfl
@[simp] theorem devPut_seqs (a : Nat) (bs : List Byte) (s : State) : (devPut a bs s).seqs = s.seqs := rfl
@[simp] theorem devPut_clients (a : Nat) (bs : List Byte) (s : State) : (devPut a bs s).clients = s.clients := rfl
@[simp] theorem devPut_ports (a : Nat) (bs : List Byte) (s : State) : (devPut a bs s).ports = s.ports := rfl
@[simp] theorem devPut_pipes (a : Nat) (bs : List Byte) (s : State) : (devPut a bs s).pipes = s.pipes := rfl
@[simp] theorem devPut_binds (a : Nat) (bs : List Byte) (s : State) : (devPut a bs s).binds = s.binds := rfl
@[simp] theorem devPut_eng (a : Nat) (bs : List Byte) (s : State) : (devPut a bs s).eng = s.eng := rfl
@[simp] theorem devPut_ouv (a : Nat) (bs : List Byte) (s : State) : (devPut a bs s).ouv = s.ouv := rfl
@[simp] theorem devPut_copies (a : Nat) (bs : List Byte) (s : State) : (devPut a bs s).copies = s.copies := rfl
@[simp] theorem devPut_refreshLost (a : Nat) (bs : List Byte) (s : State) : (devPut a bs s).refreshLost = s.refreshLost := rfl
@[simp] theorem devPut_toKerb (a : Nat) (bs : List Byte) (s : State) : (devPut a bs s).toKerb = s.toKerb := rfl
@[simp] theorem devPut_plans (a : Nat) (bs : List Byte) (s : State) : (devPut a bs s).plans = s.plans := rfl
@[simp] theorem devPut_tim (a : Nat) (bs : List Byte) (s : State) : (devPut a bs s).tim = s.tim := rfl
@[simp] theorem devPut_blv (a : Nat) (bs : List Byte) (s : State) : (devPut a bs s).blv = s.blv := rfl
@[simp] theorem devPut_pwr (a : Nat) (bs : List Byte) (s : State) : (devPut a bs s).pwr = s.pwr := rfl
@[simp] theorem devPut_rst (a : Nat) (bs : List Byte) (s : State) : (devPut a bs s).rst = s.rst := rfl
@[simp] theorem devPut_host (a : Nat) (bs : List Byte) (s : State) : (devPut a bs s).host = s.host := rfl
@[simp] theorem devPut_setPending (a : Nat) (bs : List Byte) (z : List Instr) (s : State) : devPut a bs (setPending z s) = setPending z (devPut a bs s) := rfl
@[simp] theorem rdW_devPut (a : Nat) (bs : List Byte) (s : State) (r : Nat) : rdW (devPut a bs s) r = rdW s r := rfl
@[simp] theorem rd_devPut (a : Nat) (bs : List Byte) (s : State) (r : Nat) : rd (devPut a bs s) r = rd s r := rfl
@[simp] theorem rdF_devPut (a : Nat) (bs : List Byte) (s : State) (r l_ w_ : Nat) : rdF (devPut a bs s) r l_ w_ = rdF s r l_ w_ := rfl
@[simp] theorem rdB_devPut (a : Nat) (bs : List Byte) (s : State) (r p : Nat) : rdB (devPut a bs s) r p = rdB s r p := rfl
@[simp] theorem ctrOf_devPut (a : Nat) (bs : List Byte) (s : State) (r : Nat) : ctrOf (devPut a bs s) r = ctrOf s r := rfl

end Sys2Proof.Machine
end

