-- ==== Sys2Proof/Laws/Regs.lean ====
section
/-! SUPPORT. Registers, flags, counters and bit fields: what a read gives after a write of the same and of another word. -/

namespace Sys2Proof.Machine

open Sys2Proof

theorem lookup_cons_eq {α : Type} (k : Nat) (v : α) (l : List (Nat × α)) : ((k, v) :: l).lookup k = some v := by
  simp

theorem lookup_cons_ne {α : Type} (j k : Nat) (v : α) (l : List (Nat × α)) (h : j ≠ k) :
    ((k, v) :: l).lookup j = l.lookup j := by
  have hb : (j == k) = false := by simpa using h
  rw [List.lookup_cons, hb]

theorem lookup_upsert_same {α : Type} (k : Nat) (v : α) (l : List (Nat × α)) : (upsert k v l).lookup k = some v := by
  induction l with
  | nil => exact lookup_cons_eq k v []
  | cons e es ih =>
    unfold upsert
    split
    · exact lookup_cons_eq k v es
    · rename_i h
      obtain ⟨a, b⟩ := e
      rw [lookup_cons_ne _ _ _ _ (fun x => h x.symm)]
      exact ih

theorem lookup_upsert_other {α : Type} (k j : Nat) (v : α) (l : List (Nat × α)) (hj : j ≠ k) :
    (upsert k v l).lookup j = l.lookup j := by
  induction l with
  | nil => exact lookup_cons_ne j k v [] hj
  | cons e es ih =>
    obtain ⟨a, b⟩ := e
    unfold upsert
    split
    · rename_i h
      rw [lookup_cons_ne _ _ _ _ hj, lookup_cons_ne _ _ _ _ (by simp at h; omega)]
    · by_cases ha : j = a
      · subst ha
        rw [lookup_cons_eq, lookup_cons_eq]
      · rw [lookup_cons_ne _ _ _ _ ha, lookup_cons_ne _ _ _ _ ha]
        exact ih

/-- A register word just written. -/
@[simp] theorem rdW_wr_same (off v : Nat) (s : State) : rdW (wr off v s) off = BitVec.ofNat 32 v := by
  simp [rdW, wr, lookup_upsert_same]

/-- A write leaves every other register. -/
theorem rdW_wr_other (off v r : Nat) (s : State) (h : r ≠ off) : rdW (wr off v s) r = rdW s r := by
  simp [rdW, wr, lookup_upsert_other _ _ _ _ h]

@[simp] theorem rd_wr_same (off v : Nat) (s : State) : rd (wr off v s) off = v % 2 ^ 32 := by
  simp [rd]

theorem rd_wr_other (off v r : Nat) (s : State) (h : r ≠ off) : rd (wr off v s) r = rd s r := by
  simp [rd, rdW_wr_other _ _ _ _ h]

theorem rdF_wr_other (off v r p q : Nat) (s : State) (h : r ≠ off) : rdF (wr off v s) r p q = rdF s r p q := by
  simp [rdF, rd_wr_other _ _ _ _ h]

theorem rdB_wr_other (off v r p : Nat) (s : State) (h : r ≠ off) : rdB (wr off v s) r p = rdB s r p := by
  simp [rdB, rd_wr_other _ _ _ _ h]

theorem rdW_setFlag_other (off bit r : Nat) (s : State) (h : r ≠ off) : rdW (setFlag off bit s) r = rdW s r :=
  rdW_wr_other _ _ _ _ h

theorem rd_setFlag_other (off bit r : Nat) (s : State) (h : r ≠ off) : rd (setFlag off bit s) r = rd s r :=
  rd_wr_other _ _ _ _ h

theorem rdW_wrF_other (off lo w v r : Nat) (s : State) (h : r ≠ off) : rdW (wrF off lo w v s) r = rdW s r :=
  rdW_wr_other _ _ _ _ h

/-- A counter just counted. -/
@[simp] theorem ctrOf_count_same (off n : Nat) (s : State) : ctrOf (count off n s) off = ctrOf s off + n := by
  simp [ctrOf, count, lookup_upsert_same]

theorem ctrOf_count_other (off n r : Nat) (s : State) (h : r ≠ off) : ctrOf (count off n s) r = ctrOf s r := by
  simp [ctrOf, count, lookup_upsert_other _ _ _ _ h]

/-- A register word is below 2^32. -/
theorem rd_lt (s : State) (off : Nat) : rd s off < 2 ^ 32 := (rdW s off).isLt

/-- A flag and sequence just set (R11). -/
theorem rd_setFlag_same (off bit : Nat) (s : State) (hb : bit < 16) :
    rd (setFlag off bit s) off = ((rd s off / 65536 + 1) % 65536) * 65536 + ((rd s off % 65536) ||| 2 ^ bit) := by
  have h1 : (rd s off % 65536) ||| 2 ^ bit < 2 ^ 16 :=
    Nat.or_lt_two_pow (Nat.mod_lt _ (by decide)) (Nat.pow_lt_pow_right (by decide) hb)
  unfold setFlag
  simp only [rd_wr_same]
  apply Nat.mod_eq_of_lt
  omega

end Sys2Proof.Machine
end

