-- ==== Sys2Proof/Laws/Finish.lean ====
section
/-! SUPPORT. What ends every command: with no fault of a task waiting to be taken, only ITM_OLDEST_ID and KRB_USED move. -/

namespace Sys2Proof.Machine

open Sys2Proof

/-- With no fault waiting that could be taken, none is taken. -/
theorem drainDue_quiet (n : Nat) (s : State) (h : Quiet s) : drainDue n s = s := by
  cases n with
  | zero => rfl
  | succ n =>
    have hn : (s.tasks.find? fun k => k.due.isSome && k.waits.isEmpty && k.st != .ended) = none := by
      simp only [List.find?_eq_none, Bool.and_eq_true, List.isEmpty_iff, not_and]
      intro k hk hd
      simp [h k hk hd.2] at hd
    simp [drainDue, hn]

theorem clearDue_quiet (s : State) (h : Quiet s) : clearDue s = s := by
  have : (s.tasks.map fun k => if k.waits.isEmpty then { k with due := none } else k) = s.tasks := by
    conv => rhs; rw [← List.map_id s.tasks]
    apply List.map_congr_left
    intro k hk
    have := h k hk
    cases k
    simp_all
  unfold clearDue
  rw [this]

theorem finish_quiet (s : State) (h : Quiet s) : finish s = settle s := by
  simp [finish, drainDue_quiet _ _ h, clearDue_quiet _ h]

/-- After any command no fault of a task waits, but behind older instructions. -/
theorem quiet_clearDue (s : State) : Quiet (clearDue s) := by
  intro k hk hw
  simp only [clearDue, List.mem_map] at hk
  obtain ⟨a, _, rfl⟩ := hk
  split at hw
  · simp_all
  · simp_all

/-- A command whose effect leaves no fault waiting ends with the two registers that follow other state. -/
theorem run_quiet (f : State → State) (s : State) (h : Quiet (f (setPending [] s))) :
    run f s = .next (setPending s.pending (settle (f (setPending [] s)))) := by
  simp [run, finish_quiet _ h]

theorem settleOldest_setPending (q : List Instr) (u : State) :
    settleOldest (setPending q u) = setPending q (settleOldest u) := by
  obtain ⟨⟩ := u
  rename Ledger => l
  unfold settleOldest setPending
  cases l.heldLoss <;> rfl

theorem settlePeak_setPending (q : List Instr) (u : State) : settlePeak (setPending q u) = setPending q (settlePeak u) := by
  by_cases h : rdF u Reg.krbUsed.base 16 9 < kerbUsed u
  · rw [settlePeak, settlePeak, if_pos h, if_pos (show rdF (setPending q u) Reg.krbUsed.base 16 9 < kerbUsed (setPending q u) from h)]
    rfl
  · rw [settlePeak, settlePeak, if_neg h, if_neg (show ¬ rdF (setPending q u) Reg.krbUsed.base 16 9 < kerbUsed (setPending q u) from h)]

/-- The queue takes no part in bringing the two registers up to date. -/
@[simp] theorem settle_setPending (q : List Instr) (u : State) : settle (setPending q u) = setPending q (settle u) := by
  rw [settle, settleOldest_setPending, settlePeak_setPending]; rfl

/-- The same with the result named: `t` stands for the effect, whatever its queue. -/
theorem run_gives (f : State → State) (s t : State) (h : f (setPending [] s) = setPending [] t) (q : Quiet t) :
    run f s = .next (setPending s.pending (settle t)) := by
  have q' : Quiet (f (setPending [] s)) := by rw [h]; exact q
  rw [run_quiet f s q', h, settle_setPending]
  rfl

/-- A row of a unit that a system or power-on reset stops is its effect while none holds (R523). -/
theorem runWide_up (f : State → State) (s : State) (h : wideUp s = true) : runWide f s = run f s := by
  have h' : wideUp (setPending [] s) = true := h
  simp [runWide, run, h']

/-- While one holds, it changes nothing. -/
theorem runWide_down (f : State → State) (s : State) (h : wideUp s = false) : runWide f s = run id s := by
  have h' : wideUp (setPending [] s) = false := h
  simp [runWide, run, h']

/-! ## Fields that `settle` leaves -/

@[simp] theorem settle_pending (s : State) : (settle s).pending = s.pending := by
  unfold settle settlePeak settleOldest; cases s.led.heldLoss <;> dsimp only <;> split <;> rfl
@[simp] theorem settle_tv (s : State) : (settle s).tv = s.tv := by
  unfold settle settlePeak settleOldest; cases s.led.heldLoss <;> dsimp only <;> split <;> rfl
@[simp] theorem settle_ctr (s : State) : (settle s).ctr = s.ctr := by
  unfold settle settlePeak settleOldest; cases s.led.heldLoss <;> dsimp only <;> split <;> rfl
@[simp] theorem settle_latches (s : State) : (settle s).latches = s.latches := by
  unfold settle settlePeak settleOldest; cases s.led.heldLoss <;> dsimp only <;> split <;> rfl
@[simp] theorem settle_snapPending (s : State) : (settle s).snapPending = s.snapPending := by
  unfold settle settlePeak settleOldest; cases s.led.heldLoss <;> dsimp only <;> split <;> rfl
@[simp] theorem settle_rdata (s : State) : (settle s).rdata = s.rdata := by
  unfold settle settlePeak settleOldest; cases s.led.heldLoss <;> dsimp only <;> split <;> rfl
@[simp] theorem settle_rstat (s : State) : (settle s).rstat = s.rstat := by
  unfold settle settlePeak settleOldest; cases s.led.heldLoss <;> dsimp only <;> split <;> rfl
@[simp] theorem settle_out (s : State) : (settle s).out = s.out := by
  unfold settle settlePeak settleOldest; cases s.led.heldLoss <;> dsimp only <;> split <;> rfl
@[simp] theorem settle_fuse (s : State) : (settle s).fuse = s.fuse := by
  unfold settle settlePeak settleOldest; cases s.led.heldLoss <;> dsimp only <;> split <;> rfl
@[simp] theorem settle_mem (s : State) : (settle s).mem = s.mem := by
  unfold settle settlePeak settleOldest; cases s.led.heldLoss <;> dsimp only <;> split <;> rfl
@[simp] theorem settle_hostMem (s : State) : (settle s).hostMem = s.hostMem := by
  unfold settle settlePeak settleOldest; cases s.led.heldLoss <;> dsimp only <;> split <;> rfl
@[simp] theorem settle_peerMem (s : State) : (settle s).peerMem = s.peerMem := by
  unfold settle settlePeak settleOldest; cases s.led.heldLoss <;> dsimp only <;> split <;> rfl
@[simp] theorem settle_fresh (s : State) : (settle s).fresh = s.fresh := by
  unfold settle settlePeak settleOldest; cases s.led.heldLoss <;> dsimp only <;> split <;> rfl
@[simp] theorem settle_stamp (s : State) : (settle s).stamp = s.stamp := by
  unfold settle settlePeak settleOldest; cases s.led.heldLoss <;> dsimp only <;> split <;> rfl
@[simp] theorem settle_led (s : State) : (settle s).led = s.led := by
  unfold settle settlePeak settleOldest; cases s.led.heldLoss <;> dsimp only <;> split <;> rfl
@[simp] theorem settle_sq (s : State) : (settle s).sq = s.sq := by
  unfold settle settlePeak settleOldest; cases s.led.heldLoss <;> dsimp only <;> split <;> rfl
@[simp] theorem settle_progs (s : State) : (settle s).progs = s.progs := by
  unfold settle settlePeak settleOldest; cases s.led.heldLoss <;> dsimp only <;> split <;> rfl
@[simp] theorem settle_lastHandle (s : State) : (settle s).lastHandle = s.lastHandle := by
  unfold settle settlePeak settleOldest; cases s.led.heldLoss <;> dsimp only <;> split <;> rfl
@[simp] theorem settle_tokens (s : State) : (settle s).tokens = s.tokens := by
  unfold settle settlePeak settleOldest; cases s.led.heldLoss <;> dsimp only <;> split <;> rfl
@[simp] theorem settle_tasks (s : State) : (settle s).tasks = s.tasks := by
  unfold settle settlePeak settleOldest; cases s.led.heldLoss <;> dsimp only <;> split <;> rfl
@[simp] theorem settle_cores (s : State) : (settle s).cores = s.cores := by
  unfold settle settlePeak settleOldest; cases s.led.heldLoss <;> dsimp only <;> split <;> rfl
@[simp] theorem settle_seqs (s : State) : (settle s).seqs = s.seqs := by
  unfold settle settlePeak settleOldest; cases s.led.heldLoss <;> dsimp only <;> split <;> rfl
@[simp] theorem settle_clients (s : State) : (settle s).clients = s.clients := by
  unfold settle settlePeak settleOldest; cases s.led.heldLoss <;> dsimp only <;> split <;> rfl
@[simp] theorem settle_ports (s : State) : (settle s).ports = s.ports := by
  unfold settle settlePeak settleOldest; cases s.led.heldLoss <;> dsimp only <;> split <;> rfl
@[simp] theorem settle_pipes (s : State) : (settle s).pipes = s.pipes := by
  unfold settle settlePeak settleOldest; cases s.led.heldLoss <;> dsimp only <;> split <;> rfl
@[simp] theorem settle_binds (s : State) : (settle s).binds = s.binds := by
  unfold settle settlePeak settleOldest; cases s.led.heldLoss <;> dsimp only <;> split <;> rfl
@[simp] theorem settle_eng (s : State) : (settle s).eng = s.eng := by
  unfold settle settlePeak settleOldest; cases s.led.heldLoss <;> dsimp only <;> split <;> rfl
@[simp] theorem settle_ouv (s : State) : (settle s).ouv = s.ouv := by
  unfold settle settlePeak settleOldest; cases s.led.heldLoss <;> dsimp only <;> split <;> rfl
@[simp] theorem settle_copies (s : State) : (settle s).copies = s.copies := by
  unfold settle settlePeak settleOldest; cases s.led.heldLoss <;> dsimp only <;> split <;> rfl
@[simp] theorem settle_refreshLost (s : State) : (settle s).refreshLost = s.refreshLost := by
  unfold settle settlePeak settleOldest; cases s.led.heldLoss <;> dsimp only <;> split <;> rfl
@[simp] theorem settle_toKerb (s : State) : (settle s).toKerb = s.toKerb := by
  unfold settle settlePeak settleOldest; cases s.led.heldLoss <;> dsimp only <;> split <;> rfl
@[simp] theorem settle_plans (s : State) : (settle s).plans = s.plans := by
  unfold settle settlePeak settleOldest; cases s.led.heldLoss <;> dsimp only <;> split <;> rfl
@[simp] theorem settle_tim (s : State) : (settle s).tim = s.tim := by
  unfold settle settlePeak settleOldest; cases s.led.heldLoss <;> dsimp only <;> split <;> rfl
@[simp] theorem settle_blv (s : State) : (settle s).blv = s.blv := by
  unfold settle settlePeak settleOldest; cases s.led.heldLoss <;> dsimp only <;> split <;> rfl
@[simp] theorem settle_pwr (s : State) : (settle s).pwr = s.pwr := by
  unfold settle settlePeak settleOldest; cases s.led.heldLoss <;> dsimp only <;> split <;> rfl
@[simp] theorem settle_rst (s : State) : (settle s).rst = s.rst := by
  unfold settle settlePeak settleOldest; cases s.led.heldLoss <;> dsimp only <;> split <;> rfl
@[simp] theorem settle_host (s : State) : (settle s).host = s.host := by
  unfold settle settlePeak settleOldest; cases s.led.heldLoss <;> dsimp only <;> split <;> rfl
/-- `settle` leaves every register but the two. -/
theorem rdW_settle (s : State) (r : Nat) (h1 : r ≠ Reg.itmOldestId.base) (h2 : r ≠ Reg.krbUsed.base) : rdW (settle s) r = rdW s r := by
  unfold settle settlePeak settleOldest
  cases s.led.heldLoss <;> dsimp only <;> split <;> simp [rdW_wrF_other _ _ _ _ _ _ h2, rdW_wr_other _ _ _ _ h1]

theorem rd_settle (s : State) (r : Nat) (h1 : r ≠ Reg.itmOldestId.base) (h2 : r ≠ Reg.krbUsed.base) : rd (settle s) r = rd s r := by
  simp [rd, rdW_settle s r h1 h2]

end Sys2Proof.Machine
end

