-- ==== Sys2Proof/Laws/Events.lean ====
section
/-! SUPPORT. Posting an event touches only the registers, the ledger's event fields, the counters, host memory, the outbox and the pending
vectors: everything else, the tasks among it, stays. -/

namespace Sys2Proof.Machine

open Sys2Proof

/-- What posting events may change. -/
def EventFrame (s t : State) : Prop :=
  t = { s with regs := t.regs, ctr := t.ctr, hostMem := t.hostMem, out := t.out, host := t.host
               led := { s.led with evtNum := t.led.evtNum, evtDropped := t.led.evtDropped, heldLoss := t.led.heldLoss
                                   heldReleases := t.led.heldReleases, lossAfter := t.led.lossAfter } }

theorem EventFrame.refl (s : State) : EventFrame s s := rfl

theorem EventFrame.trans {s t u : State} (h : EventFrame s t) (k : EventFrame t u) : EventFrame s u := by
  unfold EventFrame at *
  rw [k, h]

theorem eventFrame_wr (off v : Nat) (s : State) : EventFrame s (wr off v s) := rfl
theorem eventFrame_setFlag (off b : Nat) (s : State) : EventFrame s (setFlag off b s) := rfl
theorem eventFrame_bump (base i : Nat) (s : State) : EventFrame s (bump base i s) := rfl
theorem eventFrame_hostPut (a : Nat) (bs : List Byte) (s : State) : EventFrame s (hostPut a bs s) := rfl
theorem eventFrame_ringPut (r i : Nat) (hd : Bool) (e : List Byte) (s : State) : EventFrame s (ringPut r i hd e s) := rfl

theorem eventFrame_writeBack (i v : Nat) (s : State) : EventFrame s (writeBack i v s) := by
  unfold writeBack
  split
  · rfl
  · split <;> rfl

theorem eventFrame_raiseVec (v : Nat) (s : State) : EventFrame s (raiseVec v s) := by
  unfold raiseVec
  split <;> rfl

theorem eventFrame_foldl {α : Type} (f : State → α → State) (h : ∀ s a, EventFrame s (f s a)) (l : List α) (s : State) :
    EventFrame s (l.foldl f s) := by
  induction l generalizing s with
  | nil => exact EventFrame.refl s
  | cons a l ih => exact EventFrame.trans (h s a) (ih _)

theorem eventFrame_ringPart (r : Nat) (bs : List Byte) (k : Nat) (s : State) : EventFrame s (ringPart r bs k s) :=
  eventFrame_foldl _ (fun u _ => eventFrame_ringPut r _ false _ u) _ s

theorem eventFrame_ringWrite (r : Nat) (bs : List Byte) (s : State) : EventFrame s (ringWrite r bs s) := by
  unfold ringWrite
  extract_lets p n es s1 s2 q vec
  have h1 : EventFrame s s1 := eventFrame_ringPart r bs n s
  have h2 : EventFrame s1 s2 := eventFrame_ringPut r _ true _ _
  clear_value s1 s2 q vec
  exact h1.trans (h2.trans ((eventFrame_wr (ringIdx r) _ _).trans ((eventFrame_writeBack r _ _).trans (eventFrame_raiseVec _ _))))

theorem eventFrame_dropEvent (s : State) : EventFrame s (dropEvent s) := rfl

theorem eventFrame_writeEvent (cls code ref pos st : Nat) (d : List Byte) (s : State) :
    EventFrame s (writeEvent cls code ref pos st d s) := by
  unfold writeEvent
  exact EventFrame.trans (eventFrame_ringWrite _ _ s) rfl

theorem eventFrame_flushDropped (s : State) : EventFrame s (flushDropped s) := by
  unfold flushDropped
  split
  · exact EventFrame.trans (eventFrame_writeEvent _ _ _ _ _ _ s) rfl
  · rfl

theorem eventFrame_flushLoss (s : State) : EventFrame s (flushLoss s) := by
  unfold flushLoss
  split
  · split
    · exact EventFrame.trans (eventFrame_writeEvent _ _ _ _ _ _ s) rfl
    · rfl
  · rfl

theorem eventFrame_flushRelease (s : State) : EventFrame s (flushRelease s) := by
  unfold flushRelease
  split
  · split
    · exact EventFrame.trans (eventFrame_writeEvent _ _ _ _ _ _ s) rfl
    · rfl
  · rfl

theorem eventFrame_flushEvents (s : State) : EventFrame s (flushEvents s) := by
  unfold flushEvents
  exact EventFrame.trans (EventFrame.trans (eventFrame_flushDropped s) (eventFrame_flushLoss _))
    (eventFrame_foldl _ (fun s _ => EventFrame.trans (eventFrame_flushRelease s) (eventFrame_flushLoss _)) _ _)

/-- What posting an event can do. -/
theorem eventFrame_postEvent (cls code ref pos st : Nat) (d : List Byte) (s : State) :
    EventFrame s (postEvent cls code ref pos st d s) := by
  unfold postEvent
  refine EventFrame.trans (eventFrame_flushEvents s) ?_
  dsimp only
  split
  · exact eventFrame_writeEvent _ _ _ _ _ _ _
  · exact eventFrame_dropEvent _

theorem EventFrame.tasks {s t : State} (h : EventFrame s t) : t.tasks = s.tasks := by
  rw [EventFrame] at h
  rw [h]

@[simp] theorem postEvent_tasks (cls code ref pos st : Nat) (d : List Byte) (s : State) :
    (postEvent cls code ref pos st d s).tasks = s.tasks := (eventFrame_postEvent cls code ref pos st d s).tasks

/-- Posting an event leaves no fault waiting where none was. -/
theorem quiet_postEvent (cls code ref pos st : Nat) (d : List Byte) (s : State) (h : Quiet s) :
    Quiet (postEvent cls code ref pos st d s) := by
  unfold Quiet
  rw [postEvent_tasks]
  exact h

/-! ## Events and the queue of commands -/

@[simp] theorem ringPut_setPending (r i : Nat) (hd : Bool) (e : List Byte) (q : List Instr) (s : State) :
    ringPut r i hd e (setPending q s) = setPending q (ringPut r i hd e s) := rfl

theorem foldl_setPending {α : Type} (f : State → α → State) (h : ∀ q s a, f (setPending q s) a = setPending q (f s a)) (l : List α)
    (q : List Instr) (s : State) : l.foldl f (setPending q s) = setPending q (l.foldl f s) := by
  induction l generalizing s with
  | nil => rfl
  | cons a l ih => rw [List.foldl_cons, h, ih]; rfl

theorem ite_setPending (c : Prop) [Decidable c] (q : List Instr) (a b : State) :
    (if c then setPending q a else setPending q b) = setPending q (if c then a else b) := by split <;> rfl

@[simp] theorem hostAbort_setPending (q : List Instr) (s : State) : hostAbort (setPending q s) = setPending q (hostAbort s) := rfl

@[simp] theorem writeBack_setPending (i v : Nat) (q : List Instr) (s : State) :
    writeBack i v (setPending q s) = setPending q (writeBack i v s) := by
  unfold writeBack
  rw [← ite_setPending, ← ite_setPending]
  rfl

@[simp] theorem raiseVec_setPending (v : Nat) (q : List Instr) (s : State) : raiseVec v (setPending q s) = setPending q (raiseVec v s) := by
  unfold raiseVec
  rw [← ite_setPending]
  rfl

@[simp] theorem ringPart_setPending (r : Nat) (bs : List Byte) (k : Nat) (q : List Instr) (s : State) :
    ringPart r bs k (setPending q s) = setPending q (ringPart r bs k s) := foldl_setPending _ (fun _ _ _ => rfl) _ _ _

@[simp] theorem ringWrite_setPending (r : Nat) (bs : List Byte) (q : List Instr) (s : State) :
    ringWrite r bs (setPending q s) = setPending q (ringWrite r bs s) := by
  unfold ringWrite
  have d : rd (setPending q s) (ringIdx r) = rd s (ringIdx r) := rfl
  simp only [d, ringPart_setPending, ringPut_setPending, wr_setPending, writeBack_setPending, rdF_setPending, raiseVec_setPending]

@[simp] theorem writeEvent_setPending (cls code ref pos st : Nat) (d : List Byte) (q : List Instr) (s : State) :
    writeEvent cls code ref pos st d (setPending q s) = setPending q (writeEvent cls code ref pos st d s) := by
  unfold writeEvent
  have e1 : (setPending q s).tim = s.tim := rfl
  have e2 : (setPending q s).led = s.led := rfl
  simp only [e1, e2, ringWrite_setPending, modLed_setPending]

theorem ringFree_setPending (r : Nat) (q : List Instr) (s : State) : ringFree (setPending q s) r = ringFree s r := rfl

@[simp] theorem flushDropped_setPending (q : List Instr) (s : State) : flushDropped (setPending q s) = setPending q (flushDropped s) := by
  unfold flushDropped
  rw [← ite_setPending]
  simp only [setPending_led, ringFree_setPending, writeEvent_setPending, modLed_setPending]

@[simp] theorem flushLoss_setPending (q : List Instr) (s : State) : flushLoss (setPending q s) = setPending q (flushLoss s) := by
  unfold flushLoss
  rw [setPending_led]
  cases s.led.heldLoss with
  | none => rfl
  | some h =>
    dsimp only
    rw [← ite_setPending]
    simp only [ringFree_setPending, writeEvent_setPending, setFlag_setPending, modLed_setPending]

@[simp] theorem flushRelease_setPending (q : List Instr) (s : State) : flushRelease (setPending q s) = setPending q (flushRelease s) := by
  unfold flushRelease
  rw [setPending_led]
  cases s.led.heldReleases with
  | nil => rfl
  | cons e rest =>
    dsimp only
    rw [← ite_setPending]
    simp only [ringFree_setPending, writeEvent_setPending, modLed_setPending]

@[simp] theorem flushEvents_setPending (q : List Instr) (s : State) : flushEvents (setPending q s) = setPending q (flushEvents s) := by
  unfold flushEvents
  rw [flushDropped_setPending, flushLoss_setPending, foldl_setPending]
  intro q s a
  rw [flushRelease_setPending, flushLoss_setPending]

@[simp] theorem dropEvent_setPending (q : List Instr) (s : State) : dropEvent (setPending q s) = setPending q (dropEvent s) := rfl

/-- Posting an event takes no note of the queue of commands. -/
@[simp] theorem postEvent_setPending (cls code ref pos st : Nat) (d : List Byte) (q : List Instr) (s : State) :
    postEvent cls code ref pos st d (setPending q s) = setPending q (postEvent cls code ref pos st d s) := by
  unfold postEvent
  rw [flushEvents_setPending]
  dsimp only
  rw [← ite_setPending]
  simp only [setPending_led, ringFree_setPending, writeEvent_setPending, dropEvent_setPending]

end Sys2Proof.Machine
end

