-- ==== Sys2Proof/Laws/Gates.lean ====
section
/-! SUPPORT. Register writes that pass: what the gate of every register write can do. -/

namespace Sys2Proof.Machine

open Sys2Proof

theorem silent_setPending (q : List Instr) (s : State) (off : Nat) (wr : Bool) : silent (setPending q s) off wr = silent s off wr := rfl

/-- A write that may take effect goes through to the block. -/
theorem gate_pass {s : State} {w : Writer} {off : Nat} {v : Word} (h : MayWrite s w off v) (f : State → State) :
    gate w off v f s = f s := by
  obtain ⟨h1, h2⟩ := h
  unfold gate pass
  rw [h1]
  unfold writable at h2
  cases hr : regAt off with
  | none => simp [hr] at h2
  | some d =>
    simp only [hr, Bool.and_eq_true, Bool.not_eq_true', Bool.or_eq_true, beq_iff_eq] at h2
    obtain ⟨a, b⟩ := h2
    have c : ¬(d.key ≠ 0 ∧ bits v.toNat 16 16 ≠ d.key) := by
      rintro ⟨x, y⟩
      rcases b with b | b
      · exact x b
      · exact y b
    dsimp only
    rw [if_neg (by simp), if_neg (by simp [a]), if_neg c]

/-- The same beside another queue of commands. -/
theorem gate_pass_pending {s : State} {w : Writer} {off : Nat} {v : Word} (q : List Instr) (h : MayWrite s w off v)
    (f : State → State) : gate w off v f (setPending q s) = f (setPending q s) :=
  gate_pass (s := setPending q s) h f

end Sys2Proof.Machine
end

