-- ==== Sys2Proof/Laws/Memory.lean ====
section
/-! SUPPORT. Memory: every operation keeps the canonical form, a byte just written reads back, and every other byte stays. -/

namespace Sys2Proof.Machine

open Sys2Proof

/-- The cells of a run of bytes lie inside it. -/
theorem memCells_mem (a : Nat) (bs : List Byte) (c : Host.Cell) (h : c ∈ memCells a bs) :
    a ≤ c.1 ∧ c.1 < a + bs.length ∧ c.2 ≠ 0 := by
  induction bs generalizing a with
  | nil => simp [memCells] at h
  | cons b bs ih =>
    unfold memCells at h
    split at h
    · obtain ⟨h1, h2, h3⟩ := ih (a + 1) h
      simp only [List.length_cons]
      exact ⟨by omega, by omega, h3⟩
    · rcases List.mem_cons.mp h with h | h
      · subst h
        simp_all
      · obtain ⟨h1, h2, h3⟩ := ih (a + 1) h
        simp only [List.length_cons]
        exact ⟨by omega, by omega, h3⟩

theorem memCells_sorted (a : Nat) (bs : List Byte) : (memCells a bs).Pairwise (fun x y => x.1 < y.1) := by
  induction bs generalizing a with
  | nil => simp [memCells]
  | cons b bs ih =>
    unfold memCells
    split
    · exact ih _
    · refine List.pairwise_cons.mpr ⟨fun c hc => ?_, ih _⟩
      have := memCells_mem _ _ _ hc
      simp
      omega

/-- The cells of a run of bytes are in canonical form. -/
theorem memCells_wf (a : Nat) (bs : List Byte) : Memory.wf (memCells a bs) :=
  ⟨memCells_sorted a bs, fun c hc => (memCells_mem a bs c hc).2.2⟩

/-- A write keeps the canonical form. -/
theorem memWrite_wf (m : Memory) (a : Nat) (bs : List Byte) (h : Memory.wf m) : Memory.wf (memWrite m a bs) := by
  obtain ⟨h1, h2⟩ := h
  refine ⟨?_, ?_⟩
  · unfold memWrite
    rw [List.pairwise_append, List.pairwise_append]
    refine ⟨⟨h1.filter _, memCells_sorted a bs, ?_⟩, h1.filter _, ?_⟩
    · intro x hx y hy
      have := memCells_mem _ _ _ hy
      simp at hx
      omega
    · intro x hx y hy
      simp at hy
      rcases List.mem_append.mp hx with hx | hx
      · simp at hx
        omega
      · have := memCells_mem _ _ _ hx
        omega
  · intro c hc
    unfold memWrite at hc
    simp only [List.mem_append, List.mem_filter] at hc
    rcases hc with (hc | hc) | hc
    · exact h2 _ hc.1
    · exact (memCells_mem _ _ _ hc).2.2
    · exact h2 _ hc.1

/-- Clearing a run of bytes keeps the canonical form. -/
theorem memZero_wf (m : Memory) (a n : Nat) (h : Memory.wf m) : Memory.wf (memZero m a n) :=
  ⟨h.1.filter _, fun c hc => h.2 c (List.mem_filter.mp hc).1⟩

/-- The memories of the reset state are in canonical form. -/
theorem reset_mem_wf : Memory.wf State.reset.mem ∧ Memory.wf State.reset.hostMem ∧ Memory.wf State.reset.peerMem := by
  simp [Memory.wf, State.reset]

/-- A store to device memory keeps the canonical form. -/
theorem devPut_wf (a : Nat) (bs : List Byte) (s : State) (h : Memory.wf s.mem) : Memory.wf (devPut a bs s).mem :=
  memWrite_wf _ _ _ h

/-- A store to host memory keeps the canonical form. -/
theorem hostPut_wf (a : Nat) (bs : List Byte) (s : State) (h : Memory.wf s.hostMem) : Memory.wf (hostPut a bs s).hostMem :=
  memWrite_wf _ _ _ h

/-! ## Reading after writing -/

theorem find_none_of (l : Memory) (x : Nat) (h : ∀ c ∈ l, c.1 ≠ x) : l.find? (fun c => c.1 == x) = none := by
  simp only [List.find?_eq_none, beq_iff_eq]
  exact h

theorem memGet_cons_eq (x : Nat) (b : Byte) (l : Memory) : memGet ((x, b) :: l) x = b := by
  simp [memGet]

theorem memGet_cons_ne (x y : Nat) (b : Byte) (l : Memory) (h : x ≠ y) : memGet ((x, b) :: l) y = memGet l y := by
  have hb : (x == y) = false := by simpa using h
  simp only [memGet, List.find?_cons, hb]

theorem find_cells (a : Nat) (bs : List Byte) (i : Nat) (h : i < bs.length) :
    memGet (memCells a bs) (a + i) = bs[i] := by
  induction bs generalizing a i with
  | nil => simp at h
  | cons b bs ih =>
    unfold memCells
    cases i with
    | zero =>
      split
      · rename_i hb
        have : (memCells (a + 1) bs).find? (fun c => c.1 == a + 0) = none :=
          find_none_of _ _ fun c hc => by have := memCells_mem _ _ _ hc; omega
        rw [memGet, this]
        simp [memUnlisted, hb]
      · exact memGet_cons_eq _ _ _
    | succ j =>
      have hj : j < bs.length := by simpa using h
      have e : a + (j + 1) = a + 1 + j := by omega
      split
      · rw [e, ih (a + 1) j hj]; simp
      · rw [memGet_cons_ne _ _ _ _ (by omega), e, ih (a + 1) j hj]; simp

theorem find_filter_keep (m : Memory) (p : Host.Cell → Bool) (x : Nat) (h : ∀ c : Host.Cell, c.1 = x → p c = true) :
    (m.filter p).find? (fun c => c.1 == x) = m.find? (fun c => c.1 == x) := by
  induction m with
  | nil => simp
  | cons c cs ih =>
    by_cases hx : c.1 = x
    · simp [h c hx, hx]
    · have hb : (c.1 == x) = false := by simpa using hx
      by_cases hp : p c = true
      · simp [hp, hb, ih]
      · simp [hp, hb, ih]

/-- A write leaves every byte outside the run that it writes. -/
theorem memGet_memWrite_other (m : Memory) (a : Nat) (bs : List Byte) (x : Nat) (h : x < a ∨ a + bs.length ≤ x) :
    memGet (memWrite m a bs) x = memGet m x := by
  have hc : (memCells a bs).find? (fun c => c.1 == x) = none :=
    find_none_of _ _ fun c hc => by have := memCells_mem _ _ _ hc; omega
  unfold memGet memWrite
  rcases h with h | h
  · have h1 := find_filter_keep m (fun c => decide (c.1 < a)) x (by intro c e; simp [e, h])
    have h2 : (m.filter fun c => decide (a + bs.length ≤ c.1)).find? (fun c => c.1 == x) = none :=
      find_none_of _ _ fun c hc => by simp at hc; omega
    simp [List.find?_append, h1, hc, h2]
  · have h1 := find_filter_keep m (fun c => decide (a + bs.length ≤ c.1)) x (by intro c e; simp [e, h])
    have h2 : (m.filter fun c => decide (c.1 < a)).find? (fun c => c.1 == x) = none :=
      find_none_of _ _ fun c hc => by simp at hc; omega
    simp [List.find?_append, h1, hc, h2]

/-- A byte just written reads back. -/
theorem memGet_memWrite_same (m : Memory) (a : Nat) (bs : List Byte) (i : Nat) (h : i < bs.length) :
    memGet (memWrite m a bs) (a + i) = bs[i] := by
  rw [← find_cells a bs i h]
  have h1 : (m.filter fun c => decide (c.1 < a)).find? (fun c => c.1 == a + i) = none :=
    find_none_of _ _ fun c hc => by simp at hc; omega
  have h2 : (m.filter fun c => decide (a + bs.length ≤ c.1)).find? (fun c => c.1 == a + i) = none :=
    find_none_of _ _ fun c hc => by simp at hc; omega
  simp [memGet, memWrite, List.find?_append, h1, h2]

end Sys2Proof.Machine
end

