-- ==== Sys2Proof/Tests/Slice0.lean ====
section
/-! SUPPORT. Tests: ill-formed operands are refused, and for every statement concrete states and operands that meet its hypotheses, clause by
clause. -/

namespace Sys2Proof.Tests

open Sys2Proof Sys2Proof.Machine

set_option maxRecDepth 20000
set_option Elab.async false

/-- The state after reset. -/
abbrev z : State := State.reset

/-- A program's first state: its registers stored as given. -/
def regs (l : List (Nat × Nat)) (s : State) : State := l.foldl (fun s e => wr e.1 e.2 s) s

/-! ## Ill-formed operands -/

/-- No access. -/
def noBytes : Access := .read 0x1000 0

/-- A core that runs without a finding. -/
def on (n : Nat) : CoreRun := { n := n, parity := false, tb := [], sq := [] }

/-- A row whose accesses meet nothing. -/
def calm : MemRun := { ecc := [], abort := none }

/-- A row that meets a word past the 40-bit space. -/
def wild : MemRun := { ecc := [{ word := 2 ^ 37, double := true }], abort := none }

/-- An instruction word with every field zero. -/
def w0 : Iw := { long := false, pe := false, pn := false, pg := 0, q := 0, func := 0, fd := 0, fa := 0, fb := 0, fc := 0, imm := 0, x := 0 }

/-- A meter at rest. -/
def cool : Meter := { power := 0, eboux := 25, ouvfi := 25, place := 0 }

/-- A flit in order. -/
def flit0 : Flit := { crcOk := true, wordOk := true, corrected := 0, vc := 0, seqNo := 0, ack := 0, credits := [], replay := false }

theorem test_ill_registers : wellFormed (.registerWrite .host (2 ^ 24) 15 0) = false ∧ wellFormed (.registerWrite .host 0 16 0) = false
    ∧ wellFormed (.statusRegisterClear .host Reg.itmCtl.base 0) = false ∧ wellFormed (.latchGroupRead .host (2 ^ 24) 4) = false ∧ wellFormed (.latchGroupRead .host 0 5) = false
    ∧ wellFormed (.snapLatch .host (2 ^ 24) 0) = false ∧ wellFormed (.bar4AliasWrite (2 ^ 21) 4 0) = false
    ∧ wellFormed (.bar4AliasWrite 0 9 0) = false ∧ wellFormed (.glbSemTestAndSet (2 ^ 21) 4) = false ∧ wellFormed (.glbSemTestAndSet 0 9) = false := by decide

theorem test_ill_square : wellFormed (.squareAccess 64 (.read 0 8) []) = false ∧ wellFormed (.squareAccess 0 noBytes []) = false
    ∧ wellFormed (.squareAccess 0 (.read (2 ^ 40) 8) []) = false ∧ wellFormed (.squareAccessTimeout 0x20000000 .unit) = false ∧ wellFormed (.squareAccessTimeout 0 (.core 17)) = false ∧ wellFormed (.squareAccessTimeout 0 (.job 0 4)) = false
    ∧ wellFormed (.hostSquareAccess noBytes []) = false ∧ wellFormed (.apertureAccess noBytes [] false) = false
    ∧ wellFormed (.peerSquareAccess 2 (.read 0 8) []) = false ∧ wellFormed (.scrubRead 128 []) = false
    ∧ wellFormed (.scrubRead 0 [{ word := 2 ^ 26, double := true }]) = false ∧ wellFormed (.bankRetireDone 128) = false
    ∧ wellFormed (.sqQuotaWrite .host 16 0) = false ∧ wellFormed (.kvGranuleRelease 16) = false
    ∧ wellFormed (.avenueParityError 256 false) = false ∧ wellFormed (.itemOpen 8) = false := by decide

theorem test_ill_cores : wellFormed (.residueCheck 17 true) = false ∧ wellFormed (.oppChange .complex 17 0) = false
    ∧ wellFormed (.arrPlaneLoadDone 0 2) = false ∧ wellFormed (.seqBoundary 4) = false
    ∧ wellFormed (.ctlNop (on 17) w0) = false ∧ wellFormed (.ctlNop (on 0) { w0 with fd := 1 }) = false
    ∧ wellFormed (.vecFn (on 0) { w0 with func := 15 }) = false := by decide

theorem test_ill_cameras : wellFormed (.cxpPortEnable .host 12) = false ∧ wellFormed (.cxpPowerEnable .host 12 true) = false
    ∧ wellFormed (.cxpGangWrite .host 6 true) = false ∧ wellFormed (.cxpDiscoveryDone 0 true 16) = false
    ∧ wellFormed (.cxpCcGo .host 12 0) = false ∧ wellFormed (.cxpCcAck 0 256 []) = false
    ∧ wellFormed (.cxpCcAck 0 0 (List.replicate 65 0)) = false
    ∧ wellFormed (.cxpStreamPacket 0 (.header 65536 0)) = false ∧ wellFormed (.cxpStreamPacket 0 (.header 0 4)) = false ∧ wellFormed (.cxpStreamPacket 0 (.line [65536])) = false
    ∧ wellFormed (.auxLineReceive 4 [] []) = false ∧ wellFormed (.auxPclkLost 4 []) = false
    ∧ wellFormed (.frameTailTimeout 16) = false := by decide

theorem test_ill_imaging : wellFormed (.ispRouteWrite .host 14 0) = false ∧ wellFormed (.ispParamLoadGo .host 0 2 0) = false
    ∧ wellFormed (.ispParamLoadDone 14 0 calm) = false ∧ wellFormed (.pipelineFrameStart 14 []) = false
    ∧ wellFormed (.engineJobEnd 9 0 0 0 0 calm) = false ∧ wellFormed (.warpMeshWarp 4 calm) = false ∧ wellFormed (.regionCrop 2 calm) = false
    ∧ wellFormed (.sortTopK 2 calm) = false ∧ wellFormed (.barcodeDecode 4 calm) = false ∧ wellFormed (.recordDecode 0 wild) = false
    ∧ wellFormed (.barcodeSymbolDecoded 0 { code := 256, flags := 0, corrected := 0, corners := List.replicate 32 0, data := [] }) = false
    ∧ wellFormed (.barcodeSymbolDecoded 0 { code := 0, flags := 0, corrected := 0, corners := [], data := [] }) = false
    ∧ wellFormed (.recordDecode 2 calm) = false ∧ wellFormed (.caddyBatchOpen 16) = false ∧ wellFormed (.crcScan 4 calm) = false
    ∧ wellFormed (.crcPeriodicPass 16 false calm) = false := by decide

theorem test_ill_field : wellFormed (.encZEdge 4) = false ∧ wellFormed (.encSerialFrame 0 (2 ^ 48) true 0) = false
    ∧ wellFormed (.encSerialFrame 0 0 true 4) = false ∧ wellFormed (.dioEdgeAccept 32) = false ∧ wellFormed (.dioCfgWrite .host 32 0) = false
    ∧ wellFormed (.kerbFire 256) = false ∧ wellFormed (.compareFire 8) = false ∧ wellFormed (.ethFrameReceive []) = false := by decide

theorem test_ill_links : wellFormed (.hostWindowEnable .host 16 0) = false ∧ wellFormed (.msixUnmask 64) = false
    ∧ wellFormed (.blvEnable .host 2) = false ∧ wellFormed (.blvTrained 0 (some 65536) 0 []) = false
    ∧ wellFormed (.blvFlitReceive 0 { flit0 with seqNo := 4096 } false) = false ∧ wellFormed (.blvPrbsMode .host 0 4 []) = false
    ∧ wellFormed (.blvPrbsMode .host 0 1 (List.replicate 5 none)) = false ∧ wellFormed (.peerTokenRead 0 (2 ^ 40)) = false
    ∧ wellFormed (.coreWake 3 0) = false ∧ wellFormed (.coreWake 2 4) = false ∧ wellFormed (.throttleRaise { cool with power := 65536 }) = false
    ∧ wellFormed (.supplyExcursion 16) = false ∧ wellFormed (.blockReset (.ip 14)) = false ∧ wellFormed (.blockReset (.blv 2)) = false
    ∧ wellFormed (.cpLockstepMismatch 4) = false ∧ wellFormed (.resetSourceRelease 16) = false
    ∧ wellFormed (.trimLoadDone [{ copy := 3, off := 0, value := 0 }]) = false ∧ wellFormed (.bootRom [17] [] false) = false
    ∧ wellFormed (.bootRom [] [128] false) = false ∧ wellFormed (.pcieLinkUp 16 0 false) = false
    ∧ wellFormed (.rbtWaitAlarm (2 ^ 32)) = false := by decide

theorem test_well_formed : wellFormed (.registerWrite .host Reg.itmCtl.base 15 1) = true ∧ wellFormed (.ctlNop (on 16) w0) = true
    ∧ wellFormed (.ctlLi (on 0) { w0 with fd := 3, imm := 7 }) = true ∧ wellFormed (.crcConfigure 3) = true := by decide

/-! ## Registers -/

theorem test_step_front : ({ z with pending := [.subNop, .heartbeat] } : State).pending = .subNop :: [.heartbeat] := by decide

theorem test_flag_event : (15 : Nat) < 16 ∧ flagOf (setFlag Reg.rstStatus.base 15 z) Reg.rstStatus.base 15 = true
    ∧ rdF (setFlag Reg.rstStatus.base 0 (regs [(Reg.rstStatus.base, 0xFFFF0000)] z)) Reg.rstStatus.base 16 16 = 0 := by decide

/-- A status register with flag 0 set by one event. -/
def flagged (off : Nat) : State := setFlag off 0 z

theorem test_status_clear : Quiet z ∧ MayWrite z .host Reg.rstStatus.base 0x10001 ∧ FieldUp z Reg.rstStatus.base
    ∧ (∃ d, regAt Reg.rstStatus.base = some d ∧ d.status = true)
    ∧ bits (0x20001 : Word).toNat 16 16 ≠ rdF (flagged Reg.rstStatus.base) Reg.rstStatus.base 16 16
    ∧ bits (0x10001 : Word).toNat 16 16 = rdF (flagged Reg.rstStatus.base) Reg.rstStatus.base 16 16
    ∧ (∃ d, regAt Reg.pwrStatus.base = some d ∧ d.status = true) ∧ MayWrite z .host Reg.pwrStatus.base 0x10001
    ∧ bits (0x10001 : Word).toNat 16 16 = rdF (flagged Reg.pwrStatus.base) Reg.pwrStatus.base 16 16 :=
  ⟨by decide, by decide, by decide, ⟨_, rfl, by decide⟩, by decide, by decide, ⟨_, rfl, by decide⟩, by decide, by decide⟩

theorem test_plain_write : MayWrite z .host Reg.itmCfg.base 5 ∧ FieldUp z Reg.itmCfg.base ∧ Reg.itmCfg.base % 4 = 0
    ∧ regAt Reg.itmCfg.base = some Reg.itmCfg ∧ plainReg Reg.itmCfg Reg.itmCfg.base .host 5 = true := by decide

theorem test_refused_write : silent { z with rst := { z.rst with phase := .held } } Reg.itmCfg.base true = true
    ∧ silent z Reg.itmCfg.base true = false ∧ (Reg.itmCfg.base + 2) % 4 ≠ 0 ∧ regAt 0x60FFC = none
    ∧ regAt Reg.rstKick.base = some Reg.rstKick ∧ wrongWriter Reg.rstKick .host = true ∧ Reg.rstKick.base / 65536 ≠ 3
    ∧ regAt Reg.pciAp.base = some Reg.pciAp ∧ wrongWriter Reg.pciAp .complex = true ∧ Reg.pciAp.base / 65536 = 3
    ∧ wrongWriter Reg.rstKick .complex = false ∧ Reg.rstKick.key ≠ 0 ∧ bits (0 : Word).toNat 16 16 ≠ Reg.rstKick.key := by decide

theorem test_register_read : silent { z with rst := { z.rst with phase := .held } } Reg.itmCfg.base false = true
    ∧ regAt 0x60FFC = none ∧ (regAt Reg.timNowSecLo.base).isSome = true ∧ FieldUp z Reg.timNowSecLo.base
    ∧ latchedWord Reg.timNowSecLo.base = false ∧ latchedWord Reg.timNowNs.base = true ∧ Reg.timNowNs.base ∈ groupOf Reg.timNowSecLo.base := by
  decide

theorem test_snapshots : (∃ b ∈ snapEboux, MayWrite z .host b.ctl.base 1) ∧ (∃ b ∈ snapOuvfi, MayWrite z .host b.ctl.base 1)
    ∧ z.ouv.powered = true ∧ MayWrite z .host Reg.glbSnapAll.base 1 ∧ z.snapPending = false
    ∧ ({ z with snapPending := true } : State).snapPending = true := by decide

theorem test_alias : (0x1014 : Nat) % 4 = 0 ∧ aliasOff 0x1014 = Reg.glbScratch.base ∧ aliasOff 0x1014 < 65536 ∧ silent z (aliasOff 0x1014) true = false
    ∧ regAt (aliasOff 0x1014) = some Reg.glbScratch ∧ wrongWriter Reg.glbScratch .host = false ∧ aliasRefused Reg.glbScratch (aliasBit 0x1014) = false
    ∧ aliasOff 0x480 = Reg.glbStatus.base ∧ regAt (aliasOff 0x480) = some Reg.glbStatus ∧ wrongWriter Reg.glbStatus .host = false
    ∧ aliasRefused Reg.glbStatus (aliasBit 0x480) = true ∧ silent z Reg.glbSem.base false = false := by decide

theorem test_alias_plain : ∀ x, plainReg Reg.glbScratch (aliasOff 0x1014) .host x = true := fun _ => rfl

/-- A program that holds nothing. -/
def prog0 : Program :=
  { handle := 1, part := 0, stopped := false, loading := false, unloading := false, coresMin := 1, coresBuild := 1, tmpls := []
    codeBase := 0, codeWords := 0, const0 := 0, static0 := 0, saves := [], winograd := [], ctx := [], ctxIds := [], tokens := 0, localToks := 0, kvBlk := 0
    kvSeqs := 0, idFirst := 0, seed := 0, lpBase := 0, lpSize := 0, progHash := [], weightHash := [], signedSlot := none, needsDet := false
    replay := none, tag := 0, image := [], placed := [] }

theorem test_mode : anyLoaded { z with progs := [prog0] } = true ∧ MayWrite z .host Reg.glbMode.base 0x4600 ∧ anyLoaded z = false ∧ (0x4600 : Word).getLsbD 0 = false
    ∧ (0x4601 : Word).getLsbD 0 = true ∧ (0x4601 : Word).toNat &&& 0x7F01 ≠ rd z Reg.glbMode.base &&& 0x7F01
    ∧ MayWrite z .host Reg.timIncLo.base 1 ∧ MayWrite z .host Reg.timIncHi.base 2 := by decide

/-! ## Rings and submissions -/

/-- Firmware runs. -/
def fw (s : State) : State := regs [(Reg.rstBoot.base, 7)] s

/-- Window 0 over host memory from 0x1000 on, 64 KiB, writable, with bus mastering on. -/
def hosted (s : State) : State :=
  modHost (fun h => { h with bme := true }) (regs [(Reg.pciWinLo.off 0 0, 0x1000), (Reg.pciWinSize.off 0 0, 16), (Reg.pciWinCtl.off 0 0, 3)] s)

/-- The three rings and the write-back block, well placed in the window. -/
def placed (s : State) : State :=
  regs [(Reg.itmSubBase.base, 0x8000000), (Reg.itmResBase.base, 0x8000001), (Reg.itmEvtBase.base, 0x8000002), (Reg.itmWbBase.base, 0xC0)]
    (hosted s)

theorem test_ring_enables : silent z Reg.itmCtl.base true = false ∧ ringEn (placed z) 0 = false ∧ ringOk (placed z) 0 = true
    ∧ ringEn (placed z) 1 = false ∧ ringOk (placed z) 1 = true ∧ ringEn (placed z) 2 = false ∧ ringOk (placed z) 2 = true
    ∧ ringEn z 0 = false ∧ ringOk z 0 = false ∧ ringEn z 1 = false ∧ ringOk z 1 = false ∧ ringEn z 2 = false ∧ ringOk z 2 = false := by
  decide +kernel

theorem test_consumer_index : (rd z Reg.itmResPidx.base + 2 ^ 32 - (0xFFFFFFC0 : Word).toNat) % 2 ^ 32 = ringSize z 1
    ∧ ringSize z 1 < (rd z Reg.itmResPidx.base + 2 ^ 32 - (0xFFFFFFBF : Word).toNat) % 2 ^ 32
    ∧ (rd z Reg.itmEvtPidx.base + 2 ^ 32 - (0 : Word).toNat) % 2 ^ 32 ≤ ringSize z 2
    ∧ ringSize z 2 < (rd z Reg.itmEvtPidx.base + 2 ^ 32 - (1 : Word).toNat) % 2 ^ 32 := by decide +kernel

theorem test_source_write : silent z (Reg.itmSrcCtl.off 7 0) true = false ∧ (0x501 : Word).getLsbD 0 = true ∧ 5 ≤ bits (0x501 : Word).toNat 8 3
    ∧ bits (0x1801 : Word).toNat 11 2 = 3 ∧ bits (0x6001 : Word).toNat 13 2 = 3 ∧ bits (0x401 : Word).toNat 8 3 < 5
    ∧ bits (0x401 : Word).toNat 11 2 ≠ 3 ∧ bits (0x401 : Word).toNat 13 2 ≠ 3 ∧ (0x700 : Word).getLsbD 0 = false := by decide +kernel

/-- A submission of an opcode with an argument. -/
def sub (op arg len : Nat) : Submission := { op := op, arg := arg, tag := 9, addr := 0x1000000000, len := len, params := List.replicate 43 0, early := none }

/-- The state holds one consumed submission. -/
def holding (e : Submission) (s : State) : State := modLed (fun l => { l with subQ := [e] }) s

/-- The submission ring enabled, with polling. -/
def polling : State := regs [(Reg.itmCtl.base, 1), (Reg.itmSubPoll.base, 10)] (placed (fw z))

/-- The same with one new no-op entry: phase bit 1 in its last byte. -/
def oneEntry : State := hostPut 0x8000000000 (List.replicate 63 0 ++ [1]) polling

theorem test_poll : cpUp polling 1 = true ∧ ringEn polling 0 = true ∧ rdF polling Reg.itmSubPoll.base 0 16 ≠ 0 ∧ polling.host.bme = true
    ∧ openCount polling < 64 ∧ hostCanRead polling (ringBase polling 0 + (rd polling Reg.itmSubCidx.base % ringSize polling 0) * 64) 64 = true
    ∧ bitOf (leAt (hostGet polling (ringBase polling 0) 64) 0x3F 1) 0 ≠ phaseOf (rd polling Reg.itmSubCidx.base) (ringSize polling 0)
    ∧ bitOf (leAt (hostGet oneEntry (ringBase oneEntry 0) 64) 0x3F 1) 0 = phaseOf (rd oneEntry Reg.itmSubCidx.base) (ringSize oneEntry 0)
    ∧ (pollEntries none (ringSize oneEntry 0) 0 oneEntry).1 = 1 ∧ hostCanRead z (ringBase z 0 + (rd z Reg.itmSubCidx.base % ringSize z 0) * 64) 64 = false
    ∧ (pollEntries (some 1) (ringSize oneEntry 0) 0 oneEntry).1 = 1 ∧ 0 < ringSize polling 0
    ∧ (holding (sub 0 0 0) (fw z)).led.subQ.find? (fun e => e.op == 0) = some (sub 0 0 0) := by decide +kernel

/-- An entry that ends in its turn by itself, and 64 that are outstanding. -/
theorem test_poll_early : turn (holding { sub 1 0 0 with early := some Stat.badFormat } (fw z)) = some { sub 1 0 0 with early := some Stat.badFormat }
    ∧ turn (holding (sub 1 0 0) (fw z)) = some (sub 1 0 0) ∧ turn z = none
    ∧ openCount (modLed (fun l => { l with aborted := List.replicate 64 (sub 0 0 0) }) z) = 64 := by decide +kernel

/-- Item source 7 enabled as a host source. -/
def hostSource (s : State) : State := regs [(Reg.itmSrcCtl.off 7 0, 3)] (fw s)

/-- A quota payload: enable, quota and pool, 8192 granules and 64. -/
def quotaBytes : List Byte := leBytes 4 8192 ++ leBytes 4 64 ++ leBytes 1 7 ++ leBytes 7 0

theorem test_open_and_quota : cpUp (hostSource z) 1 = true ∧ (holding (sub 4 7 0) (hostSource z)).led.subQ.find? (fun e => e.op == 4) = some (sub 4 7 0)
    ∧ srcEn (hostSource z) 7 = true ∧ srcHost (hostSource z) 7 = true ∧ srcEn z 0 = false
    ∧ nextSub (fun e => e.op == 5) (holding (sub 5 15 16) (fw z)) = some (sub 5 15 16)
    ∧ nextSub (fun e => e.op == 5) (holding (sub 5 15 0) (fw z)) = some (sub 5 15 0)
    ∧ (payload calm true 0x1000000000 16 (devPut 0x1000000000 quotaBytes (fw z))).1.data = quotaBytes
    ∧ (payload calm true 0x1000000000 16 (devPut 0x1000000000 quotaBytes (fw z))).1.status = Stat.ok
    ∧ leAt quotaBytes 8 1 ≤ 15 ∧ leAt quotaBytes 9 7 = 0 ∧ leAt quotaBytes 0 4 ≤ 8192 ∧ leAt quotaBytes 4 4 ≤ 8192
    ∧ (bitOf (leAt quotaBytes 8 1) 2 && bitOf (leAt quotaBytes 8 1) 3) = false := by decide +kernel

/-! ## Programs -/

/-- One `ctl.end`. -/
def code0 : List Byte := leBytes 8 0x0A

/-- A manifest with one template of one instance. -/
def manifest0 : List Byte := [1, 1, 1, 0] ++ List.replicate 60 0 ++ List.replicate 14 0 ++ [1, 0] ++ List.replicate 16 0

/-- A section table entry. -/
def entry0 (ty off len check : Nat) : List Byte := leBytes 4 ty ++ leBytes 4 off ++ leBytes 4 len ++ leBytes 4 check

/-- The program's hash, with both hash fields and the header check at zero. -/
def progHash0 : List Byte :=
  [77, 30, 3, 157, 40, 182, 178, 200, 186, 154, 173, 237, 58, 30, 233, 222, 25, 50, 44, 179, 72, 206, 172, 104, 232, 27,
  157, 137, 184, 248, 240, 24]

/-- SHAKE256 of nothing (FIPS 202), the weight hash of a program without weights. -/
def weightHash0 : List Byte :=
  [70, 185, 221, 43, 11, 168, 141, 19, 35, 59, 63, 235, 116, 62, 235, 36, 63, 205, 82, 234, 98, 184, 27, 130, 181, 12, 39,
  100, 110, 213, 118, 47]

/-- The image: header, section table, code, manifest and token graph. -/
def image0 : List Byte :=
  leBytes 4 0x494B5750 ++ leBytes 2 0x0200 ++ leBytes 2 0x1612 ++ leBytes 4 385 ++ leBytes 2 3 ++ leBytes 2 0 ++ progHash0 ++ weightHash0
    ++ leBytes 4 0 ++ leBytes 4 1630870496 ++ List.replicate 40 0
    ++ entry0 1 192 8 1550535710 ++ entry0 5 256 96 1549570411 ++ entry0 6 384 1 1383945041 ++ List.replicate 16 0
    ++ code0 ++ List.replicate 56 0 ++ manifest0 ++ List.replicate 32 0 ++ [0]

/-- The load of the image. -/
def load0 : Submission := sub 1 0 385

/-- The cells of bytes at an address: those that are not zero. -/
def cells (a : Nat) (bs : List Byte) : Memory := (bs.zipIdx.filter fun x => x.1 != 0).map fun x => (a + x.2, x.1)

/-- Firmware runs, partition 0 has 100 granules, the image lies in LPDDR-6, and its load has been consumed. -/
def loader (img : List Byte) : State :=
  { holding load0 (regs [(Reg.sqQuota.off 0 0, 2 ^ 31 + 100)] (fw z)) with mem := cells 0x1000000000 img }

theorem test_hash_vectors : shake256 [] 32 = weightHash0
    ∧ crc32c [0x31, 0x32, 0x33, 0x34, 0x35, 0x36, 0x37, 0x38, 0x39] = 0xE3069283 := by decide +kernel

theorem test_image_stage1 : stage1 image0 385 = none := by decide +kernel

theorem test_image_hashes :
    firstFail (crcChecks image0 ++ hashChecks image0 (secBytes image0) (refBytes (loader image0)) (refGood (loader image0))) = none := by
  decide +kernel

theorem idRun_free (s : State) (h : s.progs = []) : ∀ f i, idRun s i f = f
  | 0, _ => rfl
  | f + 1, i => by simp [idRun, idHeld, h, idRun_free s h f (i + 1), Nat.add_comm]

theorem longestIds_free (s : State) (h : s.progs = []) : longestIds s = 1024 := by
  have e : ((List.range 1024).map fun i => idRun s i (1024 - i)) = (List.range 1024).map fun i => 1024 - i :=
    List.map_congr_left fun i _ => idRun_free s h _ i
  unfold longestIds
  rw [e]
  decide +kernel

theorem test_load_resources : shortfalls (loader image0) 0 (par load0 0x20 4) (par load0 0x24 4) image0 = [] := by
  unfold shortfalls
  rw [longestIds_free _ rfl]
  decide +kernel

theorem test_load_submission : nextSub (fun e => e.op == 1) (loader image0) = some load0 ∧ load0.len ≠ 0 ∧ load0.arg ≤ 15 ∧ par load0 0x30 1 ≤ 1
    ∧ parsZero load0 0x31 = true ∧ (payload calm false load0.addr load0.len (loader image0)).1 = { status := Stat.ok, data := image0 }
    ∧ ((manifestOf (oneSec image0 5)).det && !detMode (loader image0)) = false := by decide +kernel

/-- The image's template. -/
def tmpl0 : Template := { prologue := 0, roundStart := 0, roundEnd := 0, prio := 0, instances := 1, tbLive := 0, tbPeak := 0 }

/-- The image's code as the loader reads it, with what it knows before each word. -/
abbrev code0Ins : List Ins := (insOf (oneSec image0 1)).1
/-- The flows of the image's template. -/
abbrev flows0 : List (Template × Flow) := flowsOf code0Ins (manifestOf (oneSec image0 5))

theorem test_load_code : imgSigned image0 = false ∧ signatureMissing (loader image0) load0 image0 = false
    ∧ illegalAt (manifestOf (oneSec image0 5)) (oneSec image0 1) = none ∧ badStatic code0Ins flows0 = none
    ∧ badWinograd (manifestOf (oneSec image0 5)) code0Ins = none ∧ badShape (manifestOf (oneSec image0 5)) code0Ins flows0 = none
    ∧ (manifestOf (oneSec image0 5)).tmpls = [tmpl0] ∧ (manifestOf (oneSec image0 5)).tokens = 0 ∧ detMode (loader image0) = false := by
  decide +kernel

/-- The graph of the image: an empty prologue, a round of one instruction, and the edge between them. -/
theorem test_load_graph : (code0Ins.all fun x => !x.isTok) = true ∧ looseLoop code0Ins flows0 = none
    ∧ (allSegments code0Ins flows0).map (fun x => (x.tmpl, x.inst, (x.ins.head?).elim 0 (·.w), x.ins.length)) = [(0, 0, 0, 0), (0, 0, 0, 1)]
    ∧ edgesOf [] (allSegments code0Ins flows0) = [(0, 1, 0)]
    ∧ (stuckNodes (keptEdges code0Ins flows0 [] [(0, 1, 0)]) 2 (List.range 2)) = [] := by decide +kernel

/-- Stage 3 passes where the graph section, whose form is open, declares no token and spells the image's graph. -/
theorem test_load_stage3 (h2 : Config.tokenDecls (oneSec image0 6) = [])
    (h3 : Config.graphSpelt (oneSec image0 6) = ([(0, 0, 0, 0), (0, 0, 0, 1)], [(0, 1, 0)])) : stage3 (loader image0) load0 image0 = none := by
  obtain ⟨c1, c2, c3, c4, c5, cs, c6, c7, c8⟩ := test_load_code
  obtain ⟨g1, g2, g3, g4, g5⟩ := test_load_graph
  have hl : (allSegments code0Ins flows0).length = 2 := by simpa using congrArg List.length g3
  have hg : graphHolds code0Ins flows0 [] (oneSec image0 6) = true := by
    simp [graphHolds, g3, g4, g5, h3, hl]
  have hi : (code0Ins.find? fun x => badIdleTok (manifestOf (oneSec image0 5)) [] x
      || flows0.any fun e => (tokInsOf code0Ins e.2).contains x && badTok (manifestOf (oneSec image0 5)) [] e.1.instances x) = none := by
    rw [List.find?_eq_none]
    intro x hx
    have hn : x.isTok = false := by simpa using List.all_eq_true.mp g1 x hx
    have ht : ∀ f : Flow, x ∉ tokInsOf code0Ins f := by
      intro f; simp [tokInsOf, hn]
    simp [badIdleTok, hn, ht]
  have hb : badTokens (manifestOf (oneSec image0 5)) image0 code0Ins flows0 (detMode (loader image0)) = none := by
    unfold badTokens
    simp only [h2, c8, hi, g2, c7, hg]
    decide
  unfold stage3
  rw [test_image_hashes]
  simp only [c1, c2, c3, c4, c5, cs, hb]
  decide

/-- A check-value job that was queued first. -/
def olderCheck : Job := { kind := 6, desc := [], task := { handle := 0, tmpl := 0, inst := 0 }, part := 0, ord := 0, at_ := DevTime.zero }

/-- The loader's jobs wait for older ones of the hash engine and the check-value units. -/
theorem test_load_waits : loaderWaits (queueChecks image0 (loader image0)) = false
    ∧ loaderWaits (queueChecks image0 (modEng (fun e => { e with jobs := [olderCheck] }) { loader image0 with stamp := 1 })) = true := by
  decide +kernel

/-- A spoiled image fails the header's check. -/
theorem test_load_refused : stage1 (image0.set 8 0) 385 = some (corrupt1 0x54)
    ∧ (payload calm false load0.addr load0.len (loader (image0.set 8 0))).1 = { status := Stat.ok, data := image0.set 8 0 } := by
  decide +kernel

/-- The program of the image while its load is in progress. -/
def loading0 : Program := { prog0 with loading := true, tmpls := (manifestOf manifest0).tmpls, image := image0 }

theorem test_load_complete : cpUp (loader image0) 0 = true ∧ ({ loader image0 with progs := [loading0] } : State).progs.find? (·.loading) = some loading0
    ∧ loaderWaits (queueLoader 0 2 (loader image0)) = false ∧ (activeCores (fw { z with cores := [] })).length < loading0.coresMin
    ∧ (loader image0).led.subQ.find? serialOp = some load0 ∧ loading0.coresMin ≤ (activeCores (loader image0)).length := by decide +kernel

/-- Nothing is placed in the Square yet, so the completion hashes the loader's copy: the hashes of `test_image_hashes`. -/
theorem test_load_copy (s : State) : asPlaced s loading0 = secBytes loading0.image := rfl

/-- The checks of the load as placed pass, and a wrong program hash fails them. -/
theorem test_load_placed : firstFail (placedChecks { loader image0 with progs := [loading0] } loading0) = none
    ∧ (firstFail (placedChecks { loader image0 with progs := [loading0] } { loading0 with image := image0.set 0x10 0 })).isSome = true := by
  decide +kernel

/-- A program is loaded and its unload has been consumed. -/
def unloader : State := holding (sub 2 1 0) { fw z with progs := [prog0] }

theorem test_unload : nextSub (fun e => e.op == 2) unloader = some (sub 2 1 0) ∧ argProg unloader (sub 2 1 0) = some prog0
    ∧ argProg unloader (sub 2 2 0) = none
    ∧ ({ unloader with progs := [{ prog0 with unloading := true }] } : State).progs.find? (·.unloading) = some { prog0 with unloading := true }
    ∧ cpUp unloader 0 = true ∧ unloader.led.subQ.find? serialOp = some (sub 2 1 0) ∧ jobsOfProg unloader 1 = 0 := by decide +kernel

/-! ## Policies and items -/

/-- Program 1 with one template, one context of pool 0. -/
def prog1 : Program := { prog0 with tmpls := [tmpl0], winograd := [(0, 0)], ctx := [1] ++ List.replicate 15 0, ctxIds := [[0]], codeWords := 1000, codeBase := 65536 }

/-- Its one instance. -/
abbrev id0 : TaskId := { handle := 1, tmpl := 0, inst := 0 }

/-- The instance at its prologue. -/
def task0 : Task := newTask prog1 0 0 0 DevTime.zero

/-- A counting token of program 1. -/
def token0 (i : Nat) (tagged external : Bool) : Token :=
  { handle := 1, idx := i, tagged := tagged, external := external, jobTmpl := none, count := 0, pairs := [], latch := 0, waiters := [], sigs := []
    discarded := 0 }

/-- Firmware runs, program 1 is loaded with two external tokens, and partition 0 holds granules 0 to 15. -/
def loaded (s : State) : State :=
  { fw s with progs := [prog1], tasks := [task0], tokens := [token0 0 false true, token0 1 true true]
              sq := { s.sq with runs := [{ base := 0, n := 16, part := 0, handle := 1, kind := 0 }] } }

/-- A policy submission of a class on an object, with the parameter bytes that follow the class. -/
def policy (cls arg len : Nat) (ps : List Byte) : Submission :=
  { sub 3 arg len with params := BitVec.ofNat 8 cls :: ps ++ List.replicate (42 - ps.length) 0 }

/-- A policy with its payload in LPDDR-6 has been consumed. -/
def policyState (e : Submission) (bs : List Byte) (s : State) : State := { holding e (loaded s) with mem := cells 0x1000000000 bs }

/-- Template 0 to priority 3. -/
def prioBytes : List Byte := [0, 0, 3, 0]

theorem test_policy_priority : nextSub (isPolicy 1) (policyState (policy 1 1 4 []) prioBytes z) = some (policy 1 1 4 [])
    ∧ argProg (policyState (policy 1 1 4 []) prioBytes z) (policy 1 1 4 []) = some prog1
    ∧ (payload calm true 0x1000000000 4 (policyState (policy 1 1 4 []) prioBytes z)).1 = { status := Stat.ok, data := prioBytes }
    ∧ parsZero (policy 1 1 4 []) 0x15 = true ∧ (∀ x ∈ prioEntries prioBytes, x.1 < prog1.tmpls.length ∧ x.2.1 ≤ 3 ∧ x.2.2 = 0) := by
  decide +kernel

/-- Port 15 (AUX 3) into one buffer of one line of 64 bytes at address 0. -/
def bindBytes : List Byte :=
  leBytes 8 0 ++ leBytes 4 128 ++ leBytes 2 256 ++ leBytes 2 1 ++ leBytes 2 0 ++ leBytes 2 1 ++ leBytes 4 64 ++ List.replicate 40 0

theorem test_policy_binding : nextSub (isPolicy 2) (policyState (policy 2 1 64 [19]) bindBytes z) = some (policy 2 1 64 [19])
    ∧ portIndex (par (policy 2 1 64 [19]) 0x15 1) = 15 ∧ parsZero (policy 2 1 64 [19]) 0x16 = true ∧ leAt bindBytes 0xC 2 = 256
    ∧ leAt bindBytes 0xE 2 = 1 ∧ leAt bindBytes 8 4 % 64 = 0 ∧ leAt bindBytes 0x38 8 = 0
    ∧ (∀ x ∈ bindExtents bindBytes, 64 + leAt bindBytes 0xE 2 * x.2.2 ≤ x.2.1 ∧ inPartition (loaded z) 0 x.1 (leAt bindBytes 0xC 2 * x.2.1) = true)
    ∧ extToken (loaded z) 1 (leAt bindBytes 0x10 2) false = true ∧ extToken (loaded z) 1 (leAt bindBytes 0x12 2) true = true
    ∧ ((loaded z).binds.filter fun x => x.handle == 1 && x.port != 15).length < prog1.ctx.getD 0 0 := by decide +kernel

/-- Stop instance 0 of template 0 at step 1, dump at LPDDR-6. -/
def stopBytes : List Byte := leBytes 8 0 ++ leBytes 8 1 ++ leBytes 8 0x1000010000 ++ leBytes 8 0

theorem test_policy_replay : nextSub (isPolicy 3) (policyState (policy 3 1 32 []) stopBytes z) = some (policy 3 1 32 [])
    ∧ leAt stopBytes 4 4 = 0 ∧ leAt stopBytes 0x18 8 = 0 ∧ task0.regs.step + task0.waits.length ≤ leAt stopBytes 8 8
    ∧ regionOf (leAt stopBytes 0x10 8) = .lpddr ∧ mapped (loaded z) (leAt stopBytes 0x10 8) 4208064 = Stat.ok := by decide +kernel

theorem test_policy_replay_task : taskOf (loaded z) id0 = some task0 := rfl

/-- A plan of source 7 for port 0. -/
def planBytes : List Byte := [7, 0, 0, 0] ++ leBytes 8 0 ++ leBytes 2 1 ++ leBytes 2 0 ++ leBytes 4 16777215 ++ List.replicate 12 0

theorem test_policy_plans : nextSub (isPolicy 4) (policyState (policy 4 1 32 []) planBytes z) = some (policy 4 1 32 []) ∧ planOk planBytes = true
    ∧ ((loaded z).plans.filter fun x => x.handle != 1).length + 32 / 32 ≤ 32 := by decide +kernel

/-- A nonce. -/
def nonce0 : List Byte := List.replicate 32 7

theorem length_padTo (n : Nat) (l : List Byte) : (padTo n l).length = n := by simp [padTo]; omega

theorem test_report_length : (reportOf nonce0 z).length = 34344 := by
  simp only [reportOf, reportBody, List.length_append, length_padTo]
  decide +kernel

theorem test_attestation : nextSub (isPolicy 5) (policyState (policy 5 0 32 (List.replicate 11 0 ++ leBytes 4 65536)) nonce0 z)
      = some (policy 5 0 32 (List.replicate 11 0 ++ leBytes 4 65536))
    ∧ par (policy 5 0 32 (List.replicate 11 0 ++ leBytes 4 65536)) 0x15 3 = 0
    ∧ parsZero (policy 5 0 32 (List.replicate 11 0 ++ leBytes 4 65536)) 0x24 = true
    ∧ 34344 ≤ par (policy 5 0 32 (List.replicate 11 0 ++ leBytes 4 65536)) 0x20 4
    ∧ par (policy 5 0 32 (List.replicate 11 0 ++ leBytes 4 34343)) 0x20 4 < 34344 := by decide +kernel

/-- A key of set 2 for slot 7. -/
def keyBytes : List Byte := [7, 2, 0, 0] ++ List.replicate 64 5

theorem test_model_keys : nextSub (isPolicy 6) (policyState (policy 6 0 68 []) keyBytes z) = some (policy 6 0 68 [])
    ∧ rdB z Reg.secPolicy.base 1 = false ∧ rdB (regs [(Reg.secPolicy.base, 2)] z) Reg.secPolicy.base 1 = true
    ∧ (∀ k ∈ keyEntries keyBytes, k.1 ≤ 7 ∧ (k.2.1 = 1 ∨ k.2.1 = 2) ∧ k.2.2.1 = 0) ∧ keyEntries keyBytes ≠ [] := by decide +kernel

/-- A firmware image but for its signature and its key's hash, which are free functions of the model. -/
def firmware0 : List Byte :=
  [0x50, 0x57, 0x46, 0x57] ++ leBytes 2 0x1612 ++ [0, 0] ++ leBytes 4 1 ++ List.replicate 117 0 ++ List.replicate 29792 0

theorem test_firmware_slot (k : Config.keyHash 0 = shake256 ((firmware0.drop 0xC).take 64) 32)
    (v : ∀ a b c, Config.slhVerify 2 a b c = true) : imageAccepted z firmware0 = true := by
  have h : (firmware0.take 4 == [0x50, 0x57, 0x46, 0x57] && leAt firmware0 4 2 == 0x1612 && decide (leAt firmware0 6 1 ≤ 63)
      && decide (leAt firmware0 7 1 ≤ 3) && decide (1 ≤ leAt firmware0 8 4) && decide (leAt firmware0 8 4 ≤ 16744448)
      && decide (128 + leAt firmware0 8 4 + 29792 ≤ firmware0.length) && !bitOf (tvRead z Reg.secKeys.base) (leAt firmware0 7 1)
      && decide (z.fuse.svn ≤ leAt firmware0 6 1)) = true ∧ leAt firmware0 7 1 = 0 := by decide +kernel
  simp only [imageAccepted, h.2, ← k, v]
  revert h
  simp
  intros
  simp_all

theorem test_firmware_refused : nextSub (isPolicy 7) (policyState (policy 7 0 1 []) [] z) = some (policy 7 0 1 [])
    ∧ parsZero (policy 7 0 1 []) 0x15 = true ∧ imageAccepted z [0] = false := by decide +kernel

/-- An item of source 7, open. -/
def item0 (s : State) : Item :=
  { id := 5, src := 7, posSrc := 0, openPos := 0, openTime := s.tim.now, deadline := 100, closePos := none, closeTime := DevTime.zero, bound := true
    frags := [], nextOrd := 0, fragRefused := false, sampleVoid := false, samples := [], sampleCount := 0, lastIn := none, ord := none }

/-- Item 5 is in the ledger, the one last opened by source 7. -/
def withItem (s : State) : State := modLed (fun l => { l with items := [item0 s], srcItem := [(7, 5)] }) (loaded s)

/-- The oldest edge opens an item of source 7, or closes one. -/
def edge0 (opens : Bool) : Edge :=
  { chan := 0, level := true, time := DevTime.zero, pos := 10, opens := if opens then [(7, 1)] else [], closes := if opens then [] else [7] }

/-- That edge waits in the link. -/
def withEdge (opens : Bool) (s : State) : State := modOuv (fun o => { o with edgeQ := [edge0 opens] }) s

theorem test_items : (withEdge true z).ouv.edgeQ = [edge0 true] ∧ (edge0 true).opens.find? (fun o => o.1 == 7) = some (7, 1)
    ∧ inflight (loaded z) < 16384 ∧ srcProg (regs [(Reg.itmSrcCtl.off 7 0, 1 * 2 ^ 24)] (loaded z)) 7 = 1
    ∧ loadedProg (loaded z) 1 = some prog1 ∧ prog1.stopped = false ∧ (edge0 false).closes.contains 7 = true
    ∧ (withItem z).led.srcItem.lookup 7 = some 5 ∧ itemOf (withItem z) 5 = some (item0 z)
    ∧ reached (copyPos (withItem z) 0) (item0 z).deadline = false
    ∧ reached (copyPos { withItem z with copies := [{ pos := 100, vhat := 0, reverse := false, frac := 0 }] } 0) (item0 z).deadline = true := by
  decide +kernel

/-- Item 5 as it commits. -/
def commit0 : Commit :=
  { item := item0 z, disp := 1, action := 1, flags := 0, seq := 3, prog := 1, out := 0, firePos := 0, commitPos := 0, commitTime := DevTime.zero
    digest := List.replicate 32 0, admitted := true }

/-- A record in the overflow area. -/
def ovf0 (n : Nat) : OvfRec := { item := 5, seq := 3, at_ := 0, entries := n }

theorem test_handoff : (modLed (fun l => { l with committing := [commit0] }) z).led.committing = [commit0]
    ∧ (recordBytes (srcHost z 7) commit0).length / 64 ≤ ringFree (regs [(Reg.itmCtl.base, 2)] (placed z)) 1 ∧ z.led.overflow = []
    ∧ (ovf0 64).entries ≤ ringFree (regs [(Reg.itmCtl.base, 2)] (placed z)) 1
    ∧ ringFree (regs [(Reg.itmCtl.base, 2)] (placed z)) 1 < (ovf0 65).entries
    ∧ streamBytes z + 262144 - 58 * 181 + ceilDiv (262144 - 58 * 181) 1408 * 58 ≤ 262144
    ∧ 262144 < streamBytes z + 262144 + ceilDiv 262144 1408 * 58 := by decide +kernel

/-! ## The Square -/

/-- Word 0 of the Square is poisoned. -/
def poisoned (s : State) : State := modSq (fun q => { q with poison := [0] }) (loaded s)

theorem test_square : sends 8 = true ∧ sends 9 = false ∧ sends 64 = false ∧ coreUp (loaded z) = true ∧ allocated (loaded z) 0xFFF00 256 = true ∧ (0xFFF00 : Nat) % 256 + 256 ≤ 256
    ∧ poisonHit (loaded z).sq.poison 0xFFF00 256 = false ∧ poisonHit (poisoned z).sq.poison 0 256 = true
    ∧ poisonPart (loaded z).sq.poison 0xFFF00 256 = false ∧ poisonPart (poisoned z).sq.poison 1 3 = true ∧ allocated (loaded z) 0x100000 1 = false
    ∧ (0x20000000 : Nat) < 0x20000000 + 1 ∧ touches 0xFFF00 256 (0xFFFF8 / 8) = true ∧ (loaded z).sq.poison.contains 0 = false := by decide +kernel

theorem test_square_write : memGet (devPut 0x20 [1, 0, 3] z).mem 0x22 = 3 ∧ memGet (devPut 0x20 [1, 0, 3] z).mem 0x1F = 0
    ∧ Memory.wf (devPut 0x20 [1, 0, 3] z).mem := by decide +kernel

theorem test_host_square : (0xF0000 : Nat) % 65536 + 65536 ≤ 65536 ∧ allocated (loaded z) 0xF0000 65536 = true ∧ runAt (loaded z) (0x100000 / 65536) = none
    ∧ (0x1FFFFFFF : Nat) < 0x20000000 := by decide +kernel

/-- The scrubber stands at a line of every bank; bank 3 is being copied to spare 128. -/
def scrubbing (line : Nat) : State :=
  modSq (fun q => { q with scrubLine := List.replicate 128 line, retiring := [{ bank := 3, spare := 128 }] }) z

theorem test_scrub : rdB z Reg.sqCtl.base 0 = true ∧ (scrubbing 16382).sq.scrubLine.getD 127 0 + 1 < 16384
    ∧ (scrubbing 16383).sq.scrubLine.getD 127 0 + 1 = 16384 ∧ (scrubbing 16383).sq.scrubLine.getD 0 0 + 1 = 16384
    ∧ touches (lineAddr 127 ((scrubbing 16382).sq.scrubLine.getD 127 0)) 256 (lineAddr 127 16382 / 8) = true
    ∧ ((scrubbing 0).sq.retiring.find? fun r => r.bank == 3) = some { bank := 3, spare := 128 } ∧ laneFails z 4 < 2
    ∧ laneFails (modSq (fun q => { q with laneFails := [(4, 2)] }) z) 4 = 2 ∧ z.sq.laneSpare.contains 4 = false := by decide +kernel

theorem test_partitions : silent z (Reg.sqQuota.off 15 0) true = false ∧ (0x80000010 : Word).getLsbD 31 = true
    ∧ partUse (loaded z) 0 = bits (0x80000010 : Word).toNat 0 14 ∧ bits (0x8000000F : Word).toNat 0 14 < partUse (loaded z) 0
    ∧ (0x10 : Word).getLsbD 31 = false ∧ partEn (regs [(Reg.sqQuota.off 0 0, 2 ^ 31 + 100)] (loaded z)) 0 = true ∧ partUse (loaded z) 0 ≠ 0
    ∧ partEn z 1 = false := by decide +kernel

/-- Partition 0 has a quota of 20 granules and holds 16. -/
def quota20 : State := regs [(Reg.sqQuota.off 0 0, 2 ^ 31 + 20)] (loaded z)

theorem test_allocation : partEn quota20 1 = false ∧ quotaOf quota20 0 < partUse quota20 0 + 5 ∧ partUse quota20 0 + 4 ≤ quotaOf quota20 0
    ∧ (∃ g ∈ gaps 0 quota20.sq.runs, 4 ≤ g.2)
    ∧ (∀ g ∈ gaps 0 [({ base := 0, n := 8190, part := 0, handle := 0, kind := 0 } : GranRun)], g.2 < 3) ∧ (alloc 0 4 1 2 quota20).1.base = 16 := by
  decide +kernel

/-! ## Cores and the sequencer -/

/-- The running instance with given registers. -/
def taskAt (r : TaskRegs) : Task := { task0 with st := .running, core := some 0, regs := r }

/-- It runs on core 0. -/
def coreAt (k : Task) (s : State) : State :=
  { loaded s with tasks := [k], cores := modAt 0 (fun c => { c with phase := .running, task := some k.id }) s.cores }

/-- The registers at the prologue. -/
def r0 : TaskRegs := task0.regs

theorem test_fencing : (coreOf (coreAt { taskAt r0 with passes := 1 } z) 0).task = some id0 ∧ (taskAt r0).core = some 0
    ∧ (coreOf (coreAt (taskAt r0) z) 0).st = 0 ∧ MayWrite z .host Reg.tcFence.base 0xFE4C0010 ∧ bits (0xFE4C0010 : Word).toNat 0 5 = 16
    ∧ (coreOf z 16).st ≠ 0 ∧ (coreOf z 0).st = 0 ∧ (coreOf z 0).task = none ∧ (∀ p ∈ z.progs, p.stopped = true ∨ p.loading = true)
    ∧ spareCore z = some 16 ∧ awake z 0 16 = true ∧ (coreOf z 0).gated = false := by decide +kernel

theorem test_points : MayWrite (fw z) .complex (Reg.tcOpp.off 16 0) 0x9678 ∧ pointOk (bits (0x9678 : Word).toNat 0 7) (bits (0x9678 : Word).toNat 8 8) = true
    ∧ coreClock z 16 < bits (0x9678 : Word).toNat 0 7 ∧ pointOk (bits (0x5A28 : Word).toNat 0 7) (bits (0x5A28 : Word).toNat 8 8) = true
    ∧ bits (0x5A28 : Word).toNat 0 7 ≤ coreClock z 16 ∧ pointOk 39 100 = false ∧ pointOk 121 100 = false ∧ pointOk 70 151 = false
    ∧ (coreOf (modCore 3 (fun c => { c with pendingFreq := some 120 }) z) 3).pendingFreq = some 120 ∧ coreClock z 3 ≠ 120
    ∧ coreClock z 3 = 70 := by decide +kernel

/-- Core 5 and unit 0 of each chain are asleep. -/
def asleep : State := modPwr (fun p => { p with asleep := [(0, 5), (1, 0), (2, 0)] }) z

theorem test_gating : rdB z Reg.pwrCtl.base 1 = true ∧ rdF z Reg.pwrGate.base 0 16 ≠ 0 ∧ (coreOf z 0).phase = .idle ∧ awake z 0 0 = true
    ∧ rdB (regs [(Reg.pwrCtl.base, 1)] z) Reg.pwrCtl.base 1 = false ∧ rdF (regs [(Reg.pwrGate.base, 0)] z) Reg.pwrGate.base 0 16 = 0
    ∧ nextWake asleep 1 = some 0 ∧ nextWake asleep 2 = some 0 ∧ nextWake asleep 0 = some 5 ∧ (coreOf asleep 5).wakePoint = none
    ∧ nextWake (modCore 5 (fun c => { c with wakePoint := some (100, 110) }) asleep) 0 = some 5 := by decide +kernel

/-- A meter that reads a power and a temperature. -/
def meter (p : Nat) (t : Int) : Meter := { power := p, eboux := t, ouvfi := 25, place := 0 }

theorem test_throttle : ceiling z < (meter 851 104).power ∧ (meter 850 105).power ≤ ceiling z ∧ (105 : Int) ≤ (meter 851 105).eboux
    ∧ (meter 824 25).power * 100 < ceiling z * 97 ∧ (modPwr (fun p => { p with levelP := 7 }) z).pwr.levelP ≠ 0
    ∧ throttle (modPwr (fun p => { p with levelP := 7 }) z) = 7 ∧ (meter 0 103).eboux ≤ 103
    ∧ (modPwr (fun p => { p with demandT := true }) z).pwr.demandT = true ∧ throttle z = 0
    ∧ silent z Reg.pwrLimit.base true = false ∧ bits (25 : Word).toNat 0 7 = 25 ∧ bits (111 : Word).toNat 0 7 = 111 := by decide +kernel

theorem test_governor : cpUp (fw z) 3 = true ∧ detMode z = false ∧ detMode (regs [(Reg.glbMode.base, 0x4601)] z) = true
    ∧ rdB z Reg.pwrCtl.base 0 = true ∧ rdB (regs [(Reg.pwrCtl.base, 2)] z) Reg.pwrCtl.base 0 = false ∧ flagOf z Reg.pwrStatus.base 1 = false
    ∧ govMin z ≤ govMax z := by decide +kernel

/-- A word of an opcode begins at once in the running instance. -/
def begins (op : Nat) (i : Iw) (r : TaskRegs) : Bool :=
  ((useOf op i).elim false fun u => u.allows i && !decodeHeld (taskAt r) u op i) && !guardPending (taskAt r) i && (!i.pe || pOf r i.pg != i.pn)
    && mayBegin (taskAt r) [] op i (capture r)

theorem begins_in (op : Nat) (i : Iw) (r : TaskRegs) (p : Program) (s : State) (h : begins op i r = true) (ht : s.tasks = [taskAt r])
    (hc : s.cores = (coreAt (taskAt r) z).cores) (hp : s.progs = [p]) (h1 : p.handle = 1) (h2 : replayHolds p (taskAt r) = false) :
    MayBegin op (on 0) i (taskAt r) p s := by
  have hq : progOf s 1 = some p := by simp [progOf, hp, h1]
  have hk : taskOf s id0 = some (taskAt r) := by rw [taskOf, ht]; rfl
  have hcore : coreOf s 0 = coreOf (coreAt (taskAt r) z) 0 := by rw [coreOf, hc]; rfl
  simp only [begins, Bool.and_eq_true, Bool.not_eq_true', Bool.or_eq_true, bne_iff_ne, ne_eq] at h
  obtain ⟨⟨⟨hu, hg⟩, hp⟩, hm⟩ := h
  refine ⟨?_, ?_, ?_, hk, hq, rfl, rfl, h2, rfl, ?_, hg, fun e => hp.elim (fun n => by simp [e] at n) id, fun _ => rfl, hm⟩
  · rw [show (on 0).n = 0 from rfl, hcore]; rfl
  · rw [show (on 0).n = 0 from rfl, hcore]; rfl
  · rw [show (on 0).n = 0 from rfl, hcore]; rfl
  · cases e : useOf op i with
    | none => simp [e] at hu
    | some u => simp only [e, Option.elim, Bool.and_eq_true, Bool.not_eq_true'] at hu; exact ⟨u, rfl, hu.1, hu.2⟩

theorem begins_may (op : Nat) (i : Iw) (r : TaskRegs) (h : begins op i r = true) : MayBegin op (on 0) i (taskAt r) prog1 (coreAt (taskAt r) z) :=
  begins_in op i r _ _ h rfl rfl rfl rfl rfl

/-- Scalar registers 1 to 3 hold values. -/
def rs (a b c : DWord) : TaskRegs := setS 3 c (setS 2 b (setS 1 a r0))

theorem test_ctl_begin : begins 0x00 w0 r0 = true ∧ begins 0x01 { w0 with func := 3, fd := 31, fa := 1, fb := 2 } r0 = true
    ∧ begins 0x02 { w0 with func := 0, fd := 4, fa := 1, imm := 0xFFFFFF } r0 = true ∧ begins 0x03 { w0 with fd := 3, long := true, x := 9 } r0 = true
    ∧ begins 0x04 { w0 with func := 0, fd := 15, fa := 1 } r0 = true ∧ begins 0x04 { w0 with func := 1, fd := 3, fa := 15 } r0 = true
    ∧ begins 0x04 { w0 with func := 2, fd := 3, fa := 15, imm := 8 } r0 = true ∧ begins 0x04 { w0 with func := 3, fd := 3, fa := 15, fb := 1 } r0 = true
    ∧ begins 0x05 { w0 with func := 2, fd := 7, fa := 1, fb := 2 } r0 = true ∧ begins 0x06 { w0 with func := 0, fd := 7, fa := 1, fb := 2 } r0 = true
    ∧ begins 0x06 { w0 with func := 3, fd := 7, fa := 1 } r0 = true ∧ begins 0x06 { w0 with func := 5, fd := 7 } r0 = true
    ∧ (∀ f ∈ [0, 1, 2, 5, 8, 9], begins 0x0D { w0 with func := f, fd := 3 } r0 = true)
    ∧ (∀ f ∈ [3, 4], begins 0x0D { w0 with func := f, fa := 3 } r0 = true) ∧ begins 0x0D { w0 with func := 6 } r0 = true
    ∧ begins 0x0D { w0 with func := 7, fd := 3, fa := 7 } r0 = true := by decide +kernel

theorem test_ctl_flow_begin : begins 0x0C { w0 with func := 0, fd := 31, fa := 3 } r0 = true ∧ begins 0x0C { w0 with func := 1, fd := 31, long := true } r0 = true
    ∧ begins 0x0C { w0 with func := 2, fd := 3, fa := 31 } r0 = true ∧ begins 0x0C { w0 with func := 3, fd := 31, fa := 30, imm := 65535 } r0 = true
    ∧ begins 0x0C { w0 with func := 3, fd := 31, fa := 30, imm := 65536 } r0 = true
    ∧ begins 0x0C { w0 with func := 4, fd := 31, fa := 30, fb := 1 } (rs 4095 0 0) = true ∧ begins 0x0C { w0 with func := 4, fd := 31, fa := 30, fb := 1 } (rs 4096 0 0) = true
    ∧ begins 0x07 { w0 with imm := 5 } r0 = true ∧ begins 0x08 { w0 with fd := 7, fa := 1, imm := 2 } (rs 0xFFFFFFFF 0 0) = true
    ∧ begins 0x08 { w0 with fd := 7, fa := 1, imm := 2 } (rs 0x100000000 0 0) = true ∧ begins 0x08 { w0 with fd := 7, fa := 2, imm := 2 } r0 = true
    ∧ begins 0x09 w0 r0 = true ∧ begins 0x0A w0 r0 = true ∧ begins 0x0B w0 r0 = true
    ∧ begins 0x0E { w0 with fd := 3, fa := 1, fc := 4 } (rs 8192 0 0) = true ∧ begins 0x0E { w0 with fd := 3, fa := 1, fc := 4 } (rs 8193 0 0) = true
    ∧ begins 0x0F { w0 with fa := 1, fb := 2 } (rs 0x10000 1 0) = true := by decide +kernel


/-- The running instance, with program 1 holding granules 1 to 2 that `ctl.alloc` gave it. -/
def withRun (r : TaskRegs) : State :=
  { coreAt (taskAt r) z with sq := { z.sq with runs := [{ base := 1, n := 2, part := 0, handle := 1, kind := 3 }] } }

theorem test_ctl_free : MayBegin 0x0F (on 0) { w0 with fa := 1, fb := 2 } (taskAt (rs 0x10000 2 0)) prog1 (withRun (rs 0x10000 2 0)) :=
  begins_in _ _ _ _ _ (by decide +kernel) rfl rfl rfl rfl rfl

theorem test_freeable : (taskAt (rs 0x10000 2 0)).match_.entries = [] ∧ RecordRoom (taskAt (rs 0x10000 2 0)) 64
    ∧ (∀ j, j < 2 → freeable (withRun r0) prog1.part (0x10000 / 65536 + j) = true) ∧ freeable (withRun r0) prog1.part (0x10000 / 65536 + 2) = false
    ∧ freeable (coreAt (taskAt r0) z) prog1.part 1 = false := by decide +kernel

/-! ## Tile, array and vector instructions -/

/-- A descriptor word. -/
def td (base rowBytes rows stride fmt : Nat) (wide : Bool) : DWord :=
  BitVec.ofNat 64 (base + rowBytes * 2 ^ 16 + rows * 2 ^ 33 + stride * 2 ^ 45 + fmt * 2 ^ 57 + b2n wide * 2 ^ 62)

/-- Two rows of 256 bytes that end at the tile buffer's end. -/
def tEnd : DWord := td 65528 256 2 4 0 false

/-- One row in the tile buffer's first bytes. -/
def tOne : DWord := td 0 256 1 4 0 false

/-- One wide row. -/
def tWide : DWord := td 64 4608 1 72 0 true

/-- Descriptor 1 and 2, and scalar registers 1 to 3. -/
def ts (t1 t2 : DWord) (a b c : DWord) : TaskRegs := setT 2 t2 (setT 1 t1 (rs a b c))

/-- What an instruction of the running instance works on. -/
abbrev xOf (i : Iw) (r : TaskRegs) : Issue := issueOf 0 (on 0) i (taskAt r) prog1

/-- The state of the running instance. -/
abbrev sOn (r : TaskRegs) : State := coreAt (taskAt r) z

/-- A word that names descriptor 1 as its destination and 2 as its source. -/
def w12 : Iw := { w0 with fd := 1, fa := 2 }

/-- A transfer of descriptor 1 with address register 2, which is zero. -/
def wT (f fb fc : Nat) : Iw := { w0 with func := f, fd := 1, fa := 2, fb := fb, fc := fc }

theorem test_tile_load : begins 0x10 (wT 0 0 0) (ts tEnd 0 0 0 0) = true ∧ begins 0x11 (wT 5 1 2) (ts tEnd 0 512 1 0) = true
    ∧ (transferOf (xOf (wT 0 0 0) (ts tEnd 0 0 0 0)) true (sOn r0)).status = Stat.ok
    ∧ (∀ e ∈ (transferOf (xOf (wT 0 0 0) (ts tEnd 0 0 0 0)) true (sOn r0)).rows, poisonHit z.sq.poison e.2 256 = false)
    ∧ TileFree (ts tEnd 0 0 0 0) ((transferOf (xOf (wT 0 0 0) (ts tEnd 0 0 0 0)) true (sOn r0)).rows.map fun e => (e.1, 256))
    ∧ (transferOf (xOf (wT 0 0 0) (ts (td 65528 256 3 4 0 false) 0 0 0 0)) true (sOn r0)).status = Stat.length
    ∧ (transferOf (xOf (wT 0 0 0) (ts (td 0 256 2 3 0 false) 0 0 0 0)) true (sOn r0)).status = Stat.length
    ∧ (transferOf (xOf (wT 4 0 1) (ts tEnd 0 2 0 0)) false (sOn r0)).status = Stat.length
    ∧ (transferOf (xOf (wT 6 0 1) (ts tEnd 0 2 0 0)) false (sOn r0)).status = Stat.ok
    ∧ TileClean (ts tEnd 0 512 1 0) ((transferOf (xOf (wT 5 1 2) (ts tEnd 0 512 1 0)) false (sOn r0)).rows.map fun e => (e.1, 256)) := by
  decide +kernel

theorem test_tile_transfer : (tdOf (ts tEnd 0 512 1 0) 1).empty = false ∧ (tdOf (ts tEnd 0 512 1 0) 1).refused = false
    ∧ (tdOf (ts tEnd 0 512 1 0) 1).rowsMeet = false ∧ (sOf (ts tEnd 0 512 1 0) 2).toNat < (tdOf (ts tEnd 0 512 1 0) 1).rows
    ∧ 0 + (1 - 1) * 512 + 256 ≤ 0x20000000 ∧ allocated (sOn r0) 0 256 = true
    ∧ (transferOf (xOf (wT 5 1 2) (ts tEnd 0 512 1 0)) true (sOn r0)).rows = [(0x3FFE00 + 256, 0)] := by decide +kernel

/-- The registers with the source of plane 0's load pinned. -/
def pinnedBy (d : DWord) (r : TaskRegs) : TaskRegs := { r with planes := [{ Plane.zero with desc := some d }, Plane.zero] }

theorem test_tile_pinned : begins 0x10 (wT 0 0 0) (pinnedBy tEnd (ts tEnd 0 0 0 0)) = true
    ∧ runsPinned (pinnedBy tEnd (ts tEnd 0 0 0 0))
        ((transferOf (xOf (wT 0 0 0) (pinnedBy tEnd (ts tEnd 0 0 0 0))) true (sOn r0)).rows.map fun e => (e.1, 256)) = true := by decide +kernel

theorem test_tile_copy : begins 0x12 w12 (ts tOne tEnd 0 0 0) = true ∧ (tdOf (ts tEnd tOne 0 0 0) 1).empty = false
    ∧ (tdOf (ts tEnd tOne 0 0 0) 1).rowBytes = (tdOf (ts tEnd tOne 0 0 0) 2).rowBytes ∧ (tdOf (ts tEnd tOne 0 0 0) 2).rows ≤ (tdOf (ts tEnd tOne 0 0 0) 1).rows
    ∧ (tdOf (ts tEnd tOne 0 0 0) 1).rowsMeet = false ∧ (tdOf (ts tEnd tOne 0 0 0) 2).refused = false
    ∧ TileClean (ts tEnd tOne 0 0 0) [(0, 256)] ∧ TileFree (ts tEnd tOne 0 0 0) [(0x3FFE00, 256)] ∧ (tdOf (ts tEnd 0 0 0 0) 2).empty = true
    ∧ begins 0x13 { w0 with fd := 1, fa := 2 } (ts tEnd 0 0 0 0) = true ∧ (tdOf (ts (td 65528 256 3 4 0 false) 0 0 0 0) 1).refused = true := by
  decide +kernel


theorem test_arr_wload : begins 0x20 { w0 with fa := 2 } (ts 0 tOne 0 0 0) = true ∧ (tdOf (ts 0 tOne 0 0 0) 2).empty = false
    ∧ (tdOf (ts 0 tOne 0 0 0) 2).refused = false ∧ (tdOf (ts 0 tOne 0 0 0) 2).wide = false ∧ rateClass (tdOf (ts 0 tOne 0 0 0) 2).fmt = some 0
    ∧ (tdOf (ts 0 tOne 0 0 0) 2).rowBytes = rowBytesOf 0 ∧ (tdOf (ts 0 tOne 0 0 0) 2).rows ≤ classN 0 ∧ TileClean (ts 0 tOne 0 0 0) [(0, 256)]
    ∧ (tdOf (ts 0 tWide 0 0 0) 2).wide = true ∧ (tdOf (ts 0 tWide 0 0 0) 2).refused = false ∧ rateClass 0xC = none := by decide +kernel

theorem test_arr_mma : begins 0x21 { w0 with fa := 2, func := 4 } (ts 0 tOne 0 0 0) = true
    ∧ begins 0x21 { w12 with func := 6 } (ts tWide tOne 0 0 0) = true ∧ begins 0x21 { w12 with func := 2 } (ts tWide tOne 0 0 0) = true
    ∧ passClass (tdOf (ts tWide tOne 0 0 0) 2) (planeOf (ts tWide tOne 0 0 0) 0) = some 0 ∧ (tdOf (ts tWide tOne 0 0 0) 2).rowBytes = rowBytesOf 0
    ∧ wideFits (tdOf (ts tWide tOne 0 0 0) 1) 1 256 = true ∧ WideFree (ts tWide tOne 0 0 0) true 256 [(4096, [])]
    ∧ WideFree (ts tWide tOne 0 0 0) false 256 [(4096, [])] := by decide +kernel

/-- A control word of a convolution: one pixel of a line of one pixel, one row. -/
def conv0 (kx : Nat) : DWord :=
  BitVec.ofNat 64 (1 + 2 ^ 12 + 2 ^ 24 + 2 ^ 36 + 2 ^ 40 + 2 ^ 44 + kx * 2 ^ 48)

/-- A word of a convolution or readout: descriptors 1 and 2, scalars 1 and 2. -/
def wC (f : Nat) (imm : BitVec 24) : Iw := { w12 with func := f, fb := 1, fc := 2, imm := imm }

/-- The pixels of that convolution. -/
def px0 (r : TaskRegs) (ring edge : Bool) : List (Option (Option Nat)) :=
  [pixelAt (tdOf r 2) ring edge 1 1 256 (sOf r 2).toInt 0]

theorem test_arr_conv : begins 0x22 (wC 2 0) (ts tWide tOne (conv0 0) 0 0) = true ∧ (convCtl (conv0 0)).outW = 1 ∧ (convCtl (conv0 0)).bad = false
    ∧ (convCtl (conv0 1)).outW ≠ 0 ∧ (convCtl (conv0 1)).bad = true ∧ (convCtl (conv0 0)).inW * rowBytesOf 0 ≤ (tdOf (ts tWide tOne 0 0 0) 2).rowBytes
    ∧ px0 (ts tWide tOne 0 0 0) false false = [some (some 0)] ∧ px0 (ts tWide tOne 0 1 0) false false = [some none]
    ∧ TileClean (ts tWide tOne 0 0 0) [(0, 256)] := by decide +kernel

/-- A control word of a Winograd row: one tile of one line of four pixels. -/
def wg0 : DWord := BitVec.ofNat 64 (4 + 4 * 2 ^ 12 + 2 ^ 24)

/-- Four rows of four pixels, and sixteen wide rows. -/
def rWg : TaskRegs := ts (td 64 4608 16 72 0 true) (td 0 1024 4 16 0 false) wg0 0 0

/-- The pixels of the tile's 4 x 4 block. -/
def cells0 : List ((Nat × Nat) × Option (Option Nat)) :=
  (List.range 4).flatMap fun (a : Nat) => (List.range 4).map fun (c : Nat) => ((a, c), pixelAt (tdOf rWg 2) false false 4 4 256 (0 + (a : Int)) ((0 + c : Nat) : Int))

theorem test_arr_wgconv : begins 0x23 (wC 2 15) rWg = true ∧ prog1.winograd.lookup rWg.next = some 0 ∧ bits wg0.toNat 24 12 = 1
    ∧ (wC 2 15).imm.toNat % 64 < (2 + 2) * (2 + 2) ∧ (tdOf rWg 1).empty = false ∧ (tdOf rWg 1).refused = false ∧ (tdOf rWg 2).empty = false
    ∧ (tdOf rWg 2).refused = false ∧ bits wg0.toNat 42 22 = 0 ∧ wgFormat false (tdOf rWg 2).fmt = true ∧ wgFormat false (planeOf rWg 0).fmt = true
    ∧ bits wg0.toNat 0 12 = 4 ∧ bits wg0.toNat 12 12 = 4 ∧ passClass (tdOf rWg 2) (planeOf rWg 0) = some 0 ∧ bits wg0.toNat 36 6 = 0
    ∧ bits wg0.toNat 0 12 * rowBytesOf 0 ≤ (tdOf rWg 2).rowBytes ∧ wideFits (tdOf rWg 1) (1 * ((2 + 2) * (2 + 2))) 256 = true
    ∧ (∀ e ∈ cells0, e.2 ≠ none ∧ ∀ a ∈ e.2.join, tbHit rWg a 256 = false) ∧ WideFree rWg true 256 [(4096 + 15 * 4608, [])] := by decide +kernel

/-- Readout registers: the destination, the source of wide rows, the control word; descriptor 0 is empty. -/
def rRd (d t : DWord) (c : Nat) : TaskRegs := ts d t (BitVec.ofNat 64 c) 0 0

theorem test_arr_read : begins 0x24 { wC 0 0 with fa := 0 } (rRd tOne 0 0) = true ∧ begins 0x24 { wC 1 0 with fc := 0 } (rRd tOne tWide 8) = true
    ∧ begins 0x24 { wC 3 (1 * 32) with fc := 0 } (rRd (td 0 256 2 4 0 false) (td 64 4608 16 72 0 true) 0) = true
    ∧ (tdOf (rRd tOne 0 0) 1).empty = false ∧ (tdOf (rRd tOne 0 0) 1).rowsMeet = false ∧ readable (tdOf (rRd tOne 0 0) 1).fmt = true
    ∧ readCtlBad (BitVec.ofNat 64 0) = false ∧ (1 * 256 * elemBits 0 + 7) / 8 ≤ (tdOf (rRd tOne 0 0) 1).rowBytes
    ∧ TileFree (rRd tOne 0 0) [(0, 256)] ∧ (tdOf (rRd tOne tWide 0) 2).rowBytes = 18 * 256 ∧ TileClean (rRd tOne tWide 0) [(4096, 4608)]
    ∧ (td 64 4608 16 72 0 true).toNat / 2 ^ 33 % 4096 % ((2 + 2) * (2 + 2)) = 0 ∧ bits (BitVec.ofNat 24 32).toNat 5 12 = 1 := by decide +kernel

/-- A column table of 256 rows of 16 bytes. -/
def rTab : TaskRegs := ts tOne (td 64 16 256 1 0 false) 8 0 0

theorem test_arr_read_table : (readCtl (sOf rTab 1)).percol = true ∧ (tdOf rTab 2).refused = false ∧ 256 ≤ (tdOf rTab 2).rows ∧ 16 ≤ (tdOf rTab 2).rowBytes
    ∧ (∀ c ∈ colPars (xOf { wC 0 0 with fa := 0 } rTab) (tdOf rTab 2) 256, c.2 = false) ∧ TileClean rTab ((tdOf rTab 2).runs 256) := by decide +kernel

theorem test_vec_move : begins 0x30 { w0 with fd := 31, fa := 1, fb := 2, func := 1 } (ts tEnd 0 0 3 0) = true
    ∧ begins 0x31 { w0 with fd := 1, fa := 31, fb := 2 } (ts tEnd 0 0 1 0) = true ∧ (tdOf (ts tEnd 0 0 1 0) 1).rows = 2
    ∧ (0 : BitVec 24).toNat % 0x2000 + 256 ≤ (tdOf (ts tEnd 0 0 1 0) 1).rowBytes ∧ TileClean (ts tEnd 0 0 1 0) [((tdOf (ts tEnd 0 0 1 0) 1).row 1, 256)]
    ∧ TileFree (ts tEnd 0 0 1 0) [((tdOf (ts tEnd 0 0 1 0) 1).row 1, 256)] ∧ (tdOf (ts tEnd 0 0 2 0) 1).rows ≤ (sOf (ts tEnd 0 0 2 0) 2).toNat := by
  decide +kernel

theorem test_vec_lanes : begins 0x32 { w0 with func := 4, fd := 31, fa := 1, fb := 2, imm := 8 } r0 = true
    ∧ begins 0x33 { w0 with fd := 1, fa := 1, fb := 1, fc := 1, imm := 3 } r0 = true ∧ begins 0x34 { w0 with func := 3, fd := 1, imm := 6 } r0 = true
    ∧ begins 0x35 { w0 with fd := 1, fc := 31, imm := 5 } r0 = true ∧ begins 0x36 { w0 with func := 2, fa := 0, imm := 32 * 16 } r0 = true
    ∧ begins 0x36 { w0 with func := 0, fa := 31 } r0 = true ∧ begins 0x37 { w0 with imm := 0x10B00 } r0 = true
    ∧ convertible 0 = true ∧ convertible 0xB = true ∧ convertible 4 = false ∧ begins 0x37 { w0 with imm := 4 } r0 = true
    ∧ begins 0x38 { w0 with func := 6 } r0 = true ∧ begins 0x39 { w0 with fb := 1, imm := 4 } r0 = true ∧ begins 0x3A { w0 with fa := 1 } r0 = true
    ∧ begins 0x3B { w0 with fd := 3, imm := 0xFF04 } r0 = true := by decide +kernel

theorem test_vec_mxp : begins 0x3C { w0 with fd := 1, fa := 28, fb := 2, imm := 5 } (ts (td 0 264 2 5 5 false) 0 0 1 0) = true ∧ isMx 5 = true
    ∧ (tdOf (ts (td 0 264 2 5 5 false) 0 0 1 0) 1).rowsMeet = false ∧ (sOf (ts (td 0 264 2 5 5 false) 0 0 1 0) 2).toNat < 2
    ∧ rowBytesOf 5 ≤ (tdOf (ts (td 0 264 2 5 5 false) 0 0 1 0) 1).rowBytes ∧ TileFree (ts (td 0 264 2 5 5 false) 0 0 1 0) [(320, 264)]
    ∧ begins 0x3C { w0 with imm := 0 } r0 = true ∧ isMx 0 = false := by decide +kernel

/-! ## Jobs, tokens, items and sequences -/

/-- Program 1 with one client of the sequence manager and room for two sequences. -/
def prog2 : Program := { prog1 with ctxIds := List.replicate 6 [] ++ [[3]], kvSeqs := 2, kvBlk := 1, idFirst := 40 }

/-- The running instance of `prog2`: token 0 is its job token and holds a count of 2, token 1 is tagged and holds 3 for item 5, which is open; the
partition has a pool of one granule. -/
def busy (r : TaskRegs) : State :=
  { coreAt (taskAt r) (withItem (regs [(Reg.itmNextId.base, 7), (Reg.sqKvCfg.base, 1 + 2 ^ 16)] z)) with
    progs := [prog2]
    tokens := [{ token0 0 false true with jobTmpl := some 0, count := 2 }, { token0 1 true true with pairs := [(5, 3)] }]
    clients := List.replicate 4 { handle := 1, part := 0, stepBy := [], armed := false }
    led := { (withItem z).led with items := [item0 z] } }

theorem busy_begins (op : Nat) (i : Iw) (r : TaskRegs) (h : begins op i r = true) : MayBegin op (on 0) i (taskAt r) prog2 (busy r) :=
  begins_in op i r _ _ h rfl rfl rfl rfl rfl

/-- A full queue of a kind: a share of 1024 entries. -/
def fullQueue (kind : Nat) (s : State) : State :=
  modEng (fun e => { e with jobs := List.replicate 1024 { kind := kind, desc := [], task := id0, part := 0, ord := 0, at_ := DevTime.zero } }) s

theorem test_enq : begins 0x40 { w0 with func := 2, fa := 2, fb := 1 } (rs 64 0 0) = true ∧ begins 0x40 { w0 with func := 8, fa := 2, fb := 1 } r0 = true
    ∧ (sOf (rs 64 0 0) 1).toNat ≤ 64 ∧ (aOf r0 2 + BitVec.ofInt 40 (sext w0)).toNat = 0 ∧ allocated (busy r0) 0 (64 * 64) = true
    ∧ poisonHit (busy r0).sq.poison 0 4096 = false ∧ (∀ j, j < 64 → jobTokenOk (busy r0) id0 2 (devGet (busy r0) (64 * j) 64) = true)
    ∧ RecordRoom (taskAt r0) 64 ∧ jobsInUse (busy r0) 2 + 64 ≤ jobShare 2 ∧ jobShare 2 ≤ jobsInUse (fullQueue 2 (busy r0)) 2
    ∧ jobTokenOk (loaded z) id0 2 (devGet (busy r0) 0 64) = false := by decide +kernel

/-- The running instance whose local token 63 holds a count. -/
def localTok (n : Nat) : TaskRegs := setLocal 63 n r0

/-- An amount in the extension word, on a token. -/
def wK (f tok amt : Nat) : Iw := { w0 with func := f, long := true, x := BitVec.ofNat 64 amt, imm := BitVec.ofNat 24 tok, q := 3 }

theorem test_tok_local : begins 0x50 (wK 0 63 2) (localTok 2) = true ∧ tokAmt (wK 0 63 2) ≤ localOf (localTok 2) 63 ∧ localOf (localTok 1) 63 < 2
    ∧ begins 0x51 (wK 0 63 65533) (localTok 2) = true ∧ localOf (localTok 2) 63 + tokAmt (wK 0 63 65533) ≤ 65535
    ∧ 65535 < localOf (localTok 3) 63 + tokAmt (wK 0 63 65533) ∧ begins 0x52 { wK 0 63 2 with fd := 7 } (localTok 2) = true := by decide +kernel

theorem test_tok_global : begins 0x50 (wK 1 0 2) r0 = true ∧ begins 0x50 { wK 7 1 3 with fd := 3, fa := 1, fc := 2 } (rs 5 0 0) = true
    ∧ (tokOf (busy r0) 1 0).isSome = true ∧ (tokOf (busy r0) 1 1).map (fun t => drawn t (some 5)) = some 3 ∧ itemEnded (busy r0) 5 = false
    ∧ itemEnded (busy r0) 6 = true ∧ (tokOf (busy r0) 1 0).map (fun t => drawn t none) = some 2 ∧ latchFaults 0 = false
    ∧ latchFaults Stat.timeout = true ∧ (tokOf (busy r0) 1 0).map (fun t => t.jobTmpl) = some (some 0) ∧ RecordRoom (taskAt r0) 1 := by decide +kernel

theorem test_tok_signal : begins 0x51 (wK 1 0 65533) r0 = true ∧ (2 : Nat) + tokAmt (wK 1 0 65533) ≤ 65535 ∧ 65535 < 2 + tokAmt (wK 1 0 65534)
    ∧ begins 0x51 { wK 3 1 65532 with fa := 1 } (rs 5 0 0) = true ∧ (itemOf (busy r0) 5).isSome = true ∧ (taskAt r0).match_.sigs = 0
    ∧ (tokOf (busy r0) 1 1).map (fun t => t.pairs.any fun x => x.1 == 5) = some true ∧ (3 : Nat) + tokAmt (wK 3 1 65532) ≤ 65535 := by decide +kernel

/-- An attach of descriptor 1 to the item in scalar register 1. -/
def wAt (f : Nat) : Iw := { w0 with func := f, fd := 3, fa := 1, fb := 1, fc := if f = 1 then 2 else 0, imm := 0x40 }

theorem test_itm_attach : begins 0x60 (wAt 0) (ts (td 0 1016 1 16 0 false) 0 5 0 0) = true ∧ begins 0x60 (wAt 1) (ts 0 0 5 9 0) = true
    ∧ (tdOf (ts (td 0 1016 1 16 0 false) 0 5 0 0) 1).refused = false ∧ (tdOf (ts (td 0 1016 1 16 0 false) 0 5 0 0) 1).empty = false
    ∧ TileClean (ts (td 0 1016 1 16 0 false) 0 5 0 0) [(0, 1016)] ∧ (tdOf (ts 0 0 5 9 0) 1).empty = true ∧ itemIssued (busy r0) 7 = false
    ∧ itemIssued (busy r0) 6 = true ∧ itemOf (busy r0) 6 = none ∧ itemIssued (busy r0) 5 = true ∧ itemOf (busy r0) 5 = some (item0 z)
    ∧ (item0 z).frags.length < 64 := by decide +kernel

theorem test_itm_commit : begins 0x61 { w0 with func := 2, fd := 3, fa := 1, fb := 2, imm := 31 } (rs 5 1000000 0) = true
    ∧ begins 0x61 { w0 with func := 0, fd := 3, fa := 1, fb := 2 } (rs 5 0 0) = true
    ∧ fireLate (busy r0) 0 31 0 = true ∧ fireLate (busy r0) 0 31 1000000 = false := by decide +kernel

theorem test_itm_get : (∀ f ∈ [0, 1, 2, 3, 4, 5], begins 0x62 { w0 with func := f, fd := 3, fa := 1, fb := 7 } (rs 5 0 0) = true)
    ∧ itemOf (busy r0) 5 = some (item0 z) ∧ itemOf (busy r0) 6 = none ∧ (item0 z).closePos = none
    ∧ ([commit0].find? fun c => c.item.id == 5 && c.admitted) = some commit0 := by decide +kernel

theorem test_seq : begins 0x70 { w0 with fd := 4, fa := 1, fb := 2, fc := 3 } (rs 5 16 9) = true ∧ clientFor prog2 0 = some 3
    ∧ reservation 16 ≤ kvTargetBlocks (busy r0) 0 ∧ kvTargetBlocks (busy r0) 0 < reservation 4097 ∧ freeSeqId (busy r0) prog2 = some 40
    ∧ begins 0x71 { w0 with func := 1, fd := 3, fa := 2 } r0 = true ∧ allocated (busy r0) 0 32768 = true
    ∧ allocated (busy r0) 0x100000 32768 = false ∧ begins 0x72 { w0 with fa := 1 } (rs 40 0 0) = true ∧ cpUp (busy r0) 2 = true := by
  decide +kernel

/-- A queued join or a member. -/
def seq0 (id : Nat) (member : Bool) : Sequence :=
  { id := id, client := 3, handle := 1, item := 5, max := 16, tag := 0, member := member, justJoined := false, leaving := false, held := 0, blocks := []
    blk := 1 }

/-- Both IDs are taken by queued joins; the pool holds one granule. -/
def joining : State :=
  { busy r0 with seqs := [seq0 40 false, seq0 41 false]
                 sq := { (busy r0).sq with runs := (busy r0).sq.runs ++ [{ base := 16, n := 1, part := 0, handle := 0, kind := 4 }] } }

theorem test_boundary : freeSeqId joining prog2 = none ∧ joining.seqs.find? (fun q => q.client == 3 && !q.member) = some (seq0 40 false)
    ∧ reservation (seq0 40 false).max ≤ (freeBlocks joining (clientOf joining 3).part).length ∧ partOver joining 0 = false
    ∧ (freeBlocks (busy r0) (clientOf (busy r0) 3).part).length < reservation (seq0 40 false).max ∧ partOver (busy r0) 0 = false
    ∧ partOver (regs [(Reg.sqQuota.base, 2 ^ 31)] joining) 0 = true ∧ (clientOf (busy r0) 3).stepBy = [] := by decide +kernel

/-- A task that is restarted has queued two jobs of a kind before. -/
theorem test_enq_again : begins 0x40 { w0 with func := 2, fa := 2, fb := 1 } (rs 2 0 0) = true ∧ (sOf (rs 2 0 0) 1).toNat = 2
    ∧ ([.enq 2, .enq 2] : List RecEntry).countP (fun e => e == .enq 2) = 2 := by decide +kernel

/-! ## The scheduler -/

/-- The instance, ready. -/
def readyTask : Task := { task0 with st := .ready, prio := 2 }

/-- Core 16 is the fused spare; every other core has a phase and runs instance `id1` at priority 1. -/
def coresIn (ph : CorePhase) (k : Task) (st : TaskState) : State :=
  { loaded z with tasks := [k, { task0 with id := { id0 with inst := 1 }, st := st, prio := 1, core := some 0 }]
                  cores := z.cores.map fun c => { c with phase := ph, task := some { id0 with inst := 1 } } }

theorem test_placement : readyTasks z = [] ∧ readyTasks (coresIn .idle readyTask .saved) = [readyTask] ∧ claimOf (coresIn .idle readyTask .saved) id0 = none
    ∧ idleFor (coresIn .idle readyTask .saved) id0 = some 0 ∧ detMode (coresIn .idle readyTask .saved) = false
    ∧ idleFor (coresIn .running readyTask .running) id0 = none ∧ victimFor (coresIn .running readyTask .running) readyTask = some 15
    ∧ readyTasks (coresIn .running readyTask .running) = [readyTask] ∧ claimOf (coresIn .running readyTask .running) id0 = none
    ∧ victimFor (coresIn .running { readyTask with prio := 1 } .running) { readyTask with prio := 1 } = none := by decide +kernel

/-- The running instance's core in a phase. -/
def phased (ph : CorePhase) (k : Task) (incoming : Option TaskId) : State :=
  modCore 0 (fun c => { c with phase := ph, incoming := incoming }) (coreAt k z)

theorem test_switch : (coreOf (phased .stopping (taskAt r0) none) 0).phase = .stopping ∧ (taskAt r0).passes = 0
    ∧ ({ taskAt r0 with passes := 1 } : Task).passes ≠ 0 ∧ (coreOf (phased .saving (taskAt r0) none) 0).phase = .saving
    ∧ (coreOf (phased .saving (taskAt r0) none) 0).incoming ≠ some id0
    ∧ (coreOf (phased .saving (taskAt r0) (some { id0 with inst := 1 })) 0).incoming ≠ some id0
    ∧ (coreOf (phased .restoring (taskAt r0) none) 0).phase = .restoring ∧ (coreOf (phased .restoring (taskAt r0) none) 0).gated = false
    ∧ awake (phased .restoring (taskAt r0) none) 0 0 = true ∧ (coreOf (coreAt (taskAt r0) z) 0).phase = .running
    ∧ rdF (regs [(Reg.rbtCfg.base, 5)] z) Reg.rbtCfg.base 0 16 = 5 := by decide +kernel

theorem test_switch_task : (coreOf (phased .saving (taskAt r0) none) 0).task = some id0 ∧ taskOf (phased .saving (taskAt r0) none) id0 = some (taskAt r0) :=
  ⟨rfl, rfl⟩

/-- A stop at the task's first step, with its dump in LPDDR-6. -/
def stop0 (reached : Bool) : ReplayStop := { task := id0, step := 0, dump := 0x1000010000, reached := reached }

theorem test_replay : replayTask { coreAt (taskAt r0) z with progs := [{ prog1 with replay := some (stop0 true) }] } 0
      = some (taskAt r0, { prog1 with replay := some (stop0 true) }, stop0 true)
    ∧ (stop0 true).reached = true ∧ (taskAt r0).waits = [] := ⟨rfl, rfl, rfl⟩

theorem test_replay_task : r0.s.length = 32 ∧ r0.t.length = 32 ∧ r0.v.length = 32 ∧ r0.acc.length = 256 ∧ r0.a.length = 16 ∧ r0.lc.length = 8
    ∧ r0.local_.length = 64 := by decide +kernel

/-! ## Cameras -/

theorem test_port_enable : MayWrite z .host (Reg.cxpCtl.off 11 0) 0 ∧ gangHalf z 11 = false ∧ bitOf (rd z (Reg.cxpCtl.off 11 0)) 0 = false
    ∧ cxpRefused z 11 (rd z (Reg.cxpCtl.off 11 0)) = false ∧ cxpRefused z 11 (7 * 2 ^ 16) = true ∧ cxpRefused z 11 (6 * 2 ^ 16) = false
    ∧ bitOf (rd (regs [(Reg.cxpCtl.base, 1)] z) Reg.cxpCtl.base) 0 = true ∧ gangRefused z 10 true = false
    ∧ gangRefused (regs [(Reg.cxpCtl.off 11 0, 1)] z) 10 true = true ∧ bitOf (rd z (Reg.cxpCtl.off 10 0)) 2 = false := by decide +kernel

/-- Port `n` in a link state. -/
def linked (n st : Nat) : State := regs [(Reg.cxpCtl.off n 0, 1), (Reg.cxpLink.off n 0, st)] z

theorem test_port_links : coreUp z = true ∧ linkState (linked 11 1) 11 = 1 ∧ linkState (linked 11 2) 11 = 2 ∧ linkState z 11 ≠ 2
    ∧ gangHalf (linked 11 1) 11 = false ∧ portUp (linked 11 2) 11 = true := by decide +kernel

/-- The mailbox of port 11 waits for an answer. -/
def mailing (n : Nat) : State := modPort 11 (fun q => { q with ccLen := n }) (regs [(Reg.cxpCcStat.off 11 0, 1)] z)

theorem test_mailbox : MayWrite z .host (Reg.cxpCcCtl.off 11 0) 0x4001 ∧ (0x4001 : Word).getLsbD 0 = true ∧ bits (0x4001 : Word).toNat 8 7 = 64
    ∧ bits (0x4101 : Word).toNat 8 7 = 65 ∧ ccBusy z 11 = false ∧ ccBusy (mailing 64) 11 = true ∧ ((mailing 64).ports.getD 11 Port.reset).ccWrite = false
    ∧ ((mailing 64).ports.getD 11 Port.reset).ccLen ≤ 64 ∧ (0x4000 : Word).getLsbD 0 = false := by decide +kernel

/-- An open frame of two pixels a line and one line. -/
def frame0 : Frame :=
  { item := 5, no := 0, st := 1, area := false, gateItem := false, width := 2, fill := 0, maxLines := 1, fmt := 0, phase := 0, openedAt := 0
    deadline := 100, posSrc := 0, sink := none, imgBegun := false, requested := 1, trainDone := false, received := 0, delivered := 0, triggers := 1
    dropAt := none, short := 0, long := 0, badfmt := 0, missed := 0, flags := 0, dropping := false, gateStop := 0, sampled := false, lines := [] }

/-- Port `p` with frames, its link up. -/
def framed (p : Nat) (fs : List Frame) (s : State) : State := modPort p (fun q => { q with frames := fs }) s

theorem test_lines : portUp (framed 11 [frame0] (linked 11 2)) 11 = true ∧ portUp (regs [(Reg.auxCtl.off 3 0, 1)] z) 15 = true
    ∧ bitOf (portCtl (linked 11 2) 11) 4 = false ∧ openFrameOf (linked 11 2) 11 = none ∧ openFrameOf (framed 11 [frame0] (linked 11 2)) 11 = some frame0
    ∧ openFrameOf (framed 11 [{ frame0 with received := 1 }] z) 11 = some { frame0 with received := 1 }
    ∧ ({ frame0 with received := 1 } : Frame).requested ≤ ({ frame0 with received := 1 } : Frame).received
    ∧ storeRoom (framed 11 [frame0] z) 11 frame0 = true ∧ ([1, 2] : List Nat).length = frame0.width * rawChans frame0.fmt
    ∧ auxEn (regs [(Reg.auxCtl.off 3 0, 1)] z) 3 = true ∧ ((regs [(Reg.auxCtl.off 3 0, 1)] z).ports.getD 15 Port.reset).pclk = true
    ∧ ((modPort 15 (fun q => { q with pclk := false }) z).ports.getD 15 Port.reset).pclk = false := by decide +kernel

/-- AUX 3 enabled, an item's line request waiting at it, the frame of the other item open. -/
def asked (open_ : Word) : State :=
  modPort 15 (fun q => { q with requests := [[5]], frames := [{ frame0 with item := open_ }] }) (regs [(Reg.auxCtl.off 3 0, 1)] z)

theorem test_requests : ((asked 5).ports.getD 15 Port.reset).requests = [[5]] ∧ (openFrameOf (asked 5) 15).map (·.item) = some 5
    ∧ (z.ports.getD 15 Port.reset).requests = [] ∧ openFrameOf z 15 = none ∧ ([5] : List Word).contains 6 = false
    ∧ (openFrameOf (asked 6) 15).map (fun f => (f.item, f.area, f.gateItem)) = some (6, false, false)
    ∧ (∀ x ∈ ((asked 6).ports.getD 15 Port.reset).frames, x.st = 0 → ([5] : List Word).contains x.item = false) := by decide +kernel

/-- A sampling edge of an AUX port whose polarity bits are zero. -/
def edgeAt (fv lv dv : Bool) : AuxEdge := { rising := true, d := 5, fv := fv, lv := lv, dv := dv }

/-- AUX 3 with a line in progress. -/
def sampling (line : Option (List Nat)) (fv : Bool) : State :=
  modPort 15 (fun q => { q with line := line, fv := fv }) (regs [(Reg.auxCtl.off 3 0, 1)] z)

theorem test_aux_samples : (edgeAt true false false).rising ≠ bitOf (portCtl (sampling none false) 15) 11
    ∧ ({ edgeAt true true true with rising := false } : AuxEdge).rising = bitOf (portCtl (sampling none false) 15) 11
    ∧ (bitOf (portCtl (sampling none false) 15) 13 || bitOf (portCtl (sampling none false) 15) 14 || bitOf (portCtl (sampling none false) 15) 15) = false
    ∧ ((sampling none true).ports.getD 15 Port.reset).fv = true ∧ ((sampling (some [1]) true).ports.getD 15 Port.reset).line = some [1]
    ∧ (z.ports.getD 15 Port.reset).lost = false := by decide +kernel

theorem test_store_line : (∀ v ∈ [1, 255], v < 2 ^ rawBits frame0.fmt) ∧ ([1, 255] : List Nat).length = frame0.width * rawChans frame0.fmt
    ∧ (fetchLine 15 frame0 (storeLine 15 frame0 [1, 255] z).1 (storeLine 15 frame0 [1, 255] z).2).1 = [1, 255]
    ∧ takesNow z 15 frame0 = false := by decide +kernel

/-- A frame that its item's gate holds open; the item has closed at position 40. -/
def gated (pos : Pos) : State :=
  { framed 11 [{ frame0 with gateItem := true }] (modLed (fun l => { l with items := [{ item0 z with closePos := some 40 }] }) z) with
    copies := [{ pos := pos, vhat := 0, reverse := false, frac := 0 }] }

theorem test_frames : openFrameOf (framed 11 [{ frame0 with delivered := 1 }] z) 11 = some { frame0 with delivered := 1 }
    ∧ openFrameOf (framed 11 [{ frame0 with area := true, imgBegun := true }] z) 11 = some { frame0 with area := true, imgBegun := true }
    ∧ openFrameOf (framed 11 [{ frame0 with trainDone := true }] z) 11 = some { frame0 with trainDone := true }
    ∧ openFrameOf (gated 0) 11 = some { frame0 with gateItem := true } ∧ itemOf (gated 0) 5 = some { item0 z with closePos := some 40 }
    ∧ gateEnd { frame0 with gateItem := true } { item0 z with closePos := some 40 } = some 40 ∧ reached (copyPos (gated 39) 0) 40 = false
    ∧ reached (copyPos (gated 40) 0) 40 = true := by decide +kernel

theorem test_gate_settled : gateOpen 11 (gated 0) = gated 0 := rfl

/-! ## Pipelines -/

theorem test_routes : MayWrite z .host (Reg.ispRoute.off 5 0) 0x54 ∧ routeRefused z 11 0 = false ∧ routeRefused z 11 0x55 = true
    ∧ MayWrite z .host (Reg.ispPctl.off 13 1) 1 ∧ (ctxOf z 13 1).loadingSet = false
    ∧ (ctxOf (modCtx 13 1 (fun x => { x with loadingSet := true }) z) 13 1).loadingSet = true ∧ pipeUp z 13 = true
    ∧ setMapped z 0x1000 128 = false ∧ setMapped z 0x1FFFFFFF80 128 = true ∧ setMapped z 0x1FFFFFFF81 128 = false := by decide +kernel

/-- A parameter set with no stage. -/
def set0 : ParamSet := { block := List.replicate 128 0, defect := [], ff := [], tone := [] }

/-- A parameter block that names a tone table and a temporal reference in LPDDR-6, and no other table. -/
def block0 : List Byte :=
  List.replicate 4 0 ++ [1] ++ List.replicate 7 0 ++ [1] ++ List.replicate 67 0 ++ leBytes 8 0x1000001000 ++ [1, 0, 0, 0, 0, 0, 0, 0]
    ++ leBytes 8 0x1000002000 ++ List.replicate 24 0

/-- It lies at the start of LPDDR-6. -/
def withBlock (b : List Byte) : State := { z with mem := cells 0x1000000000 b }

theorem test_param_set : (ctxOf (modCtx 13 1 (fun x => { x with pending := some set0 }) z) 13 1).pending = some set0
    ∧ (loadSet calm 13 1 0x1000000000 (withBlock block0)).1 = Stat.ok
    ∧ (loadSet calm 13 1 0x1000000000 (withBlock block0)).2.1.isSome = true
    ∧ (loadSet calm 13 1 0x1000000000 (withBlock (block0.set 0x64 0))).1 = Stat.unmapped
    ∧ setMapped z 0 128 = false := by decide +kernel

/-- Frame 0 with a line waits at port 11 for pipeline 11. -/
def offered : State := framed 11 [{ frame0 with st := 2, lines := [{ px := [1, 2], slot := none }] }] (linked 11 2)

theorem test_frame_start : (pipeAt offered (pipeOf offered 11).1).serving = none ∧ pipeUp offered (pipeOf offered 11).1 = true
    ∧ (oldestFrame (waitingFrames offered (pipeOf offered 11).1)).map (fun x => (x.1, x.2.st, x.2.lines.map (·.px))) = some (11, 2, [[1, 2]])
    ∧ waitingFrames z 11 = [] := by decide +kernel

/-- The port's binding. -/
def bind0 : Binding := { port := 11, handle := 1, payload := bindBytes, stripes := 0, ord := 0 }

/-- That frame in service, its one line taken. -/
def serving0 (b : Option Binding) : Serving :=
  { port := 11, ctx := 0, item := 5, no := 0, set := none, gen := 0, width := 2, fmt := 0, area := false, raw := [[1, 2]], doneLines := 0, buf := none
    waiting := false, crc := 0, restart := false, t1 := [], phase := 0, deadline := 100, posSrc := 0, fit := false, bind := b, granted := false
    sigWait := false, lastSig := false }

/-- Its pipeline, with a count on its free token. -/
def served (v : Serving) (n : Nat) (pos : Pos) : State :=
  { modPipe 11 (fun p => { p with serving := some v }) (framed 11 [{ frame0 with st := 2 }] (loaded (linked 11 2))) with
    tokens := [{ token0 0 false true with count := n }, token0 1 true true]
    copies := [{ pos := pos, vhat := 0, reverse := false, frac := 0 }] }

theorem test_stripes : pipeUp (served (serving0 (some bind0)) 0 0) 11 = true ∧ (pipeAt (served (serving0 (some bind0)) 0 0) 11).serving = some (serving0 (some bind0))
    ∧ stripeDue (served (serving0 (some bind0)) 0 0) (serving0 (some bind0)) = true
    ∧ pastDeadline (served (serving0 (some bind0)) 0 100) (serving0 (some bind0)) = true
    ∧ pastDeadline (served (serving0 (some bind0)) 0 99) (serving0 (some bind0)) = false ∧ leAt bindBytes 0x10 2 = 0
    ∧ ((tokOf (served (serving0 (some bind0)) 0 0) 1 0).map fun t => (t.waiters.length, t.count)) = some (0, 0)
    ∧ ((tokOf (served (serving0 (some bind0)) 1 0) 1 0).map fun t => (t.waiters.length, t.count)) = some (0, 1)
    ∧ stripeReady (served { serving0 (some bind0) with buf := some 0 } 0 0) { serving0 (some bind0) with buf := some 0 } = some (1, true)
    ∧ (serving0 none).bind = none := by decide +kernel

theorem test_settled_stripe : settlePipe 11 (served (serving0 (some bind0)) 0 0) = served (serving0 (some bind0)) 0 0 := by decide +kernel

/-! ## Engines -/

/-- Program 1 with one context of every pool. -/
def prog3 : Program := { prog1 with ctx := List.replicate 16 1, ctxIds := List.replicate 16 [0] }

/-- A descriptor with fields (offset, size, value). -/
def desc (l : List (Nat × Nat × Nat)) : List Byte :=
  l.foldl (fun d f => d.take f.1 ++ leBytes f.2.1 f.2.2 ++ d.drop (f.1 + f.2.1)) (List.replicate 64 0)

/-- A job of program 1. -/
def job (kind : Nat) (d : List Byte) : Job := { kind := kind, desc := d, task := id0, part := 0, ord := 0, at_ := DevTime.zero }

/-- That job waits; memory holds bytes at address 0x1000. -/
def queued (kind : Nat) (d bs : List Byte) : State :=
  modEng (fun e => { e with jobs := [job kind d] }) { loaded z with progs := [prog3], mem := cells 0x1000 bs }

/-- The job stands on engine 0. -/
def standing (kind : Nat) (d : List Byte) (f : Running → Running) : State :=
  modEng (fun e => { e with running := [f (Running.start 0 (job kind d))] }) { loaded z with progs := [prog3] }

/-- A warp of a 1 x 1 UINT8 image at 0 to a 1 x 1 output at 0x100. -/
def warpDesc (op : Nat) : List Byte :=
  desc [(0, 1, op), (4, 2, 1), (6, 2, 1), (0x14, 2, 1), (0x16, 2, 1), (0x18, 8, 0x100), (0x24, 1, 1), (0x28, 8, 0x1000)]

/-- A mesh of 2 x 2 points, its pitch 1. -/
def mesh0 : List Byte := leBytes 2 2 ++ leBytes 2 2 ++ leBytes 2 1 ++ leBytes 2 1 ++ List.replicate 40 0

theorem test_warp : MayTake 0 3 (job 0 (warpDesc 0)) (queued 0 (warpDesc 0) []) ∧ (kindOps 0).contains (opOf (warpDesc 0)) = false
    ∧ MayTake 0 3 (job 0 (warpDesc 1)) (queued 0 (warpDesc 1) []) ∧ opOf (warpDesc 1) = 1
    ∧ warpStart (queued 0 (warpDesc 1) []) (job 0 (warpDesc 1)) true [(meshShort [] (warpDesc 1), Stat.shape)] = some Stat.shape
    ∧ warpStart (queued 0 (warpDesc 1) []) (job 0 (warpDesc 1)) true [(meshShort mesh0 (warpDesc 1), Stat.shape)] = none
    ∧ (blockOf (modEng (fun e => { e with blocks := [{ pool := 1, handle := 1, ctx := 0, block := mesh0 }] }) (queued 0 (warpDesc 1) [])) 1 1 0).elim []
        (·.block) = mesh0 := by decide +kernel

theorem test_warp_blocks : opOf (warpDesc 2) = 2 ∧ warpStart (queued 0 (warpDesc 2) []) (job 0 (warpDesc 2)) false
      [bad (localExtent (queued 0 (warpDesc 2) []) 0x1000 64)] = none
    ∧ poisonHit (queued 0 (warpDesc 2) []).sq.poison 0x1000 64 = false ∧ leAt (devGet (queued 0 (warpDesc 2) []) 0x1000 64) 36 28 = 0
    ∧ leAt (devGet (queued 0 (warpDesc 2) (List.replicate 36 0 ++ [1])) 0x1000 64) 36 28 ≠ 0
    ∧ startStatus (warpFields (queued 0 (desc [(0, 1, 3), (0x28, 8, 0x1000)]) mesh0) (job 0 (desc [(0, 1, 3), (0x28, 8, 0x1000)])) true) false
        [bad (localExtent (queued 0 [] []) 0x1000 16)] = none
    ∧ meshOk (devGet (queued 0 [] mesh0) 0x1000 16) = true ∧ meshOk (devGet (queued 0 [] []) 0x1000 16) = false
    ∧ localExtent (queued 0 [] []) 0x1000 48 = Stat.ok := by decide +kernel

/-- One box, cropped to 1 x 1 UINT8 in the Square (flags 0) or the Caddy (2). -/
def cropDesc (flags : Nat) : List Byte :=
  desc [(0, 1, 1), (3, 1, flags), (4, 2, 1), (6, 2, 1), (0x14, 2, 1), (0x16, 2, 1), (0x18, 8, 0x1000), (0x20, 2, 1), (0x22, 1, 1), (0x28, 8, 0x2000),
    (0x34, 4, 0x3000)]

theorem test_crop : MayTake 1 1 (job 1 (cropDesc 0)) (queued 1 (cropDesc 0) []) ∧ regionStart (queued 1 (cropDesc 0) []) (job 1 (cropDesc 0)) = none
    ∧ poisonHit (queued 1 (cropDesc 0) []).sq.poison 0x1000 32 = false ∧ boxesBad 1 (devGet (queued 1 (cropDesc 0) []) 0x1000 32) = false
    ∧ toCaddy (cropDesc 0) = false ∧ toCaddy (cropDesc 2) = true
    ∧ regionStart (queued 1 (cropDesc 2) []) (job 1 (cropDesc 2)) = some Stat.badFormat := by decide +kernel

/-- Two FP32 scores at 0x1000, one selected. -/
def sortDesc (fmt : Nat) : List Byte :=
  desc [(0, 1, 1), (1, 1, fmt), (2, 1, 2), (4, 4, 2), (8, 8, 0x1000), (0x10, 2, 1), (0x18, 8, 0x2000), (0x20, 8, 0x2100), (0x28, 8, 0x2200)]

theorem test_sort : MayTake 2 1 (job 2 (sortDesc 0xD)) (queued 2 (sortDesc 0xD) []) ∧ sortStart (queued 2 (sortDesc 0xD) []) (job 2 (sortDesc 0xD)) = none
    ∧ poisonHit (queued 2 [] []).sq.poison 0x1000 8 = false ∧ sortStart (queued 2 (sortDesc 0) []) (job 2 (sortDesc 0)) = some Stat.badFormat
    ∧ (runningOn (standing 2 (sortDesc 0xD) fun r => { r with done := true }) 2 0).map (·.done) = some true
    ∧ groupUp (standing 2 (sortDesc 0xD) id) (groupOfKind 2) = true := by decide +kernel

theorem test_signal : (tokOf (loaded z) 1 0).map (fun t => (t.waiters.length, t.sigs.length, t.count)) = some (0, 0, 0) := by decide +kernel

/-! ## Barcodes and records -/

/-- A search of a 1 x 1 region for one symbol, its status at 0x2000. -/
def barDesc (symMax : Nat) : List Byte :=
  desc [(0, 1, 1), (4, 2, 1), (6, 2, 1), (8, 8, 0x1000), (0x10, 4, 1), (0x18, 2, 1), (0x1A, 2, 1), (0x1C, 4, 5), (0x20, 4, 100), (0x24, 1, symMax), (0x28, 8, 0x2000)]

/-- A load of a profile. -/
def profDesc : List Byte := desc [(0, 1, 2), (8, 8, 0x1000)]

/-- A symbol of code 11 with one byte. -/
def symbol0 : Symbol := { code := 11, flags := 0, corrected := 3, corners := List.replicate 32 0, data := [65] }

/-- A profile that allows every code. -/
def prof0 : List Byte := leBytes 2 0x7FF ++ List.replicate 62 0

/-- The search runs, with that profile loaded. -/
def searching (symMax found : Nat) : State :=
  modEng (fun e => { e with blocks := [{ pool := 2, handle := 1, ctx := 0, block := prof0 }] })
    (standing 3 (barDesc symMax) fun r => { r with aux := [found] })

theorem test_barcode : MayTake 3 3 (job 3 (barDesc 1)) (queued 3 (barDesc 1) []) ∧ barcodeStart (queued 3 (barDesc 1) []) (job 3 (barDesc 1)) = none
    ∧ (queued 3 (barDesc 1) []).sq.poison = [] ∧ barcodeStart (queued 3 (barDesc 17) []) (job 3 (barDesc 17)) = some Stat.badFormat
    ∧ MayTake 3 0 (job 3 profDesc) (queued 3 profDesc prof0) ∧ leAt profDesc 2 1 < poolCount (queued 3 profDesc prof0) 1 2
    ∧ descClean [(0, 0x25), (0x28, 10)] profDesc = true ∧ localExtent (queued 3 profDesc prof0) 0x1000 64 = Stat.ok
    ∧ profileOk (devGet (queued 3 profDesc prof0) 0x1000 64) = true ∧ profileOk (devGet (queued 3 profDesc [0, 8]) 0x1000 64) = false := by decide +kernel

theorem test_symbols : symbolAllowed (profileOf (searching 1 0) (job 3 (barDesc 1))) symbol0 = true ∧ leAt (barDesc 1) 0x24 1 ≤ 0 + 1
    ∧ 0 + 1 < leAt (barDesc 16) 0x24 1 ∧ (runningOn (searching 1 0) 3 0).map (·.done) = some false ∧ groupUp (searching 1 0) 2 = true
    ∧ detMode (searching 1 0) = false ∧ (runningOn (searching 1 0) 3 0).map (·.held) = some [] ∧ barBudget (searching 1 0) (job 3 (barDesc 1)) = 100
    ∧ (runningOn (searching 1 0) 3 0).map (fun r => (r.aux, r.cursor)) = some ([0], 0) := by decide +kernel

/-- One record to the Square, its stream of `len` bytes at 0x1000. -/
def recDesc (len flags : Nat) : List Byte :=
  desc [(0, 1, 1), (2, 1, flags), (4, 4, 1), (8, 8, 0x1000), (0x10, 8, len), (0x18, 8, 0x2000), (0x20, 4, 128), (0x24, 2, 1), (0x28, 8, 0x3000)]

/-- A raw record of one pixel: its header without the check, with it, and its payload. -/
def recHead (fmt : Nat) : List Byte :=
  let h := [0x50, 0x4C, 0x52, 0x43, 1, BitVec.ofNat 8 fmt] ++ leBytes 2 1 ++ leBytes 4 1 ++ leBytes 6 0 ++ leBytes 2 1 ++ leBytes 2 0
  let t := List.replicate 4 0 ++ leBytes 4 (crc32c [7])
  h ++ leBytes 2 (crc32c (h ++ [0, 0] ++ t) % 65536) ++ t

/-- That record decodes: its stream at 0x1000 of `len` bytes. -/
def decoding (len done : Nat) (bs cur : List Byte) : State :=
  modEng (fun e => { e with streams := [{ handle := 1, ctx := 0, base := 0x1000, len := len, off := 0 }] })
    { standing 4 (recDesc len 0) fun r => { r with aux := done :: 0 :: 0 :: 0 :: 0x1020 :: List.replicate 3 0, current := cur } with mem := cells 0x1000 bs }

theorem test_records : MayTake 4 1 (job 4 (recDesc 33 1)) (queued 4 (recDesc 33 1) []) ∧ recordStart (queued 4 (recDesc 33 1) []) (job 4 (recDesc 33 1)) = none
    ∧ recordStart (queued 4 (desc [(0, 1, 1), (1, 1, 9)]) []) (job 4 (desc [(0, 1, 1), (1, 1, 9)])) = some Stat.badFormat
    ∧ groupUp (decoding 33 0 [] []) 2 = true ∧ (runningOn (decoding 33 0 [] []) 4 0).map (fun r => (r.num 0, r.num 1, r.done, r.current)) = some (0, 0, false, [])
    ∧ (jobStream (decoding 33 0 [] []) (job 4 (recDesc 33 0))).len = 33 ∧ (devRead 0x1000 32 [] (decoding 33 0 (recHead 0) [])).1.data = recHead 0
    ∧ (devRead 0x1000 32 [] (decoding 33 0 (recHead 0) [])).1.status = Stat.ok ∧ recMagic (recHead 0) = true ∧ recMagic (List.replicate 32 0) = false
    ∧ recCheck (recHead 0) = true ∧ recCheck (recHead 0 ++ []) = true ∧ recCheck ((recHead 0).set 12 1) = false ∧ recMagic ((recHead 0).set 12 1) = true
    ∧ 0 + 32 + leAt (recHead 0) 8 4 ≤ 33 ∧ leAt (recHead 0) 4 1 = 1 ∧ recFields (recHead 0) = true
    ∧ 0x40 + recPixels (recHead 0) ≤ recRoom (decoding 33 0 [] []) (job 4 (recDesc 33 0)) ∧ leAt (recHead 0) 8 4 = recPixels (recHead 0) := by decide +kernel

theorem test_record_done : recHead 0 ≠ [] ∧ bitOf (leAt (recDesc 33 0) 2 1) 1 = false ∧ recDecode (recHead 0) [7] = ([7], true)
    ∧ (devRead 0x1020 1 [] (decoding 33 0 (recHead 0 ++ [7]) (recHead 0))).1.data = [7] ∧ leAt (recDesc 33 0) 4 4 ≤ 0 + 0 + 1
    ∧ crc32c [7] = leAt (recHead 0) 0x1C 4
    ∧ (writeRuns calm [(0x2000, recHead 0), (0x2020, leBytes 1 0), (0x2040, [7])] (decoding 33 0 (recHead 0 ++ [7]) (recHead 0))).1 = Stat.ok := by decide +kernel

/-! ## The Caddy -/

/-- A job on queue 0: enabled, slots of 64 bytes, batches of two slots in one buffer at granule 1, tokens 0 and 1. -/
def cadDesc (op extra : Nat) : List Byte :=
  desc [(0, 1, op), (2, 1, 1), (3, 1, 2), (4, 4, 64), (8, 8, 0x10000), (0x10, 4, 0x1100), (0x14, 2, 1), (0x18, 4, 1), (0x1C, 2, 1), (0x1E, 2, 0), (0x20, 8, 0x2000),
    (0x28, 2, extra)]

/-- Program 1 holds tokens 0 and 1, both external counting tokens. -/
def cadState (kind : Nat) (d : List Byte) : State := { queued kind d [] with tokens := [token0 0 false true, token0 1 false true] }

theorem test_caddy_jobs : MayTake 7 0 (job 7 (cadDesc 1 0)) (cadState 7 (cadDesc 1 0)) ∧ configureStart (cadState 7 (cadDesc 1 0)) (job 7 (cadDesc 1 0)) = none
    ∧ configureStart (queued 7 (desc [(0, 1, 1)]) []) (job 7 (desc [(0, 1, 1)])) = some Stat.badFormat
    ∧ firstStatus (caddyFields (cadState 7 (cadDesc 2 256)) (job 7 (cadDesc 2 256))) = none ∧ leAt (cadDesc 2 256) 0x28 2 = 256
    ∧ leAt (cadDesc 2 257) 0x28 2 = 257 ∧ detMode (cadState 7 (cadDesc 2 256)) = false
    ∧ detMode (regs [(Reg.glbMode.base, 1)] (cadState 7 (cadDesc 2 256))) = true ∧ localExtent (cadState 7 (cadDesc 2 256)) 0x2000 (8 * 256) = Stat.ok
    ∧ firstStatus (caddyFields (cadState 7 (cadDesc 3 0)) (job 7 (cadDesc 3 0))) = none := by decide +kernel

/-- A slot taken by a box of a region job. -/
def slot0 : Slot := { item := 5, sample := 0, source := 0, eng := 0, status := 0, settled := true, taken := true }

/-- A batch with slots. -/
def batch0 (ss : List Slot) (closed : Bool) : Batch := { no := 0, cfg := cadDesc 1 0, slots := ss, closed := closed, flags := 0 }

/-- Queue 0 with batches; a region job offers it a sample. -/
def cadQueue (bs : List Batch) (granted : Bool) : CaddyQ :=
  { CaddyQ.fresh 1 0 with cfg := (cadDesc 1 0).set 2 3, batches := bs, granted := granted }

/-- The state with that queue, and `n` on its free token. -/
def caddying (c : CaddyQ) (n : Nat) : State :=
  modEng (fun e => { e with caddy := [c] })
    { standing 1 (cropDesc 2) (fun r => { r with current := List.replicate 32 0 }) with
      tokens := [{ token0 0 false true with count := n }, token0 1 false true] }

theorem test_batches : groupUp (caddying (cadQueue [] false) 0) 1 = true ∧ (queueAt (caddying (cadQueue [] false) 0) 0) = some (cadQueue [] false)
    ∧ caddyOf (caddying (cadQueue [] false) 0) 1 0 = some (cadQueue [] false) ∧ (cadQueue [] false).open_ = none
    ∧ bitOf (leAt (cadQueue [] false).latest 2 1) 0 = true ∧ (offers (caddying (cadQueue [] false) 0) (cadQueue [] false)).length = 1
    ∧ ((tokOf (caddying (cadQueue [] false) 0) 1 0).map fun t => (t.waiters.length, t.count)) = some (0, 0)
    ∧ ((tokOf (caddying (cadQueue [] false) 1) 1 0).map fun t => (t.waiters.length, t.count)) = some (0, 1)
    ∧ leAt (cadQueue [] false).latest 0x1E 2 = 0 ∧ offers z (cadQueue [] false) = [] := by decide +kernel

theorem test_slots : (cadQueue [batch0 [slot0] false] false).open_ = some (batch0 [slot0] false) ∧ (batch0 [slot0] false).begun = true
    ∧ (batch0 [] false).begun = false ∧ (batch0 [slot0] false).isWindow = false ∧ (batch0 [slot0] false).slots.length < cfgSize (cadDesc 1 0)
    ∧ cfgSize (cadDesc 1 0) ≤ (batch0 [slot0, slot0] false).slots.length ∧ leAt (cadDesc 1 0) 0x18 4 ≠ 0 ∧ (batch0 [slot0] true).shut = true
    ∧ (batch0 [slot0] true).settled = true ∧ (batch0 [slot0] false).shut = false := by decide +kernel

/-- A sample that a region job on engine 0 offers, and its place in a window batch and in none. -/
def offer0 (source : Nat) : Offer := { source := source, eng := 0, item := 0, sample := 0 }

theorem test_places : (offers (caddying (cadQueue [batch0 [] false] false) 0) (cadQueue [batch0 [] false] false)).find?
      (fun o => placeOf (caddying (cadQueue [batch0 [] false] false) 0) (cadQueue [batch0 [] false] false) o != .later) = some (offer0 0)
    ∧ placeOf z (cadQueue [batch0 [] false] false) (offer0 1) = .slot (batch0 [] false) 0
    ∧ placeOf z (cadQueue [{ batch0 [] false with flags := 4 }] false) (offer0 0) = .refused
    ∧ (queueAt (caddying (cadQueue [batch0 [slot0] true] false) 0) 0).map (·.batches) = some [batch0 [slot0] true] := by decide +kernel

/-! ## Check values, hashes and copies -/

/-- A check-value job on context 0 over 8 bytes at 0x1000. -/
def crcDesc (op flags alg : Nat) (more : List (Nat × Nat × Nat)) : List Byte :=
  desc ([(0, 1, op), (2, 1, flags), (4, 1, alg)] ++ more)

/-- An extent of 8 bytes at 0x1000. -/
def ext8 : List (Nat × Nat × Nat) := [(8, 8, 0x1000), (0x10, 8, 8)]

theorem test_crc_configure : MayTake 6 3 (job 6 (crcDesc 1 0 3 [])) (queued 6 (crcDesc 1 0 3 []) [])
    ∧ firstStatus (checkFields (queued 6 (crcDesc 1 0 3 []) []) (job 6 (crcDesc 1 0 3 [])) [(4, 3), (0x18, 0x18)]) = none
    ∧ leAt (crcDesc 1 0 3 []) 4 1 < 4 ∧ leAt (crcDesc 1 0 4 [(5, 1, 64)]) 5 1 = 64 ∧ 4 < leAt (crcDesc 1 0 5 []) 4 1
    ∧ firstStatus (checkFields (queued 6 (crcDesc 1 0 5 []) []) (job 6 (crcDesc 1 0 5 [])) [(4, 3), (0x18, 0x18)]) = none := by decide +kernel

/-- A scan: its value is started from the context's initial value (flag 0), compared (1), stored (2). -/
def scanDesc (f : Nat) : List Byte := crcDesc 2 f 0 (ext8 ++ [(0x20, 8, 0x2000)])

theorem test_crc_scan : firstStatus (checkFields (queued 6 (scanDesc 7) []) (job 6 (scanDesc 7)) [(2, 1), (8, 0x20)]) = none
    ∧ leAt (scanDesc 7) 0x10 8 = 8 ∧ localExtent (queued 6 (scanDesc 7) []) 0x1000 8 = Stat.ok ∧ poisonHit (queued 6 (scanDesc 7) []).sq.poison 0x1000 8 = false
    ∧ bitOf (leAt (scanDesc 2) 2 1) 1 = true ∧ bitOf (leAt (scanDesc 5) 2 1) 1 = false ∧ bitOf (leAt (scanDesc 5) 2 1) 2 = true
    ∧ leAt (crcDesc 2 0 0 []) 0x10 8 = 0 ∧ localExtent (queued 6 (scanDesc 7) []) 0x2000 8 = Stat.ok := by decide +kernel

/-- The compare of a scan by CRC-32C finds a mismatch with 0, and none with the value the scan leaves. -/
theorem test_crc_compare : finished (configured (CheckCtx.fresh 1 0) (crcDesc 1 0 0 [])) (feedAll (configured (CheckCtx.fresh 1 0) (crcDesc 1 0 0 []))
      (2 ^ 32 - 1) (List.replicate 8 0)) ≠ leAt (scanDesc 2) 0x18 8 := by decide +kernel

/-- A periodic scan of context 0. -/
def perDesc : List Byte := crcDesc 5 0 0 (ext8 ++ [(0x34, 4, 1000)])

/-- Context 0 with that scan. -/
def scanning : CheckCtx := { configured (CheckCtx.fresh 1 0) (crcDesc 1 0 0 []) with periodic := some (job 6 perDesc) }

theorem test_crc_others : firstStatus (checkFields (queued 6 perDesc []) (job 6 perDesc) [(8, 0x18), (0x34, 4)]) = none ∧ leAt perDesc 0x10 8 ≠ 0
    ∧ localExtent (queued 6 perDesc []) 0x1000 8 = Stat.ok ∧ (jobCheck (queued 6 perDesc []) (job 6 perDesc)).periodic = none
    ∧ firstStatus (checkFields (queued 6 (crcDesc 3 0 0 []) []) (job 6 (crcDesc 3 0 0 [])) [(0x18, 8)]) = none
    ∧ firstStatus (checkFields (queued 6 (crcDesc 4 0 0 [(0x20, 8, 0x2000)]) []) (job 6 (crcDesc 4 0 0 [(0x20, 8, 0x2000)])) [(0x20, 8)]) = none
    ∧ firstStatus (checkFields (queued 6 (crcDesc 6 0 0 []) []) (job 6 (crcDesc 6 0 0 [])) []) = none
    ∧ (jobCheck (setCheck scanning (queued 6 (crcDesc 6 0 0 []) [])) (job 6 (crcDesc 6 0 0 []))).periodic = some (job 6 perDesc) := by decide +kernel

theorem test_crc_pass : groupUp (setCheck scanning (queued 8 [] [])) 3 = true
    ∧ ((setCheck scanning (queued 8 [] [])).eng.running.filter fun r => r.job.kind == 6).length < 4
    ∧ (setCheck scanning (queued 8 [] [])).eng.jobs.any (fun j => j.kind == 6) = false
    ∧ (setCheck scanning (queued 8 [] [])).eng.checks.find? (fun x => x.periodic.isSome && devCheck (setCheck scanning (queued 8 [] [])) x == 0) = some scanning
    ∧ poisonHit (queued 8 [] []).sq.poison 0x1000 8 = false
    ∧ finished scanning (feedAll scanning scanning.init (List.replicate 8 0)) ≠ leAt perDesc 0x18 8 := by decide +kernel

/-- A hash of one extent of 8 bytes, 32 bytes of output. -/
def hashDesc : List Byte := desc [(0, 1, 1), (2, 2, 1), (8, 8, 0x1000), (0x10, 8, 0x2000), (0x18, 4, 32)]

theorem test_hash : MayTake 5 0 (job 5 hashDesc) (queued 5 hashDesc []) ∧ descClean [(0, 1), (2, 2), (8, 0x14), (0x30, 2)] hashDesc = true
    ∧ leAt hashDesc 2 2 = 1 ∧ leAt hashDesc 0x18 4 = 32 ∧ sqExtent (queued 5 hashDesc []) 0x1000 16 = Stat.ok ∧ sqExtent (queued 5 hashDesc []) 0x2000 32 = Stat.ok
    ∧ localExtent (queued 5 hashDesc []) 0 8 = Stat.ok := by decide +kernel

/-- A copy of two rows of 8 bytes within the Square, or from a reserved address. -/
def dmaDesc (src : Nat) : List Byte := desc [(0, 1, 1), (4, 4, 8), (8, 8, src), (0x10, 8, 0x2000), (0x18, 4, 2), (0x1C, 4, 8), (0x20, 4, 8)]

theorem test_dma : MayTake 8 7 (job 8 (dmaDesc 0x1000)) (queued 8 (dmaDesc 0x1000) []) ∧ dmaStart (queued 8 (dmaDesc 0x1000) []) (job 8 (dmaDesc 0x1000)) = none
    ∧ isPeer (leAt (dmaDesc 0x1000) 8 8) = false ∧ dmaStart (queued 8 (dmaDesc 0x7000000000) []) (job 8 (dmaDesc 0x7000000000)) = some Stat.unmapped
    ∧ regionOf 0x1000000000 = .lpddr ∧ groupUp z 3 = true := by decide +kernel

/-! ## Encoders -/

/-- Channel 3 in a mode, its serial frame being read. -/
def encIn (mode : Nat) (reading : Bool) (pos : Pos) : State :=
  modEnc 3 (fun e => { e with reading := reading, pos := pos }) (regs [(Reg.encCfg.off 3 0, mode), (Reg.encSer.off 3 0, 8 * 2 ^ 24)] z)

theorem test_encoders : (3 : Nat) < z.ouv.encs.length ∧ z.ouv.powered = true ∧ encMode (encIn 1 false 0) 3 = 1 ∧ encMode (encIn 3 true 0) 3 = 3
    ∧ (encOf (encIn 3 true 0) 3).reading = true ∧ encBits (encIn 3 true 0) 3 = 8 ∧ (quadPlace true false + 4 - quadPlace false false) % 4 = 1
    ∧ (quadPlace false true + 4 - quadPlace false false) % 4 = 3 ∧ (quadPlace true true + 4 - quadPlace false false) % 4 = 2
    ∧ posDiff (encOf (encIn 1 false (-1)) 3).pos (encOf (encIn 1 false (-1)) 3).peak ≤ -(encHyst (encIn 1 false (-1)) 3 : Int)
    ∧ (encOf (encIn 1 false 5) 3).reverse = false ∧ 0 < posDiff (encOf (encIn 1 false 5) 3).pos (encOf (encIn 1 false 5) 3).peak
    ∧ (encOf (encIn 1 false 5) 3).last = none ∧ -(2 ^ (8 - 1) : Int) ≤ (255 : Nat) - (255 : Nat) := by decide +kernel

theorem test_observer : (BitVec.ofNat 64 ((encOf (encIn 1 false 65535) 3).pos.toNat * 65536) - (encOf (encIn 1 false 65535) 3).phat).toInt.natAbs ≤ 65535 * 65536
    ∧ 65535 * 65536 < (BitVec.ofNat 64 ((encOf (encIn 1 false 65536) 3).pos.toNat * 65536) - (encOf (encIn 1 false 65536) 3).phat).toInt.natAbs
    ∧ ((encOf (encIn 1 false 65536) 3).updates + 1) % 1000 ≠ 0 ∧ z.refreshLost = false ∧ encMode z 3 = 0 := by decide +kernel

/-! ## The field side -/

/-- Channel 31 as an output (1) or input (0), governed by no gap and a rate of `rate` starts. -/
def channel (cfg : Nat) (s : State) : State := regs [(Reg.dioCfg.off 31 0, cfg)] s

/-- Input 31 at a raw level, its stable period begun. -/
def raised : State := modInput 31 (fun i => { i with raw := true, start := some (DevTime.zero, 7) }) z

/-- Source 7 opens on a rising edge of input 31. -/
def sourced (s : State) : State := regs [(Reg.itmSrcCtl.off 7 0, 1 + 31 * 4)] s

theorem test_inputs : (inputOf z 31).raw = false ∧ z.ouv.powered = true ∧ isOut z 31 = false ∧ (inputOf z 31).level = false
    ∧ (inputOf raised 31).start = some (DevTime.zero, 7) ∧ (inputOf raised 31).raw ≠ (inputOf raised 31).level
    ∧ (64 : Nat) ≤ (modOuv (fun o => { o with edgeQ := List.replicate 64 (edge0 true) }) z).ouv.edgeQ.length ∧ z.ouv.edgeQ.length < 64
    ∧ sourcesAt (sourced z) 31 = [7] ∧ sourcesAt z 31 = [] ∧ bitOf (dioCfg (channel 32 z) 31) 5 = true ∧ bitOf (dioCfg z 31) 5 = false
    ∧ opening (sourced z) true 7 = true ∧ opening (sourced z) false 7 = false := by decide +kernel

/-- Output 31 was on until 1 s ago, or has just started 50 times. -/
def worked (o : Output → Output) : State := channel 1 (modOuv (fun u => { u with outputs := modAt 31 o u.outputs }) (regs [(Reg.dioOut.base, 2 ^ 31)] z))

theorem test_outputs : MayWrite z .host Reg.dioOut.base 0x80000000 ∧ isOut (worked id) 31 = true ∧ safeOn (worked id) = false ∧ wantsOn (worked id) 31 = true
    ∧ (outputOf (worked id) 31).on = false ∧ (outputOf (worked id) 31).locked = false ∧ startLimit (worked id) 31 = none
    ∧ startLimit (worked fun o => { o with lastOff := some DevTime.zero }) 31 = some 1
    ∧ startLimit (worked fun o => { o with starts := List.replicate 50 DevTime.zero }) 31 = some 2
    ∧ startLimit (worked fun o => { o with starts := List.replicate 49 DevTime.zero }) 31 = none
    ∧ MayWrite z .host (Reg.dioCfg.off 31 0) 1 ∧ isOut z 31 ≠ (1 : Word).toNat.testBit 0 ∧ dirFixed z 31 = false ∧ dirFixed (sourced z) 31 = true
    ∧ rdB z Reg.dioOvl.base 31 = false ∧ rdB (regs [(Reg.dioOvl.base, 2 ^ 31)] z) Reg.dioOvl.base 31 = true
    ∧ (outputOf (worked fun o => { o with on := true }) 31).on = true ∧ bits (tvRead z (Reg.krbLim.off 31 0)) 0 16 ≠ 0 := by decide +kernel

/-- A fire (or train) message for output 31, or port 19, at position 100 of encoder 0. -/
def msg0 (train : Bool) : KerbMsg :=
  { train := train, chan := if train then 19 else 31, item := 5, enc := 0, src := 7, target := 100, default_ := false, spacing := 10, max := 3, stopOff := 0
    ord := some 1 }

/-- A fire entry and a train entry as they stand. -/
def fire0 (flags : Nat) : KerbEntry := { KerbEntry.free with kind := 1, chan := 31, flags := flags, item := 5, target := 100, count := 4, onPos := 96 }

def train0 (flags : Nat) : KerbEntry :=
  { KerbEntry.free with kind := 2, chan := 19, flags := flags, item := 5, src := 7, target := 100, param := 10, count := 3, stop := 110, ord := some 1 }

/-- Entry 255 holds `k`; encoder 0 stands at a position; output 31 exists. -/
def kerbed (k : KerbEntry) (pos : Pos) : State :=
  modEnc 0 (fun e => { e with pos := pos }) (modOuv (fun o => { o with entries := modAt 255 (fun _ => k) o.entries }) (channel 1 z))

theorem test_kerb_arrive : ({ z with toKerb := [msg0 true, msg0 false] } : State).toKerb.find? (fun x => x.train == false) = some (msg0 false)
    ∧ ({ z with toKerb := [msg0 true, msg0 false] } : State).toKerb.find? (fun x => x.train == true) = some (msg0 true)
    ∧ (255 : Nat) < z.ouv.entries.length ∧ z.ouv.entries.length = 256 ∧ z.ouv.outputs.length = 32
    ∧ (∀ x ∈ (modOuv (fun o => { o with entries := List.replicate 256 (fire0 0) }) z).ouv.entries, x.kind ≠ 0) ∧ isOut z (msg0 false).chan = false
    ∧ (∃ x ∈ z.ouv.entries, x.kind = 0) ∧ safeOn (regs [(Reg.dioSafe.base, 1)] z) = true ∧ placeEntry (channel 1 z) (msg0 false) = .inl 0
    ∧ placeEntry z (msg0 true) = .inl 0 ∧ forward z 0 = true ∧ forward (modEnc 0 (fun e => { e with reverse := true }) z) 0 = false := by decide +kernel

theorem test_kerb_fire : (entryOf (kerbed (fire0 0) 99) 255).kind = 1 ∧ reached (fieldPos (kerbed (fire0 0) 99) 0) (actOf (fire0 0)) = false
    ∧ reached (fieldPos (kerbed (fire0 0) 100) 0) (actOf (fire0 0)) = true ∧ (entryOf (kerbed (fire0 0) 99) 255).flags.testBit 4 = false
    ∧ rdF z Reg.krbCfg.base 0 16 = 0 ∧ posDiff (fieldPos (kerbed (fire0 0) 100) 0) (actOf (fire0 0)) ≤ rdF z Reg.krbCfg.base 0 16
    ∧ (rdF z Reg.krbCfg.base 0 16 : Int) < posDiff (fieldPos (kerbed (fire0 0) 101) 0) (actOf (fire0 0))
    ∧ (entryOf (kerbed (fire0 17) 99) 255).flags.testBit 4 = true ∧ (entryOf (kerbed (fire0 17) 99) 255).flags.testBit 0 = true
    ∧ reached (fieldPos (kerbed (fire0 17) 99) 0) ((fire0 17).onPos + BitVec.ofNat 48 4) = false
    ∧ reached (fieldPos (kerbed (fire0 17) 100) 0) ((fire0 17).onPos + BitVec.ofNat 48 4) = true := by decide +kernel

theorem test_trains : (entryOf (kerbed (train0 0) 99) 255).kind = 2 ∧ min (positionsReached (train0 0) 99) (beforeStop (train0 0)) = 0
    ∧ min (positionsReached (train0 0) 119) (beforeStop (train0 0)) = 2 ∧ min (positionsReached (train0 0) 120) (beforeStop (train0 0)) = 3
    ∧ (train0 4).flags.testBit 2 = true ∧ reached ((train0 4).target + BitVec.ofNat 48 (1 * (train0 4).param)) (train0 4).stop = true
    ∧ reached (train0 0).target (100 + BitVec.ofInt 48 (signed 32 (train0 0).stopOff)) = true
    ∧ reached (train0 0).target (101 + BitVec.ofInt 48 (signed 32 (train0 0).stopOff)) = false
    ∧ (z.ouv.closed.find? fun c => c.1 == 7) = none
    ∧ ((modOuv (fun o => { o with closed := [(7, 1, 90)] }) z).ouv.closed.find? fun c => c.1 == 7) = some (7, 1, 90)
    ∧ (modOuv (fun o => { o with openOrd := List.replicate 8 1 }) z).ouv.openOrd.getD 7 0 ≠ 0 := by decide +kernel

/-- The safe state, or a heartbeat. -/
def safeIn (hb hot : Bool) : State := modOuv (fun o => { o with heartbeat := hb, hotTrip := hot }) (regs [(Reg.dioSafe.base, 1)] z)

theorem test_safe : coreUp z = true ∧ z.rst.wdogExpired = false ∧ z.ouv.report = false ∧ (modOuv (fun o => { o with report := true }) z).ouv.report = true
    ∧ safeOn (safeIn true false) = true ∧ safeOn z = false ∧ (∀ x ∈ (kerbed (fire0 0) 0).ouv.entries, x.kind ≠ 2) ∧ MayWrite z .host Reg.dioSafe.base 0x5AFE0002
    ∧ (0x5AFE0002 : Word).getLsbD 1 = true ∧ (safeIn true false).ouv.heartbeat = true ∧ (safeIn true false).ouv.hotTrip = false ∧ (safeIn false false).ouv.heartbeat = false
    ∧ (115 : Int) ≤ ({ cool with ouvfi := 115 } : Meter).ouvfi ∧ ({ cool with ouvfi := 114 } : Meter).ouvfi < 115
    ∧ coreUp { z with rst := { z.rst with phase := .held, level := 1 } } = false ∧ ({ z with rst := { z.rst with phase := .held, level := 1 } } : State).rst.level ≠ 0
    ∧ (modOuv (fun o => { o with powered := false }) z).ouv.powered = false ∧ 0 < kerbUsed (kerbed (fire0 0) 0) := by decide +kernel

/-! ## Time and network -/

/-- The servo runs, with steps, gains of 1 and limits of 1 µs. -/
def servo : State := regs [(Reg.timCtl.base, 3), (Reg.timServo.base, 1 + 4 * 65536), (Reg.timServoGain.base, 65537)] z

theorem test_servo : MayWrite z .host Reg.timServoOfs.base 5 ∧ rdB z Reg.timCtl.base 0 = false ∧ rdB servo Reg.timCtl.base 0 = true
    ∧ rdB (judgeLock 256001 (bump Reg.timSnapCnt.base 0 servo)) Reg.timCtl.base 1 = true
    ∧ rdF (judgeLock 256001 (bump Reg.timSnapCnt.base 0 servo)) Reg.timServo.base 0 16 * 256000 < (256001 : Int).natAbs
    ∧ (256000 : Int).natAbs ≤ rdF (judgeLock 256000 (bump Reg.timSnapCnt.base 0 servo)) Reg.timServo.base 0 16 * 256000
    ∧ (1024 : Int).natAbs ≤ rdF servo Reg.timServo.base 16 16 * 256 ∧ rdF servo Reg.timServo.base 16 16 * 256 < (1025 : Int).natAbs
    ∧ servo.tim.lockRun < 7 ∧ 7 ≤ (modTim (fun x => { x with lockRun := 7 }) servo).tim.lockRun ∧ servo.tim.locked = false
    ∧ (modTim (fun x => { x with locked := true }) servo).tim.locked = true ∧ MayWrite z .host Reg.timStep.base 1 ∧ MayWrite z .host Reg.timCtl.base 0x100
    ∧ (0x100 : Word).getLsbD 8 = true ∧ (0x100 : Word).getLsbD 0 = false := by decide +kernel

/-- A step has been requested at time 0; it is now `ns` nanoseconds. -/
def stepping (ns : Nat) : State :=
  modTim (fun x => { x with pendStep := some { by_ := 256, to_ := none, at_ := DevTime.zero }, now := { sec := 0, ns := ns, frac := 0 } }) z

theorem test_steps : z.tim.pendStep = none ∧ (stepping 0).tim.pendStep = some { by_ := 256, to_ := none, at_ := DevTime.zero }
    ∧ timeUnits (stepping 999999).tim.now < stepInstant { by_ := 256, to_ := none, at_ := DevTime.zero }
    ∧ stepInstant { by_ := 256, to_ := none, at_ := DevTime.zero } ≤ timeUnits (stepping 1000000).tim.now := by decide +kernel

/-- Compare channel 7, armed. -/
def armed (c : Nat) : State := regs [(Reg.timCmpCtl.off 7 0, c), (Reg.timCmpNs.off 7 0, 0)] z

theorem test_compare : bitOf (rd z (Reg.timCmpCtl.off 7 0)) 0 = false ∧ bitOf (rd (armed 1) (Reg.timCmpCtl.off 7 0)) 0 = true ∧ 0 ≤ cmpDiff (armed 1) 7
    ∧ bitOf (rd (armed 3) (Reg.timCmpCtl.off 7 0)) 1 = true ∧ cmpDiff (regs [(Reg.timCmpNs.off 7 0, 1)] (armed 1)) 7 < 0
    ∧ cmpWaits (armed 3) 7 = false ∧ cmpDue (armed 1) 7 = true ∧ cmpWaits (regs [(Reg.timCmpCtl.base, 1)] (armed 1)) 7 = true
    ∧ cmpDue (regs [(Reg.timCmpCtl.base, 1)] (armed 1)) 0 = true := by decide +kernel

/-- The Ethernet link is up; a filter takes ethertype 0x88F7. -/
def wired (tx : List TxEntry) (ts : Nat) : State :=
  modTim (fun x => { x with ethUp := true, txQ := tx, tsQ := List.replicate ts { time := DevTime.zero, msgType := 0, domain := 0, seqId := 0 } })
    (regs [(Reg.ethFilt.base, 1 + 0x88F7 * 65536)] z)

/-- A broadcast PTP frame. -/
def ptp0 : List Byte := List.replicate 6 0xFF ++ List.replicate 6 0 ++ [0x88, 0xF7] ++ List.replicate 46 0

/-- A queued frame of a kind. -/
def tx0 (kind : Nat) : TxEntry := { kind := kind, bytes := ptp0, writeBack := false, deferred := false }

theorem test_network : portsUp (wired [] 0) = true ∧ frameTaken (wired [] 0) ptp0 = true
    ∧ (List.range 8).any (fun k => filterHit (wired [] 0) ptp0 (rd (wired [] 0) (Reg.ethFilt.off k 0))) = true
    ∧ (List.range 8).any (fun k => filterHit z (ptp0.set 12 0) (rd z (Reg.ethFilt.off k 0))) = false
    ∧ nextTx [tx0 2, tx0 1, tx0 0] = some (tx0 0) ∧ nextTx [tx0 2, tx0 1] = some (tx0 1) ∧ nextTx [tx0 2] = some (tx0 2)
    ∧ 16 ≤ (wired [] 16).tim.tsQ.length ∧ (wired [] 15).tim.tsQ.length < 16 ∧ fwUp (fw z) = true ∧ (wired [] 0).tim.ethUp ≠ false ∧ z.tim.ethUp = false
    ∧ ethModeOk z = true ∧ ethModeOk (regs [(Reg.ethCfg.base, 12)] z) = false ∧ rdF z Reg.ethTxcap.base 0 16 ≠ 0
    ∧ rdF (regs [(Reg.ethTxcap.base, 0)] z) Reg.ethTxcap.base 0 16 = 0 ∧ z.tim.capFree ≤ timeUnits z.tim.now
    ∧ timeUnits z.tim.now < (modTim (fun x => { x with capFree := 1 }) z).tim.capFree := by
  decide +kernel

/-! ## The links -/

/-- Vector 63 pending. -/
def pendingVec (bme : Bool) : State := modHost (fun h => { h with bme := bme, vecPend := BitVec.twoPow 64 63 }) (regs [(Reg.msixTable.off 255 0, 0)] z)

theorem test_host_link : z.host.bme = false ∧ (pendingVec true).host.bme = true ∧ vecMasked (pendingVec true) 63 = false ∧ vecMasked z 63 = true
    ∧ (pendingVec true).host.vecPend.getLsbD 63 = true ∧ z.host.vecPend.getLsbD 63 = false ∧ MayWrite z .host Reg.pciAp.base 288
    ∧ bits (288 : Word).toNat 0 10 = 288 ∧ bits (289 : Word).toNat 0 10 = 289 ∧ bits (127 : Word).toNat 0 10 = 127 ∧ inRecovery z = false
    ∧ regionOf (0 + 64 * 0x40000000) = .lpddr ∧ regionOf (0x10000000 + 64 * 0x40000000) = .lpddr ∧ regionOf (0 + 256 * 0x40000000) = .peer 0
    ∧ regionOf (0 + 288 * 0x40000000) = .peer 1 ∧ regionOf (0x1FFFFFFF + 0 * 0x40000000) = .square ∧ regionOf 0x20000000 = .other
    ∧ regionOf 0x8000000000 = .host ∧ linkListed 7 1 false = false ∧ linkListed 5 3 true = false ∧ linkListed 6 8 false = false
    ∧ linkListed 6 8 true = true ∧ (modHost (fun h => { h with d3 := true }) z).host.d3 = true := by decide +kernel

/-- Window 15 with a number of pages. -/
def window (pages : Nat) : State := regs [(Reg.pciWinSize.off 15 0, pages)] z

theorem test_windows : MayWrite z .host (Reg.pciWinCtl.off 15 0) 1 ∧ windowOk (window 1) 15 = true ∧ windowOk (window 1048576) 15 = true
    ∧ windowOk (window 1048577) 15 = false ∧ windowOk (window 0) 15 = false ∧ winEn z 15 = false
    ∧ winEn (regs [(Reg.pciWinCtl.off 15 0, 1)] (window 1)) 15 = true ∧ windowUsed (regs [(Reg.pciWinCtl.off 15 0, 1)] (window 1)) 15 = false
    ∧ windowUsed (regs [(Reg.itmCtl.base, 1)] (placed z)) 0 = true ∧ groupUp z 3 = true
    ∧ isPeer (leAt (dmaDesc 0x4000000000) 8 8) = true
    ∧ (runningOn (standing 8 (dmaDesc 0x4000000000) id) 8 0).map (·.done) = some false := by decide +kernel

/-- Port 1 in a state, with link bits. -/
def blvIn (link ctl : Nat) : State := regs [(Reg.blvLink.off 1 0, link), (Reg.blvCtl.off 1 0, ctl)] z

theorem test_boulevard : z.blv.length = 2 ∧ MayWrite z .host (Reg.blvCtl.off 1 0) 1 ∧ blvEn (blvIn 0 0) 1 = false ∧ blvTest (blvIn 0 0) 1 = false
    ∧ blvEn (blvIn 0 1) 1 = true ∧ blvTest (blvIn 0 2) 1 = true ∧ blvLive (blvIn 1 1) 1 = true ∧ blvState (blvIn 1 1) 1 = 1 ∧ blvState (blvIn 2 1) 1 = 2
    ∧ blvState (blvIn 3 9) 1 = 3 ∧ rdB (blvIn 3 9) (Reg.blvCtl.off 1 0) 3 = true ∧ blvIdle (blvIn 3 9) 1 = false ∧ blvIdle (blvIn 11 9) 1 = true
    ∧ blvCompat (blvIn 3 9) 1 = false ∧ blvCompat (blvIn 7 9) 1 = true ∧ flit0.seqNo % 4096 = (blvOf (blvIn 3 9) 1).expect
    ∧ (blvOf (blvIn 3 9) 1).fails < 8 ∧ 8 ≤ (blvOf (modBlv 1 (fun b => { b with fails := 8 }) (blvIn 3 9)) 1).fails
    ∧ (∀ n ∈ ([none, some 0, none, some 0] : List (Option Nat)).take 4, n.getD 0 = 0) ∧ (∃ n ∈ ([none, some 1] : List (Option Nat)).take 4, n.getD 0 ≠ 0)
    ∧ blvLive (writeBlvCtl 1 (BitVec.ofNat 32 (setBits (rd z (Reg.blvCtl.off 1 0)) 1 2 1)) z) 1 = true := by decide +kernel

theorem test_peers : (peerToken (loaded (blvIn 3 9)) 0x8008).map (fun t => (t.external, t.tagged)) = some (true, true)
    ∧ (peerToken (loaded (blvIn 3 9)) 0x8000).map (fun t => (t.external, t.tagged)) = some (true, false) ∧ peerToken z 0x8000 = none
    ∧ coreUp (loaded (blvIn 3 9)) = true
    ∧ (match (signal 1 0 1 none (some (.neighbour 1)) (loaded (blvIn 3 9))).1 with | .waits => true | .done st => st == Stat.ok) = true := by decide +kernel

/-! ## Isolation, reset and boot -/

/-- A unit is isolated. -/
def isolated (u : BlockUnit) (s : State) : State := modPwr (fun p => { p with isolated := [u] }) s

theorem test_block_reset : (∀ u ∈ [BlockUnit.ip 13, .group 3, .blv 1, .cp 3], unitExists u = true ∧ unitUp z u = true ∧ unitUp (isolated u z) u = false
      ∧ codeUnit (unitCode u) = some u) ∧ rdB z Reg.rasCfg.base 0 = true ∧ rdB (regs [(Reg.rasCfg.base, 0)] z) Reg.rasCfg.base 0 = false
    ∧ MayWrite z .host Reg.rasBlkrst.base 0xB10C000D ∧ bits (0xB10C000D : Word).toNat 0 5 = 13 ∧ codeUnit 14 = none := by decide +kernel

theorem test_block_jobs : ((standing 1 (cropDesc 0) id).eng.running.filter fun r => groupOfKind r.job.kind == 1).length = 1
    ∧ ((standing 4 (recDesc 33 0) id).eng.running.filter fun r => groupOfKind r.job.kind == 2).map (·.job.kind) = [4]
    ∧ z.eng.running = [] ∧ (pipeAt z 11).serving = none ∧ (servedFrame (served (serving0 none) 0 0) (serving0 none)).map (·.st) = some 2
    ∧ blvState (blvIn 3 9) 1 = 3 ∧ blvState z 1 = 0 ∧ blvState (blvIn 1 9) 1 = 1 := by decide +kernel

/-- In a reset of a level, with sources asserted. -/
def held (ph : ResetPhase) (level sources : Nat) : State := { z with rst := { z.rst with phase := ph, level := level, asserted := sources, sources := sources } }

theorem test_resets : z.host.d3 = false ∧ (modHost (fun h => { h with d3 := true }) z).host.d3 = true ∧ (115 : Int) ≤ ({ cool with eboux := 115 } : Meter).eboux
    ∧ cool.eboux < 115 ∧ 4 ∈ (modSq (fun q => { q with laneSpare := [4], laneFails := [(4, 3)] }) z).sq.laneSpare
    ∧ laneFails (modSq (fun q => { q with laneSpare := [4], laneFails := [(4, 3)] }) z) 4 = 3 ∧ 4 ∉ z.sq.laneSpare
    ∧ wdogOn (regs [(Reg.rstWdog.base, 65536)] z) = true ∧ bootState (fw z) = 7 ∧ bootState z ≠ 7 ∧ MayWrite z .complex Reg.rstKick.base 0x6B1C0000
    ∧ MayWrite z .complex Reg.rstReq.base 0x9E570002 ∧ bits (0x9E570002 : Word).toNat 0 2 = 2 ∧ coreUp z = true ∧ coreUp (held .held 0 2) = false
    ∧ (1 : Nat) ≤ (held .held 1 2).rst.level ∧ (held .held 0 2).rst.level < 1 := by decide +kernel

theorem test_release : (held .held 0 2).rst.asserted.testBit 1 = true ∧ (held .held 0 2).rst.asserted = 2 ^ 1 ∧ (held .held 0 6).rst.asserted ≠ 2 ^ 1
    ∧ (held .held 1 2).rst.level ≠ 0 ∧ (held .stretching 1 0).rst.phase = .stretching ∧ (held .stretching 1 0).rst.trimBusy = false
    ∧ ({ held .stretching 1 0 with rst := { (held .stretching 1 0).rst with trimBusy := true } } : State).rst.trimBusy = true := by decide +kernel

/-- The shadow registers as loaded with these upsets. -/
def loadedWith (ups : List Upset) : List (RegDef × TvReg) := shadowRegs.map fun d => (d, loadCopies z.fuse ups d.base)

/-- No copy disagrees; one is outvoted; all three disagree. -/
theorem test_trim : anyShadow outvoted (loadedWith []) = false ∧ anyShadow threeWays (loadedWith []) = false
    ∧ anyShadow outvoted (loadedWith [{ copy := 0, off := Reg.tcSpare.base, value := 3 }]) = true
    ∧ anyShadow threeWays (loadedWith [{ copy := 0, off := Reg.tcSpare.base, value := 3 }]) = false
    ∧ anyShadow threeWays (loadedWith [{ copy := 0, off := Reg.tcSpare.base, value := 3 }, { copy := 1, off := Reg.tcSpare.base, value := 5 }]) = true := by decide +kernel

theorem test_boot : bootState z ≤ 2 ∧ coreUp z = true ∧ 2 < bootState (fw z) ∧ (∀ k ∈ slotOrder z, imageAccepted z (flashOf z k) = false)
    ∧ (16 : Nat) ∉ ([] : List Nat) ∧ (∀ m ∈ List.range 17, m ∉ ([] : List Nat)) ∧ z.rst.fails.getD 0 0 < 3
    ∧ 3 ≤ ({ z with rst := { z.rst with fails := [3, 3] } } : State).rst.fails.getD 1 0 ∧ leAt firmware0 6 1 ≤ 63
    ∧ MayWrite z .host Reg.secRoll.base 0x71A30001 ∧ z.fuse.svn < bits (0x71A30001 : Word).toNat 0 7
    ∧ bits (0x71A30001 : Word).toNat 0 7 ≤ rdF (regs [(Reg.secSvn.base, 1)] z) Reg.secSvn.base 0 6 ∧ rdF z Reg.secSvn.base 0 6 < 1 := by decide +kernel

/-- The module waits in RECOVERY. -/
def recovery : State := regs [(Reg.rstBoot.base, 8)] z

theorem test_recovery : inRecovery recovery = true ∧ MayWrite recovery .host Reg.rstBoot.base 0x40 ∧ (0x40 : Word).getLsbD 6 = true
    ∧ imageAccepted recovery (devGet recovery 0 (bits (0x40 : Word).toNat 8 24)) = false ∧ inRecovery z = false ∧ MayWrite z .host Reg.rstBoot.base 0x40 := by
  decide +kernel

/-- With a slot whose image passes, the ROM finds it. -/
theorem test_boot_found (k : Config.keyHash 0 = shake256 ((firmware0.drop 0xC).take 64) 32) (v : ∀ a b c, Config.slhVerify 2 a b c = true) :
    (slotOrder { z with rst := { z.rst with flashA := firmware0 } }).find?
      (fun n => imageAccepted z (flashOf { z with rst := { z.rst with flashA := firmware0 } } n)) = some 0 := by
  have h : slotOrder { z with rst := { z.rst with flashA := firmware0 } } = [0, 1] := by decide +kernel
  rw [h, List.find?_cons_of_pos]
  exact test_firmware_slot k v

/-! ## The invariant -/

theorem test_idle : z.pending = [] ∧ z.tim.now.ns < 1000000000 ∧ z.tim.now.frac < 2 ^ 32 ∧ z.tim.now.sec < 2 ^ 48
    ∧ (z.tim.now.advance z.tim.applied).ns / 1000 = z.tim.now.ns / 1000 := by decide +kernel

theorem test_quiet : Quiet z ∧ z.led.heldLoss = none ∧ rd z Reg.itmOldestId.base = oldestId z ∧ kerbUsed z ≤ rdF z Reg.krbUsed.base 16 9 ∧ kerbUsed z ≤ 256 := by
  decide +kernel

theorem test_step_runs : (match step { z with pending := [.subNop] } with | .next t => t.pending.isEmpty | _ => false) = true := by decide +kernel

/-! ## Hypotheses at their limits -/

/-- A word that waits in queue 2 of task 0. -/
def queuedWait : Waiting :=
  { q := 2, word := 0, since := 0, ends := false
    w := .queued { op := 0x50, i := w0, ops := capture r0, cr := on 0, mismatch := false } }

/-- Item 5 is past its deadline. -/
def pastIts : State := { withItem z with copies := [{ pos := 100, vhat := 0, reverse := false, frac := 0 }] }

theorem test_limits : wellFormed .subNop = true ∧ ringRefused (regs [(Reg.itmCtl.base, 2)] z) 1 = true ∧ ringEn (regs [(Reg.itmCtl.base, 2)] z) 1 = true
    ∧ (ringEn z 1 && ringRefused z 1) = false ∧ ({ calm with abort := some 0 } : MemRun).abort = some 0
    ∧ jobsOfProg (queued 2 (sortDesc 0xD) []) 1 = 1 ∧ classN 0 = 256 ∧ linkExists 4 = true ∧ linkExists 7 = false ∧ linkExists 100000 = false
    ∧ anyQueued z = false ∧ anyQueued { z with tasks := [{ task0 with waits := [queuedWait] }] } = true
    ∧ lateItem (withItem z) 5 = false ∧ lateItem pastIts 5 = true
    ∧ closedAt (regs [(Reg.itmNextId.base, 7)] (searching 1 0)) (job 3 (barDesc 1)) 256 = true ∧ closedAt (regs [(Reg.itmNextId.base, 7)] (searching 1 0)) (job 3 (barDesc 1)) 255 = false
    ∧ peerMapped z 1 0x4400000000 4 = false := by decide +kernel

/-! ## Clauses of this sitting -/

theorem test_refused_more : silent z Reg.secRoll.base true = false ∧ regAt Reg.secRoll.base = some Reg.secRoll ∧ wrongWriter Reg.secRoll .host = false
    ∧ bits (0x71A20001 : Word).toNat 16 16 ≠ Reg.secRoll.key ∧ (2 : Nat) + 2 ≤ 4 ∧ aliasOff 0x1014 ≠ Reg.glbSem.base
    ∧ silent z (aliasOff 0x1014) false = false ∧ (regAt (aliasOff 0x1014)).isSome = true ∧ (0x1016 : Nat) % 4 ≠ 0
    ∧ nextSub (fun e => e.op == 5) (holding (sub 5 15 0) (fw z)) = some (sub 5 15 0)
    ∧ nextSub (fun e => e.op == 5) (holding (sub 5 16 0) (fw z)) = some (sub 5 16 0) := by decide +kernel

/-- A record waits in the overflow area, the ring is enabled and its window off. -/
def overflowing (ctl : Nat) : State := modLed (fun l => { l with overflow := [ovf0 2] }) (regs [(Reg.itmCtl.base, ctl)] z)

theorem test_lost_record : ovfCap z < ovfUsed z + 1 ∧ (overflowing 0).led.overflow ≠ [] ∧ (ringEn (overflowing 0) 1 && ringRefused (overflowing 0) 1) = false
    ∧ (ringEn (overflowing 2) 1 && ringRefused (overflowing 2) 1) = true ∧ (1 : Nat) < (ovf0 2).entries ∧ (ovf0 2).entries ≤ 2 := by decide +kernel

theorem test_timeout_by : (coreOf (coreAt (taskAt r0) z) 0).task = some id0
    ∧ (runningOn (standing 3 (barDesc 1) id) 3 0).map (·.done) = some false ∧ (0x1FFFFFFF : Nat) < 0x20000000 := by decide +kernel

/-- Core 0 has an open pass of a task that has left it. -/
def strayed : State := modCore 0 (fun c => { c with stray := 1 }) z

/-- No core stands as the spare. -/
def noSpare (s : State) : State := modCore 16 (fun c => { c with st := 2 }) s

theorem test_residue : (coreOf strayed 0).stray ≠ 0 ∧ (coreOf strayed 0).st = 0 ∧ (coreOf z 0).stray = 0
    ∧ (coreOf (coreAt { taskAt r0 with passes := 1 } z) 0).stray = 0 ∧ ({ taskAt r0 with passes := 1 } : Task).core = some 0
    ∧ bits (0xFE4C0011 : Word).toNat 0 5 = 17 ∧ MayWrite z .host Reg.tcFence.base 0xFE4C0011 ∧ spareCore (noSpare z) = none := by decide +kernel

theorem test_residue_task : taskOf (coreAt { taskAt r0 with passes := 1 } z) id0 = some { taskAt r0 with passes := 1 } := rfl

theorem test_fenced_task : (coreOf (coreAt (taskAt r0) z) 0).phase ≠ .saving ∧ (taskAt r0).rec_.entries = []
    ∧ (∀ p ∈ (coreAt (taskAt r0) z).progs, p.coresMin < (activeCores (coreAt (taskAt r0) z)).length)
    ∧ spareCore (coreAt (taskAt r0) z) = some 16 ∧ spareCore (noSpare (coreAt (taskAt r0) z)) = none
    ∧ (coreOf (phased .saving (taskAt r0) none) 0).st = 0 ∧ (progOf (phased .saving (taskAt r0) none) 1).isSome = true
    ∧ (coreOf (phased .recovering (taskAt r0) none) 0).phase = .recovering ∧ (coreOf (phased .recovering (taskAt r0) none) 0).gated = false
    ∧ awake (phased .recovering (taskAt r0) none) 0 0 = true ∧ (taskAt r0).saved = false ∧ (taskAt r0).regs.tbPoison = [] := by decide +kernel

theorem test_recovering_task : (coreOf (phased .recovering (taskAt r0) none) 0).task = some id0
    ∧ taskOf (phased .recovering (taskAt r0) none) id0 = some (taskAt r0) := ⟨rfl, rfl⟩

/-- Core 7 sleeps and stands in a fenced core's place; core 5 sleeps too. -/
def rousing : State := modCore 7 (fun c => { c with gated := true, roused := true }) (modPwr (fun p => { p with asleep := [(0, 5), (0, 7)] }) z)

theorem test_points_more : (coreOf (fw z) 16).st ≠ 0 ∧ detMode (regs [(Reg.glbMode.base, 0x4601)] (fw z)) = true
    ∧ bits (0x5A28 : Word).toNat 0 7 ≠ detFreq (regs [(Reg.glbMode.base, 0x4601)] (fw z))
    ∧ ({ r0 with loads := [1] } : TaskRegs).loads.head? = some 1 ∧ r0.loads.head? ≠ some 1 ∧ coreClock z 0 < bits (0x9678 : Word).toNat 0 7
    ∧ nextWake rousing 0 = some 7 ∧ coreWants rousing 7 = true ∧ (coreOf rousing 7).roused = true
    ∧ (coreOf (modCore 7 (fun c => { c with wakePoint := some (100, 110) }) rousing) 7).wakePoint = some (100, 110)
    ∧ nextWake (modPwr (fun p => { p with asleep := [(0, 16)] }) z) 0 = some 16 ∧ (coreOf z 16).st = 1 := by decide +kernel

theorem test_wide_down : wideUp z = true ∧ wideUp (held .held 0 2) = true ∧ wideUp (held .held 1 2) = false
    ∧ wideUp (held .stretching 2 0) = false ∧ (3 : Nat) ≤ 5 := by decide +kernel

/-- A word whose guard, that P0 is set, fails. -/
def wGuard : Iw := { w0 with pe := true }

theorem test_guard_fails : ∀ op ∈ [0x03, 0x08], ∃ u, GuardFails op u (on 0) { wGuard with imm := 1 } (taskAt r0) prog1 (coreAt (taskAt r0) z) := by
  intro op h
  simp only [List.mem_cons, List.not_mem_nil, or_false] at h
  rcases h with rfl | rfl
  · exact ⟨_, by decide +kernel, by decide +kernel, rfl, rfl, rfl, by decide +kernel, rfl, rfl, rfl, rfl, by decide +kernel, by decide +kernel, rfl, by decide +kernel⟩
  · exact ⟨_, by decide +kernel, by decide +kernel, rfl, rfl, rfl, by decide +kernel, rfl, rfl, rfl, rfl, by decide +kernel, by decide +kernel, rfl, by decide +kernel⟩

/-- A word waits for item 5 on token 1; token 0's latch holds a fault; a restarted task has its entries. -/
theorem test_matches : ([.join 40] : List RecEntry).find? isJoinEntry = some (.join 40) ∧ (taskAt r0).match_.entries.find? isJoinEntry = none
    ∧ (taskAt r0).match_.entries.find? isAlloc = none ∧ (taskAt r0).match_.entries.find? (fun e => e == .leave) = none
    ∧ (∃ w ∈ ([{ who := .task id0, amt := 1, item := none }] : List TokWaiter), w.item = none)
    ∧ ({ token0 0 false true with jobTmpl := some 0, latch := Stat.timeout } : Token).jobTmpl ≠ none ∧ latchFaults Stat.timeout = true
    ∧ (taskAt r0).waits.any (fun w => writesSquare w.w) = false ∧ (clientOf z 3).armed = false ∧ joining.seqs ≠ [] := by decide +kernel

/-- Two instances are ready: the second was ready first, at one priority. -/
def twoReady : State :=
  { loaded z with tasks := [{ readyTask with readyAt := 9 }, { readyTask with id := { id0 with inst := 1 }, readyAt := 4 }] }

theorem test_two_ready : (readyTasks twoReady).map (fun k => (k.id.inst, k.readyAt)) = [(1, 4), (0, 9)] ∧ (twoReady.tasks.map (·.id)).Nodup
    ∧ idleFor twoReady { id0 with inst := 1 } = some 0 ∧ (readyTask.prio ≤ 3) ∧ ({ readyTask with prio := 3 } : Task).prio = 3 := by decide +kernel

theorem test_two_ready_cores : ∀ j, (coreOf twoReady j).incoming = none := by
  intro j
  by_cases h : j < 17
  · have : ∀ j, j < 17 → (coreOf twoReady j).incoming = none := by decide +kernel
    exact this j h
  · have e : twoReady.cores.length = 17 := by decide +kernel
    simp [coreOf, List.getD, List.getElem?_eq_none_iff.mpr (show twoReady.cores.length ≤ j by omega), TensorCore.idle]

/-- Core 0 alone is idle. -/
def oneIdle : State := { twoReady with cores := twoReady.cores.zipIdx.map fun x => if x.2 = 0 then x.1 else { x.1 with phase := .running } }

theorem test_one_idle : idleFor oneIdle { id0 with inst := 1 } = some 0 ∧ ∀ j, j < 17 → idleCore oneIdle j = true → j = 0 := by decide +kernel

/-- The state of the running instance with a row pinned, in a save with a limit of one uncorrectable error. -/
def savingRow : State := regs [(Reg.tcCfg.base, 1)] (phased .saving (taskAt (pinnedBy tEnd r0)) none)

theorem test_save_reads : (readForSave 0 id0 [] savingRow).1 = true ∧ (readForSave 0 id0 [⟨0x3FFE00 / 8, true⟩] savingRow).1 = false
    ∧ (coreOf (phased .saving (taskAt r0) (some { id0 with inst := 1 })) 0).incoming = some { id0 with inst := 1 }
    ∧ (∃ p, progOf savingRow 1 = some p ∧ p.saves[taskIndex p id0]? = none)
    ∧ r0.tbPoison = [] ∧ (taskAt r0).saved = false ∧ (taskAt r0).waits = [] := by
  refine ⟨by decide +kernel, by decide +kernel, by decide +kernel, ⟨prog1, rfl, by decide +kernel⟩, by decide +kernel, by decide +kernel, by decide +kernel⟩

theorem test_yield_to : (readyTasks twoReady).find? (fun r => decide ((taskAt r0).prio ≤ r.prio) && (claimOf twoReady r.id).isNone && mayRun twoReady r.id 0)
      = some { readyTask with id := { id0 with inst := 1 }, readyAt := 4 }
    ∧ replayHolds prog1 (taskAt r0) = false ∧ (coreOf (coreAt (taskAt r0) z) 0).incoming = none ∧ task0.atRound = false
    ∧ ({ taskAt r0 with atRound := true } : Task).st = .running := by decide +kernel

/-- Port 11 up under item gating of source 7; item 5 of that source is open. -/
def gateState : State := { regs [(Reg.cxpCtl.off 11 0, 1 + 16 + 7 * 256), (Reg.cxpLink.off 11 0, 2)] z with led := (withItem z).led }

theorem test_gates : portUp gateState 11 = true ∧ bitOf (portCtl gateState 11) 4 = true ∧ (gateDue gateState 11).map (·.id) = [5]
    ∧ gateDue (modPort 11 (fun q => { q with gated := [5] }) gateState) 11 = [] ∧ portUp (linked 11 2) 11 = true
    ∧ gateOver (closeFrame 11 [] true (gated 40)) 11 (fun i => copyPos (gated 40) i.posSrc) = false := by decide +kernel

/-- Port 11 with a frame of a Bayer format open under a train, and the format of the last header. -/
def headed (fmt phase : Nat) : State :=
  modPort 11 (fun q => { q with curFmt := some (fmt, phase) }) (framed 11 [{ frame0 with fmt := 4, phase := 1 }] (linked 11 2))

theorem test_headers : openFrameOf (headed 4 1) 11 = some { frame0 with fmt := 4, phase := 1 }
    ∧ ((headed 4 2).ports.getD 11 Port.reset).curFmt = some (4, 2) ∧ (4 : Nat) ≤ ({ frame0 with fmt := 4 } : Frame).fmt ∧ ({ frame0 with fmt := 4 } : Frame).fmt ≤ 6
    ∧ ({ frame0 with fmt := 4, phase := 1 } : Frame).phase ≠ 2 ∧ (3 : Nat) ≠ ({ frame0 with fmt := 4 } : Frame).fmt
    ∧ frame0.area = false := by decide +kernel

/-- A JPEG-LS codestream of one UINT8 pixel, its entropy-coded byte left out, and the head of its record. -/
def jls0 : List Byte := [0xFF, 0xD8, 0xFF, 0xF7, 0, 11, 8, 0, 1, 0, 1, 1, 1, 0x11, 0, 0xFF, 0xDA, 0, 8, 1, 1, 0, 0, 0, 0, 0xFF, 0xD9]

theorem test_jls (h : (Config.jpegLs jls0 0 1 1).isSome = true) : jlsDecode jls0 0 1 1 ≠ none ∧ jlsDecode [] 0 1 1 = none
    ∧ recPixels (recHead 0) ≠ 0 ∧ lateItem (decoding 33 0 [] []) (recItem (recHead 0)) = false
    ∧ leAt ((recHead 0).set 4 2) 4 1 = 2 ∧ recFields ((recHead 0).set 4 2) = true := by
  have e : jlsHeadOk 0 1 1 (jlsSegs jls0.length jls0) = true := by decide +kernel
  refine ⟨?_, by decide +kernel, by decide +kernel, by decide +kernel, by decide +kernel, by decide +kernel⟩
  cases hc : Config.jpegLs jls0 0 1 1 with
  | none => simp [hc] at h
  | some r => simp [jlsDecode, e, hc]

/-- The head of a JPEG-LS record passes its check. -/
def jlsHead : List Byte :=
  let h := [0x50, 0x4C, 0x52, 0x43, 2, 0] ++ leBytes 2 1 ++ leBytes 4 1 ++ leBytes 6 0 ++ leBytes 2 1 ++ leBytes 2 0
  let t := List.replicate 4 0 ++ leBytes 4 (crc32c [7])
  h ++ leBytes 2 (crc32c (h ++ [0, 0] ++ t) % 65536) ++ t

theorem test_jls_head : recMagic jlsHead = true ∧ recCheck jlsHead = true ∧ leAt jlsHead 4 1 = 2 ∧ recFields jlsHead = true ∧ recPixels jlsHead = 1
    ∧ 0 + 32 + leAt jlsHead 8 4 ≤ 33 ∧ 0x40 + recPixels jlsHead ≤ recRoom (decoding 33 0 [] []) (job 4 (recDesc 33 0)) := by decide +kernel

theorem test_periodic_loader : z.eng.loader.any (fun l => l.checks != 0) = false
    ∧ (modEng (fun e => { e with loader := some { ord := 0, at_ := DevTime.zero, checks := 1, hashes := 0 } }) z).eng.loader.any (fun l => l.checks != 0) = true := by
  decide +kernel

theorem test_field_more : (modOuv (fun o => { o with closed := [(7, 1, 90)] }) z).ouv.powered = true ∧ (held .held 2 1).rst.level = 2
    ∧ coreUp (held .held 2 1) = false ∧ ({ msg0 true with ord := none } : KerbMsg).ord = none ∧ coreUp (held .held 0 1) = false
    ∧ ({ msg0 true with ord := some 2 } : KerbMsg).ord = some 2 := by decide +kernel

theorem test_eth_mode : regAt Reg.ethCfg.base = some Reg.ethCfg ∧ MayWrite z .host Reg.ethCfg.base 12
    ∧ ethModeOk (storeFields Reg.ethCfg Reg.ethCfg.base 12 (wired [] 0)) = false ∧ (wired [] 0).tim.ethUp = true
    ∧ ethModeOk (storeFields Reg.ethCfg Reg.ethCfg.base 0 (wired [] 0)) = true ∧ fitsWire (List.replicate 1518 0) = true
    ∧ fitsWire (List.replicate 1519 0) = false := by decide +kernel

theorem test_configuration : cfgAnswers (fw z) = true ∧ cfgAnswers recovery = true ∧ cfgAnswers z = false
    ∧ (fw z).host.bme = false ∧ (modHost (fun h => { h with bme := true }) (fw z)).host.bme = true
    ∧ (0x40000000 : Nat) < (accessSpan (.read 0x3FFFFFFF 2)).1 + (accessSpan (.read 0x3FFFFFFF 2)).2 ∧ 0x3FFFFFFF + 1 ≤ 0x40000000
    ∧ linkListed 6 8 true = true ∧ (modHost (fun h => { h with d3 := true }) (fw z)).host.d3 = true := by decide +kernel

/-- Port 1 up, with flits held, owed or in the retry buffer. -/
def flits (b : Blv → Blv) : State := modBlv 1 b (blvIn 3 9)

theorem test_flits : (blvOf (flits id) 1).held = [] ∧ (blvOf (flits id) 1).owed = 0 ∧ (blvOf (flits fun b => { b with held := [2] }) 1).held = [2]
    ∧ (blvOf (flits fun b => { b with held := [2], retry := List.replicate 255 0, credits := [0, 0, 1] }) 1).retry.length < 256
    ∧ 0 < (blvOf (flits fun b => { b with credits := [0, 0, 1] }) 1).credits.getD 2 0
    ∧ (∀ c ∈ (blvOf (flits fun b => { b with held := [2], credits := [9, 9, 0] }) 1).held,
        (blvOf (flits fun b => { b with held := [2], credits := [9, 9, 0] }) 1).credits.getD c 0 = 0)
    ∧ (∀ c ∈ (blvOf (flits fun b => { b with held := [2], retry := List.replicate 256 0 }) 1).held,
        256 ≤ (blvOf (flits fun b => { b with held := [2], retry := List.replicate 256 0 }) 1).retry.length)
    ∧ (blvOf (flits fun b => { b with retry := [0] }) 1).retry ≠ [] ∧ (blvOf (flits fun b => { b with owed := 1 }) 1).owed ≠ 0
    ∧ flit0.crcOk = true ∧ ({ flit0 with wordOk := false } : Flit).wordOk = false ∧ ({ flit0 with seqNo := 1 } : Flit).seqNo % 4096 ≠ (blvOf (flits id) 1).expect
    ∧ (blvOf (writeBlvCtl 1 (BitVec.ofNat 32 (setBits (rd z (Reg.blvCtl.off 1 0)) 1 2 1)) z) 1).locks.length = 4
    ∧ blvState (blvIn 0 1) 1 = 0 ∧ blvEn (blvIn 0 1) 1 = true ∧ blvTest (blvIn 0 1) 1 = false ∧ (128 : Nat) ≤ 128 ∧ (128 : Nat) < 129 := by decide +kernel

/-- Two jobs of the region group run, a record decodes, and a copy from port 0 runs. -/
def twoJobs : State :=
  modEng (fun e => { e with running := [Running.start 0 (job 1 (cropDesc 0)), Running.start 1 (job 1 (cropDesc 0))] }) { loaded z with progs := [prog3] }

theorem test_group_jobs : (twoJobs.eng.running.filter fun r => groupOfKind r.job.kind == 1).length = 2
    ∧ (decoding 33 0 [] (recHead 0)).eng.running.any (fun r => r.job.kind == 4 && !r.current.isEmpty && !bitOf (leAt r.job.desc 2 1) 1) = true
    ∧ dmaPort (dmaDesc 0x4000000000) = some 0 ∧ (runningOn (standing 8 (dmaDesc 0x4000000000) id) 8 0).map (·.done) = some false
    ∧ blvState (blvIn 2 1) 1 = 2 ∧ ¬∃ k : Nat, BlockUnit.group 3 = .ip k := by
  refine ⟨by decide +kernel, by decide +kernel, by decide +kernel, by decide +kernel, by decide +kernel, by simp⟩

theorem test_resets_more : MayWrite z .complex Reg.rstReq.base 0x9E570003 ∧ bits (0x9E570003 : Word).toNat 0 2 = 3
    ∧ silent z Reg.rstReq.base true = false ∧ z.pwr.vbakOk = true ∧ (modPwr (fun p => { p with vbakOk := false }) z).pwr.vbakOk = false
    ∧ (held .stretching 0 0).rst.level = 0 ∧ (held .stretching 2 0).rst.level = 2 ∧ z.rst.outHigh = true
    ∧ ({ z with rst := { z.rst with outHigh := false } } : State).rst.outHigh = false ∧ (0 : Nat) < z.cores.length
    ∧ bootState (regs [(Reg.rstBoot.base, 9)] z) = 9 := by decide +kernel

theorem test_idle_more : (blvOf (flits fun b => { b with owed := 1 }) 1).owed ≠ 0 ∧ blvLive (flits id) 1 = true ∧ blvState (flits id) 1 = 3
    ∧ wideUp (held .held 1 2) = false ∧ throttle z = 0 ∧ (∀ p, p < 2 → (blvOf z p).owed = 0) := by decide +kernel

end Sys2Proof.Tests
end

