-- ==== Sys2Proof/Proofs/StatusFlags.lean ====
section
/-! What an event that sets a flag does to its status register (R11): the flags in the low half word, the sequence in the high one. -/

namespace Sys2Proof.Machine

open Sys2Proof

/-- The flags of a status register with one more set stay in its low half word. -/
theorem flags_or_lt (n bit : Nat) (hb : bit < 16) : (n % 65536) ||| 2 ^ bit < 65536 :=
  Nat.or_lt_two_pow (n := 16) (Nat.mod_lt _ (by decide)) (Nat.pow_lt_pow_right (by decide) hb)

/-- An event sets its own flag of the status register and keeps the others. -/
theorem flagOf_setFlag (off bit b : Nat) (s : State) (hbit : bit < 16) (hb : b < 16) :
    flagOf (setFlag off bit s) off b = (flagOf s off b || decide (bit = b)) := by
  have hword : rd (setFlag off bit s) off =
      2 ^ 16 * ((rd s off / 65536 + 1) % 65536) + ((rd s off % 2 ^ 16) ||| 2 ^ bit) := by
    rw [rd_setFlag_same off bit s hbit, Nat.mul_comm]
    rfl
  unfold flagOf
  rw [hword, Nat.testBit_two_pow_mul_add _ (flags_or_lt _ _ hbit), if_pos hb, Nat.testBit_or,
    Nat.testBit_mod_two_pow, Nat.testBit_two_pow]
  simp [hb]

/-- The sequence of a status register is its high half word. -/
theorem rdF_sequence (s : State) (off : Nat) : rdF s off 16 16 = rd s off / 65536 := by
  have hlt := rd_lt s off
  unfold rdF bits
  rw [Nat.shiftRight_eq_div_pow]
  omega

/-- An event moves the sequence of the status register on by one, from 0xFFFF to 0. -/
theorem rdF_sequence_setFlag (off bit : Nat) (s : State) (hbit : bit < 16) :
    rdF (setFlag off bit s) off 16 16 = (rdF s off 16 16 + 1) % 65536 := by
  have hflags := flags_or_lt (rd s off) bit hbit
  rw [rdF_sequence, rdF_sequence, rd_setFlag_same off bit s hbit]
  omega

/-- Settles O2: the flag clauses are one lemma about the low half word, the sequence one about the high half word, and every other
register and all else is kept because the event writes this one register. -/
theorem flagEventMovesSequence : Obligations.FlagEventMovesSequence := by
  intro off bit s hbit
  refine ⟨?flagSet, ?otherFlags, rdF_sequence_setFlag off bit s hbit,
    fun r hr => rdW_setFlag_other off bit r s hr, rfl⟩
  case flagSet => simp [flagOf_setFlag off bit bit s hbit hbit]
  case otherFlags =>
    intro b hb hne
    simp [flagOf_setFlag off bit b s hbit hb, hne.symm]

end Sys2Proof.Machine
end

