-- ==== Sys2Proof/Proofs/ItemSources.lean ====
section
/-! What a write of ITM_SRC_CTL does (R591): the fields that the stored word keeps of the written one, the two outcomes, and what stands
between the row and the register. -/

namespace Sys2Proof.Machine

open Sys2Proof

/-! ## The stored word -/

/-- A mask with every bit of a field set leaves the field as it is. -/
theorem bits_and_of_covers (n m lo w : Nat) (h : bits m lo w = 2 ^ w - 1) : bits (n &&& m) lo w = bits n lo w := by
  unfold bits at h ⊢
  rw [Nat.shiftRight_and_distrib, Nat.and_mod_two_pow, h, Nat.and_two_pow_sub_one_eq_mod, Nat.mod_mod]

/-- A mask with a bit set leaves the bit of a word as it is. -/
theorem bitOf_and_of_covers (v : Word) (m i : Nat) (h : m.testBit i = true) : bitOf (v.toNat &&& m) i = v.getLsbD i := by
  rw [bitOf, Nat.testBit_and, h, Bool.and_true, BitVec.testBit_toNat]

/-! ## The two outcomes of the write -/

/-- A field of the word holds a value that R591 keeps from an enabled source. -/
abbrev ReservedSource (v : Word) : Prop := 5 ≤ bits v.toNat 8 3 ∨ bits v.toNat 11 2 = 3 ∨ bits v.toNat 13 2 = 3

/-- What a write that is taken leaves: the word without its RV bits, and where the enable rises no commit counted for the source. -/
def sourceTaken (n : Nat) (v : Word) (s : State) : State :=
  if v.getLsbD 0 = true ∧ srcEn s n = false then
    modPwr (fun p => { p with sourceCommits := modAt n (fun _ => 0) p.sourceCommits })
      (wr (Reg.itmSrcCtl.off n 0) (v.toNat &&& 0xFF1FFFFF) s)
  else wr (Reg.itmSrcCtl.off n 0) (v.toNat &&& 0xFF1FFFFF) s

@[simp] theorem sourceTaken_tasks (n : Nat) (v : Word) (s : State) : (sourceTaken n v s).tasks = s.tasks := by
  unfold sourceTaken
  split <;> rfl

@[simp] theorem sourceTaken_setPending (n : Nat) (v : Word) (q : List Instr) (s : State) :
    sourceTaken n v (setPending q s) = setPending q (sourceTaken n v s) := by
  unfold sourceTaken
  rw [← ite_setPending]
  rfl

/-- R591: the write is ignored, with its flag, where it would leave the source enabled with a reserved field, and is taken elsewhere. The RV
bits are none of the fields that it checks. -/
theorem writeSource_eq (n : Nat) (v : Word) (s : State) :
    writeSource n v s =
      if v.getLsbD 0 = true ∧ ReservedSource v then setFlag Reg.itmStatus.base 9 s else sourceTaken n v s := by
  have hen : bitOf (v.toNat &&& 0xFF1FFFFF) 0 = v.getLsbD 0 := bitOf_and_of_covers v _ 0 (by decide)
  have hpos : bits (v.toNat &&& 0xFF1FFFFF) 8 3 = bits v.toNat 8 3 := bits_and_of_covers _ _ 8 3 (by decide)
  have hdflt : bits (v.toNat &&& 0xFF1FFFFF) 11 2 = bits v.toNat 11 2 := bits_and_of_covers _ _ 11 2 (by decide)
  have hvoid : bits (v.toNat &&& 0xFF1FFFFF) 13 2 = bits v.toNat 13 2 := bits_and_of_covers _ _ 13 2 (by decide)
  simp [writeSource, sourceTaken, hen, hpos, hdflt, hvoid, or_assoc]

/-! ## The row -/

/-- The control register of every source is that register of the map. -/
theorem regAt_itmSrcCtl (n : Nat) (hn : n < 8) : regAt (Reg.itmSrcCtl.off n 0) = some Reg.itmSrcCtl := by
  decide +kernel +revert

/-- Either side may write the control register of a source whose block answers: it has no key (R559, R560). -/
theorem mayWrite_itmSrcCtl (w : Writer) (n : Nat) (v : Word) (s : State) (hn : n < 8)
    (hsilent : silent s (Reg.itmSrcCtl.off n 0) true = false) : MayWrite s w (Reg.itmSrcCtl.off n 0) v := by
  refine ⟨hsilent, ?_⟩
  rw [writable, regAt_itmSrcCtl n hn]
  rfl

/-- A write of a source whose block answers completes with what the register makes of it. -/
theorem itemSourceWrite_gives {w : Writer} {n : Nat} {v : Word} {s t : State} (hquiet : Quiet s) (hn : n < 8)
    (hsilent : silent s (Reg.itmSrcCtl.off n 0) true = false)
    (heffect : writeSource n v (setPending [] s) = setPending [] t) (htasks : t.tasks = s.tasks) :
    Gives (.itemSourceWrite w n v) s t := by
  refine run_gives _ s t ?_ (fun k hk => hquiet k (htasks ▸ hk))
  rw [if_pos hn, gate_pass_pending [] (mayWrite_itmSrcCtl w n v s hn hsilent), heffect]

/-- Settles O12: the row is its register write, and the write has two outcomes, told apart by the enable and the fields of the word. -/
theorem sourceWriteChecksFields : Obligations.SourceWriteChecksFields := by
  intro w n v s hquiet hn hsilent
  refine ⟨fun hen hreserved => ?ignored, fun hvalid => ?taken⟩
  case ignored =>
    refine itemSourceWrite_gives hquiet hn hsilent ?_ (setFlag_tasks _ _ s)
    rw [writeSource_eq, if_pos ⟨hen, hreserved⟩, setFlag_setPending]
  case taken =>
    have haccepted : ¬(v.getLsbD 0 = true ∧ ReservedSource v) := by
      rintro ⟨hen, hreserved⟩
      obtain hdisabled | ⟨hpos, hdflt, hvoid⟩ := hvalid
      · exact Bool.false_ne_true (hdisabled.symm.trans hen)
      · omega
    refine itemSourceWrite_gives (t := sourceTaken n v s) hquiet hn hsilent ?_ (sourceTaken_tasks n v s)
    rw [writeSource_eq, if_neg haccepted, sourceTaken_setPending]

end Sys2Proof.Machine
end

