-- ==== Sys2Proof/Proofs/Queue.lean ====
section
/-! Effects take no note of the queue of commands: each shared operation of the model leaves it as it is and reads nothing of it. -/

namespace Sys2Proof.Machine

open Sys2Proof

@[simp] theorem detMode_setPending (q : List Instr) (s : State) :
    detMode (setPending q s) = detMode s := (rfl)
@[simp] theorem placeOf_setPending (q : List Instr) (s : State) :
    placeOf (setPending q s) = placeOf s := (rfl)
@[simp] theorem ringEn_setPending (q : List Instr) (s : State) :
    ringEn (setPending q s) = ringEn s := (rfl)
@[simp] theorem winEn_setPending (q : List Instr) (s : State) :
    winEn (setPending q s) = winEn s := (rfl)
@[simp] theorem winBytes_setPending (q : List Instr) (s : State) :
    winBytes (setPending q s) = winBytes s := (rfl)
@[simp] theorem winCovers_setPending (q : List Instr) (s : State) :
    winCovers (setPending q s) = winCovers s := (rfl)
@[simp] theorem winWr_setPending (q : List Instr) (s : State) :
    winWr (setPending q s) = winWr s := (rfl)
@[simp] theorem hostCanWrite_setPending (q : List Instr) (s : State) :
    hostCanWrite (setPending q s) = hostCanWrite s := (rfl)
@[simp] theorem ringBase_setPending (q : List Instr) (s : State) :
    ringBase (setPending q s) = ringBase s := (rfl)
@[simp] theorem ringSize_setPending (q : List Instr) (s : State) :
    ringSize (setPending q s) = ringSize s := (rfl)
@[simp] theorem ringRefused_setPending (q : List Instr) (s : State) :
    ringRefused (setPending q s) = ringRefused s := (rfl)
@[simp] theorem ringRoom_setPending (q : List Instr) (s : State) :
    ringRoom (setPending q s) = ringRoom s := (rfl)
@[simp] theorem winBase_setPending (q : List Instr) (s : State) :
    winBase (setPending q s) = winBase s := (rfl)
@[simp] theorem hostAddr_setPending (q : List Instr) (s : State) :
    hostAddr (setPending q s) = hostAddr s := (rfl)
@[simp] theorem vecMasked_setPending (q : List Instr) (s : State) :
    vecMasked (setPending q s) = vecMasked s := (rfl)
@[simp] theorem wbAddr_setPending (q : List Instr) (s : State) :
    wbAddr (setPending q s) = wbAddr s := (rfl)
@[simp] theorem bankEvent_setPending (k : ℕ) (l : ℕ) (q : List Instr) (s : State) :
    bankEvent k l (setPending q s) = setPending q (bankEvent k l s) := by
  simp [bankEvent]
@[simp] theorem retireBank_setPending (l : ℕ) (q : List Instr) (s : State) :
    retireBank l (setPending q s) = setPending q (retireBank l s) := by
  simp [retireBank, ite_setPending]
@[simp] theorem runAt_setPending (q : List Instr) (s : State) :
    runAt (setPending q s) = runAt s := (rfl)
@[simp] theorem freeable_setPending (q : List Instr) (s : State) :
    freeable (setPending q s) = freeable s := (rfl)
@[simp] theorem hostGet_setPending (q : List Instr) (s : State) :
    hostGet (setPending q s) = hostGet s := (rfl)
@[simp] theorem coreOf_setPending (q : List Instr) (s : State) :
    coreOf (setPending q s) = coreOf s := (rfl)
@[simp] theorem taskOf_setPending (q : List Instr) (s : State) :
    taskOf (setPending q s) = taskOf s := (rfl)
@[simp] theorem progOf_setPending (q : List Instr) (s : State) :
    progOf (setPending q s) = progOf s := (rfl)
@[simp] theorem decoding_setPending (q : List Instr) (s : State) :
    decoding (setPending q s) = decoding s := (rfl)
@[simp] theorem nextStamp_setPending (q : List Instr) (s : State) :
    nextStamp (setPending q s) = ((nextStamp s).1, setPending q (nextStamp s).2) := rfl
@[simp] theorem makeReady_setPending (t : TaskId) (q : List Instr) (s : State) :
    makeReady t (setPending q s) = setPending q (makeReady t s) := rfl
@[simp] theorem wake_setPending (t : TaskId) (q : List Instr) (s : State) :
    wake t (setPending q s) = setPending q (wake t s) := by
  unfold wake
  simp [ite_setPending]
  (repeat' split) <;> simp
@[simp] theorem completeN_setPending (x : Issue) (n : ℕ) (g : TaskRegs → TaskRegs) (q : List Instr) (s : State) :
    completeN x n g (setPending q s) = setPending q (completeN x n g s) := rfl
@[simp] theorem complete_setPending (x : Issue) (g : TaskRegs → TaskRegs) (q : List Instr) (s : State) :
    complete x g (setPending q s) = setPending q (complete x g s) := rfl
@[simp] theorem beginCtlNop_setPending (x : Issue) (q : List Instr) (s : State) :
    beginCtlNop x (setPending q s) = setPending q (beginCtlNop x s) := rfl
@[simp] theorem beginCtlAlu_setPending (x : Issue) (q : List Instr) (s : State) :
    beginCtlAlu x (setPending q s) = setPending q (beginCtlAlu x s) := rfl
@[simp] theorem beginCtlAlui_setPending (x : Issue) (q : List Instr) (s : State) :
    beginCtlAlui x (setPending q s) = setPending q (beginCtlAlui x s) := rfl
@[simp] theorem beginCtlLi_setPending (x : Issue) (q : List Instr) (s : State) :
    beginCtlLi x (setPending q s) = setPending q (beginCtlLi x s) := rfl
@[simp] theorem beginCtlAmov_setPending (x : Issue) (q : List Instr) (s : State) :
    beginCtlAmov x (setPending q s) = setPending q (beginCtlAmov x s) := rfl
@[simp] theorem beginCtlCmp_setPending (x : Issue) (q : List Instr) (s : State) :
    beginCtlCmp x (setPending q s) = setPending q (beginCtlCmp x s) := rfl
@[simp] theorem beginCtlPop_setPending (x : Issue) (q : List Instr) (s : State) :
    beginCtlPop x (setPending q s) = setPending q (beginCtlPop x s) := rfl
@[simp] theorem completeAt_setPending (x : Issue) (target : ℕ) (g : TaskRegs → TaskRegs) (q : List Instr) (s : State) :
    completeAt x target g (setPending q s) = setPending q (completeAt x target g s) := rfl
@[simp] theorem beginCtlBr_setPending (x : Issue) (q : List Instr) (s : State) :
    beginCtlBr x (setPending q s) = setPending q (beginCtlBr x s) := rfl
@[simp] theorem freeBits_setPending (w : ℕ) (q : List Instr) (s : State) :
    freeBits w (setPending q s) = ((freeBits w s).1, setPending q (freeBits w s).2) := rfl
@[simp] theorem freeCore_setPending (n : ℕ) (q : List Instr) (s : State) :
    freeCore n (setPending q s) = setPending q (freeCore n s) := rfl
@[simp] theorem leaveCore_setPending (t : TaskId) (q : List Instr) (s : State) :
    leaveCore t (setPending q s) = setPending q (leaveCore t s) := by
  unfold leaveCore
  simp
  (repeat' split) <;> simp
@[simp] theorem dropFrags_setPending (t : TaskId) (q : List Instr) (s : State) :
    dropFrags t (setPending q s) = setPending q (dropFrags t s) := rfl
@[simp] theorem tokOf_setPending (q : List Instr) (s : State) :
    tokOf (setPending q s) = tokOf s := (rfl)
@[simp] theorem modTok_setPending (h : ℕ) (i : ℕ) (f : Token → Token) (q : List Instr) (s : State) :
    modTok h i f (setPending q s) = setPending q (modTok h i f s) := rfl
@[simp] theorem forgetWait_setPending (t : TaskId) (w : Wait) (q : List Instr) (s : State) :
    forgetWait t w (setPending q s) = setPending q (forgetWait t w s) := by
  unfold forgetWait
  split <;> rfl
@[simp] theorem faultDue_setPending (t : TaskId) (since : ℕ) (status : ℕ) (q' : ℕ) (word : ℕ) (q : List Instr) (s : State) :
    faultDue t since status q' word (setPending q s) = setPending q (faultDue t since status q' word s) := by
  unfold faultDue
  simp
  split <;> simp [foldl_setPending]
@[simp] theorem failWait_setPending (t : TaskId) (sel : Wait → Bool) (status : ℕ) (q : List Instr) (s : State) :
    failWait t sel status (setPending q s) = setPending q (failWait t sel status s) := by
  unfold failWait
  simp
  split <;> simp
@[simp] theorem takeFault_setPending (t : TaskId) (tok : ℕ) (item : Option Word) (latch : ℕ) (q : List Instr) (s : State) :
    takeFault t tok item latch (setPending q s) = setPending q (takeFault t tok item latch s) := by
  unfold takeFault
  simp
  (repeat' split) <;> simp
@[simp] theorem notFresh_setPending (t : TaskId) (q : List Instr) (s : State) :
    notFresh t (setPending q s) = setPending q (notFresh t s) := by
  unfold notFresh
  simp
  split <;> simp
@[simp] theorem finishWait_setPending (t : TaskId) (sel : Wait → Bool) (g : TaskRegs → TaskRegs) (es : List RecEntry) (q : List Instr) (s : State) :
    finishWait t sel g es (setPending q s) = setPending q (finishWait t sel g es s) := by
  simp [finishWait]
@[simp] theorem takeDone_setPending (t : TaskId) (tok : ℕ) (item : Option Word) (latch : ℕ) (q : List Instr) (s : State) :
    takeDone t tok item latch (setPending q s) = setPending q (takeDone t tok item latch s) := by
  unfold takeDone
  simp
  (repeat' split) <;> simp
@[simp] theorem lowWater_setPending (h : ℕ) (i : ℕ) (q : List Instr) (s : State) :
    lowWater h i (setPending q s) = setPending q (lowWater h i s) := by
  unfold lowWater
  simp
  split <;> simp [ite_setPending, foldl_setPending]
@[simp] theorem serveOne_setPending (h : ℕ) (i : ℕ) (q : List Instr) (s : State) :
    serveOne h i (setPending q s) = (serveOne h i s).map (setPending q) := by
  unfold serveOne
  simp
  (repeat' split) <;> simp
@[simp] theorem sigDone_setPending (who : Option Waiter) (tok : ℕ) (item : Word) (counted : Bool) (q : List Instr) (s : State) :
    sigDone who tok item counted (setPending q s) = setPending q (sigDone who tok item counted s) := by
  unfold sigDone
  split <;> simp
@[simp] theorem sigFault_setPending (who : Option Waiter) (tok : ℕ) (item : Word) (q : List Instr) (s : State) :
    sigFault who tok item (setPending q s) = setPending q (sigFault who tok item s) := by
  unfold sigFault
  split <;> simp
@[simp] theorem itemOf_setPending (q : List Instr) (s : State) :
    itemOf (setPending q s) = itemOf s := (rfl)
@[simp] theorem rasLast_setPending (cls : ℕ) (unit : ℕ) (status : ℕ) (q : List Instr) (s : State) :
    rasLast cls unit status (setPending q s) = setPending q (rasLast cls unit status s) := rfl
@[simp] theorem noteRestart_setPending (cls : ℕ) (core : ℕ) (q : List Instr) (s : State) :
    noteRestart cls core (setPending q s) = setPending q (noteRestart cls core s) := by
  simp [noteRestart]
@[simp] theorem srcCtl_setPending (q : List Instr) (s : State) :
    srcCtl (setPending q s) = srcCtl s := (rfl)
@[simp] theorem srcProg_setPending (q : List Instr) (s : State) :
    srcProg (setPending q s) = srcProg s := (rfl)
@[simp] theorem itemIssued_setPending (q : List Instr) (s : State) :
    itemIssued (setPending q s) = itemIssued s := (rfl)
@[simp] theorem modItem_setPending (id : Word) (f : Item → Item) (q : List Instr) (s : State) :
    modItem id f (setPending q s) = setPending q (modItem id f s) := rfl
@[simp] theorem attach_setPending (id : Word) (kind : ℕ) (key : ℕ) (origin : ℕ) (payload : List Byte) (pend : Option TaskId) (issuer : TaskId) (q : List Instr) (s : State) :
    attach id kind key origin payload pend issuer (setPending q s) = ((attach id kind key origin payload pend issuer s).1, setPending q (attach id kind key origin payload pend issuer s).2) := by
  unfold attach
  simp [ite_setPending]
  (repeat' split) <;> simp
@[simp] theorem attachDevice_setPending (id : Word) (kind : ℕ) (key : ℕ) (origin : ℕ) (payload : List Byte) (q : List Instr) (s : State) :
    attachDevice id kind key origin payload (setPending q s) = setPending q (attachDevice id kind key origin payload s) := by
  simp [attachDevice]
@[simp] theorem voidSample_setPending (c : ℕ) (item : Word) (payload : List Byte) (q : List Instr) (s : State) :
    voidSample c item payload (setPending q s) = setPending q (voidSample c item payload s) := by
  simp [voidSample]
@[simp] theorem voidReserved_setPending (id : Word) (q : List Instr) (s : State) :
    voidReserved id (setPending q s) = setPending q (voidReserved id s) := by
  simp [voidReserved, foldl_setPending]
@[simp] theorem openFrameOf_setPending (q : List Instr) (s : State) :
    openFrameOf (setPending q s) = openFrameOf s := (rfl)
@[simp] theorem portCtl_setPending (q : List Instr) (s : State) :
    portCtl (setPending q s) = portCtl s := (rfl)
@[simp] theorem ganged_setPending (q : List Instr) (s : State) :
    ganged (setPending q s) = ganged s := (rfl)
@[simp] theorem routeOf_setPending (q : List Instr) (s : State) :
    routeOf (setPending q s) = routeOf s := (rfl)
@[simp] theorem pipeOf_setPending (q : List Instr) (s : State) :
    pipeOf (setPending q s) = pipeOf s := (rfl)
@[simp] theorem ctxOf_setPending (q : List Instr) (s : State) :
    ctxOf (setPending q s) = ctxOf s := (rfl)
@[simp] theorem openSamples_setPending (q : List Instr) (s : State) :
    openSamples (setPending q s) = openSamples s := (rfl)
@[simp] theorem copyPos_setPending (q : List Instr) (s : State) :
    copyPos (setPending q s) = copyPos s := (rfl)
@[simp] theorem takeClosed_setPending (t : TaskId) (tok : ℕ) (item : Option Word) (q : List Instr) (s : State) :
    takeClosed t tok item (setPending q s) = setPending q (takeClosed t tok item s) := by
  unfold takeClosed
  simp
  (repeat' split) <;> simp
@[simp] theorem modOpen_setPending (p : ℕ) (f : Frame → Frame) (q : List Instr) (s : State) :
    modOpen p f (setPending q s) = setPending q (modOpen p f s) := rfl
@[simp] theorem flagFrame_setPending (p : ℕ) (flag : ℕ) (q : List Instr) (s : State) :
    flagFrame p flag (setPending q s) = setPending q (flagFrame p flag s) := by
  unfold flagFrame
  simp
  (repeat' split) <;> simp
@[simp] theorem framePayload_setPending (q : List Instr) (s : State) :
    framePayload (setPending q s) = framePayload s := (rfl)
@[simp] theorem spoilRef_setPending (p : ℕ) (f : Frame) (q : List Instr) (s : State) :
    spoilRef p f (setPending q s) = setPending q (spoilRef p f s) := by
  simp [spoilRef, ite_setPending]
@[simp] theorem dropRequests_setPending (p : ℕ) (item : Word) (q : List Instr) (s : State) :
    dropRequests p item (setPending q s) = setPending q (dropRequests p item s) := rfl
@[simp] theorem startFrame_setPending (p : ℕ) (overlap : Bool) (f : Frame) (q : List Instr) (s : State) :
    startFrame p overlap f (setPending q s) = setPending q (startFrame p overlap f s) := by
  simp [startFrame, ite_setPending]
@[simp] theorem openWaiting_setPending (p : ℕ) (q : List Instr) (s : State) :
    openWaiting p (setPending q s) = setPending q (openWaiting p s) := by
  unfold openWaiting
  simp
  (repeat' split) <;> simp
@[simp] theorem portCount_setPending (p : ℕ) (i : ℕ) (n : ℕ) (q : List Instr) (s : State) :
    portCount p i n (setPending q s) = setPending q (portCount p i n s) := rfl
@[simp] theorem closeFrame_setPending (p : ℕ) (flags : List ℕ) (fragment : Bool) (q : List Instr) (s : State) :
    closeFrame p flags fragment (setPending q s) = setPending q (closeFrame p flags fragment s) := by
  unfold closeFrame
  simp
  split <;> simp [ite_setPending, foldl_setPending]
@[simp] theorem srcOut_setPending (q : List Instr) (s : State) :
    srcOut (setPending q s) = srcOut s := (rfl)
@[simp] theorem defaultFire_setPending (q : List Instr) (s : State) :
    defaultFire (setPending q s) = defaultFire s := (rfl)
@[simp] theorem loadedProg_setPending (q : List Instr) (s : State) :
    loadedProg (setPending q s) = loadedProg s := (rfl)
@[simp] theorem settleFrags_setPending (t : TaskId) (q : List Instr) (s : State) :
    settleFrags t (setPending q s) = setPending q (settleFrags t s) := rfl
@[simp] theorem dropClaim_setPending (t : TaskId) (q : List Instr) (s : State) :
    dropClaim t (setPending q s) = setPending q (dropClaim t s) := rfl
@[simp] theorem stopEvent_setPending (h : ℕ) (tmpl : ℕ) (inst : ℕ) (core : ℕ) (word : ℕ) (status : ℕ) (q : List Instr) (s : State) :
    stopEvent h tmpl inst core word status (setPending q s) = setPending q (stopEvent h tmpl inst core word status s) := by
  simp [stopEvent]
@[simp] theorem devGet_setPending (q : List Instr) (s : State) :
    devGet (setPending q s) = devGet s := (rfl)
@[simp] theorem devLe_setPending (q : List Instr) (s : State) :
    devLe (setPending q s) = devLe s := (rfl)
@[simp] theorem sizeAt_setPending (q : List Instr) (s : State) :
    sizeAt (setPending q s) = sizeAt s := (rfl)
@[simp] theorem claimOf_setPending (q : List Instr) (s : State) :
    claimOf (setPending q s) = claimOf s := (rfl)
@[simp] theorem idleCore_setPending (q : List Instr) (s : State) :
    idleCore (setPending q s) = idleCore s := (rfl)
@[simp] theorem activeCores_setPending (q : List Instr) (s : State) :
    activeCores (setPending q s) = activeCores s := (rfl)
@[simp] theorem rankedCores_setPending (q : List Instr) (s : State) :
    rankedCores (setPending q s) = rankedCores s := (rfl)
@[simp] theorem homeCore_setPending (q : List Instr) (s : State) :
    homeCore (setPending q s) = homeCore s := (rfl)
@[simp] theorem mayRun_setPending (q : List Instr) (s : State) :
    mayRun (setPending q s) = mayRun s := (rfl)
@[simp] theorem idleFor_setPending (q : List Instr) (s : State) :
    idleFor (setPending q s) = idleFor s := (rfl)
@[simp] theorem readyTasks_setPending (q : List Instr) (s : State) :
    readyTasks (setPending q s) = readyTasks s := (rfl)
@[simp] theorem tileEcc_setPending (n : ℕ) (t : TaskId) (h : EccHit) (q : List Instr) (s : State) :
    tileEcc n t h (setPending q s) = setPending q (tileEcc n t h s) := by
  simp [tileEcc, ite_setPending]
@[simp] theorem readLive_setPending (n : ℕ) (t : TaskId) (ecc : List EccHit) (q : List Instr) (s : State) :
    readLive n t ecc (setPending q s) = setPending q (readLive n t ecc s) := by
  unfold readLive
  simp
  split <;> simp [foldl_setPending]
@[simp] theorem tbLimitHit_setPending (q : List Instr) (s : State) :
    tbLimitHit (setPending q s) = tbLimitHit s := (rfl)
@[simp] theorem spareCore_setPending (q : List Instr) (s : State) :
    spareCore (setPending q s) = spareCore s := (rfl)
@[simp] theorem takeFree_setPending (n : ℕ) (q : List Instr) (s : State) :
    takeFree n (setPending q s) = ((takeFree n s).1, setPending q (takeFree n s).2) := rfl
@[simp] theorem checkpoint_setPending (t : TaskId) (q : List Instr) (s : State) :
    checkpoint t (setPending q s) = setPending q (checkpoint t s) := rfl
@[simp] theorem beginCtlSys_setPending (x : Issue) (q : List Instr) (s : State) :
    beginCtlSys x (setPending q s) = setPending q (beginCtlSys x s) := rfl
@[simp] theorem partEn_setPending (q : List Instr) (s : State) :
    partEn (setPending q s) = partEn s := (rfl)
@[simp] theorem quotaOf_setPending (q : List Instr) (s : State) :
    quotaOf (setPending q s) = quotaOf s := (rfl)
@[simp] theorem partUse_setPending (q : List Instr) (s : State) :
    partUse (setPending q s) = partUse s := (rfl)
@[simp] theorem zeroGranules_setPending (base : ℕ) (n : ℕ) (q : List Instr) (s : State) :
    zeroGranules base n (setPending q s) = setPending q (zeroGranules base n s) := rfl
@[simp] theorem record_setPending (t : TaskId) (e : RecEntry) (q : List Instr) (s : State) :
    record t e (setPending q s) = setPending q (record t e s) := rfl
@[simp] theorem freeGran_setPending (b : ℕ) (n : ℕ) (q : List Instr) (s : State) :
    freeGran b n (setPending q s) = setPending q (freeGran b n s) := rfl
@[simp] theorem allocated_setPending (q : List Instr) (s : State) :
    allocated (setPending q s) = allocated s := (rfl)
@[simp] theorem transferOf_setPending (x : Issue) (writes : Bool) (q : List Instr) (s : State) :
    transferOf x writes (setPending q s) = transferOf x writes s := (rfl)
@[simp] theorem noteUnmapped_setPending (q : List Instr) (s : State) :
    noteUnmapped (setPending q s) = setPending q (noteUnmapped s) := rfl
@[simp] theorem noteUncorrectable_setPending (w : ℕ) (scrub : Bool) (q : List Instr) (s : State) :
    noteUncorrectable w scrub (setPending q s) = setPending q (noteUncorrectable w scrub s) := by
  simp [noteUncorrectable, ite_setPending]
@[simp] theorem noteCorrected_setPending (w : ℕ) (q : List Instr) (s : State) :
    noteCorrected w (setPending q s) = setPending q (noteCorrected w s) := by
  simp [noteCorrected, ite_setPending]
@[simp] theorem applyEcc_setPending (touched : ℕ → Bool) (scrub : Bool) (ecc : List EccHit) (q : List Instr) (s : State) :
    applyEcc touched scrub ecc (setPending q s) = setPending q (applyEcc touched scrub ecc s) := by
  simp [applyEcc, ite_setPending, foldl_setPending]
@[simp] theorem readMem_setPending (a0 : ℕ) (n : ℕ) (ecc : List EccHit) (q : List Instr) (s : State) :
    readMem a0 n ecc (setPending q s) = ((readMem a0 n ecc s).1, setPending q (readMem a0 n ecc s).2) := by
  unfold readMem
  simp
  split <;> simp
@[simp] theorem writeHits_setPending (x : Issue) (runs : List (ℕ × ℕ)) (q : List Instr) (s : State) :
    writeHits x runs (setPending q s) = ((writeHits x runs s).1, setPending q (writeHits x runs s).2) := by
  simp [writeHits, foldl_setPending]
@[simp] theorem readTile_setPending (x : Issue) (runs : List (ℕ × ℕ)) (q : List Instr) (s : State) :
    readTile x runs (setPending q s) = ((readTile x runs s).1, setPending q (readTile x runs s).2) := by
  simp [readTile, foldl_setPending]
@[simp] theorem writeLine_setPending (a0 : ℕ) (bs : List Byte) (ecc : List EccHit) (q : List Instr) (s : State) :
    writeLine a0 bs ecc (setPending q s) = ((writeLine a0 bs ecc s).1, setPending q (writeLine a0 bs ecc s).2) := by
  unfold writeLine
  simp
  split <;> simp
@[simp] theorem completePass_setPending (x : Issue) (rows : ℕ) (g : TaskRegs → TaskRegs) (q : List Instr) (s : State) :
    completePass x rows g (setPending q s) = setPending q (completePass x rows g s) := rfl
@[simp] theorem beginVecAlu_setPending (x : Issue) (q : List Instr) (s : State) :
    beginVecAlu x (setPending q s) = setPending q (beginVecAlu x s) := rfl
@[simp] theorem beginVecFma_setPending (x : Issue) (q : List Instr) (s : State) :
    beginVecFma x (setPending q s) = setPending q (beginVecFma x s) := rfl
@[simp] theorem beginVecCmp_setPending (x : Issue) (q : List Instr) (s : State) :
    beginVecCmp x (setPending q s) = setPending q (beginVecCmp x s) := rfl
@[simp] theorem beginVecSel_setPending (x : Issue) (q : List Instr) (s : State) :
    beginVecSel x (setPending q s) = setPending q (beginVecSel x s) := rfl
@[simp] theorem beginVecRed_setPending (x : Issue) (q : List Instr) (s : State) :
    beginVecRed x (setPending q s) = setPending q (beginVecRed x s) := by
  simp [beginVecRed, ite_setPending]
@[simp] theorem beginVecFn_setPending (x : Issue) (q : List Instr) (s : State) :
    beginVecFn x (setPending q s) = setPending q (beginVecFn x s) := rfl
@[simp] theorem beginVecPerm_setPending (x : Issue) (q : List Instr) (s : State) :
    beginVecPerm x (setPending q s) = setPending q (beginVecPerm x s) := rfl
@[simp] theorem beginVecDup_setPending (x : Issue) (q : List Instr) (s : State) :
    beginVecDup x (setPending q s) = setPending q (beginVecDup x s) := rfl
@[simp] theorem beginVecExt_setPending (x : Issue) (q : List Instr) (s : State) :
    beginVecExt x (setPending q s) = setPending q (beginVecExt x s) := rfl
@[simp] theorem jobsToMatch_setPending (q : List Instr) (s : State) :
    jobsToMatch (setPending q s) = jobsToMatch s := (rfl)
@[simp] theorem jobTokenOk_setPending (q : List Instr) (s : State) :
    jobTokenOk (setPending q s) = jobTokenOk s := (rfl)
@[simp] theorem periodicJobs_setPending (q : List Instr) (s : State) :
    periodicJobs (setPending q s) = periodicJobs s := (rfl)
@[simp] theorem jobsInUse_setPending (q : List Instr) (s : State) :
    jobsInUse (setPending q s) = jobsInUse s := (rfl)
@[simp] theorem beginWait_setPending (x : Issue) (q' : ℕ) (w : Wait) (q : List Instr) (s : State) :
    beginWait x q' w (setPending q s) = setPending q (beginWait x q' w s) := by
  simp [beginWait, ite_setPending]
@[simp] theorem queueJob_setPending (kind : ℕ) (desc : List Byte) (t : TaskId) (part : ℕ) (q : List Instr) (s : State) :
    queueJob kind desc t part (setPending q s) = setPending q (queueJob kind desc t part s) := rfl
@[simp] theorem itemEnded_setPending (q : List Instr) (s : State) :
    itemEnded (setPending q s) = itemEnded s := (rfl)
@[simp] theorem matchSignal_setPending (t : TaskId) (q : List Instr) (s : State) :
    matchSignal t (setPending q s) = (matchSignal t s).map (setPending q) := by
  unfold matchSignal
  simp
  (repeat' split) <;> simp
@[simp] theorem beginTokTry_setPending (x : Issue) (q : List Instr) (s : State) :
    beginTokTry x (setPending q s) = setPending q (beginTokTry x s) := rfl
@[simp] theorem leadOf_setPending (q : List Instr) (s : State) :
    leadOf (setPending q s) = leadOf s := (rfl)
@[simp] theorem copySpeed_setPending (q : List Instr) (s : State) :
    copySpeed (setPending q s) = copySpeed s := (rfl)
@[simp] theorem fireLate_setPending (q : List Instr) (s : State) :
    fireLate (setPending q s) = fireLate s := (rfl)
@[simp] theorem coreFreq_setPending (q : List Instr) (s : State) :
    coreFreq (setPending q s) = coreFreq s := (rfl)
@[simp] theorem noteCommit_setPending (i : Item) (q : List Instr) (s : State) :
    noteCommit i (setPending q s) = setPending q (noteCommit i s) := by
  unfold noteCommit
  split <;> rfl
@[simp] theorem beginItmGet_setPending (x : Issue) (q : List Instr) (s : State) :
    beginItmGet x (setPending q s) = setPending q (beginItmGet x s) := rfl
@[simp] theorem kvTarget_setPending (q : List Instr) (s : State) :
    kvTarget (setPending q s) = kvTarget s := (rfl)
@[simp] theorem kvBlk_setPending (q : List Instr) (s : State) :
    kvBlk (setPending q s) = kvBlk s := (rfl)
@[simp] theorem kvTargetBlocks_setPending (q : List Instr) (s : State) :
    kvTargetBlocks (setPending q s) = kvTargetBlocks s := (rfl)
@[simp] theorem clientOf_setPending (q : List Instr) (s : State) :
    clientOf (setPending q s) = clientOf s := (rfl)
@[simp] theorem freeSeqId_setPending (q : List Instr) (s : State) :
    freeSeqId (setPending q s) = freeSeqId s := (rfl)
@[simp] theorem modClient_setPending (c : ℕ) (f : SqmClient → SqmClient) (q : List Instr) (s : State) :
    modClient c f (setPending q s) = setPending q (modClient c f s) := rfl
@[simp] theorem arm_setPending (c : ℕ) (q : List Instr) (s : State) :
    arm c (setPending q s) = setPending q (arm c s) := rfl
@[simp] theorem queueJoin_setPending (p : Program) (c : ℕ) (id : ℕ) (item : Word) (max : ℕ) (tag : ℕ) (q : List Instr) (s : State) :
    queueJoin p c id item max tag (setPending q s) = setPending q (queueJoin p c id item max tag s) := rfl
@[simp] theorem timInc_setPending (q : List Instr) (s : State) :
    timInc (setPending q s) = timInc s := (rfl)
@[simp] theorem settleInc_setPending (q : List Instr) (s : State) :
    settleInc (setPending q s) = setPending q (settleInc s) := rfl
@[simp] theorem writeTimIncHi_setPending (v : Word) (q : List Instr) (s : State) :
    writeTimIncHi v (setPending q s) = setPending q (writeTimIncHi v s) := rfl
@[simp] theorem entryOf_setPending (q : List Instr) (s : State) :
    entryOf (setPending q s) = entryOf s := (rfl)
@[simp] theorem modEntry_setPending (e : ℕ) (f : KerbEntry → KerbEntry) (q : List Instr) (s : State) :
    modEntry e f (setPending q s) = setPending q (modEntry e f s) := rfl
@[simp] theorem trainsLeft_setPending (q : List Instr) (s : State) :
    trainsLeft (setPending q s) = trainsLeft s := (rfl)
@[simp] theorem outstanding_setPending (q : List Instr) (s : State) :
    outstanding (setPending q s) = outstanding s := (rfl)
@[simp] theorem auxRefused_setPending (q : List Instr) (s : State) :
    auxRefused (setPending q s) = auxRefused s := (rfl)
@[simp] theorem endFrames_setPending (p : ℕ) (flags : List ℕ) (q : List Instr) (s : State) :
    endFrames p flags (setPending q s) = setPending q (endFrames p flags s) := by
  simp [endFrames]
@[simp] theorem coreUp_setPending (q : List Instr) (s : State) :
    coreUp (setPending q s) = coreUp s := (rfl)
@[simp] theorem gangHalf_setPending (q : List Instr) (s : State) :
    gangHalf (setPending q s) = gangHalf s := (rfl)
@[simp] theorem portUp_setPending (q : List Instr) (s : State) :
    portUp (setPending q s) = portUp s := (rfl)
@[simp] theorem markGated_setPending (p : ℕ) (i : Item) (q : List Instr) (s : State) :
    markGated p i (setPending q s) = setPending q (markGated p i s) := rfl
@[simp] theorem windowOver_setPending (q : List Instr) (s : State) :
    windowOver (setPending q s) = windowOver s := (rfl)
@[simp] theorem gateStart_setPending (q : List Instr) (s : State) :
    gateStart (setPending q s) = gateStart s := (rfl)
@[simp] theorem gateDue_setPending (q : List Instr) (s : State) :
    gateDue (setPending q s) = gateDue s := (rfl)
@[simp] theorem oldestId_setPending (q : List Instr) (s : State) :
    oldestId (setPending q s) = oldestId s := (rfl)
@[simp] theorem ovfBase_setPending (q : List Instr) (s : State) :
    ovfBase (setPending q s) = ovfBase s := (rfl)
@[simp] theorem ovfPast_setPending (q : List Instr) (s : State) :
    ovfPast (setPending q s) = ovfPast s := (rfl)
@[simp] theorem ovfCap_setPending (q : List Instr) (s : State) :
    ovfCap (setPending q s) = ovfCap s := (rfl)
@[simp] theorem runningOn_setPending (q : List Instr) (s : State) :
    runningOn (setPending q s) = runningOn s := (rfl)
@[simp] theorem unitUp_setPending (q : List Instr) (s : State) :
    unitUp (setPending q s) = unitUp s := (rfl)
@[simp] theorem blvUp_setPending (q : List Instr) (s : State) :
    blvUp (setPending q s) = blvUp s := (rfl)
@[simp] theorem blvOf_setPending (q : List Instr) (s : State) :
    blvOf (setPending q s) = blvOf s := (rfl)
@[simp] theorem dmaStands_setPending (q : List Instr) (s : State) :
    dmaStands (setPending q s) = dmaStands s := (rfl)
@[simp] theorem memAwake_setPending (q : List Instr) (s : State) :
    memAwake (setPending q s) = memAwake s := (rfl)
@[simp] theorem peerBytes_setPending (q : List Instr) (s : State) :
    peerBytes (setPending q s) = peerBytes s := (rfl)
@[simp] theorem peerMapped_setPending (q : List Instr) (s : State) :
    peerMapped (setPending q s) = peerMapped s := (rfl)
@[simp] theorem mapped_setPending (q : List Instr) (s : State) :
    mapped (setPending q s) = mapped s := (rfl)
@[simp] theorem refuseAt_setPending (a0 : ℕ) (q : List Instr) (s : State) :
    refuseAt a0 (setPending q s) = setPending q (refuseAt a0 s) := by
  simp [refuseAt, ite_setPending]
@[simp] theorem modBlv_setPending (p : ℕ) (f : Blv → Blv) (q : List Instr) (s : State) :
    modBlv p f (setPending q s) = setPending q (modBlv p f s) := rfl
@[simp] theorem blvIdle_setPending (q : List Instr) (s : State) :
    blvIdle (setPending q s) = blvIdle s := (rfl)
@[simp] theorem blvCompat_setPending (q : List Instr) (s : State) :
    blvCompat (setPending q s) = blvCompat s := (rfl)
@[simp] theorem blvWake_setPending (p : ℕ) (send : Bool) (q : List Instr) (s : State) :
    blvWake p send (setPending q s) = setPending q (blvWake p send s) := by
  simp [blvWake, ite_setPending]
@[simp] theorem burst_setPending (p : ℕ) (q : List Instr) (s : State) :
    burst p (setPending q s) = setPending q (burst p s) := by
  simp [burst, ite_setPending]
@[simp] theorem noteOrdering_setPending (a0 : ℕ) (n : ℕ) (q : List Instr) (s : State) :
    noteOrdering a0 n (setPending q s) = setPending q (noteOrdering a0 n s) := by
  simp [noteOrdering, ite_setPending]
@[simp] theorem modRunning_setPending (kind : ℕ) (eng : ℕ) (f : Running → Running) (q : List Instr) (s : State) :
    modRunning kind eng f (setPending q s) = setPending q (modRunning kind eng f s) := rfl
@[simp] theorem jobDone_setPending (kind : ℕ) (eng : ℕ) (status : ℕ) (q : List Instr) (s : State) :
    jobDone kind eng status (setPending q s) = setPending q (jobDone kind eng status s) := rfl
@[simp] theorem pointsBytes_setPending (q : List Instr) (s : State) :
    pointsBytes (setPending q s) = pointsBytes s := (rfl)
@[simp] theorem encOf_setPending (q : List Instr) (s : State) :
    encOf (setPending q s) = encOf s := (rfl)
@[simp] theorem fieldPos_setPending (q : List Instr) (s : State) :
    fieldPos (setPending q s) = fieldPos s := (rfl)
@[simp] theorem dioCfg_setPending (q : List Instr) (s : State) :
    dioCfg (setPending q s) = dioCfg s := (rfl)
@[simp] theorem dioEnc_setPending (q : List Instr) (s : State) :
    dioEnc (setPending q s) = dioEnc s := (rfl)
@[simp] theorem chanPos_setPending (q : List Instr) (s : State) :
    chanPos (setPending q s) = chanPos s := (rfl)
@[simp] theorem governed_setPending (n : ℕ) (limit : ℕ) (q : List Instr) (s : State) :
    governed n limit (setPending q s) = setPending q (governed n limit s) := by
  simp [governed]
@[simp] theorem writeTimIncLo_setPending (v : Word) (q : List Instr) (s : State) :
    writeTimIncLo v (setPending q s) = setPending q (writeTimIncLo v s) := rfl
@[simp] theorem checkOf_setPending (q : List Instr) (s : State) :
    checkOf (setPending q s) = checkOf s := (rfl)
@[simp] theorem beginStretch_setPending (q : List Instr) (s : State) :
    beginStretch (setPending q s) = setPending q (beginStretch s) := by
  unfold beginStretch
  rw [← ite_setPending]
  rfl
@[simp] theorem openCount_setPending (q : List Instr) (s : State) :
    openCount (setPending q s) = openCount s := (rfl)
@[simp] theorem wideUp_setPending (q : List Instr) (s : State) :
    wideUp (setPending q s) = wideUp s := (rfl)
@[simp] theorem membersOf_setPending (q : List Instr) (s : State) :
    membersOf (setPending q s) = membersOf s := (rfl)
@[simp] theorem bootState_setPending (q : List Instr) (s : State) :
    bootState (setPending q s) = bootState s := (rfl)
@[simp] theorem fwUp_setPending (q : List Instr) (s : State) :
    fwUp (setPending q s) = fwUp s := (rfl)
@[simp] theorem cpUp_setPending (q : List Instr) (s : State) :
    cpUp (setPending q s) = cpUp s := (rfl)
@[simp] theorem loaderBusy_setPending (q : List Instr) (s : State) :
    loaderBusy (setPending q s) = loaderBusy s := (rfl)
@[simp] theorem turn_setPending (q : List Instr) (s : State) :
    turn (setPending q s) = turn s := (rfl)
@[simp] theorem nextSub_setPending (sel : Submission → Bool) (q : List Instr) (s : State) :
    nextSub sel (setPending q s) = nextSub sel s := (rfl)
@[simp] theorem completeSub_setPending (op : ℕ) (tag : Word) (status : ℕ) (data : List Byte) (q : List Instr) (s : State) :
    completeSub op tag status data (setPending q s) = setPending q (completeSub op tag status data s) := by
  simp [completeSub, ite_setPending]
@[simp] theorem dropSub_setPending (e : Submission) (status : ℕ) (data : List Byte) (q : List Instr) (s : State) :
    dropSub e status data (setPending q s) = setPending q (dropSub e status data s) := by
  simp [dropSub]
@[simp] theorem anyLoaded_setPending (q : List Instr) (s : State) :
    anyLoaded (setPending q s) = anyLoaded s := (rfl)
@[simp] theorem awake_setPending (q : List Instr) (s : State) :
    awake (setPending q s) = awake s := (rfl)
@[simp] theorem coreClock_setPending (q : List Instr) (s : State) :
    coreClock (setPending q s) = coreClock s := (rfl)
@[simp] theorem switchClock_setPending (n : ℕ) (f : ℕ) (q : List Instr) (s : State) :
    switchClock n f (setPending q s) = setPending q (switchClock n f s) := by
  unfold switchClock
  rw [← ite_setPending]
  rfl
@[simp] theorem setPoint_setPending (n : ℕ) (f : ℕ) (v : ℕ) (q : List Instr) (s : State) :
    setPoint n f v (setPending q s) = setPending q (setPoint n f v s) := by
  simp [setPoint, ite_setPending]
@[simp] theorem setAllPoints_setPending (f : ℕ) (q : List Instr) (s : State) :
    setAllPoints f (setPending q s) = setPending q (setAllPoints f s) := by
  simp [setAllPoints, ite_setPending, foldl_setPending]
@[simp] theorem detFreq_setPending (q : List Instr) (s : State) :
    detFreq (setPending q s) = detFreq s := (rfl)
@[simp] theorem writeMode_setPending (v : Word) (q : List Instr) (s : State) :
    writeMode v (setPending q s) = setPending q (writeMode v s) := by
  simp [writeMode, ite_setPending]
@[simp] theorem pipeAt_setPending (q : List Instr) (s : State) :
    pipeAt (setPending q s) = pipeAt s := (rfl)
@[simp] theorem servedFrame_setPending (q : List Instr) (s : State) :
    servedFrame (setPending q s) = servedFrame s := (rfl)
@[simp] theorem modServed_setPending (v : Serving) (f : Frame → Frame) (q : List Instr) (s : State) :
    modServed v f (setPending q s) = setPending q (modServed v f s) := rfl
@[simp] theorem modServing_setPending (k : ℕ) (f : Serving → Serving) (q : List Instr) (s : State) :
    modServing k f (setPending q s) = setPending q (modServing k f s) := rfl
@[simp] theorem modCtx_setPending (k : ℕ) (c : ℕ) (f : PipeCtx → PipeCtx) (q : List Instr) (s : State) :
    modCtx k c f (setPending q s) = setPending q (modCtx k c f s) := rfl
@[simp] theorem resetPipe_setPending (k : ℕ) (q : List Instr) (s : State) :
    resetPipe k (setPending q s) = setPending q (resetPipe k s) := by
  unfold resetPipe
  simp [ite_setPending]
  (repeat' split) <;> simp
@[simp] theorem onCore_setPending (q : List Instr) (s : State) :
    onCore (setPending q s) = onCore s := (rfl)
@[simp] theorem oldestEnq_setPending (q : List Instr) (s : State) :
    oldestEnq (setPending q s) = oldestEnq s := (rfl)
@[simp] theorem advanceEnq_setPending (t : TaskId) (kind : ℕ) (addr : ℕ) (left : ℕ) (q : List Instr) (s : State) :
    advanceEnq t kind addr left (setPending q s) = setPending q (advanceEnq t kind addr left s) := rfl
@[simp] theorem resumeEnq_setPending (kind : ℕ) (q : List Instr) (s : State) :
    resumeEnq kind (setPending q s) = setPending q (resumeEnq kind s) := by
  unfold resumeEnq
  simp [ite_setPending]
  (repeat' split) <;> simp
@[simp] theorem noteBarcode_setPending (st : ℕ) (q : List Instr) (s : State) :
    noteBarcode st (setPending q s) = setPending q (noteBarcode st s) := by
  simp [noteBarcode, ite_setPending]
@[simp] theorem noteDma_setPending (st : ℕ) (q : List Instr) (s : State) :
    noteDma st (setPending q s) = setPending q (noteDma st s) := by
  simp [noteDma, ite_setPending]
@[simp] theorem noteEnd_setPending (kind : ℕ) (st : ℕ) (us : ℕ) (q : List Instr) (s : State) :
    noteEnd kind st us (setPending q s) = setPending q (noteEnd kind st us s) := by
  unfold noteEnd
  simp
  split <;> simp [ite_setPending]
@[simp] theorem modCaddy_setPending (h : ℕ) (q' : ℕ) (f : CaddyQ → CaddyQ) (q : List Instr) (s : State) :
    modCaddy h q' f (setPending q s) = setPending q (modCaddy h q' f s) := rfl
@[simp] theorem modBatch_setPending (h : ℕ) (q' : ℕ) (no : ℕ) (f : Batch → Batch) (q : List Instr) (s : State) :
    modBatch h q' no f (setPending q s) = setPending q (modBatch h q' no f s) := rfl
@[simp] theorem settleSlot_setPending (h : ℕ) (q' : ℕ) (no : ℕ) (i : ℕ) (st : ℕ) (o : Offer) (q : List Instr) (s : State) :
    settleSlot h q' no i st o (setPending q s) = setPending q (settleSlot h q' no i st o s) := by
  simp [settleSlot, ite_setPending]
@[simp] theorem queueSample_setPending (item : Word) (summary : List Byte) (q : List Instr) (s : State) :
    queueSample item summary (setPending q s) = setPending q (queueSample item summary s) := rfl
@[simp] theorem bindItem_setPending (id : Word) (q : List Instr) (s : State) :
    bindItem id (setPending q s) = setPending q (bindItem id s) := rfl
@[simp] theorem recCount_setPending (eng : ℕ) (i : ℕ) (q : List Instr) (s : State) :
    recCount eng i (setPending q s) = setPending q (recCount eng i s) := rfl
@[simp] theorem closeRecord_setPending (eng : ℕ) (r : Running) (st : ℕ) (crc : ℕ) (q : List Instr) (s : State) :
    closeRecord eng r st crc (setPending q s) = setPending q (closeRecord eng r st crc s) := by
  simp [closeRecord, ite_setPending]
@[simp] theorem voidRecord_setPending (status : ℕ) (r : Running) (q : List Instr) (s : State) :
    voidRecord status r (setPending q s) = setPending q (voidRecord status r s) := by
  simp [voidRecord, ite_setPending]
@[simp] theorem blvState_setPending (q : List Instr) (s : State) :
    blvState (setPending q s) = blvState s := (rfl)
@[simp] theorem portEvent_setPending (code : ℕ) (ref : ℕ) (q : List Instr) (s : State) :
    portEvent code ref (setPending q s) = setPending q (portEvent code ref s) := by
  simp [portEvent]
@[simp] theorem setBlvState_setPending (p : ℕ) (st : ℕ) (q : List Instr) (s : State) :
    setBlvState p st (setPending q s) = setPending q (setBlvState p st s) := rfl
@[simp] theorem blvDown_setPending (p : ℕ) (st : ℕ) (q : List Instr) (s : State) :
    blvDown p st (setPending q s) = setPending q (blvDown p st s) := by
  simp [blvDown]
@[simp] theorem replayFlits_setPending (p : ℕ) (q : List Instr) (s : State) :
    replayFlits p (setPending q s) = setPending q (replayFlits p s) := by
  simp [replayFlits, ite_setPending]
@[simp] theorem retrain_setPending (p : ℕ) (failed : Bool) (q : List Instr) (s : State) :
    retrain p failed (setPending q s) = setPending q (retrain p failed s) := by
  simp [retrain, ite_setPending]
@[simp] theorem blvTrain_setPending (p : ℕ) (q : List Instr) (s : State) :
    blvTrain p (setPending q s) = setPending q (blvTrain p s) := rfl
@[simp] theorem blvLive_setPending (q : List Instr) (s : State) :
    blvLive (setPending q s) = blvLive s := (rfl)
@[simp] theorem cmpTarget_setPending (q : List Instr) (s : State) :
    cmpTarget (setPending q s) = cmpTarget s := (rfl)
@[simp] theorem cmpDiff_setPending (q : List Instr) (s : State) :
    cmpDiff (setPending q s) = cmpDiff s := (rfl)
@[simp] theorem blockOf_setPending (q : List Instr) (s : State) :
    blockOf (setPending q s) = blockOf s := (rfl)
@[simp] theorem inRecovery_setPending (q : List Instr) (s : State) :
    inRecovery (setPending q s) = inRecovery s := (rfl)
@[simp] theorem badAccess_setPending (w : Writer) (off : ℕ) (viaAlias : Bool) (write : Bool) (q : List Instr) (s : State) :
    badAccess w off viaAlias write (setPending q s) = setPending q (badAccess w off viaAlias write s) := rfl
@[simp] theorem srcEn_setPending (q : List Instr) (s : State) :
    srcEn (setPending q s) = srcEn s := (rfl)
@[simp] theorem edgeSpent_setPending (q : List Instr) (s : State) :
    edgeSpent (setPending q s) = edgeSpent s := (rfl)
@[simp] theorem settleEdges_setPending (q : List Instr) (s : State) :
    settleEdges (setPending q s) = setPending q (settleEdges s) := rfl
@[simp] theorem barAttach_setPending (j : Job) (kind : ℕ) (payload : List Byte) (q : List Instr) (s : State) :
    barAttach j kind payload (setPending q s) = setPending q (barAttach j kind payload s) := by
  simp [barAttach]
@[simp] theorem barFlushOne_setPending (j : Job) (f : List Byte) (q : List Instr) (s : State) :
    barFlushOne j (setPending q s) f = setPending q (barFlushOne j s f) := by
  simp [barFlushOne]
@[simp] theorem barFlush_setPending (eng : ℕ) (q : List Instr) (s : State) :
    barFlush eng (setPending q s) = setPending q (barFlush eng s) := by
  unfold barFlush
  simp
  split <;> simp [foldl_setPending]
@[simp] theorem queueLoader_setPending (checks : ℕ) (hashes : ℕ) (q : List Instr) (s : State) :
    queueLoader checks hashes (setPending q s) = setPending q (queueLoader checks hashes s) := by
  unfold queueLoader
  rw [← ite_setPending]
  rfl
@[simp] theorem cmpPer_setPending (q : List Instr) (s : State) :
    cmpPer (setPending q s) = cmpPer s := (rfl)
@[simp] theorem skipWords_setPending (q : List Instr) (s : State) :
    skipWords (setPending q s) = skipWords s := (rfl)
@[simp] theorem takeSlot_setPending (c : CaddyQ) (b : Batch) (i : ℕ) (o : Offer) (q : List Instr) (s : State) :
    takeSlot c b i o (setPending q s) = setPending q (takeSlot c b i o s) := rfl
@[simp] theorem recordToSlot_setPending (c : CaddyQ) (b : Batch) (i : ℕ) (o : Offer) (q : List Instr) (s : State) :
    recordToSlot c b i o (setPending q s) = setPending q (recordToSlot c b i o s) := rfl
@[simp] theorem gateOver_setPending (q : List Instr) (s : State) :
    gateOver (setPending q s) = gateOver s := (rfl)
@[simp] theorem shutGates_setPending (p : ℕ) (pos : Item → Pos) (q : List Instr) (s : State) :
    shutGates p pos (setPending q s) = setPending q (shutGates p pos s) := by
  simp [shutGates, ite_setPending, foldl_setPending]
@[simp] theorem dropSeqs_setPending (f : Sequence → Bool) (q : List Instr) (s : State) :
    dropSeqs f (setPending q s) = setPending q (dropSeqs f s) := rfl
@[simp] theorem wireBytes_setPending (q : List Instr) (s : State) :
    wireBytes (setPending q s) = wireBytes s := (rfl)
@[simp] theorem waitsFor_setPending (i : Iw) (k : Task) (p : Program) (q' : ℕ) (w : Wait) (q : List Instr) (s : State) :
    waitsFor i k p q' w (setPending q s) = setPending q (waitsFor i k p q' w s) := rfl
@[simp] theorem oldestJoin_setPending (q : List Instr) (s : State) :
    oldestJoin (setPending q s) = oldestJoin s := (rfl)
@[simp] theorem freeGranules_setPending (q : List Instr) (s : State) :
    freeGranules (setPending q s) = freeGranules s := (rfl)
@[simp] theorem longestRun_setPending (q : List Instr) (s : State) :
    longestRun (setPending q s) = longestRun s := (rfl)
@[simp] theorem partOver_setPending (q : List Instr) (s : State) :
    partOver (setPending q s) = partOver s := (rfl)
@[simp] theorem heldBlocks_setPending (q : List Instr) (s : State) :
    heldBlocks (setPending q s) = heldBlocks s := (rfl)
@[simp] theorem viewSq_setPending (q : List Instr) (s : State) :
    viewSq (setPending q s) = viewSq s := (rfl)
@[simp] theorem govBusy_setPending (q : List Instr) (s : State) :
    govBusy (setPending q s) = govBusy s := (rfl)
@[simp] theorem closeItem_setPending (n : ℕ) (pos : Pos) (time : DevTime) (q : List Instr) (s : State) :
    closeItem n pos time (setPending q s) = setPending q (closeItem n pos time s) := by
  unfold closeItem
  simp
  split <;> simp
@[simp] theorem MayBegin_setPending (op : ℕ) (cr : CoreRun) (i : Iw) (k : Task) (p : Program) (q : List Instr) (s : State) :
    MayBegin op cr i k p (setPending q s) = MayBegin op cr i k p s := (rfl)
@[simp] theorem canTrigger_setPending (q : List Instr) (s : State) :
    canTrigger (setPending q s) = canTrigger s := (rfl)
@[simp] theorem ringBytes_setPending (q : List Instr) (s : State) :
    ringBytes (setPending q s) = ringBytes s := (rfl)
@[simp] theorem loaderQueued_setPending (q : List Instr) (s : State) :
    loaderQueued (setPending q s) = loaderQueued s := (rfl)
@[simp] theorem viewBusy_setPending (q : List Instr) (s : State) :
    viewBusy (setPending q s) = viewBusy s := (rfl)
@[simp] theorem govNow_setPending (q : List Instr) (s : State) :
    govNow (setPending q s) = govNow s := (rfl)
@[simp] theorem throttle_setPending (q : List Instr) (s : State) :
    throttle (setPending q s) = throttle s := (rfl)
@[simp] theorem pipeWaits_setPending (q : List Instr) (s : State) :
    pipeWaits (setPending q s) = pipeWaits s := (rfl)
@[simp] theorem pipeCount_setPending (k : ℕ) (i : ℕ) (n : ℕ) (q : List Instr) (s : State) :
    pipeCount k i n (setPending q s) = setPending q (pipeCount k i n s) := rfl
@[simp] theorem noteMeter_setPending (m : Meter) (q : List Instr) (s : State) :
    noteMeter m (setPending q s) = setPending q (noteMeter m s) := by
  simp [noteMeter, ite_setPending]
@[simp] theorem putDone_setPending (n : ℕ) (k : Task) (k' : Task) (q : List Instr) (s : State) :
    putDone n k k' (setPending q s) = setPending q (putDone n k k' s) := rfl
@[simp] theorem recorded_setPending (cr : CoreRun) (i : Iw) (k : Task) (p : Program) (es : List RecEntry) (g : TaskRegs → TaskRegs) (q : List Instr) (s : State) :
    recorded cr i k p es g (setPending q s) = setPending q (recorded cr i k p es g s) := rfl
@[simp] theorem signatureOk_setPending (q : List Instr) (s : State) :
    signatureOk (setPending q s) = signatureOk s := (rfl)
@[simp] theorem latchOf_setPending (q : List Instr) (s : State) :
    latchOf (setPending q s) = latchOf s := (rfl)
@[simp] theorem externalCount_setPending (q : List Instr) (s : State) :
    externalCount (setPending q s) = externalCount s := (rfl)
@[simp] theorem nextBox_setPending (eng : ℕ) (q : List Instr) (s : State) :
    nextBox eng (setPending q s) = setPending q (nextBox eng s) := by
  unfold nextBox
  simp
  split <;> simp [ite_setPending]
@[simp] theorem idHeld_setPending (q : List Instr) (s : State) :
    idHeld (setPending q s) = idHeld s := (rfl)
@[simp] theorem flashOf_setPending (q : List Instr) (s : State) :
    flashOf (setPending q s) = flashOf s := (rfl)
@[simp] theorem slotOrder_setPending (q : List Instr) (s : State) :
    slotOrder (setPending q s) = slotOrder s := (rfl)
@[simp] theorem viewSeq_setPending (q : List Instr) (s : State) :
    viewSeq (setPending q s) = viewSeq s := (rfl)
@[simp] theorem stoppable_setPending (q : List Instr) (s : State) :
    stoppable (setPending q s) = stoppable s := (rfl)
@[simp] theorem imageBegins_setPending (p : ℕ) (q : List Instr) (s : State) :
    imageBegins p (setPending q s) = setPending q (imageBegins p s) := rfl
@[simp] theorem farAbort_setPending (m : MemRun) (a1 : ℕ) (n : ℕ) (q : List Instr) (s : State) :
    farAbort m a1 n (setPending q s) = farAbort m a1 n s := (rfl)
@[simp] theorem fieldSpeed_setPending (q : List Instr) (s : State) :
    fieldSpeed (setPending q s) = fieldSpeed s := (rfl)
@[simp] theorem groupUp_setPending (q : List Instr) (s : State) :
    groupUp (setPending q s) = groupUp s := (rfl)
@[simp] theorem srcFalling_setPending (q : List Instr) (s : State) :
    srcFalling (setPending q s) = srcFalling s := (rfl)
@[simp] theorem opening_setPending (q : List Instr) (s : State) :
    opening (setPending q s) = opening s := (rfl)
@[simp] theorem placeOn_setPending (t : TaskId) (n : ℕ) (q : List Instr) (s : State) :
    placeOn t n (setPending q s) = setPending q (placeOn t n s) := rfl
@[simp] theorem headerBad_setPending (q : List Instr) (s : State) :
    headerBad (setPending q s) = headerBad s := (rfl)
@[simp] theorem judgeHeader_setPending (p : ℕ) (q : List Instr) (s : State) :
    judgeHeader p (setPending q s) = setPending q (judgeHeader p s) := by
  unfold judgeHeader
  simp
  split <;> simp [ite_setPending]
@[simp] theorem govWindow_setPending (q : List Instr) (s : State) :
    govWindow (setPending q s) = govWindow s := (rfl)
@[simp] theorem clearRegs_setPending (p : ℕ → Bool) (q : List Instr) (s : State) :
    clearRegs p (setPending q s) = setPending q (clearRegs p s) := rfl
@[simp] theorem clearCompute_setPending (q : List Instr) (s : State) :
    clearCompute (setPending q s) = setPending q (clearCompute s) := rfl
@[simp] theorem systemResetUnits_setPending (powerOn : Bool) (q : List Instr) (s : State) :
    systemResetUnits powerOn (setPending q s) = setPending q (systemResetUnits powerOn s) := rfl
@[simp] theorem replayTask_setPending (q : List Instr) (s : State) :
    replayTask (setPending q s) = replayTask s := (rfl)
@[simp] theorem writeOpp_setPending (core : ℕ) (v : Word) (q : List Instr) (s : State) :
    writeOpp core v (setPending q s) = setPending q (writeOpp core v s) := by
  simp [writeOpp, ite_setPending]
@[simp] theorem storeFields_setPending (d : RegDef) (off : ℕ) (v : Word) (q : List Instr) (s : State) :
    storeFields d off v (setPending q s) = setPending q (storeFields d off v s) := rfl
@[simp] theorem writeTarget_setPending (d : RegDef) (off : ℕ) (v : Word) (q : List Instr) (s : State) :
    writeTarget d off v (setPending q s) = setPending q (writeTarget d off v s) := by
  unfold writeTarget
  rw [← ite_setPending]
  rfl
@[simp] theorem linkState_setPending (q : List Instr) (s : State) :
    linkState (setPending q s) = linkState s := (rfl)
@[simp] theorem allTaken_setPending (q : List Instr) (s : State) :
    allTaken (setPending q s) = allTaken s := (rfl)
@[simp] theorem countKnown_setPending (q : List Instr) (s : State) :
    countKnown (setPending q s) = countKnown s := (rfl)
@[simp] theorem placedGood_setPending (q : List Instr) (s : State) :
    placedGood (setPending q s) = placedGood s := (rfl)
@[simp] theorem ipTo_setPending (q : List Instr) (s : State) :
    ipTo (setPending q s) = ipTo s := (rfl)
@[simp] theorem govMargin_setPending (q : List Instr) (s : State) :
    govMargin (setPending q s) = govMargin s := (rfl)
@[simp] theorem loaderWaits_setPending (q : List Instr) (s : State) :
    loaderWaits (setPending q s) = loaderWaits s := (rfl)
@[simp] theorem sendPending_setPending (v : ℕ) (q : List Instr) (s : State) :
    sendPending v (setPending q s) = setPending q (sendPending v s) := by
  simp [sendPending, ite_setPending]
@[simp] theorem srcDin_setPending (q : List Instr) (s : State) :
    srcDin (setPending q s) = srcDin s := (rfl)
@[simp] theorem safeOn_setPending (q : List Instr) (s : State) :
    safeOn (setPending q s) = safeOn s := (rfl)
@[simp] theorem outputOf_setPending (q : List Instr) (s : State) :
    outputOf (setPending q s) = outputOf s := (rfl)
@[simp] theorem isOut_setPending (q : List Instr) (s : State) :
    isOut (setPending q s) = isOut s := (rfl)
@[simp] theorem wantsOn_setPending (q : List Instr) (s : State) :
    wantsOn (setPending q s) = wantsOn s := (rfl)
@[simp] theorem tvCopies_setPending (q : List Instr) (s : State) :
    tvCopies (setPending q s) = tvCopies s := (rfl)
@[simp] theorem tvRead_setPending (q : List Instr) (s : State) :
    tvRead (setPending q s) = tvRead s := (rfl)
@[simp] theorem startLimit_setPending (q : List Instr) (s : State) :
    startLimit (setPending q s) = startLimit s := (rfl)
@[simp] theorem trigGated_setPending (q : List Instr) (s : State) :
    trigGated (setPending q s) = trigGated s := (rfl)
@[simp] theorem behindLoader_setPending (q : List Instr) (s : State) :
    behindLoader (setPending q s) = behindLoader s := (rfl)
@[simp] theorem liveJobs_setPending (q : List Instr) (s : State) :
    liveJobs (setPending q s) = liveJobs s := (rfl)
@[simp] theorem nextJob_setPending (q : List Instr) (s : State) :
    nextJob (setPending q s) = nextJob s := (rfl)
@[simp] theorem freeCtx_setPending (q : List Instr) (s : State) :
    freeCtx (setPending q s) = freeCtx s := (rfl)
@[simp] theorem takeCtx_setPending (q : List Instr) (s : State) :
    takeCtx (setPending q s) = takeCtx s := (rfl)
@[simp] theorem ringAbort_setPending (bs : List Byte) (k : ℕ) (q : List Instr) (s : State) :
    ringAbort bs k (setPending q s) = setPending q (ringAbort bs k s) := by
  simp [ringAbort]
@[simp] theorem ovfGet_setPending (q : List Instr) (s : State) :
    ovfGet (setPending q s) = ovfGet s := (rfl)
@[simp] theorem heldSpans_setPending (q : List Instr) (s : State) :
    heldSpans (setPending q s) = heldSpans s := (rfl)
@[simp] theorem driveResetOut_setPending (high : Bool) (q : List Instr) (s : State) :
    driveResetOut high (setPending q s) = setPending q (driveResetOut high s) := by
  unfold driveResetOut
  rw [← ite_setPending]
  rfl
@[simp] theorem lossRange_setPending (q : List Instr) (s : State) :
    lossRange (setPending q s) = lossRange s := (rfl)
@[simp] theorem openSubs_setPending (q : List Instr) (s : State) :
    openSubs (setPending q s) = openSubs s := (rfl)
@[simp] theorem freeHolder_setPending (h : ℕ) (q : List Instr) (s : State) :
    freeHolder h (setPending q s) = setPending q (freeHolder h s) := rfl
@[simp] theorem noteWaits_setPending (q : List Instr) (s : State) :
    noteWaits (setPending q s) = setPending q (noteWaits s) := rfl
@[simp] theorem counterNow_setPending (q : List Instr) (s : State) :
    counterNow (setPending q s) = counterNow s := (rfl)
@[simp] theorem boxCropped_setPending (d : List Byte) (box : List Byte) (b : ℕ) (q : List Instr) (s : State) :
    boxCropped d box b (setPending q s) = setPending q (boxCropped d box b s) := by
  simp [boxCropped, ite_setPending]
@[simp] theorem coreWants_setPending (q : List Instr) (s : State) :
    coreWants (setPending q s) = coreWants s := (rfl)
@[simp] theorem nextWake_setPending (q : List Instr) (s : State) :
    nextWake (setPending q s) = nextWake s := (rfl)
@[simp] theorem cxpRefused_setPending (q : List Instr) (s : State) :
    cxpRefused (setPending q s) = cxpRefused s := (rfl)
@[simp] theorem setLeads_setPending (enc : ℕ) (q : List Instr) (s : State) :
    setLeads enc (setPending q s) = setPending q (setLeads enc s) := rfl
@[simp] theorem ringOk_setPending (q : List Instr) (s : State) :
    ringOk (setPending q s) = ringOk s := (rfl)
@[simp] theorem postAborted_setPending (q : List Instr) (s : State) :
    postAborted (setPending q s) = setPending q (postAborted s) := by
  simp [postAborted, ite_setPending, foldl_setPending]
@[simp] theorem outLevel_setPending (q : List Instr) (s : State) :
    outLevel (setPending q s) = outLevel s := (rfl)
@[simp] theorem sourceNames_setPending (q : List Instr) (s : State) :
    sourceNames (setPending q s) = sourceNames s := (rfl)
@[simp] theorem dirFixed_setPending (q : List Instr) (s : State) :
    dirFixed (setPending q s) = dirFixed s := (rfl)
@[simp] theorem modInput_setPending (n : ℕ) (f : Input → Input) (q : List Instr) (s : State) :
    modInput n f (setPending q s) = setPending q (modInput n f s) := rfl
@[simp] theorem becomeInput_setPending (n : ℕ) (q : List Instr) (s : State) :
    becomeInput n (setPending q s) = setPending q (becomeInput n s) := rfl
@[simp] theorem inflight_setPending (q : List Instr) (s : State) :
    inflight (setPending q s) = inflight s := (rfl)
@[simp] theorem stepped_setPending (cr : CoreRun) (i : Iw) (k : Task) (p : Program) (g : TaskRegs → TaskRegs) (q : List Instr) (s : State) :
    stepped cr i k p g (setPending q s) = setPending q (stepped cr i k p g s) := rfl
@[simp] theorem poolGran_setPending (q : List Instr) (s : State) :
    poolGran (setPending q s) = poolGran s := (rfl)
@[simp] theorem emptyPoolGran_setPending (q : List Instr) (s : State) :
    emptyPoolGran (setPending q s) = emptyPoolGran s := (rfl)
@[simp] theorem macOf_setPending (q : List Instr) (s : State) :
    macOf (setPending q s) = macOf s := (rfl)
@[simp] theorem restarts_setPending (q : List Instr) (s : State) :
    restarts (setPending q s) = restarts s := (rfl)
@[simp] theorem letFrameGo_setPending (k : ℕ) (c : ℕ) (v : Serving) (q : List Instr) (s : State) :
    letFrameGo k c v (setPending q s) = setPending q (letFrameGo k c v s) := by
  unfold letFrameGo
  simp
  split <;> simp [ite_setPending]
@[simp] theorem queueFrameSample_setPending (v : Serving) (summary : List Byte) (q : List Instr) (s : State) :
    queueFrameSample v summary (setPending q s) = setPending q (queueFrameSample v summary s) := rfl
@[simp] theorem finishFrame_setPending (k : ℕ) (v : Serving) (q : List Instr) (s : State) :
    finishFrame k v (setPending q s) = setPending q (finishFrame k v s) := by
  simp [finishFrame]
@[simp] theorem storeSlot_setPending (q : List Instr) (s : State) :
    storeSlot (setPending q s) = storeSlot s := (rfl)
@[simp] theorem fetchLine_setPending (p : ℕ) (f : Frame) (l : StoredLine) (q : List Instr) (s : State) :
    fetchLine p f l (setPending q s) = ((fetchLine p f l s).1, setPending q (fetchLine p f l s).2) := by
  unfold fetchLine
  split <;> rfl
@[simp] theorem imageAccepted_setPending (q : List Instr) (s : State) :
    imageAccepted (setPending q s) = imageAccepted s := (rfl)
@[simp] theorem devQueue_setPending (q : List Instr) (s : State) :
    devQueue (setPending q s) = devQueue s := (rfl)
@[simp] theorem lateItem_setPending (q : List Instr) (s : State) :
    lateItem (setPending q s) = lateItem s := (rfl)
@[simp] theorem pointsPoison_setPending (q : List Instr) (s : State) :
    pointsPoison (setPending q s) = pointsPoison s := (rfl)
@[simp] theorem statusWord_setPending (q : List Instr) (s : State) :
    statusWord (setPending q s) = statusWord s := (rfl)
@[simp] theorem summaryWord_setPending (q : List Instr) (s : State) :
    summaryWord (setPending q s) = summaryWord s := (rfl)
@[simp] theorem viewGlb_setPending (q : List Instr) (s : State) :
    viewGlb (setPending q s) = viewGlb s := (rfl)
@[simp] theorem inPartition_setPending (q : List Instr) (s : State) :
    inPartition (setPending q s) = inPartition s := (rfl)
@[simp] theorem anyQueued_setPending (q : List Instr) (s : State) :
    anyQueued (setPending q s) = anyQueued s := (rfl)
@[simp] theorem kerbUsed_setPending (q : List Instr) (s : State) :
    kerbUsed (setPending q s) = kerbUsed s := (rfl)
@[simp] theorem clearDue_setPending (q : List Instr) (s : State) :
    clearDue (setPending q s) = setPending q (clearDue s) := rfl
@[simp] theorem hostCanRead_setPending (q : List Instr) (s : State) :
    hostCanRead (setPending q s) = hostCanRead s := (rfl)
@[simp] theorem takeEntry_setPending (raw : List Byte) (q : List Instr) (s : State) :
    takeEntry raw (setPending q s) = setPending q (takeEntry raw s) := by
  unfold takeEntry
  simp
  split <;> simp [ite_setPending]
@[simp] theorem viewIsp_setPending (q : List Instr) (s : State) :
    viewIsp (setPending q s) = viewIsp s := (rfl)
@[simp] theorem saveAt_setPending (q : List Instr) (s : State) :
    saveAt (setPending q s) = saveAt s := (rfl)
@[simp] theorem writeSave_setPending (k : Task) (q : List Instr) (s : State) :
    writeSave k (setPending q s) = setPending q (writeSave k s) := by
  unfold writeSave
  simp
  split <;> simp
@[simp] theorem auxEn_setPending (q : List Instr) (s : State) :
    auxEn (setPending q s) = auxEn s := (rfl)
@[simp] theorem writeStore_setPending (v : Word) (q : List Instr) (s : State) :
    writeStore v (setPending q s) = setPending q (writeStore v s) := by
  simp [writeStore, ite_setPending]
@[simp] theorem closedAt_setPending (q : List Instr) (s : State) :
    closedAt (setPending q s) = closedAt s := (rfl)
@[simp] theorem barEarlier_setPending (q : List Instr) (s : State) :
    barEarlier (setPending q s) = barEarlier s := (rfl)
@[simp] theorem barFragment_setPending (eng : ℕ) (kind : ℕ) (payload : List Byte) (q : List Instr) (s : State) :
    barFragment eng kind payload (setPending q s) = setPending q (barFragment eng kind payload s) := by
  unfold barFragment
  simp
  split <;> simp [ite_setPending]
@[simp] theorem encHyst_setPending (q : List Instr) (s : State) :
    encHyst (setPending q s) = encHyst s := (rfl)
@[simp] theorem forward_setPending (q : List Instr) (s : State) :
    forward (setPending q s) = forward s := (rfl)
@[simp] theorem dropUnbound_setPending (k : ℕ) (v : Serving) (q : List Instr) (s : State) :
    dropUnbound k v (setPending q s) = setPending q (dropUnbound k v s) := by
  simp [dropUnbound]
@[simp] theorem poolCount_setPending (q : List Instr) (s : State) :
    poolCount (setPending q s) = poolCount s := (rfl)
@[simp] theorem checkFields_setPending (q : List Instr) (s : State) :
    checkFields (setPending q s) = checkFields s := (rfl)
@[simp] theorem sqExtent_setPending (q : List Instr) (s : State) :
    sqExtent (setPending q s) = sqExtent s := (rfl)
@[simp] theorem localExtent_setPending (q : List Instr) (s : State) :
    localExtent (setPending q s) = localExtent s := (rfl)
@[simp] theorem streamExtent_setPending (q : List Instr) (s : State) :
    streamExtent (setPending q s) = streamExtent s := (rfl)
@[simp] theorem txCap_setPending (q : List Instr) (s : State) :
    txCap (setPending q s) = txCap s := (rfl)
@[simp] theorem bootAgain_setPending (q : List Instr) (s : State) :
    bootAgain (setPending q s) = setPending q (bootAgain s) := rfl
@[simp] theorem freeBlocks_setPending (q : List Instr) (s : State) :
    freeBlocks (setPending q s) = freeBlocks s := (rfl)
@[simp] theorem viewSched_setPending (q : List Instr) (s : State) :
    viewSched (setPending q s) = viewSched s := (rfl)
@[simp] theorem viewTrust_setPending (q : List Instr) (s : State) :
    viewTrust (setPending q s) = viewTrust s := (rfl)
@[simp] theorem viewTc_setPending (q : List Instr) (s : State) :
    viewTc (setPending q s) = viewTc s := (rfl)
@[simp] theorem viewTime_setPending (q : List Instr) (s : State) :
    viewTime (setPending q s) = viewTime s := (rfl)
@[simp] theorem viewEnc_setPending (q : List Instr) (s : State) :
    viewEnc (setPending q s) = viewEnc s := (rfl)
@[simp] theorem inputOf_setPending (q : List Instr) (s : State) :
    inputOf (setPending q s) = inputOf s := (rfl)
@[simp] theorem viewField_setPending (q : List Instr) (s : State) :
    viewField (setPending q s) = viewField s := (rfl)
@[simp] theorem liveWord_setPending (q : List Instr) (s : State) :
    liveWord (setPending q s) = liveWord s := (rfl)
@[simp] theorem latchWords_setPending (w : Writer) (offs : List ℕ) (q : List Instr) (s : State) :
    latchWords w offs (setPending q s) = setPending q (latchWords w offs s) := rfl
@[simp] theorem peerToken_setPending (q : List Instr) (s : State) :
    peerToken (setPending q s) = peerToken s := (rfl)
@[simp] theorem srcPos_setPending (q : List Instr) (s : State) :
    srcPos (setPending q s) = srcPos s := (rfl)
@[simp] theorem pipeUp_setPending (q : List Instr) (s : State) :
    pipeUp (setPending q s) = pipeUp s := (rfl)
@[simp] theorem gateClose_setPending (p : ℕ) (q : List Instr) (s : State) :
    gateClose p (setPending q s) = setPending q (gateClose p s) := by
  simp [gateClose]
@[simp] theorem openFrame_setPending (p : ℕ) (i : Item) (q : List Instr) (s : State) :
    openFrame p i (setPending q s) = setPending q (openFrame p i s) := by
  simp [openFrame, ite_setPending]
@[simp] theorem gateOpen_setPending (p : ℕ) (q : List Instr) (s : State) :
    gateOpen p (setPending q s) = setPending q (gateOpen p s) := by
  simp [gateOpen, ite_setPending, foldl_setPending]
@[simp] theorem portsOf_setPending (q : List Instr) (s : State) :
    portsOf (setPending q s) = portsOf s := (rfl)
@[simp] theorem waitingFrames_setPending (q : List Instr) (s : State) :
    waitingFrames (setPending q s) = waitingFrames s := (rfl)
@[simp] theorem takesNow_setPending (q : List Instr) (s : State) :
    takesNow (setPending q s) = takesNow s := (rfl)
@[simp] theorem storeRoom_setPending (q : List Instr) (s : State) :
    storeRoom (setPending q s) = storeRoom s := (rfl)
@[simp] theorem inWindowOf_setPending (q : List Instr) (s : State) :
    inWindowOf (setPending q s) = inWindowOf s := (rfl)
@[simp] theorem strayLine_setPending (p : ℕ) (q : List Instr) (s : State) :
    strayLine p (setPending q s) = setPending q (strayLine p s) := rfl
@[simp] theorem imageEnds_setPending (p : ℕ) (q : List Instr) (s : State) :
    imageEnds p (setPending q s) = setPending q (imageEnds p s) := by
  unfold imageEnds
  simp
  split <;> simp [ite_setPending]
@[simp] theorem govSources_setPending (q : List Instr) (s : State) :
    govSources (setPending q s) = govSources s := (rfl)
@[simp] theorem markSkip_setPending (p : ℕ) (item : Word) (n : ℕ) (q : List Instr) (s : State) :
    markSkip p item n (setPending q s) = setPending q (markSkip p item n s) := by
  simp [markSkip, ite_setPending]
@[simp] theorem skipTriggers_setPending (k : KerbEntry) (n : ℕ) (q : List Instr) (s : State) :
    skipTriggers k n (setPending q s) = setPending q (skipTriggers k n s) := by
  simp [skipTriggers, ite_setPending]
@[simp] theorem conns_setPending (q : List Instr) (s : State) :
    conns (setPending q s) = conns s := (rfl)
@[simp] theorem caddyOf_setPending (q : List Instr) (s : State) :
    caddyOf (setPending q s) = caddyOf s := (rfl)
@[simp] theorem recAddr_setPending (q : List Instr) (s : State) :
    recAddr (setPending q s) = recAddr s := (rfl)
@[simp] theorem throttleEvent_setPending (code : ℕ) (on : Bool) (q : List Instr) (s : State) :
    throttleEvent code on (setPending q s) = setPending q (throttleEvent code on s) := by
  simp [throttleEvent]
@[simp] theorem windowOk_setPending (q : List Instr) (s : State) :
    windowOk (setPending q s) = windowOk s := (rfl)
@[simp] theorem windowUsed_setPending (q : List Instr) (s : State) :
    windowUsed (setPending q s) = windowUsed s := (rfl)
@[simp] theorem writeWinCtl_setPending (n : ℕ) (v : Word) (q : List Instr) (s : State) :
    writeWinCtl n v (setPending q s) = setPending q (writeWinCtl n v s) := by
  simp [writeWinCtl, ite_setPending]
@[simp] theorem macBytes_setPending (q : List Instr) (s : State) :
    macBytes (setPending q s) = macBytes s := (rfl)
@[simp] theorem datagram_setPending (q : List Instr) (s : State) :
    datagram (setPending q s) = datagram s := (rfl)
@[simp] theorem writeGov_setPending (off : ℕ) (v : Word) (q : List Instr) (s : State) :
    writeGov off v (setPending q s) = setPending q (writeGov off v s) := by
  simp [writeGov, ite_setPending]
@[simp] theorem setStream_setPending (x : Stream) (q : List Instr) (s : State) :
    setStream x (setPending q s) = setPending q (setStream x s) := rfl
@[simp] theorem streamOf_setPending (q : List Instr) (s : State) :
    streamOf (setPending q s) = streamOf s := (rfl)
@[simp] theorem jobStream_setPending (q : List Instr) (s : State) :
    jobStream (setPending q s) = jobStream s := (rfl)
@[simp] theorem seekStream_setPending (j : Job) (off : ℕ) (q : List Instr) (s : State) :
    seekStream j off (setPending q s) = setPending q (seekStream j off s) := rfl
@[simp] theorem acceptRecord_setPending (eng : ℕ) (j : Job) (x : Stream) (h : List Byte) (q : List Instr) (s : State) :
    acceptRecord eng j x h (setPending q s) = setPending q (acceptRecord eng j x h s) := rfl
@[simp] theorem govMax_setPending (q : List Instr) (s : State) :
    govMax (setPending q s) = govMax s := (rfl)
@[simp] theorem edgePos_setPending (q : List Instr) (s : State) :
    edgePos (setPending q s) = edgePos s := (rfl)
@[simp] theorem MayTake_setPending (kind : ℕ) (eng : ℕ) (j : Job) (q : List Instr) (s : State) :
    MayTake kind eng j (setPending q s) = MayTake kind eng j s := (rfl)
@[simp] theorem govMin_setPending (q : List Instr) (s : State) :
    govMin (setPending q s) = govMin s := (rfl)
@[simp] theorem encBits_setPending (q : List Instr) (s : State) :
    encBits (setPending q s) = encBits s := (rfl)
@[simp] theorem jobCheck_setPending (q : List Instr) (s : State) :
    jobCheck (setPending q s) = jobCheck s := (rfl)
@[simp] theorem linkEvent_setPending (p : ℕ) (code : ℕ) (speed : ℕ) (conns : ℕ) (q : List Instr) (s : State) :
    linkEvent p code speed conns (setPending q s) = setPending q (linkEvent p code speed conns s) := by
  simp [linkEvent]
@[simp] theorem refusedSample_setPending (item : Word) (payload : List Byte) (q : List Instr) (s : State) :
    refusedSample item payload (setPending q s) = setPending q (refusedSample item payload s) := by
  simp [refusedSample]
@[simp] theorem writeRoll_setPending (v : Word) (q : List Instr) (s : State) :
    writeRoll v (setPending q s) = setPending q (writeRoll v s) := by
  unfold writeRoll
  rw [← ite_setPending]
  rfl
@[simp] theorem heldFlags_setPending (q : List Instr) (s : State) :
    heldFlags (setPending q s) = heldFlags s := (rfl)
@[simp] theorem clearFlags_setPending (d : RegDef) (off : ℕ) (v : Word) (q : List Instr) (s : State) :
    clearFlags d off v (setPending q s) = setPending q (clearFlags d off v s) := by
  simp [clearFlags, ite_setPending]
@[simp] theorem flagOf_setPending (q : List Instr) (s : State) :
    flagOf (setPending q s) = flagOf s := (rfl)
@[simp] theorem setThermalLevel_setPending (l : ℕ) (q : List Instr) (s : State) :
    setThermalLevel l (setPending q s) = setPending q (setThermalLevel l s) := by
  simp [setThermalLevel, ite_setPending]
@[simp] theorem loaderStarts_setPending (q : List Instr) (s : State) :
    loaderStarts (setPending q s) = setPending q (loaderStarts s) := rfl
@[simp] theorem srcHost_setPending (q : List Instr) (s : State) :
    srcHost (setPending q s) = srcHost s := (rfl)
@[simp] theorem sourcesAt_setPending (q : List Instr) (s : State) :
    sourcesAt (setPending q s) = sourcesAt s := (rfl)
@[simp] theorem writeMsix_setPending (off : ℕ) (v : Word) (q : List Instr) (s : State) :
    writeMsix off v (setPending q s) = setPending q (writeMsix off v s) := by
  simp [writeMsix, ite_setPending]
@[simp] theorem rejectRecord_setPending (eng : ℕ) (d : List Byte) (h : List Byte) (checked : Bool) (q : List Instr) (s : State) :
    rejectRecord eng d h checked (setPending q s) = setPending q (rejectRecord eng d h checked s) := by
  simp [rejectRecord, ite_setPending]
@[simp] theorem recRoom_setPending (q : List Instr) (s : State) :
    recRoom (setPending q s) = recRoom s := (rfl)
@[simp] theorem regionQueue_setPending (q : List Instr) (s : State) :
    regionQueue (setPending q s) = regionQueue s := (rfl)
@[simp] theorem regionStart_setPending (q : List Instr) (s : State) :
    regionStart (setPending q s) = regionStart s := (rfl)
@[simp] theorem payloadAt_setPending (q : List Instr) (s : State) :
    payloadAt (setPending q s) = payloadAt s := (rfl)
@[simp] theorem seeEcc_setPending (ecc : List EccHit) (q : List Instr) (s : State) :
    seeEcc ecc (setPending q s) = setPending q (seeEcc ecc s) := by
  simp [seeEcc]
@[simp] theorem regionOffer_setPending (q : List Instr) (s : State) :
    regionOffer (setPending q s) = regionOffer s := (rfl)
@[simp] theorem recordOffer_setPending (q : List Instr) (s : State) :
    recordOffer (setPending q s) = recordOffer s := (rfl)
@[simp] theorem offers_setPending (q : List Instr) (s : State) :
    offers (setPending q s) = offers s := (rfl)
@[simp] theorem placeEntry_setPending (q : List Instr) (s : State) :
    placeEntry (setPending q s) = placeEntry s := (rfl)
@[simp] theorem refuseEntry_setPending (m : KerbMsg) (code : ℕ) (flag : ℕ) (q : List Instr) (s : State) :
    refuseEntry m code flag (setPending q s) = setPending q (refuseEntry m code flag s) := by
  simp [refuseEntry]
@[simp] theorem passPositions_setPending (e : ℕ) (n : ℕ) (q : List Instr) (s : State) :
    passPositions e n (setPending q s) = setPending q (passPositions e n s) := rfl
@[simp] theorem writeCidx_setPending (r : ℕ) (v : Word) (q : List Instr) (s : State) :
    writeCidx r v (setPending q s) = setPending q (writeCidx r v s) := by
  simp [writeCidx, ite_setPending]
@[simp] theorem blvMode_setPending (q : List Instr) (s : State) :
    blvMode (setPending q s) = blvMode s := (rfl)
@[simp] theorem gateOpenAll_setPending (q : List Instr) (s : State) :
    gateOpenAll (setPending q s) = setPending q (gateOpenAll s) := by
  simp [gateOpenAll, foldl_setPending]
@[simp] theorem trainsOf_setPending (q : List Instr) (s : State) :
    trainsOf (setPending q s) = trainsOf s := (rfl)
@[simp] theorem readSave_setPending (k : Task) (ecc : List EccHit) (q : List Instr) (s : State) :
    readSave k ecc (setPending q s) = ((readSave k ecc s).1, setPending q (readSave k ecc s).2) := by
  unfold readSave
  simp
  split <;> simp
@[simp] theorem reloadPlanes_setPending (n : ℕ) (t : TaskId) (ecc : List EccHit) (q : List Instr) (s : State) :
    reloadPlanes n t ecc (setPending q s) = ((reloadPlanes n t ecc s).1, setPending q (reloadPlanes n t ecc s).2) := by
  unfold reloadPlanes
  simp
  split <;> simp [foldl_setPending]
@[simp] theorem reportProgs_setPending (q : List Instr) (s : State) :
    reportProgs (setPending q s) = reportProgs s := (rfl)
@[simp] theorem reportBody_setPending (nonce : List Byte) (q : List Instr) (s : State) :
    reportBody nonce (setPending q s) = reportBody nonce s := (rfl)
@[simp] theorem reportOf_setPending (nonce : List Byte) (q : List Instr) (s : State) :
    reportOf nonce (setPending q s) = reportOf nonce s := (rfl)
@[simp] theorem sendOwed_setPending (p : ℕ) (q : List Instr) (s : State) :
    sendOwed (setPending q s) p = setPending q (sendOwed s p) := by
  simp [sendOwed, ite_setPending]
@[simp] theorem writeAperture_setPending (v : Word) (q : List Instr) (s : State) :
    writeAperture v (setPending q s) = setPending q (writeAperture v s) := by
  simp [writeAperture, ite_setPending]
@[simp] theorem apertureMiss_setPending (acc : Access) (q : List Instr) (s : State) :
    apertureMiss acc (setPending q s) = ((apertureMiss acc s).1, setPending q (apertureMiss acc s).2) := rfl
@[simp] theorem refuseSample_setPending (c : CaddyQ) (o : Offer) (q : List Instr) (s : State) :
    refuseSample c o (setPending q s) = setPending q (refuseSample c o s) := by
  simp [refuseSample, ite_setPending]
@[simp] theorem blvEn_setPending (q : List Instr) (s : State) :
    blvEn (setPending q s) = blvEn s := (rfl)
@[simp] theorem gangRefused_setPending (q : List Instr) (s : State) :
    gangRefused (setPending q s) = gangRefused s := (rfl)
@[simp] theorem cmpDue_setPending (q : List Instr) (s : State) :
    cmpDue (setPending q s) = cmpDue s := (rfl)
@[simp] theorem cmpWaits_setPending (q : List Instr) (s : State) :
    cmpWaits (setPending q s) = cmpWaits s := (rfl)
@[simp] theorem cropPoisonFirst_setPending (q : List Instr) (s : State) :
    cropPoisonFirst (setPending q s) = cropPoisonFirst s := (rfl)
@[simp] theorem removedJoin_setPending (q' : Sequence) (code : ℕ) (q : List Instr) (s : State) :
    removedJoin q' code (setPending q s) = setPending q (removedJoin q' code s) := by
  simp [removedJoin, ite_setPending]
@[simp] theorem stripeReady_setPending (q : List Instr) (s : State) :
    stripeReady (setPending q s) = stripeReady s := (rfl)
@[simp] theorem setPowerLevel_setPending (l : ℕ) (q : List Instr) (s : State) :
    setPowerLevel l (setPending q s) = setPending q (setPowerLevel l s) := by
  simp [setPowerLevel, ite_setPending]
@[simp] theorem bestMaster_setPending (q : List Instr) (s : State) :
    bestMaster (setPending q s) = bestMaster s := (rfl)
@[simp] theorem ptpFrames_setPending (q : List Instr) (s : State) :
    ptpFrames (setPending q s) = ptpFrames s := (rfl)
@[simp] theorem replyTo_setPending (q : List Instr) (s : State) :
    replyTo (setPending q s) = replyTo s := (rfl)
@[simp] theorem deferTx_setPending (e : TxEntry) (q : List Instr) (s : State) :
    deferTx e (setPending q s) = setPending q (deferTx e s) := by
  simp [deferTx, ite_setPending]
@[simp] theorem fillWindow_setPending (h : ℕ) (q' : ℕ) (q : List Instr) (s : State) :
    fillWindow h q' (setPending q s) = setPending q (fillWindow h q' s) := by
  unfold fillWindow
  simp [ite_setPending, foldl_setPending]
  (repeat' split) <;> simp
@[simp] theorem writeSource_setPending (n : ℕ) (v : Word) (q : List Instr) (s : State) :
    writeSource n v (setPending q s) = setPending q (writeSource n v s) := by
  simp [writeSource, ite_setPending]
@[simp] theorem bankStop_setPending (q : List Instr) (s : State) :
    bankStop (setPending q s) = bankStop s := (rfl)
@[simp] theorem busyRows_setPending (q : List Instr) (s : State) :
    busyRows (setPending q s) = busyRows s := (rfl)
@[simp] theorem heldBy_setPending (q : List Instr) (s : State) :
    heldBy (setPending q s) = heldBy s := (rfl)
@[simp] theorem passed_setPending (cr : CoreRun) (i : Iw) (k : Task) (p : Program) (rows : ℕ) (g : TaskRegs → TaskRegs) (q : List Instr) (s : State) :
    passed cr i k p rows g (setPending q s) = setPending q (passed cr i k p rows g s) := rfl
@[simp] theorem ovfUsed_setPending (q : List Instr) (s : State) :
    ovfUsed (setPending q s) = ovfUsed s := (rfl)
@[simp] theorem dropRef_setPending (k : ℕ) (v : Serving) (q : List Instr) (s : State) :
    dropRef k v (setPending q s) = setPending q (dropRef k v s) := by
  simp [dropRef, ite_setPending]
@[simp] theorem laneFails_setPending (q : List Instr) (s : State) :
    laneFails (setPending q s) = laneFails s := (rfl)
@[simp] theorem encInvert_setPending (q : List Instr) (s : State) :
    encInvert (setPending q s) = encInvert s := (rfl)
@[simp] theorem minGap_setPending (q : List Instr) (s : State) :
    minGap (setPending q s) = minGap s := (rfl)
@[simp] theorem busySeen_setPending (q : List Instr) (s : State) :
    busySeen (setPending q s) = setPending q (busySeen s) := rfl
@[simp] theorem writePolicy_setPending (v : Word) (q : List Instr) (s : State) :
    writePolicy v (setPending q s) = setPending q (writePolicy v s) := rfl
@[simp] theorem asPlaced_setPending (q : List Instr) (s : State) :
    asPlaced (setPending q s) = asPlaced s := (rfl)
@[simp] theorem refBytes_setPending (q : List Instr) (s : State) :
    refBytes (setPending q s) = refBytes s := (rfl)
@[simp] theorem refGood_setPending (q : List Instr) (s : State) :
    refGood (setPending q s) = refGood s := (rfl)
@[simp] theorem placedChecks_setPending (q : List Instr) (s : State) :
    placedChecks (setPending q s) = placedChecks s := (rfl)
@[simp] theorem lpAvail_setPending (q : List Instr) (s : State) :
    lpAvail (setPending q s) = lpAvail s := (rfl)
@[simp] theorem filterHit_setPending (q : List Instr) (s : State) :
    filterHit (setPending q s) = filterHit s := (rfl)
@[simp] theorem reportLost_setPending (q : List Instr) (s : State) :
    reportLost (setPending q s) = setPending q (reportLost s) := by
  simp [reportLost, ite_setPending]
@[simp] theorem ccBusy_setPending (q : List Instr) (s : State) :
    ccBusy (setPending q s) = ccBusy s := (rfl)
@[simp] theorem ccData_setPending (q : List Instr) (s : State) :
    ccData (setPending q s) = ccData s := (rfl)
@[simp] theorem writeCcCtl_setPending (n : ℕ) (v : ℕ) (q : List Instr) (s : State) :
    writeCcCtl n v (setPending q s) = setPending q (writeCcCtl n v s) := by
  simp [writeCcCtl, ite_setPending]
@[simp] theorem applyPending_setPending (k : ℕ) (c : ℕ) (q : List Instr) (s : State) :
    applyPending k c (setPending q s) = setPending q (applyPending k c s) := by
  unfold applyPending
  simp
  split <;> simp
@[simp] theorem FieldUp_setPending (q : List Instr) (s : State) :
    FieldUp (setPending q s) = FieldUp s := (rfl)
@[simp] theorem setCheck_setPending (x : CheckCtx) (q : List Instr) (s : State) :
    setCheck x (setPending q s) = setPending q (setCheck x s) := rfl
@[simp] theorem busyBound_setPending (q : List Instr) (s : State) :
    busyBound (setPending q s) = busyBound s := (rfl)
@[simp] theorem setLock_setPending (on : Bool) (q : List Instr) (s : State) :
    setLock on (setPending q s) = setPending q (setLock on s) := by
  simp [setLock, ite_setPending]
@[simp] theorem requestStep_setPending (by_ : ℤ) (to_ : Option DevTime) (q : List Instr) (s : State) :
    requestStep by_ to_ (setPending q s) = setPending q (requestStep by_ to_ s) := rfl
@[simp] theorem showAdj_setPending (q : List Instr) (s : State) :
    showAdj (setPending q s) = setPending q (showAdj s) := rfl
@[simp] theorem waitsOnPeer_setPending (q : List Instr) (s : State) :
    waitsOnPeer (setPending q s) = waitsOnPeer s := (rfl)
@[simp] theorem victimFor_setPending (q : List Instr) (s : State) :
    victimFor (setPending q s) = victimFor s := (rfl)
@[simp] theorem claimVictim_setPending (k : Task) (q : List Instr) (s : State) :
    claimVictim k (setPending q s) = setPending q (claimVictim k s) := by
  unfold claimVictim
  simp
  (repeat' split) <;> simp
@[simp] theorem dmaStart_setPending (q : List Instr) (s : State) :
    dmaStart (setPending q s) = dmaStart s := (rfl)
@[simp] theorem govD_setPending (q : List Instr) (s : State) :
    govD (setPending q s) = govD s := (rfl)
@[simp] theorem govDMin_setPending (q : List Instr) (s : State) :
    govDMin (setPending q s) = govDMin s := (rfl)
@[simp] theorem txHeld_setPending (q : List Instr) (s : State) :
    txHeld (setPending q s) = txHeld s := (rfl)
@[simp] theorem ethModeOk_setPending (q : List Instr) (s : State) :
    ethModeOk (setPending q s) = ethModeOk s := (rfl)
@[simp] theorem setEthLink_setPending (up : Bool) (q : List Instr) (s : State) :
    setEthLink up (setPending q s) = setPending q (setEthLink up s) := by
  simp [setEthLink]
@[simp] theorem judgeEthMode_setPending (q : List Instr) (s : State) :
    judgeEthMode (setPending q s) = setPending q (judgeEthMode s) := by
  simp [judgeEthMode, ite_setPending]
@[simp] theorem applyLeaves_setPending (c : ℕ) (q : List Instr) (s : State) :
    applyLeaves c (setPending q s) = setPending q (applyLeaves c s) := rfl
@[simp] theorem seqItemGone_setPending (q : List Instr) (s : State) :
    seqItemGone (setPending q s) = seqItemGone s := (rfl)
@[simp] theorem wdogOn_setPending (q : List Instr) (s : State) :
    wdogOn (setPending q s) = wdogOn s := (rfl)
@[simp] theorem MayWrite_setPending (q : List Instr) (s : State) :
    MayWrite (setPending q s) = MayWrite s := (rfl)
@[simp] theorem assignBuffer_setPending (k : ℕ) (b : Binding) (q : List Instr) (s : State) :
    assignBuffer k b (setPending q s) = setPending q (assignBuffer k b s) := rfl
@[simp] theorem loaderHashes_setPending (cs : List (Bool × LoadFail)) (ls : List (Option ℕ)) (q : List Instr) (s : State) :
    loaderHashes cs ls (setPending q s) = setPending q (loaderHashes cs ls s) := rfl
@[simp] theorem setBlock_setPending (b : CtxBlock) (q : List Instr) (s : State) :
    setBlock b (setPending q s) = setPending q (setBlock b s) := rfl
@[simp] theorem ensureQueue_setPending (h : ℕ) (q' : ℕ) (q : List Instr) (s : State) :
    ensureQueue h q' (setPending q s) = setPending q (ensureQueue h q' s) := by
  unfold ensureQueue
  rw [← ite_setPending]
  rfl
@[simp] theorem beating_setPending (q : List Instr) (s : State) :
    beating (setPending q s) = beating s := (rfl)
@[simp] theorem barcodeStart_setPending (q : List Instr) (s : State) :
    barcodeStart (setPending q s) = barcodeStart s := (rfl)
@[simp] theorem ctxArea_setPending (q : List Instr) (s : State) :
    ctxArea (setPending q s) = ctxArea s := (rfl)
@[simp] theorem writeSpare_setPending (w : Writer) (v : Word) (q : List Instr) (s : State) :
    writeSpare w v (setPending q s) = setPending q (writeSpare w v s) := by
  unfold writeSpare
  rw [← ite_setPending]
  rfl
@[simp] theorem blvMeets_setPending (p : ℕ) (part : ℕ) (credits : List ℕ) (q : List Instr) (s : State) :
    blvMeets p part credits (setPending q s) = setPending q (blvMeets p part credits s) := by
  simp [blvMeets, ite_setPending]
@[simp] theorem obsBw_setPending (q : List Instr) (s : State) :
    obsBw (setPending q s) = obsBw s := (rfl)
@[simp] theorem pastDeadline_setPending (q : List Instr) (s : State) :
    pastDeadline (setPending q s) = pastDeadline s := (rfl)
@[simp] theorem nextHandle_setPending (q : List Instr) (s : State) :
    nextHandle (setPending q s) = nextHandle s := (rfl)
@[simp] theorem ctlWith_setPending (q : List Instr) (s : State) :
    ctlWith (setPending q s) = ctlWith s := (rfl)
@[simp] theorem setLink_setPending (n : ℕ) (state : ℕ) (up : ℕ) (speed : ℕ) (q : List Instr) (s : State) :
    setLink n state up speed (setPending q s) = setPending q (setLink n state up speed s) := by
  simp [setLink, ite_setPending]
@[simp] theorem slotToWrite_setPending (q : List Instr) (s : State) :
    slotToWrite (setPending q s) = slotToWrite s := (rfl)
@[simp] theorem queueAt_setPending (q : List Instr) (s : State) :
    queueAt (setPending q s) = queueAt s := (rfl)
@[simp] theorem encMode_setPending (q : List Instr) (s : State) :
    encMode (setPending q s) = encMode s := (rfl)
@[simp] theorem pushStamp_setPending (f : List Byte) (t : DevTime) (q : List Instr) (s : State) :
    pushStamp f t (setPending q s) = setPending q (pushStamp f t s) := by
  simp [pushStamp, ite_setPending]
@[simp] theorem recordStart_setPending (q : List Instr) (s : State) :
    recordStart (setPending q s) = recordStart s := (rfl)
@[simp] theorem sendAllPending_setPending (q : List Instr) (s : State) :
    sendAllPending (setPending q s) = setPending q (sendAllPending s) := by
  simp [sendAllPending, foldl_setPending]
@[simp] theorem sortStart_setPending (q : List Instr) (s : State) :
    sortStart (setPending q s) = sortStart s := (rfl)
@[simp] theorem writeWinWord_setPending (n : ℕ) (off : ℕ) (v : Word) (q : List Instr) (s : State) :
    writeWinWord n off v (setPending q s) = setPending q (writeWinWord n off v s) := by
  unfold writeWinWord
  rw [← ite_setPending]
  rfl
@[simp] theorem loaderJobs_setPending (img : List Byte) (q : List Instr) (s : State) :
    loaderJobs img (setPending q s) = setPending q (loaderJobs img s) := by
  unfold loaderJobs
  rw [← ite_setPending]
  rfl
@[simp] theorem addErrors_setPending (p : ℕ) (l : ℕ) (n : ℕ) (q : List Instr) (s : State) :
    addErrors p l n (setPending q s) = setPending q (addErrors p l n s) := rfl
@[simp] theorem checkBackup_setPending (q : List Instr) (s : State) :
    checkBackup (setPending q s) = setPending q (checkBackup s) := by
  unfold checkBackup
  rw [← ite_setPending]
  rfl
@[simp] theorem caddyFields_setPending (q : List Instr) (s : State) :
    caddyFields (setPending q s) = caddyFields s := (rfl)
@[simp] theorem configureStart_setPending (q : List Instr) (s : State) :
    configureStart (setPending q s) = configureStart s := (rfl)
@[simp] theorem setPrio_setPending (h : ℕ) (tmpl : ℕ) (prio : ℕ) (q : List Instr) (s : State) :
    setPrio h tmpl prio (setPending q s) = setPending q (setPrio h tmpl prio s) := rfl
@[simp] theorem setMapped_setPending (q : List Instr) (s : State) :
    setMapped (setPending q s) = setMapped s := (rfl)
@[simp] theorem shiftTimes_setPending (d : ℤ) (q : List Instr) (s : State) :
    shiftTimes d (setPending q s) = setPending q (shiftTimes d s) := rfl
@[simp] theorem timSet_setPending (q : List Instr) (s : State) :
    timSet (setPending q s) = timSet s := (rfl)
@[simp] theorem idleOk_setPending (q : List Instr) (s : State) :
    idleOk (setPending q s) = idleOk s := (rfl)
@[simp] theorem jobsOfProg_setPending (q : List Instr) (s : State) :
    jobsOfProg (setPending q s) = jobsOfProg s := (rfl)
@[simp] theorem argProg_setPending (q : List Instr) (s : State) :
    argProg (setPending q s) = argProg s := (rfl)
@[simp] theorem frameTaken_setPending (q : List Instr) (s : State) :
    frameTaken (setPending q s) = frameTaken s := (rfl)
@[simp] theorem warpFields_setPending (q : List Instr) (s : State) :
    warpFields (setPending q s) = warpFields s := (rfl)
@[simp] theorem warpStart_setPending (q : List Instr) (s : State) :
    warpStart (setPending q s) = warpStart s := (rfl)
@[simp] theorem cxpPwrEn_setPending (q : List Instr) (s : State) :
    cxpPwrEn (setPending q s) = cxpPwrEn s := (rfl)
@[simp] theorem streamBytes_setPending (q : List Instr) (s : State) :
    streamBytes (setPending q s) = streamBytes s := (rfl)
@[simp] theorem cfgAnswers_setPending (q : List Instr) (s : State) :
    cfgAnswers (setPending q s) = cfgAnswers s := (rfl)
@[simp] theorem writeQuota_setPending (p : ℕ) (v : ℕ) (q : List Instr) (s : State) :
    writeQuota p v (setPending q s) = setPending q (writeQuota p v s) := by
  simp [writeQuota, ite_setPending]
@[simp] theorem taken_setPending (eng : ℕ) (j : Job) (q : List Instr) (s : State) :
    taken eng j (setPending q s) = setPending q (taken eng j s) := rfl
@[simp] theorem portsUp_setPending (q : List Instr) (s : State) :
    portsUp (setPending q s) = portsUp s := (rfl)
@[simp] theorem signatureMissing_setPending (q : List Instr) (s : State) :
    signatureMissing (setPending q s) = signatureMissing s := (rfl)
@[simp] theorem stage3_setPending (q : List Instr) (s : State) :
    stage3 (setPending q s) = stage3 s := (rfl)
@[simp] theorem stripeDue_setPending (q : List Instr) (s : State) :
    stripeDue (setPending q s) = stripeDue s := (rfl)
@[simp] theorem nextLine_setPending (l : ℕ) (q : List Instr) (s : State) :
    nextLine l (setPending q s) = setPending q (nextLine l s) := by
  simp [nextLine, ite_setPending]
@[simp] theorem roundNs_setPending (d : ℤ) (q : List Instr) (s : State) :
    roundNs d (setPending q s) = ((roundNs d s).1, setPending q (roundNs d s).2) := rfl
@[simp] theorem writeTimCtl_setPending (v : Word) (q : List Instr) (s : State) :
    writeTimCtl v (setPending q s) = setPending q (writeTimCtl v s) := by
  simp [writeTimCtl, ite_setPending]
@[simp] theorem writeEdgeWords_setPending (n : ℕ) (level : Bool) (t : DevTime) (p : Pos) (q : List Instr) (s : State) :
    writeEdgeWords n level t p (setPending q s) = setPending q (writeEdgeWords n level t p s) := rfl
@[simp] theorem blvTest_setPending (q : List Instr) (s : State) :
    blvTest (setPending q s) = blvTest s := (rfl)
@[simp] theorem ceiling_setPending (q : List Instr) (s : State) :
    ceiling (setPending q s) = ceiling s := (rfl)
@[simp] theorem devCheck_setPending (q : List Instr) (s : State) :
    devCheck (setPending q s) = devCheck s := (rfl)
@[simp] theorem profileOf_setPending (q : List Instr) (s : State) :
    profileOf (setPending q s) = profileOf s := (rfl)
@[simp] theorem barBudget_setPending (q : List Instr) (s : State) :
    barBudget (setPending q s) = barBudget s := (rfl)
@[simp] theorem writeRing_setPending (d : RegDef) (off : ℕ) (r : ℕ) (v : Word) (q : List Instr) (s : State) :
    writeRing d off r v (setPending q s) = setPending q (writeRing d off r v s) := by
  unfold writeRing
  rw [← ite_setPending]
  rfl
@[simp] theorem moveNs_setPending (q : List Instr) (s : State) :
    moveNs (setPending q s) = moveNs s := (rfl)
@[simp] theorem slackBound_setPending (q : List Instr) (s : State) :
    slackBound (setPending q s) = slackBound s := (rfl)
@[simp] theorem govTarget_setPending (q : List Instr) (s : State) :
    govTarget (setPending q s) = govTarget s := (rfl)
@[simp] theorem govNext_setPending (q : List Instr) (s : State) :
    govNext (setPending q s) = govNext s := (rfl)
@[simp] theorem startFirmware_setPending (slot : ℕ) (img : List Byte) (q : List Instr) (s : State) :
    startFirmware slot img (setPending q s) = setPending q (startFirmware slot img s) := rfl
@[simp] theorem writeWdog_setPending (v : Word) (q : List Instr) (s : State) :
    writeWdog v (setPending q s) = setPending q (writeWdog v s) := rfl
@[simp] theorem modEdge_setPending (f : Edge → Edge) (q : List Instr) (s : State) :
    modEdge f (setPending q s) = setPending q (modEdge f s) := rfl
@[simp] theorem routeRefused_setPending (q : List Instr) (s : State) :
    routeRefused (setPending q s) = routeRefused s := (rfl)
@[simp] theorem writeRoute_setPending (k : ℕ) (v : ℕ) (q : List Instr) (s : State) :
    writeRoute k v (setPending q s) = setPending q (writeRoute k v s) := by
  unfold writeRoute
  rw [← ite_setPending]
  rfl
@[simp] theorem encUp_setPending (q : List Instr) (s : State) :
    encUp (setPending q s) = encUp s := (rfl)
@[simp] theorem observe_setPending (n : ℕ) (q : List Instr) (s : State) :
    observe n (setPending q s) = setPending q (observe n s) := by
  simp [observe, ite_setPending]
@[simp] theorem dumpPoison_setPending (r : TaskRegs) (a1 : ℕ) (q : List Instr) (s : State) :
    dumpPoison r a1 (setPending q s) = setPending q (dumpPoison r a1 s) := by
  unfold dumpPoison
  split <;> rfl
@[simp] theorem Quiet_setPending (q : List Instr) (s : State) :
    Quiet (setPending q s) = Quiet s := (rfl)
@[simp] theorem noteMismatch_setPending (h : ℕ) (ctx : ℕ) (addr : ℕ) (len : ℕ) (q : List Instr) (s : State) :
    noteMismatch h ctx addr len (setPending q s) = setPending q (noteMismatch h ctx addr len s) := by
  simp [noteMismatch, ite_setPending]
@[simp] theorem setTarget_setPending (k : ℕ) (n : ℕ) (q : List Instr) (s : State) :
    setTarget k n (setPending q s) = setPending q (setTarget k n s) := rfl
@[simp] theorem dropSample_setPending (o : Offer) (q : List Instr) (s : State) :
    dropSample o (setPending q s) = setPending q (dropSample o s) := by
  simp [dropSample, ite_setPending]
@[simp] theorem sendFrame_setPending (e : TxEntry) (q : List Instr) (s : State) :
    sendFrame e (setPending q s) = setPending q (sendFrame e s) := by
  simp [sendFrame, ite_setPending]
@[simp] theorem extToken_setPending (q : List Instr) (s : State) :
    extToken (setPending q s) = extToken s := (rfl)
@[simp] theorem encSerial_setPending (q : List Instr) (s : State) :
    encSerial (setPending q s) = encSerial s := (rfl)
@[simp] theorem holdRelease_setPending (e : HistEntry) (q : List Instr) (s : State) :
    holdRelease e (setPending q s) = setPending q (holdRelease e s) := by
  simp [holdRelease, ite_setPending]
@[simp] theorem dropSignal_setPending (p : ℕ) (q : List Instr) (s : State) :
    dropSignal p (setPending q s) = setPending q (dropSignal p s) := rfl
@[simp] theorem GuardFails_setPending (op : ℕ) (u : Use) (cr : CoreRun) (i : Iw) (k : Task) (p : Program) (q : List Instr) (s : State) :
    GuardFails op u cr i k p (setPending q s) = GuardFails op u cr i k p s := (rfl)
theorem foldl_setPending_of {α : Type} (f g : State → α → State) (h : ∀ q s a, f (setPending q s) a = setPending q (g s a)) (l : List α)
    (q : List Instr) (s : State) : l.foldl f (setPending q s) = setPending q (l.foldl g s) := by
  induction l generalizing s with
  | nil => rfl
  | cons a l ih => rw [List.foldl_cons, h, ih]; rfl

@[simp] theorem setFlags_setPending (off : ℕ) (fs : List ℕ) (q : List Instr) (s : State) :
    setFlags off fs (setPending q s) = setPending q (setFlags off fs s) := foldl_setPending _ (by simp) _ _ _

theorem oneClock_setPending {f : State → State} (hf : ∀ q s, f (setPending q s) = setPending q (f s)) (q : List Instr) (s : State) :
    oneClock f (setPending q s) = setPending q (oneClock f s) := by
  unfold oneClock
  simp [hf]
  split <;> rfl

@[simp] theorem serveLoop_setPending (n h i : ℕ) (q : List Instr) (s : State) :
    serveLoop n h i (setPending q s) = setPending q (serveLoop n h i s) := by
  induction n generalizing s with
  | zero => rfl
  | succ n ih =>
    simp only [serveLoop, serveOne_setPending]
    cases serveOne h i s <;> simp [ih]

@[simp] theorem closeFramesOf_setPending (id : Word) (q : List Instr) (s : State) :
    closeFramesOf id (setPending q s) = setPending q (closeFramesOf id s) := by
  refine foldl_setPending _ (fun q s p => ?_) _ _ _
  simp
  split
  · split <;> simp
  · rfl

@[simp] theorem placementPoint_setPending (t : TaskId) (n : ℕ) (q : List Instr) (s : State) :
    placementPoint t n (setPending q s) = setPending q (placementPoint t n s) := by
  unfold placementPoint
  simp
  cases taskOf s t with
  | none => rfl
  | some k =>
    dsimp only
    rw [← ite_setPending]
    congr 1
    split <;> simp

@[simp] theorem alloc_setPending (p n handle kind : ℕ) (q : List Instr) (s : State) :
    alloc p n handle kind (setPending q s) = ((alloc p n handle kind s).1, setPending q (alloc p n handle kind s).2) := by
  by_cases h0 : n = 0
  · simp [alloc, h0]
  by_cases hq : partEn s p = false ∨ quotaOf s p < partUse s p + n
  · simp [alloc, h0, hq]
  · cases hg : (gaps 0 s.sq.runs).find? (fun g => decide (n ≤ g.2)) <;> simp [alloc, h0, hq, hg]

@[simp] theorem readRows_setPending (ecc : List EccHit) (len : ℕ) (rs : List (ℕ × ℕ)) (q : List Instr) (s : State) :
    readRows ecc len rs (setPending q s) =
      ((readRows ecc len rs s).1, (readRows ecc len rs s).2.1, setPending q (readRows ecc len rs s).2.2) := by
  induction rs generalizing s with
  | nil => rfl
  | cons e es ih =>
    simp only [readRows, readMem_setPending]
    split <;> simp [ih]

@[simp] theorem writeMem_setPending (n a : ℕ) (bs : List Byte) (ecc : List EccHit) (q : List Instr) (s : State) :
    writeMem n a bs ecc (setPending q s) = ((writeMem n a bs ecc s).1, setPending q (writeMem n a bs ecc s).2) := by
  induction n generalizing a bs s with
  | zero => rfl
  | succ n ih =>
    cases bs with
    | nil => rfl
    | cons b bs =>
      simp only [writeMem, writeLine_setPending]
      split <;> simp [ih]

@[simp] theorem matchEntry_setPending (t : TaskId) (sel : RecEntry → Bool) (q : List Instr) (s : State) :
    matchEntry t sel (setPending q s) = (matchEntry t sel s).map (fun r => (r.1, setPending q r.2)) := by
  unfold matchEntry
  simp
  split <;> simp

@[simp] theorem matchJobs_setPending (t : TaskId) (kind m : ℕ) (q : List Instr) (s : State) :
    matchJobs t kind m (setPending q s) = setPending q (matchJobs t kind m s) := by
  induction m generalizing s with
  | zero => rfl
  | succ m ih =>
    simp only [matchJobs, matchEntry_setPending]
    cases matchEntry t (fun e => e == .enq kind) s <;> simp [ih]

@[simp] theorem enqLoop_setPending (x : Issue) (kind addr : ℕ) (ds : List (List Byte)) (q : List Instr) (s : State) :
    enqLoop x kind addr ds (setPending q s) = setPending q (enqLoop x kind addr ds s) := by
  induction ds generalizing addr s with
  | nil => simp [enqLoop]
  | cons d ds ih => simp [enqLoop, ih, ite_setPending]

@[simp] theorem serveLocal_setPending (t : TaskId) (tok n : ℕ) (q : List Instr) (s : State) :
    serveLocal t tok n (setPending q s) = setPending q (serveLocal t tok n s) := by
  induction n generalizing s with
  | zero => rfl
  | succ n ih =>
    simp only [serveLocal, taskOf_setPending]
    split
    · rfl
    split
    · split <;> simp [ih]
    · rfl

@[simp] theorem closeIfDone_setPending (p : ℕ) (q : List Instr) (s : State) :
    closeIfDone p (setPending q s) = setPending q (closeIfDone p s) := by
  refine foldl_setPending _ (fun q s _ => ?_) _ _ _
  simp
  split
  · split <;> simp
  · rfl

@[simp] theorem passGates_setPending (p : ℕ) (q : List Instr) (s : State) :
    passGates p (setPending q s) = setPending q (passGates p s) := by
  unfold passGates
  rw [foldl_setPending _ (by simp), ite_setPending]
  rfl

@[simp] theorem sendHeld_setPending (n p : ℕ) (q : List Instr) (s : State) :
    sendHeld n p (setPending q s) = setPending q (sendHeld n p s) := by
  induction n generalizing s with
  | zero => rfl
  | succ n ih =>
    unfold sendHeld
    rw [blvOf_setPending]
    split
    · rfl
    · simp [ih]

@[simp] theorem endEarlyN_setPending (n : ℕ) (q : List Instr) (s : State) :
    endEarlyN n (setPending q s) = setPending q (endEarlyN n s) := by
  induction n generalizing s with
  | zero => rfl
  | succ n ih =>
    simp only [endEarlyN, turn_setPending]
    split
    · rfl
    split <;> simp [ih]

theorem pass_setPending (w : Writer) (off : ℕ) {f : State → State} (hf : ∀ q s, f (setPending q s) = setPending q (f s))
    (q : List Instr) (s : State) : pass w off f (setPending q s) = setPending q (pass w off f s) := by
  unfold pass
  rw [silent_setPending]
  split
  · rfl
  split
  · simp
  · simp [hf, ite_setPending]

theorem takeMsg_setPending (train : Bool) {f : KerbMsg → State → State} (hf : ∀ m q s, f m (setPending q s) = setPending q (f m s))
    (q : List Instr) (s : State) : takeMsg train f (setPending q s) = setPending q (takeMsg train f s) := by
  unfold takeMsg
  rw [setPending_ouv, setPending_toKerb]
  split
  · rfl
  split
  · rfl
  · exact hf _ q { s with toKerb := dropFirst (fun x => x.train == train) s.toKerb }

@[simp] theorem countClosed_setPending (q : List Instr) (s : State) : countClosed (setPending q s) = setPending q (countClosed s) := by
  refine foldl_setPending _ (fun q s _ => ?_) _ _ _
  rw [← ite_setPending]
  simp

@[simp] theorem idRun_setPending (i n : ℕ) (q : List Instr) (s : State) : idRun (setPending q s) i n = idRun s i n := by
  induction n generalizing i with
  | zero => rfl
  | succ n ih => simp [idRun, ih]

@[simp] theorem driveOut_setPending (n : ℕ) (q : List Instr) (s : State) :
    driveOut n (setPending q s) = setPending q (driveOut n s) := by
  unfold driveOut
  simp only [isOut_setPending, safeOn_setPending, wantsOn_setPending, outputOf_setPending, startLimit_setPending]
  split
  · rfl
  split
  · rfl
  split
  · simp
  · rfl

@[simp] theorem writeBlockLists_setPending (c : ℕ) (q : List Instr) (s : State) :
    writeBlockLists c (setPending q s) = setPending q (writeBlockLists c s) := foldl_setPending _ (by simp) _ _ _

@[simp] theorem drainOverflow_setPending (n : ℕ) (abort : Option ℕ) (q : List Instr) (s : State) :
    drainOverflow n abort (setPending q s) = setPending q (drainOverflow n abort s) := by
  induction n generalizing abort s with
  | zero => rfl
  | succ n ih =>
    simp only [drainOverflow, setPending_led, ringFree_setPending, ovfGet_setPending]
    split
    · rfl
    rw [← ite_setPending]
    congr 1
    split <;> simp [ih]

@[simp] theorem latchBlock_setPending (b : SnapBlock) (q : List Instr) (s : State) :
    latchBlock b (setPending q s) = setPending q (latchBlock b s) := by
  have hfold := foldl_setPending (fun s o => wr o (counterNow s o) s) (fun q s o => by simp)
  simp only [latchBlock, noteWaits_setPending, ite_setPending, wr_setPending, hfold, rd_setPending, wrF_setPending]

@[simp] theorem functionReset_setPending (q : List Instr) (s : State) :
    functionReset (setPending q s) = setPending q (functionReset s) := by
  unfold functionReset
  rw [setPending_host, setFlag_setPending, ite_setPending]
  simp

@[simp] theorem takeLines_setPending (p : ℕ) (q : List Instr) (s : State) :
    takeLines p (setPending q s) = setPending q (takeLines p s) := by
  have hfold : ∀ (f : Frame) (l : List StoredLine) (acc : List (List ℕ)) (s : State),
      l.foldl (fun a l => let (x, t) := fetchLine p f l a.2; (a.1 ++ [x], t)) (acc, setPending q s) =
        ((l.foldl (fun a l => let (x, t) := fetchLine p f l a.2; (a.1 ++ [x], t)) (acc, s)).1,
          setPending q (l.foldl (fun a l => let (x, t) := fetchLine p f l a.2; (a.1 ++ [x], t)) (acc, s)).2) := by
    intro f l
    induction l with
    | nil => intros; rfl
    | cons a l ih => intro acc s; simp [ih]
  unfold takeLines
  simp only [pipeOf_setPending, setPending_pipes, setPending_ports]
  split
  · rfl
  split
  · rfl
  split
  · rfl
  · simp only [hfold, modPipe_setPending, modPort_setPending]

theorem takeOp_setPending (kind eng : ℕ) (ops : List ℕ) {f : Job → State → State}
    (hf : ∀ j q s, f j (setPending q s) = setPending q (f j s)) (q : List Instr) (s : State) :
    takeOp kind eng ops f (setPending q s) = setPending q (takeOp kind eng ops f s) := by
  unfold takeOp
  simp only [groupUp_setPending, runningOn_setPending, nextJob_setPending]
  split
  · rfl
  split
  · rfl
  · simp [hf, ite_setPending]

@[simp] theorem enqGoesOn_setPending (n : ℕ) (q : List Instr) (s : State) :
    enqGoesOn n (setPending q s) = setPending q (enqGoesOn n s) := by
  unfold enqGoesOn
  rw [coreOf_setPending, taskOf_setPending]
  split
  · rfl
  · refine foldl_setPending _ (fun q s w => ?_) _ _ _
    split
    · exact foldl_setPending _ (by simp) _ _ _
    · rfl

@[simp] theorem pollEntries_setPending (abort : Option ℕ) (f n : ℕ) (q : List Instr) (s : State) :
    pollEntries abort f n (setPending q s) = ((pollEntries abort f n s).1, setPending q (pollEntries abort f n s).2) := by
  induction f generalizing n s with
  | zero => rfl
  | succ f ih =>
    simp only [pollEntries, openCount_setPending, hostCanRead_setPending, ringSize_setPending, ringBase_setPending, rd_setPending,
      hostGet_setPending]
    split
    · rfl
    split
    · simp
    split
    · simp
    · simp [ih]

@[simp] theorem readReg_setPending (w : Writer) (off : ℕ) (q : List Instr) (s : State) :
    readReg w off (setPending q s) = ((readReg w off s).1, setPending q (readReg w off s).2) := by
  unfold readReg
  rw [silent_setPending]
  split
  · rfl
  split
  · simp
  rw [setPending_ouv]
  split
  · rfl
  split
  · simp
  · simp

@[simp] theorem writeOvf_setPending (d : RegDef) (off : ℕ) (v : Word) (q : List Instr) (s : State) :
    writeOvf d off v (setPending q s) = setPending q (writeOvf d off v s) := by
  simp [writeOvf, ite_setPending]

@[simp] theorem queueParts_setPending (seq parts : ℕ) (bs : List Byte) (n : ℕ) (q : List Instr) (s : State) :
    queueParts seq parts bs n (setPending q s) = setPending q (queueParts seq parts bs n s) := by
  induction n generalizing s with
  | zero => rfl
  | succ n ih => simp [queueParts, ih]

theorem onOuvfi_setPending {f : State → State} (hf : ∀ q s, f (setPending q s) = setPending q (f s)) (q : List Instr) (s : State) :
    onOuvfi f (setPending q s) = setPending q (onOuvfi f s) := by
  simp [onOuvfi, hf, ite_setPending]

@[simp] theorem ovfPut_setPending (q : List Instr) (s : State) (k : ℕ) (es : List (List Byte)) :
    ovfPut (setPending q s) k es = setPending q (ovfPut s k es) := by
  unfold ovfPut
  simp only [ovfBase_setPending, ovfCap_setPending]
  exact foldl_setPending _ (by simp) _ _ _

@[simp] theorem readExtents_setPending (es : List (ℕ × ℕ)) (acc : List Byte) (q : List Instr) (s : State) :
    readExtents es acc (setPending q s) = ((readExtents es acc s).1, setPending q (readExtents es acc s).2) := by
  induction es generalizing acc s with
  | nil => rfl
  | cons e es ih =>
    simp only [readExtents, readMem_setPending]
    split
    · exact ih _ _
    split <;> simp [ih]

@[simp] theorem judgeLock_setPending (o : ℤ) (q : List Instr) (s : State) :
    judgeLock o (setPending q s) = setPending q (judgeLock o s) := by
  unfold judgeLock
  rw [rdF_setPending, setPending_tim]
  split <;> simp [ite_setPending]

@[simp] theorem writePctl_setPending (k c v : ℕ) (q : List Instr) (s : State) :
    writePctl k c v (setPending q s) = setPending q (writePctl k c v s) := by
  simp [writePctl, ite_setPending]

@[simp] theorem removeGone_setPending (c : ℕ) (q : List Instr) (s : State) :
    removeGone c (setPending q s) = setPending q (removeGone c s) := by
  unfold removeGone
  simp only [kvTargetBlocks_setPending, clientOf_setPending, seqItemGone_setPending, setPending_seqs]
  rw [foldl_setPending _ (by simp), count_setPending, dropSeqs_setPending]

@[simp] theorem admitJoins_setPending (c n : ℕ) (q : List Instr) (s : State) :
    admitJoins c n (setPending q s) = setPending q (admitJoins c n s) := by
  induction n generalizing s with
  | zero => rfl
  | succ n ih =>
    simp only [admitJoins, setPending_seqs, clientOf_setPending, freeBlocks_setPending, partOver_setPending, kvBlk_setPending]
    split
    · rfl
    split
    · rfl
    split
    · rfl
    · rw [← ih]
      rfl

@[simp] theorem serveJoins_setPending (n h : ℕ) (q : List Instr) (s : State) :
    serveJoins n h (setPending q s) = setPending q (serveJoins n h s) := by
  induction n generalizing s with
  | zero => rfl
  | succ n ih =>
    simp only [serveJoins, progOf_setPending, freeSeqId_setPending, oldestJoin_setPending]
    split
    · rfl
    split
    · split <;> simp [ih]
    · rfl

@[simp] theorem copyPlaced_setPending (img : List Byte) (ps : List (ℕ × ℕ × ℕ)) (q : List Instr) (s : State) :
    copyPlaced img ps (setPending q s) = setPending q (copyPlaced img ps s) := foldl_setPending _ (by simp) _ _ _

@[simp] theorem shrinkPool_setPending (p : ℕ) (q : List Instr) (s : State) :
    shrinkPool p (setPending q s) = setPending q (shrinkPool p s) := by
  unfold shrinkPool
  simp only [poolGran_setPending, kvTarget_setPending, emptyPoolGran_setPending]
  exact foldl_setPending _ (by simp) _ _ _

@[simp] theorem aliasRead_setPending (a size : ℕ) (q : List Instr) (s : State) :
    aliasRead a size (setPending q s) = ((aliasRead a size s).1, setPending q (aliasRead a size s).2) := by
  unfold aliasRead
  dsimp only
  rw [silent_setPending]
  split
  · rfl
  split
  · simp
  split
  · simp
  split
  · simp
  · simp

@[simp] theorem writeBlvCtl_setPending (p : ℕ) (v : Word) (q : List Instr) (s : State) :
    writeBlvCtl p v (setPending q s) = setPending q (writeBlvCtl p v s) := by
  simp [writeBlvCtl, ite_setPending]

@[simp] theorem queueChecks_setPending (img : List Byte) (q : List Instr) (s : State) :
    queueChecks img (setPending q s) = setPending q (queueChecks img s) := queueLoader_setPending _ _ q s

@[simp] theorem testedBanks_setPending (bad : List ℕ) (q : List Instr) (s : State) :
    testedBanks bad (setPending q s) = setPending q (testedBanks bad s) := by
  unfold testedBanks
  dsimp only
  rw [foldl_setPending _ (by simp), modSq_setPending]

@[simp] theorem dropLoad_setPending (h : ℕ) (q : List Instr) (s : State) :
    dropLoad h (setPending q s) = setPending q (dropLoad h s) := by
  unfold dropLoad
  rw [foldl_setPending _ (by simp), freeHolder_setPending]
  rfl

@[simp] theorem writeRstBoot_setPending (v : Word) (q : List Instr) (s : State) :
    writeRstBoot v (setPending q s) = setPending q (writeRstBoot v s) := by
  simp [writeRstBoot, ite_setPending]

@[simp] theorem openBatch_setPending (h k : ℕ) (q : List Instr) (s : State) :
    openBatch h k (setPending q s) = setPending q (openBatch h k s) := by
  simp [openBatch]
@[simp] theorem serveToken_setPending (h : ℕ) (i : ℕ) (q : List Instr) (s : State) :
    serveToken h i (setPending q s) = setPending q (serveToken h i s) := by
  simp [serveToken]
@[simp] theorem beginCtlYield_setPending (x : Issue) (q : List Instr) (s : State) :
    beginCtlYield x (setPending q s) = setPending q (beginCtlYield x s) := by
  simp [beginCtlYield]
@[simp] theorem writeAll_setPending (a0 : ℕ) (bs : List Byte) (ecc : List EccHit) (q : List Instr) (s : State) :
    writeAll a0 bs ecc (setPending q s) = ((writeAll a0 bs ecc s).1, setPending q (writeAll a0 bs ecc s).2) := by
  simp [writeAll]
@[simp] theorem trainEnded_setPending (p : ℕ) (item : Word) (q : List Instr) (s : State) :
    trainEnded p item (setPending q s) = setPending q (trainEnded p item s) := by
  simp [trainEnded, ite_setPending]
@[simp] theorem endTrain_setPending (e : ℕ) (q : List Instr) (s : State) :
    endTrain e (setPending q s) = setPending q (endTrain e s) := by
  simp [endTrain]
@[simp] theorem setStop_setPending (e : ℕ) (close : Pos) (q : List Instr) (s : State) :
    setStop e close (setPending q s) = setPending q (setStop e close s) := by
  simp [setStop, ite_setPending]
@[simp] theorem closeTrains_setPending (k : ℕ) (p : Pos) (q : List Instr) (s : State) :
    closeTrains k p (setPending q s) = setPending q (closeTrains k p s) := by
  simp [closeTrains, ite_setPending, foldl_setPending]
@[simp] theorem writeAuxCtl_setPending (n : ℕ) (v : ℕ) (q : List Instr) (s : State) :
    writeAuxCtl n v (setPending q s) = setPending q (writeAuxCtl n v s) := by
  simp [writeAuxCtl, ite_setPending]
@[simp] theorem releaseHeld_setPending (p : ℕ) (q : List Instr) (s : State) :
    releaseHeld p (setPending q s) = setPending q (releaseHeld p s) := by
  simp [releaseHeld]
@[simp] theorem sendFlits_setPending (p : ℕ) (vc : ℕ) (n : ℕ) (q : List Instr) (s : State) :
    sendFlits p vc n (setPending q s) = setPending q (sendFlits p vc n s) := by
  simp [sendFlits]
@[simp] theorem devRead_setPending (a0 : ℕ) (n : ℕ) (ecc : List EccHit) (q : List Instr) (s : State) :
    devRead a0 n ecc (setPending q s) = ((devRead a0 n ecc s).1, setPending q (devRead a0 n ecc s).2) := by
  unfold devRead
  simp
  (repeat' split) <;> simp
@[simp] theorem dmaFails_setPending (ch : ℕ) (d : List Byte) (answer : ℕ) (q : List Instr) (s : State) :
    dmaFails ch d answer (setPending q s) = setPending q (dmaFails ch d answer s) := by
  unfold dmaFails
  (repeat' split) <;> simp
@[simp] theorem endEarly_setPending (q : List Instr) (s : State) :
    endEarly (setPending q s) = setPending q (endEarly s) := by
  simp [endEarly]
@[simp] theorem finishSub_setPending (e : Submission) (status : ℕ) (data : List Byte) (q : List Instr) (s : State) :
    finishSub e status data (setPending q s) = setPending q (finishSub e status data s) := by
  simp [finishSub]
@[simp] theorem countMicro_setPending (q : List Instr) (s : State) :
    countMicro (setPending q s) = setPending q (countMicro s) := by
  simp [countMicro, ite_setPending, foldl_setPending]
@[simp] theorem findIds_setPending (q : List Instr) (s : State) :
    findIds (setPending q s) = findIds s := by
  unfold findIds
  (repeat' split) <;> simp
@[simp] theorem runRead_setPending (m : MemRun) (a1 : ℕ) (n : ℕ) (q : List Instr) (s : State) :
    runRead m a1 n (setPending q s) = ((runRead m a1 n s).1, setPending q (runRead m a1 n s).2) := by
  unfold runRead
  simp
  split <;> simp
@[simp] theorem driveAll_setPending (q : List Instr) (s : State) :
    driveAll (setPending q s) = setPending q (driveAll s) := by
  simp [driveAll, foldl_setPending]
@[simp] theorem writeDioSafe_setPending (v : Word) (q : List Instr) (s : State) :
    writeDioSafe v (setPending q s) = setPending q (writeDioSafe v s) := by
  simp [writeDioSafe, ite_setPending]
@[simp] theorem freeEntry_setPending (e : ℕ) (q : List Instr) (s : State) :
    freeEntry e (setPending q s) = setPending q (freeEntry e s) := by
  simp [freeEntry, ite_setPending]
@[simp] theorem fireEntry_setPending (e : ℕ) (late : Bool) (q : List Instr) (s : State) :
    fireEntry e late (setPending q s) = setPending q (fireEntry e late s) := by
  simp [fireEntry, ite_setPending]
@[simp] theorem linkFalls_setPending (q : List Instr) (s : State) :
    linkFalls (setPending q s) = setPending q (linkFalls s) := by
  simp [linkFalls]
@[simp] theorem writeItmCtl_setPending (v : Word) (q : List Instr) (s : State) :
    writeItmCtl v (setPending q s) = setPending q (writeItmCtl v s) := by
  simp [writeItmCtl, ite_setPending]
@[simp] theorem writeDioCfg_setPending (n : ℕ) (v : Word) (q : List Instr) (s : State) :
    writeDioCfg n v (setPending q s) = setPending q (writeDioCfg n v s) := by
  simp [writeDioCfg, ite_setPending]
@[simp] theorem squareAccess_setPending (acc : Access) (ecc : List EccHit) (q : List Instr) (s : State) :
    squareAccess acc ecc (setPending q s) = ((squareAccess acc ecc s).1, setPending q (squareAccess acc ecc s).2) := by
  unfold squareAccess
  simp
  (repeat' split) <;> simp
@[simp] theorem putStripe_setPending (base : ℕ) (pitch : ℕ) (header : List Byte) (lines : List (List Byte)) (q : List Instr) (s : State) :
    putStripe base pitch header lines (setPending q s) = setPending q (putStripe base pitch header lines s) := by
  simp [putStripe, foldl_setPending]
@[simp] theorem settlePipe_setPending (k : ℕ) (q : List Instr) (s : State) :
    settlePipe k (setPending q s) = setPending q (settlePipe k s) := by
  unfold settlePipe
  simp
  split <;> simp [ite_setPending]
@[simp] theorem cancelStop_setPending (n : ℕ) (q : List Instr) (s : State) :
    cancelStop n (setPending q s) = setPending q (cancelStop n s) := by
  simp [cancelStop]
@[simp] theorem growRun_setPending (p : ℕ) (q : List Instr) (s : State) :
    growRun p (setPending q s) = ((growRun p s).1, setPending q (growRun p s).2) := by
  unfold growRun
  simp
  split <;> simp
@[simp] theorem barFinish_setPending (eng : ℕ) (r : Running) (none_ : ℕ) (steps : ℕ) (us : ℕ) (located : ℕ) (q : List Instr) (s : State) :
    barFinish eng r none_ steps us located (setPending q s) = setPending q (barFinish eng r none_ steps us located s) := by
  simp [barFinish, ite_setPending]
@[simp] theorem judgeEntry_setPending (e : ℕ) (q : List Instr) (s : State) :
    judgeEntry e (setPending q s) = setPending q (judgeEntry e s) := by
  simp [judgeEntry, ite_setPending]
@[simp] theorem judgeDeferred_setPending (enc : ℕ) (q : List Instr) (s : State) :
    judgeDeferred enc (setPending q s) = setPending q (judgeDeferred enc s) := by
  simp [judgeDeferred, ite_setPending, foldl_setPending]
@[simp] theorem followDirection_setPending (n : ℕ) (q : List Instr) (s : State) :
    followDirection n (setPending q s) = setPending q (followDirection n s) := by
  simp [followDirection, ite_setPending]
@[simp] theorem storeLine_setPending (p : ℕ) (f : Frame) (px : List ℕ) (q : List Instr) (s : State) :
    storeLine p f px (setPending q s) = ((storeLine p f px s).1, setPending q (storeLine p f px s).2) := by
  unfold storeLine
  split <;> simp
@[simp] theorem queueEdge_setPending (e : Edge) (q : List Instr) (s : State) :
    queueEdge e (setPending q s) = setPending q (queueEdge e s) := by
  simp [queueEdge, ite_setPending]
@[simp] theorem finishRecords_setPending (eng : ℕ) (st : ℕ) (q : List Instr) (s : State) :
    finishRecords eng st (setPending q s) = setPending q (finishRecords eng st s) := by
  unfold finishRecords
  simp
  split <;> simp
@[simp] theorem payload_setPending (m : MemRun) (square : Bool) (a2 : ℕ) (n : ℕ) (q : List Instr) (s : State) :
    payload m square a2 n (setPending q s) = ((payload m square a2 n s).1, setPending q (payload m square a2 n s).2) := by
  unfold payload
  simp
  split <;> simp
@[simp] theorem arriveTrain_setPending (m : KerbMsg) (q : List Instr) (s : State) :
    arriveTrain m (setPending q s) = setPending q (arriveTrain m s) := by
  unfold arriveTrain
  simp [ite_setPending]
  (repeat' split) <;> simp
@[simp] theorem writeDioOut_setPending (v : Word) (q : List Instr) (s : State) :
    writeDioOut v (setPending q s) = setPending q (writeDioOut v s) := by
  simp [writeDioOut, ite_setPending]
@[simp] theorem placeReady_setPending (k : Task) (q : List Instr) (s : State) :
    placeReady k (setPending q s) = setPending q (placeReady k s) := by
  unfold placeReady
  simp
  (repeat' split) <;> simp
@[simp] theorem toOverflow_setPending (id : Word) (seq : Word) (bs : List Byte) (q : List Instr) (s : State) :
    toOverflow id seq bs (setPending q s) = setPending q (toOverflow id seq bs s) := by
  simp [toOverflow, ite_setPending]
@[simp] theorem movePos_setPending (n : ℕ) (d : ℤ) (q : List Instr) (s : State) :
    movePos n d (setPending q s) = setPending q (movePos n d s) := by
  simp [movePos]
@[simp] theorem takeReading_setPending (n : ℕ) (v : ℕ) (q : List Instr) (s : State) :
    takeReading n v (setPending q s) = setPending q (takeReading n v s) := by
  unfold takeReading
  simp
  split <;> simp
@[simp] theorem longestIds_setPending (q : List Instr) (s : State) :
    longestIds (setPending q s) = longestIds s := by
  simp [longestIds]
@[simp] theorem shortfalls_setPending (q : List Instr) (s : State) :
    shortfalls (setPending q s) = shortfalls s := by
  unfold shortfalls
  dsimp only
  simp
@[simp] theorem servoOffset_setPending (o : ℤ) (q : List Instr) (s : State) :
    servoOffset o (setPending q s) = setPending q (servoOffset o s) := by
  simp [servoOffset, ite_setPending]
@[simp] theorem serveFrame_setPending (k : ℕ) (p : ℕ) (f : Frame) (q : List Instr) (s : State) :
    serveFrame k p f (setPending q s) = setPending q (serveFrame k p f s) := by
  simp [serveFrame, ite_setPending]
@[simp] theorem writeCxpCtl_setPending (n : ℕ) (v : ℕ) (q : List Instr) (s : State) :
    writeCxpCtl n v (setPending q s) = setPending q (writeCxpCtl n v s) := by
  simp [writeCxpCtl, ite_setPending]
@[simp] theorem writeEncCfg_setPending (n : ℕ) (v : Word) (q : List Instr) (s : State) :
    writeEncCfg n v (setPending q s) = setPending q (writeEncCfg n v s) := by
  simp [writeEncCfg, ite_setPending]
@[simp] theorem applyPins_setPending (q : List Instr) (s : State) :
    applyPins (setPending q s) = setPending q (applyPins s) := by
  simp [applyPins, ite_setPending, foldl_setPending]
@[simp] theorem takeFlit_setPending (p : ℕ) (f : Flit) (q : List Instr) (s : State) :
    takeFlit p f (setPending q s) = setPending q (takeFlit p f s) := by
  simp [takeFlit, ite_setPending]
@[simp] theorem plainAccess_setPending (acc : Access) (ecc : List EccHit) (q : List Instr) (s : State) :
    plainAccess acc ecc (setPending q s) = ((plainAccess acc ecc s).1, setPending q (plainAccess acc ecc s).2) := by
  unfold plainAccess
  split <;> simp
@[simp] theorem placeAll_setPending (q : List Instr) (s : State) :
    placeAll (setPending q s) = setPending q (placeAll s) := by
  simp [placeAll, foldl_setPending]
@[simp] theorem arriveFire_setPending (m : KerbMsg) (q : List Instr) (s : State) :
    arriveFire m (setPending q s) = setPending q (arriveFire m s) := by
  unfold arriveFire
  simp
  split <;> simp [ite_setPending]
@[simp] theorem tryDrain_setPending (abort : Option ℕ) (q : List Instr) (s : State) :
    tryDrain abort (setPending q s) = setPending q (tryDrain abort s) := by
  simp [tryDrain, ite_setPending]
@[simp] theorem sendReply_setPending (p : ℕ) (status : ℕ) (data : List Byte) (q : List Instr) (s : State) :
    sendReply p status data (setPending q s) = setPending q (sendReply p status data s) := by
  simp [sendReply]
@[simp] theorem refuseLoad_setPending (e : Submission) (f : LoadFail) (q : List Instr) (s : State) :
    refuseLoad e f (setPending q s) = setPending q (refuseLoad e f s) := by
  simp [refuseLoad, ite_setPending]
@[simp] theorem drainSigs_setPending (f h i : ℕ) (q : List Instr) (s : State) :
    drainSigs f h i (setPending q s) = setPending q (drainSigs f h i s) := by
  induction f generalizing s with
  | zero => rfl
  | succ f ih =>
    unfold drainSigs
    rw [tokOf_setPending]
    split
    · rfl
    split
    · rfl
    · simp [ih, ite_setPending]

@[simp] theorem writeRows_setPending (ecc : List EccHit) (es : List (ℕ × List Byte)) (q : List Instr) (s : State) :
    writeRows ecc es (setPending q s) = ((writeRows ecc es s).1, setPending q (writeRows ecc es s).2) := by
  induction es generalizing s with
  | nil => rfl
  | cons e es ih =>
    simp only [writeRows, writeAll_setPending]
    split
    · rfl
    · simp [ih]

@[simp] theorem devWrite_setPending (a : ℕ) (bs : List Byte) (ecc : List EccHit) (q : List Instr) (s : State) :
    devWrite a bs ecc (setPending q s) = ((devWrite a bs ecc s).1, setPending q (devWrite a bs ecc s).2) := by
  unfold devWrite
  rw [mapped_setPending]
  split
  · rfl
  split
  · simp
  split
  · rw [hostCanWrite_setPending]
    split <;> simp
  · split
    · simp
    · simp only [Prod.mk.injEq, true_and, setPending_peerMem]
      rw [← emit_setPending, ← sendFlits_setPending]
      rfl
  · simp

theorem serve_setPending (sel : Submission → Bool) {f : Submission → State → State}
    (hf : ∀ e q s, f e (setPending q s) = setPending q (f e s)) (q : List Instr) (s : State) :
    serve sel f (setPending q s) = setPending q (serve sel f s) := by
  unfold serve
  rw [nextSub_setPending]
  split
  · simp
  · simp [hf, ite_setPending]

@[simp] theorem endPeerJobs_setPending (p : ℕ) (q : List Instr) (s : State) :
    endPeerJobs p (setPending q s) = setPending q (endPeerJobs p s) := by
  unfold endPeerJobs
  rw [setPending_eng]
  exact foldl_setPending _ (by simp) _ _ _

theorem gate_setPending (w : Writer) (off : ℕ) (v : Word) {f : State → State} (hf : ∀ q s, f (setPending q s) = setPending q (f s))
    (q : List Instr) (s : State) : gate w off v f (setPending q s) = setPending q (gate w off v f s) := by
  refine pass_setPending w off (fun q s => ?_) q s
  split
  · simp [hf, ite_setPending]
  · rfl

@[simp] theorem resync_setPending (m : MemRun) (base len f o : ℕ) (q : List Instr) (s : State) :
    resync m base len f o (setPending q s) = ((resync m base len f o s).1, setPending q (resync m base len f o s).2) := by
  induction f generalizing o s with
  | zero => rfl
  | succ f ih =>
    simp only [resync, runRead_setPending]
    split
    · rfl
    split
    · rfl
    split
    · rfl
    · simp [ih]

@[simp] theorem coreResetUnits_setPending (q : List Instr) (s : State) :
    coreResetUnits (setPending q s) = setPending q (coreResetUnits s) := by
  unfold coreResetUnits
  simp only [countClosed_setPending, clearCompute_setPending, clearRegs_setPending, lossRange_setPending, openSubs_setPending,
    bootState_setPending]
  generalize clearRegs coreClears (clearCompute (countClosed s)) = u
  rfl

@[simp] theorem bindClients_setPending (h part : ℕ) (ids : List ℕ) (q : List Instr) (s : State) :
    bindClients h part ids (setPending q s) = setPending q (bindClients h part ids s) := foldl_setPending _ (by simp) _ _ _

theorem latchBlocks_setPending (l : List SnapBlock) (q : List Instr) (s : State) :
    l.foldl (fun s b => latchBlock b s) (setPending q s) = setPending q (l.foldl (fun s b => latchBlock b s) s) :=
  foldl_setPending _ (by simp) _ _ _

@[simp] theorem snapAll_setPending (q : List Instr) (s : State) : snapAll (setPending q s) = setPending q (snapAll s) := by
  rw [snapAll, snapAll, latchBlocks_setPending, setPending_snapPending]
  by_cases h : s.snapPending = true
  · rw [if_pos h, if_pos h]
  · rw [if_neg h, if_neg h]
    rfl

@[simp] theorem drawRows_setPending (im : Image) (fmt size scale stride out : ℕ) (row : ℕ → List Point) (n i : ℕ) (q : List Instr)
    (s : State) : drawRows im fmt size scale stride out row n i (setPending q s) =
      ((drawRows im fmt size scale stride out row n i s).1, setPending q (drawRows im fmt size scale stride out row n i s).2) := by
  induction n generalizing i s with
  | zero => rfl
  | succ n ih =>
    simp only [drawRows, pointsPoison_setPending, pointsBytes_setPending, writeAll_setPending]
    split
    · rfl
    split
    · simp [ih]
    · rfl

theorem withPayload_setPending (m : MemRun) (e : Submission) (square : Bool) {f : List Byte → State → State}
    (hf : ∀ d q s, f d (setPending q s) = setPending q (f d s)) (q : List Instr) (s : State) :
    withPayload m e square f (setPending q s) = setPending q (withPayload m e square f s) := by
  simp [withPayload, hf, ite_setPending]

@[simp] theorem takeAll_setPending (part handle : ℕ) (xs : List (ℕ × ℕ)) (q : List Instr) (s : State) :
    takeAll part handle xs (setPending q s) = ((takeAll part handle xs s).1, setPending q (takeAll part handle xs s).2) := by
  induction xs generalizing s with
  | nil => rfl
  | cons x xs ih =>
    simp only [takeAll, alloc_setPending]
    split
    · rfl
    · simp [ih]

theorem foldl_setPending_snd {α β : Type} (f : β × State → α → β × State)
    (h : ∀ b q s a, f (b, setPending q s) a = ((f (b, s) a).1, setPending q (f (b, s) a).2)) (l : List α) (b : β) (q : List Instr) (s : State) :
    l.foldl f (b, setPending q s) = ((l.foldl f (b, s)).1, setPending q (l.foldl f (b, s)).2) := by
  induction l generalizing b s with
  | nil => rfl
  | cons a l ih => rw [List.foldl_cons, h, ih]; rfl

@[simp] theorem hostSquare_setPending (acc : Access) (ecc : List EccHit) (q : List Instr) (s : State) :
    hostSquare acc ecc (setPending q s) = ((hostSquare acc ecc s).1, setPending q (hostSquare acc ecc s).2) := by
  cases acc with
  | read a n =>
    simp only [hostSquare, allocated_setPending, setFlag_setPending, ite_setPending]
    refine foldl_setPending_snd _ (fun b q s p => ?_) _ _ _ _
    simp only [runAt_setPending, readMem_setPending]
    split <;> rfl
  | write a bs =>
    simp only [hostSquare, allocated_setPending, setFlag_setPending, ite_setPending]
    refine foldl_setPending_snd _ (fun b q s p => ?_) _ _ _ _
    simp only [runAt_setPending, writeAll_setPending]
    split <;> rfl

@[simp] theorem discardEntries_setPending (q : List Instr) (s : State) :
    discardEntries (setPending q s) = setPending q (discardEntries s) := by
  unfold discardEntries
  simp only [kerbUsed_setPending, modOuv_setPending, setFlag_setPending, count_setPending, ite_setPending]
  rw [setPending_ouv]
  exact foldl_setPending _ (by simp) _ _ _

@[simp] theorem growPool_setPending (f p : ℕ) (q : List Instr) (s : State) :
    growPool f p (setPending q s) = setPending q (growPool f p s) := by
  induction f generalizing s with
  | zero => rfl
  | succ f ih => simp [growPool, ih, ite_setPending]

theorem takeRun_setPending (kind eng : ℕ) (ops : List ℕ) (m : MemRun) {f : Job → State → State}
    (hf : ∀ j q s, f j (setPending q s) = setPending q (f j s)) (q : List Instr) (s : State) :
    takeRun kind eng ops m f (setPending q s) = setPending q (takeRun kind eng ops m f s) :=
  takeOp_setPending kind eng ops (fun j q s => by simp [hf]) q s

@[simp] theorem putRecord_setPending (id seq : Word) (bs : List Byte) (abort : Option ℕ) (q : List Instr) (s : State) :
    putRecord id seq bs abort (setPending q s) = setPending q (putRecord id seq bs abort s) := by
  unfold putRecord
  rw [setPending_led, ringFree_setPending]
  split
  · split <;> simp
  · simp [ite_setPending]
@[simp] theorem resetPort_setPending (p : ℕ) (q : List Instr) (s : State) :
    resetPort p (setPending q s) = setPending q (resetPort p s) := by
  simp [resetPort, ite_setPending]
@[simp] theorem runWrite_setPending (m : MemRun) (a1 : ℕ) (bs : List Byte) (q : List Instr) (s : State) :
    runWrite m a1 bs (setPending q s) = ((runWrite m a1 bs s).1, setPending q (runWrite m a1 bs s).2) := by
  unfold runWrite
  simp
  split <;> simp
@[simp] theorem refuseShort_setPending (m : MemRun) (e : Submission) (stage : ℕ) (short : List Short) (q : List Instr) (s : State) :
    refuseShort m e stage short (setPending q s) = setPending q (refuseShort m e stage short s) := by
  simp [refuseShort, ite_setPending]
@[simp] theorem enterReset_setPending (level : ℕ) (q : List Instr) (s : State) :
    enterReset level (setPending q s) = setPending q (enterReset level s) := by
  simp [enterReset, ite_setPending]
@[simp] theorem assertReset_setPending (src : ℕ) (reach : ℕ) (q : List Instr) (s : State) :
    assertReset src reach (setPending q s) = setPending q (assertReset src reach s) := by
  simp [assertReset, ite_setPending]
@[simp] theorem drawCrop_setPending (d : List Byte) (box : List Byte) (out : ℕ) (q : List Instr) (s : State) :
    drawCrop d box out (setPending q s) = ((drawCrop d box out s).1, setPending q (drawCrop d box out s).2) := by
  simp [drawCrop]
@[simp] theorem writeRstReq_setPending (v : Word) (q : List Instr) (s : State) :
    writeRstReq v (setPending q s) = setPending q (writeRstReq v s) := by
  simp [writeRstReq, ite_setPending]
@[simp] theorem warpDraw_setPending (eng : ℕ) (d : List Byte) (posAt : ℕ → ℕ → ℤ × ℤ) (q : List Instr) (s : State) :
    warpDraw eng d posAt (setPending q s) = setPending q (warpDraw eng d posAt s) := by
  simp [warpDraw, ite_setPending]
@[simp] theorem resyncFrom_setPending (m : MemRun) (eng : ℕ) (j : Job) (x : Stream) (o : ℕ) (q : List Instr) (s : State) :
    resyncFrom m eng j x o (setPending q s) = setPending q (resyncFrom m eng j x o s) := by
  simp [resyncFrom, ite_setPending]
@[simp] theorem judgeRecord_setPending (m : MemRun) (eng : ℕ) (j : Job) (x : Stream) (h : List Byte) (q : List Instr) (s : State) :
    judgeRecord m eng j x h (setPending q s) = setPending q (judgeRecord m eng j x h s) := by
  simp [judgeRecord, ite_setPending]
@[simp] theorem cropToSlot_setPending (c : CaddyQ) (b : Batch) (i : ℕ) (o : Offer) (q : List Instr) (s : State) :
    cropToSlot c b i o (setPending q s) = setPending q (cropToSlot c b i o s) := by
  unfold cropToSlot
  simp
  split <;> simp [ite_setPending]
@[simp] theorem enterSafe_setPending (q : List Instr) (s : State) :
    enterSafe (setPending q s) = setPending q (enterSafe s) := by
  simp [enterSafe, ite_setPending]
@[simp] theorem adjustPool_setPending (p : ℕ) (q : List Instr) (s : State) :
    adjustPool p (setPending q s) = setPending q (adjustPool p s) := by
  simp [adjustPool, ite_setPending]
@[simp] theorem writeKvCfg_setPending (p : ℕ) (v : ℕ) (q : List Instr) (s : State) :
    writeKvCfg p v (setPending q s) = setPending q (writeKvCfg p v s) := by
  simp [writeKvCfg]
@[simp] theorem apertureAt_setPending (acc : Access) (ecc : List EccHit) (late : Bool) (q : List Instr) (s : State) :
    apertureAt acc ecc late (setPending q s) = ((apertureAt acc ecc late s).1, setPending q (apertureAt acc ecc late s).2) := by
  unfold apertureAt
  simp
  (repeat' split) <;> simp
@[simp] theorem settleToken_setPending (h i : ℕ) (q : List Instr) (s : State) :
    settleToken h i (setPending q s) = setPending q (settleToken h i s) := by
  unfold settleToken
  rw [oneClock_setPending (serveToken_setPending h i)]
  simp

@[simp] theorem closeInToken_setPending (id : Word) (h i : ℕ) (q : List Instr) (s : State) :
    closeInToken id h i (setPending q s) = setPending q (closeInToken id h i s) := by
  unfold closeInToken
  rw [tokOf_setPending]
  split
  · rfl
  split
  · rfl
  · dsimp only
    rw [modTok_setPending, foldl_setPending _ (by simp), foldl_setPending, drainSigs_setPending, tokOf_setPending]
    intro q s w
    split <;> simp

@[simp] theorem closeInTokens_setPending (id : Word) (q : List Instr) (s : State) :
    closeInTokens id (setPending q s) = setPending q (closeInTokens id s) := by
  refine oneClock_setPending (fun q s => ?_) q s
  rw [setPending_tokens]
  exact foldl_setPending _ (by simp) _ _ _

@[simp] theorem dropWaits_setPending (t : TaskId) (q : List Instr) (s : State) :
    dropWaits t (setPending q s) = setPending q (dropWaits t s) := by
  rw [dropWaits, dropWaits, ← foldl_setPending _ (by simp)]
  rfl

@[simp] theorem giveBack_setPending (h i amt : ℕ) (item : Option Word) (q : List Instr) (s : State) :
    giveBack h i amt item (setPending q s) = ((giveBack h i amt item s).1, setPending q (giveBack h i amt item s).2) := by
  unfold giveBack
  rw [tokOf_setPending]
  split
  · rfl
  split
  · split <;> simp
  · rw [itemOf_setPending]
    split
    · rfl
    split <;> simp

@[simp] theorem giveBackAll_setPending (h : ℕ) (es : List RecEntry) (q : List Instr) (s : State) :
    giveBackAll h es (setPending q s) = ((giveBackAll h es s).1, setPending q (giveBackAll h es s).2) := by
  induction es generalizing s with
  | nil => rfl
  | cons e es ih =>
    cases e <;> simp only [giveBackAll, giveBack_setPending, ih]
    split <;> simp

@[simp] theorem dmaRows_setPending (d : List Byte) (n i : ℕ) (q : List Instr) (s : State) :
    dmaRows d n i (setPending q s) = ((dmaRows d n i s).1, setPending q (dmaRows d n i s).2) := by
  induction n generalizing i s with
  | zero => rfl
  | succ n ih =>
    simp only [dmaRows, devRead_setPending, devWrite_setPending]
    split
    · rfl
    split
    · rfl
    · simp [ih]

@[simp] theorem release_setPending (h : ℕ) (q : List Instr) (s : State) : release h (setPending q s) = setPending q (release h s) := by
  unfold release
  simp only [progOf_setPending, freeHolder_setPending, dropSeqs_setPending, bindClients_setPending]
  generalize bindClients 0 0 _ _ = u
  rfl

@[simp] theorem cropAll_setPending (d boxes : List Byte) (n b : ℕ) (q : List Instr) (s : State) :
    cropAll d boxes n b (setPending q s) = ((cropAll d boxes n b s).1, setPending q (cropAll d boxes n b s).2) := by
  induction n generalizing b s with
  | zero => rfl
  | succ n ih =>
    simp only [cropAll, lateItem_setPending, drawCrop_setPending, boxCropped_setPending, ih]
    split
    · rfl
    split <;> rfl

@[simp] theorem requestLimit_setPending (w : Writer) (v : Word) (q : List Instr) (s : State) :
    requestLimit w v (setPending q s) = setPending q (requestLimit w v s) := by
  unfold requestLimit
  rw [silent_setPending, setFlag_setPending, ite_setPending]
  exact gate_setPending _ _ _ (by simp [ite_setPending]) _ _

theorem linkReset_setPending (src : ℕ) {f : State → State} (hf : ∀ q s, f (setPending q s) = setPending q (f s))
    (q : List Instr) (s : State) : linkReset src f (setPending q s) = setPending q (linkReset src f s) := by
  simp [linkReset, hf, ite_setPending]

@[simp] theorem startPlacing_setPending (mr : MemRun) (e : Submission) (img : List Byte) (q : List Instr) (s : State) :
    startPlacing mr e img (setPending q s) = setPending q (startPlacing mr e img s) := by
  unfold startPlacing
  dsimp only
  rw [nextHandle_setPending, takeAll_setPending]
  generalize takeAll _ _ _ s = r
  obtain ⟨⟨bases, bad⟩, t⟩ := r
  cases bad with
  | none =>
    dsimp only
    rw [← copyPlaced_setPending, findIds_setPending]
    rfl
  | some n => simp

@[simp] theorem writeRuns_setPending (m : MemRun) (r : List (ℕ × List Byte)) (q : List Instr) (s : State) :
    writeRuns m r (setPending q s) = ((writeRuns m r s).1, setPending q (writeRuns m r s).2) := by
  induction r generalizing s with
  | nil => rfl
  | cons e r ih =>
    simp only [writeRuns, runWrite_setPending, ih]
    split <;> rfl

@[simp] theorem advanceRecords_setPending (m : MemRun) (eng f : ℕ) (q : List Instr) (s : State) :
    advanceRecords m eng f (setPending q s) = setPending q (advanceRecords m eng f s) := by
  induction f generalizing s with
  | zero => rfl
  | succ f ih =>
    unfold advanceRecords
    rw [runningOn_setPending]
    split
    · rfl
    · simp [ih, ite_setPending]
@[simp] theorem restartTask_setPending (t : TaskId) (q : List Instr) (s : State) :
    restartTask t (setPending q s) = ((restartTask t s).1, setPending q (restartTask t s).2) := by
  unfold restartTask
  simp
  split <;> simp
@[simp] theorem acceptItem_setPending (i : Item) (v : Verdict) (q : List Instr) (s : State) :
    acceptItem i v (setPending q s) = setPending q (acceptItem i v s) := by
  simp [acceptItem]
@[simp] theorem endItem_setPending (i : Item) (disp : ℕ) (flags : ℕ) (admitted : Bool) (q : List Instr) (s : State) :
    endItem i disp flags admitted (setPending q s) = setPending q (endItem i disp flags admitted s) := by
  simp [endItem]
@[simp] theorem defaultItem_setPending (i : Item) (flags : ℕ) (q : List Instr) (s : State) :
    defaultItem i flags (setPending q s) = setPending q (defaultItem i flags s) := by
  simp [defaultItem]
@[simp] theorem endTask_setPending (t : TaskId) (q : List Instr) (s : State) :
    endTask t (setPending q s) = setPending q (endTask t s) := by
  simp [endTask]
@[simp] theorem beginCtlEnd_setPending (x : Issue) (q : List Instr) (s : State) :
    beginCtlEnd x (setPending q s) = setPending q (beginCtlEnd x s) := by
  simp [beginCtlEnd]
@[simp] theorem signal_setPending (h : ℕ) (i : ℕ) (amt : ℕ) (item : Option Word) (who : Option Waiter) (q : List Instr) (s : State) :
    signal h i amt item who (setPending q s) = ((signal h i amt item who s).1, setPending q (signal h i amt item who s).2) := by
  unfold signal
  simp
  (repeat' split) <;> simp
@[simp] theorem commitItem_setPending (id : Word) (disp : ℕ) (out : ℕ) (fire : Pos) (p : Program) (mx : Bool) (q : List Instr) (s : State) :
    commitItem id disp out fire p mx (setPending q s) = ((commitItem id disp out fire p mx s).1, setPending q (commitItem id disp out fire p mx s).2) := by
  unfold commitItem
  simp
  (repeat' split) <;> simp
@[simp] theorem dmaGo_setPending (ch : ℕ) (farEnd : Option FarEnd) (q : List Instr) (s : State) :
    dmaGo ch farEnd (setPending q s) = setPending q (dmaGo ch farEnd s) := by
  unfold dmaGo
  simp
  split <;> simp [ite_setPending]
@[simp] theorem signalJob_setPending (h : ℕ) (i : ℕ) (status : ℕ) (q : List Instr) (s : State) :
    signalJob h i status (setPending q s) = setPending q (signalJob h i status s) := by
  simp [signalJob, ite_setPending]
@[simp] theorem endJob_setPending (kind : ℕ) (eng : ℕ) (q : List Instr) (s : State) :
    endJob kind eng (setPending q s) = setPending q (endJob kind eng s) := by
  unfold endJob
  simp
  split <;> simp
@[simp] theorem leaveEngine_setPending (kind : ℕ) (eng : ℕ) (us : ℕ) (q : List Instr) (s : State) :
    leaveEngine kind eng us (setPending q s) = setPending q (leaveEngine kind eng us s) := by
  unfold leaveEngine
  simp
  split <;> simp [ite_setPending]
@[simp] theorem cutJob_setPending (status : ℕ) (r : Running) (q : List Instr) (s : State) :
    cutJob status r (setPending q s) = setPending q (cutJob status r s) := by
  simp [cutJob]
@[simp] theorem resetGroup_setPending (g : ℕ) (q : List Instr) (s : State) :
    resetGroup g (setPending q s) = setPending q (resetGroup g s) := by
  simp [resetGroup, foldl_setPending]
@[simp] theorem isolateUnit_setPending (u : BlockUnit) (q : List Instr) (s : State) :
    isolateUnit u (setPending q s) = setPending q (isolateUnit u s) := by
  unfold isolateUnit
  simp
  (repeat' split) <;> simp
@[simp] theorem faultBlock_setPending (cls : ℕ) (u : BlockUnit) (q : List Instr) (s : State) :
    faultBlock cls u (setPending q s) = setPending q (faultBlock cls u s) := by
  unfold faultBlock
  simp
  split <;> simp
@[simp] theorem leaveBarcode_setPending (eng : ℕ) (steps : ℕ) (us : ℕ) (located : ℕ) (q : List Instr) (s : State) :
    leaveBarcode eng steps us located (setPending q s) = setPending q (leaveBarcode eng steps us located s) := by
  unfold leaveBarcode
  simp [ite_setPending]
  (repeat' split) <;> simp
@[simp] theorem endPeriodic_setPending (h : ℕ) (q : List Instr) (s : State) :
    endPeriodic h (setPending q s) = setPending q (endPeriodic h s) := by
  simp [endPeriodic, foldl_setPending]
@[simp] theorem endProgItems_setPending (h : ℕ) (q : List Instr) (s : State) :
    endProgItems h (setPending q s) = setPending q (endProgItems h s) := by
  unfold endProgItems
  dsimp only
  rw [foldl_setPending, setFlag_setPending, ite_setPending]
  · rfl
  · intro q s i
    rw [itemOf_setPending]
    split <;> simp

theorem queueTrains_setPending (l : List KerbMsg) (q : List Instr) (s : State) :
    gateOpenAll { setPending q s with toKerb := l } = setPending q (gateOpenAll { s with toKerb := l }) :=
  gateOpenAll_setPending q { s with toKerb := l }

@[simp] theorem openItem_setPending (n : ℕ) (pos : Pos) (time : DevTime) (ord : Option ℕ) (q : List Instr) (s : State) :
    openItem n pos time ord (setPending q s) = setPending q (openItem n pos time ord s) := by
  unfold openItem
  simp only [rdW_setPending, srcPos_setPending, rd_setPending, inflight_setPending, wr_setPending, bump_setPending, modLed_setPending,
    setFlag_setPending, endItem_setPending, loadedProg_setPending, srcProg_setPending, trainsOf_setPending]
  split
  · rfl
  split
  · rw [queueTrains_setPending, ite_setPending]
    rfl
  · rfl

@[simp] theorem writeBlkrst_setPending (w : Writer) (v : Word) (q : List Instr) (s : State) :
    writeBlkrst w v (setPending q s) = setPending q (writeBlkrst w v s) := by
  unfold writeBlkrst
  rw [coreUp_setPending]
  split
  · cases codeUnit (bits v.toNat 0 5) <;> simp
  · rfl

@[simp] theorem reissueWaits_setPending (k : Task) (q : List Instr) (s : State) :
    reissueWaits k (setPending q s) = setPending q (reissueWaits k s) := by
  refine foldl_setPending _ (fun q s w => ?_) _ _ _
  split
  · rw [tokOf_setPending]
    split
    · rw [taskOf_setPending, faultDue_setPending, ite_setPending, ite_setPending]
    · rfl
  · rfl

@[simp] theorem requestLine_setPending (p : ℕ) (item : Word) (shared : Bool) (q : List Instr) (s : State) :
    requestLine p item shared (setPending q s) = setPending q (requestLine p item shared s) := by
  unfold requestLine
  dsimp only
  rw [itemOf_setPending, setPending_ports]
  by_cases hm : ((s.ports.getD p Port.reset).frames.any fun f => f.st != 2 && f.item == item) = true
  · rw [if_pos hm, if_pos hm]
    rfl
  · rw [if_neg hm, if_neg hm]
    cases itemOf s item with
    | none => rfl
    | some i =>
      simp only [openFrame_setPending]
      rfl
@[simp] theorem stopProgram_setPending (h : ℕ) (q : List Instr) (s : State) :
    stopProgram h (setPending q s) = setPending q (stopProgram h s) := by
  unfold stopProgram
  simp
  split <;> simp [ite_setPending, foldl_setPending]
@[simp] theorem faultStop_setPending (t : TaskId) (core : ℕ) (word : ℕ) (status : ℕ) (q : List Instr) (s : State) :
    faultStop t core word status (setPending q s) = setPending q (faultStop t core word status s) := by
  simp [faultStop]
@[simp] theorem coresMinStops_setPending (q : List Instr) (s : State) :
    coresMinStops (setPending q s) = setPending q (coresMinStops s) := by
  simp [coresMinStops, foldl_setPending]
@[simp] theorem sendTrigger_send_setPending (p : ℕ) (item : Word) (trig : Bool) (q : List Instr) (s : State) :
    sendTrigger.send p item trig (setPending q s) = setPending q (sendTrigger.send p item trig s) := by
  simp [sendTrigger.send, ite_setPending]
@[simp] theorem sendTrigger_setPending (p : ℕ) (item : Word) (q : List Instr) (s : State) :
    sendTrigger p item (setPending q s) = setPending q (sendTrigger p item s) := by
  unfold sendTrigger
  simp [ite_setPending]
  (repeat' split) <;> simp
@[simp] theorem faultTask_setPending (t : TaskId) (status k word : ℕ) (q : List Instr) (s : State) :
    faultTask t status k word (setPending q s) = setPending q (faultTask t status k word s) := by
  unfold faultTask
  rw [taskOf_setPending]
  split
  · rfl
  · rename_i x _
    cases x.core <;> simp [ite_setPending]

@[simp] theorem enableRing_setPending (w : Writer) (r : ℕ) (q : List Instr) (s : State) :
    enableRing w r (setPending q s) = setPending q (enableRing w r s) := gate_setPending _ _ _ (writeItmCtl_setPending _) _ _

@[simp] theorem requestReset_setPending (w : Writer) (v : Word) (q : List Instr) (s : State) :
    requestReset w v (setPending q s) = setPending q (requestReset w v s) := by
  unfold requestReset
  rw [silent_setPending, setFlag_setPending, ite_setPending]
  exact gate_setPending _ _ _ (writeRstReq_setPending _) _ _

@[simp] theorem fenceWhile_setPending (writing : Bool) (n cls status : ℕ) (q : List Instr) (s : State) :
    fenceWhile writing n cls status (setPending q s) = setPending q (fenceWhile writing n cls status s) := by
  unfold fenceWhile
  rw [coreOf_setPending, spareCore_setPending]
  by_cases h : (coreOf s n).st ≠ 0
  · simp only [if_pos h]
  · simp only [if_neg h]
    cases (coreOf s n).task <;> cases spareCore s <;> simp [ite_setPending]

@[simp] theorem fenceCore_setPending (n cls status : ℕ) (q : List Instr) (s : State) :
    fenceCore n cls status (setPending q s) = setPending q (fenceCore n cls status s) := fenceWhile_setPending false n cls status q s

@[simp] theorem writeFence_setPending (v : Word) (q : List Instr) (s : State) :
    writeFence v (setPending q s) = setPending q (writeFence v s) := by
  simp [writeFence, ite_setPending]

theorem nextT1_setPending (restart : Bool) (v : Serving) (rows acc : List Row) (y : ℕ) (q : List Instr) (s : State) :
    nextT1 restart v rows (acc, setPending q s) y =
      ((nextT1 restart v rows (acc, s) y).1, setPending q (nextT1 restart v rows (acc, s) y).2) := by
  unfold nextT1
  dsimp only
  split
  · rfl
  split
  · rfl
  split
  · cases restart <;> simp
  · split <;> rfl

/-- A blind effect keeps the queue that it is given. -/
def Blind (f : State → State) : Prop := ∀ q s, f (setPending q s) = setPending q (f s)

theorem firstWrite_blind {l : List (Option (State → State))} (hl : ∀ o ∈ l, ∀ f ∈ o, Blind f) : ∀ f ∈ firstWrite l, Blind f := by
  induction l with
  | nil => simp [firstWrite]
  | cons o l ih =>
    cases o with
    | none => exact ih fun o ho => hl o (List.mem_cons_of_mem _ ho)
    | some f =>
      intro g hg
      exact hl (some f) List.mem_cons_self g hg

theorem blind_mem_ite {c : Prop} [Decidable c] {f : State → State} {o : Option (State → State)} (hf : Blind f)
    (ho : ∀ g ∈ o, Blind g) : ∀ g ∈ (if c then some f else o), Blind g := by
  split
  · rintro g ⟨⟩
    exact hf
  · exact ho

theorem storeLow_blind (d : RegDef) (off : ℕ) (w : Writer) (v : Word) : ∀ f ∈ storeLow d off w v, Blind f := by
  unfold storeLow
  iterate 14 refine blind_mem_ite (fun q s => by simp) ?_
  simp

theorem storeMid_blind (d : RegDef) (off : ℕ) (w : Writer) (v : Word) : ∀ f ∈ storeMid d off w v, Blind f := by
  unfold storeMid
  dsimp only
  iterate 19 refine blind_mem_ite (fun q s => by simp) ?_
  simp

theorem storeHigh_blind (d : RegDef) (off : ℕ) (v : Word) : ∀ f ∈ storeHigh d off v, Blind f := by
  unfold storeHigh
  dsimp only
  iterate 12 refine blind_mem_ite (fun q s => by simp) ?_
  simp

theorem storeReg_blind (d : RegDef) (off : ℕ) (w : Writer) (v : Word) : Blind (storeReg d off w v) := by
  have hother : Blind ((firstWrite [storeLow d off w v, storeMid d off w v, storeHigh d off v]).getD (storeFields d off v)) := by
    cases h : firstWrite [storeLow d off w v, storeMid d off w v, storeHigh d off v] with
    | none => exact fun q s => storeFields_setPending d off v q s
    | some f =>
      refine firstWrite_blind ?_ f h
      simp only [List.mem_cons, List.not_mem_nil, or_false]
      rintro o (rfl | rfl | rfl)
      · exact storeLow_blind d off w v
      · exact storeMid_blind d off w v
      · exact storeHigh_blind d off v
  have hf : Blind (if d.status then clearFlags d off v else match snapOf off with
      | some b => latchBlock b
      | none => (firstWrite [storeLow d off w v, storeMid d off w v, storeHigh d off v]).getD (storeFields d off v)) := by
    split
    · exact fun q s => clearFlags_setPending d off v q s
    split
    · exact fun q s => latchBlock_setPending _ q s
    · exact hother
  intro q s
  unfold storeReg
  dsimp only
  split
  · exact onOuvfi_setPending hf q s
  · exact hf q s

@[simp] theorem storeReg_setPending (d : RegDef) (off : ℕ) (w : Writer) (v : Word) (q : List Instr) (s : State) :
    storeReg d off w v (setPending q s) = setPending q (storeReg d off w v s) := storeReg_blind d off w v q s

@[simp] theorem writeWord_setPending (w : Writer) (off : ℕ) (v : Word) (q : List Instr) (s : State) :
    writeWord w off v (setPending q s) = setPending q (writeWord w off v s) := by
  unfold writeWord
  split
  · simp
  split
  · simp
  split
  · exact pass_setPending _ _ (writeRoll_setPending v) q s
  · refine gate_setPending _ _ _ (fun q s => ?_) q s
    split
    · simp
    · rfl
@[simp] theorem faultAt_setPending (x : Issue) (q' : ℕ) (status : ℕ) (q : List Instr) (s : State) :
    faultAt x q' status (setPending q s) = setPending q (faultAt x q' status s) := by
  simp [faultAt, ite_setPending]
@[simp] theorem beginCtlLoop_setPending (x : Issue) (q : List Instr) (s : State) :
    beginCtlLoop x (setPending q s) = setPending q (beginCtlLoop x s) := by
  simp [beginCtlLoop, ite_setPending]
@[simp] theorem readForSave_setPending (n : ℕ) (t : TaskId) (ecc : List EccHit) (q : List Instr) (s : State) :
    readForSave n t ecc (setPending q s) = ((readForSave n t ecc s).1, setPending q (readForSave n t ecc s).2) := by
  unfold readForSave
  simp
  split <;> simp
@[simp] theorem beginCtlTdesc_setPending (x : Issue) (q : List Instr) (s : State) :
    beginCtlTdesc x (setPending q s) = setPending q (beginCtlTdesc x s) := by
  unfold beginCtlTdesc
  simp
  split <;> simp [ite_setPending]
@[simp] theorem faultTransfer_setPending (x : Issue) (st : ℕ) (q : List Instr) (s : State) :
    faultTransfer x st (setPending q s) = setPending q (faultTransfer x st s) := by
  simp [faultTransfer, ite_setPending]
@[simp] theorem tilePoison_setPending (x : Issue) (q' : ℕ) (q : List Instr) (s : State) :
    tilePoison x q' (setPending q s) = setPending q (tilePoison x q' s) := by
  simp [tilePoison, ite_setPending]
@[simp] theorem storeRuns_setPending (x : Issue) (q' : ℕ) (runs : List (ℕ × List Byte)) (q : List Instr) (s : State) :
    storeRuns x q' runs (setPending q s) = setPending q (storeRuns x q' runs s) := by
  simp [storeRuns, ite_setPending]
@[simp] theorem beginTileLoad_setPending (x : Issue) (q : List Instr) (s : State) :
    beginTileLoad x (setPending q s) = setPending q (beginTileLoad x s) := by
  simp [beginTileLoad, ite_setPending]
@[simp] theorem beginTileStore_setPending (x : Issue) (q : List Instr) (s : State) :
    beginTileStore x (setPending q s) = setPending q (beginTileStore x s) := by
  simp [beginTileStore, ite_setPending]
@[simp] theorem beginTileCopy_setPending (x : Issue) (q : List Instr) (s : State) :
    beginTileCopy x (setPending q s) = setPending q (beginTileCopy x s) := by
  simp [beginTileCopy, ite_setPending]
@[simp] theorem beginTileFill_setPending (x : Issue) (q : List Instr) (s : State) :
    beginTileFill x (setPending q s) = setPending q (beginTileFill x s) := by
  simp [beginTileFill, ite_setPending]
@[simp] theorem beginArrWload_setPending (x : Issue) (q : List Instr) (s : State) :
    beginArrWload x (setPending q s) = setPending q (beginArrWload x s) := by
  unfold beginArrWload
  simp [ite_setPending]
  (repeat' split) <;> simp
@[simp] theorem widePass_setPending (x : Issue) (rows : ℕ) (init : Bool) (n : ℕ) (work : List (ℕ × List Term)) (q : List Instr) (s : State) :
    widePass x rows init n work (setPending q s) = setPending q (widePass x rows init n work s) := by
  unfold widePass
  split
  · simp [ite_setPending]
  · simp [ite_setPending]
@[simp] theorem beginArrMma_setPending (x : Issue) (q : List Instr) (s : State) :
    beginArrMma x (setPending q s) = setPending q (beginArrMma x s) := by
  unfold beginArrMma
  simp [ite_setPending]
  (repeat' split) <;> simp
@[simp] theorem beginArrConv_setPending (x : Issue) (q : List Instr) (s : State) :
    beginArrConv x (setPending q s) = setPending q (beginArrConv x s) := by
  unfold beginArrConv
  simp [ite_setPending]
  (repeat' split) <;> simp
@[simp] theorem coreError_setPending (n : ℕ) (flag : ℕ) (q : List Instr) (s : State) :
    coreError n flag (setPending q s) = setPending q (coreError n flag s) := by
  simp [coreError, ite_setPending]
@[simp] theorem beginArrRead_setPending (x : Issue) (q : List Instr) (s : State) :
    beginArrRead x (setPending q s) = setPending q (beginArrRead x s) := by
  simp [beginArrRead, ite_setPending]
@[simp] theorem beginVecLd_setPending (x : Issue) (q : List Instr) (s : State) :
    beginVecLd x (setPending q s) = setPending q (beginVecLd x s) := by
  unfold beginVecLd
  simp [ite_setPending]
  (repeat' split) <;> simp
@[simp] theorem beginVecSt_setPending (x : Issue) (q : List Instr) (s : State) :
    beginVecSt x (setPending q s) = setPending q (beginVecSt x s) := by
  unfold beginVecSt
  simp
  (repeat' split) <;> simp
@[simp] theorem beginVecCvt_setPending (x : Issue) (q : List Instr) (s : State) :
    beginVecCvt x (setPending q s) = setPending q (beginVecCvt x s) := by
  simp [beginVecCvt, ite_setPending]
@[simp] theorem beginVecMxp_setPending (x : Issue) (q : List Instr) (s : State) :
    beginVecMxp x (setPending q s) = setPending q (beginVecMxp x s) := by
  simp [beginVecMxp, ite_setPending]
@[simp] theorem beginItmAttach_setPending (x : Issue) (q : List Instr) (s : State) :
    beginItmAttach x (setPending q s) = setPending q (beginItmAttach x s) := by
  simp [beginItmAttach, ite_setPending]
@[simp] theorem beginSeqStep_setPending (x : Issue) (q : List Instr) (s : State) :
    beginSeqStep x (setPending q s) = setPending q (beginSeqStep x s) := by
  unfold beginSeqStep
  simp
  split <;> simp [ite_setPending]
@[simp] theorem faulted_setPending (k : Task) (q' : ℕ) (status : ℕ) (q : List Instr) (s : State) :
    faulted k q' status (setPending q s) = setPending q (faulted k q' status s) := by
  simp [faulted, ite_setPending]
@[simp] theorem restorePoison_setPending (n : ℕ) (t : TaskId) (q' : ℕ) (q : List Instr) (s : State) :
    restorePoison n t q' (setPending q s) = setPending q (restorePoison n t q' s) := by
  simp [restorePoison, ite_setPending]
@[simp] theorem aliasWrite_setPending (d : RegDef) (a1 : ℕ) (v : Word) (q : List Instr) (s : State) :
    aliasWrite d a1 v (setPending q s) = setPending q (aliasWrite d a1 v s) := by
  simp [aliasWrite, ite_setPending]
@[simp] theorem drainDue_setPending (n : ℕ) (q : List Instr) (s : State) :
    drainDue n (setPending q s) = setPending q (drainDue n s) := by
  induction n generalizing s with
  | zero => rfl
  | succ n ih =>
    unfold drainDue
    rw [setPending_tasks]
    split
    · rfl
    split
    · simp [ih]
    · rfl

@[simp] theorem finish_setPending (q : List Instr) (s : State) : finish (setPending q s) = setPending q (finish s) := by
  simp [finish]

theorem takeCkpt_setPending (x : Issue) {f : State → State} (hf : Blind f) (q : List Instr) (s : State) :
    takeCkpt x f (setPending q s) = setPending q (takeCkpt x f s) := by
  unfold takeCkpt
  rw [readForSave_setPending]
  generalize readForSave x.n x.t x.cr.tb s = r
  obtain ⟨good, t⟩ := r
  cases good
  · rfl
  · simp [hf _ _]

theorem withRoomFor_setPending (x : Issue) (n : ℕ) {f : State → State} (hf : Blind f) (q : List Instr) (s : State) :
    withRoomFor x n f (setPending q s) = setPending q (withRoomFor x n f s) := by
  unfold withRoomFor
  rw [taskOf_setPending]
  split
  · rfl
  split
  · exact hf q s
  · exact takeCkpt_setPending x (fun q s => by simp [hf _ _]) q s

theorem withRoom_setPending (x : Issue) {f : State → State} (hf : Blind f) (q : List Instr) (s : State) :
    withRoom x f (setPending q s) = setPending q (withRoom x f s) := withRoomFor_setPending x 1 hf q s

theorem restoreReads_setPending (core : CoreRun) (k : Task) {f : State → State} (hf : Blind f) (q : List Instr) (s : State) :
    restoreReads core k f (setPending q s) = setPending q (restoreReads core k f s) := by
  unfold restoreReads
  cases k.saved
  · simp only [Bool.false_eq_true, if_false, Bool.not_true, reloadPlanes_setPending]
    generalize reloadPlanes core.n k.id core.tb s = r
    obtain ⟨good, t⟩ := r
    cases good <;> simp [hf _ _]
  · simp only [if_true, readSave_setPending]
    generalize readSave k core.sq s = r
    obtain ⟨good, t⟩ := r
    cases good
    · simp
    · simp only [Bool.not_true, Bool.false_eq_true, if_false, reloadPlanes_setPending]
      generalize reloadPlanes core.n k.id core.tb t = r
      obtain ⟨good, t⟩ := r
      cases good <;> simp [hf _ _]

@[simp] theorem answerPoison_setPending (b : Requester) (q : List Instr) (s : State) :
    answerPoison b (setPending q s) = setPending q (answerPoison b s) := by
  cases b with
  | unit => rfl
  | core n =>
    simp only [answerPoison, coreOf_setPending]
    cases (coreOf s n).task with
    | none => rfl
    | some t => simp
  | job kind eng =>
    simp only [answerPoison, runningOn_setPending]
    cases runningOn s kind eng with
    | none => rfl
    | some r => simp [ite_setPending]

theorem doIssue_setPending (u : Use) (op : ℕ) {body : Issue → State → State} (hbody : ∀ x, Blind (body x)) (cr : CoreRun)
    (mismatch : Bool) (i : Iw) (q : List Instr) (s : State) :
    doIssue u op body cr mismatch i (setPending q s) = setPending q (doIssue u op body cr mismatch i s) := by
  unfold doIssue
  rw [coreOf_setPending, taskOf_setPending]
  by_cases hc : (coreOf s cr.n).st ≠ 0 ∨ (coreOf s cr.n).phase ≠ .running
  · rw [if_pos hc, if_pos hc]
  rw [if_neg hc, if_neg hc]
  cases (coreOf s cr.n).task.bind (taskOf s) with
  | none => rfl
  | some k =>
    dsimp only
    rw [progOf_setPending]
    cases progOf s k.id.handle with
    | none => rfl
    | some p =>
      simp only [modTask_setPending, coreError_setPending, completeN_setPending, skipWords_setPending, hbody _ _ _, beginWait_setPending,
        ite_setPending]

end Sys2Proof.Machine
end

