-- ==== Sys2Proof/Proofs/Frame.lean ====
section
/-! What leaves the tasks as they are. -/

namespace Sys2Proof.Machine

open Sys2Proof

@[simp] theorem ringPut_tasks (r : ℕ) (i : ℕ) (head : Bool) (e : List Byte) (s : State) :
    (ringPut r i head e s).tasks = s.tasks := rfl
@[simp] theorem raiseVec_tasks (v : ℕ) (s : State) :
    (raiseVec v s).tasks = s.tasks := by
  unfold raiseVec
  split <;> rfl
@[simp] theorem hostAbort_tasks (s : State) :
    (hostAbort s).tasks = s.tasks := rfl
@[simp] theorem writeBack_tasks (i : ℕ) (v : ℕ) (s : State) :
    (writeBack i v s).tasks = s.tasks := by
  simp [writeBack, apply_ite State.tasks]
@[simp] theorem dropEvent_tasks (s : State) :
    (dropEvent s).tasks = s.tasks := rfl
@[simp] theorem bankEvent_tasks (k : ℕ) (l : ℕ) (s : State) :
    (bankEvent k l s).tasks = s.tasks := by
  simp [bankEvent]
@[simp] theorem retireBank_tasks (l : ℕ) (s : State) :
    (retireBank l s).tasks = s.tasks := by
  simp [retireBank, apply_ite State.tasks]
@[simp] theorem nextStamp_tasks (s : State) :
    (nextStamp s).2.tasks = s.tasks := rfl
@[simp] theorem freeBits_tasks (w : ℕ) (s : State) :
    (freeBits w s).2.tasks = s.tasks := rfl
@[simp] theorem freeCore_tasks (n : ℕ) (s : State) :
    (freeCore n s).tasks = s.tasks := rfl
@[simp] theorem dropFrags_tasks (t : TaskId) (s : State) :
    (dropFrags t s).tasks = s.tasks := rfl
@[simp] theorem modTok_tasks (h : ℕ) (i : ℕ) (f : Token → Token) (s : State) :
    (modTok h i f s).tasks = s.tasks := rfl
@[simp] theorem forgetWait_tasks (t : TaskId) (w : Wait) (s : State) :
    (forgetWait t w s).tasks = s.tasks := by
  unfold forgetWait
  split <;> rfl
@[simp] theorem notFresh_tasks (t : TaskId) (s : State) :
    (notFresh t s).tasks = s.tasks := by
  unfold notFresh
  split <;> rfl
@[simp] theorem rasLast_tasks (cls : ℕ) (unit : ℕ) (status : ℕ) (s : State) :
    (rasLast cls unit status s).tasks = s.tasks := rfl
@[simp] theorem noteRestart_tasks (cls : ℕ) (core : ℕ) (s : State) :
    (noteRestart cls core s).tasks = s.tasks := by
  simp [noteRestart]
@[simp] theorem modItem_tasks (id : Word) (f : Item → Item) (s : State) :
    (modItem id f s).tasks = s.tasks := rfl
@[simp] theorem attach_tasks (id : Word) (kind : ℕ) (key : ℕ) (origin : ℕ) (payload : List Byte) (pend : Option TaskId) (issuer : TaskId) (s : State) :
    (attach id kind key origin payload pend issuer s).2.tasks = s.tasks := by
  unfold attach
  (repeat' split) <;> rfl
@[simp] theorem attachDevice_tasks (id : Word) (kind : ℕ) (key : ℕ) (origin : ℕ) (payload : List Byte) (s : State) :
    (attachDevice id kind key origin payload s).tasks = s.tasks := by
  simp [attachDevice]
@[simp] theorem voidSample_tasks (c : ℕ) (item : Word) (payload : List Byte) (s : State) :
    (voidSample c item payload s).tasks = s.tasks := by
  simp [voidSample]
@[simp] theorem modOpen_tasks (p : ℕ) (f : Frame → Frame) (s : State) :
    (modOpen p f s).tasks = s.tasks := rfl
@[simp] theorem flagFrame_tasks (p : ℕ) (flag : ℕ) (s : State) :
    (flagFrame p flag s).tasks = s.tasks := by
  unfold flagFrame
  (repeat' split) <;> rfl
@[simp] theorem spoilRef_tasks (p : ℕ) (f : Frame) (s : State) :
    (spoilRef p f s).tasks = s.tasks := by
  unfold spoilRef
  split <;> rfl
@[simp] theorem dropRequests_tasks (p : ℕ) (item : Word) (s : State) :
    (dropRequests p item s).tasks = s.tasks := rfl
@[simp] theorem startFrame_tasks (p : ℕ) (overlap : Bool) (f : Frame) (s : State) :
    (startFrame p overlap f s).tasks = s.tasks := by
  simp [startFrame, apply_ite State.tasks]
@[simp] theorem openWaiting_tasks (p : ℕ) (s : State) :
    (openWaiting p s).tasks = s.tasks := by
  unfold openWaiting
  (repeat' split) <;> simp
@[simp] theorem portCount_tasks (p : ℕ) (i : ℕ) (n : ℕ) (s : State) :
    (portCount p i n s).tasks = s.tasks := rfl
@[simp] theorem settleFrags_tasks (t : TaskId) (s : State) :
    (settleFrags t s).tasks = s.tasks := rfl
@[simp] theorem dropClaim_tasks (t : TaskId) (s : State) :
    (dropClaim t s).tasks = s.tasks := rfl
@[simp] theorem stopEvent_tasks (h : ℕ) (tmpl : ℕ) (inst : ℕ) (core : ℕ) (word : ℕ) (status : ℕ) (s : State) :
    (stopEvent h tmpl inst core word status s).tasks = s.tasks := by
  simp [stopEvent]
@[simp] theorem takeFree_tasks (n : ℕ) (s : State) :
    (takeFree n s).2.tasks = s.tasks := rfl
@[simp] theorem zeroGranules_tasks (base : ℕ) (n : ℕ) (s : State) :
    (zeroGranules base n s).tasks = s.tasks := rfl
@[simp] theorem alloc_tasks (p : ℕ) (n : ℕ) (handle : ℕ) (kind : ℕ) (s : State) :
    (alloc p n handle kind s).2.tasks = s.tasks := by
  unfold alloc
  (repeat' split) <;> rfl
@[simp] theorem freeGran_tasks (b : ℕ) (n : ℕ) (s : State) :
    (freeGran b n s).tasks = s.tasks := rfl
@[simp] theorem noteUnmapped_tasks (s : State) :
    (noteUnmapped s).tasks = s.tasks := rfl
@[simp] theorem noteUncorrectable_tasks (w : ℕ) (scrub : Bool) (s : State) :
    (noteUncorrectable w scrub s).tasks = s.tasks := by
  simp [noteUncorrectable, apply_ite State.tasks]
@[simp] theorem noteCorrected_tasks (w : ℕ) (s : State) :
    (noteCorrected w s).tasks = s.tasks := by
  simp [noteCorrected, apply_ite State.tasks]
@[simp] theorem queueJob_tasks (kind : ℕ) (desc : List Byte) (t : TaskId) (part : ℕ) (s : State) :
    (queueJob kind desc t part s).tasks = s.tasks := rfl
@[simp] theorem noteCommit_tasks (i : Item) (s : State) :
    (noteCommit i s).tasks = s.tasks := by
  unfold noteCommit
  split <;> rfl
@[simp] theorem modClient_tasks (c : ℕ) (f : SqmClient → SqmClient) (s : State) :
    (modClient c f s).tasks = s.tasks := rfl
@[simp] theorem arm_tasks (c : ℕ) (s : State) :
    (arm c s).tasks = s.tasks := rfl
@[simp] theorem queueJoin_tasks (p : Program) (c : ℕ) (id : ℕ) (item : Word) (max : ℕ) (tag : ℕ) (s : State) :
    (queueJoin p c id item max tag s).tasks = s.tasks := rfl
@[simp] theorem settleInc_tasks (s : State) :
    (settleInc s).tasks = s.tasks := rfl
@[simp] theorem writeTimIncHi_tasks (v : Word) (s : State) :
    (writeTimIncHi v s).tasks = s.tasks := rfl
@[simp] theorem modEntry_tasks (e : ℕ) (f : KerbEntry → KerbEntry) (s : State) :
    (modEntry e f s).tasks = s.tasks := rfl
@[simp] theorem markGated_tasks (p : ℕ) (i : Item) (s : State) :
    (markGated p i s).tasks = s.tasks := rfl
@[simp] theorem refuseAt_tasks (a0 : ℕ) (s : State) :
    (refuseAt a0 s).tasks = s.tasks := by
  unfold refuseAt
  split <;> rfl
@[simp] theorem modBlv_tasks (p : ℕ) (f : Blv → Blv) (s : State) :
    (modBlv p f s).tasks = s.tasks := rfl
@[simp] theorem blvWake_tasks (p : ℕ) (send : Bool) (s : State) :
    (blvWake p send s).tasks = s.tasks := by
  simp [blvWake, apply_ite State.tasks]
@[simp] theorem burst_tasks (p : ℕ) (s : State) :
    (burst p s).tasks = s.tasks := by
  unfold burst
  split <;> simp
@[simp] theorem noteOrdering_tasks (a0 : ℕ) (n : ℕ) (s : State) :
    (noteOrdering a0 n s).tasks = s.tasks := by
  unfold noteOrdering
  split <;> rfl
@[simp] theorem modRunning_tasks (kind : ℕ) (eng : ℕ) (f : Running → Running) (s : State) :
    (modRunning kind eng f s).tasks = s.tasks := rfl
@[simp] theorem jobDone_tasks (kind : ℕ) (eng : ℕ) (status : ℕ) (s : State) :
    (jobDone kind eng status s).tasks = s.tasks := rfl
@[simp] theorem governed_tasks (n : ℕ) (limit : ℕ) (s : State) :
    (governed n limit s).tasks = s.tasks := by
  simp [governed]
@[simp] theorem writeTimIncLo_tasks (v : Word) (s : State) :
    (writeTimIncLo v s).tasks = s.tasks := rfl
@[simp] theorem completeSub_tasks (op : ℕ) (tag : Word) (status : ℕ) (data : List Byte) (s : State) :
    (completeSub op tag status data s).tasks = s.tasks := by
  unfold completeSub
  split <;> simp
@[simp] theorem dropSub_tasks (e : Submission) (status : ℕ) (data : List Byte) (s : State) :
    (dropSub e status data s).tasks = s.tasks := by
  simp [dropSub]
@[simp] theorem switchClock_tasks (n : ℕ) (f : ℕ) (s : State) :
    (switchClock n f s).tasks = s.tasks := by
  unfold switchClock
  split <;> rfl
@[simp] theorem setPoint_tasks (n : ℕ) (f : ℕ) (v : ℕ) (s : State) :
    (setPoint n f v s).tasks = s.tasks := by
  unfold setPoint
  split <;> simp
@[simp] theorem modServed_tasks (v : Serving) (f : Frame → Frame) (s : State) :
    (modServed v f s).tasks = s.tasks := rfl
@[simp] theorem modServing_tasks (k : ℕ) (f : Serving → Serving) (s : State) :
    (modServing k f s).tasks = s.tasks := rfl
@[simp] theorem modCtx_tasks (k : ℕ) (c : ℕ) (f : PipeCtx → PipeCtx) (s : State) :
    (modCtx k c f s).tasks = s.tasks := rfl
@[simp] theorem noteBarcode_tasks (st : ℕ) (s : State) :
    (noteBarcode st s).tasks = s.tasks := by
  simp [noteBarcode, apply_ite State.tasks]
@[simp] theorem noteDma_tasks (st : ℕ) (s : State) :
    (noteDma st s).tasks = s.tasks := by
  simp [noteDma, apply_ite State.tasks]
@[simp] theorem noteEnd_tasks (kind : ℕ) (st : ℕ) (us : ℕ) (s : State) :
    (noteEnd kind st us s).tasks = s.tasks := by
  unfold noteEnd
  (repeat' split) <;> simp
@[simp] theorem modCaddy_tasks (h : ℕ) (q' : ℕ) (f : CaddyQ → CaddyQ) (s : State) :
    (modCaddy h q' f s).tasks = s.tasks := rfl
@[simp] theorem modBatch_tasks (h : ℕ) (q' : ℕ) (no : ℕ) (f : Batch → Batch) (s : State) :
    (modBatch h q' no f s).tasks = s.tasks := rfl
@[simp] theorem settleSlot_tasks (h : ℕ) (q' : ℕ) (no : ℕ) (i : ℕ) (st : ℕ) (o : Offer) (s : State) :
    (settleSlot h q' no i st o s).tasks = s.tasks := by
  unfold settleSlot
  split <;> simp
@[simp] theorem queueSample_tasks (item : Word) (summary : List Byte) (s : State) :
    (queueSample item summary s).tasks = s.tasks := rfl
@[simp] theorem bindItem_tasks (id : Word) (s : State) :
    (bindItem id s).tasks = s.tasks := rfl
@[simp] theorem recCount_tasks (eng : ℕ) (i : ℕ) (s : State) :
    (recCount eng i s).tasks = s.tasks := rfl
@[simp] theorem closeRecord_tasks (eng : ℕ) (r : Running) (st : ℕ) (crc : ℕ) (s : State) :
    (closeRecord eng r st crc s).tasks = s.tasks := by
  simp [closeRecord, apply_ite State.tasks]
@[simp] theorem voidRecord_tasks (status : ℕ) (r : Running) (s : State) :
    (voidRecord status r s).tasks = s.tasks := by
  simp [voidRecord, apply_ite State.tasks]
@[simp] theorem portEvent_tasks (code : ℕ) (ref : ℕ) (s : State) :
    (portEvent code ref s).tasks = s.tasks := by
  simp [portEvent]
@[simp] theorem setBlvState_tasks (p : ℕ) (st : ℕ) (s : State) :
    (setBlvState p st s).tasks = s.tasks := rfl
@[simp] theorem blvDown_tasks (p : ℕ) (st : ℕ) (s : State) :
    (blvDown p st s).tasks = s.tasks := by
  simp [blvDown]
@[simp] theorem replayFlits_tasks (p : ℕ) (s : State) :
    (replayFlits p s).tasks = s.tasks := by
  unfold replayFlits
  split <;> simp
@[simp] theorem retrain_tasks (p : ℕ) (failed : Bool) (s : State) :
    (retrain p failed s).tasks = s.tasks := by
  unfold retrain
  split <;> simp
@[simp] theorem blvTrain_tasks (p : ℕ) (s : State) :
    (blvTrain p s).tasks = s.tasks := rfl
@[simp] theorem badAccess_tasks (w : Writer) (off : ℕ) (viaAlias : Bool) (write : Bool) (s : State) :
    (badAccess w off viaAlias write s).tasks = s.tasks := rfl
@[simp] theorem settleEdges_tasks (s : State) :
    (settleEdges s).tasks = s.tasks := rfl
@[simp] theorem barAttach_tasks (j : Job) (kind : ℕ) (payload : List Byte) (s : State) :
    (barAttach j kind payload s).tasks = s.tasks := by
  simp [barAttach]
@[simp] theorem barFlushOne_tasks (j : Job) (f : List Byte) (s : State) :
    (barFlushOne j s f).tasks = s.tasks := by
  simp [barFlushOne]
@[simp] theorem queueLoader_tasks (checks : ℕ) (hashes : ℕ) (s : State) :
    (queueLoader checks hashes s).tasks = s.tasks := by
  unfold queueLoader
  split <;> rfl
@[simp] theorem takeSlot_tasks (c : CaddyQ) (b : Batch) (i : ℕ) (o : Offer) (s : State) :
    (takeSlot c b i o s).tasks = s.tasks := rfl
@[simp] theorem recordToSlot_tasks (c : CaddyQ) (b : Batch) (i : ℕ) (o : Offer) (s : State) :
    (recordToSlot c b i o s).tasks = s.tasks := rfl
@[simp] theorem dropSeqs_tasks (f : Sequence → Bool) (s : State) :
    (dropSeqs f s).tasks = s.tasks := rfl
@[simp] theorem closeItem_tasks (n : ℕ) (pos : Pos) (time : DevTime) (s : State) :
    (closeItem n pos time s).tasks = s.tasks := by
  unfold closeItem
  split <;> rfl
@[simp] theorem pipeCount_tasks (k : ℕ) (i : ℕ) (n : ℕ) (s : State) :
    (pipeCount k i n s).tasks = s.tasks := rfl
@[simp] theorem noteMeter_tasks (m : Meter) (s : State) :
    (noteMeter m s).tasks = s.tasks := by
  unfold noteMeter
  split <;> rfl
@[simp] theorem nextBox_tasks (eng : ℕ) (s : State) :
    (nextBox eng s).tasks = s.tasks := by
  unfold nextBox
  (repeat' split) <;> rfl
@[simp] theorem imageBegins_tasks (p : ℕ) (s : State) :
    (imageBegins p s).tasks = s.tasks := rfl
@[simp] theorem judgeHeader_tasks (p : ℕ) (s : State) :
    (judgeHeader p s).tasks = s.tasks := by
  unfold judgeHeader
  (repeat' split) <;> simp
@[simp] theorem clearRegs_tasks (p : ℕ → Bool) (s : State) :
    (clearRegs p s).tasks = s.tasks := rfl
@[simp] theorem writeOpp_tasks (core : ℕ) (v : Word) (s : State) :
    (writeOpp core v s).tasks = s.tasks := by
  simp [writeOpp, apply_ite State.tasks]
@[simp] theorem storeFields_tasks (d : RegDef) (off : ℕ) (v : Word) (s : State) :
    (storeFields d off v s).tasks = s.tasks := rfl
@[simp] theorem writeTarget_tasks (d : RegDef) (off : ℕ) (v : Word) (s : State) :
    (writeTarget d off v s).tasks = s.tasks := by
  unfold writeTarget
  split <;> rfl
@[simp] theorem sendPending_tasks (v : ℕ) (s : State) :
    (sendPending v s).tasks = s.tasks := by
  unfold sendPending
  split <;> rfl
@[simp] theorem driveResetOut_tasks (high : Bool) (s : State) :
    (driveResetOut high s).tasks = s.tasks := by
  unfold driveResetOut
  split <;> rfl
@[simp] theorem freeHolder_tasks (h : ℕ) (s : State) :
    (freeHolder h s).tasks = s.tasks := rfl
@[simp] theorem noteWaits_tasks (s : State) :
    (noteWaits s).tasks = s.tasks := rfl
@[simp] theorem boxCropped_tasks (d : List Byte) (box : List Byte) (b : ℕ) (s : State) :
    (boxCropped d box b s).tasks = s.tasks := by
  unfold boxCropped
  split <;> rfl
@[simp] theorem functionReset_tasks (s : State) :
    (functionReset s).tasks = s.tasks := by
  unfold functionReset
  split <;> rfl
@[simp] theorem linkFalls_tasks (s : State) :
    (linkFalls s).tasks = s.tasks := by
  simp [linkFalls]
@[simp] theorem setLeads_tasks (enc : ℕ) (s : State) :
    (setLeads enc s).tasks = s.tasks := rfl
@[simp] theorem modInput_tasks (n : ℕ) (f : Input → Input) (s : State) :
    (modInput n f s).tasks = s.tasks := rfl
@[simp] theorem becomeInput_tasks (n : ℕ) (s : State) :
    (becomeInput n s).tasks = s.tasks := rfl
@[simp] theorem letFrameGo_tasks (k : ℕ) (c : ℕ) (v : Serving) (s : State) :
    (letFrameGo k c v s).tasks = s.tasks := by
  unfold letFrameGo
  (repeat' split) <;> simp
@[simp] theorem queueFrameSample_tasks (v : Serving) (summary : List Byte) (s : State) :
    (queueFrameSample v summary s).tasks = s.tasks := rfl
@[simp] theorem finishFrame_tasks (k : ℕ) (v : Serving) (s : State) :
    (finishFrame k v s).tasks = s.tasks := by
  simp [finishFrame]
@[simp] theorem fetchLine_tasks (p : ℕ) (f : Frame) (l : StoredLine) (s : State) :
    (fetchLine p f l s).2.tasks = s.tasks := by
  unfold fetchLine
  split <;> rfl
@[simp] theorem settlePeak_tasks (s : State) :
    (settlePeak s).tasks = s.tasks := by
  unfold settlePeak
  split <;> rfl
@[simp] theorem settleOldest_tasks (s : State) :
    (settleOldest s).tasks = s.tasks := by
  unfold settleOldest
  split <;> rfl
@[simp] theorem growRun_tasks (p : ℕ) (s : State) :
    (growRun p s).2.tasks = s.tasks := by
  unfold growRun
  simp
  split <;> simp
@[simp] theorem writeSave_tasks (k : Task) (s : State) :
    (writeSave k s).tasks = s.tasks := by
  unfold writeSave
  split <;> rfl
@[simp] theorem writeStore_tasks (v : Word) (s : State) :
    (writeStore v s).tasks = s.tasks := by
  unfold writeStore
  split <;> rfl
@[simp] theorem dropUnbound_tasks (k : ℕ) (v : Serving) (s : State) :
    (dropUnbound k v s).tasks = s.tasks := by
  simp [dropUnbound]
@[simp] theorem bootAgain_tasks (s : State) :
    (bootAgain s).tasks = s.tasks := rfl
@[simp] theorem latchWords_tasks (w : Writer) (offs : List ℕ) (s : State) :
    (latchWords w offs s).tasks = s.tasks := rfl
@[simp] theorem readReg_tasks (w : Writer) (off : ℕ) (s : State) :
    (readReg w off s).2.tasks = s.tasks := by
  unfold readReg
  (repeat' split) <;> rfl
@[simp] theorem writeOvf_tasks (d : RegDef) (off : ℕ) (v : Word) (s : State) :
    (writeOvf d off v s).tasks = s.tasks := by
  simp [writeOvf, apply_ite State.tasks]
@[simp] theorem openFrame_tasks (p : ℕ) (i : Item) (s : State) :
    (openFrame p i s).tasks = s.tasks := by
  simp [openFrame, apply_ite State.tasks]
@[simp] theorem strayLine_tasks (p : ℕ) (s : State) :
    (strayLine p s).tasks = s.tasks := rfl
@[simp] theorem markSkip_tasks (p : ℕ) (item : Word) (n : ℕ) (s : State) :
    (markSkip p item n s).tasks = s.tasks := by
  simp [markSkip, apply_ite State.tasks]
@[simp] theorem skipTriggers_tasks (k : KerbEntry) (n : ℕ) (s : State) :
    (skipTriggers k n s).tasks = s.tasks := by
  unfold skipTriggers
  split <;> simp
@[simp] theorem throttleEvent_tasks (code : ℕ) (on : Bool) (s : State) :
    (throttleEvent code on s).tasks = s.tasks := by
  simp [throttleEvent]
@[simp] theorem writeGov_tasks (off : ℕ) (v : Word) (s : State) :
    (writeGov off v s).tasks = s.tasks := by
  simp [writeGov, apply_ite State.tasks]
@[simp] theorem setStream_tasks (x : Stream) (s : State) :
    (setStream x s).tasks = s.tasks := rfl
@[simp] theorem seekStream_tasks (j : Job) (off : ℕ) (s : State) :
    (seekStream j off s).tasks = s.tasks := rfl
@[simp] theorem acceptRecord_tasks (eng : ℕ) (j : Job) (x : Stream) (h : List Byte) (s : State) :
    (acceptRecord eng j x h s).tasks = s.tasks := rfl
@[simp] theorem linkEvent_tasks (p : ℕ) (code : ℕ) (speed : ℕ) (conns : ℕ) (s : State) :
    (linkEvent p code speed conns s).tasks = s.tasks := by
  simp [linkEvent]
@[simp] theorem refusedSample_tasks (item : Word) (payload : List Byte) (s : State) :
    (refusedSample item payload s).tasks = s.tasks := by
  simp [refusedSample]
@[simp] theorem writeRoll_tasks (v : Word) (s : State) :
    (writeRoll v s).tasks = s.tasks := by
  simp [writeRoll, apply_ite State.tasks]
@[simp] theorem clearFlags_tasks (d : RegDef) (off : ℕ) (v : Word) (s : State) :
    (clearFlags d off v s).tasks = s.tasks := by
  simp [clearFlags, apply_ite State.tasks]
@[simp] theorem setThermalLevel_tasks (l : ℕ) (s : State) :
    (setThermalLevel l s).tasks = s.tasks := by
  simp [setThermalLevel, apply_ite State.tasks]
@[simp] theorem loaderStarts_tasks (s : State) :
    (loaderStarts s).tasks = s.tasks := rfl
@[simp] theorem queueEdge_tasks (e : Edge) (s : State) :
    (queueEdge e s).tasks = s.tasks := by
  simp [queueEdge, apply_ite State.tasks]
@[simp] theorem writeMsix_tasks (off : ℕ) (v : Word) (s : State) :
    (writeMsix off v s).tasks = s.tasks := by
  simp [writeMsix, apply_ite State.tasks]
@[simp] theorem rejectRecord_tasks (eng : ℕ) (d : List Byte) (h : List Byte) (checked : Bool) (s : State) :
    (rejectRecord eng d h checked s).tasks = s.tasks := by
  unfold rejectRecord
  split <;> simp
@[simp] theorem refuseEntry_tasks (m : KerbMsg) (code : ℕ) (flag : ℕ) (s : State) :
    (refuseEntry m code flag s).tasks = s.tasks := by
  simp [refuseEntry]
@[simp] theorem passPositions_tasks (e : ℕ) (n : ℕ) (s : State) :
    (passPositions e n s).tasks = s.tasks := rfl
@[simp] theorem sendOwed_tasks (p : ℕ) (s : State) :
    (sendOwed s p).tasks = s.tasks := by
  unfold sendOwed
  split <;> simp
@[simp] theorem writeAperture_tasks (v : Word) (s : State) :
    (writeAperture v s).tasks = s.tasks := by
  unfold writeAperture
  split <;> rfl
@[simp] theorem apertureMiss_tasks (acc : Access) (s : State) :
    (apertureMiss acc s).2.tasks = s.tasks := rfl
@[simp] theorem refuseSample_tasks (c : CaddyQ) (o : Offer) (s : State) :
    (refuseSample c o s).tasks = s.tasks := by
  unfold refuseSample
  split <;> simp
@[simp] theorem removedJoin_tasks (q' : Sequence) (code : ℕ) (s : State) :
    (removedJoin q' code s).tasks = s.tasks := by
  unfold removedJoin
  split <;> simp
@[simp] theorem setPowerLevel_tasks (l : ℕ) (s : State) :
    (setPowerLevel l s).tasks = s.tasks := by
  simp [setPowerLevel, apply_ite State.tasks]
@[simp] theorem deferTx_tasks (e : TxEntry) (s : State) :
    (deferTx e s).tasks = s.tasks := by
  unfold deferTx
  split <;> rfl
@[simp] theorem writeSource_tasks (n : ℕ) (v : Word) (s : State) :
    (writeSource n v s).tasks = s.tasks := by
  simp [writeSource, apply_ite State.tasks]
@[simp] theorem dropRef_tasks (k : ℕ) (v : Serving) (s : State) :
    (dropRef k v s).tasks = s.tasks := by
  unfold dropRef
  split <;> rfl
@[simp] theorem busySeen_tasks (s : State) :
    (busySeen s).tasks = s.tasks := rfl
@[simp] theorem writePolicy_tasks (v : Word) (s : State) :
    (writePolicy v s).tasks = s.tasks := rfl
@[simp] theorem reportLost_tasks (s : State) :
    (reportLost s).tasks = s.tasks := by
  simp [reportLost, apply_ite State.tasks]
@[simp] theorem writeCcCtl_tasks (n : ℕ) (v : ℕ) (s : State) :
    (writeCcCtl n v s).tasks = s.tasks := by
  simp [writeCcCtl, apply_ite State.tasks]
@[simp] theorem applyPending_tasks (k : ℕ) (c : ℕ) (s : State) :
    (applyPending k c s).tasks = s.tasks := by
  unfold applyPending
  split <;> rfl
@[simp] theorem setCheck_tasks (x : CheckCtx) (s : State) :
    (setCheck x s).tasks = s.tasks := rfl
@[simp] theorem setLock_tasks (on : Bool) (s : State) :
    (setLock on s).tasks = s.tasks := by
  simp [setLock, apply_ite State.tasks]
@[simp] theorem judgeLock_tasks (o : ℤ) (s : State) :
    (judgeLock o s).tasks = s.tasks := by
  simp [judgeLock, apply_ite State.tasks]
@[simp] theorem requestStep_tasks (by_ : ℤ) (to_ : Option DevTime) (s : State) :
    (requestStep by_ to_ s).tasks = s.tasks := rfl
@[simp] theorem showAdj_tasks (s : State) :
    (showAdj s).tasks = s.tasks := rfl
@[simp] theorem servoOffset_tasks (o : ℤ) (s : State) :
    (servoOffset o s).tasks = s.tasks := by
  simp [servoOffset, apply_ite State.tasks]
@[simp] theorem claimVictim_tasks (k : Task) (s : State) :
    (claimVictim k s).tasks = s.tasks := by
  unfold claimVictim
  (repeat' split) <;> rfl
@[simp] theorem writePctl_tasks (k : ℕ) (c : ℕ) (v : ℕ) (s : State) :
    (writePctl k c v s).tasks = s.tasks := by
  simp [writePctl, apply_ite State.tasks]
@[simp] theorem setEthLink_tasks (up : Bool) (s : State) :
    (setEthLink up s).tasks = s.tasks := by
  simp [setEthLink]
@[simp] theorem judgeEthMode_tasks (s : State) :
    (judgeEthMode s).tasks = s.tasks := by
  unfold judgeEthMode
  split <;> simp
@[simp] theorem applyLeaves_tasks (c : ℕ) (s : State) :
    (applyLeaves c s).tasks = s.tasks := rfl
@[simp] theorem assignBuffer_tasks (k : ℕ) (b : Binding) (s : State) :
    (assignBuffer k b s).tasks = s.tasks := rfl
@[simp] theorem loaderHashes_tasks (cs : List (Bool × LoadFail)) (ls : List (Option ℕ)) (s : State) :
    (loaderHashes cs ls s).tasks = s.tasks := rfl
@[simp] theorem setBlock_tasks (b : CtxBlock) (s : State) :
    (setBlock b s).tasks = s.tasks := rfl
@[simp] theorem ensureQueue_tasks (h : ℕ) (q' : ℕ) (s : State) :
    (ensureQueue h q' s).tasks = s.tasks := by
  unfold ensureQueue
  split <;> rfl
@[simp] theorem writeSpare_tasks (w : Writer) (v : Word) (s : State) :
    (writeSpare w v s).tasks = s.tasks := by
  unfold writeSpare
  split <;> rfl
@[simp] theorem blvMeets_tasks (p : ℕ) (part : ℕ) (credits : List ℕ) (s : State) :
    (blvMeets p part credits s).tasks = s.tasks := by
  unfold blvMeets
  split <;> simp
@[simp] theorem setLink_tasks (n : ℕ) (state : ℕ) (up : ℕ) (speed : ℕ) (s : State) :
    (setLink n state up speed s).tasks = s.tasks := by
  simp [setLink, apply_ite State.tasks]
@[simp] theorem pushStamp_tasks (f : List Byte) (t : DevTime) (s : State) :
    (pushStamp f t s).tasks = s.tasks := by
  unfold pushStamp
  split <;> simp
@[simp] theorem writeWinWord_tasks (n : ℕ) (off : ℕ) (v : Word) (s : State) :
    (writeWinWord n off v s).tasks = s.tasks := by
  unfold writeWinWord
  split <;> rfl
@[simp] theorem loaderJobs_tasks (img : List Byte) (s : State) :
    (loaderJobs img s).tasks = s.tasks := by
  simp [loaderJobs, apply_ite State.tasks]
@[simp] theorem addErrors_tasks (p : ℕ) (l : ℕ) (n : ℕ) (s : State) :
    (addErrors p l n s).tasks = s.tasks := rfl
@[simp] theorem checkBackup_tasks (s : State) :
    (checkBackup s).tasks = s.tasks := by
  unfold checkBackup
  split <;> rfl
@[simp] theorem writeQuota_tasks (p : ℕ) (v : ℕ) (s : State) :
    (writeQuota p v s).tasks = s.tasks := by
  simp [writeQuota, apply_ite State.tasks]
@[simp] theorem taken_tasks (eng : ℕ) (j : Job) (s : State) :
    (taken eng j s).tasks = s.tasks := rfl
@[simp] theorem nextLine_tasks (l : ℕ) (s : State) :
    (nextLine l s).tasks = s.tasks := by
  simp [nextLine, apply_ite State.tasks]
@[simp] theorem roundNs_tasks (d : ℤ) (s : State) :
    (roundNs d s).2.tasks = s.tasks := rfl
@[simp] theorem writeTimCtl_tasks (v : Word) (s : State) :
    (writeTimCtl v s).tasks = s.tasks := by
  simp [writeTimCtl, apply_ite State.tasks]
@[simp] theorem writeEdgeWords_tasks (n : ℕ) (level : Bool) (t : DevTime) (p : Pos) (s : State) :
    (writeEdgeWords n level t p s).tasks = s.tasks := rfl
@[simp] theorem writeBlvCtl_tasks (p : ℕ) (v : Word) (s : State) :
    (writeBlvCtl p v s).tasks = s.tasks := by
  simp [writeBlvCtl, apply_ite State.tasks]
@[simp] theorem queueChecks_tasks (img : List Byte) (s : State) :
    (queueChecks img s).tasks = s.tasks := by
  simp [queueChecks]
@[simp] theorem writeRing_tasks (d : RegDef) (off : ℕ) (r : ℕ) (v : Word) (s : State) :
    (writeRing d off r v s).tasks = s.tasks := by
  unfold writeRing
  split <;> rfl
@[simp] theorem startFirmware_tasks (slot : ℕ) (img : List Byte) (s : State) :
    (startFirmware slot img s).tasks = s.tasks := rfl
@[simp] theorem writeWdog_tasks (v : Word) (s : State) :
    (writeWdog v s).tasks = s.tasks := rfl
@[simp] theorem modEdge_tasks (f : Edge → Edge) (s : State) :
    (modEdge f s).tasks = s.tasks := rfl
@[simp] theorem writeRoute_tasks (k : ℕ) (v : ℕ) (s : State) :
    (writeRoute k v s).tasks = s.tasks := by
  unfold writeRoute
  split <;> rfl
@[simp] theorem observe_tasks (n : ℕ) (s : State) :
    (observe n s).tasks = s.tasks := by
  simp [observe, apply_ite State.tasks]
@[simp] theorem dumpPoison_tasks (r : TaskRegs) (a1 : ℕ) (s : State) :
    (dumpPoison r a1 s).tasks = s.tasks := by
  unfold dumpPoison
  split <;> rfl
@[simp] theorem noteMismatch_tasks (h : ℕ) (ctx : ℕ) (addr : ℕ) (len : ℕ) (s : State) :
    (noteMismatch h ctx addr len s).tasks = s.tasks := by
  simp [noteMismatch, apply_ite State.tasks]
@[simp] theorem setTarget_tasks (k : ℕ) (n : ℕ) (s : State) :
    (setTarget k n s).tasks = s.tasks := rfl
@[simp] theorem dropSample_tasks (o : Offer) (s : State) :
    (dropSample o s).tasks = s.tasks := by
  unfold dropSample
  split <;> simp
@[simp] theorem sendFrame_tasks (e : TxEntry) (s : State) :
    (sendFrame e s).tasks = s.tasks := by
  simp [sendFrame, apply_ite State.tasks]
@[simp] theorem holdRelease_tasks (e : HistEntry) (s : State) :
    (holdRelease e s).tasks = s.tasks := by
  unfold holdRelease
  split <;> rfl
@[simp] theorem dropSignal_tasks (p : ℕ) (s : State) :
    (dropSignal p s).tasks = s.tasks := rfl
@[simp] theorem writeRstBoot_tasks (v : Word) (s : State) :
    (writeRstBoot v s).tasks = s.tasks := by
  simp [writeRstBoot, apply_ite State.tasks]
/-- A fold of effects that leave the tasks leaves the tasks. -/
theorem foldl_tasks {α : Type} (f : State → α → State) (h : ∀ s a, (f s a).tasks = s.tasks) (l : List α) (s : State) :
    (l.foldl f s).tasks = s.tasks := by
  induction l generalizing s with
  | nil => rfl
  | cons a l ih => rw [List.foldl_cons, ih, h]

@[simp] theorem ringPart_tasks (r : ℕ) (bs : List Byte) (k : ℕ) (s : State) : (ringPart r bs k s).tasks = s.tasks :=
  (eventFrame_ringPart r bs k s).tasks
@[simp] theorem voidReserved_tasks (id : Word) (s : State) : (voidReserved id s).tasks = s.tasks := 
  foldl_tasks _ (by simp) _ _
@[simp] theorem countClosed_tasks (s : State) : (countClosed s).tasks = s.tasks := 
  foldl_tasks _ (by intro s a; split <;> simp) _ _
@[simp] theorem applyEcc_tasks (touched : ℕ → Bool) (scrub : Bool) (ecc : List EccHit) (s : State) :
    (applyEcc touched scrub ecc s).tasks = s.tasks :=
  foldl_tasks _ (fun s a => by split <;> [split <;> [simp; split <;> simp]; rfl]) _ _
@[simp] theorem passGates_tasks (p : ℕ) (s : State) : (passGates p s).tasks = s.tasks := by
  unfold passGates
  split
  · rfl
  · exact foldl_tasks _ (by simp) _ _
@[simp] theorem sendHeld_tasks (n p : ℕ) (s : State) : (sendHeld n p s).tasks = s.tasks := by
  induction n generalizing s with
  | zero => rfl
  | succ n ih =>
    unfold sendHeld
    split
    · rfl
    · simp [ih]
@[simp] theorem endEarlyN_tasks (n : ℕ) (s : State) : (endEarlyN n s).tasks = s.tasks := by
  induction n generalizing s with
  | zero => rfl
  | succ n ih =>
    unfold endEarlyN
    split
    · rfl
    split
    · rfl
    · simp [ih]
@[simp] theorem setAllPoints_tasks (f : ℕ) (s : State) : (setAllPoints f s).tasks = s.tasks :=
  foldl_tasks _ (fun s n => by split <;> simp) _ _
@[simp] theorem endPeerJobs_tasks (p : ℕ) (s : State) : (endPeerJobs p s).tasks = s.tasks := foldl_tasks _ (by simp) _ _
@[simp] theorem setFlags_tasks (off : ℕ) (fs : List ℕ) (s : State) : (setFlags off fs s).tasks = s.tasks := foldl_tasks _ (by simp) _ _
@[simp] theorem postAborted_tasks (s : State) : (postAborted s).tasks = s.tasks := by
  unfold postAborted
  split
  · rfl
  · exact foldl_tasks _ (by simp) _ _
@[simp] theorem latchBlock_tasks (b : SnapBlock) (s : State) : (latchBlock b s).tasks = s.tasks := by
  unfold latchBlock
  have hfold := foldl_tasks (fun s o => wr o (counterNow s o) s) (fun _ _ => rfl) (counterOffs b.cnt)
  dsimp only
  split <;> split <;> simp [hfold]
@[simp] theorem sendAllPending_tasks (s : State) : (sendAllPending s).tasks = s.tasks := foldl_tasks _ (by simp) _ _
@[simp] theorem writeBlockLists_tasks (c : ℕ) (s : State) : (writeBlockLists c s).tasks = s.tasks := foldl_tasks _ (by simp) _ _
@[simp] theorem bindClients_tasks (h part : ℕ) (ids : List ℕ) (s : State) : (bindClients h part ids s).tasks = s.tasks :=
  foldl_tasks _ (by simp) _ _
@[simp] theorem ovfPut_tasks (k : ℕ) (es : List (List Byte)) (s : State) : (ovfPut s k es).tasks = s.tasks := foldl_tasks _ (by simp) _ _
@[simp] theorem copyPlaced_tasks (img : List Byte) (ps : List (ℕ × ℕ × ℕ)) (s : State) : (copyPlaced img ps s).tasks = s.tasks :=
  foldl_tasks _ (by simp) _ _
@[simp] theorem shrinkPool_tasks (p : ℕ) (s : State) : (shrinkPool p s).tasks = s.tasks := foldl_tasks _ (by simp) _ _
@[simp] theorem growPool_tasks (f p : ℕ) (s : State) : (growPool f p s).tasks = s.tasks := by
  induction f generalizing s with
  | zero => rfl
  | succ f ih => 
    have hgrow := growRun_tasks p s
    rw [growPool]
    generalize growRun p s = r at hgrow ⊢
    obtain ⟨more, t⟩ := r
    cases more
    · simp only [Bool.false_eq_true, if_false]
      split <;> exact hgrow
    · simp only [if_true]
      exact (ih t).trans hgrow
@[simp] theorem testedBanks_tasks (bad : List ℕ) (s : State) : (testedBanks bad s).tasks = s.tasks := foldl_tasks _ (by simp) _ _
@[simp] theorem takeEntry_tasks (raw : List Byte) (s : State) : (takeEntry raw s).tasks = s.tasks := by
  unfold takeEntry
  dsimp only
  split
  · split <;> simp
  · rfl
@[simp] theorem driveOut_tasks (n : ℕ) (s : State) : (driveOut n s).tasks = s.tasks := by
  unfold driveOut
  dsimp only
  split
  · rfl
  split
  · rfl
  split <;> simp
@[simp] theorem requestLine_tasks (p : ℕ) (item : Word) (shared : Bool) (s : State) : (requestLine p item shared s).tasks = s.tasks := by
  unfold requestLine
  dsimp only
  rw [modPort_tasks]
  split
  · rfl
  split <;> simp
@[simp] theorem closeFrame_tasks (p : ℕ) (flags : List ℕ) (fragment : Bool) (s : State) : (closeFrame p flags fragment s).tasks = s.tasks := by
  unfold closeFrame
  split
  · rfl
  · dsimp only
    rw [openWaiting_tasks, portCount_tasks, modOpen_tasks]
    have hflags : ∀ (l : List ℕ) (s : State), (l.foldl (fun s b => flagFrame p b s) s).tasks = s.tasks := foldl_tasks _ (by simp)
    simp only [apply_ite State.tasks, dropRequests_tasks, spoilRef_tasks, attachDevice_tasks, hflags, ite_self]
@[simp] theorem dropLoad_tasks (h : ℕ) (s : State) : (dropLoad h s).tasks = s.tasks := by
  unfold dropLoad
  dsimp only
  rw [freeHolder_tasks]
  exact foldl_tasks _ (by simp) _ _

end Sys2Proof.Machine
end

