-- ==== Sys2Proof/Proofs/Bits.lean ====
section
/-! Fields of words and of registers. -/

namespace Sys2Proof.Machine

open Sys2Proof

/-! ## Fields of numbers -/

/-- A number with a field replaced: what stands above the field, the new value, what stands below. -/
theorem setBits_eq (n lo w v : ℕ) : setBits n lo w v = 2 ^ lo * (2 ^ w * (n / 2 ^ lo / 2 ^ w) + v % 2 ^ w) + n % 2 ^ lo := by
  have hlow : 2 ^ lo * (n / 2 ^ lo) + n % 2 ^ lo = n := Nat.div_add_mod n _
  have hmid : 2 ^ w * (n / 2 ^ lo / 2 ^ w) + n / 2 ^ lo % 2 ^ w = n / 2 ^ lo := Nat.div_add_mod _ _
  unfold setBits bits
  rw [Nat.shiftRight_eq_div_pow]
  generalize n / 2 ^ lo / 2 ^ w = h at *
  generalize n / 2 ^ lo % 2 ^ w = m at *
  generalize n % 2 ^ lo = l at *
  rw [← hmid] at hlow
  rw [← hlow, Nat.mul_add, Nat.mul_add, Nat.mul_comm m, Nat.mul_comm (v % 2 ^ w)]
  omega

/-- The bits of a number with a field replaced. -/
theorem testBit_setBits (n lo w v i : ℕ) :
    (setBits n lo w v).testBit i = if lo ≤ i ∧ i < lo + w then v.testBit (i - lo) else n.testBit i := by
  rw [setBits_eq, Nat.testBit_two_pow_mul_add _ (Nat.mod_lt _ (Nat.two_pow_pos _)),
    Nat.testBit_two_pow_mul_add _ (Nat.mod_lt _ (Nat.two_pow_pos _)), Nat.testBit_mod_two_pow, Nat.testBit_mod_two_pow, Nat.testBit_div_two_pow,
    Nat.testBit_div_two_pow]
  by_cases hlo : i < lo
  · simp [hlo, show ¬lo ≤ i by omega]
  · by_cases hhi : i < lo + w
    · simp [hlo, hhi, show i - lo < w by omega, show lo ≤ i by omega]
    · simp only [hlo, hhi, show ¬(i - lo < w) by omega, if_false, and_false]
      congr 1
      omega

theorem testBit_bits (n lo w i : ℕ) : (bits n lo w).testBit i = (decide (i < w) && n.testBit (lo + i)) := by
  rw [bits, Nat.testBit_mod_two_pow, Nat.testBit_shiftRight]

theorem bits_lt (n lo w : ℕ) : bits n lo w < 2 ^ w := Nat.mod_lt _ (Nat.two_pow_pos _)

/-- A field just set. -/
theorem bits_setBits_same (n lo w v : ℕ) : bits (setBits n lo w v) lo w = v % 2 ^ w := by
  refine Nat.eq_of_testBit_eq fun i => ?_
  rw [testBit_bits, testBit_setBits, Nat.testBit_mod_two_pow]
  by_cases h : i < w <;> simp [h]

/-- A field that does not touch the one that is set. -/
theorem bits_setBits_other (n lo w v lo' w' : ℕ) (h : lo' + w' ≤ lo ∨ lo + w ≤ lo') :
    bits (setBits n lo w v) lo' w' = bits n lo' w' := by
  refine Nat.eq_of_testBit_eq fun i => ?_
  rw [testBit_bits, testBit_setBits, testBit_bits]
  by_cases hi : i < w'
  · rw [if_neg (by omega)]
  · simp [hi]

theorem setBits_lt (n lo w v k : ℕ) (hn : n < 2 ^ k) (hk : lo + w ≤ k) : setBits n lo w v < 2 ^ k := by
  refine Nat.lt_pow_two_of_testBit _ fun i hi => ?_
  rw [testBit_setBits, if_neg (by omega)]
  exact Nat.testBit_lt_two_pow (hn.trans_le (Nat.pow_le_pow_right (by decide) hi))

/-- A register's field just stored. -/
theorem rd_wrF_same (off lo w v : ℕ) (s : State) (h : lo + w ≤ 32) : rd (wrF off lo w v s) off = setBits (rd s off) lo w v := by
  rw [wrF, rd_wr_same]
  exact Nat.mod_eq_of_lt (setBits_lt _ _ _ _ _ (rd_lt s off) h)

theorem rdF_wrF_same (off lo w v : ℕ) (s : State) (h : lo + w ≤ 32) : rdF (wrF off lo w v s) off lo w = v % 2 ^ w := by
  rw [rdF, rd_wrF_same _ _ _ _ _ h, bits_setBits_same]

/-- Another field of the register. -/
theorem rdF_wrF_field (off lo w v lo' w' : ℕ) (s : State) (h : lo + w ≤ 32) (hd : lo' + w' ≤ lo ∨ lo + w ≤ lo') :
    rdF (wrF off lo w v s) off lo' w' = rdF s off lo' w' := by
  rw [rdF, rd_wrF_same _ _ _ _ _ h, bits_setBits_other _ _ _ _ _ _ hd, rdF]

theorem rd_wrF_other (off lo w v r : ℕ) (s : State) (h : r ≠ off) : rd (wrF off lo w v s) r = rd s r := rd_wr_other _ _ _ _ h

theorem rdF_wrF_other (off lo w v r lo' w' : ℕ) (s : State) (h : r ≠ off) : rdF (wrF off lo w v s) r lo' w' = rdF s r lo' w' :=
  rdF_wr_other _ _ _ _ _ _ h

end Sys2Proof.Machine
end

