-- ==== Sys2Proof/Proofs/Run.lean ====
section
/-! What a command leaves, and the invariant behind every command. -/

namespace Sys2Proof.Machine

open Sys2Proof

/-! ## What a command leaves -/

/-- A command whose effect is blind to the queue leaves what its effect makes of the state. -/
theorem run_blind {f : State → State} (hf : Blind f) (s : State) : run f s = .next (setPending s.pending (finish (f s))) := by
  rw [run, hf, finish_setPending, setPending_setPending]

/-- The same of a row of a unit that a system or power-on reset stops. -/
theorem runWide_blind {f : State → State} (hf : Blind f) (s : State) :
    runWide f s = .next (setPending s.pending (finish (if wideUp s then f s else s))) := by
  have hb : Blind (fun s => if wideUp s then f s else s) := fun q s => by
    show (if wideUp (setPending q s) = true then _ else _) = _
    rw [wideUp_setPending, hf, ite_setPending]
  exact run_blind hb s

/-- A command whose effect on the state is `t`. -/
theorem givesThen_run {c : Instr} {f : State → State} {s t : State} (hc : exec c s = run f s) (hf : Blind f) (ht : f s = t) :
    GivesThen c s t := by
  rw [GivesThen, hc, run_blind hf, ht]

/-- A command whose effect on the state is `t`, which leaves no fault waiting. -/
theorem gives_run {c : Instr} {f : State → State} {s t : State} (hc : exec c s = run f s) (hf : Blind f) (ht : f s = t) (hq : Quiet t) :
    Gives c s t := by
  rw [Gives, hc, run_blind hf, ht, finish_quiet t hq]

/-- An effect that leaves the tasks leaves no fault waiting where none was. -/
theorem Quiet.of_tasks {s t : State} (hq : Quiet s) (h : t.tasks = s.tasks) : Quiet t := by
  unfold Quiet
  rwa [h]

/-! ## The invariant -/

theorem kerbUsed_le (s : State) : kerbUsed s ≤ 256 := by
  unfold kerbUsed
  exact (List.length_filter_le _ _).trans (List.length_take_le _ _)

/-- Bringing ITM_OLDEST_ID up to date leaves what the Kerb's peak is read from. -/
theorem rdF_settleOldest_krbUsed (s : State) : rdF (settleOldest s) Reg.krbUsed.base 16 9 = rdF s Reg.krbUsed.base 16 9 := by
  unfold settleOldest
  split
  · rfl
  · exact rdF_wr_other _ _ _ _ _ _ (by decide)

theorem settlePeak_led (s : State) : (settlePeak s).led = s.led := by
  unfold settlePeak
  split <;> rfl

theorem settleOldest_led (s : State) : (settleOldest s).led = s.led := by
  unfold settleOldest
  split <;> rfl

theorem rd_settlePeak_other (s : State) (r : ℕ) (h : r ≠ Reg.krbUsed.base) : rd (settlePeak s) r = rd s r := by
  unfold settlePeak
  split
  · exact rd_wrF_other _ _ _ _ _ _ h
  · rfl

/-- The oldest ID follows the ledger and ITM_NEXT_ID. -/
theorem oldestId_congr {s t : State} (hl : t.led = s.led) (hn : rd t Reg.itmNextId.base = rd s Reg.itmNextId.base) :
    oldestId t = oldestId s := by
  unfold oldestId
  rw [hl, hn]

theorem oldestId_lt (s : State) : oldestId s < 2 ^ 32 := by
  unfold oldestId
  dsimp only
  split
  · exact rd_lt _ _
  · exact BitVec.isLt _

/-- After a command ITM_OLDEST_ID names the oldest uncommitted item, unless a loss event waits. -/
theorem oldest_settle (s : State) (h : (settle s).led.heldLoss = none) : rd (settle s) Reg.itmOldestId.base = oldestId (settle s) := by
  rw [settle_led] at h
  have hold : oldestId (settle s) = oldestId s := by
    refine oldestId_congr (settle_led s) ?_
    rw [rd_settle s _ (by decide) (by decide)]
  rw [hold, settle, rd_settlePeak_other _ _ (by decide), settleOldest, h]
  exact (rd_wr_same _ _ _).trans (Nat.mod_eq_of_lt (oldestId_lt s))

theorem kerbUsed_settle (s : State) : kerbUsed (settle s) = kerbUsed s := by
  unfold kerbUsed
  rw [settle_ouv]

/-- After a command the peak is no less than the entries in use. -/
theorem peak_settle (s : State) : kerbUsed (settle s) ≤ rdF (settle s) Reg.krbUsed.base 16 9 := by
  have hle := kerbUsed_le s
  have hused : kerbUsed (settleOldest s) = kerbUsed s := by
    unfold kerbUsed settleOldest
    split <;> rfl
  rw [kerbUsed_settle, settle, settlePeak]
  split
  · rw [rdF_wrF_same _ _ _ _ _ (by decide), hused]
    omega
  · omega

/-- Every command ends in a state that meets the invariant. -/
theorem inv_finish (s : State) : Inv (finish s) where
  quiet := (quiet_clearDue _).of_tasks (settle_tasks _)
  oldest := oldest_settle _
  peak := peak_settle _
  room := kerbUsed_le _

/-- The invariant takes no note of the queue of commands. -/
theorem inv_setPending {q : List Instr} {s : State} : Inv (setPending q s) ↔ Inv s :=
  ⟨fun ⟨a, b, c, d⟩ => ⟨a, b, c, d⟩, fun ⟨a, b, c, d⟩ => ⟨a, b, c, d⟩⟩

end Sys2Proof.Machine
end

