-- ==== Sys2Proof/Proofs/Run2.lean ====
section
/-! Every command runs, or is a refused word of the sequencer. -/

namespace Sys2Proof.Machine

open Sys2Proof

/-- A row of a unit that a system or power-on reset stops is an effect too. -/
theorem runWide_runs (g : State → State) (s : State) : ∃ f, runWide g s = run f s := ⟨_, rfl⟩

theorem run_runs (g : State → State) (s : State) : ∃ f, run g s = run f s := ⟨g, rfl⟩

/-- A row of the sequencer runs where its word is legal, and is refused elsewhere. -/
theorem issue_cases (mn : String) (op : ℕ) (body : Issue → State → State) (cr : CoreRun) (mismatch : Bool) (i : Iw) (s : State) :
    (∃ f, issue mn op body cr mismatch i s = run f s) ∨
      legalWord op i = false ∧ issue mn op body cr mismatch i s = .refused (.illegalWord mn) := by
  unfold issue legalWord
  cases useOf op i with
  | none => exact .inr ⟨rfl, rfl⟩
  | some u =>
    cases hu : u.allows i with
    | false => exact .inr ⟨by simp [hu], by simp [hu]⟩
    | true => exact .inl ⟨doIssue u op body cr mismatch i, by simp [hu]⟩

/-- The same of a row's operands. -/
theorem row_cases (mn : String) (op : ℕ) (body : Issue → State → State) (cr : CoreRun) (mismatch : Bool) (i : Iw) (s : State) :
    (∃ f, issue mn op body cr mismatch i s = run f s) ∨
      rowOk op cr i = false ∧ ∃ r, issue mn op body cr mismatch i s = .refused r := by
  obtain h | ⟨hi, hr⟩ := issue_cases mn op body cr mismatch i s
  · exact .inl h
  · exact .inr ⟨by simp [rowOk, hi], _, hr⟩

/-- A command is an effect on everything but the queue, with what ends every command; the sequencer's rows alone are refused, where their
word is illegal. -/
theorem exec_cases (c : Instr) (s : State) : (∃ f, exec c s = run f s) ∨ wellFormed c = false ∧ ∃ r, exec c s = .refused r := by
  cases c <;> dsimp only [exec, execCompanionRefreshLost, execThrottleRaise, execCompanionPositionRefresh, execThermalRelease,
    execCompanionTimeRefresh, execCeilingSaturated, execMsixUnmask, execThrottleLower, execCompanionFrameResend]
  case ctlNop | ctlAlu | ctlAlui | ctlLi | ctlAmov | ctlCmp | ctlPop | ctlBr | ctlLoop | ctlYield | ctlEnd | ctlCkpt | ctlTdesc | ctlSys
      | ctlAlloc | ctlFree | tileLoad | tileStore | tileCopy | tileFill | arrWload | arrMma | arrConv | arrWgconv | arrRead | vecLd | vecSt
      | vecAlu | vecFma | vecCmp | vecSel | vecRed | vecCvt | vecFn | vecPerm | vecDup | vecExt | vecMxp | engEnq | tokWait | tokSig | tokTry
      | itmAttach | itmCommit | itmGet | seqJoin | seqStep | seqLeave =>
    exact row_cases _ _ _ _ _ _ _
  case companionRefreshLost | throttleRaise | companionPositionRefresh | thermalRelease | companionTimeRefresh | ceilingSaturated | msixUnmask
      | throttleLower | companionFrameResend =>
    exact .inl (runWide_runs _ _)
  all_goals exact .inl ⟨_, rfl⟩

/-- What a command leaves has gone through what ends every command, beside the queue as it was. -/
theorem exec_next {c : Instr} {s t : State} (h : exec c s = .next t) : ∃ u, t = setPending s.pending (finish u) := by
  obtain ⟨f, hf⟩ | ⟨_, r, hr⟩ := exec_cases c s
  · rw [hf, run] at h
    exact ⟨_, (Host.Outcome.next.inj h).symm⟩
  · rw [hr] at h
    cases h

/-- Settles O1: the first clause is the step's definition; a well-formed command is no refused one. -/
theorem stepRunsTheFrontCommand : Obligations.StepRunsTheFrontCommand := by
  refine ⟨fun c rest s => rfl, fun c s hwf => ?_⟩
  obtain ⟨f, hf⟩ | ⟨hill, _⟩ := exec_cases c s
  · exact ⟨_, hf, rfl⟩
  · rw [hwf] at hill
    cases hill

/-- Settles O58: each clause evaluates a table's value. -/
theorem resetValues : Obligations.ResetValues := by
  unfold Obligations.ResetValues
  decide +kernel

/-- Settles O59. -/
theorem resetMeetsInvariant : Obligations.ResetMeetsInvariant where
  quiet := by
    intro k hk
    cases hk
  oldest := by decide +kernel
  peak := by decide +kernel
  room := kerbUsed_le _

end Sys2Proof.Machine
end

