-- ==== Sys2Proof/Proofs/Idle.lean ====
section
/-! One clock with nothing commanded, and the invariant of every step. -/

namespace Sys2Proof.Machine

open Sys2Proof

/-! ## What one clock leaves -/

/-- Only counters differ. -/
def CountersOnly (s t : State) : Prop := ∃ c, t = { s with ctr := c }

theorem CountersOnly.refl (s : State) : CountersOnly s s := ⟨s.ctr, rfl⟩

theorem CountersOnly.trans {s t u : State} : CountersOnly s t → CountersOnly t u → CountersOnly s u := by
  rintro ⟨c, rfl⟩ ⟨d, rfl⟩
  exact ⟨d, rfl⟩

theorem countersOnly_count (off n : ℕ) (s : State) : CountersOnly s (count off n s) := ⟨_, rfl⟩

theorem countersOnly_bump (base i : ℕ) (s : State) : CountersOnly s (bump base i s) := ⟨_, rfl⟩

theorem countersOnly_ite {p : Prop} [Decidable p] {s t u : State} (ht : CountersOnly s t) (hu : CountersOnly s u) :
    CountersOnly s (if p then t else u) := by
  split
  · exact ht
  · exact hu

theorem countersOnly_foldl {α : Type} {f : State → α → State} (hf : ∀ s a, CountersOnly s (f s a)) (as : List α) (s : State) :
    CountersOnly s (as.foldl f s) := by
  induction as generalizing s with
  | nil => exact .refl s
  | cons a as ih => exact (hf s a).trans (ih (f s a))

/-- The end of a microsecond moves counters and nothing else. -/
theorem countersOnly_countMicro (s : State) : CountersOnly s (countMicro s) := by
  unfold countMicro
  dsimp only
  generalize hu : (if throttle s = 0 then s else bump Reg.pwrSnapCnt.base 4 s) = u
  have hsu : CountersOnly s u := hu ▸ countersOnly_ite (.refl s) (countersOnly_bump _ _ s)
  refine hsu.trans (.trans (countersOnly_ite (p := u.pwr.demandT) (countersOnly_bump Reg.pwrSnapCnt.base 5 u) (.refl u)) ?_)
  exact countersOnly_foldl (fun s k => countersOnly_ite (countersOnly_count _ _ _) (.refl s)) _ _

/-- The state with which a clock ends, whose queues have gone on and whose ports have sent what they owed. -/
def afterClock (u : State) (c : List (ℕ × ℕ)) : State :=
  { u with ctr := c
           pwr := { u.pwr with
             skip := u.pwr.skip + throttle u * (((u.tim.now.advance u.tim.applied).ns + 1000000000 - u.tim.now.ns) % 1000000000) }
           tim := { u.tim with now := u.tim.now.advance u.tim.applied } }

/-- While no reset stops the time island, a clock counts and moves device time on, behind the queues and the ports. -/
theorem tick_up {s : State} (h : wideUp s = true) : ∃ c, tick s = afterClock (sendOwed (sendOwed (queuesGoOn s) 0) 1) c := by
  unfold tick
  rw [h]
  dsimp only [Bool.not_true, List.foldl_cons, List.foldl_nil, Bool.false_eq_true, if_false]
  generalize sendOwed (sendOwed (queuesGoOn s) 0) 1 = u
  obtain ⟨c, hc⟩ : CountersOnly u (if (u.tim.now.advance u.tim.applied).ns / 1000 = u.tim.now.ns / 1000 then u else countMicro u) :=
    countersOnly_ite (.refl u) (countersOnly_countMicro u)
  rw [if_neg (by decide), hc]
  refine ⟨c, ?_⟩
  by_cases h0 : throttle u = 0
  · rw [if_pos (show throttle { u with ctr := c } = 0 from h0), afterClock, h0, Nat.zero_mul, Nat.add_zero]
  · rw [if_neg (show ¬ throttle { u with ctr := c } = 0 from h0)]
    rfl

/-- While a system or power-on reset stops it, a clock changes nothing. -/
theorem tick_down {s : State} (h : wideUp s = false) : tick s = s := by
  rw [tick, h]
  rfl

theorem step_idle {s : State} (h : s.pending = []) : step s = .next (tick s) := by
  rw [step, h]

theorem sendOwed_of_none {s : State} {p : ℕ} (h : (blvOf s p).owed = 0) : sendOwed s p = s := by
  simp [sendOwed, h]

/-- With no instruction waiting in a queue, the queues stay. -/
theorem queuesGoOn_of_none {s : State} (h : anyQueued s = false) : queuesGoOn s = s := by
  simp [queuesGoOn, h]

/-- Device time takes the increment with every carry, modulo the width of its seconds. -/
theorem timeUnits_advance (t : DevTime) (inc : ℕ) :
    (timeUnits t + inc) % (2 ^ 48 * 1000000000 * 2 ^ 32) = timeUnits (t.advance inc) := by
  simp only [timeUnits, DevTime.advance]
  omega

/-- Settles O57: the clock's state in closed form gives the first clauses; the carries are arithmetic. -/
theorem idleStepAdvancesTime : Obligations.IdleStepAdvancesTime := by
  intro s t hp
  refine ⟨fun hd => ?down, ?up, ⟨_, step_idle hp⟩, queuesGoOn_of_none, fun p hl hs ho => ?owed, ?plain, fun _ _ _ => ?carry⟩
  case down => rw [step_idle hp, tick_down hd]
  case up =>
    rintro u hu rfl ht
    obtain ⟨c, hc⟩ := tick_up hu
    rw [step_idle hp, hc] at ht
    cases ht
    exact ⟨rfl, rfl⟩
  case owed => simp [sendOwed, hl, hs, ho]
  case plain =>
    intro hu hq ho h0 hm
    have h1 : sendOwed s 1 = s := sendOwed_of_none (ho 1 (by decide))
    rw [step_idle hp, tick, hu, queuesGoOn_of_none hq]
    simp only [Bool.not_true, Bool.false_eq_true, if_false, List.foldl_cons, List.foldl_nil, sendOwed_of_none (ho 0 (by decide)), h1, hm,
      if_true, h0]
  case carry =>
    refine ⟨timeUnits_advance _ _, ?_, ?_⟩ <;> exact Nat.mod_lt _ (by decide)

/-! ## The invariant -/

/-- A port that sends ends its own idle; with no compatible mode the other way ends its idle with it. -/
theorem blvWake_send (p : ℕ) (s : State) :
    blvWake p true s =
      if !blvCompat (wrF (Reg.blvLink.off p 0) 3 1 0 s) p then
        modBlv p (fun b => { b with rxIdle := false }) (wrF (Reg.blvLink.off p 0) 3 1 0 s)
      else wrF (Reg.blvLink.off p 0) 3 1 0 s := rfl

/-- Only a Boulevard port's link, the outbox and a register of a port differ. -/
theorem sendOwed_parts (s : State) (p : ℕ) :
    (sendOwed s p).tasks = s.tasks ∧ (sendOwed s p).led = s.led ∧ (sendOwed s p).ouv = s.ouv
      ∧ ∀ r, (∀ q < 2, r ≠ Reg.blvLink.off q 0) → rd (sendOwed s p) r = rd s r := by
  unfold sendOwed
  split
  case isFalse => exact ⟨rfl, rfl, rfl, fun _ _ => rfl⟩
  case isTrue h =>
    have hp : p < 2 := by
      simp only [blvLive, Bool.and_eq_true, decide_eq_true_eq] at h
      exact h.1.1.1.1
    unfold burst
    split
    · rw [blvWake_send]
      split <;> exact ⟨rfl, rfl, rfl, fun r hr => rd_wrF_other _ _ _ _ _ _ (hr p hp)⟩
    · exact ⟨rfl, rfl, rfl, fun _ _ => rfl⟩

/-- The invariant follows the tasks, the ledger, the Kerb and three registers. -/
theorem Inv.congr {s t : State} (h : Inv s) (htasks : t.tasks = s.tasks) (hled : t.led = s.led) (houv : t.ouv = s.ouv)
    (hold : rd t Reg.itmOldestId.base = rd s Reg.itmOldestId.base) (hnext : rd t Reg.itmNextId.base = rd s Reg.itmNextId.base)
    (hused : rd t Reg.krbUsed.base = rd s Reg.krbUsed.base) : Inv t where
  quiet := h.quiet.of_tasks htasks
  oldest := by
    rw [hled, hold, oldestId_congr hled hnext]
    exact h.oldest
  peak := by
    rw [kerbUsed, houv, rdF, hused]
    exact h.peak
  room := kerbUsed_le t

theorem inv_sendOwed {s : State} (p : ℕ) (h : Inv s) : Inv (sendOwed s p) := by
  obtain ⟨htasks, hled, houv, hreg⟩ := sendOwed_parts s p
  exact h.congr htasks hled houv (hreg _ (by decide)) (hreg _ (by decide)) (hreg _ (by decide))

theorem inv_queuesGoOn {s : State} (h : Inv s) : Inv (queuesGoOn s) := by
  unfold queuesGoOn
  split
  · exact inv_finish _
  · exact h

/-- A clock keeps the invariant: the queues end as a command does, and nothing else that it changes is read. -/
theorem inv_tick {s : State} (h : Inv s) : Inv (tick s) := by
  cases hu : wideUp s with
  | false => rwa [tick_down hu]
  | true =>
    obtain ⟨c, hc⟩ := tick_up hu
    rw [hc]
    exact (inv_sendOwed 1 (inv_sendOwed 0 (inv_queuesGoOn h))).congr rfl rfl rfl rfl rfl rfl

/-- Settles O60: a command ends by bringing the two registers up to date and taking the faults that wait; a clock keeps what the
invariant reads. -/
theorem everyStepKeepsTheInvariant : Obligations.EveryStepKeepsTheInvariant := by
  intro s t hs ht
  unfold step at ht
  split at ht
  · cases ht
    exact inv_tick hs
  · obtain ⟨u, rfl⟩ := exec_next ht
    exact inv_setPending.mpr (inv_finish u)

end Sys2Proof.Machine
end

