-- ==== Sys2Proof/Proofs/RegWrites.lean ====
section
/-! Writes of registers: status clears, plain stores, and the writes that the map refuses. -/

namespace Sys2Proof.Machine

open Sys2Proof

/-- A command whose effect on the state beside an empty queue is that of `t`, which leaves no fault waiting. -/
theorem gives_of_quiet {c : Instr} {f : State → State} {s t : State} (hc : exec c s = run f s)
    (he : f (setPending [] s) = setPending [] t) (hq : Quiet t) : Gives c s t := hc.trans (run_gives f s t he hq)

/-- A command whose effect on the state beside an empty queue is that of `t`, which keeps the tasks. -/
theorem gives_of_effect {c : Instr} {f : State → State} {s t : State} (hc : exec c s = run f s) (hq : Quiet s)
    (he : f (setPending [] s) = setPending [] t) (ht : t.tasks = s.tasks) : Gives c s t :=
  gives_of_quiet hc he (hq.of_tasks ht)

/-! ## What a write that passes does -/

/-- A status register takes a write as a clear of its flags. -/
theorem storeReg_status {d : RegDef} {off : ℕ} {s : State} (w : Writer) (v : Word) (hd : d.status = true) (hup : FieldUp s off) :
    storeReg d off w v s = clearFlags d off v s := by
  simp only [storeReg, hd, if_true, onOuvfi]
  split
  · exact if_pos (hup ‹_›)
  · rfl

/-- A register without an effect of its own stores its fields. -/
theorem storeReg_plain {d : RegDef} {off : ℕ} {w : Writer} {v : Word} {s : State} (hp : plainReg d off w v = true) (hup : FieldUp s off) :
    storeReg d off w v s = storeFields d off v s := by
  simp only [plainReg, Bool.and_eq_true, Bool.not_eq_true', Option.isNone_iff_eq_none] at hp
  obtain ⟨⟨⟨⟨hd, hsnap⟩, hwrite⟩, -⟩, -⟩ := hp
  simp only [storeReg, hd, hsnap, hwrite, Option.getD_none, onOuvfi, Bool.false_eq_true, if_false]
  split
  · exact if_pos (hup ‹_›)
  · rfl

/-- A register with an effect of its own is none of the two that a wrong writer reaches, nor SEC_ROLL. -/
theorem plainReg_offs {d : RegDef} {off : ℕ} {w : Writer} {v : Word} (hp : plainReg d off w v = true) :
    off ≠ Reg.pwrLimit.base ∧ off ≠ Reg.rstReq.base ∧ off ≠ Reg.secRoll.base := by
  simp only [plainReg, Bool.and_eq_true, bne_iff_ne, Option.isNone_iff_eq_none] at hp
  obtain ⟨⟨⟨-, hwrite⟩, hlimit⟩, hreq⟩ := hp
  refine ⟨hlimit, hreq, ?_⟩
  rintro rfl
  have hroll : storeLow d Reg.secRoll.base w v = some (writeRoll v) := rfl
  rw [hroll] at hwrite
  cases hwrite

/-- A word write of a register without an effect of its own goes through the gate. -/
theorem writeWord_gate {off : ℕ} {d : RegDef} {s : State} (w : Writer) (v : Word) (hd : regAt off = some d)
    (hoffs : off ≠ Reg.pwrLimit.base ∧ off ≠ Reg.rstReq.base ∧ off ≠ Reg.secRoll.base) :
    writeWord w off v s = gate w off v (storeReg d off w v) s := by
  obtain ⟨hlimit, hreq, hroll⟩ := hoffs
  simp only [writeWord, if_neg hlimit, if_neg hreq, if_neg hroll, hd]

/-- A clear under another sequence than the current one changes nothing. -/
theorem clearFlags_stale {d : RegDef} {off : ℕ} {v : Word} {s : State} (h : bits v.toNat 16 16 ≠ rdF s off 16 16) :
    clearFlags d off v s = s := if_pos h

/-- A clear under the current sequence. -/
theorem clearFlags_current {d : RegDef} {off : ℕ} {v : Word} {s : State} (h : bits v.toNat 16 16 = rdF s off 16 16) :
    clearFlags d off v s = wr off (rdW s off &&& ~~~(v &&& (BitVec.ofNat 32 (d.maskOf .rws % 65536) &&&
      ~~~BitVec.ofNat 32 (heldFlags s off)))).toNat s := if_neg (not_not.mpr h)

/-- A clear of a status register that the writer reaches. -/
theorem statusClear_gives {w : Writer} {off : ℕ} {v : Word} {d : RegDef} {s t : State} (hq : Quiet s) (hm : MayWrite s w off v)
    (hup : FieldUp s off) (hr : regAt off = some d) (hd : d.status = true) (ht : clearFlags d off v s = t) :
    Gives (.statusRegisterClear w off v) s t := by
  subst ht
  refine gives_of_effect (by unfold exec; rfl) hq ?_ (clearFlags_tasks _ _ _ _)
  simp only [hr, hd, if_true]
  rw [gate_pass_pending [] hm, storeReg_status (s := setPending [] s) w v hd hup, clearFlags_setPending]

/-- Settles O3: a write of a status register is a clear of its flags, whose three cases are the sequence's and the held flags'. -/
theorem statusClearNeedsSequence : Obligations.StatusClearNeedsSequence := by
  intro w off v d s hq hm hup hr hd
  refine ⟨fun h => ?stale, fun h hoff => ?current, fun h hoff => ?power⟩
  case stale => exact statusClear_gives hq hm hup hr hd (clearFlags_stale h)
  case current =>
    refine statusClear_gives hq hm hup hr hd ?_
    have hall : ~~~BitVec.ofNat 32 0 = BitVec.allOnes 32 := by decide
    rw [clearFlags_current h, heldFlags, if_neg hoff, hall, BitVec.and_allOnes]
  case power =>
    refine statusClear_gives hq hm hup hr hd ?_
    rw [clearFlags_current h, heldFlags, if_pos hoff]

/-- Settles O4: the write is one word, passes the gate and has no effect of its own. -/
theorem plainWriteStoresFields : Obligations.PlainWriteStoresFields := by
  intro w off v d s hq hm hup hoff hr hp
  refine gives_of_effect (by unfold exec; rfl) hq ?_ rfl
  have hsilent : silent (setPending [] s) off true = false := hm.1
  simp only [hsilent, hoff, Bool.false_eq_true, ne_eq, not_true, or_self, if_false]
  rw [writeWord_gate w v hr (plainReg_offs hp), gate_pass_pending [] hm, storeReg_plain (s := setPending [] s) hp hup]
  rfl

/-! ## Refused writes -/

/-- A whole word written where the block answers. -/
theorem registerWrite_gives {w : Writer} {off : ℕ} {v : Word} {s t : State} (hq : Quiet s) (hs : silent s off true = false)
    (hoff : off % 4 = 0) (he : writeWord w off v s = t) (ht : t.tasks = s.tasks) : Gives (.registerWrite w off 15 v) s t := by
  refine gives_of_effect (by unfold exec; rfl) hq ?_ ht
  have hsilent : silent (setPending [] s) off true = false := hs
  simp only [hsilent, hoff, Bool.false_eq_true, ne_eq, not_true, or_self, if_false]
  rw [writeWord_setPending, he]

/-- Where no register stands the access is recorded. -/
theorem pass_none {w : Writer} {off : ℕ} {s : State} (f : State → State) (hs : silent s off true = false) (hr : regAt off = none) :
    pass w off f s = badAccess w off false true s := by
  simp [pass, hs, hr]

/-- A side that may not write a register sets the flag of R559, and counts where the register is the host link's. -/
theorem pass_wrongWriter {w : Writer} {off : ℕ} {d : RegDef} {s : State} (f : State → State) (hs : silent s off true = false)
    (hr : regAt off = some d) (hw : wrongWriter d w = true) :
    pass w off f s = if off / 65536 = 3 then bump Reg.pciSnapCnt.base 3 (setFlag Reg.glbStatus.base 3 s)
      else setFlag Reg.glbStatus.base 3 s := by
  simp [pass, hs, hr, hw]

theorem pass_writer {w : Writer} {off : ℕ} {d : RegDef} {s : State} (f : State → State) (hs : silent s off true = false)
    (hr : regAt off = some d) (hw : wrongWriter d w = false) : pass w off f s = f s := by
  simp [pass, hs, hr, hw]

/-- A register with a key takes no write under another. -/
theorem gate_wrongKey {w : Writer} {off : ℕ} {v : Word} {d : RegDef} {s : State} (f : State → State) (hs : silent s off true = false)
    (hr : regAt off = some d) (hw : wrongWriter d w = false) (hk : d.key ≠ 0) (hv : bits v.toNat 16 16 ≠ d.key) :
    gate w off v f s = s := by
  rw [gate, pass_writer _ hs hr hw]
  simp [hr, hk, hv]

/-- Every word write passes the gate or is a write of SEC_ROLL, where the register is neither PWR_LIMIT nor RST_REQ. -/
theorem writeWord_pass (w : Writer) {off : ℕ} (v : Word) (hlimit : off ≠ Reg.pwrLimit.base) (hreq : off ≠ Reg.rstReq.base) :
    ∃ f, ∀ s, writeWord w off v s = pass w off f s := by
  by_cases hroll : off = Reg.secRoll.base
  · exact ⟨_, fun s => by rw [writeWord, if_neg hlimit, if_neg hreq, if_pos hroll]⟩
  · exact ⟨_, fun s => by rw [writeWord, if_neg hlimit, if_neg hreq, if_neg hroll, gate]⟩

/-- SEC_ROLL takes no raise under another key (log entry 53). -/
theorem writeRoll_wrongKey {v : Word} {s : State} (hv : bits v.toNat 16 16 ≠ Reg.secRoll.key) :
    writeRoll v s = setFlag Reg.secStatus.base 2 s := if_neg fun h => hv h.1

theorem regAt_pwrLimit : regAt Reg.pwrLimit.base = some Reg.pwrLimit := by decide +kernel

theorem regAt_rstReq : regAt Reg.rstReq.base = some Reg.rstReq := by decide +kernel

theorem regAt_secRoll : regAt Reg.secRoll.base = some Reg.secRoll := by decide +kernel

/-- Settles O5: what the row refuses before the map, and what the gate refuses. -/
theorem refusedWritesChangeNothing : Obligations.RefusedWritesChangeNothing := by
  intro w off enables v s hq
  refine ⟨fun hs => ?silent, fun hs he => ?access, fun hs hoff hr => ?none, fun d hs hoff hr hw h3 hlimit hreq => ?writer,
    fun d hs hoff hr hw h3 => ?hostWriter, fun d hs hoff hr hw hk hv hreq hroll => ?key, fun d hs hr hw hv => ?roll⟩
  case silent =>
    refine gives_of_effect (by unfold exec; rfl) hq ?_ rfl
    have hsilent : silent (setPending [] s) off true = true := hs
    simp only [hsilent, if_true]
  case access =>
    refine gives_of_effect (by unfold exec; rfl) hq ?_ rfl
    have hsilent : silent (setPending [] s) off true = false := hs
    simp only [hsilent, Bool.false_eq_true, if_false, if_pos he]
    rfl
  case none =>
    have hlimit : off ≠ Reg.pwrLimit.base := by
      rintro rfl
      rw [regAt_pwrLimit] at hr
      cases hr
    have hreq : off ≠ Reg.rstReq.base := by
      rintro rfl
      rw [regAt_rstReq] at hr
      cases hr
    obtain ⟨f, hf⟩ := writeWord_pass w v hlimit hreq
    exact registerWrite_gives hq hs hoff ((hf s).trans (pass_none f hs hr)) rfl
  case writer =>
    obtain ⟨f, hf⟩ := writeWord_pass w v hlimit hreq
    refine registerWrite_gives hq hs hoff ((hf s).trans ?_) rfl
    rw [pass_wrongWriter f hs hr hw, if_neg h3]
  case hostWriter =>
    have hlimit : off ≠ Reg.pwrLimit.base := by
      rintro rfl
      revert h3
      decide
    have hreq : off ≠ Reg.rstReq.base := by
      rintro rfl
      revert h3
      decide
    obtain ⟨f, hf⟩ := writeWord_pass w v hlimit hreq
    refine registerWrite_gives hq hs hoff ((hf s).trans ?_) rfl
    rw [pass_wrongWriter f hs hr hw, if_pos h3]
  case key =>
    have hlimit : off ≠ Reg.pwrLimit.base := by
      rintro rfl
      rw [regAt_pwrLimit] at hr
      cases hr
      exact hk rfl
    refine registerWrite_gives hq hs hoff ?_ rfl
    rw [writeWord_gate w v hr ⟨hlimit, hreq, hroll⟩, gate_wrongKey _ hs hr hw hk hv]
  case roll =>
    refine registerWrite_gives hq hs (by decide) ?_ rfl
    have hd : Reg.secRoll = d := Option.some.inj (regAt_secRoll.symm.trans hr)
    rw [writeWord, if_neg (by decide), if_neg (by decide), if_pos rfl, pass_writer _ hs hr hw, writeRoll_wrongKey (hd ▸ hv)]

end Sys2Proof.Machine
end

