-- ==== Sys2Proof/Proofs/Latches.lean ====
section
/-! Latch groups, BAR4's bits of registers, GLB_MODE and the nominal increment. -/

namespace Sys2Proof.Machine

open Sys2Proof

/-! ## Latch groups -/

/-- What side `w` latches of the words of a group. -/
def latchedNow (s : State) (w : Writer) (offs : List ℕ) : List Latched :=
  offs.map fun o => { who := w, off := o, v := BitVec.ofNat 32 (liveWord s o) }

theorem latchWords_eq (w : Writer) (offs : List ℕ) (s : State) :
    latchWords w offs s = { s with latches := (s.latches.filter fun l => !(l.who == w && offs.contains l.off)) ++ latchedNow s w offs } := rfl

theorem find?_latchedNow_same {s : State} {w : Writer} {o : ℕ} {offs : List ℕ} (ho : o ∈ offs) :
    (latchedNow s w offs).find? (fun l => l.who == w && l.off == o) = some { who := w, off := o, v := BitVec.ofNat 32 (liveWord s o) } := by
  induction offs with
  | nil => cases ho
  | cons a offs ih =>
    by_cases ha : a = o
    · simp [latchedNow, ha]
    · have hmem : o ∈ offs := (List.mem_cons.mp ho).resolve_left (Ne.symm ha)
      simpa [latchedNow, ha] using ih hmem

theorem find?_latchedNow_other {s : State} {u w : Writer} (o : ℕ) (offs : List ℕ) (hu : u ≠ w) :
    (latchedNow s w offs).find? (fun l => l.who == u && l.off == o) = none := by
  simp [latchedNow, hu.symm]

/-- What a side latched of a word of the group is the word as it stood. -/
theorem latchOf_latchWords_same {o : ℕ} {offs : List ℕ} (w : Writer) (s : State) (ho : o ∈ offs) :
    latchOf (latchWords w offs s) w o = liveWord s o := by
  have hold : (s.latches.filter fun l => !(l.who == w && offs.contains l.off)).find? (fun l => l.who == w && l.off == o) = none := by
    rw [List.find?_eq_none]
    rintro l hl h
    simp only [Bool.and_eq_true, beq_iff_eq] at h
    obtain ⟨hw, rfl⟩ := h
    simp [hw, ho] at hl
  have hlt : liveWord s o < 2 ^ 32 := Nat.mod_lt _ (by decide)
  simp only [latchOf, latchWords_eq, List.find?_append, hold, find?_latchedNow_same ho, Option.none_or, Option.map_some,
    Option.getD_some, BitVec.toNat_ofNat]
  exact Nat.mod_eq_of_lt hlt

/-- The other side's latches stay. -/
theorem latchOf_latchWords_other {u w : Writer} (offs : List ℕ) (o : ℕ) (s : State) (hu : u ≠ w) :
    latchOf (latchWords w offs s) u o = latchOf s u o := by
  have hold : (s.latches.filter fun l => !(l.who == w && offs.contains l.off)).find? (fun l => l.who == u && l.off == o)
      = s.latches.find? (fun l => l.who == u && l.off == o) := by
    rw [List.find?_filter]
    congr 1
    funext l
    by_cases hl : l.who = u
    · simp [hl, hu, beq_eq_decide]
    · simp [hl]
  simp only [latchOf, latchWords_eq, List.find?_append, hold, find?_latchedNow_other o offs hu, Option.or_none]

/-! ## The row -/

/-- A read inside the word of a register answers its bytes of what the register's read answers. -/
theorem latchGroupRead_gives {w : Writer} {off b x : ℕ} {s t : State} (n : ℕ) (hq : Quiet s) (hoff : off % 4 = 0) (hb : b < 4)
    (hx : readReg w off s = (x, t)) (ht : t.tasks = s.tasks) :
    Gives (.latchGroupRead w (off + b) n) s { t with rdata := bits x (8 * b) (8 * n) } := by
  have hword : (off + b) / 4 * 4 = off := by omega
  have hbyte : (off + b) % 4 = b := by omega
  refine gives_of_effect (by unfold exec; rfl) hq ?_ ht
  simp only [hword, hbyte, readReg_setPending, hx]
  rfl

theorem bits_zero (lo w : ℕ) : bits 0 lo w = 0 := by simp [bits]

/-- Settles O6: the row answers what the register's read leaves, and the two sides' latches are apart. -/
theorem registerReadAnswers : Obligations.RegisterReadAnswers := by
  intro w off b n s hq hoff hb _
  have hfield (hup : FieldUp s off) : (fieldOff off && !s.ouv.powered) = false := by
    cases hf : fieldOff off with
    | false => rfl
    | true => simp [hup hf]
  refine ⟨fun hs => ?silent, fun hs hr => ?none, fun hs hr hup hl => ?latched, fun hs hr hup hl => ?live,
    fun o ho => latchOf_latchWords_same w s ho, fun u o hu => latchOf_latchWords_other _ o s hu⟩
  case silent => exact latchGroupRead_gives n hq hoff hb (if_pos hs) rfl
  case none =>
    have hx : readReg w off s = (0, badAccess w off false false s) := by simp [readReg, hs, hr]
    have h := latchGroupRead_gives n hq hoff hb hx rfl
    rwa [bits_zero] at h
  case latched =>
    have hx : readReg w off s = (latchOf s w off, s) := by simp [readReg, hs, Option.isSome_iff_ne_none.mp hr, hfield hup, hl]
    exact latchGroupRead_gives n hq hoff hb hx rfl
  case live =>
    have hx : readReg w off s = (liveWord s off, latchWords w (groupOf off) s) := by
      simp [readReg, hs, Option.isSome_iff_ne_none.mp hr, hfield hup, hl]
    exact latchGroupRead_gives n hq hoff hb hx rfl

/-! ## BAR4's bits of registers -/

theorem regAt_glbSem : regAt Reg.glbSem.base = some Reg.glbSem := by decide +kernel

/-- A read of one bit answers what it finds. -/
theorem semTestAndSet_gives {a size x : ℕ} {s t : State} (hq : Quiet s) (hx : aliasRead a size s = (x, t)) (ht : t.tasks = s.tasks) :
    Gives (.glbSemTestAndSet a size) s { t with rdata := x } := by
  refine gives_of_effect (by unfold exec; rfl) hq ?_ ht
  simp only [aliasRead_setPending, hx]
  rfl

/-- Settles O8: an access of one bit is a read-modify-write of its register's word, or is refused before it. -/
theorem aliasActsOnOneBit : Obligations.AliasActsOnOneBit := by
  intro a size v d s hq
  refine ⟨fun hsize ha hoff hs hr hw hok hp => ?write, fun hsize ha hoff hs hr hno => ?refused, fun hbad hs => ?badWrite,
    fun bit hbit hs => ?semaphore, fun ha hoff hne hs hr => ?read, fun hbad hs => ?badRead⟩
  case write =>
    have hup : FieldUp (setPending [] s) (aliasOff a) := fun hf => by
      simp only [fieldOff, Bool.and_eq_true, decide_eq_true_eq] at hf
      omega
    have hsilent : silent (setPending [] s) (aliasOff a) true = false := hs
    refine gives_of_effect (by unfold exec; rfl) hq ?_ rfl
    simp only [hsilent, hsize, ha, Bool.false_eq_true, ne_eq, not_true, or_self, if_false, if_neg (Nat.not_le.mpr hoff), hr, aliasWrite, hok,
      hw]
    rw [storeReg_plain (hp _) hup]
    rfl
  case refused =>
    have hsilent : silent (setPending [] s) (aliasOff a) true = false := hs
    refine gives_of_effect (by unfold exec; rfl) hq ?_ rfl
    simp only [hsilent, hsize, ha, Bool.false_eq_true, ne_eq, not_true, or_self, if_false, if_neg (Nat.not_le.mpr hoff), hr, aliasWrite, hno,
      if_true]
    rfl
  case badWrite =>
    have hsilent : silent (setPending [] s) (aliasOff a) true = false := hs
    refine gives_of_effect (by unfold exec; rfl) hq ?_ rfl
    simp only [hsilent, Bool.false_eq_true, if_false, if_pos hbad]
    rfl
  case semaphore =>
    have hoff : aliasOff ((Reg.glbSem.base * 8 + bit) * 4) = Reg.glbSem.base := by
      simp only [aliasOff, Reg.glbSem]
      omega
    have hbits : aliasBit ((Reg.glbSem.base * 8 + bit) * 4) = bit := by
      simp only [aliasBit, Reg.glbSem]
      omega
    refine semTestAndSet_gives hq ?_ rfl
    have hin : Reg.glbSem.base < 65536 := by decide
    simp [aliasRead, hoff, hbits, hs, regAt_glbSem, hin]
  case read =>
    refine semTestAndSet_gives hq ?_ rfl
    simp [aliasRead, hs, ha, hoff, Option.isSome_iff_ne_none.mp hr, hne]
  case badRead =>
    refine semTestAndSet_gives hq ?_ rfl
    simp only [aliasRead, hs, Bool.false_eq_true, if_false, if_pos hbad]

theorem bits_bits_self (n w : ℕ) : bits (bits n 0 w) 0 w = bits n 0 w := by simp [bits]

/-! ## GLB_MODE and the nominal increment -/

/-- A write of a register's own row that its side may make. -/
theorem gated_gives {c : Instr} {w : Writer} {off : ℕ} {v : Word} {f : State → State} {s t : State}
    (hc : exec c s = run (gate w off v f) s) (hq : Quiet s) (hm : MayWrite s w off v) (he : f (setPending [] s) = setPending [] t)
    (ht : t.tasks = s.tasks) : Gives c s t :=
  gives_of_effect hc hq ((gate_pass_pending [] hm f).trans he) ht

/-- Settles O9: the rows are gated writes; GLB_MODE has three outcomes, and the increment's high word brings the staged low one with it. -/
theorem modeAndIncrementWrites : Obligations.ModeAndIncrementWrites := by
  intro w v s hq
  have mode {t : State} (hm : MayWrite s w Reg.glbMode.base v) (he : writeMode v s = t) (ht : t.tasks = s.tasks) :
      Gives (.glbModeWrite w v) s t :=
    gated_gives (by unfold exec; rfl) hq hm (by rw [writeMode_setPending, he]) ht
  have hbit : bitOf (v.toNat &&& 0x7F01) 0 = v.getLsbD 0 := bitOf_and_of_covers v _ 0 (by decide)
  refine ⟨fun hm hl hv => mode hm ?_ rfl, fun hm hl hv hne => mode hm ?_ (setAllPoints_tasks _ _), fun hm hl hne => mode hm ?_ rfl,
    fun hm => ?low, fun hm => ?high⟩
  · simp only [writeMode, hl, hbit, hv, Bool.false_and, Bool.false_eq_true, if_false]
  · simp only [writeMode, hl, hbit, hv, Bool.false_and, Bool.false_eq_true, if_false, Bool.true_and, bne_iff_ne, if_pos hne]
  · simp only [writeMode, hl, Bool.true_and, bne_iff_ne, if_pos hne]
  case low => exact gated_gives (by unfold exec; rfl) hq hm rfl rfl
  case high =>
    have hlow : rd (writeTimIncHi v s) Reg.timIncLo.base = s.tim.stagedLo.toNat := by
      refine (rd_wr_other _ _ _ _ (by decide)).trans ((rd_wr_same _ _ _).trans (Nat.mod_eq_of_lt s.tim.stagedLo.isLt))
    have hhigh : rd (writeTimIncHi v s) Reg.timIncHi.base = bits v.toNat 0 4 :=
      (rd_wr_same _ _ _).trans (Nat.mod_eq_of_lt ((bits_lt v.toNat 0 4).trans (by decide)))
    refine ⟨writeTimIncHi v s, gated_gives (by unfold exec; rfl) hq hm rfl rfl, hlow, hhigh, ?_, rfl, fun r hlo hhi => ?_⟩
    · have hinc : timInc (writeTimIncHi v s) = s.tim.stagedLo.toNat + bits v.toNat 0 4 * 2 ^ 32 := by
        rw [timInc, rdF, hlow, hhigh, bits_bits_self]
      rw [← hinc]
      rfl
    · exact (rdW_wr_other _ _ _ _ hhi).trans (rdW_wr_other _ _ _ _ hlo)

end Sys2Proof.Machine
end

