-- ==== Sys2Proof/Proofs/Rings.lean ====
section
/-! Ring enables and consumer indices. -/

namespace Sys2Proof.Machine

open Sys2Proof

/-- Where a register has no key and either side may write it, a write passes wherever its block answers. -/
theorem mayWrite_of_free {s : State} {off : ℕ} {d : RegDef} (w : Writer) (v : Word) (hd : regAt off = some d) (hw : wrongWriter d w = false)
    (hk : d.key = 0) (hs : silent s off true = false) : MayWrite s w off v := by
  refine ⟨hs, ?_⟩
  rw [writable, hd]
  simp [hw, hk]

/-! ## Ring enables -/

theorem regAt_itmCtl : regAt Reg.itmCtl.base = some Reg.itmCtl := by decide +kernel

/-- ITM_CTL with a ring's enable set. -/
def ctlEnabling (s : State) (r : ℕ) : Word := BitVec.ofNat 32 (setBits (rd s Reg.itmCtl.base) r 1 1)

/-- The rings whose enable a write raises. -/
def risingRings (s : State) (v : Word) : List ℕ := (List.range 3).filter fun r => bitOf v.toNat r && !bitOf (rd s Reg.itmCtl.base) r

theorem toNat_ctlEnabling {s : State} {r : ℕ} (hr : r < 3) : (ctlEnabling s r).toNat = setBits (rd s Reg.itmCtl.base) r 1 1 :=
  Nat.mod_eq_of_lt (setBits_lt _ _ _ _ _ (rd_lt _ _) (by omega))

/-- Setting the enable of a ring that is not enabled raises that enable and no other. -/
theorem risingRings_ctlEnabling {s : State} {r : ℕ} (hr : r < 3) (he : ringEn s r = false) :
    risingRings s (ctlEnabling s r) = [r] := by
  have hbit (i : ℕ) : (bitOf (setBits (rd s Reg.itmCtl.base) r 1 1) i && !bitOf (rd s Reg.itmCtl.base) i) = decide (i = r) := by
    rw [bitOf, bitOf, testBit_setBits]
    by_cases hi : i = r
    · subst hi
      have hoff : (rd s Reg.itmCtl.base).testBit i = false := he
      simp [hoff]
    · rw [if_neg (by omega)]
      simp [hi]
  rw [risingRings, toNat_ctlEnabling hr]
  simp only [hbit]
  interval_cases r <;> rfl

/-- What a write of ITM_CTL leaves, by the rings whose enable it raises and those of them that break a placement rule. -/
theorem writeItmCtl_eq (v : Word) (s : State) : writeItmCtl v s =
    (let bad := (risingRings s v).filter fun r => !ringOk s r
     let t := setFlags Reg.itmStatus.base (bad.map fun _ => 5)
       (wr Reg.itmCtl.base (bad.foldl (fun x r => setBits x r 1 0) (v.toNat &&& 0x3F3F07)) s)
     if (risingRings s v).contains 2 && !bad.contains 2 then postAborted (flushEvents t) else t) := rfl

/-- An enable that stands. -/
theorem writeItmCtl_ok {s : State} {r : ℕ} (hr : r < 3) (he : ringEn s r = false) (hok : ringOk s r = true) :
    writeItmCtl (ctlEnabling s r) s =
      if r = 2 then postAborted (flushEvents (wr Reg.itmCtl.base (ctlWith s r) s)) else wr Reg.itmCtl.base (ctlWith s r) s := by
  rw [writeItmCtl_eq, risingRings_ctlEnabling hr he]
  have hbad : [r].filter (fun r => !ringOk s r) = [] := by simp [hok]
  simp only [hbad, List.map_nil, List.foldl_nil, setFlags, List.contains_cons, List.contains_nil, Bool.or_false, Bool.not_false, Bool.and_true,
    beq_iff_eq, eq_comm (a := 2)]
  rfl

/-- An enable that breaks a placement rule stays 0. -/
theorem writeItmCtl_bad {s : State} {r : ℕ} (hr : r < 3) (he : ringEn s r = false) (hok : ringOk s r = false) :
    writeItmCtl (ctlEnabling s r) s = setFlag Reg.itmStatus.base 5 (wr Reg.itmCtl.base (setBits (ctlWith s r) r 1 0) s) := by
  rw [writeItmCtl_eq, risingRings_ctlEnabling hr he]
  have hbad : [r].filter (fun r => !ringOk s r) = [r] := by simp [hok]
  simp only [hbad, Bool.and_not_self, Bool.false_eq_true, if_false]
  rfl

/-- An enable's row leaves what the write of ITM_CTL does. -/
theorem enableRing_gives {c : Instr} {w : Writer} {r : ℕ} {s t : State} (hc : exec c s = run (enableRing w r) s) (hq : Quiet s)
    (hs : silent s Reg.itmCtl.base true = false) (ht : writeItmCtl (ctlEnabling s r) s = t) (htasks : t.tasks = s.tasks) : Gives c s t := by
  refine gives_of_effect hc hq ?_ htasks
  rw [enableRing_setPending]
  exact congrArg _ ((gate_pass (mayWrite_of_free w _ regAt_itmCtl (by cases w <;> rfl) rfl hs) _).trans ht)

/-- Settles O10: each ring's enable raises one bit, which stands where the ring is placed well. -/
theorem ringEnables : Obligations.RingEnables := by
  intro w s hq hs
  refine ⟨fun he hok => enableRing_gives (by unfold exec; rfl) hq hs (writeItmCtl_ok (by decide) he hok) rfl,
    fun he hok => enableRing_gives (by unfold exec; rfl) hq hs (writeItmCtl_ok (by decide) he hok) rfl,
    fun he hok => enableRing_gives (by unfold exec; rfl) hq hs (writeItmCtl_ok (by decide) he hok) ?events,
    fun he hok => enableRing_gives (by unfold exec; rfl) hq hs (writeItmCtl_bad (by decide) he hok) rfl,
    fun he hok => enableRing_gives (by unfold exec; rfl) hq hs (writeItmCtl_bad (by decide) he hok) rfl,
    fun he hok => enableRing_gives (by unfold exec; rfl) hq hs (writeItmCtl_bad (by decide) he hok) rfl⟩
  case events => exact (postAborted_tasks _).trans (eventFrame_flushEvents _).tasks

/-! ## Consumer indices -/

theorem regAt_itmResCidx : regAt Reg.itmResCidx.base = some Reg.itmResCidx := by decide +kernel

theorem regAt_itmEvtCidx : regAt Reg.itmEvtCidx.base = some Reg.itmEvtCidx := by decide +kernel

/-- The two consumer indices that the host writes stand in one block. -/
theorem silent_itmEvtCidx (s : State) : silent s Reg.itmEvtCidx.base true = silent s Reg.itmResCidx.base true := rfl

/-- Settles O11: the index is compared with the ring's size. -/
theorem consumerIndexWrites : Obligations.ConsumerIndexWrites := by
  intro v s hq hs
  have results {t : State} (ht : writeCidx 1 v s = t) (htasks : t.tasks = s.tasks) : Gives (.resCidxWrite .host v) s t :=
    gated_gives (by unfold exec; rfl) hq (mayWrite_of_free _ _ regAt_itmResCidx rfl rfl hs) (by rw [writeCidx_setPending, ht]) htasks
  have events {t : State} (ht : writeCidx 2 v s = t) (htasks : t.tasks = s.tasks) : Gives (.evtCidxWrite .host v) s t :=
    gated_gives (by unfold exec; rfl) hq (mayWrite_of_free _ _ regAt_itmEvtCidx rfl rfl ((silent_itmEvtCidx s).trans hs))
      (by rw [writeCidx_setPending, ht]) htasks
  refine ⟨fun h => results (if_neg (Nat.not_lt.mpr h)) rfl, fun h => results (if_pos h) rfl,
    fun h => events (if_neg (Nat.not_lt.mpr h)) ?_, fun h => events (if_pos h) rfl⟩
  exact (postAborted_tasks _).trans (eventFrame_flushEvents _).tasks

end Sys2Proof.Machine
end

