-- ==== Sys2Proof/Proofs/Submissions.lean ====
section
/-! The submission queue: whose turn it is, the ends that come of themselves, and polling. -/

namespace Sys2Proof.Machine

open Sys2Proof

/-! ## Ends of submissions -/

/-- `s` with what posting events may change taken from `t`. -/
def eventPart (s t : State) : State :=
  { s with regs := t.regs, ctr := t.ctr, hostMem := t.hostMem, out := t.out, host := t.host
           led := { s.led with evtNum := t.led.evtNum, evtDropped := t.led.evtDropped, heldLoss := t.led.heldLoss
                               heldReleases := t.led.heldReleases, lossAfter := t.led.lossAfter } }

/-- What posting events leaves is read off the state before. -/
theorem EventFrame.get {α : Type} {s t : State} (h : EventFrame s t) (f : State → α) : f t = f (eventPart s t) := congrArg f h

theorem EventFrame.items {s t : State} (h : EventFrame s t) : t.led.items = s.led.items := h.get (·.led.items)

/-- Posting events leaves the submissions. -/
theorem EventFrame.subQ {s t : State} (h : EventFrame s t) : t.led.subQ = s.led.subQ := by
  rw [EventFrame] at h
  rw [h]

theorem eventFrame_completeSub (op : ℕ) (tag : Word) (status : ℕ) (data : List Byte) (s : State) :
    EventFrame s (completeSub op tag status data s) := by
  unfold completeSub
  dsimp only
  split
  · exact eventFrame_postEvent _ _ _ _ _ _ _
  · exact (eventFrame_bump _ _ s).trans (eventFrame_postEvent _ _ _ _ _ _ _)

/-- An end with OK counts nothing. -/
theorem completeSub_ok (op : ℕ) (tag : Word) (data : List Byte) (s : State) :
    completeSub op tag Stat.ok data s = postEvent 1 op tag.toNat 0 Stat.ok data s := rfl

theorem dropSub_subQ (e : Submission) (status : ℕ) (data : List Byte) (s : State) :
    (dropSub e status data s).led.subQ = dropFirst (fun x => x == e) s.led.subQ :=
  (eventFrame_completeSub _ _ _ _ _).subQ

theorem length_dropFirst {α : Type} {p : α → Bool} {l : List α} (h : ∃ x ∈ l, p x = true) :
    (dropFirst p l).length + 1 = l.length := by
  induction l with
  | nil => simp at h
  | cons a l ih =>
    unfold dropFirst
    split
    · rfl
    · obtain ⟨x, hx, hp⟩ := h
      have hx' : x ∈ l := (List.mem_cons.mp hx).resolve_left (by rintro rfl; contradiction)
      exact congrArg (· + 1) (ih ⟨x, hx', hp⟩)

/-- The submission whose turn it is waits in the queue. -/
theorem mem_of_turn {s : State} {e : Submission} (h : turn s = some e) : e ∈ s.led.subQ := by
  unfold turn at h
  split at h
  · cases h
  · exact List.mem_of_find?_eq_some h

/-- While nothing that ends by itself has its turn, nothing ends. -/
theorem endEarlyN_of_none {n : ℕ} {s : State} (h : ∀ e, turn s = some e → e.early = none) : endEarlyN n s = s := by
  cases n with
  | zero => rfl
  | succ n =>
    unfold endEarlyN
    cases ht : turn s with
    | none => rfl
    | some e => simp only [h e ht]

theorem endEarly_of_none {s : State} (h : ∀ e, turn s = some e → e.early = none) : endEarly s = s := endEarlyN_of_none h

/-- A submission that ends by itself ends in its turn, before those behind it. -/
theorem endEarly_of_early {s : State} {e : Submission} {st : ℕ} (ht : turn s = some e) (he : e.early = some st) :
    endEarly s = endEarly (dropSub e st [] s) := by
  have hlen : (dropSub e st [] s).led.subQ.length + 1 = s.led.subQ.length := by
    rw [dropSub_subQ]
    exact length_dropFirst ⟨e, mem_of_turn ht, beq_self_eq_true e⟩
  rw [endEarly, ← hlen, endEarlyN]
  simp only [ht, he]
  rfl

@[simp] theorem endEarly_tasks (s : State) : (endEarly s).tasks = s.tasks := endEarlyN_tasks _ _

@[simp] theorem finishSub_tasks (e : Submission) (status : ℕ) (data : List Byte) (s : State) :
    (finishSub e status data s).tasks = s.tasks := by
  rw [finishSub, endEarly_tasks, dropSub_tasks]

/-! ## Turns -/

theorem nextSub_eq_some {sel : Submission → Bool} {s : State} {e : Submission} (h : nextSub sel s = some e) :
    turn s = some e ∧ sel e = true := by
  unfold nextSub at h
  split at h
  · split at h
    · cases h
      simp_all
    · cases h
  · cases h

/-- The submission whose turn it is, with a payload, is served. -/
theorem serve_of_next {sel : Submission → Bool} {s : State} {e : Submission} (f : Submission → State → State)
    (h : nextSub sel s = some e) (hlen : e.len ≠ 0 ∨ e.op = 2) : serve sel f s = f e s := by
  unfold serve
  simp only [h]
  exact if_neg (by omega)

/-- One of length 0 does nothing (R61, R588). -/
theorem serve_of_empty {sel : Submission → Bool} {s : State} {e : Submission} (f : Submission → State → State)
    (h : nextSub sel s = some e) (hlen : e.len = 0) (hop : e.op ≠ 2) :
    serve sel f s = finishSub e (if entryClean e then Stat.ok else Stat.badFormat) [] s := by
  unfold serve
  simp only [h]
  exact if_pos ⟨hlen, hop⟩

theorem withPayload_of_payload {m : MemRun} {e : Submission} {square : Bool} {s s1 : State} {bs : List Byte}
    (f : List Byte → State → State) (h : Payload m square e s bs s1) : withPayload m e square f s = f bs s1 := by
  unfold withPayload
  rw [h]
  rfl

/-! ## Polling -/

/-- Where the next entry of the submission ring stands. -/
abbrev entryAddr (s : State) : ℕ := ringBase s 0 + (rd s Reg.itmSubCidx.base % ringSize s 0) * 64

theorem pollEntries_full {s : State} (abort : Option ℕ) (f n : ℕ) (h : 64 ≤ openCount s) : pollEntries abort (f + 1) n s = (n, s) := by
  rw [pollEntries, if_pos h]

theorem pollEntries_refused {s : State} {abort : Option ℕ} (f : ℕ) {n : ℕ} (h : openCount s < 64)
    (hr : abort = some n ∨ hostCanRead s (entryAddr s) 64 = false) :
    pollEntries abort (f + 1) n s =
      (n, wrF Reg.itmCtl.base 0 1 0 (setFlag Reg.pciStatus.base 0 (hostAbort (bump Reg.pciSnapCnt.base 0 s)))) := by
  rw [pollEntries, if_neg (by omega), if_pos]
  obtain rfl | hr := hr
  · simp
  · exact (Bool.or_eq_true _ _).mpr (.inl (by rw [Bool.not_eq_true']; exact hr))

/-- What a poll that may read makes of the entry's phase. -/
theorem pollEntries_read {s : State} {abort : Option ℕ} (f : ℕ) {n : ℕ} (h : openCount s < 64) (ha : abort ≠ some n)
    (hr : hostCanRead s (entryAddr s) 64 = true) :
    pollEntries abort (f + 1) n s =
      if bitOf (leAt (hostGet s (entryAddr s) 64) 0x3F 1) 0 != phaseOf (rd s Reg.itmSubCidx.base) (ringSize s 0) then
        (n, bump Reg.pciSnapCnt.base 0 s)
      else pollEntries abort f (n + 1) (takeEntry (hostGet s (entryAddr s) 64)
        (wr Reg.itmSubCidx.base (rd s Reg.itmSubCidx.base + 1) (bump Reg.pciSnapCnt.base 0 s))) := by
  have hab : (abort == some n) = false := by simpa using ha
  have hcan : (!hostCanRead s (ringBase s 0 + (rd s (ringIdx 0) % ringSize s 0) * 64) 64) = false :=
    (congrArg not hr)
  rw [pollEntries, if_neg (by omega)]
  simp only [hcan, hab, Bool.or_self, Bool.false_eq_true, if_false]
  rfl

@[simp] theorem pollEntries_tasks (abort : Option ℕ) (f n : ℕ) (s : State) : (pollEntries abort f n s).2.tasks = s.tasks := by
  induction f generalizing n s with
  | zero => rfl
  | succ f ih =>
    unfold pollEntries
    dsimp only
    split
    · rfl
    · split
      · rfl
      · split
        · rfl
        · rw [ih, takeEntry_tasks]
          rfl

/-- The ring has room for one entry at least. -/
theorem ringSize_pos (s : State) (r : ℕ) : 0 < ringSize s r := Nat.two_pow_pos _

/-- A poll of an enabled ring. -/
theorem subRingPoll_gives {m : MemRun} {s : State} (hq : Quiet s) (hcp : cpUp s 1 = true) (he : ringEn s 0 = true)
    (hp : rdF s Reg.itmSubPoll.base 0 16 ≠ 0) (hb : s.host.bme = true) {n : ℕ} {s1 : State}
    {t : State}
    (hpoll : pollEntries m.abort (ringSize s 0) 0 s = (n, s1))
    (ht : (if n = 0 then s1 else writeBack 0 (rd s1 Reg.itmSubCidx.base) s1) = t) :
    Gives (.subRingPoll m) s (endEarly t) := by
  subst ht
  have htasks : s1.tasks = s.tasks := by
    rw [← pollEntries_tasks m.abort (ringSize s 0) 0 s, hpoll]
  refine gives_of_effect (by unfold exec; rfl) hq ?_ ?_
  · simp only [cpUp_setPending, ringEn_setPending, rdF_setPending, setPending_host, ringSize_setPending, pollEntries_setPending, hcp, he, hb, hpoll,
      beq_eq_false_iff_ne.mpr hp, Bool.not_true, Bool.or_self, Bool.false_eq_true, if_false, rd_setPending, writeBack_setPending, ite_setPending,
      endEarly_setPending]
    rfl
  · rw [endEarly_tasks]
    split
    · exact htasks
    · rw [writeBack_tasks, htasks]

/-- Settles O13: one round of a poll by its outcomes, and the ends that come of themselves. -/
theorem pollConsumesNewEntries : Obligations.PollConsumesNewEntries := by
  intro m s hq hcp
  obtain ⟨f, hf⟩ : ∃ f, ringSize s 0 = f + 1 := ⟨ringSize s 0 - 1, by have := ringSize_pos s 0; omega⟩
  refine ⟨fun ha he hp hb ho hr hphase => ?old, fun n s1 he hp hb hpoll => ?new, fun he hp hb ho hr => ?refused,
    fun f n ho => pollEntries_full _ f n ho, fun n f raw ha ho hr hraw hphase => ?more, fun e he => ?nop, fun e h => ?stay,
    fun e st ht he => endEarly_of_early ht he⟩
  case old =>
    refine subRingPoll_gives (n := 0) hq hcp he hp hb ?_ (if_pos rfl)
    rw [hf, pollEntries_read f ho ha hr, if_pos (bne_iff_ne.mpr hphase)]
  case new => exact subRingPoll_gives hq hcp he hp hb hpoll (if_neg (Nat.succ_ne_zero n))
  case refused =>
    refine subRingPoll_gives (n := 0) hq hcp he hp hb ?_ (if_pos rfl)
    rw [hf, pollEntries_refused f ho hr]
  case more =>
    subst hraw
    rw [pollEntries_read f ho ha hr, if_neg (by simp [hphase])]
  case nop =>
    refine gives_of_effect (by unfold exec; rfl) hq ?_ ?_
    · simp only [cpUp_setPending, hcp, setPending_led, he, finishSub_setPending, Bool.not_true, Bool.false_eq_true, if_false]
      rfl
    · rw [endEarly_tasks, postEvent_tasks]
      rfl
  case stay =>
    refine endEarly_of_none fun e' he' => ?_
    obtain hn | ⟨hs, hn⟩ := h
    · rw [hn] at he'
      cases he'
    · rw [hs] at he'
      cases he'
      exact hn

end Sys2Proof.Machine
end

