-- ==== Sys2Proof/Proofs/Submit2.lean ====
section
/-! Open-item and quota submissions. -/

namespace Sys2Proof.Machine

open Sys2Proof

/-- The same, with the faults that the effect leaves waiting taken. -/
theorem givesThen_of_effect {c : Instr} {f : State → State} {s t : State} (hc : exec c s = run f s)
    (he : f (setPending [] s) = setPending [] t) : GivesThen c s t := by
  rw [GivesThen, hc, run, he, finish_setPending, setPending_setPending]

/-- Settles O14: each row by its branches; a quota submission is its parts in the order of R592. -/
theorem openItemAndQuotaSubmissions : Obligations.OpenItemAndQuotaSubmissions := by
  intro m e s hq
  refine ⟨fun hcp he harg hen hh => ?opens, fun hcp he hbad => ?badItem, fun bs s1 s2 s3 s4 s5 hn harg hlen hp hfl hz hx h2 h3 h4 h5 => ?quota,
    fun hn hlen => ?empty⟩
  case opens =>
    refine givesThen_of_effect (by unfold exec; rfl) ?_
    simp only [cpUp_setPending, hcp, setPending_led, he, srcEn_setPending, srcHost_setPending, hen, hh, setPending_tim, copyPos_setPending,
      srcPos_setPending, openItem_setPending, finishSub_setPending, Bool.not_true, Bool.false_eq_true, Bool.true_eq_false, or_false, if_false,
      show ¬7 < e.arg by omega]
    rfl
  case badItem =>
    refine gives_of_effect (by unfold exec; rfl) hq ?_ (finishSub_tasks _ _ _ s)
    simp only [cpUp_setPending, hcp, setPending_led, he, srcEn_setPending, srcHost_setPending, finishSub_setPending, Bool.not_true,
      Bool.false_eq_true, if_false, if_pos hbad]
    rfl
  case quota =>
    refine givesThen_of_effect (by unfold exec; rfl) ?_
    have hop : e.op = 5 := by simpa using (nextSub_eq_some hn).2
    rw [serve_of_next (s := setPending [] s) _ hn (.inl (by omega))]
    have hclean : entryClean e = true := by simp [entryClean, hop, harg]
    have hp' : Payload m true e (setPending [] s) bs (setPending [] s1) := by
      show payload _ _ _ _ _ = _
      rw [payload_setPending, hp]
    simp only [hclean, hlen, Bool.not_true, Bool.false_eq_true, ne_eq, not_true, if_false]
    rw [withPayload_of_payload _ hp']
    simp only [hx, hz, Bool.false_or, beq_self_eq_true, Bool.not_true, Bool.or_false, decide_eq_true_eq, if_neg (Nat.not_lt.mpr hfl)]
    have h2' : (if bitOf (leAt bs 8 1) 2 = true then
        writeQuota e.arg (setBits (rd (setPending [] s1) (Reg.sqQuota.off e.arg 0)) 31 1 1) (setPending [] s1) else setPending [] s1)
        = setPending [] s2 := by
      rw [h2, ← ite_setPending, writeQuota_setPending, rd_setPending]
    have h3' : (if bitOf (leAt bs 8 1) 0 = true then writeQuota e.arg (setBits (rd (setPending [] s2) (Reg.sqQuota.off e.arg 0)) 0 14
        (min (leAt bs 0 4) 16383)) (setPending [] s2) else setPending [] s2) = setPending [] s3 := by
      rw [h3, ← ite_setPending, writeQuota_setPending, rd_setPending]
    have h4' : (if bitOf (leAt bs 8 1) 1 = true then writeKvCfg e.arg (setBits (rd (setPending [] s3) (Reg.sqKvCfg.off e.arg 0)) 16 14
        (min (leAt bs 4 4) 16383)) (setPending [] s3) else setPending [] s3) = setPending [] s4 := by
      rw [h4, ← ite_setPending, writeKvCfg_setPending, rd_setPending]
    have h5' : (if bitOf (leAt bs 8 1) 3 = true then
        writeQuota e.arg (setBits (rd (setPending [] s4) (Reg.sqQuota.off e.arg 0)) 31 1 0) (setPending [] s4) else setPending [] s4)
        = setPending [] s5 := by
      rw [h5, ← ite_setPending, writeQuota_setPending, rd_setPending]
    rw [h2', h3', h4', h5', finishSub_setPending]
    rfl
  case empty =>
    have hop : e.op = 5 := by simpa using (nextSub_eq_some hn).2
    have hclean : entryClean e = decide (e.arg ≤ 15) := by simp [entryClean, hop]
    refine gives_of_effect (by unfold exec; rfl) hq ?_ (finishSub_tasks _ _ _ s)
    rw [serve_of_empty (s := setPending [] s) _ hn hlen (by omega), finishSub_setPending]
    simp only [hclean, decide_eq_true_eq]

end Sys2Proof.Machine
end

