-- ==== Sys2Proof/Proofs/Loads.lean ====
section
/-! Loads: the frame of a submission's end, the checks of an image, and the end of a load. -/

namespace Sys2Proof.Machine

open Sys2Proof

/-! ## What the end of a submission may change -/

/-- `s` with what the end of submissions may change taken from `t`: what posting events does, and the queue of submissions. -/
def subPart (s t : State) : State :=
      { s with regs := t.regs, ctr := t.ctr, hostMem := t.hostMem, out := t.out, host := t.host
               led := { s.led with subQ := t.led.subQ, evtNum := t.led.evtNum, evtDropped := t.led.evtDropped, heldLoss := t.led.heldLoss
                                   heldReleases := t.led.heldReleases, lossAfter := t.led.lossAfter } }

/-- The end of submissions changes no more than that. -/
def SubFrame (s t : State) : Prop := t = subPart s t

theorem SubFrame.get {α : Type} {s t : State} (h : SubFrame s t) (f : State → α) : f t = f (subPart s t) := congrArg f h

theorem SubFrame.refl (s : State) : SubFrame s s := rfl

theorem SubFrame.trans {s t u : State} (h : SubFrame s t) (k : SubFrame t u) : SubFrame s u := by
  unfold SubFrame subPart at *
  rw [k, h]

theorem EventFrame.subFrame {s t : State} (h : EventFrame s t) : SubFrame s t := by
  have hq := h.subQ
  unfold EventFrame at h
  unfold SubFrame subPart
  rw [hq]
  exact h

theorem subFrame_dropSub (e : Submission) (status : ℕ) (data : List Byte) (s : State) : SubFrame s (dropSub e status data s) :=
  SubFrame.trans (t := modLed (fun l => { l with subQ := dropFirst (fun x => x == e) l.subQ }) s) rfl
    (eventFrame_completeSub _ _ _ _ _).subFrame

theorem subFrame_endEarlyN (n : ℕ) (s : State) : SubFrame s (endEarlyN n s) := by
  induction n generalizing s with
  | zero => exact .refl s
  | succ n ih =>
    unfold endEarlyN
    split
    · exact .refl s
    · split
      · exact .refl s
      · exact (subFrame_dropSub _ _ _ s).trans (ih _)

theorem subFrame_finishSub (e : Submission) (status : ℕ) (data : List Byte) (s : State) : SubFrame s (finishSub e status data s) :=
  (subFrame_dropSub e status data s).trans (subFrame_endEarlyN _ _)

theorem mem_of_mem_dropFirst {α : Type} {p : α → Bool} {l : List α} {x : α} (h : x ∈ dropFirst p l) : x ∈ l := by
  induction l with
  | nil => cases h
  | cons a l ih =>
    unfold dropFirst at h
    split at h
    · exact List.mem_cons_of_mem _ h
    · exact (List.mem_cons.mp h).elim (fun e => e ▸ List.mem_cons_self) fun h => List.mem_cons_of_mem _ (ih h)

/-- While no submission ends by itself, the one that is served alone leaves. -/
theorem finishSub_subQ {e : Submission} {status : ℕ} {data : List Byte} {s : State} (h : ∀ x ∈ s.led.subQ, x.early = none) :
    (finishSub e status data s).led.subQ = dropFirst (fun x => x == e) s.led.subQ := by
  rw [finishSub, endEarly_of_none, dropSub_subQ]
  intro x hx
  have hmem := mem_of_turn hx
  rw [dropSub_subQ] at hmem
  exact h x (mem_of_mem_dropFirst hmem)

/-! ## A load -/

/-- A load whose payload is read whole runs its checks on the image. -/
theorem subLoad_of_image {m : MemRun} {e : Submission} {s s1 t : State} {img : List Byte} (hn : nextSub (fun e => e.op == 1) s = some e)
    (hlen : e.len ≠ 0) (hclean : entryClean e = true) (hp : Payload m false e s img s1)
    (ht : (match stage1 img e.len with
        | some f => refuseLoad e f s1
        | none =>
          if (manifestOf (oneSec img 5)).det && !detMode s1 then finishSub e Stat.unsupported (loadData 0 0 1 0) s1
          else if !(shortfalls s1 (e.arg % 16) (par e 0x20 4) (par e 0x24 4) img).isEmpty then
            refuseShort m e 2 (shortfalls s1 (e.arg % 16) (par e 0x20 4) (par e 0x24 4) img) s1
          else if loaderWaits (queueChecks img s1) then queueChecks img s
          else match stage3 (loaderStarts (queueChecks img s1)) e img with
            | some f => refuseLoad e f (loaderJobs img (loaderStarts (queueChecks img s1)))
            | none => startPlacing m e img (loaderJobs img (loaderStarts (queueChecks img s1)))) = t) :
    ∃ f, exec (.subLoadProgram m) s = run f s ∧ f (setPending [] s) = setPending [] t := by
  refine ⟨_, by unfold exec; rfl, ?_⟩
  rw [serve_of_next (s := setPending [] s) _ hn (.inl hlen), ← ht]
  have hp' : payload m false e.addr e.len s = ({ status := Stat.ok, data := img }, s1) := hp
  simp only [hclean, payload_setPending, hp', detMode_setPending, shortfalls_setPending, queueChecks_setPending, loaderStarts_setPending,
    loaderWaits_setPending, stage3_setPending, loaderJobs_setPending, refuseShort_setPending, finishSub_setPending, Bool.not_true,
    Bool.false_eq_true, ne_eq, not_true, if_false]
  cases stage1 img e.len with
  | some f => simp only [refuseLoad_setPending]
  | none =>
    cases stage3 (loaderStarts (queueChecks img s1)) e img <;>
      simp only [refuseLoad_setPending, startPlacing_setPending, ite_setPending]

theorem givesThen_of_exists {c : Instr} {s t : State} (h : ∃ f, exec c s = run f s ∧ f (setPending [] s) = setPending [] t) :
    GivesThen c s t := by
  obtain ⟨f, hc, he⟩ := h
  exact givesThen_of_effect hc he

theorem gives_of_exists {c : Instr} {s t : State} (hq : Quiet s) (h : ∃ f, exec c s = run f s ∧ f (setPending [] s) = setPending [] t)
    (ht : t.tasks = s.tasks) : Gives c s t := by
  obtain ⟨f, hc, he⟩ := h
  exact gives_of_effect hc hq he ht

/-! ## The end of a load -/

/-- The state when the loader's jobs of the last stage run: the place in the queue is given up. -/
theorem loaderStarts_queueLoader (checks hashes : ℕ) (s : State) :
    ∃ c, loaderStarts (queueLoader checks hashes s) =
      { s with ctr := c, stamp := (queueLoader checks hashes s).stamp, eng := { s.eng with loader := none } } := by
  unfold queueLoader
  split <;> exact ⟨_, rfl⟩

theorem bindClients_eq (h part : ℕ) (ids : List ℕ) (s : State) : ∃ cl, bindClients h part ids s = { s with clients := cl } := by
  unfold bindClients
  induction ids generalizing s with
  | nil => exact ⟨_, rfl⟩
  | cons i ids ih =>
    obtain ⟨cl, hcl⟩ := ih (modClient i (fun _ => { handle := h, part := part, stepBy := [], armed := false }) s)
    exact ⟨cl, hcl⟩

/-- A new task is READY, on no core, and waits for nothing. -/
theorem newTasks_ready {p : Program} {stamp : ℕ} {now : DevTime} {k : Task} (hk : k ∈ newTasks p stamp now) :
    k.st = .ready ∧ k.core = none ∧ k.waits = [] ∧ k.id.handle = p.handle ∧ k.due = none := by
  simp only [newTasks, List.mem_flatten, List.mem_map] at hk
  obtain ⟨l, ⟨x, -, rfl⟩, hk⟩ := hk
  obtain ⟨i, -, rfl⟩ := List.mem_map.mp hk
  exact ⟨rfl, rfl, rfl, rfl, rfl⟩

/-- What the last stage leaves where it passes, before the submission ends. -/
def loadedState (p : Program) (cl : List SqmClient) (u s : State) (c : List (ℕ × ℕ)) : State :=
  { s with ctr := c, stamp := u.stamp + 1, eng := { s.eng with loader := none }, clients := cl, lastHandle := p.handle
           tokens := s.tokens ++ tokensOf p, tasks := s.tasks ++ newTasks p u.stamp s.tim.now
           progs := updFirst (fun q => q.handle == p.handle) (fun q => { q with loading := false, image := [], placed := [], ctxIds := takeCtx s p }) s.progs }

theorem seeEcc_nil (s : State) : seeEcc [] s = s := rfl

theorem programLoadComplete_effect {m : MemRun} {e : Submission} {p : Program} {u s : State} (hcp : cpUp s 0 = true)
    (hp : (s.progs.find? (·.loading)) = some p) (he : s.led.subQ.find? serialOp = some e) (hecc : m.ecc = [])
    (hu : u = queueLoader 0 ((hashLengths p.image (asPlaced s p) (refBytes s)).filterMap id).length s) (hw : loaderWaits u = false)
    (hc : firstFail (placedChecks u p) = none) (hcores : p.coresMin ≤ (activeCores s).length) :
    ∃ (f : State → State) (cl : List SqmClient) (c : List (ℕ × ℕ)), exec (.programLoadComplete m) s = run f s ∧
      f (setPending [] s) = setPending [] (finishSub e Stat.ok (loadData p.handle 0 0 0) (loadedState p cl u s c)) := by
  obtain ⟨c0, hs⟩ := loaderStarts_queueLoader 0 ((hashLengths p.image (asPlaced s p) (refBytes s)).filterMap id).length s
  rw [← hu] at hs
  have hc' : firstFail (placedChecks (loaderStarts u) p) = none := hc
  suffices h : ∃ (cl : List SqmClient) (c : List (ℕ × ℕ)), _ from by
    obtain ⟨cl, c, h⟩ := h
    exact ⟨_, cl, c, by unfold exec; rfl, h⟩
  simp only [cpUp_setPending, hcp, setPending_progs, hp, setPending_led, he, queueLoader_setPending, asPlaced_setPending, refBytes_setPending,
    ← hu, loaderWaits_setPending, hw, loaderStarts_setPending, hecc, seeEcc_setPending, placedChecks_setPending, loaderHashes_setPending,
    seeEcc_nil, hc', Bool.not_true, Bool.false_eq_true, if_false, Option.isSome_none, false_or]
  obtain ⟨c, hx⟩ : ∃ c, loaderHashes (placedChecks (loaderStarts u) p)
      (hashLengths p.image (asPlaced (loaderStarts u) p) (refBytes (loaderStarts u))) (loaderStarts u)
      = { s with ctr := c, stamp := u.stamp, eng := { s.eng with loader := none } } := ⟨_, by rw [hs]; rfl⟩
  rw [hx]
  obtain ⟨cl, hcl⟩ := bindClients_eq p.handle p.part ((takeCtx s p).getD 6 []) (loadedState p s.clients u s c)
  refine ⟨cl, c, ?_⟩
  refine (if_neg (Nat.not_lt.mpr hcores)).trans ?_
  rw [← finishSub_setPending]
  congr 1
  rw [show loadedState p cl u s c = { loadedState p s.clients u s c with clients := cl } from rfl, ← hcl, ← bindClients_setPending]
  rfl

/-- Settles O15: the load's branches as the row takes them, and its end in one state. -/
theorem programLoads : Obligations.ProgramLoads := by
  intro m e s hq
  refine ⟨fun img s1 hn hlen harg hpar hz hp => ?load, fun p u hcp hprog he hecc hu hw hc hcores => ?loaded,
    fun p u s1 s2 hcp hprog he hu hw hs1 hbad hs2 => ?dropped⟩
  case load =>
    have hop : e.op = 1 := by simpa using (nextSub_eq_some hn).2
    have hclean : entryClean e = true := by simp [entryClean, hop, harg, hpar, hz]
    refine ⟨fun f hf => ?_, fun h1 hdet => ⟨fun x xs hsh => ?_, fun hsh => ⟨fun hwt => ?_, fun u hwt hu => ⟨fun h3 => ?_, fun f h3 => ?_⟩⟩⟩⟩
    · exact givesThen_of_exists (subLoad_of_image hn hlen hclean hp (by rw [hf]))
    · exact givesThen_of_exists (subLoad_of_image hn hlen hclean hp (by simp [h1, hdet, hsh]))
    · exact gives_of_exists hq (subLoad_of_image hn hlen hclean hp (by simp [h1, hdet, hsh, hwt])) (queueChecks_tasks _ _)
    · subst hu
      exact givesThen_of_exists (subLoad_of_image hn hlen hclean hp (by simp [h1, hdet, hsh, hwt, h3]))
    · subst hu
      exact givesThen_of_exists (subLoad_of_image hn hlen hclean hp (by simp [h1, hdet, hsh, hwt, h3]))
  case loaded =>
    obtain ⟨f, cl, c, hf, heff⟩ := programLoadComplete_effect hcp hprog he hecc hu hw hc hcores
    generalize hv : loadedState p cl u s c = v at heff
    generalize hwst : finishSub e Stat.ok (loadData p.handle 0 0 0) v = w at heff
    have hframe : SubFrame v w := hwst ▸ subFrame_finishSub _ _ _ v
    have hquiet : Quiet w := by
      intro k hk hwait
      have htasks : w.tasks = s.tasks ++ newTasks p u.stamp s.tim.now := by
        rw [hframe.get State.tasks, ← hv]
        rfl
      rw [htasks] at hk
      obtain hold | hnew := List.mem_append.mp hk
      · exact hq k hold hwait
      · exact (newTasks_ready hnew).2.2.2.2
    refine ⟨_, hf.trans (run_gives f s w heff hquiet), ?_⟩
    subst hv
    refine ⟨(settle_lastHandle w).trans (hframe.get State.lastHandle), (settle_tokens w).trans (hframe.get State.tokens), 
      (settle_tasks w).trans (hframe.get State.tasks), (settle_progs w).trans (hframe.get State.progs), fun hearly => ?_, fun k hk => ?_, 
      (settle_mem w).trans (hframe.get State.mem), (settle_sq w).trans (hframe.get State.sq), 
      (settle_cores w).trans (hframe.get State.cores), (settle_ouv w).trans (hframe.get State.ouv), 
      (settle_eng w).trans (hframe.get State.eng), (settle_ports w).trans (hframe.get State.ports), 
      (settle_pipes w).trans (hframe.get State.pipes), (congrArg Ledger.items (settle_led w)).trans (hframe.get (·.led.items)), 
      (congrArg Ledger.committing (settle_led w)).trans (hframe.get (·.led.committing)), rfl⟩
    · refine (congrArg Ledger.subQ (settle_led w)).trans ?_
      rw [← hwst]
      exact finishSub_subQ hearly
    · obtain ⟨hst, hcore, hwaits, hh, -⟩ := newTasks_ready hk
      exact ⟨hst, hcore, hwaits, hh⟩
  case dropped =>
    have hbad' : (firstFail (placedChecks s1 p)).isSome = true ∨
        (activeCores (loaderHashes (placedChecks s1 p) (hashLengths p.image (asPlaced s1 p) (refBytes s1)) s1)).length < p.coresMin := hbad
    refine givesThen_of_effect (by unfold exec; rfl) ?_
    simp only [cpUp_setPending, hcp, setPending_progs, hprog, setPending_led, he, queueLoader_setPending, asPlaced_setPending, refBytes_setPending,
      ← hu, loaderWaits_setPending, hw, loaderStarts_setPending, seeEcc_setPending, ← hs1, placedChecks_setPending, loaderHashes_setPending,
      activeCores_setPending, if_pos hbad', dropLoad_setPending, ← hs2, shortfalls_setPending, refuseShort_setPending, Bool.not_true,
      Bool.false_eq_true, if_false]

end Sys2Proof.Machine
end

