-- ==== Sys2Proof/Proofs/Unloads.lean ====
section
/-! Unloads, and what a program's end lets go. -/

namespace Sys2Proof.Machine

open Sys2Proof

/-- `s` with everything that a program holds let go, but its sequences, its pipelines and its engines' contexts. -/
def released (h : ℕ) (cl : List SqmClient) (s : State) : State :=
  { s with sq := { s.sq with runs := s.sq.runs.filter fun r => !(r.handle == h && r.kind != 4) }
           seqs := s.seqs.filter fun q => !(q.handle == h), clients := cl, progs := s.progs.filter fun p => p.handle != h
           tokens := s.tokens.filter fun k => k.handle != h, tasks := s.tasks.filter fun k => k.id.handle != h
           binds := s.binds.filter fun b => b.handle != h, plans := s.plans.filter fun x => x.handle != h }

theorem release_eq (h : ℕ) (s : State) : ∃ cl pipes eng, release h s = { released h cl s with pipes := pipes, eng := eng } := by
  unfold release
  obtain ⟨cl, hcl⟩ := bindClients_eq 0 0 ((progOf s h).elim [] fun p => p.ctxIds.getD 6 []) (dropSeqs (fun q => q.handle == h) (freeHolder h s))
  dsimp only
  rw [hcl]
  exact ⟨cl, _, _, rfl⟩

/-- Settles O16: the row's branches, and what `release` filters out. -/
theorem programUnloads : Obligations.ProgramUnloads := by
  intro e p s hq
  refine ⟨fun hn hp => ?stops, fun hn hp => ?badHandle, fun hcp hu he hj => ?waits, fun hcp hu he hj => ?done⟩
  case stops =>
    have hop : e.op = 2 := by simpa using (nextSub_eq_some hn).2
    refine givesThen_of_effect (by unfold exec; rfl) ?_
    rw [serve_of_next (s := setPending [] s) _ hn (.inr hop)]
    simp only [argProg_setPending, hp, stopProgram_setPending, modProg_setPending, endPeriodic_setPending]
  case badHandle =>
    have hop : e.op = 2 := by simpa using (nextSub_eq_some hn).2
    refine gives_of_effect (by unfold exec; rfl) hq ?_ (finishSub_tasks _ _ _ _)
    rw [serve_of_next (s := setPending [] s) _ hn (.inr hop)]
    simp only [argProg_setPending, hp, finishSub_setPending]
    rfl
  case waits =>
    refine gives_of_effect (by unfold exec; rfl) hq ?_ rfl
    simp only [cpUp_setPending, hcp, setPending_progs, hu, setPending_led, he, jobsOfProg_setPending, Bool.not_true, Bool.false_eq_true, if_false,
      if_pos hj]
  case done =>
    obtain ⟨cl, pipes, eng, hrel⟩ := release_eq p.handle s
    generalize hr : release p.handle s = r at hrel
    have hframe := subFrame_finishSub e Stat.ok noData r
    refine ⟨finishSub e Stat.ok noData r, ?_, ?_⟩
    · have htasks : (finishSub e Stat.ok noData r).tasks = s.tasks.filter fun k => k.id.handle != p.handle := by
        rw [finishSub_tasks, hrel]
        rfl
      refine gives_of_quiet (by unfold exec; rfl) ?_ fun k hk => hq k (List.mem_of_mem_filter (htasks ▸ hk))
      simp only [cpUp_setPending, hcp, setPending_progs, hu, setPending_led, he, jobsOfProg_setPending, Bool.not_true, Bool.false_eq_true,
        if_false, if_neg (not_not.mpr hj), release_setPending, hr, finishSub_setPending]
    · subst hrel
      refine ⟨fun q hq => ?_, fun k hk => ?_, fun k hk => ?_, fun b hb => ?_, fun x hx => ?_, fun r hr hh => ?_, fun hearly => finishSub_subQ hearly,
        hframe.get State.mem, hframe.get State.cores, hframe.get (·.led.items), hframe.get (·.led.committing)⟩
      · rw [hframe.get State.progs] at hq
        simpa using (List.mem_filter.mp hq).2
      · rw [hframe.get State.tokens] at hk
        simpa using (List.mem_filter.mp hk).2
      · rw [hframe.get State.tasks] at hk
        simpa using (List.mem_filter.mp hk).2
      · rw [hframe.get State.binds] at hb
        simpa using (List.mem_filter.mp hb).2
      · rw [hframe.get State.plans] at hx
        simpa using (List.mem_filter.mp hx).2
      · rw [hframe.get (·.sq.runs)] at hr
        simpa [hh] using (List.mem_filter.mp hr).2

end Sys2Proof.Machine
end

