-- ==== Sys2Proof/Proofs/MemFrame.lean ====
section
/-! What accesses to memory leave as it is. -/

namespace Sys2Proof.Machine

open Sys2Proof

@[simp] theorem readMem_tasks (a n : ℕ) (ecc : List EccHit) (s : State) : (readMem a n ecc s).2.tasks = s.tasks := by
  unfold readMem
  dsimp only
  split <;> exact applyEcc_tasks _ _ _ s

@[simp] theorem seeEcc_tasks (ecc : List EccHit) (s : State) : (seeEcc ecc s).tasks = s.tasks := applyEcc_tasks _ _ _ s

@[simp] theorem writeLine_tasks (a : ℕ) (bs : List Byte) (ecc : List EccHit) (s : State) : (writeLine a bs ecc s).2.tasks = s.tasks := by
  unfold writeLine
  dsimp only
  split <;> exact applyEcc_tasks _ _ _ s

@[simp] theorem writeMem_tasks (f a : ℕ) (bs : List Byte) (ecc : List EccHit) (s : State) : (writeMem f a bs ecc s).2.tasks = s.tasks := by
  induction f generalizing a bs s with
  | zero => rfl
  | succ f ih =>
    unfold writeMem
    cases bs with
    | nil => rfl
    | cons b bs =>
      dsimp only
      split
      · rw [ih, writeLine_tasks]
      · exact writeLine_tasks _ _ _ s

@[simp] theorem writeAll_tasks (a : ℕ) (bs : List Byte) (ecc : List EccHit) (s : State) : (writeAll a bs ecc s).2.tasks = s.tasks :=
  writeMem_tasks _ _ _ _ s

@[simp] theorem releaseHeld_tasks (p : ℕ) (s : State) : (releaseHeld p s).tasks = s.tasks := sendHeld_tasks _ p s

@[simp] theorem sendFlits_tasks (p vc n : ℕ) (s : State) : (sendFlits p vc n s).tasks = s.tasks := by
  rw [sendFlits, releaseHeld_tasks]
  exact burst_tasks p s

@[simp] theorem devRead_tasks (a n : ℕ) (ecc : List EccHit) (s : State) : (devRead a n ecc s).2.tasks = s.tasks := by
  unfold devRead
  split
  · rfl
  split
  · exact refuseAt_tasks a s
  cases regionOf a with
  | host => dsimp only; split <;> rfl
  | peer p => dsimp only; split <;> simp
  | square | lpddr | other => exact readMem_tasks a n ecc s

@[simp] theorem devWrite_tasks (a : ℕ) (bs : List Byte) (ecc : List EccHit) (s : State) : (devWrite a bs ecc s).2.tasks = s.tasks := by
  unfold devWrite
  split
  · rfl
  split
  · exact refuseAt_tasks a s
  cases regionOf a with
  | host => dsimp only; split <;> rfl
  | peer p => dsimp only; split <;> simp
  | square | lpddr | other => exact writeAll_tasks a bs ecc s

@[simp] theorem runRead_tasks (m : MemRun) (a n : ℕ) (s : State) : (runRead m a n s).2.tasks = s.tasks := by
  unfold runRead
  split
  · rfl
  · exact devRead_tasks a n [] s

@[simp] theorem runWrite_tasks (m : MemRun) (a : ℕ) (bs : List Byte) (s : State) : (runWrite m a bs s).2.tasks = s.tasks := by
  unfold runWrite
  split
  · rfl
  · exact devWrite_tasks a bs [] s

@[simp] theorem payload_tasks (m : MemRun) (square : Bool) (a n : ℕ) (s : State) : (payload m square a n s).2.tasks = s.tasks := by
  unfold payload
  split
  · rfl
  · rw [runRead_tasks, seeEcc_tasks]

/-- Reading a payload leaves the tasks. -/
theorem tasks_of_payload {m : MemRun} {square : Bool} {e : Submission} {s s1 : State} {bs : List Byte} (h : Payload m square e s bs s1) :
    s1.tasks = s.tasks := by
  rw [← payload_tasks m square e.addr e.len s, h]

end Sys2Proof.Machine
end

