-- ==== Sys2Proof/Proofs/Policies.lean ====
section
/-! Policy submissions of programs. -/

namespace Sys2Proof.Machine

open Sys2Proof

/-! ## Policy submissions -/

theorem op_of_isPolicy {k : ℕ} {e : Submission} (h : isPolicy k e = true) : e.op = 3 := by
  simp only [isPolicy, Bool.and_eq_true, beq_iff_eq] at h
  exact h.1

theorem cls_of_isPolicy {k : ℕ} {e : Submission} (h : isPolicy k e = true) : par e 0x14 1 = k := by
  simp only [isPolicy, Bool.and_eq_true, beq_iff_eq] at h
  exact h.2

/-- Beside another queue the payload reads alike. -/
theorem payload_pending {m : MemRun} {square : Bool} {e : Submission} {s s1 : State} {bs : List Byte} (q : List Instr)
    (h : Payload m square e s bs s1) : Payload m square e (setPending q s) bs (setPending q s1) := by
  show payload _ _ _ _ _ = _
  rw [payload_setPending, h]

theorem mem_updAll {α : Type} {p : α → Bool} {f : α → α} {l : List α} {y : α} (h : y ∈ updAll p f l) : y ∈ l ∨ ∃ x ∈ l, y = f x := by
  obtain ⟨x, hx, rfl⟩ := List.mem_map.mp h
  split
  · exact .inr ⟨x, hx, rfl⟩
  · exact .inl hx

/-- What the priorities leave has no fault waiting that had none. -/
theorem quiet_setPrio {h tmpl prio : ℕ} {s : State} (hq : Quiet s) : Quiet (setPrio h tmpl prio s) := by
  intro k hk hw
  obtain hk | ⟨x, hx, rfl⟩ := mem_updAll hk
  · exact hq k hk hw
  · exact hq x hx hw

theorem quiet_setPrios {h : ℕ} (es : List (ℕ × ℕ × ℕ)) {s : State} (hq : Quiet s) :
    Quiet (es.foldl (fun s x => setPrio h x.1 x.2.1 s) s) := by
  induction es generalizing s with
  | nil => exact hq
  | cons x es ih => exact ih (quiet_setPrio hq)

theorem updFirst_congr {α : Type} {p : α → Bool} {f g : α → α} {l : List α} (h : ∀ x, p x = true → f x = g x) :
    updFirst p f l = updFirst p g l := by
  induction l with
  | nil => rfl
  | cons x l ih =>
    unfold updFirst
    split
    · rw [h x ‹_›]
    · rw [ih]

/-- A change of a program follows what it makes of the program of that handle. -/
theorem modProg_congr {h : ℕ} {f g : Program → Program} {s : State} (hfg : ∀ p, p.handle = h → f p = g p) :
    modProg h f s = modProg h g s := by
  unfold modProg
  rw [updFirst_congr fun p hp => hfg p (beq_iff_eq.mp hp)]

/-- Settles O17: each policy passes its checks in turn, and its effect is what stands behind them. -/
theorem programPolicies : Obligations.ProgramPolicies := by
  intro m e p bs s s1 hq hlen hprog hp
  have hp' := payload_pending [] hp
  have hq1 : Quiet s1 := hq.of_tasks (tasks_of_payload hp)
  refine ⟨fun hn hcp hz hl hes => ?prio, fun hn hport hz hl hn0 hn256 hl1 hl4096 h64 h38 hx ht1 ht2 hctx => ?binding,
    fun k hn hz hl hk h4 h18 hstep hreg hmap => ?replay, fun ps hn hz hl hroom hps hok => ?plans⟩
  case prio =>
    have hsel := (nextSub_eq_some hn).2
    have hclean : entryClean e = true := by simp [entryClean, op_of_isPolicy hsel, cls_of_isPolicy hsel, hz]
    have hnext : nextSub (fun e => isPolicy 1 e && cpUp s 1) (setPending [] s) = some e := by
      rw [nextSub_setPending, ← hn]
      simp only [hcp, Bool.and_true]
    refine gives_of_quiet (by unfold exec; rfl) ?_ (Quiet.of_tasks (quiet_setPrios _ hq1) (finishSub_tasks _ _ _ _))
    rw [serve_of_next (s := setPending [] s) _ hnext (.inl hlen)]
    simp only [argProg_setPending, hprog, hclean, hl, Bool.not_true, Bool.false_eq_true, ne_eq, not_true, if_false]
    rw [withPayload_of_payload _ hp']
    have hany : ((prioEntries bs).any fun x => decide (p.tmpls.length ≤ x.1) || decide (3 < x.2.1) || x.2.2 != 0) = false := by
      rw [List.any_eq_false]
      intro x hx
      obtain ⟨h1, h2, h3⟩ := hes x hx
      simp only [Bool.or_eq_true, decide_eq_true_eq, bne_iff_ne]
      omega
    simp only [hany, Bool.false_eq_true, if_false]
    rw [foldl_setPending _ (fun q s x => setPrio_setPending p.handle x.1 x.2.1 q s), finishSub_setPending]
    rfl
  case binding =>
    have hsel := (nextSub_eq_some hn).2
    have hclean : entryClean e = true := by simp [entryClean, op_of_isPolicy hsel, cls_of_isPolicy hsel, hz, hport]
    refine gives_of_quiet (by unfold exec; rfl) ?_ (hq1.of_tasks (finishSub_tasks _ _ _ _))
    rw [serve_of_next (s := setPending [] s) _ hn (.inl hlen)]
    simp only [argProg_setPending, hprog, hclean, hl, Bool.not_true, Bool.false_eq_true, ne_eq, not_true, if_false]
    rw [withPayload_of_payload _ hp']
    have hlens : ((bindExtents bs).any fun x => decide (x.2.1 < 64 + leAt bs 14 2 * x.2.2)) = false := by
      rw [List.any_eq_false]
      intro x hmem
      have := (hx x hmem).1
      simp only [decide_eq_true_eq]
      omega
    have hparts : ((bindExtents bs).any fun x => !inPartition s1 p.part x.1 (leAt bs 12 2 * x.2.1)) = false := by
      rw [List.any_eq_false]
      intro x hmem
      simp [(hx x hmem).2]
    have hfields : ¬(256 < leAt bs 12 2 ∨ leAt bs 14 2 < 1 ∨ 4096 < leAt bs 14 2 ∨ leAt bs 8 4 % 64 ≠ 0 ∨ leAt bs 0x38 8 ≠ 0) := by omega
    simp only [if_neg hn0, if_neg hfields, hlens, inPartition_setPending, hparts, extToken_setPending, ht1, ht2, Bool.not_true, Bool.or_self, Bool.false_eq_true, if_false]
    refine (if_neg (Nat.not_le.mpr hctx)).trans ?_
    rw [← finishSub_setPending]
    rfl
  case replay =>
    have hsel := (nextSub_eq_some hn).2
    have hclean : entryClean e = true := by simp [entryClean, op_of_isPolicy hsel, cls_of_isPolicy hsel, hz]
    refine gives_of_quiet (by unfold exec; rfl) ?_ (hq1.of_tasks (finishSub_tasks _ _ _ _))
    rw [serve_of_next (s := setPending [] s) _ hn (.inl hlen)]
    simp only [argProg_setPending, hprog, hclean, hl, Bool.not_true, Bool.false_eq_true, ne_eq, not_true, if_false]
    rw [withPayload_of_payload _ hp']
    have hfields : ¬(leAt bs 4 4 ≠ 0 ∨ leAt bs 0x18 8 ≠ 0 ∨ leAt bs 8 8 < k.regs.step + k.waits.length) := by omega
    have hdump : ¬((regionOf (leAt bs 0x10 8) ≠ .lpddr ∧ regionOf (leAt bs 0x10 8) ≠ .host) ∨ mapped s1 (leAt bs 0x10 8) 4208064 ≠ Stat.ok) := by
      rintro (⟨hl, hh⟩ | hm)
      · exact hreg.elim hl hh
      · exact hm hmap
    simp only [taskOf_setPending, hk]
    refine (if_neg hfields).trans ((if_neg hdump).trans ?_)
    rw [modProg_setPending, finishSub_setPending]
    exact congrArg (fun u => setPending [] (finishSub e Stat.ok [] u)) (modProg_congr fun q hq => by rw [hq])
  case plans =>
    have hsel := (nextSub_eq_some hn).2
    have hclean : entryClean e = true := by simp [entryClean, op_of_isPolicy hsel, cls_of_isPolicy hsel, hz]
    refine gives_of_quiet (by unfold exec; rfl) ?_ (hq1.of_tasks (finishSub_tasks _ _ _ _))
    rw [serve_of_next (s := setPending [] s) _ hn (.inl hlen)]
    simp only [argProg_setPending, hprog, hclean, Bool.not_true, Bool.false_eq_true, if_false]
    subst hps
    have hfits : ¬(e.len % 32 ≠ 0 ∨ 32 < (s.plans.filter fun x => x.handle != p.handle).length + e.len / 32) := by omega
    refine (if_neg hfits).trans ?_
    rw [withPayload_of_payload _ hp']
    simp only [hok, if_true]
    rw [← finishSub_setPending]
    rfl

end Sys2Proof.Machine
end

