-- ==== Sys2Proof/Proofs/Trust.lean ====
section
/-! Policy submissions of the root of trust. -/

namespace Sys2Proof.Machine

open Sys2Proof

/-! ## Trust policies -/

/-- A model key in its slot. -/
def keyOf (k : ℕ × ℕ × ℕ × List Byte) : ℕ × ℕ × List Byte := (k.1, k.2.1, if k.2.1 = 1 then k.2.2.2.take 32 else k.2.2.2)

/-- The slots after an entry. -/
def putKey (l : List (ℕ × ℕ × List Byte)) (k : ℕ × ℕ × ℕ × List Byte) : List (ℕ × ℕ × List Byte) :=
  (l.filter fun x => x.1 != k.1) ++ [keyOf k]

/-- The last entry stands in its slot. -/
theorem last_mem_putKeys {ks : List (ℕ × ℕ × ℕ × List Byte)} {k : ℕ × ℕ × ℕ × List Byte} (l : List (ℕ × ℕ × List Byte))
    (h : ks.getLast? = some k) : keyOf k ∈ ks.foldl putKey l := by
  obtain ⟨ks, rfl⟩ := List.getLast?_eq_some_iff.mp h
  simp [List.foldl_append, putKey]

/-- A slot that no entry names is kept. -/
theorem mem_putKeys_of_other {ks : List (ℕ × ℕ × ℕ × List Byte)} {l : List (ℕ × ℕ × List Byte)} {x : ℕ × ℕ × List Byte} (hx : x ∈ l)
    (h : ∀ k ∈ ks, k.1 ≠ x.1) : x ∈ ks.foldl putKey l := by
  induction ks generalizing l with
  | nil => exact hx
  | cons k ks ih =>
    refine ih (List.mem_append_left _ (List.mem_filter.mpr ⟨hx, ?_⟩)) fun j hj => h j (List.mem_cons_of_mem _ hj)
    simpa using (h k List.mem_cons_self).symm

/-- Settles O18: each policy passes its checks in turn, and its effect is what stands behind them. -/
theorem trustPolicies : Obligations.TrustPolicies := by
  intro m e bs s s1 hq hlen hp
  have hp' := payload_pending [] hp
  refine ⟨fun st s2 hn harg h15 hz hl hroom hwr => ?report, fun hn harg h15 hz hl hroom => ?noRoom,
    fun hn hlock hz harg h68 h544 hks => ?keys, fun hn hlock => ?locked, fun k hn harg hz hok hslot => ?image,
    fun hn harg hz hok => ?badImage⟩
  case report =>
    have hsel := (nextSub_eq_some hn).2
    have hclean : entryClean e = true := by simp [entryClean, op_of_isPolicy hsel, cls_of_isPolicy hsel, hz, harg, h15]
    refine givesThen_of_effect (by unfold exec; rfl) ?_
    rw [serve_of_next (s := setPending [] s) _ hn (.inl hlen)]
    simp only [hclean, hl, Bool.not_true, Bool.false_eq_true, ne_eq, not_true, if_false]
    rw [withPayload_of_payload _ hp']
    simp only [reportOf_setPending, if_neg (Nat.not_lt.mpr hroom), runWrite_setPending, hwr, finishSub_setPending]
    rfl
  case noRoom =>
    have hsel := (nextSub_eq_some hn).2
    have hclean : entryClean e = true := by simp [entryClean, op_of_isPolicy hsel, cls_of_isPolicy hsel, hz, harg, h15]
    refine givesThen_of_effect (by unfold exec; rfl) ?_
    rw [serve_of_next (s := setPending [] s) _ hn (.inl hlen)]
    simp only [hclean, hl, Bool.not_true, Bool.false_eq_true, ne_eq, not_true, if_false]
    rw [withPayload_of_payload _ hp']
    simp only [reportOf_setPending, if_pos hroom, finishSub_setPending]
    rfl
  case keys =>
    have hsel := (nextSub_eq_some hn).2
    have hclean : entryClean e = true := by simp [entryClean, op_of_isPolicy hsel, cls_of_isPolicy hsel, hz, harg]
    have hany : ((keyEntries bs).any fun k => decide (7 < k.1) || (k.2.1 != 1 && k.2.1 != 2) || k.2.2.1 != 0) = false := by
      rw [List.any_eq_false]
      intro k hk
      obtain ⟨h1, h2, h3⟩ := hks k hk
      simp only [Bool.or_eq_true, Bool.and_eq_true, decide_eq_true_eq, bne_iff_ne]
      omega
    have hfits : ¬(e.len % 68 ≠ 0 ∨ 8 * 68 < e.len) := by omega
    refine ⟨modRst (fun r => { r with modelKeys := (keyEntries bs).foldl putKey r.modelKeys }) s1,
      givesThen_of_effect (by unfold exec; rfl) ?_, rfl, fun k hk => last_mem_putKeys _ hk, fun x hx h => mem_putKeys_of_other hx h⟩
    rw [serve_of_next (s := setPending [] s) _ hn (.inl hlen)]
    simp only [rdB_setPending, hlock, hclean, Bool.not_true, Bool.or_self, Bool.false_eq_true, if_false, if_neg hfits]
    rw [withPayload_of_payload _ hp']
    simp only [hany, Bool.false_eq_true, if_false, modRst_setPending, finishSub_setPending]
    rfl
  case locked =>
    refine gives_of_effect (by unfold exec; rfl) hq ?_ (finishSub_tasks _ _ _ _)
    rw [serve_of_next (s := setPending [] s) _ hn (.inl hlen)]
    simp only [rdB_setPending, hlock, Bool.true_or, if_true, finishSub_setPending]
    rfl
  case image =>
    have hsel := (nextSub_eq_some hn).2
    have hclean : entryClean e = true := by simp [entryClean, op_of_isPolicy hsel, cls_of_isPolicy hsel, hz, harg]
    refine givesThen_of_effect (by unfold exec; rfl) ?_
    rw [serve_of_next (s := setPending [] s) _ hn (.inl hlen)]
    simp only [hclean, Bool.not_true, Bool.false_eq_true, if_false]
    rw [withPayload_of_payload _ hp']
    simp only [imageAccepted_setPending, hok, slotToWrite_setPending, hslot, Bool.not_true, Bool.false_eq_true, if_false]
    rw [← finishSub_setPending]
    rfl
  case badImage =>
    have hsel := (nextSub_eq_some hn).2
    have hclean : entryClean e = true := by simp [entryClean, op_of_isPolicy hsel, cls_of_isPolicy hsel, hz, harg]
    refine givesThen_of_effect (by unfold exec; rfl) ?_
    rw [serve_of_next (s := setPending [] s) _ hn (.inl hlen)]
    simp only [hclean, Bool.not_true, Bool.false_eq_true, if_false]
    rw [withPayload_of_payload _ hp']
    simp only [imageAccepted_setPending, hok, Bool.not_false, if_true, finishSub_setPending]
    rfl

end Sys2Proof.Machine
end

