-- ==== Sys2Proof/Proofs/Ledger.lean ====
section
/-! The ledger: what posting events leaves of the registers, what leaves the items, and the end of an item. -/

namespace Sys2Proof.Machine

open Sys2Proof

/-- What every step of a fold keeps, the fold keeps. -/
theorem foldl_keeps {α β : Type} (g : State → β) {f : State → α → State} (h : ∀ s a, g (f s a) = g s) (l : List α) (s : State) :
    g (l.foldl f s) = g s := by
  induction l generalizing s with
  | nil => rfl
  | cons a l ih => rw [List.foldl_cons, ih, h]

/-! ## Registers that posting an event leaves -/

/-- A register that posting events never writes. -/
def EventFree (r : ℕ) : Prop := r ≠ Reg.itmEvtPidx.base ∧ r ≠ Reg.itmStatus.base ∧ r ≠ Reg.pciStatus.base

section
variable {r : ℕ} (h : EventFree r)
include h

theorem rdW_writeBack (i v : ℕ) (s : State) : rdW (writeBack i v s) r = rdW s r := by
  unfold writeBack
  split
  · rfl
  split
  · rfl
  · show rdW (setFlag Reg.pciStatus.base 6 s) r = _
    exact rdW_setFlag_other _ _ _ _ h.2.2

omit h in
theorem rdW_raiseVec (v : ℕ) (s : State) : rdW (raiseVec v s) r = rdW s r := by
  unfold raiseVec
  split <;> rfl

omit h in
theorem rdW_ringPart (q : ℕ) (bs : List Byte) (k : ℕ) (s : State) : rdW (ringPart q bs k s) r = rdW s r :=
  foldl_keeps (f := fun s j => ringPut q ((_ + j) % 2 ^ 32) false _ s) (rdW · r) (fun _ _ => rfl) _ s

theorem rdW_writeEvent (cls code ref pos st : ℕ) (d : List Byte) (s : State) : rdW (writeEvent cls code ref pos st d s) r = rdW s r := by
  show rdW (ringWrite 2 _ s) r = _
  unfold ringWrite
  dsimp only
  rw [rdW_raiseVec, rdW_writeBack h]
  exact (rdW_wr_other _ _ _ _ h.1).trans (rdW_ringPart _ _ _ s)

theorem rdW_flushEvents (s : State) : rdW (flushEvents s) r = rdW s r := by
  have hdropped (s : State) : rdW (flushDropped s) r = rdW s r := by
    unfold flushDropped
    split
    · exact rdW_writeEvent h _ _ _ _ _ _ s
    · rfl
  have hloss (s : State) : rdW (flushLoss s) r = rdW s r := by
    unfold flushLoss
    split
    · split
      · exact (rdW_setFlag_other Reg.itmStatus.base 6 r (writeEvent _ _ _ _ _ _ s) h.2.1).trans (rdW_writeEvent h _ _ _ _ _ _ s)
      · rfl
    · rfl
  have hrelease (s : State) : rdW (flushRelease s) r = rdW s r := by
    unfold flushRelease
    split
    · split
      · exact rdW_writeEvent h _ _ _ _ _ _ s
      · rfl
    · rfl
  exact (foldl_keeps (rdW · r) (fun s _ => (hloss _).trans (hrelease s)) _ _).trans ((hloss _).trans (hdropped s))

/-- Posting an event leaves every register but the ring's index, ITM_STATUS and PCI_STATUS. -/
theorem rdW_postEvent (cls code ref pos st : ℕ) (d : List Byte) (s : State) : rdW (postEvent cls code ref pos st d s) r = rdW s r := by
  unfold postEvent
  dsimp only
  split
  · rw [rdW_writeEvent h, rdW_flushEvents h]
  · exact (rdW_setFlag_other Reg.itmStatus.base 3 r (modLed _ (flushEvents s)) h.2.1).trans (rdW_flushEvents h s)

end

/-! ## What serving tokens and closing frames is made of -/

/-- A relation between states that holds across the steps of which the service of tokens and the closing of frames are made. -/
structure ServiceKept (R : State → State → Prop) : Prop where
  refl (s : State) : R s s
  trans {s t u : State} : R s t → R t u → R s u
  tok (h i : ℕ) (f : Token → Token) (s : State) : R s (modTok h i f s)
  task (t : TaskId) {f : Task → Task} (s : State) : (∀ k, (f k).id = k.id ∧ (f k).ckpt = k.ckpt) → R s (modTask t f s)
  core (n : ℕ) (s : State) : R s (modCore n (fun c => { c with fresh := false }) s)
  eng (f : Engines → Engines) (s : State) : R s (modEng f s)
  pipe (n : ℕ) (f : Pipe → Pipe) (s : State) : R s (modPipe n f s)
  port (n : ℕ) (f : Port → Port) (s : State) : R s (modPort n f s)
  clients (l : List SqmClient) (s : State) : R s { s with clients := l }
  stamp (n : ℕ) (s : State) : R s { s with stamp := n }
  early (b : ℕ) (s : State) : R s { s with tasks := s.tasks.map fun k => if b ≤ k.readyAt then { k with readyAt := b } else k }
  count (off n : ℕ) (s : State) : R s (count off n s)
  flag {off : ℕ} (bit : ℕ) (s : State) : off = Reg.cadStatus.base ∨ (∃ p, off = portStatus p) → R s (setFlag off bit s)
  event (cls code ref pos st : ℕ) (d : List Byte) (s : State) : R s (postEvent cls code ref pos st d s)

theorem related_ite {R : State → State → Prop} {p : Prop} [Decidable p] {s t u : State} (ht : R s t) (hu : R s u) : R s (if p then t else u) := by
  split
  · exact ht
  · exact hu

namespace ServiceKept
variable {R : State → State → Prop} (hR : ServiceKept R)
include hR

theorem foldl {α : Type} {f : State → α → State} (h : ∀ s a, R s (f s a)) (l : List α) (s : State) : R s (l.foldl f s) := by
  induction l generalizing s with
  | nil => exact hR.refl s
  | cons a l ih => exact hR.trans (h s a) (ih _)

/-! ### Frames -/

theorem flagFrame (p flag : ℕ) (s : State) : R s (flagFrame p flag s) := by
  unfold Machine.flagFrame
  split
  · exact hR.refl s
  split
  · exact hR.refl s
  dsimp only
  split
  · exact hR.trans (hR.port p _ s) (hR.flag _ _ (.inr ⟨p, rfl⟩))
  · exact hR.port p _ s

theorem openWaiting (p : ℕ) (s : State) : R s (openWaiting p s) := by
  unfold Machine.openWaiting
  split
  · exact hR.refl s
  split
  · unfold startFrame
    dsimp only
    rw [if_pos rfl]
    exact hR.trans (hR.trans (hR.stamp (s.stamp + 1) s) (hR.port p _ _)) (hR.flagFrame p 7 _)
  · exact hR.refl s

theorem spoilRef (p : ℕ) (f : Frame) (s : State) : R s (spoilRef p f s) := by
  unfold Machine.spoilRef
  split
  · exact hR.pipe _ _ s
  · exact hR.refl s

theorem closeFrame (p : ℕ) (flags : List ℕ) (s : State) : R s (closeFrame p flags false s) := by
  unfold Machine.closeFrame
  split
  · exact hR.refl s
  next f0 _ =>
    simp only [Bool.false_and, Bool.false_eq_true, if_false]
    generalize hu : (if f0.delivered = 0 then flags ++ [8] else flags).foldl (fun s b => Machine.flagFrame p b s) s = u
    have hsu : R s u := hu ▸ hR.foldl (fun s b => hR.flagFrame p b s) _ s
    generalize hf : (openFrameOf u p).getD f0 = f
    generalize hv : (if f.sink.isSome = true then Machine.spoilRef p f u else u) = v
    have huv : R u v := hv ▸ related_ite (hR.spoilRef p f u) (hR.refl u)
    generalize hw : (if flags.contains 9 = true then v else dropRequests p f.item v) = w
    have hvw : R v w := hw ▸ related_ite (hR.refl v) (hR.port p _ v)
    have hlast : R w (portCount p 0 1 (modOpen p (fun f => { f with st := 2 }) w)) := hR.trans (hR.port p _ w) (hR.count _ _ _)
    exact hR.trans hsu (hR.trans huv (hR.trans hvw (hR.trans hlast (hR.openWaiting p _))))

theorem closeFramesOf (id : Word) (s : State) : R s (closeFramesOf id s) := by
  refine hR.foldl (fun s p => ?_) _ s
  dsimp only
  split
  · exact hR.trans (hR.port p _ s) (related_ite (hR.closeFrame _ _ _) (hR.refl _))
  · exact hR.port p _ s

/-! ### Waits of tasks -/

theorem makeReady (t : TaskId) (s : State) : R s (makeReady t s) :=
  hR.trans (hR.stamp (s.stamp + 1) s) (hR.task t _ fun _ => ⟨rfl, rfl⟩)

theorem wake (t : TaskId) (s : State) : R s (wake t s) := by
  unfold Machine.wake
  split
  · exact hR.refl s
  split
  · exact related_ite (hR.task t s fun _ => ⟨rfl, rfl⟩) (hR.refl s)
  split
  · exact hR.task t s fun _ => ⟨rfl, rfl⟩
  · exact hR.trans (hR.makeReady t s) (hR.task t _ fun _ => ⟨rfl, rfl⟩)
  · exact hR.refl s

theorem notFresh (t : TaskId) (s : State) : R s (notFresh t s) := by
  unfold Machine.notFresh
  split
  · exact hR.core _ s
  · exact hR.refl s

theorem finishWait (t : TaskId) (sel : Wait → Bool) (g : TaskRegs → TaskRegs) (es : List RecEntry) (s : State) :
    R s (finishWait t sel g es s) := by
  unfold Machine.finishWait
  refine hR.trans (hR.task t s ?_) (hR.trans (hR.notFresh t _) (hR.wake t _))
  exact fun _ => ⟨rfl, rfl⟩

theorem forgetWait (t : TaskId) (w : Wait) (s : State) : R s (forgetWait t w s) := by
  unfold Machine.forgetWait
  split
  · exact hR.tok _ _ _ s
  · exact hR.tok _ _ _ s
  · exact hR.clients _ s
  · exact hR.refl s

theorem faultDue (t : TaskId) (since status q word : ℕ) (s : State) : R s (faultDue t since status q word s) := by
  unfold Machine.faultDue
  split
  · exact hR.refl s
  · exact hR.trans (hR.foldl (fun s (w : Waiting) => hR.forgetWait t w.w s) _ s) (hR.task t _ fun _ => ⟨rfl, rfl⟩)

theorem failWait (t : TaskId) (sel : Wait → Bool) (status : ℕ) (s : State) : R s (failWait t sel status s) := by
  unfold Machine.failWait
  split
  · exact hR.faultDue _ _ _ _ _ s
  · exact hR.refl s

theorem takeFault (t : TaskId) (tok : ℕ) (item : Option Word) (latch : ℕ) (s : State) : R s (takeFault t tok item latch s) := by
  unfold Machine.takeFault
  split
  · exact hR.refl s
  split
  · exact hR.makeReady t s
  · exact hR.failWait _ _ _ s

theorem takeDone (t : TaskId) (tok : ℕ) (item : Option Word) (latch : ℕ) (s : State) : R s (takeDone t tok item latch s) := by
  unfold Machine.takeDone
  split
  · exact hR.refl s
  split
  · refine hR.trans ?_ (hR.finishWait _ _ _ _ _)
    split
    · exact hR.tok _ _ _ s
    · exact hR.refl s
  · exact hR.refl s

theorem takeClosed (t : TaskId) (tok : ℕ) (item : Option Word) (s : State) : R s (takeClosed t tok item s) := by
  unfold Machine.takeClosed
  split
  · exact hR.refl s
  split
  · exact hR.finishWait _ _ _ _ s
  · exact hR.refl s

theorem sigDone (who : Option Waiter) (tok : ℕ) (item : Word) (counted : Bool) (s : State) : R s (sigDone who tok item counted s) := by
  unfold Machine.sigDone
  split
  · refine hR.trans (hR.task _ s ?_) (hR.finishWait _ _ _ _ _)
    exact fun _ => ⟨rfl, rfl⟩
  · exact hR.pipe _ _ s
  · exact hR.refl s

theorem sigFault (who : Option Waiter) (tok : ℕ) (item : Word) (s : State) : R s (sigFault who tok item s) := by
  unfold Machine.sigFault
  split
  · exact hR.failWait _ _ _ s
  · exact hR.sigDone _ _ _ _ s

/-! ### Tokens -/

theorem lowWater (h i : ℕ) (s : State) : R s (lowWater h i s) := by
  unfold Machine.lowWater
  split
  · exact hR.refl s
  · refine hR.foldl (fun s c => ?_) _ s
    dsimp only
    split
    · exact hR.eng _ s
    split
    · exact hR.trans (hR.eng _ s) (hR.trans (hR.flag 0 _ (.inl rfl)) (hR.trans (hR.count _ _ _) (hR.event _ _ _ _ _ _ _)))
    · exact hR.refl s

theorem serveOne {h i : ℕ} {s t : State} (ht : serveOne h i s = some t) : R s t := by
  unfold Machine.serveOne at ht
  split at ht
  · cases ht
  split at ht
  · cases ht
  dsimp only at ht
  split at ht
  · split at ht <;> cases ht
    · exact hR.trans (hR.tok h i _ s) (hR.takeFault _ _ _ _ _)
    · exact hR.trans (hR.tok h i _ s) (hR.trans (hR.lowWater h i _) (hR.takeDone _ _ _ _ _))
  · cases ht
    exact hR.trans (hR.tok h i _ s) (hR.trans (hR.lowWater h i _) (hR.pipe _ _ _))
  · cases ht
    exact hR.trans (hR.tok h i _ s) (hR.trans (hR.lowWater h i _) (hR.eng _ _))
  · cases ht
    exact hR.tok h i _ s

theorem serveToken (h i : ℕ) (s : State) : R s (serveToken h i s) := by
  unfold Machine.serveToken
  generalize (tokOf s h i).elim 0 (fun k => k.waiters.length) = f
  induction f generalizing s with
  | zero => exact hR.refl s
  | succ f ih =>
    unfold serveLoop
    split
    · exact hR.trans (hR.serveOne ‹_›) (ih _)
    · exact hR.refl s

theorem drainSigs (f h i : ℕ) (s : State) : R s (drainSigs f h i s) := by
  induction f generalizing s with
  | zero => exact hR.refl s
  | succ f ih =>
    unfold Machine.drainSigs
    split
    · exact hR.refl s
    split
    · exact hR.refl s
    · dsimp only
      refine hR.trans ?_ (ih _)
      split
      · exact hR.trans (hR.tok _ _ _ s) (hR.sigFault _ _ _ _)
      · exact hR.trans (hR.tok _ _ _ s) (hR.trans (hR.sigDone _ _ _ _ _) (hR.serveToken h i _))

theorem closeInToken (id : Word) (h i : ℕ) (s : State) : R s (closeInToken id h i s) := by
  unfold Machine.closeInToken
  split
  · exact hR.refl s
  split
  · exact hR.refl s
  · dsimp only
    refine hR.trans (hR.trans (hR.trans (hR.tok h i _ s) (hR.foldl (fun s (w : SigWaiter) => hR.sigDone w.who i id true s) _ _))
      (hR.foldl (fun s w => ?_) _ _)) (hR.drainSigs _ h i _)
    split
    · exact hR.takeClosed _ _ _ s
    · exact hR.pipe _ _ s
    · exact hR.refl s
    · exact hR.refl s

theorem oneClock {f : State → State} {s : State} (h : R s (f s)) : R s (oneClock f s) := by
  unfold Machine.oneClock
  dsimp only
  split
  · exact h
  · exact hR.trans h (hR.early s.stamp _)

theorem closeInTokens (id : Word) (s : State) : R s (closeInTokens id s) :=
  hR.oneClock (hR.foldl (fun s (k : ℕ × ℕ) => hR.closeInToken id k.1 k.2 s) _ s)

end ServiceKept

/-! ## What leaves the ledger's items -/

/-- The items, those that are committing, and the next ID and sequence number stay. -/
structure ItemsKept (s t : State) : Prop where
  items : t.led.items = s.led.items
  committing : t.led.committing = s.led.committing
  nextId : rdW t Reg.itmNextId.base = rdW s Reg.itmNextId.base
  nextSeq : rdW t Reg.itmNextSeq.base = rdW s Reg.itmNextSeq.base

theorem ItemsKept.refl (s : State) : ItemsKept s s := ⟨rfl, rfl, rfl, rfl⟩

theorem ItemsKept.trans {s t u : State} (h : ItemsKept s t) (k : ItemsKept t u) : ItemsKept s u :=
  ⟨k.items.trans h.items, k.committing.trans h.committing, k.nextId.trans h.nextId, k.nextSeq.trans h.nextSeq⟩

theorem itemsKept_setFlag {off : ℕ} (bit : ℕ) (s : State) (h1 : Reg.itmNextId.base ≠ off) (h2 : Reg.itmNextSeq.base ≠ off) :
    ItemsKept s (setFlag off bit s) := ⟨rfl, rfl, rdW_setFlag_other _ _ _ _ h1, rdW_setFlag_other _ _ _ _ h2⟩

theorem itemsKept_postEvent (cls code ref pos st : ℕ) (d : List Byte) (s : State) : ItemsKept s (postEvent cls code ref pos st d s) := by
  have h := eventFrame_postEvent cls code ref pos st d s
  refine ⟨?_, ?_, rdW_postEvent (by unfold EventFree; decide) _ _ _ _ _ _ s, rdW_postEvent (by unfold EventFree; decide) _ _ _ _ _ _ s⟩
  · rw [EventFrame] at h
    rw [h]
  · rw [EventFrame] at h
    rw [h]

/-- A port's registers are none of the ledger's. -/
theorem portStatus_ne (p : ℕ) : Reg.itmNextId.base ≠ portStatus p ∧ Reg.itmNextSeq.base ≠ portStatus p := by
  unfold portStatus portBase Reg.itmNextId Reg.itmNextSeq Reg.cxpCtl Reg.auxCtl RegDef.off
  dsimp only
  split <;> omega

theorem serviceKept_itemsKept : ServiceKept ItemsKept where
  refl := .refl
  trans := .trans
  tok _ _ _ _ := ⟨rfl, rfl, rfl, rfl⟩
  task _ _ _ _ := ⟨rfl, rfl, rfl, rfl⟩
  core _ _ := ⟨rfl, rfl, rfl, rfl⟩
  eng _ _ := ⟨rfl, rfl, rfl, rfl⟩
  pipe _ _ _ := ⟨rfl, rfl, rfl, rfl⟩
  port _ _ _ := ⟨rfl, rfl, rfl, rfl⟩
  clients _ _ := ⟨rfl, rfl, rfl, rfl⟩
  stamp _ _ := ⟨rfl, rfl, rfl, rfl⟩
  early _ _ := ⟨rfl, rfl, rfl, rfl⟩
  count _ _ _ := ⟨rfl, rfl, rfl, rfl⟩
  flag bit s h := by
    rcases h with rfl | ⟨p, rfl⟩
    · exact itemsKept_setFlag bit s (by decide) (by decide)
    · exact itemsKept_setFlag bit s (portStatus_ne p).1 (portStatus_ne p).2
  event := itemsKept_postEvent

theorem itemsKept_closeFramesOf (id : Word) (s : State) : ItemsKept s (closeFramesOf id s) := serviceKept_itemsKept.closeFramesOf id s

theorem itemsKept_closeInTokens (id : Word) (s : State) : ItemsKept s (closeInTokens id s) := serviceKept_itemsKept.closeInTokens id s

/-! ## Samples of an item that has ended -/

/-- What a unit attaches to an item that is closed counts and no more. -/
theorem itemsKept_voidSample {id : Word} {s : State} (c : ℕ) (payload : List Byte) (h : itemOf s id = none) :
    ItemsKept s (voidSample c id payload s) := by
  unfold voidSample attachDevice
  refine ItemsKept.trans (t := bump Reg.cadSnapCnt.base c (setFlag Reg.cadStatus.base 1 s))
    (ItemsKept.trans (itemsKept_setFlag 1 s (by decide) (by decide)) ⟨rfl, rfl, rfl, rfl⟩) ?_
  have hn : itemOf (bump Reg.cadSnapCnt.base c (setFlag Reg.cadStatus.base 1 s)) id = none := h
  unfold attach
  rw [hn]
  split
  · exact .refl _
  split
  · exact .refl _
  split
  · exact .refl _
  · exact ⟨rfl, rfl, rfl, rfl⟩

theorem itemsKept_voidReserved {id : Word} {s : State} (h : itemOf s id = none) : ItemsKept s (voidReserved id s) := by
  have hfold (fs : List (List Byte)) (s : State) (h : itemOf s id = none) : ItemsKept s (fs.foldl (fun s f => voidSample 2 id f s) s) := by
    induction fs generalizing s with
    | nil => exact .refl s
    | cons f fs ih =>
      have hv := itemsKept_voidSample 2 f h
      refine hv.trans (ih _ ?_)
      unfold itemOf
      rw [hv.items]
      exact h
  unfold voidReserved
  exact (serviceKept_itemsKept.eng _ s).trans (hfold _ (modEng _ s) h)

/-! ## The end of an item -/

/-! ### The digest's length -/

theorem length_leBytes (n v : ℕ) : (leBytes n v).length = n := by
  induction n generalizing v with
  | zero => rfl
  | succ n ih => exact congrArg (· + 1) (ih _)

/-- One block of the sponge's output is 136 bytes where its state has 17 lanes at least. -/
theorem length_squeeze (n : ℕ) {a : List ℕ} (h : 17 ≤ a.length) : 136 ≤ (squeeze (n + 1) a).length := by
  have hblock (l : List ℕ) : (l.flatMap (leBytes 8)).length = 8 * l.length := by
    induction l with
    | nil => rfl
    | cons x l ih =>
      rw [List.flatMap_cons, List.length_append, ih, length_leBytes, List.length_cons]
      omega
  rw [squeeze, List.length_append, hblock, List.length_take]
  omega

theorem length_lanes (f : ℕ → ℕ → ℕ) : (lanes f).length = 25 := by
  simp [lanes]

theorem length_keccakRound (a : List ℕ) (rc : ℕ) : (keccakRound a rc).length = 25 := by
  unfold keccakRound
  dsimp only
  generalize hl : lanes _ = l
  have : l.length = 25 := hl ▸ length_lanes _
  cases l with
  | nil => cases this
  | cons x l => exact this

theorem length_keccakF {a : List ℕ} (h : a.length = 25) : (keccakF a).length = 25 := by
  unfold keccakF
  generalize roundConstants = rs
  induction rs generalizing a with
  | nil => exact h
  | cons r rs ih => exact ih (length_keccakRound a r)

theorem length_absorb (n : ℕ) (bs : List Byte) {a : List ℕ} (h : a.length = 25) : (absorb n bs a).length = 25 := by
  induction n generalizing bs a with
  | zero => exact h
  | succ n ih =>
    refine ih _ (length_keccakF ?_)
    simp [lanesOf, h]

/-- A digest of at most 136 bytes has the bytes that are asked for. -/
theorem length_shake256 (msg : List Byte) {n : ℕ} (h0 : 0 < n) (hn : n ≤ 136) : (shake256 msg n).length = n := by
  have hblocks : (n + 135) / 136 = 0 + 1 := by omega
  have hlen := length_squeeze 0 (a := absorb ((shakePad msg).length / 136) (shakePad msg) (List.replicate 25 0))
    (by rw [length_absorb _ _ (by simp)]; decide)
  unfold shake256
  dsimp only
  rw [hblocks, List.length_take]
  omega

/-! ## The end of an item -/

theorem addSamples_id (xs : List SampleRef) (i : Item) : (xs.foldl (fun i x => addSample x i) i).id = i.id := by
  induction xs generalizing i with
  | nil => rfl
  | cons x xs ih => exact ih (addSample x i)

/-- The ledger as an item leaves it for the committing ones. -/
def itemLeaves (i : Item) (c : Commit) (s : State) : State :=
  modLed (fun l => { l with items := l.items.filter (fun x => x.id != i.id), committing := l.committing ++ [c]
                            ended := { id := i.id, posSrc := i.posSrc, deadline := i.deadline } :: l.ended })
    (wr Reg.itmNextSeq.base ((rdW s Reg.itmNextSeq.base).toNat + 1) s)

/-- An accepted item's record: its ID, the next sequence number, what the verdict says, the moment, and a digest of 32 bytes. -/
structure IsCommitOf (c : Commit) (i : Item) (v : Verdict) (s : State) : Prop where
  id : c.item.id = i.id
  seq : c.seq = rdW s Reg.itmNextSeq.base
  disp : c.disp = v.disp
  pos : c.commitPos = copyPos s i.posSrc
  time : c.commitTime = s.tim.now
  digest : c.digest.length = 32

theorem acceptItem_eq (i : Item) (v : Verdict) (s : State) :
    ∃ c, IsCommitOf c i v s ∧ acceptItem i v s = closeInTokens i.id (closeFramesOf i.id (itemLeaves i c s)) := by
  unfold acceptItem itemLeaves
  dsimp only
  generalize hd : shake256 _ 32 = d
  have hlen : d.length = 32 := hd ▸ length_shake256 _ (by decide) (by decide)
  exact ⟨_, ⟨addSamples_id _ i, rfl, rfl, rfl, rfl, hlen⟩, rfl⟩

/-- The end of an item is the acceptance of its record, and what its reserved slots leave. -/
theorem endItem_eq (i : Item) (disp flags : ℕ) (admitted : Bool) (s : State) :
    ∃ v base j, v.disp = disp ∧ endItem i disp flags admitted s = voidReserved i.id (acceptItem i v (bump base j s)) := by
  unfold endItem
  exact ⟨_, _, _, rfl, rfl⟩

/-- What an item's end leaves of the ledger: the item among the committing ones, under the next sequence number. -/
theorem itemsKept_endItem (i : Item) (disp flags : ℕ) (admitted : Bool) (s : State) :
    ∃ c v u, IsCommitOf c i v s ∧ v.disp = disp ∧ u.led = s.led ∧ (∀ r, rdW u r = rdW s r) ∧ ItemsKept (itemLeaves i c u) (endItem i disp flags admitted s) := by
  obtain ⟨v, base, j, hv, heq⟩ := endItem_eq i disp flags admitted s
  obtain ⟨c, hc, hacc⟩ := acceptItem_eq i v (bump base j s)
  refine ⟨c, v, bump base j s, ⟨hc.id, hc.seq, hc.disp, hc.pos, hc.time, hc.digest⟩, hv, rfl, fun _ => rfl, ?_⟩
  have hkept : ItemsKept (itemLeaves i c (bump base j s)) (acceptItem i v (bump base j s)) := by
    rw [hacc]
    exact (itemsKept_closeFramesOf i.id _).trans (itemsKept_closeInTokens i.id _)
  rw [heq]
  refine hkept.trans (itemsKept_voidReserved ?_)
  rw [itemOf, hkept.items, List.find?_eq_none]
  intro x hx
  simpa using (List.mem_filter.mp hx).2

/-- Settles O20: the item's record is formed once, and nothing that follows reaches the ledger's items again. -/
theorem endedItemTakesASequenceNumber : Obligations.EndedItemTakesASequenceNumber := by
  intro id i s t _ ht
  obtain ⟨c, v, u, hc, hv, hled, hrd, hkept⟩ := itemsKept_endItem i (if i.bound then 3 else 4) 1 true s
  replace hkept : ItemsKept (itemLeaves i c u) t := by
    rw [ht]
    exact hkept
  have hitems : t.led.items = s.led.items.filter (fun x => x.id != i.id) := by
    refine hkept.items.trans ?_
    show u.led.items.filter _ = _
    rw [hled]
  refine ⟨fun x hx => ?_, fun x hx => ?_, fun x hx hne => ?_, ?_, ?_, c, ?_, hc.id, hc.seq, ?_, hc.pos, hc.time, hc.digest⟩
  · rw [hitems] at hx
    simpa using (List.mem_filter.mp hx).2
  · rw [hitems] at hx
    exact List.mem_of_mem_filter hx
  · rw [hitems]
    exact List.mem_filter.mpr ⟨hx, by simpa using hne⟩
  · refine hkept.nextSeq.trans ((rdW_wr_same _ _ _).trans ?_)
    rw [hrd, BitVec.ofNat_add, BitVec.ofNat_toNat, BitVec.setWidth_eq]
    rfl
  · exact hkept.nextId.trans ((rdW_wr_other _ _ _ _ (by decide)).trans (hrd _))
  · refine hkept.committing.trans ?_
    show u.led.committing ++ [c] = _
    rw [hled]
  · rw [hc.disp, hv]

end Sys2Proof.Machine
end

