-- ==== Sys2Proof/Proofs/Items.lean ====
section
/-! Items that open, close and pass their deadline. -/

namespace Sys2Proof.Machine

open Sys2Proof

/-! ## Edges of item sources -/

/-- An edge's row acts on the edge in front. -/
theorem itemOpen_gives {src : ℕ} {e : Edge} {es : List Edge} {o : ℕ × ℕ} {s t : State} (hq : s.ouv.edgeQ = e :: es)
    (ho : e.opens.find? (fun o => o.1 == src) = some o)
    (ht : reportLost (settleEdges (if srcEn s src then
      openItem src (edgePos s src e) e.time (some o.2) (modEdge (fun e => { e with opens := dropFirst (fun x => x == o) e.opens }) s)
      else modEdge (fun e => { e with opens := dropFirst (fun x => x == o) e.opens }) s)) = t) :
    ∃ f, exec (.itemOpen src) s = run f s ∧ f (setPending [] s) = setPending [] t := by
  refine ⟨_, by unfold exec; rfl, ?_⟩
  simp only [setPending_ouv, hq, ho, srcEn_setPending, modEdge_setPending, edgePos_setPending, openItem_setPending, ite_setPending,
    settleEdges_setPending, reportLost_setPending, ht]

/-- An item that opens for a loaded program is BOUND to nothing yet; its trains go to the Kerb. -/
def openedItem (n : ℕ) (pos : Pos) (time : DevTime) (ord : Option ℕ) (s : State) : Item :=
  { id := rdW s Reg.itmNextId.base, src := n, posSrc := srcPos s n, openPos := pos, openTime := time
    deadline := pos + BitVec.ofNat 48 (rd s (Reg.itmSrcDl.off n 0)), closePos := none, closeTime := DevTime.zero, bound := false
    frags := [], nextOrd := 0, fragRefused := false, sampleVoid := false, samples := [], sampleCount := 0, lastIn := none
    ord := ord }

/-- The ledger after the item opened. -/
def itemOpens (n : ℕ) (i : Item) (s : State) : State :=
  modLed (fun l => { l with items := l.items ++ [i] }) (modLed (fun l => { l with srcItem := upsert n i.id l.srcItem })
    (bump Reg.itmSnapCnt.base 0 (wr Reg.itmNextId.base (i.id.toNat + 1) s)))

/-- No source's control register is ITM_NEXT_ID. -/
theorem itmSrcCtl_ne_itmNextId (n : ℕ) : Reg.itmSrcCtl.off n 0 ≠ Reg.itmNextId.base := by
  simp only [RegDef.off, Reg.itmSrcCtl, Reg.itmNextId]
  omega

theorem openItem_eq {n : ℕ} {p : Program} {s : State} (pos : Pos) (time : DevTime) (ord : Option ℕ) (hroom : inflight s < 16384)
    (hp : loadedProg s (srcProg s n) = some p) (hrun : p.stopped = false) :
    openItem n pos time ord s =
      gateOpenAll { itemOpens n (openedItem n pos time ord s) s with toKerb := s.toKerb ++ trainsOf s (openedItem n pos time ord s) } := by
  have hsrc : srcProg (itemOpens n (openedItem n pos time ord s) s) n = srcProg s n := by
    unfold srcProg srcCtl
    exact congrArg (bits · 24 8) (rd_wr_other _ _ _ _ (itmSrcCtl_ne_itmNextId n))
  have hp' : loadedProg (itemOpens n (openedItem n pos time ord s) s) (srcProg (itemOpens n (openedItem n pos time ord s) s) n) = some p := by
    rw [hsrc]
    exact hp
  unfold openItem
  rw [if_neg (by simpa using hroom)]
  show (match loadedProg (itemOpens n (openedItem n pos time ord s) s) (srcProg (itemOpens n (openedItem n pos time ord s) s) n) with
    | some p => _
    | none => _) = _
  simp only [hp', hrun, Bool.false_eq_true, if_false]
  rfl

/-- An item that takes its close position, where it has none. -/
def closedBy (id : Word) (pos : Pos) (time : DevTime) (i : Item) : Item :=
  if i.id = id ∧ i.closePos.isNone then { i with closePos := some pos, closeTime := time } else i

theorem closeItem_eq {n : ℕ} {id : Word} {s : State} (pos : Pos) (time : DevTime) (h : s.led.srcItem.lookup n = some id) :
    closeItem n pos time s = modLed (fun l => { l with items := l.items.map (closedBy id pos time)
                                                       committing := l.committing.map fun c => { c with item := closedBy id pos time c.item } }) s := by
  unfold closeItem
  rw [h]
  rfl

/-- The report of edges that were lost is an event, and their count starts again. -/
theorem eventFrame_reportLost (s : State) : ∃ o, EventFrame { s with ouv := o } (reportLost s) := by
  unfold reportLost
  dsimp only
  split
  · exact ⟨s.ouv, .refl s⟩
  · exact ⟨_, eventFrame_postEvent _ _ _ _ _ _ (modOuv (fun o => { o with edgesLost := 0 }) s)⟩

theorem rdW_reportLost {r : ℕ} (h : EventFree r) (s : State) : rdW (reportLost s) r = rdW s r := by
  unfold reportLost
  dsimp only
  split
  · rfl
  · exact rdW_postEvent h _ _ _ _ _ _ (modOuv (fun o => { o with edgesLost := 0 }) s)

/-- Settles O19: each row acts on the edge in front; an item that opens, closes or is past its deadline. -/
theorem itemsOpenCloseAndEnd : Obligations.ItemsOpenCloseAndEnd := by
  intro s hquiet
  refine ⟨fun src e es o hq ho => ⟨fun hen => ?opens, fun hdis => ?ignored⟩, fun n pos time ord p hroom hp hrun => ?item,
    fun src e es id hq hc hid => ?closes, fun id i hi hr => ?late, fun id i hi hr => ?early⟩
  case opens => exact givesThen_of_exists (itemOpen_gives hq ho (by rw [if_pos hen]))
  case ignored =>
    refine gives_of_exists hquiet (itemOpen_gives hq ho (by rw [if_neg (by rw [hdis]; decide)])) ?_
    rw [reportLost_tasks]
    rfl
  case item =>
    refine ⟨openedItem n pos time ord s, _, openItem_eq pos time ord hroom hp hrun, rfl, rfl, rfl, rfl, rfl, rfl, rfl, rfl, rfl, rfl, ?_, ?_, ?_,
      rfl, rfl, rfl, rfl, rfl, rfl⟩
    · refine (rdW_wr_same _ _ _).trans ?_
      rw [BitVec.ofNat_add, BitVec.ofNat_toNat, BitVec.setWidth_eq]
      rfl
    · exact lookup_upsert_same _ _ _
    · exact ctrOf_count_same _ _ _
  case closes =>
    generalize hv : closeItem src (edgePos s src e) e.time
      (modEdge (fun e => { e with closes := e.closes.filter fun x => x != src }) s) = v
    have hclosed : v = modLed (fun l => { l with items := l.items.map (closedBy id (edgePos s src e) e.time)
                                                 committing := l.committing.map fun c => { c with item := closedBy id (edgePos s src e) e.time c.item } })
        (modEdge (fun e => { e with closes := e.closes.filter fun x => x != src }) s) := by
      rw [← hv]
      exact closeItem_eq _ _ hid
    obtain ⟨o, hframe⟩ := eventFrame_reportLost (settleEdges v)
    have hitems : (reportLost (settleEdges v)).led.items = s.led.items.map (closedBy id (edgePos s src e) e.time) := by
      rw [hframe.items, hclosed]
      rfl
    refine ⟨reportLost (settleEdges v), gives_of_effect (by unfold exec; rfl) hquiet ?_ ?_, fun i hi hid hnone => ?_, fun i hi hor => ?_, ?_, ?_, ?_,
      ?_, ?_, fun r h1 h2 h3 => ?_⟩
    · simp only [setPending_ouv, hq, hc, if_true, modEdge_setPending, edgePos_setPending, closeItem_setPending, hv, settleEdges_setPending,
        reportLost_setPending]
    · rw [reportLost_tasks, hclosed]
      rfl
    · rw [hitems]
      refine List.mem_map.mpr ⟨i, hi, ?_⟩
      simp [closedBy, hid, hnone]
    · rw [hitems]
      refine List.mem_map.mpr ⟨i, hi, ?_⟩
      unfold closedBy
      rw [if_neg]
      rintro ⟨h1, h2⟩
      exact hor.elim (· h1) (· (Option.isNone_iff_eq_none.mp h2))
    · rw [hitems, List.length_map]
    · rw [hframe.get State.mem, hclosed]
      rfl
    · rw [reportLost_tasks, hclosed]
      rfl
    · rw [hframe.get State.cores, hclosed]
      rfl
    · rw [hframe.get State.tokens, hclosed]
      rfl
    · rw [rdW_reportLost ⟨h1, h2, h3⟩, hclosed]
      rfl
  case late =>
    refine givesThen_of_effect (by unfold exec; rfl) ?_
    simp only [itemOf_setPending, hi, copyPos_setPending, hr, if_true, defaultItem_setPending]
  case early =>
    refine gives_of_effect (by unfold exec; rfl) hquiet ?_ rfl
    simp only [itemOf_setPending, hi, copyPos_setPending, hr, Bool.false_eq_true, if_false]

end Sys2Proof.Machine
end

