-- ==== Sys2Proof/Proofs/Records.lean ====
section
/-! Records: their hand-off, the overflow area and the result stream. -/

namespace Sys2Proof.Machine

open Sys2Proof

/-! ## Records -/

@[simp] theorem toOverflow_tasks (id seq : Word) (bs : List Byte) (s : State) : (toOverflow id seq bs s).tasks = s.tasks := by
  unfold toOverflow
  dsimp only
  split
  · rw [postEvent_tasks]
    rfl
  · exact ovfPut_tasks _ _ s

@[simp] theorem ringAbort_tasks (bs : List Byte) (k : ℕ) (s : State) : (ringAbort bs k s).tasks = s.tasks :=
  foldl_keeps State.tasks (f := fun s j => ringPut 1 ((_ + j) % 2 ^ 32) false _ s) (fun _ _ => rfl) _ s

theorem ringWrite_tasks (r : ℕ) (bs : List Byte) (s : State) : (ringWrite r bs s).tasks = s.tasks := (eventFrame_ringWrite r bs s).tasks

@[simp] theorem putRecord_tasks (id seq : Word) (bs : List Byte) (abort : Option ℕ) (s : State) :
    (putRecord id seq bs abort s).tasks = s.tasks := by
  unfold putRecord
  split
  · split
    · rw [toOverflow_tasks, ringAbort_tasks]
    · exact ringWrite_tasks _ _ s
  · rw [toOverflow_tasks]
    split <;> rfl

@[simp] theorem drainOverflow_tasks (n : ℕ) (abort : Option ℕ) (s : State) : (drainOverflow n abort s).tasks = s.tasks := by
  induction n generalizing abort s with
  | zero => rfl
  | succ n ih =>
    unfold drainOverflow
    split
    · rfl
    split
    · split
      · exact ringAbort_tasks _ _ s
      · exact (ih _ _).trans (ringWrite_tasks _ _ s)
    · rfl

@[simp] theorem queueParts_tasks (seq parts : ℕ) (bs : List Byte) (n : ℕ) (s : State) : (queueParts seq parts bs n s).tasks = s.tasks := by
  induction n generalizing s with
  | zero => rfl
  | succ n ih => exact ih _

/-- A record that has its place and is not cut short is in the ring. -/
theorem putRecord_ring {bs : List Byte} {abort : Option ℕ} {s : State} (id seq : Word) (ho : s.led.overflow = [])
    (hr : bs.length / 64 ≤ ringFree s 1) :
    putRecord id seq bs abort s =
      match abortIn abort (bs.length / 64) with
      | some k => toOverflow id seq bs (ringAbort bs k s)
      | none => ringWrite 1 bs s := by
  have hfits : (s.led.overflow.isEmpty && decide (bs.length / 64 ≤ ringFree s 1)) = true := by simp [ho, hr]
  unfold putRecord
  exact if_pos hfits

/-- A record without its place goes to the overflow area; a ring whose window refuses it is reported. -/
theorem putRecord_overflow {bs : List Byte} {s : State} (id seq : Word) (abort : Option ℕ)
    (h : s.led.overflow ≠ [] ∨ ringFree s 1 < bs.length / 64) :
    putRecord id seq bs abort s = toOverflow id seq bs (if ringEn s 1 && ringRefused s 1 then hostAbort s else s) := by
  unfold putRecord
  rw [if_neg]
  simp only [Bool.and_eq_true, List.isEmpty_iff, decide_eq_true_eq]
  rintro ⟨h1, h2⟩
  exact h.elim (· h1) (by omega)

/-- One record of the drain, by its outcomes. -/
theorem drainOverflow_cons {s : State} {o : OvfRec} {os : List OvfRec} (n : ℕ) (abort : Option ℕ) (ho : s.led.overflow = o :: os) :
    drainOverflow (n + 1) abort s =
      if o.entries ≤ ringFree s 1 then
        match abortIn abort o.entries with
        | some k => ringAbort (ovfGet s o) k s
        | none => drainOverflow n (abort.map (· - o.entries)) (modLed (fun l => { l with overflow := os }) (ringWrite 1 (ovfGet s o) s))
      else s := by
  simp only [drainOverflow, ho] <;> rfl

/-- A drain whose memory answers cleanly. -/
theorem overflowDrain_gives {m : MemRun} {s t : State} (hq : Quiet s) (he : m.ecc = []) (ht : tryDrain m.abort s = t) (htasks : t.tasks = s.tasks) :
    Gives (.overflowDrain m) s t := by
  refine gives_of_effect (by unfold exec; rfl) hq ?_ htasks
  rw [he, seeEcc_nil, tryDrain_setPending, ht]

/-- Settles O21: where a record goes, by the ring's room, the area's room and the write that is refused. -/
theorem recordsAreHandedOff : Obligations.RecordsAreHandedOff := by
  intro m s hq
  refine ⟨fun c cs bs s1 hc hbs hs1 => ?handoff, fun id seq bs ho hr => putRecord_ring id seq ho hr, fun id seq bs k ho hr => ⟨fun hk => ?_, fun hk => ?_⟩,
    fun id seq bs ho hr hen ab => ?_, fun id seq bs hr => if_pos hr, fun id seq bs ab ho => ⟨fun hen => ?_, fun hen => ?_⟩,
    fun o os u he ho hu => ?drain, fun bs rest hst hr => ?stream, fun bs rest hst hr => ?dropped⟩
  case handoff =>
    have heff : ∃ f, exec (.recordHandoff m) s = run f s ∧ f (setPending [] s) = setPending [] (if rdB s1 Reg.ethStream.base 0 then
        modLed (fun l => { l with streamQ := l.streamQ ++ [bs] }) { s1 with toKerb := s1.toKerb ++ fireMsg c }
        else { s1 with toKerb := s1.toKerb ++ fireMsg c }) := by
      refine ⟨_, by unfold exec; rfl, ?_⟩
      simp only [setPending_led, hc, srcHost_setPending, ← hbs, modLed_setPending, putRecord_setPending, ← hs1]
      rw [← ite_setPending]
      rfl
    refine gives_of_exists hq heff ?_
    have htasks : s1.tasks = s.tasks := by
      rw [hs1, putRecord_tasks]
      rfl
    rw [apply_ite State.tasks]
    exact (ite_self _).trans htasks
  case drain =>
    have hou : u.led.overflow = o :: os := by rw [hu]; exact ho
    have htu : u.tasks = s.tasks := by rw [hu]; rfl
    have hrun (hen : (ringEn u 1 && ringRefused u 1) = false) : tryDrain m.abort s = drainOverflow (os.length + 1) m.abort u := by
      unfold tryDrain
      dsimp only
      rw [← hu, hen, hou]
      rfl
    refine ⟨fun hen => overflowDrain_gives hq he ?_ htu, fun hen hr => overflowDrain_gives hq he ?_ htu,
      fun hen hr hab => overflowDrain_gives hq he ?_ (by rw [drainOverflow_tasks]; exact (ringWrite_tasks _ _ _).trans htu),
      fun k hen hr hab => ⟨fun hk => overflowDrain_gives hq he ?_ ((ringAbort_tasks _ _ _).trans htu),
        fun hk => overflowDrain_gives hq he ?_ (by rw [drainOverflow_tasks]; exact (ringWrite_tasks _ _ _).trans htu)⟩⟩
    · unfold tryDrain
      dsimp only
      rw [← hu, hen, hou]
      rfl
    · rw [hrun hen, drainOverflow_cons _ _ hou, if_neg (Nat.not_le.mpr hr)]
    · rw [hrun hen, drainOverflow_cons _ _ hou, if_pos hr, hab]
      rfl
    · rw [hrun hen, drainOverflow_cons _ _ hou, if_pos hr, hab, abortIn, Option.filter_some, if_pos (by simpa using hk)]
    · rw [hrun hen, drainOverflow_cons _ _ hou, if_pos hr, hab, abortIn, Option.filter_some, if_neg (by simpa using hk)]
      rfl
  case stream =>
    refine gives_of_effect (by unfold exec; rfl) hq ?_ (queueParts_tasks _ _ _ _ _)
    simp only [setPending_led, hst, modLed_setPending]
    refine (if_neg (Nat.not_lt.mpr hr)).trans ?_
    rw [queueParts_setPending]
  case dropped =>
    refine gives_of_effect (by unfold exec; rfl) hq ?_ (postEvent_tasks _ _ _ _ _ _ _)
    simp only [setPending_led, hst, modLed_setPending]
    refine (if_pos hr).trans ?_
    rw [← postEvent_setPending]
    rfl
  · rw [putRecord_ring id seq ho hr, abortIn, Option.filter_some, if_pos (by simpa using hk)]
  · rw [putRecord_ring id seq ho hr, abortIn, Option.filter_some, if_neg (by simpa using hk)]
  · rw [putRecord_overflow id seq ab (.inr hr), hen]
    rfl
  · rw [putRecord_overflow id seq ab (.inl ho), hen]
    rfl
  · rw [putRecord_overflow id seq ab (.inl ho), hen]
    rfl

end Sys2Proof.Machine
end

