-- ==== Sys2Proof/Proofs/Square.lean ====
section
/-! Accesses to the Square and to the host. -/

namespace Sys2Proof.Machine

open Sys2Proof

/-! ## Accesses to the Square -/

theorem applyEcc_nil (touched : ℕ → Bool) (scrub : Bool) (s : State) : applyEcc touched scrub [] s = s := rfl

/-- One finding of SEC-DED inside an access. -/
theorem applyEcc_one {touched : ℕ → Bool} {w : ℕ} (scrub double : Bool) (s : State) (h : touched w = true) :
    applyEcc touched scrub [⟨w, double⟩] s =
      if double then noteUncorrectable w scrub s else if s.sq.poison.contains w then s else noteCorrected w s := if_pos h

/-- A read by its poison, after what SEC-DED finds. -/
theorem readMem_eq {a n : ℕ} {ecc : List EccHit} {s t : State} (ht : applyEcc (touches a n) false ecc s = t) :
    readMem a n ecc s = if poisonHit t.sq.poison a n then ({ status := Stat.poison, data := [] }, t)
      else ({ status := Stat.ok, data := devGet t a n }, t) := by
  unfold readMem
  rw [ht]

theorem readMem_clean {a n : ℕ} {s : State} (h : poisonHit s.sq.poison a n = false) :
    readMem a n [] s = ({ status := Stat.ok, data := devGet s a n }, s) := by
  rw [readMem_eq (applyEcc_nil _ _ s), h]
  rfl

theorem readMem_poisoned {a n : ℕ} {s : State} (h : poisonHit s.sq.poison a n = true) :
    readMem a n [] s = ({ status := Stat.poison, data := [] }, s) := by
  rw [readMem_eq (applyEcc_nil _ _ s), h]
  rfl

/-- A write that ends in its first line is the write of one line. -/
theorem writeAll_line {a : ℕ} {bs : List Byte} (ecc : List EccHit) (s : State) (h0 : 0 < bs.length) (h : a % 256 + bs.length ≤ 256) :
    writeAll a bs ecc s = writeLine a bs ecc s := by
  obtain ⟨b, cs, rfl⟩ := List.exists_cons_of_length_pos h0
  have hn : min (b :: cs).length (256 - a % 256) = (b :: cs).length := by omega
  unfold writeAll writeMem
  simp only [hn, List.take_length, List.drop_length]
  split
  · rename_i hok
    exact Prod.ext hok.symm rfl
  · rfl

theorem writeLine_clean {a : ℕ} {bs : List Byte} {s : State} (h : poisonPart s.sq.poison a bs.length = false) :
    writeLine a bs [] s = (Stat.ok, devPut a bs s) := by
  unfold writeLine
  rw [applyEcc_nil]
  exact if_neg (by rw [h]; decide)

theorem writeLine_poisoned {a : ℕ} {bs : List Byte} {s : State} (h : poisonPart s.sq.poison a bs.length = true) :
    writeLine a bs [] s = (Stat.poison, s) := by
  unfold writeLine
  rw [applyEcc_nil]
  exact if_pos h

/-- The report of a retirement leaves memory and the Square's own state. -/
theorem bankEvent_sq (k l : ℕ) (s : State) : (bankEvent k l s).sq = s.sq := (eventFrame_postEvent _ _ _ _ _ _ s).get State.sq

theorem bankEvent_mem (k l : ℕ) (s : State) : (bankEvent k l s).mem = s.mem := (eventFrame_postEvent _ _ _ _ _ _ s).get State.mem

theorem retireBank_poison (l : ℕ) (s : State) : (retireBank l s).sq.poison = s.sq.poison := by
  unfold retireBank
  split
  · rfl
  split
  · exact congrArg (·.poison) (bankEvent_sq _ _ _)
  · exact congrArg (·.poison) (bankEvent_sq _ _ _)

theorem retireBank_mem (l : ℕ) (s : State) : (retireBank l s).mem = s.mem := by
  unfold retireBank
  split
  · rfl
  split
  · exact bankEvent_mem _ _ _
  · exact bankEvent_mem _ _ _

/-- A corrected error poisons nothing. -/
theorem noteCorrected_poison (w : ℕ) (s : State) : (noteCorrected w s).sq.poison = s.sq.poison := by
  unfold noteCorrected
  dsimp only
  split
  · split
    · exact retireBank_poison _ _
    · rfl
  · rfl

theorem noteCorrected_mem (w : ℕ) (s : State) : (noteCorrected w s).mem = s.mem := by
  unfold noteCorrected
  dsimp only
  split
  · split
    · exact retireBank_mem _ _
    · rfl
  · rfl

/-- A word with an uncorrectable error is poisoned. -/
theorem mem_poison_noteUncorrectable (w : ℕ) (scrub : Bool) (s : State) : w ∈ (noteUncorrectable w scrub s).sq.poison := by
  unfold noteUncorrectable
  split
  · next h => exact List.contains_iff_mem.mp h
  · next h =>
    have hadd : w ∈ poisonAdd s.sq.poison w := by
      rw [poisonAdd, if_neg h]
      simp
    dsimp only
    split
    · rw [retireBank_poison]
      exact hadd
    · exact hadd

theorem poisonHit_of_touches {p : List ℕ} {a n w : ℕ} (hw : w ∈ p) (h : touches a n w = true) : poisonHit p a n = true :=
  List.any_eq_true.mpr ⟨w, hw, h⟩

/-- An access row by the answer of its access. -/
theorem squareAccess_gives {stop : ℕ} {acc : Access} {ecc : List EccHit} {s : State} {r : AccessResult × State} (hq : Quiet s)
    (hu : coreUp s = true) (hstop : sends stop = true) (hr : squareAccess acc ecc s = r) (ht : r.2.tasks = s.tasks) :
    Gives (.squareAccess stop acc ecc) s (answer r) := by
  refine gives_of_effect (by unfold exec; rfl) hq ?_ ht
  rw [coreUp_setPending, hu, hstop]
  refine (if_pos (by rfl)).trans ?_
  rw [squareAccess_setPending, hr]
  rfl

/-- A read that meets allocated granules only is a read of memory. -/
theorem squareAccess_read {a n : ℕ} {s : State} (ecc : List EccHit) (h0 : 0 < n) (hin : a + n ≤ 0x20000000) (hal : allocated s a n = true) :
    squareAccess (.read a n) ecc s = readMem a n ecc s := by
  have hbad : ¬(decide (0x20000000 < a + n) || !allocated s a n) = true := by simp [hal, hin]
  rw [squareAccess, if_neg (by omega), if_neg hbad]

/-- A write inside one line that meets allocated granules only is the write of that line. -/
theorem squareAccess_write {a : ℕ} {bs : List Byte} {s : State} (ecc : List EccHit) (h0 : 0 < bs.length) (hl : a % 256 + bs.length ≤ 256)
    (hin : a + bs.length ≤ 0x20000000) (hal : allocated s a bs.length = true) :
    squareAccess (.write a bs) ecc s = ({ status := (writeLine a bs ecc s).1, data := [] }, (writeLine a bs ecc s).2) := by
  have hbad : ¬(decide (0x20000000 < a + bs.length) || !allocated s a bs.length) = true := by simp [hal, hin]
  rw [squareAccess, if_neg (by omega), if_neg hbad, writeAll_line ecc s h0 hl]

theorem unmapped_iff {s : State} {a n : ℕ} :
    (decide (0x20000000 < a + n) || !allocated s a n) = true ↔ 0x20000000 < a + n ∨ allocated s a n = false := by simp

/-- Settles O22: an access's answer by the range, the findings and the poison. -/
theorem squareAccessEffects : Obligations.SquareAccessEffects := by
  intro stop a n bs s hq hu hst
  have row {acc : Access} {ecc : List EccHit} {r : AccessResult × State} (hr : squareAccess acc ecc s = r) (ht : r.2.tasks = s.tasks) :
      Gives (.squareAccess stop acc ecc) s (answer r) := squareAccess_gives hq hu hst hr ht
  refine ⟨fun h0 _ hin hal hp => ?_, fun h0 hin hal hp => ?_, fun h0 hl hin hal hp => ?_, fun h0 hl hin hal hp => ?_, fun h0 hbad => ?_,
    fun h0 hbad => ?_, fun w h0 hin hal hp hw => ?_, fun w h0 hin hal hp hw => ?_, fun x hx => memGet_memWrite_other _ _ _ _ hx, fun i hi => ?_⟩
  · exact row (r := ({ status := Stat.ok, data := devGet s a n }, s)) ((squareAccess_read _ h0 hin hal).trans (readMem_clean hp)) rfl
  · exact row (r := ({ status := Stat.poison, data := [] }, s)) ((squareAccess_read _ h0 hin hal).trans (readMem_poisoned hp)) rfl
  · exact row (r := ({ status := Stat.ok, data := [] }, devPut a bs s))
      (by rw [squareAccess_write _ h0 hl hin hal, writeLine_clean hp]) rfl
  · exact row (r := ({ status := Stat.poison, data := [] }, s)) (by rw [squareAccess_write _ h0 hl hin hal, writeLine_poisoned hp]) rfl
  · exact row (r := ({ status := Stat.unmapped, data := [] }, noteUnmapped s))
      (by rw [squareAccess, if_neg (by omega), if_pos (unmapped_iff.mpr hbad)]) (noteUnmapped_tasks s)
  · exact row (r := ({ status := Stat.unmapped, data := [] }, noteUnmapped s))
      (by rw [squareAccess, if_neg (by omega), if_pos (unmapped_iff.mpr hbad)]) (noteUnmapped_tasks s)
  · have hclean : s.sq.poison.contains w = false := by
      rw [Bool.eq_false_iff]
      intro hin
      rw [poisonHit_of_touches (List.contains_iff_mem.mp hin) hw] at hp
      exact Bool.noConfusion hp
    have hecc : applyEcc (touches a n) false [⟨w, false⟩] s = noteCorrected w s := by
      rw [applyEcc_one _ _ _ hw, hclean]
      rfl
    have hget : devGet (noteCorrected w s) a n = devGet s a n := congrArg (memRead · a n) (noteCorrected_mem w s)
    refine row (r := ({ status := Stat.ok, data := devGet s a n }, noteCorrected w s)) ?_ (noteCorrected_tasks w s)
    rw [squareAccess_read _ h0 hin hal, readMem_eq hecc, noteCorrected_poison, hp, hget]
    rfl
  · have hecc : applyEcc (touches a n) false [⟨w, true⟩] s = noteUncorrectable w false s := applyEcc_one _ _ _ hw
    refine row (r := ({ status := Stat.poison, data := [] }, noteUncorrectable w false s)) ?_ (noteUncorrectable_tasks w false s)
    rw [squareAccess_read _ h0 hin hal, readMem_eq hecc, poisonHit_of_touches (mem_poison_noteUncorrectable w false s) hw]
    rfl
  · rw [devPut_mem, memGet_memWrite_same _ _ _ _ hi, List.getD_eq_getElem _ _ hi]

end Sys2Proof.Machine
end

