-- ==== Sys2Proof/Proofs/HostSq.lean ====
section
/-! The host's accesses to the Square, and accesses past their time. -/

namespace Sys2Proof.Machine

open Sys2Proof

/-! ## The host's accesses to the Square -/

theorem length_devGet (s : State) (a n : ℕ) : (devGet s a n).length = n := by simp [devGet, memRead]

/-- An access inside one granule is one piece. -/
theorem granPieces_one {a n : ℕ} (f : ℕ) (h0 : 0 < n) (h : a % 65536 + n ≤ 65536) : granPieces (f + 2) a n = [(a, n)] := by
  have hn : min n (65536 - a % 65536) = n := by omega
  simp only [granPieces, hn, Nat.sub_self, if_true]
  exact if_neg (by omega)

/-- An access inside one granule meets that granule only. -/
theorem allocated_one {a n : ℕ} (s : State) (h0 : 0 < n) (h : a % 65536 + n ≤ 65536) : allocated s a n = (runAt s (a / 65536)).isSome := by
  have hn : (a + n - 1) / 65536 + 1 - a / 65536 = 1 := by omega
  have h0' : (decide (n = 0)) = false := by simp; omega
  unfold allocated
  rw [hn, h0']
  simp

theorem padTo_length_self (bs : List Byte) : padTo bs.length bs = bs := by simp [padTo]

/-- The host's read inside an allocated granule is a read of memory. -/
theorem hostSquare_read {a n : ℕ} {s : State} (h0 : 0 < n) (h : a % 65536 + n ≤ 65536) (hal : allocated s a n = true)
    (hp : poisonHit s.sq.poison a n = false) :
    hostSquare (.read a n) [] s = ({ status := Stat.ok, data := devGet s a n }, s) := by
  have hrun : (runAt s (a / 65536)).isSome = true := (allocated_one s h0 h).symm.trans hal
  have hpad : padTo n (devGet s a n) = devGet s a n := by
    have hself := padTo_length_self (devGet s a n)
    rwa [length_devGet] at hself
  simp only [hostSquare, granPieces_one _ h0 h, hal, if_true, List.foldl_cons, List.foldl_nil, hrun, readMem_clean hp, hpad, List.nil_append]

/-- The host finds all ones where nothing is allocated. -/
theorem hostSquare_read_none {a n : ℕ} {s : State} (h0 : 0 < n) (h : a % 65536 + n ≤ 65536) (hrun : runAt s (a / 65536) = none) :
    hostSquare (.read a n) [] s = ({ status := Stat.ok, data := List.replicate n 0xFF }, setFlag Reg.sqStatus.base 8 s) := by
  have hal : allocated s a n = false := by rw [allocated_one s h0 h, hrun]; rfl
  have hrun' : (runAt (setFlag Reg.sqStatus.base 8 s) (a / 65536)).isSome = false := by
    show (runAt s (a / 65536)).isSome = false
    rw [hrun]
    rfl
  simp only [hostSquare, granPieces_one _ h0 h, hal, Bool.false_eq_true, if_false, List.foldl_cons, List.foldl_nil, hrun', List.nil_append]

/-- The host's write of a line of an allocated granule is the write of that line. -/
theorem hostSquare_write {a : ℕ} {bs : List Byte} {s : State} (h0 : 0 < bs.length) (h : a % 256 + bs.length ≤ 256)
    (hal : allocated s a bs.length = true) (hp : poisonPart s.sq.poison a bs.length = false) :
    hostSquare (.write a bs) [] s = ({ status := Stat.ok, data := [] }, devPut a bs s) := by
  have hg : a % 65536 + bs.length ≤ 65536 := by omega
  have hrun : (runAt s (a / 65536)).isSome = true := (allocated_one s h0 hg).symm.trans hal
  simp only [hostSquare, granPieces_one _ h0 hg, hal, if_true, List.foldl_cons, List.foldl_nil, hrun, Nat.sub_self, List.drop_zero,
    List.take_length, writeAll_line _ s h0 h, writeLine_clean hp]

/-- The host's write where nothing is allocated is dropped. -/
theorem hostSquare_write_none {a : ℕ} {bs : List Byte} {s : State} (h0 : 0 < bs.length) (h : a % 65536 + bs.length ≤ 65536)
    (hrun : runAt s (a / 65536) = none) :
    hostSquare (.write a bs) [] s = ({ status := Stat.ok, data := [] }, setFlag Reg.sqStatus.base 8 s) := by
  have hal : allocated s a bs.length = false := by rw [allocated_one s h0 h, hrun]; rfl
  have hrun' : (runAt (setFlag Reg.sqStatus.base 8 s) (a / 65536)).isSome = false := by
    show (runAt s (a / 65536)).isSome = false
    rw [hrun]
    rfl
  simp only [hostSquare, granPieces_one _ h0 h, hal, Bool.false_eq_true, if_false, List.foldl_cons, List.foldl_nil, hrun']

/-- Bytes of ones are the largest number of their length. -/
theorem ofLe_ones (n : ℕ) : ofLe (List.replicate n 0xFF) = 2 ^ (8 * n) - 1 := by
  induction n with
  | zero => rfl
  | succ n ih =>
    have hpos : 0 < 2 ^ (8 * n) := by positivity
    have hpow : 2 ^ (8 * (n + 1)) = 256 * 2 ^ (8 * n) := by ring
    have hff : (0xFF : Byte).toNat = 255 := rfl
    rw [List.replicate_succ, ofLe, ih, hff, hpow]
    omega

/-- A host access row by the answer of its access. -/
theorem hostSquareAccess_gives {acc : Access} {s : State} {r : AccessResult × State} (hq : Quiet s)
    (hu : coreUp s = true) (hin : inSquare acc = true) (hr : hostSquare acc [] (bump Reg.pciSnapCnt.base 2 s) = r)
    (ht : r.2.tasks = s.tasks) : Gives (.hostSquareAccess acc []) s (answer r) := by
  refine gives_of_effect (by unfold exec; rfl) hq ?_ ht
  rw [coreUp_setPending, hu, hin]
  refine (if_pos (by rfl)).trans ?_
  rw [bump_setPending, hostSquare_setPending, hr]
  rfl

/-- The time-out row by the answer to the one that made the access. -/
theorem squareAccessTimeout_gives {a : ℕ} (by_ : Requester) {s : State} (hu : coreUp s = true) (ha : a < 0x20000000) :
    GivesThen (.squareAccessTimeout a by_) s
      (postEvent 0x10 5 (bankStop s (bankOf a)) 0 0 [] (wr Reg.rasLast.base (5 + bankStop s (bankOf a) * 256 + Stat.poison * 65536)
        (bump Reg.rasSnapCnt.base 6 (setFlag Reg.rasStatus.base 6 (retireBank (bankOf a) (answerPoison by_ s)))))) := by
  refine givesThen_of_effect (by unfold exec; rfl) ?_
  have hno : ¬(!coreUp (setPending [] s) || decide (0x20000000 ≤ a)) = true := by simp [hu, ha]
  refine (if_neg hno).trans ?_
  dsimp only
  rw [bankStop_setPending, answerPoison_setPending, retireBank_setPending, setFlag_setPending, bump_setPending, rasLast_setPending,
    postEvent_setPending]
  rfl

/-- Settles O23: the host's accesses by the granule, and the time-out by the one that made the access. -/
theorem hostAccessAndTimeout : Obligations.HostAccessAndTimeout := by
  intro a n bs s hq hu
  have hread : ∀ {n}, a + n ≤ 0x20000000 → inSquare (.read a n) = true := fun h => decide_eq_true h
  have hwrite : a + bs.length ≤ 0x20000000 → inSquare (.write a bs) = true := fun h => decide_eq_true h
  refine ⟨fun h0 h hin hal hp => ?_, fun h0 h hin hrun => ?_, fun h0 h hin hal hp => ?_, fun h0 h hin hrun => ?_, fun stop acc ecc hst => ?_,
    fun by_ ha => squareAccessTimeout_gives by_ hu ha, rfl, fun n t ht => ?_, fun kind eng r hr hd => ?_⟩
  · exact hostSquareAccess_gives (r := ({ status := Stat.ok, data := devGet s a n }, bump Reg.pciSnapCnt.base 2 s)) hq hu (hread hin)
      (hostSquare_read h0 h hal hp) rfl
  · have hans := hostSquareAccess_gives
      (r := ({ status := Stat.ok, data := List.replicate n 0xFF }, setFlag Reg.sqStatus.base 8 (bump Reg.pciSnapCnt.base 2 s))) hq hu (hread hin)
      (hostSquare_read_none h0 h hrun) rfl
    rwa [answer, ofLe_ones] at hans
  · exact hostSquareAccess_gives (r := ({ status := Stat.ok, data := [] }, devPut a bs (bump Reg.pciSnapCnt.base 2 s))) hq hu (hwrite hin)
      (hostSquare_write h0 h hal hp) rfl
  · exact hostSquareAccess_gives (r := ({ status := Stat.ok, data := [] }, setFlag Reg.sqStatus.base 8 (bump Reg.pciSnapCnt.base 2 s))) hq hu
      (hwrite hin) (hostSquare_write_none h0 h hrun) rfl
  · refine gives_of_effect (by unfold exec; rfl) hq ?_ rfl
    rw [hst, Bool.and_false]
    rfl
  · refine ⟨(freeBits 2 s).1, (freeBits 22 (freeBits 2 s).2).1, Nat.mod_lt _ (by decide), Nat.mod_lt _ (by decide), ?_⟩
    simp only [answerPoison, ht]
    rfl
  · simp only [answerPoison, hr, hd]
    rfl

end Sys2Proof.Machine
end

