-- ==== Sys2Proof/Proofs/SquareRows.lean ====
section
/-! Scrubbing, retirement, the links' lanes and the partitions. -/

namespace Sys2Proof.Machine

open Sys2Proof

/-! ## Scrubbing, retirement and the links' lanes -/

/-- A line that is not the last of its bank: the next follows. -/
theorem nextLine_within {l : ℕ} {s : State} (h : s.sq.scrubLine.getD l 0 + 1 < 16384) :
    nextLine l s = { s with sq := { s.sq with scrubLine := modAt l (fun _ => s.sq.scrubLine.getD l 0 + 1) s.sq.scrubLine } } := by
  unfold nextLine
  exact if_pos h

/-- The last line of a bank: its corrected errors are counted anew, and bank 0 counts the pass. -/
theorem nextLine_last {l : ℕ} {s : State} (h : s.sq.scrubLine.getD l 0 + 1 = 16384) :
    nextLine l s =
      if l = 0 then
        wrF Reg.sqScrub.base 16 16 (rdF s Reg.sqScrub.base 16 16 + 1)
          { s with sq := { s.sq with scrubLine := modAt l (fun _ => 0) s.sq.scrubLine, ceInPass := modAt l (fun _ => 0) s.sq.ceInPass } }
      else { s with sq := { s.sq with scrubLine := modAt l (fun _ => 0) s.sq.scrubLine, ceInPass := modAt l (fun _ => 0) s.sq.ceInPass } } := by
  unfold nextLine
  exact if_neg (by omega)

/-- A scrubber's row: what SEC-DED finds in the line, then the next line. -/
theorem scrubRead_gives {bank : ℕ} {s t : State} {ecc : List EccHit} (hq : Quiet s) (hu : coreUp s = true) (hb : bank < 128)
    (hen : rdB s Reg.sqCtl.base 0 = true)
    (ht : applyEcc (touches (lineAddr bank (s.sq.scrubLine.getD bank 0)) 256) true ecc s = t) :
    Gives (.scrubRead bank ecc) s (nextLine bank t) := by
  refine gives_of_effect (by unfold exec; rfl) hq ?_ ?_
  · have hgo : ¬(!coreUp (setPending [] s) || !rdB (setPending [] s) Reg.sqCtl.base 0 || decide (128 ≤ bank)) = true := by
      rw [coreUp_setPending, rdB_setPending, hu, hen]
      simpa using hb
    refine (if_neg hgo).trans ?_
    rw [← nextLine_setPending, ← ht, ← applyEcc_setPending]
    rfl
  · rw [nextLine_tasks, ← ht, applyEcc_tasks]

/-- A parity error on a link counts the resends of the flit at hand. -/
theorem avenueParity_gives {link : ℕ} {resend : Bool} {s : State} (hq : Quiet s) (hu : coreUp s = true) (hl : linkExists link = true)
    (hn : (if resend then laneFails s link + 1 else 0) ≠ 3) :
    Gives (.avenueParityError link resend) s
      { s with sq := { s.sq with laneFails := upsert link (if resend then laneFails s link + 1 else 0) s.sq.laneFails } } := by
  refine gives_of_effect (by unfold exec; rfl) hq ?_ rfl
  have hgo : ¬(!coreUp (setPending [] s) || !linkExists link) = true := by simp [hu, hl]
  exact (if_neg hgo).trans (if_neg fun h => hn h.1)

/-- A link that takes its spare lane (R103, R510), before the event. -/
def takeSpareLane (link : ℕ) (s : State) : State :=
  rasLast 6 link 0 (bump Reg.rasSnapCnt.base 5 (setFlag Reg.rasStatus.base 4
    (modSq (fun q => { q with laneFails := upsert link 0 (upsert link 3 q.laneFails), laneSpare := q.laneSpare ++ [link] }) s)))

/-- The third failed resend of a flit. -/
theorem avenueParity_spare {link : ℕ} {s : State} (hq : Quiet s) (hu : coreUp s = true) (hl : linkExists link = true)
    (hn : laneFails s link = 2) (hs : s.sq.laneSpare.contains link = false) :
    Gives (.avenueParityError link true) s (postEvent 0x10 4 link 0 0 [] (takeSpareLane link s)) := by
  refine gives_of_effect (by unfold exec; rfl) hq ?_ (postEvent_tasks _ _ _ _ _ _ _)
  have hgo : ¬(!coreUp (setPending [] s) || !linkExists link) = true := by simp [hu, hl]
  refine (if_neg hgo).trans ?_
  rw [← postEvent_setPending]
  have hthree : laneFails (setPending [] s) link + 1 = 3 := congrArg (· + 1) hn
  simp only [if_true, hthree]
  exact if_pos ⟨trivial, hs⟩

/-- Settles O24: the rows by whether they act, and what each then leaves. -/
theorem scrubRetireAndLinks : Obligations.ScrubRetireAndLinks := by
  intro bank s hq hu
  refine ⟨fun hb hen hl => ?_, fun hb hen hl h0 => ?_, fun hen hl => ?_, fun w hb hen hl hp hw => ?_, fun r hr => ?_, fun link r hl => ?_,
    fun link hl => avenueParity_gives (resend := false) hq hu hl (by simp), fun link hl hn => ?_, fun link hl hn hs => ?_⟩
  · have h := scrubRead_gives hq hu hb hen (applyEcc_nil _ _ s)
    rwa [nextLine_within hl] at h
  · have h := scrubRead_gives hq hu hb hen (applyEcc_nil _ _ s)
    rwa [nextLine_last hl, if_neg h0] at h
  · have h := scrubRead_gives (bank := 0) hq hu (by decide) hen (applyEcc_nil _ _ s)
    rwa [nextLine_last hl, if_pos rfl] at h
  · exact scrubRead_gives hq hu hb hen (applyEcc_one _ _ _ hw)
  · refine gives_of_effect (by unfold exec; rfl) hq ?_ rfl
    dsimp only
    rw [show (setPending [] s).sq = s.sq from rfl, hr]
    rfl
  · refine gives_of_effect (by unfold exec; rfl) hq ?_ rfl
    exact if_pos (by simp [hl])
  · exact avenueParity_gives (resend := true) hq hu hl (by simp only [if_true]; omega)
  · refine ⟨takeSpareLane link s, avenueParity_spare hq hu hl hn hs, rfl, ?_, rfl, ?_, rd_wr_same _ _ _, ?_⟩
    · show ((upsert link 0 (upsert link 3 s.sq.laneFails)).lookup link).getD 0 = 0
      rw [lookup_upsert_same]
      rfl
    · show flagOf (wr Reg.rasLast.base _ _) Reg.rasStatus.base 4 = true
      rw [flagOf, rd_wr_other _ _ _ _ (by decide), rd_bump, ← flagOf, flagOf_setFlag _ _ _ _ (by decide) (by decide)]
      simp
    · exact ctrOf_count_same (Reg.rasSnapCnt.base + 4 * 5) 1 _

end Sys2Proof.Machine
end

