-- ==== Sys2Proof/Proofs/Parts.lean ====
section
/-! Writes of the registers of partitions. -/

namespace Sys2Proof.Machine

open Sys2Proof

/-! ## Partitions -/

theorem regAt_sqQuota {p : ℕ} (hp : p < 16) : regAt (Reg.sqQuota.off p 0) = some Reg.sqQuota := by
  have h : ∀ p : Fin 16, regAt (Reg.sqQuota.off p 0) = some Reg.sqQuota := by decide
  exact h ⟨p, hp⟩

theorem regAt_sqKvCfg {p : ℕ} (hp : p < 16) : regAt (Reg.sqKvCfg.off p 0) = some Reg.sqKvCfg := by
  have h : ∀ p : Fin 16, regAt (Reg.sqKvCfg.off p 0) = some Reg.sqKvCfg := by decide
  exact h ⟨p, hp⟩

/-- A quota register just written holds its quota. -/
theorem quotaOf_wr (p x e : ℕ) (s : State) (hx : x < 2 ^ 14) (he : e = 0 ∨ e = 2 ^ 31) :
    quotaOf (wr (Reg.sqQuota.off p 0) (x + e) s) p = x := by
  have hlt : x + e < 2 ^ 32 := by rcases he with rfl | rfl <;> omega
  rw [quotaOf, rdF, rd_wr_same, Nat.mod_eq_of_lt hlt, bits]
  rcases he with rfl | rfl <;> simp <;> omega

/-- Bit 31 of what a quota write stores is the enable written. -/
theorem testBit_quotaWord (n : ℕ) (b : Bool) : (n % 2 ^ 14 + if b = true then 2 ^ 31 else 0).testBit 31 = b := by
  have hlt : n % 2 ^ 14 < 2 ^ 14 := Nat.mod_lt _ (by decide)
  rw [Nat.testBit_eq_decide_div_mod_eq]
  cases b <;> simp <;> omega

/-- What of a block answers depends on the block alone, past the identity registers. -/
theorem silent_of_block {a b : ℕ} (s : State) (w : Bool) (h : a / 65536 = b / 65536) (ha : 65536 ≤ a) : silent s a w = silent s b w := by
  have hb : 65536 ≤ b := by omega
  have hid {x : ℕ} (hx : 65536 ≤ x) : identityOff x = false := by
    simp only [identityOff, Bool.or_eq_false_iff, decide_eq_false_iff_not, beq_eq_false_iff_ne]
    omega
  unfold silent bootBlock heldBlock
  rw [h, hid ha, hid hb]

/-- A quota write that may stand: it is stored, and flag 5 tells of a partition that holds more. -/
theorem writeQuota_stored {p : ℕ} {v : Word} {s : State} {e : ℕ} (he : (if v.getLsbD 31 then 2 ^ 31 else 0) = e)
    (h : v.getLsbD 31 = true ∨ partEn s p = false ∨ partUse s p = 0) :
    writeQuota p v.toNat s =
      if bits v.toNat 0 14 < partUse s p then setFlag Reg.sqStatus.base 5 (wr (Reg.sqQuota.off p 0) (bits v.toNat 0 14 + e) s)
      else wr (Reg.sqQuota.off p 0) (bits v.toNat 0 14 + e) s := by
  have hbits : v.toNat % 2 ^ 14 = bits v.toNat 0 14 := by simp [bits]
  have htest : v.toNat.testBit 31 = v.getLsbD 31 := rfl
  have hstays : ¬(partEn s p && !v.getLsbD 31 && partUse s p != 0) = true := by
    rcases h with h | h | h <;> simp [h]
  have he' : e = 0 ∨ e = 2 ^ 31 := by
    rw [← he]
    cases v.getLsbD 31 <;> simp
  have hover : partOver (wr (Reg.sqQuota.off p 0) (bits v.toNat 0 14 + e) s) p = decide (bits v.toNat 0 14 < partUse s p) := by
    rw [partOver, quotaOf_wr _ _ _ _ (bits_lt _ _ _) he']
    rfl
  unfold writeQuota
  dsimp only
  rw [testBit_quotaWord, htest, if_neg hstays, he, hbits, hover]
  simp only [decide_eq_true_eq]

/-- A quota write that would disable a partition in use. -/
theorem writeQuota_refused {p : ℕ} {v : Word} {s : State} (hv : v.getLsbD 31 = false) (hen : partEn s p = true) (hu : partUse s p ≠ 0) :
    writeQuota p v.toNat s = setFlag Reg.sqStatus.base 9 s := by
  have htest : v.toNat.testBit 31 = false := hv
  unfold writeQuota
  dsimp only
  rw [testBit_quotaWord, htest]
  exact if_pos (by simp [hen, hu])

theorem adjustPool_tasks (p : ℕ) (s : State) : (adjustPool p s).tasks = s.tasks := by
  unfold adjustPool
  split
  · exact growPool_tasks _ p s
  · exact shrinkPool_tasks p s

/-- What is left of a run lies outside the freed granules. -/
theorem mem_cutRun {b n : ℕ} {r x : GranRun} (h : x ∈ cutRun b n r) : b + n ≤ x.base ∨ x.base + x.n ≤ b := by
  unfold cutRun at h
  rcases List.mem_append.mp h with h | h
  · split at h
    · obtain rfl := List.mem_singleton.mp h
      right
      show r.base + min r.n (b - r.base) ≤ b
      omega
    · exact absurd h List.not_mem_nil
  · dsimp only at h
    split at h
    · obtain rfl := List.mem_singleton.mp h
      left
      exact le_max_right _ _
    · exact absurd h List.not_mem_nil

/-- Settles O25: the rows are gated writes; a quota write has three outcomes, and a granule given back is in no run. -/
theorem partitionRegisters : Obligations.PartitionRegisters := by
  intro w p v s hq hp hs
  have hquota : MayWrite s w (Reg.sqQuota.off p 0) v := mayWrite_of_free w v (regAt_sqQuota hp) rfl rfl hs
  have hkv : MayWrite s w (Reg.sqKvCfg.off p 0) v := mayWrite_of_free w v (regAt_sqKvCfg hp) rfl rfl (by
    rw [silent_of_block (b := Reg.sqQuota.off p 0) s true, hs]
    · show (0x70108 + p * 16 + 0 * 0) / 65536 = (0x70100 + p * 16 + 0 * 0) / 65536
      omega
    · show 65536 ≤ 0x70108 + p * 16 + 0 * 0
      omega)
  have write {t : State} (ht : writeQuota p v.toNat s = t) (htasks : t.tasks = s.tasks) : Gives (.sqQuotaWrite w p v) s t := by
    refine gives_of_effect (by unfold exec; rfl) hq ?_ htasks
    refine (if_pos hp).trans ((gate_pass_pending [] hquota _).trans ?_)
    rw [writeQuota_setPending, ht]
  have disable {t : State} (hv : v.getLsbD 31 = false) (ht : writeQuota p v.toNat s = t) (htasks : t.tasks = s.tasks) :
      Gives (.partitionDisableWrite w p v) s t := by
    refine gives_of_effect (by unfold exec; rfl) hq ?_ htasks
    refine (if_pos ⟨hp, hv⟩).trans ((gate_pass_pending [] hquota _).trans ?_)
    rw [writeQuota_setPending, ht]
  refine ⟨fun hv hle => ?_, fun hv hlt => ?_, fun hv hen hu => ?_, fun hv hfree => ?_, ?_, ?_, fun g r hr => ?_⟩
  · exact write ((writeQuota_stored (by rw [hv]; rfl) (.inl hv)).trans (if_neg (by omega))) rfl
  · exact write ((writeQuota_stored (by rw [hv]; rfl) (.inl hv)).trans (if_pos hlt)) rfl
  · have hr := writeQuota_refused hv hen hu
    exact ⟨disable hv hr rfl, write hr rfl⟩
  · have ht := writeQuota_stored (e := 0) (by rw [hv]; rfl) (.inr hfree)
    have htasks : (writeQuota p v.toNat s).tasks = s.tasks := by
      rw [ht]
      split <;> rfl
    exact ⟨writeQuota p v.toNat s, ht, disable hv rfl htasks, write rfl htasks⟩
  · refine gives_of_effect (by unfold exec; rfl) hq ?_ (adjustPool_tasks _ _)
    refine (if_pos hp).trans ((gate_pass_pending [] hkv _).trans ?_)
    rw [writeKvCfg_setPending]
    rfl
  · refine gives_of_effect (by unfold exec; rfl) hq ?_ (shrinkPool_tasks p s)
    refine (if_pos hp).trans ?_
    rw [shrinkPool_setPending]
    rfl
  · obtain ⟨x, -, hx⟩ := List.mem_flatMap.mp hr
    rcases mem_cutRun hx with h | h
    · exact .inl h
    · exact .inr h

end Sys2Proof.Machine
end

