-- ==== Sys2Proof/Proofs/Alloc.lean ====
section
/-! The allocator: the lowest free run, filled with zeros. -/

namespace Sys2Proof.Machine

open Sys2Proof

/-! ## Allocation -/

/-- A run takes its place among the others. -/
theorem perm_insertRun (r : GranRun) (rs : List GranRun) : (insertRun r rs).Perm (r :: rs) := by
  induction rs with
  | nil => exact .refl _
  | cons x xs ih =>
    rw [insertRun]
    split
    · exact .refl _
    · exact (ih.cons x).trans (.swap r x xs)

/-- A byte inside the cleared run reads zero. -/
theorem memGet_memZero_inside {m : Memory} {a n x : ℕ} (h : a ≤ x) (hx : x < a + n) : memGet (memZero m a n) x = 0 := by
  rw [memGet, memZero, find_none_of]
  · rfl
  · intro c hc
    have := (List.mem_filter.mp hc).2
    simp only [Bool.or_eq_true, decide_eq_true_eq] at this
    omega

/-- A byte outside the cleared run stays. -/
theorem memGet_memZero_outside {m : Memory} {a n x : ℕ} (h : x < a ∨ a + n ≤ x) : memGet (memZero m a n) x = memGet m x := by
  rw [memGet, memZero, find_filter_keep]
  · rfl
  · intro c hc
    simpa [hc] using h

/-- What an allocation that finds its run leaves. -/
def allocatedAt (p n handle kind b : ℕ) (s : State) : State :=
  bump Reg.sqSnapCnt.base 2 (zeroGranules b n
    (modSq (fun q => { q with runs := insertRun { base := b, n := n, part := p, handle := handle, kind := kind } q.runs }) s))

/-- Settles O26: the outcomes by the quota and the lowest gap that is long enough. -/
theorem allocationTakesLowestRun : Obligations.AllocationTakesLowestRun := by
  intro p n handle kind s
  have hquota (hen : partEn s p = true) (hle : partUse s p + n ≤ quotaOf s p) :
      ¬(!partEn s p || decide (quotaOf s p < partUse s p + n)) = true := by simp [hen, hle]
  refine ⟨fun h0 => if_pos h0, fun h0 hbad => ?_, fun h0 hen hle hgap => ?_, fun h0 hen hle hgap => ?_⟩
  · exact (if_neg h0).trans (if_pos (by simpa using hbad))
  · have hnone : (gaps 0 s.sq.runs).find? (fun g => decide (n ≤ g.2)) = none :=
      List.find?_eq_none.mpr fun g hg => by simpa using hgap g hg
    rw [alloc, if_neg h0, if_neg (hquota hen hle), hnone]
  · obtain ⟨g, hg⟩ : ∃ g, (gaps 0 s.sq.runs).find? (fun g => decide (n ≤ g.2)) = some g := by
      rw [← Option.isSome_iff_exists, List.find?_isSome]
      simpa using hgap
    have hperm := perm_insertRun { base := g.1, n := n, part := p, handle := handle, kind := kind } s.sq.runs
    refine ⟨g.1, allocatedAt p n handle kind g.1 s, ?_, ⟨g, hg, rfl⟩, hperm.mem_iff.mpr List.mem_cons_self,
      fun r hr => hperm.mem_iff.mpr (List.mem_cons_of_mem _ hr), ?_, fun x hx hlt => ?_, fun x hx => ?_, rfl⟩
    · rw [alloc, if_neg h0, if_neg (hquota hen hle), hg]
      rfl
    · have hsum := (((hperm.filter fun r => r.part == p).map (·.n)).sum_eq)
      refine hsum.trans ?_
      simp only [List.filter_cons, BEq.rfl, if_true, List.map_cons, List.sum_cons]
      exact Nat.add_comm _ _
    · exact memGet_memZero_inside hx (by rwa [← Nat.add_mul])
    · exact memGet_memZero_outside (by rwa [← Nat.add_mul])

end Sys2Proof.Machine
end

