-- ==== Sys2Proof/Proofs/Points.lean ====
section
/-! Operating points of the cores. -/

namespace Sys2Proof.Machine

open Sys2Proof

/-! ## Changes of one task -/

/-- A change of the first element that fits depends on what it does to that element alone. -/
theorem updFirst_eq_of_find {α : Type} {p : α → Bool} {l : List α} {k : α} {f g : α → α} (hk : l.find? p = some k) (h : f k = g k) :
    updFirst p f l = updFirst p g l := by
  induction l with
  | nil => rfl
  | cons x xs ih =>
    unfold updFirst
    rw [List.find?_cons] at hk
    cases hp : p x with
    | true =>
      rw [hp] at hk
      obtain rfl := Option.some.inj hk
      simp only [if_true, h]
    | false =>
      rw [hp] at hk
      simp only [Bool.false_eq_true, if_false, ih hk]

theorem updFirst_self {α : Type} (p : α → Bool) (l : List α) : updFirst p id l = l := by
  induction l with
  | nil => rfl
  | cons x xs ih =>
    unfold updFirst
    rw [ih]
    exact ite_self _

theorem modTask_eq_of_task {t : TaskId} {k : Task} {s : State} {f g : Task → Task} (hk : taskOf s t = some k) (h : f k = g k) :
    modTask t f s = modTask t g s := by
  unfold modTask
  rw [updFirst_eq_of_find hk h]

/-- A change that leaves its task as it is leaves the state. -/
theorem modTask_of_fixed {t : TaskId} {k : Task} {s : State} {f : Task → Task} (hk : taskOf s t = some k) (h : f k = k) :
    modTask t f s = s := by
  rw [modTask_eq_of_task (g := id) hk h, modTask, updFirst_self]

theorem mem_updFirst {α : Type} {p : α → Bool} {f : α → α} {l : List α} {y : α} (h : y ∈ updFirst p f l) : y ∈ l ∨ ∃ x ∈ l, y = f x := by
  induction l with
  | nil => exact .inl h
  | cons x xs ih =>
    unfold updFirst at h
    split at h <;> rcases List.mem_cons.mp h with rfl | h
    · exact .inr ⟨x, List.mem_cons_self, rfl⟩
    · exact .inl (List.mem_cons_of_mem _ h)
    · exact .inl List.mem_cons_self
    · rcases ih h with h | ⟨z, hz, rfl⟩
      · exact .inl (List.mem_cons_of_mem _ h)
      · exact .inr ⟨z, List.mem_cons_of_mem _ hz, rfl⟩

/-- A change of one task that leaves its waits and its due fault. -/
theorem quiet_modTask {t : TaskId} {f : Task → Task} {s : State} (hq : Quiet s) (hw : ∀ k, (f k).waits = k.waits)
    (hd : ∀ k, (f k).due = k.due) : Quiet (modTask t f s) := by
  intro k hk
  rcases mem_updFirst hk with hk | ⟨x, hx, rfl⟩
  · exact hq k hk
  · rw [hw, hd]
    exact hq x hx

/-! ## Operating points -/

theorem tcOpp_ne_tcStatus (n : ℕ) : Reg.tcOpp.off n 0 ≠ Reg.tcStatus.off n 0 := by
  show 0x90104 + n * 64 + 0 * 0 ≠ 0x90108 + n * 64 + 0 * 0
  omega

theorem voltFor_le (f : ℕ) : voltFor f ≤ 150 := by
  unfold voltFor
  omega

/-- A rise takes the voltage first. -/
theorem setPoint_rise {n f v : ℕ} {s : State} (h : coreClock s n < f) :
    setPoint n f v s = modCore n (fun c => { c with pendingFreq := some f })
      (wrF (Reg.tcOpp.off n 0) 8 8 (max (max v (voltFor f)) (voltFor (coreClock s n))) s) := by
  unfold setPoint
  exact if_pos h

/-- Any other change takes the clock first. -/
theorem setPoint_fall {n f v : ℕ} {s : State} (h : f ≤ coreClock s n) :
    setPoint n f v s = modCore n (fun c => { c with pendingFreq := none })
      (wrF (Reg.tcOpp.off n 0) 8 8 (max v (voltFor f)) (switchClock n f s)) := by
  unfold setPoint
  exact if_neg (by omega)

theorem switchClock_same {n f : ℕ} {s : State} (h : coreClock s n = f) : switchClock n f s = s := if_pos h

theorem switchClock_other {n f : ℕ} {s : State} (h : coreClock s n ≠ f) :
    switchClock n f s = setFlag (Reg.tcStatus.off n 0) 5 (wrF (Reg.tcOpp.off n 0) 0 7 f s) := if_neg h

/-- A clock just switched. -/
theorem coreClock_switchClock {n f : ℕ} (s : State) (hf : f < 128) : coreClock (switchClock n f s) n = f := by
  by_cases h : coreClock s n = f
  · rw [switchClock_same h, h]
  · rw [switchClock_other h, coreClock, rdF, rd_setFlag_other _ _ _ _ (tcOpp_ne_tcStatus n), ← rdF, rdF_wrF_same _ _ _ _ _ (by decide)]
    exact Nat.mod_eq_of_lt hf

/-- A switch of a core's clock writes its point and its status. -/
theorem rdW_switchClock {n r : ℕ} (f : ℕ) (s : State) (ho : r ≠ Reg.tcOpp.off n 0) (hs : r ≠ Reg.tcStatus.off n 0) :
    rdW (switchClock n f s) r = rdW s r := by
  unfold switchClock
  split
  · rfl
  · exact (rdW_wr_other _ _ _ _ hs).trans (rdW_wr_other _ _ _ _ ho)

theorem switchClock_regs (n f : ℕ) (s : State) : switchClock n f s = { s with regs := (switchClock n f s).regs } := by
  unfold switchClock
  split <;> rfl

/-- The voltage of a point leaves the clock. -/
theorem coreClock_volt (n v : ℕ) (s : State) : coreClock (wrF (Reg.tcOpp.off n 0) 8 8 v s) n = coreClock s n :=
  rdF_wrF_field _ _ _ _ _ _ s (by decide) (.inl (by decide))

/-- A point that R114 allows, on an ACTIVE core that no frozen point holds. -/
theorem writeOpp_sets {n : ℕ} {v : Word} {s : State} (hst : (coreOf s n).st = 0) (hdet : detMode s = false)
    (hok : pointOk (bits v.toNat 0 7) (bits v.toNat 8 8) = true) :
    writeOpp n v s = setPoint n (bits v.toNat 0 7) (bits v.toNat 8 8) s := by
  unfold writeOpp
  simp only [hst, hdet, hok, Bool.false_and, Bool.false_eq_true, ne_eq, not_true_eq_false, or_self, if_false, if_true]

theorem writeOpp_inactive {n : ℕ} {s : State} (v : Word) (hst : (coreOf s n).st ≠ 0) : writeOpp n v s = s := if_pos (.inl hst)

theorem writeOpp_range {n : ℕ} {v : Word} (s : State) (hok : pointOk (bits v.toNat 0 7) (bits v.toNat 8 8) = false) : writeOpp n v s = s := by
  unfold writeOpp
  simp only [hok, Bool.false_eq_true, if_false]
  exact ite_self _

theorem writeOpp_frozen {n : ℕ} {v : Word} {s : State} (hdet : detMode s = true)
    (h : bits v.toNat 0 7 ≠ detFreq s ∨ bits v.toNat 8 8 ≠ voltFor (detFreq s)) : writeOpp n v s = s := by
  refine if_pos (.inr ?_)
  by_cases hf : bits v.toNat 0 7 = detFreq s
  · have hv := h.resolve_left (not_not.mpr hf)
    simp [hdet, hf, hv]
  · simp [hdet, hf]

/-- The point row by what the write does. -/
theorem oppChange_gives {n : ℕ} {v : Word} {s t : State} (hq : Quiet s) (hn : n < 17) (hm : MayWrite s .complex (Reg.tcOpp.off n 0) v)
    (he : writeOpp n v s = t) (ht : t.tasks = s.tasks) : Gives (.oppChange .complex n v) s t := by
  refine gives_of_effect (by unfold exec; rfl) hq ?_ ht
  refine (if_neg (by omega)).trans ((gate_pass_pending [] hm _).trans ?_)
  rw [writeOpp_setPending, he]

/-- Settles O28: the write's outcomes by the core, the mode, the range and the direction; then the regulator and the plane loads. -/
theorem operatingPoints : Obligations.OperatingPoints := by
  intro n v s hq hn
  refine ⟨fun hm hst hdet hok hlt => ⟨_, oppChange_gives hq hn hm ((writeOpp_sets hst hdet hok).trans (setPoint_rise hlt)) rfl, rfl, ?_⟩,
    fun hm hst => oppChange_gives hq hn hm (writeOpp_inactive v hst) rfl, fun hm hst hdet hok hle => ?_,
    fun hm hok => oppChange_gives hq hn hm (writeOpp_range s hok) rfl, fun hm hdet h => oppChange_gives hq hn hm (writeOpp_frozen hdet h) rfl,
    fun f hf hne => ?_, fun f t hf heq ht => ?_, fun plane k hk htask => ⟨fun hh => ?_, fun hh => ?_⟩⟩
  · exact coreClock_volt n _ s
  · have hlt : bits v.toNat 0 7 < 128 := bits_lt _ _ _
    have hu : bits v.toNat 8 8 < 256 := bits_lt _ _ _
    have hv := voltFor_le (bits v.toNat 0 7)
    have htasks : (switchClock n (bits v.toNat 0 7) s).tasks = s.tasks := switchClock_tasks n _ s
    refine ⟨_, oppChange_gives hq hn hm ((writeOpp_sets hst hdet hok).trans (setPoint_fall hle)) htasks, ?_, ?_, ?_, fun r ho hr => ?_⟩
    · exact (coreClock_volt n _ _).trans (coreClock_switchClock s hlt)
    · exact (rdF_wrF_same _ _ _ _ _ (by decide)).trans (Nat.mod_eq_of_lt (by omega))
    · rw [switchClock_regs]
      rfl
    · exact (rdW_wr_other _ _ _ _ ho).trans (rdW_switchClock _ s ho hr)
  · refine gives_of_effect (by unfold exec; rfl) hq ?_ rfl
    rw [coreOf_setPending, hf]
    refine (if_neg (by omega)).trans ?_
    rw [modCore_setPending, switchClock_setPending, switchClock_other (s := modCore n _ s) hne]
  · refine gives_of_effect (by unfold exec; rfl) hq ?_ (by rw [ht]; rfl)
    rw [coreOf_setPending, hf]
    refine (if_neg (by omega)).trans ?_
    rw [modCore_setPending, switchClock_setPending, switchClock_same (s := modCore n _ s) heq, ht]
  · have hend : modTask k.id (fun k => { k with regs := endLoad plane k.regs }) s =
        modTask k.id (fun k => { k with regs := { k.regs with loads := k.regs.loads.drop 1 } }) s :=
      modTask_eq_of_task htask (by rw [endLoad, if_pos hh])
    refine gives_of_quiet (by unfold exec; rfl) ?_ (quiet_modTask hq (fun _ => rfl) fun _ => rfl)
    rw [coreOf_setPending, hk, ← hend]
    rfl
  · have hend : modTask k.id (fun k => { k with regs := endLoad plane k.regs }) s = s :=
      modTask_of_fixed htask (by rw [endLoad, if_neg hh])
    refine gives_of_effect (by unfold exec; rfl) hq ?_ rfl
    rw [coreOf_setPending, hk]
    exact congrArg (setPending []) hend

end Sys2Proof.Machine
end

