-- ==== Sys2Proof/Proofs/Power.lean ====
section
/-! Gating and wake chains. -/

namespace Sys2Proof.Machine

open Sys2Proof

/-! ## Gating and wake chains -/

/-- A row of a unit that a system or power-on reset stops, while none holds. -/
theorem gives_of_wide {c : Instr} {f : State → State} {s t : State} (hc : exec c s = runWide f s) (hu : wideUp s = true) (hq : Quiet s)
    (he : f (setPending [] s) = setPending [] t) (ht : t.tasks = s.tasks) : Gives c s t :=
  gives_of_effect (hc.trans (runWide_up _ _ hu)) hq he ht

/-- The same while one holds. -/
theorem gives_of_wide_down {c : Instr} {f : State → State} {s : State} (hc : exec c s = runWide f s) (hu : wideUp s = false) (hq : Quiet s) :
    Gives c s s :=
  gives_of_effect (hc.trans (runWide_down _ _ hu)) hq rfl rfl

/-- A core whose turn it is in its chain, roused. -/
def rouseCore (n : ℕ) (s : State) : State :=
  modCore n (fun c => { c with gated := c.st == 1, wakePoint := none, roused := false })
    (if (coreOf s n).st = 1 then s else bump Reg.pwrSnapCnt.base 6 s)

/-- The unit whose turn it is in its wake chain starts. -/
def leaveSleep (chain n : ℕ) (s : State) : State :=
  modPwr (fun p => { p with asleep := p.asleep.filter fun x => x != (chain, n) }) s

theorem rouseCore_tasks (n : ℕ) (s : State) : (rouseCore n s).tasks = s.tasks := by
  unfold rouseCore
  split <;> rfl

theorem rouseCore_setPending (n : ℕ) (q : List Instr) (s : State) : rouseCore n (setPending q s) = setPending q (rouseCore n s) := by
  unfold rouseCore
  rw [coreOf_setPending]
  split <;> rfl

theorem coreOf_leaveSleep (chain n m : ℕ) (s : State) : coreOf (leaveSleep chain n s) m = coreOf s m := rfl

/-- A core in its turn: it is roused, and takes the point that waited for it. -/
def wakeCore (n : ℕ) (s : State) : State :=
  match (coreOf s n).wakePoint with
  | some p => if detMode s then setPoint n (detFreq s) (voltFor (detFreq s)) (rouseCore n s) else setPoint n p.1 p.2 (rouseCore n s)
  | none => rouseCore n s

theorem wakeCore_setPending (n : ℕ) (q : List Instr) (s : State) : wakeCore n (setPending q s) = setPending q (wakeCore n s) := by
  unfold wakeCore
  rw [coreOf_setPending, rouseCore_setPending]
  cases (coreOf s n).wakePoint with
  | none => rfl
  | some p =>
    simp only [setPoint_setPending, ite_setPending]
    rfl

theorem wakeCore_tasks (n : ℕ) (s : State) : (wakeCore n s).tasks = s.tasks := by
  unfold wakeCore
  split
  · split <;> rw [setPoint_tasks, rouseCore_tasks]
  · exact rouseCore_tasks n s

/-- A wake row, where its unit's turn has come. -/
theorem wake_gives {chain n : ℕ} {s : State} (hq : Quiet s) (hu : coreUp s = true) (hn : nextWake s chain = some n) :
    Gives (.coreWake chain n) s (if chain = 0 then wakeCore n (leaveSleep chain n s) else leaveSleep chain n s) := by
  have hgo : ¬(!coreUp (setPending [] s) || nextWake (setPending [] s) chain != some n) = true := by simp [hu, hn]
  refine gives_of_effect (by unfold exec; rfl) hq ?_ ?_
  · refine (if_neg hgo).trans ?_
    by_cases hc : chain = 0
    · refine (if_pos hc).trans ?_
      rw [if_pos hc, ← wakeCore_setPending]
      unfold wakeCore rouseCore
      by_cases hst : (coreOf s n).st = 1
      · have hst' : (coreOf (setPending [] (leaveSleep chain n s)) n).st = 1 := hst
        rw [if_pos hst']
        dsimp only
        rw [if_pos]
        · rfl
        · exact hst
      · have hst' : ¬(coreOf (setPending [] (leaveSleep chain n s)) n).st = 1 := hst
        rw [if_neg hst']
        dsimp only
        rw [if_neg]
        · rfl
        · exact hst
    · refine (if_neg hc).trans ?_
      rw [if_neg hc]
      rfl
  · split
    · exact wakeCore_tasks n _
    · rfl

/-- While a core that was roused in a fenced one's place wants to wake, the chain's next is one of those. -/
theorem nextWake_roused {n m : ℕ} {s : State} (hn : nextWake s 0 = some n) (hm : coreWants s m = true) (hr : (coreOf s m).roused = true)
    (hlt : m < 17) : (coreOf s n).roused = true := by
  obtain ⟨x, hx⟩ : ∃ x, (List.range 17).find? (fun n => coreWants s n && (coreOf s n).roused) = some x := by
    rw [← Option.isSome_iff_exists, List.find?_isSome]
    exact ⟨m, List.mem_range.mpr hlt, by rw [hm, hr]; rfl⟩
  have hxn : x = n := by
    unfold nextWake at hn
    simp only [hx] at hn
    exact Option.some.inj hn
  have hp := List.find?_some hx
  simp only [Bool.and_eq_true] at hp
  rw [← hxn]
  exact hp.2

/-- Settles O29: gating by its conditions, and the wakes by their chain and the point that waited. -/
theorem gatingAndWakes : Obligations.GatingAndWakes := by
  intro n s hq
  refine ⟨fun hen hg hst hph haw => ?_, fun h => ?_, fun chain hc hu hn => ?_, fun u v hu hn hue hve => ?_,
    fun m hn hm hr hlt => nextWake_roused hn hm hr hlt⟩
  · refine gives_of_effect (by unfold exec; rfl) hq ?_ rfl
    refine if_pos ?_
    simp only [rdB_setPending, rdF_setPending, coreOf_setPending, awake_setPending, hen, hst, hph, haw, bne_iff_ne.mpr hg]
    rfl
  · refine gives_of_effect (by unfold exec; rfl) hq ?_ rfl
    refine if_neg ?_
    simp only [rdB_setPending, rdF_setPending]
    rcases h with h | h <;> simp [h]
  · have h := wake_gives hq hu hn
    rwa [if_neg (by omega)] at h
  · have hv : rouseCore n (leaveSleep 0 n s) = v := by rw [hve, hue]; rfl
    have hwake : Gives (.coreWake 0 n) s (wakeCore n (leaveSleep 0 n s)) := wake_gives hq hu hn
    rw [wakeCore, coreOf_leaveSleep, hv] at hwake
    refine ⟨fun hp => ?_, fun p hp hd => ?_, fun p hp hd => ?_⟩
    · rwa [hp] at hwake
    · rw [hp] at hwake
      have hoff : detMode (leaveSleep 0 n s) ≠ true := ne_true_of_eq_false hd
      dsimp only at hwake
      rwa [if_neg hoff] at hwake
    · rw [hp] at hwake
      have hon : detMode (leaveSleep 0 n s) = true := hd
      dsimp only at hwake
      rwa [if_pos hon] at hwake

end Sys2Proof.Machine
end

