-- ==== Sys2Proof/Proofs/Throttle.lean ====
section
/-! The throttle, the ceiling and the supplies. -/

namespace Sys2Proof.Machine

open Sys2Proof

/-! ## The throttle -/

theorem noteMeter_regs_other {m : Meter} {r : ℕ} (s : State) (h1 : r ≠ Reg.pwrMeas.base) (h2 : r ≠ Reg.pwrTemp.base) :
    rd (noteMeter m s) r = rd s r := by
  unfold noteMeter
  dsimp only
  split
  · rfl
  · exact (rd_wr_other _ _ _ _ h2).trans (rd_wr_other _ _ _ _ h1)

theorem noteMeter_pwr (m : Meter) (s : State) : (noteMeter m s).pwr = s.pwr := by
  unfold noteMeter
  dsimp only
  split <;> rfl

/-- What the meters report leaves the ceiling. -/
theorem ceiling_noteMeter (m : Meter) (s : State) : ceiling (noteMeter m s) = ceiling s := by
  rw [ceiling, rdF, noteMeter_regs_other s (by decide) (by decide), ← rdF, ← ceiling]

theorem throttle_noteMeter (m : Meter) (s : State) : throttle (noteMeter m s) = throttle s := by
  rw [throttle, noteMeter_pwr, throttle]

theorem throttleEvent_pwr (code : ℕ) (on : Bool) (s : State) : (throttleEvent code on s).pwr = s.pwr :=
  (eventFrame_postEvent _ _ _ _ _ _ s).get State.pwr

/-- The events leave the flags of PWR_STATUS. -/
theorem rd_throttleEvent (code : ℕ) (on : Bool) (s : State) : rd (throttleEvent code on s) Reg.pwrStatus.base = rd s Reg.pwrStatus.base :=
  congrArg BitVec.toNat (rdW_postEvent (by unfold EventFree; decide) _ _ _ _ _ _ s)

/-- A power level: the throttle's part of it, and the flag of a throttle that rises from 0. -/
def levelSet (f : Power → Power) (set : Bool) (s : State) : State :=
  if set then setFlag Reg.pwrStatus.base 0 (modPwr f s) else modPwr f s

theorem levelSet_pwr (f : Power → Power) (set : Bool) (s : State) : (levelSet f set s).pwr = f s.pwr := by
  unfold levelSet
  split <;> rfl

theorem setPowerLevel_pwr (l : ℕ) (s : State) : (setPowerLevel l s).pwr = { s.pwr with levelP := l, demandP := l != 0 } := by
  have h := levelSet_pwr (fun p => { p with levelP := l, demandP := l != 0 }) (throttle s == 0 && l != 0) s
  unfold setPowerLevel
  dsimp only
  split
  · rw [throttleEvent_pwr]
    exact h
  split
  · rw [throttleEvent_pwr]
    exact h
  · exact h

/-- A throttle that rises from 0 sets flag 0. -/
theorem flagOf_setPowerLevel {l : ℕ} {s : State} (h0 : throttle s = 0) (hl : l ≠ 0) :
    flagOf (setPowerLevel l s) Reg.pwrStatus.base 0 = true := by
  have hset : (throttle s == 0 && l != 0) = true := by simp [h0, hl]
  have hflag (u : State) : (rd (setFlag Reg.pwrStatus.base 0 u) Reg.pwrStatus.base).testBit 0 = true := by
    rw [← flagOf, flagOf_setFlag _ _ _ _ (by decide) (by decide)]
    simp
  unfold setPowerLevel flagOf
  dsimp only
  rw [if_pos hset]
  split
  · rw [rd_throttleEvent, rd_bump]
    exact hflag _
  · rw [if_neg (fun h => hl h.2)]
    exact hflag _

theorem setThermalLevel_pwr (l : ℕ) (s : State) : (setThermalLevel l s).pwr = { s.pwr with levelT := l, demandT := l != 0 } := by
  have h (b : Prop) [Decidable b] : (if b then setFlag Reg.pwrStatus.base 2 (levelSet (fun p => { p with levelT := l, demandT := l != 0 }) (throttle s == 0 && l != 0) s)
      else levelSet (fun p => { p with levelT := l, demandT := l != 0 }) (throttle s == 0 && l != 0) s).pwr = { s.pwr with levelT := l, demandT := l != 0 } := by
    split <;> exact levelSet_pwr _ _ s
  unfold setThermalLevel
  dsimp only
  split
  · rw [throttleEvent_pwr]
    exact h _
  split
  · rw [throttleEvent_pwr]
    exact h _
  · exact h _

/-- A thermal demand that begins sets flag 2. -/
theorem flagOf_setThermalLevel {l : ℕ} {s : State} (h0 : s.pwr.demandT = false) (hl : l ≠ 0) :
    flagOf (setThermalLevel l s) Reg.pwrStatus.base 2 = true := by
  have hflag (u : State) : (rd (setFlag Reg.pwrStatus.base 2 u) Reg.pwrStatus.base).testBit 2 = true := by
    rw [← flagOf, flagOf_setFlag _ _ _ _ (by decide) (by decide)]
    simp
  have hbeg : (!s.pwr.demandT && l != 0) = true := by simp [h0, hl]
  unfold setThermalLevel flagOf
  dsimp only
  rw [if_pos hbeg, rd_throttleEvent, rd_bump, if_pos ⟨hl, by simp [h0]⟩]
  exact hflag _

/-! ## The ceiling's register -/

/-- The host's write of the ceiling. -/
theorem requestLimit_host {v : Word} {s : State} (hs : silent s Reg.pwrLimit.base true = false) :
    requestLimit .host v s = if 25 ≤ bits v.toNat 0 7 ∧ bits v.toNat 0 7 ≤ 110 then wr Reg.pwrLimit.base (bits v.toNat 0 7) s
      else setFlag Reg.pwrStatus.base 6 s := by
  unfold requestLimit
  rw [if_neg (fun h => by cases h.1), gate_pass (mayWrite_of_free _ _ regAt_pwrLimit rfl rfl hs)]

/-- The control complex may not write the ceiling. -/
theorem requestLimit_complex {v : Word} {s : State} (hs : silent s Reg.pwrLimit.base true = false) :
    requestLimit .complex v s = setFlag Reg.glbStatus.base 3 (setFlag Reg.pwrStatus.base 6 s) := by
  unfold requestLimit
  dsimp only
  have hboot : bootState (setFlag Reg.pwrStatus.base 6 s) = bootState s := rdF_wr_other _ _ _ _ _ _ (by decide)
  have hs' : silent (setFlag Reg.pwrStatus.base 6 s) Reg.pwrLimit.base true = false := by
    rw [← hs, silent, inRecovery, hboot]
    rfl
  rw [if_pos ⟨rfl, hs⟩, gate, pass_wrongWriter _ hs' regAt_pwrLimit rfl]
  exact if_neg (by decide)

theorem pwrLimitWrite_gives {w : Writer} {v : Word} {s t : State} (hq : Quiet s) (h : requestLimit w v s = t) (ht : t.tasks = s.tasks) :
    Gives (.pwrLimitWrite w v) s t := by
  refine gives_of_effect (by unfold exec; rfl) hq ?_ ht
  rw [requestLimit_setPending, h]

/-- What a supply's excursion does to the backup cell's memory. -/
def supplyMark (flag : ℕ) (s : State) : State := modPwr (fun p => { p with vbakOk := p.vbakOk && flag != 5 }) s

/-- A supply's excursion, by the reset in force. -/
theorem supplyExcursion_gives {flag : ℕ} {s : State} (hq : Quiet s) (h3 : 3 ≤ flag) (h5 : flag ≤ 5) :
    Gives (.supplyExcursion flag) s (if wideUp s then
      postEvent 0x0F 4 0 0 0 (leBytes 1 flag) (bump Reg.pwrSnapCnt.base 7 (setFlag Reg.pwrStatus.base flag (supplyMark flag s)))
      else supplyMark flag s) := by
  refine gives_of_effect (by unfold exec; rfl) hq ?_ ?_
  · refine (if_neg (by omega)).trans ?_
    by_cases hw : wideUp s = true
    · have hw' : ¬(!wideUp (setPending [] (supplyMark flag s))) = true := by
        show ¬(!wideUp s) = true
        simp [hw]
      refine (if_neg hw').trans ?_
      rw [if_pos hw, ← postEvent_setPending]
      rfl
    · have hw' : (!wideUp (setPending [] (supplyMark flag s))) = true := by
        show (!wideUp s) = true
        simpa using hw
      refine (if_pos hw').trans ?_
      rw [if_neg hw]
      rfl
  · split
    · rw [postEvent_tasks]
      rfl
    · rfl

/-- Settles O30: each row by its demand, and what the levels leave. -/
theorem ceilingAndThrottle : Obligations.CeilingAndThrottle := by
  intro m s hq
  refine ⟨fun hu hp hm => ?_, fun hu hp hm => ?_, fun hu hp hm => ?_, fun hu hp hl => ?_, fun hu ht hp => ?_, fun hu hm hd => ?_,
    fun hu => ⟨gives_of_wide_down (by unfold exec; rfl) hu hq, gives_of_wide_down (by unfold exec; rfl) hu hq,
      gives_of_wide_down (by unfold exec; rfl) hu hq, gives_of_wide_down (by unfold exec; rfl) hu hq⟩,
    fun l t ht => ?_, fun l t ht => ?_, fun v hs h25 h110 => ?_, fun v hs hout => ?_,
    fun v hs => pwrLimitWrite_gives hq (requestLimit_complex hs) rfl, fun flag h3 h5 hw => ?_, fun flag h3 h5 hw => ?_⟩
  · refine gives_of_wide (by unfold exec; rfl) hu hq ?_ (by rw [setPowerLevel_tasks, noteMeter_tasks])
    simp only [noteMeter_setPending, ceiling_setPending, ceiling_noteMeter, if_pos hp, if_neg (not_le.mpr hm), setPowerLevel_setPending]
    rw [← noteMeter_pwr m s]
    rfl
  · refine gives_of_wide (by unfold exec; rfl) hu hq ?_ (by rw [setThermalLevel_tasks, noteMeter_tasks])
    simp only [noteMeter_setPending, ceiling_setPending, ceiling_noteMeter, if_neg (Nat.not_lt.mpr hp), if_pos hm, setThermalLevel_setPending]
    rw [← noteMeter_pwr m s]
    rfl
  · refine gives_of_wide (by unfold exec; rfl) hu hq ?_ (by rw [setThermalLevel_tasks, setPowerLevel_tasks, noteMeter_tasks])
    have hT : s.pwr.levelT = (setPowerLevel (min 7 (s.pwr.levelP + 1)) (noteMeter m s)).pwr.levelT := by
      rw [setPowerLevel_pwr, noteMeter_pwr]
    simp only [noteMeter_setPending, ceiling_setPending, ceiling_noteMeter, if_pos hp, if_pos hm, setPowerLevel_setPending,
      setThermalLevel_setPending]
    rw [hT, ← noteMeter_pwr m s]
    rfl
  · refine gives_of_wide (by unfold exec; rfl) hu hq ?_ (by rw [setPowerLevel_tasks, noteMeter_tasks])
    have hgo : m.power * 100 < ceiling (noteMeter m s) * 97 ∧ (noteMeter m s).pwr.levelP ≠ 0 := by
      rw [ceiling_noteMeter, noteMeter_pwr]
      exact ⟨hp, hl⟩
    rw [noteMeter_setPending]
    refine (if_pos hgo).trans ?_
    rw [setPowerLevel_setPending, ← noteMeter_pwr m s]
    rfl
  · refine gives_of_wide (by unfold exec; rfl) hu hq ?_ (by rw [postEvent_tasks, setFlag_tasks, noteMeter_tasks])
    have hgo : throttle (noteMeter m s) = 7 ∧ ceiling (noteMeter m s) < m.power := by
      rw [ceiling_noteMeter, throttle_noteMeter]
      exact ⟨ht, hp⟩
    rw [noteMeter_setPending]
    refine (if_pos hgo).trans ?_
    rw [← postEvent_setPending]
    rfl
  · refine gives_of_wide (by unfold exec; rfl) hu hq ?_ (by rw [setThermalLevel_tasks, noteMeter_tasks])
    have hgo : m.eboux ≤ 103 ∧ (noteMeter m s).pwr.demandT = true := by
      rw [noteMeter_pwr]
      exact ⟨hm, hd⟩
    rw [noteMeter_setPending]
    refine (if_pos hgo).trans ?_
    rw [setThermalLevel_setPending]
  · have hpwr : t.pwr = { s.pwr with levelP := l, demandP := l != 0 } := by rw [ht, setPowerLevel_pwr]
    refine ⟨hpwr, ?_, fun h0 hl => ?_⟩
    · rw [throttle, hpwr]
    · rw [ht]
      exact flagOf_setPowerLevel h0 hl
  · refine ⟨by rw [ht, setThermalLevel_pwr], fun h0 hl => ?_⟩
    rw [ht]
    exact flagOf_setThermalLevel h0 hl
  · exact pwrLimitWrite_gives hq ((requestLimit_host hs).trans (if_pos ⟨h25, h110⟩)) rfl
  · exact pwrLimitWrite_gives hq ((requestLimit_host hs).trans (if_neg (by omega))) rfl
  · have h := supplyExcursion_gives hq h3 h5
    rwa [if_pos hw] at h
  · have h := supplyExcursion_gives hq h3 h5
    rwa [if_neg (by rw [hw]; decide)] at h

end Sys2Proof.Machine
end

