-- ==== Sys2Proof/Proofs/Governor.lean ====
section
/-! The governor's update. -/

namespace Sys2Proof.Machine

open Sys2Proof

/-! ## The governor -/

/-- The counters of a governor's update: one update, and one more where the clock rises or falls. -/
def govCount (now f : ℕ) (s : State) : State :=
  if now < f then bump Reg.pwrSnapCnt.base 1 s else if f < now then bump Reg.pwrSnapCnt.base 2 s else s

/-- What a governor's update leaves before it sets the clocks (R507, R508). -/
def govSeen (p : ℕ × ℕ) (s : State) : State :=
  busySeen (wr Reg.pwrGovView.base (p.1 + p.2 * 256 + govDMin s * 65536) (govCount (govNow s) p.1 (bump Reg.pwrSnapCnt.base 0 s)))

/-- The clock that the governor asks for and the bound that gives it. -/
def govChoice (s : State) : ℕ × ℕ := if rdB s Reg.pwrCtl.base 0 then govNext s else (govMax s, rdF s Reg.pwrGovView.base 8 2)

theorem govCount_eq (now f : ℕ) (s : State) : govCount now f s = { s with ctr := (govCount now f s).ctr } := by
  unfold govCount
  split
  · rfl
  · split <;> rfl

theorem govCount_setPending (now f : ℕ) (q : List Instr) (s : State) : govCount now f (setPending q s) = setPending q (govCount now f s) := by
  unfold govCount
  split
  · rfl
  · split <;> rfl

theorem govSeen_frame (p : ℕ × ℕ) (s : State) :
    govSeen p s = { s with regs := (govSeen p s).regs, ctr := (govSeen p s).ctr, pwr := (govSeen p s).pwr } := by
  unfold govSeen
  rw [govCount_eq]
  rfl

theorem rdW_govSeen {r : ℕ} (p : ℕ × ℕ) (s : State) (h : r ≠ Reg.pwrGovView.base) : rdW (govSeen p s) r = rdW s r := by
  refine (rdW_wr_other _ _ _ _ h).trans ?_
  rw [govCount_eq]
  rfl

/-- The update marks the busy counts that it has seen. -/
theorem govSeen_pwr (p : ℕ × ℕ) (s : State) :
    (govSeen p s).pwr = { s.pwr with busyAt := (List.range 17).map fun n => ctrOf s (Reg.tcCnt.off n 1), skip := 0 } := by
  have hne (n i : ℕ) (hi : i < 3) : Reg.tcCnt.off n 1 ≠ Reg.pwrSnapCnt.base + 4 * i := by
    show 0x90110 + n * 64 + 1 * 4 ≠ 0x40040 + 4 * i
    omega
  have hcount (n : ℕ) : ctrOf (govCount (govNow s) p.1 (bump Reg.pwrSnapCnt.base 0 s)) (Reg.tcCnt.off n 1) = ctrOf s (Reg.tcCnt.off n 1) := by
    have h0 : ctrOf (bump Reg.pwrSnapCnt.base 0 s) (Reg.tcCnt.off n 1) = ctrOf s (Reg.tcCnt.off n 1) :=
      ctrOf_count_other _ _ _ _ (hne n 0 (by decide))
    unfold govCount
    split
    · exact (ctrOf_count_other _ _ _ _ (hne n 1 (by decide))).trans h0
    · split
      · exact (ctrOf_count_other _ _ _ _ (hne n 2 (by decide))).trans h0
      · exact h0
  have hpwr : (govCount (govNow s) p.1 (bump Reg.pwrSnapCnt.base 0 s)).pwr = s.pwr := by
    rw [govCount_eq]
    rfl
  rw [← hpwr, ← funext hcount]
  rfl

theorem govSeen_setPending (p : ℕ × ℕ) (q : List Instr) (s : State) : govSeen p (setPending q s) = setPending q (govSeen p s) := by
  rw [govSeen, bump_setPending, govNow_setPending, govCount_setPending, govDMin_setPending, wr_setPending, busySeen_setPending, govSeen]

/-- A governor's update outside deterministic mode. -/
theorem governorUpdate_gives {s : State} (hq : Quiet s) (hu : cpUp s 3 = true) (hd : detMode s = false) :
    Gives .governorUpdate s (setAllPoints (govChoice s).1 (govSeen (govChoice s) s)) := by
  refine gives_of_effect (by unfold exec; rfl) hq ?_ ?_
  · have hup : ¬(!cpUp (setPending [] s) 3) = true := by simp [hu]
    have hdet : ¬detMode (setPending [] s) = true := by simp [hd]
    refine (if_neg hup).trans ((if_neg hdet).trans ?_)
    rw [← setAllPoints_setPending]
    rw [← govSeen_setPending]
    rfl
  · rw [setAllPoints_tasks, govSeen_frame]

/-- Settles O31: the modes of the governor, and the bounds of the clock that it asks for. -/
theorem governorSetsOneClock : Obligations.GovernorSetsOneClock := by
  intro s hq hu
  have hnext : (govNext s) = if flagOf s Reg.pwrStatus.base 1 then (max (govMin s) (govNow s - 1), 3)
      else (max (govTarget s).1 (govNow s - max 1 (rdF s Reg.pwrGov2.base 16 8)), (govTarget s).2) := rfl
  have hmin : govMin s ≤ (govTarget s).1 := le_max_left _ _
  refine ⟨fun hd => ?_, fun hd hen => ?_, fun hd hen => ?_, ?_, fun hf => ?_, fun hf hle => ?_⟩
  · refine gives_of_effect (by unfold exec; rfl) hq ?_ (setAllPoints_tasks _ _)
    have hup : ¬(!cpUp (setPending [] s) 3) = true := by simp [hu]
    refine (if_neg hup).trans ((if_pos hd).trans ?_)
    rw [← setAllPoints_setPending]
    rfl
  · have h := governorUpdate_gives hq hu hd
    rw [govChoice, if_pos hen] at h
    exact ⟨govSeen (govNext s) s, h, rd_wr_same _ _ _, govSeen_pwr _ s, govSeen_frame _ s, fun r hr => rdW_govSeen _ s hr⟩
  · have h := governorUpdate_gives hq hu hd
    rw [govChoice, if_neg (ne_true_of_eq_false hen)] at h
    exact ⟨govSeen (govMax s, rdF s Reg.pwrGovView.base 8 2) s, h, govSeen_frame _ s, fun r hr => rdW_govSeen _ s hr⟩
  · rw [hnext]
    split
    · exact le_max_left _ _
    · exact hmin.trans (le_max_left _ _)
  · rw [hnext, hf]
    exact le_max_right _ _
  · exact max_le hle (min_le_left _ _)

end Sys2Proof.Machine
end

