-- ==== Sys2Proof/Proofs/Links.lean ====
section
/-! Port controls, links and the control mailbox. -/

namespace Sys2Proof.Machine

open Sys2Proof

/-! ## Words of the port controls -/

/-- What a mask does not cover may be set without effect. -/
theorem setBits_and_of_clear {n lo w v m : ℕ} (h : ∀ i, lo ≤ i → i < lo + w → m.testBit i = false) : setBits n lo w v &&& m = n &&& m := by
  refine Nat.eq_of_testBit_eq fun i => ?_
  rw [Nat.testBit_and, Nat.testBit_and, testBit_setBits]
  split
  · next hi => rw [h i hi.1 hi.2, Bool.and_false, Bool.and_false]
  · rfl

theorem testBit_setBits_one (n i j : ℕ) (b : Bool) : (setBits n i 1 (b2n b)).testBit j = if j = i then b else n.testBit j := by
  rw [testBit_setBits]
  by_cases h : j = i
  · subst h
    rw [if_pos (by omega), if_pos rfl, Nat.sub_self]
    cases b <;> rfl
  · rw [if_neg (by omega), if_neg h]

/-- The parts of a port control that the gates read stand clear of the enable and the gang bit. -/
theorem gateBits_of_ctl (v x : ℕ) (hx : x ≤ 5) : ((v &&& 0xF077A) + x) &&& 0x710 = v &&& 0x710 := by
  have hlow : (v &&& 0xF077A) % 8 ≤ 2 := by
    have h : (v &&& 0xF077A) % 2 ^ 3 = (v % 2 ^ 3) &&& (0xF077A % 2 ^ 3) := Nat.and_mod_two_pow
    have h' : (v &&& 0xF077A) % 8 = (v % 8) &&& 2 := h
    rw [h']
    exact Nat.and_le_right
  have hdiv : ((v &&& 0xF077A) + x) / 8 = (v &&& 0xF077A) / 8 := by omega
  refine Nat.eq_of_testBit_eq fun i => ?_
  rw [Nat.testBit_and, Nat.testBit_and]
  by_cases hi : i < 3
  · have : (0x710 : ℕ).testBit i = false := by
      interval_cases i <;> rfl
    rw [this, Bool.and_false, Bool.and_false]
  · obtain ⟨j, rfl⟩ := Nat.exists_eq_add_of_le (Nat.not_lt.mp hi)
    have hshift (y : ℕ) : y.testBit (3 + j) = (y / 8).testBit j := by
      rw [show (8 : ℕ) = 2 ^ 3 from rfl, Nat.testBit_div_two_pow, Nat.add_comm]
    have hm : ((0xF077A : ℕ).testBit (3 + j) && (0x710 : ℕ).testBit (3 + j)) = (0x710 : ℕ).testBit (3 + j) := by
      rw [← Nat.testBit_and]
      rfl
    rw [hshift ((v &&& 0xF077A) + x), hdiv, ← hshift, Nat.testBit_and, Bool.and_assoc, hm]

/-! ## The port control -/

/-- The word that a write of a port control stores. -/
def ctlWord (n v : ℕ) (en : Bool) : ℕ := (v &&& 0xF077A) + b2n en + 4 * b2n (n % 2 == 0 && bitOf v 2)

theorem gateBits_ctlWord (n v : ℕ) (en : Bool) : ctlWord n v en &&& 0x710 = v &&& 0x710 := by
  rw [ctlWord, Nat.add_assoc]
  refine gateBits_of_ctl v _ ?_
  cases en <;> cases (n % 2 == 0 && bitOf v 2) <;> decide

theorem portCtl_cxp {n : ℕ} (s : State) (hn : n < 12) : portCtl s n = rd s (Reg.cxpCtl.off n 0) := by
  rw [portCtl, portBase, if_pos hn]

section
variable {n v : ℕ} {s : State} (hg : gangHalf s n = false)
  (hbad : (n % 2 == 0 && bitOf v 2 != bitOf (rd s (Reg.cxpCtl.off n 0)) 2 && gangRefused s n (bitOf v 2)) = false)
  (hkeep : v &&& 0x710 = rd s (Reg.cxpCtl.off n 0) &&& 0x710)
include hg hbad hkeep

/-- A write of a port control that touches neither the gates nor, against its rules, the gang bit. -/
theorem writeCxpCtl_eq :
    writeCxpCtl n v s =
      if (bitOf v 0 && !bitOf (rd s (Reg.cxpCtl.off n 0)) 0) = true then
        if cxpRefused s n v = true then wr (Reg.cxpCtl.off n 0) (ctlWord n v false) (setFlag (portStatus n) 2 s)
        else setLink n 1 0 0 (modPort n (fun q => { q with curFmt := none }) (wr (Reg.cxpCtl.off n 0) (ctlWord n v true) s))
      else if (bitOf (rd s (Reg.cxpCtl.off n 0)) 0 && !bitOf v 0) = true then
        wr (Reg.cxpCtl.off n 0) (ctlWord n v false) (setLink n 0 0 (rdF s (Reg.cxpLink.off n 0) 8 4) (endFrames n [] s))
      else wr (Reg.cxpCtl.off n 0) (ctlWord n v (bitOf v 0)) s := by
  have hw (en : Bool) : (v &&& 0xF077A) + b2n en + 4 * b2n (n % 2 == 0 && bitOf v 2) = ctlWord n v en := rfl
  have hgate (en : Bool) : ctlWord n v en &&& 0x710 = rd s (Reg.cxpCtl.off n 0) &&& 0x710 := (gateBits_ctlWord n v en).trans hkeep
  unfold writeCxpCtl
  dsimp only
  rw [hg, hbad]
  simp only [Bool.false_eq_true, if_false, hw, hgate, if_true]
  cases hv : bitOf v 0 <;> cases ho : bitOf (rd s (Reg.cxpCtl.off n 0)) 0 <;> cases hr : cxpRefused s n v <;>
    simp only [Bool.and_false, Bool.and_true, Bool.and_self, Bool.not_true, Bool.not_false, Bool.false_eq_true, if_true, if_false]

theorem writeCxpCtl_rise (hv : bitOf v 0 = true) (ho : bitOf (rd s (Reg.cxpCtl.off n 0)) 0 = false) :
    writeCxpCtl n v s = if cxpRefused s n v = true then wr (Reg.cxpCtl.off n 0) (ctlWord n v false) (setFlag (portStatus n) 2 s)
      else setLink n 1 0 0 (modPort n (fun q => { q with curFmt := none }) (wr (Reg.cxpCtl.off n 0) (ctlWord n v true) s)) := by
  rw [writeCxpCtl_eq hg hbad hkeep, hv, ho]
  exact if_pos rfl

theorem writeCxpCtl_fall (hv : bitOf v 0 = false) (ho : bitOf (rd s (Reg.cxpCtl.off n 0)) 0 = true) :
    writeCxpCtl n v s =
      wr (Reg.cxpCtl.off n 0) (ctlWord n v false) (setLink n 0 0 (rdF s (Reg.cxpLink.off n 0) 8 4) (endFrames n [] s)) := by
  rw [writeCxpCtl_eq hg hbad hkeep, hv, ho, if_neg (by decide)]
  exact if_pos rfl

theorem writeCxpCtl_keeps (hv : bitOf v 0 = bitOf (rd s (Reg.cxpCtl.off n 0)) 0) :
    writeCxpCtl n v s = wr (Reg.cxpCtl.off n 0) (ctlWord n v (bitOf v 0)) s := by
  rw [writeCxpCtl_eq hg hbad hkeep, ← hv, if_neg (by simp), if_neg (by simp)]

end

end Sys2Proof.Machine
end

