-- ==== Sys2Proof/Proofs/Mailbox.lean ====
section
/-! Bytes of numbers, and the buffer of the control mailbox. -/

namespace Sys2Proof.Machine

open Sys2Proof

/-! ## Bytes of numbers -/

theorem ofLe_lt (bs : List Byte) : ofLe bs < 256 ^ bs.length := by
  induction bs with
  | nil => decide
  | cons b bs ih =>
    have hb : b.toNat < 256 := b.isLt
    rw [ofLe, List.length_cons, pow_succ]
    omega

/-- Bytes read as a number and written again. -/
theorem leBytes_ofLe (bs : List Byte) : leBytes bs.length (ofLe bs) = bs := by
  induction bs with
  | nil => rfl
  | cons b bs ih =>
    have hb : b.toNat < 256 := b.isLt
    have hdiv : (b.toNat + 256 * ofLe bs) / 256 = ofLe bs := by omega
    have hhead : BitVec.ofNat 8 (b.toNat + 256 * ofLe bs) = b := by
      refine BitVec.eq_of_toNat_eq ?_
      rw [BitVec.toNat_ofNat]
      omega
    rw [List.length_cons, leBytes, ofLe, hdiv, ih, hhead]

theorem leBytes_leAt {bs : List Byte} {o n : ℕ} (h : o + n ≤ bs.length) : leBytes n (leAt bs o n) = (bs.drop o).take n := by
  have hlen : ((bs.drop o).take n).length = n := by
    rw [List.length_take, List.length_drop]
    omega
  have hb := leBytes_ofLe ((bs.drop o).take n)
  rwa [hlen] at hb

/-- A run of words, each as its bytes, is the run of bytes. -/
theorem flatMap_words (bs : List Byte) (k : ℕ) (h : 4 * k ≤ bs.length) :
    ((List.range k).flatMap fun j => leBytes 4 (leAt bs (4 * j) 4)) = bs.take (4 * k) := by
  induction k with
  | zero => rfl
  | succ k ih =>
    rw [List.range_succ, List.flatMap_append, ih (by omega), List.flatMap_singleton, leBytes_leAt (by omega),
      show 4 * (k + 1) = 4 * k + 4 from rfl, List.take_add]

/-! ## The mailbox buffer -/

/-- A run of bytes put into the mailbox buffer. -/
def putBuf (n : ℕ) (bs : List Byte) (s : State) : State :=
  (List.range 16).foldl (fun s j => wr (Reg.cxpCcBuf.off n j) (leAt bs (4 * j) 4) s) s

theorem cxpCcBuf_inj {n i j : ℕ} (h : i ≠ j) : Reg.cxpCcBuf.off n i ≠ Reg.cxpCcBuf.off n j := by
  show 0xE0140 + n * 256 + i * 4 ≠ 0xE0140 + n * 256 + j * 4
  omega

/-- A register of a state that a run of writes leaves. -/
theorem rd_foldl_wr {f : ℕ → ℕ} {v : ℕ → ℕ} (hf : ∀ i j, i ≠ j → f i ≠ f j) (k i : ℕ) (s : State) (hi : i < k) :
    rd ((List.range k).foldl (fun s j => wr (f j) (v j) s) s) (f i) = v i % 2 ^ 32 := by
  induction k with
  | zero => omega
  | succ k ih =>
    rw [List.range_succ, List.foldl_append, List.foldl_cons, List.foldl_nil]
    by_cases h : i = k
    · subst h
      exact rd_wr_same _ _ _
    · rw [rd_wr_other _ _ _ _ (hf i k h)]
      exact ih (by omega)

theorem putBuf_regs (n : ℕ) (bs : List Byte) (s : State) : putBuf n bs s = { s with regs := (putBuf n bs s).regs } := by
  have h (k : ℕ) : (List.range k).foldl (fun s j => wr (Reg.cxpCcBuf.off n j) (leAt bs (4 * j) 4) s) s =
      { s with regs := ((List.range k).foldl (fun s j => wr (Reg.cxpCcBuf.off n j) (leAt bs (4 * j) 4) s) s).regs } := by
    induction k with
    | zero => rfl
    | succ k ih =>
      rw [List.range_succ, List.foldl_append, ih]
      rfl
  exact h 16

/-- The bytes that the buffer holds, in another state where its words read alike. -/
theorem ccData_congr {n : ℕ} {s t : State} (h : ∀ j < 16, rd t (Reg.cxpCcBuf.off n j) = rd s (Reg.cxpCcBuf.off n j)) (len : ℕ) :
    ccData t n len = ccData s n len := by
  unfold ccData
  rw [List.flatMap_congr fun j hj => by rw [h j (List.mem_range.mp hj)]]

theorem length_ccData (s : State) (n : ℕ) : (ccData s n 64).length = 64 := by
  unfold ccData
  rw [List.length_take, List.length_flatMap]
  simp [length_leBytes]

/-- What was put into the buffer reads back. -/
theorem ccData_putBuf {n : ℕ} {bs : List Byte} {s : State} (h : bs.length = 64) : ccData (putBuf n bs s) n 64 = bs := by
  have hword (j : ℕ) (hj : j < 16) : rd (putBuf n bs s) (Reg.cxpCcBuf.off n j) = leAt bs (4 * j) 4 := by
    have hlt := ofLe_lt ((bs.drop (4 * j)).take 4)
    have hlen : ((bs.drop (4 * j)).take 4).length = 4 := by
      rw [List.length_take, List.length_drop]
      omega
    rw [hlen] at hlt
    exact (rd_foldl_wr (v := fun j => leAt bs (4 * j) 4) (fun i j hij => cxpCcBuf_inj hij) 16 j s hj).trans (Nat.mod_eq_of_lt hlt)
  unfold ccData
  rw [List.flatMap_congr fun j hj => by rw [hword j (List.mem_range.mp hj)], flatMap_words bs 16 (by omega), List.take_take]
  exact List.take_of_length_le (by omega)

end Sys2Proof.Machine
end

