-- ==== Sys2Proof/Proofs/PortLinks.lean ====
section
/-! Rows of the camera ports' links and mailboxes. -/

namespace Sys2Proof.Machine

open Sys2Proof

/-! ## Rows of the camera ports' links -/

theorem endFrames_tasks (p : ℕ) (flags : List ℕ) (s : State) : (endFrames p flags s).tasks = s.tasks := by
  unfold endFrames
  dsimp only
  rw [modPort_tasks, closeFrame_tasks, modPort_tasks, portCount_tasks]

theorem writeCxpCtl_tasks (n v : ℕ) (s : State) : (writeCxpCtl n v s).tasks = s.tasks := by
  unfold writeCxpCtl
  simp only [apply_ite State.tasks, setLink_tasks, modPort_tasks, passGates_tasks, wr_tasks, endFrames_tasks, setFlag_tasks, ite_self]

/-- A row that writes a port's control. -/
theorem cxpCtl_gives {c : Instr} {w : Writer} {n v : ℕ} {s t : State} (hq : Quiet s) (hm : MayWrite s w (Reg.cxpCtl.off n 0) 0)
    (hc : ∃ f, exec c s = run f s ∧ f (setPending [] s) = gate w (Reg.cxpCtl.off n 0) 0 (writeCxpCtl n v) (setPending [] s))
    (ht : writeCxpCtl n v s = t) : Gives c s t := by
  obtain ⟨f, hc, hf⟩ := hc
  refine gives_of_effect hc hq ?_ (by rw [← ht, writeCxpCtl_tasks])
  rw [hf, gate_pass_pending [] hm, writeCxpCtl_setPending, ht]

theorem setLink_cases {n st up speed : ℕ} {s : State} :
    setLink n st up speed s =
      if st = 2 ∧ linkState s n ≠ 2 then linkEvent n 1 speed up (setFlag (portStatus n) 0 (wr (Reg.cxpLink.off n 0) (st + up * 16 + speed * 256) s))
      else if linkState s n = 2 ∧ st ≠ 2 then
        linkEvent n 2 speed up (setFlag (portStatus n) 1 (wr (Reg.cxpLink.off n 0) (st + up * 16 + speed * 256) s))
      else wr (Reg.cxpLink.off n 0) (st + up * 16 + speed * 256) s := rfl

theorem portCode_cxp {n : ℕ} (hn : n < 12) : portCode n = n := if_pos hn

theorem cxpCcStat_ne_ctl (n : ℕ) : Reg.cxpCcStat.off n 0 ≠ Reg.cxpCcCtl.off n 0 := by
  show 0xE0128 + n * 256 + 0 * 0 ≠ 0xE0124 + n * 256 + 0 * 0
  omega

theorem cxpCcAddr_ne_ctl (n : ℕ) : Reg.cxpCcAddr.off n 0 ≠ Reg.cxpCcCtl.off n 0 := by
  show 0xE0120 + n * 256 + 0 * 0 ≠ 0xE0124 + n * 256 + 0 * 0
  omega

theorem cxpCcBuf_ne_ctl (n j : ℕ) : Reg.cxpCcBuf.off n j ≠ Reg.cxpCcCtl.off n 0 := by
  show 0xE0140 + n * 256 + j * 4 ≠ 0xE0124 + n * 256 + 0 * 0
  omega

theorem cxpCcBuf_ne_stat (n j : ℕ) : Reg.cxpCcBuf.off n j ≠ Reg.cxpCcStat.off n 0 := by
  show 0xE0140 + n * 256 + j * 4 ≠ 0xE0128 + n * 256 + 0 * 0
  omega

theorem portStatus_cxp {n : ℕ} (hn : n < 12) : portStatus n = 0xE0104 + n * 256 := by
  rw [portStatus, portBase, if_pos hn]
  show 0xE0100 + n * 256 + 0 * 0 + 4 = _
  omega

/-- A write of a mailbox's control by what it asks for. -/
theorem writeCcCtl_eq {n : ℕ} {v : Word} {s t : State} (hn : n < 12) (ht : t = wr (Reg.cxpCcCtl.off n 0) (v.toNat &&& 0xFFFF7F02) s) :
    writeCcCtl n v.toNat s =
      if v.getLsbD 0 = false ∨ gangHalf s n = true then t
      else if ccBusy s n = true then setFlag (portStatus n) 12 t
      else if bits v.toNat 8 7 = 0 then setFlag (portStatus n) 11 (wr (Reg.cxpCcStat.off n 0) 0 t)
      else if 64 < bits v.toNat 8 7 then setFlag (portStatus n) 12 t
      else emit (.camCommand n (bits v.toNat 8 7) (rd s (Reg.cxpCcAddr.off n 0)) (v.getLsbD 1) (if v.getLsbD 1 then ccData s n (bits v.toNat 8 7) else []))
        (wrF (Reg.cxpCcStat.off n 0) 0 1 1 (modPort n (fun q => { q with ccWrite := v.getLsbD 1, ccLen := bits v.toNat 8 7 }) t)) := by
  have hbusy : ccBusy t n = ccBusy s n := by
    rw [ht, ccBusy, rdB, rd_wr_other _ _ _ _ (cxpCcStat_ne_ctl n), ← rdB, ← ccBusy]
  have haddr : rd t (Reg.cxpCcAddr.off n 0) = rd s (Reg.cxpCcAddr.off n 0) := by rw [ht, rd_wr_other _ _ _ _ (cxpCcAddr_ne_ctl n)]
  have hdata (len : ℕ) : ccData t n len = ccData s n len :=
    ccData_congr (fun j _ => by rw [ht, rd_wr_other _ _ _ _ (cxpCcBuf_ne_ctl n j)]) len
  have hgang : gangHalf t n = gangHalf s n := by
    have hne : Reg.cxpCtl.off (2 * (n / 2)) 0 ≠ Reg.cxpCcCtl.off n 0 := by
      show 0xE0100 + 2 * (n / 2) * 256 + 0 * 0 ≠ 0xE0124 + n * 256 + 0 * 0
      omega
    have hctl : portCtl t (2 * (n / 2)) = portCtl s (2 * (n / 2)) := by
      rw [portCtl_cxp t (by omega), portCtl_cxp s (by omega), ht, rd_wr_other _ _ _ _ hne]
    rw [gangHalf, ganged, hctl, ← ganged, ← gangHalf]
  have hv (i : ℕ) : bitOf v.toNat i = v.getLsbD i := rfl
  unfold writeCcCtl
  dsimp only
  rw [← ht, hgang, hbusy, haddr, hdata, hv, hv]
  cases v.getLsbD 0 <;> cases gangHalf s n <;> cases ccBusy s n <;> rfl

/-- What one bit set in a port's control leaves of the word that a write stores. -/
theorem ctlWord_setBit {n old i : ℕ} (b en : Bool) (hi : i = 0 ∨ i = 2) :
    ctlWord n (setBits old i 1 (b2n b)) en = (old &&& 0xF077A) + b2n en + 4 * b2n (n % 2 == 0 && if 2 = i then b else bitOf old 2) := by
  have hmask : setBits old i 1 (b2n b) &&& 0xF077A = old &&& 0xF077A := setBits_and_of_clear fun j h1 h2 => by
    obtain rfl : j = i := by omega
    rcases hi with rfl | rfl <;> rfl
  rw [ctlWord, hmask, bitOf, testBit_setBits_one]
  rfl

theorem gateBits_setBit {old i : ℕ} (b : Bool) (hi : i < 3) : setBits old i 1 (b2n b) &&& 0x710 = old &&& 0x710 :=
  setBits_and_of_clear fun j h1 h2 => by
    obtain rfl : j = i := by omega
    interval_cases j <;> rfl

theorem cxpRefused_setBit {n old i : ℕ} (s : State) (b : Bool) (hi : i < 3) : cxpRefused s n (setBits old i 1 (b2n b)) = cxpRefused s n old := by
  rw [cxpRefused, cxpRefused, bits_setBits_other _ _ _ _ _ _ (.inr (by omega))]

/-- The rows of the port's control, by the bit that they write. -/
theorem cameraPortControls {w : Writer} {n old : ℕ} {s : State} (hq : Quiet s) (hn : n < 12) (hold : old = rd s (Reg.cxpCtl.off n 0))
    (hm : MayWrite s w (Reg.cxpCtl.off n 0) 0) :
    (gangHalf s n = false → bitOf old 0 = false → cxpRefused s n old = false → Gives (.cxpPortEnable w n) s
        (setLink n 1 0 0 (modPort n (fun q => { q with curFmt := none })
          (wr (Reg.cxpCtl.off n 0) ((old &&& 0xF077A) + 1 + 4 * b2n (n % 2 == 0 && bitOf old 2)) s))))
    ∧ (gangHalf s n = false → bitOf old 0 = false → cxpRefused s n old = true → Gives (.cxpPortEnable w n) s
        (wr (Reg.cxpCtl.off n 0) ((old &&& 0xF077A) + 4 * b2n (n % 2 == 0 && bitOf old 2)) (setFlag (portStatus n) 2 s)))
    ∧ (gangHalf s n = false → bitOf old 0 = true → Gives (.cxpPortDisable w n) s
        (wr (Reg.cxpCtl.off n 0) ((old &&& 0xF077A) + 4 * b2n (n % 2 == 0 && bitOf old 2))
          (setLink n 0 0 (rdF s (Reg.cxpLink.off n 0) 8 4) (endFrames n [] s))))
    ∧ (∀ on, gangHalf s n = false → Gives (.cxpPowerEnable w n on) s
        (wr (Reg.cxpCtl.off n 0) ((setBits old 1 1 (b2n on) &&& 0xF077A) + b2n (bitOf old 0) + 4 * b2n (n % 2 == 0 && bitOf old 2)) s)) := by
  have hctl : portCtl (setPending [] s) n = old := (portCtl_cxp s hn).trans hold.symm
  have hrow {c : Instr} {t : State} (i : ℕ) (b : Bool)
      (hc : ∃ f, exec c s = run f s ∧ f (setPending [] s) =
        gate w (Reg.cxpCtl.off n 0) 0 (writeCxpCtl n (setBits (portCtl (setPending [] s) n) i 1 (b2n b))) (setPending [] s))
      (ht : writeCxpCtl n (setBits old i 1 (b2n b)) s = t) : Gives c s t := by
    rw [hctl] at hc
    exact cxpCtl_gives hq hm hc ht
  have hbit (i j : ℕ) (b : Bool) : bitOf (setBits old i 1 (b2n b)) j = if j = i then b else bitOf old j := testBit_setBits_one old i j b
  have hok (i : ℕ) (b : Bool) (hi : i < 2) : (n % 2 == 0 && bitOf (setBits old i 1 (b2n b)) 2 != bitOf (rd s (Reg.cxpCtl.off n 0)) 2
      && gangRefused s n (bitOf (setBits old i 1 (b2n b)) 2)) = false := by
    rw [← hold, hbit, if_neg (by omega)]
    simp
  have hkeep (i : ℕ) (b : Bool) (hi : i < 2) : setBits old i 1 (b2n b) &&& 0x710 = rd s (Reg.cxpCtl.off n 0) &&& 0x710 := by
    rw [← hold]
    exact gateBits_setBit b (by omega)
  have hword (b en : Bool) : ctlWord n (setBits old 0 1 (b2n b)) en = (old &&& 0xF077A) + b2n en + 4 * b2n (n % 2 == 0 && bitOf old 2) := by
    rw [ctlWord_setBit _ _ (.inl rfl), if_neg (by decide)]
  refine ⟨fun hg ho hr => hrow 0 true ⟨_, by unfold exec; rfl, if_neg (Nat.not_le.mpr hn)⟩ ?_,
    fun hg ho hr => hrow 0 true ⟨_, by unfold exec; rfl, if_neg (Nat.not_le.mpr hn)⟩ ?_,
    fun hg ho => hrow 0 false ⟨_, by unfold exec; rfl, if_neg (Nat.not_le.mpr hn)⟩ ?_,
    fun on hg => hrow 1 on ⟨_, by unfold exec; rfl, if_neg (Nat.not_le.mpr hn)⟩ ?_⟩
  · rw [writeCxpCtl_rise hg (hok 0 true (by decide)) (hkeep 0 true (by decide)) (hbit 0 0 true) (by rw [← hold, ho]),
      cxpRefused_setBit s _ (by decide), if_neg (by simp [hr]), hword, b2n, if_pos rfl]
  · rw [writeCxpCtl_rise hg (hok 0 true (by decide)) (hkeep 0 true (by decide)) (hbit 0 0 true) (by rw [← hold, ho]),
      cxpRefused_setBit s _ (by decide), if_pos hr, hword, b2n, if_neg (by decide), Nat.add_zero]
  · rw [writeCxpCtl_fall hg (hok 0 false (by decide)) (hkeep 0 false (by decide)) (hbit 0 0 false) (by rw [← hold, ho]),
      hword, b2n, if_neg (by decide), Nat.add_zero]
  · have hv : bitOf (setBits old 1 1 (b2n on)) 0 = bitOf old 0 := (hbit 1 0 on).trans (if_neg (by decide))
    have hv2 : bitOf (setBits old 1 1 (b2n on)) 2 = bitOf old 2 := (hbit 1 2 on).trans (if_neg (by decide))
    rw [writeCxpCtl_keeps hg (hok 1 on (by decide)) (hkeep 1 on (by decide)) (by rw [← hold, hv]), ctlWord, hv, hv2]

/-- A port that discovers. -/
theorem discovers {n : ℕ} {s : State} (hn : n < 12) (hu : coreUp s = true) (hl : linkState s n = 1) (hg : gangHalf s n = false) :
    ¬(12 ≤ n ∨ coreUp (setPending [] s) = false ∨ linkState (setPending [] s) n ≠ 1 ∨ gangHalf (setPending [] s) n = true) := by
  rintro (h | h | h | h)
  · omega
  · rw [coreUp_setPending, hu] at h
    cases h
  · exact h hl
  · rw [gangHalf_setPending, hg] at h
    cases h

theorem gangHalf_even (s : State) (m : ℕ) : gangHalf s (2 * m) = false := by
  have h : (2 * m) % 2 = 0 := Nat.mul_mod_right 2 m
  simp [gangHalf, h]

/-- The row of a pair's gang bit. -/
theorem cxpGang_gives {w : Writer} {m old : ℕ} {on : Bool} {s t : State} (hq : Quiet s) (hn : 2 * m < 12)
    (hold : old = rd s (Reg.cxpCtl.off (2 * m) 0)) (hm : MayWrite s w (Reg.cxpCtl.off (2 * m) 0) 0)
    (ht : writeCxpCtl (2 * m) (setBits old 2 1 (b2n on)) s = t) : Gives (.cxpGangWrite w m on) s t := by
  have hgo : ¬6 ≤ m := by omega
  have hctl : portCtl (setPending [] s) (2 * m) = old := (portCtl_cxp s hn).trans hold.symm
  have hc : ∃ f, exec (.cxpGangWrite w m on) s = run f s ∧ f (setPending [] s) = gate w (Reg.cxpCtl.off (2 * m) 0) 0
      (writeCxpCtl (2 * m) (setBits (portCtl (setPending [] s) (2 * m)) 2 1 (b2n on))) (setPending [] s) :=
    ⟨_, by unfold exec; rfl, if_neg hgo⟩
  rw [hctl] at hc
  exact cxpCtl_gives hq hm hc ht

/-- A write of the gang bit that may stand. -/
theorem writeGang_stands {m old : ℕ} {on : Bool} {s : State} (hold : old = rd s (Reg.cxpCtl.off (2 * m) 0))
    (h : bitOf old 2 = on ∨ gangRefused s (2 * m) on = false) :
    writeCxpCtl (2 * m) (setBits old 2 1 (b2n on)) s =
      wr (Reg.cxpCtl.off (2 * m) 0) ((old &&& 0xF077A) + b2n (bitOf old 0) + 4 * b2n on) s := by
  have h2 : bitOf (setBits old 2 1 (b2n on)) 2 = on := (testBit_setBits_one old 2 2 on).trans (if_pos rfl)
  have h0 : bitOf (setBits old 2 1 (b2n on)) 0 = bitOf old 0 := (testBit_setBits_one old 2 0 on).trans (if_neg (by decide))
  have heven : (2 * m) % 2 = 0 := Nat.mul_mod_right 2 m
  have hbad : ((2 * m) % 2 == 0 && bitOf (setBits old 2 1 (b2n on)) 2 != bitOf (rd s (Reg.cxpCtl.off (2 * m) 0)) 2
      && gangRefused s (2 * m) (bitOf (setBits old 2 1 (b2n on)) 2)) = false := by
    rw [← hold, h2]
    rcases h with h | h <;> simp [h]
  rw [writeCxpCtl_keeps (gangHalf_even s m) hbad (by rw [← hold]; exact gateBits_setBit on (by decide)) (by rw [← hold, h0]), h0,
    ctlWord_setBit _ _ (.inr rfl), if_pos rfl, heven, BEq.rfl, Bool.true_and]

/-- A write of the gang bit that may not. -/
theorem writeGang_refused {m old : ℕ} {on : Bool} {s : State} (hold : old = rd s (Reg.cxpCtl.off (2 * m) 0))
    (ho : bitOf old 2 ≠ on) (hr : gangRefused s (2 * m) on = true) :
    writeCxpCtl (2 * m) (setBits old 2 1 (b2n on)) s = setFlag (portStatus (2 * m)) 2 s := by
  have h2 : bitOf (setBits old 2 1 (b2n on)) 2 = on := (testBit_setBits_one old 2 2 on).trans (if_pos rfl)
  have heven : (2 * m) % 2 = 0 := Nat.mul_mod_right 2 m
  have hbad : ((2 * m) % 2 == 0 && bitOf (setBits old 2 1 (b2n on)) 2 != bitOf (rd s (Reg.cxpCtl.off (2 * m) 0)) 2
      && gangRefused s (2 * m) (bitOf (setBits old 2 1 (b2n on)) 2)) = true := by
    rw [← hold, h2, hr, bne_iff_ne.mpr (Ne.symm ho), heven]
    rfl
  unfold writeCxpCtl
  dsimp only
  rw [gangHalf_even, if_neg (by decide)]
  exact if_pos hbad

theorem putBuf_setPending (n : ℕ) (bs : List Byte) (q : List Instr) (s : State) : putBuf n bs (setPending q s) = setPending q (putBuf n bs s) :=
  foldl_setPending _ (fun q s j => rfl) _ _ _

/-- An answer with the bytes of a read: what the buffer then holds. -/
def ackBytes (n : ℕ) (bs : List Byte) (len : ℕ) (s : State) : List Byte := bs.take len ++ (ccData s n 64).drop (min bs.length len)

theorem length_ackBytes {n : ℕ} {bs : List Byte} {len : ℕ} (s : State) (h : len ≤ 64) : (ackBytes n bs len s).length = 64 := by
  rw [ackBytes, List.length_append, List.length_take, List.length_drop, length_ccData]
  omega

/-- What an answer to a read leaves. -/
def acked (n ack : ℕ) (bs : List Byte) (s : State) : State :=
  setFlag (portStatus n) 11 (wr (Reg.cxpCcStat.off n 0) (ack % 256 * 256) (putBuf n bs s))

theorem acked_setPending (n ack : ℕ) (bs : List Byte) (q : List Instr) (s : State) :
    acked n ack bs (setPending q s) = setPending q (acked n ack bs s) := by
  rw [acked, putBuf_setPending, wr_setPending, setFlag_setPending, acked]

theorem acked_frame (n ack : ℕ) (bs : List Byte) (s : State) : acked n ack bs s = { s with regs := (acked n ack bs s).regs } := by
  have h := putBuf_regs n bs s
  unfold acked
  generalize putBuf n bs s = u at h ⊢
  rw [h]
  rfl

theorem ccData_acked {n ack : ℕ} {bs : List Byte} {s : State} (hn : n < 12) (h : bs.length = 64) : ccData (acked n ack bs s) n 64 = bs := by
  have hbuf (j : ℕ) : Reg.cxpCcBuf.off n j ≠ portStatus n := by
    rw [portStatus_cxp hn]
    show 0xE0140 + n * 256 + j * 4 ≠ 0xE0104 + n * 256
    omega
  rw [ccData_congr (s := putBuf n bs s) (fun j _ => ?_), ccData_putBuf h]
  exact (rd_setFlag_other _ _ _ _ (hbuf j)).trans (rd_wr_other _ _ _ _ (cxpCcBuf_ne_stat n j))

theorem rd_acked_stat {n : ℕ} (ack : ℕ) (bs : List Byte) (s : State) (hn : n < 12) :
    rd (acked n ack bs s) (Reg.cxpCcStat.off n 0) = ack % 256 * 256 := by
  have hstat : Reg.cxpCcStat.off n 0 ≠ portStatus n := by
    rw [portStatus_cxp hn]
    show 0xE0128 + n * 256 + 0 * 0 ≠ 0xE0104 + n * 256
    omega
  exact (rd_setFlag_other _ _ _ _ hstat).trans ((rd_wr_same _ _ _).trans (Nat.mod_eq_of_lt (by omega)))

/-- The answer to a read command. -/
theorem cxpCcAck_read {n ack : ℕ} {bs : List Byte} {q : Port} {s : State} (hq : Quiet s) (hn : n < 12) (hbusy : ccBusy s n = true)
    (hqq : q = s.ports.getD n Port.reset) (hw : q.ccWrite = false) :
    ∃ t, Gives (.cxpCcAck n ack bs) s t ∧ t = { s with regs := t.regs } ∧ rd t (Reg.cxpCcStat.off n 0) = ack % 256 * 256
      ∧ flagOf t (portStatus n) 11 = true
      ∧ (q.ccLen ≤ 64 → (ccData t n 64).take (min bs.length q.ccLen) = bs.take (min bs.length q.ccLen)
          ∧ (ccData t n 64).drop (min bs.length q.ccLen) = (ccData s n 64).drop (min bs.length q.ccLen)) := by
  refine ⟨acked n ack (ackBytes n bs q.ccLen s) s, ?_, acked_frame _ _ _ _, rd_acked_stat _ _ _ hn, ?_, fun hlen => ?_⟩
  · refine gives_of_effect (by unfold exec; rfl) hq ?_ (by rw [acked_frame])
    refine (if_neg (by simpa [hbusy] using hn)).trans ?_
    rw [show (setPending [] s).ports.getD n Port.reset = q from hqq.symm]
    dsimp only
    rw [if_neg (by simp [hw]), ← acked_setPending]
    rfl
  · rw [acked, flagOf_setFlag _ _ _ _ (by decide) (by decide)]
    simp
  · have htake : (bs.take q.ccLen).length = min bs.length q.ccLen := by rw [List.length_take, Nat.min_comm]
    rw [ccData_acked hn (length_ackBytes s hlen), ackBytes]
    constructor
    · rw [List.take_left' htake, Nat.min_comm, ← List.take_eq_take_min]
    · rw [List.drop_left' htake]

/-- Settles O40: the rows of the port's control by the bit that they write, then the link, then the mailbox. -/
theorem cameraPortLinks : Obligations.CameraPortLinks := by
  intro w n b old s hq hn hb hold
  subst hb
  have hctl : portCtl s n = old := (portCtl_cxp s hn).trans hold.symm
  have hlow : ¬12 ≤ n := by omega
  have mailbox {v : Word} {t : State} (hm : MayWrite s w (Reg.cxpCcCtl.off n 0) v) (ht : writeCcCtl n v.toNat s = t)
      (htasks : t.tasks = s.tasks) : Gives (.cxpCcGo w n v) s t := by
    refine gives_of_effect (by unfold exec; rfl) hq ?_ htasks
    refine (if_neg hlow).trans ((gate_pass_pending [] hm _).trans ?_)
    rw [writeCcCtl_setPending, ht]
  refine ⟨fun hm hg ho => ⟨fun hr => ?_, fun hr => ?_⟩, fun hm hg ho => ?_, fun on hm hg => ?_, fun m on hnm hm => ⟨fun h => ?_, fun ho hr => ?_⟩,
    fun speed hu hl hg => ⟨?_, ?_⟩, fun hl => ?_, fun st up speed => ⟨fun h1 h2 => ?_, fun h1 h2 => ?_, fun h => ?_⟩,
    fun v len hm hlen => ⟨fun h => ?_, fun h0 hg h => ?_, fun h0 hg hbusy h => ?_, fun h0 hg hbusy hlo hhi => ?_⟩,
    fun ack bs q hbusy hqq => ⟨fun hw => ?_, fun hw => ?_⟩, fun hbusy => ?_⟩
  · obtain ⟨enable, refused, disable, power⟩ := cameraPortControls hq hn hold hm
    exact enable hg ho hr
  · obtain ⟨enable, refused, disable, power⟩ := cameraPortControls hq hn hold hm
    exact refused hg ho hr
  · obtain ⟨enable, refused, disable, power⟩ := cameraPortControls hq hn hold hm
    exact disable hg ho
  · obtain ⟨enable, refused, disable, power⟩ := cameraPortControls hq hn hold hm
    exact power on hg
  · subst hnm
    refine cxpGang_gives hq (by omega) hold hm ?_
    rw [writeGang_stands hold h]
  · subst hnm
    refine cxpGang_gives hq (by omega) hold hm ?_
    exact writeGang_refused hold ho hr
  · refine gives_of_effect (by unfold exec; rfl) hq ?_ (by rw [passGates_tasks, setLink_tasks])
    have hgo := discovers hn hu hl hg
    refine (if_neg hgo).trans ((if_pos rfl).trans ?_)
    rw [← passGates_setPending, ← setLink_setPending, ← hctl]
    rfl
  · refine gives_of_effect (by unfold exec; rfl) hq ?_ (by rw [setLink_tasks])
    have hgo := discovers hn hu hl hg
    refine (if_neg hgo).trans ((if_neg (by decide)).trans ?_)
    rw [← setLink_setPending]
  · refine gives_of_effect (by unfold exec; rfl) hq ?_ (by rw [setLink_tasks, portCount_tasks, endFrames_tasks])
    have hgo : ¬(12 ≤ n ∨ linkState (setPending [] s) n ≠ 2) := not_or.mpr ⟨hlow, not_not.mpr hl⟩
    refine (if_neg hgo).trans ?_
    rw [← setLink_setPending, ← portCount_setPending, ← endFrames_setPending]
    rfl
  · rw [setLink_cases, if_pos ⟨h1, h2⟩, linkEvent, portCode_cxp hn]
  · rw [setLink_cases, if_neg (fun h => h1 h.1), if_pos ⟨h2, h1⟩, linkEvent, portCode_cxp hn]
  · rw [setLink_cases, if_neg (fun h' => h'.2 (h.mp h'.1)), if_neg (fun h' => h'.2 (h.mpr h'.1))]
  · refine mailbox hm ((writeCcCtl_eq hn rfl).trans (if_pos h)) rfl
  · have hno : ¬(v.getLsbD 0 = false ∨ gangHalf s n = true) := by simp [h0, hg]
    refine mailbox hm ((writeCcCtl_eq hn rfl).trans ((if_neg hno).trans ?_)) rfl
    split
    · rfl
    · next hb =>
      have h64 : 64 < bits v.toNat 8 7 := by
        rw [← hlen]
        exact h.resolve_left hb
      rw [if_neg (by omega), if_pos h64]
  · have hno : ¬(v.getLsbD 0 = false ∨ gangHalf s n = true) := by simp [h0, hg]
    refine mailbox hm ((writeCcCtl_eq hn rfl).trans ((if_neg hno).trans ?_)) rfl
    rw [if_neg (by simp [hbusy]), if_pos (hlen.symm.trans h)]
  · have hno : ¬(v.getLsbD 0 = false ∨ gangHalf s n = true) := by simp [h0, hg]
    refine mailbox hm ((writeCcCtl_eq hn rfl).trans ((if_neg hno).trans ?_)) rfl
    rw [if_neg (by simp [hbusy]), ← hlen, if_neg (by omega), if_neg (by omega)]
  · refine gives_of_effect (by unfold exec; rfl) hq ?_ rfl
    refine (if_neg (by simpa [hbusy] using hn)).trans ?_
    rw [show (setPending [] s).ports.getD n Port.reset = q from hqq.symm]
    dsimp only
    rw [if_pos hw]
    rfl
  · exact cxpCcAck_read hq hn hbusy hqq hw
  · refine gives_of_effect (by unfold exec; rfl) hq ?_ rfl
    exact if_neg (by simpa [hbusy] using hn)

end Sys2Proof.Machine
end

