-- ==== Sys2Proof/Proofs/Lines.lean ====
section
/-! Lines of the camera ports. -/

namespace Sys2Proof.Machine

open Sys2Proof

/-! ## What lines leave: the tasks, and the queue of commands -/

theorem storeLine_tasks (p : ℕ) (f : Frame) (px : List ℕ) (s : State) : (storeLine p f px s).2.tasks = s.tasks := by
  unfold storeLine
  split
  · rfl
  · exact writeAll_tasks _ _ _ s

theorem takeLines_tasks (p : ℕ) (s : State) : (takeLines p s).tasks = s.tasks := by
  unfold takeLines
  dsimp only
  split
  · rfl
  split
  · rfl
  split
  · rfl
  · next v _ _ f _ =>
    have h (l : List StoredLine) (a : List (List ℕ) × State) :
        (l.foldl (fun a l => (a.1 ++ [(fetchLine p f l a.2).1], (fetchLine p f l a.2).2)) a).2.tasks = a.2.tasks := by
      induction l generalizing a with
      | nil => rfl
      | cons x l ih => exact (ih _).trans (fetchLine_tasks p f x a.2)
    exact h f.lines ([], s)

/-- A frame that its port has no room for begins to drop (R309). -/
def noteDrop (p : ℕ) (f : Frame) (s : State) : State :=
  if f.sink.isSome || takesNow s p f || storeRoom s p f then s
  else
    let t := s |> flagFrame p 3 |> portCount p 4 1 |> (fun s => if f.dropAt.isNone then portCount p 5 1 s else s)
    modOpen p (fun f => { f with dropping := true, dropAt := some (f.dropAt.getD f.received) }) t

/-- A line that is not as wide as its frame is flagged and counted (R307). -/
def noteWidth (p : ℕ) (f : Frame) (px : List ℕ) (s : State) : State :=
  if px.length < f.width * rawChans f.fmt then s |> flagFrame p 1 |> portCount p 10 1 |> modOpen p (fun f => { f with short := f.short + 1 })
  else if f.width * rawChans f.fmt < px.length then s |> flagFrame p 2 |> portCount p 10 1 |> modOpen p (fun f => { f with long := f.long + 1 })
  else s

/-- A line as wide as its frame (R307). -/
def fitLine (f : Frame) (px : List ℕ) : List ℕ :=
  (px ++ List.replicate (f.width * rawChans f.fmt - px.length) f.fill).take (f.width * rawChans f.fmt)

/-- A line goes to the frame's sink, straight to the pipeline or into the store (R308, R341). -/
def putLine (p : ℕ) (f : Frame) (line : List ℕ) (s : State) : State :=
  match f.sink with
  | some c => s |> modOpen p (fun f => { f with delivered := f.delivered + 1 }) |> count (Reg.ispSnapCnt.off (pipeOf s p).1 c) 1
  | none =>
    let r := if takesNow s p f then ({ px := line, slot := none }, s) else storeLine p f line s
    r.2 |> modOpen p (fun f => { f with delivered := f.delivered + 1, lines := f.lines ++ [r.1] }) |> takeLines p

theorem deliverLine_eq (p : ℕ) (px : List ℕ) (f : Frame) (s : State) :
    deliverLine p px f s =
      if ((openFrameOf (noteDrop p f s) p).getD f).dropping then noteDrop p f s
      else putLine p ((openFrameOf (noteDrop p f s) p).getD f) (fitLine ((openFrameOf (noteDrop p f s) p).getD f) px)
        (portCount p 2 1 (noteWidth p ((openFrameOf (noteDrop p f s) p).getD f) px (noteDrop p f s))) := rfl

theorem noteDrop_tasks (p : ℕ) (f : Frame) (s : State) : (noteDrop p f s).tasks = s.tasks := by
  unfold noteDrop
  simp only [apply_ite State.tasks, modOpen_tasks, portCount_tasks, flagFrame_tasks, ite_self]

theorem noteWidth_tasks (p : ℕ) (f : Frame) (px : List ℕ) (s : State) : (noteWidth p f px s).tasks = s.tasks := by
  unfold noteWidth
  simp only [apply_ite State.tasks, modOpen_tasks, portCount_tasks, flagFrame_tasks, ite_self]

theorem putLine_tasks (p : ℕ) (f : Frame) (line : List ℕ) (s : State) : (putLine p f line s).tasks = s.tasks := by
  unfold putLine
  cases f.sink with
  | some c => rfl
  | none =>
    dsimp only
    rw [takeLines_tasks, modOpen_tasks]
    split
    · rfl
    · exact storeLine_tasks _ _ _ s

theorem deliverLine_tasks (p : ℕ) (px : List ℕ) (f : Frame) (s : State) : (deliverLine p px f s).tasks = s.tasks := by
  rw [deliverLine_eq]
  split
  · exact noteDrop_tasks p f s
  · rw [putLine_tasks, portCount_tasks, noteWidth_tasks, noteDrop_tasks]

section
variable (p : ℕ) (f : Frame) (px : List ℕ) (q : List Instr) (s : State)

theorem noteDrop_setPending : noteDrop p f (setPending q s) = setPending q (noteDrop p f s) := by
  unfold noteDrop
  simp only [takesNow_setPending, storeRoom_setPending, flagFrame_setPending, portCount_setPending, modOpen_setPending, ite_setPending]

theorem noteWidth_setPending : noteWidth p f px (setPending q s) = setPending q (noteWidth p f px s) := by
  unfold noteWidth
  simp only [flagFrame_setPending, portCount_setPending, modOpen_setPending, ite_setPending]

theorem putLine_setPending : putLine p f px (setPending q s) = setPending q (putLine p f px s) := by
  unfold putLine
  cases f.sink with
  | some c => rfl
  | none =>
    simp only [takesNow_setPending, storeLine_setPending]
    cases takesNow s p f <;> simp only [Bool.false_eq_true, if_false, if_true, modOpen_setPending, takeLines_setPending]

theorem deliverLine_setPending : deliverLine p px f (setPending q s) = setPending q (deliverLine p px f s) := by
  rw [deliverLine_eq, deliverLine_eq, noteDrop_setPending, openFrameOf_setPending, noteWidth_setPending, portCount_setPending, putLine_setPending,
    ite_setPending]

theorem joinLine_setPending (misses : Frame → Bool) : joinLine p px f misses (setPending q s) = setPending q (joinLine p px f misses s) := by
  unfold joinLine
  simp only [headerBad_setPending, flagFrame_setPending, portCount_setPending, modOpen_setPending, deliverLine_setPending, ite_setPending,
    modPort_setPending]

theorem joinLine_tasks (misses : Frame → Bool) : (joinLine p px f misses s).tasks = s.tasks := by
  unfold joinLine
  simp only [modPort_tasks, modOpen_tasks, apply_ite State.tasks, portCount_tasks, flagFrame_tasks, deliverLine_tasks, ite_self]

theorem closeIfDone_tasks : (closeIfDone p s).tasks = s.tasks := by
  unfold closeIfDone
  refine foldl_keeps State.tasks (fun s _ => ?_) _ s
  dsimp only
  split
  · split
    · exact closeFrame_tasks _ _ _ s
    · rfl
  · rfl

theorem shutGates_tasks (pos : Item → Pos) : (shutGates p pos s).tasks = s.tasks := by
  unfold shutGates
  refine foldl_keeps State.tasks (fun s _ => ?_) _ s
  split
  · exact closeFrame_tasks _ _ _ s
  · rfl

theorem gateClose_tasks : (gateClose p s).tasks = s.tasks := shutGates_tasks _ _ _

theorem gateOpen_tasks : (gateOpen p s).tasks = s.tasks := by
  unfold gateOpen
  split
  · rfl
  · exact foldl_keeps State.tasks (fun s i => by rw [markGated_tasks, openFrame_tasks, shutGates_tasks]) _ s

theorem imageEnds_tasks : (imageEnds p s).tasks = s.tasks := by
  unfold imageEnds
  split
  · split
    · exact closeFrame_tasks _ _ _ s
    · rfl
  · rfl

theorem answerLine_nil {p : ℕ} {s : State} (px : List ℕ) (f : Option Frame) (h : (s.ports.getD p Port.reset).requests = []) :
    answerLine p px f s = strayLine p s := by
  unfold answerLine
  dsimp only
  rw [h]

theorem answerLine_none {p : ℕ} {s : State} {e : List Word} {rest : List (List Word)} (px : List ℕ)
    (h : (s.ports.getD p Port.reset).requests = e :: rest) :
    answerLine p px none s = strayLine p (modPort p (fun q => { q with requests := rest }) s) := by
  unfold answerLine
  dsimp only
  rw [h]

theorem answerLine_some {p : ℕ} {s : State} {e : List Word} {rest : List (List Word)} (px : List ℕ) (f : Frame)
    (h : (s.ports.getD p Port.reset).requests = e :: rest) :
    answerLine p px (some f) s =
      if e.contains f.item || (s.ports.getD p Port.reset).frames.any (fun x => x.st == 0 && e.contains x.item) then
        closeIfDone p (joinLine p px f (fun x => x.st == 0 && e.contains x.item) (modPort p (fun q => { q with requests := rest }) s))
      else strayLine p (modPort p (fun q => { q with requests := rest }) s) := by
  unfold answerLine
  dsimp only
  rw [h]

theorem answerLine_setPending (f : Option Frame) : answerLine p px f (setPending q s) = setPending q (answerLine p px f s) := by
  cases h : (s.ports.getD p Port.reset).requests with
  | nil => rw [answerLine_nil px f h, answerLine_nil (s := setPending q s) px f h, strayLine_setPending]
  | cons e rest =>
    cases f with
    | none => rw [answerLine_none px h, answerLine_none (s := setPending q s) px h, modPort_setPending, strayLine_setPending]
    | some f =>
      rw [answerLine_some px f h, answerLine_some (s := setPending q s) px f h]
      simp only [modPort_setPending, joinLine_setPending, closeIfDone_setPending, strayLine_setPending, ite_setPending, setPending_ports]

theorem answerLine_tasks (f : Option Frame) : (answerLine p px f s).tasks = s.tasks := by
  cases h : (s.ports.getD p Port.reset).requests with
  | nil => rw [answerLine_nil px f h, strayLine_tasks]
  | cons e rest =>
    cases f with
    | none => rw [answerLine_none px h, strayLine_tasks, modPort_tasks]
    | some f =>
      rw [answerLine_some px f h]
      split
      · rw [closeIfDone_tasks, joinLine_tasks, modPort_tasks]
      · rw [strayLine_tasks, modPort_tasks]

/-- A line at a port whose gates are as they should be, by the open frame. -/
def lineMeets (u : State) : State :=
  match openFrameOf u p with
  | some f =>
    if f.gateItem then joinLine p px f (inWindowOf u p) u
    else if f.area then (if f.imgBegun then joinLine p px f (·.imgBegun) u else strayLine p u)
    else answerLine p px (some f) u
  | none => answerLine p px none u

theorem lineArrives_eq : lineArrives p px s = lineMeets p px (gateClose p (gateOpen p (portCount p 1 1 s))) := rfl

theorem lineMeets_setPending : lineMeets p px (setPending q s) = setPending q (lineMeets p px s) := by
  unfold lineMeets
  rw [openFrameOf_setPending]
  cases openFrameOf s p with
  | none => exact answerLine_setPending p px q s none
  | some f => simp only [inWindowOf_setPending, joinLine_setPending, strayLine_setPending, answerLine_setPending, ite_setPending]

theorem lineArrives_setPending : lineArrives p px (setPending q s) = setPending q (lineArrives p px s) := by
  rw [lineArrives_eq, portCount_setPending, gateOpen_setPending, gateClose_setPending, lineMeets_setPending, lineArrives_eq]

theorem lineArrives_tasks : (lineArrives p px s).tasks = s.tasks := by
  have h (u : State) : (lineMeets p px u).tasks = u.tasks := by
    unfold lineMeets
    split
    · simp only [apply_ite State.tasks, joinLine_tasks, strayLine_tasks, answerLine_tasks, ite_self]
    · exact answerLine_tasks _ _ _ _
  rw [lineArrives_eq, h, gateClose_tasks, gateOpen_tasks, portCount_tasks]

end

end Sys2Proof.Machine
end

