-- ==== Sys2Proof/Proofs/LineStore.lean ====
section
/-! Lines in the store of an AUX port. -/

namespace Sys2Proof.Machine

open Sys2Proof

/-! ## Lines in an AUX port's store -/

/-- A number that fits its bytes reads back from them. -/
theorem ofLe_leBytes (n v : ℕ) : ofLe (leBytes n v) = v % 256 ^ n := by
  induction n generalizing v with
  | zero =>
    rw [pow_zero, Nat.mod_one]
    rfl
  | succ n ih =>
    have hb : (BitVec.ofNat 8 v).toNat = v % 256 := rfl
    rw [leBytes, ofLe, ih, hb, pow_succ, Nat.mul_comm (256 ^ n) 256, Nat.mod_mul]

theorem memRead_eq (m : Memory) (a n : ℕ) : memRead m a n = (List.range n).map fun i => memGet m (a + i) := by
  unfold memRead
  refine List.map_congr_left fun i hi => ?_
  have hlt := List.mem_range.mp hi
  unfold memGet
  rw [find_filter_keep m _ (a + i) (by intro c hc; simp [hc]; omega)]

/-- A byte of memory outside the line that a write meets. -/
theorem memGet_devPut_other {a x : ℕ} {bs : List Byte} (s : State) (h : x < a ∨ a + bs.length ≤ x) :
    memGet (devPut a bs s).mem x = memGet s.mem x := memGet_memWrite_other _ _ _ _ h

theorem poisonHit_mono {p p' : List ℕ} {a n : ℕ} (hsub : ∀ w ∈ p', w ∈ p) (h : poisonHit p a n = false) : poisonHit p' a n = false := by
  rw [Bool.eq_false_iff] at h ⊢
  intro hc
  obtain ⟨w, hw, ht⟩ := List.any_eq_true.mp hc
  exact h (List.any_eq_true.mpr ⟨w, hsub w hw, ht⟩)

theorem poisonHit_sub {p : List ℕ} {a n b m : ℕ} (hlo : a ≤ b) (hhi : b + m ≤ a + n) (h : poisonHit p a n = false) : poisonHit p b m = false := by
  rw [Bool.eq_false_iff] at h ⊢
  intro hc
  obtain ⟨w, hw, ht⟩ := List.any_eq_true.mp hc
  refine h (List.any_eq_true.mpr ⟨w, hw, ?_⟩)
  simp only [Bool.and_eq_true, decide_eq_true_eq] at ht ⊢
  omega

theorem poisonPart_of_hit {p : List ℕ} {a n : ℕ} (h : poisonHit p a n = false) : poisonPart p a n = false := by
  rw [Bool.eq_false_iff] at h ⊢
  intro hc
  obtain ⟨w, hw, ht⟩ := List.any_eq_true.mp hc
  rw [Bool.and_eq_true] at ht
  exact h (List.any_eq_true.mpr ⟨w, hw, ht.1⟩)

theorem mem_poisonClear {p : List ℕ} {a n w : ℕ} (h : w ∈ poisonClear p a n) : w ∈ p := (List.mem_filter.mp h).1

/-- What a write of bytes that no poison lies in leaves: every byte is written, no other, and memory and poison alone change. -/
structure Written (a : ℕ) (bs : List Byte) (s t : State) : Prop where
  inside : ∀ i, i < bs.length → memGet t.mem (a + i) = bs.getD i 0
  outside : ∀ x, x < a ∨ a + bs.length ≤ x → memGet t.mem x = memGet s.mem x
  poison : ∀ w ∈ t.sq.poison, w ∈ s.sq.poison
  fresh : t.fresh = s.fresh
  reg : ∀ r, rdW t r = rdW s r

theorem Written.nil (a : ℕ) (s : State) : Written a [] s s where
  inside := fun i hi => absurd hi (Nat.not_lt_zero i)
  outside := fun _ _ => rfl
  poison := fun _ h => h
  fresh := rfl
  reg := fun _ => rfl

theorem written_devPut (a : ℕ) (bs : List Byte) (s : State) : Written a bs s (devPut a bs s) where
  inside := fun i hi => by rw [devPut_mem, memGet_memWrite_same _ _ _ _ hi, List.getD_eq_getElem _ _ hi]
  outside := fun _ h => memGet_memWrite_other _ _ _ _ h
  poison := fun _ h => mem_poisonClear h
  fresh := rfl
  reg := fun _ => rfl

/-- One run of bytes after another. -/
theorem Written.append {a : ℕ} {bs cs : List Byte} {s t u : State} (h : Written a bs s t) (k : Written (a + bs.length) cs t u) :
    Written a (bs ++ cs) s u where
  inside := fun i hi => by
    by_cases hb : i < bs.length
    · rw [k.outside _ (.inl (by omega)), h.inside i hb, List.getD_append _ _ _ _ hb]
    · have hc : i - bs.length < cs.length := by
        rw [List.length_append] at hi
        omega
      rw [List.getD_append_right _ _ _ _ (by omega), ← k.inside _ hc]
      congr 1
      omega
  outside := fun x hx => by
    rw [List.length_append] at hx
    rw [k.outside x (by omega), h.outside x (by omega)]
  poison := fun w hw => h.poison w (k.poison w hw)
  fresh := k.fresh.trans h.fresh
  reg := fun r => (k.reg r).trans (h.reg r)

/-- A write over bytes that no poison lies in. -/
theorem writeMem_clean (f a : ℕ) (bs : List Byte) (s : State) (hf : bs = [] ∨ bs.length + a % 256 ≤ 256 * f)
    (hp : poisonHit s.sq.poison a bs.length = false) :
    ∃ t, writeMem f a bs [] s = (Stat.ok, t) ∧ Written a bs s t := by
  induction f generalizing a bs s with
  | zero =>
    have hbs : bs = [] := hf.elim id fun h => List.eq_nil_of_length_eq_zero (by omega)
    subst hbs
    exact ⟨s, rfl, .nil a s⟩
  | succ f ih =>
    cases hbs : bs with
    | nil => exact ⟨s, rfl, .nil a s⟩
    | cons b cs =>
      rw [← hbs]
      have hpos : 0 < bs.length := by simp [hbs]
      have hfit : bs.length + a % 256 ≤ 256 * (f + 1) := hf.resolve_left (by simp [hbs])
      obtain ⟨n, hn⟩ : ∃ n, n = min bs.length (256 - a % 256) := ⟨_, rfl⟩
      have hlen : (bs.take n).length = n := by
        rw [List.length_take]
        omega
      have hclean : poisonPart s.sq.poison a (bs.take n).length = false := by
        rw [hlen]
        exact poisonPart_of_hit (poisonHit_sub le_rfl (by omega) hp)
      have hput := written_devPut a (bs.take n) s
      have hpoison : poisonHit (devPut a (bs.take n) s).sq.poison (a + n) (bs.drop n).length = false := by
        refine poisonHit_mono hput.poison (poisonHit_sub (by omega) ?_ hp)
        rw [List.length_drop]
        omega
      have hrest : bs.drop n = [] ∨ (bs.drop n).length + (a + n) % 256 ≤ 256 * f := by
        by_cases hall : n = bs.length
        · exact .inl (by rw [hall, List.drop_length])
        · rw [List.length_drop]
          exact .inr (by omega)
      obtain ⟨t, ht, hw⟩ := ih (a + n) (bs.drop n) (devPut a (bs.take n) s) hrest hpoison
      refine ⟨t, ?_, ?_⟩
      · unfold writeMem
        rw [hbs]
        simp only
        rw [← hbs, ← hn, writeLine_clean hclean, if_pos rfl]
        exact ht
      · have hw' : Written (a + (bs.take n).length) (bs.drop n) (devPut a (bs.take n) s) t := by rwa [hlen]
        have hall := hput.append hw'
        rwa [List.take_append_drop] at hall

theorem writeAll_clean (a : ℕ) (bs : List Byte) (s : State) (hp : poisonHit s.sq.poison a bs.length = false) :
    ∃ t, writeAll a bs [] s = (Stat.ok, t) ∧ Written a bs s t :=
  writeMem_clean _ _ _ _ (.inr (by omega)) hp

/-- Bytes just written read back. -/
theorem Written.devGet {a : ℕ} {bs : List Byte} {s t : State} (h : Written a bs s t) : devGet t a bs.length = bs := by
  rw [Machine.devGet, memRead_eq]
  refine List.ext_getElem (by simp) fun i h1 h2 => ?_
  rw [List.getElem_map, List.getElem_range, h.inside i h2, List.getD_eq_getElem _ _ h2]

/-! ## Packed fields -/

theorem packFields_lt (w : ℕ) (vs : List ℕ) : storeLine.packFields w vs < 2 ^ (w * vs.length) := by
  induction vs with
  | nil => exact Nat.one_pos
  | cons v vs ih =>
    have hv : v % 2 ^ w < 2 ^ w := Nat.mod_lt _ (Nat.two_pow_pos _)
    rw [storeLine.packFields, List.length_cons, Nat.mul_succ, Nat.add_comm (w * vs.length), pow_add]
    calc v % 2 ^ w + storeLine.packFields w vs * 2 ^ w
        < 2 ^ w + storeLine.packFields w vs * 2 ^ w := Nat.add_lt_add_right hv _
      _ = (storeLine.packFields w vs + 1) * 2 ^ w := by ring
      _ ≤ 2 ^ (w * vs.length) * 2 ^ w := Nat.mul_le_mul_right _ ih
      _ = 2 ^ w * 2 ^ (w * vs.length) := Nat.mul_comm _ _

/-- A packed field reads back. -/
theorem bits_packFields (w : ℕ) (vs : List ℕ) (i : ℕ) (hi : i < vs.length) :
    bits (storeLine.packFields w vs) (w * i) w = vs[i] % 2 ^ w := by
  induction vs generalizing i with
  | nil => exact absurd hi (Nat.not_lt_zero i)
  | cons v vs ih =>
    have hv : v % 2 ^ w < 2 ^ w := Nat.mod_lt _ (Nat.two_pow_pos _)
    cases i with
    | zero =>
      rw [storeLine.packFields, bits, Nat.mul_zero, Nat.shiftRight_zero, Nat.add_mul_mod_self_right, Nat.mod_mod]
      rfl
    | succ i =>
      rw [List.getElem_cons_succ, ← ih i (Nat.lt_of_succ_lt_succ hi), bits, bits, storeLine.packFields, Nat.shiftRight_eq_div_pow,
        Nat.shiftRight_eq_div_pow, Nat.mul_succ, Nat.add_comm (w * i) w, pow_add, ← Nat.div_div_eq_div_mul,
        Nat.add_mul_div_right _ _ (Nat.two_pow_pos _), Nat.div_eq_of_lt hv, Nat.zero_add]

/-- A line put into an AUX port's store reads back, where no poison lies in its slot. -/
theorem fetchLine_storeLine {p : ℕ} {f : Frame} {px : List ℕ} {l : StoredLine} {s s1 : State} (hp : 12 ≤ p)
    (hlen : px.length = f.width * rawChans f.fmt) (hfit : ∀ v ∈ px, v < 2 ^ rawBits f.fmt)
    (hclean : poisonHit s.sq.poison (storeSlot s p (s.ports.getD p Port.reset).storeNext) (lineBytes f) = false)
    (hst : storeLine p f px s = (l, s1)) : fetchLine p f l s1 = (px, { s1 with fresh := s1.fresh + px.length }) := by
  obtain ⟨k, hk⟩ : ∃ k, k = (s.ports.getD p Port.reset).storeNext := ⟨_, rfl⟩
  obtain ⟨a, ha⟩ : ∃ a, a = storeSlot s p k := ⟨_, rfl⟩
  obtain ⟨bs, hbs⟩ : ∃ bs, bs = leBytes (lineBytes f) (storeLine.packFields (rawBits f.fmt) px) := ⟨_, rfl⟩
  have hbl : bs.length = lineBytes f := by rw [hbs, length_leBytes]
  rw [← hk, ← ha, ← hbl] at hclean
  obtain ⟨t, ht, hw⟩ := writeAll_clean a bs s hclean
  unfold storeLine at hst
  rw [if_neg (by omega), ← hk] at hst
  simp only [← ha, ← hbs, ht] at hst
  obtain ⟨rfl, rfl⟩ := Prod.ext_iff.mp hst
  have hbytes : rawBits f.fmt * px.length ≤ 8 * lineBytes f := by
    have h : lineBytes f = (px.length * rawBits f.fmt + 8 - 1) / 8 := by rw [hlen]; rfl
    rw [h, Nat.mul_comm]
    omega
  have hslot : storeSlot (modPort p (fun q => { q with storeNext := (k + 1) % 8192 }) t) p k = a := by
    have hrd : rdF (modPort p (fun q => { q with storeNext := (k + 1) % 8192 }) t) Reg.auxStore.base 0 20 = rdF s Reg.auxStore.base 0 20 := by
      exact congrArg (fun w => bits w.toNat 0 20) (hw.reg _)
    rw [ha, storeSlot, storeSlot, hrd]
  have hget : devGet (modPort p (fun q => { q with storeNext := (k + 1) % 8192 }) t) a (lineBytes f) = bs := by
    rw [← hbl]
    exact hw.devGet
  have hnum : ofLe bs = storeLine.packFields (rawBits f.fmt) px := by
    rw [hbs, ofLe_leBytes]
    refine Nat.mod_eq_of_lt ((packFields_lt _ _).trans_le ?_)
    rw [show (256 : ℕ) = 2 ^ 8 from rfl, ← pow_mul]
    exact Nat.pow_le_pow_right (by decide) hbytes
  have hbad (i : ℕ) (hi : i < px.length) : poisonHit t.sq.poison (a + rawBits f.fmt * i / 8)
      ((rawBits f.fmt * i + rawBits f.fmt + 7) / 8 - rawBits f.fmt * i / 8) = false := by
    have hmul : rawBits f.fmt * i + rawBits f.fmt ≤ rawBits f.fmt * px.length := by
      rw [← Nat.mul_succ]
      exact Nat.mul_le_mul_left _ hi
    refine poisonHit_mono hw.poison (poisonHit_sub (by omega) ?_ hclean)
    rw [hbl]
    omega
  unfold fetchLine
  simp only [hslot, hget, hnum]
  rw [← hlen]
  refine Prod.ext ?_ rfl
  refine List.ext_getElem (by simp) fun i h1 h2 => ?_
  rw [List.getElem_map, List.getElem_range]
  rw [if_neg (by rw [Bool.not_eq_true]; exact hbad i h2), bits_packFields _ _ _ h2, Nat.mod_eq_of_lt (hfit _ (List.getElem_mem h2))]

end Sys2Proof.Machine
end

