-- ==== Sys2Proof/Proofs/Frames.lean ====
section
/-! Frames of the camera ports: pins, gates and closing. -/

namespace Sys2Proof.Machine

open Sys2Proof

/-! ## The pins of an AUX port -/

/-- A line that LV or its end brings (R301). -/
def auxLine (p : ℕ) (lv take : Bool) (d : ℕ) (line : Option (List ℕ)) (s : State) : State :=
  if lv then modPort p (fun q => { q with line := some (q.line.getD [] ++ if take then [d] else []) }) s
  else match line with
    | some px => s |> modPort p (fun q => { q with line := none }) |> lineArrives p px
    | none => s

theorem auxSample_eq (p : ℕ) (e : AuxEdge) (s : State) :
    auxSample p e s =
      if e.rising == bitOf (portCtl s p) 11 then s
      else
        let fv := e.fv != bitOf (portCtl s p) 13
        let was := (s.ports.getD p Port.reset).fv
        let s1 := modPort p (fun q => { q with fv := fv }) s
        let s2 := auxLine p (e.lv != bitOf (portCtl s p) 14)
          ((e.dv != bitOf (portCtl s p) 15) && (!bitOf (portCtl s p) 12 || fv)) e.d (s.ports.getD p Port.reset).line
          (if fv && !was then imageBegins p s1 else s1)
        if was && !fv then imageEnds p s2 else s2 := rfl

section
variable (p : ℕ) (lv take : Bool) (d : ℕ) (line : Option (List ℕ)) (e : AuxEdge) (q : List Instr) (s : State)

theorem auxLine_setPending : auxLine p lv take d line (setPending q s) = setPending q (auxLine p lv take d line s) := by
  unfold auxLine
  cases line with
  | none => simp only [modPort_setPending, ite_setPending]
  | some px => simp only [modPort_setPending, lineArrives_setPending, ite_setPending]

theorem auxLine_tasks : (auxLine p lv take d line s).tasks = s.tasks := by
  unfold auxLine
  cases line with
  | none => simp only [apply_ite State.tasks, modPort_tasks, ite_self]
  | some px => simp only [apply_ite State.tasks, lineArrives_tasks, modPort_tasks, ite_self]

theorem auxSample_setPending : auxSample p e (setPending q s) = setPending q (auxSample p e s) := by
  simp only [auxSample_eq, portCtl_setPending, setPending_ports, modPort_setPending, imageBegins_setPending, ite_setPending, auxLine_setPending,
    imageEnds_setPending]

theorem auxSample_tasks : (auxSample p e s).tasks = s.tasks := by
  simp only [auxSample_eq, apply_ite State.tasks, imageEnds_tasks, auxLine_tasks, imageBegins_tasks, modPort_tasks, ite_self]

end

/-! ## Gates -/

theorem gateClose_of_not_over {p : ℕ} {s : State} (h : gateOver s p (fun i => copyPos s i.posSrc) = false) : gateClose p s = s :=
  List.foldl_fixed' (fun _ => if_neg (by rw [h]; decide)) _

theorem gateClose_of_no_item {p : ℕ} {s : State} (h : ∀ f, openFrameOf s p = some f → f.gateItem = false) : gateClose p s = s := by
  refine gateClose_of_not_over ?_
  unfold gateOver
  cases hf : openFrameOf s p with
  | none => rfl
  | some f =>
    rw [Option.elim_some, h f hf]
    rfl

/-- A gate that closes its frame and leaves none that is over. -/
theorem gateClose_once {p : ℕ} {s : State} (h : gateOver s p (fun i => copyPos s i.posSrc) = true)
    (hno : gateOver (closeFrame p [] true s) p (fun i => copyPos s i.posSrc) = false) : gateClose p s = closeFrame p [] true s := by
  unfold gateClose shutGates
  rw [List.range_succ_eq_map, List.foldl_cons, if_pos h]
  exact List.foldl_fixed' (fun _ => if_neg (by rw [hno]; decide)) _

theorem gateOpen_of_free {p : ℕ} {s : State} (h : bitOf (portCtl s p) 4 = false) : gateOpen p s = s := by
  unfold gateOpen
  rw [h, Bool.and_false]
  rfl

/-- A line at a port that no item gates meets the open frame at once. -/
theorem lineArrives_free {p : ℕ} {px : List ℕ} {s : State} (h : bitOf (portCtl s p) 4 = false)
    (hf : ∀ f, openFrameOf s p = some f → f.gateItem = false) : lineArrives p px s = lineMeets p px (portCount p 1 1 s) := by
  rw [lineArrives_eq, gateOpen_of_free (s := portCount p 1 1 s) h, gateClose_of_no_item (s := portCount p 1 1 s) hf]

/-! ## Headers -/

theorem headerBad_of {p : ℕ} {f : Frame} {fmt phase : ℕ} {s : State} (hc : (s.ports.getD p Port.reset).curFmt = some (fmt, phase))
    (h : fmt ≠ f.fmt ∨ (4 ≤ f.fmt ∧ f.fmt ≤ 6 ∧ phase ≠ f.phase)) : headerBad s p f = true := by
  rw [headerBad, hc]
  simpa [and_assoc] using h

theorem headerGood_of {p : ℕ} {f : Frame} {fmt phase : ℕ} {s : State} (hc : (s.ports.getD p Port.reset).curFmt = some (fmt, phase))
    (h1 : fmt = f.fmt) (h2 : phase = f.phase) : headerBad s p f = false := by
  rw [headerBad, hc]
  simp [h1, h2]

/-- The header of an image that the open frame takes, of another format. -/
theorem judgeHeader_bad {p : ℕ} {f : Frame} {s : State} (hf : openFrameOf s p = some f) (hb : headerBad s p f = true)
    (hg : f.gateItem = true ∨ f.area = false ∨ f.imgBegun = true) : judgeHeader p s = flagFrame p 4 s := by
  unfold judgeHeader
  rw [hf]
  refine if_pos ?_
  rw [hb]
  simpa [or_assoc] using hg

theorem judgeHeader_good {p : ℕ} {f : Frame} {s : State} (hf : openFrameOf s p = some f) (hb : headerBad s p f = false) :
    judgeHeader p s = s := by
  unfold judgeHeader
  rw [hf]
  exact if_neg (by rw [hb]; simp)

/-! ## Pins -/

/-- A sample on the edge that AUX_CTL selects. -/
theorem auxSample_taken {p : ℕ} {e : AuxEdge} {s : State} {fv lv dv : Bool} {q : Port} (he : e.rising ≠ bitOf (portCtl s p) 11)
    (hfv : fv = (e.fv != bitOf (portCtl s p) 13)) (hlv : lv = (e.lv != bitOf (portCtl s p) 14))
    (hdv : dv = (e.dv != bitOf (portCtl s p) 15)) (hq : q = s.ports.getD p Port.reset) :
    auxSample p e s =
      let s1 := modPort p (fun q => { q with fv := fv }) s
      let s2 := auxLine p lv (dv && (!bitOf (portCtl s p) 12 || fv)) e.d q.line (if fv && !q.fv then imageBegins p s1 else s1)
      if q.fv && !fv then imageEnds p s2 else s2 := by
  rw [auxSample_eq, if_neg (by simpa using he), ← hfv, ← hlv, ← hdv, ← hq]

/-- A sample that neither begins nor ends an image. -/
theorem auxSample_same {p : ℕ} {e : AuxEdge} {s : State} {fv lv dv : Bool} {q : Port} (he : e.rising ≠ bitOf (portCtl s p) 11)
    (hfv : fv = (e.fv != bitOf (portCtl s p) 13)) (hlv : lv = (e.lv != bitOf (portCtl s p) 14))
    (hdv : dv = (e.dv != bitOf (portCtl s p) 15)) (hq : q = s.ports.getD p Port.reset) (h : fv = q.fv) :
    auxSample p e s = auxLine p lv (dv && (!bitOf (portCtl s p) 12 || fv)) e.d q.line (modPort p (fun q => { q with fv := fv }) s) := by
  rw [auxSample_taken he hfv hlv hdv hq, ← h]
  dsimp only
  rw [Bool.and_not_self, if_neg (by decide), if_neg (by decide)]

/-! ## Frames -/

/-- The open frame closes with its fragment, where one is due (R314). -/
theorem closeFrame_delivered {p : ℕ} {f : Frame} {s u : State} (hf : openFrameOf s p = some f) (hd : f.delivered ≠ 0)
    (hu : u = (if bitOf (portCtl s p) 6 = true ∨ f.flags ≠ 0 then attachDevice f.item 3 (portCode p) 1 (framePayload s p f) s else s)) :
    closeFrame p [] true s = openWaiting p (portCount p 0 1 (modOpen p (fun f => { f with st := 2 })
      (dropRequests p f.item (if f.sink.isSome then spoilRef p f u else u)))) := by
  have hcond : (true && (bitOf (portCtl s p) 6 || f.flags != 0)) = decide (bitOf (portCtl s p) 6 = true ∨ f.flags ≠ 0) := by
    cases bitOf (portCtl s p) 6 <;> simp [bne, beq_eq_decide]
  unfold closeFrame
  rw [hf]
  dsimp only
  rw [if_neg hd, List.foldl_nil, hf, Option.getD_some, hcond, hu]
  simp only [decide_eq_true_eq]
  rfl

/-- A line that its frame takes whole. -/
theorem deliverLine_whole {p : ℕ} {f : Frame} {px : List ℕ} {l : StoredLine} {s s1 : State} (hf : openFrameOf s p = some f)
    (hd : f.dropping = false) (hsink : f.sink = none) (hroom : takesNow s p f = true ∨ storeRoom s p f = true)
    (hlen : px.length = f.width * rawChans f.fmt)
    (hl : (l, s1) = if takesNow s p f then ({ px := px, slot := none }, portCount p 2 1 s) else storeLine p f px (portCount p 2 1 s)) :
    deliverLine p px f s = takeLines p (modOpen p (fun f => { f with delivered := f.delivered + 1, lines := f.lines ++ [l] }) s1) := by
  have hno : noteDrop p f s = s := by
    refine if_pos ?_
    rcases hroom with h | h <;> simp [h]
  have hwidth : noteWidth p f px s = s := by
    unfold noteWidth
    rw [if_neg (by omega), if_neg (by omega)]
  have hfit : fitLine f px = px := by
    rw [fitLine, hlen, Nat.sub_self, List.replicate_zero, List.append_nil, ← hlen, List.take_length]
  rw [deliverLine_eq, hno, hf, Option.getD_some, if_neg (by rw [hd]; decide), hwidth, hfit]
  unfold putLine
  rw [hsink]
  dsimp only
  have htake : takesNow (portCount p 2 1 s) p f = takesNow s p f := rfl
  rw [htake, ← hl]


theorem gate_of {p : ℕ} {f : Frame} {s : State} (hf : openFrameOf s p = some f) (hg : f.gateItem = false) :
    ∀ g, openFrameOf s p = some g → g.gateItem = false := by
  intro g h
  obtain rfl : f = g := Option.some.inj (hf.symm.trans h)
  exact hg

/-- A line meets an open frame that no item gates. -/
theorem lineMeets_some {p : ℕ} {px : List ℕ} {f : Frame} {s : State} (hf : openFrameOf s p = some f) (hg : f.gateItem = false) :
    lineMeets p px (portCount p 1 1 s) =
      if f.area then (if f.imgBegun then joinLine p px f (·.imgBegun) (portCount p 1 1 s) else strayLine p (portCount p 1 1 s))
      else answerLine p px (some f) (portCount p 1 1 s) := by
  have hf' : openFrameOf (portCount p 1 1 s) p = some f := hf
  unfold lineMeets
  rw [hf']
  exact if_neg (by rw [hg]; decide)

theorem lineMeets_none {p : ℕ} {px : List ℕ} {s : State} (hf : openFrameOf s p = none) :
    lineMeets p px (portCount p 1 1 s) = answerLine p px none (portCount p 1 1 s) := by
  have hf' : openFrameOf (portCount p 1 1 s) p = none := hf
  unfold lineMeets
  rw [hf']

/-- A stream packet at a port that is up is not passed over. -/
theorem packet {n : ℕ} {s : State} (hn : n < 12) (hu : portUp s n = true) : ¬(12 ≤ n ∨ portUp (setPending [] s) n = false) := by
  rw [portUp_setPending, hu]
  simp [hn]

/-- A pixel clock that is lost: the line in progress ends as a short one, then every frame. -/
theorem auxPclkLost_gives {n : ℕ} {ecc : List EccHit} {s u : State} (hq : Quiet s) (hn : n < 4) (hu : coreUp s = true) (hen : auxEn s n = true)
    (hl : (s.ports.getD (12 + n) Port.reset).lost = false)
    (hnone : (s.ports.getD (12 + n) Port.reset).line = none → u = s)
    (hsome : ∀ px, (s.ports.getD (12 + n) Port.reset).line = some px → u = lineArrives (12 + n) px (seeEcc ecc s)) :
    Gives (.auxPclkLost n ecc) s (linkEvent (12 + n) 2 0 0 (portCount (12 + n) 11 1 (setFlag (portStatus (12 + n)) 1
      (modPort (12 + n) (fun q => { q with pclk := false, lost := true }) (endFrames (12 + n) [5] u))))) := by
  have hgo : ¬(4 ≤ n ∨ coreUp (setPending [] s) = false ∨ auxEn (setPending [] s) n = false ∨
      ((setPending [] s).ports.getD (auxPort n) Port.reset).lost = true) := by
    rintro (h | h | h | h)
    · omega
    · rw [coreUp_setPending, hu] at h
      cases h
    · rw [auxEn_setPending, hen] at h
      cases h
    · exact absurd (h.symm.trans hl) (by decide)
  have hline : (match (s.ports.getD (12 + n) Port.reset).line with
      | some px => lineArrives (12 + n) px (seeEcc ecc (setPending [] s))
      | none => setPending [] s) = setPending [] u := by
    cases hcase : (s.ports.getD (12 + n) Port.reset).line with
    | none => rw [hnone hcase]
    | some px =>
      rw [hsome px hcase, seeEcc_setPending]
      exact lineArrives_setPending _ _ _ _
  have htasks : u.tasks = s.tasks := by
    cases hcase : (s.ports.getD (12 + n) Port.reset).line with
    | none => rw [hnone hcase]
    | some px => rw [hsome px hcase, lineArrives_tasks, seeEcc_tasks]
  refine gives_of_effect (by unfold exec; rfl) hq ?_
    (by rw [linkEvent_tasks, portCount_tasks, setFlag_tasks, modPort_tasks, endFrames_tasks, htasks])
  refine (if_neg hgo).trans ?_
  rw [← linkEvent_setPending, ← portCount_setPending, ← setFlag_setPending, ← modPort_setPending, ← endFrames_setPending, ← hline]
  rfl

/-- Settles O41: the rows by what they bring the port, then each step of a line, a frame and a gate. -/
theorem cameraLinesAndFrames : Obligations.CameraLinesAndFrames := by
  intro p s hq
  refine ⟨fun hp hu => ⟨fun fmt phase => ?_, fun px => ?_, ?_, ?_⟩, fun f fmt phase hf hc => ⟨fun hg hb => ?_, fun h1 h2 => ?_⟩,
    fun n es ecc hn hp hu => ?_, fun e fv lv dv q hfv hlv hdv hqq => ⟨fun he => ?_, fun he hl hline => ⟨fun h1 h2 => ?_, fun h1 h2 => ?_⟩,
      fun he h1 h2 => ?_, fun px he h1 h2 hline => ?_⟩,
    fun px hfree => ⟨fun f hf ha hg => ⟨fun hb => ?_, fun hb => ?_⟩, fun hno hr => ?_, fun e rest hr => ⟨fun hno => ?_, fun f hf ha hg => ⟨fun h => ?_, fun h1 h2 => ?_⟩⟩⟩,
    fun px f u hu hf hg => ?_, rfl, fun f px l s1 hf hd hsink hroom hlen hl => ?_, fun f px l s1 hp hlen hfit hclean hst => ?_,
    fun f u hf hd hu => ?_, fun f hf ha hg hb => ?_, fun n ecc u hn hp hu hen hl hnone hsome => ?_, fun n hn hp hu hen hl => ?_, fun n hn hp => ?_,
    fun f hf hg hc => ?_, fun hf => ?_, fun hp => ?_, fun f i e hf hg hi he => ⟨fun hr hno => ?_, fun hr => ?_⟩, fun i hu hg => ⟨fun hd => ?_, fun hd => ?_⟩⟩
  · refine gives_of_effect (by unfold exec; rfl) hq ?_ (by rw [judgeHeader_tasks, imageBegins_tasks, gateClose_tasks, gateOpen_tasks, modPort_tasks])
    refine (if_neg (packet hp hu)).trans ?_
    rw [← judgeHeader_setPending, ← imageBegins_setPending, ← gateClose_setPending, ← gateOpen_setPending]
    rfl
  · refine gives_of_effect (by unfold exec; rfl) hq ?_ (lineArrives_tasks p px s)
    exact (if_neg (packet hp hu)).trans (lineArrives_setPending p px [] s)
  · refine gives_of_effect (by unfold exec; rfl) hq ?_ (imageEnds_tasks p s)
    exact (if_neg (packet hp hu)).trans (imageEnds_setPending p [] s)
  · exact gives_of_effect (by unfold exec; rfl) hq (if_neg (packet hp hu)) rfl
  · exact judgeHeader_bad hf (headerBad_of hc hb) hg
  · exact judgeHeader_good hf (headerGood_of hc h1 h2)
  · subst hp
    refine gives_of_effect (by unfold exec; rfl) hq ?_ ?_
    · refine (if_neg ?_).trans ?_
      · rw [portUp_setPending]
        show ¬(4 ≤ n ∨ portUp s (12 + n) = false)
        rw [hu]
        simp [hn]
      · rw [seeEcc_setPending]
        exact foldl_setPending_of _ _ (fun q s e => auxSample_setPending _ e q s) _ _ _
    · exact (foldl_keeps State.tasks (fun s e => auxSample_tasks _ e s) _ _).trans (seeEcc_tasks ecc s)
  · rw [auxSample_eq]
    exact if_pos (beq_iff_eq.mpr he)
  · rw [auxSample_taken he hfv hlv hdv hqq, hl, hline, h1, h2]
    rfl
  · rw [auxSample_taken he hfv hlv hdv hqq, hl, hline, h1, h2]
    rfl
  · rw [auxSample_same he hfv hlv hdv hqq h1, h2]
    have hc : (if (dv && (!bitOf (portCtl s p) 12 || fv)) = true then [e.d] else []) =
        if dv = true ∧ (bitOf (portCtl s p) 12 = false ∨ fv = true) then [e.d] else [] := by
      cases dv <;> cases bitOf (portCtl s p) 12 <;> cases fv <;> rfl
    rw [← hc]
    rfl
  · rw [auxSample_same he hfv hlv hdv hqq h1, h2, hline]
    rfl
  · rw [lineArrives_free hfree (gate_of hf hg), lineMeets_some hf hg, if_pos ha, if_pos hb]
  · rw [lineArrives_free hfree (gate_of hf hg), lineMeets_some hf hg, if_pos ha, if_neg (by rw [hb]; decide)]
  · rw [lineArrives_free hfree fun f hf => (hno f hf).2]
    cases hf : openFrameOf s p with
    | none => rw [lineMeets_none hf, answerLine_nil (s := portCount p 1 1 s) _ _ hr]
    | some f =>
      obtain ⟨ha, hg⟩ := hno f hf
      rw [lineMeets_some hf hg, if_neg (by rw [ha]; decide), answerLine_nil (s := portCount p 1 1 s) _ _ hr]
  · rw [lineArrives_free hfree fun f hf => absurd (hno.symm.trans hf) (by simp), lineMeets_none hno,
      answerLine_none (s := portCount p 1 1 s) _ hr]
  · rw [lineArrives_free hfree (gate_of hf hg), lineMeets_some hf hg, if_neg (by rw [ha]; decide),
      answerLine_some (s := portCount p 1 1 s) _ _ hr]
    refine if_pos ?_
    rw [portCount, count_ports]
    simpa [and_assoc] using h
  · rw [lineArrives_free hfree (gate_of hf hg), lineMeets_some hf hg, if_neg (by rw [ha]; decide),
      answerLine_some (s := portCount p 1 1 s) _ _ hr]
    refine if_neg ?_
    rw [portCount, count_ports, h1]
    simpa using h2
  · rw [lineArrives_eq, ← hu]
    unfold lineMeets
    rw [hf]
    exact if_pos hg
  · exact deliverLine_whole hf hd hsink hroom hlen hl
  · exact fetchLine_storeLine hp hlen hfit hclean hst
  · exact closeFrame_delivered hf hd hu
  · unfold imageEnds
    rw [hf]
    exact if_pos (by simp [ha, hg, hb])
  · subst hp
    exact auxPclkLost_gives hq hn hu hen hl hnone hsome
  · subst hp
    refine gives_of_effect (by unfold exec; rfl) hq ?_ (by rw [passGates_tasks, linkEvent_tasks, setFlag_tasks, modPort_tasks])
    have hgo : ¬(4 ≤ n ∨ coreUp (setPending [] s) = false ∨ auxEn (setPending [] s) n = false ∨
        ((setPending [] s).ports.getD (auxPort n) Port.reset).pclk = true) := by
      rintro (h | h | h | h)
      · omega
      · rw [coreUp_setPending, hu] at h
        cases h
      · rw [auxEn_setPending, hen] at h
        cases h
      · exact absurd (h.symm.trans hl) (by decide)
    refine (if_neg hgo).trans ?_
    rw [← passGates_setPending, ← linkEvent_setPending]
    rfl
  · subst hp
    exact gives_of_effect (by unfold exec; rfl) hq (if_neg (Nat.not_le.mpr hn)) rfl
  · refine gives_of_effect (by unfold exec; rfl) hq ?_ (closeFrame_tasks _ _ _ s)
    rw [openFrameOf_setPending, hf]
    refine (if_pos ?_).trans (closeFrame_setPending _ _ _ _ s)
    rw [hg]
    cases ha : f.area <;> simp_all
  · refine gives_of_effect (by unfold exec; rfl) hq ?_ rfl
    rw [openFrameOf_setPending, hf]
  · refine gives_of_effect (by unfold exec; rfl) hq ?_ (by rw [gateClose_tasks, gateOpen_tasks])
    refine (if_neg (by omega)).trans ?_
    rw [gateOpen_setPending, gateClose_setPending]
  · refine gateClose_once ?_ hno
    rw [gateOver, hf, Option.elim_some, hg, hi, Option.elim_some, he, Option.elim_some, hr]
    rfl
  · refine gateClose_of_not_over ?_
    rw [gateOver, hf, Option.elim_some, hg, hi, Option.elim_some, he, Option.elim_some, hr]
    rfl
  · unfold gateOpen
    rw [hu, hg, hd]
    rfl
  · unfold gateOpen
    rw [hu, hg, hd]
    rfl

end Sys2Proof.Machine
end

