-- ==== Sys2Proof/Proofs/Encoders.lean ====
section
/-! Elements of lists, and what the Kerb's entries and the outputs keep. -/

namespace Sys2Proof.Machine

open Sys2Proof

/-! ## Elements of lists that a state holds -/

theorem length_modAt {α : Type} (i : ℕ) (f : α → α) (l : List α) : (modAt i f l).length = l.length := by
  induction l generalizing i with
  | nil => cases i <;> rfl
  | cons x xs ih =>
    cases i with
    | zero => rfl
    | succ i => exact congrArg (· + 1) (ih i)

theorem getD_modAt_same {α : Type} {i : ℕ} {l : List α} (f : α → α) (d : α) (h : i < l.length) : (modAt i f l).getD i d = f (l.getD i d) := by
  induction l generalizing i with
  | nil => exact absurd h (Nat.not_lt_zero i)
  | cons x xs ih =>
    cases i with
    | zero => rfl
    | succ i => exact ih (Nat.lt_of_succ_lt_succ h)

theorem getD_modAt_other {α : Type} {i j : ℕ} {l : List α} (f : α → α) (d : α) (h : j ≠ i) : (modAt i f l).getD j d = l.getD j d := by
  induction l generalizing i j with
  | nil => cases i <;> rfl
  | cons x xs ih =>
    cases i with
    | zero =>
      cases j with
      | zero => exact absurd rfl h
      | succ j => rfl
    | succ i =>
      cases j with
      | zero => rfl
      | succ j => exact ih fun e => h (congrArg (· + 1) e)

/-- A change of one element depends on what it does to that element alone. -/
theorem modAt_congr {α : Type} {i : ℕ} {l : List α} {f g : α → α} (d : α) (h : f (l.getD i d) = g (l.getD i d)) : modAt i f l = modAt i g l := by
  induction l generalizing i with
  | nil => cases i <;> rfl
  | cons x xs ih =>
    cases i with
    | zero => exact congrArg (· :: xs) h
    | succ i => exact congrArg (x :: ·) (ih h)

theorem modAt_modAt {α : Type} (i : ℕ) (f g : α → α) (l : List α) : modAt i g (modAt i f l) = modAt i (fun x => g (f x)) l := by
  induction l generalizing i with
  | nil => cases i <;> rfl
  | cons x xs ih =>
    cases i with
    | zero => rfl
    | succ i => exact congrArg (x :: ·) (ih i)

theorem encOf_modEnc {n : ℕ} {s : State} (f : Encoder → Encoder) (h : n < s.ouv.encs.length) : encOf (modEnc n f s) n = f (encOf s n) :=
  getD_modAt_same f _ h

theorem modEnc_congr {n : ℕ} {s : State} {f g : Encoder → Encoder} (h : f (encOf s n) = g (encOf s n)) : modEnc n f s = modEnc n g s :=
  congrArg (fun l => modOuv (fun o => { o with encs := l }) s) (modAt_congr Encoder.reset h)

/-! ## What the Kerb leaves -/

/-- A register that neither an event nor the Kerb writes. -/
def KerbFree (r : ℕ) : Prop := EventFree r ∧ r ≠ Reg.krbStatus.base

/-- What the Kerb's entries and the outputs leave when they act: the tasks, the encoders, the time and every other register. -/
structure KerbKept (s t : State) : Prop where
  tasks : t.tasks = s.tasks
  encs : t.ouv.encs = s.ouv.encs
  time : t.ouv.time = s.ouv.time
  powered : t.ouv.powered = s.ouv.powered
  reg : ∀ r, KerbFree r → rdW t r = rdW s r

theorem KerbKept.refl (s : State) : KerbKept s s := ⟨rfl, rfl, rfl, rfl, fun _ _ => rfl⟩

theorem KerbKept.trans {s t u : State} (h : KerbKept s t) (k : KerbKept t u) : KerbKept s u :=
  ⟨k.tasks.trans h.tasks, k.encs.trans h.encs, k.time.trans h.time, k.powered.trans h.powered, fun r hr => (k.reg r hr).trans (h.reg r hr)⟩

theorem KerbKept.foldl {α : Type} {f : State → α → State} (h : ∀ s a, KerbKept s (f s a)) (l : List α) (s : State) : KerbKept s (l.foldl f s) := by
  induction l generalizing s with
  | nil => exact .refl s
  | cons a l ih => exact (h s a).trans (ih (f s a))

theorem kerbKept_postEvent (cls code ref pos st : ℕ) (d : List Byte) (s : State) : KerbKept s (postEvent cls code ref pos st d s) := by
  have h := eventFrame_postEvent cls code ref pos st d s
  exact ⟨h.get State.tasks, h.get (·.ouv.encs), h.get (·.ouv.time), h.get (·.ouv.powered), fun r hr => rdW_postEvent hr.1 _ _ _ _ _ _ s⟩

theorem kerbKept_bump (base i : ℕ) (s : State) : KerbKept s (bump base i s) := ⟨rfl, rfl, rfl, rfl, fun _ _ => rfl⟩

theorem kerbKept_setKrbFlag (b : ℕ) (s : State) : KerbKept s (setFlag Reg.krbStatus.base b s) :=
  ⟨rfl, rfl, rfl, rfl, fun r hr => rdW_setFlag_other _ _ _ _ hr.2⟩

theorem kerbKept_modOutput (n : ℕ) (f : Output → Output) (s : State) : KerbKept s (modOutput n f s) := ⟨rfl, rfl, rfl, rfl, fun _ _ => rfl⟩

theorem kerbKept_modEntry (e : ℕ) (f : KerbEntry → KerbEntry) (s : State) : KerbKept s (modEntry e f s) := ⟨rfl, rfl, rfl, rfl, fun _ _ => rfl⟩

theorem kerbKept_governed (n l : ℕ) (s : State) : KerbKept s (governed n l s) :=
  ((kerbKept_setKrbFlag 3 s).trans (kerbKept_bump _ _ _)).trans (kerbKept_postEvent _ _ _ _ _ _ _)

theorem kerbKept_driveOut (n : ℕ) (s : State) : KerbKept s (driveOut n s) := by
  unfold driveOut
  dsimp only
  split
  · exact kerbKept_modOutput _ _ s
  split
  · exact .refl s
  split
  · exact (kerbKept_modOutput _ _ s).trans (kerbKept_governed _ _ _)
  · exact kerbKept_modOutput _ _ s

theorem kerbKept_freeEntry (e : ℕ) (s : State) : KerbKept s (freeEntry e s) := by
  unfold freeEntry
  dsimp only
  split
  · exact (kerbKept_modEntry _ _ s).trans (kerbKept_driveOut _ _)
  · exact kerbKept_modEntry _ _ s

/-- A pulse stays where its output is on, and its entry is freed elsewhere. -/
theorem kerbKept_pulseOrFree {s u : State} (e n : ℕ) (h : KerbKept s u) : KerbKept s (if (outputOf u n).on then u else freeEntry e u) := by
  split
  · exact h
  · exact h.trans (kerbKept_freeEntry _ _)

theorem kerbKept_fireEntry (e : ℕ) (late : Bool) (s : State) : KerbKept s (fireEntry e late s) := by
  have hcount : KerbKept s (if late then bump Reg.krbSnapCnt.base 1 (bump Reg.krbSnapCnt.base 0 s) else bump Reg.krbSnapCnt.base 0 s) := by
    cases late
    · exact kerbKept_bump _ _ s
    · exact (kerbKept_bump _ _ s).trans (kerbKept_bump _ _ _)
  exact kerbKept_pulseOrFree e _ ((hcount.trans (kerbKept_modEntry e _ _)).trans (kerbKept_driveOut _ _))

theorem kerbKept_judgeEntry (e : ℕ) (s : State) : KerbKept s (judgeEntry e s) := by
  unfold judgeEntry
  dsimp only
  split
  · exact kerbKept_fireEntry _ _ s
  · exact (((kerbKept_setKrbFlag 0 s).trans (kerbKept_bump _ _ _)).trans (kerbKept_postEvent _ _ _ _ _ _ _)).trans (kerbKept_freeEntry _ _)

theorem kerbKept_judgeDeferred (enc : ℕ) (s : State) : KerbKept s (judgeDeferred enc s) := by
  refine .foldl (fun s e => ?_) _ s
  dsimp only
  split
  · split
    · exact (kerbKept_modEntry _ _ s).trans (kerbKept_judgeEntry _ _)
    · exact kerbKept_modEntry _ _ s
  · exact .refl s

theorem kerbFree_encStatus {n : ℕ} (hn : n < 4) : KerbFree (Reg.encStatus.off n 0) := by
  refine ⟨⟨?_, ?_, ?_⟩, ?_⟩
  · show 0x1C0104 + n * 64 + 0 * 0 ≠ Reg.itmEvtPidx.base
    have : Reg.itmEvtPidx.base < 0x1C0104 := by decide
    omega
  · show 0x1C0104 + n * 64 + 0 * 0 ≠ Reg.itmStatus.base
    have : Reg.itmStatus.base < 0x1C0104 := by decide
    omega
  · show 0x1C0104 + n * 64 + 0 * 0 ≠ Reg.pciStatus.base
    have : Reg.pciStatus.base < 0x1C0104 := by decide
    omega
  · show 0x1C0104 + n * 64 + 0 * 0 ≠ 0x1E0004
    omega

end Sys2Proof.Machine
end

