-- ==== Sys2Proof/Proofs/EncRows.lean ====
section
/-! What the rows of the encoder channels and the companion link leave. -/

namespace Sys2Proof.Machine

open Sys2Proof

/-! ## Direction -/

/-- A channel turns its direction round (R416). -/
def turnRound (n : ℕ) (s : State) : State :=
  s |> modEnc n (fun x => { x with reverse := !x.reverse, peak := x.pos }) |> setFlag (Reg.encStatus.off n 0) 0
    |> bump (Reg.encSnapCnt.off n 0) 0
    |> postEvent 0x0C 1 n (posField n (encOf s n).pos) 0 (leBytes 1 (b2n (!(encOf s n).reverse)))

/-- How far a channel stands past its peak, in its direction. -/
def pastPeak (e : Encoder) : ℤ := if e.reverse then posDiff e.peak e.pos else posDiff e.pos e.peak

theorem followDirection_eq (n : ℕ) (s : State) :
    followDirection n s =
      if 0 < pastPeak (encOf s n) then modEnc n (fun e => { e with peak := e.pos }) s
      else if pastPeak (encOf s n) ≤ -(encHyst s n : Int) then
        (if (encOf s n).reverse then judgeDeferred n (turnRound n s) else turnRound n s)
      else s := rfl

theorem pastPeak_forward {e : Encoder} (h : e.reverse = false) : pastPeak e = posDiff e.pos e.peak := if_neg (by rw [h]; decide)

theorem turnRound_encs (n : ℕ) (s : State) :
    (turnRound n s).ouv.encs = modAt n (fun x => { x with reverse := !x.reverse, peak := x.pos }) s.ouv.encs :=
  (eventFrame_postEvent _ _ _ _ _ _ _).get (·.ouv.encs)

theorem turnRound_tasks (n : ℕ) (s : State) : (turnRound n s).tasks = s.tasks := (eventFrame_postEvent _ _ _ _ _ _ _).get State.tasks

theorem encOf_turnRound {n : ℕ} {s : State} (h : n < s.ouv.encs.length) :
    encOf (turnRound n s) n = { encOf s n with reverse := !(encOf s n).reverse, peak := (encOf s n).pos } := by
  rw [encOf, turnRound_encs, getD_modAt_same _ _ h]
  rfl

theorem encOf_of_kept {s t : State} (h : KerbKept s t) (n : ℕ) : encOf t n = encOf s n := by rw [encOf, h.encs, encOf]

/-- What the direction's following leaves of a channel, beside its direction and its peak. -/
theorem encOf_followDirection {n : ℕ} {s : State} (h : n < s.ouv.encs.length) :
    ∃ r p, encOf (followDirection n s) n = { encOf s n with reverse := r, peak := p } := by
  rw [followDirection_eq]
  split
  · exact ⟨_, _, encOf_modEnc _ h⟩
  split
  · split
    · exact ⟨_, _, (encOf_of_kept (kerbKept_judgeDeferred n _) n).trans (encOf_turnRound h)⟩
    · exact ⟨_, _, encOf_turnRound h⟩
  · exact ⟨_, _, rfl⟩

theorem followDirection_tasks (n : ℕ) (s : State) : (followDirection n s).tasks = s.tasks := by
  rw [followDirection_eq]
  split
  · rfl
  split
  · split
    · exact (kerbKept_judgeDeferred n _).tasks.trans (turnRound_tasks n s)
    · exact turnRound_tasks n s
  · rfl

theorem movePos_tasks (n : ℕ) (d : ℤ) (s : State) : (movePos n d s).tasks = s.tasks := followDirection_tasks _ _

theorem length_encs_modEnc (n : ℕ) (f : Encoder → Encoder) (s : State) : (modEnc n f s).ouv.encs.length = s.ouv.encs.length := length_modAt _ _ _

/-- A position moves by a difference, and the channel keeps its Z latch. -/
theorem encOf_movePos {n : ℕ} (d : ℤ) {s : State} (h : n < s.ouv.encs.length) :
    (encOf (movePos n d s) n).pos = (encOf s n).pos + BitVec.ofInt 48 d ∧ (encOf (movePos n d s) n).zpos = (encOf s n).zpos := by
  obtain ⟨r, p, hr⟩ := encOf_followDirection (n := n) (s := modEnc n (fun e => { e with pos := e.pos + BitVec.ofInt 48 d }) s)
    (by rwa [length_encs_modEnc])
  rw [movePos, hr, encOf_modEnc _ h]
  exact ⟨rfl, rfl⟩

/-- A channel that turns round sets its flag. -/
theorem flagOf_turnRound {n : ℕ} (s : State) (hn : n < 4) : flagOf (turnRound n s) (Reg.encStatus.off n 0) 0 = true := by
  have hreg := congrArg BitVec.toNat ((kerbKept_postEvent 0x0C 1 n (posField n (encOf s n).pos) 0 (leBytes 1 (b2n (!(encOf s n).reverse)))
    (bump (Reg.encSnapCnt.off n 0) 0 (setFlag (Reg.encStatus.off n 0) 0
      (modEnc n (fun x => { x with reverse := !x.reverse, peak := x.pos }) s)))).reg _ (kerbFree_encStatus hn))
  have hset := flagOf_setFlag (Reg.encStatus.off n 0) 0 0 (modEnc n (fun x => { x with reverse := !x.reverse, peak := x.pos }) s)
    (by decide) (by decide)
  refine (congrArg (fun x => x.testBit 0) hreg).trans (hset.trans ?_)
  exact Bool.or_true _

/-! ## Serial readings -/

theorem takeReading_tasks (n v : ℕ) (s : State) : (takeReading n v s).tasks = s.tasks := by
  unfold takeReading
  dsimp only
  split
  · rw [followDirection_tasks]
    rfl
  · rw [movePos_tasks]
    rfl

/-- The first reading of a channel is its position. -/
theorem takeReading_first {n v : ℕ} {s : State} (hn : n < s.ouv.encs.length) (h : (encOf s n).last = none) :
    (encOf (takeReading n v s) n).pos = BitVec.ofNat 48 v := by
  unfold takeReading
  rw [h]
  obtain ⟨r, p, hr⟩ := encOf_followDirection (n := n)
    (s := modEnc n (fun e => { e with pos := BitVec.ofNat 48 v }) (modEnc n (fun e => { e with last := some v }) s))
    (by rwa [length_encs_modEnc, length_encs_modEnc])
  rw [hr, encOf_modEnc _ (by rwa [length_encs_modEnc])]

/-- The difference of two readings, the short way round. -/
theorem signed_difference {w v l : ℕ} {d : ℤ} (hw : 0 < w) (hl : l < 2 ^ w) (hv : v < 2 ^ w) (hd : d = (v : ℤ) - l)
    (hlo : -(2 ^ (w - 1) : ℤ) ≤ d) (hhi : d < 2 ^ (w - 1)) : signed w (v + 2 ^ w - l % 2 ^ w) = d := by
  have hpow : (2 : ℕ) ^ w = 2 * 2 ^ (w - 1) := by
    rw [← pow_succ']
    congr 1
    omega
  have hcast : ((2 ^ (w - 1) : ℕ) : ℤ) = 2 ^ (w - 1) := by push_cast; rfl
  rw [signed, Nat.mod_eq_of_lt hl]
  generalize (2 : ℕ) ^ (w - 1) = p at *
  rw [← hcast] at hlo hhi
  by_cases hle : l ≤ v
  · have hm : (v + 2 ^ w - l) % 2 ^ w = v - l := by
      rw [show v + 2 ^ w - l = (v - l) + 2 ^ w by omega, Nat.add_mod_right, Nat.mod_eq_of_lt (by omega)]
    rw [hm, if_pos (by omega)]
    omega
  · have hm : (v + 2 ^ w - l) % 2 ^ w = v + 2 ^ w - l := Nat.mod_eq_of_lt (by omega)
    rw [hm, if_neg (by omega)]
    omega

theorem encBits_pos (s : State) (n : ℕ) : 0 < encBits s n := by
  unfold encBits
  omega

/-- A later reading moves the position by the difference from the one before. -/
theorem takeReading_next {n v l : ℕ} {d : ℤ} {s : State} (hn : n < s.ouv.encs.length) (h : (encOf s n).last = some l)
    (hv : v < 2 ^ encBits s n) (hl : l < 2 ^ encBits s n) (hd : d = (v : ℤ) - l) (hlo : -(2 ^ (encBits s n - 1) : ℤ) ≤ d)
    (hhi : d < 2 ^ (encBits s n - 1)) :
    (encOf (takeReading n v s) n).pos = (encOf s n).pos + BitVec.ofInt 48 (if encInvert s n then -d else d) := by
  unfold takeReading
  rw [h]
  dsimp only
  have hpos := (encOf_movePos (n := n) (if encInvert s n then -d else d) (s := modEnc n (fun e => { e with last := some v }) s)
    (by rwa [length_encs_modEnc])).1
  rw [encOf_modEnc _ hn] at hpos
  rw [signed_difference (encBits_pos s n) hl hv hd hlo hhi]
  exact hpos

/-! ## The rows -/

theorem encUp_of {s : State} {n : ℕ} (hp : s.ouv.powered = true) (hn : n < 4) : encUp s n = true := by
  rw [encUp, hp, decide_eq_true hn]
  rfl

theorem encUp_not {s : State} {n : ℕ} (h : encUp s n = true) : ¬(!encUp s n) = true := by
  rw [h]
  decide

theorem encSerial_of {s : State} {n : ℕ} (hp : s.ouv.powered = true) (hn : n < 4) (hm : 2 ≤ encMode s n) : encSerial s n = true := by
  rw [encSerial, encUp_of hp hn, decide_eq_true hm]
  rfl

/-- The levels of a quadrature channel, taken. -/
def takeLevels (n : ℕ) (a b : Bool) (s : State) : State := modEnc n (fun e => { e with a := a, b := b }) s

/-- What new levels of a powered incremental channel leave, by the step of the cycle they make. -/
theorem quadChange_gives {n : ℕ} {a b : Bool} {s t : State} (hq : Quiet s) (hp : s.ouv.powered = true) (hn : n < 4) (hm : encMode s n = 1)
    (h : (let step := (quadPlace a b + 4 - quadPlace (encOf s n).a (encOf s n).b) % 4
      let sign : ℤ := if encInvert s n then -1 else 1
      if step = 1 then movePos n sign (takeLevels n a b s)
      else if step = 3 then movePos n (-sign) (takeLevels n a b s)
      else if step = 2 then setFlag (Reg.encStatus.off n 0) 3 (takeLevels n a b s) else takeLevels n a b s) = t)
    (ht : t.tasks = s.tasks) : Gives (.encQuadChange n a b) s t := by
  refine gives_of_effect (by unfold exec; rfl) hq ?_ ht
  have hup : encUp (takeLevels n a b s) n = true := encUp_of hp hn
  rw [← h]
  refine (if_neg (encUp_not hup)).trans ((if_neg (not_not.mpr hm)).trans ?_)
  dsimp only
  rw [apply_ite (setPending []), apply_ite (setPending []), apply_ite (setPending []), ← movePos_setPending, ← movePos_setPending]
  rfl

/-- The states that a frame of a serial channel leaves, once the channel is known to read. -/
theorem serialFrame_gives {n raw sensor : ℕ} {whole : Bool} {s t : State} (hq : Quiet s) (hup : encSerial s n = true) (hrd : (encOf s n).reading = true)
    (he : (let s := modEnc n (fun e => { e with reading := false }) (setPending [] s)
      if !whole then s |> setFlag (Reg.encStatus.off n 0) 2 |> bump (Reg.encSnapCnt.off n 0) 2
      else
        let v := raw % 2 ^ encBits s n
        let s := if encMode s n = 3 then modEnc n (fun e => { e with biss := sensor % 4 }) s else s
        takeReading n (if encMode s n = 2 ∧ rdB s (Reg.encSer.off n 0) 30 = true then grayDecode v else v) s) = setPending [] t)
    (ht : t.tasks = s.tasks) : Gives (.encSerialFrame n raw whole sensor) s t := by
  have hon : ¬(!encSerial s n || !(encOf s n).reading) = true := by
    rw [hup, hrd]
    decide
  refine gives_of_effect (by unfold exec; rfl) hq ?_ ht
  exact (if_neg hon).trans he

theorem gateOpenAll_tasks (s : State) : (gateOpenAll s).tasks = s.tasks :=
  foldl_keeps State.tasks (fun s p => gateOpen_tasks p s) _ s

/-- New levels of a powered incremental channel, by the step of the cycle that they make (R408). -/
theorem quadChange_cases {n : ℕ} {a b : Bool} {s : State} (hq : Quiet s) (hp : s.ouv.powered = true) (hn : n < 4) (hm : encMode s n = 1) :
    ((quadPlace a b + 4 - quadPlace (encOf s n).a (encOf s n).b) % 4 = 0 → Gives (.encQuadChange n a b) s (takeLevels n a b s))
      ∧ ((quadPlace a b + 4 - quadPlace (encOf s n).a (encOf s n).b) % 4 = 1 →
        Gives (.encQuadChange n a b) s (movePos n (if encInvert s n then -1 else 1) (takeLevels n a b s)))
      ∧ ((quadPlace a b + 4 - quadPlace (encOf s n).a (encOf s n).b) % 4 = 2 →
        Gives (.encQuadChange n a b) s (setFlag (Reg.encStatus.off n 0) 3 (takeLevels n a b s)))
      ∧ ((quadPlace a b + 4 - quadPlace (encOf s n).a (encOf s n).b) % 4 = 3 →
        Gives (.encQuadChange n a b) s (movePos n (if encInvert s n then 1 else -1) (takeLevels n a b s))) := by
  refine ⟨fun h => ?_, fun h => ?_, fun h => ?_, fun h => ?_⟩
  · refine quadChange_gives hq hp hn hm ?_ rfl
    dsimp only
    rw [h, if_neg (by decide), if_neg (by decide), if_neg (by decide)]
  · refine quadChange_gives hq hp hn hm ?_ (movePos_tasks _ _ _)
    dsimp only
    rw [h, if_pos rfl]
  · refine quadChange_gives hq hp hn hm ?_ rfl
    dsimp only
    rw [h, if_neg (by decide), if_neg (by decide), if_pos rfl]
  · refine quadChange_gives hq hp hn hm ?_ (movePos_tasks _ _ _)
    dsimp only
    rw [h, if_neg (by decide), if_pos rfl]
    cases encInvert s n with
    | false => rw [if_neg (by decide), if_neg (by decide)]
    | true => rw [if_pos rfl, if_pos rfl, neg_neg]

theorem zEdge_gives {n : ℕ} {s : State} (hq : Quiet s) (hp : s.ouv.powered = true) (hn : n < 4) (hm : encMode s n = 1) :
    Gives (.encZEdge n) s (bump (Reg.encSnapCnt.off n 0) 1 (setFlag (Reg.encStatus.off n 0) 1 (modEnc n (fun e => { e with zpos := e.pos }) s))) := by
  have hon : ¬(!encUp s n || encMode s n != 1) = true := by
    rw [encUp_of hp hn, hm]
    decide
  refine gives_of_effect (by unfold exec; rfl) hq ?_ rfl
  exact (if_neg hon).trans rfl

theorem serialRead_gives {n : ℕ} {s : State} (hq : Quiet s) (hup : encSerial s n = true) :
    Gives (.encSerialRead n) s (emit (.serialClock n) (modEnc n (fun e => { e with reading := true }) s)) := by
  refine gives_of_effect (by unfold exec; rfl) hq ?_ rfl
  exact (if_pos hup).trans rfl

theorem observerUpdate_gives {n : ℕ} {s : State} (hq : Quiet s) (hp : s.ouv.powered = true) (hn : n < 4) (hm : encMode s n ≠ 0) :
    Gives (.observerUpdate n) s (setLeads n (observe n s)) := by
  have hon : (encUp s n && encMode s n != 0) = true := by
    rw [encUp_of hp hn, Bool.true_and, bne_iff_ne]
    exact hm
  refine gives_of_effect (by unfold exec; rfl) hq ?_ (observe_tasks n s)
  rw [← setLeads_setPending, ← observe_setPending]
  exact if_pos hon

/-- A refresh of the positions arrives at a powered Ouvfi (R417). -/
theorem positionRefresh_gives {s t : State} (hq : Quiet s) (hw : wideUp s = true) (hp : s.ouv.powered = true)
    (ht : t = { s with
      refreshLost := false
      copies := s.ouv.encs.map fun e => { pos := e.pos, vhat := e.vhat, reverse := e.reverse, frac := 0 } }) :
    Gives .companionPositionRefresh s (gateOpenAll (if s.refreshLost then postEvent 0x0C 7 0 0 0 (leBytes 1 1) t else t)) := by
  subst ht
  have hon : ¬(!s.ouv.powered) = true := by
    rw [hp]
    decide
  refine gives_of_wide (by unfold exec; rfl) hw hq ?_ ?_
  · rw [← gateOpenAll_setPending, apply_ite (setPending []), ← postEvent_setPending]
    exact if_neg hon
  · rw [gateOpenAll_tasks]
    split
    · exact (eventFrame_postEvent _ _ _ _ _ _ _).get State.tasks
    · rfl

/-- A refresh of the positions stays away (R417). -/
theorem refreshLost_gives {s t : State} (hq : Quiet s) (hw : wideUp s = true)
    (ht : t = { s with refreshLost := true, copies := s.copies.map EncCopy.runOn }) :
    Gives .companionRefreshLost s (gateOpenAll (if s.refreshLost then t else postEvent 0x0C 7 0 0 0 (leBytes 1 0) t)) := by
  subst ht
  refine gives_of_wide (by unfold exec; rfl) hw hq ?_ ?_
  · rw [← gateOpenAll_setPending, apply_ite (setPending []), ← postEvent_setPending]
    refine congrArg gateOpenAll ?_
    show (if (!s.refreshLost) = true then _ else _) = _
    cases s.refreshLost with
    | false => rfl
    | true => rfl
  · rw [gateOpenAll_tasks]
    split
    · rfl
    · exact (eventFrame_postEvent _ _ _ _ _ _ _).get State.tasks

/-- An update of the observer that follows the position (R414), between the updates that filter the acceleration. -/
theorem observe_near {n : ℕ} {s : State} {err v : ℤ} (herr : err = (BitVec.ofNat 64 ((encOf s n).pos.toNat * 65536) - (encOf s n).phat).toInt)
    (hv : v = clampI (-(2 ^ 39)) (2 ^ 39 - 1) (divHalfEven ((encOf s n).vhat * 2 ^ 24 + obsKi (obsBw s n) * err) (2 ^ 24)))
    (hup : ((encOf s n).updates + 1) % 1000 ≠ 0) (h : err.natAbs ≤ 65535 * 65536) :
    observe n s = modEnc n (fun e => { e with
        updates := e.updates + 1, vhat := v
        phat := BitVec.ofInt 64 (divHalfEven (((encOf s n).phat.toNat : Int) * 2 ^ 40 + v * 2 ^ 24 + obsKp (obsBw s n) * err) (2 ^ 40)) }) s := by
  have hno : decide (65535 * 65536 < err.natAbs) = false := decide_eq_false (Nat.not_lt.mpr h)
  subst hv
  have hup' : ¬(((encOf s n).track (obsKi (obsBw s n)) (obsKp (obsBw s n)) err).updates + 1) % 1000 = 0 := hup
  unfold observe
  dsimp only
  rw [← herr, hno, if_neg Bool.false_ne_true, if_neg Bool.false_ne_true, if_neg hup']
  exact modEnc_congr rfl

/-- An update of the observer that has lost the position (R415). -/
theorem observe_far {n : ℕ} {s : State} {err : ℤ} (herr : err = (BitVec.ofNat 64 ((encOf s n).pos.toNat * 65536) - (encOf s n).phat).toInt)
    (hup : ((encOf s n).updates + 1) % 1000 ≠ 0) (h : 65535 * 65536 < err.natAbs) :
    observe n s = bump (Reg.encSnapCnt.off n 0) 3 (modEnc n (fun e => { e with
          updates := e.updates + 1, vhat := 0, ahat := 0, phat := BitVec.ofNat 64 ((encOf s n).pos.toNat * 65536) }) s) := by
  have hyes : decide (65535 * 65536 < err.natAbs) = true := decide_eq_true h
  have hup' : ¬((encOf s n).restart.updates + 1) % 1000 = 0 := hup
  unfold observe
  dsimp only
  rw [← herr, hyes, if_pos rfl, if_pos rfl, if_neg hup']
  exact congrArg _ (modEnc_congr rfl)

/-- A whole frame of a serial channel is a reading (R410), and of a BiSS C sensor its two bits (R411). -/
theorem serialFrame_whole {n raw sensor : ℕ} {s : State} (hq : Quiet s) (hup : encSerial s n = true) (hrd : (encOf s n).reading = true) :
    Gives (.encSerialFrame n raw true sensor) s
      (takeReading n (if encMode s n = 2 ∧ rdB s (Reg.encSer.off n 0) 30 = true then grayDecode (raw % 2 ^ encBits s n) else raw % 2 ^ encBits s n)
        (if encMode s n = 3 then modEnc n (fun e => { e with biss := sensor % 4 }) (modEnc n (fun e => { e with reading := false }) s)
          else modEnc n (fun e => { e with reading := false }) s)) := by
  refine serialFrame_gives hq hup hrd ?_ ?_
  · rw [← takeReading_setPending, apply_ite (setPending [])]
    by_cases h3 : encMode s n = 3
    · have h3' : encMode (modEnc n (fun e => { e with reading := false }) (setPending [] s)) n = 3 := h3
      dsimp only
      rw [Bool.not_true, if_neg Bool.false_ne_true, if_pos h3', if_pos h3]
      rfl
    · have h3' : ¬encMode (modEnc n (fun e => { e with reading := false }) (setPending [] s)) n = 3 := h3
      dsimp only
      rw [Bool.not_true, if_neg Bool.false_ne_true, if_neg h3', if_neg h3]
      rfl
  · rw [takeReading_tasks]
    split
    · rfl
    · rfl

/-- Settles O47, clause by clause: the state after each row is written out under the row's conditions, and where a clause speaks of what an
operation leaves, the operation's own lemma says it. -/
theorem encodersAndCopies : Obligations.EncodersAndCopies := by
  intro n e s hq hn he hlen
  subst he
  refine ⟨fun a b step hp hm hstep => ?_, fun d => encOf_movePos d hlen, fun t ht hr => ⟨fun h => ?_, fun h1 h2 => ?_, fun h => ?_⟩,
    fun hp hm => zEdge_gives hq hp hn hm, fun hp hm => serialRead_gives hq (encSerial_of hp hn hm),
    fun raw sensor v t hp hm hrd ht hv => ⟨?_, ?_⟩,
    fun v => ⟨takeReading_first hlen, fun l d hl hv hlb hd hlo hhi => takeReading_next hlen hl hv hlb hd hlo hhi⟩,
    fun hp hm => observerUpdate_gives hq hp hn hm,
    fun err v bw herr hbw hv hup => ⟨fun h => ?_, fun h => ?_⟩, fun t hw hp ht => positionRefresh_gives hq hw hp ht,
    fun t hw ht => refreshLost_gives hq hw ht, fun hw hp => ?_, fun hw hp => ?_,
    fun hw => ⟨gives_of_wide_down (by unfold exec; rfl) hw hq, gives_of_wide_down (by unfold exec; rfl) hw hq,
      gives_of_wide_down (by unfold exec; rfl) hw hq, gives_of_wide_down (by unfold exec; rfl) hw hq⟩⟩
  · rw [hstep]
    exact quadChange_cases hq hp hn hm
  · rw [ht, followDirection_eq, pastPeak_forward hr, if_pos h]
  · rw [ht, followDirection_eq, pastPeak_forward hr, if_neg (by omega), if_neg (by omega)]
  · have hturn : t = turnRound n s := by
      rw [ht, followDirection_eq, pastPeak_forward hr, if_neg (by omega), if_pos h, hr, if_neg (by decide)]
    rw [hturn, encOf_turnRound hlen, hr]
    exact ⟨rfl, rfl, flagOf_turnRound s hn⟩
  · subst ht
    exact serialFrame_gives hq (encSerial_of hp hn hm) hrd rfl rfl
  · subst ht hv
    exact serialFrame_whole hq (encSerial_of hp hn hm) hrd
  · subst hbw
    rw [observe_near herr hv hup h]
    exact modEnc_congr rfl
  · rw [observe_far herr hup h]
    exact congrArg _ (modEnc_congr rfl)
  · refine gives_of_wide (by unfold exec; rfl) hw hq ?_ rfl
    exact if_pos hp
  · refine gives_of_wide (by unfold exec; rfl) hw hq ?_ rfl
    exact if_pos hp

end Sys2Proof.Machine
end

