-- ==== Sys2Proof/Proofs/DioRows.lean ====
section
/-! What the rows of the DIO inputs and outputs leave. -/

namespace Sys2Proof.Machine

open Sys2Proof

/-! ## Elements changed alike -/

theorem modOutput_congr {n : ℕ} {s : State} {f g : Output → Output} (h : f (outputOf s n) = g (outputOf s n)) : modOutput n f s = modOutput n g s :=
  congrArg (fun l => modOuv (fun o => { o with outputs := l }) s) (modAt_congr Output.reset h)

theorem modInput_congr {n : ℕ} {s : State} {f g : Input → Input} (h : f (inputOf s n) = g (inputOf s n)) : modInput n f s = modInput n g s :=
  congrArg (fun l => modOuv (fun o => { o with inputs := l }) s) (modAt_congr Input.reset h)

/-! ## Inputs -/

/-- A line that changes (R419). -/
theorem rawTransition_gives {n : ℕ} {level : Bool} {s : State} (hq : Quiet s) (hne : (inputOf s n).raw ≠ level) :
    Gives (.dioRawTransition n level) s (modInput n (fun i => { i with
      raw := level
      start := if s.ouv.powered && !isOut s n && level != (inputOf s n).level then some (s.ouv.time, fieldPos s (dioEnc s n)) else none }) s) := by
  have hno : ¬((inputOf s n).raw == level) = true := by rwa [beq_iff_eq]
  refine gives_of_effect (by unfold exec; rfl) hq ?_ rfl
  exact (if_neg hno).trans rfl

theorem rawTransition_cases {n : ℕ} {level : Bool} {s : State} (hq : Quiet s) (hne : (inputOf s n).raw ≠ level) :
    (s.ouv.powered = true → isOut s n = false → level ≠ (inputOf s n).level → Gives (.dioRawTransition n level) s
        (modInput n (fun i => { i with raw := level, start := some (s.ouv.time, fieldPos s (dioEnc s n)) }) s))
    ∧ (s.ouv.powered = false ∨ isOut s n = true ∨ level = (inputOf s n).level → Gives (.dioRawTransition n level) s
        (modInput n (fun i => { i with raw := level, start := none }) s)) := by
  have hgives := rawTransition_gives hq hne
  refine ⟨fun hp ho hl => ?_, fun h => ?_⟩
  · rwa [if_pos (by simp [hp, ho, hl])] at hgives
  · rwa [if_neg (by rcases h with h | h | h <;> simp [h])] at hgives

theorem rawTransition_same {n : ℕ} {level : Bool} {s : State} (hq : Quiet s) (h : (inputOf s n).raw = level) : Gives (.dioRawTransition n level) s s := by
  refine gives_of_effect (by unfold exec; rfl) hq ?_ rfl
  exact if_pos (beq_iff_eq.mpr h)

theorem trainEnded_tasks (p : ℕ) (item : Word) (s : State) : (trainEnded p item s).tasks = s.tasks := by
  unfold trainEnded
  split
  · rfl
  · exact closeIfDone_tasks _ _

theorem endTrain_tasks (e : ℕ) (s : State) : (endTrain e s).tasks = s.tasks := trainEnded_tasks _ _ _

theorem setStop_tasks (e : ℕ) (p : Pos) (s : State) : (setStop e p s).tasks = s.tasks := by
  unfold setStop
  dsimp only
  split
  · exact endTrain_tasks _ _
  · rfl

theorem closeTrains_tasks (k : ℕ) (p : Pos) (s : State) : (closeTrains k p s).tasks = s.tasks := by
  unfold closeTrains
  dsimp only
  split
  · rfl
  · refine foldl_keeps State.tasks (fun u e => ?_) _ _
    split
    · exact setStop_tasks _ _ _
    · rfl

/-- An edge that an input accepts (R419, R420, R433). -/
theorem edgeAccept_gives {n : ℕ} {s u : State} {t : DevTime} {p : Pos} {e : Edge} (hq : Quiet s) (hstart : (inputOf s n).start = some (t, p))
    (hp : s.ouv.powered = true) (ho : isOut s n = false) (hraw : (inputOf s n).raw ≠ (inputOf s n).level)
    (he : e = { chan := n, level := (inputOf s n).raw, time := t, pos := p, opens := [], closes := [] })
    (hu : u = bump Reg.dioSnapCnt.base 0 (writeEdgeWords n (inputOf s n).raw t p (modInput n (fun i => { i with level := i.raw, start := none }) s))) :
    Gives (.dioEdgeAccept n) s
      (queueEdge e (((sourcesAt u n).filter fun k => !opening u (inputOf s n).raw k).foldl (fun u k => closeTrains k (edgePos u k e) u) u)) := by
  have hon : ¬(!s.ouv.powered || isOut s n || (inputOf s n).raw == (inputOf s n).level) = true := by simp [hp, ho, hraw]
  have hfold := foldl_setPending_of (fun u k => closeTrains k (edgePos u k e) u) (fun u k => closeTrains k (edgePos u k e) u)
    (fun q s k => closeTrains_setPending k (edgePos s k e) q s) ((sourcesAt u n).filter fun k => !opening u (inputOf s n).raw k) [] u
  refine gives_of_effect (by unfold exec; rfl) hq ?_ ?_
  · show (match (inputOf s n).start with | none => _ | some (t, p) => _) = _
    rw [hstart, ← queueEdge_setPending, ← hfold, he, hu]
    exact if_neg hon
  · rw [queueEdge_tasks, foldl_keeps State.tasks (fun u k => closeTrains_tasks k _ u), hu]
    rfl

/-! ## The edge queue -/

/-- Where an edge is put: behind those accepted before it, before one of a higher input with its time (R26). -/
theorem insertEdge_splits (e : Edge) (q : List Edge) :
    ∃ a b, q = a ++ b ∧ insertEdge e q = a ++ e :: b ∧ (∀ x ∈ a, x.time = e.time → x.chan ≤ e.chan)
      ∧ ∀ x, b.head? = some x → x.time = e.time ∧ e.chan < x.chan := by
  induction q with
  | nil => exact ⟨[], [], rfl, rfl, fun x hx => absurd hx (List.not_mem_nil), fun x hx => by cases hx⟩
  | cons y ys ih =>
    by_cases h : y.time = e.time ∧ e.chan < y.chan
    · exact ⟨[], y :: ys, rfl, if_pos h, fun x hx => absurd hx (List.not_mem_nil), fun x hx => by cases hx; exact h⟩
    · obtain ⟨a, b, hq, hins, ha, hb⟩ := ih
      refine ⟨y :: a, b, by rw [hq, List.cons_append], (if_neg h).trans (by rw [hins, List.cons_append]), fun x hx ht => ?_, hb⟩
      rcases List.mem_cons.mp hx with rfl | hx
      · exact Nat.not_lt.mp fun hc => h ⟨ht, hc⟩
      · exact ha x hx ht

theorem queueEdge_full {e : Edge} {s : State} (h : 64 ≤ s.ouv.edgeQ.length) :
    queueEdge e s = modOuv (fun o => { o with edgesLost := o.edgesLost + 1 }) (bump Reg.dioSnapCnt.base 1 s) := if_pos h

/-- An edge that finds a place in the queue, with the sources it opens and closes items of. -/
theorem queueEdge_room {e x : Edge} {opens : List ℕ} {s u : State} (h : s.ouv.edgeQ.length < 64)
    (ho : opens = (sourcesAt s e.chan).filter (opening s e.level))
    (hu : u = modOuv (fun o => { o with openOrd := opens.foldl (fun l k => modAt k (· + 1) l) o.openOrd }) s)
    (hx : x = { e with
      opens := opens.map (fun k => (k, u.ouv.openOrd.getD k 0))
      closes := (sourcesAt s e.chan).filter fun k => !opening s e.level k }) :
    queueEdge e s = if bitOf (dioCfg s e.chan) 5 then postEvent 0x0C 5 e.chan (posField (dioEnc s e.chan) e.pos) 0
        (leBytes 1 (b2n e.level) ++ leBytes 1 (dioEnc s e.chan)) (settleEdges (modOuv (fun o => { o with edgeQ := insertEdge x o.edgeQ }) u))
      else settleEdges (modOuv (fun o => { o with edgeQ := insertEdge x o.edgeQ }) u) := by
  subst hx hu ho
  unfold queueEdge
  rw [if_neg (Nat.not_le.mpr h)]
  have hcfg (f : Ouvfi → Ouvfi) (s : State) : dioCfg (settleEdges (modOuv f s)) e.chan = dioCfg s e.chan := rfl
  have hcfg' (f : Ouvfi → Ouvfi) (s : State) : dioCfg (modOuv f s) e.chan = dioCfg s e.chan := rfl
  have hopen (f : Ouvfi → Ouvfi) (s : State) (l : Bool) (k : ℕ) : opening (modOuv f s) l k = opening s l k := rfl
  have hsources (f : Ouvfi → Ouvfi) (s : State) : sourcesAt (modOuv f s) e.chan = sourcesAt s e.chan := rfl
  simp only [dioEnc, hcfg, hcfg', hopen, hsources]

/-! ## Outputs -/

theorem governed_eq (n l : ℕ) (s : State) : governed n l s = postEvent 3 4
    (match s.ouv.entries.find? (pulsing n) with | some e => e.item.toNat | none => 0)
    (match s.ouv.entries.find? (pulsing n) with | some e => posField e.enc (fieldPos s e.enc) | none => chanPos s n) 0
    (leBytes 1 n ++ leBytes 1 l) (bump Reg.krbSnapCnt.base 4 (setFlag Reg.krbStatus.base 3 s)) := by
  unfold governed
  cases s.ouv.entries.find? (pulsing n) with
  | none => rfl
  | some e => rfl

/-- What holds an output on, in force. -/
def usedOut (s : State) (n : ℕ) : Bool := isOut s n && !safeOn s && wantsOn s n

theorem driveOut_released {n : ℕ} {s : State} (h : usedOut s n = false) :
    driveOut n s = modOutput n (fun x => { x with
      on := false, locked := (outputOf s n).locked && wantsOn s n, lastOff := if (outputOf s n).on then some s.ouv.time else x.lastOff }) s := by
  have hoff : (!(usedOut s n)) = true := by rw [h]; rfl
  exact (if_pos hoff).trans (modOutput_congr rfl)

theorem usedOut_not {n : ℕ} {s : State} (h : usedOut s n = true) : ¬(!(usedOut s n)) = true := by
  rw [h]
  decide

theorem driveOut_held {n : ℕ} {s : State} (h : usedOut s n = true) (ho : (outputOf s n).on = true ∨ (outputOf s n).locked = true) :
    driveOut n s = s :=
  (if_neg (usedOut_not h)).trans (if_pos ((Bool.or_eq_true _ _).mpr ho))

theorem driveOut_starting {n : ℕ} {s : State} (h : usedOut s n = true) (ho : (outputOf s n).on = false) (hl : (outputOf s n).locked = false) :
    driveOut n s = match startLimit s n with
      | some l => governed n l (modOutput n (fun x => { x with locked := true }) s)
      | none => modOutput n (fun x => { x with
          on := true, since := s.ouv.time, starts := s.ouv.time :: x.starts.filter fun t => decide (nsSince t s.ouv.time < 1000000000) }) s :=
  (if_neg (usedOut_not h)).trans (if_neg (by rw [ho, hl]; decide))

theorem startLimit_eq (s : State) (n : ℕ) {gap : ℕ} (hg : gap = bits (tvRead s (Reg.krbLim.off n 0)) 16 16 * 100000) :
    startLimit s n = if gap ≠ 0 ∧ (outputOf s n).lastOff.elim false (fun t => decide (nsSince t s.ouv.time < gap)) = true then some 1
      else if bits (tvRead s (Reg.krbRate.off n 0)) 0 16 ≠ 0 ∧ bits (tvRead s (Reg.krbRate.off n 0)) 0 16
        ≤ ((outputOf s n).starts.filter fun t => decide (nsSince t s.ouv.time < 1000000000)).length then some 2
      else none := by
  subst hg
  rfl

theorem elim_false_iff {α : Type} (o : Option α) (p : α → Bool) : o.elim false p = true ↔ ∃ a, o = some a ∧ p a = true := by
  cases o with
  | none => simp
  | some a => simp

/-- Of the limits, one is the gap's. -/
theorem limit_gap_iff {a b : Prop} [Decidable a] [Decidable b] : (if a then some 1 else if b then some 2 else none) = some 1 ↔ a := by
  by_cases ha : a
  · simp [ha]
  · by_cases hb : b
    · simp [ha, hb]
    · simp [ha, hb]

theorem startLimit_gap {n gap : ℕ} {s : State} (hg : gap = bits (tvRead s (Reg.krbLim.off n 0)) 16 16 * 100000) :
    startLimit s n = some 1 ↔ gap ≠ 0 ∧ ∃ t, (outputOf s n).lastOff = some t ∧ nsSince t s.ouv.time < gap := by
  rw [startLimit_eq s n hg, limit_gap_iff, elim_false_iff]
  simp only [decide_eq_true_eq]

theorem startLimit_rate {n rate : ℕ} {s : State} (hr : rate = bits (tvRead s (Reg.krbRate.off n 0)) 0 16) (h : startLimit s n = none) :
    rate = 0 ∨ ((outputOf s n).starts.filter fun t => decide (nsSince t s.ouv.time < 1000000000)).length < rate := by
  subst hr
  unfold startLimit at h
  dsimp only at h
  split at h
  · exact absurd h (by simp)
  split at h
  · exact absurd h (by simp)
  · next hc => omega

/-! ## Tasks under the rows -/

theorem driveAll_tasks (s : State) : (driveAll s).tasks = s.tasks := foldl_keeps State.tasks (fun s n => driveOut_tasks n s) _ s

/-! ## The rows of the outputs -/

/-- The outputs as a write of DIO_OUT leaves them: a bit that changes is the host's from now on. -/
theorem dioOutWrite_gives {w : Writer} {v : Word} {s : State} (hq : Quiet s) (hm : MayWrite s w Reg.dioOut.base v) (hp : s.ouv.powered = true) :
    Gives (.dioOutWrite w v) s (driveAll (modOuv (fun o => { o with outputs := o.outputs.zipIdx.map (fun x =>
        if v.toNat.testBit x.2 = (rd s Reg.dioOut.base).testBit x.2 then x.1 else { x.1 with fuse := false }) })
          (wr Reg.dioOut.base v.toNat s))) := by
  have hon : ¬(!s.ouv.powered) = true := by rw [hp]; decide
  refine gated_gives (by unfold exec; rfl) hq hm ?_ (driveAll_tasks _)
  refine (if_neg hon).trans ?_
  rw [← driveAll_setPending]
  refine congrArg (fun l => driveAll (modOuv (fun o => { o with outputs := l }) (wr Reg.dioOut.base v.toNat (setPending [] s)))) ?_
  refine List.map_congr_left fun x hx => ?_
  by_cases h : v.toNat.testBit x.2 = (rd s Reg.dioOut.base).testBit x.2
  · rw [if_pos h]
    exact if_neg (by rw [bne_iff_ne]; exact not_not.mpr h)
  · rw [if_neg h]
    exact if_pos (by rw [bne_iff_ne]; exact h)

theorem dioEnc_wr (n v : ℕ) (s : State) : dioEnc (wr (Reg.dioCfg.off n 0) (v % 64) s) n = bits v 2 2 := by
  rw [dioEnc, dioCfg, rd_wr_same, bits, bits]
  omega

/-- What a write of DIO_CFG leaves of a powered channel. -/
theorem writeDioCfg_eq {n : ℕ} {v : Word} {s : State} (hp : s.ouv.powered = true) :
    writeDioCfg n v s = if isOut s n ≠ v.toNat.testBit 0 ∧ dirFixed s n = true then setFlag Reg.dioStatus.base 3 s
      else driveOut n (if isOut s n = true ∧ v.toNat.testBit 0 = false then
          becomeInput n (modOutput n (fun x => { x with fuse := false }) (wr (Reg.dioCfg.off n 0) (v.toNat % 64) s))
        else if isOut s n = false ∧ v.toNat.testBit 0 = true then
          modInput n (fun x => { x with level := false, start := none })
            (modOutput n (fun x => { x with fuse := false }) (wr (Reg.dioCfg.off n 0) (v.toNat % 64) s))
        else modOutput n (fun x => { x with fuse := false }) (wr (Reg.dioCfg.off n 0) (v.toNat % 64) s)) := by
  have hon : ¬(!s.ouv.powered) = true := by rw [hp]; decide
  refine (if_neg hon).trans ?_
  dsimp only
  cases isOut s n <;> cases v.toNat.testBit 0 <;> cases dirFixed s n <;> rfl

theorem dioCfgWrite_gives {w : Writer} {n : ℕ} {v : Word} {s t : State} (hq : Quiet s) (hn : n < 32) (hm : MayWrite s w (Reg.dioCfg.off n 0) v)
    (he : writeDioCfg n v s = t) (ht : t.tasks = s.tasks) : Gives (.dioCfgWrite w n v) s t := by
  refine gives_of_effect (by unfold exec; rfl) hq ?_ ht
  refine (if_neg (Nat.not_le.mpr hn)).trans ?_
  rw [gate_pass_pending [] hm, writeDioCfg_setPending, he]

/-- A channel that becomes an input, with the encoder that the new configuration names (R419). -/
theorem becomeInput_eq {n v : ℕ} {s t : State}
    (ht : t = modOutput n (fun x => { x with fuse := false }) (wr (Reg.dioCfg.off n 0) (v % 64) s)) :
    becomeInput n t = modInput n (fun x => { x with
      level := false, start := if (inputOf s n).raw then some (s.ouv.time, fieldPos s (bits v 2 2)) else none }) t := by
  subst ht
  have henc : dioEnc (modOutput n (fun x => { x with fuse := false }) (wr (Reg.dioCfg.off n 0) (v % 64) s)) n = bits v 2 2 := dioEnc_wr n v s
  unfold becomeInput
  dsimp only
  rw [henc]
  exact modInput_congr rfl

theorem dioCfgWrite_cases {w : Writer} {n : ℕ} {v : Word} {s t : State} (hq : Quiet s) (hn : n < 32)
    (ht : t = modOutput n (fun x => { x with fuse := false }) (wr (Reg.dioCfg.off n 0) (v.toNat % 64) s))
    (hm : MayWrite s w (Reg.dioCfg.off n 0) v) (hp : s.ouv.powered = true) :
    (isOut s n = v.toNat.testBit 0 → Gives (.dioCfgWrite w n v) s (driveOut n t))
      ∧ (isOut s n ≠ v.toNat.testBit 0 → dirFixed s n = true → Gives (.dioCfgWrite w n v) s (setFlag Reg.dioStatus.base 3 s))
      ∧ (isOut s n = true → v.toNat.testBit 0 = false → dirFixed s n = false → Gives (.dioCfgWrite w n v) s
          (driveOut n (modInput n (fun x => { x with
            level := false, start := if (inputOf s n).raw then some (s.ouv.time, fieldPos s (bits v.toNat 2 2)) else none }) t)))
      ∧ (isOut s n = false → v.toNat.testBit 0 = true → dirFixed s n = false → Gives (.dioCfgWrite w n v) s
          (driveOut n (modInput n (fun x => { x with level := false, start := none }) t))) := by
  have hw := writeDioCfg_eq (n := n) (v := v) hp
  rw [← ht] at hw
  have htasks : t.tasks = s.tasks := by rw [ht]; rfl
  refine ⟨fun h => ?_, fun h hf => ?_, fun ho hv hf => ?_, fun ho hv hf => ?_⟩
  · refine dioCfgWrite_gives hq hn hm ?_ ((driveOut_tasks n t).trans htasks)
    rw [hw, if_neg fun hc => hc.1 h, if_neg fun hc => ?_, if_neg fun hc => ?_]
    · exact absurd (hc.1.symm.trans (h.trans hc.2)) (by decide)
    · exact absurd (hc.1.symm.trans (h.trans hc.2)) (by decide)
  · exact dioCfgWrite_gives hq hn hm (hw.trans (if_pos ⟨h, hf⟩)) rfl
  · refine dioCfgWrite_gives hq hn hm ?_ ((driveOut_tasks n _).trans htasks)
    rw [hw, if_neg (by simp [hf]), if_pos ⟨ho, hv⟩, becomeInput_eq ht]
  · refine dioCfgWrite_gives hq hn hm ?_ ((driveOut_tasks n _).trans htasks)
    rw [hw, if_neg (by simp [hf]), if_neg (by simp [ho]), if_pos ⟨ho, hv⟩]

theorem outputOverload_gives {n : ℕ} {s : State} (hq : Quiet s) (hp : s.ouv.powered = true) (ho : isOut s n = true) :
    (rdB s Reg.dioOvl.base n = false → Gives (.outputOverload n) s (postEvent 0x0C 4 n (chanPos s n) 0 []
        (bump Reg.dioSnapCnt.base 3 (setFlag Reg.dioStatus.base 2 (wr Reg.dioOvl.base (rd s Reg.dioOvl.base ||| 2 ^ n) s)))))
      ∧ (rdB s Reg.dioOvl.base n = true → Gives (.outputOverload n) s s) := by
  refine ⟨fun h => ?_, fun h => ?_⟩
  · have hon : ¬(!s.ouv.powered || !isOut s n || rdB s Reg.dioOvl.base n) = true := by simp [hp, ho, h]
    refine gives_of_effect (by unfold exec; rfl) hq ?_ ((eventFrame_postEvent _ _ _ _ _ _ _).get State.tasks)
    refine (if_neg hon).trans ?_
    rw [← postEvent_setPending]
    rfl
  · have hon : (!s.ouv.powered || !isOut s n || rdB s Reg.dioOvl.base n) = true := by simp [h]
    refine gives_of_effect (by unfold exec; rfl) hq ?_ rfl
    exact if_pos hon

theorem maxPulseCut_gives {n : ℕ} {s : State} (hq : Quiet s) (hp : s.ouv.powered = true) (ho : (outputOf s n).on = true) (hs : safeOn s = false)
    (hm : bits (tvRead s (Reg.krbLim.off n 0)) 0 16 ≠ 0) :
    Gives (.outputMaxPulseCut n) s (governed n 0 (modOutput n (fun x => { x with on := false, locked := true, lastOff := some s.ouv.time }) s)) := by
  have hon : ¬(!s.ouv.powered || !(outputOf s n).on || safeOn s || bits (tvRead s (Reg.krbLim.off n 0)) 0 16 == 0) = true := by
    simp [hp, ho, hs, hm]
  refine gives_of_effect (by unfold exec; rfl) hq ?_ (kerbKept_governed n 0 _).tasks
  rw [← governed_setPending]
  exact if_neg hon

/-- Without the field supply nothing of Ouvfi moves. -/
theorem unpowered_rows {w : Writer} {n : ℕ} {v : Word} {s : State} (hq : Quiet s) (hn : n < 32) (hp : s.ouv.powered = false) :
    Gives (.dioEdgeAccept n) s s ∧ Gives (.outputOverload n) s s ∧ Gives (.outputOverloadClear n) s s ∧ Gives (.outputMaxPulseCut n) s s
      ∧ (MayWrite s w Reg.dioOut.base v → Gives (.dioOutWrite w v) s s)
      ∧ (MayWrite s w (Reg.dioCfg.off n 0) v → Gives (.dioCfgWrite w n v) s s) := by
  have hoff : (!s.ouv.powered) = true := by rw [hp]; rfl
  refine ⟨?_, ?_, ?_, ?_, fun hm => ?_, fun hm => ?_⟩
  · refine gives_of_effect (by unfold exec; rfl) hq ?_ rfl
    show (match (inputOf s n).start with | none => _ | some (t, p) => _) = _
    cases (inputOf s n).start with
    | none => rfl
    | some x => exact if_pos (by show (!s.ouv.powered || _ || _) = true; rw [hoff]; rfl)
  · refine gives_of_effect (by unfold exec; rfl) hq ?_ rfl
    exact if_pos (by show (!s.ouv.powered || _ || _) = true; rw [hoff]; rfl)
  · refine gives_of_effect (by unfold exec; rfl) hq ?_ rfl
    exact if_neg (by show ¬(s.ouv.powered && _) = true; rw [hp]; exact Bool.false_ne_true)
  · refine gives_of_effect (by unfold exec; rfl) hq ?_ rfl
    exact if_pos (by show (!s.ouv.powered || _ || _ || _) = true; rw [hoff]; rfl)
  · refine gated_gives (by unfold exec; rfl) hq hm ?_ rfl
    exact if_pos hoff
  · exact dioCfgWrite_gives hq hn hm (if_pos hoff) rfl

/-- Settles O48: the rows of the inputs and the outputs by their branches, the edge queue by its place for an edge, an output by what holds it. -/
theorem fieldInputsAndOutputs : Obligations.FieldInputsAndOutputs := by
  intro w n v i o s hq hn hi ho
  subst hi ho
  refine ⟨fun level h => rawTransition_same hq h, fun level h => rawTransition_cases hq h, fun t p e u hs hp ho hr he hu => ?_,
    fun e => ⟨queueEdge_full, fun opens u x h ho hu hx => ?_, insertEdge_splits e⟩, fun hm hp => dioOutWrite_gives hq hm hp,
    fun used hu => ⟨fun h => ?_, fun h ho => ?_, fun h ho hl hs => ?_, fun l h ho hl hs => ?_⟩,
    fun gap rate hg hr => ⟨startLimit_gap hg, startLimit_rate hr⟩, fun t ht hm hp => dioCfgWrite_cases hq hn ht hm hp,
    fun hp ho => outputOverload_gives hq hp ho, fun hp => ?_, fun hp ho hs hm => maxPulseCut_gives hq hp ho hs hm, fun l => governed_eq n l s,
    fun hp => unpowered_rows hq hn hp⟩
  · exact edgeAccept_gives hq hs hp ho hr he hu
  · have hroom := queueEdge_room h ho hu hx
    exact ⟨fun hb => by rw [hroom, hb, if_neg Bool.false_ne_true], fun hb => by rw [hroom, hb, if_pos rfl]⟩
  · exact driveOut_released (hu.symm.trans h)
  · exact driveOut_held (hu.symm.trans h) ho
  · rw [driveOut_starting (hu.symm.trans h) ho hl, hs]
  · rw [driveOut_starting (hu.symm.trans h) ho hl, hs]
  · have hon : (s.ouv.powered && decide (n < 32)) = true := by rw [hp, decide_eq_true hn]; rfl
    refine gives_of_effect (by unfold exec; rfl) hq ?_ rfl
    exact (if_pos hon).trans rfl

end Sys2Proof.Machine
end

