-- ==== Sys2Proof/Proofs/KerbTrains.lean ====
section
/-! A train that the Kerb refuses. -/

namespace Sys2Proof.Machine

open Sys2Proof

/-! ## A refused train ends its item's triggers -/

/-- A frame of item 0 that waits for its triggers. -/
def awaitingFrame : Frame :=
  { item := 0, no := 0, st := 0, area := false, gateItem := true, width := 0, fill := 0, maxLines := 0, fmt := 0, phase := 0, openedAt := 0
    deadline := 0, posSrc := 0, sink := none, imgBegun := false, requested := 0, trainDone := false, received := 0, delivered := 0, triggers := 0
    dropAt := none, short := 0, long := 0, badfmt := 0, missed := 0, flags := 0, dropping := false, gateStop := 0, sampled := false, lines := [] }

/-- The reset state with a full Kerb and that frame at port 0. -/
def fullKerbState : State :=
  { State.reset with
    ports := { Port.reset with frames := [awaitingFrame] } :: List.replicate 15 Port.reset
    ouv := { Ouvfi.reset Fuses.standard with entries := List.replicate 256 { KerbEntry.free with kind := 1 } } }

/-- A train of item 0 at port 0. -/
def refusedTrain : KerbMsg :=
  { train := true, chan := 0, item := 0, enc := 0, src := 0, target := 0, default_ := false, spacing := 1, max := 1, stopOff := 0, ord := none }

theorem placeEntry_full {s : State} (m : KerbMsg) (h : ∀ x ∈ s.ouv.entries, x.kind ≠ 0) : placeEntry s m = .inr (2, 1) := by
  have hnone : (s.ouv.entries.zipIdx.find? fun x => x.1.kind == 0) = none := by
    rw [List.find?_eq_none]
    intro x hx
    rw [beq_iff_eq]
    exact h _ (List.fst_mem_of_mem_zipIdx hx)
  rw [placeEntry, hnone]

theorem closeIfDone_of_none {p : ℕ} {s : State} (h : openFrameOf s p = none) : closeIfDone p s = s := by
  refine List.foldl_fixed' (fun _ => ?_) _
  show (match openFrameOf s p with | some f => _ | none => s) = s
  rw [h]

theorem refuseEntry_get (m : KerbMsg) (code flag : ℕ) (s : State) :
    (refuseEntry m code flag s).ports = s.ports ∧ (refuseEntry m code flag s).ouv.entries = s.ouv.entries
      ∧ (refuseEntry m code flag s).toKerb = s.toKerb :=
  have h := eventFrame_postEvent 3 code m.item.toNat (posField m.enc (fieldPos s m.enc)) 0 (leBytes 1 m.chan ++ leBytes 1 (if m.train then 2 else 1))
    (bump Reg.krbSnapCnt.base 3 (setFlag Reg.krbStatus.base flag s))
  ⟨h.get State.ports, h.get (·.ouv.entries), h.get State.toKerb⟩

/-- The Kerb refuses the train, and the end of the train is noted in the frame of its item. -/
theorem arriveTrain_notes_frame : ((arriveTrain refusedTrain fullKerbState).ports.getD 0 Port.reset).frames.map (·.trainDone) = [true] := by
  have hplace := placeEntry_full (s := fullKerbState) refusedTrain fun x hx => by
    rw [List.eq_of_mem_replicate hx]
    decide
  obtain ⟨hports, hentries, hmsgs⟩ := refuseEntry_get refusedTrain 2 1 fullKerbState
  have harrive : arriveTrain refusedTrain fullKerbState = trainEnded 0 0 (refuseEntry refusedTrain 2 1 fullKerbState) := by
    rw [arriveTrain, hplace]
    rfl
  have hleft : trainsLeft (refuseEntry refusedTrain 2 1 fullKerbState) 0 0 = false := by
    rw [trainsLeft, hentries, hmsgs]
    refine Bool.or_eq_false_iff.mpr ⟨List.any_eq_false.mpr fun x hx => ?_, rfl⟩
    rw [List.eq_of_mem_replicate hx]
    decide
  generalize refuseEntry refusedTrain 2 1 fullKerbState = r at *
  rw [harrive, trainEnded, hleft, if_neg Bool.false_ne_true, closeIfDone_of_none]
  · rw [modPort, hports]
    rfl
  · rw [openFrameOf, modPort, hports]
    rfl

/-- Refutes O49: a train that the Kerb refuses is over at once, so the frame of its item has its triggers done (R303, R433); the clause about
refusals says that a refused train leaves only the flag, the count and the event. The state: a full Kerb, and at port 0 a frame of item 0 that
still waits for the triggers of a train of item 0. -/
theorem not_kerbFiresAndTrains : ¬ Obligations.KerbFiresAndTrains := by
  intro h
  have hlen : fullKerbState.ouv.entries.length = 256 := List.length_replicate
  obtain ⟨-, -, hrefused, -⟩ := h 0 _ refusedTrain fullKerbState (refuseEntry refusedTrain 2 1 fullKerbState) (fun k hk => absurd hk List.not_mem_nil)
    (hlen ▸ by decide) hlen rfl rfl rfl
  have hfull : ∀ x ∈ fullKerbState.ouv.entries, x.kind ≠ 0 := fun x hx => by
    rw [List.eq_of_mem_replicate hx]
    decide
  have heq := (hrefused 2 (Or.inl ⟨rfl, hfull⟩) rfl).2 rfl
  have hnoted := arriveTrain_notes_frame
  rw [heq, (refuseEntry_get _ _ _ _).1] at hnoted
  exact absurd hnoted (by decide)

end Sys2Proof.Machine
end

