-- ==== Sys2Proof/Proofs/FieldSafe.lean ====
section
/-! The safe state of Ouvfi. -/

namespace Sys2Proof.Machine

open Sys2Proof

/-! ## Outputs in the safe state -/

/-- In the safe state no output is in use, so that it only turns off. -/
theorem driveOut_safe {n : ℕ} {s : State} (h : safeOn s = true) :
    ∃ f : Output → Output, driveOut n s = modOutput n f s ∧ ∀ o, (f o).on = false :=
  ⟨_, driveOut_released (by rw [usedOut, h]; simp), fun _ => rfl⟩

/-- The outputs of a state replaced. -/
def withOutputs (l : List Output) (s : State) : State := modOuv (fun o => { o with outputs := l }) s

theorem dioCfg_withOutputs (l : List Output) (s : State) (n : ℕ) : dioCfg (withOutputs l s) n = dioCfg s n := rfl

theorem safeOn_withOutputs (l : List Output) (s : State) : safeOn (withOutputs l s) = safeOn s := rfl

theorem powered_withOutputs (l : List Output) (s : State) : (withOutputs l s).ouv.powered = s.ouv.powered := rfl

theorem driveRange_safe {s : State} (h : safeOn s = true) (k : ℕ) :
    ∃ l, (List.range k).foldl (fun s n => driveOut n s) s = withOutputs l s ∧ l.length = s.ouv.outputs.length
      ∧ ∀ n, n < k → n < s.ouv.outputs.length → (l.getD n Output.reset).on = false := by
  induction k with
  | zero => exact ⟨s.ouv.outputs, rfl, rfl, fun n hn => absurd hn (Nat.not_lt_zero n)⟩
  | succ k ih =>
    obtain ⟨l, hl, hlen, hoff⟩ := ih
    obtain ⟨f, hf, hon⟩ := driveOut_safe (n := k) (s := withOutputs l s) h
    refine ⟨modAt k f l, ?_, (length_modAt k f l).trans hlen, fun n hn hs => ?_⟩
    · rw [List.range_succ, List.foldl_append, hl]
      exact hf
    · by_cases hk : n = k
      · rw [hk, getD_modAt_same f _ (by omega)]
        exact hon _
      · rw [getD_modAt_other f _ hk]
        exact hoff n (by omega) hs

/-- In the safe state the outputs' following turns every one off and leaves all else. -/
theorem driveAll_safe {s : State} (h : safeOn s = true) :
    ∃ l, driveAll s = withOutputs l s ∧ ∀ n, n < 32 → n < s.ouv.outputs.length → (l.getD n Output.reset).on = false := by
  obtain ⟨l, hl, -, hoff⟩ := driveRange_safe h 32
  exact ⟨l, hl, hoff⟩

/-! ## Entries that are discarded -/

/-- The fire entries of the Kerb, discarded and counted. -/
def dropEntries (s : State) : State :=
  let t := modOuv (fun o => { o with entries := List.replicate 256 KerbEntry.free }) s
  if kerbUsed s = 0 then t else count (Reg.krbSnapCnt.base + 28) (kerbUsed s) (setFlag Reg.krbStatus.base 4 t)

theorem discardEntries_eq (s : State) :
    discardEntries s = (s.ouv.entries.filter fun k => k.kind == 2).foldl (fun s k => trainEnded (portIndex k.chan) k.item s) (dropEntries s) := rfl

theorem discardEntries_fires {s : State} (h : ∀ x ∈ s.ouv.entries, x.kind ≠ 2) : discardEntries s = dropEntries s := by
  rw [discardEntries_eq, List.filter_eq_nil_iff.mpr fun x hx => by rw [beq_iff_eq]; exact h x hx]
  rfl

theorem discardEntries_tasks (s : State) : (discardEntries s).tasks = s.tasks := by
  rw [discardEntries_eq, foldl_keeps State.tasks fun s k => trainEnded_tasks _ _ s]
  unfold dropEntries
  dsimp only
  split
  · rfl
  · rfl

theorem enterSafe_tasks (s : State) : (enterSafe s).tasks = s.tasks := by
  unfold enterSafe
  split
  · rfl
  · exact (driveAll_tasks _).trans (discardEntries_tasks _)

theorem flagFrame_fuse (p b : ℕ) (s : State) : (flagFrame p b s).fuse = s.fuse := by
  unfold flagFrame
  split
  · rfl
  split
  · rfl
  dsimp only
  split
  · rfl
  · rfl

theorem attachDevice_fuse (id : Word) (kind key origin : ℕ) (payload : List Byte) (s : State) :
    (attachDevice id kind key origin payload s).fuse = s.fuse := by
  unfold attachDevice attach
  split
  · rfl
  split
  · rfl
  split
  · rfl
  split
  · rfl
  · dsimp only
    split
    · split
      · rfl
      · rfl
    · split
      · rfl
      · rfl

theorem spoilRef_fuse (p : ℕ) (f : Frame) (s : State) : (spoilRef p f s).fuse = s.fuse := by
  unfold spoilRef
  split
  · rfl
  · rfl

theorem openWaiting_fuse (p : ℕ) (s : State) : (openWaiting p s).fuse = s.fuse := by
  unfold openWaiting
  split
  · rfl
  split
  · exact flagFrame_fuse _ _ _
  · rfl

theorem closeFrame_fuse (p : ℕ) (flags : List ℕ) (fragment : Bool) (s : State) : (closeFrame p flags fragment s).fuse = s.fuse := by
  unfold closeFrame
  split
  · rfl
  · dsimp only
    rw [openWaiting_fuse]
    have hflags (l : List ℕ) (s : State) : (l.foldl (fun s b => flagFrame p b s) s).fuse = s.fuse :=
      foldl_keeps State.fuse (fun s b => flagFrame_fuse p b s) l s
    have hdrop (item : Word) (s : State) : (dropRequests p item s).fuse = s.fuse := rfl
    have hopen (f : Frame → Frame) (i n : ℕ) (s : State) : (portCount p i n (modOpen p f s)).fuse = s.fuse := rfl
    simp only [hopen, apply_ite State.fuse, hdrop, spoilRef_fuse, attachDevice_fuse, hflags, ite_self]

theorem trainEnded_fuse (p : ℕ) (item : Word) (s : State) : (trainEnded p item s).fuse = s.fuse := by
  unfold trainEnded
  split
  · rfl
  · refine foldl_keeps State.fuse (fun s _ => ?_) _ _
    dsimp only
    split
    · split
      · exact closeFrame_fuse _ _ _ s
      · rfl
    · rfl

theorem discardEntries_fuse (s : State) : (discardEntries s).fuse = s.fuse := by
  rw [discardEntries_eq, foldl_keeps State.fuse fun s k => trainEnded_fuse _ _ s]
  unfold dropEntries
  dsimp only
  split
  · rfl
  · rfl

/-! ## The safe state is entered -/

theorem safeOn_set (s : State) : safeOn (wrF Reg.dioSafe.base 0 1 1 s) = true := by
  rw [safeOn, rdB, rd_wrF_same _ _ _ _ _ (by decide)]
  exact (testBit_setBits_one _ 0 0 true).trans (if_pos rfl)

theorem dioCfg_ne (n : ℕ) {r : ℕ} (h : r < 0x1D0100 ∨ 0x1D0500 ≤ r) (hn : n < 32) : Reg.dioCfg.off n 0 ≠ r := by
  show 0x1D0100 + n * 32 + 0 * 0 ≠ r
  omega

theorem dioCfg_setSafe {n : ℕ} (hn : n < 32) (v : ℕ) (s : State) : dioCfg (wrF Reg.dioSafe.base 0 1 v s) n = dioCfg s n :=
  rd_wr_other _ _ _ s (dioCfg_ne n (.inl (by decide)) hn)

theorem rd_dropEntries_other {r : ℕ} (s : State) (h : r ≠ Reg.krbStatus.base) : rd (dropEntries s) r = rd s r := by
  unfold dropEntries
  dsimp only
  split
  · rfl
  · exact rd_setFlag_other Reg.krbStatus.base 4 r (modOuv (fun o => { o with entries := List.replicate 256 KerbEntry.free }) s) h

theorem dropEntries_entries (s : State) : (dropEntries s).ouv.entries = List.replicate 256 KerbEntry.free := by
  unfold dropEntries
  dsimp only
  split
  · rfl
  · rfl

theorem dropEntries_powered (s : State) : (dropEntries s).ouv.powered = s.ouv.powered := by
  unfold dropEntries
  dsimp only
  split
  · rfl
  · rfl

theorem dropEntries_outputs (s : State) : (dropEntries s).ouv.outputs = s.ouv.outputs := by
  unfold dropEntries
  dsimp only
  split
  · rfl
  · rfl

/-- The state in which the outputs of a safe state that only fires were waiting for are turned off. -/
def safeEntered (s : State) : State :=
  bump Reg.dioSnapCnt.base 2 (modOuv (fun o => { o with report := true, discarded := kerbUsed s }) (dropEntries (wrF Reg.dioSafe.base 0 1 1 s)))

theorem enterSafe_off {s : State} (h : safeOn s = false) : enterSafe s = driveAll (bump Reg.dioSnapCnt.base 2
    (modOuv (fun o => { o with report := true, discarded := kerbUsed s }) (discardEntries (wrF Reg.dioSafe.base 0 1 1 s)))) :=
  if_neg (by rw [h]; decide)

theorem safeOn_safeEntered (s : State) : safeOn (safeEntered s) = true :=
  (congrArg (fun x => x.testBit 0) (rd_dropEntries_other (wrF Reg.dioSafe.base 0 1 1 s) (by decide))).trans (safeOn_set s)

theorem dioCfg_safeEntered (s : State) {n : ℕ} (hn : n < 32) : dioCfg (safeEntered s) n = dioCfg s n :=
  (rd_dropEntries_other (r := Reg.dioCfg.off n 0) (wrF Reg.dioSafe.base 0 1 1 s) (dioCfg_ne n (.inr (by decide)) hn)).trans
    (dioCfg_setSafe hn 1 s)

theorem kerbUsed_free {s : State} (h : s.ouv.entries = List.replicate 256 KerbEntry.free) : kerbUsed s = 0 := by
  rw [kerbUsed, h, List.length_eq_zero_iff, List.filter_eq_nil_iff]
  intro x hx
  rw [List.eq_of_mem_replicate (List.mem_of_mem_take hx)]
  decide

/-- The safe state where the Kerb holds no train (R437). -/
theorem enterSafe_fires {s : State} (ho : s.ouv.outputs.length = 32) (h : safeOn s = false) (hk : ∀ x ∈ s.ouv.entries, x.kind ≠ 2) :
    safeOn (enterSafe s) = true ∧ (∀ x ∈ (enterSafe s).ouv.entries, x = KerbEntry.free) ∧ kerbUsed (enterSafe s) = 0
        ∧ (enterSafe s).ouv.discarded = kerbUsed s ∧ (enterSafe s).ouv.report = true
        ∧ (0 < kerbUsed s → flagOf (enterSafe s) Reg.krbStatus.base 4 = true)
        ∧ (∀ n, n < 32 → isOut s n = true →
            outLevel (enterSafe s) n = (s.ouv.powered && bitOf (dioCfg s n) 4) ∧ (outputOf (enterSafe s) n).on = false) := by
  obtain ⟨l, hl, hoff⟩ := driveAll_safe (safeOn_safeEntered s)
  have henter : enterSafe s = withOutputs l (safeEntered s) := by
    rw [enterSafe_off h, discardEntries_fires (show ∀ x ∈ (wrF Reg.dioSafe.base 0 1 1 s).ouv.entries, x.kind ≠ 2 from hk)]
    exact hl
  have hsafe : safeOn (withOutputs l (safeEntered s)) = true := (safeOn_withOutputs l _).trans (safeOn_safeEntered s)
  have hentries : (withOutputs l (safeEntered s)).ouv.entries = List.replicate 256 KerbEntry.free :=
    dropEntries_entries (wrF Reg.dioSafe.base 0 1 1 s)
  rw [henter]
  refine ⟨hsafe, fun x hx => List.eq_of_mem_replicate (hentries ▸ hx), kerbUsed_free hentries, rfl, rfl, fun hused => ?_, fun n hn hout => ⟨?_, ?_⟩⟩
  · have hdrop : dropEntries (wrF Reg.dioSafe.base 0 1 1 s) = count (Reg.krbSnapCnt.base + 28) (kerbUsed s) (setFlag Reg.krbStatus.base 4
        (modOuv (fun o => { o with entries := List.replicate 256 KerbEntry.free }) (wrF Reg.dioSafe.base 0 1 1 s))) := if_neg (Nat.ne_of_gt hused)
    have hflag := flagOf_setFlag Reg.krbStatus.base 4 4
      (modOuv (fun o => { o with entries := List.replicate 256 KerbEntry.free }) (wrF Reg.dioSafe.base 0 1 1 s)) (by decide) (by decide)
    show flagOf (dropEntries (wrF Reg.dioSafe.base 0 1 1 s)) Reg.krbStatus.base 4 = true
    rw [hdrop]
    exact hflag.trans (Bool.or_true _)
  · have hcfg : dioCfg (withOutputs l (safeEntered s)) n = dioCfg s n :=
      (dioCfg_withOutputs l _ n).trans (dioCfg_safeEntered s hn)
    have hpow : (withOutputs l (safeEntered s)).ouv.powered = s.ouv.powered :=
      (powered_withOutputs l _).trans (dropEntries_powered (wrF Reg.dioSafe.base 0 1 1 s))
    have hout' : isOut (withOutputs l (safeEntered s)) n = true := by rwa [isOut, hcfg]
    rw [outLevel, hsafe, hpow, hout', hcfg, if_pos rfl, Bool.and_true]
  · have houts : (safeEntered s).ouv.outputs = s.ouv.outputs := dropEntries_outputs (wrF Reg.dioSafe.base 0 1 1 s)
    exact hoff n hn (by rwa [houts, ho])

end Sys2Proof.Machine
end

