-- ==== Sys2Proof/Proofs/FieldRows.lean ====
section
/-! What the rows of the safe state, the reset frame and the field supply leave. -/

namespace Sys2Proof.Machine

open Sys2Proof

/-! ## Registers and units at their reset values -/

theorem lookup_filter_keys {α : Type} (p : ℕ → Bool) (l : List (ℕ × α)) (k : ℕ) :
    (l.filter fun e => !p e.1).lookup k = if p k then none else l.lookup k := by
  induction l with
  | nil => simp
  | cons e es ih =>
    obtain ⟨a, b⟩ := e
    by_cases hka : k = a
    · subst hka
      by_cases hp : p k = true
      · simp [hp, ih]
      · simp [hp]
    · have hbeq : (k == a) = false := beq_eq_false_iff_ne.mpr hka
      by_cases hp : p a = true
      · simp [hp, ih, List.lookup_cons, hbeq]
      · simp [hp, ih, List.lookup_cons, hbeq]

theorem rdW_clearRegs (p : ℕ → Bool) (off : ℕ) (s : State) : rdW (clearRegs p s) off = if p off then rdW { s with regs := [] } off else rdW s off := by
  have hlook : (clearRegs p s).regs.lookup off = if p off then none else s.regs.lookup off := lookup_filter_keys p s.regs off
  rw [rdW, hlook]
  by_cases hp : p off = true
  · rw [if_pos hp, if_pos hp]
    rfl
  · rw [if_neg hp, if_neg hp]
    rfl

theorem safeOn_reset (s : State) : safeOn { s with regs := [] } = false := by
  have hword : resetFor s.fuse Reg.dioSafe.base = resetOf Reg.dioSafe.base := by
    rw [resetFor, if_neg (by decide), if_neg (by decide), if_neg (by decide), if_neg (by decide), if_neg (by decide)]
  show (resetFor s.fuse Reg.dioSafe.base).toNat.testBit 0 = false
  rw [hword]
  decide

/-- An output of a die that starts again. -/
theorem outputOf_again {s : State} {n : ℕ} (hn : n < s.ouv.outputs.length) :
    outputOf { s with ouv := s.ouv.again s.fuse } n
      = { outputOf s n with fuse := s.fuse.dioOut.getLsbD n && s.fuse.dioOn.getLsbD n, locked := false } := by
  show ((s.ouv.outputs.zipIdx.map _).getD n Output.reset) = _
  rw [outputOf, List.getD_eq_getElem _ _ (by simpa using hn), List.getD_eq_getElem _ _ hn]
  simp

theorem again_units {s : State} {o : Ouvfi} (ho : o = s.ouv.again s.fuse) (hlen : s.ouv.outputs.length = 32) :
    (∀ x ∈ o.entries, x = KerbEntry.free) ∧ o.edgeQ = [] ∧ o.heartbeat = s.ouv.heartbeat
        ∧ o.time = s.ouv.time ∧ o.encs = s.ouv.encs.map (fun e => { Encoder.reset with a := e.a, b := e.b })
        ∧ o.inputs = s.ouv.inputs.map (fun i => { raw := i.raw, level := false, start := none })
        ∧ (∀ n, n < 32 → (outputOf { s with ouv := o } n).fuse = (s.fuse.dioOut.getLsbD n && s.fuse.dioOn.getLsbD n)
            ∧ (outputOf { s with ouv := o } n).lastOff = (outputOf s n).lastOff) := by
  subst ho
  refine ⟨fun x hx => List.eq_of_mem_replicate hx, rfl, rfl, rfl, rfl, rfl, fun n hn => ?_⟩
  rw [outputOf_again (by rw [hlen]; exact hn)]
  exact ⟨rfl, rfl⟩

/-! ## The rows -/

theorem notPowered_of {s : State} (hp : s.ouv.powered = true) : ¬(!s.ouv.powered) = true := by
  rw [hp]
  decide

theorem heartbeat_gives {s t : State} (hq : Quiet s) (hp : s.ouv.powered = true) (hc : coreUp s = true ∨ s.rst.level = 0)
    (hw : s.rst.wdogExpired = false) (ht : t = modOuv (fun o => { o with heartbeat := true, report := false }) s) :
    (s.ouv.report = false → Gives .heartbeat s t)
      ∧ (s.ouv.report = true → Gives .heartbeat s (postEvent 0x0C 2 0 0 0 (leBytes 2 s.ouv.discarded) (setFlag Reg.dioStatus.base 0 t))) := by
  subst ht
  have hbeat : beating s = true := by
    rw [beating, hw, Bool.not_false, Bool.and_true, Bool.or_eq_true, beq_iff_eq]
    exact hc
  have hon : ¬(!s.ouv.powered || !beating s) = true := by rw [hp, hbeat]; decide
  refine ⟨fun h => ?_, fun h => ?_⟩
  · refine gives_of_effect (by unfold exec; rfl) hq ?_ rfl
    exact (if_neg hon).trans (if_neg (by show ¬s.ouv.report = true; rw [h]; decide))
  · refine gives_of_effect (by unfold exec; rfl) hq ?_ ((eventFrame_postEvent _ _ _ _ _ _ _).get State.tasks)
    rw [← postEvent_setPending]
    exact (if_neg hon).trans (if_pos h)

theorem heartbeatTimeout_gives {s : State} (hq : Quiet s) (hp : s.ouv.powered = true) :
    Gives .heartbeatTimeout s (enterSafe (modOuv (fun o => { o with heartbeat := false }) s)) := by
  refine gives_of_effect (by unfold exec; rfl) hq ?_ (enterSafe_tasks _)
  rw [← enterSafe_setPending]
  exact if_pos hp

theorem safeRelease_gives {w : Writer} {v : Word} {s : State} (hq : Quiet s) (hm : MayWrite s w Reg.dioSafe.base v) :
    (∀ t, v.getLsbD 1 = true → s.ouv.powered = true → safeOn s = true → s.ouv.heartbeat = true → s.ouv.hotTrip = false →
        t = modOuv (fun o => { o with outputs := o.outputs.map fun x => { x with lastOff := some o.time } }) (wrF Reg.dioSafe.base 0 1 0 s) →
        Gives (.safeStateRelease w v) s (driveAll (postEvent 0x0C 3 0 0 0 [] t)))
      ∧ (v.getLsbD 1 = false ∨ s.ouv.powered = false ∨ safeOn s = false ∨ s.ouv.heartbeat = false ∨ s.ouv.hotTrip = true →
        Gives (.safeStateRelease w v) s s) := by
  refine ⟨fun t hv hp hs hb hh ht => ?_, fun h => ?_⟩
  · subst ht
    have hon : ¬(!v.toNat.testBit 1 || !s.ouv.powered || !safeOn s || !s.ouv.heartbeat || s.ouv.hotTrip) = true := by
      rw [BitVec.testBit_toNat, hv, hp, hs, hb, hh]
      decide
    refine gated_gives (by unfold exec; rfl) hq hm ?_ ((driveAll_tasks _).trans ((eventFrame_postEvent _ _ _ _ _ _ _).get State.tasks))
    rw [← driveAll_setPending, ← postEvent_setPending]
    exact if_neg hon
  · have hoff : (!v.toNat.testBit 1 || !s.ouv.powered || !safeOn s || !s.ouv.heartbeat || s.ouv.hotTrip) = true := by
      rw [BitVec.testBit_toNat]
      generalize v.getLsbD 1 = x at h ⊢
      rcases h with h | h | h | h | h <;> simp [h]
    refine gated_gives (by unfold exec; rfl) hq hm ?_ rfl
    exact if_pos hoff

theorem thermalTrip_gives {m : Meter} {s t : State} (hq : Quiet s) (hp : s.ouv.powered = true) (ht : t = noteMeter m s) :
    (115 ≤ m.ouvfi → Gives (.ouvfiThermalTrip m) s
        (enterSafe (modOuv (fun o => { o with hotTrip := true }) (if wideUp s then setFlag Reg.pwrStatus.base 7 t else t))))
      ∧ (m.ouvfi < 115 → Gives (.ouvfiThermalTrip m) s t) := by
  subst ht
  have hup : wideUp (noteMeter m s) = wideUp s := by
    unfold noteMeter
    dsimp only
    split
    · rfl
    · rfl
  have hpow : (noteMeter m s).ouv.powered = true := by
    rw [← hp]
    unfold noteMeter
    dsimp only
    split
    · rfl
    · rfl
  refine ⟨fun h => ?_, fun h => ?_⟩
  · have hno : ¬(m.ouvfi < 115 ∨ (noteMeter m s).ouv.powered = false) := by
      rw [hpow]
      simp only [Bool.true_eq_false, or_false]
      omega
    refine gives_of_effect (by unfold exec; rfl) hq ?_ ?_
    · rw [← enterSafe_setPending]
      dsimp only
      rw [noteMeter_setPending]
      refine (if_neg hno).trans ?_
      rw [← hup]
      refine congrArg enterSafe ?_
      by_cases hw : wideUp (noteMeter m s) = true
      · rw [if_pos hw]
        exact congrArg (modOuv fun o => { o with hotTrip := true }) (if_pos hw)
      · rw [if_neg hw]
        exact congrArg (modOuv fun o => { o with hotTrip := true }) (if_neg hw)
    · refine (enterSafe_tasks _).trans ?_
      split
      · exact noteMeter_tasks m s
      · exact noteMeter_tasks m s
  · refine gives_of_effect (by unfold exec; rfl) hq ?_ (noteMeter_tasks m s)
    dsimp only
    rw [noteMeter_setPending]
    exact if_pos (.inl h)

theorem applyPins_tasks (s : State) : (applyPins s).tasks = s.tasks := by
  refine (driveAll_tasks _).trans (foldl_keeps State.tasks (fun s n => ?_) _ s)
  split
  · rfl
  · rfl

theorem resetFrame_gives {s t : State} (hq : Quiet s) (hp : s.ouv.powered = true) (hc : coreUp s = false) (hl : s.rst.level ≠ 0)
    (ht : t = { wrF Reg.krbUsed.base 16 9 (if s.rst.level = 2 then 0 else rdF s Reg.krbUsed.base 16 9) (clearRegs fieldOff (discardEntries s)) with
        ouv := (discardEntries s).ouv.again s.fuse }) :
    Gives .resetFrame s (applyPins (if safeOn s then wrF Reg.dioSafe.base 0 1 1 t else t)) := by
  have hon : ¬(!s.ouv.powered || coreUp s || s.rst.level == 0) = true := by
    rw [hp, hc, beq_eq_false_iff_ne.mpr hl]
    decide
  refine gives_of_effect (by unfold exec; rfl) hq ?_ ?_
  · rw [← applyPins_setPending]
    refine (if_neg hon).trans ?_
    dsimp only
    rw [discardEntries_setPending]
    refine congrArg applyPins ?_
    have hrenewed : { wrF Reg.krbUsed.base 16 9 (if s.rst.level = 2 then 0 else rdF s Reg.krbUsed.base 16 9)
        (clearRegs fieldOff (setPending [] (discardEntries s))) with
        ouv := (discardEntries s).ouv.again (discardEntries s).fuse } = setPending [] t := by
      rw [ht, discardEntries_fuse]
      rfl
    rw [apply_ite (setPending [])]
    by_cases hs : safeOn s = true
    · rw [if_pos hs]
      exact (if_pos hs).trans (congrArg (wrF Reg.dioSafe.base 0 1 1) hrenewed)
    · rw [if_neg hs]
      exact (if_neg hs).trans hrenewed
  · rw [applyPins_tasks]
    have htasks : t.tasks = s.tasks := by
      rw [ht]
      exact discardEntries_tasks s
    split
    · exact htasks
    · exact htasks

theorem supplyLoss_gives {s : State} (hq : Quiet s) (hp : s.ouv.powered = true) :
    ∃ u, Gives .fieldSupplyLoss s u ∧ u.ouv.powered = false ∧ safeOn u = false ∧ u.ouv.heartbeat = false
        ∧ u.ouv.hotTrip = false ∧ (∀ x ∈ u.ouv.entries, x = KerbEntry.free) ∧ (∀ n, outputOf u n = Output.reset)
        ∧ (∀ off, fieldOff off = true → rdW u off = rdW { s with regs := [] } off)
        ∧ u = { s with regs := u.regs, ctr := u.ctr, latches := u.latches, tv := u.tv, ouv := u.ouv } := by
  refine ⟨{ clearRegs fieldOff s with
      tv := s.tv.filter fun t => !fieldOff t.off
      ouv := { s.ouv.again s.fuse with
        powered := false, heartbeat := false, discarded := 0, report := false, hotTrip := false, outputs := List.replicate 32 Output.reset } },
    ?_, rfl, ?_, rfl, rfl, fun x hx => List.eq_of_mem_replicate hx, fun n => ?_, fun off ho => ?_, rfl⟩
  · refine gives_of_effect (by unfold exec; rfl) hq ?_ rfl
    exact (if_neg (notPowered_of hp)).trans rfl
  · refine Eq.trans (congrArg (fun x : Word => x.toNat.testBit 0) ?_) (safeOn_reset s)
    exact (rdW_clearRegs fieldOff Reg.dioSafe.base s).trans (if_pos (by decide))
  · show (List.replicate 32 Output.reset).getD n Output.reset = Output.reset
    rw [List.getD_eq_getElem?_getD, List.getElem?_replicate]
    split
    · rfl
    · rfl
  · exact (rdW_clearRegs fieldOff off s).trans (if_pos ho)

theorem supplyReturn_gives {s t : State} (hq : Quiet s) (hp : s.ouv.powered = false)
    (ht : t = { s with ouv := { s.ouv.again s.fuse with powered := true } }) :
    Gives .fieldSupplyReturn s (applyPins t) := by
  subst ht
  have hno : ¬s.ouv.powered = true := by rw [hp]; decide
  refine gives_of_effect (by unfold exec; rfl) hq ?_ (applyPins_tasks _)
  rw [← applyPins_setPending]
  exact if_neg hno

theorem unpowered_safe {s : State} (hq : Quiet s) (hp : s.ouv.powered = false) :
    Gives .heartbeat s s ∧ Gives .heartbeatTimeout s s ∧ Gives .resetFrame s s ∧ Gives .fieldSupplyLoss s s := by
  have hoff : (!s.ouv.powered) = true := by rw [hp]; rfl
  have hno : ¬s.ouv.powered = true := by rw [hp]; decide
  refine ⟨?_, ?_, ?_, ?_⟩
  · refine gives_of_effect (by unfold exec; rfl) hq ?_ rfl
    exact if_pos (by show (!s.ouv.powered || _) = true; rw [hoff]; rfl)
  · refine gives_of_effect (by unfold exec; rfl) hq ?_ rfl
    exact if_neg hno
  · refine gives_of_effect (by unfold exec; rfl) hq ?_ rfl
    exact if_pos (by show (!s.ouv.powered || _ || _) = true; rw [hoff]; rfl)
  · refine gives_of_effect (by unfold exec; rfl) hq ?_ rfl
    exact if_pos hoff

theorem resetFrame_up {s : State} (hq : Quiet s) (hc : coreUp s = true) : Gives .resetFrame s s := by
  refine gives_of_effect (by unfold exec; rfl) hq ?_ rfl
  exact if_pos (by show (!s.ouv.powered || coreUp s || _) = true; rw [hc, Bool.or_true]; rfl)

/-- Settles O50: the safe state by its entry and its release, a reset frame and the field supply by what they clear. -/
theorem safeStateAndFieldSupply : Obligations.SafeStateAndFieldSupply := by
  intro w v m s t hq ho he
  exact ⟨fun hp hc hw ht => heartbeat_gives hq hp hc hw ht, heartbeatTimeout_gives hq, fun h => if_pos h, enterSafe_off, enterSafe_fires ho,
    fun hm => ⟨(safeRelease_gives hq hm).1 t, (safeRelease_gives hq hm).2⟩, thermalTrip_gives hq, fun hp hc hl ht => resetFrame_gives hq hp hc hl ht,
    fun p off => rdW_clearRegs p off s, fun o h => again_units h ho, supplyLoss_gives hq, fun hp ht => supplyReturn_gives hq hp ht,
    unpowered_safe hq, resetFrame_up hq⟩

end Sys2Proof.Machine
end

