-- ==== Sys2Proof/Proofs/TimeRows.lean ====
section
/-! What the rows of device time and of the Ethernet port leave. -/

namespace Sys2Proof.Machine

open Sys2Proof

/-! ## Rows whose effect goes on beside the queue -/

/-- A row whose effect leaves the queue alone. -/
theorem gives_of_apart {c : Instr} {f : State → State} {s t : State} (hc : exec c s = run f s) (hq : Quiet s)
    (hf : f (setPending [] s) = setPending [] (f s)) (h : f s = t) (ht : t.tasks = s.tasks) : Gives c s t :=
  gives_of_effect hc hq (hf.trans (congrArg _ h)) ht

/-- A gated row whose effect leaves the queue alone. -/
theorem gated_apart {c : Instr} {w : Writer} {off : ℕ} {v : Word} {f : State → State} {s t : State} (hc : exec c s = run (gate w off v f) s)
    (hq : Quiet s) (hm : MayWrite s w off v) (hf : f (setPending [] s) = setPending [] (f s)) (h : f s = t) (ht : t.tasks = s.tasks) : Gives c s t :=
  gated_gives hc hq hm (hf.trans (congrArg _ h)) ht

/-! ## The lock -/

theorem setLock_same {on : Bool} {s : State} (h : s.tim.locked = on) : setLock on s = s := if_pos (beq_iff_eq.mpr h)

theorem setLock_on {s : State} (h : s.tim.locked = false) : setLock true s
    = postEvent 0x0D 3 0 0 0 (leBytes 1 1) (setFlag Reg.timStatus.base 10 (modTim (fun x => { x with locked := true }) s)) :=
  if_neg (by rw [h]; decide)

theorem setLock_off {s : State} (h : s.tim.locked = true) : setLock false s = postEvent 0x0D 3 0 0 0 (leBytes 1 0)
    (bump Reg.timSnapCnt.base 3 (setFlag Reg.timStatus.base 9 (modTim (fun x => { x with locked := false }) s))) :=
  if_neg (by rw [h]; decide)

theorem judgeLock_near {o : ℤ} {s : State} (h : o.natAbs ≤ rdF s Reg.timServo.base 16 16 * 256) :
    judgeLock o s = if 8 ≤ s.tim.lockRun + 1 then setLock true (modTim (fun x => { x with lockRun := s.tim.lockRun + 1 }) s)
      else modTim (fun x => { x with lockRun := s.tim.lockRun + 1 }) s := if_pos h

theorem judgeLock_far {o : ℤ} {s : State} (h : rdF s Reg.timServo.base 16 16 * 256 < o.natAbs) :
    judgeLock o s = setLock false (modTim (fun x => { x with lockRun := 0 }) s) := if_neg (Nat.not_le.mpr h)

theorem judgeLock_cases (o : ℤ) (s : State) :
    (o.natAbs ≤ rdF s Reg.timServo.base 16 16 * 256 →
          (s.tim.lockRun < 7 → judgeLock o s = modTim (fun x => { x with lockRun := s.tim.lockRun + 1 }) s)
          ∧ (7 ≤ s.tim.lockRun → judgeLock o s = setLock true (modTim (fun x => { x with lockRun := s.tim.lockRun + 1 }) s)))
        ∧ (rdF s Reg.timServo.base 16 16 * 256 < o.natAbs → judgeLock o s = setLock false (modTim (fun x => { x with lockRun := 0 }) s)) := by
  refine ⟨fun h => ⟨fun hr => ?_, fun hr => ?_⟩, judgeLock_far⟩
  · rw [judgeLock_near h, if_neg (by omega)]
  · rw [judgeLock_near h, if_pos (by omega)]

/-! ## The servo -/

theorem servoOffset_off {o : ℤ} {s : State} (h : rdB s Reg.timCtl.base 0 = false) : servoOffset o s = s := if_pos (by rw [h]; rfl)

/-- What the servo makes of an offset that is too large for it: a step (R445). -/
theorem servoOffset_step {o : ℤ} {s u : State} (h : rdB s Reg.timCtl.base 0 = true) (hu : u = judgeLock o (bump Reg.timSnapCnt.base 0 s))
    (h1 : rdB u Reg.timCtl.base 1 = true) (hfar : rdF u Reg.timServo.base 0 16 * 256000 < o.natAbs) :
    servoOffset o s = modTim (fun x => { x with integral := 0 }) (requestStep (-o) none u) := by
  subst hu
  have hgo : (rdB (judgeLock o (bump Reg.timSnapCnt.base 0 s)) Reg.timCtl.base 1
      && decide (rdF (judgeLock o (bump Reg.timSnapCnt.base 0 s)) Reg.timServo.base 0 16 * 256000 < o.natAbs)) = true := by
    rw [h1, decide_eq_true hfar]
    rfl
  exact (if_neg (by rw [h]; decide)).trans (if_pos hgo)

/-- What the servo makes of another offset: an adjustment (R445 steps 1 to 4). -/
theorem servoOffset_adjust {o i adj : ℤ} {kp ki : ℕ} {s u : State} (h : rdB s Reg.timCtl.base 0 = true)
    (hu : u = judgeLock o (bump Reg.timSnapCnt.base 0 s))
    (h1 : rdB u Reg.timCtl.base 1 = false ∨ o.natAbs ≤ rdF u Reg.timServo.base 0 16 * 256000) (hkp : kp = rdF u Reg.timServoGain.base 0 16)
    (hki : ki = rdF u Reg.timServoGain.base 16 16)
    (hi : i = if ki = 0 then u.tim.integral + o
      else clampI (-((500000 * 2 ^ 16 : Int).fdiv ki)) ((500000 * 2 ^ 16 : Int).fdiv ki) (u.tim.integral + o))
    (hadj : adj = clampI (-(500000 * 2 ^ 16)) (500000 * 2 ^ 16) (-((kp : Int) * o + (ki : Int) * i))) :
    servoOffset o s = showAdj (settleInc (modTim (fun t => { t with integral := i, adj := adj }) u)) := by
  subst hadj hi hkp hki hu
  have hgo : ¬(rdB (judgeLock o (bump Reg.timSnapCnt.base 0 s)) Reg.timCtl.base 1
      && decide (rdF (judgeLock o (bump Reg.timSnapCnt.base 0 s)) Reg.timServo.base 0 16 * 256000 < o.natAbs)) = true := by
    rw [Bool.and_eq_true, decide_eq_true_eq]
    rintro ⟨ha, hb⟩
    rcases h1 with h1 | h1
    · rw [h1] at ha
      exact Bool.false_ne_true ha
    · omega
  exact (if_neg (by rw [h]; decide)).trans (if_neg hgo)

/-- The adjustment as TIM_SERVO_ADJ shows it. -/
theorem showAdj_whole (s : State) : ∃ r : ℕ, r ≤ 1 ∧ (s.tim.adj % 2 ^ 16 = 0 → r = 0)
    ∧ showAdj s = wr Reg.timServoAdj.base (wrapTo 32 (s.tim.adj.fdiv (2 ^ 16) + r)) { s with fresh := s.fresh + 1 } := by
  refine ⟨if s.tim.adj % 2 ^ 16 = 0 then 0 else Config.freeNat s.fresh % 2, ?_, fun h => if_pos h, rfl⟩
  split
  · omega
  · omega

theorem servoOffsetWrite_gives {w : Writer} {v : Word} {s t : State} (hq : Quiet s) (hm : MayWrite s w Reg.timServoOfs.base v)
    (h : servoOffset v.toInt s = t) : Gives (.servoOffsetWrite w v) s t :=
  gated_apart (by unfold exec; rfl) hq hm (servoOffset_setPending _ [] s) h (h ▸ servoOffset_tasks _ s)

/-! ## Steps -/

theorem stepInstant_bounds (p : PendStep) : stepInstant p % (1000000 * 2 ^ 32) = 0 ∧ timeUnits p.at_ + 10000 * 2 ^ 32 ≤ stepInstant p
    ∧ stepInstant p < timeUnits p.at_ + 1010000 * 2 ^ 32 := by
  unfold stepInstant ceilDiv
  refine ⟨Nat.mul_mod_left _ _, ?_, ?_⟩
  · omega
  · omega

theorem timeStepApply_none {s : State} (hq : Quiet s) (h : s.tim.pendStep = none) : Gives .timeStepApply s s := by
  refine gives_of_effect (by unfold exec; rfl) hq ?_ rfl
  show (match s.tim.pendStep with | none => _ | some p => _) = _
  rw [h]

theorem timeStepApply_early {s : State} {p : PendStep} (hq : Quiet s) (h : s.tim.pendStep = some p) (he : timeUnits s.tim.now < stepInstant p) :
    Gives .timeStepApply s s := by
  refine gives_of_effect (by unfold exec; rfl) hq ?_ rfl
  show (match s.tim.pendStep with | none => _ | some p => _) = _
  rw [h]
  exact if_pos he

/-- A step takes its time (R446-R448). -/
def stepTo (d ns : ℤ) (x : DevTime) (s : State) : State :=
  setLock false (postEvent 0x0D 2 0 0 0 (leBytes 8 (wrapTo 64 ns)) (bump Reg.timSnapCnt.base 1
    (setFlag Reg.timStatus.base 8 (modOuv (fun o => if o.powered then { o with time := x } else o)
      (modTim (fun y => { y with now := x, pendStep := none, lockRun := 0 }) (shiftTimes d { s with fresh := s.fresh + 1 }))))))

theorem stepTo_setPending (d ns : ℤ) (x : DevTime) (q : List Instr) (s : State) :
    stepTo d ns x (setPending q s) = setPending q (stepTo d ns x s) := by
  unfold stepTo
  rw [← setLock_setPending, ← postEvent_setPending]
  rfl

theorem stepTo_tasks (d ns : ℤ) (x : DevTime) (s : State) :
    (stepTo d ns x s).tasks = s.tasks.map fun k => { k with readySince := DevTime.ofUnits ((timeUnits k.readySince : Int) + d) } :=
  (setLock_tasks _ _).trans ((eventFrame_postEvent _ _ _ _ _ _ _).get State.tasks)

theorem quiet_stepTo {d ns : ℤ} {x : DevTime} {s : State} (hq : Quiet s) : Quiet (stepTo d ns x s) := by
  intro k hk hw
  rw [stepTo_tasks, List.mem_map] at hk
  obtain ⟨k', hk', rfl⟩ := hk
  exact hq k' hk' hw

/-- Whole ns of a distance, either way where a fraction is left. -/
theorem roundNs_bounds (d : ℤ) (s : State) :
    (d % 2 ^ 32 = 0 → (roundNs d s).1 * 2 ^ 32 = d) ∧ ((roundNs d s).1 * 2 ^ 32 - d).natAbs < 2 ^ 32 := by
  have hround : (roundNs d s).1 = d.fdiv (2 ^ 32) + (if d % 2 ^ 32 = 0 then (0 : Int) else (Config.freeNat s.fresh % 2 : Nat)) := rfl
  have hdiv : d.fdiv (2 ^ 32) = d / 2 ^ 32 := Int.fdiv_eq_ediv_of_nonneg _ (by decide)
  have hbit : Config.freeNat s.fresh % 2 < 2 := Nat.mod_lt _ (by decide)
  rw [hround, hdiv]
  generalize Config.freeNat s.fresh % 2 = r at hbit
  refine ⟨fun h => ?_, ?_⟩
  · rw [if_pos h]
    omega
  · split
    · omega
    · omega

theorem timeStepApply_due {s : State} {p : PendStep} {d : ℤ} (hq : Quiet s) (h : s.tim.pendStep = some p)
    (he : stepInstant p ≤ timeUnits s.tim.now)
    (hd : d = (match p.to_ with | some x => (timeUnits x : Int) - timeUnits s.tim.now | none => p.by_ * 2 ^ 24)) :
    Gives .timeStepApply s (stepTo d (roundNs d s).1
      (match p.to_ with | some x => x | none => DevTime.ofUnits ((timeUnits s.tim.now : Int) + p.by_ * 2 ^ 24)) s) := by
  subst hd
  refine gives_of_quiet (by unfold exec; rfl) ?_ (quiet_stepTo hq)
  rw [← stepTo_setPending]
  show (match s.tim.pendStep with | none => _ | some p => _) = _
  rw [h]
  refine (if_neg (Nat.not_lt.mpr he)).trans ?_
  unfold stepTo
  cases p.to_ with
  | none => dsimp only [roundNs]; rfl
  | some x => dsimp only [roundNs]; rfl

theorem timeStepApply_cases {s : State} {p : PendStep} {d : ℤ} (hq : Quiet s) (h : s.tim.pendStep = some p) :
    (timeUnits s.tim.now < stepInstant p → Gives .timeStepApply s s)
      ∧ (stepInstant p ≤ timeUnits s.tim.now → d = (match p.to_ with | some x => (timeUnits x : Int) - timeUnits s.tim.now | none => p.by_ * 2 ^ 24) →
        ∃ ns x, (d % 2 ^ 32 = 0 → ns * 2 ^ 32 = d) ∧ (ns * 2 ^ 32 - d).natAbs < 2 ^ 32
          ∧ (∀ y, p.to_ = some y → x = y) ∧ (p.to_ = none → x = DevTime.ofUnits ((timeUnits s.tim.now : Int) + p.by_ * 2 ^ 24))
          ∧ Gives .timeStepApply s (stepTo d ns x s))
      ∧ stepInstant p % (1000000 * 2 ^ 32) = 0 ∧ timeUnits p.at_ + 10000 * 2 ^ 32 ≤ stepInstant p
        ∧ stepInstant p < timeUnits p.at_ + 1010000 * 2 ^ 32 := by
  refine ⟨timeStepApply_early hq h, fun he hd => ?_, stepInstant_bounds p⟩
  obtain ⟨hwhole, hnear⟩ := roundNs_bounds d s
  refine ⟨_, _, hwhole, hnear, fun y hy => ?_, fun hn => ?_, timeStepApply_due hq h he hd⟩
  · rw [hy]
  · rw [hn]

theorem writeTimCtl_eq (v : Word) {s t u : State} (ht : t = wr Reg.timCtl.base (bits v.toNat 0 2) s)
    (hu : u = (if v.getLsbD 0 then t else wr Reg.timServoAdj.base 0 (settleInc (modTim (fun x => { x with adj := 0 }) t)))) :
    writeTimCtl v s = if v.getLsbD 8 then requestStep 0 (some (timSet u)) u else u := by
  subst ht hu
  unfold writeTimCtl
  dsimp only
  rw [BitVec.testBit_toNat, BitVec.testBit_toNat]

theorem now_modApplied (g : TimeNet → ℕ) (s : State) : (modTim (fun t => { t with applied := g t }) s).tim.now = s.tim.now := rfl

/-- An increment that settles leaves device time. -/
theorem settleInc_now (s : State) : (settleInc s).tim.now = s.tim.now := now_modApplied _ s

theorem requestStep_at (b : ℤ) (o : Option DevTime) {a : DevTime} {s : State} (h : s.tim.now = a) :
    requestStep b o s = modTim (fun x => { x with pendStep := some { by_ := b, to_ := o, at_ := a } }) s := by
  subst h
  rfl

theorem timSet_settled (v : Word) {s t u : State} (ht : t = wr Reg.timCtl.base (bits v.toNat 0 2) s)
    (hu : u = (if v.getLsbD 0 then t else wr Reg.timServoAdj.base 0 (settleInc (modTim (fun x => { x with adj := 0 }) t)))) :
    timSet u = timSet s ∧ u.tim.now = s.tim.now := by
  have hctl (n : ℕ) (s : State) : timSet (wr Reg.timCtl.base n s) = timSet s := by
    simp only [timSet, rdF, rd_wr_other _ _ _ _ (show Reg.timSetSecLo.base ≠ Reg.timCtl.base by decide),
      rd_wr_other _ _ _ _ (show Reg.timSetSecHi.base ≠ Reg.timCtl.base by decide),
      rd_wr_other _ _ _ _ (show Reg.timSetNs.base ≠ Reg.timCtl.base by decide)]
  have hadj (n : ℕ) (s : State) : timSet (wr Reg.timServoAdj.base n s) = timSet s := by
    simp only [timSet, rdF, rd_wr_other _ _ _ _ (show Reg.timSetSecLo.base ≠ Reg.timServoAdj.base by decide),
      rd_wr_other _ _ _ _ (show Reg.timSetSecHi.base ≠ Reg.timServoAdj.base by decide),
      rd_wr_other _ _ _ _ (show Reg.timSetNs.base ≠ Reg.timServoAdj.base by decide)]
  have hrd (f : TimeNet → TimeNet) (s : State) (r : ℕ) : rd (settleInc (modTim f s)) r = rd s r := rfl
  have hinc (f : TimeNet → TimeNet) (s : State) : timSet (settleInc (modTim f s)) = timSet s := by simp only [timSet, rdF, hrd]
  have hnow : t.tim.now = s.tim.now := by rw [ht]; rfl
  have hset : timSet t = timSet s := by rw [ht, hctl]
  by_cases hv : v.getLsbD 0 = true
  · rw [if_pos hv] at hu
    rw [hu]
    exact ⟨hset, hnow⟩
  · rw [if_neg hv] at hu
    rw [hu, hadj, hinc]
    exact ⟨hset, (settleInc_now _).trans hnow⟩

/-! ## Compare channels -/

/-- What a firing channel sets and posts. -/
def compareNotes (k c skip : ℕ) (x : State) : State :=
  if bitOf c 2 then postEvent 0x0D 1 k 0 0 (leBytes 2 (min 65535 skip)) (bump Reg.timSnapCnt.base 2 (setFlag Reg.timStatus.base k x))
  else bump Reg.timSnapCnt.base 2 (setFlag Reg.timStatus.base k x)

theorem compareNotes_setPending (k c skip : ℕ) (q : List Instr) (s : State) :
    compareNotes k c skip (setPending q s) = setPending q (compareNotes k c skip s) := by
  unfold compareNotes
  rw [apply_ite (setPending q), ← postEvent_setPending]
  rfl

theorem compareNotes_tasks (k c skip : ℕ) (s : State) : (compareNotes k c skip s).tasks = s.tasks := by
  unfold compareNotes
  split
  · exact (eventFrame_postEvent _ _ _ _ _ _ _).get State.tasks
  · rfl

/-- A firing channel raises its vector where it has one. -/
def compareRaise (c : ℕ) (x : State) : State := if bitOf c 3 then raiseVec (bits c 4 6) x else x

theorem compareFire_idle {k : ℕ} {s : State} (hq : Quiet s) (h : bitOf (rd s (Reg.timCmpCtl.off k 0)) 0 = false ∨ cmpDiff s k < 0 ∨ cmpWaits s k = true) :
    Gives (.compareFire k) s s := by
  refine gives_of_effect (by unfold exec; rfl) hq ?_ rfl
  exact if_pos (.inr h)

/-- What a channel that fires leaves: its notes on the state with its target or its arming moved on. -/
theorem compareFire_apart {k c skip : ℕ} {s u : State} (hq : Quiet s) (hk : k < 8) (hc : c = rd s (Reg.timCmpCtl.off k 0)) (h0 : bitOf c 0 = true)
    (hd : 0 ≤ cmpDiff s k) (hw : cmpWaits s k = false) (hu : u.tasks = s.tasks)
    (hskip : skip = if bitOf c 1 then (cmpDiff s k).toNat / cmpPer s k else 0)
    (h : (if bitOf c 1 then wrF (Reg.timCmpCtl.off k 0) 16 16 (min 65535 (bits c 16 16 + skip))
        (setTarget k (cmpTarget s k + (skip + 1) * cmpPer s k) (setPending [] s)) else wrF (Reg.timCmpCtl.off k 0) 0 1 0 (setPending [] s))
      = setPending [] u) : Gives (.compareFire k) s (compareRaise c (compareNotes k c skip u)) := by
  have hgo : ¬(8 ≤ k ∨ bitOf (rd s (Reg.timCmpCtl.off k 0)) 0 = false ∨ cmpDiff s k < 0 ∨ cmpWaits s k = true) := by
    rw [← hc, h0, hw]
    rintro (h | h | h | h)
    · omega
    · exact Bool.false_ne_true h.symm
    · omega
    · exact Bool.false_ne_true h
  refine gives_of_effect (by unfold exec; rfl) hq ?_ ?_
  · refine (if_neg hgo).trans ?_
    have hnotes : compareRaise c (compareNotes k c skip (setPending [] u)) = setPending [] (compareRaise c (compareNotes k c skip u)) := by
      rw [compareNotes_setPending, compareRaise, compareRaise, apply_ite (setPending []), raiseVec_setPending]
    rw [← hnotes, ← h, hskip, hc]
    rfl
  · rw [← hu, ← compareNotes_tasks k c skip u, compareRaise]
    split
    · exact raiseVec_tasks _ _
    · rfl

theorem compareFire_fires {k c : ℕ} {s : State} (hq : Quiet s) (hk : k < 8) (hc : c = rd s (Reg.timCmpCtl.off k 0)) (h0 : bitOf c 0 = true)
    (hd : 0 ≤ cmpDiff s k) (hw : cmpWaits s k = false) :
    (bitOf c 1 = false → Gives (.compareFire k) s (compareRaise c (compareNotes k c 0 (wrF (Reg.timCmpCtl.off k 0) 0 1 0 s))))
    ∧ (∀ skip, bitOf c 1 = true → skip = (cmpDiff s k).toNat / cmpPer s k → Gives (.compareFire k) s (compareRaise c (compareNotes k c skip
        (wrF (Reg.timCmpCtl.off k 0) 16 16 (min 65535 (bits c 16 16 + skip)) (setTarget k (cmpTarget s k + (skip + 1) * cmpPer s k) s))))) := by
  refine ⟨fun h1 => ?_, fun skip h1 hs => ?_⟩
  · refine compareFire_apart hq hk hc h0 hd hw rfl (by rw [h1]; rfl) ?_
    rw [h1]
    rfl
  · refine compareFire_apart hq hk hc h0 hd hw rfl (by rw [h1]; exact hs) ?_
    rw [h1]
    rfl

theorem cmpWaits_of {s : State} {k : ℕ} (h : (∃ p, s.tim.pendStep = some p ∧ stepInstant p ≤ timeUnits s.tim.now) ∨ ∃ j, j < k ∧ cmpDue s j = true) :
    cmpWaits s k = true := by
  rw [cmpWaits, Bool.or_eq_true]
  rcases h with ⟨p, hp, he⟩ | ⟨j, hj, hdue⟩
  · exact .inl (by rw [hp, Option.elim_some]; exact decide_eq_true he)
  · exact .inr (List.any_eq_true.mpr ⟨j, List.mem_range.mpr hj, hdue⟩)

/-! ## The Ethernet port -/

theorem ethReady {s : State} (he : s.tim.ethUp = true) (hp : portsUp s = true) : ¬(!s.tim.ethUp || !portsUp s) = true := by
  rw [he, hp]
  decide

theorem frameReceive_gives {f : List Byte} {hit : Bool} {s t : State} (hq : Quiet s) (he : s.tim.ethUp = true) (hp : portsUp s = true)
    (ht : t = bump Reg.ethSnapCnt.base 0 s)
    (hh : hit = (frameTaken s f && (List.range 8).any fun k => filterHit s f (rd s (Reg.ethFilt.off k 0)))) :
    (hit = true → Gives (.ethFrameReceive f) s { modTim (fun x => { x with
        rxQ := x.rxQ ++ [(f, s.tim.now.shift (-(rdF s Reg.ethTsLat.base 0 16 : Int)))], txQ := x.txQ ++ replyTo s f
        ptpMaster := bestMaster s f }) t with
          fresh := s.fresh + 1 })
      ∧ (hit = false → Gives (.ethFrameReceive f) s (bump Reg.ethSnapCnt.base 1 t)) := by
  subst ht hh
  refine ⟨fun h => ?_, fun h => ?_⟩
  · refine gives_of_effect (by unfold exec; rfl) hq ?_ rfl
    exact (if_neg (ethReady he hp)).trans (if_pos h)
  · refine gives_of_effect (by unfold exec; rfl) hq ?_ rfl
    exact (if_neg (ethReady he hp)).trans (if_neg (by rw [Bool.not_eq_true]; exact h))

theorem frameTransmitted_gives {s t : State} {e : TxEntry} (hq : Quiet s) (he : s.tim.ethUp = true) (hp : portsUp s = true)
    (hn : nextTx s.tim.txQ = some e) (h : (if txHeld s then deferTx e s else sendFrame e s) = t) (ht : t.tasks = s.tasks) :
    Gives .ethFrameTransmitted s t := by
  refine gives_of_effect (by unfold exec; rfl) hq ?_ ht
  refine (if_neg (ethReady he hp)).trans ?_
  show (match nextTx s.tim.txQ with | none => _ | some e => _) = _
  rw [hn, ← h, apply_ite (setPending []), ← deferTx_setPending, ← sendFrame_setPending]
  rfl

theorem txHeld_iff (s : State) : txHeld s = true ↔ rdF s Reg.ethTxcap.base 0 16 = 0 ∨ timeUnits s.tim.now < s.tim.capFree := by
  rw [txHeld, Bool.or_eq_true, beq_iff_eq, decide_eq_true_eq, txCap]

/-- A frame leaves, by its kind (R456-R460, R462). -/
theorem sendFrame_kinds {e : TxEntry} {x : DevTime} {bs : List Byte} {s t : State} (hx : x = s.tim.now.shift (rdF s Reg.ethTsLat.base 16 16))
    (hb : bs = wireBytes s e)
    (ht : t = modTim (fun y => { y with
        txQ := dropFirst (fun z => z == e) y.txQ, dropMark := if e.kind = 1 then false else y.dropMark
        capFree := max (timeUnits y.now) y.capFree + ceilDiv (bs.length * 8 * 1000 * 2 ^ 32) (rdF s Reg.ethTxcap.base 0 16)
        txDone := if e.writeBack then y.txDone ++ [(e.bytes, timeBytes x)] else y.txDone }) s) :
    (e.kind = 0 → sendFrame e s = pushStamp e.bytes x (emit (.frame bs) t))
      ∧ (e.kind = 1 → sendFrame e s = emit (.datagram bs) (bump Reg.ethSnapCnt.base 2 t))
      ∧ (2 ≤ e.kind → sendFrame e s = emit (.frame bs) t) := by
  have hsend : sendFrame e s = if e.kind = 0 then pushStamp e.bytes x (if e.kind = 1 then emit (.datagram bs) (bump Reg.ethSnapCnt.base 2 t) else emit (.frame bs) t)
      else if e.kind = 1 then emit (.datagram bs) (bump Reg.ethSnapCnt.base 2 t) else emit (.frame bs) t := by
    subst ht hb hx
    rfl
  refine ⟨fun h => ?_, fun h => ?_, fun h => ?_⟩
  · rw [hsend, if_pos h, if_neg (by omega)]
  · rw [hsend, if_neg (by omega), if_pos h]
  · rw [hsend, if_neg (by omega), if_neg (by omega)]

theorem linkChange_cases {up : Bool} {s : State} (hq : Quiet s) (hp : portsUp s = true) :
    (s.tim.ethUp ≠ up → up = false ∨ ethModeOk s = true → Gives (.ethLinkChange up) s (setEthLink up s))
      ∧ (s.tim.ethUp = up ∨ (up = true ∧ ethModeOk s = false) → Gives (.ethLinkChange up) s s) := by
  refine ⟨fun hne h => ?_, fun h => ?_⟩
  · have hgo : ¬(s.tim.ethUp == up || !portsUp s || (up && !ethModeOk s)) = true := by
      rw [hp, beq_eq_false_iff_ne.mpr hne]
      rcases h with h | h <;> simp [h]
    refine gives_of_effect (by unfold exec; rfl) hq ?_ (setEthLink_tasks _ _)
    rw [← setEthLink_setPending]
    exact if_neg hgo
  · have hstop : (s.tim.ethUp == up || !portsUp s || (up && !ethModeOk s)) = true := by
      rcases h with h | ⟨h1, h2⟩
      · simp [h]
      · simp [h1, h2]
    refine gives_of_effect (by unfold exec; rfl) hq ?_ rfl
    exact if_pos hstop

/-- A write of ETH_CFG judges the link's mode. -/
theorem ethCfg_write {w : Writer} {v : Word} {d : RegDef} {s t u : State} (hq : Quiet s) (hd : regAt Reg.ethCfg.base = some d)
    (hm : MayWrite s w Reg.ethCfg.base v) (ht : t = storeFields d Reg.ethCfg.base v s) (hu : judgeEthMode t = u) :
    Gives (.registerWrite w Reg.ethCfg.base 15 v) s u := by
  have hdef : regAt Reg.ethCfg.base = some Reg.ethCfg := by decide
  obtain rfl : Reg.ethCfg = d := Option.some.inj (hdef.symm.trans hd)
  have hwrite : writeWord w Reg.ethCfg.base v s = u := by
    rw [writeWord_gate w v hd (by decide), gate_pass hm, ← hu, ht]
    rfl
  refine registerWrite_gives hq hm.1 (by decide) hwrite ?_
  rw [← hu, judgeEthMode_tasks, ht]
  rfl

theorem judgeEthMode_of {s : State} (h : s.tim.ethUp = true) (hm : ethModeOk s = false) : judgeEthMode s = setEthLink false s :=
  if_pos (by rw [h, hm]; rfl)

theorem judgeEthMode_stays {s : State} (h : s.tim.ethUp = false ∨ ethModeOk s = true) : judgeEthMode s = s :=
  if_neg (by rcases h with h | h <;> simp [h])

theorem fitsWire_iff (b : List Byte) : fitsWire b = true ↔ b.length ≤ 1518 := decide_eq_true_iff

/-- What PTP firmware sends is what it may send, in a frame that fits. -/
theorem ptpFrames_sendable {s : State} {f : List Byte} {e : TxEntry} (he : e ∈ ptpFrames s f) :
    ptpSendable e.bytes = true ∧ ptpOfRole (bestMaster s f) e.bytes = true ∧ fitsWire e.bytes = true := by
  unfold ptpFrames at he
  split at he
  · exact absurd he List.not_mem_nil
  · obtain ⟨b, hb, rfl⟩ := List.mem_map.mp he
    have hall := (List.mem_filter.mp hb).2
    rw [Bool.and_eq_true, Bool.and_eq_true] at hall
    exact ⟨hall.1.1, hall.1.2, hall.2⟩

theorem answerFrame_fits {b : List Byte} {e : TxEntry} (he : e ∈ answerFrame b) : fitsWire e.bytes = true := by
  unfold answerFrame at he
  split at he
  · next h =>
    rw [List.mem_singleton] at he
    rw [he]
    exact h
  · exact absurd he List.not_mem_nil

theorem replyTo_fits {s : State} {f : List Byte} {e : TxEntry} (he : e ∈ replyTo s f) : e.bytes.length ≤ 1518 := by
  rw [← fitsWire_iff]
  unfold replyTo at he
  split at he
  · exact absurd he List.not_mem_nil
  split at he
  · exact answerFrame_fits he
  split at he
  · exact answerFrame_fits he
  · exact (ptpFrames_sendable he).2.2

theorem bestMaster_slave {s : State} {f : List Byte} (hc : Config.ptpSlaveOnly = true) (h : s.tim.ptpMaster = false) : bestMaster s f = false := by
  unfold bestMaster
  split
  · exact h
  · rw [hc]
    rfl

/-! ## The obligation -/

/-- The servo's adjustment as a write leaves it. -/
theorem servoWrite_adjusts {w : Writer} {v : Word} {kp ki : ℕ} {i adj : ℤ} {s u : State} (hq : Quiet s) (hm : MayWrite s w Reg.timServoOfs.base v)
    (h : rdB s Reg.timCtl.base 0 = true) (hu : u = judgeLock v.toInt (bump Reg.timSnapCnt.base 0 s))
    (h1 : rdB u Reg.timCtl.base 1 = false ∨ v.toInt.natAbs ≤ rdF u Reg.timServo.base 0 16 * 256000) (hkp : kp = rdF u Reg.timServoGain.base 0 16)
    (hki : ki = rdF u Reg.timServoGain.base 16 16) (hi0 : ki = 0 → i = u.tim.integral + v.toInt)
    (hi1 : 0 < ki → i = clampI (-((500000 * 2 ^ 16 : Int).fdiv ki)) ((500000 * 2 ^ 16 : Int).fdiv ki) (u.tim.integral + v.toInt))
    (hadj : adj = clampI (-(500000 * 2 ^ 16)) (500000 * 2 ^ 16) (-((kp : Int) * v.toInt + (ki : Int) * i))) :
    ∃ r : ℕ, r ≤ 1 ∧ (adj % 2 ^ 16 = 0 → r = 0)
      ∧ Gives (.servoOffsetWrite w v) s (wr Reg.timServoAdj.base (wrapTo 32 (adj.fdiv (2 ^ 16) + r)) { u with
          fresh := u.fresh + 1
          tim := { u.tim with integral := i, adj := adj, applied := appliedInc (timInc u) adj } }) := by
  have hi : i = if ki = 0 then u.tim.integral + v.toInt
      else clampI (-((500000 * 2 ^ 16 : Int).fdiv ki)) ((500000 * 2 ^ 16 : Int).fdiv ki) (u.tim.integral + v.toInt) := by
    split
    · exact hi0 ‹_›
    · exact hi1 (Nat.pos_of_ne_zero ‹_›)
  obtain ⟨r, hr, hwhole, hshow⟩ := showAdj_whole (settleInc (modTim (fun t => { t with integral := i, adj := adj }) u))
  exact ⟨r, hr, hwhole, servoOffsetWrite_gives hq hm ((servoOffset_adjust h hu h1 hkp hki hi hadj).trans hshow)⟩

/-- Settles O51: the servo by its branches, a step by the time it takes, the compare channels by what keeps them from firing, and the port by what
it takes and sends. -/
theorem timeAndNetwork : Obligations.TimeAndNetwork := by
  intro w v s t u hq
  refine ⟨fun hm => ⟨fun h => servoOffsetWrite_gives hq hm (servoOffset_off h), fun h hu => ⟨fun h1 hfar => servoOffsetWrite_gives hq hm (servoOffset_step h hu h1 hfar),
      fun kp ki i adj h1 hkp hki hi0 hi1 hadj => servoWrite_adjusts hq hm h hu h1 hkp hki hi0 hi1 hadj⟩⟩,
    fun o => judgeLock_cases o s, fun h => ⟨setLock_same h, setLock_on h⟩, fun h => ⟨setLock_same h, setLock_off h⟩, fun hm => ?step,
    fun hm ht hu => ?set, timeStepApply_none hq, fun p d h => timeStepApply_cases hq h, fun k c skip ev hk hc hev => ⟨?idle, ?once, ?periodic⟩,
    fun f hit he hp ht hh => frameReceive_gives hq he hp ht hh, fun e x bs he hp hn hx hb ht => ⟨fun hcap hfree => ?sent, fun hheld => ?held⟩,
    fun e => ⟨fun h => if_pos h, fun h => if_neg (by rw [h]; decide)⟩, fun e => rfl,
    fun f x p hp => ⟨fun h => if_pos h, fun h => ?stamped⟩, fun hf => ?consumed,
    fun up hp => ⟨(linkChange_cases hq hp).1, (linkChange_cases hq hp).2, rfl⟩,
    fun d hd hm ht => ⟨fun he hmode => ethCfg_write hq hd hm ht (judgeEthMode_of (by rw [ht]; exact he) hmode),
      fun h => ethCfg_write hq hd hm ht (judgeEthMode_stays (by rw [ht] at h ⊢; exact h))⟩,
    fun f b => ⟨fitsWire_iff b, fun e he => replyTo_fits he, fun e he => ⟨(ptpFrames_sendable he).1, (ptpFrames_sendable he).2.1⟩, bestMaster_slave⟩⟩
  case step => exact gated_gives (by unfold exec; rfl) hq hm rfl rfl
  case set =>
    obtain ⟨hset, hnow⟩ := timSet_settled v ht hu
    have hwrite := writeTimCtl_eq v ht hu
    have hgives {x : State} (h : writeTimCtl v s = x) : Gives (.timeSetRequest w v) s x :=
      gated_apart (by unfold exec; rfl) hq hm (writeTimCtl_setPending v [] s) h (h ▸ writeTimCtl_tasks v s)
    refine ⟨fun h8 => hgives ?_, fun h8 => hgives ?_⟩
    · rw [hwrite, h8, if_neg Bool.false_ne_true]
    · rw [hwrite, h8, if_pos rfl, hset]
      exact requestStep_at _ _ hnow
  case idle =>
    rintro (h | h | h | h)
    · exact compareFire_idle hq (.inl (hc ▸ h))
    · exact compareFire_idle hq (.inr (.inl h))
    · exact compareFire_idle hq (.inr (.inr (cmpWaits_of (.inl h))))
    · exact compareFire_idle hq (.inr (.inr (cmpWaits_of (.inr h))))
  case once =>
    intro h0 hd h1 hs hw ht
    subst hs ht hev
    exact (compareFire_fires hq hk hc h0 hd hw).1 h1
  case periodic =>
    intro h0 hd h1 hs hw ht
    subst ht hev
    exact (compareFire_fires hq hk hc h0 hd hw).2 skip h1 hs
  case sent =>
    have hfree' : ¬txHeld s = true := by
      rw [txHeld_iff]
      omega
    obtain ⟨h0, h1, h2⟩ := sendFrame_kinds hx hb ht
    have hgives {x : State} (h : sendFrame e s = x) : Gives .ethFrameTransmitted s x :=
      frameTransmitted_gives hq he hp hn ((if_neg hfree').trans h) (h ▸ sendFrame_tasks e s)
    exact ⟨fun h => hgives (h0 h), fun h => hgives (h1 h), fun h => hgives (h2 h)⟩
  case held => exact frameTransmitted_gives hq he hp hn (if_pos ((txHeld_iff s).mpr hheld)) (deferTx_tasks e s)
  case stamped =>
    rw [hp]
    exact if_neg (Nat.not_le.mpr h)
  case consumed =>
    refine gives_of_effect (by unfold exec; rfl) hq ?_ rfl
    exact if_pos hf

end Sys2Proof.Machine
end

