-- ==== Sys2Proof/Proofs/HostRows.lean ====
section
/-! What the rows of the host link leave. -/

namespace Sys2Proof.Machine

open Sys2Proof

/-! ## Bus mastering and vectors -/

theorem bme_rows {s : State} (hq : Quiet s) :
    (s.host.bme = true → cfgAnswers s = true → Gives .bmeClear s (setFlag Reg.pciStatus.base 1 (modHost (fun h => { h with bme := false }) s)))
    ∧ (s.host.bme = false → cfgAnswers s = true → Gives .bmeSet s (flushEvents (sendAllPending (modHost (fun h => { h with bme := true }) s))))
    ∧ (cfgAnswers s = false → Gives .bmeClear s s ∧ Gives .bmeSet s s) := by
  refine ⟨fun hb hc => ?_, fun hb hc => ?_, fun hc => ⟨?_, ?_⟩⟩
  · have hon : (s.host.bme && cfgAnswers s) = true := by rw [hb, hc]; rfl
    refine gives_of_effect (by unfold exec; rfl) hq ?_ rfl
    exact (if_pos hon).trans rfl
  · have hon : ¬(s.host.bme || !cfgAnswers s) = true := by rw [hb, hc]; decide
    refine gives_of_effect (by unfold exec; rfl) hq ?_ ?_
    · rw [← flushEvents_setPending, ← sendAllPending_setPending]
      exact if_neg hon
    · exact (eventFrame_flushEvents _).tasks.trans (sendAllPending_tasks _)
  · refine gives_of_effect (by unfold exec; rfl) hq ?_ rfl
    exact if_neg (by show ¬(s.host.bme && cfgAnswers s) = true; rw [hc, Bool.and_false]; decide)
  · refine gives_of_effect (by unfold exec; rfl) hq ?_ rfl
    exact if_pos (by show (s.host.bme || !cfgAnswers s) = true; rw [hc]; exact Bool.or_true _)

theorem raiseVec_cases (vec : ℕ) (s : State) :
    (s.host.bme = false ∨ vecMasked s vec = true →
      raiseVec vec s = modHost (fun h => { h with vecPend := h.vecPend ||| BitVec.twoPow 64 vec }) s)
    ∧ (s.host.bme = true → vecMasked s vec = false → raiseVec vec s = emit (.msix vec) s) := by
  refine ⟨fun h => if_pos ?_, fun hb hv => if_neg (by rw [hb, hv]; decide)⟩
  rcases h with h | h <;> simp [h]

/-- The table word of a vector that is unmasked. -/
theorem writeMsix_unmask {vec : ℕ} (hv : vec < 64) (s : State) :
    writeMsix (Reg.msixTable.off (4 * vec + 3) 0) 0 s = sendPending vec (wr (Reg.msixTable.off (4 * vec + 3) 0) 0 s) := by
  have hindex : Reg.msixTable.index (Reg.msixTable.off (4 * vec + 3) 0) = 4 * vec + 3 := by
    show (if (4 : ℕ) = 0 then 0 else min ((0x31000 + (4 * vec + 3) * 4 + 0 * 0 - 0x31000) / 4) (256 - 1)) = _
    rw [if_neg (by decide)]
    omega
  unfold writeMsix
  dsimp only
  rw [hindex, if_pos (by omega), show (4 * vec + 3) / 4 = vec by omega]
  rfl

theorem msixUnmask_gives {vec : ℕ} {s t : State} (hq : Quiet s) (hv : vec < 64) (hu : wideUp s = true)
    (ht : t = wr (Reg.msixTable.off (4 * vec + 3) 0) 0 s) :
    (s.host.bme = true → s.host.vecPend.getLsbD vec = true → Gives (.msixUnmask vec) s
        (emit (.msix vec) (modHost (fun h => { h with vecPend := h.vecPend &&& ~~~ BitVec.twoPow 64 vec }) t)))
      ∧ (s.host.bme = false ∨ s.host.vecPend.getLsbD vec = false → Gives (.msixUnmask vec) s t) := by
  have hmask : vecMasked t vec = false := by
    rw [vecMasked, rdB, ht, rd_wr_same]
    exact Nat.zero_testBit 0
  have hgives {u : State} (h : sendPending vec t = u) : Gives (.msixUnmask vec) s u := by
    refine gives_of_wide (by unfold exec; rfl) hu hq ?_ ?_
    · refine (if_pos hv).trans ?_
      rw [writeMsix_setPending, writeMsix_unmask hv, ← ht, h]
    · rw [← h, sendPending_tasks, ht]
      rfl
  have hhost : t.host = s.host := by rw [ht]; rfl
  refine ⟨fun hb hp => hgives (if_pos ?_), fun h => hgives (if_neg ?_)⟩
  · rw [hmask, hhost, hb, hp]
    rfl
  · rw [hmask, hhost]
    rcases h with h | h <;> simp [h]

theorem linkListed_iff (speed width : ℕ) (flit : Bool) :
    linkListed speed width flit = true ↔ 1 ≤ speed ∧ speed ≤ 6 ∧ (width = 1 ∨ width = 2 ∨ width = 4 ∨ width = 8) ∧ (speed = 6 → flit = true) := by
  rw [linkListed]
  simp only [Bool.and_eq_true, decide_eq_true_eq, List.contains_iff_mem, List.mem_cons, List.not_mem_nil, or_false, Bool.or_eq_true, bne_iff_ne, and_assoc]
  constructor
  · rintro ⟨h1, h6, hw, hf⟩
    exact ⟨h1, h6, hw, fun h => hf.resolve_left (not_not.mpr h)⟩
  · rintro ⟨h1, h6, hw, hf⟩
    refine ⟨h1, h6, hw, ?_⟩
    by_cases h : speed = 6
    · exact .inr (hf h)
    · exact .inl h

theorem pcieLinkUp_cases {speed width : ℕ} {flit : Bool} {s : State} (hq : Quiet s) :
    (wideUp s = true → 1 ≤ speed → speed ≤ 6 → (width = 1 ∨ width = 2 ∨ width = 4 ∨ width = 8) → (speed = 6 → flit = true) →
        Gives (.pcieLinkUp speed width flit) s (postEvent 0x0E 1 0 0 0 []
          (modHost (fun h => { h with linkUp := true }) (wr Reg.pciLink.base (speed + width * 16 + 256 * b2n flit) s))))
      ∧ (wideUp s = false ∨ linkListed speed width flit = false → Gives (.pcieLinkUp speed width flit) s s) := by
  refine ⟨fun hu h1 h6 hw hf => ?_, fun h => ?_⟩
  · have hon : (linkListed speed width flit && wideUp s) = true := by
      rw [(linkListed_iff speed width flit).mpr ⟨h1, h6, hw, hf⟩, hu]
      rfl
    refine gives_of_effect (by unfold exec; rfl) hq ?_ ((eventFrame_postEvent _ _ _ _ _ _ _).get State.tasks)
    rw [← postEvent_setPending]
    exact (if_pos hon).trans rfl
  · have hoff : ¬(linkListed speed width flit && wideUp s) = true := by
      rcases h with h | h <;> simp [h]
    refine gives_of_effect (by unfold exec; rfl) hq ?_ rfl
    exact if_neg hoff

theorem apertureOk_iff (b : ℕ) : apertureOk b = true ↔ b = 0 ∨ (64 ≤ b ∧ b ≤ 127) ∨ b = 256 ∨ b = 288 := by
  simp only [apertureOk, Bool.or_eq_true, Bool.and_eq_true, decide_eq_true_eq, beq_iff_eq, or_assoc]

theorem apertureBase_cases {w : Writer} {v : Word} {b : ℕ} {s : State} (hq : Quiet s) (hb : b = bits v.toNat 0 10) (hm : MayWrite s w Reg.pciAp.base v) :
    (b = 0 ∨ (64 ≤ b ∧ b ≤ 127) ∨ b = 256 ∨ b = 288 → Gives (.apertureBaseWrite w v) s (wr Reg.pciAp.base b s))
      ∧ (¬(b = 0 ∨ (64 ≤ b ∧ b ≤ 127) ∨ b = 256 ∨ b = 288) → Gives (.apertureBaseWrite w v) s (setFlag Reg.pciStatus.base 4 s)) := by
  rw [← apertureOk_iff]
  subst hb
  refine ⟨fun h => ?_, fun h => ?_⟩
  · exact gated_apart (by unfold exec; rfl) hq hm (writeAperture_setPending v [] s) (if_pos h) rfl
  · exact gated_apart (by unfold exec; rfl) hq hm (writeAperture_setPending v [] s) (if_neg h) rfl

/-! ## The aperture -/

theorem foldl_snd_tasks {α β : Type} {f : β × State → α → β × State} (h : ∀ r a, (f r a).2.tasks = r.2.tasks) (l : List α) (r : β × State) :
    (l.foldl f r).2.tasks = r.2.tasks := by
  induction l generalizing r with
  | nil => rfl
  | cons a l ih => exact (ih _).trans (h r a)

theorem hostSquare_tasks (acc : Access) (ecc : List EccHit) (s : State) : (hostSquare acc ecc s).2.tasks = s.tasks := by
  have hflag (p : Prop) [Decidable p] : (if p then s else setFlag Reg.sqStatus.base 8 s).tasks = s.tasks := by
    split
    · rfl
    · rfl
  cases acc with
  | read a n =>
    refine (foldl_snd_tasks (fun r p => ?_) _ _).trans (hflag _)
    dsimp only
    split
    · exact readMem_tasks _ _ _ _
    · rfl
  | write a bs =>
    refine (foldl_snd_tasks (fun r p => ?_) _ _).trans (hflag _)
    dsimp only
    split
    · exact writeAll_tasks _ _ _ _
    · rfl

/-- An access through the aperture that ends inside it, by what stands at its device address. -/
theorem apertureAccess_gives {acc acc' : Access} {ecc : List EccHit} {late : Bool} {s : State} {r : AccessResult × State} (hq : Quiet s)
    (hu : wideUp s = true) (hrec : inRecovery s = false) (hin : (accessSpan acc).1 + (accessSpan acc).2 ≤ 0x40000000)
    (hmove : moveAccess (rdF s Reg.pciAp.base 0 10 * 0x40000000) acc = acc')
    (h : apertureAt acc' ecc late (bump Reg.pciSnapCnt.base 2 s) = r) (ht : r.2.tasks = s.tasks) :
    Gives (.apertureAccess acc ecc late) s (answer r) := by
  have hgo : ¬(decide (0x40000000 < (accessSpan acc).1 + (accessSpan acc).2) || !wideUp s) = true := by
    rw [hu, decide_eq_false (Nat.not_lt.mpr hin)]
    decide
  refine gives_of_effect (by unfold exec; rfl) hq ?_ ht
  refine (if_neg hgo).trans ?_
  dsimp only
  rw [show inRecovery (setPending [] s) = false from hrec, if_neg Bool.false_ne_true,
    show rdF (setPending [] s) Reg.pciAp.base 0 10 = rdF s Reg.pciAp.base 0 10 from rfl, hmove, bump_setPending, apertureAt_setPending, h]
  rfl

/-- What keeps a device address from answering an access of `m` bytes (R472, R473). -/
def ApertureMisses (s : State) (late : Bool) (d m : ℕ) (r : Region) : Prop :=
  (r = .host ∨ r = .other) ∨ ((r = .square ∨ r = .lpddr) ∧ coreUp s = false) ∨ (r = .lpddr ∧ s.host.d3 = true) ∨ (r = .square ∧ 0x20000000 < d + m)
    ∨ (r = .lpddr ∧ 0x2000000000 < d + m) ∨ (∃ p, r = .peer p ∧ (late = true ∨ peerMapped s p d m = false))

theorem inSquare_span (acc : Access) : inSquare acc = decide ((accessSpan acc).1 + (accessSpan acc).2 ≤ 0x20000000) := by
  cases acc with
  | read a n => rfl
  | write a bs => rfl

theorem apertureAt_miss {acc : Access} {ecc : List EccHit} {late : Bool} {s : State} {d m : ℕ} (hd : accessSpan acc = (d, m))
    (h : ApertureMisses s late d m (regionOf d)) : apertureAt acc ecc late s = apertureMiss acc s := by
  unfold apertureAt
  rw [inSquare_span, hd]
  dsimp only
  rcases h with (h | h) | ⟨h | h, hc⟩ | ⟨h, hc⟩ | ⟨h, hc⟩ | ⟨h, hc⟩ | ⟨p, h, hc⟩
  · rw [h]
  · rw [h]
  · rw [h]
    exact if_pos (by rw [hc]; rfl)
  · rw [h]
    exact if_neg (by rw [hc]; exact Bool.false_ne_true)
  · rw [h]
    exact if_neg (by rw [memAwake, hc, Bool.not_true, Bool.and_false]; exact Bool.false_ne_true)
  · rw [h]
    exact if_pos (by rw [decide_eq_false (Nat.not_le.mpr hc)]; exact Bool.or_true _)
  · rw [h]
    exact if_neg (by rw [decide_eq_false (Nat.not_le.mpr hc), Bool.and_false]; exact Bool.false_ne_true)
  · rw [h]
    refine if_pos ?_
    rcases hc with hc | hc
    · rw [hc]
      rfl
    · rw [hc]
      exact Bool.or_true _

theorem apertureAt_square {acc : Access} {ecc : List EccHit} {late : Bool} {s : State} {d m : ℕ} (hd : accessSpan acc = (d, m))
    (hr : regionOf d = .square) (hc : coreUp s = true) (hrec : inRecovery s = false) (hm : d + m ≤ 0x20000000) :
    apertureAt acc ecc late s = hostSquare acc ecc s := by
  unfold apertureAt
  rw [inSquare_span, hd]
  dsimp only
  rw [hr, hc, decide_eq_true hm, hrec]
  rfl

theorem apertureAt_lpddr {acc : Access} {ecc : List EccHit} {late : Bool} {s : State} {d m : ℕ} (hd : accessSpan acc = (d, m))
    (hr : regionOf d = .lpddr) (hc : coreUp s = true) (h3 : s.host.d3 = false) (hm : d + m ≤ 0x2000000000) :
    apertureAt acc ecc late s = plainAccess acc ecc s := by
  unfold apertureAt
  rw [hd]
  dsimp only
  rw [hr]
  exact if_pos (by rw [hc, memAwake, h3, decide_eq_true hm]; rfl)

theorem apertureAt_peer {acc : Access} {ecc : List EccHit} {s : State} {p d m : ℕ} (hd : accessSpan acc = (d, m))
    (hr : regionOf d = .peer p) (hm : peerMapped s p d m = true) :
    apertureAt acc ecc false s = match acc with
      | .read a n => devRead a n ecc s
      | .write a bs => let (st, s) := devWrite a bs ecc s; ({ status := st, data := [] }, s) := by
  unfold apertureAt
  rw [hd]
  dsimp only
  rw [hr]
  have hno : ¬(false || !peerMapped s p d m) = true := by rw [hm]; decide
  cases acc with
  | read a n => exact if_neg hno
  | write a bs => exact if_neg hno

/-- The answer to a write is its status. -/
theorem answer_write (st : ℕ) (s : State) : answer ({ status := st, data := [] }, s) = { s with rdata := 0, rstat := st } := rfl

theorem answer_missRead (a m : ℕ) (s : State) :
    answer (apertureMiss (.read a m) s) = { setFlag Reg.pciStatus.base 3 s with rdata := ofLe (List.replicate m 0xFF), rstat := Stat.ok } := rfl

theorem answer_missWrite (a : ℕ) (bs : List Byte) (s : State) :
    answer (apertureMiss (.write a bs) s) = { setFlag Reg.pciStatus.base 3 s with rdata := 0, rstat := Stat.ok } := rfl

theorem plainAccess_write (a : ℕ) (bs : List Byte) (ecc : List EccHit) (s : State) :
    plainAccess (.write a bs) ecc s = ({ status := (writeAll a bs ecc s).1, data := [] }, (writeAll a bs ecc s).2) := rfl

/-- The accesses through the aperture at one device address. -/
theorem aperture_rows {a m d : ℕ} {bs : List Byte} {ecc : List EccHit} {late : Bool} {s t : State} (hq : Quiet s) (hu : wideUp s = true)
    (hrec : inRecovery s = false) (hm : a + m ≤ 0x40000000) (hb : a + bs.length ≤ 0x40000000)
    (hd : d = a + rdF s Reg.pciAp.base 0 10 * 0x40000000) (ht : t = bump Reg.pciSnapCnt.base 2 s) :
    (∀ r, r = regionOf d → ApertureMisses s late d m r →
        Gives (.apertureAccess (.read a m) ecc late) s
          { setFlag Reg.pciStatus.base 3 t with rdata := ofLe (List.replicate m 0xFF), rstat := Stat.ok }
        ∧ (bs.length = m → Gives (.apertureAccess (.write a bs) ecc late) s
          { setFlag Reg.pciStatus.base 3 t with rdata := 0, rstat := Stat.ok }))
      ∧ (regionOf d = .square → coreUp s = true →
        (d + m ≤ 0x20000000 → Gives (.apertureAccess (.read a m) ecc late) s (answer (hostSquare (.read d m) ecc t)))
        ∧ (d + bs.length ≤ 0x20000000 → Gives (.apertureAccess (.write a bs) ecc late) s (answer (hostSquare (.write d bs) ecc t))))
      ∧ (regionOf d = .lpddr → coreUp s = true → s.host.d3 = false →
        (d + m ≤ 0x2000000000 → Gives (.apertureAccess (.read a m) ecc late) s (answer (readMem d m ecc t)))
        ∧ (d + bs.length ≤ 0x2000000000 → Gives (.apertureAccess (.write a bs) ecc late) s
            { (writeAll d bs ecc t).2 with rdata := 0, rstat := (writeAll d bs ecc t).1 }))
      ∧ (∀ p, regionOf d = .peer p → late = false →
        (peerMapped s p d m = true → Gives (.apertureAccess (.read a m) ecc late) s (answer (devRead d m ecc t)))
        ∧ (peerMapped s p d bs.length = true → Gives (.apertureAccess (.write a bs) ecc late) s
            { (devWrite d bs ecc t).2 with rdata := 0, rstat := (devWrite d bs ecc t).1 })) := by
  have hread : moveAccess (rdF s Reg.pciAp.base 0 10 * 0x40000000) (.read a m) = .read d m := by rw [hd]; rfl
  have hwrite : moveAccess (rdF s Reg.pciAp.base 0 10 * 0x40000000) (.write a bs) = .write d bs := by rw [hd]; rfl
  have htasks : t.tasks = s.tasks := by rw [ht]; rfl
  have hcore (h : coreUp s = true) : coreUp t = true := by rw [ht]; exact h
  have hrom : inRecovery t = false := by rw [ht]; exact hrec
  have hawake (h : s.host.d3 = false) : t.host.d3 = false := by rw [ht]; exact h
  have hpeer (p m : ℕ) : peerMapped t p d m = peerMapped s p d m := by rw [ht]; rfl
  have hgiveR {r : AccessResult × State} (h : apertureAt (.read d m) ecc late t = r) (hr : r.2.tasks = t.tasks) :
      Gives (.apertureAccess (.read a m) ecc late) s (answer r) :=
    apertureAccess_gives hq hu hrec hm hread (ht ▸ h) (hr.trans htasks)
  have hgiveW {r : AccessResult × State} (h : apertureAt (.write d bs) ecc late t = r) (hr : r.2.tasks = t.tasks) :
      Gives (.apertureAccess (.write a bs) ecc late) s (answer r) :=
    apertureAccess_gives hq hu hrec hb hwrite (ht ▸ h) (hr.trans htasks)
  refine ⟨fun r hr hmiss => ?_, fun hr hc => ⟨fun hin => ?_, fun hin => ?_⟩, fun hr hc h3 => ⟨fun hin => ?_, fun hin => ?_⟩,
    fun p hr hl => ⟨fun hin => ?_, fun hin => ?_⟩⟩
  · subst hr
    have hmiss' : ApertureMisses t late d m (regionOf d) := by rw [ht]; exact hmiss
    have hlost := hgiveR (apertureAt_miss (d := d) (m := m) rfl hmiss') (apertureMiss_tasks _ t)
    refine ⟨answer_missRead d m t ▸ hlost, fun hlen => ?_⟩
    subst hlen
    exact answer_missWrite d bs t ▸ hgiveW (apertureAt_miss (d := d) (m := bs.length) rfl hmiss') (apertureMiss_tasks _ t)
  · have hat := apertureAt_square (acc := .read d m) (ecc := ecc) (late := late) (d := d) (m := m) rfl hr (hcore hc) hrom hin
    exact hgiveR hat (hostSquare_tasks _ _ _)
  · have hat := apertureAt_square (acc := .write d bs) (ecc := ecc) (late := late) (d := d) (m := bs.length) rfl hr (hcore hc) hrom hin
    exact hgiveW hat (hostSquare_tasks _ _ _)
  · have hat := apertureAt_lpddr (acc := .read d m) (ecc := ecc) (late := late) (d := d) (m := m) rfl hr (hcore hc) (hawake h3) hin
    exact hgiveR hat (readMem_tasks _ _ _ _)
  · have hat := apertureAt_lpddr (acc := .write d bs) (ecc := ecc) (late := late) (d := d) (m := bs.length) rfl hr (hcore hc) (hawake h3) hin
    rw [← answer_write]
    exact hgiveW (hat.trans (plainAccess_write d bs ecc t)) (writeAll_tasks _ _ _ _)
  · subst hl
    have hat := apertureAt_peer (acc := .read d m) (ecc := ecc) rfl hr ((hpeer p m).trans hin)
    exact hgiveR hat (devRead_tasks _ _ _ _)
  · subst hl
    have hat := apertureAt_peer (acc := .write d bs) (ecc := ecc) rfl hr ((hpeer p bs.length).trans hin)
    rw [← answer_write]
    exact hgiveW hat (devWrite_tasks _ _ _ _)

theorem apertureAccess_off {acc : Access} {ecc : List EccHit} {late : Bool} {s : State} (hq : Quiet s)
    (h : wideUp s = false ∨ 0x40000000 < (accessSpan acc).1 + (accessSpan acc).2) : Gives (.apertureAccess acc ecc late) s s := by
  have hstop : (decide (0x40000000 < (accessSpan acc).1 + (accessSpan acc).2) || !wideUp s) = true := by
    rcases h with h | h
    · rw [h]
      exact Bool.or_true _
    · rw [decide_eq_true h]
      rfl
  refine gives_of_effect (by unfold exec; rfl) hq ?_ rfl
  exact if_pos hstop

/-! ## Windows -/

theorem writeWinCtl_cases {n : ℕ} {v : Word} {s : State} :
    (v.toNat.testBit 0 = true → winEn s n = true ∨ windowOk s n = true →
        writeWinCtl n v s = flushEvents (wr (Reg.pciWinCtl.off n 0) (v.toNat % 4) s))
      ∧ (v.toNat.testBit 0 = true → winEn s n = false → windowOk s n = false →
        writeWinCtl n v s = setFlag Reg.pciStatus.base 5 (wr (Reg.pciWinCtl.off n 0) (v.toNat % 4 - 1) s))
      ∧ (v.toNat.testBit 0 = false → winEn s n = true → windowUsed s n = true → writeWinCtl n v s = setFlag Reg.pciStatus.base 5 s)
      ∧ (v.toNat.testBit 0 = false → winEn s n = false ∨ windowUsed s n = false →
        writeWinCtl n v s = flushEvents (wr (Reg.pciWinCtl.off n 0) (v.toNat % 4) s)) := by
  unfold writeWinCtl
  dsimp only
  refine ⟨fun hv h => ?_, fun hv h1 h2 => ?_, fun hv h1 h2 => ?_, fun hv h => ?_⟩
  · rw [if_neg (by rcases h with h | h <;> simp [hv, h]), if_neg (by simp [hv])]
  · rw [if_pos (by simp [hv, h1, h2])]
  · rw [if_neg (by simp [hv]), if_pos (by simp [hv, h1, h2])]
  · rw [if_neg (by simp [hv]), if_neg (by rcases h with h | h <;> simp [hv, h])]

theorem windowEnable_gives {w : Writer} {n : ℕ} {v : Word} {s t : State} (hq : Quiet s) (hn : n < 16) (hv : v.getLsbD 0 = true)
    (hm : MayWrite s w (Reg.pciWinCtl.off n 0) v) (h : writeWinCtl n v s = t) (ht : t.tasks = s.tasks) : Gives (.hostWindowEnable w n v) s t := by
  refine gives_of_effect (by unfold exec; rfl) hq ?_ ht
  refine (if_pos ⟨hn, hv⟩).trans ?_
  rw [gate_pass_pending [] hm, writeWinCtl_setPending, h]

theorem windowDisable_gives {w : Writer} {n : ℕ} {v : Word} {s t : State} (hq : Quiet s) (hn : n < 16) (hv : v.getLsbD 0 = false)
    (hm : MayWrite s w (Reg.pciWinCtl.off n 0) v) (h : writeWinCtl n v s = t) (ht : t.tasks = s.tasks) : Gives (.hostWindowDisable w n v) s t := by
  refine gives_of_effect (by unfold exec; rfl) hq ?_ ht
  refine (if_pos ⟨hn, hv⟩).trans ?_
  rw [gate_pass_pending [] hm, writeWinCtl_setPending, h]

theorem windowOk_iff (s : State) (n : ℕ) : windowOk s n = true ↔ rdF s (Reg.pciWinLo.off n 0) 0 12 = 0 ∧ 1 ≤ rdF s (Reg.pciWinSize.off n 0) 0 21
    ∧ rdF s (Reg.pciWinSize.off n 0) 0 21 ≤ 1048576 := by
  simp only [windowOk, Bool.and_eq_true, decide_eq_true_eq, beq_iff_eq, and_assoc]

theorem peerTimeout_gives {ch : ℕ} {r : Running} {s : State} (hq : Quiet s) (hr : runningOn s 8 ch = some r) (hd : r.done = false)
    (hg : groupUp s 3 = true) (hp : isPeer (leAt r.job.desc 8 8) = true ∨ isPeer (leAt r.job.desc 0x10 8) = true) :
    Gives (.peerAccessTimeout ch) s (jobDone 8 ch Stat.timeout s) := by
  have hgo : ¬(r.done || !groupUp s 3 || !(isPeer (leAt r.job.desc 8 8) || isPeer (leAt r.job.desc 0x10 8))) = true := by
    rcases hp with hp | hp <;> simp [hd, hg, hp]
  refine gives_of_effect (by unfold exec; rfl) hq ?_ (jobDone_tasks _ _ _ _)
  rw [← jobDone_setPending]
  show (match runningOn s 8 ch with | none => _ | some r => _) = _
  rw [hr]
  exact if_neg hgo

/-- Settles O52: bus mastering, the vectors, the link, the aperture and the windows, each by its branches. -/
theorem hostLinkWindowsAndVectors : Obligations.HostLinkWindowsAndVectors := by
  intro w n v s t hq
  obtain ⟨hclear, hset, hoff⟩ := bme_rows hq
  refine ⟨hclear, hset, hoff, fun vec hv => ⟨(raiseVec_cases vec s).1, (raiseVec_cases vec s).2, msixUnmask_gives hq hv⟩,
    fun speed width flit => pcieLinkUp_cases hq, fun b hb hm => apertureBase_cases hq hb hm, fun acc ecc late h => apertureAccess_off hq h,
    fun a m bs ecc late d hu hrec hm hb hd ht => aperture_rows hq hu hrec hm hb hd ht, fun off old hn hoff hold hm => ?windows,
    fun _ => windowOk_iff s n, fun ch r hr hd hg hp => peerTimeout_gives hq hr hd hg hp⟩
  case windows =>
    subst hoff hold
    obtain ⟨h1, h2, h3, h4⟩ := writeWinCtl_cases (n := n) (v := v) (s := s)
    rw [BitVec.testBit_toNat] at h1 h2 h3 h4
    exact ⟨fun hv h => windowEnable_gives hq hn hv hm (h1 hv h) (eventFrame_flushEvents _).tasks,
      fun hv ho hw => windowEnable_gives hq hn hv hm (h2 hv ho hw) rfl, fun hv ho hw => windowDisable_gives hq hn hv hm (h3 hv ho hw) rfl,
      fun hv h => windowDisable_gives hq hn hv hm (h4 hv h) (eventFrame_flushEvents _).tasks⟩

end Sys2Proof.Machine
end

