-- ==== Sys2Proof/Proofs/BlvRows.lean ====
section
/-! What the rows of the Boulevard ports and of a peer leave. -/

namespace Sys2Proof.Machine

open Sys2Proof

/-! ## Ports -/

theorem modBlv_congr {p : ℕ} {s : State} {f g : Blv → Blv} (h : f (blvOf s p) = g (blvOf s p)) : modBlv p f s = modBlv p g s :=
  congrArg (fun l => { s with blv := l }) (modAt_congr Blv.reset h)

theorem blvOf_modBlv {p : ℕ} {s : State} (f : Blv → Blv) (h : p < s.blv.length) : blvOf (modBlv p f s) p = f (blvOf s p) :=
  getD_modAt_same f _ h

theorem blvTest_iff (s : State) (p : ℕ) : blvTest s p = true ↔ blvMode s p = 1 ∨ blvMode s p = 2 := by
  rw [blvTest, Bool.or_eq_true, beq_iff_eq, beq_iff_eq]

/-- The word of BLV_CTL with its enable set. -/
theorem toNat_enableWord (s : State) (p : ℕ) :
    (BitVec.ofNat 32 (setBits (rd s (Reg.blvCtl.off p 0)) 0 1 1)).toNat = setBits (rd s (Reg.blvCtl.off p 0)) 0 1 1 := by
  rw [BitVec.toNat_ofNat, Nat.mod_eq_of_lt]
  exact setBits_lt _ _ _ _ 32 (rdW s _).isLt (by decide)

theorem rdF_ctl_wr (v p lo w : ℕ) (s : State) (h : lo + w ≤ 4) : rdF (wr (Reg.blvCtl.off p 0) (v % 16) s) (Reg.blvCtl.off p 0) lo w = bits v lo w := by
  rw [rdF, rd_wr_same, Nat.mod_eq_of_lt (by omega)]
  refine Nat.eq_of_testBit_eq fun i => ?_
  rw [testBit_bits, testBit_bits, show (16 : ℕ) = 2 ^ 4 by rfl, Nat.testBit_mod_two_pow]
  by_cases hi : i < w
  · rw [decide_eq_true (show lo + i < 4 by omega), Bool.true_and]
  · rw [decide_eq_false hi, Bool.false_and, Bool.false_and]

theorem rdB_ctl_wr (v p i : ℕ) (s : State) (h : i < 4) : rdB (wr (Reg.blvCtl.off p 0) (v % 16) s) (Reg.blvCtl.off p 0) i = v.testBit i := by
  rw [rdB, rd_wr_same, Nat.mod_eq_of_lt (by omega), show (16 : ℕ) = 2 ^ 4 by rfl, Nat.testBit_mod_two_pow, decide_eq_true h, Bool.true_and]

/-! ## Training -/

/-- The state of a port once BLV_CTL[p] is written and before what follows from it. -/
def ctlWritten (p : ℕ) (v : Word) (s : State) : State :=
  wr (Reg.blvCtl.off p 0) (v.toNat % 16) (if bits v.toNat 1 2 = blvMode s p then s else modBlv p (fun b => { b with locks := Blv.reset.locks }) s)

/-- A port trains: enabled, with no pattern of R491. -/
def trains (s : State) (p : ℕ) : Bool := blvEn s p && !blvTest s p

theorem writeBlvCtl_eq (p : ℕ) (v : Word) (s : State) :
    writeBlvCtl p v s =
      if trains s p && !trains (ctlWritten p v s) p then
        (if blvState (ctlWritten p v s) p = 3 then blvDown p 0 (ctlWritten p v s) else setBlvState p 0 (ctlWritten p v s))
      else if !trains s p && trains (ctlWritten p v s) p then blvTrain p (ctlWritten p v s)
      else ctlWritten p v s := rfl

theorem blvMode_ctlWritten (p : ℕ) (v : Word) (s : State) : blvMode (ctlWritten p v s) p = bits v.toNat 1 2 := rdF_ctl_wr _ _ _ _ _ (by decide)

theorem blvEn_ctlWritten (p : ℕ) (v : Word) (s : State) : blvEn (ctlWritten p v s) p = v.toNat.testBit 0 := rdB_ctl_wr _ _ _ _ (by decide)

/-- A write that only sets the enable (R483). -/
theorem writeBlvCtl_enable {p : ℕ} {v : Word} {s : State} (hv : v.toNat = setBits (rd s (Reg.blvCtl.off p 0)) 0 1 1) :
    writeBlvCtl p v s = if blvEn s p = false ∧ blvTest s p = false then blvTrain p (wr (Reg.blvCtl.off p 0) (v.toNat % 16) s)
      else wr (Reg.blvCtl.off p 0) (v.toNat % 16) s := by
  have hmode : bits v.toNat 1 2 = blvMode s p := by rw [hv, bits_setBits_other _ _ _ _ _ _ (.inr (by decide))]; rfl
  have hw : ctlWritten p v s = wr (Reg.blvCtl.off p 0) (v.toNat % 16) s := by rw [ctlWritten, if_pos hmode]
  have hen : blvEn (ctlWritten p v s) p = true := by
    rw [blvEn_ctlWritten, hv, testBit_setBits, if_pos (by decide)]
    rfl
  have htest : blvTest (ctlWritten p v s) p = blvTest s p := by rw [blvTest, blvMode_ctlWritten, hmode, blvTest]
  have htrains : trains (ctlWritten p v s) p = !blvTest s p := by rw [trains, hen, htest, Bool.true_and]
  rw [writeBlvCtl_eq, htrains, trains, hw]
  cases blvEn s p with
  | false =>
    cases blvTest s p with
    | false => rfl
    | true => rfl
  | true =>
    cases blvTest s p with
    | false => rfl
    | true => rfl

theorem blvEnable_gives {w : Writer} {p : ℕ} {v : Word} {s u : State} (hq : Quiet s) (hp : p < 2)
    (hv : v = BitVec.ofNat 32 (setBits (rd s (Reg.blvCtl.off p 0)) 0 1 1)) (hm : MayWrite s w (Reg.blvCtl.off p 0) v) (h : writeBlvCtl p v s = u) :
    Gives (.blvEnable w p) s u := by
  refine gives_of_effect (by unfold exec; rfl) hq ?_ (h ▸ writeBlvCtl_tasks p v s)
  refine (if_neg (Nat.not_le.mpr hp)).trans ?_
  dsimp only
  rw [show rd (setPending [] s) (Reg.blvCtl.off p 0) = rd s (Reg.blvCtl.off p 0) from rfl, ← hv, gate_pass_pending [] hm, writeBlvCtl_setPending, h]

theorem blvTrain_link (p : ℕ) (s : State) : blvState (blvTrain p s) p = 1 ∧ blvIdle (blvTrain p s) p = false := by
  have hrd (f : Blv → Blv) (s : State) (r : ℕ) : rd (modBlv p f s) r = rd s r := rfl
  unfold blvTrain setBlvState blvState blvIdle rdB rdF
  simp only [hrd]
  rw [rd_wrF_same _ _ _ _ _ (by decide), rd_wrF_same _ _ _ _ _ (by decide)]
  constructor
  · rw [bits_setBits_other _ _ _ _ _ _ (.inl (by decide)), bits_setBits_same]
    rfl
  · rw [testBit_setBits, if_pos (by decide)]
    rfl

theorem blvTrained_gives {p skew : ℕ} {part : Option ℕ} {credits : List ℕ} {s t : State} (hq : Quiet s) (hl : blvLive s p = true)
    (hs : blvState s p = 1 ∨ blvState s p = 2)
    (h : (if 128 < skew then blvDown p 0 s else match part with | none => setBlvState p 2 s | some c => blvMeets p c credits s) = t)
    (ht : t.tasks = s.tasks) : Gives (.blvTrained p part skew credits) s t := by
  have hgo : ¬(!blvLive s p || !(blvState s p == 1 || blvState s p == 2)) = true := by
    rw [hl]
    rcases hs with hs | hs <;> rw [hs] <;> decide
  refine gives_of_effect (by unfold exec; rfl) hq ?_ ht
  refine (if_neg hgo).trans ?_
  rw [← h]
  by_cases h128 : 128 < skew
  · rw [if_pos h128, if_pos h128, blvDown_setPending]
  · rw [if_neg h128, if_neg h128]
    cases part with
    | none => exact setBlvState_setPending p 2 [] s
    | some c => exact blvMeets_setPending p c credits [] s

theorem blvTrained_cases {p part skew : ℕ} {credits : List ℕ} {s t : State} (hq : Quiet s) (hl : blvLive s p = true)
    (hs : blvState s p = 1 ∨ blvState s p = 2) (ht : t = wrF (Reg.blvLink.off p 0) 16 16 part s) :
    (∀ c, 128 < skew → Gives (.blvTrained p c skew credits) s (blvDown p 0 s))
      ∧ (skew ≤ 128 → Gives (.blvTrained p none skew credits) s (setBlvState p 2 s))
      ∧ (skew ≤ 128 → part ≠ 0x1612 → part ≠ 0x0804 →
          Gives (.blvTrained p (some part) skew credits) s (blvDown p 0 (setFlag (Reg.blvStatus.off p 0) 6 t)))
      ∧ (skew ≤ 128 → part = 0x1612 ∨ part = 0x0804 → Gives (.blvTrained p (some part) skew credits) s
          (postEvent 0x0E 1 (1 + p) 0 0 [] (setFlag (Reg.blvStatus.off p 0) 0
            (setBlvState p 3 (modBlv p (fun b => { b with credits := credits })
              (wrF (Reg.blvLink.off p 0) 2 1 (if part = 0x0804 then 1 else 0) t))))))
      ∧ Gives (.blvTrainTimeout p) s (blvDown p 0 s) := by
  have hmeets (h : skew ≤ 128) : Gives (.blvTrained p (some part) skew credits) s (blvMeets p part credits s) :=
    blvTrained_gives hq hl hs (if_neg (Nat.not_lt.mpr h)) (blvMeets_tasks p part credits s)
  refine ⟨fun c h => blvTrained_gives hq hl hs (if_pos h) (blvDown_tasks p 0 s),
    fun h => blvTrained_gives hq hl hs (if_neg (Nat.not_lt.mpr h)) (setBlvState_tasks p 2 s), fun h h1 h2 => ?_, fun h hpart => ?_, ?_⟩
  · have hbad : blvMeets p part credits s = blvDown p 0 (setFlag (Reg.blvStatus.off p 0) 6 t) := by
      rw [ht]
      exact if_neg (not_or.mpr ⟨h1, h2⟩)
    exact hbad ▸ hmeets h
  · have hgood : blvMeets p part credits s = postEvent 0x0E 1 (1 + p) 0 0 [] (setFlag (Reg.blvStatus.off p 0) 0
        (setBlvState p 3 (modBlv p (fun b => { b with credits := credits })
          (wrF (Reg.blvLink.off p 0) 2 1 (if part = 0x0804 then 1 else 0) t)))) := by
      have hcompat : b2n (part == 0x0804) = if part = 0x0804 then 1 else 0 := by
        by_cases h4 : part = 0x0804
        · rw [if_pos h4, beq_iff_eq.mpr h4]; rfl
        · rw [if_neg h4, beq_eq_false_iff_ne.mpr h4]; rfl
      rw [ht, ← hcompat]
      exact if_pos hpart
    exact hgood ▸ hmeets h
  · have hgo : (blvLive s p && (blvState s p == 1 || blvState s p == 2)) = true := by
      rw [hl]
      rcases hs with hs | hs <;> rw [hs] <;> rfl
    refine gives_of_effect (by unfold exec; rfl) hq ?_ (blvDown_tasks p 0 s)
    rw [← blvDown_setPending]
    exact if_pos hgo

theorem trainingRetry_gives {p : ℕ} {s : State} (hq : Quiet s) (hl : blvLive s p = true) (hs : blvState s p = 0) (he : blvEn s p = true)
    (ht : blvTest s p = false) : Gives (.blvTrainingRetry p) s (blvTrain p s) := by
  have hgo : (blvLive s p && blvState s p == 0 && blvEn s p && !blvTest s p) = true := by
    rw [hl, hs, he, ht]
    rfl
  refine gives_of_effect (by unfold exec; rfl) hq ?_ (blvTrain_tasks p s)
  rw [← blvTrain_setPending]
  exact if_pos hgo

/-! ## Flits -/

/-- The row of a flit at a port that is up, its corrected symbols counted. -/
theorem flitReceive_gives {p : ℕ} {f : Flit} {failed : Bool} {s t u : State} (hq : Quiet s) (hl : blvLive s p = true) (hs : blvState s p = 3)
    (ht : t = count (Reg.blvSnapCnt.off p 3) f.corrected s)
    (h : (if f.crcOk && f.wordOk then (if f.seqNo % 4096 ≠ (blvOf t p).expect then t else takeFlit p f t)
      else
        let u := if f.wordOk then t else count (Reg.blvSnapCnt.off p 5) 1 t
        let n := (blvOf u p).fails + 1
        let x := emit (.linkSignal p 2) (burst p (setFlag (Reg.blvStatus.off p 0) 3
          (count (Reg.blvSnapCnt.off p 2) 1 (modBlv p (fun b => { b with fails := n }) u))))
        if 8 < n then retrain p failed x else x) = u)
    (hu : u.tasks = s.tasks) : Gives (.blvFlitReceive p f failed) s u := by
  have hgo : ¬(!blvLive s p || blvState s p != 3) = true := by
    rw [hl, hs]
    decide
  refine gives_of_effect (by unfold exec; rfl) hq ?_ hu
  refine (if_neg hgo).trans ?_
  rw [← h, ht]
  by_cases hok : (f.crcOk && f.wordOk) = true
  · rw [if_pos hok, if_pos hok]
    rw [apply_ite (setPending []), ← takeFlit_setPending]
    rfl
  · rw [if_neg hok, if_neg hok]
    dsimp only
    rw [apply_ite (setPending []), ← retrain_setPending, ← emit_setPending, ← burst_setPending]
    cases f.wordOk with
    | false => rfl
    | true => rfl

/-- A good flit in order, and what it sets off (R485, R486). -/
theorem takeFlit_eq {p : ℕ} {f : Flit} {b : Blv} {t u x : State} (hb : blvOf t p = b)
    (hu : u = count (Reg.blvSnapCnt.off p 1) 1 (modBlv p (fun y => { y with
          expect := (b.expect + 1) % 4096, retry := b.retry.drop f.ack, credits := addCredits b.credits f.credits
          owed := b.owed + 1, fails := 0 }) t))
    (hx : x = (if f.replay then replayFlits p u else u)) :
    takeFlit p f t = if (blvOf x p).held = [] then x else releaseHeld p (burst p x) := by
  have hmod : modBlv p (fun b => { b with expect := (b.expect + 1) % 4096, retry := b.retry.drop f.ack, credits := addCredits b.credits f.credits
                                          owed := b.owed + 1, fails := 0 }) t
      = modBlv p (fun y => { y with
          expect := (b.expect + 1) % 4096, retry := b.retry.drop f.ack, credits := addCredits b.credits f.credits
          owed := b.owed + 1, fails := 0 }) t := modBlv_congr (by rw [hb])
  unfold takeFlit
  dsimp only
  rw [hmod, ← hu, ← hx]
  by_cases hheld : (blvOf x p).held = []
  · rw [if_pos hheld, if_pos (List.isEmpty_iff.mpr hheld)]
  · rw [if_neg hheld, if_neg (by rwa [List.isEmpty_iff])]

theorem replayed_tasks (p : ℕ) (c : Bool) (s : State) : (if c then replayFlits p s else s).tasks = s.tasks := by
  split
  · exact replayFlits_tasks _ _
  · rfl

theorem takeFlit_tasks (p : ℕ) (f : Flit) (t : State) : (takeFlit p f t).tasks = t.tasks := by
  obtain ⟨x, hx⟩ : ∃ x, x = if f.replay then replayFlits p (count (Reg.blvSnapCnt.off p 1) 1 (modBlv p (fun y => { y with
      expect := ((blvOf t p).expect + 1) % 4096, retry := (blvOf t p).retry.drop f.ack, credits := addCredits (blvOf t p).credits f.credits
      owed := (blvOf t p).owed + 1, fails := 0 }) t)) else (count (Reg.blvSnapCnt.off p 1) 1 (modBlv p (fun y => { y with
      expect := ((blvOf t p).expect + 1) % 4096, retry := (blvOf t p).retry.drop f.ack, credits := addCredits (blvOf t p).credits f.credits
      owed := (blvOf t p).owed + 1, fails := 0 }) t)) := ⟨_, rfl⟩
  have htasks : x.tasks = t.tasks := by
    rw [hx]
    exact replayed_tasks p f.replay _
  rw [takeFlit_eq rfl rfl hx]
  split
  · exact htasks
  · rw [releaseHeld_tasks, burst_tasks, htasks]

theorem flit_cases {p : ℕ} {f : Flit} {failed : Bool} {b : Blv} {s t : State} (hq : Quiet s) (hb : b = blvOf s p) (hl : blvLive s p = true)
    (hs : blvState s p = 3) (ht : t = count (Reg.blvSnapCnt.off p 3) f.corrected s) :
    (∀ u x, f.crcOk = true → f.wordOk = true → f.seqNo % 4096 = b.expect →
        u = count (Reg.blvSnapCnt.off p 1) 1 (modBlv p (fun y => { y with
          expect := (b.expect + 1) % 4096, retry := b.retry.drop f.ack, credits := addCredits b.credits f.credits
          owed := b.owed + 1, fails := 0 }) t) →
        x = (if f.replay then replayFlits p u else u) →
        Gives (.blvFlitReceive p f failed) s (if (blvOf x p).held = [] then x else releaseHeld p (burst p x)))
      ∧ (f.crcOk = true → f.wordOk = true → f.seqNo % 4096 ≠ b.expect → Gives (.blvFlitReceive p f failed) s t)
      ∧ (∀ u x, f.crcOk = false ∨ f.wordOk = false → u = (if f.wordOk then t else count (Reg.blvSnapCnt.off p 5) 1 t) →
        x = emit (.linkSignal p 2) (burst p (setFlag (Reg.blvStatus.off p 0) 3
          (count (Reg.blvSnapCnt.off p 2) 1 (modBlv p (fun y => { y with fails := b.fails + 1 }) u)))) →
        (b.fails < 8 → Gives (.blvFlitReceive p f failed) s x) ∧ (8 ≤ b.fails → Gives (.blvFlitReceive p f failed) s (retrain p failed x))) := by
  have hbt : blvOf t p = b := by rw [ht, hb]; rfl
  have htasks : t.tasks = s.tasks := by rw [ht]; rfl
  refine ⟨fun u x hc hw hseq hu hx => ?_, fun hc hw hseq => ?_, fun u x hbad hu hx => ?_⟩
  · rw [← takeFlit_eq hbt hu hx]
    refine flitReceive_gives hq hl hs ht ?_ ((takeFlit_tasks p f t).trans htasks)
    rw [hc, hw, hbt, if_pos (by rfl), if_neg (not_not.mpr hseq)]
  · refine flitReceive_gives hq hl hs ht ?_ htasks
    rw [hc, hw, hbt, if_pos (by rfl), if_pos hseq]
  · have hno : ¬(f.crcOk && f.wordOk) = true := by rcases hbad with h | h <;> simp [h]
    have hbu : blvOf u p = b := by
      rw [hu]
      split
      · exact hbt
      · exact hbt
    have hx' : x.tasks = s.tasks := by
      rw [hx, emit_tasks, burst_tasks]
      refine Eq.trans ?_ htasks
      rw [hu]
      split
      · rfl
      · rfl
    refine ⟨fun hf => ?_, fun hf => ?_⟩
    · refine flitReceive_gives hq hl hs ht ?_ hx'
      rw [if_neg hno]
      dsimp only
      rw [← hu, hbu, if_neg (by omega), hx]
    · refine flitReceive_gives hq hl hs ht ?_ ((retrain_tasks p failed x).trans hx')
      rw [if_neg hno]
      dsimp only
      rw [← hu, hbu, if_pos (by omega), hx]

theorem retrain_cases {p : ℕ} {s t : State}
    (ht : t = postEvent 0x0E 3 (1 + p) 0 0 [] (setFlag (Reg.blvStatus.off p 0) 2 (modBlv p (fun b => { b with fails := 0 }) s))) :
    retrain p false s = replayFlits p t ∧ retrain p true s = Machine.rasLast 9 (20 + p) 0 (blvDown p 0 t) := by
  subst ht
  exact ⟨rfl, rfl⟩

theorem releaseHeld_none {p : ℕ} {s : State} (h : ∀ c ∈ (blvOf s p).held, 256 ≤ (blvOf s p).retry.length ∨ (blvOf s p).credits.getD c 0 = 0) :
    releaseHeld p s = s := by
  have hfind : (blvOf s p).held.find? (mayLeave (blvOf s p)) = none := by
    rw [List.find?_eq_none]
    intro c hc
    rw [mayLeave, Bool.and_eq_true, decide_eq_true_eq, decide_eq_true_eq]
    have := h c hc
    omega
  unfold releaseHeld
  cases (blvOf s p).held.length with
  | zero => rfl
  | succ n =>
    rw [sendHeld, hfind]

theorem releaseHeld_one {p vc : ℕ} {b : Blv} {s : State} (hb : b = blvOf s p) (h : b.held = [vc]) (hr : b.retry.length < 256)
    (hc : 0 < b.credits.getD vc 0) : releaseHeld p s = count (Reg.blvSnapCnt.off p 0) 1
      (modBlv p (fun x => { x with held := [], retry := b.retry ++ [vc], credits := modAt vc (· - 1) b.credits, owed := 0 }) s) := by
  subst hb
  have hfind : (blvOf s p).held.find? (mayLeave (blvOf s p)) = some vc := by
    rw [h, List.find?_cons_of_pos]
    rw [mayLeave, decide_eq_true hr, decide_eq_true hc]
    rfl
  have hdrop : dropFirst (· == vc) [vc] = [] := by rw [dropFirst, if_pos (beq_self_eq_true vc)]
  unfold releaseHeld
  rw [h]
  show sendHeld 1 p s = _
  rw [sendHeld, hfind]
  refine congrArg (count (Reg.blvSnapCnt.off p 0) 1) (modBlv_congr ?_)
  rw [Blv.leave, h, hdrop]

/-! ## Idle -/

theorem idleOk_of {s : State} {p : ℕ} (hl : blvLive s p = true) (hs : blvState s p = 3) (h3 : rdB s (Reg.blvCtl.off p 0) 3 = true)
    (hi : blvIdle s p = false) (hh : (blvOf s p).held = []) (ho : (blvOf s p).owed = 0) : idleOk s p = true := by
  rw [idleOk, hl, hs, h3, hi, hh, ho]
  rfl

theorem idleEntry_stays {p : ℕ} {s : State} (hq : Quiet s) (c : Bool) (h : idleOk s p = false ∨ blvCompat s p = true) :
    Gives (.blvIdleEntry p c) s s := by
  refine gives_of_effect (by unfold exec; rfl) hq ?_ rfl
  exact if_neg (by show ¬(idleOk s p && !blvCompat s p) = true; rcases h with h | h <;> simp [h])

theorem compatSleep_stays {p : ℕ} {s : State} (hq : Quiet s) (h : idleOk s p = false ∨ blvCompat s p = false) :
    Gives (.blvCompatSleep p) s s := by
  refine gives_of_effect (by unfold exec; rfl) hq ?_ rfl
  exact if_neg (by show ¬(idleOk s p && blvCompat s p) = true; rcases h with h | h <;> simp [h])

theorem idle_cases {p : ℕ} {s : State} (hq : Quiet s) (hok : idleOk s p = true) :
    (blvCompat s p = false → Gives (.blvIdleEntry p true) s (emit (.linkSignal p 0) s))
      ∧ (blvCompat s p = false → Gives (.blvIdleEntry p false) s
        (modBlv p (fun b => { b with rxIdle := true }) (wrF (Reg.blvLink.off p 0) 3 1 1 (emit (.linkSignal p 0) s))))
      ∧ (blvCompat s p = true → Gives (.blvCompatSleep p) s (wrF (Reg.blvLink.off p 0) 3 1 1 s))
      ∧ (∀ c, blvCompat s p = true → Gives (.blvIdleEntry p c) s s) ∧ (blvCompat s p = false → Gives (.blvCompatSleep p) s s) := by
  refine ⟨fun hc => ?_, fun hc => ?_, fun hc => ?_, fun c hc => idleEntry_stays hq c (.inr hc), fun hc => compatSleep_stays hq (.inr hc)⟩
  · have hgo : (idleOk s p && !blvCompat s p) = true := by rw [hok, hc]; rfl
    refine gives_of_effect (by unfold exec; rfl) hq ?_ rfl
    exact (if_pos hgo).trans rfl
  · have hgo : (idleOk s p && !blvCompat s p) = true := by rw [hok, hc]; rfl
    refine gives_of_effect (by unfold exec; rfl) hq ?_ rfl
    exact (if_pos hgo).trans rfl
  · have hgo : (idleOk s p && blvCompat s p) = true := by rw [hok, hc]; rfl
    refine gives_of_effect (by unfold exec; rfl) hq ?_ rfl
    exact (if_pos hgo).trans rfl

theorem idleOk_waiting {s : State} {p : ℕ} (h : (blvOf s p).held ≠ [] ∨ (blvOf s p).owed ≠ 0) : idleOk s p = false := by
  rw [idleOk]
  rcases h with h | h
  · rw [List.isEmpty_eq_false_iff.mpr h, Bool.and_false, Bool.false_and]
  · rw [beq_eq_false_iff_ne.mpr h, Bool.and_false]

theorem wake_cases {p : ℕ} {s : State} (hq : Quiet s) (hl : blvLive s p = true) (hs : blvState s p = 3) :
    (blvIdle s p = false → Gives (.blvIdleExit p) s s)
      ∧ (blvIdle s p = true → blvCompat s p = true → Gives (.blvIdleExit p) s (wrF (Reg.blvLink.off p 0) 3 1 0 (emit (.linkSignal p 1) s)))
      ∧ (blvIdle s p = true → blvCompat s p = false → Gives (.blvIdleExit p) s
          (modBlv p (fun b => { b with rxIdle := false }) (wrF (Reg.blvLink.off p 0) 3 1 0 (emit (.linkSignal p 1) s))))
      ∧ (blvCompat s p = true → Gives (.peerTrainingBurst p) s (modBlv p (fun b => { b with rxIdle := false }) s))
      ∧ (blvCompat s p = false → Gives (.peerTrainingBurst p) s
          (modBlv p (fun b => { b with rxIdle := false }) (wrF (Reg.blvLink.off p 0) 3 1 0 s))) := by
  have hgo : (blvLive s p && blvState s p == 3) = true := by rw [hl, hs]; rfl
  have hexit {t : State} (h : burst p s = t) : Gives (.blvIdleExit p) s t := by
    refine gives_of_effect (by unfold exec; rfl) hq ?_ (h ▸ burst_tasks p s)
    rw [← h, ← burst_setPending]
    exact if_pos hgo
  have hburst {t : State} (h : blvWake p false s = t) : Gives (.peerTrainingBurst p) s t := by
    refine gives_of_effect (by unfold exec; rfl) hq ?_ (h ▸ blvWake_tasks p false s)
    rw [← h, ← blvWake_setPending]
    exact if_pos hgo
  have hcompat (n : ℕ) (v : ℕ) (u : State) : blvCompat (wrF (Reg.blvLink.off p 0) 3 1 v u) p = blvCompat u p := by
    rw [blvCompat, rdB, rd_wrF_same _ _ _ _ _ (by decide), testBit_setBits, if_neg (by decide)]
    rfl
  refine ⟨fun hi => hexit (if_neg (by rw [hi]; exact Bool.false_ne_true)), fun hi hc => hexit ?_, fun hi hc => hexit ?_, fun hc => hburst ?_,
    fun hc => hburst ?_⟩
  · have hc' : blvCompat (emit (.linkSignal p 1) s) p = true := hc
    unfold burst blvWake
    rw [if_pos hi]
    dsimp only
    rw [Bool.true_or, if_pos rfl, hcompat 0, hc', if_neg (by decide)]
  · have hc' : blvCompat (emit (.linkSignal p 1) s) p = false := hc
    unfold burst blvWake
    rw [if_pos hi]
    dsimp only
    rw [Bool.true_or, if_pos rfl, hcompat 0, hc', if_pos (by decide)]
  · unfold blvWake
    dsimp only
    rw [hc, if_neg (show ¬(false || !true) = true by decide), if_pos (show (!false || _) = true from rfl)]
  · unfold blvWake
    dsimp only
    rw [hc, if_pos (show (false || !false) = true from rfl), if_pos (show (!false || _) = true from rfl)]

/-! ## A peer's accesses -/

theorem squareAccess_tasks (acc : Access) (ecc : List EccHit) (s : State) : (squareAccess acc ecc s).2.tasks = s.tasks := by
  cases acc with
  | read a n =>
    unfold squareAccess
    dsimp only
    split
    · rfl
    split
    · rfl
    · exact readMem_tasks _ _ _ _
  | write a bs =>
    unfold squareAccess
    dsimp only
    split
    · rfl
    split
    · rfl
    · exact writeAll_tasks _ _ _ _

theorem sendReply_tasks (p st : ℕ) (bs : List Byte) (s : State) : (sendReply p st bs s).tasks = s.tasks := sendFlits_tasks _ _ _ s

theorem peerRow_go {p : ℕ} {s : State} (hc : coreUp s = true) (hl : blvLive s p = true) (hs : blvState s p = 3) :
    ¬(!coreUp s || !blvLive s p || blvState s p != 3) = true := by
  rw [hc, hl, hs]
  decide

theorem peerSquare_gives {p : ℕ} {acc : Access} {ecc : List EccHit} {s : State} (hq : Quiet s) (hc : coreUp s = true) (hl : blvLive s p = true)
    (hs : blvState s p = 3) : Gives (.peerSquareAccess p acc ecc) s
        (sendReply p (squareAccess acc ecc s).1.status (squareAccess acc ecc s).1.data (squareAccess acc ecc s).2) := by
  refine gives_of_effect (by unfold exec; rfl) hq ?_ ((sendReply_tasks _ _ _ _).trans (squareAccess_tasks _ _ _))
  refine (if_neg (peerRow_go (s := setPending [] s) hc hl hs)).trans ?_
  rw [← sendReply_setPending, squareAccess_setPending]

/-- What the outcome of a peer's signal leaves. -/
def afterSignal (p : ℕ) (r : SigResult × State) : State :=
  match r with
  | (.done st, s) => if st = Stat.ok then s else dropSignal p s
  | (.waits, s) => s

theorem afterSignal_done (p st : ℕ) (s : State) : afterSignal p (.done st, s) = if st = Stat.ok then s else dropSignal p s := rfl

/-- What a peer's token write does at a token that programs declare external. -/
def peerSignal (p addr : ℕ) (v : DWord) (s : State) : State :=
  match peerToken s addr with
  | none => dropSignal p s
  | some k =>
    if !k.external || k.tagged != v.getLsbD 48 then dropSignal p s
    else
      afterSignal p (signal k.handle k.idx (bits v.toNat 0 16) (if v.getLsbD 48 then some (BitVec.ofNat 32 (bits v.toNat 16 32)) else none)
        (some (.neighbour p)) s)

theorem peerTokenSignal_run {p addr : ℕ} {v : DWord} {s t : State} (hc : coreUp s = true) (hl : blvLive s p = true)
    (hs : blvState s p = 3) (h : peerSignal p addr v (setPending [] s) = setPending [] t) :
    GivesThen (.peerTokenSignal p addr v) s t := by
  refine givesThen_of_effect (by unfold exec; rfl) ?_
  exact (if_neg (peerRow_go (s := setPending [] s) hc hl hs)).trans h

theorem peerSignal_dropped {p addr : ℕ} {v : DWord} {s : State}
    (h : peerToken s addr = none ∨ ∃ k, peerToken s addr = some k ∧ (k.external = false ∨ k.tagged ≠ v.getLsbD 48)) :
    peerSignal p addr v s = dropSignal p s := by
  unfold peerSignal
  rcases h with h | ⟨k, h, hk⟩
  · rw [h]
  · rw [h]
    refine if_pos ?_
    rcases hk with hk | hk
    · rw [hk]
      rfl
    · rw [bne_iff_ne.mpr hk]
      exact Bool.or_true _

theorem peerSignal_reaches {p addr : ℕ} {v : DWord} {k : Token} {r : SigResult × State} {s : State} (h : peerToken s addr = some k)
    (he : k.external = true) (ht : k.tagged = v.getLsbD 48)
    (hr : r = signal k.handle k.idx (bits v.toNat 0 16) (if v.getLsbD 48 then some (BitVec.ofNat 32 (bits v.toNat 16 32)) else none)
      (some (.neighbour p)) s) :
    peerSignal p addr v s = afterSignal p r := by
  unfold peerSignal
  rw [h, hr]
  exact if_neg (by rw [he, ht]; simp)

theorem peerSignal_setPending {p addr : ℕ} {v : DWord} {k : Token} {r : SigResult × State} {s : State} (h : peerToken s addr = some k)
    (he : k.external = true) (ht : k.tagged = v.getLsbD 48)
    (hr : r = signal k.handle k.idx (bits v.toNat 0 16) (if v.getLsbD 48 then some (BitVec.ofNat 32 (bits v.toNat 16 32)) else none)
      (some (.neighbour p)) s) :
    (r.1 = .waits ∨ r.1 = .done Stat.ok → peerSignal p addr v (setPending [] s) = setPending [] r.2)
      ∧ (∀ st, r.1 = .done st → st ≠ Stat.ok → peerSignal p addr v (setPending [] s) = setPending [] (dropSignal p r.2)) := by
  have hreach := peerSignal_reaches (p := p) (s := setPending [] s) h he ht (signal_setPending _ _ _ _ _ [] s).symm
  rw [hreach, ← hr]
  refine ⟨fun h => ?_, fun st h hst => ?_⟩
  · rcases h with h | h
    · rw [h]
      rfl
    · rw [h, afterSignal_done, if_pos rfl]
  · rw [h, afterSignal_done, if_neg hst, dropSignal_setPending]

theorem peerTokenRead_gives {p addr : ℕ} {s t : State} (hq : Quiet s) (hc : coreUp s = true) (hl : blvLive s p = true)
    (hs : blvState s p = 3) (h : (match peerToken s addr with
      | some k => sendReply p Stat.ok (leBytes 4 (if k.tagged then 0 else k.count)) s
      | none => sendReply p Stat.ok (takeFree 4 s).1 (takeFree 4 s).2) = t) : Gives (.peerTokenRead p addr) s t := by
  have htasks : t.tasks = s.tasks := by
    rw [← h]
    split
    · exact sendReply_tasks _ _ _ _
    · exact sendReply_tasks _ _ _ _
  refine gives_of_effect (by unfold exec; rfl) hq ?_ htasks
  refine (if_neg (peerRow_go (s := setPending [] s) hc hl hs)).trans ?_
  rw [← h]
  show (match peerToken s addr with | some k => _ | none => _) = _
  cases peerToken s addr with
  | some k => exact sendReply_setPending _ _ _ [] s
  | none =>
    rw [← sendReply_setPending]
    rfl

theorem peer_rows {p : ℕ} {s : State} (hq : Quiet s) (hc : coreUp s = true) (hl : blvLive s p = true) (hs : blvState s p = 3) :
    (∀ acc ecc, Gives (.peerSquareAccess p acc ecc) s
        (sendReply p (squareAccess acc ecc s).1.status (squareAccess acc ecc s).1.data (squareAccess acc ecc s).2))
      ∧ (∀ st bs, sendReply p st bs s = emit (.peerReply p st bs) (sendFlits p 1 bs.length s))
      ∧ (∀ addr v, (peerToken s addr = none ∨ ∃ k, peerToken s addr = some k ∧ (k.external = false ∨ k.tagged ≠ v.getLsbD 48)) →
          Gives (.peerTokenSignal p addr v) s (count (Reg.blvSnapCnt.off p 4) 1 (setFlag (Reg.blvStatus.off p 0) 4 s)))
      ∧ (∀ addr v k item r, peerToken s addr = some k → k.external = true → k.tagged = v.getLsbD 48 →
          item = (if v.getLsbD 48 then some (BitVec.ofNat 32 (bits v.toNat 16 32)) else none) →
          r = signal k.handle k.idx (bits v.toNat 0 16) item (some (.neighbour p)) s →
          (r.1 = .waits ∨ r.1 = .done Stat.ok → GivesThen (.peerTokenSignal p addr v) s r.2)
          ∧ (∀ st, r.1 = .done st → st ≠ Stat.ok → GivesThen (.peerTokenSignal p addr v) s (dropSignal p r.2)))
      ∧ (∀ addr k, peerToken s addr = some k →
          Gives (.peerTokenRead p addr) s (sendReply p Stat.ok (leBytes 4 (if k.tagged then 0 else k.count)) s))
      ∧ (∀ addr, peerToken s addr = none → ∃ bs, bs.length = 4
          ∧ Gives (.peerTokenRead p addr) s (sendReply p Stat.ok bs (takeFree 4 s).2)) := by
  refine ⟨fun acc ecc => peerSquare_gives hq hc hl hs, fun st bs => rfl, fun addr v h => ?_, fun addr v k item r h he ht hi hr => ?_,
    fun addr k h => peerTokenRead_gives hq hc hl hs (by rw [h]), fun addr h => ⟨(takeFree 4 s).1, ?_, peerTokenRead_gives hq hc hl hs (by rw [h])⟩⟩
  · refine gives_of_effect (by unfold exec; rfl) hq ?_ rfl
    have hdrop : peerSignal p addr v (setPending [] s) = setPending [] (dropSignal p s) :=
      (peerSignal_dropped (p := p) (s := setPending [] s) h).trans (dropSignal_setPending p [] s)
    exact (if_neg (peerRow_go (s := setPending [] s) hc hl hs)).trans hdrop
  · subst hi
    obtain ⟨hgood, hbad⟩ := peerSignal_setPending (p := p) h he ht hr
    exact ⟨fun h => peerTokenSignal_run hc hl hs (hgood h), fun st h hst => peerTokenSignal_run hc hl hs (hbad st h hst)⟩
  · exact (List.length_map _).trans List.length_range

/-! ## Test patterns -/

/-- A lane's checker, with the bit errors it has counted if it has locked. -/
def checkLane (p : ℕ) (s : State) (x : Option ℕ × ℕ) : State := x.1.elim s fun n => addErrors p x.2 n s

/-- The checkers of the lanes from `k` on. -/
def checkLanes (p : ℕ) (l : List (Option ℕ)) (k : ℕ) (s : State) : State := (l.zipIdx k).foldl (checkLane p) s

theorem checkLanes_cons (p : ℕ) (o : Option ℕ) (l : List (Option ℕ)) (k : ℕ) (s : State) :
    checkLanes p (o :: l) k s = checkLanes p l (k + 1) (checkLane p s (o, k)) := rfl

theorem prbs_off_ne {p i j : ℕ} (h : i ≠ j) : Reg.blvPrbs.off p i ≠ Reg.blvPrbs.off p j := by
  show 0x190110 + p * 256 + i * 4 ≠ 0x190110 + p * 256 + j * 4
  omega

theorem rd_checkLane (p j k : ℕ) (o : Option ℕ) (s : State) :
    rd (checkLane p s (o, k)) (Reg.blvPrbs.off p j)
      = if j = k then min (rd s (Reg.blvPrbs.off p j) + o.getD 0) (2 ^ 32 - 1) else rd s (Reg.blvPrbs.off p j) := by
  have hlt := rd_lt s (Reg.blvPrbs.off p j)
  have hrd (f : Blv → Blv) (s : State) (r : ℕ) : rd (modBlv p f s) r = rd s r := rfl
  cases o with
  | none =>
    show rd s _ = if j = k then min (rd s _ + 0) (2 ^ 32 - 1) else _
    split
    · omega
    · rfl
  | some n =>
    show rd (addErrors p k n s) _ = if j = k then min (rd s _ + n) (2 ^ 32 - 1) else _
    unfold addErrors
    dsimp only
    rw [hrd]
    by_cases h : j = k
    · rw [if_pos h, h, rd_wr_same]
      omega
    · rw [if_neg h, rd_wr_other _ _ _ _ (prbs_off_ne h)]

theorem rd_checkLanes (p j : ℕ) (l : List (Option ℕ)) (k : ℕ) (s : State) :
    rd (checkLanes p l k s) (Reg.blvPrbs.off p j)
      = min (rd s (Reg.blvPrbs.off p j) + if k ≤ j then (l.getD (j - k) none).getD 0 else 0) (2 ^ 32 - 1) := by
  induction l generalizing k s with
  | nil =>
    have hlt := rd_lt s (Reg.blvPrbs.off p j)
    rw [List.getD_nil, Option.getD_none, ite_self]
    show rd s _ = _
    omega
  | cons o l ih =>
    have hlt := rd_lt s (Reg.blvPrbs.off p j)
    rw [checkLanes_cons, ih, rd_checkLane]
    rcases lt_trichotomy j k with h | h | h
    · rw [if_neg (by omega), if_neg (by omega), if_neg (by omega)]
    · subst h
      rw [if_pos rfl, if_neg (by omega), if_pos le_rfl, Nat.sub_self, List.getD_cons_zero]
      omega
    · obtain ⟨d, rfl⟩ : ∃ d, j = k + 1 + d := ⟨j - (k + 1), by omega⟩
      rw [if_neg (by omega), if_pos (by omega), if_pos (by omega), show k + 1 + d - (k + 1) = d by omega, show k + 1 + d - k = d + 1 by omega,
        List.getD_cons_succ]

theorem length_blv_checkLane (p : ℕ) (x : Option ℕ × ℕ) (s : State) : (checkLane p s x).blv.length = s.blv.length := by
  obtain ⟨o, k⟩ := x
  cases o with
  | none => rfl
  | some n => exact length_modAt _ _ _

theorem locks_checkLane {p : ℕ} (o : Option ℕ) (k : ℕ) {s : State} (hp : p < s.blv.length) :
    (blvOf (checkLane p s (o, k)) p).locks = if o.isSome then modAt k (fun _ => true) (blvOf s p).locks else (blvOf s p).locks := by
  cases o with
  | none => rfl
  | some n => exact congrArg Blv.locks (blvOf_modBlv (s := wr _ _ s) _ hp)

theorem length_locks_checkLane {p : ℕ} (o : Option ℕ) (k : ℕ) {s : State} (hp : p < s.blv.length) :
    (blvOf (checkLane p s (o, k)) p).locks.length = (blvOf s p).locks.length := by
  rw [locks_checkLane o k hp]
  split
  · exact length_modAt _ _ _
  · rfl

theorem getD_locks_checkLane {p j : ℕ} (o : Option ℕ) (k : ℕ) {s : State} (hp : p < s.blv.length) (hj : j < (blvOf s p).locks.length) :
    (blvOf (checkLane p s (o, k)) p).locks.getD j false = ((blvOf s p).locks.getD j false || (decide (j = k) && o.isSome)) := by
  rw [locks_checkLane o k hp]
  cases o with
  | none => rw [Option.isSome_none, Bool.and_false, Bool.or_false, if_neg Bool.false_ne_true]
  | some n =>
    rw [Option.isSome_some, if_pos rfl, Bool.and_true]
    by_cases h : j = k
    · subst h
      rw [getD_modAt_same _ _ hj, decide_eq_true rfl, Bool.or_true]
    · rw [getD_modAt_other _ _ h, decide_eq_false h, Bool.or_false]

theorem locks_checkLanes {p j : ℕ} (l : List (Option ℕ)) (k : ℕ) {s : State} (hp : p < s.blv.length) (hj : j < (blvOf s p).locks.length) :
    (blvOf (checkLanes p l k s) p).locks.getD j false
      = ((blvOf s p).locks.getD j false || (if k ≤ j then (l.getD (j - k) none).isSome else false)) := by
  induction l generalizing k s with
  | nil =>
    rw [List.getD_nil, Option.isSome_none, ite_self, Bool.or_false]
    rfl
  | cons o l ih =>
    rw [checkLanes_cons, ih (k + 1) (by rwa [length_blv_checkLane]) (by rwa [length_locks_checkLane o k hp]), getD_locks_checkLane o k hp hj,
      Bool.or_assoc]
    congr 1
    rcases lt_trichotomy j k with h | h | h
    · rw [if_neg (by omega), if_neg (by omega), decide_eq_false (by omega)]
      rfl
    · subst h
      rw [if_neg (by omega), if_pos le_rfl, Nat.sub_self, List.getD_cons_zero, decide_eq_true rfl, Bool.true_and, Bool.or_false]
    · obtain ⟨d, rfl⟩ : ∃ d, j = k + 1 + d := ⟨j - (k + 1), by omega⟩
      rw [if_pos (by omega), if_pos (by omega), show k + 1 + d - (k + 1) = d by omega, show k + 1 + d - k = d + 1 by omega,
        List.getD_cons_succ, decide_eq_false (by omega)]
      rfl

/-- What the checkers of a test leave. -/
def testChecked (p : ℕ) (errors : List (Option ℕ)) (t : State) : State :=
  if (errors.take 4).any (fun n => n.getD 0 != 0) then
    setFlag (Reg.blvStatus.off p 0) 5 (checkLanes p (errors.take 4) 0 (emit (.linkSignal p 3) t))
  else checkLanes p (errors.take 4) 0 (emit (.linkSignal p 3) t)

theorem checkLanes_setPending (p : ℕ) (l : List (Option ℕ)) (k : ℕ) (q : List Instr) (s : State) :
    checkLanes p l k (setPending q s) = setPending q (checkLanes p l k s) :=
  foldl_setPending_of _ _ (fun q s x => by
    obtain ⟨o, k⟩ := x
    cases o with
    | none => rfl
    | some n => exact addErrors_setPending p k n q s) _ q s

theorem testChecked_setPending (p : ℕ) (errors : List (Option ℕ)) (q : List Instr) (t : State) :
    testChecked p errors (setPending q t) = setPending q (testChecked p errors t) := by
  unfold testChecked
  rw [emit_setPending, checkLanes_setPending, setFlag_setPending, apply_ite (setPending q)]

theorem checkLanes_tasks (p : ℕ) (l : List (Option ℕ)) (k : ℕ) (s : State) : (checkLanes p l k s).tasks = s.tasks :=
  foldl_keeps State.tasks (fun s x => by
    obtain ⟨o, k⟩ := x
    cases o with
    | none => rfl
    | some n => rfl) _ s

theorem testChecked_tasks (p : ℕ) (errors : List (Option ℕ)) (t : State) : (testChecked p errors t).tasks = t.tasks := by
  unfold testChecked
  split
  · exact checkLanes_tasks _ _ _ _
  · exact checkLanes_tasks _ _ _ _

theorem blvCtl_link_ne (p : ℕ) : Reg.blvCtl.off p 0 ≠ Reg.blvLink.off p 0 := by
  show 0x190100 + p * 256 + 0 * 0 ≠ 0x190108 + p * 256 + 0 * 0
  omega

theorem rd_setBlvState_other {p r : ℕ} (st : ℕ) (s : State) (h : r ≠ Reg.blvLink.off p 0) : rd (setBlvState p st s) r = rd s r :=
  (rd_wrF_other _ _ _ _ _ _ h).trans (rd_wrF_other _ _ _ _ _ _ h)

theorem rd_blvDown_ctl (p : ℕ) (hp : p < 2) (st : ℕ) (s : State) : rd (blvDown p st s) (Reg.blvCtl.off p 0) = rd s (Reg.blvCtl.off p 0) := by
  have hstatus : Reg.blvCtl.off p 0 ≠ Reg.blvStatus.off p 0 := by
    show 0x190100 + p * 256 + 0 * 0 ≠ 0x190104 + p * 256 + 0 * 0
    omega
  have hevent : EventFree (Reg.blvCtl.off p 0) := by
    obtain rfl | rfl : p = 0 ∨ p = 1 := by omega
    · unfold EventFree
      decide
    · unfold EventFree
      decide
  have hposted := congrArg BitVec.toNat (rdW_postEvent hevent 0x0E 2 (1 + p) 0 0 [] (setFlag (Reg.blvStatus.off p 0) 1 (setBlvState p st s)))
  exact hposted.trans ((rd_setFlag_other _ _ _ _ hstatus).trans (rd_setBlvState_other st s (blvCtl_link_ne p)))

/-- The mode of a port once BLV_CTL[p] is written. -/
theorem blvMode_writeBlvCtl {p : ℕ} (hp : p < 2) (v : Word) (s : State) : blvMode (writeBlvCtl p v s) p = bits v.toNat 1 2 := by
  have hctl : rd (writeBlvCtl p v s) (Reg.blvCtl.off p 0) = rd (ctlWritten p v s) (Reg.blvCtl.off p 0) := by
    rw [writeBlvCtl_eq]
    split
    · split
      · exact rd_blvDown_ctl p hp 0 _
      · exact rd_setBlvState_other 0 _ (blvCtl_link_ne p)
    split
    · exact rd_setBlvState_other 1 _ (blvCtl_link_ne p)
    · rfl
  rw [blvMode, rdF, hctl]
  exact blvMode_ctlWritten p v s

theorem prbsMode_gives {w : Writer} {p mode : ℕ} {errors : List (Option ℕ)} {v : Word} {s t u : State} (hq : Quiet s) (hp : p < 2)
    (hv : v = BitVec.ofNat 32 (setBits (rd s (Reg.blvCtl.off p 0)) 1 2 mode)) (hm : MayWrite s w (Reg.blvCtl.off p 0) v) (ht : t = writeBlvCtl p v s)
    (h : (if !blvTest t p || !blvLive t p then t else testChecked p errors t) = u) : Gives (.blvPrbsMode w p mode errors) s u := by
  have htasks : t.tasks = s.tasks := ht ▸ writeBlvCtl_tasks p v s
  have hut : u.tasks = s.tasks := by
    rw [← h]
    split
    · exact htasks
    · exact (testChecked_tasks p errors t).trans htasks
  refine gives_of_effect (by unfold exec; rfl) hq ?_ hut
  refine (if_neg (Nat.not_le.mpr hp)).trans ?_
  dsimp only
  rw [show rd (setPending [] s) (Reg.blvCtl.off p 0) = rd s (Reg.blvCtl.off p 0) from rfl, ← hv, gate_pass_pending [] hm, writeBlvCtl_setPending, ← ht,
    ← h, apply_ite (setPending []), ← testChecked_setPending]
  rfl

/-- The word of BLV_CTL with its mode set. -/
theorem bits_modeWord (s : State) (p mode : ℕ) : bits (BitVec.ofNat 32 (setBits (rd s (Reg.blvCtl.off p 0)) 1 2 mode)).toNat 1 2 = mode % 4 := by
  rw [BitVec.toNat_ofNat, Nat.mod_eq_of_lt (setBits_lt _ _ _ _ 32 (rd_lt s _) (by decide)), bits_setBits_same]
  rfl

theorem rd_testChecked (p j : ℕ) (errors : List (Option ℕ)) (t : State) :
    rd (testChecked p errors t) (Reg.blvPrbs.off p j) = min (rd t (Reg.blvPrbs.off p j) + ((errors.take 4).getD j none).getD 0) (2 ^ 32 - 1) := by
  have hne : Reg.blvPrbs.off p j ≠ Reg.blvStatus.off p 0 := by
    show 0x190110 + p * 256 + j * 4 ≠ 0x190104 + p * 256 + 0 * 0
    omega
  have hlanes := rd_checkLanes p j (errors.take 4) 0 (emit (.linkSignal p 3) t)
  rw [if_pos (Nat.zero_le j), Nat.sub_zero] at hlanes
  unfold testChecked
  split
  · exact (rd_setFlag_other _ _ _ _ hne).trans hlanes
  · exact hlanes

theorem locks_testChecked {p j : ℕ} (errors : List (Option ℕ)) {t : State} (hp : p < t.blv.length) (hj : j < (blvOf t p).locks.length) :
    (blvOf (testChecked p errors t) p).locks.getD j false = ((blvOf t p).locks.getD j false || ((errors.take 4).getD j none).isSome) := by
  have hlanes := locks_checkLanes (errors.take 4) 0 (s := emit (.linkSignal p 3) t) hp hj
  rw [if_pos (Nat.zero_le j), Nat.sub_zero] at hlanes
  unfold testChecked
  split
  · exact hlanes
  · exact hlanes

theorem getD_take {α : Type} {n j : ℕ} (l : List α) (d : α) (h : j < n) : (l.take n).getD j d = l.getD j d := by
  rw [List.getD_eq_getElem?_getD, List.getD_eq_getElem?_getD, List.getElem?_take_of_lt h]

theorem getD_mem_or_default {α : Type} (l : List α) (j : ℕ) (d : α) : l.getD j d ∈ l ∨ l.getD j d = d := by
  by_cases h : j < l.length
  · rw [List.getD_eq_getElem _ _ h]
    exact .inl (List.getElem_mem h)
  · exact .inr (List.getD_eq_default _ _ (Nat.not_lt.mp h))

theorem length_blv_blvDown (p st : ℕ) (s : State) : (blvDown p st s).blv.length = s.blv.length :=
  (congrArg List.length ((eventFrame_postEvent _ _ _ _ _ _ _).get State.blv)).trans (length_modAt _ _ _)

theorem length_blv_writeBlvCtl (p : ℕ) (v : Word) (s : State) : (writeBlvCtl p v s).blv.length = s.blv.length := by
  have hw : (ctlWritten p v s).blv.length = s.blv.length := by
    unfold ctlWritten
    split
    · rfl
    · exact length_modAt _ _ _
  rw [writeBlvCtl_eq]
  split
  · split
    · exact (length_blv_blvDown _ _ _).trans hw
    · exact (length_modAt _ _ _).trans hw
  split
  · exact ((length_modAt _ _ _).trans (length_modAt _ _ _)).trans hw
  · exact hw

theorem prbs_cases {w : Writer} {p mode : ℕ} {errors : List (Option ℕ)} {v : Word} {s t : State} (hq : Quiet s) (hp : p < 2) (hlen : s.blv.length = 2)
    (hv : v = BitVec.ofNat 32 (setBits (rd s (Reg.blvCtl.off p 0)) 1 2 mode)) (hm : MayWrite s w (Reg.blvCtl.off p 0) v)
    (ht : t = writeBlvCtl p v s) :
    (mode % 4 = 0 ∨ mode % 4 = 3 ∨ blvLive t p = false → Gives (.blvPrbsMode w p mode errors) s t)
      ∧ (mode % 4 = 1 ∨ mode % 4 = 2 → blvLive t p = true → (blvOf t p).locks.length = 4 → ∃ u, Gives (.blvPrbsMode w p mode errors) s u
          ∧ ∀ l, l < 4 → (blvOf u p).locks.getD l false = ((blvOf t p).locks.getD l false || (errors.getD l none).isSome))
      ∧ (mode % 4 = 1 ∨ mode % 4 = 2 → blvLive t p = true → (∀ n ∈ errors.take 4, n.getD 0 = 0) → ∃ u, Gives (.blvPrbsMode w p mode errors) s u
          ∧ ∀ l, l < 4 → rd u (Reg.blvPrbs.off p l) = rd t (Reg.blvPrbs.off p l))
      ∧ (mode % 4 = 1 ∨ mode % 4 = 2 → blvLive t p = true → (∃ n ∈ errors.take 4, n.getD 0 ≠ 0) → ∃ u, Gives (.blvPrbsMode w p mode errors) s u
          ∧ flagOf u (Reg.blvStatus.off p 0) 5 = true
          ∧ ∀ l, l < min 4 errors.length →
              rd u (Reg.blvPrbs.off p l) = min (rd t (Reg.blvPrbs.off p l) + (errors.getD l none).getD 0) (2 ^ 32 - 1)) := by
  have hmode : blvMode t p = mode % 4 := by rw [ht, blvMode_writeBlvCtl hp, hv, bits_modeWord]
  have htest (h : mode % 4 = 1 ∨ mode % 4 = 2) : blvTest t p = true := (blvTest_iff t p).mpr (by rwa [hmode])
  have hgives (h : mode % 4 = 1 ∨ mode % 4 = 2) (hl : blvLive t p = true) : Gives (.blvPrbsMode w p mode errors) s (testChecked p errors t) :=
    prbsMode_gives hq hp hv hm ht (if_neg (by rw [htest h, hl]; decide))
  have hblv : p < t.blv.length := by
    rw [ht, length_blv_writeBlvCtl, hlen]
    exact hp
  refine ⟨fun h => prbsMode_gives hq hp hv hm ht (if_pos ?_), fun h hl h4 => ⟨_, hgives h hl, fun l hl4 => ?_⟩,
    fun h hl hz => ⟨_, hgives h hl, fun l hl4 => ?_⟩, fun h hl hz => ⟨_, hgives h hl, ?_, fun l hlm => ?_⟩⟩
  · have hno : blvTest t p = false ∨ blvLive t p = false := by
      rcases h with h | h | h
      · exact .inl (by rw [← Bool.not_eq_true, blvTest_iff, hmode]; omega)
      · exact .inl (by rw [← Bool.not_eq_true, blvTest_iff, hmode]; omega)
      · exact .inr h
    rcases hno with h | h <;> simp [h]
  · rw [locks_testChecked errors hblv (by omega), getD_take _ _ hl4]
  · have hlt := rd_lt t (Reg.blvPrbs.off p l)
    have hzero : ((errors.take 4).getD l none).getD 0 = 0 := by
      rcases getD_mem_or_default (errors.take 4) l none with h | h
      · exact hz _ h
      · rw [h]
        rfl
    rw [rd_testChecked, hzero]
    omega
  · have hany : (errors.take 4).any (fun n => n.getD 0 != 0) = true := by
      obtain ⟨n, hn, h0⟩ := hz
      exact List.any_eq_true.mpr ⟨n, hn, bne_iff_ne.mpr h0⟩
    rw [testChecked, if_pos hany, flagOf_setFlag _ _ _ _ (by decide) (by decide)]
    exact Bool.or_true _
  · rw [rd_testChecked, getD_take _ _ (by omega)]

/-- Settles O53: a port's training, its flits, its idle and its tests by their branches, and a peer's accesses by what they reach. -/
theorem boulevardAndPeers : Obligations.BoulevardAndPeers := by
  intro w p s t hq hp hlen
  refine ⟨fun v hv hm ht => ⟨fun he htest => ?_, fun h => ?_⟩, blvTrain_link p s, fun part skew credits hl hs ht => blvTrained_cases hq hl hs ht,
    fun st => rfl, trainingRetry_gives hq, fun f failed b hb hl hs ht => flit_cases hq hb hl hs ht, retrain_cases,
    fun b n vc hb => ⟨rfl, fun h => releaseHeld_none (hb ▸ h), fun h hr hc => releaseHeld_one hb h hr hc, fun h => ?_, fun h => ?_⟩,
    fun hl hs h3 hi hh ho => idle_cases hq (idleOk_of hl hs h3 hi hh ho),
    fun c h => ⟨idleEntry_stays hq c (.inl (idleOk_waiting h)), compatSleep_stays hq (.inl (idleOk_waiting h))⟩, wake_cases hq,
    fun mode errors v hv hm ht => prbs_cases hq hp hlen hv hm ht, peer_rows hq, fun h => ?_⟩
  · refine blvEnable_gives hq hp hv hm ((writeBlvCtl_enable (hv ▸ toNat_enableWord s p)).trans ?_)
    rw [if_pos ⟨he, htest⟩, ht]
  · refine blvEnable_gives hq hp hv hm ((writeBlvCtl_enable (hv ▸ toNat_enableWord s p)).trans ?_)
    rw [if_neg (by rcases h with h | h <;> simp [h]), ht]
  · exact if_pos (List.isEmpty_iff.mpr (hb ▸ h))
  · subst hb
    exact if_neg (by rwa [List.isEmpty_iff])
  · have hno : ¬(blvLive s p && blvState s p == 3) = true := by simp [h]
    have hstop : (!coreUp s || !blvLive s p || blvState s p != 3) = true := by simp [h]
    have hstop' : (!blvLive s p || blvState s p != 3) = true := by simp [h]
    refine ⟨?_, ?_, fun acc ecc => ?_, fun f failed => ?_⟩
    · refine gives_of_effect (by unfold exec; rfl) hq ?_ rfl
      exact if_neg hno
    · refine gives_of_effect (by unfold exec; rfl) hq ?_ rfl
      exact if_neg hno
    · refine gives_of_effect (by unfold exec; rfl) hq ?_ rfl
      exact if_pos hstop
    · refine gives_of_effect (by unfold exec; rfl) hq ?_ rfl
      exact if_pos hstop'

end Sys2Proof.Machine
end

