-- ==== Sys2Proof/Proofs/BlockRows.lean ====
section
/-! What isolates, resets and releases one unit. -/

namespace Sys2Proof.Machine

open Sys2Proof

/-! ## The isolation of a unit -/

theorem blockReset_stays {u : BlockUnit} {s : State} (hq : Quiet s) (h : (coreUp s && rdB s Reg.rasCfg.base 0) = false ∨ unitUp s u = false) :
    Gives (.blockReset u) s s := by
  refine gives_of_effect (by unfold exec; rfl) hq ?_ rfl
  rcases h with h | h
  · exact if_neg (by rw [Bool.not_eq_true]; exact h)
  · refine ite_eq_right_iff.mpr fun _ => ?_
    exact if_pos (by show (!unitExists u || !unitUp s u) = true; rw [h]; exact Bool.or_true _)

theorem faultBlock_up {cls : ℕ} {u : BlockUnit} {s : State} (hx : unitExists u = true) (hu : unitUp s u = true) :
    faultBlock cls u s = isolateUnit u (rasLast cls (unitCode u) (match u with | .group _ => 0x58 | _ => 0) s) := by
  unfold faultBlock
  rw [if_neg (by rw [hx, hu]; decide)]
  cases u <;> rfl

theorem isolateUnit_down {u : BlockUnit} {s : State} (h : unitUp s u = false) : isolateUnit u s = s :=
  if_pos (by rw [h]; exact Bool.or_true _)

theorem blockReset_isolates {u : BlockUnit} {s : State} (hx : unitExists u = true) (hc : coreUp s = true) (hu : unitUp s u = true)
    (hb : rdB s Reg.rasCfg.base 0 = true) :
    GivesThen (.blockReset u) s (isolateUnit u (rasLast 7 (unitCode u) (match u with | .group _ => 0x58 | _ => 0) s)) := by
  have hon : (coreUp s && rdB s Reg.rasCfg.base 0) = true := by rw [hc, hb]; rfl
  refine givesThen_of_effect (by unfold exec; rfl) ?_
  rw [← faultBlock_up hx hu, ← faultBlock_setPending]
  exact if_pos hon

theorem rasBlkrstWrite_cases {v : Word} {u : BlockUnit} {s : State} (hq : Quiet s) (hc : coreUp s = true) (hm : MayWrite s .host Reg.rasBlkrst.base v) :
    (codeUnit (bits v.toNat 0 5) = some u → GivesThen (.rasBlkrstWrite .host v) s (isolateUnit u s))
      ∧ (codeUnit (bits v.toNat 0 5) = none → Gives (.rasBlkrstWrite .host v) s s) := by
  have hwrite (t : State) (ht : coreUp t = true) : writeBlkrst .host v t = (codeUnit (bits v.toNat 0 5)).elim t fun u => isolateUnit u t := if_pos ⟨rfl, ht⟩
  refine ⟨fun h => givesThen_of_effect (by unfold exec; rfl) ?_, fun h => gated_gives (by unfold exec; rfl) hq hm ?_ rfl⟩
  · rw [gate_pass_pending [] hm, hwrite (setPending [] s) hc, h, ← isolateUnit_setPending]
    rfl
  · rw [hwrite (setPending [] s) hc, h]
    rfl

theorem cpLockstepMismatch_gives {n : ℕ} {s : State} (hq : Quiet s) (hx : unitExists (.cp n) = true) (hc : coreUp s = true)
    (hu : unitUp s (.cp n) = true) :
    Gives (.cpLockstepMismatch n) s (modPwr (fun p => { p with isolated := p.isolated ++ [.cp n] }) (rasLast 8 (24 + n) 0 s)) := by
  refine gives_of_effect (by unfold exec; rfl) hq ?_ rfl
  refine (if_pos hc).trans ((faultBlock_up (s := setPending [] s) hx hu).trans ?_)
  exact if_neg (by rw [hx]; show ¬(!true || !unitUp s (.cp n)) = true; rw [hu]; decide)

/-! ## What a reset does to its unit -/

theorem voidRecord_cases (st : ℕ) (r : Running) (s : State) :
    (r.job.kind ≠ 4 ∨ r.current = [] → voidRecord st r s = s)
      ∧ (r.job.kind = 4 → r.current ≠ [] → bitOf (leAt r.job.desc 2 1) 1 = false → voidRecord st r s = closeRecord r.eng r st 0 s) := by
  refine ⟨fun h => if_pos ?_, fun hk hr hb => (if_neg ?_).trans (if_neg ?_)⟩
  · rwa [List.isEmpty_iff]
  · rw [List.isEmpty_iff]
    exact fun h => h.elim (fun h => h hk) hr
  · rw [hb]
    exact Bool.false_ne_true

theorem resetGroup_cases (g : ℕ) (s : State) :
    (s.eng.running.filter (fun r => groupOfKind r.job.kind == g) = [] → resetGroup g s = s)
      ∧ ∀ r, s.eng.running.filter (fun r => groupOfKind r.job.kind == g) = [r] → r.job.kind ≠ 4 ∨ r.current = [] →
        resetGroup g s = leaveEngine r.job.kind r.eng 0 (jobDone r.job.kind r.eng 0x58 s) := by
  refine ⟨fun h => by rw [resetGroup, h]; rfl, fun r h hr => ?_⟩
  rw [resetGroup, h]
  exact congrArg (fun x => leaveEngine r.job.kind r.eng 0 (jobDone r.job.kind r.eng 0x58 x)) ((voidRecord_cases 0x58 r s).1 hr)

theorem resetPipe_cases (k : ℕ) (s t : State) :
    ((pipeAt s k).serving = none → resetPipe k s = modCtx k 1 (fun c => { c with refOk := false }) (modCtx k 0 (fun c => { c with refOk := false }) s))
      ∧ ∀ v f u', (pipeAt s k).serving = some v → servedFrame s v = some f →
        u' = (if f.flags.testBit 3 then s else portCount v.port 5 1 s) →
        t = modServing k (fun v => { v with restart := stageOn v.set 1 && v.area })
          (if f.st = 1 then closeFrame v.port [3] true (portCount v.port 4 (outstanding u' v.port f.item) u')
           else modServed v (fun f => { f with flags := f.flags ||| 8 }) u') →
        resetPipe k s = modCtx k 1 (fun c => { c with refOk := false }) (modCtx k 0 (fun c => { c with refOk := false }) t) := by
  refine ⟨fun h => ?_, fun v f u' hv hf hu ht => ?_⟩
  · unfold resetPipe
    rw [h]
  · unfold resetPipe
    rw [hv]
    dsimp only
    rw [hf, ht, hu]

/-! ## The copies through a port -/

theorem find_updFirst {α : Type} {p q : α → Bool} {f : α → α} (l : List α) (hq : ∀ x, q (f x) = q x) (hp : ∀ x, p x = true → q x = false) :
    (updFirst p f l).find? q = l.find? q := by
  induction l with
  | nil => rfl
  | cons x xs ih =>
    unfold updFirst
    split
    · next h => rw [List.find?_cons, List.find?_cons, hq x, hp x h]
    · rw [List.find?_cons, List.find?_cons, ih]

theorem find_updFirst_same {α : Type} {p : α → Bool} {f : α → α} (l : List α) (hf : ∀ x, p (f x) = p x) :
    (updFirst p f l).find? p = (l.find? p).map f := by
  induction l with
  | nil => rfl
  | cons x xs ih =>
    unfold updFirst
    split
    · next h => rw [List.find?_cons, List.find?_cons, hf x, h]; rfl
    · next h => rw [List.find?_cons, List.find?_cons, Bool.eq_false_iff.mpr h, ih]

/-- A running job that is done with a status. -/
def doneWith (status : ℕ) (r : Running) : Running := { r with status := status, done := true }

theorem runningOn_jobDone (kind eng e status : ℕ) (s : State) :
    runningOn (jobDone kind e status s) kind eng = if e = eng then (runningOn s kind eng).map (doneWith status) else runningOn s kind eng := by
  split
  · next h => subst h; exact find_updFirst_same _ fun _ => rfl
  · next h =>
    refine find_updFirst _ (fun _ => rfl) fun x hx => ?_
    simp only [Bool.and_eq_true, beq_iff_eq, Bool.and_eq_false_iff, beq_eq_false_iff_ne] at hx ⊢
    exact .inr fun h' => h (hx.2.symm.trans h')

/-- The end of jobs of one kind reaches each engine that is named. -/
theorem runningOn_foldl_jobDone (kind eng status : ℕ) (l : List Running) (s : State) :
    runningOn (l.foldl (fun s r => jobDone kind r.eng status s) s) kind eng
      = if l.any (fun r => r.eng == eng) then (runningOn s kind eng).map (doneWith status) else runningOn s kind eng := by
  induction l generalizing s with
  | nil => rfl
  | cons x xs ih =>
    rw [List.foldl_cons, ih, List.any_cons, runningOn_jobDone]
    by_cases h : x.eng = eng
    · have hb : (x.eng == eng) = true := beq_iff_eq.mpr h
      rw [if_pos h, hb, Bool.true_or, if_pos rfl, Option.map_map]
      exact ite_self _
    · have hb : (x.eng == eng) = false := beq_eq_false_iff_ne.mpr h
      rw [if_neg h, hb, Bool.false_or]

theorem runningOn_endPeerJobs {p ch : ℕ} {r : Running} {s : State} (h : runningOn s 8 ch = some r) (hd : r.done = false)
    (hp : dmaPort r.job.desc = some p) : runningOn (endPeerJobs p s) 8 ch = some { r with status := 0x58, done := true } := by
  have hr := List.find?_some h
  have hmem := List.mem_of_find?_eq_some h
  simp only [Bool.and_eq_true, beq_iff_eq] at hr
  obtain ⟨hk, he⟩ := hr
  have hany : (s.eng.running.filter fun r => r.job.kind == 8 && !r.done && dmaPort r.job.desc == some p).any (fun r => r.eng == ch) = true := by
    refine List.any_eq_true.mpr ⟨r, List.mem_filter.mpr ⟨hmem, ?_⟩, beq_iff_eq.mpr he⟩
    rw [hk, hd, hp]
    exact beq_self_eq_true _
  rw [endPeerJobs, runningOn_foldl_jobDone, if_pos hany, h]
  rfl

theorem resetPort_cases {p : ℕ} {s t : State} (ht : t = endPeerJobs p s) :
    (blvState s p = 3 → resetPort p s = retrain p false t) ∧ (blvState s p = 0 → resetPort p s = t)
      ∧ (blvState s p = 1 ∨ blvState s p = 2 → resetPort p s = blvTrain p t)
      ∧ (∀ ch r, runningOn s 8 ch = some r → r.done = false → dmaPort r.job.desc = some p →
          runningOn t 8 ch = some { r with status := 0x58, done := true }) := by
  subst ht
  have hkeeps {β : Type} (g : State → β) (h : ∀ e x, g (jobDone 8 e 0x58 x) = g x) : g (endPeerJobs p s) = g s :=
    foldl_keeps (f := fun s (r : Running) => jobDone 8 r.eng 0x58 s) g (fun x r => h r.eng x) _ s
  have hst : blvState (endPeerJobs p s) p = blvState s p := by
    unfold blvState rdF rd rdW
    rw [hkeeps State.regs fun _ _ => rfl, hkeeps State.fuse fun _ _ => rfl]
  unfold resetPort
  dsimp only
  rw [hst]
  refine ⟨fun h => if_pos h, fun h => ?_, fun h => ?_, fun ch r => runningOn_endPeerJobs⟩
  · rw [h]
    rfl
  · rcases h with h | h <;> rw [h] <;> rfl

/-! ## The release -/

/-- A unit that its release has joined to the module again. -/
def rejoined (u : BlockUnit) (s : State) : State :=
  postEvent 0x10 3 (unitCode u) 0 0 [] (bump Reg.rasSnapCnt.base 4 (setFlag Reg.rasStatus.base 3
    (modPwr (fun p => { p with isolated := p.isolated.filter (· != u) }) s)))

theorem rejoined_setPending (u : BlockUnit) (q : List Instr) (s : State) : rejoined u (setPending q s) = setPending q (rejoined u s) := by
  unfold rejoined
  rw [← postEvent_setPending]
  rfl

theorem rejoined_tasks (u : BlockUnit) (s : State) : (rejoined u s).tasks = s.tasks := (eventFrame_postEvent _ _ _ _ _ _ _).get State.tasks

theorem unitUp_rejoined (u : BlockUnit) (s : State) : unitUp (rejoined u s) u = true := by
  have hpwr : (rejoined u s).pwr.isolated = s.pwr.isolated.filter (· != u) := (eventFrame_postEvent _ _ _ _ _ _ _).get fun t => t.pwr.isolated
  rw [unitUp, hpwr, Bool.not_eq_true', List.contains_eq_any_beq, List.any_eq_false]
  intro x hx
  have hne := (List.mem_filter.mp hx).2
  rw [bne_iff_ne] at hne
  exact fun h => hne (beq_iff_eq.mp h).symm

theorem blockResetRelease_run {u : BlockUnit} {s t : State} (h : unitUp s u = false)
    (hr : (match u with | .ip k => settlePipe k (rejoined u s) | _ => rejoined u s) = t) :
    ∃ f, exec (.blockResetRelease u) s = run f s ∧ f (setPending [] s) = setPending [] t := by
  refine ⟨_, by unfold exec; rfl, ?_⟩
  refine (if_neg (by show ¬unitUp s u = true; rw [h]; decide)).trans ?_
  rw [← hr]
  cases u with
  | ip k => exact (congrArg (settlePipe k) (rejoined_setPending _ _ _)).trans (settlePipe_setPending k _ _)
  | group g => exact rejoined_setPending _ _ _
  | blv p => exact rejoined_setPending _ _ _
  | cp n => exact rejoined_setPending _ _ _

theorem blockResetRelease_cases {u : BlockUnit} {s t : State} (hq : Quiet s) (h : unitUp s u = false) (ht : t = rejoined u s) :
    ((∀ k, u ≠ .ip k) → Gives (.blockResetRelease u) s t) ∧ (∀ k, u = .ip k → GivesThen (.blockResetRelease u) s (settlePipe k t))
      ∧ unitUp t u = true := by
  subst ht
  refine ⟨fun hk => gives_of_exists hq (blockResetRelease_run h ?_) (rejoined_tasks u s),
    fun k hk => givesThen_of_exists (blockResetRelease_run h ?_), unitUp_rejoined u s⟩
  · cases u with
    | ip k => exact absurd rfl (hk k)
    | group g => rfl
    | blv p => rfl
    | cp n => rfl
  · subst hk
    rfl

/-- Settles O54: what isolates a unit runs its reset once; the release is its step and, for a pipeline, the frame it can go on with. -/
theorem blockResets : Obligations.BlockResets := by
  intro u s t hq hx hc
  refine ⟨fun hu hb ht => ?_, fun hb => blockReset_stays hq (.inl (by rw [hb, Bool.and_false])), fun hu => blockReset_stays hq (.inr hu),
    fun v hm => rasBlkrstWrite_cases hq hc hm, fun n hn hu => ?_, isolateUnit_down, fun hu ht => ?_, fun g => rfl, fun g => resetGroup_cases g s,
    fun st r => voidRecord_cases st r s, fun k => resetPipe_cases k s t, fun p => resetPort_cases, fun hu ht => blockResetRelease_cases hq hu ht, fun hu => ?_⟩
  · rw [ht]
    have h := blockReset_isolates hx hc hu hb
    cases u <;> exact h
  · subst hn
    exact cpLockstepMismatch_gives hq hx hc hu
  · rw [ht]
    have hno : ¬(!unitExists u || !unitUp s u) = true := by rw [hx, hu]; decide
    cases u <;> exact if_neg hno
  · refine gives_of_effect (by unfold exec; rfl) hq ?_ rfl
    exact if_pos hu

end Sys2Proof.Machine
end

