-- ==== Sys2Proof/Proofs/ResetRows.lean ====
section
/-! Sources, levels and the release of resets. -/

namespace Sys2Proof.Machine

open Sys2Proof

/-! ## What a core reset leaves -/

theorem countClosed_counts (s : State) : ∃ c, countClosed s = { s with ctr := c } := by
  have hstep (l : List ℕ) (t : State) (ht : ∃ c, t = { s with ctr := c }) :
      ∃ c, l.foldl (fun s p => if (openFrameOf s p).isSome then portCount p 0 1 s else s) t = { s with ctr := c } := by
    induction l generalizing t with
    | nil => exact ht
    | cons p l ih =>
      obtain ⟨c, rfl⟩ := ht
      rw [List.foldl_cons]
      refine ih _ ?_
      by_cases hp : (openFrameOf { s with ctr := c } p).isSome = true
      · rw [if_pos hp]
        exact ⟨_, rfl⟩
      · rw [if_neg hp]
        exact ⟨c, rfl⟩
  exact hstep _ s ⟨s.ctr, rfl⟩

theorem coreReset_regs {s t : State} (ht : t = coreResetUnits s) :
    t.rst.before = bootState s ∧ bootState t = 0
      ∧ (∀ off, coreClears off = false → off ≠ Reg.rstBoot.base → rdW t off = rdW s off)
      ∧ (∀ off, coreClears off = true → rdW t off = rdW { s with regs := [] } off) := by
  obtain ⟨c, hc⟩ := countClosed_counts s
  have hkept : coreClears Reg.rstBoot.base = false := by decide
  have hclear (off : ℕ) : rdW (clearRegs coreClears (clearCompute { s with ctr := c })) off
      = if coreClears off then rdW { s with regs := [] } off else rdW s off := rdW_clearRegs _ _ _
  have hother (off : ℕ) (h : off ≠ Reg.rstBoot.base) : rdW t off = if coreClears off then rdW { s with regs := [] } off else rdW s off := by
    subst ht
    unfold coreResetUnits
    dsimp only
    rw [hc, rdW_wrF_other _ _ _ _ _ _ h]
    exact hclear off
  subst ht
  refine ⟨?_, ?_, fun off h hne => by rw [hother off hne, h]; rfl, fun off h => ?_⟩
  · unfold coreResetUnits
    dsimp only
    rw [hc]
    exact congrArg (fun w : Word => bits w.toNat 0 4) ((hclear _).trans (by rw [hkept]; rfl))
  · unfold coreResetUnits
    exact rdF_wrF_same _ _ _ _ _ (by decide)
  · rw [hother off (fun he => by rw [he, hkept] at h; exact Bool.false_ne_true h), h]
    rfl

theorem coreReset_cores {s t : State} (ht : t = coreResetUnits s) :
    ∀ n, n < s.cores.length → (coreOf t n).st = (coreOf s n).st ∧ (coreOf t n).task = none := by
  intro n hn
  obtain ⟨c, hc⟩ := countClosed_counts s
  have hcores : t.cores = s.cores.map TensorCore.stopped := by
    rw [ht, coreResetUnits, hc]
    rfl
  have hat : coreOf t n = TensorCore.stopped (coreOf s n) := by
    unfold coreOf
    rw [hcores, List.getD_eq_getElem _ _ hn, List.getD_eq_getElem _ _ (by rw [List.length_map]; exact hn), List.getElem_map]
  rw [hat]
  exact ⟨rfl, rfl⟩

theorem coreReset_gone {s t : State} (ht : t = coreResetUnits s) :
    t.progs = [] ∧ t.tokens = [] ∧ t.tasks = [] ∧ t.seqs = [] ∧ t.binds = [] ∧ t.plans = [] ∧ t.sq.runs = [] ∧ t.lastHandle = 0
      ∧ t.led.items = [] ∧ t.led.committing = [] ∧ t.led.subQ = [] ∧ t.eng = Engines.reset
      ∧ t.led.heldLoss = some (lossRange s) ∧ t.led.aborted = s.led.aborted ++ s.led.subQ ∧ t.led.ended = []
      ∧ t.led.streamQ = s.led.streamQ ∧ t.led.heldReleases = s.led.heldReleases
      ∧ t.mem = s.mem ∧ t.hostMem = s.hostMem ∧ t.tim = s.tim ∧ t.blv = s.blv ∧ t.host = s.host ∧ t.copies = s.copies ∧ t.toKerb = s.toKerb
      ∧ t.ouv.entries = s.ouv.entries ∧ t.rst.hist = s.rst.hist ∧ t.tv = s.tv := by
  obtain ⟨c, hc⟩ := countClosed_counts s
  rw [ht, coreResetUnits, hc]
  exact ⟨rfl, rfl, rfl, rfl, rfl, rfl, rfl, rfl, rfl, rfl, rfl, rfl, rfl, rfl, rfl, rfl, rfl, rfl, rfl, rfl, rfl, rfl, rfl, rfl, rfl, rfl, rfl⟩

theorem systemReset_leaves {s t : State} (b : Bool) (ht : t = systemResetUnits b s) :
    t.progs = [] ∧ t.tokens = [] ∧ t.tasks = [] ∧ t.mem = [] ∧ t.tim = TimeNet.reset ∧ t.sq = Square.reset ∧ t.host = HostLink.reset
      ∧ t.led = { Ledger.reset with heldReleases := s.led.heldReleases } ∧ t.ouv = s.ouv ∧ t.hostMem = s.hostMem ∧ t.rst.hist = s.rst.hist
      ∧ (∀ off, systemClears b off = true → rdW t off = rdW { s with regs := [] } off)
      ∧ (∀ off, systemClears b off = false → rdW t off = rdW s off) := by
  have hclear (off : ℕ) : rdW t off = if systemClears b off then rdW { s with regs := [] } off else rdW s off := by
    rw [ht]
    exact rdW_clearRegs _ _ (clearCompute s)
  refine ⟨?_, ?_, ?_, ?_, ?_, ?_, ?_, ?_, ?_, ?_, ?_, fun off h => by rw [hclear, h]; rfl, fun off h => by rw [hclear, h]; rfl⟩ <;>
    (rw [ht]; rfl)

/-! ## The sources -/

theorem assertReset_cases {src reach : ℕ} {r : ResetState} {s t : State} (hr : r = s.rst) :
    (coreUp s = true → assertReset src reach s = enterReset reach { s with rst := { r with
        phase := .held, level := reach, asserted := 2 ^ src, sources := 2 ^ src, widened := false, trimRestart := false, trimBusy := false
        since := s.tim.now.sec % 2 ^ 32 } })
      ∧ (coreUp s = false → t = { s with rst := { r with
            phase := .held, asserted := r.asserted ||| 2 ^ src, sources := r.sources ||| 2 ^ src
            trimRestart := r.trimRestart || r.trimBusy, trimBusy := false } } →
        (reach ≤ r.level → assertReset src reach s = t)
        ∧ (r.level < reach → assertReset src reach s = enterReset reach { t with rst := { t.rst with level := reach, widened := true } })) := by
  subst hr
  refine ⟨fun h => if_pos h, fun h ht => ⟨fun hl => ?_, fun hl => ?_⟩⟩
  · subst ht
    exact (if_neg (by rw [h]; exact Bool.false_ne_true)).trans (if_pos hl)
  · subst ht
    exact (if_neg (by rw [h]; exact Bool.false_ne_true)).trans (if_neg (Nat.not_le.mpr hl))

theorem enterReset_quiet (l : ℕ) (s : State) : Quiet (enterReset l s) := by
  have hnone {t : State} (h : t.tasks = []) : Quiet t := by
    intro k hk
    rw [h] at hk
    exact absurd hk List.not_mem_nil
  unfold enterReset
  dsimp only
  split
  · exact hnone (coreReset_gone rfl).2.2.1
  split
  · exact hnone (systemReset_leaves false rfl).2.2.1
  · exact hnone (systemReset_leaves true rfl).2.2.1

theorem assertReset_quiet {src reach : ℕ} {s : State} (hq : Quiet s) : Quiet (assertReset src reach s) := by
  unfold assertReset
  dsimp only
  split
  · exact enterReset_quiet _ _
  split
  · exact hq
  · exact enterReset_quiet _ _

theorem gives_assert {c : Instr} {src reach : ℕ} {f : State → State} {s t : State} (hc : exec c s = run f s) (hq : Quiet s)
    (ht : t.tasks = s.tasks) (h : f (setPending [] s) = assertReset src reach (setPending [] t)) : Gives c s (assertReset src reach t) :=
  gives_of_quiet hc (h.trans (assertReset_setPending _ _ _ _)) (assertReset_quiet (hq.of_tasks ht))

theorem sources_assert {s : State} (hq : Quiet s) :
    Gives .powerGoodFall s (assertReset 0 2 s) ∧ Gives .resetInAssert s (assertReset 1 1 s) ∧ Gives .perstAssert s (assertReset 2 1 s)
      ∧ Gives (.criticalStateError true) s (assertReset 11 1 s) ∧ Gives (.criticalStateError false) s (assertReset 10 0 s) :=
  ⟨gives_assert (by unfold exec; rfl) hq rfl rfl, gives_assert (by unfold exec; rfl) hq rfl rfl, gives_assert (by unfold exec; rfl) hq rfl rfl,
    gives_assert (by unfold exec; rfl) hq rfl rfl, gives_assert (by unfold exec; rfl) hq rfl rfl⟩

theorem functionReset_eq (s : State) :
    functionReset s = { (clearRegs Reg.msixTable.holds (if s.host.bme then setFlag Reg.pciStatus.base 1 s else s)) with
        host := { s.host with bme := false, vecPend := 0 } } := by
  unfold functionReset
  dsimp only
  split <;> rfl

/-- A source of the host link, in reset or out of it. -/
theorem linkReset_gives {c : Instr} {src : ℕ} {f : State → State} {s : State} (hc : exec c s = run (linkReset src f) s) (hq : Quiet s)
    (hf : f (setPending [] s) = setPending [] (f s)) (ht : (f s).tasks = s.tasks) :
    (wideUp s = true → Gives c s (assertReset src 0 (f s))) ∧ (wideUp s = false → Gives c s (assertReset src 0 s)) := by
  have hwide : wideUp (setPending [] s) = wideUp s := rfl
  refine ⟨fun h => gives_assert hc hq ht ?_, fun h => gives_assert hc hq rfl ?_⟩
  · rw [linkReset, hwide, if_pos h, hf]
  · rw [linkReset, hwide, h]
    rfl

theorem hotReset_gives {s : State} (hq : Quiet s) :
    (wideUp s = true → Gives .hotReset s (assertReset 3 0 (functionReset s))) ∧ (wideUp s = false → Gives .hotReset s (assertReset 3 0 s)) :=
  linkReset_gives (by unfold exec; rfl) hq (functionReset_setPending _ _) (functionReset_tasks s)

theorem functionLevelReset_gives {s : State} (hq : Quiet s) :
    (wideUp s = true → Gives .functionLevelReset s (assertReset 4 0 (functionReset s)))
      ∧ (wideUp s = false → Gives .functionLevelReset s (assertReset 4 0 s)) :=
  linkReset_gives (by unfold exec; rfl) hq (functionReset_setPending _ _) (functionReset_tasks s)

theorem linkDlDown_gives {s : State} (hq : Quiet s) :
    (wideUp s = true → Gives .linkDlDown s (assertReset 5 0 (linkFalls s))) ∧ (wideUp s = false → Gives .linkDlDown s (assertReset 5 0 s)) :=
  linkReset_gives (by unfold exec; rfl) hq (linkFalls_setPending _ _) (linkFalls_tasks s)

theorem d3hot_cases {s : State} (hq : Quiet s) (hw : wideUp s = true) (ha : cfgAnswers s = true) :
    (s.host.d3 = false → Gives .d3hotEntry s (assertReset 6 0 (setFlag Reg.pciStatus.base 2 (modHost (fun h => { h with d3 := true }) s))))
      ∧ (s.host.d3 = true → Gives .d3hotExit s (assertReset 6 0 (functionReset (modHost (fun h => { h with d3 := false }) s)))) := by
  refine ⟨fun h => ?_, fun h => ?_⟩
  · have hno : ¬(s.host.d3 || !cfgAnswers s) = true := by rw [h, ha]; decide
    refine gives_assert (by unfold exec; rfl) hq rfl ?_
    exact (if_neg hno).trans (congrArg (assertReset 6 0) ((if_pos hw).trans rfl))
  · have hon : (s.host.d3 && cfgAnswers s) = true := by rw [h, ha]; rfl
    refine gives_assert (by unfold exec; rfl) hq (functionReset_tasks _) ?_
    exact (if_pos hon).trans (congrArg (assertReset 6 0) ((if_pos hw).trans (functionReset_setPending [] (modHost (fun h => { h with d3 := false }) s))))

theorem d3hot_stays {s : State} (hq : Quiet s) :
    (s.host.d3 = true ∨ cfgAnswers s = false → Gives .d3hotEntry s s) ∧ (s.host.d3 = false ∨ cfgAnswers s = false → Gives .d3hotExit s s) := by
  refine ⟨fun h => ?_, fun h => ?_⟩
  · have hstop : (s.host.d3 || !cfgAnswers s) = true := by rcases h with h | h <;> simp [h]
    refine gives_of_effect (by unfold exec; rfl) hq ?_ rfl
    exact if_pos hstop
  · have hstop : ¬(s.host.d3 && cfgAnswers s) = true := by rcases h with h | h <;> simp [h]
    refine gives_of_effect (by unfold exec; rfl) hq ?_ rfl
    exact if_neg hstop

theorem ebouxTrip_gives {m : Meter} {s : State} (hq : Quiet s) :
    (115 ≤ m.eboux → Gives (.thermalTrip m) s (assertReset 9 1 (noteMeter m s))) ∧ (m.eboux < 115 → Gives (.thermalTrip m) s (noteMeter m s)) := by
  refine ⟨fun h => ?_, fun h => ?_⟩
  · refine gives_assert (by unfold exec; rfl) hq (noteMeter_tasks _ _) ?_
    rw [← noteMeter_setPending]
    exact if_pos h
  · refine gives_of_effect (by unfold exec; rfl) hq ?_ (noteMeter_tasks _ _)
    rw [← noteMeter_setPending]
    exact if_neg (not_le.mpr h)

theorem avenueLaneOut_gives {l : ℕ} {s : State} (hq : Quiet s) :
    (linkExists l = true → l ∈ s.sq.laneSpare → laneFails s l = 3 →
      Gives (.avenueLaneOut l) s (assertReset 12 1 (rasLast 11 l 0 (setFlag Reg.rasStatus.base 5 s))))
      ∧ (l ∉ s.sq.laneSpare → Gives (.avenueLaneOut l) s s) := by
  refine ⟨fun hx hl hf => ?_, fun hl => ?_⟩
  · have hon : (linkExists l && s.sq.laneSpare.contains l && laneFails s l == 3) = true := by
      rw [hx, List.contains_iff_mem.mpr hl, hf]
      rfl
    refine gives_assert (by unfold exec; rfl) hq rfl ?_
    exact if_pos hon
  · have hoff : ¬(linkExists l && s.sq.laneSpare.contains l && laneFails s l == 3) = true := by
      simp [hl]
    refine gives_of_effect (by unfold exec; rfl) hq ?_ rfl
    exact if_neg hoff

/-- The slot against which an expiry before READY counts. -/
def expirySlot (s : State) : ℕ := if bootState s = 9 then rdF s Reg.rstBoot.base 4 2 else (slotOrder s).headD 2

/-- What an expiry of the watchdog does. -/
def expire (cp : ℕ) (s : State) : State :=
  if !wdogOn s || decide (3 < cp) || (bootState s != 7 && cp != 0) then s
  else assertReset 7 1 (modRst (fun r => { r with wdogExpired := true })
    (if bootState s = 7 then s else modRst (fun r => { r with fails := modAt (expirySlot s) (· + 1) r.fails }) s))

theorem exec_watchdogExpiry (cp : ℕ) (s : State) : exec (.watchdogExpiry cp) s = run (expire cp) s := by
  unfold exec
  rfl

theorem expire_cases {cp : ℕ} {s : State} (hcp : cp ≤ 3) (hw : wdogOn s = true) :
    (bootState s = 7 → expire cp s = assertReset 7 1 (modRst (fun r => { r with wdogExpired := true }) s))
      ∧ (bootState s ≠ 7 → cp ≠ 0 → expire cp s = s)
      ∧ (bootState s ≠ 7 → cp = 0 → expire cp s = assertReset 7 1 (modRst (fun r => { r with wdogExpired := true })
          (modRst (fun r => { r with fails := modAt (expirySlot s) (· + 1) r.fails }) s))) := by
  have h3 : ¬3 < cp := Nat.not_lt.mpr hcp
  refine ⟨fun h => ?_, fun h hc => ?_, fun h hc => ?_⟩
  · rw [expire, if_neg (by simp [hw, h3, h]), if_pos h]
  · rw [expire, if_pos (by simp [h, hc])]
  · rw [expire, if_neg (by simp [hw, hc]), if_neg h]

theorem watchdog_cases {cp : ℕ} {s t : State} (hq : Quiet s) (hcp : cp ≤ 3) (hw : wdogOn s = true)
    (ht : t = modRst (fun r => { r with wdogExpired := true }) s) :
    (bootState s = 7 → Gives (.watchdogExpiry cp) s (assertReset 7 1 t))
      ∧ (bootState s ≠ 7 → cp ≠ 0 → Gives (.watchdogExpiry cp) s s)
      ∧ (∀ slot, bootState s ≠ 7 → cp = 0 → slot = expirySlot s →
          Gives (.watchdogExpiry cp) s (assertReset 7 1 (modRst (fun r => { r with fails := modAt slot (· + 1) r.fails }) t))) := by
  subst ht
  obtain ⟨hready, hother, hboot⟩ := expire_cases (s := setPending [] s) hcp hw
  refine ⟨fun h => gives_assert (exec_watchdogExpiry cp s) hq rfl (hready h),
    fun h hc => gives_of_effect (exec_watchdogExpiry cp s) hq (hother h hc) rfl, fun slot h hc hs => ?_⟩
  subst hs
  exact gives_assert (exec_watchdogExpiry cp s) hq rfl (hboot h hc)

/-! ## Requests of the firmware -/

theorem requestReset_complex {v : Word} {s : State} (hm : MayWrite s .complex Reg.rstReq.base v) :
    requestReset .complex v (setPending [] s) = writeRstReq v (setPending [] s) := by
  have hno : ¬(Writer.complex = .host ∧ silent (setPending [] s) Reg.rstReq.base true = false) := fun h => Writer.noConfusion h.1
  unfold requestReset
  rw [if_neg hno]
  exact gate_pass_pending [] hm _

theorem requestReset_host {v : Word} {s : State} (hs : silent s Reg.rstReq.base true = false) :
    requestReset .host v (setPending [] s) = setPending [] (setFlag Reg.glbStatus.base 3 (setFlag Reg.rstStatus.base 3 s)) := by
  have hon : Writer.host = .host ∧ silent (setPending [] s) Reg.rstReq.base true = false := ⟨rfl, hs⟩
  have hboot : bootState (setFlag Reg.rstStatus.base 3 (setPending [] s)) = bootState s := rdF_wr_other _ _ _ _ _ _ (by decide)
  have hs' : silent (setFlag Reg.rstStatus.base 3 (setPending [] s)) Reg.rstReq.base true = false := by
    rw [← hs, silent, inRecovery, hboot]
    rfl
  unfold requestReset
  dsimp only
  rw [if_pos hon, gate, pass_wrongWriter _ hs' regAt_rstReq rfl]
  exact if_neg (by decide)

theorem requests_reset {v : Word} {s : State} (hq : Quiet s) (hm : MayWrite s .complex Reg.rstReq.base v) :
    (∀ l, l = bits v.toNat 0 2 → l ≤ 2 →
      Gives (.fwCoreResetRequest .complex v) s (assertReset 8 l s) ∧ Gives (.fwSystemResetRequest .complex v) s (assertReset 8 l s)
        ∧ Gives (.fwPowerOnResetRequest .complex v) s (assertReset 8 l s))
      ∧ (bits v.toNat 0 2 = 3 → Gives (.fwCoreResetRequest .complex v) s (setFlag Reg.rstStatus.base 3 s)) := by
  refine ⟨fun l hl h2 => ?_, fun h => ?_⟩
  · have hwrite : requestReset .complex v (setPending [] s) = assertReset 8 l (setPending [] s) := by
      subst hl
      exact (requestReset_complex hm).trans (if_neg (by omega))
    exact ⟨gives_assert (by unfold exec; rfl) hq rfl hwrite, gives_assert (by unfold exec; rfl) hq rfl hwrite,
      gives_assert (by unfold exec; rfl) hq rfl hwrite⟩
  · refine gives_of_effect (by unfold exec; rfl) hq ((requestReset_complex hm).trans ?_) rfl
    exact if_pos h

theorem requests_refused {v : Word} {s : State} (hq : Quiet s) (hs : silent s Reg.rstReq.base true = false) :
    Gives (.fwCoreResetRequest .host v) s (setFlag Reg.glbStatus.base 3 (setFlag Reg.rstStatus.base 3 s))
      ∧ Gives (.fwSystemResetRequest .host v) s (setFlag Reg.glbStatus.base 3 (setFlag Reg.rstStatus.base 3 s))
      ∧ Gives (.fwPowerOnResetRequest .host v) s (setFlag Reg.glbStatus.base 3 (setFlag Reg.rstStatus.base 3 s)) :=
  ⟨gives_of_effect (by unfold exec; rfl) hq (requestReset_host hs) rfl, gives_of_effect (by unfold exec; rfl) hq (requestReset_host hs) rfl,
    gives_of_effect (by unfold exec; rfl) hq (requestReset_host hs) rfl⟩

/-! ## The release -/

theorem beginStretch_core {s : State} (h : s.rst.level = 0) :
    beginStretch s = modRst (fun r => { r with phase := .stretching, trimBusy := false }) s := by
  rw [beginStretch, h]
  rfl

theorem beginStretch_wide {s : State} (h : s.rst.level ≠ 0) :
    beginStretch s = wrF Reg.rstBoot.base 0 4 1 (wr Reg.rstTrim.base (min 255 (rdF s Reg.rstTrim.base 8 8 + 1) * 256)
      (modRst (fun r => { r with phase := .stretching, trimBusy := true }) s)) := by
  have hw : (s.rst.level != 0) = true := bne_iff_ne.mpr h
  rw [beginStretch, hw]
  rfl

theorem sourceRelease_cases {src : ℕ} {r : ResetState} {s : State} (hq : Quiet s) (hr : r = s.rst) (hbit : r.asserted.testBit src = true) :
    (r.asserted ≠ 2 ^ src → Gives (.resetSourceRelease src) s { s with rst := { r with asserted := r.asserted - 2 ^ src } })
      ∧ (r.asserted = 2 ^ src → r.phase = .held → r.level = 0 →
        Gives (.resetSourceRelease src) s { s with rst := { r with asserted := 0, phase := .stretching, trimBusy := false } })
      ∧ (r.asserted = 2 ^ src → r.phase = .held → r.level ≠ 0 → Gives (.resetSourceRelease src) s (wrF Reg.rstBoot.base 0 4 1
          (wr Reg.rstTrim.base (min 255 (rdF s Reg.rstTrim.base 8 8 + 1) * 256)
            { s with rst := { r with asserted := 0, phase := .stretching, trimBusy := true } }))) := by
  subst hr
  have hno : ¬(!s.rst.asserted.testBit src) = true := by rw [hbit]; decide
  have hle : 2 ^ src ≤ s.rst.asserted := Nat.ge_two_pow_of_testBit hbit
  have hlast (h : s.rst.asserted = 2 ^ src) (hp : s.rst.phase = .held) : s.rst.asserted - 2 ^ src = 0 ∧ s.rst.phase = .held :=
    ⟨by rw [h, Nat.sub_self], hp⟩
  refine ⟨fun h => ?_, fun h hp hl => ?_, fun h hp hl => ?_⟩
  · have hmore : ¬(s.rst.asserted - 2 ^ src = 0 ∧ s.rst.phase = .held) := fun h' => h (by omega)
    refine gives_of_effect (by unfold exec; rfl) hq ?_ rfl
    exact (if_neg hno).trans (if_neg hmore)
  · refine gives_of_effect (by unfold exec; rfl) hq ?_ rfl
    refine (if_neg hno).trans ((if_pos (hlast h hp)).trans ?_)
    refine (beginStretch_core (s := modRst (fun r => { r with asserted := r.asserted - 2 ^ src }) (setPending [] s)) hl).trans ?_
    show _ = setPending [] { s with rst := { s.rst with asserted := 0, phase := .stretching, trimBusy := false } }
    rw [← Nat.sub_self (2 ^ src), ← h]
    rfl
  · refine gives_of_effect (by unfold exec; rfl) hq ?_ rfl
    refine (if_neg hno).trans ((if_pos (hlast h hp)).trans ?_)
    refine (beginStretch_wide (s := modRst (fun r => { r with asserted := r.asserted - 2 ^ src }) (setPending [] s)) hl).trans ?_
    rw [← Nat.sub_self (2 ^ src), ← h]
    rfl

theorem outvoted_iff (a b c : ℕ) : outvoted (a, b, c) = true ↔ (a = b ∧ b ≠ c) ∨ (b = c ∧ a ≠ b) ∨ (a = c ∧ a ≠ b) := by
  simp only [outvoted, Bool.and_eq_true, Bool.or_eq_true, beq_iff_eq, Bool.not_eq_true', Bool.and_eq_false_iff, beq_eq_false_iff_ne]
  omega

theorem threeWays_iff (a b c : ℕ) : threeWays (a, b, c) = true ↔ a ≠ b ∧ b ≠ c ∧ a ≠ c := by
  simp only [threeWays, Bool.and_eq_true, bne_iff_ne, and_assoc]

theorem trimLoadDone_cases {ups : List Upset} {ts : List (RegDef × TvReg)} {s t : State} (hq : Quiet s) (hp : s.rst.phase = .stretching)
    (hb : s.rst.trimBusy = true) (hts : ts = shadowRegs.map (fun d => (d, loadCopies s.fuse ups d.base)))
    (ht : t = wrF Reg.rstTrim.base 1 1 (b2n (anyShadow outvoted ts)) (wrF Reg.rstTrim.base 0 1 1 { s with
        tv := (s.tv.filter fun t => fieldOff t.off) ++ ts.map (·.2), rst := { s.rst with trimBusy := false } })) :
    (anyShadow threeWays ts = false → Gives (.trimLoadDone ups) s t) ∧ (anyShadow threeWays ts = true → Gives (.trimLoadDone ups) s (assertReset 11 1 t)) := by
  have hno : ¬(s.rst.phase != .stretching || !s.rst.trimBusy) = true := by rw [hp, hb]; decide
  subst ht hts
  refine ⟨fun h => ?_, fun h => ?_⟩
  · refine gives_of_effect (by unfold exec; rfl) hq ?_ rfl
    refine (if_neg hno).trans ((if_neg ?_).trans rfl)
    exact fun h' => Bool.false_ne_true (h.symm.trans h')
  · refine gives_assert (by unfold exec; rfl) hq rfl ?_
    exact (if_neg hno).trans ((if_pos h).trans rfl)

theorem driveResetOut_cases (x : State) :
    (x.rst.outHigh = true → driveResetOut true x = x)
      ∧ (x.rst.outHigh = false → driveResetOut true x = emit (.resetOut true) (modRst (fun r => { r with outHigh := true }) x)) :=
  ⟨fun h => if_pos h, fun h => if_neg (by rw [h]; exact Bool.false_ne_true)⟩

theorem checkBackup_cases (s : State) :
    (s.pwr.vbakOk = true → checkBackup s = s)
      ∧ (s.pwr.vbakOk = false → checkBackup s = setFlag Reg.rstStatus.base 2 { s with
          rst := { s.rst with hist := [], bakSys := 0, bakCore := 0, bakValid := false, fails := [0, 0] }
          led := { s.led with heldReleases := [] }, pwr := { s.pwr with vbakOk := true } }) :=
  ⟨fun h => if_pos h, fun h => (if_neg (by rw [h]; exact Bool.false_ne_true)).trans rfl⟩

/-- The backup domain's check leaves what the release reads of the reset at hand. -/
theorem checkBackup_rst (s : State) :
    (checkBackup s).rst.sources = s.rst.sources ∧ (checkBackup s).rst.level = s.rst.level ∧ (checkBackup s).rst.before = s.rst.before := by
  unfold checkBackup
  split
  · exact ⟨rfl, rfl, rfl⟩
  · exact ⟨rfl, rfl, rfl⟩

/-- The pools follow their targets when a core reset releases. -/
def poolsGrow (s : State) : State :=
  (List.range 16).foldl (fun s p => if kvBlk s p ≠ 0 ∧ kvTarget s p ≠ 0 then adjustPool p s else s) s

/-- A release up to its history entry. -/
def releaseNoted (s : State) : State :=
  let c := if s.rst.level = 2 then checkBackup s else s
  holdRelease (histEntry s.rst) (wr Reg.rstCause.base (s.rst.sources % 8192 + s.rst.level * 65536) (modRst (fun r => { r with
    phase := .running, hist := (histEntry s.rst :: r.hist).take 16, bakValid := true, wdogExpired := false
    bakSys := if r.level = 0 then r.bakSys else r.bakSys + 1, bakCore := if r.level = 0 then r.bakCore + 1 else r.bakCore }) c))

/-- What a release of the stretch leaves. -/
def releaseReset (s : State) : State :=
  if s.rst.phase != .stretching || s.rst.trimBusy then s
  else if s.rst.level = 0 then poolsGrow (bootAgain (setFlag Reg.rstStatus.base 0 (driveResetOut true (releaseNoted s))))
  else wrF Reg.rstBoot.base 0 4 2 (driveResetOut true (releaseNoted s))

theorem exec_resetRelease (s : State) : exec .resetRelease s = run releaseReset s := by
  unfold exec
  rfl

theorem releaseNoted_setPending (q : List Instr) (s : State) : releaseNoted (setPending q s) = setPending q (releaseNoted s) := by
  unfold releaseNoted
  dsimp only
  rw [← holdRelease_setPending]
  by_cases h : s.rst.level = 2
  · rw [if_pos h, if_pos (show (setPending q s).rst.level = 2 from h), checkBackup_setPending]
    rfl
  · rw [if_neg h, if_neg (show ¬(setPending q s).rst.level = 2 from h)]
    rfl

theorem releaseNoted_tasks (s : State) : (releaseNoted s).tasks = s.tasks := by
  unfold releaseNoted
  refine (holdRelease_tasks _ _).trans ?_
  show (if s.rst.level = 2 then checkBackup s else s).tasks = s.tasks
  split
  · exact checkBackup_tasks s
  · rfl

theorem poolsGrow_setPending (q : List Instr) (s : State) : poolsGrow (setPending q s) = setPending q (poolsGrow s) := by
  unfold poolsGrow
  refine foldl_setPending_of (fun s p => if kvBlk s p ≠ 0 ∧ kvTarget s p ≠ 0 then adjustPool p s else s)
    (fun s p => if kvBlk s p ≠ 0 ∧ kvTarget s p ≠ 0 then adjustPool p s else s) (fun q s p => ?_) _ _ _
  by_cases h : kvBlk s p ≠ 0 ∧ kvTarget s p ≠ 0
  · rw [if_pos h, ← adjustPool_setPending]
    exact if_pos h
  · rw [if_neg h]
    exact if_neg h

theorem poolsGrow_tasks (s : State) : (poolsGrow s).tasks = s.tasks := by
  unfold poolsGrow
  refine foldl_keeps (f := fun s p => if kvBlk s p ≠ 0 ∧ kvTarget s p ≠ 0 then adjustPool p s else s) State.tasks (fun s p => ?_) _ _
  split
  · exact adjustPool_tasks p s
  · rfl

theorem releaseReset_gives {s t : State} (hq : Quiet s) (hp : s.rst.phase = .stretching) (hb : s.rst.trimBusy = false)
    (ht : t = releaseNoted s) :
    (s.rst.level ≠ 0 → Gives .resetRelease s (wrF Reg.rstBoot.base 0 4 2 (driveResetOut true t)))
      ∧ (s.rst.level = 0 → Gives .resetRelease s (poolsGrow (bootAgain (setFlag Reg.rstStatus.base 0 (driveResetOut true t))))) := by
  have hno : ¬(s.rst.phase != .stretching || s.rst.trimBusy) = true := by rw [hp, hb]; decide
  have hdriven : driveResetOut true (releaseNoted (setPending [] s)) = setPending [] (driveResetOut true t) := by
    rw [releaseNoted_setPending, driveResetOut_setPending, ht]
  have htasks : (driveResetOut true t).tasks = s.tasks := by rw [driveResetOut_tasks, ht, releaseNoted_tasks]
  refine ⟨fun h => gives_of_effect (exec_resetRelease s) hq ((if_neg hno).trans ((if_neg h).trans ?_)) htasks,
    fun h => gives_of_effect (exec_resetRelease s) hq ((if_neg hno).trans ((if_pos h).trans ?_)) ?_⟩
  · rw [hdriven]
    rfl
  · rw [hdriven, ← poolsGrow_setPending]
    rfl
  · rw [poolsGrow_tasks, bootAgain_tasks]
    exact htasks

theorem driveResetOut_before (high : Bool) (s : State) : (driveResetOut high s).rst.before = s.rst.before := by
  unfold driveResetOut
  split
  · rfl
  · rfl

theorem holdRelease_rst (e : HistEntry) (s : State) : (holdRelease e s).rst = s.rst := by
  unfold holdRelease
  dsimp only
  split
  · rfl
  · rfl

theorem resetRelease_cases {r : ResetState} {e : HistEntry} {c s t : State} (hq : Quiet s) (hp : s.rst.phase = .stretching)
    (hb : s.rst.trimBusy = false) (hc : c = (if s.rst.level = 2 then checkBackup s else s)) (hr : r = c.rst) (he : e = histEntry s.rst)
    (ht : t = holdRelease e (wr Reg.rstCause.base (r.sources % 8192 + r.level * 65536) { c with rst := { r with
        phase := .running, hist := (e :: r.hist).take 16, bakValid := true, wdogExpired := false
        bakSys := if r.level = 0 then r.bakSys else r.bakSys + 1, bakCore := if r.level = 0 then r.bakCore + 1 else r.bakCore } })) :
    (r.level ≠ 0 → Gives .resetRelease s (wrF Reg.rstBoot.base 0 4 2 (driveResetOut true t)))
      ∧ (r.level = 0 → Gives .resetRelease s ((List.range 16).foldl
          (fun s p => if kvBlk s p ≠ 0 ∧ kvTarget s p ≠ 0 then adjustPool p s else s)
          (wrF Reg.rstBoot.base 0 4 s.rst.before (setFlag Reg.rstStatus.base 0 (driveResetOut true t))))) := by
  have hsame : r.sources = s.rst.sources ∧ r.level = s.rst.level ∧ r.before = s.rst.before := by
    rw [hr, hc]
    split
    · exact checkBackup_rst s
    · exact ⟨rfl, rfl, rfl⟩
  obtain ⟨hsources, hlevel, hbefore⟩ := hsame
  have hnoted : t = releaseNoted s := by
    rw [ht, he]
    unfold releaseNoted
    dsimp only
    rw [← hc, ← hsources, ← hlevel, hr]
    rfl
  have hdrivenBefore : (driveResetOut true t).rst.before = s.rst.before := by
    rw [driveResetOut_before, ht, holdRelease_rst]
    exact hbefore
  obtain ⟨hwide, hcore⟩ := releaseReset_gives hq hp hb hnoted
  rw [hlevel]
  refine ⟨hwide, fun h => ?_⟩
  have hgives := hcore h
  unfold bootAgain at hgives
  rw [show (setFlag Reg.rstStatus.base 0 (driveResetOut true t)).rst.before = s.rst.before from hdrivenBefore] at hgives
  exact hgives

/-- Settles O55: a reset's entry and its release by their branches; what each level clears is read off its definition. -/
theorem resetsAndRelease : Obligations.ResetsAndRelease := by
  intro w v m s t hq
  refine ⟨sources_assert hq, functionReset_eq s, fun hw => ⟨(hotReset_gives hq).1 hw, (functionLevelReset_gives hq).1 hw⟩,
    fun hw => (linkDlDown_gives hq).1 hw,
    fun hw => ⟨(hotReset_gives hq).2 hw, (functionLevelReset_gives hq).2 hw, (linkDlDown_gives hq).2 hw⟩, d3hot_cases hq,
    fun h => ⟨(d3hot_stays hq).1 (.inr h), (d3hot_stays hq).2 (.inr h)⟩, ⟨fun h => (d3hot_stays hq).1 (.inl h), fun h => (d3hot_stays hq).2 (.inl h)⟩,
    (ebouxTrip_gives hq).1, (ebouxTrip_gives hq).2, fun l => (avenueLaneOut_gives hq).1, fun l => (avenueLaneOut_gives hq).2,
    fun cp => watchdog_cases hq, fun hm => gated_gives (by unfold exec; rfl) hq hm rfl rfl, fun hm => (requests_reset hq hm).1,
    fun hm => (requests_reset hq hm).2, requests_refused hq, fun src reach r => assertReset_cases, fun ht => ?_, fun b => systemReset_leaves b, ?_,
    fun src r => sourceRelease_cases hq, fun ups ts => trimLoadDone_cases hq, fun a b c => ⟨outvoted_iff a b c, threeWays_iff a b c⟩, fun b hb x => ?_,
    (checkBackup_cases s).1, (checkBackup_cases s).2, fun r e c hp hb hc hr he ht => resetRelease_cases hq hp hb hc hr he ht⟩
  · obtain ⟨hbefore, hboot, hkept, hcleared⟩ := coreReset_regs ht
    simp only [coreReset_gone ht, hbefore, hboot, true_and]
    exact ⟨hkept, hcleared, coreReset_cores ht⟩
  · decide
  · rw [hb]
    exact driveResetOut_cases x

end Sys2Proof.Machine
end

