-- ==== Sys2Proof/Proofs/BootRows.lean ====
section
/-! The ROM, the firmware it starts, and the rollback count. -/

namespace Sys2Proof.Machine

open Sys2Proof

/-! ## The ROM -/

/-- The state after the ROM's self-tests. -/
def romTested (failed bad : List ℕ) (s : State) : State :=
  testedBanks bad { s with cores := testedCores (bits (tvRead s Reg.tcSpare.base) 0 5) failed }

theorem romTested_setPending (failed bad : List ℕ) (q : List Instr) (s : State) :
    romTested failed bad (setPending q s) = setPending q (romTested failed bad s) :=
  testedBanks_setPending bad q { s with cores := testedCores (bits (tvRead s Reg.tcSpare.base) 0 5) failed }

theorem romTested_tasks (failed bad : List ℕ) (s : State) : (romTested failed bad s).tasks = s.tasks := testedBanks_tasks _ _

/-- What the ROM does with the two slots. -/
def bootSlots (t : State) : State :=
  match (slotOrder t).find? fun k => imageAccepted t (flashOf t k) with
  | some k => startFirmware k (flashOf t k) t
  | none => wrF Reg.rstBoot.base 0 4 8 (setFlag Reg.secStatus.base 1 t)

theorem bootSlots_setPending (q : List Instr) (t : State) : bootSlots (setPending q t) = setPending q (bootSlots t) := by
  have hfind : (slotOrder (setPending q t)).find? (fun k => imageAccepted (setPending q t) (flashOf (setPending q t) k))
      = (slotOrder t).find? (fun k => imageAccepted t (flashOf t k)) := rfl
  unfold bootSlots
  rw [hfind]
  split
  · rfl
  · rfl

theorem bootSlots_tasks (t : State) : (bootSlots t).tasks = t.tasks := by
  unfold bootSlots
  split
  · exact startFirmware_tasks _ _ _
  · rfl

/-- What BOOT_ROM does. -/
def bootRom (failed bad : List ℕ) (lpddrBad : Bool) (s : State) : State :=
  if !coreUp s || decide (2 < bootState s) then s
  else if lpddrBad then wrF Reg.rstBoot.base 0 4 9 (setFlag Reg.memStatus.base 2 (romTested failed bad s)) else bootSlots (romTested failed bad s)

theorem exec_bootRom (failed bad : List ℕ) (l : Bool) (s : State) : exec (.bootRom failed bad l) s = run (bootRom failed bad l) s := by
  unfold exec
  rfl

theorem bootRom_gives {failed bad : List ℕ} {s t : State} (hq : Quiet s) (hc : coreUp s = true) (hb : bootState s ≤ 2)
    (ht : t = romTested failed bad s) :
    Gives (.bootRom failed bad true) s (wrF Reg.rstBoot.base 0 4 9 (setFlag Reg.memStatus.base 2 t))
      ∧ Gives (.bootRom failed bad false) s (bootSlots t) := by
  have hno : ¬(!coreUp (setPending [] s) || decide (2 < bootState (setPending [] s))) = true := by
    show ¬(!coreUp s || decide (2 < bootState s)) = true
    rw [hc, decide_eq_false (Nat.not_lt.mpr hb)]
    decide
  subst ht
  refine ⟨gives_of_effect (exec_bootRom _ _ _ s) hq ?_ (romTested_tasks _ _ _), gives_of_effect (exec_bootRom _ _ _ s) hq ?_ ?_⟩
  · rw [bootRom, if_neg hno, if_pos rfl, romTested_setPending]
    rfl
  · rw [bootRom, if_neg hno, if_neg Bool.false_ne_true, romTested_setPending, bootSlots_setPending]
  · rw [bootSlots_tasks, romTested_tasks]

theorem bootSlots_cases (t : State) :
    (∀ k, (slotOrder t).find? (fun k => imageAccepted t (flashOf t k)) = some k → bootSlots t = startFirmware k (flashOf t k) t)
      ∧ ((∀ k ∈ slotOrder t, imageAccepted t (flashOf t k) = false) →
          bootSlots t = wrF Reg.rstBoot.base 0 4 8 (setFlag Reg.secStatus.base 1 t)) := by
  refine ⟨fun k hk => ?_, fun h => ?_⟩
  · unfold bootSlots
    rw [hk]
  · have hnone : (slotOrder t).find? (fun k => imageAccepted t (flashOf t k)) = none :=
      List.find?_eq_none.mpr fun k hk => by rw [h k hk]; exact Bool.false_ne_true
    unfold bootSlots
    rw [hnone]

theorem bootRom_stays {failed bad : List ℕ} {s : State} (hq : Quiet s) (h : 2 < bootState s ∨ coreUp s = false) (l : Bool) :
    Gives (.bootRom failed bad l) s s := by
  refine gives_of_effect (exec_bootRom _ _ _ s) hq (if_pos ?_) rfl
  show (!coreUp s || decide (2 < bootState s)) = true
  rcases h with h | h <;> simp [h]

theorem testedCores_st (failed : List ℕ) (fused n : ℕ) (hn : n < 17) :
    ((testedCores fused failed).getD n (TensorCore.idle 0 0)).st
      = (if n ∈ failed then 2 else if n = min fused 16 ∧ (∀ m ∈ List.range 17, m ∉ failed) then 1 else 0) := by
  have hlen : n < (testedCores fused failed).length := by
    rw [testedCores, List.length_map, List.length_range]
    exact hn
  have hany : (!(List.range 17).any failed.contains) = true ↔ ∀ m ∈ List.range 17, m ∉ failed := by
    rw [Bool.not_eq_true', List.any_eq_false]
    simp only [List.contains_iff_mem]
  rw [List.getD_eq_getElem _ _ hlen]
  simp only [testedCores, List.getElem_map, List.getElem_range, TensorCore.idle, List.contains_iff_mem, hany]

theorem slotOrder_cases {s : State} {f0 f1 a b : ℕ} (h0 : f0 = s.rst.fails.getD 0 0) (h1 : f1 = s.rst.fails.getD 1 0)
    (ha : a = leAt s.rst.flashA 6 1) (hb : b = leAt s.rst.flashB 6 1) :
    (f0 < 3 → f1 < 3 → b ≤ a → slotOrder s = [0, 1]) ∧ (f0 < 3 → f1 < 3 → a < b → slotOrder s = [1, 0])
      ∧ (3 ≤ f0 → f1 < 3 → slotOrder s = [1]) ∧ (f0 < 3 → 3 ≤ f1 → slotOrder s = [0]) ∧ (3 ≤ f0 → 3 ≤ f1 → slotOrder s = []) := by
  have horder : slotOrder s = (if a < b then [1, 0] else [0, 1]).filter fun k => decide (s.rst.fails.getD k 0 < 3) := by
    rw [ha, hb]
    rfl
  have hok : slotOrder s = if a < b then (if f1 < 3 then [1] else []) ++ (if f0 < 3 then [0] else [])
      else (if f0 < 3 then [0] else []) ++ (if f1 < 3 then [1] else []) := by
    rw [horder]
    split <;> simp only [List.filter_cons, List.filter_nil, ← h0, ← h1, decide_eq_true_eq] <;> split <;> split <;> rfl
  rw [hok]
  refine ⟨fun h h' hle => ?_, fun h h' hlt => ?_, fun h h' => ?_, fun h h' => ?_, fun h h' => ?_⟩
  · rw [if_neg (Nat.not_lt.mpr hle), if_pos h, if_pos h']
    rfl
  · rw [if_pos hlt, if_pos h, if_pos h']
    rfl
  · rw [if_neg (Nat.not_lt.mpr h), if_pos h']
    exact ite_self _
  · rw [if_pos h, if_neg (Nat.not_lt.mpr h')]
    exact ite_self _
  · rw [if_neg (Nat.not_lt.mpr h), if_neg (Nat.not_lt.mpr h')]
    exact ite_self _

theorem imageAccepted_checks {s : State} {img : List Byte} {n : ℕ} (hn : n = leAt img 8 4) (h : imageAccepted s img = true) :
    img.take 4 = [0x50, 0x57, 0x46, 0x57] ∧ leAt img 4 2 = 0x1612 ∧ leAt img 7 1 ≤ 3 ∧ 128 + n + 29792 ≤ img.length
      ∧ shake256 ((img.drop 0xC).take 64) 32 = Config.keyHash (leAt img 7 1) ∧ bitOf (tvRead s Reg.secKeys.base) (leAt img 7 1) = false
      ∧ s.fuse.svn ≤ leAt img 6 1
      ∧ Config.slhVerify 2 ((img.drop 0xC).take 64) (imageBody img) ((img.drop (128 + n)).take 29792) = true := by
  subst hn
  simp only [imageAccepted, Bool.and_eq_true, beq_iff_eq, decide_eq_true_eq, Bool.not_eq_true'] at h
  obtain ⟨⟨⟨⟨⟨⟨⟨⟨⟨⟨hmagic, hver⟩, hsvn⟩, hslot⟩, hn1⟩, hn2⟩, hlen⟩, hkey⟩, hrevoked⟩, hfuse⟩, hsig⟩ := h
  exact ⟨hmagic, hver, hslot, hlen, hkey, hrevoked, hfuse, hsig⟩

/-! ## The firmware that starts -/

theorem startFirmware_leaves {slot : ℕ} {img : List Byte} {s t : State} (hs : slot ≤ 2) (hv : leAt img 6 1 ≤ 63) (ht : t = startFirmware slot img s) :
    bootState t = 7 ∧ rdF t Reg.rstBoot.base 4 2 = slot ∧ t.rst.measurement = shake256 (imageBody img) 32
      ∧ rdB t Reg.secStatus.base 0 = true ∧ rdB t Reg.secStatus.base 4 = true ∧ rdF t Reg.secSvn.base 0 6 = leAt img 6 1
      ∧ t.rst.aliasSeed = aliasSeedOf (cdiOf (shake256 (imageBody img) 32) (leAt img 6 1) (if slot = 2 then 1 else 0))
      ∧ t.mem = s.mem ∧ t.led = s.led ∧ t.fuse = s.fuse := by
  subst ht
  have hboot : rd (startFirmware slot img s) Reg.rstBoot.base = 7 + slot * 16 := by
    unfold startFirmware
    rw [rd_wr_same]
    exact Nat.mod_eq_of_lt (by omega)
  have hstatus : rd (startFirmware slot img s) Reg.secStatus.base = setBits (setBits (rd s Reg.secStatus.base) 0 1 1) 4 1 1 := by
    unfold startFirmware
    rw [rd_wr_other _ _ _ _ (by decide), rd_wr_other _ _ _ _ (by decide), rd_wrF_other _ _ _ _ _ _ (by decide), rd_wrF_other _ _ _ _ _ _ (by decide),
      rd_wrF_same _ _ _ _ _ (by decide), rd_wrF_same _ _ _ _ _ (by decide)]
    rfl
  refine ⟨?_, ?_, rfl, ?_, ?_, ?_, rfl, rfl, rfl, rfl⟩
  · rw [bootState, rdF, hboot, bits]
    omega
  · rw [rdF, hboot, bits]
    omega
  · rw [rdB, hstatus, testBit_setBits, if_neg (by decide), testBit_setBits, if_pos (by decide)]
    rfl
  · rw [rdB, hstatus, testBit_setBits, if_pos (by decide)]
    rfl
  · unfold startFirmware
    rw [rdF_wr_other _ _ _ _ _ _ (by decide), rdF_wr_other _ _ _ _ _ _ (by decide), rdF_wrF_other _ _ _ _ _ _ _ _ (by decide),
      rdF_wrF_same _ _ _ _ _ (by decide)]
    exact Nat.mod_eq_of_lt (by omega)

theorem rstBootGo_cases {w : Writer} {v : Word} {img : List Byte} {s : State} (hq : Quiet s) (hm : MayWrite s w Reg.rstBoot.base v)
    (hi : img = devGet s 0 (bits v.toNat 8 24)) :
    (inRecovery s = true → v.getLsbD 6 = true → imageAccepted s img = true → Gives (.rstBootGo w v) s (startFirmware 2 img s))
      ∧ (inRecovery s = true → v.getLsbD 6 = true → imageAccepted s img = false → Gives (.rstBootGo w v) s (wr Reg.rstBoot.base 41 s))
      ∧ (inRecovery s = false ∨ v.getLsbD 6 = false → Gives (.rstBootGo w v) s s) := by
  have hgives {t : State} (h : writeRstBoot v s = t) (ht : t.tasks = s.tasks) : Gives (.rstBootGo w v) s t :=
    gated_apart (by unfold exec; rfl) hq hm (writeRstBoot_setPending _ _ _) h ht
  subst hi
  refine ⟨fun hr hg ha => hgives ?_ (startFirmware_tasks _ _ _), fun hr hg ha => hgives ?_ rfl, fun h => hgives (if_pos ?_) rfl⟩
  · exact (if_neg (by rw [hr, hg]; decide)).trans (if_pos ha)
  · exact (if_neg (by rw [hr, hg]; decide)).trans (if_neg (by rw [ha]; exact Bool.false_ne_true))
  · rcases h with h | h <;> rw [h]
    · rfl
    · exact Bool.or_true _

/-! ## The rollback count -/

theorem secRollWrite_gives {w : Writer} {v : Word} {s t : State} (hq : Quiet s) (hs : silent s Reg.secRoll.base true = false)
    (hw : wrongWriter Reg.secRoll w = false) (h : writeRoll v s = t) : Gives (.secRollWrite w v) s t := by
  have hs' : silent (setPending [] s) Reg.secRoll.base true = false := hs
  refine gives_of_effect (by unfold exec; rfl) hq ?_ (h ▸ writeRoll_tasks v s)
  rw [pass_writer _ hs' regAt_secRoll hw, writeRoll_setPending, h]

theorem secRollWrite_cases {w : Writer} {v : Word} {s : State} (hq : Quiet s) (hm : MayWrite s w Reg.secRoll.base v) :
    (s.fuse.svn < bits v.toNat 0 7 → bits v.toNat 0 7 ≤ rdF s Reg.secSvn.base 0 6 →
        Gives (.secRollWrite w v) s { s with fuse := { s.fuse with svn := bits v.toNat 0 7 } })
      ∧ (bits v.toNat 0 7 ≤ s.fuse.svn ∨ rdF s Reg.secSvn.base 0 6 < bits v.toNat 0 7 →
        Gives (.secRollWrite w v) s (setFlag Reg.secStatus.base 2 s)) := by
  obtain ⟨hs, hw⟩ := hm
  rw [writable, regAt_secRoll] at hw
  simp only [Bool.and_eq_true, Bool.not_eq_true', Bool.or_eq_true, beq_iff_eq] at hw
  obtain ⟨hwriter, hkey⟩ := hw
  have hkey : bits v.toNat 16 16 = Reg.secRoll.key := hkey.resolve_left (by decide)
  refine ⟨fun hlo hhi => secRollWrite_gives hq hs hwriter (if_pos ⟨hkey, hlo, hhi⟩), fun h => secRollWrite_gives hq hs hwriter (if_neg ?_)⟩
  rintro ⟨-, hlo, hhi⟩
  omega

/-- Settles O56: the ROM's branches, what a started image leaves, and the two conditions under which the count rises. -/
theorem bootAndRollback : Obligations.BootAndRollback := by
  intro w v failed bad s t hq
  refine ⟨fun hc hb ht => ?_, bootRom_stays hq, fun fused n => testedCores_st failed fused n, fun f0 f1 a b => slotOrder_cases,
    fun img n => imageAccepted_checks, fun slot img => startFirmware_leaves, fun img => rstBootGo_cases hq,
    fun hs hv => secRollWrite_gives hq hs rfl (writeRoll_wrongKey hv), secRollWrite_cases hq⟩
  obtain ⟨hbad, hslots⟩ := bootRom_gives hq hc hb (show t = romTested failed bad s from ht)
  obtain ⟨hsome, hnone⟩ := bootSlots_cases t
  exact ⟨hbad, fun k hk => hsome k hk ▸ hslots, fun h => hnone h ▸ hslots⟩

end Sys2Proof.Machine
end

