-- ==== Sys2Proof/Proofs/PipeRows.lean ====
section
/-! Routes, parameter sets, frames in service and their stripes. -/

namespace Sys2Proof.Machine

open Sys2Proof

/-! ## Folds that carry a state beside a result -/

theorem foldl_pair_setPending {α β : Type} {f : β × State → α → β × State}
    (h : ∀ q b s a, f (b, setPending q s) a = ((f (b, s) a).1, setPending q (f (b, s) a).2)) (l : List α) (q : List Instr) (b : β) (s : State) :
    l.foldl f (b, setPending q s) = ((l.foldl f (b, s)).1, setPending q (l.foldl f (b, s)).2) := by
  induction l generalizing b s with
  | nil => rfl
  | cons a l ih =>
    rw [List.foldl_cons, List.foldl_cons, h]
    exact ih _ _

/-! ## Parameter sets -/

/-- One table of a parameter set is read. -/
def readTable (m : MemRun) (acc : List AccessResult × State) (t : ℕ × ℕ) : List AccessResult × State :=
  let (r, s) := if t.2 = 0 then ({ status := Stat.ok, data := [] }, acc.2) else runRead m t.1 t.2 acc.2
  (acc.1 ++ [r], s)

theorem readTable_setPending (m : MemRun) (q : List Instr) (b : List AccessResult) (s : State) (t : ℕ × ℕ) :
    readTable m (b, setPending q s) t = ((readTable m (b, s) t).1, setPending q (readTable m (b, s) t).2) := by
  unfold readTable
  by_cases h : t.2 = 0
  · simp only [if_pos h]
  · simp only [if_neg h, runRead_setPending]

theorem loadSet_setPending (m : MemRun) (k c a : ℕ) (q : List Instr) (s : State) :
    loadSet m k c a (setPending q s) = ((loadSet m k c a s).1, (loadSet m k c a s).2.1, setPending q (loadSet m k c a s).2.2) := by
  have htables (l : List (ℕ × ℕ)) (t : State) := foldl_pair_setPending (readTable_setPending m) l q [] t
  unfold readTable at htables
  have hmapped (a n : ℕ) (t : State) : setMapped (setPending q t) a n = setMapped t a n := rfl
  have harea : ctxArea (setPending q s) k c = ctxArea s k c := rfl
  unfold loadSet
  simp only [harea, hmapped, runRead_setPending, htables]
  (repeat' split) <;> rfl

/-! ## Stripes -/

/-- The taps' lines of a stripe enter their buffers. -/
def putTaps (k : ℕ) (set : Option ParamSet) (b : Binding) (j : ℕ) (header : List Byte) (line : ℕ → ℕ → List (List Byte)) (s : State) : State :=
  (List.range 2).foldl (fun s i =>
    match tapOf set i, tapBuffer b i with
    | some (tap, form), some (base, bytes, pitch) => pipeCount k 3 1 (putStripe (base + j * bytes) pitch header (line tap form) s)
    | _, _ => s) s

/-- A stripe that stands in its buffers is counted. -/
def stripePut (k m unfixed : ℕ) (item : Word) (f : Serving → Serving) (s : State) : State :=
  modServing k f (pipeCount k 2 1 (pipeCount k 1 m ((List.range unfixed).foldl (fun s _ => setFlag (pipeStatus k) 6 s) (bindItem item s))))

/-- A stripe is signalled. -/
def stripeSignal (k : ℕ) (b : Binding) (item : Word) (s : State) : State :=
  let (r, s) := signal b.handle (leAt b.payload 0x12 2) 1 (some item) (some (.pipe k)) s
  match r with
  | .waits => modServing k (fun v => { v with sigWait := true }) s
  | .done _ => settlePipe k s

theorem putTaps_setPending (k : ℕ) (set : Option ParamSet) (b : Binding) (j : ℕ) (header : List Byte) (line : ℕ → ℕ → List (List Byte))
    (q : List Instr) (s : State) : putTaps k set b j header line (setPending q s) = setPending q (putTaps k set b j header line s) := by
  unfold putTaps
  refine foldl_setPending _ (fun q s i => ?_) _ _ _
  split
  · rw [putStripe_setPending, pipeCount_setPending]
  · rfl

theorem stripePut_setPending (k m unfixed : ℕ) (item : Word) (f : Serving → Serving) (q : List Instr) (s : State) :
    stripePut k m unfixed item f (setPending q s) = setPending q (stripePut k m unfixed item f s) := by
  unfold stripePut
  rw [bindItem_setPending, foldl_setPending (fun s _ => setFlag (pipeStatus k) 6 s) (fun _ _ _ => rfl)]
  rfl

theorem stripeSignal_setPending (k : ℕ) (b : Binding) (item : Word) (q : List Instr) (s : State) :
    stripeSignal k b item (setPending q s) = setPending q (stripeSignal k b item s) := by
  unfold stripeSignal
  rw [signal_setPending]
  cases hr : signal b.handle (leAt b.payload 0x12 2) 1 (some item) (some (.pipe k)) s with
  | mk r t =>
    cases r with
    | waits => rfl
    | done st => exact settlePipe_setPending k q t

/-- What `writeStripe` does once the rows that it needs are there. -/
def stripeOf (k : ℕ) (v : Serving) (b : Binding) (j m : ℕ) (last rs : Bool) (rows : List Row) (t : List Row × State) : State :=
  let ys := (List.range m).map (· + v.doneLines)
  let gs := ys.map fun y => stagesOf v.set (isBayer v) (isRgb v) v.area v.phase t.1 y
  let unfixed := (gs.map (·.unfixed)).sum
  let flags := b2n last + 2 * b2n v.fit + 4 * b2n (rs && stageOn v.set 1 && v.area) + 8 * b2n (unfixed != 0)
  let header := stripeHeader v m flags
  let main := gs.map fun g => outLine (outFmt v.set) g.out
  stripeSignal k b v.item (stripePut k m unfixed v.item
    (fun v => { v with buf := none, t1 := t.1, doneLines := v.doneLines + m, crc := crc64 v.crc main.flatten, restart := rs, lastSig := last })
    (putTaps k v.set b j header
      (fun tap form => (List.zip ys gs).map fun e => outLine form (tapRow e.2 (rows.getD e.1 []) (t.1.getD e.1 []) tap))
      (putStripe (leAt b.payload 0 8 + j * leAt b.payload 8 4) (leAt b.payload 0x14 4) header main t.2)))

theorem writeStripe_eq (k : ℕ) (v : Serving) (b : Binding) (j m : ℕ) (last : Bool) (s : State) :
    writeStripe k v b j m last s = stripeOf k v b j m last (restarts s v) (v.raw.map (unpackRow (rawBits v.fmt) (rawChans v.fmt)))
      (((List.range (if allTaken s v then (v.raw.map (unpackRow (rawBits v.fmt) (rawChans v.fmt))).length
        else v.doneLines + m + lookColour v)).drop v.t1.length).foldl
          (nextT1 (restarts s v) v (v.raw.map (unpackRow (rawBits v.fmt) (rawChans v.fmt)))) (v.t1, s)) := by
  unfold writeStripe stripeOf stripeSignal stripePut putTaps
  rfl

theorem stripeOf_setPending (k : ℕ) (v : Serving) (b : Binding) (j m : ℕ) (last rs : Bool) (rows t1 : List Row) (q : List Instr) (s : State) :
    stripeOf k v b j m last rs rows (t1, setPending q s) = setPending q (stripeOf k v b j m last rs rows (t1, s)) := by
  unfold stripeOf
  dsimp only
  rw [putStripe_setPending, putTaps_setPending, stripePut_setPending, stripeSignal_setPending]

theorem writeStripe_setPending (k : ℕ) (v : Serving) (b : Binding) (j m : ℕ) (last : Bool) (q : List Instr) (s : State) :
    writeStripe k v b j m last (setPending q s) = setPending q (writeStripe k v b j m last s) := by
  have hrows (l : List ℕ) (t : State) := foldl_pair_setPending (f := nextT1 (restarts s v) v (v.raw.map (unpackRow (rawBits v.fmt) (rawChans v.fmt))))
    (fun q acc s y => nextT1_setPending _ v _ acc y q s) l q v.t1 t
  have hrestarts : restarts (setPending q s) v = restarts s v := rfl
  have htaken : allTaken (setPending q s) v = allTaken s v := rfl
  rw [writeStripe_eq, writeStripe_eq, hrestarts, htaken, hrows, stripeOf_setPending]

/-! ## Routes and parameter sets -/

theorem ispRouteWrite_cases {w : Writer} {k : ℕ} {v : Word} {s : State} (hq : Quiet s) :
    (k % 2 = 1 → k < 12 → MayWrite s w (Reg.ispRoute.off (k / 2) 0) v →
      (routeRefused s k v.toNat = false → Gives (.ispRouteWrite w k v) s (wr (Reg.ispRoute.off (k / 2) 0) (v.toNat &&& 0x77) s))
      ∧ (routeRefused s k v.toNat = true → Gives (.ispRouteWrite w k v) s (setFlag (pipeStatus k) 7 s)))
    ∧ (k % 2 = 0 ∨ 12 ≤ k → Gives (.ispRouteWrite w k v) s s) := by
  refine ⟨fun hodd hk hm => ?_, fun h => ?_⟩
  · have hno : ¬(k % 2 = 0 ∨ 12 ≤ k) := by omega
    have hgives {t : State} (h : writeRoute k v.toNat s = t) (ht : t.tasks = s.tasks) : Gives (.ispRouteWrite w k v) s t := by
      refine gives_of_effect (by unfold exec; rfl) hq ?_ ht
      rw [if_neg hno, gate_pass_pending [] hm, writeRoute_setPending, h]
    exact ⟨fun h => hgives (if_neg (by rw [h]; exact Bool.false_ne_true)) rfl, fun h => hgives (if_pos h) rfl⟩
  · refine gives_of_effect (by unfold exec; rfl) hq ?_ rfl
    exact if_pos h

theorem ispParamLoadGo_cases {w : Writer} {k c : ℕ} {v : Word} {s : State} (hq : Quiet s) (hk : k < 14) (hc : c < 2)
    (hm : MayWrite s w (Reg.ispPctl.off k c) v) :
    (v.getLsbD 0 = false → Gives (.ispParamLoadGo w k c v) s s)
      ∧ (v.getLsbD 0 = true → (ctxOf s k c).loadingSet = false → Gives (.ispParamLoadGo w k c v) s
          (modCtx k c (fun x => { x with pending := none, loadingSet := true, loadAddr := rd s (Reg.ispPaddr.off k c) * 256 }) s))
      ∧ (v.getLsbD 0 = true → (ctxOf s k c).loadingSet = true → Gives (.ispParamLoadGo w k c v) s
          (wrF (Reg.ispPctl.off k c) 8 8 Stat.badFormat (setFlag (pipeStatus k) 1 s))) := by
  have hno : ¬(14 ≤ k ∨ 2 ≤ c) := by omega
  have hbit : bitOf v.toNat 0 = v.getLsbD 0 := rfl
  have hgives {t : State} (h : writePctl k c v.toNat s = t) (ht : t.tasks = s.tasks) : Gives (.ispParamLoadGo w k c v) s t := by
    refine gives_of_effect (by unfold exec; rfl) hq ?_ ht
    rw [if_neg hno, gate_pass_pending [] hm, writePctl_setPending, h]
  refine ⟨fun h => hgives ?_ rfl, fun h hl => hgives ?_ rfl, fun h hl => hgives ?_ rfl⟩
  · rw [writePctl, hbit, h]
    rfl
  · rw [writePctl, hbit, h, hl]
    rfl
  · rw [writePctl, hbit, h, hl]
    rfl

theorem readTable_tasks (m : MemRun) (acc : List AccessResult × State) (t : ℕ × ℕ) : (readTable m acc t).2.tasks = acc.2.tasks := by
  unfold readTable
  by_cases h : t.2 = 0
  · simp only [if_pos h]
  · simp only [if_neg h, runRead_tasks]

theorem foldl_snd_keeps {α β γ : Type} {f : β × State → α → β × State} (g : State → γ) (h : ∀ acc a, g (f acc a).2 = g acc.2) (l : List α)
    (acc : β × State) : g (l.foldl f acc).2 = g acc.2 := by
  induction l generalizing acc with
  | nil => rfl
  | cons a l ih => rw [List.foldl_cons, ih, h]

theorem loadSet_tasks (m : MemRun) (k c a : ℕ) (s : State) : (loadSet m k c a s).2.2.tasks = s.tasks := by
  have htables (l : List (ℕ × ℕ)) (t : State) := foldl_snd_keeps State.tasks (readTable_tasks m) l ([], t)
  unfold readTable at htables
  unfold loadSet
  dsimp only
  split
  · rfl
  split
  · exact runRead_tasks _ _ _ _
  split
  · exact runRead_tasks _ _ _ _
  split
  · exact runRead_tasks _ _ _ _
  split
  · exact (htables _ _).trans (runRead_tasks _ _ _ _)
  split <;> exact (htables _ _).trans (runRead_tasks _ _ _ _)

theorem ispParamLoadDone_gives {m : MemRun} {k c st : ℕ} {set : Option ParamSet} {s s1 : State} (hq : Quiet s) (hk : k < 14) (hc : c < 2)
    (hu : pipeUp s k = true) (hl : (ctxOf s k c).loadingSet = true)
    (h : loadSet m k c (ctxOf s k c).loadAddr (seeEcc m.ecc s) = (st, set, s1)) :
    Gives (.ispParamLoadDone k c m) s (setFlag (pipeStatus k) (if st = Stat.ok then 0 else 1) (wrF (Reg.ispPctl.off k c) 8 8 st
        (modCtx k c (fun x => { x with loadingSet := false, pending := set }) s1))) := by
  have hno : ¬(14 ≤ k ∨ 2 ≤ c ∨ pipeUp s k = false ∨ (ctxOf s k c).loadingSet = false) := by
    rw [hu, hl]
    simp only [Bool.true_eq_false, or_false, not_or]
    omega
  have htasks : s1.tasks = s.tasks := by
    have hset := loadSet_tasks m k c (ctxOf s k c).loadAddr (seeEcc m.ecc s)
    rw [h] at hset
    exact hset.trans (seeEcc_tasks _ _)
  refine gives_of_effect (by unfold exec; rfl) hq ?_ htasks
  refine (if_neg hno).trans ?_
  rw [ctxOf_setPending, seeEcc_setPending, loadSet_setPending, h]
  rfl

theorem loadSet_cases (m : MemRun) (k c a : ℕ) (s : State) :
    (setMapped s a 128 = false → loadSet m k c a s = (Stat.unmapped, none, s))
      ∧ ((loadSet m k c a s).2.1.isSome = true → (loadSet m k c a s).1 = Stat.ok) := by
  refine ⟨fun h => ?_, ?_⟩
  · unfold loadSet
    exact if_pos (by rw [h]; rfl)
  · unfold loadSet
    dsimp only
    (repeat' split) <;> simp

theorem applyPending_some {k c : ℕ} {x : ParamSet} {s : State} (h : (ctxOf s k c).pending = some x) :
    applyPending k c s = setFlag (pipeStatus k) 2
      (modCtx k c (fun y => { y with active := some x, pending := none, gen := (y.gen + 1) % 2 ^ 32, refOk := false }) s) := by
  unfold applyPending
  rw [h]

/-! ## The start of a frame -/

theorem settlePipe_idle {k : ℕ} {s : State} (h : (pipeAt s k).serving = none) : settlePipe k s = s := by
  unfold settlePipe
  rw [h]

theorem serveFrame_tasks (k p : ℕ) (f : Frame) (s : State) : (serveFrame k p f s).tasks = s.tasks := by
  unfold serveFrame
  simp only [apply_ite State.tasks, dropUnbound_tasks, modServed_tasks, takeLines_tasks, modPipe_tasks, pipeCount_tasks, setFlag_tasks,
    applyPending_tasks, ite_self]

theorem settlePipe_tasks (k : ℕ) (s : State) : (settlePipe k s).tasks = s.tasks := by
  unfold settlePipe
  split
  · split
    · exact finishFrame_tasks _ _ _
    · exact takeLines_tasks _ _
  · rfl

/-- What PIPELINE_FRAME_START does once the pipeline is settled. -/
def frameStarted (k : ℕ) (s : State) : State :=
  if (pipeAt s k).serving.isSome then s
  else match oldestFrame (waitingFrames s k) with
    | some (p, f) => if f.lines.isEmpty && f.st != 2 then s else serveFrame k p f s
    | none => s

theorem pipelineFrameStart_gives {k : ℕ} {ecc : List EccHit} {s t u : State} (hq : Quiet s) (hk : k < 14) (hu : u = seeEcc ecc s)
    (hup : pipeUp s k = true) (hs : (pipeAt u k).serving = none) (h : frameStarted k (setPending [] u) = setPending [] t) (ht : t.tasks = u.tasks) :
    Gives (.pipelineFrameStart k ecc) s t := by
  have hno : ¬(14 ≤ k ∨ pipeUp s k = false) := by
    rw [hup]
    simp only [Bool.true_eq_false, or_false]
    omega
  subst hu
  refine gives_of_effect (by unfold exec; rfl) hq ?_ (ht.trans (seeEcc_tasks _ _))
  refine (if_neg hno).trans ?_
  rw [seeEcc_setPending, settlePipe_setPending, settlePipe_idle hs]
  exact h

theorem frameStart_cases {k : ℕ} {ecc : List EccHit} {s u : State} (hq : Quiet s) (hk : k < 14) (hu : u = seeEcc ecc s)
    (hup : pipeUp s k = true) (hs : (pipeAt u k).serving = none) :
    (∀ p f, oldestFrame (waitingFrames u k) = some (p, f) → f.lines ≠ [] ∨ f.st = 2 → Gives (.pipelineFrameStart k ecc) s (serveFrame k p f u))
      ∧ (waitingFrames u k = [] → Gives (.pipelineFrameStart k ecc) s u) := by
  have hidle : ¬(pipeAt (setPending [] u) k).serving.isSome = true := by
    show ¬(pipeAt u k).serving.isSome = true
    rw [hs]
    exact Bool.false_ne_true
  have hframes : waitingFrames (setPending [] u) k = waitingFrames u k := rfl
  refine ⟨fun p f hf hl => pipelineFrameStart_gives hq hk hu hup hs ?_ (serveFrame_tasks _ _ _ _),
    fun hw => pipelineFrameStart_gives hq hk hu hup hs ?_ rfl⟩
  · have hdue : ¬(f.lines.isEmpty && f.st != 2) = true := by
      rcases hl with hl | hl <;> simp [hl]
    rw [frameStarted, if_neg hidle, hframes, hf]
    exact (if_neg hdue).trans (serveFrame_setPending _ _ _ _ _)
  · rw [frameStarted, if_neg hidle, hframes, hw]
    rfl

/-! ## A buffer for a stripe -/

/-- The pipeline asks its token for a buffer. -/
def askBuffer (k : ℕ) (b : Binding) (s : State) : State :=
  serveToken b.handle (leAt b.payload 0x10 2)
    (modTok b.handle (leAt b.payload 0x10 2) (fun q => { q with waiters := q.waiters ++ [{ who := .pipe k, amt := 1, item := none }] })
      (modServing k (fun v => { v with waiting := true }) s))

/-- The buffer that a grant gives. -/
def takeBuffer (k : ℕ) (b : Binding) (s : State) : State :=
  match (pipeAt s k).serving with
  | some v => if v.granted then assignBuffer k b s else s
  | none => s

/-- What STRIPE_BUFFER_ACQUIRE does for the frame in service. -/
def acquireFor (k : ℕ) (v : Serving) (s : State) : State :=
  match v.bind with
  | none => letFrameGo k 5 v (dropRef k v (pipeCount k 5 (v.raw.length - v.doneLines) s))
  | some b =>
    if v.granted then assignBuffer k b s
    else if v.buf.isSome || v.waiting || v.sigWait || !stripeDue s v then s
    else if pastDeadline s v then
      letFrameGo k 4 v (dropRef k v (pipeCount k 4 (v.raw.length - v.doneLines) (setFlag (pipeStatus k) 5 s)))
    else takeBuffer k b (askBuffer k b s)

theorem takeBuffer_setPending (k : ℕ) (b : Binding) (q : List Instr) (s : State) :
    takeBuffer k b (setPending q s) = setPending q (takeBuffer k b s) := by
  have hat : pipeAt (setPending q s) k = pipeAt s k := rfl
  unfold takeBuffer
  rw [hat]
  split
  · rw [assignBuffer_setPending, ite_setPending]
  · rfl

theorem acquireFor_setPending (k : ℕ) (v : Serving) (q : List Instr) (s : State) :
    acquireFor k v (setPending q s) = setPending q (acquireFor k v s) := by
  have hask (b : Binding) : askBuffer k b (setPending q s) = setPending q (askBuffer k b s) := by
    unfold askBuffer
    exact serveToken_setPending _ _ _ (modTok _ _ _ (modServing k _ s))
  unfold acquireFor
  split
  · simp only [pipeCount_setPending, dropRef_setPending, letFrameGo_setPending]
  · simp only [hask, takeBuffer_setPending, assignBuffer_setPending, setFlag_setPending, pipeCount_setPending, dropRef_setPending,
      letFrameGo_setPending, stripeDue_setPending, pastDeadline_setPending, ite_setPending]

/-- STRIPE_BUFFER_ACQUIRE for a frame in service on a settled pipeline. -/
theorem stripeBufferAcquire_gives {k : ℕ} {m : MemRun} {v : Serving} {s t u : State} (hq : Quiet s) (hk : k < 14) (hu : u = seeEcc m.ecc s)
    (hup : pipeUp s k = true) (hset : settlePipe k u = u) (hs : (pipeAt u k).serving = some v) (h : acquireFor k v u = t) (ht : t.tasks = u.tasks) :
    Gives (.stripeBufferAcquire k m) s t := by
  have hno : ¬(14 ≤ k ∨ pipeUp s k = false) := by
    rw [hup]
    simp only [Bool.true_eq_false, or_false]
    omega
  subst hu
  refine gives_of_effect (by unfold exec; rfl) hq ?_ (ht.trans (seeEcc_tasks _ _))
  refine (if_neg hno).trans ?_
  rw [seeEcc_setPending, settlePipe_setPending, hset, ← h, ← acquireFor_setPending]
  show (match (pipeAt (seeEcc m.ecc s) k).serving with | none => _ | some v => _) = _
  rw [hs]
  rfl

theorem tokOf_modTok_same {h i : ℕ} {f : Token → Token} {s : State} (hf : ∀ k : Token, (f k).handle = k.handle ∧ (f k).idx = k.idx) :
    tokOf (modTok h i f s) h i = (tokOf s h i).map f :=
  find_updFirst_same _ fun k => by rw [(hf k).1, (hf k).2]

theorem modTok_congr {h i : ℕ} {k : Token} {f g : Token → Token} {s : State} (hk : tokOf s h i = some k) (hfg : f k = g k) :
    modTok h i f s = modTok h i g s := by
  unfold modTok
  rw [updFirst_eq_of_find hk hfg]

theorem lowWater_keeps {β : Type} (g : State → β) (hcaddy : ∀ f s, g (modEng f s) = g s) (hstatus : ∀ s, g (setFlag Reg.cadStatus.base 0 s) = g s)
    (hcount : ∀ s, g (bump Reg.cadSnapCnt.base 4 s) = g s) (hevent : ∀ h l s, g (postEvent 0x0B 1 h 0 0 l s) = g s) (h i : ℕ) (s : State) :
    g (lowWater h i s) = g s := by
  unfold lowWater
  split
  · rfl
  · refine foldl_keeps g (fun s c => ?_) _ s
    dsimp only
    split
    · exact hcaddy _ _
    split
    · rw [hevent, hcount, hstatus, hcaddy]
    · rfl

theorem lowWater_tokens (h i : ℕ) (s : State) : (lowWater h i s).tokens = s.tokens :=
  lowWater_keeps State.tokens (fun _ _ => rfl) (fun _ => rfl) (fun _ => rfl) (fun _ _ _ => (eventFrame_postEvent _ _ _ _ _ _ _).get State.tokens) h i s

theorem lowWater_pipes (h i : ℕ) (s : State) : (lowWater h i s).pipes = s.pipes :=
  lowWater_keeps State.pipes (fun _ _ => rfl) (fun _ => rfl) (fun _ => rfl) (fun _ _ _ => (eventFrame_postEvent _ _ _ _ _ _ _).get State.pipes) h i s

theorem lowWater_tasks (h i : ℕ) (s : State) : (lowWater h i s).tasks = s.tasks :=
  lowWater_keeps State.tasks (fun _ _ => rfl) (fun _ => rfl) (fun _ => rfl) (fun _ _ _ => (eventFrame_postEvent _ _ _ _ _ _ _).get State.tasks) h i s

theorem lt_pipes_of_serving {k : ℕ} {v : Serving} {s : State} (h : (pipeAt s k).serving = some v) : k < s.pipes.length := by
  by_contra hk
  rw [pipeAt, List.getD_eq_default _ _ (Nat.not_lt.mp hk)] at h
  cases h

theorem serving_modServing {k : ℕ} {v : Serving} {f : Serving → Serving} {s : State} (h : (pipeAt s k).serving = some v) :
    (pipeAt (modServing k f s) k).serving = some (f v) := by
  have hat : pipeAt (modServing k f s) k = { pipeAt s k with serving := (pipeAt s k).serving.map f } :=
    getD_modAt_same _ _ (lt_pipes_of_serving h)
  rw [hat, h]
  rfl

/-- The waiter that a pipeline puts before its token. -/
def pipeWaiter (k : ℕ) : TokWaiter := { who := .pipe k, amt := 1, item := none }

theorem nextWaiter_pipe (t : Token) (k : ℕ) : nextWaiter t [] [pipeWaiter k] = if t.count = 0 then none else some (pipeWaiter k) := by
  unfold nextWaiter
  show (if 1 ≤ t.count then some (pipeWaiter k) else none) = _
  by_cases h : t.count = 0
  · rw [if_pos h, if_neg (by omega)]
  · rw [if_neg h, if_pos (by omega)]

/-- A token that serves the one pipeline before it. -/
def granted (h i k : ℕ) (s : State) : State :=
  modServing k (fun v => { v with waiting := false, granted := true }) (lowWater h i
    (modTok h i (fun t => { t with waiters := dropFirst (fun x => x == pipeWaiter k) t.waiters, count := t.count - 1 }) s))

theorem serveToken_pipe {h i k : ℕ} {t : Token} {s : State} (ht : tokOf s h i = some t) (hw : t.waiters = [pipeWaiter k]) :
    serveToken h i s = if t.count = 0 then s else granted h i k s := by
  have hone : serveOne h i s = if t.count = 0 then none else some (granted h i k s) := by
    unfold serveOne
    rw [ht]
    dsimp only
    rw [hw, nextWaiter_pipe]
    by_cases hc : t.count = 0
    · rw [if_pos hc, if_pos hc]
    · rw [if_neg hc, if_neg hc]
      rfl
  unfold serveToken
  rw [ht]
  show serveLoop t.waiters.length h i s = _
  rw [hw]
  show serveLoop (0 + 1) h i s = _
  rw [serveLoop, hone]
  by_cases hc : t.count = 0
  · rw [if_pos hc, if_pos hc]
  · rw [if_neg hc, if_neg hc]
    rfl

theorem granted_tokOf {h i k : ℕ} {t : Token} {s : State} (ht : tokOf s h i = some t) :
    (tokOf (granted h i k s) h i).map (·.count) = some (t.count - 1) := by
  have htok : tokOf (granted h i k s) h i
      = tokOf (modTok h i (fun t => { t with waiters := dropFirst (fun x => x == pipeWaiter k) t.waiters, count := t.count - 1 }) s) h i := by
    unfold tokOf
    rw [show (granted h i k s).tokens = _ from lowWater_tokens h i _]
  rw [htok]
  refine (congrArg _ (tokOf_modTok_same (by intro; exact ⟨rfl, rfl⟩))).trans ?_
  rw [ht]
  rfl

theorem granted_serving {h i k : ℕ} {v : Serving} {s : State} (hv : (pipeAt s k).serving = some v) :
    (pipeAt (granted h i k s) k).serving = some { v with waiting := false, granted := true } := by
  refine serving_modServing ?_
  unfold pipeAt
  rw [lowWater_pipes]
  exact hv

theorem askBuffer_waiting {k : ℕ} {b : Binding} {t : Token} {s : State} (ht : tokOf s b.handle (leAt b.payload 0x10 2) = some t)
    (hw : t.waiters = []) :
    tokOf (modTok b.handle (leAt b.payload 0x10 2) (fun q => { q with waiters := q.waiters ++ [pipeWaiter k] })
      (modServing k (fun v => { v with waiting := true }) s)) b.handle (leAt b.payload 0x10 2) = some { t with waiters := [pipeWaiter k] } := by
  refine (tokOf_modTok_same (by intro; exact ⟨rfl, rfl⟩)).trans ?_
  rw [show tokOf (modServing k _ s) b.handle (leAt b.payload 0x10 2) = some t from ht]
  show some { t with waiters := t.waiters ++ [pipeWaiter k] } = _
  rw [hw]
  rfl

theorem acquire_due {k : ℕ} {v : Serving} {b : Binding} {s : State} (hb : v.bind = some b) (hg : v.granted = false) (hbuf : v.buf = none)
    (hw : v.waiting = false) (hsw : v.sigWait = false) (hd : stripeDue s v = true) :
    (pastDeadline s v = true → acquireFor k v s
        = letFrameGo k 4 v (dropRef k v (pipeCount k 4 (v.raw.length - v.doneLines) (setFlag (pipeStatus k) 5 s))))
      ∧ (pastDeadline s v = false → acquireFor k v s = takeBuffer k b (askBuffer k b s)) := by
  have hgo : ¬(v.buf.isSome || v.waiting || v.sigWait || !stripeDue s v) = true := by rw [hbuf, hw, hsw, hd]; decide
  unfold acquireFor
  rw [hb]
  dsimp only
  rw [if_neg (by rw [hg]; exact Bool.false_ne_true), if_neg hgo]
  exact ⟨fun h => if_pos h, fun h => if_neg (by rw [h]; exact Bool.false_ne_true)⟩

/-- A pipeline whose token is empty stands before it. -/
theorem takeBuffer_waits {k : ℕ} {v : Serving} {b : Binding} {t : Token} {s : State} (hs : (pipeAt s k).serving = some v) (hg : v.granted = false)
    (ht : tokOf s b.handle (leAt b.payload 0x10 2) = some t) (hw : t.waiters = []) (hc : t.count = 0) :
    takeBuffer k b (askBuffer k b s) = modTok b.handle (leAt b.payload 0x10 2) (fun q => { q with waiters := [pipeWaiter k] })
      (modServing k (fun y => { y with waiting := true }) s) := by
  have hask : askBuffer k b s = modTok b.handle (leAt b.payload 0x10 2) (fun q => { q with waiters := [pipeWaiter k] })
      (modServing k (fun y => { y with waiting := true }) s) := by
    refine (serveToken_pipe (askBuffer_waiting ht hw) rfl).trans ((if_pos hc).trans (modTok_congr (k := t) ht ?_))
    rw [hw]
    rfl
  have hserv : (pipeAt (askBuffer k b s) k).serving = some { v with waiting := true } := by
    rw [hask]
    exact serving_modServing hs
  unfold takeBuffer
  rw [hserv]
  dsimp only
  rw [if_neg (by rw [hg]; exact Bool.false_ne_true), hask]

/-- A pipeline whose token holds a buffer takes it. -/
theorem takeBuffer_takes {k : ℕ} {v : Serving} {b : Binding} {t : Token} {s : State} (hs : (pipeAt s k).serving = some v) (hg : v.granted = false)
    (hwait : v.waiting = false) (ht : tokOf s b.handle (leAt b.payload 0x10 2) = some t) (hw : t.waiters = []) (hc : t.count ≠ 0) :
    ((tokOf (takeBuffer k b (askBuffer k b s)) b.handle (leAt b.payload 0x10 2)).map (·.count) = some (t.count - 1))
      ∧ (pipeAt (takeBuffer k b (askBuffer k b s)) k).serving
          = some { v with buf := some (b.stripes % max 1 (leAt b.payload 0xC 2)), bind := some { b with stripes := b.stripes + 1 } } := by
  have hask : askBuffer k b s = granted b.handle (leAt b.payload 0x10 2) k (modTok b.handle (leAt b.payload 0x10 2)
      (fun q => { q with waiters := q.waiters ++ [pipeWaiter k] }) (modServing k (fun v => { v with waiting := true }) s)) :=
    (serveToken_pipe (askBuffer_waiting ht hw) rfl).trans (if_neg hc)
  have htok : (tokOf (askBuffer k b s) b.handle (leAt b.payload 0x10 2)).map (·.count) = some (t.count - 1) := by
    rw [hask]
    exact granted_tokOf (t := { t with waiters := [pipeWaiter k] }) (askBuffer_waiting ht hw)
  have hserv : (pipeAt (askBuffer k b s) k).serving = some { v with waiting := false, granted := true } := by
    have hwaiting : (pipeAt (modTok b.handle (leAt b.payload 0x10 2) (fun q => { q with waiters := q.waiters ++ [pipeWaiter k] })
        (modServing k (fun v => { v with waiting := true }) s)) k).serving = some { v with waiting := true } := serving_modServing hs
    rw [hask]
    exact (granted_serving hwaiting).trans rfl
  have hbuf : takeBuffer k b (askBuffer k b s) = assignBuffer k b (askBuffer k b s) := by
    unfold takeBuffer
    rw [hserv]
    rfl
  rw [hbuf]
  refine ⟨htok, ?_⟩
  refine (serving_modServing (s := { askBuffer k b s with
    binds := updFirst (fun x => x.ord == b.ord) (fun x => { x with stripes := x.stripes + 1 }) (askBuffer k b s).binds }) hserv).trans ?_
  cases v
  dsimp only at hg hwait
  subst hg hwait
  rfl

theorem takeBuffer_tasks (k : ℕ) (b : Binding) (s : State) : (takeBuffer k b s).tasks = s.tasks := by
  unfold takeBuffer
  split
  · split
    · exact assignBuffer_tasks _ _ _
    · rfl
  · rfl

theorem askBuffer_tasks {k : ℕ} {b : Binding} {t : Token} {s : State} (ht : tokOf s b.handle (leAt b.payload 0x10 2) = some t)
    (hw : t.waiters = []) : (askBuffer k b s).tasks = s.tasks := by
  have hask := serveToken_pipe (askBuffer_waiting (k := k) ht hw) rfl
  unfold askBuffer
  refine (congrArg State.tasks hask).trans ?_
  split
  · rfl
  · exact lowWater_tasks _ _ _

theorem stripeBuffer_due {k : ℕ} {m : MemRun} {x : Serving} {b : Binding} {s u : State} (hq : Quiet s) (hk : k < 14) (hu : u = seeEcc m.ecc s)
    (hup : pipeUp s k = true) (hset : settlePipe k u = u) (hs : (pipeAt u k).serving = some x) (hb : x.bind = some b) (hg : x.granted = false)
    (hbuf : x.buf = none) (hw : x.waiting = false) (hsw : x.sigWait = false) (hd : stripeDue u x = true) :
    (pastDeadline u x = true → Gives (.stripeBufferAcquire k m) s
        (letFrameGo k 4 x (dropRef k x (pipeCount k 4 (x.raw.length - x.doneLines) (setFlag (pipeStatus k) 5 u)))))
      ∧ (∀ tk, pastDeadline u x = false → tokOf u b.handle (leAt b.payload 0x10 2) = some tk → tk.waiters = [] →
        (tk.count = 0 → Gives (.stripeBufferAcquire k m) s
          (modTok b.handle (leAt b.payload 0x10 2) (fun q => { q with waiters := [{ who := .pipe k, amt := 1, item := none }] })
            (modServing k (fun y => { y with waiting := true }) u)))
        ∧ (tk.count ≠ 0 → ∃ t, Gives (.stripeBufferAcquire k m) s t
            ∧ (tokOf t b.handle (leAt b.payload 0x10 2)).map (·.count) = some (tk.count - 1)
            ∧ (pipeAt t k).serving = some { x with buf := some (b.stripes % max 1 (leAt b.payload 0xC 2))
                                                   bind := some { b with stripes := b.stripes + 1 } })) := by
  obtain ⟨hlate, htime⟩ := acquire_due (k := k) hb hg hbuf hw hsw hd
  refine ⟨fun h => stripeBufferAcquire_gives hq hk hu hup hset hs (hlate h) ?_, fun tk h ht htw => ⟨fun hc => ?_, fun hc => ⟨_, ?_, takeBuffer_takes hs hg hw ht htw hc⟩⟩⟩
  · rw [letFrameGo_tasks, dropRef_tasks]
    rfl
  · exact stripeBufferAcquire_gives hq hk hu hup hset hs ((htime h).trans (takeBuffer_waits hs hg ht htw hc)) rfl
  · refine stripeBufferAcquire_gives hq hk hu hup hset hs (htime h) ?_
    rw [takeBuffer_tasks, askBuffer_tasks ht htw]

theorem stripeBuffer_unbound {k : ℕ} {m : MemRun} {x : Serving} {s u : State} (hq : Quiet s) (hk : k < 14) (hu : u = seeEcc m.ecc s)
    (hup : pipeUp s k = true) (hset : settlePipe k u = u) (hs : (pipeAt u k).serving = some x) (hb : x.bind = none) :
    Gives (.stripeBufferAcquire k m) s (letFrameGo k 5 x (dropRef k x (pipeCount k 5 (x.raw.length - x.doneLines) u))) := by
  refine stripeBufferAcquire_gives hq hk hu hup hset hs ?_ ?_
  · unfold acquireFor
    rw [hb]
  · rw [letFrameGo_tasks, dropRef_tasks]
    rfl

/-! ## A stripe is written -/

/-- What STRIPE_WRITE_DONE does for the frame in service. -/
def writeDone (k : ℕ) (v : Serving) (s : State) : State :=
  match v.bind, v.buf, stripeReady s v with
  | some b, some j, some (m, last) => writeStripe k v b j m last s
  | _, _, _ => settlePipe k s

theorem stripeWriteDone_run {k : ℕ} {m : MemRun} {v : Serving} {s : State} (hk : k < 14) (hup : pipeUp s k = true)
    (hs : (pipeAt s k).serving = some v) :
    ∃ f, exec (.stripeWriteDone k m) s = run f s ∧ f (setPending [] s) = writeDone k v (setPending [] (seeEcc m.ecc s)) := by
  have hno : ¬(14 ≤ k ∨ pipeUp s k = false) := by
    rw [hup]
    simp only [Bool.true_eq_false, or_false]
    omega
  refine ⟨_, by unfold exec; rfl, ?_⟩
  refine (if_neg hno).trans ?_
  rw [← seeEcc_setPending]
  show (match (pipeAt s k).serving with | none => _ | some v => _) = _
  rw [hs]
  rfl

theorem stripeWriteDone_writes {k j lines : ℕ} {m : MemRun} {x : Serving} {b : Binding} {last : Bool} {s u : State} (hk : k < 14)
    (hu : u = seeEcc m.ecc s) (hup : pipeUp s k = true) (hs : (pipeAt s k).serving = some x) (hb : x.bind = some b) (hj : x.buf = some j)
    (hr : stripeReady u x = some (lines, last)) : GivesThen (.stripeWriteDone k m) s (writeStripe k x b j lines last u) := by
  subst hu
  obtain ⟨f, hf, he⟩ := stripeWriteDone_run (m := m) hk hup hs
  refine givesThen_of_effect hf (he.trans ?_)
  have hready : stripeReady (setPending [] (seeEcc m.ecc s)) x = some (lines, last) := hr
  unfold writeDone
  rw [hb, hj, hready]
  exact writeStripe_setPending _ _ _ _ _ _ _ _

theorem stripeWriteDone_settles {k : ℕ} {m : MemRun} {x : Serving} {s : State} (hq : Quiet s) (hk : k < 14) (hup : pipeUp s k = true)
    (hs : (pipeAt s k).serving = some x) (hb : x.buf = none) : Gives (.stripeWriteDone k m) s (settlePipe k (seeEcc m.ecc s)) := by
  obtain ⟨f, hf, he⟩ := stripeWriteDone_run (m := m) hk hup hs
  refine gives_of_effect hf hq (he.trans ?_) ((settlePipe_tasks _ _).trans (seeEcc_tasks _ _))
  rw [← settlePipe_setPending]
  unfold writeDone
  rw [hb]
  cases x.bind <;> rfl

/-! ## The header of a stripe -/

theorem leAt_leBytes_append (n v : ℕ) (l : List Byte) : leAt (leBytes n v ++ l) 0 n = v % 256 ^ n := by
  rw [leAt, List.drop_zero, List.take_left' (length_leBytes n v), ofLe_leBytes]

theorem leAt_append (l r : List Byte) (o n : ℕ) : leAt (l ++ r) (l.length + o) n = leAt r o n := by
  rw [leAt, leAt, ← List.drop_drop, List.drop_left]

/-- A field behind the field at the front. -/
theorem leAt_behind {m o n : ℕ} (v : ℕ) (r : List Byte) (h : m ≤ o) : leAt (leBytes m v ++ r) o n = leAt r (o - m) n := by
  have hat := leAt_append (leBytes m v) r (o - m) n
  rw [length_leBytes, Nat.add_sub_cancel' h] at hat
  exact hat

theorem stripeHeader_fields {x : Serving} {lines flags : ℕ} {h : List Byte} (hh : h = stripeHeader x lines flags) :
    h.length = 64 ∧ leAt h 0 4 = x.item.toNat ∧ leAt h 4 4 = x.no % 2 ^ 32 ∧ leAt h 8 4 = x.doneLines % 2 ^ 32
      ∧ leAt h 12 2 = lines % 2 ^ 16 ∧ leAt h 14 2 = flags % 2 ^ 16 ∧ leAt h 16 1 = portCode x.port % 256
      ∧ leAt h 17 1 = outFmt x.set % 256 ∧ leAt h 18 2 = x.width % 2 ^ 16 ∧ leAt h 20 4 = x.gen % 2 ^ 32 := by
  subst hh
  unfold stripeHeader
  refine ⟨?_, ?_, ?_, ?_, ?_, ?_, ?_, ?_, ?_, ?_⟩
  · simp only [List.length_append, length_leBytes, List.length_replicate]
  all_goals
    simp only [List.append_assoc, leAt_leBytes_append, leAt_behind, Nat.reduceLeDiff, Nat.reduceSub, Nat.le_refl]
  · exact Nat.mod_eq_of_lt x.item.isLt
  all_goals rfl

/-- Settles O42: routes and parameter sets by their gates, frames and buffers by the frame in service, and the header field by field. -/
theorem imagePipelines : Obligations.ImagePipelines := by
  intro w m k v s hq hk
  refine ⟨(ispRouteWrite_cases hq).1, (ispRouteWrite_cases hq).2, fun c hc hm => ispParamLoadGo_cases hq hk hc hm,
    fun c st set s1 hc hup hl h => ispParamLoadDone_gives hq hk hc hup hl h, fun c a => loadSet_cases m k c a s, fun c x => applyPending_some,
    fun ecc p f u hu hup hs hf hl => (frameStart_cases hq hk hu hup hs).1 p f hf hl, fun ecc u hu hup hs hf => (frameStart_cases hq hk hu hup hs).2 hf,
    fun x b u hu hup hset hs hb hg hbuf hw hsw hd => stripeBuffer_due hq hk hu hup hset hs hb hg hbuf hw hsw hd,
    fun x u hu hup hset hs hb => stripeBuffer_unbound hq hk hu hup hset hs hb,
    fun x b j lines last u hu hup hs hb hj hr => stripeWriteDone_writes hk hu hup hs hb hj hr,
    fun x hup hs hb => stripeWriteDone_settles hq hk hup hs hb, fun x lines flags h hh => stripeHeader_fields hh⟩

end Sys2Proof.Machine
end

