-- ==== Sys2Proof/Proofs/EngRows.lean ====
section
/-! What the warp, region and sort engines do with a job, and its end. -/

namespace Sys2Proof.Machine

open Sys2Proof

/-! ## What SEC-DED's findings leave -/

/-- `s` with what the findings of SEC-DED may change taken from `t`. -/
def eccPart (s t : State) : State := { eventPart s t with sq := t.sq }

/-- `t` differs from `s` at most in what the findings of SEC-DED change. -/
def EccFrame (s t : State) : Prop := t = eccPart s t

theorem EccFrame.get {α : Type} {s t : State} (h : EccFrame s t) (f : State → α) : f t = f (eccPart s t) := congrArg f h

theorem EccFrame.refl (s : State) : EccFrame s s := rfl

theorem EccFrame.trans {s t u : State} (h : EccFrame s t) (k : EccFrame t u) : EccFrame s u := by
  unfold EccFrame at *
  rw [k, h]
  rfl

theorem EventFrame.ecc {s t : State} (h : EventFrame s t) : EccFrame s t := by
  unfold EccFrame
  rw [EventFrame] at h
  rw [h]
  rfl

theorem eccFrame_modSq (f : Square → Square) (s : State) : EccFrame s (modSq f s) := rfl

theorem eccFrame_foldl {α : Type} {f : State → α → State} (h : ∀ s a, EccFrame s (f s a)) (l : List α) (s : State) : EccFrame s (l.foldl f s) := by
  induction l generalizing s with
  | nil => exact .refl s
  | cons a l ih => exact (h s a).trans (ih _)

theorem eccFrame_retireBank (l : ℕ) (s : State) : EccFrame s (retireBank l s) := by
  unfold retireBank
  split
  · exact .refl s
  split
  · exact (eccFrame_modSq _ s).trans ((eventFrame_setFlag _ _ _).trans (eventFrame_postEvent _ _ _ _ _ _ _)).ecc
  · exact ((eventFrame_setFlag _ _ s).trans (eventFrame_postEvent _ _ _ _ _ _ _)).ecc

theorem eccFrame_noteCorrected (w : ℕ) (s : State) : EccFrame s (noteCorrected w s) := by
  unfold noteCorrected
  dsimp only
  split
  · split
    · refine EccFrame.trans ?_ (eccFrame_retireBank _ _)
      rfl
    · rfl
  · rfl

theorem eccFrame_noteUncorrectable (w : ℕ) (scrub : Bool) (s : State) : EccFrame s (noteUncorrectable w scrub s) := by
  unfold noteUncorrectable
  dsimp only
  split
  · exact .refl s
  split
  · refine EccFrame.trans ?_ (eccFrame_retireBank _ _)
    rfl
  · rfl

theorem eccFrame_applyEcc (touched : ℕ → Bool) (scrub : Bool) (l : List EccHit) (s : State) : EccFrame s (applyEcc touched scrub l s) := by
  unfold applyEcc
  refine eccFrame_foldl (fun s h => ?_) l s
  split
  · split
    · exact eccFrame_noteUncorrectable _ _ s
    split
    · exact .refl s
    · exact eccFrame_noteCorrected _ s
  · exact .refl s

theorem eccFrame_seeEcc (l : List EccHit) (s : State) : EccFrame s (seeEcc l s) := eccFrame_applyEcc _ _ l s

/-- `s` with what a write to the Square or LPDDR-6 may change taken from `t`. -/
def memPart (s t : State) : State := { eccPart s t with mem := t.mem }

/-- `t` differs from `s` at most in what a write to the Square or LPDDR-6 changes. -/
def MemFrame (s t : State) : Prop := t = memPart s t

theorem MemFrame.get {α : Type} {s t : State} (h : MemFrame s t) (f : State → α) : f t = f (memPart s t) := congrArg f h

theorem MemFrame.refl (s : State) : MemFrame s s := rfl

theorem MemFrame.trans {s t u : State} (h : MemFrame s t) (k : MemFrame t u) : MemFrame s u := by
  unfold MemFrame at *
  rw [k, h]
  rfl

theorem EccFrame.mem {s t : State} (h : EccFrame s t) : MemFrame s t := by
  unfold MemFrame
  rw [EccFrame] at h
  rw [h]
  rfl

theorem memFrame_writeLine (a : ℕ) (bs : List Byte) (ecc : List EccHit) (s : State) : MemFrame s (writeLine a bs ecc s).2 := by
  have hecc := (eccFrame_applyEcc (partWord a bs.length) false ecc s).mem
  unfold writeLine
  dsimp only
  split
  · exact hecc
  · exact hecc.trans rfl

theorem memFrame_writeAll (a : ℕ) (bs : List Byte) (ecc : List EccHit) (s : State) : MemFrame s (writeAll a bs ecc s).2 := by
  unfold writeAll
  generalize bs.length / 256 + 2 = f
  induction f generalizing a bs s with
  | zero => exact .refl s
  | succ f ih =>
    unfold writeMem
    cases bs with
    | nil => exact .refl s
    | cons b bs =>
      dsimp only
      split
      · exact (memFrame_writeLine _ _ _ s).trans (ih _ _ _)
      · exact memFrame_writeLine _ _ _ s

/-! ## An engine takes a job -/

theorem takeOp_next {kind eng : ℕ} {ops : List ℕ} {f : Job → State → State} {j : Job} {s : State} (hm : MayTake kind eng j s) :
    takeOp kind eng ops f s = if (kindOps kind).contains (opOf j.desc) && !ops.contains (opOf j.desc) then s
      else if (kindOps kind).contains (opOf j.desc) then f j (taken eng j s) else jobDone kind eng Stat.badFormat (taken eng j s) := by
  obtain ⟨hg, he, hr, hn⟩ := hm
  have hfree : ¬(!groupUp s (groupOfKind kind) || decide (engCount kind ≤ eng) || (runningOn s kind eng).isSome) = true := by
    rw [hg, hr, decide_eq_false (Nat.not_le.mpr he)]
    decide
  unfold takeOp
  rw [if_neg hfree, hn]
  rfl

/-- An engine takes a job of an operation that its row does. -/
theorem takeRun_gives {c : Instr} {kind eng : ℕ} {ops : List ℕ} {m : MemRun} {f : Job → State → State} {j : Job} {s t u : State}
    (hc : exec c s = run (takeRun kind eng ops m f) s) (hq : Quiet s) (hm : MayTake kind eng j s)
    (hk : (kindOps kind).contains (opOf j.desc) = true) (ho : ops.contains (opOf j.desc) = true) (hu : u = seeEcc m.ecc (taken eng j s))
    (hf : ∀ q s, f j (setPending q s) = setPending q (f j s)) (h : f j u = t) (ht : t.tasks = u.tasks) : Gives c s t := by
  have htasks : u.tasks = s.tasks := hu ▸ seeEcc_tasks _ _
  have hm' : MayTake kind eng j (setPending [] s) := hm
  refine gives_of_effect hc hq ?_ (ht.trans htasks)
  unfold takeRun
  rw [takeOp_next hm', hk, ho]
  show f j (seeEcc m.ecc (setPending [] (taken eng j s))) = _
  rw [seeEcc_setPending, ← hu, hf, h]

/-- An engine takes a job of an operation that its kind does not have. -/
theorem takeRun_unknown {c : Instr} {kind eng : ℕ} {ops : List ℕ} {m : MemRun} {f : Job → State → State} {j : Job} {s : State}
    (hc : exec c s = run (takeRun kind eng ops m f) s) (hq : Quiet s) (hm : MayTake kind eng j s)
    (hk : (kindOps kind).contains (opOf j.desc) = false) : Gives c s (jobDone kind eng Stat.badFormat (taken eng j s)) := by
  have hm' : MayTake kind eng j (setPending [] s) := hm
  refine gives_of_effect hc hq ?_ rfl
  unfold takeRun
  rw [takeOp_next hm', hk]
  rfl

/-! ## Warps -/

theorem drawRows_tasks (im : Image) (fmt size scale stride out : ℕ) (row : ℕ → List Point) (n i : ℕ) (s : State) :
    (drawRows im fmt size scale stride out row n i s).2.tasks = s.tasks := by
  induction n generalizing i s with
  | zero => rfl
  | succ n ih =>
    unfold drawRows
    split
    · rfl
    dsimp only
    split
    · exact (ih _ _).trans (writeAll_tasks _ _ _ _)
    · exact writeAll_tasks _ _ _ _

theorem warpDraw_tasks (eng : ℕ) (d : List Byte) (posAt : ℕ → ℕ → ℤ × ℤ) (s : State) : (warpDraw eng d posAt s).tasks = s.tasks := by
  simp only [warpDraw, jobDone_tasks, apply_ite State.tasks, count_tasks, drawRows_tasks, ite_self]

/-- What a mesh warp does once it stands on its engine. -/
def meshWarp (eng : ℕ) (j : Job) (s : State) : State :=
  let b := (blockOf s 1 j.task.handle (leAt j.desc 0x25 1)).elim [] (·.block)
  match warpStart s j true [(meshShort b j.desc, Stat.shape)] with
  | some st => jobDone 0 eng st s
  | none => warpDraw eng j.desc (meshPos b) s

/-- What a lens warp does once it stands on its engine. -/
def lensWarp (eng : ℕ) (j : Job) (s : State) : State :=
  let a := leAt j.desc 0x28 8
  match warpStart s j false [bad (localExtent s a 64)] with
  | some st => jobDone 0 eng st s
  | none =>
    let (r, s) := readMem a 64 [] s
    if r.status ≠ Stat.ok then jobDone 0 eng r.status s
    else if leAt r.data 36 28 ≠ 0 then jobDone 0 eng Stat.badFormat s
    else warpDraw eng j.desc (fun x y => let p := lensNums r.data x y; (lensCoord p.1, lensCoord p.2)) s

/-- What the load of a mesh does once it stands on its engine. -/
def loadMesh (eng : ℕ) (j : Job) (s : State) : State :=
  let a := leAt j.desc 0x28 8
  match startStatus (warpFields s j true) false [bad (localExtent s a 16)] with
  | some st => jobDone 0 eng st s
  | none =>
    let (h, s) := readMem a 16 [] s
    if h.status ≠ Stat.ok then jobDone 0 eng h.status s
    else if !meshOk h.data then jobDone 0 eng Stat.badFormat s
    else
      let n := 16 + 8 * (leAt h.data 0 2 * leAt h.data 2 2)
      if localExtent s a n ≠ Stat.ok then jobDone 0 eng (localExtent s a n) s
      else
        let (r, s) := readMem a n [] s
        if r.status ≠ Stat.ok then jobDone 0 eng r.status s
        else jobDone 0 eng Stat.ok (bump Reg.wrpSnapCnt.base 2 (setFlag Reg.wrpStatus.base 1
          (setBlock { pool := 1, handle := j.task.handle, ctx := leAt j.desc 0x25 1, block := r.data } s)))

theorem exec_meshWarp (eng : ℕ) (m : MemRun) (s : State) : exec (.warpMeshWarp eng m) s = run (takeRun 0 eng [1] m (meshWarp eng)) s := by
  unfold exec
  rfl

theorem exec_lensWarp (eng : ℕ) (m : MemRun) (s : State) : exec (.warpLensWarp eng m) s = run (takeRun 0 eng [2] m (lensWarp eng)) s := by
  unfold exec
  rfl

theorem exec_loadMesh (eng : ℕ) (m : MemRun) (s : State) : exec (.warpLoadMesh eng m) s = run (takeRun 0 eng [3] m (loadMesh eng)) s := by
  unfold exec
  rfl

theorem meshWarp_setPending (eng : ℕ) (j : Job) (q : List Instr) (s : State) : meshWarp eng j (setPending q s) = setPending q (meshWarp eng j s) := by
  have hb : blockOf (setPending q s) = blockOf s := rfl
  unfold meshWarp
  simp only [hb, warpStart_setPending]
  split
  · rfl
  · exact warpDraw_setPending _ _ _ _ _

theorem localExtent_pending (q : List Instr) (s : State) : localExtent (setPending q s) = localExtent s := rfl

theorem lensWarp_setPending (eng : ℕ) (j : Job) (q : List Instr) (s : State) : lensWarp eng j (setPending q s) = setPending q (lensWarp eng j s) := by
  unfold lensWarp
  simp only [localExtent_pending, warpStart_setPending, readMem_setPending, jobDone_setPending, warpDraw_setPending, ite_setPending]
  split <;> rfl

theorem loadMesh_setPending (eng : ℕ) (j : Job) (q : List Instr) (s : State) : loadMesh eng j (setPending q s) = setPending q (loadMesh eng j s) := by
  have hfields : warpFields (setPending q s) j true = warpFields s j true := rfl
  unfold loadMesh
  simp only [hfields, localExtent_pending, readMem_setPending, jobDone_setPending, setBlock_setPending, setFlag_setPending, bump_setPending, ite_setPending]
  split <;> rfl

theorem meshWarp_cases {m : MemRun} {eng : ℕ} {j : Job} {b : List Byte} {s u : State} (hq : Quiet s) (hu : u = seeEcc m.ecc (taken eng j s))
    (hm : MayTake 0 eng j s) (ho : opOf j.desc = 1) (hb : b = (blockOf u 1 j.task.handle (leAt j.desc 0x25 1)).elim [] (·.block)) :
    (∀ st, warpStart u j true [(meshShort b j.desc, Stat.shape)] = some st → Gives (.warpMeshWarp eng m) s (jobDone 0 eng st u))
      ∧ (warpStart u j true [(meshShort b j.desc, Stat.shape)] = none → Gives (.warpMeshWarp eng m) s (warpDraw eng j.desc (meshPos b) u)) := by
  have hgives {t : State} (h : meshWarp eng j u = t) (ht : t.tasks = u.tasks) : Gives (.warpMeshWarp eng m) s t :=
    takeRun_gives (exec_meshWarp eng m s) hq hm (by rw [ho]; rfl) (by rw [ho]; rfl) hu (meshWarp_setPending eng j) h ht
  refine ⟨fun st h => hgives ?_ (jobDone_tasks _ _ _ _), fun h => hgives ?_ (warpDraw_tasks _ _ _ _)⟩
  · unfold meshWarp
    dsimp only
    rw [← hb, h]
  · unfold meshWarp
    dsimp only
    rw [← hb, h]

theorem lensWarp_cases {m : MemRun} {eng a : ℕ} {j : Job} {s u : State} (hq : Quiet s) (hu : u = seeEcc m.ecc (taken eng j s))
    (hm : MayTake 0 eng j s) (ho : opOf j.desc = 2) (ha : a = leAt j.desc 0x28 8) :
    (∀ st, warpStart u j false [bad (localExtent u a 64)] = some st → Gives (.warpLensWarp eng m) s (jobDone 0 eng st u))
      ∧ (warpStart u j false [bad (localExtent u a 64)] = none → poisonHit u.sq.poison a 64 = false → leAt (devGet u a 64) 36 28 = 0 →
        Gives (.warpLensWarp eng m) s (warpDraw eng j.desc
          (fun x y => (lensCoord (lensNums (devGet u a 64) x y).1, lensCoord (lensNums (devGet u a 64) x y).2)) u))
      ∧ (warpStart u j false [bad (localExtent u a 64)] = none → poisonHit u.sq.poison a 64 = false → leAt (devGet u a 64) 36 28 ≠ 0 →
        Gives (.warpLensWarp eng m) s (jobDone 0 eng Stat.badFormat u)) := by
  have hgives {t : State} (h : lensWarp eng j u = t) (ht : t.tasks = u.tasks) : Gives (.warpLensWarp eng m) s t :=
    takeRun_gives (exec_lensWarp eng m s) hq hm (by rw [ho]; rfl) (by rw [ho]; rfl) hu (lensWarp_setPending eng j) h ht
  have hread (h : warpStart u j false [bad (localExtent u a 64)] = none) (hp : poisonHit u.sq.poison a 64 = false) :
      lensWarp eng j u = if leAt (devGet u a 64) 36 28 ≠ 0 then jobDone 0 eng Stat.badFormat u
        else warpDraw eng j.desc (fun x y => (lensCoord (lensNums (devGet u a 64) x y).1, lensCoord (lensNums (devGet u a 64) x y).2)) u := by
    unfold lensWarp
    dsimp only
    rw [← ha, h, readMem_clean hp]
    exact if_neg fun hne => hne rfl
  refine ⟨fun st h => hgives ?_ (jobDone_tasks _ _ _ _), fun h hp h0 => hgives ((hread h hp).trans (if_neg (not_not.mpr h0))) (warpDraw_tasks _ _ _ _),
    fun h hp h0 => hgives ((hread h hp).trans (if_pos h0)) (jobDone_tasks _ _ _ _)⟩
  unfold lensWarp
  dsimp only
  rw [← ha, h]

theorem loadMesh_cases {m : MemRun} {eng a n : ℕ} {j : Job} {s u : State} (hq : Quiet s) (hu : u = seeEcc m.ecc (taken eng j s))
    (hm : MayTake 0 eng j s) (ho : opOf j.desc = 3) (ha : a = leAt j.desc 0x28 8)
    (hstart : startStatus (warpFields u j true) false [bad (localExtent u a 16)] = none) (hp : poisonHit u.sq.poison a 16 = false)
    (hn : n = 16 + 8 * (leAt (devGet u a 16) 0 2 * leAt (devGet u a 16) 2 2)) :
    (meshOk (devGet u a 16) = true → localExtent u a n = Stat.ok → poisonHit u.sq.poison a n = false →
        Gives (.warpLoadMesh eng m) s (jobDone 0 eng Stat.ok (bump Reg.wrpSnapCnt.base 2 (setFlag Reg.wrpStatus.base 1
          (setBlock { pool := 1, handle := j.task.handle, ctx := leAt j.desc 0x25 1, block := devGet u a n } u)))))
      ∧ (meshOk (devGet u a 16) = false → Gives (.warpLoadMesh eng m) s (jobDone 0 eng Stat.badFormat u)) := by
  have hgives {t : State} (h : loadMesh eng j u = t) (ht : t.tasks = u.tasks) : Gives (.warpLoadMesh eng m) s t :=
    takeRun_gives (exec_loadMesh eng m s) hq hm (by rw [ho]; rfl) (by rw [ho]; rfl) hu (loadMesh_setPending eng j) h ht
  refine ⟨fun hok he hpn => hgives ?_ rfl, fun hno => hgives ?_ rfl⟩
  · unfold loadMesh
    dsimp only
    rw [← ha, hstart, readMem_clean hp]
    dsimp only
    rw [← hn, hok, if_neg (not_not.mpr he), readMem_clean hpn]
    rfl
  · unfold loadMesh
    dsimp only
    rw [← ha, hstart, readMem_clean hp]
    dsimp only
    rw [hno]
    rfl

/-! ## Weights -/

theorem keysWeights_sum {i : ℕ} (h : i < 1024) : (keysWeights i).length = 4 ∧ (keysWeights i).sum = 2 ^ 14 := by
  unfold keysWeights keysNearest
  by_cases hi : i < 512
  · rw [if_pos hi]
    simp [List.range_succ]
    omega
  · rw [if_neg hi]
    simp [List.range_succ]
    omega

theorem linearAxis_sum (p : ℤ) : ((linearAxis p).map (·.2)).sum = 65536 := by
  show 65536 - (p - p.fdiv 65536 * 65536) + (p - p.fdiv 65536 * 65536 + 0) = 65536
  omega

/-! ## Crops -/

/-- What a region job does once it stands on its engine. -/
def cropJob (eng : ℕ) (j : Job) (s : State) : State :=
  match regionStart s j with
  | some st => jobDone 1 eng st s
  | none =>
    let d := j.desc
    let n := leAt d 0x20 2
    let (r, s) := readMem (leAt d 0x18 8) (32 * n) [] s
    if r.status ≠ Stat.ok then jobDone 1 eng r.status s
    else if boxesBad n r.data then jobDone 1 eng Stat.badFormat s
    else if toCaddy d then modRunning 1 eng (fun x => { x with current := r.data }) s
    else
      let (st, s) := cropAll d r.data n 0 s
      jobDone 1 eng st s

theorem exec_cropJob (eng : ℕ) (m : MemRun) (s : State) : exec (.regionCrop eng m) s = run (takeRun 1 eng [1] m (cropJob eng)) s := by
  unfold exec
  rfl

theorem cropJob_setPending (eng : ℕ) (j : Job) (q : List Instr) (s : State) : cropJob eng j (setPending q s) = setPending q (cropJob eng j s) := by
  unfold cropJob
  simp only [regionStart_setPending, readMem_setPending, jobDone_setPending, modRunning_setPending, cropAll_setPending, ite_setPending]
  split <;> rfl

theorem cropAll_tasks (d boxes : List Byte) (n b : ℕ) (s : State) : (cropAll d boxes n b s).2.tasks = s.tasks := by
  induction n generalizing b s with
  | zero => rfl
  | succ n ih =>
    unfold cropAll
    dsimp only
    split
    · exact ih _ _
    have hdraw : (drawCrop d (boxOf boxes b) (leAt d 0x28 8 + b * leAt d 0x24 4) s).2.tasks = s.tasks := drawRows_tasks _ _ _ _ _ _ _ _ _ _
    split
    · exact (ih _ _).trans ((boxCropped_tasks _ _ _ _).trans hdraw)
    · exact hdraw

theorem regionCrop_cases {m : MemRun} {eng st : ℕ} {j : Job} {boxes : List Byte} {s u s1 : State} (hq : Quiet s)
    (hu : u = seeEcc m.ecc (taken eng j s)) (hm : MayTake 1 eng j s) (ho : opOf j.desc = 1)
    (hb : boxes = devGet u (leAt j.desc 0x18 8) (32 * leAt j.desc 0x20 2)) :
    (regionStart u j = some st → Gives (.regionCrop eng m) s (jobDone 1 eng st u))
      ∧ (regionStart u j = none → poisonHit u.sq.poison (leAt j.desc 0x18 8) (32 * leAt j.desc 0x20 2) = true →
        Gives (.regionCrop eng m) s (jobDone 1 eng Stat.poison u))
      ∧ (regionStart u j = none → poisonHit u.sq.poison (leAt j.desc 0x18 8) (32 * leAt j.desc 0x20 2) = false →
        boxesBad (leAt j.desc 0x20 2) boxes = false →
        (toCaddy j.desc = true → Gives (.regionCrop eng m) s (modRunning 1 eng (fun x => { x with current := boxes }) u))
        ∧ (toCaddy j.desc = false → cropAll j.desc boxes (leAt j.desc 0x20 2) 0 u = (st, s1) →
          Gives (.regionCrop eng m) s (jobDone 1 eng st s1))) := by
  have hgives {t : State} (h : cropJob eng j u = t) (ht : t.tasks = u.tasks) : Gives (.regionCrop eng m) s t :=
    takeRun_gives (exec_cropJob eng m s) hq hm (by rw [ho]; rfl) (by rw [ho]; rfl) hu (cropJob_setPending eng j) h ht
  have hread (h : regionStart u j = none) (hp : poisonHit u.sq.poison (leAt j.desc 0x18 8) (32 * leAt j.desc 0x20 2) = false)
      (hbad : boxesBad (leAt j.desc 0x20 2) boxes = false) : cropJob eng j u
        = if toCaddy j.desc then modRunning 1 eng (fun x => { x with current := boxes }) u
          else jobDone 1 eng (cropAll j.desc boxes (leAt j.desc 0x20 2) 0 u).1 (cropAll j.desc boxes (leAt j.desc 0x20 2) 0 u).2 := by
    unfold cropJob
    rw [h]
    dsimp only
    rw [readMem_clean hp, ← hb]
    dsimp only
    rw [hbad]
    rfl
  refine ⟨fun h => hgives ?_ rfl, fun h hp => hgives ?_ rfl, fun h hp hbad => ⟨fun hc => hgives ((hread h hp hbad).trans (if_pos hc)) rfl, fun hc hall => ?_⟩⟩
  · unfold cropJob
    rw [h]
  · unfold cropJob
    rw [h]
    dsimp only
    rw [readMem_poisoned hp]
    rfl
  · have htasks := cropAll_tasks j.desc boxes (leAt j.desc 0x20 2) 0 u
    rw [hall] at htasks
    refine hgives ((hread h hp hbad).trans ?_) htasks
    rw [hc, hall]
    rfl

/-! ## Sorts -/

theorem length_selectScore (k : ℕ) (l : List Scored) (x : Scored) : (selectScore k l x).length = min k (l.length + 1) := by
  have hparts := congrArg List.length (List.takeWhile_append_dropWhile (p := fun y => scoreBefore y x) (l := l))
  rw [List.length_append] at hparts
  rw [selectScore, List.length_take, List.length_append, List.length_cons, ← hparts]
  rfl

theorem length_foldl_selectScore (k : ℕ) (xs l : List Scored) (h : l.length ≤ k) : (xs.foldl (selectScore k) l).length = min k (l.length + xs.length) := by
  induction xs generalizing l with
  | nil => exact (Nat.min_eq_right h).symm
  | cons x xs ih =>
    have hlen := length_selectScore k l x
    rw [List.foldl_cons, ih _ (by rw [hlen]; exact Nat.min_le_left _ _), hlen, List.length_cons]
    omega

theorem topK_length (fmt k : ℕ) (t : Option Num) (scores : List ℕ) : (topK fmt k t scores).1.length
    = min k (((scores.map (pixNum fmt)).zipIdx.filter fun x => x.1 != .nan && t.elim true fun t => t != .nan && !Num.lt x.1 t).length) := by
  unfold topK
  dsimp only
  rw [length_foldl_selectScore _ _ _ (Nat.zero_le k), List.length_nil, Nat.zero_add]

/-- The scores of a sort, from the bytes where they lie. -/
def sortScores (d bytes : List Byte) (n : ℕ) : List ℕ := (List.range n).map fun i => leAt bytes (scoreSize (leAt d 1 1) * i) (scoreSize (leAt d 1 1))

/-- The threshold of a sort. -/
def sortThreshold (d : List Byte) : Option Num :=
  if bitOf (leAt d 2 1) 0 then some (pixNum (leAt d 1 1) (leAt d 0x14 (scoreSize (leAt d 1 1)))) else none

/-- The writes of a sort. -/
def sortWrites (d : List Byte) (scores : List ℕ) (sel : List Scored × ℕ) : List (ℕ × List Byte) :=
  [(leAt d 0x18 8, sel.1.flatMap fun x => leBytes 4 x.2)]
    ++ (if bitOf (leAt d 2 1) 1 then [(leAt d 0x20 8, sel.1.flatMap fun x => leBytes (scoreSize (leAt d 1 1)) (scores.getD x.2 0))] else [])
    ++ [(leAt d 0x28 8, leBytes 4 sel.1.length ++ leBytes 4 sel.2)]

/-- What a sort leaves after its writes. -/
def sortEnd (eng n : ℕ) (sel : List Scored × ℕ) (r : ℕ × State) : State :=
  let c := count (Reg.srtSnapCnt.base + 16) sel.1.length (count (Reg.srtSnapCnt.base + 8) sel.2 (count (Reg.srtSnapCnt.base + 4) n r.2))
  jobDone 2 eng r.1 (if sel.2 = 0 then c else setFlag Reg.srtStatus.base 1 c)

/-- What a sort does once it stands on its engine. -/
def sortJob (eng : ℕ) (m : MemRun) (j : Job) (s : State) : State :=
  match sortStart s j with
  | some st => jobDone 2 eng st s
  | none =>
    let d := j.desc
    let n := if leAt d 0x10 2 = 0 then 0 else leAt d 4 4
    let (r, s) := readMem (leAt d 8 8) (scoreSize (leAt d 1 1) * n) [] s
    if n ≠ 0 ∧ r.status ≠ Stat.ok then jobDone 2 eng r.status s
    else
      let sel := topK (leAt d 1 1) (leAt d 0x10 2) (sortThreshold d) (sortScores d r.data n)
      sortEnd eng n sel (writeRuns m (sortWrites d (sortScores d r.data n) sel) s)

theorem exec_sortJob (eng : ℕ) (m : MemRun) (s : State) : exec (.sortTopK eng m) s = run (takeRun 2 eng [1] m (sortJob eng m)) s := by
  unfold exec
  rfl

theorem sortJob_setPending (eng : ℕ) (m : MemRun) (j : Job) (q : List Instr) (s : State) :
    sortJob eng m j (setPending q s) = setPending q (sortJob eng m j s) := by
  unfold sortJob sortEnd
  simp only [sortStart_setPending, readMem_setPending, jobDone_setPending, writeRuns_setPending, count_setPending, setFlag_setPending, ite_setPending]
  split <;> rfl

theorem writeRuns_tasks (m : MemRun) (l : List (ℕ × List Byte)) (s : State) : (writeRuns m l s).2.tasks = s.tasks := by
  induction l generalizing s with
  | nil => rfl
  | cons x l ih =>
    unfold writeRuns
    dsimp only
    split
    · exact (ih _).trans (runWrite_tasks _ _ _ _)
    · exact runWrite_tasks _ _ _ _

theorem sortEnd_tasks (eng n : ℕ) (sel : List Scored × ℕ) (r : ℕ × State) : (sortEnd eng n sel r).tasks = r.2.tasks := by
  unfold sortEnd
  dsimp only
  rw [jobDone_tasks]
  split <;> rfl

/-- A sort that may run does so: its scores are read, where it has any. -/
theorem sortJob_runs {eng n : ℕ} {m : MemRun} {j : Job} {u : State} (h : sortStart u j = none)
    (hn : n = (if leAt j.desc 0x10 2 = 0 then 0 else leAt j.desc 4 4))
    (hp : n = 0 ∨ poisonHit u.sq.poison (leAt j.desc 8 8) (scoreSize (leAt j.desc 1 1) * n) = false) {sel : List Scored × ℕ} {scores : List ℕ}
    (hscores : scores = sortScores j.desc (devGet u (leAt j.desc 8 8) (scoreSize (leAt j.desc 1 1) * n)) n)
    (hsel : sel = topK (leAt j.desc 1 1) (leAt j.desc 0x10 2) (sortThreshold j.desc) scores) :
    sortJob eng m j u = sortEnd eng n sel (writeRuns m (sortWrites j.desc scores sel) u) := by
  have hread : readMem (leAt j.desc 8 8) (scoreSize (leAt j.desc 1 1) * n) [] u
      = ((readMem (leAt j.desc 8 8) (scoreSize (leAt j.desc 1 1) * n) [] u).1, u) := by
    rw [readMem_eq (applyEcc_nil _ _ u)]
    split <;> rfl
  have hok : ¬(n ≠ 0 ∧ (readMem (leAt j.desc 8 8) (scoreSize (leAt j.desc 1 1) * n) [] u).1.status ≠ Stat.ok) := by
    rintro ⟨h0, hst⟩
    rw [readMem_clean (hp.resolve_left h0)] at hst
    exact hst rfl
  have hdata : sortScores j.desc (readMem (leAt j.desc 8 8) (scoreSize (leAt j.desc 1 1) * n) [] u).1.data n = scores := by
    rw [hscores]
    rcases hp with h0 | hp
    · rw [h0]
      rfl
    · rw [readMem_clean hp]
  unfold sortJob
  rw [h]
  dsimp only
  rw [← hn, hread]
  dsimp only
  rw [if_neg hok, hdata, ← hsel]

theorem sortTopK_gives {m : MemRun} {eng : ℕ} {j : Job} {s u t : State} (hq : Quiet s) (hu : u = seeEcc m.ecc (taken eng j s))
    (hm : MayTake 2 eng j s) (ho : opOf j.desc = 1) (h : sortJob eng m j u = t) (ht : t.tasks = u.tasks) : Gives (.sortTopK eng m) s t :=
  takeRun_gives (exec_sortJob eng m s) hq hm (by rw [ho]; rfl) (by rw [ho]; rfl) hu (sortJob_setPending eng m j) h ht

theorem sortJob_refused {eng st : ℕ} {m : MemRun} {j : Job} {u : State} (h : sortStart u j = some st) : sortJob eng m j u = jobDone 2 eng st u := by
  unfold sortJob
  rw [h]

/-! ## The end of a job -/

theorem seeEcc_running (l : List EccHit) (kind eng : ℕ) (s : State) : runningOn (seeEcc l s) kind eng = runningOn s kind eng :=
  (eccFrame_seeEcc l s).get fun t => runningOn t kind eng

theorem engineJobEnd_cases {m : MemRun} {kind eng steps us located : ℕ} {r : Running} {s : State} (hq : Quiet s) (hk : kind ≠ 3)
    (hg : groupUp s (groupOfKind kind) = true) (hr : runningOn s kind eng = some r) :
    (r.done = true → GivesThen (.engineJobEnd kind eng steps us located m) s (endJob kind eng (noteEnd kind r.status us (seeEcc m.ecc s))))
      ∧ (r.done = false → Gives (.engineJobEnd kind eng steps us located m) s (seeEcc m.ecc s)) := by
  have hup : ¬(!groupUp s (groupOfKind kind)) = true := by rw [hg]; decide
  have hleave : leaveEngine kind eng us (seeEcc m.ecc s)
      = if r.done then endJob kind eng (noteEnd kind r.status us (seeEcc m.ecc s)) else seeEcc m.ecc s := by
    unfold leaveEngine
    rw [seeEcc_running, hr]
  refine ⟨fun hd => ?_, fun hd => ?_⟩
  · refine givesThen_of_effect (by unfold exec; rfl) ?_
    refine (if_neg hup).trans ((if_neg hk).trans ?_)
    rw [seeEcc_setPending, leaveEngine_setPending, hleave, if_pos hd]
  · refine gives_of_effect (by unfold exec; rfl) hq ?_ (seeEcc_tasks _ _)
    refine (if_neg hup).trans ((if_neg hk).trans ?_)
    rw [seeEcc_setPending, leaveEngine_setPending, hleave, hd]
    rfl

/-- A token with no waiter and no held signal stays as it is when it settles. -/
theorem settleToken_idle {h i : ℕ} {k : Token} {s : State} (hk : tokOf s h i = some k) (hw : k.waiters = []) (hs : k.sigs = []) :
    settleToken h i s = s := by
  have hserve : serveToken h i s = s := by
    unfold serveToken
    rw [hk]
    show serveLoop k.waiters.length h i s = s
    rw [hw]
    rfl
  have hclock : oneClock (serveToken h i) s = s := by
    unfold oneClock
    rw [hserve]
    exact if_pos rfl
  unfold settleToken
  dsimp only
  rw [hclock, hk]
  show drainSigs k.sigs.length h i s = s
  rw [hs]
  rfl

theorem tokOf_lowWater (h i h' i' : ℕ) (s : State) : tokOf (lowWater h i s) h' i' = tokOf s h' i' := by
  unfold tokOf
  rw [lowWater_tokens]

theorem updFirst_updFirst {α : Type} {p : α → Bool} {f g : α → α} (hf : ∀ x, p (f x) = p x) (l : List α) :
    updFirst p g (updFirst p f l) = updFirst p (fun x => g (f x)) l := by
  induction l with
  | nil => rfl
  | cons x l ih =>
    by_cases hx : p x = true
    · rw [show updFirst p f (x :: l) = f x :: l from if_pos hx]
      exact (if_pos ((hf x).trans hx)).trans (if_pos hx).symm
    · rw [show updFirst p f (x :: l) = x :: updFirst p f l from if_neg hx]
      exact (if_neg hx).trans ((congrArg (x :: ·) ih).trans (if_neg hx).symm)

theorem modTok_modTok {h i : ℕ} {f g : Token → Token} {s : State} (hf : ∀ k : Token, (f k).handle = k.handle ∧ (f k).idx = k.idx) :
    modTok h i g (modTok h i f s) = modTok h i (fun k => g (f k)) s := by
  unfold modTok
  dsimp only
  rw [updFirst_updFirst fun k => by rw [(hf k).1, (hf k).2]]

theorem signalJob_idle {h i st : ℕ} {tk : Token} {s : State} (hk : tokOf s h i = some tk) (hw : tk.waiters = []) (hs : tk.sigs = [])
    (hc : tk.count + 1 ≤ 65535) :
    signalJob h i st s = lowWater h i (modTok h i (fun k => { k with
      count := k.count + 1, latch := if st ≠ Stat.ok ∧ k.jobTmpl.isSome = true ∧ k.latch = 0 then st else k.latch }) s) := by
  have hsignal {x : Token} {t : State} (hx : tokOf t h i = some x) (hxw : x.waiters = []) (hxs : x.sigs = []) (hxc : x.count = tk.count) :
      (signal h i 1 none none t).2 = lowWater h i (modTok h i (fun k => { k with count := k.count + 1 }) t) := by
    have hlow : tokOf (lowWater h i (modTok h i (fun k => { k with count := k.count + 1 }) t)) h i = some { x with count := x.count + 1 } := by
      rw [tokOf_lowWater, tokOf_modTok_same (by intro; exact ⟨rfl, rfl⟩), hx]
      rfl
    unfold signal
    rw [hx]
    dsimp only
    rw [if_neg Nat.one_ne_zero, if_neg (by omega)]
    exact settleToken_idle hlow hxw hxs
  unfold signalJob
  dsimp only
  by_cases hst : st = Stat.ok
  · rw [if_pos hst, hsignal hk hw hs rfl]
    exact congrArg (lowWater h i) (modTok_congr hk (by rw [if_neg fun h' => h'.1 hst]))
  · have hlatched : tokOf (modTok h i (fun k => if k.jobTmpl.isSome && k.latch == 0 then { k with latch := st } else k) s) h i
        = some (if tk.jobTmpl.isSome && tk.latch == 0 then { tk with latch := st } else tk) := by
      refine (tokOf_modTok_same ?_).trans (by rw [hk]; rfl)
      intro k
      split <;> exact ⟨rfl, rfl⟩
    rw [if_neg hst, hsignal hlatched (by split <;> exact hw) (by split <;> exact hs) (by split <;> rfl)]
    refine congrArg (lowWater h i) ((modTok_modTok ?_).trans (modTok_congr hk ?_))
    · intro k
      split <;> exact ⟨rfl, rfl⟩
    · by_cases ht : tk.jobTmpl.isSome = true ∧ tk.latch = 0
      · rw [if_pos (by rw [ht.1, ht.2]; rfl), if_pos ⟨hst, ht⟩]
      · rw [if_neg fun h' => ht (by simpa using h'), if_neg fun h' => ht h'.2]

/-- Settles O43: each row by its checks, its reads and its draws; a job's end is its signal. -/
theorem geometryAndSortJobs : Obligations.GeometryAndSortJobs := by
  intro m eng j s u hq hu
  refine ⟨fun hm hk => takeRun_unknown (exec_meshWarp eng m s) hq hm hk, fun b hm ho hb => meshWarp_cases hq hu hm ho hb,
    fun a hm ho ha => lensWarp_cases hq hu hm ho ha, fun a n hm ho ha hs hp hn => loadMesh_cases hq hu hm ho ha hs hp hn, fun i => keysWeights_sum,
    linearAxis_sum, fun boxes st s1 hm ho hb => regionCrop_cases hq hu hm ho hb, fun n z scores sel st s1 c hm ho h hn hz hp hsc hsel hw hcnt => ?_,
    fun st hm ho h => sortTopK_gives hq hu hm ho (sortJob_refused h) rfl, topK_length,
    fun kind steps us located r hk hg hr => engineJobEnd_cases hq hk hg hr, fun h i st tk hk hw hs hc => signalJob_idle hk hw hs hc⟩
  subst hz
  have hruns := sortJob_runs (eng := eng) (m := m) h hn hp hsc hsel
  have htasks : s1.tasks = u.tasks := (congrArg (fun r => r.2.tasks) hw).symm.trans (writeRuns_tasks _ _ _)
  refine sortTopK_gives hq hu hm ho (hruns.trans ?_) ?_
  · rw [show writeRuns m (sortWrites j.desc scores sel) u = (st, s1) from hw, hcnt]
    rfl
  · rw [hcnt, jobDone_tasks]
    split <;> exact htasks

end Sys2Proof.Machine
end

