-- ==== Sys2Proof/Proofs/BarRows.lean ====
section
/-! The barcode engines: their jobs, fragments and ends. -/

namespace Sys2Proof.Machine

open Sys2Proof

/-! ## Registers that SEC-DED's findings leave -/

/-- No finding of SEC-DED writes the register. -/
def EccFree (r : ℕ) : Prop :=
  EventFree r ∧ r ≠ Reg.sqStatus.base ∧ r ≠ Reg.sqErrAddr.base ∧ r ≠ Reg.memStatus.base ∧ r ≠ Reg.memErrAddr.base ∧ r ≠ Reg.memEcc.base

section
variable {r : ℕ} (h : EccFree r)
include h

theorem rdW_retireBank (l : ℕ) (s : State) : rdW (retireBank l s) r = rdW s r := by
  obtain ⟨hev, hsq, -⟩ := h
  unfold retireBank
  split
  · rfl
  split
  · exact (rdW_postEvent hev _ _ _ _ _ _ _).trans (rdW_setFlag_other _ _ _ (modSq _ s) hsq)
  · exact (rdW_postEvent hev _ _ _ _ _ _ _).trans (rdW_setFlag_other _ _ _ s hsq)

theorem rdW_noteCorrected (w : ℕ) (s : State) : rdW (noteCorrected w s) r = rdW s r := by
  obtain ⟨-, hsq, -, hst, -, hecc⟩ := id h
  unfold noteCorrected
  dsimp only
  split
  · have hflag : rdW (modSq (fun q => { q with ceInPass := modAt (bankOf (8 * w)) (· + 1) q.ceInPass })
        (bump Reg.sqSnapCnt.base 0 (setFlag Reg.sqStatus.base 0 s))) r = rdW s r := rdW_setFlag_other _ _ _ s hsq
    split
    · exact (rdW_retireBank h _ _).trans hflag
    · exact hflag
  · exact (rdW_wrF_other _ _ _ _ _ _ hecc).trans (rdW_setFlag_other _ _ _ s hst)

theorem rdW_noteUncorrectable (w : ℕ) (scrub : Bool) (s : State) : rdW (noteUncorrectable w scrub s) r = rdW s r := by
  obtain ⟨-, hsq, herr, hst, hmerr, hecc⟩ := id h
  unfold noteUncorrectable
  dsimp only
  split
  · rfl
  split
  · rw [rdW_retireBank h, rdW_bump, rdW_setFlag_other _ _ _ _ hsq, rdW_wr_other _ _ _ _ herr]
    rfl
  · rw [rdW_wrF_other _ _ _ _ _ _ hecc, rdW_setFlag_other _ _ _ _ hst, rdW_wr_other _ _ _ _ hmerr]
    rfl

theorem rdW_seeEcc (l : List EccHit) (s : State) : rdW (seeEcc l s) r = rdW s r := by
  unfold seeEcc applyEcc
  refine foldl_keeps (rdW · r) (fun s x => ?_) l s
  split
  · split
    · exact rdW_noteUncorrectable h _ _ s
    split
    · rfl
    · exact rdW_noteCorrected h _ s
  · rfl

end

theorem detMode_seeEcc (l : List EccHit) (s : State) : detMode (seeEcc l s) = detMode s := by
  have hfree : EccFree Reg.glbMode.base := by
    unfold EccFree EventFree
    decide
  unfold detMode rdB rd
  rw [rdW_seeEcc hfree]

/-! ## The running job -/

theorem modRunning_congr {kind eng : ℕ} {r : Running} {f g : Running → Running} {s : State} (hr : runningOn s kind eng = some r) (h : f r = g r) :
    modRunning kind eng f s = modRunning kind eng g s := by
  have hl := updFirst_eq_of_find (p := fun r : Running => r.job.kind == kind && r.eng == eng) (l := s.eng.running) hr h
  unfold modRunning modEng
  dsimp only
  rw [hl]

theorem modRunning_self {kind eng : ℕ} {r : Running} {f : Running → Running} {s : State} (hr : runningOn s kind eng = some r) (h : f r = r) :
    modRunning kind eng f s = s := by
  rw [modRunning_congr (g := id) hr h, modRunning, modEng, updFirst_self]

theorem runningOn_modRunning {kind eng : ℕ} {f : Running → Running} {r : Running} {s : State} (hr : runningOn s kind eng = some r)
    (hf : ∀ r : Running, (f r).job = r.job ∧ (f r).eng = r.eng := by intro; exact ⟨rfl, rfl⟩) :
    runningOn (modRunning kind eng f s) kind eng = some (f r) := by
  refine (find_updFirst_same _ fun r => by rw [(hf r).1, (hf r).2]).trans ?_
  rw [show s.eng.running.find? _ = some r from hr]
  rfl

theorem modRunning_modRunning {kind eng : ℕ} {f g : Running → Running} {s : State}
    (hf : ∀ r : Running, (f r).job = r.job ∧ (f r).eng = r.eng := by intro; exact ⟨rfl, rfl⟩) :
    modRunning kind eng g (modRunning kind eng f s) = modRunning kind eng (fun r => g (f r)) s := by
  unfold modRunning modEng
  dsimp only
  rw [updFirst_updFirst fun r => by rw [(hf r).1, (hf r).2]]

/-! ## Fragments of a search -/

theorem attach_modEng (id : Word) (kind key origin : ℕ) (payload : List Byte) (pend : Option TaskId) (issuer : TaskId) (f : Engines → Engines) (s : State) :
    attach id kind key origin payload pend issuer (modEng f s)
      = ((attach id kind key origin payload pend issuer s).1, modEng f (attach id kind key origin payload pend issuer s).2) := by
  have hissued : itemIssued (modEng f s) id = itemIssued s id := rfl
  have hitem : itemOf (modEng f s) id = itemOf s id := rfl
  unfold attach
  rw [hissued, hitem]
  split
  · rfl
  split
  · rfl
  split
  · rfl
  split
  · rfl
  · dsimp only
    split
    · split <;> rfl
    · split <;> rfl

theorem attach_eng (id : Word) (kind key origin : ℕ) (payload : List Byte) (pend : Option TaskId) (issuer : TaskId) (s : State) :
    (attach id kind key origin payload pend issuer s).2.eng = s.eng := by
  unfold attach
  split
  · rfl
  split
  · rfl
  split
  · rfl
  split
  · rfl
  · dsimp only
    split
    · split <;> rfl
    · split <;> rfl

theorem barFlush_some {eng : ℕ} {r : Running} {s : State} (hr : runningOn s 3 eng = some r) :
    barFlush eng s = modRunning 3 eng (fun r => { r with held := [] }) (r.held.foldl (barFlushOne r.job) s) := by
  unfold barFlush
  rw [hr]

theorem runningOn_congr {kind eng : ℕ} {s t : State} (h : s.eng = t.eng) : runningOn s kind eng = runningOn t kind eng := by
  unfold runningOn
  rw [h]

theorem runningOn_barFlush {eng : ℕ} {r : Running} {s : State} (hr : runningOn s 3 eng = some r) :
    runningOn (barFlush eng s) 3 eng = some { r with held := [] } := by
  have heng : (r.held.foldl (barFlushOne r.job) s).eng = s.eng := foldl_keeps State.eng (fun s f => attach_eng _ _ _ _ _ _ _ s) _ s
  rw [barFlush_some hr, runningOn_modRunning ((runningOn_congr heng).trans hr)]

/-- An engine that holds nothing back attaches nothing. -/
theorem barFlush_empty {eng : ℕ} {r : Running} {s : State} (hr : runningOn s 3 eng = some r) (h : r.held = []) : barFlush eng s = s := by
  rw [barFlush_some hr, h]
  exact modRunning_self hr (by rw [← h])

theorem runningOn_barFragment {eng kind : ℕ} {bs : List Byte} {r : Running} {s : State} (hr : runningOn s 3 eng = some r) :
    ∃ l, runningOn (barFragment eng kind bs s) 3 eng = some { r with held := l } ∧ (detMode s = false → l = []) := by
  have hheld : runningOn (modRunning 3 eng (fun r => { r with held := r.held ++ [leBytes 1 kind ++ bs] }) s) 3 eng
      = some { r with held := r.held ++ [leBytes 1 kind ++ bs] } := runningOn_modRunning hr
  have hdet : detMode (modRunning 3 eng (fun r => { r with held := r.held ++ [leBytes 1 kind ++ bs] }) s) = detMode s := rfl
  unfold barFragment
  rw [hr]
  dsimp only
  rw [hdet]
  split
  · next h => exact ⟨_, hheld, fun hd => by rw [hd] at h; exact absurd h Bool.false_ne_true⟩
  · exact ⟨[], (runningOn_barFlush hheld).trans rfl, fun _ => rfl⟩

theorem barFragment_attaches {eng kind : ℕ} {bs : List Byte} {r : Running} {s : State} (hr : runningOn s 3 eng = some r) (hd : detMode s = false)
    (hh : r.held = []) (hk : kind < 256) :
    barFragment eng kind bs s = (attach (BitVec.ofNat 32 (leAt r.job.desc 0x1C 4)) kind 0 2 bs none r.job.task s).2 := by
  have hheld : runningOn (modRunning 3 eng (fun r => { r with held := r.held ++ [leBytes 1 kind ++ bs] }) s) 3 eng
      = some { r with held := [leBytes 1 kind ++ bs] } := by
    rw [runningOn_modRunning hr, hh]
    rfl
  have hkind : leAt (leBytes 1 kind ++ bs) 0 1 = kind := by
    rw [leAt_leBytes_append]
    exact Nat.mod_eq_of_lt hk
  have hrest : (leBytes 1 kind ++ bs).drop 1 = bs := rfl
  have hdet : detMode (modRunning 3 eng (fun r => { r with held := r.held ++ [leBytes 1 kind ++ bs] }) s) = false := hd
  have hback : modRunning 3 eng (fun r => { r with held := [] })
      (modRunning 3 eng (fun r => { r with held := r.held ++ [leBytes 1 kind ++ bs] }) s) = s := by
    rw [modRunning_modRunning]
    exact modRunning_self hr (by rw [← hh])
  unfold barFragment
  rw [hr]
  dsimp only
  rw [hdet, Bool.false_and, if_neg Bool.false_ne_true, barFlush_some hheld, List.foldl_cons, List.foldl_nil]
  unfold barFlushOne barAttach
  rw [hkind, hrest]
  refine Eq.trans ?_ (congrArg (fun t => (attach (barItem r.job) kind 0 2 bs none r.job.task t).2) hback)
  unfold modRunning
  rw [attach_modEng, attach_modEng, attach_modEng]

/-! ## Barcode jobs -/

/-- What a decode job does once it stands on its engine. -/
def barJob (eng : ℕ) (j : Job) (s : State) : State :=
  match barcodeStart s j with
  | some st => jobDone 3 eng st s
  | none =>
    let d := j.desc
    let row := fun (i : ℕ) => leAt d 8 8 + (leAt d 0x16 2 + i) * leAt d 0x10 4 + leAt d 0x14 2 * (leAt d 1 1 + 1)
    let hit := (List.range (leAt d 0x1A 2 - leAt d 0x16 2)).any fun i =>
      poisonHit s.sq.poison (row i) ((leAt d 0x18 2 - leAt d 0x14 2) * (leAt d 1 1 + 1))
    if hit then jobDone 3 eng Stat.poison s else modRunning 3 eng (fun r => { r with aux := [0] }) s

/-- What the load of a profile does once it stands on its engine. -/
def profileJob (eng : ℕ) (j : Job) (s : State) : State :=
  let d := j.desc
  let a := leAt d 8 8
  match startStatus [(decide (poolCount s j.task.handle 2 ≤ leAt d 2 1), Stat.badFormat), (!descClean [(0, 0x25), (0x28, 10)] d, Stat.badFormat)]
      false [bad (localExtent s a 64)] with
  | some st => jobDone 3 eng st s
  | none =>
    let (r, s) := readMem a 64 [] s
    if r.status ≠ Stat.ok then jobDone 3 eng r.status s
    else if !profileOk r.data then jobDone 3 eng Stat.badFormat s
    else jobDone 3 eng Stat.ok (setBlock { pool := 2, handle := j.task.handle, ctx := leAt d 2 1, block := r.data } s)

theorem exec_barJob (eng : ℕ) (m : MemRun) (s : State) : exec (.barcodeDecode eng m) s = run (takeRun 3 eng [1] m (barJob eng)) s := by
  unfold exec
  rfl

theorem exec_profileJob (eng : ℕ) (m : MemRun) (s : State) : exec (.barcodeLoadProfile eng m) s = run (takeRun 3 eng [2] m (profileJob eng)) s := by
  unfold exec
  rfl

theorem barJob_setPending (eng : ℕ) (j : Job) (q : List Instr) (s : State) : barJob eng j (setPending q s) = setPending q (barJob eng j s) := by
  unfold barJob
  rw [barcodeStart_setPending]
  split
  · rfl
  · dsimp only
    rw [← ite_setPending]
    rfl

theorem profileJob_setPending (eng : ℕ) (j : Job) (q : List Instr) (s : State) : profileJob eng j (setPending q s) = setPending q (profileJob eng j s) := by
  have hpool (h p : ℕ) : poolCount (setPending q s) h p = poolCount s h p := rfl
  unfold profileJob
  simp only [hpool, localExtent_pending, readMem_setPending, jobDone_setPending, setBlock_setPending, ite_setPending]
  split <;> rfl

/-- The words of a Square without poison are all readable. -/
theorem poisonHit_nil (a n : ℕ) : poisonHit [] a n = false := rfl

theorem barcodeDecode_cases {m : MemRun} {eng : ℕ} {j : Job} {s u : State} (hq : Quiet s) (hu : u = seeEcc m.ecc (taken eng j s))
    (hm : MayTake 3 eng j s) (ho : opOf j.desc = 1) :
    (∀ st, barcodeStart u j = some st → Gives (.barcodeDecode eng m) s (jobDone 3 eng st u))
      ∧ (barcodeStart u j = none → u.sq.poison = [] → Gives (.barcodeDecode eng m) s (modRunning 3 eng (fun r => { r with aux := [0] }) u)) := by
  have hgives {t : State} (h : barJob eng j u = t) (ht : t.tasks = u.tasks) : Gives (.barcodeDecode eng m) s t :=
    takeRun_gives (exec_barJob eng m s) hq hm (by rw [ho]; rfl) (by rw [ho]; rfl) hu (barJob_setPending eng j) h ht
  refine ⟨fun st h => hgives ?_ rfl, fun h hp => hgives ?_ rfl⟩
  · unfold barJob
    rw [h]
  · unfold barJob
    rw [h]
    dsimp only
    rw [hp]
    exact if_neg (by simp [poisonHit_nil])

theorem loadProfile_cases {m : MemRun} {eng a : ℕ} {j : Job} {s u : State} (hq : Quiet s) (hu : u = seeEcc m.ecc (taken eng j s))
    (hm : MayTake 3 eng j s) (ho : opOf j.desc = 2) (ha : a = leAt j.desc 8 8) (hpool : leAt j.desc 2 1 < poolCount u j.task.handle 2)
    (hclean : descClean [(0, 0x25), (0x28, 10)] j.desc = true) (he : localExtent u a 64 = Stat.ok) (hp : poisonHit u.sq.poison a 64 = false) :
    (profileOk (devGet u a 64) = true → Gives (.barcodeLoadProfile eng m) s (jobDone 3 eng Stat.ok
        (setBlock { pool := 2, handle := j.task.handle, ctx := leAt j.desc 2 1, block := devGet u a 64 } u)))
      ∧ (profileOk (devGet u a 64) = false → Gives (.barcodeLoadProfile eng m) s (jobDone 3 eng Stat.badFormat u)) := by
  have hgives {t : State} (h : profileJob eng j u = t) (ht : t.tasks = u.tasks) : Gives (.barcodeLoadProfile eng m) s t :=
    takeRun_gives (exec_profileJob eng m s) hq hm (by rw [ho]; rfl) (by rw [ho]; rfl) hu (profileJob_setPending eng j) h ht
  have hjob : profileJob eng j u = if !profileOk (devGet u a 64) then jobDone 3 eng Stat.badFormat u
      else jobDone 3 eng Stat.ok (setBlock { pool := 2, handle := j.task.handle, ctx := leAt j.desc 2 1, block := devGet u a 64 } u) := by
    unfold profileJob
    dsimp only
    rw [← ha, decide_eq_false (Nat.not_le.mpr hpool), hclean, he, readMem_clean hp]
    rfl
  refine ⟨fun h => hgives (hjob.trans ?_) rfl, fun h => hgives (hjob.trans ?_) rfl⟩
  · rw [h]
    rfl
  · rw [h]
    rfl

/-! ## Symbols, budgets and the end of a search -/

theorem barFlush_tasks (eng : ℕ) (s : State) : (barFlush eng s).tasks = s.tasks := by
  unfold barFlush
  split
  · rfl
  · exact foldl_keeps State.tasks (fun s f => barFlushOne_tasks _ f s) _ s

theorem barFragment_tasks (eng kind : ℕ) (bs : List Byte) (s : State) : (barFragment eng kind bs s).tasks = s.tasks := by
  unfold barFragment
  split
  · rfl
  · dsimp only
    split
    · rfl
    · exact barFlush_tasks _ _

theorem barFinish_tasks (eng : ℕ) (r : Running) (none_ steps us located : ℕ) (s : State) : (barFinish eng r none_ steps us located s).tasks = s.tasks := by
  unfold barFinish
  dsimp only
  rw [jobDone_tasks, writeAll_tasks, apply_ite State.tasks, barFragment_tasks, ite_self]

theorem symbolDecoded_cases {eng : ℕ} {r : Running} {y : Symbol} {s t : State} (hq : Quiet s) (hr : runningOn s 3 eng = some r)
    (hg : groupUp s 2 = true) (hd : r.done = false) (ho : opOf r.job.desc = 1) (hy : symbolAllowed (profileOf s r.job) y = true)
    (ht : t = count (Reg.bcdSnapCnt.base + 16) y.corrected (bump Reg.bcdSnapCnt.base 1
        (modRunning 3 eng (fun r => { r with aux := [r.aux.headD 0 + 1] }) (barFragment eng 1 (symbolPayload y) s)))) :
    (r.aux.headD 0 + 1 < leAt r.job.desc 0x24 1 → Gives (.barcodeSymbolDecoded eng y) s t)
      ∧ (leAt r.job.desc 0x24 1 ≤ r.aux.headD 0 + 1 → Gives (.barcodeSymbolDecoded eng y) s (jobDone 3 eng Stat.ok t)) := by
  have hno : ¬(!groupUp s 2 || r.done || opOf r.job.desc != 1 || !symbolAllowed (profileOf s r.job) y) = true := by
    rw [hg, hd, ho, hy]
    decide
  obtain ⟨l, hl, -⟩ := runningOn_barFragment (kind := 1) (bs := symbolPayload y) hr
  have hcount : modRunning 3 eng (fun r => { r with aux := [r.aux.headD 0 + 1] }) (barFragment eng 1 (symbolPayload y) s)
      = modRunning 3 eng (fun x => { x with aux := [r.aux.headD 0 + 1] }) (barFragment eng 1 (symbolPayload y) s) := modRunning_congr hl rfl
  have htasks : t.tasks = s.tasks := by
    rw [ht]
    exact barFragment_tasks _ _ _ _
  have hrun : ∃ f, exec (.barcodeSymbolDecoded eng y) s = run f s ∧ f (setPending [] s)
      = setPending [] (if leAt r.job.desc 0x24 1 ≤ r.aux.headD 0 + 1 then jobDone 3 eng Stat.ok t else t) := by
    refine ⟨_, by unfold exec; rfl, ?_⟩
    show (match runningOn s 3 eng with | none => _ | some r => _) = _
    rw [hr]
    refine (if_neg hno).trans ?_
    rw [barFragment_setPending, ht, hcount, ← ite_setPending]
    rfl
  refine ⟨fun h => gives_of_exists hq (hrun.imp fun f hf => ⟨hf.1, ?_⟩) htasks, fun h => gives_of_exists hq (hrun.imp fun f hf => ⟨hf.1, ?_⟩) htasks⟩
  · rw [hf.2, if_neg (Nat.not_le.mpr h)]
  · rw [hf.2, if_pos h]

/-- The search of a job is over at a step boundary. -/
def barExpire (eng : ℕ) (r : Running) (steps us located : ℕ) (s : State) : State :=
  modRunning 3 eng (fun r => { r with cursor := 1 }) (barFinish eng r 0x41 steps us located s)

/-- A step boundary of a search that is on. -/
theorem budgetExpiry_gives {eng steps us located : ℕ} {r : Running} {s t : State} (hq : Quiet s) (hr : runningOn s 3 eng = some r)
    (hg : groupUp s 2 = true) (hd : r.done = false) (ho : opOf r.job.desc = 1)
    (h : (if closedAt s r.job steps then barExpire eng r steps us located s
      else if (if detMode s then steps else us) < barBudget s r.job then s
      else barExpire eng r steps us located (setFlag Reg.bcdStatus.base 0 s)) = t) : Gives (.barcodeBudgetExpiry eng steps us located) s t := by
  have hno : ¬(!groupUp s 2 || r.done || opOf r.job.desc != 1) = true := by
    rw [hg, hd, ho]
    decide
  have hexpire (x : State) : (barExpire eng r steps us located x).tasks = x.tasks := barFinish_tasks _ _ _ _ _ _ x
  have htasks : t.tasks = s.tasks := by
    rw [← h, apply_ite State.tasks, apply_ite State.tasks, hexpire, hexpire, setFlag_tasks, ite_self, ite_self]
  refine gives_of_effect (by unfold exec; rfl) hq ?_ htasks
  show (match runningOn s 3 eng with | none => _ | some r => _) = _
  rw [hr]
  refine (if_neg hno).trans ?_
  rw [← h, ← ite_setPending, ← ite_setPending]
  unfold barExpire
  rw [← modRunning_setPending, ← modRunning_setPending, ← barFinish_setPending, ← barFinish_setPending]
  rfl

theorem budgetExpiry_cases {eng steps us located : ℕ} {r : Running} {s : State} (hq : Quiet s) (hr : runningOn s 3 eng = some r)
    (hg : groupUp s 2 = true) (hd : r.done = false) (ho : opOf r.job.desc = 1) :
    (closedAt s r.job steps = false → barBudget s r.job ≤ (if detMode s then steps else us) →
      Gives (.barcodeBudgetExpiry eng steps us located) s (barExpire eng r steps us located (setFlag Reg.bcdStatus.base 0 s)))
    ∧ (closedAt s r.job steps = false → (if detMode s then steps else us) < barBudget s r.job →
      Gives (.barcodeBudgetExpiry eng steps us located) s s)
    ∧ (itemEnded s (barItem r.job) = true → steps ≠ 0 → steps % 256 = 0 →
      Gives (.barcodeBudgetExpiry eng steps us located) s (barExpire eng r steps us located s)) := by
  refine ⟨fun hc hb => budgetExpiry_gives hq hr hg hd ho ?_, fun hc hb => budgetExpiry_gives hq hr hg hd ho ?_,
    fun he hs h256 => budgetExpiry_gives hq hr hg hd ho (if_pos ?_)⟩
  · rw [hc]
    exact if_neg (Nat.not_lt.mpr hb)
  · rw [hc]
    exact if_pos hb
  · rw [closedAt, he, h256, bne_iff_ne.mpr hs]
    rfl

theorem barFinish_closed {eng none_ steps us located : ℕ} {r : Running} {s : State} (hd : r.done = false) (hc : closedAt s r.job steps = true)
    (hn : none_ ≠ Stat.itemClosed) :
    barFinish eng r none_ steps us located s = jobDone 3 eng Stat.itemClosed (writeAll (leAt r.job.desc 0x28 8)
        (leBytes 1 Stat.itemClosed ++ leBytes 1 (r.aux.headD 0) ++ leBytes 2 0 ++ leBytes 4 steps ++ leBytes 4 us ++ leBytes 4 0) [] s).2 := by
  have hst : (if r.done then r.status else if closedAt s r.job steps then Stat.itemClosed else if r.aux.headD 0 ≠ 0 then Stat.ok else none_)
      = Stat.itemClosed := by
    rw [hd, hc]
    rfl
  unfold barFinish
  dsimp only
  rw [hst, if_neg (c := Stat.itemClosed = none_ ∧ _) fun h => hn h.1.symm]
  rfl

theorem runningOn_barFinish {eng none_ steps us located : ℕ} {r : Running} {s : State} (hr : runningOn s 3 eng = some r) (hh : r.held = [])
    (hd : detMode s = false) : ∃ x, runningOn (barFinish eng r none_ steps us located s) 3 eng = some x ∧ x.held = [] := by
  have hdone {x : Running} {t : State} (st : ℕ) (bs : List Byte) (hx : runningOn t 3 eng = some x) (hxh : x.held = []) :
      ∃ x, runningOn (jobDone 3 eng st (writeAll (leAt r.job.desc 0x28 8) bs [] t).2) 3 eng = some x ∧ x.held = [] :=
    ⟨_, runningOn_modRunning ((runningOn_congr ((memFrame_writeAll _ _ _ t).get State.eng)).trans hx), hxh⟩
  unfold barFinish
  dsimp only
  by_cases hc : (if r.done = true then r.status else if closedAt s r.job steps = true then Stat.itemClosed else if r.aux.headD 0 ≠ 0 then Stat.ok else none_)
      = none_ ∧ (!bitOf (leAt r.job.desc 3 1) 0) = true
  · rw [if_pos hc]
    obtain ⟨l, hl, hl0⟩ := runningOn_barFragment (kind := 2) (bs := leBytes 1 none_ ++ leBytes 1 (min located 255) ++ leBytes 2 0 ++ leBytes 4 steps) hr
    exact hdone _ _ hl (hl0 hd)
  · rw [if_neg hc]
    exact hdone _ _ hr hh

/-- A job whose search is over leaves its engine. -/
theorem leaveBarcode_over {eng steps us located : ℕ} {r : Running} {s : State} (hr : runningOn s 3 eng = some r) (hh : r.held = [])
    (ha : r.aux = [] ∨ r.cursor = 1) : leaveBarcode eng steps us located s = leaveEngine 3 eng us s := by
  have hover : (r.aux.isEmpty || r.cursor == 1) = true := by rcases ha with h | h <;> simp [h]
  unfold leaveBarcode
  rw [hr]
  dsimp only
  rw [hover, if_pos rfl, hr]
  dsimp only
  rw [hh]
  exact congrArg (leaveEngine 3 eng us) (barFlush_empty hr hh)

/-- A job whose search is on ends it and leaves its engine. -/
theorem leaveBarcode_on {eng steps us located : ℕ} {r : Running} {s : State} (hr : runningOn s 3 eng = some r) (hh : r.held = [])
    (ha : r.aux ≠ []) (hc : r.cursor ≠ 1) (hd : detMode s = false) :
    leaveBarcode eng steps us located s = leaveEngine 3 eng us (barFlush eng
      (modRunning 3 eng (fun r => { r with cursor := 1 }) (barFinish eng r 0x40 steps us located s))) := by
  have hon : ¬(r.aux.isEmpty || r.cursor == 1) = true := by simp [ha, hc]
  obtain ⟨x, hx, hxh⟩ := runningOn_barFinish (none_ := 0x40) (steps := steps) (us := us) (located := located) hr hh hd
  unfold leaveBarcode
  rw [hr]
  dsimp only
  rw [if_neg hon, runningOn_modRunning hx]
  dsimp only
  rw [hxh]
  rfl

theorem barcodeEnd_cases {m : MemRun} {eng steps us located : ℕ} {r : Running} {s u : State} (hu : u = seeEcc m.ecc s)
    (hr : runningOn s 3 eng = some r) (hg : groupUp s 2 = true) (hh : r.held = []) :
    (r.done = true → r.aux = [] ∨ r.cursor = 1 →
        GivesThen (.engineJobEnd 3 eng steps us located m) s (endJob 3 eng (noteEnd 3 r.status us u)))
      ∧ (r.done = false → r.aux ≠ [] → r.cursor ≠ 1 → detMode s = false →
        GivesThen (.engineJobEnd 3 eng steps us located m) s (leaveEngine 3 eng us (barFlush eng
          (modRunning 3 eng (fun r => { r with cursor := 1 }) (barFinish eng r 0x40 steps us located u))))) := by
  have hur : runningOn u 3 eng = some r := by
    rw [hu, seeEcc_running]
    exact hr
  have hup : ¬(!groupUp s (groupOfKind 3)) = true := by
    rw [show groupUp s (groupOfKind 3) = true from hg]
    decide
  have hgives {t : State} (h : leaveBarcode eng steps us located u = t) : GivesThen (.engineJobEnd 3 eng steps us located m) s t := by
    refine givesThen_of_effect (by unfold exec; rfl) ?_
    refine (if_neg hup).trans ((if_pos rfl).trans ?_)
    rw [seeEcc_setPending, ← hu, leaveBarcode_setPending, h]
  refine ⟨fun hd ha => hgives ?_, fun hd ha hc hdet => hgives (leaveBarcode_on hur hh ha hc ?_)⟩
  · rw [leaveBarcode_over hur hh ha, leaveEngine, hur]
    exact if_pos hd
  · rw [hu, detMode_seeEcc]
    exact hdet

end Sys2Proof.Machine
end

