-- ==== Sys2Proof/Proofs/RecRows.lean ====
section
/-! The record decoders: their jobs, the next record, and a record's end. -/

namespace Sys2Proof.Machine

open Sys2Proof

/-! ## Record decoders leave the tasks -/

theorem finishRecords_tasks (eng st : ℕ) (s : State) : (finishRecords eng st s).tasks = s.tasks := by
  unfold finishRecords
  split
  · rfl
  · dsimp only
    rw [jobDone_tasks, writeAll_tasks]

theorem resync_tasks (m : MemRun) (base len f o : ℕ) (s : State) : (resync m base len f o s).2.tasks = s.tasks := by
  induction f generalizing o s with
  | zero => rfl
  | succ f ih =>
    unfold resync
    dsimp only
    split
    · rfl
    split
    · exact runRead_tasks _ _ _ _
    split
    · exact runRead_tasks _ _ _ _
    · exact (ih _ _).trans (runRead_tasks _ _ _ _)

theorem resyncFrom_tasks (m : MemRun) (eng : ℕ) (j : Job) (x : Stream) (o : ℕ) (s : State) : (resyncFrom m eng j x o s).tasks = s.tasks := by
  have hresync (t : State) : (count (Reg.recSnapCnt.base + 16) ((resync m x.base x.len (x.len / 8 + 2) o t).1.2 - x.off)
      (seekStream j (resync m x.base x.len (x.len / 8 + 2) o t).1.2 (resync m x.base x.len (x.len / 8 + 2) o t).2)).tasks = t.tasks :=
    resync_tasks m _ _ _ _ t
  unfold resyncFrom
  dsimp only
  split
  · exact hresync _
  · exact (finishRecords_tasks _ _ _).trans (hresync _)

theorem judgeRecord_tasks (m : MemRun) (eng : ℕ) (j : Job) (x : Stream) (h : List Byte) (s : State) : (judgeRecord m eng j x h s).tasks = s.tasks := by
  simp only [judgeRecord, apply_ite State.tasks, resyncFrom_tasks, rejectRecord_tasks, seekStream_tasks, acceptRecord_tasks, finishRecords_tasks,
    runRead_tasks, count_tasks, bump_tasks, setFlag_tasks, ite_self]

theorem advanceRecords_tasks (m : MemRun) (eng f : ℕ) (s : State) : (advanceRecords m eng f s).tasks = s.tasks := by
  induction f generalizing s with
  | zero => rfl
  | succ f ih =>
    unfold advanceRecords
    split
    · rfl
    dsimp only
    split
    · rfl
    split
    · exact finishRecords_tasks _ _ _
    split
    · exact finishRecords_tasks _ _ _
    split
    · exact (finishRecords_tasks _ _ _).trans (runRead_tasks _ _ _ _)
    split
    · exact (ih _).trans ((resyncFrom_tasks _ _ _ _ _ _).trans (runRead_tasks _ _ _ _))
    split
    · exact (ih _).trans ((resyncFrom_tasks _ _ _ _ _ _).trans ((rejectRecord_tasks _ _ _ _ _).trans (runRead_tasks _ _ _ _)))
    · exact (ih _).trans ((judgeRecord_tasks _ _ _ _ _ _).trans (runRead_tasks _ _ _ _))

/-! ## A decoder takes a job or goes on -/

/-- A decoder goes on through its job's stream. -/
def goRecords (m : MemRun) (eng : ℕ) (s : State) : State :=
  advanceRecords m eng (((runningOn s 4 eng).elim 0 fun r => (jobStream s r.job).len) / 8 + 4) s

/-- A decoder's counts begin, and its stream where the job begins one. -/
def openRecords (eng : ℕ) (j : Job) (s : State) : State :=
  modRunning 4 eng (fun r => { r with aux := List.replicate 8 0 })
    (if bitOf (leAt j.desc 2 1) 0 then
       setStream { handle := j.task.handle, ctx := leAt j.desc 1 1, base := leAt j.desc 8 8, len := leAt j.desc 0x10 8, off := 0 } s
     else s)

/-- What a decode job does once it stands on its engine. -/
def recordJob (m : MemRun) (eng : ℕ) (j : Job) (s : State) : State :=
  match recordStart s j with
  | some st => jobDone 4 eng st s
  | none => goRecords m eng (openRecords eng j s)

theorem goRecords_setPending (m : MemRun) (eng : ℕ) (q : List Instr) (s : State) : goRecords m eng (setPending q s) = setPending q (goRecords m eng s) := by
  unfold goRecords
  rw [← advanceRecords_setPending]
  rfl

theorem openRecords_setPending (eng : ℕ) (j : Job) (q : List Instr) (s : State) :
    openRecords eng j (setPending q s) = setPending q (openRecords eng j s) := by
  unfold openRecords
  rw [← modRunning_setPending, ← ite_setPending]
  rfl

theorem recordJob_setPending (m : MemRun) (eng : ℕ) (j : Job) (q : List Instr) (s : State) :
    recordJob m eng j (setPending q s) = setPending q (recordJob m eng j s) := by
  unfold recordJob
  rw [recordStart_setPending]
  split
  · rfl
  · rw [openRecords_setPending, goRecords_setPending]

theorem goRecords_of_running {m : MemRun} {eng : ℕ} {r : Running} {j : Job} {s : State} (h : runningOn s 4 eng = some r) (hj : r.job = j) :
    goRecords m eng s = advanceRecords m eng ((jobStream s j).len / 8 + 4) s := by
  unfold goRecords
  rw [h, ← hj]
  rfl

theorem recordDecode_exec (m : MemRun) (eng : ℕ) (s : State) : exec (.recordDecode eng m) s = run (fun s =>
    match runningOn s 4 eng with
    | some _ => if groupUp s 2 then goRecords m eng (seeEcc m.ecc s) else s
    | none => takeRun 4 eng [1] m (recordJob m eng) s) s := by
  unfold exec
  rfl

theorem recordDecode_goes {m : MemRun} {eng : ℕ} {r : Running} {s u : State} (hq : Quiet s) (hu : u = seeEcc m.ecc s)
    (hr : runningOn s 4 eng = some r) (hg : groupUp s 2 = true) :
    Gives (.recordDecode eng m) s (advanceRecords m eng ((jobStream u r.job).len / 8 + 4) u) := by
  have hur : runningOn u 4 eng = some r := by
    rw [hu, seeEcc_running]
    exact hr
  refine gives_of_effect (recordDecode_exec m eng s) hq ?_ ((advanceRecords_tasks _ _ _ _).trans (hu ▸ seeEcc_tasks _ _))
  show (match runningOn s 4 eng with | some _ => _ | none => _) = _
  rw [hr]
  refine (if_pos hg).trans ?_
  rw [seeEcc_setPending, ← hu, goRecords_setPending, goRecords_of_running hur rfl]

theorem find_append_none {α : Type} {p : α → Bool} {l : List α} {x : α} (h : l.find? p = none) (hx : p x = true) : (l ++ [x]).find? p = some x := by
  rw [List.find?_append, h, Option.none_or, List.find?_cons, hx]

/-- The job that an engine has taken is the one that it runs. -/
theorem runningOn_taken {kind eng : ℕ} {j : Job} {s : State} (hm : MayTake kind eng j s) :
    runningOn (taken eng j s) kind eng = some (Running.start eng j) := by
  obtain ⟨-, -, hr, hn⟩ := hm
  have hj := List.find?_some hn
  simp only [Bool.and_eq_true, beq_iff_eq] at hj
  refine find_append_none hr ?_
  show (j.kind == kind && eng == eng) = true
  rw [hj.1.1]
  simp

theorem recordDecode_takes {m : MemRun} {eng : ℕ} {j : Job} {s t u : State} (hq : Quiet s) (hu : u = seeEcc m.ecc (taken eng j s))
    (hm : MayTake 4 eng j s) (ho : opOf j.desc = 1) (ht : t = openRecords eng j u) :
    (∀ st, recordStart u j = some st → Gives (.recordDecode eng m) s (jobDone 4 eng st u))
      ∧ (recordStart u j = none → Gives (.recordDecode eng m) s (advanceRecords m eng ((jobStream t j).len / 8 + 4) t)) := by
  have hidle := hm.2.2.1
  have hgives {t : State} (h : recordJob m eng j u = t) (ht : t.tasks = u.tasks) : Gives (.recordDecode eng m) s t := by
    have hm' : MayTake 4 eng j (setPending [] s) := hm
    refine gives_of_effect (recordDecode_exec m eng s) hq ?_ (ht.trans (hu ▸ seeEcc_tasks _ _))
    show (match runningOn s 4 eng with | some _ => _ | none => _) = _
    rw [hidle]
    show takeRun 4 eng [1] m (recordJob m eng) (setPending [] s) = _
    unfold takeRun
    have hk : [1].contains (opOf j.desc) = true := by
      rw [ho]
      rfl
    rw [takeOp_next hm', hk, ho]
    show recordJob m eng j (seeEcc m.ecc (setPending [] (taken eng j s))) = _
    rw [seeEcc_setPending, ← hu, recordJob_setPending, h]
  have hur : runningOn u 4 eng = some (Running.start eng j) := by
    rw [hu, seeEcc_running]
    exact runningOn_taken hm
  have hset : runningOn (if bitOf (leAt j.desc 2 1) 0 then
      setStream { handle := j.task.handle, ctx := leAt j.desc 1 1, base := leAt j.desc 8 8, len := leAt j.desc 0x10 8, off := 0 } u else u) 4 eng
      = some (Running.start eng j) := by
    split
    · exact hur
    · exact hur
  have htr : runningOn t 4 eng = some { Running.start eng j with aux := List.replicate 8 0 } := ht ▸ runningOn_modRunning hset
  have htasks : t.tasks = u.tasks := by
    rw [ht]
    unfold openRecords
    rw [modRunning_tasks, apply_ite State.tasks, setStream_tasks, ite_self]
  refine ⟨fun st h => hgives ?_ rfl, fun h => hgives ?_ ((advanceRecords_tasks _ _ _ _).trans htasks)⟩
  · unfold recordJob
    rw [h]
  · unfold recordJob
    rw [h, ← ht]
    exact goRecords_of_running htr rfl

/-! ## The next record of a stream -/

/-- A decoder that runs a job and holds no record looks at its stream. -/
theorem advanceRecords_ready {m : MemRun} {eng f : ℕ} {r : Running} {s : State} (hr : runningOn s 4 eng = some r) (hd : r.done = false)
    (hc : r.current = []) : advanceRecords m eng (f + 1) s =
      if leAt r.job.desc 4 4 ≤ r.num 0 + r.num 1 then finishRecords eng Stat.ok s
      else if (jobStream s r.job).len < (jobStream s r.job).off + 32 then
        finishRecords eng Stat.ok (seekStream r.job (max (jobStream s r.job).off (jobStream s r.job).len)
          (count (Reg.recSnapCnt.base + 16) ((jobStream s r.job).len - (jobStream s r.job).off) s))
      else
        let h := runRead m ((jobStream s r.job).base + (jobStream s r.job).off) 32 s
        if h.1.status ≠ Stat.ok then finishRecords eng h.1.status h.2
        else if !recMagic h.1.data then advanceRecords m eng f (resyncFrom m eng r.job (jobStream s r.job) ((jobStream s r.job).off + 8) h.2)
        else if !recCheck h.1.data then
          advanceRecords m eng f (resyncFrom m eng r.job (jobStream s r.job) ((jobStream s r.job).off + 8) (rejectRecord eng r.job.desc h.1.data false h.2))
        else advanceRecords m eng f (judgeRecord m eng r.job (jobStream s r.job) h.1.data h.2) := by
  conv_lhs => unfold advanceRecords
  rw [hr]
  have hbusy : ¬(r.done || !r.current.isEmpty) = true := by
    rw [hd, hc]
    decide
  exact if_neg hbusy

/-- A decoder that has read a whole header. -/
theorem advanceRecords_header {m : MemRun} {eng f : ℕ} {r : Running} {x : Stream} {h : List Byte} {s u : State}
    (hr : runningOn s 4 eng = some r) (hx : x = jobStream s r.job) (hd : r.done = false) (hc : r.current = [])
    (hn : r.num 0 + r.num 1 < leAt r.job.desc 4 4) (hl : x.off + 32 ≤ x.len)
    (hu : runRead m (x.base + x.off) 32 s = ({ status := Stat.ok, data := h }, u)) : advanceRecords m eng (f + 1) s =
      if !recMagic h then advanceRecords m eng f (resyncFrom m eng r.job x (x.off + 8) u)
      else if !recCheck h then advanceRecords m eng f (resyncFrom m eng r.job x (x.off + 8) (rejectRecord eng r.job.desc h false u))
      else advanceRecords m eng f (judgeRecord m eng r.job x h u) := by
  rw [advanceRecords_ready hr hd hc, ← hx, if_neg (Nat.not_le.mpr hn), if_neg (Nat.not_lt.mpr hl), hu]
  rfl

/-- What a record that fits its stream and whose fields fit its job is judged by. -/
theorem judgeRecord_fits {m : MemRun} {eng : ℕ} {j : Job} {x : Stream} {h : List Byte} {u : State} (hl : x.off + 32 + leAt h 8 4 ≤ x.len)
    (ht : leAt h 4 1 = 1 ∨ leAt h 4 1 = 2) (hf : recFields h = true) (hroom : 0x40 + recPixels h ≤ recRoom u j)
    (hraw : leAt h 4 1 = 1 → leAt h 8 4 = recPixels h) : judgeRecord m eng j x h u =
      if lateItem u (recItem h) then seekStream j (recNext x.off h) u
      else if leAt h 4 1 = 1 ∨ recPixels h = 0 then acceptRecord eng j x h u
      else
        let r := runRead m (x.base + x.off + 32) (leAt h 8 4) u
        if r.1.status ≠ Stat.ok then finishRecords eng r.1.status r.2
        else if (jlsDecode r.1.data (leAt h 5 1) (leAt h 6 2) (leAt h 0x12 2)).isNone then
          seekStream j (recNext x.off h) (rejectRecord eng j.desc h true (setFlag Reg.recStatus.base 3 r.2))
        else acceptRecord eng j x h r.2 := by
  have hty : ¬(leAt h 4 1 ≠ 1 ∧ leAt h 4 1 ≠ 2) := fun hn => ht.elim hn.1 hn.2
  have hgood : ¬(!recFields h || decide (recRoom u j < 0x40 + recPixels h) || (leAt h 4 1 == 1 && leAt h 8 4 != recPixels h)) = true := by
    rw [hf, decide_eq_false (Nat.not_lt.mpr hroom)]
    simpa using hraw
  unfold judgeRecord
  dsimp only
  rw [if_neg (Nat.not_lt.mpr hl), if_neg hty, if_neg hgood]

/-! ## A record is done -/

/-- What a decoder that has read a record's payload into `p` leaves. -/
def completeWith (m : MemRun) (eng : ℕ) (r : Running) (p : AccessResult) (s : State) : State :=
  let d := r.job.desc
  let h := r.current
  if p.status ≠ Stat.ok then s |> closeRecord eng r p.status 0 |> finishRecords eng p.status
  else
    let (px, valid) := recDecode h p.data
    let good := crc32c p.data == leAt h 0x1C 4
    let st := if !valid then 0x44 else if !good then 0x42 else Stat.ok
    let s := if good then s else setFlag Reg.recStatus.base 2 s
    let s := if valid then s else setFlag Reg.recStatus.base 3 s
    let a := recAddr s r
    let (w, s) := writeRuns m [(a, h), (a + 0x20, leBytes 1 st), (a + 0x40, px)] s
    if w ≠ Stat.ok then s |> closeRecord eng r w 0 |> finishRecords eng w
    else
      let s := closeRecord eng r st (crc64 0 px) s
      if leAt d 4 4 ≤ r.num 0 + r.num 1 + 1 then finishRecords eng Stat.ok s else s

/-- What a decoder that holds a record leaves when the record is done. -/
def completeRecord (m : MemRun) (eng : ℕ) (s : State) : State :=
  match runningOn s 4 eng with
  | none => s
  | some r =>
    if !groupUp s 2 || r.done || r.current.isEmpty || (bitOf (leAt r.job.desc 2 1) 1 && r.num 5 == 0) then s
    else completeWith m eng r (runRead m (r.num 4) (leAt r.current 8 4) (seeEcc m.ecc s)).1 (runRead m (r.num 4) (leAt r.current 8 4) (seeEcc m.ecc s)).2

theorem recordComplete_exec (m : MemRun) (eng : ℕ) (s : State) : exec (.recordComplete eng m) s = run (completeRecord m eng) s := by
  unfold exec
  rfl

theorem completeWith_setPending (m : MemRun) (eng : ℕ) (r : Running) (p : AccessResult) (q : List Instr) (s : State) :
    completeWith m eng r p (setPending q s) = setPending q (completeWith m eng r p s) := by
  simp only [completeWith, setFlag_setPending, closeRecord_setPending, finishRecords_setPending, recAddr_setPending, writeRuns_setPending, ite_setPending]

theorem completeRecord_setPending (m : MemRun) (eng : ℕ) (q : List Instr) (s : State) :
    completeRecord m eng (setPending q s) = setPending q (completeRecord m eng s) := by
  unfold completeRecord
  show (match runningOn s 4 eng with | none => _ | some r => _) = _
  cases runningOn s 4 eng with
  | none => rfl
  | some r =>
    dsimp only
    rw [seeEcc_setPending, runRead_setPending, completeWith_setPending, ← ite_setPending]
    rfl

theorem completeRecord_running {m : MemRun} {eng : ℕ} {r : Running} {s : State} (hr : runningOn s 4 eng = some r) (hg : groupUp s 2 = true)
    (hd : r.done = false) (hc : r.current ≠ []) (hb : bitOf (leAt r.job.desc 2 1) 1 = false) : completeRecord m eng s =
      completeWith m eng r (runRead m (r.num 4) (leAt r.current 8 4) (seeEcc m.ecc s)).1 (runRead m (r.num 4) (leAt r.current 8 4) (seeEcc m.ecc s)).2 := by
  have hbusy : ¬(!groupUp s 2 || r.done || r.current.isEmpty || (bitOf (leAt r.job.desc 2 1) 1 && r.num 5 == 0)) = true := by
    rw [hg, hd, hb]
    simpa using hc
  unfold completeRecord
  rw [hr]
  exact if_neg hbusy

/-- A record whose payload is read and decoded, and that is written to its place. -/
theorem completeWith_decoded {m : MemRun} {eng a st : ℕ} {r : Running} {bs px : List Byte} {u s1 : State}
    (hb : bitOf (leAt r.job.desc 2 1) 1 = false) (hdec : recDecode r.current bs = (px, true))
    (hst : st = (if crc32c bs = leAt r.current 0x1C 4 then Stat.ok else 0x42)) (ha : a = leAt r.job.desc 0x18 8 + (r.num 0 + r.num 1) * leAt r.job.desc 0x20 4)
    (hw : writeRuns m [(a, r.current), (a + 0x20, leBytes 1 st), (a + 0x40, px)] (if st = Stat.ok then u else setFlag Reg.recStatus.base 2 u) = (Stat.ok, s1)) :
    completeWith m eng r { status := Stat.ok, data := bs } u =
      if leAt r.job.desc 4 4 ≤ r.num 0 + r.num 1 + 1 then finishRecords eng Stat.ok (closeRecord eng r st (crc64 0 px) s1)
      else closeRecord eng r st (crc64 0 px) s1 := by
  have haddr (v : State) : recAddr v r = a := by
    unfold recAddr
    dsimp only
    rw [hb, ha]
    rfl
  have hstatus : (if crc32c bs == leAt r.current 0x1C 4 then Stat.ok else 0x42) = st := by
    rw [hst]
    simp only [beq_iff_eq]
  have hgood : (if crc32c bs == leAt r.current 0x1C 4 then u else setFlag Reg.recStatus.base 2 u) = if st = Stat.ok then u else setFlag Reg.recStatus.base 2 u := by
    rw [hst]
    by_cases h : crc32c bs = leAt r.current 0x1C 4
    · rw [if_pos h, if_pos rfl, if_pos (beq_iff_eq.mpr h)]
    · rw [if_neg (fun hb => h (beq_iff_eq.mp hb)), if_neg h]
      exact (if_neg (by decide)).symm
  have hstatus' : (if !true then 0x44 else if !(crc32c bs == leAt r.current 0x1C 4) then 0x42 else Stat.ok) = st := by
    rw [← hstatus]
    cases crc32c bs == leAt r.current 0x1C 4
    · rfl
    · rfl
  unfold completeWith
  dsimp only
  rw [if_neg (fun h => h rfl), hdec, hgood]
  dsimp only
  rw [hstatus', if_pos rfl, haddr, hw]
  exact if_neg (fun h => h rfl)

theorem recordComplete_cases {m : MemRun} {eng : ℕ} {r : Running} {h bs px : List Byte} {st a : ℕ} {s u s1 t : State} (hq : Quiet s)
    (hr : runningOn s 4 eng = some r) (hg : groupUp s 2 = true) (hd : r.done = false) (hh : h = r.current) (hc : h ≠ [])
    (hb : bitOf (leAt r.job.desc 2 1) 1 = false) (hu : runRead m (r.num 4) (leAt h 8 4) (seeEcc m.ecc s) = ({ status := Stat.ok, data := bs }, u))
    (hdec : recDecode h bs = (px, true)) (hst : st = (if crc32c bs = leAt h 0x1C 4 then Stat.ok else 0x42))
    (ha : a = leAt r.job.desc 0x18 8 + (r.num 0 + r.num 1) * leAt r.job.desc 0x20 4)
    (hw : writeRuns m [(a, h), (a + 0x20, leBytes 1 st), (a + 0x40, px)] (if st = Stat.ok then u else setFlag Reg.recStatus.base 2 u) = (Stat.ok, s1))
    (ht : t = closeRecord eng r st (crc64 0 px) s1) :
    (r.num 0 + r.num 1 + 1 < leAt r.job.desc 4 4 → Gives (.recordComplete eng m) s t)
      ∧ (leAt r.job.desc 4 4 ≤ r.num 0 + r.num 1 + 1 → Gives (.recordComplete eng m) s (finishRecords eng Stat.ok t)) := by
  subst hh
  have hdone {v : State} (hv : (if leAt r.job.desc 4 4 ≤ r.num 0 + r.num 1 + 1 then finishRecords eng Stat.ok t else t) = v)
      (hvt : v.tasks = t.tasks) : Gives (.recordComplete eng m) s v := by
    have htasks : t.tasks = s.tasks := by
      have hread := runRead_tasks m (r.num 4) (leAt r.current 8 4) (seeEcc m.ecc s)
      have hwrite := writeRuns_tasks m [(a, r.current), (a + 0x20, leBytes 1 st), (a + 0x40, px)] (if st = Stat.ok then u else setFlag Reg.recStatus.base 2 u)
      rw [hu] at hread
      rw [hw, apply_ite State.tasks, setFlag_tasks, ite_self] at hwrite
      rw [ht, closeRecord_tasks, hwrite, hread, seeEcc_tasks]
    refine gives_of_effect (recordComplete_exec m eng s) hq ?_ (hvt.trans htasks)
    have hcalm : completeRecord m eng s = v := by
      rw [completeRecord_running hr hg hd hc hb, hu, completeWith_decoded hb hdec hst ha hw, ← ht, hv]
    rw [completeRecord_setPending, hcalm]
  refine ⟨fun hn => hdone (if_neg (Nat.not_le.mpr hn)) rfl, fun hn => hdone (if_pos hn) (finishRecords_tasks _ _ _)⟩

theorem judged_records {m : MemRun} {eng f : ℕ} {r : Running} {x : Stream} {h : List Byte} {s : State} (hr : runningOn s 4 eng = some r)
    (hx : x = jobStream s r.job) (hd : r.done = false) (hc : r.current = []) :
    (leAt r.job.desc 4 4 ≤ r.num 0 + r.num 1 → advanceRecords m eng (f + 1) s = finishRecords eng Stat.ok s)
      ∧ (r.num 0 + r.num 1 < leAt r.job.desc 4 4 → x.len < x.off + 32 → advanceRecords m eng (f + 1) s
          = finishRecords eng Stat.ok (seekStream r.job (max x.off x.len) (count (Reg.recSnapCnt.base + 16) (x.len - x.off) s)))
      ∧ (r.num 0 + r.num 1 < leAt r.job.desc 4 4 → x.off + 32 ≤ x.len → ∀ u, runRead m (x.base + x.off) 32 s = ({ status := Stat.ok, data := h }, u) →
        (recMagic h = false → advanceRecords m eng (f + 1) s = advanceRecords m eng f (resyncFrom m eng r.job x (x.off + 8) u))
        ∧ (recMagic h = true → recCheck h = false → advanceRecords m eng (f + 1) s
            = advanceRecords m eng f (resyncFrom m eng r.job x (x.off + 8) (rejectRecord eng r.job.desc h false u)))
        ∧ (recMagic h = true → recCheck h = true → x.off + 32 + leAt h 8 4 ≤ x.len → leAt h 4 1 = 1 → recFields h = true →
            0x40 + recPixels h ≤ recRoom u r.job → leAt h 8 4 = recPixels h →
            advanceRecords m eng (f + 1) s = advanceRecords m eng f
              (if lateItem u (recItem h) then seekStream r.job (recNext x.off h) u else acceptRecord eng r.job x h u))
        ∧ (∀ bs v, recMagic h = true → recCheck h = true → x.off + 32 + leAt h 8 4 ≤ x.len → leAt h 4 1 = 2 → recFields h = true →
            recPixels h ≠ 0 → 0x40 + recPixels h ≤ recRoom u r.job → lateItem u (recItem h) = false →
            runRead m (x.base + x.off + 32) (leAt h 8 4) u = ({ status := Stat.ok, data := bs }, v) →
            (jlsDecode bs (leAt h 5 1) (leAt h 6 2) (leAt h 0x12 2) = none → advanceRecords m eng (f + 1) s = advanceRecords m eng f
              (seekStream r.job (recNext x.off h) (rejectRecord eng r.job.desc h true (setFlag Reg.recStatus.base 3 v))))
            ∧ (jlsDecode bs (leAt h 5 1) (leAt h 6 2) (leAt h 0x12 2) ≠ none →
              advanceRecords m eng (f + 1) s = advanceRecords m eng f (acceptRecord eng r.job x h v)))) := by
  refine ⟨fun hn => ?_, fun hn hl => ?_, fun hn hl u hu => ?_⟩
  · rw [advanceRecords_ready hr hd hc, if_pos hn]
  · rw [advanceRecords_ready hr hd hc, ← hx, if_neg (Nat.not_le.mpr hn), if_pos hl]
  have hhead := advanceRecords_header hr hx hd hc hn hl hu (f := f)
  refine ⟨fun hm => ?_, fun hm hk => ?_, fun hm hk hlen hty hf hroom hraw => ?_, fun bs v hm hk hlen hty hf hpx hroom hlate hv => ?_⟩
  · rw [hhead, hm]
    rfl
  · rw [hhead, hm, hk]
    rfl
  · rw [hhead, hm, hk, judgeRecord_fits hlen (.inl hty) hf hroom (fun _ => hraw), if_pos (Or.inl hty)]
    rfl
  · have hplain : ¬(leAt h 4 1 = 1 ∨ recPixels h = 0) := by omega
    have hjudge : judgeRecord m eng r.job x h u = if (jlsDecode bs (leAt h 5 1) (leAt h 6 2) (leAt h 0x12 2)).isNone then
          seekStream r.job (recNext x.off h) (rejectRecord eng r.job.desc h true (setFlag Reg.recStatus.base 3 v))
        else acceptRecord eng r.job x h v := by
      rw [judgeRecord_fits hlen (.inr hty) hf hroom (fun h1 => by omega), hlate, if_neg hplain, hv]
      rfl
    refine ⟨fun hj => ?_, fun hj => ?_⟩
    · rw [hhead, hm, hk, hjudge, hj]
      rfl
    · rw [hhead, hm, hk, hjudge, Option.isNone_eq_false_iff.mpr (Option.isSome_iff_ne_none.mpr hj)]
      rfl

/-- Settles O44: what the barcode engines and the record decoders leave, row by row; a decoder's next header is judged by `advanceRecords_ready`,
and what a record that fits leaves by `judgeRecord_fits`. -/
theorem barcodesAndRecords : Obligations.BarcodesAndRecords := by
  intro m eng s hq
  refine ⟨fun _ _ hu hm ho => barcodeDecode_cases hq hu hm ho,
    fun _ _ _ hu hm ho ha hpool hclean he hp => loadProfile_cases hq hu hm ho ha hpool hclean he hp,
    fun _ _ _ hr hg hd ho hy ht => symbolDecoded_cases hq hr hg hd ho hy ht, fun _ _ _ hr hd hh hk => barFragment_attaches hr hd hh hk,
    fun _ _ _ _ hr hg hd ho => (budgetExpiry_cases hq hr hg hd ho).1, fun _ _ _ _ hr hg hd ho => (budgetExpiry_cases hq hr hg hd ho).2.1,
    fun _ _ _ _ hr hg hd ho => (budgetExpiry_cases hq hr hg hd ho).2.2, fun _ _ _ _ _ _ hd _ hc hn => barFinish_closed hd hc hn,
    fun _ _ _ _ _ hu hr hg hh => barcodeEnd_cases hu hr hg hh, fun _ _ _ hu hm ho ht => recordDecode_takes hq hu hm ho ht,
    fun _ _ hu hr hg => recordDecode_goes hq hu hr hg, fun _ _ _ _ hr hx hd hc => judged_records hr hx hd hc,
    fun _ _ _ _ _ _ _ _ _ hr hg hd hh hc hb hu hdec hst ha hw ht => recordComplete_cases hq hr hg hd hh hc hb hu hdec hst ha hw ht⟩

end Sys2Proof.Machine
end

