-- ==== Sys2Proof/Proofs/CadRows.lean ====
section
/-! The Caddy's jobs, and the batches of its queues. -/

namespace Sys2Proof.Machine

open Sys2Proof

/-! ## An engine takes a job -/

theorem takeOp_gives {c : Instr} {kind eng : ℕ} {ops : List ℕ} {f : Job → State → State} {j : Job} {s t : State}
    (hc : exec c s = run (takeOp kind eng ops f) s) (hq : Quiet s) (hm : MayTake kind eng j s)
    (hk : (kindOps kind).contains (opOf j.desc) = true) (ho : ops.contains (opOf j.desc) = true)
    (hf : ∀ q s, f j (setPending q s) = setPending q (f j s)) (h : f j (taken eng j s) = t) (ht : t.tasks = s.tasks) : Gives c s t := by
  have hm' : MayTake kind eng j (setPending [] s) := hm
  refine gives_of_effect hc hq ?_ ht
  rw [takeOp_next hm', hk, ho]
  show f j (setPending [] (taken eng j s)) = _
  rw [hf, h]

/-! ## Frames of a queue's batches -/

theorem fillWindow_tasks (h q : ℕ) (s : State) : (fillWindow h q s).tasks = s.tasks := by
  unfold fillWindow
  split
  · rfl
  split
  · rfl
  split
  · rfl
  · dsimp only
    rw [foldl_keeps State.tasks (fun _ _ => voidSample_tasks _ _ _ _)]
    rfl

theorem openBatch_tasks (h q : ℕ) (s : State) : (openBatch h q s).tasks = s.tasks := fillWindow_tasks h q _

theorem cropToSlot_tasks (c : CaddyQ) (b : Batch) (i : ℕ) (o : Offer) (s : State) : (cropToSlot c b i o s).tasks = s.tasks := by
  have hdraw (d box : List Byte) (a : ℕ) (t : State) : (drawCrop d box a t).2.tasks = t.tasks := drawRows_tasks _ _ _ _ _ _ _ _ _ _
  unfold cropToSlot
  split
  · rfl
  · simp only [apply_ite State.tasks, jobDone_tasks, nextBox_tasks, refusedSample_tasks, settleSlot_tasks, bump_tasks, boxCropped_tasks, hdraw,
      takeSlot_tasks, ite_self]

/-! ## Configure, window and flush jobs -/

/-- What a configure job does once it stands on the Caddy. -/
def configureJob (j : Job) (s : State) : State :=
  match configureStart s j with
  | some st => jobDone 7 0 st s
  | none => jobDone 7 0 Stat.ok (modCaddy j.task.handle (leAt j.desc 1 1) (fun c => { c with nextCfg := some j.desc })
      (ensureQueue j.task.handle (leAt j.desc 1 1) s))

/-- What a window job does once it stands on the Caddy. -/
def windowJob (j : Job) (s : State) : State :=
  let n := leAt j.desc 0x28 2
  let a := leAt j.desc 0x20 8
  match startStatus (caddyFields s j ++ [(decide (256 < n), Stat.badFormat)]) (!detMode s || n == 0) [bad (localExtent s a (8 * n))] with
  | some st => jobDone 7 0 st s
  | none =>
    let (r, s) := readMem a (8 * n) [] s
    if r.status ≠ Stat.ok then jobDone 7 0 r.status s
    else jobDone 7 0 Stat.ok (fillWindow j.task.handle (leAt j.desc 1 1)
      (modCaddy j.task.handle (leAt j.desc 1 1) (fun c => { c with window := c.window ++ windowSamples n r.data })
        (ensureQueue j.task.handle (leAt j.desc 1 1) s)))

/-- The open batch of a queue closes if a slot of it was taken. -/
def flushQueue (h q : ℕ) (s : State) : State :=
  match (caddyOf s h q).bind (·.open_) with
  | some b => if b.begun && !b.isWindow then modBatch h q b.no (fun b => { b with closed := true, flags := b.flags ||| 2 }) s else s
  | none => s

/-- What a flush job does once it stands on the Caddy. -/
def flushJob (j : Job) (s : State) : State :=
  match startStatus (caddyFields s j) false [] with
  | some st => jobDone 7 0 st s
  | none => jobDone 7 0 Stat.ok (flushQueue j.task.handle (leAt j.desc 1 1) s)

theorem configureJob_setPending (j : Job) (q : List Instr) (s : State) : configureJob j (setPending q s) = setPending q (configureJob j s) := by
  have hstart : configureStart (setPending q s) j = configureStart s j := rfl
  unfold configureJob
  rw [hstart, ensureQueue_setPending]
  split
  · rfl
  · rfl

theorem flushQueue_setPending (h k : ℕ) (q : List Instr) (s : State) : flushQueue h k (setPending q s) = setPending q (flushQueue h k s) := by
  unfold flushQueue
  show (match (caddyOf s h k).bind (·.open_) with | some b => _ | none => _) = _
  split
  · rw [← ite_setPending]
    rfl
  · rfl

theorem flushJob_setPending (j : Job) (q : List Instr) (s : State) : flushJob j (setPending q s) = setPending q (flushJob j s) := by
  have hfields : caddyFields (setPending q s) j = caddyFields s j := rfl
  unfold flushJob
  rw [hfields, flushQueue_setPending]
  split
  · rfl
  · rfl

theorem windowJob_setPending (j : Job) (q : List Instr) (s : State) : windowJob j (setPending q s) = setPending q (windowJob j s) := by
  have hfields : caddyFields (setPending q s) j = caddyFields s j := rfl
  unfold windowJob
  simp only [hfields, detMode_setPending, localExtent_pending, readMem_setPending, ensureQueue_setPending, modCaddy_setPending, fillWindow_setPending,
    jobDone_setPending, ite_setPending]
  split <;> rfl

theorem startStatus_of_fields {l : List (Bool × ℕ)} {b : Bool} {g : List (Bool × ℕ)} (h : firstStatus l = none) :
    startStatus l b g = if b then some Stat.ok else firstStatus g := by
  unfold startStatus
  rw [h]

theorem firstStatus_append {l r : List (Bool × ℕ)} (h : firstStatus l = none) : firstStatus (l ++ r) = firstStatus r := by
  induction l with
  | nil => rfl
  | cons x l ih =>
    obtain ⟨c, st⟩ := x
    cases c with
    | true => cases h
    | false => exact ih h

theorem caddyConfigure_cases {j : Job} {s : State} (hq : Quiet s) (hm : MayTake 7 0 j s) (ho : opOf j.desc = 1) :
    (∀ st, configureStart s j = some st → Gives .caddyConfigure s (jobDone 7 0 st (taken 0 j s)))
      ∧ (configureStart s j = none → Gives .caddyConfigure s (jobDone 7 0 Stat.ok
          (modCaddy j.task.handle (leAt j.desc 1 1) (fun c => { c with nextCfg := some j.desc })
            (ensureQueue j.task.handle (leAt j.desc 1 1) (taken 0 j s))))) := by
  have hstart : configureStart (taken 0 j s) j = configureStart s j := rfl
  have hgives {t : State} (h : configureJob j (taken 0 j s) = t) (ht : t.tasks = s.tasks) : Gives .caddyConfigure s t :=
    takeOp_gives (by unfold exec; rfl) hq hm (by rw [ho]; rfl) (by rw [ho]; rfl) (configureJob_setPending j) h ht
  refine ⟨fun st h => hgives ?_ rfl, fun h => hgives ?_ (ensureQueue_tasks _ _ _)⟩
  · unfold configureJob
    rw [hstart, h]
  · unfold configureJob
    rw [hstart, h]

theorem caddyFlush_cases {j : Job} {b : Batch} {s : State} (hq : Quiet s) (hm : MayTake 7 0 j s) (ho : opOf j.desc = 3)
    (hf : firstStatus (caddyFields s j) = none) :
    ((caddyOf s j.task.handle (leAt j.desc 1 1)).bind (·.open_) = some b → b.begun = true → b.isWindow = false →
        Gives .caddyFlush s (jobDone 7 0 Stat.ok (modBatch j.task.handle (leAt j.desc 1 1) b.no
          (fun b => { b with closed := true, flags := b.flags ||| 2 }) (taken 0 j s))))
      ∧ ((caddyOf s j.task.handle (leAt j.desc 1 1)).bind (·.open_) = none → Gives .caddyFlush s (jobDone 7 0 Stat.ok (taken 0 j s))) := by
  have hfields : caddyFields (taken 0 j s) j = caddyFields s j := rfl
  have hgives {t : State} (h : flushQueue j.task.handle (leAt j.desc 1 1) (taken 0 j s) = t) (ht : t.tasks = s.tasks) :
      Gives .caddyFlush s (jobDone 7 0 Stat.ok t) := by
    refine takeOp_gives (f := flushJob) (by unfold exec; rfl) hq hm (by rw [ho]; rfl) (by rw [ho]; rfl) (flushJob_setPending j) ?_ ht
    unfold flushJob
    rw [hfields, startStatus_of_fields hf, h]
    rfl
  refine ⟨fun h hb hw => hgives ?_ rfl, fun h => hgives ?_ rfl⟩
  · show (match (caddyOf s j.task.handle (leAt j.desc 1 1)).bind (·.open_) with | some b => _ | none => _) = _
    rw [h]
    exact if_pos (by rw [hb, hw]; rfl)
  · show (match (caddyOf s j.task.handle (leAt j.desc 1 1)).bind (·.open_) with | some b => _ | none => _) = _
    rw [h]

theorem caddyWindow_cases {m : MemRun} {j : Job} {n a : ℕ} {s u : State} (hq : Quiet s) (hu : u = seeEcc m.ecc (taken 0 j s))
    (hm : MayTake 7 0 j s) (ho : opOf j.desc = 2) (hn : n = leAt j.desc 0x28 2) (ha : a = leAt j.desc 0x20 8)
    (hf : firstStatus (caddyFields u j) = none) :
    (detMode u = false → n ≤ 256 → Gives (.caddyWindow m) s (jobDone 7 0 Stat.ok u))
      ∧ (256 < n → Gives (.caddyWindow m) s (jobDone 7 0 Stat.badFormat u))
      ∧ (detMode u = true → n ≠ 0 → n ≤ 256 → localExtent u a (8 * n) = Stat.ok → poisonHit u.sq.poison a (8 * n) = false →
        Gives (.caddyWindow m) s (jobDone 7 0 Stat.ok (fillWindow j.task.handle (leAt j.desc 1 1)
          (modCaddy j.task.handle (leAt j.desc 1 1) (fun c => { c with window := c.window ++ windowSamples n (devGet u a (8 * n)) })
            (ensureQueue j.task.handle (leAt j.desc 1 1) u))))) := by
  have hgives {t : State} (h : windowJob j u = t) (ht : t.tasks = u.tasks) : Gives (.caddyWindow m) s t :=
    takeRun_gives (f := windowJob) (by unfold exec; rfl) hq hm (by rw [ho]; rfl) (by rw [ho]; rfl) hu (windowJob_setPending j) h ht
  have hsmall (h : n ≤ 256) (b : Bool) (g : List (Bool × ℕ)) : startStatus (caddyFields u j ++ [(decide (256 < n), Stat.badFormat)]) b g
      = if b then some Stat.ok else firstStatus g := by
    refine startStatus_of_fields ((firstStatus_append hf).trans ?_)
    rw [decide_eq_false (Nat.not_lt.mpr h)]
    rfl
  refine ⟨fun hd h => hgives ?_ rfl, fun h => hgives ?_ rfl, fun hd h0 h he hp => hgives ?_ ((fillWindow_tasks _ _ _).trans (ensureQueue_tasks _ _ _))⟩
  · unfold windowJob
    dsimp only
    rw [← hn, ← ha, hsmall h, hd]
    rfl
  · have hbig : startStatus (caddyFields u j ++ [(decide (256 < n), Stat.badFormat)]) (!detMode u || n == 0) [bad (localExtent u a (8 * n))]
        = some Stat.badFormat := by
      unfold startStatus
      rw [firstStatus_append hf, decide_eq_true h]
      rfl
    unfold windowJob
    dsimp only
    rw [← hn, ← ha, hbig]
  · unfold windowJob
    dsimp only
    rw [← hn, ← ha, hsmall h, hd, he, readMem_clean hp, beq_eq_false_iff_ne.mpr h0]
    rfl

/-! ## A row of a queue -/

/-- What a row of a device context does: the queue in it acts while the Caddy is up. -/
def queueRow (q : ℕ) (f : CaddyQ → State → State) (s : State) : State :=
  if !groupUp s 1 then s
  else match queueAt s q with
    | none => s
    | some c => f c s

theorem queueRow_at {q : ℕ} {f : CaddyQ → State → State} {c : CaddyQ} {s : State} (hg : groupUp s 1 = true) (hc : queueAt s q = some c) :
    queueRow q f s = f c s := by
  unfold queueRow
  rw [hg, hc]
  rfl

theorem queueRow_gives {i : Instr} {q : ℕ} {f : CaddyQ → State → State} {c : CaddyQ} {s t : State} (hi : exec i s = run (queueRow q f) s)
    (hq : Quiet s) (hg : groupUp s 1 = true) (hc : queueAt s q = some c) (hf : ∀ q s, f c (setPending q s) = setPending q (f c s))
    (h : f c s = t) (ht : t.tasks = s.tasks) : Gives i s t := by
  refine gives_of_effect hi hq ?_ ht
  refine (queueRow_at (s := setPending [] s) hg hc).trans ?_
  rw [hf, h]

theorem queueRow_givesThen {i : Instr} {q : ℕ} {f : CaddyQ → State → State} {c : CaddyQ} {s t : State} (hi : exec i s = run (queueRow q f) s)
    (hg : groupUp s 1 = true) (hc : queueAt s q = some c) (hf : ∀ q s, f c (setPending q s) = setPending q (f c s)) (h : f c s = t) : GivesThen i s t := by
  refine givesThen_of_effect hi ?_
  refine (queueRow_at (s := setPending [] s) hg hc).trans ?_
  rw [hf, h]

/-! ## A ready sample -/

/-- The first ready sample that has a place takes it. -/
def slotOf (m : MemRun) (c : CaddyQ) (s : State) : State :=
  let s := seeEcc m.ecc s
  match (offers s c).find? fun o => lateItem s o.item || placeOf s c o != .later with
  | none => s
  | some o =>
    if lateItem s o.item then dropSample o s
    else match placeOf s c o with
    | .slot b i => if o.source = 0 then cropToSlot c b i o s else recordToSlot c b i o s
    | .refused => refuseSample c o s
    | .later => s

theorem exec_slotOf (q : ℕ) (m : MemRun) (s : State) : exec (.caddySampleSlot q m) s = run (queueRow q (slotOf m)) s := by
  unfold exec
  rfl

theorem slotOf_setPending (m : MemRun) (c : CaddyQ) (q : List Instr) (s : State) : slotOf m c (setPending q s) = setPending q (slotOf m c s) := by
  have hlate (t : State) : lateItem (setPending q t) = lateItem t := rfl
  unfold slotOf
  simp only [seeEcc_setPending, offers_setPending, placeOf_setPending, hlate]
  split
  · rfl
  split
  · exact dropSample_setPending _ _ _
  split
  · rw [cropToSlot_setPending, recordToSlot_setPending, ite_setPending]
  · exact refuseSample_setPending _ _ _ _
  · rfl

/-- What the sample that is next for a queue does there. -/
theorem slotOf_sample {m : MemRun} {c : CaddyQ} {o : Offer} {s u : State} (hu : u = seeEcc m.ecc s)
    (ho : (offers u c).find? (fun o => lateItem u o.item || placeOf u c o != .later) = some o) :
    (lateItem u o.item = true → slotOf m c s = dropSample o u)
      ∧ (∀ b i, lateItem u o.item = false → placeOf u c o = .slot b i →
          slotOf m c s = if o.source = 0 then cropToSlot c b i o u else recordToSlot c b i o u)
      ∧ (lateItem u o.item = false → placeOf u c o = .refused → slotOf m c s = refuseSample c o u) := by
  unfold slotOf
  dsimp only
  rw [← hu, ho]
  dsimp only
  refine ⟨fun hl => ?_, fun b i hl hp => ?_, fun hl hp => ?_⟩
  · exact if_pos hl
  · rw [hl, hp]
    rfl
  · rw [hl, hp]
    rfl

theorem caddySampleSlot_cases {m : MemRun} {q : ℕ} {c : CaddyQ} {o : Offer} {s u : State} (hq : Quiet s) (hu : u = seeEcc m.ecc s)
    (hg : groupUp s 1 = true) (hc : queueAt s q = some c)
    (ho : (offers u c).find? (fun o => lateItem u o.item || placeOf u c o != .later) = some o) :
    (∀ b i, lateItem u o.item = false → placeOf u c o = .slot b i → o.source = 0 → Gives (.caddySampleSlot q m) s (cropToSlot c b i o u))
      ∧ (∀ b i, lateItem u o.item = false → placeOf u c o = .slot b i → o.source ≠ 0 → Gives (.caddySampleSlot q m) s (recordToSlot c b i o u))
      ∧ (lateItem u o.item = false → placeOf u c o = .refused → Gives (.caddySampleSlot q m) s (refuseSample c o u))
      ∧ (lateItem u o.item = true → o.source = 0 → Gives (.caddySampleSlot q m) s (nextBox o.eng u))
      ∧ (lateItem u o.item = true → o.source ≠ 0 →
        Gives (.caddySampleSlot q m) s (modRunning 4 o.eng (fun r => { r with current := [] }) u)) := by
  have hgives {t : State} (h : slotOf m c s = t) (ht : t.tasks = u.tasks) : Gives (.caddySampleSlot q m) s t :=
    queueRow_gives (exec_slotOf q m s) hq hg hc (slotOf_setPending m c) h (ht.trans (hu ▸ seeEcc_tasks _ _))
  obtain ⟨hdrop, hslot, hrefuse⟩ := slotOf_sample hu ho
  refine ⟨fun b i hl hp h0 => hgives ((hslot b i hl hp).trans (if_pos h0)) (cropToSlot_tasks _ _ _ _ _),
    fun b i hl hp h0 => hgives ((hslot b i hl hp).trans (if_neg h0)) rfl, fun hl hp => hgives (hrefuse hl hp) (refuseSample_tasks _ _ _),
    fun hl h0 => hgives ((hdrop hl).trans (if_pos h0)) (nextBox_tasks _ _), fun hl h0 => hgives ((hdrop hl).trans (if_neg h0)) rfl⟩

theorem caddySampleSlot_none {m : MemRun} {q : ℕ} {c : CaddyQ} {s : State} (hq : Quiet s) (hg : groupUp s 1 = true) (hc : queueAt s q = some c)
    (ho : offers (seeEcc m.ecc s) c = []) : Gives (.caddySampleSlot q m) s (seeEcc m.ecc s) := by
  refine queueRow_gives (exec_slotOf q m s) hq hg hc (slotOf_setPending m c) ?_ (seeEcc_tasks _ _)
  unfold slotOf
  dsimp only
  rw [ho]
  rfl

theorem placeOf_open {c : CaddyQ} {o : Offer} {b : Batch} {s : State} (ho : c.open_ = some b) (hw : b.isWindow = false) :
    (b.slots.length < cfgSize b.cfg → placeOf s c o = .slot b b.slots.length) ∧ (cfgSize b.cfg ≤ b.slots.length → placeOf s c o = .later) := by
  have hplace : placeOf s c o = if b.slots.length < cfgSize b.cfg then .slot b b.slots.length else .later := by
    unfold placeOf
    rw [ho]
    dsimp only
    rw [hw]
    rfl
  exact ⟨fun h => hplace.trans (if_pos h), fun h => hplace.trans (if_neg (Nat.not_lt.mpr h))⟩

/-! ## A batch closes -/

/-- The open batch of a queue closes late. -/
def timeoutOf (c : CaddyQ) (s : State) : State :=
  match c.open_ with
  | some b =>
    if b.begun && !b.isWindow && leAt b.cfg 0x18 4 != 0 then
      bump Reg.cadSnapCnt.base 3 (setFlag Reg.cadStatus.base 2
        (modBatch c.handle c.q b.no (fun b => { b with closed := true, flags := b.flags ||| 1 }) s))
    else s
  | none => s

theorem exec_timeoutOf (q : ℕ) (s : State) : exec (.caddyBatchTimeout q) s = run (queueRow q timeoutOf) s := by
  unfold exec
  rfl

theorem timeoutOf_setPending (c : CaddyQ) (q : List Instr) (s : State) : timeoutOf c (setPending q s) = setPending q (timeoutOf c s) := by
  unfold timeoutOf
  split
  · rw [← ite_setPending]
    rfl
  · rfl

theorem caddyBatchTimeout_cases {q : ℕ} {c : CaddyQ} {b : Batch} {s : State} (hq : Quiet s) (hg : groupUp s 1 = true) (hc : queueAt s q = some c)
    (ho : c.open_ = some b) (hw : b.isWindow = false) :
    (b.begun = true → leAt b.cfg 0x18 4 ≠ 0 → Gives (.caddyBatchTimeout q) s (bump Reg.cadSnapCnt.base 3 (setFlag Reg.cadStatus.base 2
        (modBatch c.handle c.q b.no (fun b => { b with closed := true, flags := b.flags ||| 1 }) s))))
      ∧ (b.begun = false ∨ leAt b.cfg 0x18 4 = 0 → Gives (.caddyBatchTimeout q) s s) := by
  have hgives {t : State} (h : timeoutOf c s = t) (ht : t.tasks = s.tasks) : Gives (.caddyBatchTimeout q) s t :=
    queueRow_gives (exec_timeoutOf q s) hq hg hc (timeoutOf_setPending c) h ht
  refine ⟨fun hb h0 => hgives ?_ rfl, fun hno => hgives ?_ rfl⟩
  · unfold timeoutOf
    rw [ho]
    exact if_pos (by rw [hb, hw]; simpa using h0)
  · unfold timeoutOf
    rw [ho]
    refine if_neg ?_
    rw [hw]
    rcases hno with hb | h0
    · rw [hb]
      exact Bool.false_ne_true
    · rw [h0]
      simp

/-- The oldest batch of a queue is signalled. -/
def readyOf (c : CaddyQ) (s : State) : State :=
  match c.batches with
  | b :: _ =>
    if b.shut && b.settled then
      (signal c.handle (leAt b.cfg 0x1C 2) 1 none (some (.caddy c.q)) (bump Reg.cadSnapCnt.base 0
        (modCaddy c.handle c.q (fun c => { c with batches := c.batches.drop 1 }) (writeAll (batchAddr b) (batchHeader b) [] s).2))).2
    else s
  | [] => s

theorem exec_readyOf (q : ℕ) (s : State) : exec (.caddyBatchReady q) s = run (queueRow q readyOf) s := by
  unfold exec
  rfl

theorem readyOf_setPending (c : CaddyQ) (q : List Instr) (s : State) : readyOf c (setPending q s) = setPending q (readyOf c s) := by
  unfold readyOf
  split
  · rw [writeAll_setPending]
    simp only [modCaddy_setPending, bump_setPending, signal_setPending, ite_setPending]
  · rfl

theorem caddyBatchReady_signals {q st : ℕ} {c : CaddyQ} {b : Batch} {bs : List Batch} {s s1 : State} (hg : groupUp s 1 = true)
    (hc : queueAt s q = some c) (hb : c.batches = b :: bs) (hshut : b.shut = true) (hset : b.settled = true)
    (hw : writeAll (batchAddr b) (batchHeader b) [] s = (st, s1)) :
    GivesThen (.caddyBatchReady q) s (signal c.handle (leAt b.cfg 0x1C 2) 1 none (some (.caddy c.q))
        (bump Reg.cadSnapCnt.base 0 (modCaddy c.handle c.q (fun c => { c with batches := c.batches.drop 1 }) s1))).2 := by
  refine queueRow_givesThen (exec_readyOf q s) hg hc (readyOf_setPending c) ?_
  unfold readyOf
  rw [hb]
  dsimp only
  rw [hw, hshut, hset]
  rfl

theorem caddyBatchReady_waits {q : ℕ} {c : CaddyQ} {b : Batch} {bs : List Batch} {s : State} (hq : Quiet s) (hg : groupUp s 1 = true)
    (hc : queueAt s q = some c) (hb : c.batches = b :: bs) (hno : b.shut = false ∨ b.settled = false) : Gives (.caddyBatchReady q) s s := by
  refine queueRow_gives (exec_readyOf q s) hq hg hc (readyOf_setPending c) ?_ rfl
  unfold readyOf
  rw [hb]
  refine if_neg ?_
  rcases hno with h | h
  · rw [h]
    exact Bool.false_ne_true
  · rw [h, Bool.and_false]
    exact Bool.false_ne_true

theorem batchHeader_fields (b : Batch) : (batchHeader b).length = 0x1040 ∧ leAt (batchHeader b) 0 4 = b.no % 2 ^ 32
    ∧ leAt (batchHeader b) 4 2 = b.slots.length % 2 ^ 16 ∧ leAt (batchHeader b) 6 2 = cfgSize b.cfg % 2 ^ 16 ∧ leAt (batchHeader b) 8 2 = b.flags % 2 ^ 16 := by
  unfold batchHeader
  refine ⟨?_, ?_, ?_, ?_, ?_⟩
  · simp only [List.length_append, length_leBytes, padTo, List.length_take, List.length_replicate]
    omega
  all_goals
    simp only [List.append_assoc, leAt_leBytes_append, leAt_behind, Nat.reduceLeDiff, Nat.reduceSub, Nat.le_refl]
  all_goals rfl

/-! ## A queue opens a batch -/

/-- The waiter that a queue puts before its token. -/
def queueWaiter (q : ℕ) : TokWaiter := { who := .caddy q, amt := 1, item := none }

/-- A queue stands before its token, which serves it where it can. -/
def askBatch (c : CaddyQ) (s : State) : State :=
  serveToken c.handle (leAt c.latest 0x1E 2) (modTok c.handle (leAt c.latest 0x1E 2) (fun k => { k with waiters := k.waiters ++ [queueWaiter c.q] })
    (modCaddy c.handle c.q (fun c => { c with waiting := true }) s))

/-- A queue that its token has served opens its batch. -/
def grantBatch (c : CaddyQ) (s : State) : State :=
  if (caddyOf s c.handle c.q).elim false (·.granted) then openBatch c.handle c.q s else s

/-- A queue opens a batch, or stands before its token. -/
def openOf (c : CaddyQ) (s : State) : State :=
  if c.granted then openBatch c.handle c.q s
  else if c.waiting || c.open_.isSome || !(if detMode s then !c.window.isEmpty else !(offers s c).isEmpty) || !bitOf (leAt c.latest 2 1) 0 then s
  else grantBatch c (askBatch c s)

theorem exec_openOf (q : ℕ) (s : State) : exec (.caddyBatchOpen q) s = run (queueRow q openOf) s := by
  unfold exec
  rfl

theorem openOf_setPending (c : CaddyQ) (q : List Instr) (s : State) : openOf c (setPending q s) = setPending q (openOf c s) := by
  have hask : askBatch c (setPending q s) = setPending q (askBatch c s) := by
    unfold askBatch
    rw [modCaddy_setPending, modTok_setPending, serveToken_setPending]
  have hgrant (t : State) : grantBatch c (setPending q t) = setPending q (grantBatch c t) := by
    unfold grantBatch
    rw [openBatch_setPending, ← ite_setPending]
    rfl
  unfold openOf
  rw [detMode_setPending, offers_setPending, openBatch_setPending, hask, hgrant, ite_setPending, ite_setPending]

theorem caddyOf_modCaddy {h q : ℕ} {f : CaddyQ → CaddyQ} {s : State} (hf : ∀ c : CaddyQ, (f c).handle = c.handle ∧ (f c).q = c.q) :
    caddyOf (modCaddy h q f s) h q = (caddyOf s h q).map f :=
  find_updFirst_same _ fun c => by rw [(hf c).1, (hf c).2]

/-- What a change leaves of the element that a search finds: that element, or what the change makes of it. -/
theorem find_updFirst_or {α : Type} {p q : α → Bool} {f : α → α} {l : List α} {x : α} (hf : ∀ y, q (f y) = q y) (h : l.find? q = some x) :
    (updFirst p f l).find? q = some x ∨ (updFirst p f l).find? q = some (f x) := by
  induction l with
  | nil => cases h
  | cons y l ih =>
    rw [List.find?_cons] at h
    unfold updFirst
    by_cases hp : p y = true
    · rw [if_pos hp, List.find?_cons, hf]
      cases hy : q y with
      | true =>
        rw [hy] at h
        cases h
        exact .inr rfl
      | false =>
        rw [hy] at h
        exact .inl h
    · rw [if_neg hp, List.find?_cons]
      cases hy : q y with
      | true =>
        rw [hy] at h
        exact .inl h
      | false =>
        rw [hy] at h
        exact ih h

/-- The low-water alarm leaves a queue as it was but for its arming. -/
theorem lowWater_caddy {h i h' q : ℕ} {c : CaddyQ} {s : State} (hc : caddyOf s h' q = some c) :
    ∃ b, caddyOf (lowWater h i s) h' q = some { c with armed := b } := by
  unfold lowWater
  split
  · exact ⟨c.armed, hc⟩
  refine List.foldlRecOn _ _ (motive := fun t => ∃ b, caddyOf t h' q = some { c with armed := b }) ⟨c.armed, hc⟩ fun t ht x _ => ?_
  obtain ⟨a, ha⟩ := ht
  have harm (b : Bool) : ∃ b', caddyOf (modEng (fun e => { e with
      caddy := updFirst (fun y => y.handle == h && y.q == x.q) (fun y => { y with armed := b }) e.caddy }) t) h' q = some { c with armed := b' } := by
    rcases find_updFirst_or (p := fun y : CaddyQ => y.handle == h && y.q == x.q) (f := fun y => { y with armed := b }) (by intro; rfl) ha with hat | hat
    · exact ⟨a, hat⟩
    · exact ⟨b, hat⟩
  dsimp only
  split
  · exact harm true
  split
  · obtain ⟨b, hb⟩ := harm false
    exact ⟨b, ((eventFrame_postEvent _ _ _ _ _ _ _).get fun t => caddyOf t h' q).trans hb⟩
  · exact ⟨a, ha⟩

theorem fillWindow_plain {h q : ℕ} {c : CaddyQ} {b : Batch} {s : State} (hc : caddyOf s h q = some c) (ho : c.open_ = some b) (hw : b.isWindow = false) :
    fillWindow h q s = s := by
  unfold fillWindow
  rw [hc]
  dsimp only
  rw [ho]
  dsimp only
  rw [hw]
  rfl

/-- A batch with no slot. -/
def freshBatch (c : CaddyQ) : Batch := { no := c.batchNo, cfg := c.latest, slots := [], closed := false, flags := 0 }

theorem freshBatch_plain (c : CaddyQ) : (freshBatch c).isWindow = false := by
  show bitOf 0 2 = false
  decide

theorem freshBatch_open (c : CaddyQ) : (freshBatch c).shut = false := by
  unfold Batch.shut
  rw [freshBatch_plain]
  rfl

/-- A queue whose batches are shut opens one more. -/
theorem openBatch_plain {h q : ℕ} {c : CaddyQ} {s : State} (hc : caddyOf s h q = some c) (ho : c.open_ = none) (hd : detMode s = false) :
    (openBatch h q s).tokens = s.tokens ∧ caddyOf (openBatch h q s) h q = some { c with
      cfg := c.latest, nextCfg := none, batchNo := (c.batchNo + 1) % 2 ^ 32, granted := false, batches := c.batches ++ [freshBatch c] } := by
  have hcaddy : caddyOf (modCaddy h q (fun c => { c with
      cfg := c.latest, nextCfg := none, batchNo := (c.batchNo + 1) % 2 ^ 32, granted := false
      batches := c.batches ++ [{ no := c.batchNo, cfg := c.latest, slots := [], closed := false, flags := if detMode s then 4 else 0 }] }) s) h q
      = some { c with cfg := c.latest, nextCfg := none, batchNo := (c.batchNo + 1) % 2 ^ 32, granted := false, batches := c.batches ++ [freshBatch c] } := by
    rw [caddyOf_modCaddy (by intro; exact ⟨rfl, rfl⟩), hc, hd]
    rfl
  have hopen : (c.batches ++ [freshBatch c]).find? (fun b => !b.shut) = some (freshBatch c) := find_append_none ho (by rw [freshBatch_open]; rfl)
  unfold openBatch
  rw [fillWindow_plain hcaddy hopen (freshBatch_plain c)]
  exact ⟨rfl, hcaddy⟩

theorem nextWaiter_queue (t : Token) (q : ℕ) : nextWaiter t [] [queueWaiter q] = if t.count = 0 then none else some (queueWaiter q) := by
  unfold nextWaiter
  show (if 1 ≤ t.count then some (queueWaiter q) else none) = _
  by_cases h : t.count = 0
  · rw [if_pos h, if_neg (by omega)]
  · rw [if_neg h, if_pos (by omega)]

/-- A token that serves the one queue before it. -/
def servedQueue (h i q : ℕ) (s : State) : State :=
  modCaddy h q (fun c => { c with waiting := false, granted := true }) (lowWater h i
    (modTok h i (fun t => { t with waiters := dropFirst (fun x => x == queueWaiter q) t.waiters, count := t.count - 1 }) s))

theorem serveToken_queue {h i q : ℕ} {t : Token} {s : State} (ht : tokOf s h i = some t) (hw : t.waiters = [queueWaiter q]) :
    serveToken h i s = if t.count = 0 then s else servedQueue h i q s := by
  have hone : serveOne h i s = if t.count = 0 then none else some (servedQueue h i q s) := by
    unfold serveOne
    rw [ht]
    dsimp only
    rw [hw, nextWaiter_queue]
    by_cases hc : t.count = 0
    · rw [if_pos hc, if_pos hc]
    · rw [if_neg hc, if_neg hc]
      rfl
  unfold serveToken
  rw [ht]
  show serveLoop t.waiters.length h i s = _
  rw [hw]
  show serveLoop (0 + 1) h i s = _
  rw [serveLoop, hone]
  by_cases hc : t.count = 0
  · rw [if_pos hc, if_pos hc]
  · rw [if_neg hc, if_neg hc]
    rfl

theorem servedQueue_tokOf {h i q : ℕ} {t : Token} {s : State} (ht : tokOf s h i = some t) :
    (tokOf (servedQueue h i q s) h i).map (·.count) = some (t.count - 1) := by
  refine (congrArg (Option.map (·.count)) (tokOf_lowWater h i h i _)).trans ?_
  rw [tokOf_modTok_same (by intro; exact ⟨rfl, rfl⟩), ht]
  rfl

theorem servedQueue_caddy {h i q : ℕ} {c : CaddyQ} {s : State} (hc : caddyOf s h q = some c) :
    ∃ b, caddyOf (servedQueue h i q s) h q = some { c with waiting := false, granted := true, armed := b } := by
  obtain ⟨b, hb⟩ := lowWater_caddy (h := h) (i := i)
    (s := modTok h i (fun t => { t with waiters := dropFirst (fun x => x == queueWaiter q) t.waiters, count := t.count - 1 }) s) hc
  refine ⟨b, ?_⟩
  unfold servedQueue
  rw [caddyOf_modCaddy (by intro; exact ⟨rfl, rfl⟩), hb]
  rfl

theorem detMode_of_rdW {s t : State} (h : rdW s Reg.glbMode.base = rdW t Reg.glbMode.base) : detMode s = detMode t := by
  unfold detMode rdB rd
  rw [h]

theorem detMode_servedQueue (h i q : ℕ) (s : State) : detMode (servedQueue h i q s) = detMode s := by
  refine (lowWater_keeps detMode (fun _ _ => rfl) (fun _ => detMode_of_rdW ?_) (fun _ => rfl) (fun _ _ _ => detMode_of_rdW ?_) h i _).trans rfl
  · exact rdW_setFlag_other _ _ _ _ (by decide)
  · exact rdW_postEvent (by unfold EventFree; decide) _ _ _ _ _ _ _

/-- What a queue's request for a batch leaves of its token before the token serves it. -/
theorem askBatch_waiting {c : CaddyQ} {tk : Token} {s : State} (ht : tokOf s c.handle (leAt c.latest 0x1E 2) = some tk) (hw : tk.waiters = []) :
    tokOf (modTok c.handle (leAt c.latest 0x1E 2) (fun k => { k with waiters := k.waiters ++ [queueWaiter c.q] })
      (modCaddy c.handle c.q (fun c => { c with waiting := true }) s)) c.handle (leAt c.latest 0x1E 2)
      = some { tk with waiters := [queueWaiter c.q] } := by
  refine (tokOf_modTok_same (by intro; exact ⟨rfl, rfl⟩)).trans ?_
  rw [show tokOf (modCaddy c.handle c.q _ s) c.handle (leAt c.latest 0x1E 2) = some tk from ht]
  show some { tk with waiters := tk.waiters ++ [queueWaiter c.q] } = _
  rw [hw]
  rfl

theorem askBatch_served {c : CaddyQ} {tk : Token} {s : State} (ht : tokOf s c.handle (leAt c.latest 0x1E 2) = some tk) (hw : tk.waiters = []) :
    askBatch c s = if tk.count = 0 then
        modTok c.handle (leAt c.latest 0x1E 2) (fun k => { k with waiters := [queueWaiter c.q] }) (modCaddy c.handle c.q (fun c => { c with waiting := true }) s)
      else servedQueue c.handle (leAt c.latest 0x1E 2) c.q (modTok c.handle (leAt c.latest 0x1E 2)
        (fun k => { k with waiters := k.waiters ++ [queueWaiter c.q] }) (modCaddy c.handle c.q (fun c => { c with waiting := true }) s)) := by
  refine (serveToken_queue (askBatch_waiting ht hw) rfl).trans ?_
  by_cases hc : tk.count = 0
  · rw [if_pos hc, if_pos hc]
    refine modTok_congr (k := tk) ht ?_
    rw [hw]
    rfl
  · rw [if_neg hc, if_neg hc]

theorem caddyBatchOpen_granted {q : ℕ} {c : CaddyQ} {s : State} (hq : Quiet s) (hg : groupUp s 1 = true) (hc : queueAt s q = some c)
    (h : c.granted = true) : Gives (.caddyBatchOpen q) s (openBatch c.handle c.q s) :=
  queueRow_gives (exec_openOf q s) hq hg hc (openOf_setPending c) (if_pos h) (openBatch_tasks _ _ _)

theorem caddyBatchOpen_waits {q : ℕ} {c : CaddyQ} {s : State} (hq : Quiet s) (hg : groupUp s 1 = true) (hc : queueAt s q = some c)
    (h : c.granted = false) (hno : c.waiting = true ∨ c.open_.isSome = true ∨ bitOf (leAt c.latest 2 1) 0 = false) : Gives (.caddyBatchOpen q) s s := by
  refine queueRow_gives (exec_openOf q s) hq hg hc (openOf_setPending c) ?_ rfl
  unfold openOf
  rw [h]
  refine (if_neg Bool.false_ne_true).trans (if_pos ?_)
  rcases hno with hw | ho | hb
  · rw [hw, Bool.true_or, Bool.true_or, Bool.true_or]
  · rw [ho, Bool.or_true, Bool.true_or, Bool.true_or]
  · rw [hb, Bool.not_false, Bool.or_true]

theorem caddyBatchOpen_asks {q : ℕ} {c : CaddyQ} {tk : Token} {s : State} (hq : Quiet s) (hg : groupUp s 1 = true) (hc : queueAt s q = some c)
    (hat : caddyOf s c.handle c.q = some c) (h : c.granted = false) (hw : c.waiting = false) (ho : c.open_ = none)
    (hb : bitOf (leAt c.latest 2 1) 0 = true) (hd : detMode s = false) (hoff : offers s c ≠ [])
    (ht : tokOf s c.handle (leAt c.latest 0x1E 2) = some tk) (hws : tk.waiters = []) :
    (tk.count = 0 → Gives (.caddyBatchOpen q) s
        (modTok c.handle (leAt c.latest 0x1E 2) (fun k => { k with waiters := [queueWaiter c.q] })
          (modCaddy c.handle c.q (fun c => { c with waiting := true }) s)))
      ∧ (tk.count ≠ 0 → ∃ t x, Gives (.caddyBatchOpen q) s t
          ∧ (tokOf t c.handle (leAt c.latest 0x1E 2)).map (·.count) = some (tk.count - 1) ∧ caddyOf t c.handle c.q = some x
          ∧ x.cfg = c.latest ∧ x.nextCfg = none ∧ x.batchNo = (c.batchNo + 1) % 2 ^ 32 ∧ x.granted = false ∧ x.waiting = false
          ∧ x.batches = c.batches ++ [{ no := c.batchNo, cfg := c.latest, slots := [], closed := false, flags := 0 }]) := by
  have hopen : openOf c s = grantBatch c (askBatch c s) := by
    unfold openOf
    rw [h, hw, ho, hd, hb]
    refine (if_neg Bool.false_ne_true).trans (if_neg ?_)
    simpa using hoff
  have hgives {t : State} (he : grantBatch c (askBatch c s) = t) (ht : t.tasks = s.tasks) : Gives (.caddyBatchOpen q) s t :=
    queueRow_gives (exec_openOf q s) hq hg hc (openOf_setPending c) (hopen.trans he) ht
  have hask := askBatch_served ht hws
  have hmod : caddyOf (modCaddy c.handle c.q (fun c => { c with waiting := true }) s) c.handle c.q = some { c with waiting := true } := by
    rw [caddyOf_modCaddy (by intro; exact ⟨rfl, rfl⟩), hat]
    rfl
  refine ⟨fun h0 => hgives ?_ rfl, fun h0 => ?_⟩
  · have hstill : (caddyOf (askBatch c s) c.handle c.q).elim false (·.granted) = false := by
      rw [hask, if_pos h0]
      exact (congrArg (fun x : Option CaddyQ => x.elim false (·.granted)) hmod).trans h
    unfold grantBatch
    rw [hstill, hask, if_pos h0]
    rfl
  · rw [if_neg h0] at hask
    obtain ⟨b, hserved⟩ := servedQueue_caddy (h := c.handle) (i := leAt c.latest 0x1E 2) (q := c.q)
      (s := modTok c.handle (leAt c.latest 0x1E 2) (fun k => { k with waiters := k.waiters ++ [queueWaiter c.q] })
        (modCaddy c.handle c.q (fun c => { c with waiting := true }) s)) hmod
    rw [← hask] at hserved
    have hdet : detMode (askBatch c s) = false := by
      rw [hask, detMode_servedQueue]
      exact hd
    have htok : (tokOf (askBatch c s) c.handle (leAt c.latest 0x1E 2)).map (·.count) = some (tk.count - 1) := by
      rw [hask]
      exact servedQueue_tokOf (t := { tk with waiters := [queueWaiter c.q] }) (askBatch_waiting ht hws)
    obtain ⟨htokens, hcaddy⟩ := openBatch_plain hserved ho hdet
    have hgrant : grantBatch c (askBatch c s) = openBatch c.handle c.q (askBatch c s) := by
      unfold grantBatch
      rw [hserved]
      rfl
    refine ⟨_, _, hgives hgrant ?_, ?_, hcaddy, rfl, rfl, rfl, rfl, rfl, rfl⟩
    · rw [openBatch_tasks, hask]
      exact lowWater_tasks _ _ _
    · unfold tokOf
      rw [htokens]
      exact htok

/-- Settles O45: the Caddy's jobs as its engine takes them, and each row of a queue by what the queue in its context does. -/
theorem caddyBatches : Obligations.CaddyBatches := by
  intro m s hq
  refine ⟨fun _ hm ho => caddyConfigure_cases hq hm ho, fun _ _ _ _ hu hm ho hn ha hf => caddyWindow_cases hq hu hm ho hn ha hf,
    fun _ _ hm ho hf => caddyFlush_cases hq hm ho hf,
    fun _ _ hg hc hat => ⟨caddyBatchOpen_granted hq hg hc, caddyBatchOpen_waits hq hg hc,
      fun _ h hw ho hb hd hoff ht hws => caddyBatchOpen_asks hq hg hc hat h hw ho hb hd hoff ht hws⟩,
    fun _ _ _ _ hu hg hc ho => caddySampleSlot_cases hq hu hg hc ho, fun _ _ hg hc ho => caddySampleSlot_none hq hg hc ho,
    fun _ _ _ ho hw => placeOf_open ho hw, fun _ _ _ hg hc ho hw => caddyBatchTimeout_cases hq hg hc ho hw,
    fun _ _ _ _ _ _ hg hc hb hshut hset hw => caddyBatchReady_signals hg hc hb hshut hset hw,
    fun _ _ _ _ hg hc hb hno => caddyBatchReady_waits hq hg hc hb hno, batchHeader_fields⟩

end Sys2Proof.Machine
end

