-- ==== Sys2Proof/Proofs/ChkRows.lean ====
section
/-! Check values, hashes, copies and sample hashes. -/

namespace Sys2Proof.Machine

open Sys2Proof

/-! ## The check column of R377 -/

/-- A configure descriptor that names an algorithm. -/
def algDesc (v : ℕ) : List Byte := List.replicate 4 0 ++ leBytes 1 v ++ List.replicate 59 0

/-- The nine bytes "123456789". -/
def checkBytes : List Byte := [0x31, 0x32, 0x33, 0x34, 0x35, 0x36, 0x37, 0x38, 0x39]

/-- The value that a fresh context configured for an algorithm finishes the check bytes with. -/
def checkValue (v h c : ℕ) : ℕ :=
  finished (configured (CheckCtx.fresh h c) (algDesc v))
    (feedAll (configured (CheckCtx.fresh h c) (algDesc v)) (configured (CheckCtx.fresh h c) (algDesc v)).init checkBytes)

/-- A context's program and number do not enter its values. -/
theorem checkValue_zero (v h c : ℕ) : checkValue v h c = checkValue v 0 0 := by
  have hconf (v : ℕ) : configured (CheckCtx.fresh h c) (algDesc v) = { configured (CheckCtx.fresh 0 0) (algDesc v) with handle := h, ctx := c } := by
    unfold configured
    dsimp only
    split <;> rfl
  unfold checkValue
  rw [hconf]
  rfl

theorem checkValue_crc32c : checkValue 0 0 0 = 0xE3069283 := by decide +kernel
theorem checkValue_crc32 : checkValue 1 0 0 = 0xCBF43926 := by decide +kernel
theorem checkValue_crc64 : checkValue 2 0 0 = 0x6C40DF5F0B497347 := by decide +kernel
theorem checkValue_adler : checkValue 3 0 0 = 0x091E01DE := by decide +kernel

theorem check_column (v h c : ℕ) : (v = 0 → checkValue v h c = 0xE3069283) ∧ (v = 1 → checkValue v h c = 0xCBF43926)
    ∧ (v = 2 → checkValue v h c = 0x6C40DF5F0B497347) ∧ (v = 3 → checkValue v h c = 0x091E01DE) := by
  rw [checkValue_zero]
  refine ⟨?_, ?_, ?_, ?_⟩
  · rintro rfl
    exact checkValue_crc32c
  · rintro rfl
    exact checkValue_crc32
  · rintro rfl
    exact checkValue_crc64
  · rintro rfl
    exact checkValue_adler

/-! ## Jobs of a check-value unit -/

/-- What a configure job does once it stands on its unit. -/
def crcConfigureJob (eng : ℕ) (j : Job) (s : State) : State :=
  match startStatus (checkFields s j [(4, 3), (0x18, 0x18)] ++
      [(decide (4 < leAt j.desc 4 1), Stat.badFormat),
       (leAt j.desc 4 1 == 4 && (decide (leAt j.desc 5 1 < 8) || decide (64 < leAt j.desc 5 1)), Stat.badFormat)]) false [] with
  | some st => jobDone 6 eng st s
  | none => jobDone 6 eng Stat.ok (setCheck (configured (jobCheck s j) j.desc) s)

/-- What a scan job does once it stands on its unit. -/
def crcScanJob (eng : ℕ) (j : Job) (s : State) : State :=
  let d := j.desc
  let f := leAt d 2 1
  let a := leAt d 8 8
  let n := leAt d 0x10 8
  match startStatus (checkFields s j [(2, 1), (8, 0x20)]) (n == 0)
      [bad (localExtent s a n), bad (if bitOf f 2 then localExtent s (leAt d 0x20 8) 8 else Stat.ok)] with
  | some st => jobDone 6 eng st s
  | none =>
    let (r, s) := readMem a n [] s
    if r.status ≠ Stat.ok then jobDone 6 eng r.status s
    else
      let x := jobCheck s j
      let v := feedAll x (if bitOf f 0 then x.init else x.value) r.data
      let s := count (Reg.crcSnapCnt.base + 8) n (bump Reg.crcSnapCnt.base 0 (setCheck { x with value := v } s))
      let (w, s) := if bitOf f 2 then writeAll (leAt d 0x20 8) (leBytes 8 v) [] s else (Stat.ok, s)
      if bitOf f 1 && finished x v != leAt d 0x18 8 then jobDone 6 eng 0x42 (noteMismatch j.task.handle (leAt d 1 1) a n s)
      else jobDone 6 eng w s

/-- What a job that sets a running value does once it stands on its unit. -/
def crcSetJob (eng : ℕ) (j : Job) (s : State) : State :=
  match startStatus (checkFields s j [(0x18, 8)]) false [] with
  | some st => jobDone 6 eng st s
  | none => jobDone 6 eng Stat.ok (setCheck { jobCheck s j with value := leAt j.desc 0x18 8 % 2 ^ (jobCheck s j).width } s)

/-- What a job that reads a running value does once it stands on its unit. -/
def crcReadJob (eng : ℕ) (j : Job) (s : State) : State :=
  let a := leAt j.desc 0x20 8
  match startStatus (checkFields s j [(0x20, 8)]) false [bad (localExtent s a 8)] with
  | some st => jobDone 6 eng st s
  | none =>
    let (w, s) := writeAll a (leBytes 8 (jobCheck s j).value) [] s
    jobDone 6 eng w s

/-- What a job that starts a periodic scan does once it stands on its unit. -/
def crcPeriodicJob (eng : ℕ) (j : Job) (s : State) : State :=
  let n := leAt j.desc 0x10 8
  match startStatus (checkFields s j [(8, 0x18), (0x34, 4)]) (n == 0)
      [bad (localExtent s (leAt j.desc 8 8) n), ((jobCheck s j).periodic.isSome, Stat.badFormat)] with
  | some st => jobDone 6 eng st s
  | none => modEng (fun e => { e with running := dropFirst (fun r => r.job.kind == 6 && r.eng == eng) e.running })
      (setCheck { jobCheck s j with periodic := some j } s)

/-- What a job that cancels a periodic scan does once it stands on its unit. -/
def crcCancelJob (eng : ℕ) (j : Job) (s : State) : State :=
  match startStatus (checkFields s j []) false [] with
  | some st => jobDone 6 eng st s
  | none =>
    match (jobCheck s j).periodic with
    | none => jobDone 6 eng Stat.ok s
    | some p => jobDone 6 eng Stat.ok (resumeEnq 6 (signalJob p.task.handle (jobToken 6 p.desc) Stat.ok (setCheck { jobCheck s j with periodic := none } s)))

theorem checkFields_pending (j : Job) (l : List (ℕ × ℕ)) (q : List Instr) (s : State) : checkFields (setPending q s) j l = checkFields s j l := rfl

theorem crcConfigureJob_setPending (eng : ℕ) (j : Job) (q : List Instr) (s : State) :
    crcConfigureJob eng j (setPending q s) = setPending q (crcConfigureJob eng j s) := by
  unfold crcConfigureJob
  rw [checkFields_pending]
  split <;> rfl

theorem crcScanJob_setPending (eng : ℕ) (j : Job) (q : List Instr) (s : State) : crcScanJob eng j (setPending q s) = setPending q (crcScanJob eng j s) := by
  unfold crcScanJob
  dsimp only
  cases bitOf (leAt j.desc 2 1) 2 with
  | true =>
    simp only [checkFields_pending, localExtent_pending, readMem_setPending, jobCheck_setPending, setCheck_setPending, bump_setPending, count_setPending,
      writeAll_setPending, jobDone_setPending, noteMismatch_setPending, ite_setPending, if_true]
    split <;> rfl
  | false =>
    simp only [checkFields_pending, localExtent_pending, readMem_setPending, jobCheck_setPending, setCheck_setPending, bump_setPending, count_setPending,
      jobDone_setPending, noteMismatch_setPending, ite_setPending, Bool.false_eq_true, if_false]
    split <;> rfl

theorem crcSetJob_setPending (eng : ℕ) (j : Job) (q : List Instr) (s : State) : crcSetJob eng j (setPending q s) = setPending q (crcSetJob eng j s) := by
  unfold crcSetJob
  rw [checkFields_pending]
  split <;> rfl

theorem crcReadJob_setPending (eng : ℕ) (j : Job) (q : List Instr) (s : State) : crcReadJob eng j (setPending q s) = setPending q (crcReadJob eng j s) := by
  unfold crcReadJob
  simp only [checkFields_pending, localExtent_pending, jobCheck_setPending, writeAll_setPending, jobDone_setPending]
  split <;> rfl

theorem crcPeriodicJob_setPending (eng : ℕ) (j : Job) (q : List Instr) (s : State) :
    crcPeriodicJob eng j (setPending q s) = setPending q (crcPeriodicJob eng j s) := by
  unfold crcPeriodicJob
  simp only [checkFields_pending, localExtent_pending, jobCheck_setPending]
  split <;> rfl

theorem crcCancelJob_setPending (eng : ℕ) (j : Job) (q : List Instr) (s : State) :
    crcCancelJob eng j (setPending q s) = setPending q (crcCancelJob eng j s) := by
  unfold crcCancelJob
  rw [checkFields_pending, jobCheck_setPending]
  split
  · rfl
  split
  · rfl
  · rw [setCheck_setPending, signalJob_setPending, resumeEnq_setPending]
    rfl

theorem crcConfigure_cases {eng : ℕ} {j : Job} {x : CheckCtx} {s : State} (hq : Quiet s) (hx : x = jobCheck s j) (hm : MayTake 6 eng j s)
    (ho : opOf j.desc = 1) (hf : firstStatus (checkFields s j [(4, 3), (0x18, 0x18)]) = none) :
    (leAt j.desc 4 1 < 4 ∨ (leAt j.desc 4 1 = 4 ∧ 8 ≤ leAt j.desc 5 1 ∧ leAt j.desc 5 1 ≤ 64) →
        Gives (.crcConfigure eng) s (jobDone 6 eng Stat.ok (setCheck (configured x j.desc) (taken eng j s))))
      ∧ (4 < leAt j.desc 4 1 ∨ (leAt j.desc 4 1 = 4 ∧ (leAt j.desc 5 1 < 8 ∨ 64 < leAt j.desc 5 1)) →
        Gives (.crcConfigure eng) s (jobDone 6 eng Stat.badFormat (taken eng j s))) := by
  have hfields : checkFields (taken eng j s) j [(4, 3), (0x18, 0x18)] = checkFields s j [(4, 3), (0x18, 0x18)] := rfl
  have hctx : jobCheck (taken eng j s) j = x := hx.symm
  have hgives {t : State} (h : crcConfigureJob eng j (taken eng j s) = t) (ht : t.tasks = s.tasks) : Gives (.crcConfigure eng) s t :=
    takeOp_gives (f := crcConfigureJob eng) (by unfold exec; rfl) hq hm (by rw [ho]; rfl) (by rw [ho]; rfl) (crcConfigureJob_setPending eng j) h ht
  have hstart (g : List (Bool × ℕ)) : startStatus (checkFields s j [(4, 3), (0x18, 0x18)] ++ g) false [] = firstStatus g := by
    unfold startStatus
    rw [firstStatus_append hf]
    split
    · next h => exact h.symm
    · next h => exact h.symm
  refine ⟨fun hok => hgives ?_ rfl, fun hbad => hgives ?_ rfl⟩
  · have h4 : ¬ 4 < leAt j.desc 4 1 := by omega
    have hw : (leAt j.desc 4 1 == 4 && (decide (leAt j.desc 5 1 < 8) || decide (64 < leAt j.desc 5 1))) = false := by
      simp only [Bool.and_eq_false_iff, beq_eq_false_iff_ne, Bool.or_eq_false_iff, decide_eq_false_iff_not]
      omega
    unfold crcConfigureJob
    rw [hfields, hstart, decide_eq_false h4, hw, hctx]
    rfl
  · unfold crcConfigureJob
    rw [hfields, hstart]
    rcases hbad with h4 | ⟨h4, hw⟩
    · rw [decide_eq_true h4]
      rfl
    · have hw' : (leAt j.desc 4 1 == 4 && (decide (leAt j.desc 5 1 < 8) || decide (64 < leAt j.desc 5 1))) = true := by
        simp only [Bool.and_eq_true, beq_iff_eq, Bool.or_eq_true, decide_eq_true_eq]
        exact ⟨h4, hw⟩
      rw [decide_eq_false (by omega : ¬ 4 < leAt j.desc 4 1), hw']
      rfl

theorem crcScan_cases {m : MemRun} {eng f a n v : ℕ} {j : Job} {w : CheckCtx} {s t u : State} (hq : Quiet s) (hu : u = seeEcc m.ecc (taken eng j s))
    (hw : w = jobCheck u j) (hm : MayTake 6 eng j s) (ho : opOf j.desc = 2) (hf : firstStatus (checkFields u j [(2, 1), (8, 0x20)]) = none)
    (hfl : f = leAt j.desc 2 1) (ha : a = leAt j.desc 8 8) (hn : n = leAt j.desc 0x10 8)
    (hv : v = feedAll w (if bitOf f 0 then w.init else w.value) (devGet u a n))
    (ht : t = count (Reg.crcSnapCnt.base + 8) n (bump Reg.crcSnapCnt.base 0 (setCheck { w with value := v } u))) :
    (n = 0 → Gives (.crcScan eng m) s (jobDone 6 eng Stat.ok u))
      ∧ (n ≠ 0 → localExtent u a n = Stat.ok → poisonHit u.sq.poison a n = false → bitOf f 2 = false →
        (bitOf f 1 = false ∨ finished w v = leAt j.desc 0x18 8 → Gives (.crcScan eng m) s (jobDone 6 eng Stat.ok t))
        ∧ (bitOf f 1 = true → finished w v ≠ leAt j.desc 0x18 8 →
          Gives (.crcScan eng m) s (jobDone 6 eng 0x42 (noteMismatch j.task.handle (leAt j.desc 1 1) a n t))))
      ∧ (∀ st s1, n ≠ 0 → localExtent u a n = Stat.ok → poisonHit u.sq.poison a n = false → bitOf f 2 = true → bitOf f 1 = false →
        localExtent u (leAt j.desc 0x20 8) 8 = Stat.ok → writeAll (leAt j.desc 0x20 8) (leBytes 8 v) [] t = (st, s1) →
        Gives (.crcScan eng m) s (jobDone 6 eng st s1)) := by
  have hgives {t : State} (h : crcScanJob eng j u = t) (ht : t.tasks = u.tasks) : Gives (.crcScan eng m) s t :=
    takeRun_gives (f := crcScanJob eng) (by unfold exec; rfl) hq hm (by rw [ho]; rfl) (by rw [ho]; rfl) hu (crcScanJob_setPending eng j) h ht
  have htasks : t.tasks = u.tasks := ht ▸ rfl
  have hread (h0 : n ≠ 0) (he : localExtent u a n = Stat.ok) (hp : poisonHit u.sq.poison a n = false)
      (hout : (if bitOf f 2 then localExtent u (leAt j.desc 0x20 8) 8 else Stat.ok) = Stat.ok) : crcScanJob eng j u =
        if bitOf f 1 && finished w v != leAt j.desc 0x18 8 then
          jobDone 6 eng 0x42 (noteMismatch j.task.handle (leAt j.desc 1 1) a n (if bitOf f 2 then writeAll (leAt j.desc 0x20 8) (leBytes 8 v) [] t else (Stat.ok, t)).2)
        else jobDone 6 eng (if bitOf f 2 then writeAll (leAt j.desc 0x20 8) (leBytes 8 v) [] t else (Stat.ok, t)).1
          (if bitOf f 2 then writeAll (leAt j.desc 0x20 8) (leBytes 8 v) [] t else (Stat.ok, t)).2 := by
    unfold crcScanJob
    dsimp only
    rw [← hfl, ← ha, ← hn, startStatus_of_fields hf, beq_eq_false_iff_ne.mpr h0, he, hout, readMem_clean hp]
    dsimp only
    rw [← hw, ← hv, ← ht]
    rfl
  refine ⟨fun h0 => hgives ?_ rfl, fun h0 he hp h2 => ⟨fun hok => hgives ?_ htasks, fun h1 hne => hgives ?_ ((noteMismatch_tasks _ _ _ _ _).trans htasks)⟩,
    fun st s1 h0 he hp h2 h1 he2 hst => hgives ?_ ?_⟩
  · unfold crcScanJob
    dsimp only
    rw [← hn, startStatus_of_fields hf, h0]
    rfl
  · rw [hread h0 he hp (by rw [h2]; rfl), h2]
    refine if_neg ?_
    rcases hok with h1 | heq
    · rw [h1]
      exact Bool.false_ne_true
    · rw [heq, bne_self_eq_false, Bool.and_false]
      exact Bool.false_ne_true
  · rw [hread h0 he hp (by rw [h2]; rfl), h2, h1, bne_iff_ne.mpr hne]
    rfl
  · rw [hread h0 he hp (by rw [h2]; exact he2), h2, h1]
    show jobDone 6 eng (writeAll _ _ _ _).1 (writeAll _ _ _ _).2 = _
    rw [hst]
  · have hwrite := writeAll_tasks (leAt j.desc 0x20 8) (leBytes 8 v) [] t
    rw [hst] at hwrite
    exact hwrite.trans htasks

theorem crcSetValue_gives {eng : ℕ} {j : Job} {x : CheckCtx} {s : State} (hq : Quiet s) (hx : x = jobCheck s j) (hm : MayTake 6 eng j s)
    (ho : opOf j.desc = 3) (hf : firstStatus (checkFields s j [(0x18, 8)]) = none) :
    Gives (.crcSetValue eng) s (jobDone 6 eng Stat.ok (setCheck { x with value := leAt j.desc 0x18 8 % 2 ^ x.width } (taken eng j s))) := by
  have hfields : checkFields (taken eng j s) j [(0x18, 8)] = checkFields s j [(0x18, 8)] := rfl
  have hctx : jobCheck (taken eng j s) j = x := hx.symm
  refine takeOp_gives (f := crcSetJob eng) (by unfold exec; rfl) hq hm (by rw [ho]; rfl) (by rw [ho]; rfl) (crcSetJob_setPending eng j) ?_ rfl
  unfold crcSetJob
  rw [hfields, startStatus_of_fields hf, hctx]
  rfl

theorem crcReadValue_gives {m : MemRun} {eng st : ℕ} {j : Job} {w : CheckCtx} {s u s1 : State} (hq : Quiet s) (hu : u = seeEcc m.ecc (taken eng j s))
    (hw : w = jobCheck u j) (hm : MayTake 6 eng j s) (ho : opOf j.desc = 4) (hf : firstStatus (checkFields u j [(0x20, 8)]) = none)
    (he : localExtent u (leAt j.desc 0x20 8) 8 = Stat.ok) (hst : writeAll (leAt j.desc 0x20 8) (leBytes 8 w.value) [] u = (st, s1)) :
    Gives (.crcReadValue eng m) s (jobDone 6 eng st s1) := by
  refine takeRun_gives (f := crcReadJob eng) (by unfold exec; rfl) hq hm (by rw [ho]; rfl) (by rw [ho]; rfl) hu (crcReadJob_setPending eng j) ?_ ?_
  · unfold crcReadJob
    dsimp only
    rw [startStatus_of_fields hf, he, ← hw, hst]
    rfl
  · have hwrite := writeAll_tasks (leAt j.desc 0x20 8) (leBytes 8 w.value) [] u
    rw [hst] at hwrite
    exact hwrite

theorem crcPeriodicScan_gives {eng : ℕ} {j : Job} {x : CheckCtx} {s : State} (hq : Quiet s) (hx : x = jobCheck s j) (hm : MayTake 6 eng j s)
    (ho : opOf j.desc = 5) (hf : firstStatus (checkFields s j [(8, 0x18), (0x34, 4)]) = none) (hn : leAt j.desc 0x10 8 ≠ 0)
    (he : localExtent s (leAt j.desc 8 8) (leAt j.desc 0x10 8) = Stat.ok) (hp : x.periodic = none) :
    Gives (.crcPeriodicScan eng) s (modEng (fun e => { e with running := dropFirst (fun r => r.job.kind == 6 && r.eng == eng) e.running })
        (setCheck { x with periodic := some j } (taken eng j s))) := by
  have hfields : checkFields (taken eng j s) j [(8, 0x18), (0x34, 4)] = checkFields s j [(8, 0x18), (0x34, 4)] := rfl
  have hctx : jobCheck (taken eng j s) j = x := hx.symm
  have hext : localExtent (taken eng j s) (leAt j.desc 8 8) (leAt j.desc 0x10 8) = Stat.ok := he
  refine takeOp_gives (f := crcPeriodicJob eng) (by unfold exec; rfl) hq hm (by rw [ho]; rfl) (by rw [ho]; rfl) (crcPeriodicJob_setPending eng j) ?_ rfl
  unfold crcPeriodicJob
  dsimp only
  rw [hfields, startStatus_of_fields hf, beq_eq_false_iff_ne.mpr hn, hext, hctx, hp]
  rfl

theorem takeRun_givesThen {c : Instr} {kind eng : ℕ} {ops : List ℕ} {m : MemRun} {f : Job → State → State} {j : Job} {s t u : State}
    (hc : exec c s = run (takeRun kind eng ops m f) s) (hm : MayTake kind eng j s)
    (hk : (kindOps kind).contains (opOf j.desc) = true) (ho : ops.contains (opOf j.desc) = true) (hu : u = seeEcc m.ecc (taken eng j s))
    (hf : ∀ q s, f j (setPending q s) = setPending q (f j s)) (h : f j u = t) : GivesThen c s t := by
  have hm' : MayTake kind eng j (setPending [] s) := hm
  refine givesThen_of_effect hc ?_
  unfold takeRun
  rw [takeOp_next hm', hk, ho]
  show f j (seeEcc m.ecc (setPending [] (taken eng j s))) = _
  rw [seeEcc_setPending, ← hu, hf, h]

theorem crcCancelPeriodic_cases {m : MemRun} {eng : ℕ} {j : Job} {w : CheckCtx} {s u : State} (hq : Quiet s) (hu : u = seeEcc m.ecc (taken eng j s))
    (hw : w = jobCheck u j) (hm : MayTake 6 eng j s) (ho : opOf j.desc = 6) (hf : firstStatus (checkFields u j []) = none) :
    (w.periodic = none → Gives (.crcCancelPeriodic eng m) s (jobDone 6 eng Stat.ok u))
      ∧ (∀ p, w.periodic = some p → GivesThen (.crcCancelPeriodic eng m) s (jobDone 6 eng Stat.ok (resumeEnq 6
          (signalJob p.task.handle (jobToken 6 p.desc) Stat.ok (setCheck { w with periodic := none } u))))) := by
  have hjob : crcCancelJob eng j u = match w.periodic with
      | none => jobDone 6 eng Stat.ok u
      | some p => jobDone 6 eng Stat.ok (resumeEnq 6 (signalJob p.task.handle (jobToken 6 p.desc) Stat.ok (setCheck { w with periodic := none } u))) := by
    unfold crcCancelJob
    rw [startStatus_of_fields hf, ← hw]
    rfl
  refine ⟨fun hp => ?_, fun p hp => ?_⟩
  · refine takeRun_gives (f := crcCancelJob eng) (by unfold exec; rfl) hq hm (by rw [ho]; rfl) (by rw [ho]; rfl) hu (crcCancelJob_setPending eng j) ?_ rfl
    rw [hjob, hp]
  · refine takeRun_givesThen (f := crcCancelJob eng) (by unfold exec; rfl) hm (by rw [ho]; rfl) (by rw [ho]; rfl) hu (crcCancelJob_setPending eng j) ?_
    rw [hjob, hp]

/-! ## A pass of a periodic scan -/

/-- What a pass over the context `x` of the scan `j` leaves. -/
def crcPass (late : Bool) (x : CheckCtx) (j : Job) (s : State) : State :=
  let a := leAt j.desc 8 8
  let n := leAt j.desc 0x10 8
  let (r, s) := readMem a n [] s
  let s := if late then bump Reg.crcSnapCnt.base 4 (bump Reg.crcSnapCnt.base 3 s) else bump Reg.crcSnapCnt.base 3 s
  if r.status ≠ Stat.ok then s
  else
    let v := feedAll x x.init r.data
    let s := count (Reg.crcSnapCnt.base + 8) n s
    if finished x v = leAt j.desc 0x18 8 then s else noteMismatch x.handle x.ctx a n s

/-- What the elapsed period of a scan in a device context leaves. -/
def crcPassRow (ctx : ℕ) (late : Bool) (m : MemRun) (s : State) : State :=
  if !groupUp s 3 || decide (4 ≤ (s.eng.running.filter fun r => r.job.kind == 6).length)
      || ((s.eng.jobs.any (fun j => j.kind == 6) || s.eng.loader.any fun l => l.checks != 0) && !late) then s
  else match s.eng.checks.find? fun x => x.periodic.isSome && devCheck s x == ctx with
    | none => s
    | some x =>
      match x.periodic with
      | none => s
      | some j => crcPass late x j (seeEcc m.ecc s)

theorem exec_crcPassRow (ctx : ℕ) (late : Bool) (m : MemRun) (s : State) : exec (.crcPeriodicPass ctx late m) s = run (crcPassRow ctx late m) s := by
  unfold exec
  rfl

theorem crcPass_setPending (late : Bool) (x : CheckCtx) (j : Job) (q : List Instr) (s : State) : crcPass late x j (setPending q s) = setPending q (crcPass late x j s) := by
  simp only [crcPass, readMem_setPending, bump_setPending, count_setPending, noteMismatch_setPending, ite_setPending]

theorem crcPass_tasks (late : Bool) (x : CheckCtx) (j : Job) (s : State) : (crcPass late x j s).tasks = s.tasks := by
  simp only [crcPass, apply_ite State.tasks, noteMismatch_tasks, count_tasks, bump_tasks, readMem_tasks, ite_self]

theorem crcPeriodicPass_cases {m : MemRun} {ctx v : ℕ} {late : Bool} {y : CheckCtx} {p : Job} {s t z : State} (hq : Quiet s) (hz : z = seeEcc m.ecc s)
    (hg : groupUp s 3 = true) (hfree : (s.eng.running.filter fun r => r.job.kind == 6).length < 4)
    (hidle : late = true ∨ (s.eng.jobs.any (fun j => j.kind == 6) = false ∧ s.eng.loader.any (fun l => l.checks != 0) = false))
    (hy : s.eng.checks.find? (fun x => x.periodic.isSome && devCheck s x == ctx) = some y) (hp : y.periodic = some p)
    (hc : poisonHit z.sq.poison (leAt p.desc 8 8) (leAt p.desc 0x10 8) = false)
    (hv : v = feedAll y y.init (devGet z (leAt p.desc 8 8) (leAt p.desc 0x10 8)))
    (ht : t = count (Reg.crcSnapCnt.base + 8) (leAt p.desc 0x10 8)
        (if late then bump Reg.crcSnapCnt.base 4 (bump Reg.crcSnapCnt.base 3 z) else bump Reg.crcSnapCnt.base 3 z)) :
    (finished y v = leAt p.desc 0x18 8 → Gives (.crcPeriodicPass ctx late m) s t)
      ∧ (finished y v ≠ leAt p.desc 0x18 8 →
        Gives (.crcPeriodicPass ctx late m) s (noteMismatch y.handle y.ctx (leAt p.desc 8 8) (leAt p.desc 0x10 8) t)) := by
  have hgo : ¬(!groupUp s 3 || decide (4 ≤ (s.eng.running.filter fun r => r.job.kind == 6).length)
      || ((s.eng.jobs.any (fun j => j.kind == 6) || s.eng.loader.any fun l => l.checks != 0) && !late)) = true := by
    rw [hg, decide_eq_false (Nat.not_le.mpr hfree)]
    rcases hidle with hl | ⟨hj, hl⟩
    · rw [hl, Bool.not_true, Bool.and_false]
      decide
    · rw [hj, hl]
      exact Bool.false_ne_true
  have hpass : crcPass late y p z = if finished y v = leAt p.desc 0x18 8 then t else noteMismatch y.handle y.ctx (leAt p.desc 8 8) (leAt p.desc 0x10 8) t := by
    unfold crcPass
    dsimp only
    rw [readMem_clean hc]
    dsimp only
    rw [← hv, ← ht]
    exact if_neg fun h => h rfl
  have hgives {w : State} (h : crcPass late y p z = w) : Gives (.crcPeriodicPass ctx late m) s w := by
    have hw : w.tasks = s.tasks := by
      rw [← h, crcPass_tasks, hz, seeEcc_tasks]
    refine gives_of_effect (exec_crcPassRow ctx late m s) hq ?_ hw
    refine (if_neg hgo).trans ?_
    show (match s.eng.checks.find? (fun x => x.periodic.isSome && devCheck s x == ctx) with | none => _ | some x => _) = _
    rw [hy]
    dsimp only
    rw [hp]
    dsimp only
    rw [seeEcc_setPending, ← hz, crcPass_setPending, h]
  exact ⟨fun h => hgives (hpass.trans (if_pos h)), fun h => hgives (hpass.trans (if_neg h))⟩

/-! ## Hash -/

/-- What a hash job does once it stands on the hash engine. -/
def hashJob (j : Job) (s : State) : State :=
  let d := j.desc
  let n := leAt d 2 2
  let k := leAt d 0x18 4
  let wait := (timeUnits s.tim.now - timeUnits j.at_) / 2 ^ 32 / 1000
  let s := setCtr (Reg.hshSnapCnt.base + 20) (max wait (ctrOf s (Reg.hshSnapCnt.base + 20))) s
  match startStatus [(!descClean [(0, 1), (2, 2), (8, 0x14), (0x30, 2)] d, Stat.badFormat), (decide (64 < n) || decide (512 < k), Stat.badFormat)]
      (n == 0 || k == 0) [bad (sqExtent s (leAt d 8 8) (16 * n)), bad (sqExtent s (leAt d 0x10 8) k)] with
  | some st => jobDone 5 0 st s
  | none =>
    let (l, s) := readMem (leAt d 8 8) (16 * n) [] s
    if l.status ≠ Stat.ok then jobDone 5 0 l.status s
    else
      let es := (List.range n).map fun i => (leAt l.data (16 * i) 8, leAt l.data (16 * i + 8) 8)
      match firstStatus (es.map fun e => bad (localExtent s e.1 e.2)) with
      | some st => jobDone 5 0 st s
      | none =>
        let (x, s) := readExtents es [] s
        if x.status ≠ Stat.ok then jobDone 5 0 x.status s
        else
          let s := count (Reg.hshSnapCnt.base + 4) x.data.length s
          let (w, s) := writeAll (leAt d 0x10 8) (shake256 x.data k) [] s
          jobDone 5 0 w s

theorem exec_hashJob (m : MemRun) (s : State) :
    exec (.hashShake256 m) s = run (fun s => if !s.eng.samples.isEmpty then s else takeRun 5 0 [1] m hashJob s) s := by
  unfold exec
  rfl

theorem hashJob_setPending (j : Job) (q : List Instr) (s : State) : hashJob j (setPending q s) = setPending q (hashJob j s) := by
  have hext (t : State) : sqExtent (setPending q t) = sqExtent t := rfl
  have hctr (t : State) : ctrOf (setPending q t) = ctrOf t := rfl
  have htim (t : State) : (setPending q t).tim = t.tim := rfl
  unfold hashJob
  simp only [setCtr_setPending, hext, hctr, htim, readMem_setPending, localExtent_pending, readExtents_setPending, count_setPending, writeAll_setPending, jobDone_setPending,
    ite_setPending]
  split
  · rfl
  split
  · rfl
  split
  · rfl
  · rfl

theorem readExtents_clean (es : List (ℕ × ℕ)) (acc : List Byte) {s : State} (hp : s.sq.poison = []) :
    readExtents es acc s = ({ status := Stat.ok, data := acc ++ es.flatMap fun e => devGet s e.1 e.2 }, s) := by
  induction es generalizing acc with
  | nil => 
    rw [List.flatMap_nil, List.append_nil]
    rfl
  | cons e es ih =>
    obtain ⟨a, n⟩ := e
    unfold readExtents
    rw [List.flatMap_cons]
    by_cases hn : n = 0
    · subst hn
      rw [if_pos rfl, ih]
      rfl
    · rw [if_neg hn, readMem_clean (by rw [hp]; rfl)]
      dsimp only
      rw [if_pos rfl, ih, List.append_assoc]

theorem firstStatus_extents {es : List (ℕ × ℕ)} {f : ℕ → ℕ → ℕ} (h : ∀ e ∈ es, f e.1 e.2 = Stat.ok) : firstStatus (es.map fun e => bad (f e.1 e.2)) = none := by
  induction es with
  | nil => rfl
  | cons e es ih =>
    rw [List.map_cons, h e List.mem_cons_self]
    exact ih fun x hx => h x (List.mem_cons_of_mem _ hx)

theorem hashShake256_gives {m : MemRun} {n k a st : ℕ} {j : Job} {es : List (ℕ × ℕ)} {msg : List Byte} {s s1 t y : State} (hq : Quiet s)
    (hy : y = seeEcc m.ecc (taken 0 j s)) (hs : s.eng.samples = []) (hm : MayTake 5 0 j s) (ho : opOf j.desc = 1)
    (hclean : descClean [(0, 1), (2, 2), (8, 0x14), (0x30, 2)] j.desc = true) (hn : n = leAt j.desc 2 2) (hk : k = leAt j.desc 0x18 4)
    (ha : a = leAt j.desc 8 8) (hn0 : 0 < n) (hn64 : n ≤ 64) (hk0 : 0 < k) (hk512 : k ≤ 512) (he : sqExtent y a (16 * n) = Stat.ok)
    (he2 : sqExtent y (leAt j.desc 0x10 8) k = Stat.ok) (hp : y.sq.poison = [])
    (hes : es = (List.range n).map fun i => (leAt (devGet y a (16 * n)) (16 * i) 8, leAt (devGet y a (16 * n)) (16 * i + 8) 8))
    (hall : ∀ e ∈ es, localExtent y e.1 e.2 = Stat.ok) (hmsg : msg = es.flatMap fun e => devGet y e.1 e.2)
    (ht : t = count (Reg.hshSnapCnt.base + 4) msg.length (setCtr (Reg.hshSnapCnt.base + 20)
        (max ((timeUnits s.tim.now - timeUnits j.at_) / 2 ^ 32 / 1000) (ctrOf y (Reg.hshSnapCnt.base + 20))) y))
    (hst : writeAll (leAt j.desc 0x10 8) (shake256 msg k) [] t = (st, s1)) : Gives (.hashShake256 m) s (jobDone 5 0 st s1) := by
  have htim : y.tim = s.tim := hy ▸ (eccFrame_seeEcc m.ecc (taken 0 j s)).get State.tim
  have hjob : hashJob j y = jobDone 5 0 st s1 := by
    obtain ⟨z, hz⟩ : ∃ z, z = setCtr (Reg.hshSnapCnt.base + 20)
      (max ((timeUnits s.tim.now - timeUnits j.at_) / 2 ^ 32 / 1000) (ctrOf y (Reg.hshSnapCnt.base + 20))) y := ⟨_, rfl⟩
    have hzext (a n : ℕ) : sqExtent z a n = sqExtent y a n := hz ▸ rfl
    have hzloc (a n : ℕ) : localExtent z a n = localExtent y a n := hz ▸ rfl
    have hzget (a n : ℕ) : devGet z a n = devGet y a n := hz ▸ rfl
    have hzp : z.sq.poison = [] := hz ▸ hp
    have hall' : ∀ e ∈ es, localExtent z e.1 e.2 = Stat.ok := fun e h => (hzloc _ _).trans (hall e h)
    have hmsg' : (es.flatMap fun e => devGet z e.1 e.2) = msg := by
      rw [hmsg]
      exact congrArg (fun f => List.flatMap f es) (funext fun e => hzget _ _)
    have hstart : startStatus [(!descClean [(0, 1), (2, 2), (8, 0x14), (0x30, 2)] j.desc, Stat.badFormat), (decide (64 < n) || decide (512 < k), Stat.badFormat)]
        (n == 0 || k == 0) [bad (sqExtent z a (16 * n)), bad (sqExtent z (leAt j.desc 0x10 8) k)] = none := by
      rw [hclean, decide_eq_false (Nat.not_lt.mpr hn64), decide_eq_false (Nat.not_lt.mpr hk512), beq_eq_false_iff_ne.mpr hn0.ne',
        beq_eq_false_iff_ne.mpr hk0.ne', hzext, hzext, he, he2]
      rfl
    unfold hashJob
    dsimp only
    rw [htim, ← hz, ← hn, ← hk, ← ha, hstart]
    dsimp only
    rw [readMem_clean (by rw [hzp]; rfl)]
    dsimp only
    rw [hzget, ← hes, if_neg (fun h => h rfl), firstStatus_extents hall']
    dsimp only
    rw [readExtents_clean es [] hzp]
    dsimp only
    rw [List.nil_append, hmsg', if_neg (fun h => h rfl), hz, ← ht, hst]
  have hm' : MayTake 5 0 j (setPending [] s) := hm
  have hk' : (kindOps 5).contains (opOf j.desc) = true := by
    rw [ho]
    rfl
  refine gives_of_effect (exec_hashJob m s) hq ?_ ?_
  · show (if !s.eng.samples.isEmpty then _ else _) = _
    rw [hs]
    show takeRun 5 0 [1] m hashJob (setPending [] s) = _
    unfold takeRun
    rw [takeOp_next hm', hk', ho]
    show hashJob j (seeEcc m.ecc (setPending [] (taken 0 j s))) = _
    rw [seeEcc_setPending, ← hy, hashJob_setPending, hjob]
  · have hwrite := writeAll_tasks (leAt j.desc 0x10 8) (shake256 msg k) [] t
    rw [hst] at hwrite
    refine hwrite.trans ?_
    rw [ht, hy]
    exact seeEcc_tasks _ _

theorem hashShake256_waits {m : MemRun} {s : State} (hq : Quiet s) (hs : s.eng.samples ≠ []) : Gives (.hashShake256 m) s s := by
  refine gives_of_effect (exec_hashJob m s) hq ?_ rfl
  refine if_pos ?_
  show (!s.eng.samples.isEmpty) = true
  rw [List.isEmpty_eq_false_iff.mpr hs]
  rfl

/-! ## Copies -/

theorem dmaRows_tasks (d : List Byte) (n i : ℕ) (s : State) : (dmaRows d n i s).2.tasks = s.tasks := by
  induction n generalizing i s with
  | zero => rfl
  | succ n ih =>
    unfold dmaRows
    dsimp only
    split
    · exact devRead_tasks _ _ _ _
    split
    · rw [devWrite_tasks, devRead_tasks]
    · rw [ih, noteOrdering_tasks, devWrite_tasks, devRead_tasks]

/-- Rows that are all written move the copy on by as many. -/
theorem dmaRows_count {d : List Byte} {n i k : ℕ} {s t : State} (h : dmaRows d n i s = ((Stat.ok, k), t)) : k = i + n := by
  induction n generalizing i s with
  | zero =>
    cases h
    rfl
  | succ n ih =>
    unfold dmaRows at h
    dsimp only at h
    split at h
    · next hne => exact absurd (congrArg (·.1.1) h) hne
    split at h
    · next hne => exact absurd (congrArg (·.1.1) h) hne
    · rw [ih h]
      omega

theorem region_of_not_peer {a : ℕ} (h : isPeer a = false) (p : ℕ) : regionOf a ≠ .peer p := by
  intro hp
  unfold isPeer at h
  rw [hp] at h
  cases h

theorem dmaPort_local {d : List Byte} (ha : isPeer (leAt d 8 8) = false) (hb : isPeer (leAt d 0x10 8) = false) : dmaPort d = none := by
  unfold dmaPort
  split
  · next h => exact absurd h (region_of_not_peer ha _)
  · next h _ => exact absurd h (region_of_not_peer hb _)
  · rfl

/-- A copy between endpoints of this device runs to its last row, or to one that is refused. -/
theorem dmaGo_local {ch st i : ℕ} {r : Running} {s s1 : State} (hr : runningOn s 8 ch = some r) (hc : r.cursor = 0)
    (ha : isPeer (leAt r.job.desc 8 8) = false) (hb : isPeer (leAt r.job.desc 0x10 8) = false)
    (hrows : dmaRows r.job.desc (leAt r.job.desc 0x18 4) 0 s = ((st, i), s1)) :
    dmaGo ch none s = jobDone 8 ch st
      (modRunning 8 ch (fun r => { r with cursor := i }) (count (Reg.dmaSnapCnt.base + 4) (i * leAt r.job.desc 4 4) s1)) := by
  have hport := dmaPort_local ha hb
  have hstands (t : State) : dmaStands t r.job.desc = false := by
    unfold dmaStands
    rw [hport]
  unfold dmaGo
  rw [hr]
  dsimp only
  rw [hstands, hstands, hport, hc, Nat.sub_zero, hrows]
  dsimp only
  rw [Nat.sub_zero]
  by_cases hst : st = Stat.ok
  · subst hst
    rw [if_neg Bool.false_ne_true, if_neg (fun h => h rfl), if_neg (by have := dmaRows_count hrows; omega)]
    rfl
  · rw [if_neg Bool.false_ne_true, if_pos hst]
    rfl

/-- What a copy does once it stands on its channel. -/
def dmaJob (ch : ℕ) (far : Option FarEnd) (j : Job) (s : State) : State :=
  match dmaStart s j with
  | some st => jobDone 8 ch st s
  | none => dmaGo ch far s

theorem dmaJob_setPending (ch : ℕ) (far : Option FarEnd) (j : Job) (q : List Instr) (s : State) :
    dmaJob ch far j (setPending q s) = setPending q (dmaJob ch far j s) := by
  unfold dmaJob
  rw [dmaStart_setPending]
  split
  · rfl
  · exact dmaGo_setPending _ _ _ _

theorem exec_dmaJob (ch : ℕ) (far : Option FarEnd) (m : MemRun) (s : State) : exec (.dmaCopy ch far m) s = run (fun s =>
    match runningOn s 8 ch with
    | some r => if r.done || !groupUp s 3 then s else dmaGo ch far (seeEcc m.ecc s)
    | none => takeRun 8 ch [1] m (dmaJob ch far) s) s := by
  unfold exec
  rfl

theorem dmaCopy_cases {m : MemRun} {ch : ℕ} {j : Job} {s y : State} (hq : Quiet s) (hy : y = seeEcc m.ecc (taken ch j s)) (hm : MayTake 8 ch j s)
    (ho : opOf j.desc = 1) :
    (∀ st, dmaStart y j = some st → Gives (.dmaCopy ch none m) s (jobDone 8 ch st y))
      ∧ (dmaStart y j = none → ∀ st i s1, dmaRows j.desc (leAt j.desc 0x18 4) 0 y = ((st, i), s1) →
        isPeer (leAt j.desc 8 8) = false → isPeer (leAt j.desc 0x10 8) = false →
        Gives (.dmaCopy ch none m) s (jobDone 8 ch st
          (modRunning 8 ch (fun r => { r with cursor := i }) (count (Reg.dmaSnapCnt.base + 4) (i * leAt j.desc 4 4) s1)))) := by
  have hidle := hm.2.2.1
  have hgives {t : State} (h : dmaJob ch none j y = t) (ht : t.tasks = y.tasks) : Gives (.dmaCopy ch none m) s t := by
    have hm' : MayTake 8 ch j (setPending [] s) := hm
    have hk : (kindOps 8).contains (opOf j.desc) = true := by
      rw [ho]
      rfl
    refine gives_of_effect (exec_dmaJob ch none m s) hq ?_ (ht.trans (hy ▸ seeEcc_tasks _ _))
    show (match runningOn s 8 ch with | some _ => _ | none => _) = _
    rw [hidle]
    show takeRun 8 ch [1] m (dmaJob ch none) (setPending [] s) = _
    unfold takeRun
    rw [takeOp_next hm', hk, ho]
    show dmaJob ch none j (seeEcc m.ecc (setPending [] (taken ch j s))) = _
    rw [seeEcc_setPending, ← hy, dmaJob_setPending, h]
  have hrun : runningOn y 8 ch = some (Running.start ch j) := by
    rw [hy, seeEcc_running]
    exact runningOn_taken hm
  refine ⟨fun st h => hgives ?_ rfl, fun h st i s1 hrows ha hb => hgives ?_ ?_⟩
  · unfold dmaJob
    rw [h]
  · unfold dmaJob
    rw [h]
    exact dmaGo_local hrun rfl ha hb hrows
  · have hrowsTasks := dmaRows_tasks j.desc (leAt j.desc 0x18 4) 0 y
    rw [hrows] at hrowsTasks
    exact hrowsTasks

/-! ## A row between two places of the LPDDR-6 -/

theorem memCells_bounds {a : ℕ} {bs : List Byte} {c : ℕ × Byte} (h : c ∈ memCells a bs) : a ≤ c.1 ∧ c.1 < a + bs.length := by
  induction bs generalizing a with
  | nil => cases h
  | cons b bs ih =>
    unfold memCells at h
    rw [List.length_cons]
    split at h
    · have := ih h
      omega
    · rcases List.mem_cons.mp h with rfl | h
      · exact ⟨le_rfl, by show a < _; omega⟩
      · have := ih h
        omega

theorem memCells_append (a : ℕ) (l r : List Byte) : memCells a (l ++ r) = memCells a l ++ memCells (a + l.length) r := by
  induction l generalizing a with
  | nil => rfl
  | cons b l ih =>
    rw [List.cons_append, memCells, memCells, ih, List.length_cons]
    have hadd : a + 1 + l.length = a + (l.length + 1) := by omega
    rw [hadd]
    split
    · rfl
    · rfl

/-- Bytes written in two parts stand as bytes written at once. -/
theorem memWrite_append (m : Memory) (a : ℕ) (l r : List Byte) : memWrite (memWrite m a l) (a + l.length) r = memWrite m a (l ++ r) := by
  have hlow : (memWrite m a l).filter (fun c => decide (c.1 < a + l.length)) = m.filter (fun c => decide (c.1 < a)) ++ memCells a l := by
    have hbelow : ∀ c ∈ m.filter (fun c => decide (c.1 < a)) ++ memCells a l, decide (c.1 < a + l.length) = true := by
      intro c hc
      rcases List.mem_append.mp hc with hc | hc
      · have := of_decide_eq_true (List.mem_filter.mp hc).2
        exact decide_eq_true (by omega)
      · exact decide_eq_true (memCells_bounds hc).2
    have habove : ∀ c ∈ m.filter (fun c => decide (a + l.length ≤ c.1)), ¬decide (c.1 < a + l.length) = true := by
      intro c hc h
      have := of_decide_eq_true (List.mem_filter.mp hc).2
      have := of_decide_eq_true h
      omega
    unfold memWrite
    rw [List.filter_append, List.filter_eq_self.mpr hbelow, List.filter_eq_nil_iff.mpr habove, List.append_nil]
  have hhigh : (memWrite m a l).filter (fun c => decide (a + l.length + r.length ≤ c.1)) = m.filter (fun c => decide (a + (l ++ r).length ≤ c.1)) := by
    have hbelow : ∀ c ∈ m.filter (fun c => decide (c.1 < a)) ++ memCells a l, ¬decide (a + l.length + r.length ≤ c.1) = true := by
      intro c hc h
      have := of_decide_eq_true h
      rcases List.mem_append.mp hc with hc | hc
      · have := of_decide_eq_true (List.mem_filter.mp hc).2
        omega
      · have := (memCells_bounds hc).2
        omega
    unfold memWrite
    rw [List.filter_append, List.filter_eq_nil_iff.mpr hbelow, List.nil_append, List.filter_filter, List.length_append]
    refine List.filter_congr fun c _ => ?_
    rw [← Bool.decide_and]
    exact decide_eq_decide.mpr (by omega)
  calc memWrite (memWrite m a l) (a + l.length) r
      = m.filter (fun c => decide (c.1 < a)) ++ memCells a l ++ memCells (a + l.length) r
          ++ m.filter (fun c => decide (a + (l ++ r).length ≤ c.1)) := by
        rw [← hlow, ← hhigh]
        rfl
    _ = memWrite m a (l ++ r) := by
        unfold memWrite
        rw [memCells_append, List.append_assoc (List.filter _ m)]

theorem poisonClear_append {p : List ℕ} {a n m : ℕ} (h8 : (a + n) % 8 = 0) : poisonClear (poisonClear p a n) (a + n) m = poisonClear p a (n + m) := by
  unfold poisonClear
  rw [List.filter_filter]
  refine List.filter_congr fun w _ => ?_
  rw [Bool.eq_iff_iff]
  simp only [Bool.and_eq_true, Bool.not_eq_true', Bool.and_eq_false_iff, decide_eq_false_iff_not]
  omega

theorem devPut_append {a : ℕ} {l r : List Byte} {s : State} (h8 : (a + l.length) % 8 = 0) : devPut (a + l.length) r (devPut a l s) = devPut a (l ++ r) s := by
  unfold devPut
  rw [memWrite_append]
  dsimp only
  rw [poisonClear_append h8, List.length_append]

/-- A write that stops at the end of a word, or goes on from there, meets no poisoned word in part where the whole write meets none. -/
theorem poisonPart_sub {p q : List ℕ} {a n b m : ℕ} (hsub : ∀ w ∈ q, w ∈ p) (h : poisonPart p a n = false) (hlo : b = a ∨ a ≤ b ∧ b % 8 = 0)
    (hhi : b + m = a + n ∨ b + m ≤ a + n ∧ (b + m) % 8 = 0) : poisonPart q b m = false := by
  unfold poisonPart at h ⊢
  rw [List.any_eq_false] at h ⊢
  intro w hw
  have hno := h w (hsub w hw)
  simp only [Bool.and_eq_true, Bool.not_eq_true', Bool.and_eq_false_iff, decide_eq_true_eq, decide_eq_false_iff_not] at hno ⊢
  omega

/-- A write that meets no poisoned word in part stores its bytes. -/
theorem writeMem_put (f a : ℕ) (bs : List Byte) {s : State} (hf : bs.length + a % 256 ≤ 256 * f) (hb : bs ≠ [])
    (hp : poisonPart s.sq.poison a bs.length = false) : writeMem f a bs [] s = (Stat.ok, devPut a bs s) := by
  induction f generalizing a bs s with
  | zero =>
    have := List.length_pos_iff.mpr hb
    omega
  | succ f ih =>
    have hpos := List.length_pos_iff.mpr hb
    obtain ⟨n, hn⟩ : ∃ n, n = min bs.length (256 - a % 256) := ⟨_, rfl⟩
    have hlen : (bs.take n).length = n := by
      rw [List.length_take]
      omega
    have hline : writeLine a (bs.take n) [] s = (Stat.ok, devPut a (bs.take n) s) :=
      writeLine_clean (by rw [hlen]; exact poisonPart_sub (fun _ h => h) hp (.inl rfl) (by omega))
    have hstep : writeMem (f + 1) a bs [] s = writeMem f (a + n) (bs.drop n) [] (devPut a (bs.take n) s) := by
      conv_lhs => unfold writeMem
      cases bs with
      | nil => exact absurd rfl hb
      | cons b cs =>
        dsimp only
        rw [← hn, hline]
        exact if_pos rfl
    rw [hstep]
    by_cases hall : n = bs.length
    · rw [hall, List.drop_length, List.take_length]
      cases f with
      | zero => rfl
      | succ f => rfl
    · have hrest : (bs.drop n).length = bs.length - n := List.length_drop
      have hword : (a + (bs.take n).length) % 8 = 0 := by omega
      have hpart : poisonPart (devPut a (bs.take n) s).sq.poison (a + n) (bs.drop n).length = false := by
        rw [hrest]
        exact poisonPart_sub (fun w h => mem_poisonClear h) hp (by omega) (by omega)
      have hput := devPut_append (r := bs.drop n) (s := s) hword
      rw [hlen, List.take_append_drop] at hput
      rw [ih (a + n) (bs.drop n) (by omega) (by rw [← List.length_pos_iff]; omega) hpart, hput]

theorem writeAll_put {a : ℕ} {bs : List Byte} {s : State} (hb : bs ≠ []) (hp : poisonPart s.sq.poison a bs.length = false) :
    writeAll a bs [] s = (Stat.ok, devPut a bs s) := writeMem_put _ a bs (by omega) hb hp

theorem devRead_lpddr {a n : ℕ} {s : State} (hw : memAwake s = true) (hr : regionOf a = .lpddr) (he : a + n ≤ 0x2000000000) (hn : 0 < n)
    (hp : s.sq.poison = []) : devRead a n [] s = ({ status := Stat.ok, data := devGet s a n }, s) := by
  have hm : mapped s a n = Stat.ok := by
    unfold mapped
    rw [hr, hw, decide_eq_true he]
    rfl
  unfold devRead
  rw [if_neg hn.ne', if_neg (not_not.mpr hm), hr]
  exact readMem_clean (by rw [hp]; rfl)

theorem devWrite_lpddr {a : ℕ} {bs : List Byte} {s : State} (hw : memAwake s = true) (hr : regionOf a = .lpddr) (he : a + bs.length ≤ 0x2000000000)
    (hb : bs ≠ []) (hp : s.sq.poison = []) : devWrite a bs [] s = (Stat.ok, devPut a bs s) := by
  have hm : mapped s a bs.length = Stat.ok := by
    unfold mapped
    rw [hr, hw, decide_eq_true he]
    rfl
  unfold devWrite
  rw [List.isEmpty_eq_false_iff.mpr hb, if_neg Bool.false_ne_true, if_neg (not_not.mpr hm), hr]
  exact writeAll_put hb (by rw [hp]; rfl)

theorem dmaRows_lpddr {d : List Byte} {n i : ℕ} {s : State} (hw : memAwake s = true) (ha : regionOf (leAt d 8 8 + i * leAt d 0x1C 4) = .lpddr)
    (hb : regionOf (leAt d 0x10 8 + i * leAt d 0x20 4) = .lpddr) (hae : leAt d 8 8 + i * leAt d 0x1C 4 + leAt d 4 4 ≤ 0x2000000000)
    (hbe : leAt d 0x10 8 + i * leAt d 0x20 4 + leAt d 4 4 ≤ 0x2000000000) (hn : 0 < leAt d 4 4) (hp : s.sq.poison = []) :
    dmaRows d (n + 1) i s = dmaRows d n (i + 1)
        (devPut (leAt d 0x10 8 + i * leAt d 0x20 4) (devGet s (leAt d 8 8 + i * leAt d 0x1C 4) (leAt d 4 4)) s) := by
  have hlen : (devGet s (leAt d 8 8 + i * leAt d 0x1C 4) (leAt d 4 4)).length = leAt d 4 4 := by
    simp only [devGet, memRead, List.length_map, List.length_range]
  have hne : devGet s (leAt d 8 8 + i * leAt d 0x1C 4) (leAt d 4 4) ≠ [] := by
    rw [← List.length_pos_iff, hlen]
    exact hn
  conv_lhs => unfold dmaRows
  rw [devRead_lpddr hw ha hae hn hp]
  dsimp only
  rw [if_neg (fun h => h rfl), devWrite_lpddr hw hb (by rw [hlen]; exact hbe) hne hp]
  dsimp only
  have hord (t : State) (k : ℕ) : noteOrdering (leAt d 0x10 8 + i * leAt d 0x20 4) k t = t := by
    unfold noteOrdering isHost
    rw [hb]
    rfl
  rw [if_neg (fun h => h rfl), hord]

/-! ## A sample's hash -/

theorem sampleHashDone_gives {w : SampleWork} {ws : List SampleWork} {s : State} (hq : Quiet s) (hg : groupUp s 3 = true) (hs : s.eng.samples = w :: ws) :
    Gives .sampleHashDone s (modItem w.item (fun i => { addSample (sampleRef w.summary) i with lastIn := some (copyPos s i.posSrc, s.tim.now) })
        (count (Reg.hshSnapCnt.base + 4) w.summary.length (modEng (fun e => { e with samples := ws }) s))) := by
  refine gives_of_effect (by unfold exec; rfl) hq ?_ (modItem_tasks _ _ _)
  show (match s.eng.samples with | [] => _ | x :: xs => _) = _
  rw [hs]
  dsimp only
  rw [show (!groupUp (setPending [] s) 3) = false by rw [show groupUp (setPending [] s) 3 = true from hg]; rfl]
  rfl

/-- Settles O46: the check column by evaluation, and each row by what its job does once it stands on its unit. -/
theorem checksHashesAndCopies : Obligations.ChecksHashesAndCopies := by
  intro m eng j x w s u hq hx hu hw
  refine ⟨fun v h c _ => check_column v h c, fun hm ho hf => crcConfigure_cases hq hx hm ho hf,
    fun _ _ _ _ _ hm ho hf hfl ha hn hv ht => crcScan_cases hq hu hw hm ho hf hfl ha hn hv ht, fun hm ho hf => crcSetValue_gives hq hx hm ho hf,
    fun _ _ hm ho hf he hst => crcReadValue_gives hq hu hw hm ho hf he hst, fun hm ho hf hn he hp => crcPeriodicScan_gives hq hx hm ho hf hn he hp,
    fun hm ho hf => crcCancelPeriodic_cases hq hu hw hm ho hf,
    fun _ _ _ _ _ _ _ hz hg hfree hidle hy hp hc hv ht => crcPeriodicPass_cases hq hz hg hfree hidle hy hp hc hv ht,
    fun _ _ _ _ _ _ _ _ _ hy hs hm ho hclean hn hk ha hn0 hn64 hk0 hk512 he he2 hp hes hall hmsg ht hst =>
      hashShake256_gives hq hy hs hm ho hclean hn hk ha hn0 hn64 hk0 hk512 he he2 hp hes hall hmsg ht hst, hashShake256_waits hq,
    fun _ _ hy hm ho => dmaCopy_cases hq hy hm ho, fun _ _ _ hw ha hb hae hbe hn hp => dmaRows_lpddr hw ha hb hae hbe hn hp,
    fun _ _ hg hs => sampleHashDone_gives hq hg hs⟩

end Sys2Proof.Machine
end

