-- ==== Sys2Proof/Proofs/SeqRows.lean ====
section
/-! What a row of the sequencer does once its instruction begins. -/

namespace Sys2Proof.Machine

open Sys2Proof

/-! ## What falling through leaves of a task's registers -/

/-- Two sets of registers that agree but for the next word, the loops and the loop counters. -/
def SameRegs (r r' : TaskRegs) : Prop := r' = { r with next := r'.next, loops := r'.loops, lc := r'.lc }

theorem afterLoops_same (w n : ℕ) (fs : List LoopFrame) (r : TaskRegs) : SameRegs r (afterLoops w n fs r).1 := by
  induction fs generalizing r with
  | nil => rfl
  | cons f fs ih =>
    unfold afterLoops
    dsimp only
    split
    · split
      · exact ih _
      · rfl
    · rfl

theorem fallThrough_same (tm : Template) (n : ℕ) (r : TaskRegs) : SameRegs r (fallThrough tm n r).1 := by
  unfold fallThrough
  dsimp only
  split
  · exact congrArg (fun x : TaskRegs => { x with next := tm.roundStart }) (afterLoops_same r.next n r.loops r)
  · exact afterLoops_same r.next n r.loops r

theorem fallThrough_step (tm : Template) (n : ℕ) (r : TaskRegs) : (fallThrough tm n r).1.step = r.step := by
  rw [fallThrough_same tm n r]

/-- The registers after an instruction of `n` words fell through, before its results are written. -/
def fallen (p : Program) (n : ℕ) (k : Task) : TaskRegs := { (fallThrough (tmplOf p k.id) n k.regs).1 with step := k.regs.step + 1 }

theorem sOf_fallen (p : Program) (n : ℕ) (k : Task) : sOf (fallen p n k) = sOf k.regs := by
  unfold fallen
  rw [fallThrough_same (tmplOf p k.id) n k.regs]
  rfl

theorem aOf_fallen (p : Program) (n : ℕ) (k : Task) : aOf (fallen p n k) = aOf k.regs := by
  unfold fallen
  rw [fallThrough_same (tmplOf p k.id) n k.regs]
  rfl

theorem pOf_fallen (p : Program) (n : ℕ) (k : Task) : pOf (fallen p n k) = pOf k.regs := by
  unfold fallen
  rw [fallThrough_same (tmplOf p k.id) n k.regs]
  rfl

/-! ## An instruction begins -/

/-- The task decodes on: it runs, and no word holds it. -/
def goes (t : TaskId) (s : State) : State := modTask t (fun k => { k with st := .running, held := none }) s

theorem taskOf_modTask {t : TaskId} {f : Task → Task} {s : State} (hf : ∀ k, (f k).id = k.id) : taskOf (modTask t f s) t = (taskOf s t).map f :=
  find_updFirst_same _ fun k => by rw [hf]

theorem taskOf_goes {k : Task} {s : State} (hk : taskOf s k.id = some k) : taskOf (goes k.id s) k.id = some { k with st := .running, held := none } := by
  unfold goes
  rw [taskOf_modTask (by intro; rfl), hk]
  rfl

theorem modTask_congr {t : TaskId} {k : Task} {f g : Task → Task} {s : State} (hk : taskOf s t = some k) (hfg : f k = g k) :
    modTask t f s = modTask t g s := by
  unfold modTask
  rw [updFirst_eq_of_find hk hfg]

theorem modTask_modTask {t : TaskId} {f g : Task → Task} {s : State} (hf : ∀ k, (f k).id = k.id) :
    modTask t g (modTask t f s) = modTask t (fun k => g (f k)) s := by
  unfold modTask
  exact congrArg (fun l => { s with tasks := l }) (updFirst_updFirst (p := fun x : Task => x.id == t) (fun k => by rw [hf]) _)

/-- An instruction that has just been decoded completes, and control falls through `n` words. -/
theorem completeN_goes {x : Issue} {k : Task} {n : ℕ} {g : TaskRegs → TaskRegs} {s : State} (hl : x.late = false) (ht : x.t = k.id)
    (hk : taskOf s k.id = some k) : completeN x n g (goes k.id s) = putDone x.n k (doneTaskN x.p n g k) s := by
  unfold completeN
  rw [ht, taskOf_goes hk, hl]
  dsimp only [Option.elim_some]
  rw [if_neg Bool.false_ne_true]
  unfold goes
  rw [modTask_modTask (by intro; rfl)]
  refine congrArg (modCore x.n _) (modTask_congr (g := fun _ => doneTaskN x.p n g k) hk ?_)
  dsimp only
  rw [fallThrough_step]
  rfl

theorem complete_goes {x : Issue} {k : Task} {g : TaskRegs → TaskRegs} {s : State} (hl : x.late = false) (ht : x.t = k.id)
    (hk : taskOf s k.id = some k) : complete x g (goes k.id s) = putDone x.n k (doneTask x.p x.i g k) s := completeN_goes hl ht hk

/-- The results that an instruction writes count only where its registers stand as it leaves them. -/
theorem doneTaskN_congr {p : Program} {n : ℕ} {g h : TaskRegs → TaskRegs} {k : Task} (hgh : g (fallen p n k) = h (fallen p n k)) :
    doneTaskN p n g k = doneTaskN p n h k := by
  unfold fallen at hgh
  unfold doneTaskN
  dsimp only
  rw [hgh]

theorem stepped_congr {cr : CoreRun} {i : Iw} {k : Task} {p : Program} {g h : TaskRegs → TaskRegs} {s : State}
    (hgh : g (fallen p (wordsOfIw i) k) = h (fallen p (wordsOfIw i) k)) : stepped cr i k p g s = stepped cr i k p h s := by
  unfold stepped doneTask
  rw [doneTaskN_congr hgh]

/-- A task that has completed an instruction holds no fault where it held none. -/
theorem quiet_putDone {n : ℕ} {k k' : Task} {s : State} (hq : Quiet s) (hd : k'.due = none) : Quiet (putDone n k k' s) := by
  intro y hy he
  rcases mem_updFirst hy with hy | ⟨x, -, rfl⟩
  · exact hq y hy he
  · exact hd

theorem quiet_stepped {cr : CoreRun} {i : Iw} {k : Task} {p : Program} {g : TaskRegs → TaskRegs} {s : State} (hq : Quiet s) (hd : k.due = none) :
    Quiet (stepped cr i k p g s) := quiet_putDone hq hd

/-- A faulting instruction that has just been decoded. -/
theorem faultAt_goes {x : Issue} {k : Task} {q st : ℕ} {s : State} (hl : x.late = false) (ht : x.t = k.id) (hw : x.w = k.regs.next)
    (hk : taskOf s k.id = some k) : faultAt x q st (goes k.id s) = faulted k q st s := by
  have holder : x.older { k with st := .running, held := none } = k.waits := by
    unfold Issue.older
    rw [hl]
    exact List.filter_true _
  unfold faultAt
  simp only [ht, taskOf_goes hk, hw, hl, Option.elim_some, holder, Bool.and_self]
  rfl

/-! ## A row of the sequencer -/

section
variable {cr : CoreRun} {i : Iw} {k : Task} {p : Program} {op : ℕ} {mn : String} {body : Issue → State → State} {mm : Bool} {c : Instr} {s t : State}

theorem issue_allowed {u : Use} (hu : useOf op i = some u) (ha : u.allows i = true) : issue mn op body cr mm i s = run (doIssue u op body cr mm i) s := by
  unfold issue
  rw [hu]
  exact if_pos ha

/-- What an instruction that may begin does. -/
theorem doIssue_begins {u : Use} (hm : MayBegin op cr i k p s) (hu : useOf op i = some u) :
    doIssue u op body cr mm i s = body (issueOf op cr i k p mm) (goes k.id s) := by
  obtain ⟨hst, hph, htask, hk, hp, hheld, hdue, hrep, hpar, ⟨u', hu', -, hdec⟩, hgp, hg, hneed, hbegin⟩ := hm
  cases hu.symm.trans hu'
  have hcore : ¬((coreOf s cr.n).st ≠ 0 ∨ (coreOf s cr.n).phase ≠ .running) := by
    rw [hst, hph]
    simp
  have hguard : ¬(i.pe && (pOf k.regs i.pg == i.pn)) = true := by
    intro h
    rw [Bool.and_eq_true, beq_iff_eq] at h
    exact hg h.1 h.2
  have hpass : ¬(needsAll k op i && k.passes != 0) = true := by
    intro h
    rw [Bool.and_eq_true, bne_iff_ne] at h
    exact h.2 (hneed h.1)
  unfold doIssue
  dsimp only
  rw [htask, Option.bind_some, hk, if_neg hcore]
  dsimp only
  rw [hp]
  dsimp only
  rw [hheld, hdue, hrep, hpar, hgp, hdec, hbegin, if_neg hguard, if_neg hpass]
  rfl

/-- What an instruction whose guard is false does. -/
theorem doIssue_skips {u : Use} (hm : GuardFails op u cr i k p s) :
    doIssue u op body cr mm i s = putDone cr.n k (doneTaskN p (skipWords s p k.regs.next i u) id k) s := by
  obtain ⟨hst, hph, htask, hk, hp, hheld, hdue, hrep, hpar, -, -, hgp, hpe, hg⟩ := hm
  have hcore : ¬((coreOf s cr.n).st ≠ 0 ∨ (coreOf s cr.n).phase ≠ .running) := by
    rw [hst, hph]
    simp
  unfold doIssue
  dsimp only
  rw [htask, Option.bind_some, hk, if_neg hcore]
  dsimp only
  rw [hp]
  dsimp only
  rw [hheld, hdue, hrep, hpar, hgp, hpe, beq_iff_eq.mpr hg]
  exact completeN_goes (x := issueOf op cr i k p mm) rfl rfl hk

/-- A row whose instruction may begin and leaves no fault. -/
theorem begins_gives (hc : exec c s = issue mn op body cr mm i s) (hm : MayBegin op cr i k p s) (hb : ∀ x, Blind (body x))
    (h : body (issueOf op cr i k p mm) (goes k.id s) = t) (hq : Quiet t) : Gives c s t := by
  obtain ⟨u, hu, ha, -⟩ := hm.2.2.2.2.2.2.2.2.2.1
  exact gives_run (hc.trans (issue_allowed hu ha)) (fun q s => doIssue_setPending u op hb cr mm i q s) ((doIssue_begins hm hu).trans h) hq

/-- A row whose instruction may begin. -/
theorem begins_givesThen (hc : exec c s = issue mn op body cr mm i s) (hm : MayBegin op cr i k p s) (hb : ∀ x, Blind (body x))
    (h : body (issueOf op cr i k p mm) (goes k.id s) = t) : GivesThen c s t := by
  obtain ⟨u, hu, ha, -⟩ := hm.2.2.2.2.2.2.2.2.2.1
  exact givesThen_run (hc.trans (issue_allowed hu ha)) (fun q s => doIssue_setPending u op hb cr mm i q s) ((doIssue_begins hm hu).trans h)

end

end Sys2Proof.Machine
end

