-- ==== Sys2Proof/Proofs/CtlRows.lean ====
section
/-! Control instructions that compute, and words whose guard is false. -/

namespace Sys2Proof.Machine

open Sys2Proof

/-! ## A false guard -/

/-- Every row of the sequencer issues its word. -/
theorem seqRows_issue (cr : CoreRun) (i : Iw) (b : Bool) (s : State) :
    ∀ x ∈ seqRows cr i b, ∃ mn body mm, exec x.2 s = issue mn x.1 body cr mm i s := by
  unfold seqRows
  simp only [List.forall_mem_cons]
  refine ⟨?_, ?_, ?_, ?_, ?_, ?_, ?_, ?_, ?_, ?_, ?_, ?_, ?_, ?_, ?_, ?_, ?_, ?_, ?_, ?_, ?_, ?_, ?_, ?_, ?_, ?_, ?_, ?_, ?_, ?_, ?_, ?_, ?_, ?_, ?_, ?_, ?_, ?_, ?_, ?_, ?_, ?_, ?_, ?_, ?_, ?_, ?_, ?_, fun _ h => absurd h List.not_mem_nil⟩
  all_goals
    unfold exec
    exact ⟨_, _, _, rfl⟩

theorem guardFails_gives {cr : CoreRun} {i : Iw} {k : Task} {p : Program} {b : Bool} {u : Use} {x : ℕ × Instr} {s : State} (hq : Quiet s)
    (hx : x ∈ seqRows cr i b) (hm : GuardFails x.1 u cr i k p s) :
    Gives x.2 s (putDone cr.n k (doneTaskN p (skipWords s p k.regs.next i u) id k) s) := by
  obtain ⟨mn, body, mm, hc⟩ := seqRows_issue cr i b s x hx
  have hm' : GuardFails x.1 u cr i k p (setPending [] s) := hm
  obtain ⟨-, -, -, -, -, -, hdue, -, -, hu, ha, -⟩ := hm
  exact gives_of_quiet (hc.trans (issue_allowed hu ha)) (doIssue_skips hm') (quiet_putDone hq hdue)

theorem skipWords_plain {s : State} {p : Program} {w : ℕ} {i : Iw} {u : Use} (h : u.skip = 0) : skipWords s p w i u = wordsOfIw i := if_pos h

/-! ## Instructions that compute -/

section
variable {cr : CoreRun} {i : Iw} {k : Task} {p : Program} {op : ℕ} {mn : String} {body : Issue → State → State} {mm : Bool} {c : Instr} {s : State}

/-- A row whose instruction only writes results: those that `g` writes, where it meets the registers as the instruction leaves them as `h` does. -/
theorem completes_gives {g h : TaskRegs → TaskRegs} (hc : exec c s = issue mn op body cr mm i s) (hq : Quiet s) (hm : MayBegin op cr i k p s)
    (hb : ∀ x, Blind (body x)) (he : body (issueOf op cr i k p mm) (goes k.id s) = complete (issueOf op cr i k p mm) g (goes k.id s))
    (hgh : g (fallen p (wordsOfIw i) k) = h (fallen p (wordsOfIw i) k)) : Gives c s (stepped cr i k p h s) := by
  have hk : taskOf s k.id = some k := hm.2.2.2.1
  have hd : k.due = none := hm.2.2.2.2.2.2.1
  refine begins_gives hc hm hb ?_ (quiet_stepped hq hd)
  rw [he, complete_goes rfl rfl hk]
  exact stepped_congr hgh

/-- A row whose instruction faults. -/
theorem faults_givesThen {q st : ℕ} (hc : exec c s = issue mn op body cr mm i s) (hm : MayBegin op cr i k p s) (hb : ∀ x, Blind (body x))
    (he : body (issueOf op cr i k p mm) (goes k.id s) = faultAt (issueOf op cr i k p mm) q st (goes k.id s)) : GivesThen c s (faulted k q st s) := by
  have hk : taskOf s k.id = some k := hm.2.2.2.1
  refine begins_givesThen hc hm hb ?_
  rw [he, faultAt_goes rfl rfl rfl hk]

theorem ctlNop_gives (hq : Quiet s) (hm : MayBegin 0x00 cr i k p s) : Gives (.ctlNop cr i) s (stepped cr i k p id s) :=
  completes_gives (body := beginCtlNop) (by unfold exec; rfl) hq hm (fun x q s => beginCtlNop_setPending x q s) rfl rfl

theorem ctlAlu_gives (hq : Quiet s) (hm : MayBegin 0x01 cr i k p s) :
    Gives (.ctlAlu cr i) s (stepped cr i k p (setS i.fd (alu i.func (sOf k.regs i.fa) (sOf k.regs i.fb))) s) := by
  refine completes_gives (body := beginCtlAlu) (by unfold exec; rfl) hq hm (fun x q s => beginCtlAlu_setPending x q s) rfl ?_
  rw [sOf_fallen]
  rfl

theorem ctlAlui_gives (hq : Quiet s) (hm : MayBegin 0x02 cr i k p s) :
    Gives (.ctlAlui cr i) s (stepped cr i k p (setS i.fd (alu i.func (sOf k.regs i.fa) (xOrImm i))) s) := by
  refine completes_gives (body := beginCtlAlui) (by unfold exec; rfl) hq hm (fun x q s => beginCtlAlui_setPending x q s) rfl ?_
  rw [sOf_fallen]
  rfl

theorem ctlLi_gives (hq : Quiet s) (hm : MayBegin 0x03 cr i k p s) : Gives (.ctlLi cr i) s (stepped cr i k p (setS i.fd (xOrImm i)) s) :=
  completes_gives (body := beginCtlLi) (by unfold exec; rfl) hq hm (fun x q s => beginCtlLi_setPending x q s) rfl rfl

/-- What CTL_AMOV writes, from the registers of the task. -/
def amovOf (i : Iw) (k : Task) (r : TaskRegs) : TaskRegs :=
  match i.func with
  | 0 => setA i.fd ((sOf k.regs i.fa).setWidth 40) r
  | 1 => setS i.fd ((aOf k.regs i.fa).setWidth 64) r
  | 2 => setA i.fd (aOf k.regs i.fa + BitVec.ofInt 40 (sext i)) r
  | _ => setA i.fd (aOf k.regs i.fa + (sOf k.regs i.fb).setWidth 40) r

theorem ctlAmov_cases (hq : Quiet s) (hm : MayBegin 0x04 cr i k p s) :
    (i.func = 0 → Gives (.ctlAmov cr i) s (stepped cr i k p (setA i.fd ((sOf k.regs i.fa).setWidth 40)) s))
      ∧ (i.func = 1 → Gives (.ctlAmov cr i) s (stepped cr i k p (setS i.fd ((aOf k.regs i.fa).setWidth 64)) s))
      ∧ (i.func = 2 → Gives (.ctlAmov cr i) s (stepped cr i k p (setA i.fd (aOf k.regs i.fa + BitVec.ofInt 40 (sext i))) s))
      ∧ (i.func = 3 →
          Gives (.ctlAmov cr i) s (stepped cr i k p (setA i.fd (aOf k.regs i.fa + (sOf k.regs i.fb).setWidth 40)) s)) := by
  have hgives {h : TaskRegs → TaskRegs} (hh : amovOf i k (fallen p (wordsOfIw i) k) = h (fallen p (wordsOfIw i) k)) :
      Gives (.ctlAmov cr i) s (stepped cr i k p h s) := by
    refine completes_gives (body := beginCtlAmov) (by unfold exec; rfl) hq hm (fun x q s => beginCtlAmov_setPending x q s) rfl ?_
    rw [← hh]
    unfold amovOf
    rw [← sOf_fallen p (wordsOfIw i), ← aOf_fallen p (wordsOfIw i)]
    rfl
  refine ⟨?_, ?_, ?_, ?_⟩
  all_goals
    intro hf
    refine hgives ?_
    unfold amovOf
    rw [hf]
    rfl

theorem ctlCmp_gives (hq : Quiet s) (hm : MayBegin 0x05 cr i k p s) : Gives (.ctlCmp cr i) s
    (stepped cr i k p (setP i.fd (cmp i.func (sOf k.regs i.fa) (if i.long then i.x else sOf k.regs i.fb))) s) := by
  refine completes_gives (body := beginCtlCmp) (by unfold exec; rfl) hq hm (fun x q s => beginCtlCmp_setPending x q s) rfl ?_
  rw [sOf_fallen]
  rfl

/-- The predicate that CTL_POP writes. -/
def popOf (i : Iw) (r : TaskRegs) : Bool :=
  match i.func with
  | 0 => pOf r i.fa && pOf r i.fb
  | 1 => pOf r i.fa || pOf r i.fb
  | 2 => pOf r i.fa != pOf r i.fb
  | 3 => !pOf r i.fa
  | 4 => true
  | _ => false

theorem ctlPop_gives (hq : Quiet s) (hm : MayBegin 0x06 cr i k p s) : ∃ b, Gives (.ctlPop cr i) s (stepped cr i k p (setP i.fd b) s)
    ∧ (i.func = 0 → b = (pOf k.regs i.fa && pOf k.regs i.fb)) ∧ (i.func = 1 → b = (pOf k.regs i.fa || pOf k.regs i.fb))
    ∧ (i.func = 2 → b = (pOf k.regs i.fa != pOf k.regs i.fb)) ∧ (i.func = 3 → b = !pOf k.regs i.fa)
    ∧ (i.func = 4 → b = true) ∧ (i.func = 5 → b = false) := by
  have hpop : popOf i (fallen p (wordsOfIw i) k) = popOf i k.regs := by
    unfold popOf
    rw [pOf_fallen]
  refine ⟨popOf i k.regs, ?_, ?_, ?_, ?_, ?_, ?_, ?_⟩
  · refine completes_gives (g := fun r => setP i.fd (popOf i r) r) (body := beginCtlPop) (by unfold exec; rfl) hq hm
      (fun x q s => beginCtlPop_setPending x q s) rfl ?_
    rw [hpop]
  all_goals
    intro hf
    unfold popOf
    rw [hf]
    rfl

/-- What CTL_SYS writes, from the registers as they stand and those of the task. -/
def sysOf (i : Iw) (k : Task) (r : TaskRegs) : TaskRegs :=
  match i.func with
  | 0 => setSN i.fd k.regs.step r
  | 1 => setS i.fd k.regs.seed0 r
  | 2 => setS i.fd k.regs.seed1 r
  | 3 => { r with seed0 := sOf k.regs i.fa }
  | 4 => { r with seed1 := sOf k.regs i.fa }
  | 5 => setSN i.fd (b2n k.regs.mx + 2 * b2n k.regs.nonfinite) r
  | 6 => { r with nonfinite := false }
  | 7 => setSN i.fd (k.regs.lc.getD i.fa 0).toNat r
  | 8 => setSN i.fd k.id.inst r
  | _ => setSN i.fd k.id.tmpl r

theorem ctlSys_gives {h : TaskRegs → TaskRegs} (hq : Quiet s) (hm : MayBegin 0x0D cr i k p s)
    (hh : sysOf i k (fallen p (wordsOfIw i) k) = h (fallen p (wordsOfIw i) k)) : Gives (.ctlSys cr i) s (stepped cr i k p h s) := by
  refine completes_gives (body := beginCtlSys) (by unfold exec; rfl) hq hm (fun x q s => beginCtlSys_setPending x q s) rfl ?_
  rw [← hh]
  unfold fallen
  rw [fallThrough_same (tmplOf p k.id) (wordsOfIw i) k.regs]
  unfold sysOf
  show (match i.func with | 0 => _ | 1 => _ | 2 => _ | 3 => _ | 4 => _ | 5 => _ | 6 => _ | 7 => _ | 8 => _ | _ => _) = _
  split <;> rfl

theorem ctlSys_cases (hq : Quiet s) (hm : MayBegin 0x0D cr i k p s) :
    (i.func = 0 → Gives (.ctlSys cr i) s (stepped cr i k p (setSN i.fd k.regs.step) s))
      ∧ (i.func = 1 → Gives (.ctlSys cr i) s (stepped cr i k p (setS i.fd k.regs.seed0) s))
      ∧ (i.func = 2 → Gives (.ctlSys cr i) s (stepped cr i k p (setS i.fd k.regs.seed1) s))
      ∧ (i.func = 3 → Gives (.ctlSys cr i) s (stepped cr i k p (fun r => { r with seed0 := sOf k.regs i.fa }) s))
      ∧ (i.func = 4 → Gives (.ctlSys cr i) s (stepped cr i k p (fun r => { r with seed1 := sOf k.regs i.fa }) s))
      ∧ (i.func = 5 → Gives (.ctlSys cr i) s (stepped cr i k p (setSN i.fd (b2n k.regs.mx + 2 * b2n k.regs.nonfinite)) s))
      ∧ (i.func = 6 → Gives (.ctlSys cr i) s (stepped cr i k p (fun r => { r with nonfinite := false }) s))
      ∧ (i.func = 7 → Gives (.ctlSys cr i) s (stepped cr i k p (setSN i.fd (k.regs.lc.getD i.fa 0).toNat) s))
      ∧ (i.func = 8 → Gives (.ctlSys cr i) s (stepped cr i k p (setSN i.fd k.id.inst) s))
      ∧ (i.func = 9 → Gives (.ctlSys cr i) s (stepped cr i k p (setSN i.fd k.id.tmpl) s)) := by
  refine ⟨?_, ?_, ?_, ?_, ?_, ?_, ?_, ?_, ?_, ?_⟩
  all_goals
    intro hf
    refine ctlSys_gives hq hm ?_
    unfold sysOf
    rw [hf]
    rfl

theorem ctlTdesc_cases (hq : Quiet s) (hm : MayBegin 0x0C cr i k p s) :
    (i.func = 0 → Gives (.ctlTdesc cr i) s (stepped cr i k p (setT i.fd (sOf k.regs i.fa)) s))
      ∧ (i.func = 1 → Gives (.ctlTdesc cr i) s (stepped cr i k p (setT i.fd i.x) s))
      ∧ (i.func = 2 → Gives (.ctlTdesc cr i) s (stepped cr i k p (setS i.fd (k.regs.t.getD i.fa 0)) s))
      ∧ (∀ b : Nat, i.func = 3 → (b : Int) = bits (k.regs.t.getD i.fa 0).toNat 0 16 + sext i → b ≤ 65535 →
          Gives (.ctlTdesc cr i) s (stepped cr i k p (setT i.fd (tdWith (k.regs.t.getD i.fa 0) 0 16 b)) s))
      ∧ (∀ b : Int, i.func = 3 → b = bits (k.regs.t.getD i.fa 0).toNat 0 16 + sext i → b < 0 ∨ 65535 < b →
          GivesThen (.ctlTdesc cr i) s (faulted k 0 Stat.length s))
      ∧ (i.func = 4 → (sOf k.regs i.fb).toNat < 4096 →
          Gives (.ctlTdesc cr i) s (stepped cr i k p (setT i.fd (tdWith (k.regs.t.getD i.fa 0) 33 12 (sOf k.regs i.fb).toNat)) s))
      ∧ (i.func = 4 → 4096 ≤ (sOf k.regs i.fb).toNat → GivesThen (.ctlTdesc cr i) s (faulted k 0 Stat.length s)) := by
  have hblind : ∀ x, Blind (beginCtlTdesc x) := fun x q s => beginCtlTdesc_setPending x q s
  have hc : exec (.ctlTdesc cr i) s = issue "CTL_TDESC" 0x0C beginCtlTdesc cr false i s := by
    unfold exec
    rfl
  refine ⟨fun hf => ?_, fun hf => ?_, fun hf => ?_, fun b hf hb hle => ?_, fun b hf hb hout => ?_, fun hf hlt => ?_, fun hf hle => ?_⟩
  · refine completes_gives (g := fun r => setT i.fd (sOf r i.fa) r) hc hq hm hblind ?_ ?_
    · unfold beginCtlTdesc issueOf
      dsimp only
      rw [hf]
      rfl
    · rw [sOf_fallen]
  · refine completes_gives hc hq hm hblind ?_ rfl
    unfold beginCtlTdesc issueOf
    dsimp only
    rw [hf]
    rfl
  · refine completes_gives hc hq hm hblind ?_ rfl
    unfold beginCtlTdesc issueOf
    dsimp only
    rw [hf]
    rfl
  · refine completes_gives hc hq hm hblind ?_ rfl
    unfold beginCtlTdesc issueOf
    dsimp only
    rw [hf, ← hb]
    exact if_neg (by omega)
  · refine faults_givesThen hc hm hblind ?_
    unfold beginCtlTdesc issueOf
    dsimp only
    rw [hf, ← hb]
    exact if_pos hout
  · refine completes_gives hc hq hm hblind ?_ rfl
    unfold beginCtlTdesc issueOf
    dsimp only
    rw [hf]
    exact if_neg (Nat.not_le.mpr hlt)
  · refine faults_givesThen hc hm hblind ?_
    unfold beginCtlTdesc issueOf
    dsimp only
    rw [hf]
    exact if_pos hle

end

/-- Settles O32: a row passes over its word where the guard is false, and each instruction that computes writes its result where its word begins. -/
theorem controlInstructionsCompute : Obligations.ControlInstructionsCompute := by
  intro cr i k p s hq
  refine ⟨fun _ _ x hx hm => guardFails_gives hq hx hm, fun _ h => skipWords_plain h, ctlNop_gives hq, ctlAlu_gives hq, ctlAlui_gives hq, ctlLi_gives hq,
    ctlAmov_cases hq, ctlCmp_gives hq, ctlPop_gives hq, ctlSys_cases hq, ctlTdesc_cases hq⟩

end Sys2Proof.Machine
end

