-- ==== Sys2Proof/Proofs/FlowRows.lean ====
section
/-! Branches, loops, yields, ends, checkpoints and granules. -/

namespace Sys2Proof.Machine

open Sys2Proof

/-! ## A task on its way through an instruction -/

/-- An instruction completes on a task of which something but its registers has changed. -/
theorem completeN_modTask {x : Issue} {k : Task} {n : ℕ} {f : Task → Task} {g : TaskRegs → TaskRegs} {s : State} (hl : x.late = false)
    (ht : x.t = k.id) (hk : taskOf s k.id = some k) (hf : ∀ k, (f k).id = k.id) (hr : (f k).regs = k.regs) : completeN x n g (modTask k.id f s)
      = putDone x.n k { f k with regs := (doneTaskN x.p n g k).regs, atRound := (doneTaskN x.p n g k).atRound } s := by
  unfold completeN
  rw [ht, taskOf_modTask hf, hk, hl]
  dsimp only [Option.map_some, Option.elim_some]
  rw [if_neg Bool.false_ne_true, hr, modTask_modTask hf]
  refine congrArg (modCore x.n _) (modTask_congr (g := fun _ => { f k with regs := (doneTaskN x.p n g k).regs, atRound := (doneTaskN x.p n g k).atRound }) hk ?_)
  dsimp only
  rw [fallThrough_step]
  rfl

theorem complete_modTask {x : Issue} {k : Task} {f : Task → Task} {g : TaskRegs → TaskRegs} {s : State} (hl : x.late = false)
    (ht : x.t = k.id) (hk : taskOf s k.id = some k) (hf : ∀ k, (f k).id = k.id) (hr : (f k).regs = k.regs) : complete x g (modTask k.id f s)
      = putDone x.n k { f k with regs := (doneTask x.p x.i g k).regs, atRound := (doneTask x.p x.i g k).atRound } s :=
  completeN_modTask hl ht hk hf hr

/-! ## Branches, loops, yields, ends and checkpoints -/

section
variable {cr : CoreRun} {i : Iw} {k : Task} {p : Program} {s : State}

theorem ctlBr_gives (hq : Quiet s) (hm : MayBegin 0x07 cr i k p s) : Gives (.ctlBr cr i) s (putDone cr.n k
    { k with st := .running, atRound := false, held := none
             regs := branchTo ((k.regs.next : Int) + sext i).toNat { k.regs with step := k.regs.step + 1 } } s) := by
  have hk : taskOf s k.id = some k := hm.2.2.2.1
  have hd : k.due = none := hm.2.2.2.2.2.2.1
  refine begins_gives (body := beginCtlBr) (by unfold exec; rfl) hm (fun x q s => beginCtlBr_setPending x q s) ?_ (quiet_putDone hq hd)
  unfold beginCtlBr completeAt
  dsimp only [issueOf]
  unfold goes
  rw [modTask_modTask (by intro; rfl)]
  refine congrArg (modCore cr.n _) (modTask_congr (g := fun _ => _) hk ?_)
  rfl

theorem ctlLoop_cases (hq : Quiet s) (hm : MayBegin 0x08 cr i k p s) :
    (0 < (sOf k.regs i.fa).toNat → (sOf k.regs i.fa).toNat < 2 ^ 32 →
        Gives (.ctlLoop cr i) s (putDone cr.n k
          { k with st := .running, atRound := false, held := none
                   regs := { k.regs with
                     step := k.regs.step + 1, next := k.regs.next + 1, lc := modAt i.fd (fun _ => (sOf k.regs i.fa).setWidth 32) k.regs.lc
                     loops := { ctr := i.fd, first := k.regs.next + 1, last := k.regs.next + i.imm.toNat } :: k.regs.loops } } s))
      ∧ (2 ^ 32 ≤ (sOf k.regs i.fa).toNat → GivesThen (.ctlLoop cr i) s (faulted k 0 Stat.length s)) := by
  have hk : taskOf s k.id = some k := hm.2.2.2.1
  have hd : k.due = none := hm.2.2.2.2.2.2.1
  have hblind : ∀ x, Blind (beginCtlLoop x) := fun x q s => beginCtlLoop_setPending x q s
  have hc : exec (.ctlLoop cr i) s = issue "CTL_LOOP" 0x08 beginCtlLoop cr false i s := by
    unfold exec
    rfl
  refine ⟨fun h0 hlt => begins_gives hc hm hblind ?_ (quiet_putDone hq hd), fun hle => faults_givesThen hc hm hblind ?_⟩
  · have hwidth : (sOf k.regs i.fa).setWidth 32 = BitVec.ofNat 32 (sOf k.regs i.fa).toNat := by
      rw [BitVec.ofNat_toNat]
    unfold beginCtlLoop
    dsimp only [issueOf]
    rw [if_neg (Nat.not_le.mpr hlt), if_neg h0.ne', hwidth]
    unfold goes
    rw [modTask_modTask (by intro; rfl)]
    refine congrArg (modCore cr.n _) (modTask_congr (g := fun _ => _) hk ?_)
    rfl
  · unfold beginCtlLoop
    exact if_pos hle

theorem ctlLoop_none {e : TaskRegs × Bool} (hq : Quiet s) (hm : MayBegin 0x08 cr i k p s) (h0 : (sOf k.regs i.fa).toNat = 0)
    (he : e = fallThrough (tmplOf p k.id) (i.imm.toNat + sizeAt s p (k.regs.next + i.imm.toNat)) k.regs) :
    Gives (.ctlLoop cr i) s (putDone cr.n k
        { k with st := .running, atRound := e.2, held := none
                 regs := { e.1 with step := k.regs.step + 1, lc := modAt i.fd (fun _ => 0) e.1.lc } } s) := by
  have hk : taskOf s k.id = some k := hm.2.2.2.1
  have hd : k.due = none := hm.2.2.2.2.2.2.1
  refine begins_gives (body := beginCtlLoop) (by unfold exec; rfl) hm (fun x q s => beginCtlLoop_setPending x q s) ?_ (quiet_putDone hq hd)
  have hsize : sizeAt (goes k.id s) = sizeAt s := rfl
  unfold beginCtlLoop
  dsimp only [issueOf]
  rw [h0, if_neg (by decide), if_pos rfl, hsize, completeN_goes rfl rfl hk, he]
  rfl

theorem placementPoint_tasks (t : TaskId) (n : ℕ) (s : State) : (placementPoint t n s).tasks = s.tasks := by
  unfold placementPoint
  split
  · rfl
  dsimp only
  split
  · rfl
  split
  · rfl
  · rfl

theorem ctlYield_gives (hq : Quiet s) (hm : MayBegin 0x09 cr i k p s) : Gives (.ctlYield cr i) s (placementPoint k.id cr.n (stepped cr i k p id s)) := by
  have hk : taskOf s k.id = some k := hm.2.2.2.1
  have hd : k.due = none := hm.2.2.2.2.2.2.1
  refine begins_gives (body := beginCtlYield) (by unfold exec; rfl) hm (fun x q s => beginCtlYield_setPending x q s) ?_
    ((quiet_stepped hq hd).of_tasks (placementPoint_tasks _ _ _))
  unfold beginCtlYield
  rw [complete_goes rfl rfl hk]
  rfl

theorem ctlEnd_gives (hm : MayBegin 0x0A cr i k p s) : GivesThen (.ctlEnd cr i) s (endTask k.id (stepped cr i k p id s)) := by
  have hk : taskOf s k.id = some k := hm.2.2.2.1
  refine begins_givesThen (body := beginCtlEnd) (by unfold exec; rfl) hm (fun x q s => beginCtlEnd_setPending x q s) ?_
  unfold beginCtlEnd
  rw [complete_goes rfl rfl hk]
  rfl

theorem beginCtlCkpt_blind (x : Issue) : Blind (beginCtlCkpt x) := by
  intro q s
  unfold beginCtlCkpt
  rw [complete_setPending, takeCkpt_setPending x (fun _ _ => rfl)]

theorem quiet_checkpoint {t : TaskId} (hq : Quiet s) : Quiet (checkpoint t s) :=
  quiet_modTask (hq.of_tasks (settleFrags_tasks t s)) (by intro; rfl) (by intro; rfl)

/-- A live set without errors is read for a checkpoint as it stands. -/
theorem readForSave_clean (n : ℕ) (t : TaskId) (s : State) : readForSave n t [] s = (true, s) := by
  have hlive : readLive n t [] s = s := by
    unfold readLive
    split
    · rfl
    · rfl
  unfold readForSave
  dsimp only
  rw [hlive, bne_self_eq_false]
  rfl

theorem ctlCkpt_cases (hq : Quiet s) (hm : MayBegin 0x0B cr i k p s) :
    (cr.tb = [] → Gives (.ctlCkpt cr i) s (checkpoint k.id (stepped cr i k p id s)))
      ∧ GivesThen (.ctlCkpt cr i) s (takeCkpt (issueOf 0x0B cr i k p) id (stepped cr i k p id s)) := by
  have hk : taskOf s k.id = some k := hm.2.2.2.1
  have hd : k.due = none := hm.2.2.2.2.2.2.1
  have hbegin : beginCtlCkpt (issueOf 0x0B cr i k p) (goes k.id s) = takeCkpt (issueOf 0x0B cr i k p) id (stepped cr i k p id s) := by
    unfold beginCtlCkpt
    rw [complete_goes rfl rfl hk]
    rfl
  refine ⟨fun htb => begins_gives (by unfold exec; rfl) hm beginCtlCkpt_blind (hbegin.trans ?_) (quiet_checkpoint (quiet_stepped hq hd)),
    begins_givesThen (by unfold exec; rfl) hm beginCtlCkpt_blind hbegin⟩
  unfold takeCkpt
  dsimp only [issueOf]
  rw [htb, readForSave_clean]
  rfl

/-! ## Granules -/

theorem beginCtlAlloc_blind (x : Issue) : Blind (beginCtlAlloc x) := by
  intro q s
  have hroom (part n h : ℕ) : Blind (withRoom x (fun s =>
      let (a, s) := alloc part n h 3 s
      let b := if a.status = Stat.ok then a.base * 65536 else 0
      s |> record x.t (.alloc b a.status) |> complete x (fun r => setSN x.i.fc a.status (setSN x.i.fd b r)))) := by
    refine withRoom_setPending x fun q s => ?_
    dsimp only
    rw [alloc_setPending]
    rfl
  unfold beginCtlAlloc
  dsimp only
  rw [faultAt_setPending, matchEntry_setPending]
  cases matchEntry x.t isAlloc s with
  | none =>
    dsimp only [Option.map_none]
    rw [hroom, ite_setPending]
  | some e =>
    obtain ⟨e, t⟩ := e
    cases e with
    | alloc b st =>
      rw [← ite_setPending]
      rfl
    | _ =>
      dsimp only [Option.map_some]
      rw [hroom, ite_setPending]

theorem beginCtlFree_blind (x : Issue) : Blind (beginCtlFree x) := by
  intro q s
  have hroom {f : State → State} (hf : Blind f) : Blind (withRoom x (fun s => complete x id (record x.t .free (f s)))) := by
    refine withRoom_setPending x fun q s => ?_
    rw [hf]
    rfl
  have hfree (b n : ℕ) (s : State) : withRoom x (fun s => complete x id (record x.t .free (freeGran b n s))) (setPending q s)
      = setPending q (withRoom x (fun s => complete x id (record x.t .free (freeGran b n s))) s) :=
    hroom (fun q s => freeGran_setPending b n q s) q s
  have hnone (s : State) : withRoom x (fun s => complete x id (record x.t .free s)) (setPending q s)
      = setPending q (withRoom x (fun s => complete x id (record x.t .free s)) s) := hroom (fun _ _ => rfl) q s
  have hgran (a : ℕ) : freeable (setPending q s) x.p.part a = freeable s x.p.part a := rfl
  unfold beginCtlFree
  dsimp only
  rw [matchEntry_setPending]
  cases matchEntry x.t (fun e => e == .free) s with
  | some e => rfl
  | none =>
    dsimp only [Option.map_none]
    simp only [hgran, faultAt_setPending, hfree, hnone, ite_setPending]

theorem matchEntry_none {t : TaskId} {sel : RecEntry → Bool} {k : Task} (hk : taskOf s t = some k) (h : k.match_.entries.find? sel = none) :
    matchEntry t sel s = none := by
  unfold matchEntry
  rw [hk, Option.bind_some, h]

theorem withRoom_fits {x : Issue} {f : State → State} {k : Task} (hk : taskOf s x.t = some k) (hr : RecordRoom k 1) : withRoom x f s = f s := by
  unfold withRoom withRoomFor
  rw [hk]
  refine if_pos ?_
  rw [Bool.or_eq_true]
  exact .inr (decide_eq_true hr)

/-- A task that completes an instruction whose entry its recovery record takes. -/
theorem complete_record {x : Issue} {e : RecEntry} {g : TaskRegs → TaskRegs} (hl : x.late = false) (ht : x.t = k.id) (hn : x.n = cr.n)
    (hp : x.p = p) (hi : x.i = i) (hk : taskOf s k.id = some k) :
    complete x g (record k.id e (goes k.id s)) = recorded cr i k p [e] g s := by
  unfold record goes
  rw [modTask_modTask (by intro; rfl), complete_modTask hl ht hk (by intro; rfl) rfl, hn, hp, hi]
  rfl

/-- An allocation leaves the tasks out of account. -/
theorem alloc_goes (part n h kind : ℕ) (t : TaskId) (s : State) : alloc part n h kind (goes t s) = ((alloc part n h kind s).1, goes t (alloc part n h kind s).2) := by
  have hen : partEn (goes t s) = partEn s := rfl
  have hquota : quotaOf (goes t s) = quotaOf s := rfl
  have huse : partUse (goes t s) = partUse s := rfl
  have hruns : (goes t s).sq = s.sq := rfl
  unfold alloc
  rw [hen, hquota, huse, hruns]
  split
  · rfl
  split
  · rfl
  split
  · rfl
  · rfl

theorem ctlAlloc_gives {a : AllocResult} {t : State} (hq : Quiet s) (hm : MayBegin 0x0E cr i k p s) (hn : (sOf k.regs i.fa).toNat ≤ 8192)
    (hnone : k.match_.entries.find? isAlloc = none) (hr : RecordRoom k 1) (ha : alloc p.part (sOf k.regs i.fa).toNat p.handle 3 s = (a, t)) :
    Gives (.ctlAlloc cr i) s (recorded cr i k p [.alloc (if a.status = Stat.ok then a.base * 65536 else 0) a.status]
        (fun r => setSN i.fc a.status (setSN i.fd (if a.status = Stat.ok then a.base * 65536 else 0) r)) t) := by
  have hk : taskOf s k.id = some k := hm.2.2.2.1
  have hd : k.due = none := hm.2.2.2.2.2.2.1
  have htasks : t.tasks = s.tasks := by
    have hall := alloc_tasks p.part (sOf k.regs i.fa).toNat p.handle 3 s
    rw [ha] at hall
    exact hall
  have hkt : taskOf t k.id = some k := by
    unfold taskOf
    rw [htasks]
    exact hk
  refine begins_gives (body := beginCtlAlloc) (by unfold exec; rfl) hm beginCtlAlloc_blind ?_ (quiet_putDone (hq.of_tasks htasks) hd)
  unfold beginCtlAlloc
  dsimp only [issueOf]
  rw [if_neg (Nat.not_lt.mpr hn), matchEntry_none (taskOf_goes hk) hnone]
  dsimp only
  rw [withRoom_fits (k := { k with st := .running, held := none }) (taskOf_goes hk) hr, alloc_goes, ha]
  exact complete_record rfl rfl rfl rfl rfl hkt

theorem ctlAlloc_long (hm : MayBegin 0x0E cr i k p s) (hn : 8192 < (sOf k.regs i.fa).toNat) : GivesThen (.ctlAlloc cr i) s (faulted k 3 Stat.length s) := by
  refine faults_givesThen (body := beginCtlAlloc) (by unfold exec; rfl) hm beginCtlAlloc_blind ?_
  unfold beginCtlAlloc
  exact if_pos hn

theorem ctlFree_gives (hq : Quiet s) (hm : MayBegin 0x0F cr i k p s) (hnone : k.match_.entries.find? (fun e => e == .free) = none)
    (h0 : (sOf k.regs i.fb).toNat ≠ 0) (ha : (sOf k.regs i.fa).toNat % 65536 = 0) (hn : (sOf k.regs i.fb).toNat ≤ nGran)
    (hfree : ∀ j, j < (sOf k.regs i.fb).toNat → freeable s p.part ((sOf k.regs i.fa).toNat / 65536 + j) = true) (hr : RecordRoom k 1) :
    Gives (.ctlFree cr i) s (recorded cr i k p [.free] id (freeGran ((sOf k.regs i.fa).toNat / 65536) (sOf k.regs i.fb).toNat s)) := by
  have hk : taskOf s k.id = some k := hm.2.2.2.1
  have hd : k.due = none := hm.2.2.2.2.2.2.1
  have hall : (List.range (sOf k.regs i.fb).toNat).all (fun j => freeable (goes k.id s) p.part ((sOf k.regs i.fa).toNat / 65536 + j)) = true :=
    List.all_eq_true.mpr fun j hj => hfree j (List.mem_range.mp hj)
  have hgood : ¬((sOf k.regs i.fa).toNat % 65536 ≠ 0 ∨ nGran < (sOf k.regs i.fb).toNat
      ∨ (List.range (sOf k.regs i.fb).toNat).all (fun j => freeable (goes k.id s) p.part ((sOf k.regs i.fa).toNat / 65536 + j)) = false) := by
    rintro (h | h | h)
    · exact h ha
    · exact absurd hn (Nat.not_le.mpr h)
    · exact Bool.false_ne_true (h.symm.trans hall)
  refine begins_gives (body := beginCtlFree) (by unfold exec; rfl) hm beginCtlFree_blind ?_ (quiet_putDone (hq.of_tasks rfl) hd)
  unfold beginCtlFree
  dsimp only [issueOf]
  rw [matchEntry_none (taskOf_goes hk) hnone]
  dsimp only
  rw [if_neg h0]
  refine (if_neg hgood).trans ?_
  rw [withRoom_fits (k := { k with st := .running, held := none }) (taskOf_goes hk) hr]
  exact complete_record (s := freeGran ((sOf k.regs i.fa).toNat / 65536) (sOf k.regs i.fb).toNat s) rfl rfl rfl rfl rfl hk

theorem ctlFree_refused {j : ℕ} (hm : MayBegin 0x0F cr i k p s) (hnone : k.match_.entries.find? (fun e => e == .free) = none)
    (hj : j < (sOf k.regs i.fb).toNat) (hfree : freeable s p.part ((sOf k.regs i.fa).toNat / 65536 + j) = false) :
    GivesThen (.ctlFree cr i) s (faulted k 3 Stat.unmapped s) := by
  have hk : taskOf s k.id = some k := hm.2.2.2.1
  have hall : (List.range (sOf k.regs i.fb).toNat).all (fun j => freeable (goes k.id s) p.part ((sOf k.regs i.fa).toNat / 65536 + j)) = false :=
    List.all_eq_false.mpr ⟨j, List.mem_range.mpr hj, ne_true_of_eq_false hfree⟩
  refine faults_givesThen (body := beginCtlFree) (by unfold exec; rfl) hm beginCtlFree_blind ?_
  unfold beginCtlFree
  dsimp only [issueOf]
  rw [matchEntry_none (taskOf_goes hk) hnone]
  dsimp only
  rw [if_neg (by omega)]
  exact if_pos (.inr (.inr hall))

end

/-- Settles O33: each instruction by what its body leaves of the task that decodes it. -/
theorem controlFlowAndGranules : Obligations.ControlFlowAndGranules := by
  intro cr i k p s hq
  refine ⟨ctlBr_gives hq, ctlLoop_cases hq, fun _ hm h0 he => ctlLoop_none hq hm h0 he, ctlYield_gives hq, ctlEnd_gives, ctlCkpt_cases hq,
    fun _ _ hm hn hnone hr ha => ctlAlloc_gives hq hm hn hnone hr ha, ctlAlloc_long,
    fun hm hnone h0 ha hn hfree hr => ctlFree_gives hq hm hnone h0 ha hn hfree hr, fun _ hm hnone hj hfree => ctlFree_refused hm hnone hj hfree⟩

end Sys2Proof.Machine
end

