-- ==== Sys2Proof/Proofs/TileRows.lean ====
section
/-! Tile transfers, copies and fills. -/

namespace Sys2Proof.Machine

open Sys2Proof

/-! ## Runs of the tile buffer -/

theorem tbRead_length (r : TaskRegs) (a n : ℕ) : (tbRead r a n).length = n := by
  simp only [tbRead, memRead, List.length_map, List.length_range]

theorem any_eq_false_of {α : Type} {l : List α} {f : α → Bool} (h : ∀ x ∈ l, f x = false) : l.any f = false :=
  List.any_eq_false.mpr fun x hx => ne_true_of_eq_false (h x hx)

section
variable {cr : CoreRun} {i : Iw} {k : Task} {p : Program} {op q : ℕ} {mm : Bool} {x : Issue} {runs : List (ℕ × ℕ)} {s : State}

/-- A task that decodes reads clean runs of its tile buffer as they stand. -/
theorem readTile_goes (hx : x = issueOf op cr i k p mm) (htb : cr.tb = []) (hk : taskOf s k.id = some k) (hr : TileClean k.regs runs) :
    readTile x runs (goes k.id s) = (false, goes k.id s) := by
  subst hx
  unfold readTile
  dsimp only [issueOf]
  rw [htb]
  dsimp only [List.filter_nil, List.foldl_nil]
  rw [taskOf_goes hk]
  dsimp only [Option.elim_some]
  rw [any_eq_false_of hr]

theorem writeHits_goes (hx : x = issueOf op cr i k p mm) (htb : cr.tb = []) (hk : taskOf s k.id = some k)
    (hr : ∀ e ∈ runs, poisonPart k.regs.tbPoison e.1 e.2 = false) : writeHits x runs (goes k.id s) = (false, goes k.id s) := by
  subst hx
  unfold writeHits
  dsimp only [issueOf]
  rw [htb]
  dsimp only [List.filter_nil, List.foldl_nil]
  rw [taskOf_goes hk]
  dsimp only [Option.elim_some]
  rw [any_eq_false_of hr]

/-- A task that decodes completes with a write of runs that it may write. -/
theorem storeRuns_goes {rows : List (ℕ × List Byte)} (hx : x = issueOf op cr i k p mm) (htb : cr.tb = []) (hk : taskOf s k.id = some k)
    (hruns : (rows.map fun e => (e.1, e.2.length)) = runs) (hfree : TileFree k.regs runs) :
    storeRuns x q rows (goes k.id s) = stepped cr i k p (putRuns rows) s := by
  obtain ⟨hpin, hpart⟩ := hfree
  unfold storeRuns
  dsimp only
  rw [hruns, show x.r = k.regs from hx ▸ rfl, if_neg (ne_true_of_eq_false hpin), writeHits_goes hx htb hk hpart]
  subst hx
  exact complete_goes rfl rfl hk

/-! ## Rows of the Square -/

theorem readRows_clean {len : ℕ} {es : List (ℕ × ℕ)} (h : ∀ e ∈ es, poisonHit s.sq.poison e.2 len = false) :
    readRows [] len es s = (Stat.ok, es.map (fun e => (e.1, devGet s e.2 len)), s) := by
  induction es with
  | nil => rfl
  | cons e es ih =>
    unfold readRows
    rw [readMem_clean (h e List.mem_cons_self)]
    dsimp only
    rw [if_neg (fun hne => hne rfl), ih fun x hx => h x (List.mem_cons_of_mem _ hx)]
    rfl

theorem poisonPart_devPut {a : ℕ} {bs : List Byte} {b n : ℕ} (h : poisonPart s.sq.poison b n = false) : poisonPart (devPut a bs s).sq.poison b n = false :=
  poisonPart_sub (fun _ hw => mem_poisonClear hw) h (.inl rfl) (.inl rfl)

theorem writeRows_clean {es : List (ℕ × List Byte)} (hne : ∀ e ∈ es, e.2 ≠ []) (h : ∀ e ∈ es, poisonPart s.sq.poison e.1 e.2.length = false) :
    writeRows [] es s = (Stat.ok, es.foldl (fun s e => devPut e.1 e.2 s) s) := by
  induction es generalizing s with
  | nil => rfl
  | cons e es ih =>
    unfold writeRows
    rw [writeAll_put (hne e List.mem_cons_self) (h e List.mem_cons_self)]
    dsimp only
    rw [if_neg (fun hne => hne rfl), ih (fun x hx => hne x (List.mem_cons_of_mem _ hx)) fun x hx => poisonPart_devPut (h x (List.mem_cons_of_mem _ hx))]
    rfl

/-! ## Transfers -/

theorem transferOf_goes {w : Bool} {t : TaskId} : transferOf x w (goes t s) = transferOf x w s := rfl

/-- A transfer moves nothing, or rows of some bytes. -/
def Transfer.Sized (t : Transfer) : Prop := t.rows = [] ∨ t.len ≠ 0

theorem Transfer.Sized.ite {c : Prop} [Decidable c] {t u : Transfer} (ht : t.Sized) (hu : u.Sized) : (if c then t else u).Sized := by
  split
  · exact ht
  · exact hu

theorem transferOf_sized (x : Issue) (w : Bool) (s : State) : (transferOf x w s).Sized := by
  unfold transferOf
  dsimp only
  by_cases he : (tdOf x.r x.i.fd).empty = true
  · rw [if_pos he]
    exact .inl rfl
  · have hbytes : (tdOf x.r x.i.fd).rowBytes ≠ 0 := by
      intro h0
      refine he ?_
      unfold Tile.empty
      rw [h0, beq_self_eq_true, Bool.or_true]
    rw [if_neg he]
    exact .ite (.inl rfl) (.ite (.inl rfl) (.ite (.inl rfl) (.ite (.inl rfl) (.ite (.inl rfl) (.inr hbytes)))))

theorem tileLoad_gives {tr : Transfer} (hq : Quiet s) (htb : cr.tb = []) (hsq : cr.sq = []) (hm : MayBegin 0x10 cr i k p s)
    (htr : tr = transferOf (issueOf 0x10 cr i k p) true s) (hok : tr.status = Stat.ok) (hread : ∀ e ∈ tr.rows, poisonHit s.sq.poison e.2 tr.len = false)
    (hfree : TileFree k.regs (tr.rows.map fun e => (e.1, tr.len))) :
    Gives (.tileLoad cr i) s (stepped cr i k p (putRuns (tr.rows.map fun e => (e.1, devGet s e.2 tr.len))) s) := by
  have hk : taskOf s k.id = some k := hm.2.2.2.1
  have hd : k.due = none := hm.2.2.2.2.2.2.1
  have hlen (a n : ℕ) : (devGet s a n).length = n := by
    simp only [devGet, memRead, List.length_map, List.length_range]
  have hruns : ((tr.rows.map fun e => (e.1, devGet s e.2 tr.len)).map fun e => (e.1, e.2.length)) = tr.rows.map fun e => (e.1, tr.len) := by
    rw [List.map_map]
    exact List.map_congr_left fun e _ => Prod.ext rfl (hlen _ _)
  refine begins_gives (body := beginTileLoad) (by unfold exec; rfl) hm (fun x q s => beginTileLoad_setPending x q s) ?_ (quiet_stepped hq hd)
  unfold beginTileLoad
  rw [transferOf_goes, ← htr]
  dsimp only
  rw [if_neg (not_not.mpr hok), show (issueOf 0x10 cr i k p).r = k.regs from rfl, if_neg (ne_true_of_eq_false hfree.1),
    show (issueOf 0x10 cr i k p).cr.sq = [] from hsq, readRows_clean (s := goes k.id s) hread]
  dsimp only
  rw [if_neg (fun h => h rfl)]
  exact storeRuns_goes rfl htb hk hruns hfree

theorem tileLoad_faults {tr : Transfer} (hm : MayBegin 0x10 cr i k p s) (htr : tr = transferOf (issueOf 0x10 cr i k p) true s) :
    (tr.status = Stat.ok → runsPinned k.regs (tr.rows.map fun e => (e.1, tr.len)) = true → GivesThen (.tileLoad cr i) s (faulted k 3 Stat.pinned s))
      ∧ (tr.status = Stat.length → GivesThen (.tileLoad cr i) s (faulted k 3 Stat.length s)) := by
  have hblind : ∀ x, Blind (beginTileLoad x) := fun x q s => beginTileLoad_setPending x q s
  refine ⟨fun hok hpin => faults_givesThen (body := beginTileLoad) (by unfold exec; rfl) hm hblind ?_,
    fun hst => faults_givesThen (body := beginTileLoad) (by unfold exec; rfl) hm hblind ?_⟩
  · unfold beginTileLoad
    rw [transferOf_goes, ← htr]
    dsimp only
    rw [if_neg (not_not.mpr hok)]
    exact if_pos hpin
  · unfold beginTileLoad
    rw [transferOf_goes, ← htr]
    dsimp only
    rw [hst, if_pos (by decide)]
    rfl

theorem tileStore_gives {tr : Transfer} (hq : Quiet s) (htb : cr.tb = []) (hsq : cr.sq = []) (hm : MayBegin 0x11 cr i k p s)
    (htr : tr = transferOf (issueOf 0x11 cr i k p) false s) (hok : tr.status = Stat.ok) (hread : TileClean k.regs (tr.rows.map fun e => (e.1, tr.len)))
    (hfree : ∀ e ∈ tr.rows, poisonPart s.sq.poison e.2 tr.len = false) :
    Gives (.tileStore cr i) s (stepped cr i k p id (tr.rows.foldl (fun s e => devPut e.2 (tbRead k.regs e.1 tr.len) s) s)) := by
  have hk : taskOf s k.id = some k := hm.2.2.2.1
  have hd : k.due = none := hm.2.2.2.2.2.2.1
  have hrows : writeRows [] (tr.rows.map fun e => (e.2, tbRead k.regs e.1 tr.len)) (goes k.id s)
      = (Stat.ok, goes k.id (tr.rows.foldl (fun s e => devPut e.2 (tbRead k.regs e.1 tr.len) s) s)) := by
    have hne : ∀ e ∈ tr.rows.map fun e => (e.2, tbRead k.regs e.1 tr.len), e.2 ≠ [] := by
      intro e he
      obtain ⟨y, hy, rfl⟩ := List.mem_map.mp he
      have hlen : tr.len ≠ 0 := (htr ▸ transferOf_sized _ _ _ : tr.Sized).resolve_left (List.ne_nil_of_mem hy)
      rw [← List.length_pos_iff, tbRead_length]
      exact Nat.pos_of_ne_zero hlen
    have hpart : ∀ e ∈ tr.rows.map fun e => (e.2, tbRead k.regs e.1 tr.len), poisonPart (goes k.id s).sq.poison e.1 e.2.length = false := by
      intro e he
      obtain ⟨y, hy, rfl⟩ := List.mem_map.mp he
      rw [tbRead_length]
      exact hfree y hy
    rw [writeRows_clean hne hpart, List.foldl_map]
    exact Prod.ext rfl (List.foldl_hom (goes k.id) fun _ _ => rfl)
  obtain ⟨t, ht⟩ : ∃ t, t = tr.rows.foldl (fun s e => devPut e.2 (tbRead k.regs e.1 tr.len) s) s := ⟨_, rfl⟩
  have htasks : t.tasks = s.tasks := by
    rw [ht]
    exact foldl_keeps State.tasks (f := fun s (e : ℕ × ℕ) => devPut e.2 (tbRead k.regs e.1 tr.len) s) (fun _ _ => rfl) _ s
  have hkt : taskOf t k.id = some k := by
    unfold taskOf
    rw [htasks]
    exact hk
  rw [← ht] at hrows ⊢
  refine begins_gives (body := beginTileStore) (by unfold exec; rfl) hm (fun x q s => beginTileStore_setPending x q s) ?_
    (quiet_stepped (hq.of_tasks htasks) hd)
  unfold beginTileStore
  rw [transferOf_goes, ← htr]
  dsimp only
  rw [if_neg (not_not.mpr hok), readTile_goes rfl htb hk hread, show (issueOf 0x11 cr i k p).r = k.regs from rfl,
    show (issueOf 0x11 cr i k p).cr.sq = [] from hsq]
  dsimp only
  rw [if_neg Bool.false_ne_true, hrows]
  dsimp only
  rw [if_neg (fun h => h rfl)]
  exact complete_goes rfl rfl hkt

theorem foldl_min_least {a : ℕ} {l : List ℕ} (h : ∀ x ∈ l, a ≤ x) : l.foldl min a = a := by
  induction l with
  | nil => rfl
  | cons x l ih =>
    rw [List.foldl_cons, min_eq_left (h x List.mem_cons_self)]
    exact ih fun y hy => h y (List.mem_cons_of_mem _ hy)

theorem foldl_max_range (a step m : ℕ) : ((List.range (m + 1)).map fun j => a + j * step).foldl max a = a + m * step := by
  induction m with
  | zero => simp
  | succ m ih =>
    rw [List.range_succ, List.map_append, List.foldl_append, ih, List.map_singleton, List.foldl_cons, List.foldl_nil]
    exact max_eq_right (Nat.add_le_add_left (Nat.mul_le_mul_right _ (Nat.le_succ m)) a)

theorem map_zipIdx_range {α β : Type} (n : ℕ) (f : ℕ → α) (g : α × ℕ → β) : ((List.range n).map f).zipIdx.map g = (List.range n).map fun j => g (f j, j) := by
  refine List.ext_getElem (by simp) fun j h1 h2 => ?_
  simp

/-- The rows of a transfer that its descriptor and its range allow. -/
theorem transferOf_rows {w : Bool} {t : Tile} {n a step : ℕ} (ht : t = tdOf k.regs i.fd) (he : t.empty = false) (hr : t.refused = false)
    (hw : w = true → t.rowsMeet = false) (ha : a = (aOf k.regs i.fa + BitVec.ofInt 40 (sext i)).toNat)
    (hn : n = if i.func.testBit 2 then 1 else t.rows)
    (hone : i.func.testBit 2 = true → i.func.testBit 1 = true ∨ (sOf k.regs i.fc).toNat < t.rows)
    (hstep : step = if i.func.testBit 0 then (sOf k.regs i.fb).toNat else t.rowBytes) (hend : a + (n - 1) * step + t.rowBytes ≤ 0x20000000)
    (hal : allocated s a ((n - 1) * step + t.rowBytes) = true) :
    (transferOf (issueOf 0x10 cr i k p) w s).status = Stat.ok ∧ (transferOf (issueOf 0x10 cr i k p) w s).len = t.rowBytes
      ∧ (transferOf (issueOf 0x10 cr i k p) w s).rows = (List.range n).map fun j =>
          (t.base + (if i.func.testBit 2 then (sOf k.regs i.fc).toNat % t.rows else j) * t.stride, a + j * step) := by
  have hrows : t.rows ≠ 0 := by
    intro h0
    unfold Tile.empty at he
    rw [h0] at he
    cases he
  have hbytes : t.rowBytes ≠ 0 := by
    intro h0
    unfold Tile.empty at he
    rw [h0, beq_self_eq_true, Bool.or_true] at he
    cases he
  have hn0 : n ≠ 0 := by
    rw [hn]
    split
    · exact Nat.one_ne_zero
    · exact hrows
  have haddr : (List.range n).map (fun j => (a + j * step) % 2 ^ 40) = (List.range n).map fun j => a + j * step := by
    refine List.map_congr_left fun j hj => Nat.mod_eq_of_lt ?_
    have hle : j * step ≤ (n - 1) * step := Nat.mul_le_mul_right _ (by have := List.mem_range.mp hj; omega)
    omega
  have hmin : ((List.range n).map fun j => a + j * step).foldl min a = a := by
    refine foldl_min_least fun x hx => ?_
    obtain ⟨j, -, rfl⟩ := List.mem_map.mp hx
    exact Nat.le_add_right _ _
  have hmax : ((List.range n).map fun j => a + j * step).foldl max a = a + (n - 1) * step := by
    obtain ⟨m, rfl⟩ := Nat.exists_eq_succ_of_ne_zero hn0
    exact foldl_max_range a step m
  have hmeet : ¬(t.refused || (w && t.rowsMeet)) = true := by
    rw [hr]
    cases w with
    | false => exact Bool.false_ne_true
    | true =>
      rw [hw rfl]
      exact Bool.false_ne_true
  have hsel : ¬(i.func.testBit 2 && !i.func.testBit 1 && decide (t.rows ≤ (sOf k.regs i.fc).toNat)) = true := by
    intro h
    rw [Bool.and_eq_true, Bool.and_eq_true, Bool.not_eq_true', decide_eq_true_eq] at h
    obtain ⟨⟨h2, h1⟩, hle⟩ := h
    rcases hone h2 with h1' | hlt
    · exact Bool.false_ne_true (h1.symm.trans h1')
    · omega
  unfold transferOf
  dsimp only [issueOf]
  rw [← ht, he, if_neg Bool.false_ne_true, if_neg hmeet, if_neg hsel, ← hn, ← hstep, ← ha, haddr, hmin, hmax]
  rw [if_neg (by omega), if_neg (by omega), show a + (n - 1) * step + t.rowBytes - a = (n - 1) * step + t.rowBytes by omega, hal]
  refine ⟨rfl, rfl, (map_zipIdx_range _ _ _).trans (List.map_congr_left fun j hj => Prod.ext ?_ rfl)⟩
  show t.row (if i.func.testBit 2 then (if i.func.testBit 1 then (sOf k.regs i.fc).toNat % t.rows else (sOf k.regs i.fc).toNat) else j) = _
  unfold Tile.row
  cases h2 : i.func.testBit 2 with
  | false => rfl
  | true =>
    rw [if_pos rfl, if_pos rfl]
    cases h1 : i.func.testBit 1 with
    | true => rfl
    | false =>
      have hlt : (sOf k.regs i.fc).toNat < t.rows := (hone h2).resolve_left (by rw [h1]; exact Bool.false_ne_true)
      rw [if_neg Bool.false_ne_true, Nat.mod_eq_of_lt hlt]

/-! ## Copies and fills -/

theorem tileCopy_gives {a d : Tile} (hq : Quiet s) (htb : cr.tb = []) (hm : MayBegin 0x12 cr i k p s) (ha : a = tdOf k.regs i.fa)
    (hd : d = tdOf k.regs i.fd) (hae : a.empty = false) (hde : d.empty = false) (har : a.refused = false) (hdr : d.refused = false)
    (hmeet : d.rowsMeet = false) (hbytes : a.rowBytes = d.rowBytes) (hrows : a.rows ≤ d.rows) (hread : TileClean k.regs (a.runs a.rows))
    (hfree : TileFree k.regs ((List.range a.rows).map fun r => (d.row r, a.rowBytes))) :
    Gives (.tileCopy cr i) s (stepped cr i k p (putRuns ((List.range a.rows).map fun r => (d.row r, tbRead k.regs (a.row r) a.rowBytes))) s) := by
  have hk : taskOf s k.id = some k := hm.2.2.2.1
  have hdue : k.due = none := hm.2.2.2.2.2.2.1
  have hruns : (((List.range a.rows).map fun r => (d.row r, tbRead k.regs (a.row r) a.rowBytes)).map fun e => (e.1, e.2.length))
      = (List.range a.rows).map fun r => (d.row r, a.rowBytes) := by
    rw [List.map_map]
    exact List.map_congr_left fun r _ => Prod.ext rfl (tbRead_length _ _ _)
  refine begins_gives (body := beginTileCopy) (by unfold exec; rfl) hm (fun x q s => beginTileCopy_setPending x q s) ?_ (quiet_stepped hq hdue)
  unfold beginTileCopy
  dsimp only
  rw [show tdOf (issueOf 0x12 cr i k p).r (issueOf 0x12 cr i k p).i.fd = d from hd.symm,
    show tdOf (issueOf 0x12 cr i k p).r (issueOf 0x12 cr i k p).i.fa = a from ha.symm, hae, hde, har, hdr, hmeet,
    bne_eq_false_iff_eq.mpr hbytes, decide_eq_false (Nat.not_lt.mpr hrows), readTile_goes rfl htb hk hread]
  exact storeRuns_goes rfl htb hk hruns hfree

theorem tileCopy_empty {a d : Tile} (hq : Quiet s) (hm : MayBegin 0x12 cr i k p s) (ha : a = tdOf k.regs i.fa) (hd : d = tdOf k.regs i.fd)
    (he : a.empty = true ∨ d.empty = true) : Gives (.tileCopy cr i) s (stepped cr i k p id s) := by
  refine completes_gives (g := id) (body := beginTileCopy) (by unfold exec; rfl) hq hm (fun x q s => beginTileCopy_setPending x q s) ?_ rfl
  unfold beginTileCopy
  dsimp only
  rw [show tdOf (issueOf 0x12 cr i k p).r (issueOf 0x12 cr i k p).i.fd = d from hd.symm,
    show tdOf (issueOf 0x12 cr i k p).r (issueOf 0x12 cr i k p).i.fa = a from ha.symm]
  exact if_pos (Bool.or_eq_true _ _ ▸ he)

/-- The row that a fill repeats 8 bytes in. -/
theorem fillRow (pat : List Byte) (n : ℕ) (h : pat.length = 8) :
    ((List.replicate (n / 8 + 1) pat).flatten).take n = (List.range n).map fun j => pat.getD (j % 8) 0 := by
  have hat (m j : ℕ) (hj : j < 8 * m) : (List.replicate m pat).flatten.getD j 0 = pat.getD (j % 8) 0 := by
    induction m generalizing j with
    | zero => omega
    | succ m ih =>
      rw [List.replicate_succ, List.flatten_cons]
      by_cases h8 : j < 8
      · rw [List.getD_append _ _ _ _ (by omega), Nat.mod_eq_of_lt h8]
      · rw [List.getD_append_right _ _ _ _ (by omega), ih _ (by omega), h]
        congr 1
        omega
  refine List.ext_getElem (by simp [h]; omega) fun j h1 h2 => ?_
  have hj : j < n := by simpa using h2
  rw [List.getElem_take, List.getElem_map, List.getElem_range, ← hat (n / 8 + 1) j (by omega), List.getD_eq_getElem]

theorem tileFill_gives {d : Tile} (hq : Quiet s) (htb : cr.tb = []) (hm : MayBegin 0x13 cr i k p s) (hd : d = tdOf k.regs i.fd)
    (he : d.empty = false) (hr : d.refused = false) (hmeet : d.rowsMeet = false)
    (hfree : TileFree k.regs ((List.range d.rows).map fun r => (d.row r, d.rowBytes))) :
    Gives (.tileFill cr i) s (stepped cr i k p (putRuns ((List.range d.rows).map fun r =>
        (d.row r, (List.range d.rowBytes).map fun j => (leBytes 8 (sOf k.regs i.fa).toNat).getD (j % 8) 0))) s) := by
  have hk : taskOf s k.id = some k := hm.2.2.2.1
  have hdue : k.due = none := hm.2.2.2.2.2.2.1
  have hruns : (((List.range d.rows).map fun r => (d.row r, (List.range d.rowBytes).map fun j => (leBytes 8 (sOf k.regs i.fa).toNat).getD (j % 8) 0)).map
      fun e => (e.1, e.2.length)) = (List.range d.rows).map fun r => (d.row r, d.rowBytes) := by
    rw [List.map_map]
    exact List.map_congr_left fun r _ => Prod.ext rfl (by simp)
  refine begins_gives (body := beginTileFill) (by unfold exec; rfl) hm (fun x q s => beginTileFill_setPending x q s) ?_ (quiet_stepped hq hdue)
  unfold beginTileFill
  dsimp only
  rw [show tdOf (issueOf 0x13 cr i k p).r (issueOf 0x13 cr i k p).i.fd = d from hd.symm, he, hr, hmeet,
    fillRow _ _ (length_leBytes _ _)]
  exact storeRuns_goes rfl htb hk hruns hfree

theorem tileFill_faults {d : Tile} (hm : MayBegin 0x13 cr i k p s) (hd : d = tdOf k.regs i.fd) (he : d.empty = false)
    (hbad : d.refused = true ∨ d.rowsMeet = true) : GivesThen (.tileFill cr i) s (faulted k 3 Stat.length s) := by
  refine faults_givesThen (body := beginTileFill) (by unfold exec; rfl) hm (fun x q s => beginTileFill_setPending x q s) ?_
  unfold beginTileFill
  dsimp only
  rw [show tdOf (issueOf 0x13 cr i k p).r (issueOf 0x13 cr i k p).i.fd = d from hd.symm, he]
  exact (if_neg Bool.false_ne_true).trans (if_pos (Bool.or_eq_true _ _ ▸ hbad))

end

/-- Settles O34: transfers by the rows that `transferOf` pairs, copies and fills by the runs that they write. -/
theorem tileInstructions : Obligations.TileInstructions := by
  intro cr i k p s hq htb hsq
  refine ⟨fun _ hm htr hok hread hfree => tileLoad_gives hq htb hsq hm htr hok hread hfree, fun _ hm htr hok hpin => (tileLoad_faults hm htr).1 hok hpin,
    fun _ hm htr hst => (tileLoad_faults hm htr).2 hst, fun _ hm htr hok hread hfree => tileStore_gives hq htb hsq hm htr hok hread hfree,
    fun _ _ _ _ _ ht he hr hw ha hn hone hstep hend hal => transferOf_rows ht he hr hw ha hn hone hstep hend hal,
    fun _ _ hm ha hd hae hde har hdr hmeet hbytes hrows hread hfree => tileCopy_gives hq htb hm ha hd hae hde har hdr hmeet hbytes hrows hread hfree,
    fun _ _ hm ha hd he => tileCopy_empty hq hm ha hd he, fun _ hm hd he hr hmeet hfree => tileFill_gives hq htb hm hd he hr hmeet hfree,
    fun _ hm hd he hbad => tileFill_faults hm hd he hbad⟩

end Sys2Proof.Machine
end

