-- ==== Sys2Proof/Proofs/ArrRows.lean ====
section
/-! Plane loads, array passes, convolutions and readouts. -/

namespace Sys2Proof.Machine

open Sys2Proof

/-! ## Passes -/

theorem updFirst_updFirst_const {α : Type} {p : α → Bool} {g : α → α} {b : α} (hb : p b = true) (l : List α) :
    updFirst p g (updFirst p (fun _ => b) l) = updFirst p (fun _ => g b) l := by
  induction l with
  | nil => rfl
  | cons y l ih =>
    cases hy : p y with
    | true => simp only [updFirst, hy, hb, if_true]
    | false => simpa only [updFirst, hy, Bool.false_eq_true, if_false, List.cons.injEq, true_and] using ih

section
variable {cr : CoreRun} {i : Iw} {k : Task} {p : Program} {op : ℕ} {mm : Bool} {x : Issue} {s : State}

/-- What else a step writes of a task whose instruction has completed. -/
theorem modTask_putDone {n : ℕ} {k' : Task} {f : Task → Task} (hid : k'.id = k.id) :
    modTask k.id f (putDone n k k' s) = putDone n k (f k') s :=
  congrArg (fun l : List Task => { s with tasks := l, cores := modAt n (fun c => { c with fresh := false }) s.cores })
    (updFirst_updFirst_const (p := fun y : Task => y.id == k.id) (beq_iff_eq.mpr hid) s.tasks)

/-- A pass that has just been decoded completes. -/
theorem completePass_goes {rows : ℕ} {g : TaskRegs → TaskRegs} (hx : x = issueOf op cr i k p mm) (hk : taskOf s k.id = some k) :
    completePass x rows g (goes k.id s) = passed cr i k p rows g s := by
  subst hx
  unfold completePass
  dsimp only
  rw [complete_goes rfl rfl hk]
  exact congrArg (fun s => count (Reg.tcCnt.off cr.n 1) rows (count (Reg.tcCnt.off cr.n 0) (ceilDiv rows 256) s)) (modTask_putDone rfl)

theorem quiet_passed {rows : ℕ} {g : TaskRegs → TaskRegs} (hq : Quiet s) (hd : k.due = none) : Quiet (passed cr i k p rows g s) :=
  (quiet_putDone (n := cr.n) (k := k) (k' := { doneTask p i g k with passes := k.passes + ceilDiv rows 256 }) hq hd).of_tasks rfl

theorem widePass_goes {rows n : ℕ} {init : Bool} {work : List (ℕ × List Term)} (hx : x = issueOf op cr i k p mm) (htb : cr.tb = [])
    (hk : taskOf s k.id = some k) (hfree : WideFree k.regs init n work) :
    widePass x rows init n work (goes k.id s) = passed cr i k p rows (wideSums init n work) s := by
  obtain ⟨hpin, hrow⟩ := hfree
  have hclean : (if init = true then writeHits x (work.map fun w => (w.1, 18 * n)) (goes k.id s) else readTile x (work.map fun w => (w.1, 18 * n)) (goes k.id s))
      = (false, goes k.id s) := by
    cases init with
    | true =>
      refine writeHits_goes hx htb hk fun e he => ?_
      obtain ⟨w, hw, rfl⟩ := List.mem_map.mp he
      exact hrow w hw
    | false =>
      refine readTile_goes hx htb hk fun e he => ?_
      obtain ⟨w, hw, rfl⟩ := List.mem_map.mp he
      exact hrow w hw
  unfold widePass
  dsimp only
  rw [show x.r = k.regs from hx ▸ rfl, if_neg (ne_true_of_eq_false hpin), hclean]
  dsimp only
  rw [if_neg Bool.false_ne_true]
  exact completePass_goes hx hk

/-! ## Sums of a pass -/

theorem sumRow_length {init : Bool} {acc : List (BitVec 144)} {l : List Term} : (sumRow init acc l).length = acc.length := by
  simp [sumRow]

theorem sumRow_getD {init : Bool} {acc : List (BitVec 144)} {l : List Term} {j : ℕ} {z : Term} (hj : j < acc.length) (hl : j < l.length) :
    (sumRow init acc l).getD j 0 = (if init then 0 else acc.getD j 0) + BitVec.ofInt 144 (l.getD j z).v := by
  rw [List.getD_eq_getElem _ _ (by rwa [sumRow_length]), List.getD_eq_getElem _ _ hl]
  simp only [sumRow, List.getElem_map, List.getElem_range, List.getElem?_eq_getElem hl, accAdd]

/-- The sums that rows add to accumulators which start as they stand. -/
theorem foldSums_getD (acc : List (BitVec 144)) (ts : List (List Term)) (j : ℕ) (z : Term) (hj : j < acc.length) (hl : ∀ l ∈ ts, j < l.length) :
    (ts.foldl (fun (a : Bool × List (BitVec 144)) l => (false, sumRow a.1 a.2 l)) (false, acc)).2.getD j 0
      = acc.getD j 0 + BitVec.ofInt 144 ((ts.map fun l => (l.getD j z).v).sum) := by
  induction ts generalizing acc with
  | nil => simp
  | cons l ts ih =>
    rw [List.foldl_cons, ih _ (by rwa [sumRow_length]) fun m hm => hl m (List.mem_cons_of_mem _ hm), sumRow_getD (z := z) hj (hl l List.mem_cons_self),
      if_neg Bool.false_ne_true, List.map_cons, List.sum_cons, BitVec.ofInt_add, BitVec.add_assoc]

/-- The sums of a pass are the integer sums of its terms, added to the accumulators or in their place. -/
theorem passSums_getD (init : Bool) (acc : List (BitVec 144)) (ts : List (List Term)) (j : ℕ) (z : Term) (hts : ts ≠ []) (hj : j < acc.length)
    (hl : ∀ l ∈ ts, j < l.length) : (ts.foldl (fun (a : Bool × List (BitVec 144)) l => (false, sumRow a.1 a.2 l)) (init, acc)).2.getD j 0
      = (if init then 0 else acc.getD j 0) + BitVec.ofInt 144 ((ts.map fun l => (l.getD j z).v).sum) := by
  obtain ⟨l, ts, rfl⟩ := List.exists_cons_of_ne_nil hts
  rw [List.foldl_cons, foldSums_getD _ _ _ z (by rwa [sumRow_length]) fun m hm => hl m (List.mem_cons_of_mem _ hm),
    sumRow_getD (z := z) hj (hl l List.mem_cons_self), List.map_cons, List.sum_cons, BitVec.ofInt_add, BitVec.add_assoc]

/-! ## The queue behind a Winograd row -/

theorem beginArrWgconv_blind (x : Issue) : Blind (beginArrWgconv x) := by
  intro q s
  unfold beginArrWgconv
  extract_lets i t d pl w inW inH tiles y pos
  cases x.p.winograd.lookup x.w with
  | none => rfl
  | some mode =>
    dsimp -zeta only
    extract_lets f4 m p px cells
    split
    · rfl
    split
    · exact complete_setPending _ _ _ _
    split
    · exact faultAt_setPending _ _ _ _ _
    split
    · exact faultAt_setPending _ _ _ _ _
    split
    · exact faultAt_setPending _ _ _ _ _
    cases passClass t pl with
    | none => exact faultAt_setPending _ _ _ _ _
    | some cl =>
      dsimp -zeta only
      extract_lets n
      split
      · exact faultAt_setPending _ _ _ _ _
      · rw [readTile_setPending]
        dsimp -zeta only
        split
        · exact tilePoison_setPending _ _ _ _
        · exact widePass_setPending _ _ _ _ _ _ _

end
/-! ## Rows of the array -/

section
variable {cr : CoreRun} {i : Iw} {k : Task} {p : Program} {s : State}

theorem wideFits_refused {t : Tile} {rows n : ℕ} (h : wideFits t rows n = true) : t.refused = false := by
  unfold wideFits at h
  simp only [Bool.and_eq_true, Bool.not_eq_true'] at h
  exact h.1.2

theorem arrWload_gives {t : Tile} {c : ℕ} (hq : Quiet s) (htb : cr.tb = []) (hm : MayBegin 0x20 cr i k p s) (ht : t = tdOf k.regs i.fa)
    (he : t.empty = false) (hr : t.refused = false) (hw : t.wide = false) (hc : rateClass t.fmt = some c) (hb : t.rowBytes = rowBytesOf t.fmt)
    (hrows : t.rows ≤ classN c) (hread : TileClean k.regs (t.runs t.rows)) :
    Gives (.arrWload cr i) s (stepped cr i k p (fun r => { r with
      planes := modAt i.func (fun _ => { desc := some (k.regs.t.getD i.fa 0), fmt := t.fmt
                                         rows := (List.range t.rows).map fun j => tbRead k.regs (t.row j) t.rowBytes }) r.planes
      loads := r.loads ++ [i.func] }) s) := by
  have hk : taskOf s k.id = some k := hm.2.2.2.1
  have hd : k.due = none := hm.2.2.2.2.2.2.1
  refine begins_gives (body := beginArrWload) (by unfold exec; rfl) hm (fun x q s => beginArrWload_setPending x q s) ?_ (quiet_stepped hq hd)
  unfold beginArrWload
  dsimp only
  rw [show tdOf (issueOf 0x20 cr i k p).r (issueOf 0x20 cr i k p).i.fa = t from ht.symm, if_neg (ne_true_of_eq_false he),
    if_neg (ne_true_of_eq_false hr), hc, hw]
  dsimp only
  rw [if_neg (not_or.mpr ⟨not_not.mpr hb, Nat.not_lt.mpr hrows⟩), readTile_goes rfl htb hk hread]
  dsimp only
  rw [if_neg Bool.false_ne_true]
  exact complete_goes rfl rfl hk

theorem arrWload_faults {t : Tile} (hm : MayBegin 0x20 cr i k p s) (ht : t = tdOf k.regs i.fa) (he : t.empty = false) (hr : t.refused = false)
    (hbad : rateClass t.fmt = none ∨ t.wide = true) : GivesThen (.arrWload cr i) s (faulted k 1 Stat.badFormat s) := by
  refine faults_givesThen (body := beginArrWload) (by unfold exec; rfl) hm (fun x q s => beginArrWload_setPending x q s) ?_
  unfold beginArrWload
  dsimp only
  rw [show tdOf (issueOf 0x20 cr i k p).r (issueOf 0x20 cr i k p).i.fa = t from ht.symm, if_neg (ne_true_of_eq_false he),
    if_neg (ne_true_of_eq_false hr)]
  rcases hbad with h | h
  · rw [h]
  · rw [h]
    cases rateClass t.fmt <;> rfl

/-- The terms of a pass by a plane over the rows of a tile. -/
theorem arrMma_gives {t : Tile} {pl : Plane} {c : ℕ} {ts : List (List Term)} (hq : Quiet s) (htb : cr.tb = []) (hm : MayBegin 0x21 cr i k p s)
    (ht : t = tdOf k.regs i.fa) (hpl : pl = planeOf k.regs (i.func % 2)) (he : t.empty = false) (hr : t.refused = false)
    (hc : passClass t pl = some c) (hb : t.rowBytes = rowBytesOf t.fmt) (hread : TileClean k.regs (t.runs t.rows))
    (hts : ts = ((List.range t.rows).map fun j =>
      passRow (isMx t.fmt || isMx pl.fmt) (classN c) pl (planeWeights pl) (arrRow t.fmt (tbRead k.regs (t.row j) t.rowBytes)))) :
    (i.func.testBit 1 = false →
      Gives (.arrMma cr i) s (passed cr i k p t.rows (fun r => setTermFlags ts { r with
        accN := classN c, acc := (ts.foldl (fun (a : Bool × List (BitVec 144)) l => (false, sumRow a.1 a.2 l)) (i.func.testBit 2, r.acc)).2 }) s))
      ∧ (∀ d work, i.func.testBit 1 = true → d = tdOf k.regs i.fd → d.empty = false → wideFits d t.rows (classN c) = true →
        work = ((List.range t.rows).map fun j => (d.row j, ts.getD j [])) → WideFree k.regs (i.func.testBit 2) (classN c) work →
        Gives (.arrMma cr i) s (passed cr i k p t.rows (wideSums (i.func.testBit 2) (classN c) work) s)) := by
  have hk : taskOf s k.id = some k := hm.2.2.2.1
  have hd : k.due = none := hm.2.2.2.2.2.2.1
  have hblind : ∀ x, Blind (beginArrMma x) := fun x q s => beginArrMma_setPending x q s
  refine ⟨fun hhold => begins_gives (body := beginArrMma) (by unfold exec; rfl) hm hblind ?_ (quiet_passed hq hd),
    fun d work hwide hde hdem hfit hwork hfree => begins_gives (body := beginArrMma) (by unfold exec; rfl) hm hblind ?_ (quiet_passed hq hd)⟩
  · unfold beginArrMma
    dsimp only
    rw [show tdOf (issueOf 0x21 cr i k p).r (issueOf 0x21 cr i k p).i.fa = t from ht.symm,
      show planeOf (issueOf 0x21 cr i k p).r ((issueOf 0x21 cr i k p).i.func % 2) = pl from hpl.symm,
      show (issueOf 0x21 cr i k p).i.func.testBit 1 = false from hhold, he, hr, hc]
    simp only [Bool.false_and, Bool.or_self, Bool.false_eq_true, if_false]
    rw [if_neg (not_or.mpr ⟨not_not.mpr hb, fun h => h.1⟩),
      readTile_goes rfl htb hk hread]
    dsimp only
    rw [if_neg Bool.false_ne_true, hts]
    exact completePass_goes rfl hk
  · unfold beginArrMma
    dsimp only
    rw [show tdOf (issueOf 0x21 cr i k p).r (issueOf 0x21 cr i k p).i.fa = t from ht.symm,
      show tdOf (issueOf 0x21 cr i k p).r (issueOf 0x21 cr i k p).i.fd = d from hde.symm,
      show planeOf (issueOf 0x21 cr i k p).r ((issueOf 0x21 cr i k p).i.func % 2) = pl from hpl.symm,
      show (issueOf 0x21 cr i k p).i.func.testBit 1 = true from hwide, he, hr, hc, hdem, wideFits_refused hfit]
    simp only [Bool.and_false, Bool.or_self, Bool.false_eq_true, if_false]
    rw [if_neg (not_or.mpr ⟨not_not.mpr hb, fun h => Bool.false_ne_true (h.2.symm.trans hfit)⟩), readTile_goes rfl htb hk hread]
    dsimp only
    rw [if_neg Bool.false_ne_true, if_pos trivial]
    rw [hts] at hwork
    subst hwork
    exact widePass_goes rfl htb hk hfree

end

section
variable {cr : CoreRun} {i : Iw} {k : Task} {p : Program} {s : State}

theorem arrConv_gives {t d : Tile} {pl : Plane} {c : ConvCtl} {cl : ℕ} {px : List (Option (Option ℕ))} {work : List (ℕ × List Term)} (hq : Quiet s)
    (htb : cr.tb = []) (hm : MayBegin 0x22 cr i k p s) (ht : t = tdOf k.regs i.fa) (hd : d = tdOf k.regs i.fd)
    (hpl : pl = planeOf k.regs (i.func % 2)) (hc : c = convCtl (sOf k.regs i.fb)) (hte : t.empty = false) (hde : d.empty = false) (hout : c.outW ≠ 0)
    (htr : t.refused = false) (hdr : d.refused = false) (hbad : c.bad = false) (hcl : passClass t pl = some cl)
    (hb : c.inW * rowBytesOf t.fmt ≤ t.rowBytes) (hfit : wideFits d c.outW (classN cl) = true)
    (hpx : px = ((List.range c.outW).map fun m => pixelAt t (i.func.testBit 2) (i.func.testBit 3) c.inW c.inH (rowBytesOf t.fmt)
      (sOf k.regs i.fc).toInt ((m * c.sx + c.dx * c.kx : Nat) - (c.pbx : Int)))) (hnone : px.contains none = false)
    (hread : TileClean k.regs (px.filterMap fun o => o.join.map fun a => (a, rowBytesOf t.fmt)))
    (hwork : work = ((List.range c.outW).map fun m => (d.row m, passRow (isMx t.fmt || isMx pl.fmt) (classN cl) pl (planeWeights pl) (arrRow t.fmt
      ((px.getD m none).join.elim (List.replicate (rowBytesOf t.fmt) 0) fun a => tbRead k.regs a (rowBytesOf t.fmt))))))
    (hfree : WideFree k.regs (i.func.testBit 1) (classN cl) work) :
    Gives (.arrConv cr i) s (passed cr i k p c.outW (wideSums (i.func.testBit 1) (classN cl) work) s) := by
  have hk : taskOf s k.id = some k := hm.2.2.2.1
  have hdue : k.due = none := hm.2.2.2.2.2.2.1
  have hrow (o : List (Option (Option ℕ))) (m : ℕ) : (o.map fun p => p.join).getD m none = (o.getD m none).join := by
    rw [List.getD_eq_getElem?_getD, List.getD_eq_getElem?_getD, List.getElem?_map]
    cases o[m]? <;> rfl
  refine begins_gives (body := beginArrConv) (by unfold exec; rfl) hm (fun x q s => beginArrConv_setPending x q s) ?_ (quiet_passed hq hdue)
  unfold beginArrConv
  dsimp only
  rw [show tdOf (issueOf 0x22 cr i k p).r (issueOf 0x22 cr i k p).i.fa = t from ht.symm,
    show tdOf (issueOf 0x22 cr i k p).r (issueOf 0x22 cr i k p).i.fd = d from hd.symm,
    show planeOf (issueOf 0x22 cr i k p).r ((issueOf 0x22 cr i k p).i.func % 2) = pl from hpl.symm,
    show convCtl (sOf (issueOf 0x22 cr i k p).r (issueOf 0x22 cr i k p).i.fb) = c from hc.symm, hte, hde, htr, hdr, hbad, beq_false_of_ne hout, hcl]
  dsimp only
  rw [if_neg (by decide), if_neg (by decide), if_neg Bool.false_ne_true, show (issueOf 0x22 cr i k p).i = i from rfl,
    show (issueOf 0x22 cr i k p).r = k.regs from rfl, ← hpx, hnone, hfit, if_neg (by simpa using hb), List.filterMap_map]
  rw [show (fun o : Option ℕ => o.map fun a => (a, rowBytesOf t.fmt)) ∘ (fun p : Option (Option ℕ) => p.join) =
    fun o => o.join.map fun a => (a, rowBytesOf t.fmt) from rfl, readTile_goes rfl htb hk hread]
  dsimp only
  simp only [Bool.false_eq_true, if_false, hrow]
  rw [← hwork]
  exact widePass_goes rfl htb hk hfree

theorem arrConv_faults {t d : Tile} (hm : MayBegin 0x22 cr i k p s) (ht : t = tdOf k.regs i.fa) (hd : d = tdOf k.regs i.fd) (hte : t.empty = false)
    (hde : d.empty = false) (hout : (convCtl (sOf k.regs i.fb)).outW ≠ 0) (htr : t.refused = false) (hdr : d.refused = false)
    (hbad : (convCtl (sOf k.regs i.fb)).bad = true) : GivesThen (.arrConv cr i) s (faulted k 1 Stat.shape s) := by
  refine faults_givesThen (body := beginArrConv) (by unfold exec; rfl) hm (fun x q s => beginArrConv_setPending x q s) ?_
  unfold beginArrConv
  dsimp only
  rw [show tdOf (issueOf 0x22 cr i k p).r (issueOf 0x22 cr i k p).i.fa = t from ht.symm,
    show tdOf (issueOf 0x22 cr i k p).r (issueOf 0x22 cr i k p).i.fd = d from hd.symm,
    show (issueOf 0x22 cr i k p).r = k.regs from rfl, show (issueOf 0x22 cr i k p).i = i from rfl, hte, hde, htr, hdr, hbad, beq_false_of_ne hout]
  rw [if_neg (by decide), if_neg (by decide)]
  exact if_pos rfl

end

/-! ## Winograd positions -/

section
variable {cr : CoreRun} {i : Iw} {k : Task} {p : Program} {s : State}

theorem arrWgconv_gives {t d : Tile} {pl : Plane} {w : ℕ} {f4 : Bool} {m n tiles pos b : ℕ} {y : ℤ} {cells : ℕ → List ((ℕ × ℕ) × Option (Option ℕ))}
    {rows : ℕ → List (List ℤ)} {cl : ℕ} {work : List (ℕ × List Term)} (hq : Quiet s) (htb : cr.tb = []) (hmay : MayBegin 0x23 cr i k p s)
    (hf4 : p.winograd.lookup k.regs.next = some (if f4 then 1 else 0)) (ht : t = tdOf k.regs i.fa) (hd : d = tdOf k.regs i.fd)
    (hpl : pl = planeOf k.regs (i.func % 2)) (hw : w = (sOf k.regs i.fb).toNat) (hm : m = (if f4 then 4 else 2)) (htiles : tiles = bits w 24 12)
    (hpos : pos = i.imm.toNat % 64) (hlt : pos < (m + 2) * (m + 2)) (hy : y = (sOf k.regs i.fc).toInt) (hte : t.empty = false) (hde : d.empty = false)
    (hnz : tiles ≠ 0) (htr : t.refused = false) (hdr : d.refused = false) (hfmt : bits w 42 22 = 0) (hft : wgFormat f4 t.fmt = true)
    (hfp : wgFormat f4 pl.fmt = true) (hinW : bits w 0 12 ≠ 0) (hinH : bits w 12 12 ≠ 0) (hcl : passClass t pl = some cl) (hn : n = classN cl)
    (hb : b = rowBytesOf t.fmt) (hbytes : bits w 0 12 * b ≤ t.rowBytes) (hfit : wideFits d (tiles * ((m + 2) * (m + 2))) n = true)
    (hcells : cells = (fun (tl : Nat) => (List.range (m + 2)).flatMap fun (a : Nat) => (List.range (m + 2)).map fun (c : Nat) => ((a, c),
      pixelAt t (i.func.testBit 2) (i.func.testBit 3) (bits w 0 12) (bits w 12 12) b (y + (a : Int))
        (((m * tl + c : Nat) : Int) - (bits w 36 6 : Nat)))))
    (hclean : ∀ tl, tl < tiles → ∀ e ∈ cells tl, e.2 ≠ none ∧ ∀ a, e.2 = some (some a) → tbHit k.regs a b = false)
    (hrows : rows = (fun tl => (cells tl).map fun e =>
      (pixelInts t.fmt (e.2.join.elim (List.replicate b 0) fun a => tbRead k.regs a b)).map
        (entry (wgB f4) (pos / (m + 2)) e.1.1 * entry (wgB f4) (pos % (m + 2)) e.1.2 * ·)))
    (hwork : work = ((List.range tiles).map fun tl => (d.row (tl * ((m + 2) * (m + 2)) + pos), passRow false n pl (winogradWeights (classK cl) pl)
      { vals := ((rows tl).foldl (fun a l => List.zipWith (· + ·) a l) (List.replicate (classK cl) 0)).map some, scales := [] })))
    (hfree : WideFree k.regs (i.func.testBit 1) n work) :
    Gives (.arrWgconv cr i) s (passed cr i k p (if f4 then 2 * tiles else tiles) (wideSums (i.func.testBit 1) n work) s) := by
  have hk : taskOf s k.id = some k := hmay.2.2.2.1
  have hdue : k.due = none := hmay.2.2.2.2.2.2.1
  have hmode : ((if f4 then 1 else 0 : ℕ) == 1) = f4 := by
    cases f4 <;> rfl
  have hany : (((List.range tiles).map cells).any fun l => l.any fun e => e.2 == none) = false := by
    refine any_eq_false_of fun l hl => any_eq_false_of fun e he => ?_
    obtain ⟨tl, htl, rfl⟩ := List.mem_map.mp hl
    exact beq_false_of_ne (hclean tl (List.mem_range.mp htl) e he).1
  have hread : TileClean k.regs ((((List.range tiles).map cells).flatten.filterMap fun e => e.2.join).map fun a => (a, b)) := by
    intro e he
    obtain ⟨a, ha, rfl⟩ := List.mem_map.mp he
    obtain ⟨c, hc, hca⟩ := List.mem_filterMap.mp ha
    obtain ⟨l, hl, hcl⟩ := List.mem_flatten.mp hc
    obtain ⟨tl, htl, rfl⟩ := List.mem_map.mp hl
    exact (hclean tl (List.mem_range.mp htl) c hcl).2 a (Option.join_eq_some_iff.mp hca)
  refine begins_gives (body := beginArrWgconv) (by unfold exec; rfl) hmay (fun x => beginArrWgconv_blind x) ?_ (quiet_passed hq hdue)
  unfold beginArrWgconv
  extract_lets i' t' d' pl' w' inW' inH' tiles' y' pos' b'
  rw [show (issueOf 0x23 cr i k p).p.winograd.lookup (issueOf 0x23 cr i k p).w = _ from hf4]
  dsimp -zeta only
  rw [hmode]
  extract_lets f4' m' p' px' cells'
  rw [show p' = (m + 2) * (m + 2) from hm ▸ rfl, show pos' = pos from hpos.symm, show t' = t from ht.symm, show d' = d from hd.symm,
    show pl' = pl from hpl.symm, show w' = w from hw.symm, show tiles' = tiles from (hw ▸ htiles).symm,
    show inW' = bits w 0 12 from hw ▸ rfl, show inH' = bits w 12 12 from hw ▸ rfl, hte, hde, htr, hdr, hfmt, hft, hfp, beq_false_of_ne hnz,
    beq_false_of_ne hinW, beq_false_of_ne hinH, hcl, if_neg (Nat.not_le.mpr hlt), if_neg (by decide), if_neg (by decide), if_neg (by decide),
    if_neg (by decide)]
  have hcells' : cells' = (List.range tiles).map cells := by
    rw [hcells, hb, hy, htiles, hm, hw, ht]
    rfl
  dsimp -zeta only
  extract_lets n' row
  have hrow (tl : ℕ) : row (cells tl)
      = { vals := ((rows tl).foldl (fun a l => List.zipWith (· + ·) a l) (List.replicate (classK cl) 0)).map some, scales := [] } := by
    rw [hrows, hb, hm]
    subst ht
    rfl
  rw [show n' = n from hn.symm, show b' = b from (ht ▸ hb).symm, hcells', hany, hfit, if_neg (by simpa using hbytes), readTile_goes rfl htb hk hread,
    show f4' = f4 from rfl]
  dsimp -zeta only
  rw [if_neg Bool.false_ne_true]
  have hwork' : ((List.range tiles).map fun tl => (d.row (tl * ((m + 2) * (m + 2)) + pos),
      passRow false n pl (winogradWeights (classK cl) pl) (row (((List.range tiles).map cells).getD tl [])))) = work := by
    rw [hwork]
    refine List.map_congr_left fun tl htl => ?_
    rw [List.getD_eq_getElem _ _ (by simpa using htl), List.getElem_map, List.getElem_range, hrow]
  rw [hwork']
  exact widePass_goes rfl htb hk hfree

end

/-! ## Readout -/

section
variable {cr : CoreRun} {i : Iw} {k : Task} {p : Program} {x : Issue} {s : State}

theorem ite_bne_zero {α : Type} {j : ℕ} (a b : α) : (if (j != 0) = true then a else b) = if j = 0 then b else a := by
  cases j <;> rfl

theorem arrRead_gives {mm table : Bool} {t d tc : Tile} {ctl : ReadCtl} {form m n : ℕ} {pl : ReadPlan} {pars : ℕ → ColPar} {out : List (ℕ × List Byte)}
    (hq : Quiet s) (htb : cr.tb = []) (hx : x = issueOf 0x24 cr i k p) (hmay : MayBegin 0x24 cr i k p s) (ht : t = tdOf k.regs i.fa)
    (hd : d = tdOf k.regs i.fd) (htc : tc = tdOf k.regs i.fc) (hctl : ctl = readCtl (sOf k.regs i.fb)) (hform : form = i.func / 2)
    (hm : m = (if form = 2 then 4 else 2)) (hn : n = (if i.func = 0 then k.regs.accN else t.rowBytes / 18)) (htable : table = (ctl.percol && !d.wide))
    (hpl : pl = (if form = 0 then
              { runs := if i.func = 0 then [] else t.runs t.rows, n := n, pixels := 1, rows := if i.func = 0 then 1 else t.rows }
            else { runs := t.runs t.rows, n := n, pixels := bits i.imm.toNat 5 12, rows := m }))
    (hde : d.empty = false) (hdr : d.refused = false) (hmeet : d.rowsMeet = false)
    (hsrc : i.func ≠ 0 → t.empty = false ∧ t.refused = false ∧ t.wide = true ∧ (n = 256 ∨ n = 128) ∧ t.rowBytes = 18 * n)
    (hwino : form ≠ 0 → d.wide = false ∧ bits i.imm.toNat 5 12 ≠ 0 ∧ t.rows % ((m + 2) * (m + 2)) = 0
        ∧ bits i.imm.toNat 5 12 ≤ m * (t.rows / ((m + 2) * (m + 2))))
    (hnarrow : d.wide = false → readable d.fmt = true ∧ readCtlBad (sOf k.regs i.fb) = false) (hrows : pl.rows ≤ d.rows)
    (hlen : (if d.wide then 18 * n else (pl.pixels * n * elemBits d.fmt + 7) / 8) ≤ d.rowBytes)
    (hcols : table = true → tc.refused = false ∧ n ≤ tc.rows ∧ 16 ≤ tc.rowBytes ∧ ∀ c ∈ colPars x tc n, c.2 = false)
    (hread : TileClean k.regs (pl.runs ++ if table then tc.runs n else []))
    (hpars : pars = (fun c => if table then ((colPars x tc n).getD c (⟨0, 0, 0⟩, false)).1 else { m := ctl.m, r := ctl.r, bias := 0 }))
    (hout : out = ((List.range pl.rows).map fun j => (d.row j,
        if d.wide then wideBytes (readRow x form t pl j)
        else packBytes (elemBits d.fmt) ((readRow x form t pl j).zipIdx.map fun e =>
          readValue ctl (pars (e.2 % n)) d.fmt (readMode x form ctl pl j e.2) e.1.toInt)))) :
    (mm = false ∨ d.wide = true → TileFree k.regs (out.map fun e => (e.1, e.2.length)) →
        Gives (.arrRead cr i mm) s (stepped cr i k p (putRuns out) s))
      ∧ (mm = true → d.wide = false →
        GivesThen (.arrRead cr i mm) s (coreError cr.n 0 (modTask k.id (fun k => { k with st := .running, held := none }) s))) := by
  have hk : taskOf s k.id = some k := hmay.2.2.2.1
  have hdue : k.due = none := hmay.2.2.2.2.2.2.1
  have hbody : beginArrRead (issueOf 0x24 cr i k p mm) (goes k.id s)
      = if mm = true ∧ d.wide = false then coreError cr.n 0 (goes k.id s) else storeRuns (issueOf 0x24 cr i k p mm) 1 out (goes k.id s) := by
    unfold beginArrRead
    extract_lets i' mismatch form' src' t' d' m' p' w' n' cw' ctl' tc' table' pl' len' pars' par' out'
    subst hx ht hd htc hctl hform hm
    have hn' : n' = n := (ite_bne_zero _ _).trans hn.symm
    have htable' : table' = table := htable.symm
    have hpl' : pl' = pl := by
      have hruns : (if src' = true then t'.runs t'.rows else []) = if i.func = 0 then [] else t'.runs t'.rows := ite_bne_zero _ _
      have hcount : (if src' = true then t'.rows else 1) = if i.func = 0 then 1 else t'.rows := ite_bne_zero _ _
      dsimp only [pl']
      rw [hpl, ← hn', hruns, hcount]
      rfl
    have hpar : par' = pars := by
      rw [hpars, ← htable', ← hn']
      funext c
      dsimp only [par', pars']
      cases table' <;> rfl
    have hout' : (List.range pl'.rows).map (fun j => (d'.row j, out' j)) = out := by
      rw [hout, ← hpar, ← hpl', ← hn']
      rfl
    have hsource : (src' && t'.empty) = false
        ∧ (src' && (t'.refused || !t'.wide || (n' != 256 && n' != 128) || t'.rowBytes != 18 * n')) = false := by
      by_cases h0 : i.func = 0
      · rw [show src' = false from bne_eq_false_iff_eq.mpr h0]
        exact ⟨rfl, rfl⟩
      · obtain ⟨he, hr, hw, hcl, hb⟩ := hsrc h0
        have hcl' : (n' != 256 && n' != 128) = false := by
          rw [hn']
          rcases hcl with h | h <;> rw [h] <;> rfl
        rw [show t'.empty = false from he, show t'.refused = false from hr, show t'.wide = true from hw, hcl',
          show (t'.rowBytes != 18 * n') = false from bne_eq_false_iff_eq.mpr (hn' ▸ hb)]
        exact ⟨Bool.and_false _, Bool.and_false _⟩
    have hwide : (form' != 0 && w' == 0) = false := by
      by_cases h0 : form' = 0
      · rw [bne_eq_false_iff_eq.mpr h0]
        rfl
      · rw [show (w' == 0) = false from beq_false_of_ne (hwino h0).2.1]
        exact Bool.and_false _
    have hformat : ¬(form' ≠ 0 ∧ d'.wide = true ∨ d'.wide = false ∧ (readable d'.fmt = false ∨ readCtlBad cw' = true)) := by
      rintro (⟨h0, hw⟩ | ⟨hw, hf | hc⟩)
      · exact Bool.false_ne_true ((hwino h0).1.symm.trans hw)
      · exact Bool.false_ne_true (hf.symm.trans (hnarrow hw).1)
      · exact Bool.false_ne_true ((hnarrow hw).2.symm.trans hc)
    have hfits : ¬(form' ≠ 0 ∧ (t'.rows % p' ≠ 0 ∨ m' * (t'.rows / p') < w') ∨ d'.rows < pl'.rows ∨ d'.rowBytes < len'
        ∨ table' = true ∧ (tc'.refused = true ∨ tc'.rows < n' ∨ tc'.rowBytes < 16)) := by
      rintro (⟨h0, hp | hlt⟩ | hlt | hlt | ⟨ht, hr | hlt | hlt⟩)
      · exact hp (hwino h0).2.2.1
      · exact Nat.not_lt.mpr (hwino h0).2.2.2 hlt
      · exact Nat.not_lt.mpr (hpl' ▸ hrows) hlt
      · refine Nat.not_lt.mpr ?_ hlt
        dsimp only [len']
        rw [hpl', hn']
        exact hlen
      · exact Bool.false_ne_true ((hcols (htable' ▸ ht)).1.symm.trans hr)
      · exact Nat.not_lt.mpr (hcols (htable' ▸ ht)).2.1 (hn' ▸ hlt)
      · exact Nat.not_lt.mpr (hcols (htable' ▸ ht)).2.2.1 hlt
    have hpars' : (pars'.any fun e => e.2) = false := by
      refine any_eq_false_of fun e he => ?_
      cases ht : table with
      | false =>
        dsimp only [pars'] at he
        rw [htable', ht] at he
        cases he
      | true =>
        dsimp only [pars'] at he
        rw [htable', ht, hn'] at he
        exact (hcols ht).2.2.2 e he
    rw [hsource.1, hsource.2, show d'.empty = false from hde, hwide, show d'.refused = false from hdr, show d'.rowsMeet = false from hmeet,
      if_neg (by decide), if_neg (by decide), if_neg hformat, if_neg hfits, htable', hpl', hn', show tc' = tdOf k.regs i.fc from rfl,
      readTile_goes rfl htb hk hread]
    dsimp -zeta only
    rw [if_neg Bool.false_ne_true, hpars', if_neg Bool.false_ne_true, ← hpl', hout']
    show (if (mm && !d'.wide) = true then _ else _) = if mm = true ∧ d'.wide = false then _ else _
    simp only [Bool.and_eq_true, Bool.not_eq_true']
    rfl
  have hblind : ∀ x, Blind (beginArrRead x) := fun x q s => beginArrRead_setPending x q s
  refine ⟨fun hno hfree => begins_gives (body := beginArrRead) (by unfold exec; rfl) hmay hblind ?_ (quiet_stepped hq hdue),
    fun hmm hw => begins_givesThen (body := beginArrRead) (by unfold exec; rfl) hmay hblind ?_⟩
  · have hno' : ¬(mm = true ∧ d.wide = false) := by
      rintro ⟨hmm, hw⟩
      rcases hno with h | h
      · exact Bool.false_ne_true (h.symm.trans hmm)
      · exact Bool.false_ne_true (hw.symm.trans h)
    rw [hbody, if_neg hno']
    exact storeRuns_goes rfl htb hk rfl hfree
  · rw [hbody, if_pos ⟨hmm, hw⟩]
    rfl

end

/-- Settles O35: each row completes its pass, or faults, once its operands are read as the clause says. -/
theorem arrayInstructions : Obligations.ArrayInstructions := by
  intro cr i k p x s hq htb hx
  refine ⟨fun _ _ hm ht he hr hw hc hb hrows hread => arrWload_gives hq htb hm ht he hr hw hc hb hrows hread,
    fun _ hm ht he hr hbad => arrWload_faults hm ht he hr hbad,
    fun _ _ _ _ hm ht hpl he hr hc hb hread hts => arrMma_gives hq htb hm ht hpl he hr hc hb hread hts, passSums_getD, ?_,
    fun _ _ hm ht hd hte hde hout htr hdr hbad => arrConv_faults hm ht hd hte hde hout htr hdr hbad, ?_, ?_⟩
  · intro _ _ _ _ _ _ _ hm ht hd hpl hc hte hde hout htr hdr hbad hcl hb hfit hpx hnone hread hwork hfree
    exact arrConv_gives hq htb hm ht hd hpl hc hte hde hout htr hdr hbad hcl hb hfit hpx hnone hread hwork hfree
  · intro _ _ _ _ _ _ _ _ _ _ _ _ _ _ _ hmay hf4 ht hd hpl hw hm htiles hpos hlt hy hte hde hnz htr hdr hfmt hft hfp hinW hinH hcl hn hb hbytes hfit
      hcells hclean hrows hwork hfree
    exact arrWgconv_gives hq htb hmay hf4 ht hd hpl hw hm htiles hpos hlt hy hte hde hnz htr hdr hfmt hft hfp hinW hinH hcl hn hb hbytes hfit hcells
      hclean hrows hwork hfree
  · intro _ _ _ _ _ _ _ _ _ _ _ _ hmay ht hd htc hctl hform hm hn htable hpl hde hdr hmeet hsrc hwino hnarrow hrows hlen hcols hread hpars hout
    exact arrRead_gives hq htb hx hmay ht hd htc hctl hform hm hn htable hpl hde hdr hmeet hsrc hwino hnarrow hrows hlen hcols hread hpars hout

end Sys2Proof.Machine
end

