-- ==== Sys2Proof/Proofs/VecRows.lean ====
section
/-! Vector loads, stores, lane operations and MX packing. -/

namespace Sys2Proof.Machine

open Sys2Proof

/-! ## Vector registers -/

theorem length_padTo (n : ℕ) (bs : List Byte) : (padTo n bs).length = n := by
  simp only [padTo, List.length_take, List.length_append, List.length_replicate]
  omega

theorem length_vreg (r : TaskRegs) (n : ℕ) : (vreg r n).length = 256 := length_padTo 256 _

theorem vreg_fallen (p : Program) (n : ℕ) (k : Task) : vreg (fallen p n k) = vreg k.regs := by
  unfold fallen
  rw [fallThrough_same (tmplOf p k.id) n k.regs]
  rfl

/-! ## Loads and stores -/

section
variable {cr : CoreRun} {i : Iw} {k : Task} {p : Program} {t : Tile} {row a : ℕ} {s : State}

/-- The row that a vector access names. -/
theorem vecRow_of (h : i.func = 0 ∧ row = (sOf k.regs i.fb).toNat ∧ row < t.rows ∨ i.func = 1 ∧ row = (sOf k.regs i.fb).toNat % t.rows) :
    vecRow t (i.func == 1) (sOf k.regs i.fb).toNat = some (t.row row) := by
  rcases h with ⟨hf, rfl, hlt⟩ | ⟨hf, rfl⟩
  · rw [hf]
    unfold vecRow vecRow.lineOf
    rw [if_neg (by decide), if_pos hlt]
    rfl
  · rw [hf]
    rfl

theorem vecLd_gives (hq : Quiet s) (htb : cr.tb = []) (hm : MayBegin 0x30 cr i k p s) (ht : t = tdOf k.regs i.fa) (he : t.empty = false)
    (hr : t.refused = false) (hlen : i.imm.toNat % 0x2000 + 256 ≤ t.rowBytes) (ha : a = t.row row + i.imm.toNat % 0x2000)
    (hrow : i.func = 0 ∧ row = (sOf k.regs i.fb).toNat ∧ row < t.rows ∨ i.func = 1 ∧ row = (sOf k.regs i.fb).toNat % t.rows)
    (hread : TileClean k.regs [(a, 256)]) : Gives (.vecLd cr i) s (stepped cr i k p (setV i.fd (tbRead k.regs a 256)) s) := by
  have hk : taskOf s k.id = some k := hm.2.2.2.1
  have hd : k.due = none := hm.2.2.2.2.2.2.1
  refine begins_gives (body := beginVecLd) (by unfold exec; rfl) hm (fun x q s => beginVecLd_setPending x q s) ?_ (quiet_stepped hq hd)
  unfold beginVecLd
  dsimp only
  rw [show (issueOf 0x30 cr i k p).r = k.regs from rfl, show (issueOf 0x30 cr i k p).i = i from rfl, ← ht, he, hr, decide_eq_false (Nat.not_lt.mpr hlen),
    vecRow_of hrow, if_neg Bool.false_ne_true, if_neg (by decide)]
  dsimp only
  rw [← ha, readTile_goes rfl htb hk hread]
  dsimp only
  rw [if_neg Bool.false_ne_true]
  exact complete_goes rfl rfl hk

theorem vecLd_faults (hm : MayBegin 0x30 cr i k p s) (ht : t = tdOf k.regs i.fa) (he : t.empty = false) (hf : i.func = 0)
    (hrow : t.rows ≤ (sOf k.regs i.fb).toNat) : GivesThen (.vecLd cr i) s (faulted k 2 Stat.length s) := by
  refine faults_givesThen (body := beginVecLd) (by unfold exec; rfl) hm (fun x q s => beginVecLd_setPending x q s) ?_
  have hnone : vecRow t (i.func == 1) (sOf k.regs i.fb).toNat = none := by
    rw [hf]
    unfold vecRow vecRow.lineOf
    rw [if_neg (by decide), if_neg (Nat.not_lt.mpr hrow)]
    rfl
  unfold beginVecLd
  dsimp only
  rw [show (issueOf 0x30 cr i k p).r = k.regs from rfl, show (issueOf 0x30 cr i k p).i = i from rfl, ← ht, he, hnone, if_neg Bool.false_ne_true]
  exact ite_self _

theorem vecSt_gives (hq : Quiet s) (htb : cr.tb = []) (hm : MayBegin 0x31 cr i k p s) (ht : t = tdOf k.regs i.fd) (he : t.empty = false)
    (hr : t.refused = false) (hmeet : t.rowsMeet = false) (hlen : i.imm.toNat % 0x2000 + 256 ≤ t.rowBytes) (ha : a = t.row row + i.imm.toNat % 0x2000)
    (hrow : i.func = 0 ∧ row = (sOf k.regs i.fb).toNat ∧ row < t.rows ∨ i.func = 1 ∧ row = (sOf k.regs i.fb).toNat % t.rows)
    (hfree : TileFree k.regs [(a, 256)]) : Gives (.vecSt cr i) s (stepped cr i k p (tbWrite a (vreg k.regs i.fa)) s) := by
  have hk : taskOf s k.id = some k := hm.2.2.2.1
  have hd : k.due = none := hm.2.2.2.2.2.2.1
  refine begins_gives (body := beginVecSt) (by unfold exec; rfl) hm (fun x q s => beginVecSt_setPending x q s) ?_ (quiet_stepped hq hd)
  unfold beginVecSt
  dsimp only
  rw [show (issueOf 0x31 cr i k p).r = k.regs from rfl, show (issueOf 0x31 cr i k p).i = i from rfl, ← ht, he, hr, hmeet,
    decide_eq_false (Nat.not_lt.mpr hlen), vecRow_of hrow, if_neg Bool.false_ne_true, if_neg (by decide)]
  dsimp only
  rw [← ha]
  exact storeRuns_goes rfl htb hk (by rw [List.map_singleton, length_vreg]) hfree

theorem vecMxp_gives {code : ℕ} {bs : List Byte} (hq : Quiet s) (htb : cr.tb = []) (hm : MayBegin 0x3C cr i k p s) (ht : t = tdOf k.regs i.fd)
    (hcode : code = i.imm.toNat % 32) (hmx : isMx code = true) (he : t.empty = false) (hr : t.refused = false) (hmeet : t.rowsMeet = false)
    (hrow : (sOf k.regs i.fb).toNat < t.rows) (hlen : rowBytesOf code ≤ t.rowBytes)
    (hbs : bs = mxRow code (((List.range (mxpRegs code)).map fun j => (vecLanes 0 (vreg k.regs (i.fa + j))).map (fget 0)).flatten))
    (hfree : TileFree k.regs [(t.row (sOf k.regs i.fb).toNat, bs.length)]) :
    Gives (.vecMxp cr i) s (stepped cr i k p (tbWrite (t.row (sOf k.regs i.fb).toNat) bs) s) := by
  have hk : taskOf s k.id = some k := hm.2.2.2.1
  have hd : k.due = none := hm.2.2.2.2.2.2.1
  refine begins_gives (body := beginVecMxp) (by unfold exec; rfl) hm (fun x q s => beginVecMxp_setPending x q s) ?_ (quiet_stepped hq hd)
  unfold beginVecMxp
  dsimp only
  rw [show (issueOf 0x3C cr i k p).r = k.regs from rfl, show (issueOf 0x3C cr i k p).i = i from rfl, ← hcode, ← ht, hmx, he, hr, hmeet,
    decide_eq_false (Nat.not_le.mpr hrow), decide_eq_false (Nat.not_lt.mpr hlen), ← hbs, if_neg (by decide), if_neg Bool.false_ne_true,
    if_neg (by decide)]
  exact storeRuns_goes rfl htb hk rfl hfree

theorem vecMxp_faults (hm : MayBegin 0x3C cr i k p s) (hmx : isMx (i.imm.toNat % 32) = false) :
    GivesThen (.vecMxp cr i) s (faulted k 2 Stat.badFormat s) := by
  refine faults_givesThen (body := beginVecMxp) (by unfold exec; rfl) hm (fun x q s => beginVecMxp_setPending x q s) ?_
  unfold beginVecMxp
  exact if_pos (by rw [show isMx ((issueOf 0x3C cr i k p).i.imm.toNat % 32) = false from hmx]; rfl)

theorem vecCvt_faults (hm : MayBegin 0x37 cr i k p s) (h : convertible (i.imm.toNat % 32) = false ∨ convertible (bits i.imm.toNat 8 5) = false) :
    GivesThen (.vecCvt cr i) s (faulted k 2 Stat.badFormat s) := by
  refine faults_givesThen (body := beginVecCvt) (by unfold exec; rfl) hm (fun x q s => beginVecCvt_setPending x q s) ?_
  unfold beginVecCvt
  refine if_pos ?_
  rw [Bool.or_eq_true, Bool.not_eq_true', Bool.not_eq_true']
  exact h

theorem vecCvt_gives (hq : Quiet s) (hm : MayBegin 0x37 cr i k p s) (hs : convertible (i.imm.toNat % 32) = true)
    (hd : convertible (bits i.imm.toNat 8 5) = true) : Gives (.vecCvt cr i) s (stepped cr i k p
      (setV i.fd (cvtVec (i.imm.toNat % 32) (bits i.imm.toNat 8 5) (i.imm.getLsbD 16) (vreg k.regs i.fa))) s) := by
  refine completes_gives (body := beginVecCvt)
    (g := fun r => setV i.fd (cvtVec (i.imm.toNat % 32) (bits i.imm.toNat 8 5) (i.imm.getLsbD 16) (vreg r i.fa)) r)
    (by unfold exec; rfl) hq hm (fun x q s => beginVecCvt_setPending x q s) ?_ (by rw [vreg_fallen])
  unfold beginVecCvt
  refine if_neg ?_
  rw [show convertible ((issueOf 0x37 cr i k p).i.imm.toNat % 32) = true from hs,
    show convertible (bits (issueOf 0x37 cr i k p).i.imm.toNat 8 5) = true from hd]
  decide

theorem vecRed_gives {n ty : ℕ} (hq : Quiet s) (hm : MayBegin 0x36 cr i k p s) (hty : ty = vecTy i) (hn : n = bits i.imm.toNat 4 6) :
    (n = 0 → Gives (.vecRed cr i) s (stepped cr i k p id s))
      ∧ (n ≠ 0 → Gives (.vecRed cr i) s (stepped cr i k p (setV i.fd (ofLanes ty
          (redTree (redOp i.func ty (i.imm.getLsbD 3)) 6 ((List.range n).map fun j =>
            redTree (redOp i.func ty (i.imm.getLsbD 3)) 9 (vecLanes ty (vreg k.regs (i.fa + j)))) :: List.replicate (laneCount ty - 1) 0))) s)) := by
  subst hty hn
  have hblind : ∀ x, Blind (beginVecRed x) := fun x q s => beginVecRed_setPending x q s
  refine ⟨fun h0 => completes_gives (g := id) (body := beginVecRed) (by unfold exec; rfl) hq hm hblind (if_pos h0) rfl,
    fun h0 => completes_gives (body := beginVecRed) (by unfold exec; rfl) hq hm hblind (if_neg h0) ?_⟩
  dsimp only
  rw [vreg_fallen]
  rfl

end

/-- Settles O36: the lane instructions from the vector registers as they stood, the others by the row that they name. -/
theorem vectorInstructions : Obligations.VectorInstructions := by
  intro cr i k p ty v s hq htb hty hv
  subst hty hv
  refine ⟨fun _ _ _ hm ht he hr hlen ha hrow hread => vecLd_gives hq htb hm ht he hr hlen ha hrow hread,
    fun _ hm ht he hf hrow => vecLd_faults hm ht he hf hrow,
    fun _ _ _ hm ht he hr hmeet hlen ha hrow hfree => vecSt_gives hq htb hm ht he hr hmeet hlen ha hrow hfree,
    fun hm => completes_gives (body := beginVecAlu) (by unfold exec; rfl) hq hm (fun x q s => beginVecAlu_setPending x q s) rfl ?_,
    fun hm => completes_gives (body := beginVecFma) (by unfold exec; rfl) hq hm (fun x q s => beginVecFma_setPending x q s) rfl ?_,
    fun hm => completes_gives (body := beginVecCmp) (by unfold exec; rfl) hq hm (fun x q s => beginVecCmp_setPending x q s) rfl ?_,
    fun hm => completes_gives (body := beginVecSel) (by unfold exec; rfl) hq hm (fun x q s => beginVecSel_setPending x q s) rfl ?_,
    fun _ hm hn => vecRed_gives hq hm rfl hn, fun hm hs hd => vecCvt_gives hq hm hs hd, fun hm h => vecCvt_faults hm h,
    fun hm => completes_gives (body := beginVecFn) (by unfold exec; rfl) hq hm (fun x q s => beginVecFn_setPending x q s) rfl ?_,
    fun hm => completes_gives (body := beginVecPerm) (by unfold exec; rfl) hq hm (fun x q s => beginVecPerm_setPending x q s) rfl ?_,
    fun hm => completes_gives (body := beginVecDup) (by unfold exec; rfl) hq hm (fun x q s => beginVecDup_setPending x q s) rfl rfl,
    fun hm => completes_gives (body := beginVecExt) (by unfold exec; rfl) hq hm (fun x q s => beginVecExt_setPending x q s) rfl ?_,
    fun _ _ _ hm ht hcode hmx he hr hmeet hrow hlen hbs hfree => vecMxp_gives hq htb hm ht hcode hmx he hr hmeet hrow hlen hbs hfree,
    fun hm h => vecMxp_faults hm h⟩
  all_goals
    dsimp only
    rw [vreg_fallen]
    rfl

end Sys2Proof.Machine
end

