-- ==== Sys2Proof/Proofs/TokRows.lean ====
section
/-! Engine jobs, and takes and signals of tokens. -/

namespace Sys2Proof.Machine

open Sys2Proof

/-! ## Events take no note of the tasks -/

/-- The state with other tasks. -/
def setTasks (l : List Task) (s : State) : State := { s with tasks := l }

theorem ite_setTasks (c : Prop) [Decidable c] (l : List Task) (a b : State) :
    (if c then setTasks l a else setTasks l b) = setTasks l (if c then a else b) := by split <;> rfl

theorem foldl_setTasks {α : Type} (f : State → α → State) (h : ∀ l s a, f (setTasks l s) a = setTasks l (f s a)) (xs : List α)
    (l : List Task) (s : State) : xs.foldl f (setTasks l s) = setTasks l (xs.foldl f s) :=
  List.foldl_hom (setTasks l) (fun s a => h l s a)

theorem rd_setTasks (l : List Task) (s : State) (r : ℕ) : rd (setTasks l s) r = rd s r := rfl

theorem rdF_setTasks (l : List Task) (s : State) (r b w : ℕ) : rdF (setTasks l s) r b w = rdF s r b w := rfl

theorem wr_setTasks (r v : ℕ) (l : List Task) (s : State) : wr r v (setTasks l s) = setTasks l (wr r v s) := rfl

theorem setFlag_setTasks (r b : ℕ) (l : List Task) (s : State) : setFlag r b (setTasks l s) = setTasks l (setFlag r b s) := rfl

theorem bump_setTasks (r b : ℕ) (l : List Task) (s : State) : bump r b (setTasks l s) = setTasks l (bump r b s) := rfl

theorem modEng_setTasks (f : Engines → Engines) (l : List Task) (s : State) : modEng f (setTasks l s) = setTasks l (modEng f s) := rfl

theorem ringPut_setTasks (r i : ℕ) (hd : Bool) (e : List Byte) (l : List Task) (s : State) :
    ringPut r i hd e (setTasks l s) = setTasks l (ringPut r i hd e s) := rfl

theorem writeBack_setTasks (i v : ℕ) (l : List Task) (s : State) : writeBack i v (setTasks l s) = setTasks l (writeBack i v s) := by
  unfold writeBack
  rw [← ite_setTasks, ← ite_setTasks]
  rfl

theorem raiseVec_setTasks (v : ℕ) (l : List Task) (s : State) : raiseVec v (setTasks l s) = setTasks l (raiseVec v s) := by
  unfold raiseVec
  rw [← ite_setTasks]
  rfl

theorem ringPart_setTasks (r : ℕ) (bs : List Byte) (k : ℕ) (l : List Task) (s : State) :
    ringPart r bs k (setTasks l s) = setTasks l (ringPart r bs k s) := foldl_setTasks _ (fun _ _ _ => rfl) _ _ _

theorem ringWrite_setTasks (r : ℕ) (bs : List Byte) (l : List Task) (s : State) : ringWrite r bs (setTasks l s) = setTasks l (ringWrite r bs s) := by
  unfold ringWrite
  simp only [rd_setTasks, rdF_setTasks, ringPart_setTasks, ringPut_setTasks, wr_setTasks, writeBack_setTasks, raiseVec_setTasks]

theorem writeEvent_setTasks (cls code ref pos st : ℕ) (d : List Byte) (l : List Task) (s : State) :
    writeEvent cls code ref pos st d (setTasks l s) = setTasks l (writeEvent cls code ref pos st d s) := by
  unfold writeEvent
  rw [ringWrite_setTasks, show (setTasks l s).tim = s.tim from rfl, show (setTasks l s).led = s.led from rfl]
  rfl

theorem flushDropped_setTasks (l : List Task) (s : State) : flushDropped (setTasks l s) = setTasks l (flushDropped s) := by
  unfold flushDropped
  rw [← ite_setTasks]
  exact congrArg (fun t => if s.led.evtDropped ≠ 0 ∧ ringFree s 2 ≠ 0 then t else setTasks l s)
    (congrArg (modLed _) (writeEvent_setTasks 5 1 0 0 0 _ l s))

theorem flushLoss_setTasks (l : List Task) (s : State) : flushLoss (setTasks l s) = setTasks l (flushLoss s) := by
  unfold flushLoss
  rw [show (setTasks l s).led = s.led from rfl]
  cases s.led.heldLoss with
  | none => rfl
  | some h =>
    dsimp only
    rw [← ite_setTasks, writeEvent_setTasks]
    rfl

theorem flushRelease_setTasks (l : List Task) (s : State) : flushRelease (setTasks l s) = setTasks l (flushRelease s) := by
  unfold flushRelease
  rw [show (setTasks l s).led = s.led from rfl]
  cases s.led.heldReleases with
  | nil => rfl
  | cons e rest =>
    dsimp only
    rw [← ite_setTasks, writeEvent_setTasks]
    rfl

theorem flushEvents_setTasks (l : List Task) (s : State) : flushEvents (setTasks l s) = setTasks l (flushEvents s) := by
  unfold flushEvents
  rw [flushDropped_setTasks, flushLoss_setTasks, foldl_setTasks]
  intro l s a
  rw [flushRelease_setTasks, flushLoss_setTasks]

theorem postEvent_setTasks (cls code ref pos st : ℕ) (d : List Byte) (l : List Task) (s : State) :
    postEvent cls code ref pos st d (setTasks l s) = setTasks l (postEvent cls code ref pos st d s) := by
  unfold postEvent
  rw [flushEvents_setTasks]
  dsimp only
  rw [← ite_setTasks, writeEvent_setTasks]
  rfl

theorem lowWater_setTasks (h i : ℕ) (l : List Task) (s : State) : lowWater h i (setTasks l s) = setTasks l (lowWater h i s) := by
  unfold lowWater
  rw [show tokOf (setTasks l s) h i = tokOf s h i from rfl]
  cases tokOf s h i with
  | none => rfl
  | some k =>
    dsimp only
    refine foldl_setTasks _ (fun l s c => ?_) _ l s
    rw [← ite_setTasks, ← ite_setTasks]
    simp only [modEng_setTasks, setFlag_setTasks, bump_setTasks, postEvent_setTasks]

theorem lowWater_goes (h i : ℕ) (t : TaskId) (s : State) : lowWater h i (goes t s) = goes t (lowWater h i s) := by
  have hgoes (u : State) (hu : u.tasks = s.tasks) : goes t u = setTasks (goes t s).tasks u := by
    unfold goes modTask
    rw [hu]
    rfl
  rw [hgoes s rfl, lowWater_setTasks, hgoes _ (lowWater_tasks h i s)]

/-! ## Waits -/

section
variable {cr : CoreRun} {i : Iw} {k : Task} {p : Program} {op : ℕ} {mm : Bool} {x : Issue} {s : State}

/-- An instruction that has just been decoded waits behind those of its task that wait. -/
theorem beginWait_goes {q : ℕ} {w : Wait} (hx : x = issueOf op cr i k p mm) (hk : taskOf s k.id = some k) :
    beginWait x q w (goes k.id s) = waitsFor i k p q w s := by
  subst hx
  have hwaits {u : State} {f : Task → Task} (hf : f { k with st := .running, held := none } = waitingTask p i q w s.stamp k)
      (hu : u = { goes k.id s with stamp := s.stamp + 1 }) : modTask k.id f u = waitsFor i k p q w s := by
    subst hu
    show modTask k.id f (modTask k.id _ { s with stamp := s.stamp + 1 }) = _
    rw [modTask_modTask (by intro; rfl)]
    exact modTask_congr (s := { s with stamp := s.stamp + 1 }) (g := fun _ => waitingTask p i q w s.stamp k) hk hf
  unfold beginWait
  dsimp only [issueOf]
  rw [taskOf_goes hk]
  dsimp only [Option.elim_some]
  refine (if_neg Bool.false_ne_true).trans ?_
  by_cases hq : q = 0
  · rw [if_pos hq, modTask_modTask (by intro; rfl)]
    refine hwaits ?_ rfl
    unfold waitingTask
    rw [if_pos hq]
    rfl
  · rw [if_neg hq]
    refine hwaits ?_ rfl
    unfold waitingTask
    rw [if_neg hq]
    rfl

theorem quiet_waitsFor {q : ℕ} {w : Wait} (hq : Quiet s) (hd : k.due = none) : Quiet (waitsFor i k p q w s) := by
  intro y hy he
  rcases mem_updFirst hy with hy | ⟨z, -, rfl⟩
  · exact hq y hy he
  · unfold waitingTask
    dsimp only
    split <;> exact hd

end

/-! ## The queue behind jobs and tokens -/

theorem waitGlobal_blind (x : Issue) (h tok : ℕ) (k : Token) : Blind (waitGlobal x h tok k) := by
  intro q s
  unfold waitGlobal
  extract_lets i item sd pc amt done clear
  have hclear' : ∀ q s, clear (setPending q s) = setPending q (clear s) := by
    intro q s
    dsimp only [clear, sd]
    split <;> rfl
  clear_value done clear
  rw [show itemEnded (setPending q s) = itemEnded s from rfl]
  split
  · exact complete_setPending _ _ _ _
  split
  · rw [hclear', complete_setPending]
  split
  · split
    · exact faultAt_setPending _ _ _ _ _
    · refine withRoom_setPending x (fun q s => ?_) q s
      simp only [modTok_setPending, lowWater_setPending, hclear', record_setPending, complete_setPending, settleToken_setPending]
  · refine withRoom_setPending x (fun q s => ?_) q s
    simp only [modTok_setPending, beginWait_setPending]

theorem beginTokWait_blind (x : Issue) : Blind (beginTokWait x) := by
  intro q s
  unfold beginTokWait
  dsimp only
  rw [show tokOf (setPending q s) = tokOf s from rfl]
  split
  · cases tokOf s x.p.handle (tokIndex x) with
    | none => rfl
    | some k => exact waitGlobal_blind x _ _ k q s
  · split
    · exact complete_setPending _ _ _ _
    · exact beginWait_setPending _ _ _ _ _

theorem beginTokSig_blind (x : Issue) : Blind (beginTokSig x) := by
  intro q s
  unfold beginTokSig
  dsimp only
  rw [matchSignal_setPending]
  split
  · cases matchSignal x.t s with
    | some t => exact complete_setPending _ _ _ _
    | none =>
      dsimp only [Option.map_none]
      rw [signal_setPending]
      generalize signal x.p.handle (tokIndex x) (tokAmt x.i) _ _ s = r
      obtain ⟨r, t⟩ := r
      cases r with
      | waits => exact beginWait_setPending _ _ _ _ _
      | done st =>
        dsimp only
        split
        · exact complete_setPending x id q (modTask x.t (fun k => { k with rec_ := { k.rec_ with sigs := k.rec_.sigs + 1 } }) t)
        · exact faultAt_setPending _ _ _ _ _
  · split
    · exact faultAt_setPending _ _ _ _ _
    · rw [complete_setPending, serveLocal_setPending]

theorem beginEngEnq_blind (x : Issue) : Blind (beginEngEnq x) := by
  intro q s
  have hmatch : jobsToMatch (setPending q s) x.t x.i.func = jobsToMatch s x.t x.i.func := rfl
  unfold beginEngEnq
  dsimp only
  rw [hmatch, matchJobs_setPending]
  generalize min (sOf x.r x.i.fb).toNat _ = m
  generalize matchJobs x.t x.i.func m s = t
  generalize (aOf x.r x.i.fa + BitVec.ofInt 40 (sext x.i)).toNat + 64 * m = a
  generalize (sOf x.r x.i.fb).toNat - m = n
  rw [show allocated (setPending q t) = allocated t from rfl, readMem_setPending]
  generalize readMem a (64 * n) x.cr.sq t = r
  obtain ⟨d, u⟩ := r
  dsimp only
  rw [show jobTokenOk (setPending q u) = jobTokenOk u from rfl]
  split
  · exact complete_setPending _ _ _ _
  split
  · exact faultAt_setPending _ _ _ _ _
  split
  · exact faultTransfer_setPending _ _ _ _
  split
  · exact faultAt_setPending _ _ _ _ _
  split
  · exact faultTransfer_setPending _ _ _ _
  split
  · exact faultAt_setPending _ _ _ _ _
  split
  · exact faultAt_setPending _ _ _ _ _
  · exact withRoomFor_setPending x _ (fun q s => enqLoop_setPending _ _ _ _ q s) _ _

/-! ## Jobs -/

section
variable {cr : CoreRun} {i : Iw} {k : Task} {p : Program} {n a : ℕ} {s : State}

theorem jobsToMatch_goes {kind : ℕ} (hk : taskOf s k.id = some k) :
    jobsToMatch (goes k.id s) k.id kind = k.match_.entries.countP fun e => e == .enq kind := by
  unfold jobsToMatch
  rw [taskOf_goes hk]
  rfl

theorem descriptors_devGet (n a : ℕ) (s : State) : descriptors n (devGet s a (64 * n)) = (List.range n).map fun j => devGet s (a + 64 * j) 64 := by
  induction n generalizing a with
  | zero => rfl
  | succ n ih =>
    have hcut : devGet s a (64 * (n + 1)) = devGet s a 64 ++ devGet s (a + 64) (64 * n) := by
      unfold devGet
      rw [memRead_eq, memRead_eq, memRead_eq, show 64 * (n + 1) = 64 + 64 * n by ring, List.range_add, List.map_append, List.map_map]
      refine congrArg₂ (· ++ ·) rfl (List.map_congr_left fun j _ => ?_)
      rw [Function.comp_apply, Nat.add_assoc]
    have hlen : (devGet s a 64).length = 64 := length_devGet s a 64
    unfold descriptors
    rw [hcut, List.take_left' hlen, List.drop_left' hlen, ih, List.range_succ_eq_map, List.map_cons, List.map_map]
    refine congrArg₂ List.cons rfl (List.map_congr_left fun j _ => ?_)
    rw [Function.comp_apply, Nat.mul_succ, Nat.add_comm (64 * j), ← Nat.add_assoc]

theorem engEnq_none (hq : Quiet s) (hm : MayBegin 0x40 cr i k p s) (h0 : (sOf k.regs i.fb).toNat = 0) :
    Gives (.engEnq cr i) s (stepped cr i k p id s) := by
  refine completes_gives (g := id) (body := beginEngEnq) (by unfold exec; rfl) hq hm beginEngEnq_blind ?_ rfl
  unfold beginEngEnq
  dsimp only
  rw [show (issueOf 0x40 cr i k p).r = k.regs from rfl, show (issueOf 0x40 cr i k p).i = i from rfl, h0, Nat.zero_min]
  exact if_pos rfl

theorem quiet_matchJobs {t : TaskId} {kind m : ℕ} (hq : Quiet s) : Quiet (matchJobs t kind m s) := by
  induction m generalizing s with
  | zero => exact hq
  | succ m ih =>
    unfold matchJobs matchEntry
    cases (taskOf s t).bind fun k => k.match_.entries.find? fun e => e == .enq kind with
    | none => exact hq
    | some e => exact ih (quiet_modTask hq (by intro; rfl) (by intro; rfl))

theorem quiet_complete {x : Issue} {g : TaskRegs → TaskRegs} (hq : Quiet s) : Quiet (complete x g s) := by
  unfold complete completeN
  exact (quiet_modTask hq (by intro; rfl) (by intro; rfl)).of_tasks rfl

theorem engEnq_matched (hq : Quiet s) (hm : MayBegin 0x40 cr i k p s) (hn : n = (sOf k.regs i.fb).toNat)
    (hmatch : n ≤ k.match_.entries.countP (fun e => e == .enq i.func)) :
    Gives (.engEnq cr i) s (complete (issueOf 0x40 cr i k p) id (matchJobs k.id i.func n (goes k.id s))) := by
  have hk : taskOf s k.id = some k := hm.2.2.2.1
  refine begins_gives (body := beginEngEnq) (by unfold exec; rfl) hm beginEngEnq_blind ?_ (quiet_complete (quiet_matchJobs ?_))
  · unfold beginEngEnq
    dsimp only
    rw [show (issueOf 0x40 cr i k p).r = k.regs from rfl, show (issueOf 0x40 cr i k p).i = i from rfl, show (issueOf 0x40 cr i k p).t = k.id from rfl,
      ← hn, jobsToMatch_goes hk, Nat.min_eq_left hmatch, Nat.sub_self]
    exact if_pos rfl
  · exact quiet_modTask hq (by intro; rfl) (by intro; rfl)

end

/-- A task whose recovery record holds more entries. -/
def withEntries (es : List RecEntry) (k : Task) : Task := { k with rec_ := { k.rec_ with entries := k.rec_.entries ++ es } }

theorem withEntries_withEntries (es fs : List RecEntry) (k : Task) : withEntries fs (withEntries es k) = withEntries (es ++ fs) k := by
  unfold withEntries
  dsimp only
  rw [List.append_assoc]

section
variable {cr : CoreRun} {i : Iw} {k : Task} {p : Program} {n a : ℕ} {x : Issue} {kind : ℕ} {ds : List (List Byte)} {s : State}

theorem jobsInUse_queueJob (d : List Byte) (t : TaskId) (part : ℕ) (s : State) :
    jobsInUse (queueJob kind d t part s) kind = jobsInUse s kind + 1 := by
  unfold jobsInUse
  have hjobs : ((queueJob kind d t part s).eng.jobs.filter fun j => j.kind == kind).length = (s.eng.jobs.filter fun j => j.kind == kind).length + 1 := by
    show ((s.eng.jobs ++ [_]).filter _).length = _
    rw [List.filter_append, List.length_append]
    simp
  rw [hjobs, show (queueJob kind d t part s).eng.running = s.eng.running from rfl,
    show periodicJobs (queueJob kind d t part s) = periodicJobs s from rfl]
  omega

/-- Descriptors that all find a free entry. -/
theorem enqLoop_fits (h : jobsInUse s kind + ds.length ≤ jobShare kind) : enqLoop x kind a ds s
      = complete x id (ds.foldl (fun s d => record x.t (.enq kind) (queueJob kind d x.t x.p.part s)) s) := by
  induction ds generalizing a s with
  | nil => rfl
  | cons d ds ih =>
    rw [List.length_cons] at h
    unfold enqLoop
    rw [if_neg (by omega), List.foldl_cons]
    refine ih ?_
    rw [show jobsInUse (record x.t (.enq kind) (queueJob kind d x.t x.p.part s)) kind = jobsInUse (queueJob kind d x.t x.p.part s) kind from rfl,
      jobsInUse_queueJob]
    omega

theorem enqLoop_full {d : List Byte} (h : jobShare kind ≤ jobsInUse s kind) :
    enqLoop x kind a (d :: ds) s = beginWait x 3 (.enq kind a (ds.length + 1)) s := by
  unfold enqLoop
  exact if_pos h

/-- The jobs and the entries of the recovery record that a run of descriptors leaves. -/
theorem foldl_recordJobs {t : TaskId} {part : ℕ} {f : Task → Task} (hf : ∀ k, (f k).id = k.id) :
    ds.foldl (fun s d => record t (.enq kind) (queueJob kind d t part s)) (modTask t f s)
      = modTask t (fun k => withEntries (List.replicate ds.length (.enq kind)) (f k)) (ds.foldl (fun s d => queueJob kind d t part s) s) := by
  induction ds generalizing f s with
  | nil =>
    unfold withEntries
    simp
  | cons d ds ih =>
    rw [List.foldl_cons, List.foldl_cons]
    have hstep : record t (.enq kind) (queueJob kind d t part (modTask t f s)) = modTask t (fun k => withEntries [.enq kind] (f k)) (queueJob kind d t part s) :=
      modTask_modTask (f := f) (g := withEntries [.enq kind]) (s := queueJob kind d t part s) hf
    rw [hstep, ih (f := fun k => withEntries [.enq kind] (f k)) (fun k => hf k)]
    simp only [withEntries_withEntries, List.length_cons, List.replicate_succ, List.singleton_append]

theorem queueJobs_tasks {t : TaskId} {part : ℕ} : (ds.foldl (fun s d => queueJob kind d t part s) s).tasks = s.tasks :=
  foldl_keeps State.tasks (f := fun s d => queueJob kind d t part s) (fun _ _ => rfl) ds s

/-- What `eng.enq` does with descriptors that it can read, where the recovery record matches none. -/
theorem beginEngEnq_read (hsq : cr.sq = []) (hk : taskOf s k.id = some k) (hn : n = (sOf k.regs i.fb).toNat) (h0 : 0 < n) (h64 : n ≤ 64)
    (ha : a = (aOf k.regs i.fa + BitVec.ofInt 40 (sext i)).toNat) (hend : a + 64 * n ≤ 0x20000000) (hal : allocated s a (64 * n) = true)
    (hpoison : poisonHit s.sq.poison a (64 * n) = false) (hds : ds = (List.range n).map fun j => devGet s (a + 64 * j) 64)
    (hnone : k.match_.entries.find? (fun e => e == .enq i.func) = none) :
    beginEngEnq (issueOf 0x40 cr i k p) (goes k.id s)
      = if ds.any (fun d => !jobTokenOk s k.id i.func d) then faultAt (issueOf 0x40 cr i k p) 3 Stat.badFormat (goes k.id s)
        else withRoomFor (issueOf 0x40 cr i k p) n (enqLoop (issueOf 0x40 cr i k p) i.func a ds) (goes k.id s) := by
  have hcount : k.match_.entries.countP (fun e => e == .enq i.func) = 0 := List.countP_eq_zero.mpr (List.find?_eq_none.mp hnone)
  unfold beginEngEnq
  dsimp only
  rw [show (issueOf 0x40 cr i k p).r = k.regs from rfl, show (issueOf 0x40 cr i k p).i = i from rfl, show (issueOf 0x40 cr i k p).t = k.id from rfl,
    show (issueOf 0x40 cr i k p).cr.sq = [] from hsq, ← hn, ← ha, jobsToMatch_goes hk, hcount, Nat.min_zero, Nat.mul_zero, Nat.add_zero, Nat.sub_zero]
  have hread : readMem a (64 * n) [] (goes k.id s) = ({ status := Stat.ok, data := devGet s a (64 * n) }, goes k.id s) := readMem_clean hpoison
  rw [if_neg (by omega), if_neg (by omega), if_neg (by omega), if_neg (by omega)]
  unfold matchJobs
  rw [show allocated (goes k.id s) = allocated s from rfl, hal, hread]
  dsimp only
  rw [if_neg (by decide), if_neg (fun h => h rfl), descriptors_devGet, ← hds]
  rfl

end

section
variable {cr : CoreRun} {i : Iw} {k : Task} {p : Program} {n a : ℕ} {ds : List (List Byte)} {s : State}

theorem withRoomFor_goes {x : Issue} {f : State → State} (ht : x.t = k.id) (hk : taskOf s k.id = some k) (hr : RecordRoom k n) :
    withRoomFor x n f (goes k.id s) = f (goes k.id s) := by
  unfold withRoomFor
  rw [ht, taskOf_goes hk]
  refine if_pos ?_
  rw [Bool.or_eq_true]
  exact .inr (decide_eq_true hr)

theorem withRoom_goes {x : Issue} {f : State → State} (ht : x.t = k.id) (hk : taskOf s k.id = some k) (hr : RecordRoom k 1) :
    withRoom x f (goes k.id s) = f (goes k.id s) := withRoomFor_goes ht hk hr

theorem engEnq_gives (hq : Quiet s) (hsq : cr.sq = []) (hm : MayBegin 0x40 cr i k p s) (hn : n = (sOf k.regs i.fb).toNat) (h0 : 0 < n) (h64 : n ≤ 64)
    (ha : a = (aOf k.regs i.fa + BitVec.ofInt 40 (sext i)).toNat) (hend : a + 64 * n ≤ 0x20000000) (hal : allocated s a (64 * n) = true)
    (hpoison : poisonHit s.sq.poison a (64 * n) = false) (hds : ds = (List.range n).map fun j => devGet s (a + 64 * j) 64)
    (hok : ∀ d ∈ ds, jobTokenOk s k.id i.func d = true) (hnone : k.match_.entries.find? (fun e => e == .enq i.func) = none) (hroom : RecordRoom k n) :
    (jobsInUse s i.func + n ≤ jobShare i.func →
        Gives (.engEnq cr i) s (recorded cr i k p (List.replicate n (.enq i.func)) id
          (ds.foldl (fun s d => queueJob i.func d k.id p.part s) s)))
      ∧ (jobShare i.func ≤ jobsInUse s i.func → Gives (.engEnq cr i) s (waitsFor i k p 3 (.enq i.func a n) s)) := by
  have hk : taskOf s k.id = some k := hm.2.2.2.1
  have hd : k.due = none := hm.2.2.2.2.2.2.1
  have hlen : ds.length = n := by
    rw [hds, List.length_map, List.length_range]
  have hbody : beginEngEnq (issueOf 0x40 cr i k p) (goes k.id s) = enqLoop (issueOf 0x40 cr i k p) i.func a ds (goes k.id s) := by
    rw [beginEngEnq_read hsq hk hn h0 h64 ha hend hal hpoison hds hnone,
      any_eq_false_of fun d hmem => by rw [hok d hmem]; rfl, if_neg Bool.false_ne_true]
    exact withRoomFor_goes rfl hk hroom
  refine ⟨fun hfit => ?_, fun hfull => begins_gives (body := beginEngEnq) (by unfold exec; rfl) hm beginEngEnq_blind ?_ (quiet_waitsFor hq hd)⟩
  · have hkeep : (ds.foldl (fun s d => queueJob i.func d k.id p.part s) s).tasks = s.tasks := queueJobs_tasks
    have hkt : taskOf (ds.foldl (fun s d => queueJob i.func d k.id p.part s) s) k.id = some k := by
      unfold taskOf
      rw [hkeep]
      exact hk
    refine begins_gives (body := beginEngEnq) (by unfold exec; rfl) hm beginEngEnq_blind ?_ (quiet_putDone (hq.of_tasks hkeep) hd)
    rw [hbody, enqLoop_fits (by rw [hlen]; exact hfit), show (issueOf 0x40 cr i k p).t = k.id from rfl, show (issueOf 0x40 cr i k p).p = p from rfl]
    unfold goes
    rw [foldl_recordJobs (by intro; rfl), hlen, complete_modTask rfl rfl hkt (by intro; rfl) rfl]
    rfl
  · obtain ⟨d, ds, rfl⟩ := List.exists_cons_of_length_pos (hlen.symm ▸ h0)
    rw [hbody, enqLoop_full (s := goes k.id s) hfull, ← List.length_cons, hlen]
    exact beginWait_goes rfl hk

theorem engEnq_refused {j : ℕ} (hsq : cr.sq = []) (hm : MayBegin 0x40 cr i k p s) (hn : n = (sOf k.regs i.fb).toNat) (h64 : n ≤ 64)
    (hnone : k.match_.entries.find? (fun e => e == .enq i.func) = none) (ha : a = (aOf k.regs i.fa + BitVec.ofInt 40 (sext i)).toNat)
    (hend : a + 64 * n ≤ 0x20000000) (hal : allocated s a (64 * n) = true) (hpoison : poisonHit s.sq.poison a (64 * n) = false) (hj : j < n)
    (hbad : jobTokenOk s k.id i.func (devGet s (a + 64 * j) 64) = false) : GivesThen (.engEnq cr i) s (faulted k 3 Stat.badFormat s) := by
  have hk : taskOf s k.id = some k := hm.2.2.2.1
  refine faults_givesThen (body := beginEngEnq) (by unfold exec; rfl) hm beginEngEnq_blind ?_
  rw [beginEngEnq_read hsq hk hn (by omega) h64 ha hend hal hpoison rfl hnone]
  refine if_pos (List.any_eq_true.mpr ⟨_, List.mem_map_of_mem (List.mem_range.mpr hj), ?_⟩)
  rw [hbad]
  rfl

end

/-! ## Local tokens -/

section
variable {cr : CoreRun} {i : Iw} {k : Task} {p : Program} {n amt : ℕ} {s : State}

theorem localOf_fallen (p : Program) (n : ℕ) (k : Task) : localOf (fallen p n k) = localOf k.regs := by
  unfold fallen
  rw [fallThrough_same (tmplOf p k.id) n k.regs]
  rfl

theorem tokIndex_local {op : ℕ} (hf : i.func = 0) : tokIndex (issueOf op cr i k p) = i.imm.toNat % 64 := by
  unfold tokIndex
  exact if_neg (by rw [show (issueOf op cr i k p).i.func = 0 from hf]; decide)

theorem tokWait_local (hq : Quiet s) (hn : n = i.imm.toNat % 64) (ha : amt = tokAmt i) (hf : i.func = 0) (hm : MayBegin 0x50 cr i k p s) :
    (amt ≤ localOf k.regs n → k.waits.any (fun w => isLocal n w.w) = false →
        Gives (.tokWait cr i) s (stepped cr i k p (setLocal n (localOf k.regs n - amt)) s))
      ∧ (amt ≠ 0 → localOf k.regs n < amt → Gives (.tokWait cr i) s (waitsFor i k p i.q (.localTake n amt) s)) := by
  have hk : taskOf s k.id = some k := hm.2.2.2.1
  have hd : k.due = none := hm.2.2.2.2.2.2.1
  have hbody : beginTokWait (issueOf 0x50 cr i k p) (goes k.id s)
      = if amt = 0 ∨ (amt ≤ localOf k.regs n ∧ k.waits.any (fun w => isLocal n w.w) = false) then
          complete (issueOf 0x50 cr i k p) (fun r => setLocal n (localOf r n - amt) r) (goes k.id s)
        else beginWait (issueOf 0x50 cr i k p) i.q (.localTake n amt) (goes k.id s) := by
    unfold beginTokWait
    dsimp only
    rw [tokIndex_local hf, ← hn, show tokAmt (issueOf 0x50 cr i k p).i = amt from ha.symm, show (issueOf 0x50 cr i k p).i.func = 0 from hf]
    rfl
  refine ⟨fun hle hno => completes_gives (body := beginTokWait) (by unfold exec; rfl) hq hm beginTokWait_blind (hbody.trans (if_pos (.inr ⟨hle, hno⟩))) ?_,
    fun h0 hlt => begins_gives (body := beginTokWait) (by unfold exec; rfl) hm beginTokWait_blind ?_ (quiet_waitsFor hq hd)⟩
  · rw [localOf_fallen]
  · rw [hbody, if_neg (by omega)]
    exact beginWait_goes rfl hk

theorem tokSig_local (hn : n = i.imm.toNat % 64) (ha : amt = tokAmt i) (hf : i.func = 0) (hm : MayBegin 0x51 cr i k p s) :
    (localOf k.regs n + amt ≤ 65535 →
        GivesThen (.tokSig cr i) s (serveLocal k.id n k.waits.length (stepped cr i k p (setLocal n (localOf k.regs n + amt)) s)))
      ∧ (65535 < localOf k.regs n + amt → GivesThen (.tokSig cr i) s (faulted k i.q Stat.tokenOverflow s)) := by
  have hk : taskOf s k.id = some k := hm.2.2.2.1
  have hbody : beginTokSig (issueOf 0x51 cr i k p) (goes k.id s)
      = if 65535 < localOf k.regs n + amt then faultAt (issueOf 0x51 cr i k p) i.q Stat.tokenOverflow (goes k.id s)
        else serveLocal k.id n k.waits.length (complete (issueOf 0x51 cr i k p) (fun r => setLocal n (localOf r n + amt) r) (goes k.id s)) := by
    unfold beginTokSig
    dsimp only
    rw [tokIndex_local hf, ← hn, show tokAmt (issueOf 0x51 cr i k p).i = amt from ha.symm, show (issueOf 0x51 cr i k p).i.func = 0 from hf]
    rfl
  refine ⟨fun hle => begins_givesThen (body := beginTokSig) (by unfold exec; rfl) hm beginTokSig_blind ?_,
    fun hlt => faults_givesThen (body := beginTokSig) (by unfold exec; rfl) hm beginTokSig_blind (hbody.trans (if_pos hlt))⟩
  rw [hbody, if_neg (by omega), complete_goes rfl rfl hk]
  refine congrArg (serveLocal k.id n k.waits.length) (stepped_congr ?_)
  rw [localOf_fallen]

theorem tokTry_local (hq : Quiet s) (hn : n = i.imm.toNat % 64) (ha : amt = tokAmt i) (hf : i.func = 0) (hm : MayBegin 0x52 cr i k p s) :
    (amt ≤ localOf k.regs n →
          Gives (.tokTry cr i) s (stepped cr i k p (fun r => setP i.fd true (setLocal n (localOf k.regs n - amt) r)) s))
      ∧ (localOf k.regs n < amt → Gives (.tokTry cr i) s (stepped cr i k p (setP i.fd false) s)) := by
  have hbody : beginTokTry (issueOf 0x52 cr i k p) (goes k.id s) = complete (issueOf 0x52 cr i k p)
      (fun r => if amt ≤ localOf r n then setP i.fd true (setLocal n (localOf r n - amt) r) else setP i.fd false r) (goes k.id s) := by
    unfold beginTokTry
    dsimp only
    rw [tokIndex_local hf, ← hn, show tokAmt (issueOf 0x52 cr i k p).i = amt from ha.symm]
    rfl
  have hblind : ∀ x, Blind (beginTokTry x) := fun x q s => beginTokTry_setPending x q s
  refine ⟨fun hle => completes_gives (body := beginTokTry) (by unfold exec; rfl) hq hm hblind hbody ?_,
    fun hlt => completes_gives (body := beginTokTry) (by unfold exec; rfl) hq hm hblind hbody ?_⟩
  · rw [localOf_fallen, if_pos hle]
  · rw [localOf_fallen, if_neg (Nat.not_le.mpr hlt)]

end

/-! ## Global tokens -/

section
variable {cr : CoreRun} {i : Iw} {k : Task} {p : Program} {n amt : ℕ} {tk : Token} {item : Option Word} {s : State}

theorem tokIndex_global {op : ℕ} (hf : i.func.testBit 0 = true) :
    tokIndex (issueOf op cr i k p) = i.imm.toNat % 4096 + k.id.inst * bits i.imm.toNat 12 12 := by
  unfold tokIndex
  exact if_pos hf

theorem beginTokWait_global (hf : i.func.testBit 0 = true) (hn : n = i.imm.toNat % 4096 + k.id.inst * bits i.imm.toNat 12 12)
    (htk : tokOf s p.handle n = some tk) :
    beginTokWait (issueOf 0x50 cr i k p) (goes k.id s) = waitGlobal (issueOf 0x50 cr i k p) p.handle n tk (goes k.id s) := by
  unfold beginTokWait
  dsimp only
  rw [tokIndex_global hf, ← hn, show tokOf (goes k.id s) (issueOf 0x50 cr i k p).p.handle n = some tk from htk]
  exact if_pos hf

/-- What a take writes of the task's registers once it ends well. -/
def takenRegs (i : Iw) (latch : ℕ) (r : TaskRegs) : TaskRegs :=
  (fun r => if i.func.testBit 1 then setP i.fc true r else r) (if i.func.testBit 2 then setSN i.fd latch r else r)

/-- A take that reads the latch clears it. -/
def clearLatch (i : Iw) (h tok : ℕ) (s : State) : State := if i.func.testBit 2 then modTok h tok (fun k => { k with latch := 0 }) s else s

theorem waitGlobal_cases {h : ℕ} (ha : amt = tokAmt i) (hitem : item = if i.func.testBit 1 then some ((sOf k.regs i.fa).setWidth 32) else none) :
    waitGlobal (issueOf 0x50 cr i k p) h n tk (goes k.id s)
      = if item.elim false (itemEnded s) = true then
          complete (issueOf 0x50 cr i k p) (fun r => if i.func.testBit 1 then setP i.fc false r else r) (goes k.id s)
        else if amt = 0 then complete (issueOf 0x50 cr i k p) (takenRegs i tk.latch) (clearLatch i h n (goes k.id s))
        else if amt ≤ drawn tk item && !tk.waiters.any (fun w => w.item == item) then
          if tk.jobTmpl.isSome && latchFaults tk.latch then faultAt (issueOf 0x50 cr i k p) i.q tk.latch (goes k.id s)
          else withRoom (issueOf 0x50 cr i k p) (fun s =>
            settleToken h n (complete (issueOf 0x50 cr i k p) (takenRegs i tk.latch) (record k.id (.take n amt item Stat.ok)
              (clearLatch i h n (lowWater h n (modTok h n (fun k => takeFrom k item amt) s)))))) (goes k.id s)
        else withRoom (issueOf 0x50 cr i k p) (fun s =>
          beginWait (issueOf 0x50 cr i k p) i.q
            (.take n amt item (if i.func.testBit 2 then some i.fd else none) (if i.func.testBit 1 then some i.fc else none))
            (modTok h n (fun t => { t with waiters := t.waiters ++ [{ who := .task k.id, amt := amt, item := item }] }) s)) (goes k.id s) := by
  subst ha hitem
  unfold waitGlobal takenRegs clearLatch
  rw [show (issueOf 0x50 cr i k p).i = i from rfl]
  dsimp only
  cases i.func.testBit 1 <;> cases i.func.testBit 2 <;> rfl

end

section
variable {cr : CoreRun} {i : Iw} {k : Task} {p : Program} {n amt : ℕ} {tk : Token} {item : Option Word} {s : State}

theorem clearLatch_goes {h tok : ℕ} {t : TaskId} : clearLatch i h tok (goes t s) = goes t (clearLatch i h tok s) := by
  unfold clearLatch
  split <;> rfl

theorem clearLatch_tasks (h tok : ℕ) (s : State) : (clearLatch i h tok s).tasks = s.tasks := by
  unfold clearLatch
  split <;> rfl

/-- Whether a take finds its amount and no older wait for the same item. -/
theorem takeReady_iff : (amt ≤ drawn tk item && !tk.waiters.any (fun w => w.item == item)) = true ↔ amt ≤ drawn tk item ∧ ∀ w ∈ tk.waiters, w.item ≠ item := by
  simp

theorem tokWait_global (hq : Quiet s) (hm : MayBegin 0x50 cr i k p s) (hf : i.func.testBit 0 = true) (ha : amt = tokAmt i)
    (hn : n = i.imm.toNat % 4096 + k.id.inst * bits i.imm.toNat 12 12) (htk : tokOf s p.handle n = some tk)
    (hitem : item = if i.func.testBit 1 then some ((sOf k.regs i.fa).setWidth 32) else none) :
    (∀ id, item = some id → itemEnded s id = true → Gives (.tokWait cr i) s (stepped cr i k p (setP i.fc false) s))
      ∧ (item.elim false (itemEnded s) = false → amt ≠ 0 → amt ≤ drawn tk item → (∀ w ∈ tk.waiters, w.item ≠ item) → RecordRoom k 1 →
        (tk.jobTmpl = none ∨ latchFaults tk.latch = false) →
        GivesThen (.tokWait cr i) s
          (settleToken p.handle n (recorded cr i k p [.take n amt item Stat.ok] (takenRegs i tk.latch)
            (clearLatch i p.handle n (lowWater p.handle n (modTok p.handle n (fun k => takeFrom k item amt) s))))))
      ∧ (item.elim false (itemEnded s) = false → amt ≠ 0 → amt ≤ drawn tk item → (∀ w ∈ tk.waiters, w.item ≠ item) →
        tk.jobTmpl ≠ none → latchFaults tk.latch = true → GivesThen (.tokWait cr i) s (faulted k i.q tk.latch s))
      ∧ (item.elim false (itemEnded s) = false → amt ≠ 0 → drawn tk item < amt ∨ (∃ w ∈ tk.waiters, w.item = item) → RecordRoom k 1 →
        Gives (.tokWait cr i) s
          (waitsFor i k p i.q (.take n amt item (if i.func.testBit 2 then some i.fd else none) (if i.func.testBit 1 then some i.fc else none))
            (modTok p.handle n (fun t => { t with waiters := t.waiters ++ [{ who := .task k.id, amt := amt, item := item }] }) s))) := by
  have hk : taskOf s k.id = some k := hm.2.2.2.1
  have hd : k.due = none := hm.2.2.2.2.2.2.1
  have hbody := (beginTokWait_global (cr := cr) hf hn htk).trans (waitGlobal_cases (cr := cr) (p := p) (h := p.handle) ha hitem)
  have hlatch : (tk.jobTmpl.isSome && latchFaults tk.latch) = true ↔ tk.jobTmpl ≠ none ∧ latchFaults tk.latch = true := by
    rw [Bool.and_eq_true, Option.isSome_iff_ne_none]
  refine ⟨fun id hid hend => completes_gives (body := beginTokWait) (by unfold exec; rfl) hq hm beginTokWait_blind
      (hbody.trans (if_pos (by rw [hid]; exact hend))) ?_,
    fun hopen h0 hle hno hroom hok => begins_givesThen (body := beginTokWait) (by unfold exec; rfl) hm beginTokWait_blind ?_,
    fun hopen h0 hle hno hjob hfault => faults_givesThen (body := beginTokWait) (by unfold exec; rfl) hm beginTokWait_blind ?_,
    fun hopen h0 hwait hroom => begins_gives (body := beginTokWait) (by unfold exec; rfl) hm beginTokWait_blind ?_ (quiet_waitsFor hq hd)⟩
  · refine if_pos ?_
    cases hb : i.func.testBit 1 with
    | true => rfl
    | false =>
      rw [hb] at hitem
      cases hitem.symm.trans hid
  · rw [hbody, if_neg (ne_true_of_eq_false hopen), if_neg h0, if_pos (takeReady_iff.mpr ⟨hle, hno⟩),
      if_neg (fun h => hok.elim (hlatch.mp h).1 fun hf => Bool.false_ne_true (hf.symm.trans (hlatch.mp h).2)), withRoom_goes rfl hk hroom,
      show modTok p.handle n (fun k => takeFrom k item amt) (goes k.id s) = goes k.id (modTok p.handle n (fun k => takeFrom k item amt) s) from rfl,
      lowWater_goes, clearLatch_goes]
    refine congrArg (settleToken p.handle n) (complete_record rfl rfl rfl rfl rfl ?_)
    unfold taskOf
    rw [clearLatch_tasks, lowWater_tasks]
    exact hk
  · rw [hbody, if_neg (ne_true_of_eq_false hopen), if_neg h0, if_pos (takeReady_iff.mpr ⟨hle, hno⟩), if_pos (hlatch.mpr ⟨hjob, hfault⟩)]
  · have hnot : ¬(amt ≤ drawn tk item && !tk.waiters.any (fun w => w.item == item)) = true := by
      rw [takeReady_iff]
      rintro ⟨hle, hno⟩
      rcases hwait with hlt | ⟨w, hw, he⟩
      · omega
      · exact hno w hw he
    rw [hbody, if_neg (ne_true_of_eq_false hopen), if_neg h0, if_neg hnot, withRoom_goes rfl hk hroom]
    exact beginWait_goes (s := modTok p.handle n _ s) rfl hk

/-- A signal of a task whose recovery record matches none. -/
theorem beginTokSig_global (hk : taskOf s k.id = some k) (hf : i.func.testBit 0 = true) (ha : amt = tokAmt i)
    (hn : n = i.imm.toNat % 4096 + k.id.inst * bits i.imm.toNat 12 12) (hsigs : k.match_.sigs = 0)
    (hitem : item = if i.func.testBit 1 then some ((sOf k.regs i.fa).setWidth 32) else none) :
    beginTokSig (issueOf 0x51 cr i k p) (goes k.id s)
      = match signal p.handle n amt item (some (.task k.id)) (goes k.id s) with
        | (.waits, s) => beginWait (issueOf 0x51 cr i k p) i.q (.sigPair n amt (item.getD 0)) s
        | (.done st, s) =>
          if st = Stat.ok then
            complete (issueOf 0x51 cr i k p) id (modTask k.id (fun k => { k with rec_ := { k.rec_ with sigs := k.rec_.sigs + 1 } }) s)
          else faultAt (issueOf 0x51 cr i k p) i.q st s := by
  have hmatch : matchSignal k.id (goes k.id s) = none := by
    unfold matchSignal
    rw [taskOf_goes hk]
    exact if_pos hsigs
  subst ha hitem
  unfold beginTokSig
  dsimp only
  rw [tokIndex_global hf, ← hn, show (issueOf 0x51 cr i k p).t = k.id from rfl, hmatch]
  exact if_pos hf

theorem tokSig_global (hm : MayBegin 0x51 cr i k p s) (hf : i.func.testBit 0 = true) (ha : amt = tokAmt i) (h0 : amt ≠ 0)
    (hn : n = i.imm.toNat % 4096 + k.id.inst * bits i.imm.toNat 12 12) (htk : tokOf s p.handle n = some tk) (hsigs : k.match_.sigs = 0) :
    (i.func = 1 → tk.count + amt ≤ 65535 →
        GivesThen (.tokSig cr i) s (complete (issueOf 0x51 cr i k p) id
          (modTask k.id (fun k => { k with rec_ := { k.rec_ with sigs := k.rec_.sigs + 1 } })
            (settleToken p.handle n (lowWater p.handle n (modTok p.handle n (fun k => { k with count := k.count + amt }) (goes k.id s)))))))
      ∧ (i.func = 1 → 65535 < tk.count + amt → GivesThen (.tokSig cr i) s (faulted k i.q Stat.tokenOverflow s))
      ∧ (∀ x, i.func = 3 → x = (sOf k.regs i.fa).setWidth 32 → (itemOf s x).isSome = true →
        tk.pairs.any (fun y => y.1 == x) = true ∨ (tk.pairs.length < 32 ∧ tk.sigs = []) → drawn tk (some x) + amt ≤ 65535 →
        GivesThen (.tokSig cr i) s (complete (issueOf 0x51 cr i k p) id
          (modTask k.id (fun k => { k with rec_ := { k.rec_ with sigs := k.rec_.sigs + 1 } })
            (settleToken p.handle n (modTok p.handle n (fun k => { k with pairs := addPair x amt k.pairs }) (goes k.id s)))))) := by
  have hk : taskOf s k.id = some k := hm.2.2.2.1
  have htk' : tokOf (goes k.id s) p.handle n = some tk := htk
  have hplain (h1 : i.func = 1) : (none : Option Word) = if i.func.testBit 1 then some ((sOf k.regs i.fa).setWidth 32) else none := by
    rw [h1]
    rfl
  refine ⟨fun h1 hle => begins_givesThen (body := beginTokSig) (by unfold exec; rfl) hm beginTokSig_blind ?_,
    fun h1 hlt => faults_givesThen (body := beginTokSig) (by unfold exec; rfl) hm beginTokSig_blind ?_,
    fun x h3 hx hopen hpair hle => begins_givesThen (body := beginTokSig) (by unfold exec; rfl) hm beginTokSig_blind ?_⟩
  · rw [beginTokSig_global hk hf ha hn hsigs (hplain h1)]
    unfold signal
    rw [htk']
    dsimp only
    rw [if_neg h0, if_neg (Nat.not_lt.mpr hle)]
    rfl
  · rw [beginTokSig_global hk hf ha hn hsigs (hplain h1)]
    unfold signal
    rw [htk']
    dsimp only
    rw [if_neg h0, if_pos hlt]
    rfl
  · have hitem : some x = if i.func.testBit 1 then some ((sOf k.regs i.fa).setWidth 32) else none := by
      rw [h3, hx]
      rfl
    have hroom : (pairRoom tk x && (tk.sigs.isEmpty || tk.pairs.any fun p => p.1 == x)) = true := by
      unfold pairRoom
      rcases hpair with h | ⟨hlt, hnil⟩
      · rw [h, Bool.true_or, Bool.or_true]
        rfl
      · rw [hnil, decide_eq_true hlt, Bool.or_true]
        rfl
    rw [beginTokSig_global hk hf ha hn hsigs hitem]
    unfold signal
    rw [htk']
    dsimp only
    rw [if_neg h0, show itemOf (goes k.id s) x = itemOf s x from rfl, Option.isNone_eq_false_iff.mpr hopen, if_neg Bool.false_ne_true, hroom,
      if_neg (by decide), if_neg (Nat.not_lt.mpr hle)]
    rfl

end

/-- Settles O37: the rows of `eng.enq` and of the local and the global tokens. -/
theorem jobAndTokenInstructions : Obligations.JobAndTokenInstructions := by
  intro cr i k p s hq hsq
  refine ⟨fun hm h0 => engEnq_none hq hm h0, fun _ hm hn hmatch => engEnq_matched hq hm hn hmatch,
    fun _ _ _ hm hn h0 h64 ha hend hal hpoison hds hok hnone hroom =>
      engEnq_gives hq hsq hm hn h0 h64 ha hend hal hpoison hds hok hnone hroom,
    fun _ _ _ hm hn h64 hnone ha hend hal hpoison hj hbad => engEnq_refused hsq hm hn h64 hnone ha hend hal hpoison hj hbad, ?_, ?_, ?_⟩
  · intro n amt hn ha hf
    exact ⟨fun hm => (tokWait_local hq hn ha hf hm).1, fun hm => (tokWait_local hq hn ha hf hm).2, fun hm => (tokSig_local hn ha hf hm).1,
      fun hm => (tokSig_local hn ha hf hm).2, fun hm => tokTry_local hq hn ha hf hm⟩
  · intro n amt tk item hm hf ha hn htk hitem
    exact tokWait_global hq hm hf ha hn htk hitem
  · intro n amt tk hm hf ha h0 hn htk _ hsigs
    exact tokSig_global hm hf ha h0 hn htk hsigs

end Sys2Proof.Machine
end

