-- ==== Sys2Proof/Proofs/ItemRows.lean ====
section
/-! Item and sequence instructions, and the stages of a boundary. -/

namespace Sys2Proof.Machine

open Sys2Proof

/-! ## Fragments -/

section
variable {cr : CoreRun} {i : Iw} {k : Task} {p : Program} {s : State}

/-- The ledger takes a fragment without note of the tasks. -/
theorem attach_goes (id : Word) (kind key origin : ℕ) (bs : List Byte) (pend : Option TaskId) (who : TaskId) (t : TaskId) (s : State) :
    attach id kind key origin bs pend who (goes t s)
      = ((attach id kind key origin bs pend who s).1, goes t (attach id kind key origin bs pend who s).2) := by
  unfold attach
  rw [show itemIssued (goes t s) id = itemIssued s id from rfl, show itemOf (goes t s) id = itemOf s id from rfl]
  cases bs.isEmpty
  case true => rfl
  by_cases hlen : 1016 < bs.length
  · simp only [if_pos hlen]
    rfl
  simp only [if_neg hlen]
  cases itemIssued s id
  case false => rfl
  cases itemOf s id with
  | none => rfl
  | some it =>
    by_cases h4 : kind = 4 <;> by_cases h64 : 64 ≤ it.frags.length <;> simp only [h4, h64, if_true, if_false] <;> rfl

/-- A fragment within its limit is not refused for its length. -/
theorem attach_ne_length {id : Word} {kind key origin : ℕ} {bs : List Byte} {pend : Option TaskId} {who : TaskId} (h : bs.length ≤ 1016) :
    (attach id kind key origin bs pend who s).1 ≠ Stat.length := by
  unfold attach
  cases bs.isEmpty
  case true => exact (by decide : Stat.ok ≠ Stat.length)
  simp only [Bool.false_eq_true, if_false, if_neg (Nat.not_lt.mpr h)]
  cases itemIssued s id
  case false => exact (by decide : Stat.itemUnknown ≠ Stat.length)
  cases itemOf s id with
  | none => exact (by decide : Stat.itemClosed ≠ Stat.length)
  | some it =>
    by_cases h64 : 64 ≤ it.frags.length
    · simp only [Bool.not_true, Bool.false_eq_true, if_false, if_pos h64]
      exact (by decide : Stat.fragLimit ≠ Stat.length)
    · simp only [Bool.not_true, Bool.false_eq_true, if_false, if_neg h64]
      exact (by decide : Stat.ok ≠ Stat.length)

/-- What the ledger answers to a fragment, and what it leaves. -/
theorem attach_cases {id : Word} {kind key origin : ℕ} {bs : List Byte} {pend : Option TaskId} {who : TaskId} (hne : bs ≠ []) (hlen : bs.length ≤ 1016) :
    (itemIssued s id = false → attach id kind key origin bs pend who s = (Stat.itemUnknown, s))
      ∧ (itemIssued s id = true → itemOf s id = none → attach id kind key origin bs pend who s = (Stat.itemClosed, bump Reg.itmSnapCnt.base 5 s))
      ∧ (∀ it, itemIssued s id = true → itemOf s id = some it → kind ≠ 4 → it.frags.length < 64 →
        attach id kind key origin bs pend who s = (Stat.ok, modItem id (fun i => { i with
          bound := true, nextOrd := i.nextOrd + 1
          frags := i.frags ++ [{ kind := kind, key := key, origin := origin, payload := bs, pend := pend, issuer := who, ord := i.nextOrd }] }) s))
      ∧ (∀ it, itemIssued s id = true → itemOf s id = some it → kind ≠ 4 → 64 ≤ it.frags.length →
        attach id kind key origin bs pend who s
          = (Stat.fragLimit, bump Reg.itmSnapCnt.base 6 (modItem id (fun i => { i with fragRefused := true }) s))) := by
  have hempty : bs.isEmpty = false := List.isEmpty_eq_false_iff.mpr hne
  unfold attach
  rw [hempty, if_neg Bool.false_ne_true, if_neg (Nat.not_lt.mpr hlen)]
  refine ⟨fun hi => ?_, fun hi ho => ?_, fun it hi ho h4 hlt => ?_, fun it hi ho h4 hle => ?_⟩
  · rw [hi]
    rfl
  · rw [hi, ho]
    rfl
  · rw [hi, ho]
    dsimp only
    rw [if_neg h4, if_neg (by decide), if_neg (Nat.not_le.mpr hlt)]
  · rw [hi, ho]
    dsimp only
    rw [if_neg h4, if_neg (by decide), if_pos hle]

theorem length_tileBytes (t : Tile) (r : TaskRegs) : ((t.runs t.rows).flatMap fun e => tbRead r e.1 e.2).length = t.rows * t.rowBytes := by
  unfold Tile.runs
  rw [List.flatMap_map, List.length_flatMap]
  simp [tbRead_length]

theorem itmAttach_gives {t : Tile} {bs : List Byte} {key st : ℕ} {s1 : State} (hq : Quiet s) (htb : cr.tb = []) (hm : MayBegin 0x60 cr i k p s)
    (ht : t = tdOf k.regs i.fb) (hok : t.empty = true ∨ (t.refused = false ∧ t.rows * t.rowBytes ≤ 1016 ∧ TileClean k.regs (t.runs t.rows)))
    (hbs : bs = (if t.empty then [] else (t.runs t.rows).flatMap fun e => tbRead k.regs e.1 e.2))
    (hkey : key = (if i.func = 1 then (sOf k.regs i.fc).toNat % 65536 else bits i.imm.toNat 8 16))
    (hat : attach ((sOf k.regs i.fa).setWidth 32) (i.imm.toNat % 256) key 0 bs (some k.id) k.id s = (st, s1)) :
    Gives (.itmAttach cr i) s (stepped cr i k p (setSN i.fd st) s1) := by
  have hk : taskOf s k.id = some k := hm.2.2.2.1
  have hd : k.due = none := hm.2.2.2.2.2.2.1
  have htasks : s1.tasks = s.tasks := by
    have h := attach_tasks ((sOf k.regs i.fa).setWidth 32) (i.imm.toNat % 256) key 0 bs (some k.id) k.id s
    rw [hat] at h
    exact h
  have hkt : taskOf s1 k.id = some k := by
    unfold taskOf
    rw [htasks]
    exact hk
  have hlen : bs.length ≤ 1016 := by
    rw [hbs]
    rcases hok with he | ⟨-, hle, -⟩
    · rw [he]
      exact Nat.zero_le _
    · split
      · exact Nat.zero_le _
      · rw [length_tileBytes]
        exact hle
  have hst : st ≠ Stat.length := by
    have h := attach_ne_length (s := s) (id := (sOf k.regs i.fa).setWidth 32) (kind := i.imm.toNat % 256) (key := key) (origin := 0) (pend := some k.id)
      (who := k.id) hlen
    rw [hat] at h
    exact h
  have hclean : TileClean k.regs (if t.empty then [] else t.runs t.rows) := by
    rcases hok with he | ⟨-, -, hc⟩
    · rw [he]
      intro e he
      cases he
    · split
      · intro e he
        cases he
      · exact hc
  have hfit : ¬(!t.empty && (t.refused || decide (1016 < t.rows * t.rowBytes))) = true := by
    rcases hok with he | ⟨hr, hle, -⟩
    · rw [he]
      exact Bool.false_ne_true
    · rw [hr, decide_eq_false (Nat.not_lt.mpr hle), Bool.or_self, Bool.and_false]
      exact Bool.false_ne_true
  have hbytes : (if t.empty then [] else t.runs t.rows).flatMap (fun e => tbRead k.regs e.1 e.2) = bs := by
    rw [hbs]
    split <;> rfl
  refine begins_gives (body := beginItmAttach) (by unfold exec; rfl) hm (fun x q s => beginItmAttach_setPending x q s) ?_
    (quiet_stepped (hq.of_tasks htasks) hd)
  unfold beginItmAttach
  dsimp only
  rw [show (issueOf 0x60 cr i k p).r = k.regs from rfl, show (issueOf 0x60 cr i k p).i = i from rfl, show (issueOf 0x60 cr i k p).t = k.id from rfl,
    ← ht, ← hkey, if_neg hfit, readTile_goes rfl htb hk hclean]
  dsimp only
  rw [if_neg Bool.false_ne_true, hbytes, attach_goes, hat]
  dsimp only
  rw [if_neg hst]
  exact complete_goes rfl rfl hkt

end

/-! ## Commits and fields -/

section
variable {cr : CoreRun} {i : Iw} {k : Task} {p : Program} {s : State}

/-- The commit that follows the checkpoint of `itm.commit`. -/
def commitAsk (x : Issue) (s : State) : State :=
  let (st, s) := commitItem ((sOf x.r x.i.fa).setWidth 32) x.i.func (x.i.imm.toNat % 32) ((sOf x.r x.i.fb).setWidth 48) x.p x.r.mx s
  modTask x.t (fun k => { k with regs := setSN x.i.fd st k.regs, ckpt := setSN x.i.fd st k.ckpt }) s

theorem beginItmCommit_eq (x : Issue) (s : State) : beginItmCommit x s = takeCkpt x (commitAsk x) (complete x id s) := rfl

theorem commitAsk_blind (x : Issue) : Blind (commitAsk x) := by
  intro q s
  unfold commitAsk
  rw [commitItem_setPending]
  rfl

theorem beginItmCommit_blind (x : Issue) : Blind (beginItmCommit x) := by
  intro q s
  rw [beginItmCommit_eq, beginItmCommit_eq, complete_setPending, takeCkpt_setPending x (commitAsk_blind x)]

theorem itmCommit_givesThen {st : ℕ} {s1 : State} (htb : cr.tb = []) (hm : MayBegin 0x61 cr i k p s)
    (hc : commitItem ((sOf k.regs i.fa).setWidth 32) i.func (i.imm.toNat % 32) ((sOf k.regs i.fb).setWidth 48) p k.regs.mx
      (checkpoint k.id (stepped cr i k p id s)) = (st, s1)) :
    GivesThen (.itmCommit cr i) s (modTask k.id (fun k => { k with regs := setSN i.fd st k.regs, ckpt := setSN i.fd st k.ckpt }) s1) := by
  have hk : taskOf s k.id = some k := hm.2.2.2.1
  refine begins_givesThen (body := beginItmCommit) (by unfold exec; rfl) hm beginItmCommit_blind ?_
  rw [beginItmCommit_eq, complete_goes rfl rfl hk]
  unfold takeCkpt
  rw [show (issueOf 0x61 cr i k p).cr.tb = [] from htb, readForSave_clean]
  show commitAsk (issueOf 0x61 cr i k p) (checkpoint k.id (stepped cr i k p id s)) = _
  unfold commitAsk
  dsimp only [issueOf]
  rw [hc]

/-- What the ledger answers to a commit. -/
theorem commitItem_cases {id : Word} {disp out : ℕ} {fire : Pos} {mx : Bool} :
    (itemIssued s id = false → commitItem id disp out fire p mx s = (Stat.itemUnknown, s))
      ∧ (itemIssued s id = true → itemOf s id = none → commitItem id disp out fire p mx s = (Stat.itemClosed, s))
      ∧ (∀ it, itemIssued s id = true → itemOf s id = some it → disp ≠ 0 → fireLate s it.posSrc out fire = true →
        commitItem id disp out fire p mx s = (Stat.fireLate, bump Reg.itmSnapCnt.base 7 (setFlag Reg.itmStatus.base 8 s)))
      ∧ (∀ it, itemIssued s id = true → itemOf s id = some it → disp = 0 ∨ fireLate s it.posSrc out fire = false →
        (commitItem id disp out fire p mx s).1 = Stat.ok ∧ ∀ x ∈ (commitItem id disp out fire p mx s).2.led.items, x.id ≠ it.id) := by
  unfold commitItem
  refine ⟨fun hi => ?_, fun hi ho => ?_, fun it hi ho hd hf => ?_, fun it hi ho hok => ?_⟩
  · rw [hi]
    rfl
  · rw [hi, ho]
    rfl
  · rw [hi, ho]
    dsimp only
    rw [if_neg (by decide), if_pos ⟨hd, hf⟩]
  · have hno : ¬(disp ≠ 0 ∧ fireLate s it.posSrc out fire = true) := by
      rintro ⟨hd, hf⟩
      rcases hok with h | h
      · exact hd h
      · exact Bool.false_ne_true (h.symm.trans hf)
    rw [hi, ho]
    dsimp only
    rw [if_neg (by decide), if_neg hno]
    refine ⟨rfl, fun x hx => ?_⟩
    dsimp only at hx
    obtain ⟨c, -, hacc⟩ := acceptItem_eq it { disp := disp, action := disp, out := out, fire := fire, flags := if mx = true then 2 ^ 8 else 0, prog := p.handle, by_ := some p, admitted := true } (noteCommit it (bump Reg.itmSnapCnt.base 1 s))
    rw [hacc, ((itemsKept_closeFramesOf it.id _).trans (itemsKept_closeInTokens it.id _)).items] at hx
    exact bne_iff_ne.mp (List.mem_filter.mp hx).2

theorem itmGet_of {v : Option ℕ} (hq : Quiet s) (hm : MayBegin 0x62 cr i k p s)
    (hv : v = match itemOf s ((sOf k.regs i.fa).setWidth 32) with
      | some it => itemField i.func false it
      | none => (s.led.committing.find? fun (c : Commit) => c.item.id == (sOf k.regs i.fa).setWidth 32 && c.admitted).bind fun c =>
          itemField i.func true c.item) :
    Gives (.itmGet cr i) s (stepped cr i k p (fun r => setP i.fb v.isSome (setSN i.fd (v.getD 0) r)) s) := by
  refine completes_gives (g := fun r => setP i.fb v.isSome (setSN i.fd (v.getD 0) r)) (body := beginItmGet) (by unfold exec; rfl) hq hm
    (fun x q s => beginItmGet_setPending x q s) ?_ rfl
  subst hv
  rfl

/-- A field of an item, by its number. -/
theorem itemField_of {f : ℕ} {b : Bool} {it : Item} {v : Option ℕ} (hf : f ≤ 5) (h0 : f = 0 → v = some it.openPos.toNat)
    (h1 : f = 1 → v = it.closePos.map (·.toNat)) (h2 : f = 2 → v = some it.deadline.toNat)
    (h3 : f = 3 → v = some (if b then 2 else if it.bound then 1 else 0)) (h4 : f = 4 → v = some it.src) (h5 : f = 5 → v = some it.posSrc) :
    v = itemField f b it := by
  interval_cases f
  · exact h0 rfl
  · exact h1 rfl
  · exact h2 rfl
  · exact h3 rfl
  · exact h4 rfl
  · exact h5 rfl

theorem itmGet_func (hm : MayBegin 0x62 cr i k p s) : i.func ≤ 5 := by
  obtain ⟨u, hu, -⟩ := hm.2.2.2.2.2.2.2.2.2.1
  by_contra h
  have hnone : useOf 0x62 i = none := if_neg h
  cases hnone.symm.trans hu

theorem itmGet_cases {v : Option ℕ} (hq : Quiet s) (hm : MayBegin 0x62 cr i k p s) :
    (∀ it, itemOf s ((sOf k.regs i.fa).setWidth 32) = some it →
        (i.func = 0 → v = some it.openPos.toNat) → (i.func = 1 → v = it.closePos.map (·.toNat)) → (i.func = 2 → v = some it.deadline.toNat) →
        (i.func = 3 → v = some (if it.bound then 1 else 0)) → (i.func = 4 → v = some it.src) → (i.func = 5 → v = some it.posSrc) →
        Gives (.itmGet cr i) s (stepped cr i k p (fun r => setP i.fb v.isSome (setSN i.fd (v.getD 0) r)) s))
      ∧ (itemOf s ((sOf k.regs i.fa).setWidth 32) = none →
        (s.led.committing.find? fun c => c.item.id == (sOf k.regs i.fa).setWidth 32 && c.admitted) = none →
        Gives (.itmGet cr i) s (stepped cr i k p (fun r => setP i.fb false (setSN i.fd 0 r)) s))
      ∧ (∀ c, itemOf s ((sOf k.regs i.fa).setWidth 32) = none →
        (s.led.committing.find? fun c => c.item.id == (sOf k.regs i.fa).setWidth 32 && c.admitted) = some c →
        (i.func = 0 → v = some c.item.openPos.toNat) → (i.func = 1 → v = c.item.closePos.map (·.toNat)) →
        (i.func = 2 → v = some c.item.deadline.toNat) → (i.func = 3 → v = some 2) → (i.func = 4 → v = some c.item.src) →
        (i.func = 5 → v = some c.item.posSrc) →
        Gives (.itmGet cr i) s (stepped cr i k p (fun r => setP i.fb v.isSome (setSN i.fd (v.getD 0) r)) s)) := by
  have hf := itmGet_func hm
  refine ⟨fun it hit h0 h1 h2 h3 h4 h5 => itmGet_of hq hm ?_, fun hno hc => itmGet_of (v := none) hq hm ?_,
    fun c hno hc h0 h1 h2 h3 h4 h5 => itmGet_of hq hm ?_⟩
  · rw [hit]
    exact itemField_of hf h0 h1 h2 h3 h4 h5
  · rw [hno, hc]
    rfl
  · rw [hno, hc]
    exact itemField_of (b := true) hf h0 h1 h2 h3 h4 h5

end

/-! ## Sequences -/

/-- A join that takes an ID, or waits for one. -/
def joinOrWait (x : Issue) (c : ℕ) (s : State) : State :=
  match freeSeqId s x.p with
  | some id => complete x (setSN x.i.fd id) (record x.t (.join id)
      (queueJoin x.p c id ((sOf x.r x.i.fa).setWidth 32) (sOf x.r x.i.fb).toNat ((sOf x.r x.i.fc).toNat % 2 ^ 32) s))
  | none => beginWait x 3 (.join c ((sOf x.r x.i.fa).setWidth 32) (sOf x.r x.i.fb).toNat ((sOf x.r x.i.fc).toNat % 2 ^ 32) x.i.fd) s

theorem joinOrWait_blind (x : Issue) (c : ℕ) : Blind (joinOrWait x c) := by
  intro q s
  unfold joinOrWait
  rw [freeSeqId_setPending]
  cases freeSeqId s x.p with
  | none => exact beginWait_setPending _ _ _ _ _
  | some id =>
    dsimp only
    rw [queueJoin_setPending, record_setPending, complete_setPending]

/-- The leave of a sequence, before it is recorded. -/
def markLeave (c n : ℕ) (s : State) : State :=
  { s with seqs := s.seqs.map fun q => if q.client = c ∧ q.id = n then { q with leaving := true } else q }

theorem markLeave_setPending (c n : ℕ) (q : List Instr) (s : State) : markLeave c n (setPending q s) = setPending q (markLeave c n s) := rfl

theorem updAll_leave (c n : ℕ) (l : List Sequence) : updAll (fun q => q.client == c && q.id == n) (fun q => { q with leaving := true }) l
    = l.map fun q => if q.client = c ∧ q.id = n then { q with leaving := true } else q := by
  unfold updAll
  simp only [Bool.and_eq_true, beq_iff_eq]

/-- What `seq.join` does, where the recovery record matches no join. -/
theorem beginSeqJoin_eq (x : Issue) (s : State) : beginSeqJoin x s
    = match clientFor x.p (x.i.imm.toNat % 4) with
      | none => s
      | some c =>
        if (sOf x.r x.i.fb).toNat = 0 then complete x id s
        else match matchEntry x.t isJoinEntry s with
          | some (.join id, s) => complete x (setSN x.i.fd id) s
          | _ =>
            if kvTargetBlocks s (clientOf s c).part < reservation (sOf x.r x.i.fb).toNat then faultAt x 3 Stat.length s
            else withRoom x (joinOrWait x c) s := rfl

theorem beginSeqLeave_eq (x : Issue) (s : State) : beginSeqLeave x s
    = match clientFor x.p (x.i.imm.toNat % 4) with
      | none => s
      | some c =>
        match matchEntry x.t (fun e => e == .leave) s with
        | some (_, s) => complete x id s
        | none => withRoom x (fun s => complete x id (record x.t .leave (markLeave c (sOf x.r x.i.fa).toNat s))) s := by
  unfold beginSeqLeave markLeave
  simp only [updAll_leave] <;> rfl

section
variable {cr : CoreRun} {i : Iw} {k : Task} {p : Program} {c n : ℕ} {s : State}

theorem beginSeqJoin_blind (x : Issue) : Blind (beginSeqJoin x) := by
  intro q s
  rw [beginSeqJoin_eq, beginSeqJoin_eq, matchEntry_setPending, kvTargetBlocks_setPending, clientOf_setPending]
  cases clientFor x.p (x.i.imm.toNat % 4) with
  | none => rfl
  | some c =>
    have hnew : (if kvTargetBlocks s (clientOf s c).part < reservation (sOf x.r x.i.fb).toNat then faultAt x 3 Stat.length (setPending q s)
          else withRoom x (joinOrWait x c) (setPending q s))
        = setPending q (if kvTargetBlocks s (clientOf s c).part < reservation (sOf x.r x.i.fb).toNat then faultAt x 3 Stat.length s
          else withRoom x (joinOrWait x c) s) := by
      split
      · exact faultAt_setPending _ _ _ _ _
      · exact withRoom_setPending x (joinOrWait_blind x c) q s
    dsimp only
    split
    · exact complete_setPending _ _ _ _
    · cases matchEntry x.t isJoinEntry s with
      | none => exact hnew
      | some r =>
        obtain ⟨e, t⟩ := r
        cases e with
        | join id => exact complete_setPending _ _ _ _
        | _ => exact hnew

theorem beginSeqLeave_blind (x : Issue) : Blind (beginSeqLeave x) := by
  intro q s
  rw [beginSeqLeave_eq, beginSeqLeave_eq, matchEntry_setPending]
  cases clientFor x.p (x.i.imm.toNat % 4) with
  | none => rfl
  | some c =>
    cases matchEntry x.t (fun e => e == .leave) s with
    | none => exact withRoom_setPending x (fun q s => by rw [markLeave_setPending, record_setPending, complete_setPending]) q s
    | some r => exact complete_setPending _ _ _ _

theorem seqJoin_gives (hq : Quiet s) (hm : MayBegin 0x70 cr i k p s) (hc : clientFor p (i.imm.toNat % 4) = some c) (hn : n = (sOf k.regs i.fb).toNat) :
    (n = 0 → Gives (.seqJoin cr i) s (stepped cr i k p id s))
      ∧ (n ≠ 0 → k.match_.entries.find? isJoinEntry = none → kvTargetBlocks s (clientOf s c).part < reservation n →
        GivesThen (.seqJoin cr i) s (faulted k 3 Stat.length s))
      ∧ (∀ id, n ≠ 0 → reservation n ≤ kvTargetBlocks s (clientOf s c).part → k.match_.entries.find? isJoinEntry = none → RecordRoom k 1 →
        freeSeqId s p = some id →
        Gives (.seqJoin cr i) s (recorded cr i k p [.join id] (setSN i.fd id)
          (queueJoin p c id ((sOf k.regs i.fa).setWidth 32) n ((sOf k.regs i.fc).toNat % 2 ^ 32) s)))
      ∧ (n ≠ 0 → reservation n ≤ kvTargetBlocks s (clientOf s c).part → k.match_.entries.find? isJoinEntry = none → RecordRoom k 1 →
        freeSeqId s p = none →
        Gives (.seqJoin cr i) s
          (waitsFor i k p 3 (.join c ((sOf k.regs i.fa).setWidth 32) n ((sOf k.regs i.fc).toNat % 2 ^ 32) i.fd) s)) := by
  have hk : taskOf s k.id = some k := hm.2.2.2.1
  have hd : k.due = none := hm.2.2.2.2.2.2.1
  subst hn
  have hbody : beginSeqJoin (issueOf 0x70 cr i k p) (goes k.id s)
      = if (sOf k.regs i.fb).toNat = 0 then complete (issueOf 0x70 cr i k p) id (goes k.id s)
        else match matchEntry k.id isJoinEntry (goes k.id s) with
          | some (.join id, s) => complete (issueOf 0x70 cr i k p) (setSN i.fd id) s
          | _ =>
            if kvTargetBlocks s (clientOf s c).part < reservation (sOf k.regs i.fb).toNat then
              faultAt (issueOf 0x70 cr i k p) 3 Stat.length (goes k.id s)
            else withRoom (issueOf 0x70 cr i k p) (joinOrWait (issueOf 0x70 cr i k p) c) (goes k.id s) := by
    rw [beginSeqJoin_eq, show clientFor (issueOf 0x70 cr i k p).p ((issueOf 0x70 cr i k p).i.imm.toNat % 4) = some c from hc]
    rfl
  have hnew (h0 : (sOf k.regs i.fb).toNat ≠ 0) (hnone : k.match_.entries.find? isJoinEntry = none)
      (hle : reservation (sOf k.regs i.fb).toNat ≤ kvTargetBlocks s (clientOf s c).part) (hroom : RecordRoom k 1) :
      beginSeqJoin (issueOf 0x70 cr i k p) (goes k.id s) = joinOrWait (issueOf 0x70 cr i k p) c (goes k.id s) := by
    rw [hbody, if_neg h0, matchEntry_none (taskOf_goes hk) hnone]
    dsimp only
    rw [if_neg (Nat.not_lt.mpr hle), withRoom_goes rfl hk hroom]
  refine ⟨fun h0 => completes_gives (g := id) (body := beginSeqJoin) (by unfold exec; rfl) hq hm beginSeqJoin_blind (hbody.trans (if_pos h0)) rfl,
    fun h0 hnone hlt => faults_givesThen (body := beginSeqJoin) (by unfold exec; rfl) hm beginSeqJoin_blind ?_,
    fun id h0 hle hnone hroom hid => begins_gives (body := beginSeqJoin) (by unfold exec; rfl) hm beginSeqJoin_blind ?_
      (quiet_putDone (hq.of_tasks rfl) hd),
    fun h0 hle hnone hroom hid => begins_gives (body := beginSeqJoin) (by unfold exec; rfl) hm beginSeqJoin_blind ?_ (quiet_waitsFor hq hd)⟩
  · rw [hbody, if_neg h0, matchEntry_none (taskOf_goes hk) hnone]
    exact if_pos hlt
  · rw [hnew h0 hnone hle hroom]
    unfold joinOrWait
    rw [show freeSeqId (goes k.id s) (issueOf 0x70 cr i k p).p = some id from hid]
    exact complete_record (s := queueJoin p c id _ _ _ s) rfl rfl rfl rfl rfl hk
  · rw [hnew h0 hnone hle hroom]
    unfold joinOrWait
    rw [show freeSeqId (goes k.id s) (issueOf 0x70 cr i k p).p = none from hid]
    exact beginWait_goes rfl hk

theorem seqStep_gives {a : ℕ} (hq : Quiet s) (hm : MayBegin 0x71 cr i k p s) (hc : clientFor p (i.imm.toNat % 4) = some c)
    (ha : a = (aOf k.regs i.fa).toNat) :
    (a + 32768 ≤ 0x20000000 → allocated s a 32768 = true →
        Gives (.seqStep cr i) s (waitsFor i k p 3 (.step c a i.fd (i.func == 1))
          (modClient c (fun x => { x with stepBy := x.stepBy ++ [k.id], armed := true }) s)))
      ∧ (0x20000000 < a + 32768 ∨ allocated s a 32768 = false →
        GivesThen (.seqStep cr i) s (faulted k 3 Stat.unmapped (noteUnmapped s))) := by
  have hk : taskOf s k.id = some k := hm.2.2.2.1
  have hd : k.due = none := hm.2.2.2.2.2.2.1
  subst ha
  have hblind : ∀ x, Blind (beginSeqStep x) := fun x q s => beginSeqStep_setPending x q s
  have hbody : beginSeqStep (issueOf 0x71 cr i k p) (goes k.id s)
      = if (0x20000000 < (aOf k.regs i.fa).toNat + 32768 || !allocated s (aOf k.regs i.fa).toNat 32768) = true then
          faultTransfer (issueOf 0x71 cr i k p) Stat.unmapped (goes k.id s)
        else beginWait (issueOf 0x71 cr i k p) 3 (.step c (aOf k.regs i.fa).toNat i.fd (i.func == 1))
          (goes k.id (modClient c (fun x => { x with stepBy := x.stepBy ++ [k.id], armed := true }) s)) := by
    unfold beginSeqStep
    dsimp only
    rw [show clientFor (issueOf 0x71 cr i k p).p ((issueOf 0x71 cr i k p).i.imm.toNat % 4) = some c from hc]
    rfl
  refine ⟨fun hend hal => begins_gives (body := beginSeqStep) (by unfold exec; rfl) hm hblind ?_ (quiet_waitsFor (hq.of_tasks rfl) hd),
    fun hbad => begins_givesThen (body := beginSeqStep) (by unfold exec; rfl) hm hblind ?_⟩
  · rw [hbody, decide_eq_false (Nat.not_lt.mpr hend), hal, if_neg (by decide)]
    exact beginWait_goes (s := modClient c _ s) rfl hk
  · have hcond : (decide (0x20000000 < (aOf k.regs i.fa).toNat + 32768) || !allocated s (aOf k.regs i.fa).toNat 32768) = true := by
      rw [Bool.or_eq_true, decide_eq_true_eq, Bool.not_eq_true']
      exact hbad
    rw [hbody, if_pos hcond]
    unfold faultTransfer
    rw [if_pos rfl]
    exact faultAt_goes (s := noteUnmapped s) rfl rfl rfl hk

theorem seqLeave_gives (hq : Quiet s) (hm : MayBegin 0x72 cr i k p s) (hc : clientFor p (i.imm.toNat % 4) = some c)
    (hnone : k.match_.entries.find? (fun e => e == .leave) = none) (hroom : RecordRoom k 1) :
    Gives (.seqLeave cr i) s (recorded cr i k p [.leave] id (markLeave c (sOf k.regs i.fa).toNat s)) := by
  have hk : taskOf s k.id = some k := hm.2.2.2.1
  have hd : k.due = none := hm.2.2.2.2.2.2.1
  refine begins_gives (body := beginSeqLeave) (by unfold exec; rfl) hm beginSeqLeave_blind ?_ (quiet_putDone (hq.of_tasks rfl) hd)
  rw [beginSeqLeave_eq, show clientFor (issueOf 0x72 cr i k p).p ((issueOf 0x72 cr i k p).i.imm.toNat % 4) = some c from hc]
  dsimp only
  rw [show (issueOf 0x72 cr i k p).t = k.id from rfl, matchEntry_none (taskOf_goes hk) hnone]
  dsimp only
  rw [withRoom_goes rfl hk hroom]
  exact complete_record (s := markLeave c _ s) rfl rfl rfl rfl rfl hk

end

/-! ## Boundaries -/

/-- A boundary's members, once its removals, leaves and joins have taken effect. -/
def formMembers (c : ℕ) (s : State) : State :=
  let s := { s with seqs := s.seqs.map fun q => if q.client = c then { q with justJoined := false } else q }
  let s := s |> bump Reg.sqmSnapCnt.base 0 |> removeGone c |> applyLeaves c
  let s := admitJoins c s.seqs.length s
  { s with seqs := s.seqs.map fun q => if q.client = c ∧ q.member = true then { q with held := q.held + 1 } else q }

/-- What a boundary answers its oldest step, from its members. -/
def answerStep (c : ℕ) (t : TaskId) (more : Bool) (addr sd : ℕ) (nowait : Bool) (ms : List Sequence) (s : State) : State :=
  if ms.isEmpty && !nowait then s
  else
    let s := modClient c (fun k => { k with stepBy := k.stepBy.drop 1, armed := more }) (writeBlockLists c s)
    let (st, s) := if allocated s addr 32768 then writeAll addr (ms.flatMap (stepEntry c)) [] s else (Stat.unmapped, noteUnmapped s)
    if st = Stat.ok then finishWait t (isStep c) (setSN sd ms.length) [] s else failWait t (isStep c) st s

theorem boundary_eq (c : ℕ) (s : State) : boundary c s
    = match (clientOf s c).stepBy, (clientOf s c).armed with
      | [], _ => s
      | _, false => s
      | t :: rest, true =>
        match (taskOf s t).bind fun k => k.waits.find? fun w => isStep c w.w with
        | some { w := .step _ addr sd nowait, .. } =>
          let u := formMembers c s
          let v := modClient c (fun k => { k with armed := false })
            (setCtr (Reg.sqmSnapCnt.base + 20) (max (ctrOf u (Reg.sqmSnapCnt.base + 20)) (membersOf u c).length) u)
          let v := answerStep c t (!rest.isEmpty) addr sd nowait (membersOf u c) v
          serveJoins v.tasks.length (clientOf s c).handle v
        | _ => s := rfl

theorem formMembers_setPending (c : ℕ) (q : List Instr) (s : State) : formMembers c (setPending q s) = setPending q (formMembers c s) := by
  unfold formMembers
  have hclear : ({ setPending q s with seqs := (setPending q s).seqs.map fun q => if q.client = c then { q with justJoined := false } else q } : State)
      = setPending q { s with seqs := s.seqs.map fun q => if q.client = c then { q with justJoined := false } else q } := rfl
  dsimp only
  rw [hclear, bump_setPending, removeGone_setPending, applyLeaves_setPending, setPending_seqs, admitJoins_setPending]
  rfl

theorem answerStep_setPending (c : ℕ) (t : TaskId) (more : Bool) (addr sd : ℕ) (nowait : Bool) (ms : List Sequence) (q : List Instr) (s : State) :
    answerStep c t more addr sd nowait ms (setPending q s) = setPending q (answerStep c t more addr sd nowait ms s) := by
  unfold answerStep
  dsimp only
  rw [writeBlockLists_setPending, modClient_setPending, allocated_setPending]
  split
  · rfl
  split
  · rw [writeAll_setPending]
    dsimp only
    split
    · exact finishWait_setPending _ _ _ _ _ _
    · exact failWait_setPending _ _ _ _ _
  · rw [noteUnmapped_setPending]
    dsimp only
    split
    · exact finishWait_setPending _ _ _ _ _ _
    · exact failWait_setPending _ _ _ _ _

theorem boundary_blind (c : ℕ) : Blind (boundary c) := by
  intro q s
  rw [boundary_eq, boundary_eq, clientOf_setPending]
  cases (clientOf s c).stepBy with
  | nil => rfl
  | cons t rest =>
    cases (clientOf s c).armed with
    | false => rfl
    | true =>
      dsimp only
      rw [taskOf_setPending]
      cases (taskOf s t).bind fun k => k.waits.find? fun w => isStep c w.w with
      | none => rfl
      | some w =>
        obtain ⟨_, _, w, _, _⟩ := w
        cases w with
        | step c' addr sd nowait =>
          dsimp only
          rw [formMembers_setPending, membersOf_setPending, ctrOf_setPending, setCtr_setPending, modClient_setPending, answerStep_setPending,
            setPending_tasks, serveJoins_setPending]
        | _ => rfl

section
variable {c : ℕ} {s : State}

theorem seqBoundary_cases (hq : Quiet s) : (cpUp s 2 = true → GivesThen (.seqBoundary c) s (boundary c s))
      ∧ (cpUp s 2 = false ∨ (clientOf s c).stepBy = [] ∨ (clientOf s c).armed = false → Gives (.seqBoundary c) s s) := by
  have hblind : Blind fun s => if cpUp s 2 then boundary c s else s := by
    intro q s
    dsimp only
    rw [cpUp_setPending, boundary_blind c q s]
    exact ite_setPending _ _ _ _
  have hexec : exec (.seqBoundary c) s = run (fun s => if cpUp s 2 then boundary c s else s) s := by
    unfold exec
    rfl
  refine ⟨fun hup => givesThen_run hexec hblind (if_pos hup), fun hno => gives_run hexec hblind ?_ hq⟩
  rcases hno with h | h | h
  · exact if_neg (ne_true_of_eq_false h)
  · rw [boundary_eq, h]
    exact ite_self _
  · rw [boundary_eq, h]
    cases (clientOf s c).stepBy <;> exact ite_self _

theorem removedJoin_seqs (q : Sequence) (code : ℕ) (s : State) : (removedJoin q code s).seqs = s.seqs := by
  have hpost : (postEvent 8 code q.item.toNat 0 0 (leBytes 2 q.id ++ leBytes 1 q.client ++ leBytes 1 q.handle) (bump Reg.sqmSnapCnt.base 2 s)).seqs
      = s.seqs := (eventFrame_postEvent _ _ _ _ _ _ _).get State.seqs
  unfold removedJoin
  dsimp only
  split
  · rw [setFlag_seqs]
    exact hpost
  · exact hpost

theorem dropSeqs_seqs (f : Sequence → Bool) (s : State) : (dropSeqs f s).seqs = s.seqs.filter fun q => !f q := rfl

theorem removeGone_seqs : (removeGone c s).seqs = s.seqs.filter (fun q => !(q.client == c && seqItemGone s q)
              && !(q.client == c && !q.member && decide (kvTargetBlocks s (clientOf s c).part < reservation q.max))) := by
  unfold removeGone
  dsimp only
  rw [dropSeqs_seqs, count_seqs]
  rw [foldl_keeps State.seqs (fun s q => removedJoin_seqs q _ s)]
  refine List.filter_congr fun q _ => ?_
  cases q.client == c <;> cases q.member <;> cases seqItemGone s q <;>
    cases decide (kvTargetBlocks s (clientOf s c).part < reservation q.max) <;> rfl

theorem applyLeaves_seqs : (applyLeaves c s).seqs = s.seqs.filter (fun q => !(q.client == c && (q.leaving || (q.member && decide (q.max ≤ q.held))))) := by
  unfold applyLeaves
  dsimp only
  rw [dropSeqs_seqs, count_seqs]

end

/-- Settles O38: the rows of the item and the sequence instructions, the ledger's answers, and the stages of a boundary. -/
theorem itemAndSequenceInstructions : Obligations.ItemAndSequenceInstructions := by
  intro cr i k p s hq htb
  refine ⟨fun _ _ _ _ _ hm ht hok hbs hkey hat => itmAttach_gives hq htb hm ht hok hbs hkey hat,
    fun _ _ _ _ _ _ _ hne hlen => attach_cases hne hlen, fun _ _ hm hc => itmCommit_givesThen htb hm hc, fun _ _ _ _ _ => commitItem_cases, ?_,
    fun _ _ hm hc hn => seqJoin_gives hq hm hc hn, fun _ _ hm hc ha => seqStep_gives hq hm hc ha,
    fun _ hm hc hnone hroom => seqLeave_gives hq hm hc hnone hroom, fun _ => seqBoundary_cases hq, fun _ => ⟨removeGone_seqs, applyLeaves_seqs⟩, ?_, ?_⟩
  · intro it v hm
    exact ⟨(itmGet_cases hq hm).1 it, (itmGet_cases (v := v) hq hm).2.1, (itmGet_cases hq hm).2.2⟩
  · intro c f q hfind hle hover
    rw [admitJoins, hfind]
    dsimp only
    rw [hover, if_neg Bool.false_ne_true, if_neg (Nat.not_lt.mpr hle)]
  · intro c f q hfind
    refine ⟨fun hover => ?_, fun hover hlt => ?_⟩
    · rw [admitJoins, hfind]
      exact if_pos hover
    · rw [admitJoins, hfind]
      dsimp only
      rw [hover, if_neg Bool.false_ne_true, if_pos hlt]

end Sys2Proof.Machine
end

