-- ==== Sys2Proof/Proofs/SchedRows.lean ====
section
/-! Placement, saves, restores, rounds and replay stops. -/

namespace Sys2Proof.Machine

open Sys2Proof

/-! ## The order of READY tasks -/

theorem lexLt_trans {a b c : List ℕ} (h1 : lexLt a b = true) (h2 : lexLt b c = true) : lexLt a c = true := by
  induction a generalizing b c with
  | nil =>
    cases c with
    | nil =>
      cases b with
      | nil => exact h2
      | cons y ys => cases h2
    | cons z zs => rfl
  | cons x xs ih =>
    cases b with
    | nil => cases h1
    | cons y ys =>
      cases c with
      | nil => cases h2
      | cons z zs =>
        unfold lexLt at h1 h2 ⊢
        simp only [Bool.or_eq_true, Bool.and_eq_true, decide_eq_true_eq, beq_iff_eq] at h1 h2 ⊢
        rcases h1 with h1 | ⟨rfl, h1⟩ <;> rcases h2 with h2 | ⟨rfl, h2⟩
        · exact .inl (h1.trans h2)
        · exact .inl h1
        · exact .inl h2
        · exact .inr ⟨rfl, ih h1 h2⟩

theorem lexLt_irrefl (a : List ℕ) : lexLt a a = false := by
  induction a with
  | nil => rfl
  | cons x xs ih =>
    unfold lexLt
    rw [ih, decide_eq_false (lt_irrefl x), Bool.and_false]
    rfl

/-- A list of tasks in placement order. -/
def InOrder (l : List Task) : Prop := l.Pairwise fun a b => lexLt (readyKey b) (readyKey a) = false

theorem insertReady_perm (k : Task) (l : List Task) : (insertReady k l).Perm (k :: l) := by
  induction l with
  | nil => exact .refl _
  | cons x xs ih =>
    unfold insertReady
    split
    · exact .refl _
    · exact (ih.cons x).trans (.swap k x xs)

theorem insertReady_inOrder {k : Task} {l : List Task} (h : InOrder l) : InOrder (insertReady k l) := by
  induction l with
  | nil => exact List.pairwise_singleton _ _
  | cons x xs ih =>
    obtain ⟨hx, hxs⟩ := List.pairwise_cons.mp h
    unfold insertReady
    split
    next hlt =>
      have hxk : lexLt (readyKey x) (readyKey k) = false := by
        by_contra hne
        have hself := lexLt_trans hlt (Bool.eq_true_of_not_eq_false hne)
        rw [lexLt_irrefl] at hself
        cases hself
      refine List.pairwise_cons.mpr ⟨fun y hy => ?_, h⟩
      rcases List.mem_cons.mp hy with rfl | hy
      · exact hxk
      · by_contra hne
        have hyx := lexLt_trans (Bool.eq_true_of_not_eq_false hne) hlt
        rw [hx y hy] at hyx
        cases hyx
    next hnlt =>
      refine List.pairwise_cons.mpr ⟨fun y hy => ?_, ih hxs⟩
      rcases List.mem_cons.mp ((insertReady_perm k xs).mem_iff.mp hy) with rfl | hy
      · exact Bool.eq_false_of_not_eq_true hnlt
      · exact hx y hy

theorem foldl_insertReady {l m : List Task} (h : InOrder m) : InOrder (l.foldl (fun l k => insertReady k l) m)
    ∧ (l.foldl (fun l k => insertReady k l) m).Perm (l ++ m) := by
  induction l generalizing m with
  | nil => exact ⟨h, .refl _⟩
  | cons k l ih =>
    obtain ⟨horder, hperm⟩ := ih (insertReady_inOrder (k := k) h)
    refine ⟨horder, hperm.trans (((insertReady_perm k m).append_left l).trans ?_)⟩
    exact List.perm_middle

theorem readyTasks_inOrder (s : State) : InOrder (readyTasks s) := (foldl_insertReady List.Pairwise.nil).1

theorem readyTasks_perm (s : State) : (readyTasks s).Perm (s.tasks.filter fun k => k.st == .ready) := by
  have h := (foldl_insertReady (l := s.tasks.filter fun k => k.st == .ready) (m := []) List.Pairwise.nil).2
  rwa [List.append_nil] at h

theorem mem_readyTasks {s : State} {x : Task} : x ∈ readyTasks s ↔ x ∈ s.tasks ∧ x.st = .ready := by
  rw [(readyTasks_perm s).mem_iff, List.mem_filter, beq_iff_eq]

theorem readyKey_lt {a b : Task} (ha : a.prio ≤ 3) (hb : b.prio ≤ 3) (h : a.prio < b.prio ∨ (a.prio = b.prio ∧ b.readyAt < a.readyAt)) :
    lexLt (readyKey b) (readyKey a) = true := by
  unfold readyKey lexLt
  rw [Bool.or_eq_true, decide_eq_true_eq]
  rcases h with h | ⟨h, hr⟩
  · exact .inl (by omega)
  · refine .inr ?_
    unfold lexLt
    rw [h, beq_self_eq_true, decide_eq_true hr]
    rfl

/-! ## Cores -/

section
variable {n m : ℕ} {t : TaskId} {k : Task} {s : State}

theorem coreOf_modCore_same {f : TensorCore → TensorCore} (h : n < s.cores.length) : coreOf (modCore n f s) n = f (coreOf s n) := getD_modAt_same f _ h

theorem coreOf_modCore_other {f : TensorCore → TensorCore} (h : m ≠ n) : coreOf (modCore n f s) m = coreOf s m := getD_modAt_other f _ h

theorem taskOf_modTask_other {u : TaskId} {f : Task → Task} (hf : ∀ k, (f k).id = k.id) (h : u ≠ t) : taskOf (modTask t f s) u = taskOf s u := by
  refine find_updFirst _ (fun x => by rw [hf]) fun x hx => ?_
  rw [beq_iff_eq.mp hx]
  exact beq_false_of_ne h.symm

/-- Cores past the last are SPARE, never idle and ACTIVE, and hold no task. -/
theorem core_lt_of_task (h : (coreOf s n).task = some t) : n < s.cores.length := by
  by_contra hle
  unfold coreOf at h
  rw [List.getD_eq_default _ _ (Nat.not_lt.mp hle)] at h
  cases h

theorem idleCore_iff : idleCore s n = true ↔ (coreOf s n).st = 0 ∧ (coreOf s n).phase = .idle := by
  unfold idleCore
  rw [Bool.and_eq_true, beq_iff_eq, beq_iff_eq]

theorem core_lt_of_idle (h : idleCore s n = true) : n < s.cores.length := by
  by_contra hle
  have hst := (idleCore_iff.mp h).1
  unfold coreOf at hst
  rw [List.getD_eq_default _ _ (Nat.not_lt.mp hle)] at hst
  cases hst

theorem idleFor_idle (h : idleFor s t = some m) : idleCore s m = true := by
  have hp := List.find?_some h
  exact (Bool.and_eq_true_iff.mp hp).1

/-- In normal mode a task finds the lowest idle core. -/
theorem idleFor_lowest (hd : detMode s = false) (h : idleFor s t = some m) :
    (coreOf s m).st = 0 ∧ (coreOf s m).phase = .idle ∧ ∀ j, j < m → ¬((coreOf s j).st = 0 ∧ (coreOf s j).phase = .idle) := by
  obtain ⟨hst, hph⟩ := idleCore_iff.mp (idleFor_idle h)
  refine ⟨hst, hph, fun j hj hidle => ?_⟩
  have hno := (List.find?_range_eq_some.mp h).2.2 j hj
  have hrun : mayRun s t j = true := by
    unfold mayRun
    rw [hd]
    rfl
  rw [idleCore_iff.mpr hidle, hrun] at hno
  cases hno

theorem idleFor_none (h : ∀ j, idleCore s j = false) : idleFor s t = none := by
  refine List.find?_eq_none.mpr fun j _ => ?_
  rw [h j]
  exact Bool.false_ne_true

/-! ## Placement -/

theorem coreOf_placeOn_same (h : m < s.cores.length) : (coreOf (placeOn t m s) m).task = some t ∧ (coreOf (placeOn t m s) m).phase = .restoring
    ∧ (coreOf (placeOn t m s) m).incoming = none := by
  have he : coreOf (placeOn t m s) m = { coreOf s m with task := some t, incoming := none, phase := .restoring, fresh := true, yielded := false } :=
    coreOf_modCore_same h
  rw [he]
  exact ⟨rfl, rfl, rfl⟩

theorem coreOf_placeOn_other (h : n ≠ m) : coreOf (placeOn t m s) n = coreOf s n := coreOf_modCore_other h

theorem taskOf_placeOn_same : taskOf (placeOn t m s) t = (taskOf s t).map fun k => { k with st := .running, core := some m } :=
  taskOf_modTask (by intro; rfl)

theorem taskOf_placeOn_other {u : TaskId} (h : u ≠ t) : taskOf (placeOn t m s) u = taskOf s u := taskOf_modTask_other (by intro; rfl) h

theorem quiet_placeOn (hq : Quiet s) : Quiet (placeOn t m s) := by
  unfold placeOn
  exact (quiet_modTask (hq.of_tasks rfl) (by intro; rfl) (by intro; rfl)).of_tasks rfl

theorem placeReady_idle (hc : claimOf s k.id = none) (hi : idleFor s k.id = some m) : placeReady k s = placeOn k.id m s := by
  unfold placeReady
  rw [hc, hi]

theorem placeReady_none (hc : claimOf s k.id = none) (hi : idleFor s k.id = none) : placeReady k s = s := by
  unfold placeReady
  rw [hc, hi]

theorem claimOf_none (h : ∀ j, (coreOf s j).incoming = none) : claimOf s t = none := by
  refine List.find?_eq_none.mpr fun j _ => ?_
  rw [h j]
  exact Bool.false_ne_true

theorem bestVictim_mem {l : List (ℕ × Task)} {v : ℕ × Task} (h : bestVictim l = some v) : v ∈ l := by
  induction l generalizing v with
  | nil => cases h
  | cons w ws ih =>
    unfold bestVictim at h
    cases hb : bestVictim ws with
    | none =>
      rw [hb] at h
      cases h
      exact List.mem_cons_self
    | some b =>
      rw [hb] at h
      dsimp only at h
      split at h
      · cases h
        exact List.mem_cons_of_mem _ (ih hb)
      · cases h
        exact List.mem_cons_self

theorem stoppable_running {v : Task} (h : stoppable s n = some v) : (coreOf s n).phase = .running := by
  by_contra hne
  unfold stoppable at h
  dsimp only at h
  rw [if_pos (.inr (.inl hne))] at h
  cases h

/-- A victim decodes. -/
theorem victimFor_running (h : victimFor s k = some n) : (coreOf s n).phase = .running := by
  have hcand {f : ℕ × Task → Bool} {v : ℕ × Task} (hv : bestVictim (((List.range 17).filterMap fun n =>
      if mayRun s k.id n then (stoppable s n).map fun v => (n, v) else none).filter f) = some v) : (coreOf s v.1).phase = .running := by
    obtain ⟨j, -, hj⟩ := List.mem_filterMap.mp (List.mem_of_mem_filter (bestVictim_mem hv))
    split at hj
    · obtain ⟨w, hw, rfl⟩ := Option.map_eq_some_iff.mp hj
      exact stoppable_running hw
    · cases hj
  unfold victimFor at h
  dsimp only at h
  split at h
  next v hv =>
    cases h
    exact hcand hv
  next =>
    obtain ⟨v, hv, rfl⟩ := Option.map_eq_some_iff.mp h
    exact hcand hv

end

/-- A task stands on a core that restores it. -/
structure Placed (k : Task) (m : ℕ) (s : State) : Prop where
  task : taskOf s k.id = some k
  core : (coreOf s m).task = some k.id
  phase : (coreOf s m).phase = .restoring
  quiet : Quiet s

section
variable {m : ℕ} {k x : Task} {s : State}

theorem placed_placeReady (h : Placed k m s) (hfree : ∀ j, (coreOf s j).incoming = none) (hne : x.id ≠ k.id) :
    Placed k m (placeReady x s) ∧ ∀ j, (coreOf (placeReady x s) j).incoming = none := by
  cases hi : idleFor s x.id with
  | none =>
    rw [placeReady_none (claimOf_none hfree) hi]
    exact ⟨h, hfree⟩
  | some j =>
    have hidle := idleFor_idle hi
    have hj : m ≠ j := by
      rintro rfl
      have hph := (idleCore_iff.mp hidle).2
      rw [h.phase] at hph
      cases hph
    rw [placeReady_idle (claimOf_none hfree) hi]
    refine ⟨⟨?_, ?_, ?_, quiet_placeOn h.quiet⟩, fun a => ?_⟩
    · rw [taskOf_placeOn_other hne.symm]
      exact h.task
    · rw [coreOf_placeOn_other hj]
      exact h.core
    · rw [coreOf_placeOn_other hj]
      exact h.phase
    · by_cases ha : a = j
      · subst ha
        exact (coreOf_placeOn_same (core_lt_of_idle hidle)).2.2
      · rw [coreOf_placeOn_other ha]
        exact hfree a

theorem placed_foldl_placeReady {l : List Task} (h : Placed k m s) (hfree : ∀ j, (coreOf s j).incoming = none) (hne : ∀ x ∈ l, x.id ≠ k.id) :
    Placed k m (l.foldl (fun s k => placeReady k s) s) := by
  induction l generalizing s with
  | nil => exact h
  | cons x l ih =>
    obtain ⟨hp, hf⟩ := placed_placeReady h hfree (hne x List.mem_cons_self)
    exact ih hp hf fun y hy => hne y (List.mem_cons_of_mem _ hy)

/-- A victim that is chosen changes no task, and no core but its own. -/
theorem claimVictim_cases (x : Task) (s : State) : claimVictim x s = s
    ∨ ∃ n, (coreOf s n).phase = .running ∧ claimVictim x s = modCore n (fun c => { c with phase := .stopping, incoming := some x.id }) s := by
  unfold claimVictim
  split
  · exact .inl rfl
  · split
    next n hn => exact .inr ⟨n, victimFor_running hn, rfl⟩
    next => exact .inl rfl

theorem placed_claimVictim (h : Placed k m s) : Placed k m (claimVictim x s) := by
  rcases claimVictim_cases x s with he | ⟨n, hn, he⟩
  · rw [he]
    exact h
  · have hmn : m ≠ n := by
      rintro rfl
      rw [h.phase] at hn
      cases hn
    rw [he]
    refine ⟨h.task, ?_, ?_, h.quiet.of_tasks rfl⟩
    · rw [coreOf_modCore_other hmn]
      exact h.core
    · rw [coreOf_modCore_other hmn]
      exact h.phase

theorem placed_foldl_claimVictim {l : List Task} (h : Placed k m s) : Placed k m (l.foldl (fun s k => claimVictim k s) s) := by
  induction l generalizing s with
  | nil => exact h
  | cons x l ih => exact ih (placed_claimVictim h)

theorem foldl_claimVictim_tasks (l : List Task) (s : State) : (l.foldl (fun s k => claimVictim k s) s).tasks = s.tasks :=
  foldl_keeps State.tasks (f := fun s k => claimVictim k s) (fun s x => claimVictim_tasks x s) l s

/-- With no core idle, nothing is placed. -/
theorem foldl_placeReady_full {l : List Task} (hidle : ∀ j, idleCore s j = false) (hfree : ∀ j, (coreOf s j).incoming = none) :
    l.foldl (fun s k => placeReady k s) s = s := by
  induction l with
  | nil => rfl
  | cons x l ih => rw [List.foldl_cons, placeReady_none (claimOf_none hfree) (idleFor_none hidle), ih]

theorem taskPlacement_gives {t : State} (h : placeAll s = t) (hq : Quiet t) : Gives .taskPlacement s t :=
  gives_run (by unfold exec; rfl) (fun q s => placeAll_setPending q s) h hq

theorem readyTasks_nodup (h : (s.tasks.map (·.id)).Nodup) : ((readyTasks s).map (·.id)).Nodup :=
  (((readyTasks_perm s).map _).nodup_iff).mpr (h.sublist (List.filter_sublist.map _))

/-- A task of a list whose names differ is the one that its name finds. -/
theorem taskOf_mem (h : (s.tasks.map (·.id)).Nodup) (hx : x ∈ s.tasks) : taskOf s x.id = some x := by
  unfold taskOf
  generalize s.tasks = l at h hx
  induction l with
  | nil => cases hx
  | cons y l ih =>
    rw [List.map_cons, List.nodup_cons] at h
    rcases List.mem_cons.mp hx with rfl | hx
    · rw [List.find?_cons, beq_self_eq_true]
    · have hne : y.id ≠ x.id := fun he => h.1 (he ▸ List.mem_map_of_mem hx)
      rw [List.find?_cons, beq_false_of_ne hne]
      exact ih h.2 hx

theorem taskPlacement_first {ks : List Task} (hq : Quiet s) (hr : readyTasks s = k :: ks) (hnd : (s.tasks.map (·.id)).Nodup)
    (hfree : ∀ j, (coreOf s j).incoming = none) (hi : idleFor s k.id = some m) :
    ∃ t k', Gives .taskPlacement s t ∧ taskOf t k.id = some k' ∧ k'.st = .running ∧ k'.core = some m ∧ (coreOf t m).task = some k.id
        ∧ (coreOf t m).phase = .restoring ∧ ((∀ j, idleCore s j = true → j = m) → ∀ x ∈ ks, taskOf t x.id = some x) := by
  have hmem : k ∈ s.tasks := (mem_readyTasks.mp (hr ▸ List.mem_cons_self)).1
  have hnames : ∀ x ∈ ks, x.id ≠ k.id := by
    have h := readyTasks_nodup hnd
    rw [hr, List.map_cons, List.nodup_cons] at h
    exact fun x hx he => h.1 (he ▸ List.mem_map_of_mem hx)
  have hm := core_lt_of_idle (idleFor_idle hi)
  obtain ⟨k', hk'⟩ : ∃ k' : Task, k' = { k with st := .running, core := some m } := ⟨_, rfl⟩
  have hid : k'.id = k.id := hk' ▸ rfl
  obtain ⟨hcore, hphase, hinc⟩ := coreOf_placeOn_same (t := k.id) hm
  have hplaced : Placed k' m (placeOn k.id m s) := by
    refine ⟨?_, hid ▸ hcore, hphase, quiet_placeOn hq⟩
    rw [hid, taskOf_placeOn_same, taskOf_mem hnd hmem, hk']
    rfl
  have hfree' : ∀ j, (coreOf (placeOn k.id m s) j).incoming = none := by
    intro j
    by_cases hj : j = m
    · subst hj
      exact hinc
    · rw [coreOf_placeOn_other hj]
      exact hfree j
  obtain ⟨u, hu⟩ : ∃ u, u = ks.foldl (fun s k => placeReady k s) (placeOn k.id m s) := ⟨_, rfl⟩
  have hpu : Placed k' m u := hu ▸ placed_foldl_placeReady hplaced hfree' (fun x hx => hid ▸ hnames x hx)
  have hpt := placed_foldl_claimVictim (l := readyTasks u) hpu
  have hall : placeAll s = (readyTasks u).foldl (fun s k => claimVictim k s) u := by
    unfold placeAll
    rw [hr, List.foldl_cons, placeReady_idle (claimOf_none hfree) hi, ← hu]
  refine ⟨_, k', taskPlacement_gives hall hpt.quiet, hid ▸ hpt.task, hk' ▸ rfl, hk' ▸ rfl, hid ▸ hpt.core, hpt.phase, fun honly x hx => ?_⟩
  have hnone : ∀ j, idleCore (placeOn k.id m s) j = false := by
    intro j
    by_cases hj : j = m
    · subst hj
      unfold idleCore
      rw [hphase]
      exact Bool.and_false _
    · refine Bool.eq_false_of_not_eq_true fun h => hj (honly j ?_)
      unfold idleCore at h ⊢
      rwa [coreOf_placeOn_other hj] at h
  have hsame : u = placeOn k.id m s := hu.trans (foldl_placeReady_full hnone hfree')
  unfold taskOf
  rw [foldl_claimVictim_tasks, hsame]
  have hkeep := taskOf_placeOn_other (m := m) (s := s) (hnames x hx)
  unfold taskOf at hkeep
  rw [hkeep]
  exact taskOf_mem hnd (mem_readyTasks.mp (hr ▸ List.mem_cons_of_mem _ hx)).1

/-- A task that is READY alone, and stops being so, leaves none. -/
theorem length_filter_updFirst {α : Type} {p q : α → Bool} {f : α → α} {l : List α} {x : α} (hx : l.find? p = some x) (hq : q x = true)
    (hf : q (f x) = false) : ((updFirst p f l).filter q).length + 1 = (l.filter q).length := by
  induction l with
  | nil => cases hx
  | cons y l ih =>
    cases hy : p y with
    | true =>
      rw [List.find?_cons, hy] at hx
      cases hx
      simp only [updFirst, hy, if_true, List.filter_cons, hq, hf, Bool.false_eq_true, if_false, List.length_cons]
    | false =>
      rw [List.find?_cons, hy] at hx
      have h := ih hx
      simp only [updFirst, hy, Bool.false_eq_true, if_false, List.filter_cons]
      split
      · rw [List.length_cons, List.length_cons, h]
      · exact h

theorem readyTasks_placeOn (hr : readyTasks s = [k]) (hk : taskOf s k.id = some k) : readyTasks (placeOn k.id m s) = [] := by
  have hst : k.st = .ready := (mem_readyTasks.mp (hr ▸ List.mem_cons_self)).2
  have hlen : (s.tasks.filter fun k => k.st == .ready).length = 1 := by
    rw [← (readyTasks_perm s).length_eq, hr]
    rfl
  have hstep := length_filter_updFirst (q := fun x : Task => x.st == .ready) (f := fun k => { k with st := .running, core := some m }) hk
    (beq_iff_eq.mpr hst) rfl
  refine List.eq_nil_of_length_eq_zero ((readyTasks_perm _).length_eq.trans ?_)
  show ((updFirst _ _ s.tasks).filter _).length = 0
  omega

theorem taskPlacement_alone (hq : Quiet s) (hr : readyTasks s = [k]) (hk : taskOf s k.id = some k) (hc : claimOf s k.id = none) :
    (∀ m, idleFor s k.id = some m → Gives .taskPlacement s (placeOn k.id m s))
      ∧ (∀ m, idleFor s k.id = none → victimFor s k = some m →
        Gives .taskPlacement s (modCore m (fun c => { c with phase := .stopping, incoming := some k.id }) s))
      ∧ (idleFor s k.id = none → victimFor s k = none → Gives .taskPlacement s s) := by
  have hst : k.st = .ready := (mem_readyTasks.mp (hr ▸ List.mem_cons_self)).2
  have hclaim (hi : idleFor s k.id = none) : placeAll s = claimVictim k s := by
    unfold placeAll
    rw [hr, List.foldl_cons, List.foldl_nil, placeReady_none hc hi]
    dsimp only
    rw [hr]
    rfl
  have hopen (hi : idleFor s k.id = none) :
      ¬((claimOf s k.id).isSome || (idleFor s k.id).isSome || (taskOf s k.id).elim true (fun k => k.st != .ready)) = true := by
    rw [hc, hi, hk, Option.elim_some, hst]
    decide
  refine ⟨fun m hi => taskPlacement_gives ?_ (quiet_placeOn hq), fun m hi hv => taskPlacement_gives ((hclaim hi).trans ?_) (hq.of_tasks rfl),
    fun hi hv => taskPlacement_gives ((hclaim hi).trans ?_) hq⟩
  · unfold placeAll
    rw [hr, List.foldl_cons, List.foldl_nil, placeReady_idle hc hi]
    dsimp only
    rw [readyTasks_placeOn hr hk]
    rfl
  · unfold claimVictim
    rw [if_neg (hopen hi), hv]
  · unfold claimVictim
    rw [if_neg (hopen hi), hv]

end

/-! ## Saves begin, restores end -/

section
variable {cr : CoreRun} {mr : MemRun} {n : ℕ} {k : Task} {s : State}

theorem bind_taskOf (ht : (coreOf s n).task = some k.id) (hk : taskOf s k.id = some k) : (coreOf s n).task.bind (taskOf s) = some k := by
  rw [ht]
  exact hk

theorem taskSaveStart_gives (hq : Quiet s) (hn : cr.n = n) (ht : (coreOf s n).task = some k.id) (hk : taskOf s k.id = some k)
    (hph : (coreOf s n).phase = .stopping) :
    (k.passes = 0 → Gives (.taskSaveStart cr) s (modCore n (fun c => { c with phase := .saving }) s))
      ∧ (k.passes ≠ 0 → Gives (.taskSaveStart cr) s s) := by
  subst hn
  have hb : (coreOf (setPending [] s) cr.n).task.bind (taskOf (setPending [] s)) = some k := bind_taskOf ht hk
  refine ⟨fun h0 => gives_of_effect (by unfold exec; rfl) hq ?_ rfl, fun h0 => gives_of_effect (by unfold exec; rfl) hq ?_ rfl⟩
  · dsimp only
    rw [hb]
    exact if_pos ⟨hph, h0⟩
  · dsimp only
    rw [hb]
    exact if_neg fun h => h0 h.2

/-- A restored task as it decodes again. -/
def resumed (n : ℕ) (k : Task) (s : State) : State :=
  modTask k.id (fun k => { k with st := if stalled k then heldState k else .running, served := false, ran := true })
    (modCore n (fun c => { c with phase := .running, fresh := !k.served })
      (count (Reg.rbtSnapCnt.base + 20) (moveNs s n 350 (if k.ran then liveBytes k.regs else 0)) s))

theorem quiet_resumed (hq : Quiet s) : Quiet (resumed n k s) := quiet_modTask (hq.of_tasks rfl) (by intro; rfl) (by intro; rfl)

/-- What a restore does once its bytes have moved. -/
def restoreDone (core : CoreRun) (s : State) : State :=
  match (coreOf s core.n).phase, (coreOf s core.n).task.bind (taskOf s) with
  | .restoring, some k =>
    if (coreOf s core.n).gated || !awake s 0 core.n then s
    else restoreReads core k (fun s => enqGoesOn core.n (reissueWaits k s)) (resumed core.n k s)
  | _, _ => s

theorem exec_taskRestoreDone : exec (.taskRestoreDone cr) s = run (restoreDone cr) s := by
  unfold exec
  rfl

theorem resumed_setPending (n : ℕ) (k : Task) (q : List Instr) (s : State) : resumed n k (setPending q s) = setPending q (resumed n k s) := rfl

theorem restoreDone_setPending (core : CoreRun) (q : List Instr) (s : State) : restoreDone core (setPending q s) = setPending q (restoreDone core s) := by
  have hgo (k : Task) : Blind fun s => enqGoesOn core.n (reissueWaits k s) := fun q s => by
    dsimp only
    rw [reissueWaits_setPending, enqGoesOn_setPending]
  unfold restoreDone
  rw [coreOf_setPending, show taskOf (setPending q s) = taskOf s from rfl, show awake (setPending q s) = awake s from rfl]
  cases (coreOf s core.n).phase with
  | restoring =>
    cases (coreOf s core.n).task.bind (taskOf s) with
    | none => rfl
    | some k =>
      dsimp only
      rw [resumed_setPending, restoreReads_setPending core k (hgo k)]
      exact ite_setPending _ _ _ _
  | _ => rfl

theorem restoreDone_of (hn : cr.n = n) (ht : (coreOf s n).task = some k.id) (hk : taskOf s k.id = some k) (hph : (coreOf s n).phase = .restoring)
    (hg : (coreOf s n).gated = false) (ha : awake s 0 n = true) :
    restoreDone cr s = restoreReads cr k (fun s => enqGoesOn n (reissueWaits k s)) (resumed n k s) := by
  subst hn
  unfold restoreDone
  rw [hph, bind_taskOf ht hk, hg, ha]
  rfl

/-- The planes of a task, loaded again from their pinned extents. -/
def reloaded (r : TaskRegs) : List Plane := r.planes.map fun p =>
  match p.desc with
  | some d => { p with rows := ((tileOf d).runs (tileOf d).rows).map fun e => tbRead r e.1 e.2 }
  | none => p

theorem reloadPlanes_clean (hk : taskOf s k.id = some k) (hp : k.regs.tbPoison = []) :
    reloadPlanes n k.id [] s = (true, modTask k.id (fun k => { k with regs := { k.regs with planes := reloaded k.regs } }) s) := by
  unfold reloadPlanes
  rw [hk]
  dsimp only [List.filter_nil, List.foldl_nil]
  refine Prod.ext ?_ rfl
  dsimp only
  rw [Bool.not_eq_true']
  refine any_eq_false_of fun e _ => ?_
  rw [taskOf_modTask (by intro; rfl), hk]
  show poisonHit k.regs.tbPoison e.1 (e.2 - e.1) = false
  rw [hp]
  rfl

/-- A restore of a task whose save area and tile buffer are clean loads its planes and goes on. -/
theorem restoreReads_clean {x : Task} {f : State → State} (hx : x.id = k.id) (hsaved : x.saved = false) (htb : cr.tb = [])
    (hk : taskOf s k.id = some k) (hp : k.regs.tbPoison = []) :
    restoreReads cr x f s = f (modTask k.id (fun k => { k with regs := { k.regs with planes := reloaded k.regs } }) s) := by
  unfold restoreReads
  rw [hsaved, if_neg Bool.false_ne_true]
  dsimp only
  rw [if_neg (by decide), htb, hx, reloadPlanes_clean hk hp]
  exact if_pos rfl

theorem taskRestoreDone_cases (hq : Quiet s) (hn : cr.n = n) (ht : (coreOf s n).task = some k.id) (hk : taskOf s k.id = some k)
    (hph : (coreOf s n).phase = .restoring) (hg : (coreOf s n).gated = false) (ha : awake s 0 n = true) :
    GivesThen (.taskRestoreDone cr) s (restoreReads cr k (fun s => enqGoesOn n (reissueWaits k s)) (resumed n k s))
      ∧ (k.saved = false → k.waits = [] → cr.tb = [] → k.regs.tbPoison = [] →
        Gives (.taskRestoreDone cr) s (modTask k.id (fun k => { k with regs := { k.regs with planes := reloaded k.regs } }) (resumed n k s))) := by
  have hbody := restoreDone_of hn ht hk hph hg ha
  refine ⟨givesThen_run exec_taskRestoreDone (fun q s => restoreDone_setPending cr q s) hbody, fun hsaved hwaits htb hpoison =>
    gives_run exec_taskRestoreDone (fun q s => restoreDone_setPending cr q s) (hbody.trans ?_)
      (quiet_modTask (quiet_resumed hq) (by intro; rfl) (by intro; rfl))⟩
  obtain ⟨k', hk'⟩ : ∃ k' : Task, k' = { k with st := if stalled k then heldState k else .running, served := false, ran := true } := ⟨_, rfl⟩
  have hid : k'.id = k.id := hk' ▸ rfl
  have hfound : taskOf (resumed n k s) k'.id = some k' := by
    unfold resumed
    rw [hid, taskOf_modTask (by intro; rfl), show taskOf (modCore n _ (count _ _ s)) k.id = some k from hk, hk']
    rfl
  have hpoison' : k'.regs.tbPoison = [] := hk' ▸ hpoison
  have hcore : (coreOf (modTask k.id (fun k => { k with regs := { k.regs with planes := reloaded k.regs } }) (resumed n k s)) n).task = some k.id := by
    show (coreOf (modCore n (fun c => { c with phase := .running, fresh := !k.served }) s) n).task = some k.id
    rw [coreOf_modCore_same (core_lt_of_task ht)]
    exact ht
  have hstays : taskOf (modTask k.id (fun k => { k with regs := { k.regs with planes := reloaded k.regs } }) (resumed n k s)) k.id
      = some { k' with regs := { k'.regs with planes := reloaded k'.regs } } := by
    rw [taskOf_modTask (by intro; rfl), ← hid, hfound]
    rfl
  rw [restoreReads_clean hid.symm hsaved htb hfound hpoison', hid]
  unfold reissueWaits enqGoesOn
  rw [hwaits, List.foldl_nil, hcore, Option.bind_some, hstays]
  dsimp only
  rw [show k'.waits = [] from hk' ▸ hwaits, List.foldl_nil]

/-! ## Rounds, alarms and replay stops -/

theorem quiet_placementPoint {t : TaskId} (hq : Quiet s) : Quiet (placementPoint t n s) := by
  exact hq.of_tasks (placementPoint_tasks t n s)

theorem roundEnd_gives (hq : Quiet s) (ht : (coreOf s n).task = some k.id) (hk : taskOf s k.id = some k) :
    ((coreOf s n).phase = .running → k.atRound = true → k.st = .running →
        Gives (.roundEnd n) s (placementPoint k.id n (modTask k.id (fun k => { k with atRound := false }) s)))
      ∧ (k.atRound = false → Gives (.roundEnd n) s s) := by
  have hb : (coreOf (setPending [] s) n).task.bind (taskOf (setPending [] s)) = some k := bind_taskOf ht hk
  refine ⟨fun hph hr hst => gives_of_quiet (by unfold exec; rfl) ?_ (quiet_placementPoint (quiet_modTask hq (by intro; rfl) (by intro; rfl))),
    fun hr => gives_of_effect (by unfold exec; rfl) hq ?_ rfl⟩
  · rw [hb]
    exact (if_pos ⟨hr, hph, hst⟩).trans
      (placementPoint_setPending k.id n [] (modTask k.id (fun k => { k with atRound := false }) s))
  · rw [hb]
    exact if_neg fun h => Bool.false_ne_true (hr.symm.trans h.1)

theorem placementPoint_takes {r : Task} {p : Program} (hk : taskOf s k.id = some k) (hp : progOf s k.id.handle = some p)
    (hhold : replayHolds p k = false) (hph : (coreOf s n).phase = .running) (hinc : (coreOf s n).incoming = none)
    (hr : (readyTasks s).find? (fun r => decide (k.prio ≤ r.prio) && (claimOf s r.id).isNone && (idleFor s r.id).isNone && mayRun s r.id n) = some r) :
    placementPoint k.id n s = modCore n (fun c => { c with phase := .stopping, incoming := some r.id, yielded := true }) s := by
  have hno : ¬((coreOf s n).phase ≠ .running ∨ (coreOf s n).incoming.isSome ∨ (progOf s k.id.handle).elim false (fun p => replayHolds p k)) := by
    rw [hph, hinc, hp, Option.elim_some, hhold]
    simp
  unfold placementPoint
  rw [hk]
  dsimp only
  rw [if_neg hno, hr]

theorem rbtWaitAlarm_gives {us : ℕ} (hq : Quiet s) (h0 : rdF s Reg.rbtCfg.base 0 16 ≠ 0) (hlt : rdF s Reg.rbtCfg.base 0 16 < us)
    (hr : readyTasks s ≠ []) : Gives (.rbtWaitAlarm us) s (setCtr (Reg.rbtSnapCnt.base + 16) (max (ctrOf s (Reg.rbtSnapCnt.base + 16)) us)
        (setFlag Reg.rbtStatus.base 0 s)) := by
  refine gives_of_effect (by unfold exec; rfl) hq ?_ rfl
  exact if_pos ⟨h0, hlt, List.isEmpty_eq_false_iff.mpr hr⟩

theorem replayStopReached_gives {p : Program} {r : ReplayStop} (hq : Quiet s) (h : replayTask s n = some (k, p, r)) :
    Gives (.replayStopReached n) s (modProg p.handle (fun p => { p with replay := some { r with reached := true } }) s) := by
  refine gives_of_effect (by unfold exec; rfl) hq ?_ rfl
  rw [show replayTask (setPending [] s) n = some (k, p, r) from h]
  rfl

end

/-! ## The dump of a replay stop -/

/-- The dump of a task that a replay stop holds, and the stop of its program. -/
def dumpAndStop (cr : CoreRun) (m : MemRun) (k : Task) (p : Program) (r : ReplayStop) (s : State) : State :=
  let s := cr.tb.foldl (fun s h => tileEcc cr.n k.id h s) (seeEcc m.ecc s)
  let k := (taskOf s k.id).getD k
  let (st, s) := runWrite m r.dump (replayDump cr.n k) s
  let s := if st = Stat.ok then dumpPoison k.regs r.dump s else s
  stopProgram p.handle
    (postEvent 7 2 p.handle 0 Stat.ok (leBytes 2 k.id.tmpl ++ leBytes 2 k.id.inst ++ leBytes 1 cr.n ++ leBytes 4 k.regs.next) s)

theorem dumpAndStop_setPending (cr : CoreRun) (m : MemRun) (k : Task) (p : Program) (r : ReplayStop) (q : List Instr) (s : State) :
    dumpAndStop cr m k p r (setPending q s) = setPending q (dumpAndStop cr m k p r s) := by
  unfold dumpAndStop
  rw [seeEcc_setPending, foldl_setPending _ (fun q s h => tileEcc_setPending _ _ h q s)]
  generalize cr.tb.foldl (fun s h => tileEcc cr.n k.id h s) (seeEcc m.ecc s) = u
  dsimp only
  rw [taskOf_setPending, runWrite_setPending]
  generalize runWrite m r.dump _ u = v
  obtain ⟨st, v⟩ := v
  dsimp only
  rw [dumpPoison_setPending, ite_setPending, postEvent_setPending, stopProgram_setPending]

/-- What REPLAY_DUMP_WRITTEN does. -/
def replayWritten (cr : CoreRun) (m : MemRun) (s : State) : State :=
  match replayTask s cr.n with
  | none => s
  | some (k, p, r) => if !r.reached || !k.waits.isEmpty || k.passes != 0 then s else dumpAndStop cr m k p r s

theorem exec_replayDumpWritten (cr : CoreRun) (m : MemRun) (s : State) : exec (.replayDumpWritten cr m) s = run (replayWritten cr m) s := by
  unfold exec
  rfl

theorem replayWritten_blind (cr : CoreRun) (m : MemRun) : Blind (replayWritten cr m) := by
  intro q s
  unfold replayWritten
  rw [replayTask_setPending]
  cases replayTask s cr.n with
  | none => rfl
  | some x =>
    dsimp only
    rw [dumpAndStop_setPending]
    exact ite_setPending _ _ _ _

theorem replayDumpWritten_gives {cr : CoreRun} {mr : MemRun} {n : ℕ} {k k0 : Task} {p : Program} {r : ReplayStop} {s s0 s1 : State} {st : ℕ}
    (hn : cr.n = n) (h : replayTask s n = some (k, p, r)) (hr : r.reached = true) (hw : k.waits = []) (hp : k.passes = 0)
    (h0 : s0 = cr.tb.foldl (fun s h => tileEcc n k.id h s) (seeEcc mr.ecc s)) (hk : taskOf s0 k.id = some k0)
    (hrun : runWrite mr r.dump (replayDump n k0) s0 = (st, s1)) :
    GivesThen (.replayDumpWritten cr mr) s (stopProgram p.handle
        (postEvent 7 2 p.handle 0 Stat.ok (leBytes 2 k.id.tmpl ++ leBytes 2 k.id.inst ++ leBytes 1 n ++ leBytes 4 k0.regs.next)
          (if st = Stat.ok then dumpPoison k0.regs r.dump s1 else s1))) := by
  have hid : k0.id = k.id := beq_iff_eq.mp (List.find?_some (p := fun x : Task => x.id == k.id) hk)
  subst hn
  refine givesThen_run (exec_replayDumpWritten cr mr s) (replayWritten_blind cr mr) ?_
  unfold replayWritten
  rw [h]
  dsimp only
  rw [hr, hw, hp, if_neg (by decide)]
  unfold dumpAndStop
  dsimp only
  rw [← h0, hk, Option.getD_some, hrun, hid]

/-! ## Images of registers -/

section
variable {α : Type} {f : α → List Byte} {c : ℕ} {l : List α}

theorem length_flatMap_const (hf : ∀ x, (f x).length = c) : (l.flatMap f).length = c * l.length := by
  rw [List.length_flatMap]
  simp [hf, Nat.mul_comm]

/-- The piece of a run of equal pieces that an index names. -/
theorem piece_of_flatMap (pre post : List Byte) (hf : ∀ x, (f x).length = c) {i : ℕ} (hi : i < l.length) :
    ((pre ++ (l.flatMap f ++ post)).drop (pre.length + c * i)).take c = f l[i] := by
  rw [← List.drop_drop, List.drop_left]
  induction l generalizing i with
  | nil => cases hi
  | cons x l ih =>
    rw [List.flatMap_cons, List.append_assoc]
    cases i with
    | zero => exact List.take_left' (hf x)
    | succ i =>
      rw [Nat.mul_succ, Nat.add_comm, ← List.drop_drop, List.drop_left' (hf x)]
      exact ih (Nat.lt_of_succ_lt_succ hi)

/-- A run of numbers of `c` bytes, read back. -/
theorem leAt_flatMap (pre post : List Byte) (g : α → ℕ) {i : ℕ} (hi : i < l.length) :
    leAt (pre ++ (l.flatMap (fun x => leBytes c (g x)) ++ post)) (pre.length + c * i) c = g l[i] % 256 ^ c := by
  unfold leAt
  rw [piece_of_flatMap pre post (fun x => length_leBytes c (g x)) hi, ofLe_leBytes]

end

theorem dwords_of_image (pre post : List Byte) (l : List DWord) :
    ((List.range l.length).map fun i => BitVec.ofNat 64 (leAt (pre ++ (l.flatMap (fun x => leBytes 8 x.toNat) ++ post)) (pre.length + 8 * i) 8)) = l := by
  refine List.ext_getElem (by simp) fun i h1 h2 => ?_
  rw [List.getElem_map, List.getElem_range, leAt_flatMap pre post (fun x : DWord => x.toNat) h2, Nat.mod_eq_of_lt (lt_of_lt_of_le (BitVec.isLt _) (by norm_num)),
    BitVec.ofNat_toNat]
  rfl

theorem accs_of_image (pre post : List Byte) (l : List (BitVec 144)) :
    ((List.range l.length).map fun i => BitVec.ofNat 144 (leAt (pre ++ (l.flatMap (fun x => leBytes 18 x.toNat) ++ post)) (pre.length + 18 * i) 18))
      = l := by
  refine List.ext_getElem (by simp) fun i h1 h2 => ?_
  rw [List.getElem_map, List.getElem_range, leAt_flatMap pre post (fun x : BitVec 144 => x.toNat) h2, Nat.mod_eq_of_lt (lt_of_lt_of_le (BitVec.isLt _) (by norm_num)),
    BitVec.ofNat_toNat]
  rfl

/-- A save area gives the registers back that it took. -/
theorem loadImage_saveImage (r : TaskRegs) (bad : ℕ → Bool) (hs : r.s.length = 32) (ht : r.t.length = 32) (hv : r.v.length = 32)
    (ha : r.acc.length = 256) : (loadImage (saveImage r) bad r).s = r.s ∧ (loadImage (saveImage r) bad r).t = r.t
        ∧ (loadImage (saveImage r) bad r).v = r.v.map (padTo 256) ∧ (loadImage (saveImage r) bad r).acc = r.acc := by
  obtain ⟨S, hS⟩ : ∃ S, S = r.s.flatMap fun x => leBytes 8 x.toNat := ⟨_, rfl⟩
  obtain ⟨T, hT⟩ : ∃ T, T = r.t.flatMap fun x => leBytes 8 x.toNat := ⟨_, rfl⟩
  obtain ⟨V, hV⟩ : ∃ V, V = r.v.flatMap (padTo 256) := ⟨_, rfl⟩
  obtain ⟨A, hA⟩ : ∃ A, A = r.acc.flatMap fun x => leBytes 18 x.toNat := ⟨_, rfl⟩
  obtain ⟨L, hL⟩ : ∃ L, L = (liveWords r).flatMap fun w => tbRead r (8 * w) 8 := ⟨_, rfl⟩
  have himg : saveImage r = S ++ T ++ V ++ A ++ L := by
    rw [hS, hT, hV, hA, hL]
    rfl
  have hSl : S.length = 256 := by
    rw [hS, length_flatMap_const (c := 8) (fun x => length_leBytes _ _), hs]
  have hTl : (S ++ T).length = 512 := by
    rw [List.length_append, hSl, hT, length_flatMap_const (c := 8) (fun x => length_leBytes _ _), ht]
  have hVl : (S ++ T ++ V).length = 8704 := by
    rw [List.length_append, hTl, hV, length_flatMap_const (c := 256) (fun x => length_padTo _ _), hv]
  refine ⟨?_, ?_, ?_, ?_⟩
  · have h := dwords_of_image [] (T ++ V ++ A ++ L) r.s
    rw [← hS, hs] at h
    unfold loadImage
    rw [himg]
    simpa only [List.append_assoc, List.nil_append, List.length_nil, Nat.zero_add] using h
  · have h := dwords_of_image S (V ++ A ++ L) r.t
    rw [← hT, ht, hSl] at h
    unfold loadImage
    rw [himg]
    simpa only [List.append_assoc] using h
  · unfold loadImage
    rw [himg]
    refine List.ext_getElem (by simp [hv]) fun i h1 h2 => ?_
    rw [List.length_map] at h2
    have h := piece_of_flatMap (S ++ T) (A ++ L) (c := 256) (fun x => length_padTo 256 x) h2
    rw [← hV, hTl] at h
    rw [List.getElem_map, List.getElem_range, List.getElem_map]
    simpa only [List.append_assoc] using h
  · have h := accs_of_image (S ++ T ++ V) L r.acc
    rw [← hA, ha, hVl] at h
    unfold loadImage
    rw [himg]
    simpa only [List.append_assoc] using h

theorem length_replayDump {n : ℕ} {k : Task} (hs : k.regs.s.length = 32) (ht : k.regs.t.length = 32) (hv : k.regs.v.length = 32)
    (hacc : k.regs.acc.length = 256) (ha : k.regs.a.length = 16) (hlc : k.regs.lc.length = 8) (hl : k.regs.local_.length = 64) :
    (replayDump n k).length = 4208064 := by
  have hle {α : Type} (c : ℕ) (g : α → ℕ) (l : List α) : (l.flatMap fun x => leBytes c (g x)).length = c * l.length :=
    length_flatMap_const fun x => length_leBytes c (g x)
  have hvec : (k.regs.v.flatMap (padTo 256)).length = 256 * k.regs.v.length := length_flatMap_const fun x => length_padTo 256 x
  unfold replayDump
  dsimp only
  simp only [List.length_append, length_leBytes, hle, hvec, tbRead_length, length_padTo, List.length_replicate, hs, ht, hv, hacc, ha, hlc, hl]
  rfl

/-! ## Saves end -/

/-- What reading a task's live set leaves: the poison that it met, in the task's own registers. -/
structure LiveRead (t : TaskId) (s u : State) : Prop where
  cores : u.cores = s.cores
  tokens : u.tokens = s.tokens
  led : u.led = s.led
  sq : u.sq = s.sq
  mem : u.mem = s.mem
  progs : u.progs = s.progs
  quiet : Quiet s → Quiet u
  other : ∀ i, i ≠ t → taskOf u i = taskOf s i
  same : ∀ k, taskOf s t = some k → ∃ r, taskOf u t = some { k with regs := r }

section
variable {n : ℕ} {t : TaskId} {k : Task} {s : State}

theorem LiveRead.refl (t : TaskId) (s : State) : LiveRead t s s := ⟨rfl, rfl, rfl, rfl, rfl, rfl, id, fun _ _ => rfl, fun k hk => ⟨k.regs, hk⟩⟩

theorem LiveRead.trans {u v : State} (h : LiveRead t s u) (h' : LiveRead t u v) : LiveRead t s v where
  cores := h'.cores.trans h.cores
  tokens := h'.tokens.trans h.tokens
  led := h'.led.trans h.led
  sq := h'.sq.trans h.sq
  mem := h'.mem.trans h.mem
  progs := h'.progs.trans h.progs
  quiet := h'.quiet ∘ h.quiet
  other := fun i hi => (h'.other i hi).trans (h.other i hi)
  same := fun k hk => by
    obtain ⟨r, hr⟩ := h.same k hk
    exact h'.same { k with regs := r } hr

theorem liveRead_tileEcc (n : ℕ) (t : TaskId) (h : EccHit) (s : State) : LiveRead t s (tileEcc n t h s) := by
  unfold tileEcc
  split
  · exact .refl t s
  · split
    · refine ⟨rfl, rfl, rfl, rfl, rfl, rfl, fun hq => ?_, fun i hi => taskOf_modTask_other (by intro; rfl) hi, fun k hk => ?_⟩
      · exact quiet_modTask (hq.of_tasks rfl) (by intro; rfl) (by intro; rfl)
      · refine ⟨{ k.regs with tbPoison := poisonAdd k.regs.tbPoison h.word }, ?_⟩
        exact (taskOf_modTask (by intro; rfl)).trans (congrArg (Option.map _) hk)
    · exact ⟨rfl, rfl, rfl, rfl, rfl, rfl, fun hq => hq.of_tasks rfl, fun _ _ => rfl, fun k hk => ⟨k.regs, hk⟩⟩

theorem liveRead_foldl (n : ℕ) (t : TaskId) (l : List EccHit) (s : State) : LiveRead t s (l.foldl (fun s h => tileEcc n t h s) s) := by
  induction l generalizing s with
  | nil => exact .refl t s
  | cons h l ih => exact (liveRead_tileEcc n t h s).trans (ih _)

theorem liveRead_readLive (n : ℕ) (t : TaskId) (ecc : List EccHit) (s : State) : LiveRead t s (readLive n t ecc s) := by
  unfold readLive
  split
  · exact .refl t s
  · exact liveRead_foldl n t _ s

theorem liveRead_readForSave {ecc : List EccHit} {u : State} (h : readForSave n t ecc s = (true, u)) : LiveRead t s u := by
  unfold readForSave at h
  dsimp only at h
  split at h
  · cases h
  · cases h
    exact liveRead_readLive n t ecc s

/-- The save of a task, and the core that it leaves. -/
def saveOff (c : TensorCore) (n : ℕ) (k : Task) (s : State) : State :=
  modTask k.id (fun k => { k with regs := keepLive k.regs, core := none, ran := true, saved := true, atRound := false })
    (freeCore n (count (Reg.rbtSnapCnt.base + 20) (moveNs s n 50 (liveBytes k.regs))
      (bump Reg.rbtSnapCnt.base (if c.yielded then 2 else if k.st = .parked then 3 else 1) (setFlag (Reg.seqStatus.off n 0) 1 (writeSave k s)))))

/-- A saved task waits in the state that its own state gives. -/
def putAside (k : Task) (s : State) : State := if k.st = .parked then modTask k.id (fun k => { k with st := .saved }) s else makeReady k.id s

/-- The task that displaced another enters. -/
def enterNext (c : TensorCore) (n : ℕ) (s : State) : State :=
  match c.incoming.bind (taskOf s) with
  | some i => if i.st = .ready then placeOn i.id n s else s
  | none => s

/-- What TASK_SAVE_DONE does. -/
def saveDone (core : CoreRun) (s : State) : State :=
  match (coreOf s core.n).phase, (coreOf s core.n).task.bind (taskOf s) with
  | .saving, some k =>
    match readForSave core.n k.id core.tb s with
    | (false, u) => u
    | (true, u) => enterNext (coreOf s core.n) core.n
        (putAside ((taskOf u k.id).getD k) (saveOff (coreOf s core.n) core.n ((taskOf u k.id).getD k) u))
  | _, _ => s

theorem exec_taskSaveDone (core : CoreRun) (s : State) : exec (.taskSaveDone core) s = run (saveDone core) s := by
  unfold exec
  rfl

theorem saveOff_setPending (c : TensorCore) (n : ℕ) (k : Task) (q : List Instr) (s : State) :
    saveOff c n k (setPending q s) = setPending q (saveOff c n k s) := by
  unfold saveOff
  rw [writeSave_setPending]
  rfl

theorem putAside_setPending (k : Task) (q : List Instr) (s : State) : putAside k (setPending q s) = setPending q (putAside k s) := by
  unfold putAside
  rw [makeReady_setPending]
  exact ite_setPending (k.st = .parked) q (modTask k.id (fun k => { k with st := .saved }) s) (makeReady k.id s)

theorem enterNext_setPending (c : TensorCore) (n : ℕ) (q : List Instr) (s : State) : enterNext c n (setPending q s) = setPending q (enterNext c n s) := by
  unfold enterNext
  rw [show taskOf (setPending q s) = taskOf s from rfl]
  cases c.incoming.bind (taskOf s) with
  | none => rfl
  | some i =>
    dsimp only
    rw [placeOn_setPending]
    exact ite_setPending _ _ _ _

theorem saveDone_blind (core : CoreRun) : Blind (saveDone core) := by
  intro q s
  unfold saveDone
  rw [coreOf_setPending, show taskOf (setPending q s) = taskOf s from rfl]
  cases (coreOf s core.n).phase with
  | saving =>
    cases (coreOf s core.n).task.bind (taskOf s) with
    | none => rfl
    | some k =>
      dsimp only
      rw [readForSave_setPending]
      generalize readForSave core.n k.id core.tb s = r
      obtain ⟨good, u⟩ := r
      cases good with
      | false => rfl
      | true =>
        dsimp only
        rw [taskOf_setPending, saveOff_setPending, putAside_setPending, enterNext_setPending]
  | _ => rfl

end

/-- Two states that agree on what a switch of tasks leaves alone. -/
structure SwitchFrame (s u : State) : Prop where
  regs : u.regs = s.regs
  fuse : u.fuse = s.fuse
  tokens : u.tokens = s.tokens
  led : u.led = s.led
  sq : u.sq = s.sq
  mem : u.mem = s.mem

/-- Registers and fuses decide what a register reads. -/
theorem rd_of_regs {s u : State} (hr : u.regs = s.regs) (hf : u.fuse = s.fuse) (off : ℕ) : rd u off = rd s off := by
  unfold rd rdW
  rw [hr, hf]

section
variable {c : TensorCore} {cr : CoreRun} {n : ℕ} {k k0 : Task} {p : Program} {i : TaskId} {s u : State}

theorem SwitchFrame.trans {v : State} (h : SwitchFrame s u) (h' : SwitchFrame u v) : SwitchFrame s v :=
  ⟨h'.regs.trans h.regs, h'.fuse.trans h.fuse, h'.tokens.trans h.tokens, h'.led.trans h.led, h'.sq.trans h.sq, h'.mem.trans h.mem⟩

theorem switchFrame_putAside (k : Task) (s : State) : SwitchFrame s (putAside k s) := by
  unfold putAside
  split <;> exact ⟨rfl, rfl, rfl, rfl, rfl, rfl⟩

theorem switchFrame_enterNext (c : TensorCore) (n : ℕ) (s : State) : SwitchFrame s (enterNext c n s) := by
  unfold enterNext
  split
  · split <;> exact ⟨rfl, rfl, rfl, rfl, rfl, rfl⟩
  · exact ⟨rfl, rfl, rfl, rfl, rfl, rfl⟩

theorem switchFrame_saveOff (c : TensorCore) (n : ℕ) (k : Task) (s : State) :
    SwitchFrame (setFlag (Reg.seqStatus.off n 0) 1 (writeSave k s)) (saveOff c n k s) := ⟨rfl, rfl, rfl, rfl, rfl, rfl⟩

/-- What a save writes: its area, where the task has one. -/
theorem writeSave_cases (k : Task) (s : State) : (saveAt s k.id = none ∧ writeSave k s = s)
    ∨ ∃ a l, saveAt s k.id = some a ∧ writeSave k s = modSq (fun q => { q with poison := l }) (devPut a (saveImage k.regs) s) := by
  unfold writeSave
  cases h : saveAt s k.id with
  | none => exact .inl ⟨rfl, rfl⟩
  | some a => exact .inr ⟨a, _, rfl, rfl⟩

theorem writeSave_keeps (k : Task) (s : State) : (writeSave k s).tokens = s.tokens ∧ (writeSave k s).led = s.led ∧ (writeSave k s).sq.runs = s.sq.runs
    ∧ (writeSave k s).tasks = s.tasks ∧ (writeSave k s).cores = s.cores := by
  rcases writeSave_cases k s with ⟨-, h⟩ | ⟨a, l, -, h⟩
  · rw [h]
    exact ⟨rfl, rfl, rfl, rfl, rfl⟩
  · rw [h]
    exact ⟨rfl, rfl, rfl, rfl, rfl⟩

theorem saveAt_of (hp : progOf s k.id.handle = some p) : saveAt s k.id = (p.saves[taskIndex p k.id]?).map (· * 65536) := by
  unfold saveAt
  rw [hp]
  rfl

theorem writeSave_mem (hp : progOf s k.id.handle = some p) :
    (∀ g j, p.saves[taskIndex p k.id]? = some g → j < (saveImage k.regs).length →
        memGet (writeSave k s).mem (g * 65536 + j) = (saveImage k.regs).getD j 0)
      ∧ (∀ a, (∀ g, p.saves[taskIndex p k.id]? = some g → a < g * 65536 ∨ g * 65536 + (saveImage k.regs).length ≤ a) →
        memGet (writeSave k s).mem a = memGet s.mem a) := by
  have hat := saveAt_of hp
  rcases writeSave_cases k s with ⟨hnone, h⟩ | ⟨b, l, hsome, h⟩
  · rw [h]
    refine ⟨fun g j hg => ?_, fun _ _ => rfl⟩
    rw [hg] at hat
    cases hnone.symm.trans hat
  · rw [h]
    rw [hsome] at hat
    obtain ⟨g0, hg0, hb⟩ := Option.map_eq_some_iff.mp hat.symm
    subst hb
    refine ⟨fun g j hg hj => ?_, fun a ha => memGet_memWrite_other _ _ _ _ (ha g0 hg0)⟩
    cases hg0.symm.trans hg
    rw [List.getD_eq_getElem _ _ hj]
    exact memGet_memWrite_same _ _ _ _ hj

theorem taskOf_tasks {v : State} (h : v.tasks = u.tasks) : taskOf v i = taskOf u i := by
  unfold taskOf
  rw [h]

/-- The task after its save. -/
def savedTask (k : Task) : Task := { k with regs := keepLive k.regs, core := none, ran := true, saved := true, atRound := false }

theorem taskOf_saveOff_same (hk : taskOf s k.id = some k) : taskOf (saveOff c n k s) k.id = some (savedTask k) := by
  refine (taskOf_modTask (by intro; rfl)).trans ?_
  refine (congrArg (Option.map _) ((taskOf_tasks (writeSave_keeps k s).2.2.2.1).trans hk)).trans rfl

theorem taskOf_saveOff_other (hi : i ≠ k.id) : taskOf (saveOff c n k s) i = taskOf s i :=
  (taskOf_modTask_other (by intro; rfl) hi).trans (taskOf_tasks (writeSave_keeps k s).2.2.2.1)

theorem quiet_saveOff (hq : Quiet s) : Quiet (saveOff c n k s) :=
  quiet_modTask (hq.of_tasks (writeSave_keeps k s).2.2.2.1) (by intro; rfl) (by intro; rfl)

theorem coreOf_saveOff (hn : n < s.cores.length) : (coreOf (saveOff c n k s) n).phase = .idle ∧ (coreOf (saveOff c n k s) n).task = none := by
  have h : coreOf (saveOff c n k s) n
      = { coreOf (writeSave k s) n with phase := .idle, task := none, incoming := none, fresh := false, yielded := false } :=
    coreOf_modCore_same (by
      show n < (writeSave k s).cores.length
      rw [(writeSave_keeps k s).2.2.2.2]
      exact hn)
  rw [h]
  exact ⟨rfl, rfl⟩

theorem length_cores_saveOff : (saveOff c n k s).cores.length = s.cores.length :=
  (length_modAt _ _ _).trans (congrArg List.length (writeSave_keeps k s).2.2.2.2)

theorem putAside_cores : (putAside k u).cores = u.cores := by
  unfold putAside
  split <;> rfl

theorem quiet_putAside (hq : Quiet u) : Quiet (putAside k u) := by
  unfold putAside
  split
  · exact quiet_modTask hq (by intro; rfl) (by intro; rfl)
  · exact quiet_modTask (s := { u with stamp := u.stamp + 1 }) (hq.of_tasks rfl) (by intro; rfl) (by intro; rfl)

theorem taskOf_putAside_other (hi : i ≠ k.id) : taskOf (putAside k u) i = taskOf u i := by
  unfold putAside
  split
  · exact taskOf_modTask_other (by intro; rfl) hi
  · exact taskOf_modTask_other (s := { u with stamp := u.stamp + 1 }) (by intro; rfl) hi

theorem taskOf_putAside_same {x : Task} (hk : taskOf u k.id = some x) : ∃ k', taskOf (putAside k u) k.id = some k'
    ∧ k' = { x with st := if k.st = .parked then .saved else .ready, readyAt := k'.readyAt, readySince := k'.readySince } := by
  unfold putAside
  split
  · refine ⟨_, (taskOf_modTask (by intro; rfl)).trans (congrArg (Option.map _) hk), rfl⟩
  · refine ⟨_, (taskOf_modTask (s := { u with stamp := u.stamp + 1 }) (by intro; rfl)).trans (congrArg (Option.map _) hk), rfl⟩

theorem quiet_enterNext (hq : Quiet u) : Quiet (enterNext c n u) := by
  unfold enterNext
  split
  · split
    · exact quiet_placeOn hq
    · exact hq
  · exact hq

theorem taskOf_id {x : Task} (h : taskOf u i = some x) : x.id = i := beq_iff_eq.mp (List.find?_some (p := fun x : Task => x.id == i) h)

/-- The task that leaves is not the one that enters. -/
theorem taskOf_enterNext_other (hi : c.incoming ≠ some i) : taskOf (enterNext c n u) i = taskOf u i := by
  unfold enterNext
  split
  next x hx =>
    obtain ⟨j, hj, hxj⟩ := Option.bind_eq_some_iff.mp hx
    split
    · refine taskOf_placeOn_other fun he => hi ?_
      rw [he, taskOf_id hxj]
      exact hj
    · rfl
  next => rfl

theorem enterNext_none (h : c.incoming = none) : enterNext c n u = u := by
  unfold enterNext
  rw [h]
  rfl

theorem enterNext_ready {x : Task} (h : c.incoming = some i) (hx : taskOf u i = some x) (hst : x.st = .ready) : enterNext c n u = placeOn i n u := by
  unfold enterNext
  rw [h, Option.bind_some, hx]
  dsimp only
  rw [if_pos hst, taskOf_id hx]

theorem saveDone_saved {s0 : State} (hn : cr.n = n) (ht : (coreOf s n).task = some k.id) (hk : taskOf s k.id = some k)
    (hph : (coreOf s n).phase = .saving) (hr : readForSave n k.id cr.tb s = (true, s0)) (hk0 : taskOf s0 k.id = some k0) :
    saveDone cr s = enterNext (coreOf s n) n (putAside k0 (saveOff (coreOf s n) n k0 s0)) := by
  subst hn
  unfold saveDone
  rw [hph, bind_taskOf ht hk]
  dsimp only
  rw [hr]
  dsimp only
  rw [hk0]
  rfl

theorem taskSaveDone_poisoned {s0 : State} (hn : cr.n = n) (ht : (coreOf s n).task = some k.id) (hk : taskOf s k.id = some k)
    (hph : (coreOf s n).phase = .saving) (hr : readForSave n k.id cr.tb s = (false, s0)) : GivesThen (.taskSaveDone cr) s s0 := by
  subst hn
  refine givesThen_run (exec_taskSaveDone cr s) (saveDone_blind cr) ?_
  unfold saveDone
  rw [hph, bind_taskOf ht hk]
  dsimp only
  rw [hr]

theorem taskSaveDone_gives {s0 : State} (hq : Quiet s) (hn : cr.n = n) (ht : (coreOf s n).task = some k.id) (hk : taskOf s k.id = some k)
    (hp : progOf s k.id.handle = some p) (hph : (coreOf s n).phase = .saving) (hinc : (coreOf s n).incoming ≠ some k.id)
    (hr : readForSave n k.id cr.tb s = (true, s0)) (hk0 : taskOf s0 k.id = some k0) :
    ∃ k' t, Gives (.taskSaveDone cr) s t ∧ taskOf t k.id = some k' ∧ k'.regs = keepLive k0.regs ∧ k'.saved = true ∧ k'.core = none
        ∧ k'.ckpt = k.ckpt ∧ k'.waits = k.waits ∧ k'.st = (if k.st = .parked then .saved else .ready)
        ∧ flagOf t (Reg.seqStatus.off n 0) 1 = true ∧ t.tokens = s.tokens ∧ t.led = s.led ∧ t.sq.runs = s.sq.runs
        ∧ (∀ g j, p.saves[taskIndex p k.id]? = some g → j < (saveImage k0.regs).length →
            memGet t.mem (g * 65536 + j) = (saveImage k0.regs).getD j 0)
        ∧ (∀ a, (∀ g, p.saves[taskIndex p k.id]? = some g → a < g * 65536 ∨ g * 65536 + (saveImage k0.regs).length ≤ a) →
            memGet t.mem a = memGet s.mem a)
        ∧ ((coreOf s n).incoming = none → (coreOf t n).phase = .idle ∧ (coreOf t n).task = none)
        ∧ (∀ i x, (coreOf s n).incoming = some i → taskOf s i = some x → x.st = .ready →
            (coreOf t n).phase = .restoring ∧ (coreOf t n).task = some i ∧ (taskOf t i).map (·.st) = some .running) := by
  have hread := liveRead_readForSave hr
  have hid : k0.id = k.id := taskOf_id hk0
  obtain ⟨r, hkr⟩ := hread.same k hk
  have hk0k : k0 = { k with regs := r } := Option.some.inj (hk0.symm.trans hkr)
  have hk0' : taskOf s0 k0.id = some k0 := hid ▸ hk0
  have hp0 : progOf s0 k0.id.handle = some p := by
    unfold progOf
    rw [hread.progs, hid]
    exact hp
  have hlen : n < s0.cores.length := hread.cores ▸ core_lt_of_task ht
  obtain ⟨c, hc⟩ : ∃ c, c = coreOf s n := ⟨_, rfl⟩
  obtain ⟨u, hu⟩ : ∃ u, u = putAside k0 (saveOff c n k0 s0) := ⟨_, rfl⟩
  have hbody : saveDone cr s = enterNext c n u := by
    rw [saveDone_saved hn ht hk hph hr hk0, hu, hc]
  have hframe : SwitchFrame (setFlag (Reg.seqStatus.off n 0) 1 (writeSave k0 s0)) (enterNext c n u) :=
    ((switchFrame_saveOff c n k0 s0).trans (hu ▸ switchFrame_putAside k0 _)).trans (switchFrame_enterNext c n u)
  obtain ⟨k', hk', hke⟩ := taskOf_putAside_same (k := k0) (taskOf_saveOff_same (c := c) (n := n) hk0')
  rw [← hu] at hk'
  have hquiet : Quiet u := hu ▸ quiet_putAside (quiet_saveOff (hread.quiet hq))
  have hucores : u.cores = (saveOff c n k0 s0).cores := hu ▸ putAside_cores
  obtain ⟨hidle, hempty⟩ : (coreOf u n).phase = .idle ∧ (coreOf u n).task = none := by
    have h := coreOf_saveOff (c := c) (k := k0) hlen
    unfold coreOf at h ⊢
    rwa [hucores]
  obtain ⟨hmem, hout⟩ := writeSave_mem hp0
  obtain ⟨htok, hled, hruns, -, -⟩ := writeSave_keeps k0 s0
  rw [hid] at hmem hout
  refine ⟨k', enterNext c n u, gives_run (exec_taskSaveDone cr s) (saveDone_blind cr) hbody (quiet_enterNext hquiet), ?_, ?_, ?_, ?_, ?_, ?_, ?_, ?_,
    hframe.tokens.trans (htok.trans hread.tokens), hframe.led.trans (hled.trans hread.led), ?_, ?_, ?_, ?_, ?_⟩
  · rw [taskOf_enterNext_other (hc ▸ hinc), ← hid]
    exact hk'
  · rw [hke]
    rfl
  · rw [hke]
    rfl
  · rw [hke]
    rfl
  · rw [hke, hk0k]
    rfl
  · rw [hke, hk0k]
    rfl
  · rw [hke, hk0k]
  · have h := flagOf_setFlag (Reg.seqStatus.off n 0) 1 1 (writeSave k0 s0) (by decide) (by decide)
    have hrd : rd (enterNext c n u) (Reg.seqStatus.off n 0) =
        rd (setFlag (Reg.seqStatus.off n 0) 1 (writeSave k0 s0)) (Reg.seqStatus.off n 0) :=
      rd_of_regs hframe.regs hframe.fuse _
    unfold flagOf at h ⊢
    rw [hrd, h]
    exact Bool.or_true _
  · rw [hframe.sq]
    exact hruns.trans (congrArg Square.runs hread.sq)
  · intro g j hg hj
    rw [hframe.mem]
    exact hmem g j hg hj
  · intro a ha
    rw [hframe.mem]
    exact (hout a ha).trans (congrArg (fun m => memGet m a) hread.mem)
  · intro hno
    rw [enterNext_none (hc ▸ hno)]
    exact ⟨hidle, hempty⟩
  · intro i x hi hx hst
    have hne : i ≠ k.id := fun he => hinc (he ▸ hi)
    have hxu : taskOf u i = some x := by
      rw [hu, taskOf_putAside_other (hid ▸ hne), taskOf_saveOff_other (hid ▸ hne), hread.other i hne]
      exact hx
    have hlenu : n < u.cores.length := by
      rw [hucores, length_cores_saveOff]
      exact hlen
    obtain ⟨htask, hphase, -⟩ := coreOf_placeOn_same (t := i) hlenu
    rw [enterNext_ready (hc ▸ hi) hxu hst, taskOf_placeOn_same, hxu]
    exact ⟨hphase, htask, rfl⟩

end

/-! ## The statement -/

/-- Settles O39: placement takes the lowest idle core in the order of the READY tasks, a save and a restore are functions of the task and
its core, and a round's end and a replay stop act as their conditions say. -/
theorem schedulerRows : Obligations.SchedulerRows := by
  intro cr mr n k s hq hn
  have hnone (hr : readyTasks s = []) : placeAll s = s := by
    unfold placeAll
    rw [hr, List.foldl_nil]
    dsimp only
    rw [hr, List.foldl_nil]
  refine ⟨fun hr => taskPlacement_gives (hnone hr) hq,
    fun m hr hk hc hi => (taskPlacement_alone hq hr hk hc).1 m hi,
    fun m hr hk hc hi hv => (taskPlacement_alone hq hr hk hc).2.1 m hi hv,
    fun hr hk hc hi hv => (taskPlacement_alone hq hr hk hc).2.2 hi hv,
    ⟨readyTasks_inOrder s, fun x => mem_readyTasks⟩,
    fun a b ha hb h => readyKey_lt ha hb h,
    fun ks m hr hnd hfree hi => taskPlacement_first hq hr hnd hfree hi,
    fun m hi hd => idleFor_lowest hd hi,
    fun ht hk hph h0 => (taskSaveStart_gives hq hn ht hk hph).1 h0,
    fun ht hk hph h0 => (taskSaveStart_gives hq hn ht hk hph).2 h0,
    fun p k0 s0 ht hk hp hph hinc hr hk0 => taskSaveDone_gives hq hn ht hk hp hph hinc hr hk0,
    fun s0 ht hk hph hr => taskSaveDone_poisoned hn ht hk hph hr,
    fun r bad hs ht hv ha => loadImage_saveImage r bad hs ht hv ha,
    ?_,
    fun ht hk => roundEnd_gives hq ht hk,
    fun r p hk hp hhold hph hinc hr => placementPoint_takes hk hp hhold hph hinc hr,
    fun us h0 hlt hr => rbtWaitAlarm_gives hq h0 hlt hr,
    fun p r h => replayStopReached_gives hq h,
    fun p r k0 s0 st s1 h hr hw hp h0 hk hrun => replayDumpWritten_gives hn h hr hw hp h0 hk hrun,
    fun hs ht hv hacc ha hlc hl => length_replayDump hs ht hv hacc ha hlc hl⟩
  intro u ht hk hph hg ha hu
  subst hu
  exact taskRestoreDone_cases hq hn ht hk hph hg ha

end Sys2Proof.Machine
end

