-- ==== Sys2Proof/Proofs/FenceRows.lean ====
section
/-! Residue checks, fenced cores, and the recovery of their tasks. -/

namespace Sys2Proof.Machine

open Sys2Proof

/-! ## Tokens as they settle -/

section
variable {R : State → State → Prop} (hR : ServiceKept R)
include hR

theorem ServiceKept.settleToken (h i : ℕ) (s : State) : R s (settleToken h i s) := by
  unfold Machine.settleToken
  exact hR.trans (hR.oneClock (hR.serveToken h i s)) (hR.drainSigs _ h i _)

theorem ServiceKept.giveBack (h i amt : ℕ) (item : Option Word) (s : State) : R s (giveBack h i amt item s).2 := by
  unfold Machine.giveBack
  split
  · exact hR.refl s
  split
  · split
    · exact hR.refl s
    · exact hR.trans (hR.tok h i _ s) (hR.trans (hR.lowWater h i _) (hR.settleToken h i _))
  split
  · exact hR.refl s
  split
  · exact hR.trans (hR.tok h i _ s) (hR.settleToken h i _)
  · exact hR.tok h i _ s

theorem ServiceKept.giveBackAll (h : ℕ) (es : List RecEntry) (s : State) : R s (giveBackAll h es s).2 := by
  induction es generalizing s with
  | nil => exact hR.refl s
  | cons e es ih =>
    cases e with
    | take k amt item st =>
      unfold Machine.giveBackAll
      dsimp only
      split
      · exact hR.trans (hR.giveBack _ _ _ _ s) (ih _)
      · exact hR.giveBack _ _ _ _ s
    | _ => exact ih s

end

/-! ## What settling tokens, ending items and ending tasks leave of the cores and the programs -/

/-- A core that stands in its place as before, and holds its task or none. -/
structure PlaceKept (c d : TensorCore) : Prop where
  st : d.st = c.st
  rank : d.rank = c.rank
  roused : d.roused = c.roused
  task : d.task = c.task ∨ d.task = none

theorem PlaceKept.refl (c : TensorCore) : PlaceKept c c := ⟨rfl, rfl, rfl, .inl rfl⟩

theorem PlaceKept.trans {c d e : TensorCore} (h : PlaceKept c d) (h' : PlaceKept d e) : PlaceKept c e := by
  refine ⟨h'.st.trans h.st, h'.rank.trans h.rank, h'.roused.trans h.roused, ?_⟩
  rcases h'.task with ht | ht
  · rw [ht]
    exact h.task
  · exact .inr ht

/-- The programs, the Roundabout's status, the cores' places and the tasks' checkpoints stay. -/
structure PlacesKept (s u : State) : Prop where
  progs : u.progs = s.progs
  rbt : rdW u Reg.rbtStatus.base = rdW s Reg.rbtStatus.base
  cores (n : ℕ) : PlaceKept (coreOf s n) (coreOf u n)
  ckpt (t : TaskId) (k : Task) : taskOf s t = some k → ∃ k', taskOf u t = some k' ∧ k'.ckpt = k.ckpt

section
variable {s u : State}

theorem PlacesKept.refl (s : State) : PlacesKept s s := ⟨rfl, rfl, fun _ => .refl _, fun _ k h => ⟨k, h, rfl⟩⟩

theorem PlacesKept.trans {v : State} (h : PlacesKept s u) (h' : PlacesKept u v) : PlacesKept s v := by
  refine ⟨h'.progs.trans h.progs, h'.rbt.trans h.rbt, fun n => (h.cores n).trans (h'.cores n), fun t k hk => ?_⟩
  obtain ⟨k1, hk1, hc1⟩ := h.ckpt t k hk
  obtain ⟨k2, hk2, hc2⟩ := h'.ckpt t k1 hk1
  exact ⟨k2, hk2, hc2.trans hc1⟩

theorem placesKept_of (hp : u.progs = s.progs) (hr : rdW u Reg.rbtStatus.base = rdW s Reg.rbtStatus.base) (hc : u.cores = s.cores)
    (ht : u.tasks = s.tasks) : PlacesKept s u := by
  refine ⟨hp, hr, fun n => ?_, fun t k hk => ⟨k, ?_, rfl⟩⟩
  · unfold coreOf
    rw [hc]
    exact .refl _
  · unfold taskOf at hk ⊢
    rwa [ht]

theorem placesKept_setFlag {off : ℕ} (bit : ℕ) (s : State) (h : Reg.rbtStatus.base ≠ off) : PlacesKept s (setFlag off bit s) :=
  placesKept_of rfl (rdW_setFlag_other _ _ _ _ h) rfl rfl

theorem placesKept_postEvent (cls code ref pos st : ℕ) (d : List Byte) (s : State) : PlacesKept s (postEvent cls code ref pos st d s) := by
  have h := eventFrame_postEvent cls code ref pos st d s
  have hr := rdW_postEvent (r := Reg.rbtStatus.base) (by unfold EventFree; decide) cls code ref pos st d s
  rw [EventFrame] at h
  refine placesKept_of ?_ hr ?_ ?_ <;> rw [h]

theorem placesKept_modTask (t : TaskId) {f : Task → Task} (s : State) (hf : ∀ k, (f k).id = k.id ∧ (f k).ckpt = k.ckpt) :
    PlacesKept s (modTask t f s) := by
  refine ⟨rfl, rfl, fun _ => .refl _, fun x k hk => ?_⟩
  rcases find_updFirst_or (p := fun y : Task => y.id == t) (f := f) (fun y => by rw [(hf y).1]) hk with h | h
  · exact ⟨k, h, rfl⟩
  · exact ⟨f k, h, (hf k).2⟩

theorem placesKept_cores {l : List TensorCore} (h : ∀ n, PlaceKept (coreOf s n) (l.getD n (TensorCore.idle 2 0))) :
    PlacesKept s { s with cores := l } := ⟨rfl, rfl, h, fun _ k hk => ⟨k, hk, rfl⟩⟩

theorem coreOf_modCore_past {n : ℕ} {f : TensorCore → TensorCore} (h : ¬n < s.cores.length) : coreOf (modCore n f s) n = coreOf s n := by
  have hle := Nat.le_of_not_lt h
  show (modAt n f s.cores).getD n _ = s.cores.getD n _
  rw [List.getD_eq_default _ _ hle, List.getD_eq_default _ _ (length_modAt n f s.cores ▸ hle)]

theorem placesKept_modCore (n : ℕ) {f : TensorCore → TensorCore} (s : State) (hf : ∀ c, PlaceKept c (f c)) : PlacesKept s (modCore n f s) := by
  refine placesKept_cores fun j => ?_
  by_cases hj : j = n
  · subst hj
    by_cases hlen : j < s.cores.length
    · rw [getD_modAt_same f _ hlen]
      exact hf _
    · rw [show (modAt j f s.cores).getD j _ = _ from coreOf_modCore_past hlen]
      exact .refl _
  · rw [getD_modAt_other f _ hj]
    exact .refl _

theorem portStatus_ne_rbt (p : ℕ) : Reg.rbtStatus.base ≠ portStatus p := by
  unfold portStatus portBase Reg.rbtStatus Reg.cxpCtl Reg.auxCtl RegDef.off
  dsimp only
  split <;> omega

theorem placesKept_early (b : ℕ) (s : State) :
    PlacesKept s { s with tasks := s.tasks.map fun k => if b ≤ k.readyAt then { k with readyAt := b } else k } := by
  refine ⟨rfl, rfl, fun _ => .refl _, fun t k hk => ⟨if b ≤ k.readyAt then { k with readyAt := b } else k, ?_, ?_⟩⟩
  · have hid : ((fun k : Task => k.id == t) ∘ fun k : Task => if b ≤ k.readyAt then { k with readyAt := b } else k) = fun k => k.id == t := by
      funext k
      dsimp only [Function.comp_apply]
      split <;> rfl
    unfold taskOf at hk ⊢
    rw [List.find?_map, hid, hk]
    rfl
  · split <;> rfl

theorem serviceKept_placesKept : ServiceKept PlacesKept where
  refl := .refl
  trans := .trans
  tok _ _ _ _ := placesKept_of rfl rfl rfl rfl
  task t _ s := placesKept_modTask t s
  core n s := placesKept_modCore n s fun _ => ⟨rfl, rfl, rfl, .inl rfl⟩
  eng _ _ := placesKept_of rfl rfl rfl rfl
  pipe _ _ _ := placesKept_of rfl rfl rfl rfl
  port _ _ _ := placesKept_of rfl rfl rfl rfl
  clients _ _ := placesKept_of rfl rfl rfl rfl
  stamp _ _ := placesKept_of rfl rfl rfl rfl
  early := placesKept_early
  count _ _ _ := placesKept_of rfl rfl rfl rfl
  flag bit s h := by
    rcases h with rfl | ⟨p, rfl⟩
    · exact placesKept_setFlag bit s (by decide)
    · exact placesKept_setFlag bit s (portStatus_ne_rbt p)
  event := placesKept_postEvent

/-! ### Tasks that leave their core -/

theorem placesKept_dropWaits (t : TaskId) (s : State) : PlacesKept s (dropWaits t s) :=
  .trans (u := { s with
      tokens := s.tokens.map fun k => { k with waiters := k.waiters.filter fun w => w.who != .task t
                                               sigs := k.sigs.filter fun w => w.who != some (.task t) }
      clients := s.clients.map fun c => { c with stepBy := c.stepBy.filter fun x => x != t } })
    (placesKept_of rfl rfl rfl rfl)
    (serviceKept_placesKept.foldl (fun s (k : ℕ × ℕ) => serviceKept_placesKept.settleToken k.1 k.2 s) _ _)

theorem placesKept_freeCore (n : ℕ) (s : State) : PlacesKept s (freeCore n s) := placesKept_modCore n s fun _ => ⟨rfl, rfl, rfl, .inr rfl⟩

theorem placesKept_leaveCore (t : TaskId) (s : State) : PlacesKept s (leaveCore t s) := by
  unfold leaveCore
  split
  · exact .refl s
  split
  · exact .refl s
  · refine ((placesKept_freeCore _ s).trans (placesKept_modCore _ _ ?_)).trans (placesKept_modTask t _ ?_)
    · exact fun _ => ⟨rfl, rfl, rfl, .inl rfl⟩
    · exact fun _ => ⟨rfl, rfl⟩

/-- A task that leaves its core stands on none. -/
theorem taskOf_leaveCore {t : TaskId} {k : Task} (hk : taskOf s t = some k) : taskOf (leaveCore t s) t = some { k with core := none } := by
  unfold leaveCore
  rw [hk]
  dsimp only
  split
  next hc => rw [hk, ← hc]
  · rw [taskOf_modTask (by intro; rfl)]
    exact congrArg (Option.map _) hk

/-- A core that no longer takes the task in. -/
def unclaimed (t : TaskId) (c : TensorCore) : TensorCore := if c.incoming = some t then { c with incoming := none } else c

theorem placesKept_dropClaim (t : TaskId) (s : State) : PlacesKept s (dropClaim t s) := by
  refine placesKept_cores fun n => ?_
  have hget : (s.cores.map (unclaimed t)).getD n (TensorCore.idle 2 0) = unclaimed t (coreOf s n) := List.getD_map s.cores (TensorCore.idle 2 0) (unclaimed t)
  refine hget ▸ ?_
  unfold unclaimed
  split
  · exact ⟨rfl, rfl, rfl, .inl rfl⟩
  · exact .refl _

theorem placesKept_endTask (t : TaskId) (s : State) : PlacesKept s (endTask t s) := by
  unfold endTask
  refine ((placesKept_dropWaits t s).trans (placesKept_dropClaim t _)).trans ((placesKept_leaveCore t _).trans (.trans ?_ (placesKept_modTask t _ ?_)))
  · exact placesKept_of rfl rfl rfl rfl
  · exact fun _ => ⟨rfl, rfl⟩

/-! ### Items that end -/

theorem placesKept_voidSample (c : ℕ) (id : Word) (payload : List Byte) (s : State) : PlacesKept s (voidSample c id payload s) := by
  unfold voidSample attachDevice
  refine (placesKept_setFlag (off := Reg.cadStatus.base) 1 s (by decide)).trans (.trans (serviceKept_placesKept.count (Reg.cadSnapCnt.base + 4 * c) 1 _) ?_)
  unfold attach
  split
  · exact .refl _
  split
  · exact .refl _
  split
  · exact .refl _
  split
  · exact placesKept_of rfl rfl rfl rfl
  dsimp only
  split
  · exact placesKept_of rfl rfl rfl rfl
  · exact placesKept_of rfl rfl rfl rfl

theorem placesKept_endItem (i : Item) (disp flags : ℕ) (admitted : Bool) (s : State) : PlacesKept s (endItem i disp flags admitted s) := by
  obtain ⟨v, base, j, -, heq⟩ := endItem_eq i disp flags admitted s
  obtain ⟨c, -, hacc⟩ := acceptItem_eq i v (bump base j s)
  have hleaves : PlacesKept s (itemLeaves i c (bump base j s)) :=
    placesKept_of rfl (rdW_wr_other _ _ _ (bump base j s) (by decide)) rfl rfl
  have hvoid (u : State) : PlacesKept u (voidReserved i.id u) := by
    unfold voidReserved
    exact (serviceKept_placesKept.eng _ u).trans (serviceKept_placesKept.foldl (fun s f => placesKept_voidSample 2 i.id f s) _ _)
  rw [heq, hacc]
  exact ((hleaves.trans (serviceKept_placesKept.closeFramesOf i.id _)).trans (serviceKept_placesKept.closeInTokens i.id _)).trans (hvoid _)

theorem placesKept_endProgItems (h : ℕ) (s : State) : PlacesKept s (endProgItems h s) := by
  unfold endProgItems
  dsimp only
  refine .trans (serviceKept_placesKept.foldl (fun s (i : Item) => ?_) _ s) (related_ite (.refl _) (placesKept_setFlag 7 _ (by decide)))
  split
  · exact placesKept_endItem _ _ _ _ s
  · exact .refl s

end

/-! ## Programs that stop -/

/-- The Roundabout's status and the cores' places stay, no core but one takes a task in, and a program that is stopped stays so. -/
structure StopsKept (sp : Option ℕ) (s u : State) : Prop where
  rbt : rdW u Reg.rbtStatus.base = rdW s Reg.rbtStatus.base
  place (n : ℕ) : (coreOf u n).st = (coreOf s n).st ∧ (coreOf u n).rank = (coreOf s n).rank ∧ (coreOf u n).roused = (coreOf s n).roused
  empty (n : ℕ) : sp ≠ some n → (coreOf s n).task = none → (coreOf u n).task = none
  progs (h : ℕ) (p : Program) : progOf s h = some p → ∃ p', progOf u h = some p' ∧ (p.stopped = true → p'.stopped = true)

section
variable {sp : Option ℕ} {s u : State}

theorem PlacesKept.stops (h : PlacesKept s u) : StopsKept sp s u := by
  refine ⟨h.rbt, fun n => ⟨(h.cores n).st, (h.cores n).rank, (h.cores n).roused⟩, fun n _ hn => ?_, fun x p hp => ⟨p, ?_, id⟩⟩
  · rcases (h.cores n).task with ht | ht
    · exact ht.trans hn
    · exact ht
  · unfold progOf at hp ⊢
    rwa [h.progs]

theorem StopsKept.trans {v : State} (h : StopsKept sp s u) (h' : StopsKept sp u v) : StopsKept sp s v := by
  refine ⟨h'.rbt.trans h.rbt, fun n => ?_, fun n hn ht => h'.empty n hn (h.empty n hn ht), fun x p hp => ?_⟩
  · obtain ⟨h1, h2, h3⟩ := h.place n
    obtain ⟨h1', h2', h3'⟩ := h'.place n
    exact ⟨h1'.trans h1, h2'.trans h2, h3'.trans h3⟩
  · obtain ⟨p1, hp1, hs1⟩ := h.progs x p hp
    obtain ⟨p2, hp2, hs2⟩ := h'.progs x p1 hp1
    exact ⟨p2, hp2, hs2 ∘ hs1⟩

/-- The mark of a program that stops. -/
def markStopped (h : ℕ) (s : State) : State := modProg h (fun p => { p with stopped := true }) s

theorem stopsKept_markStopped (h : ℕ) (s : State) : StopsKept sp s (markStopped h s) := by
  refine ⟨rfl, fun _ => ⟨rfl, rfl, rfl⟩, fun _ _ ht => ht, fun x p hp => ?_⟩
  rcases find_updFirst_or (p := fun q : Program => q.handle == h) (f := fun q => { q with stopped := true }) (fun _ => rfl) hp with hu | hu
  · exact ⟨p, hu, id⟩
  · exact ⟨_, hu, fun _ => rfl⟩

theorem progOf_markStopped {h : ℕ} {p : Program} (hp : progOf s h = some p) : progOf (markStopped h s) h = some { p with stopped := true } :=
  (find_updFirst_same (f := fun q : Program => { q with stopped := true }) s.progs fun _ => rfl).trans (congrArg (Option.map _) hp)

theorem progOf_placesKept (h : PlacesKept s u) (x : ℕ) : progOf u x = progOf s x := by
  unfold progOf
  rw [h.progs]

/-- A stop ends the program's items, marks it, and ends its tasks. -/
theorem stopProgram_cases (h : ℕ) (s : State) : (progOf s h = none ∧ stopProgram h s = s)
    ∨ ∃ p, progOf s h = some p ∧ ((p.stopped = true ∧ stopProgram h s = endProgItems h s)
      ∨ PlacesKept (markStopped h (endProgItems h s)) (stopProgram h s)) := by
  unfold stopProgram
  cases hp : progOf s h with
  | none => exact .inl ⟨rfl, rfl⟩
  | some p =>
    refine .inr ⟨p, rfl, ?_⟩
    dsimp only
    by_cases hs : p.stopped = true
    · exact .inl ⟨hs, if_pos hs⟩
    · rw [if_neg hs]
      exact .inr (serviceKept_placesKept.foldl (fun s t => placesKept_endTask t s) _ _)

theorem stopsKept_stopProgram (h : ℕ) (s : State) : StopsKept sp s (stopProgram h s) := by
  have hitems : StopsKept sp s (endProgItems h s) := (placesKept_endProgItems h s).stops
  rcases stopProgram_cases h s with ⟨-, hs⟩ | ⟨p, -, ⟨-, hs⟩ | hs⟩
  · rw [hs]
    exact (PlacesKept.refl s).stops
  · rw [hs]
    exact hitems
  · exact (hitems.trans (stopsKept_markStopped h _)).trans hs.stops

theorem stopProgram_stops {h : ℕ} {p : Program} (hp : progOf s h = some p) : ∃ p', progOf (stopProgram h s) h = some p' ∧ p'.stopped = true := by
  have hitems : progOf (endProgItems h s) h = some p := (progOf_placesKept (placesKept_endProgItems h s) h).trans hp
  rcases stopProgram_cases h s with ⟨hno, -⟩ | ⟨p', hp', ⟨hst, hs⟩ | hs⟩
  · cases hno.symm.trans hp
  · obtain rfl := Option.some.inj (hp'.symm.trans hp)
    exact ⟨p', hs ▸ hitems, hst⟩
  · exact ⟨_, (progOf_placesKept hs h).trans (progOf_markStopped hitems), rfl⟩

theorem stopsKept_foldl {α : Type} {f : State → α → State} (h : ∀ s a, StopsKept sp s (f s a)) (l : List α) (s : State) :
    StopsKept sp s (l.foldl f s) := by
  induction l generalizing s with
  | nil => exact (PlacesKept.refl s).stops
  | cons a l ih => exact (h s a).trans (ih _)

theorem placesKept_faultReport (t : TaskId) (core word status : ℕ) (s : State) :
    PlacesKept s (stopEvent t.handle t.tmpl t.inst core word status (bump Reg.rasSnapCnt.base 3 (setFlag Reg.rasStatus.base 2 s))) :=
  ((placesKept_setFlag 2 s (by decide)).trans (serviceKept_placesKept.count _ _ _)).trans (placesKept_postEvent _ _ _ _ _ _ _)

theorem stopsKept_faultStop (t : TaskId) (core word status : ℕ) (s : State) : StopsKept sp s (faultStop t core word status s) :=
  (placesKept_faultReport t core word status s).stops.trans (stopsKept_stopProgram t.handle _)

theorem faultStop_stops {t : TaskId} {p : Program} (core word status : ℕ) (hp : progOf s t.handle = some p) :
    ∃ p', progOf (faultStop t core word status s) t.handle = some p' ∧ p'.stopped = true :=
  stopProgram_stops ((progOf_placesKept (placesKept_faultReport t core word status s) _).trans hp)

theorem stopsKept_coresMinStops (s : State) : StopsKept sp s (coresMinStops s) := by
  unfold coresMinStops
  refine stopsKept_foldl (fun s h => ?_) _ s
  exact ((placesKept_of rfl rfl rfl rfl : PlacesKept s (freeBits 32 (freeBits 8 s).2).2).trans (placesKept_postEvent _ _ _ _ _ _ _)).stops.trans
    (stopsKept_stopProgram h _)

/-- Where no program lacks its least number of cores, none stops for it. -/
theorem coresMinStops_none (h : ∀ p ∈ s.progs, p.stopped = true ∨ p.loading = true ∨ p.coresMin ≤ (activeCores s).length) : coresMinStops s = s := by
  have hnil : (s.progs.filter fun p => !p.stopped && !p.loading && decide ((activeCores s).length < p.coresMin)) = [] := by
    rw [List.filter_eq_nil_iff]
    intro p hp
    rcases h p hp with h | h | h
    · simp [h]
    · simp [h]
    · simp [Nat.not_lt.mpr h]
  unfold coresMinStops
  rw [hnil]
  rfl

/-! ## A task that starts again -/

theorem placesKept_restartTask (t : TaskId) (s : State) : PlacesKept s (restartTask t s).2 := by
  unfold restartTask
  split
  · exact .refl s
  · dsimp only
    refine ((placesKept_dropWaits t s).trans (.trans ?_ (placesKept_leaveCore t _))).trans
      ((placesKept_modTask t _ ?_).trans ((serviceKept_placesKept.giveBackAll _ _ _).trans (serviceKept_placesKept.makeReady t _)))
    · exact placesKept_of rfl rfl rfl rfl
    · exact fun _ => ⟨rfl, rfl⟩

/-- A task as it starts again from its checkpoint. -/
def restarted (k : Task) : Task :=
  { k with
    regs := keepLive k.ckpt, waits := [], served := false, passes := 0, due := none, atRound := false, held := none, saved := false, results := []
    match_ := { sigs := k.match_.sigs + k.rec_.sigs, entries := k.rec_.entries.filter notTake ++ k.match_.entries }
    rec_ := { sigs := 0, entries := [] } }

theorem restartTask_noTakes {t : TaskId} {k : Task} (hk : taskOf s t = some k) (hr : k.rec_.entries = []) :
    restartTask t s = (true, makeReady t (modTask t restarted (leaveCore t (dropFrags t (dropWaits t s))))) := by
  unfold restartTask
  rw [hk]
  dsimp only
  rw [hr]
  rfl

theorem taskOf_makeReady {t : TaskId} {k : Task} (hk : taskOf s t = some k) :
    taskOf (makeReady t s) t = some { k with st := .ready, readyAt := s.stamp, readySince := s.tim.now } := by
  unfold makeReady
  dsimp only
  rw [taskOf_modTask (by intro; rfl)]
  exact congrArg (Option.map _) hk

/-- A task that owes no take back starts again from its checkpoint, READY and on no core. -/
theorem restartTask_clean {t : TaskId} {k : Task} (hk : taskOf s t = some k) (hr : k.rec_.entries = []) :
    ∃ k', (restartTask t s).1 = true ∧ taskOf (restartTask t s).2 t = some k' ∧ k'.regs = keepLive k.ckpt ∧ k'.waits = [] ∧ k'.passes = 0
      ∧ k'.st = .ready ∧ k'.core = none := by
  have hdropped : PlacesKept s (dropFrags t (dropWaits t s)) := (placesKept_dropWaits t s).trans (u := dropWaits t s) (placesKept_of rfl rfl rfl rfl)
  obtain ⟨k1, hk1, hc1⟩ := hdropped.ckpt t k hk
  rw [restartTask_noTakes hk hr]
  have hleft : taskOf (modTask t restarted (leaveCore t (dropFrags t (dropWaits t s)))) t = some (restarted { k1 with core := none }) := by
    rw [taskOf_modTask (by intro; rfl), taskOf_leaveCore hk1]
    rfl
  exact ⟨_, rfl, taskOf_makeReady hleft, congrArg keepLive hc1, rfl, rfl, rfl, rfl⟩

end

/-! ## A core is fenced -/

/-- The core leaves its place, and its task stands on no core. -/
def takenOut (n : ℕ) (t : Option TaskId) (s : State) : State :=
  let s := s |> freeCore n |> modCore n (fun c => { c with st := 2, gated := false, pendingFreq := none, wakePoint := none, stray := 0 })
             |> setFlag (Reg.tcStatus.off n 0) 4
  match t with
  | some t => modTask t (fun k => { k with core := none }) s
  | none => s

/-- The spare takes the place and the rank, or the Roundabout says that there is none. -/
def spareStands (sp : Option ℕ) (rank : ℕ) (s : State) : State :=
  match sp with
  | some m => modCore m (fun x => { x with st := 0, rank := rank, roused := true }) s
  | none => setFlag Reg.rbtStatus.base 1 s

/-- What the fence reports, and the word that it names. -/
def fenceReport (n cls status : ℕ) (t : Option TaskId) (sp : Option ℕ) (s : State) : ℕ × State :=
  let named := match sp with
    | some m => (m, s)
    | none => freeBits 8 s
  let who := match t with
    | some t => (leBytes 1 t.handle ++ leBytes 2 t.tmpl ++ leBytes 2 t.inst, named.2)
    | none => takeFree 5 named.2
  let word := freeBits 32 who.2
  (word.1, word.2 |> setFlag Reg.rasStatus.base 0 |> bump Reg.rasSnapCnt.base 0 |> rasLast cls n status
                  |> postEvent 0x10 1 n 0 0 (who.1 ++ leBytes 1 named.1))

/-- The task recovers on the spare, or waits as it restarted. -/
def recoverOn (sp : Option ℕ) (t : TaskId) (s : State) : State :=
  let s := s |> setFlag Reg.rasStatus.base 1 |> bump Reg.rasSnapCnt.base 1
  match sp with
  | some m => s |> modCore m (fun x => { x with task := some t, phase := .recovering })
                |> modTask t (fun k => { k with st := .running, core := some m })
  | none => s

/-- What becomes of the task of a fenced core. -/
def fencedTask (n : ℕ) (sp : Option ℕ) (saving : Bool) (word : ℕ) (t : TaskId) (s : State) : State :=
  if saving then faultStop t n word Stat.poison s
  else if !(restartTask t s).1 then faultStop t n word Stat.tokenOverflow (restartTask t s).2
  else recoverOn sp t (restartTask t s).2

/-- A core fenced, and the spare in its place. -/
def exchanged (n : ℕ) (s : State) : State := spareStands (spareCore s) (coreOf s n).rank (takenOut n (coreOf s n).task s)

/-- A fenced core, its report made and its task yet to be dealt with. -/
def fenceMade (n cls status : ℕ) (s : State) : ℕ × State := fenceReport n cls status (coreOf s n).task (spareCore s) (exchanged n s)

section
variable {n cls status : ℕ} {s : State}

theorem fenceCore_active (hst : (coreOf s n).st = 0) : fenceCore n cls status s = coresMinStops (match (coreOf s n).task with
    | none => (fenceMade n cls status s).2
    | some t => fencedTask n (spareCore s) ((coreOf s n).phase == .saving) (fenceMade n cls status s).1 t (fenceMade n cls status s).2) := by
  unfold fenceCore fenceWhile fenceMade fenceReport exchanged spareStands takenOut
  dsimp only
  rw [if_neg (not_not.mpr hst)]
  cases (coreOf s n).task with
  | none => cases spareCore s <;> rfl
  | some t =>
    unfold fencedTask recoverOn
    cases spareCore s <;> rfl
end

/-! ### The fenced core and the spare -/

section
variable {n m cls status rank word : ℕ} {t : TaskId} {k : Task} {sp : Option ℕ} {s u : State}

theorem core_lt_of_active (h : (coreOf s n).st = 0) : n < s.cores.length := by
  by_contra hle
  unfold coreOf at h
  rw [List.getD_eq_default _ _ (Nat.le_of_not_lt hle)] at h
  exact absurd h (by decide)

theorem spareCore_st (h : spareCore s = some m) : (coreOf s m).st = 1 := beq_iff_eq.mp (List.find?_some (p := fun n => (coreOf s n).st == 1) h)

theorem spareCore_lt (h : spareCore s = some m) : m < s.cores.length := by
  have hst := spareCore_st h
  by_contra hle
  unfold coreOf at hst
  rw [List.getD_eq_default _ _ (Nat.le_of_not_lt hle)] at hst
  exact absurd hst (by decide)

/-- The core as it stands out of its place. -/
def outOfPlace (c : TensorCore) : TensorCore :=
  { c with phase := .idle, task := none, incoming := none, fresh := false, yielded := false
           st := 2, gated := false, pendingFreq := none, wakePoint := none, stray := 0 }

theorem takenOut_cores (o : Option TaskId) :
    (takenOut n o s).cores = (modCore n (fun c => { c with st := 2, gated := false, pendingFreq := none, wakePoint := none, stray := 0 }) (freeCore n s)).cores := by
  cases o <;> rfl

theorem coreOf_takenOut_same (o : Option TaskId) (hn : n < s.cores.length) : coreOf (takenOut n o s) n = outOfPlace (coreOf s n) := by
  have hlen : n < (freeCore n s).cores.length := (length_modAt _ _ _).symm ▸ hn
  unfold coreOf
  rw [takenOut_cores]
  refine (coreOf_modCore_same hlen).trans ?_
  rw [show coreOf (freeCore n s) n = _ from coreOf_modCore_same hn]
  rfl

theorem coreOf_takenOut_other (o : Option TaskId) (hm : m ≠ n) : coreOf (takenOut n o s) m = coreOf s m := by
  unfold coreOf
  rw [takenOut_cores]
  exact (coreOf_modCore_other hm).trans (coreOf_modCore_other hm)

theorem takenOut_progs (o : Option TaskId) : (takenOut n o s).progs = s.progs := by
  cases o <;> rfl

theorem length_takenOut (o : Option TaskId) : (takenOut n o s).cores.length = s.cores.length := by
  rw [takenOut_cores]
  exact (length_modAt _ _ _).trans (length_modAt _ _ _)

theorem taskOf_takenOut (hk : taskOf s t = some k) : taskOf (takenOut n (some t) s) t = some { k with core := none } := by
  unfold takenOut
  dsimp only
  rw [taskOf_modTask (by intro; rfl)]
  exact congrArg (Option.map _) hk

theorem spareStands_progs : (spareStands sp rank s).progs = s.progs := by
  cases sp <;> rfl

theorem spareStands_tasks : (spareStands sp rank s).tasks = s.tasks := by
  cases sp <;> rfl

theorem coreOf_spareStands_spare (hm : m < s.cores.length) :
    coreOf (spareStands (some m) rank s) m = { coreOf s m with st := 0, rank := rank, roused := true } := coreOf_modCore_same hm

theorem coreOf_spareStands_other (hm : sp ≠ some m) : coreOf (spareStands sp rank s) m = coreOf s m := by
  cases sp with
  | none => rfl
  | some j => exact coreOf_modCore_other fun he => hm (congrArg some he.symm)

/-! ### What follows the exchange of the cores -/

theorem placesKept_rasCount (i : ℕ) (s : State) : PlacesKept s (bump Reg.rasSnapCnt.base i (setFlag Reg.rasStatus.base i s)) :=
  (placesKept_setFlag (off := Reg.rasStatus.base) i s (by decide)).trans (serviceKept_placesKept.count _ _ _)

theorem placesKept_rasLast (cls unit status : ℕ) (s : State) : PlacesKept s (rasLast cls unit status s) :=
  placesKept_of rfl (rdW_wr_other _ _ _ s (by decide)) rfl rfl

theorem placesKept_fenceReport (o : Option TaskId) : PlacesKept s (fenceReport n cls status o sp s).2 := by
  unfold fenceReport
  refine .trans ?_ (placesKept_postEvent _ _ _ _ _ _ _)
  refine .trans ?_ (placesKept_rasLast cls n status _)
  refine .trans ?_ (placesKept_rasCount 0 _)
  cases sp <;> cases o <;> exact placesKept_of rfl rfl rfl rfl

theorem fenceReport_tasks (o : Option TaskId) : (fenceReport n cls status o sp s).2.tasks = s.tasks := by
  unfold fenceReport
  rw [postEvent_tasks]
  cases sp <;> cases o <;> rfl

/-- A core that takes a task in to recover it. -/
def recovering (t : TaskId) (c : TensorCore) : TensorCore := { c with task := some t, phase := .recovering }

theorem recoverOn_cores (m : ℕ) (t : TaskId) (s : State) : (recoverOn (some m) t s).cores = (modCore m (recovering t) s).cores := rfl

theorem recoverOn_progs (sp : Option ℕ) (t : TaskId) (s : State) : (recoverOn sp t s).progs = s.progs := by
  cases sp <;> rfl

theorem recoverOn_spare {m : ℕ} (hm : m < s.cores.length) (hk : taskOf s t = some k) :
    taskOf (recoverOn (some m) t s) t = some { k with st := .running, core := some m } ∧ (coreOf (recoverOn (some m) t s) m).task = some t
      ∧ (coreOf (recoverOn (some m) t s) m).phase = .recovering := by
  have hcore : coreOf (recoverOn (some m) t s) m = recovering t (coreOf s m) := coreOf_modCore_same hm
  rw [hcore]
  refine ⟨?_, rfl, rfl⟩
  unfold recoverOn
  dsimp only
  rw [taskOf_modTask (by intro; rfl)]
  exact congrArg (Option.map _) hk

theorem stopsKept_recoverOn : StopsKept sp s (recoverOn sp t s) := by
  have hras := placesKept_rasCount 1 s
  cases sp with
  | none => exact hras.stops
  | some m =>
    have hcore (j : ℕ) : coreOf (recoverOn (some m) t s) j = coreOf (modCore m (recovering t) s) j := rfl
    refine ⟨hras.rbt, fun j => ?_, fun j hj hnone => ?_, fun h p hp => ⟨p, hp, id⟩⟩
    · rw [hcore]
      by_cases hj : j = m
      · subst hj
        by_cases hlen : j < s.cores.length
        · rw [coreOf_modCore_same hlen]
          exact ⟨rfl, rfl, rfl⟩
        · rw [coreOf_modCore_past hlen]
          exact ⟨rfl, rfl, rfl⟩
      · rw [coreOf_modCore_other hj]
        exact ⟨rfl, rfl, rfl⟩
    · rw [hcore, coreOf_modCore_other fun he => hj (congrArg some he.symm)]
      exact hnone

theorem fencedTask_saving : fencedTask n sp true word t s = faultStop t n word Stat.poison s := if_pos rfl

theorem fencedTask_restarts (h : (restartTask t s).1 = true) : fencedTask n sp false word t s = recoverOn sp t (restartTask t s).2 := by
  unfold fencedTask
  rw [h]
  rfl

theorem stopsKept_fencedTask (saving : Bool) : StopsKept sp s (fencedTask n sp saving word t s) := by
  unfold fencedTask
  split
  · exact stopsKept_faultStop _ _ _ _ s
  split
  · exact (placesKept_restartTask t s).stops.trans (stopsKept_faultStop _ _ _ _ _)
  · exact (placesKept_restartTask t s).stops.trans stopsKept_recoverOn

end

/-! ### What a fence leaves -/

section
variable {n m cls status : ℕ} {t : TaskId} {k : Task} {s : State}

theorem placesKept_fenceMade : PlacesKept (exchanged n s) (fenceMade n cls status s).2 := placesKept_fenceReport _

theorem stopsKept_fenceCore (hst : (coreOf s n).st = 0) : StopsKept (spareCore s) (exchanged n s) (fenceCore n cls status s) := by
  rw [fenceCore_active hst]
  refine .trans ?_ (stopsKept_coresMinStops _)
  cases (coreOf s n).task with
  | none => exact placesKept_fenceMade.stops
  | some t => exact placesKept_fenceMade.stops.trans (stopsKept_fencedTask _)

/-- The spare is another core. -/
theorem spareCore_ne (hst : (coreOf s n).st = 0) : spareCore s ≠ some n := by
  intro h
  rw [spareCore_st h] at hst
  exact absurd hst (by decide)

theorem coreOf_exchanged (hst : (coreOf s n).st = 0) : coreOf (exchanged n s) n = outOfPlace (coreOf s n) :=
  (coreOf_spareStands_other (spareCore_ne hst)).trans (coreOf_takenOut_same _ (core_lt_of_active hst))

theorem coreOf_exchanged_spare (hm : spareCore s = some m) : coreOf (exchanged n s) m
    = { coreOf (takenOut n (coreOf s n).task s) m with st := 0, rank := (coreOf s n).rank, roused := true } := by
  unfold exchanged
  rw [hm]
  exact coreOf_spareStands_spare ((length_takenOut _).symm ▸ spareCore_lt hm)

theorem exchanged_progs : (exchanged n s).progs = s.progs := spareStands_progs.trans (takenOut_progs _)

theorem fenceCore_leaves (hst : (coreOf s n).st = 0) :
    (coreOf (fenceCore n cls status s) n).st = 2 ∧ (coreOf (fenceCore n cls status s) n).task = none := by
  have hkept := stopsKept_fenceCore (cls := cls) (status := status) hst
  have hcore := coreOf_exchanged hst
  exact ⟨(hkept.place n).1.trans (congrArg TensorCore.st hcore), hkept.empty n (spareCore_ne hst) (congrArg TensorCore.task hcore)⟩

theorem fenceCore_spare (hst : (coreOf s n).st = 0) (hm : spareCore s = some m) :
    (coreOf (fenceCore n cls status s) m).st = 0 ∧ (coreOf (fenceCore n cls status s) m).rank = (coreOf s n).rank
      ∧ (coreOf (fenceCore n cls status s) m).roused = true := by
  obtain ⟨h1, h2, h3⟩ := (stopsKept_fenceCore (cls := cls) (status := status) hst).place m
  rw [coreOf_exchanged_spare hm] at h1 h2 h3
  exact ⟨h1, h2, h3⟩

theorem fenceCore_noSpare (hst : (coreOf s n).st = 0) (hno : spareCore s = none) :
    flagOf (fenceCore n cls status s) Reg.rbtStatus.base 1 = true := by
  have hset : flagOf (exchanged n s) Reg.rbtStatus.base 1 = true := by
    unfold exchanged
    rw [hno]
    exact (flagOf_setFlag _ 1 1 _ (by decide) (by decide)).trans (Bool.or_true _)
  unfold flagOf rd at hset ⊢
  rwa [(stopsKept_fenceCore hst).rbt]

/-- The program of a task whose state was being saved is stopped. -/
theorem fenceCore_saving {p : Program} (hst : (coreOf s n).st = 0) (ht : (coreOf s n).task = some t) (hph : (coreOf s n).phase = .saving)
    (hp : progOf s t.handle = some p) : ∃ p', progOf (fenceCore n cls status s) t.handle = some p' ∧ p'.stopped = true := by
  have hmade : progOf (fenceMade n cls status s).2 t.handle = some p := by
    rw [progOf_placesKept placesKept_fenceMade]
    unfold progOf
    rw [exchanged_progs]
    exact hp
  obtain ⟨p1, hp1, hs1⟩ := faultStop_stops n (fenceMade n cls status s).1 Stat.poison hmade
  obtain ⟨p2, hp2, hs2⟩ := (stopsKept_coresMinStops (sp := none) _).progs _ _ hp1
  refine ⟨p2, ?_, hs2 hs1⟩
  rw [fenceCore_active hst, ht, hph, beq_self_eq_true]
  dsimp only
  rw [fencedTask_saving]
  exact hp2

/-! ### The task that a fence restarts -/

/-- Where every ACTIVE core but one stays ACTIVE, there is at most one fewer. -/
theorem length_activeCores_le {u : State} (h : ∀ j, j ≠ n → (coreOf s j).st = 0 → (coreOf u j).st = 0) :
    (activeCores s).length ≤ (activeCores u).length + 1 := by
  have hsub : activeCores s ⊆ n :: activeCores u := fun j hj => by
    obtain ⟨hr, hst⟩ := List.mem_filter.mp hj
    by_cases hn : j = n
    · exact hn ▸ List.mem_cons_self
    · exact List.mem_cons_of_mem n (List.mem_filter.mpr ⟨hr, beq_iff_eq.mpr (h j hn (beq_iff_eq.mp hst))⟩)
  exact ((List.nodup_range.filter _).subperm hsub).length_le

/-- What the fence leaves of its task before the programs that lack cores stop. -/
def fencedWith (n cls status : ℕ) (t : TaskId) (s : State) : State := recoverOn (spareCore s) t (restartTask t (fenceMade n cls status s).2).2

theorem fencedWith_st (j : ℕ) (hj : j ≠ n) (h : (coreOf s j).st = 0) : (coreOf (fencedWith n cls status t s) j).st = 0 := by
  have hkept : StopsKept (spareCore s) (exchanged n s) (fencedWith n cls status t s) :=
    (placesKept_fenceMade.trans (placesKept_restartTask t _)).stops.trans stopsKept_recoverOn
  refine (hkept.place j).1.trans ?_
  by_cases hm : spareCore s = some j
  · exact congrArg TensorCore.st (coreOf_exchanged_spare hm)
  · rw [show coreOf (exchanged n s) j = _ from (coreOf_spareStands_other hm).trans (coreOf_takenOut_other _ hj)]
    exact h

theorem fencedWith_progs : (fencedWith n cls status t s).progs = s.progs :=
  (recoverOn_progs _ t _).trans ((placesKept_restartTask t _).progs.trans (placesKept_fenceMade.progs.trans exchanged_progs))

/-- Where the task owes no take back and no program lacks cores, a fence restarts the task and stops nothing. -/
theorem fenceCore_eq_fencedWith (hst : (coreOf s n).st = 0) (ht : (coreOf s n).task = some t) (hk : taskOf s t = some k)
    (hph : (coreOf s n).phase ≠ .saving) (hrec : k.rec_.entries = [])
    (hmin : ∀ p ∈ s.progs, p.stopped = true ∨ p.loading = true ∨ p.coresMin < (activeCores s).length) :
    fenceCore n cls status s = fencedWith n cls status t s
      ∧ ∃ k', taskOf (restartTask t (fenceMade n cls status s).2).2 t = some k' ∧ k'.regs = keepLive k.ckpt ∧ k'.waits = [] ∧ k'.passes = 0
        ∧ k'.st = .ready ∧ k'.core = none := by
  have hmade : taskOf (fenceMade n cls status s).2 t = some { k with core := none } := by
    have htasks : (fenceMade n cls status s).2.tasks = (takenOut n (some t) s).tasks := by
      unfold fenceMade exchanged
      rw [fenceReport_tasks, spareStands_tasks, ht]
    unfold taskOf
    rw [htasks]
    exact taskOf_takenOut hk
  obtain ⟨k', hgood, hk'⟩ := restartTask_clean hmade hrec
  refine ⟨?_, k', hk'⟩
  have hactive := length_activeCores_le (fencedWith_st (n := n) (cls := cls) (status := status) (t := t) (s := s))
  rw [fenceCore_active hst, ht]
  dsimp only
  rw [show ((coreOf s n).phase == .saving) = false from beq_eq_false_iff_ne.mpr hph, fencedTask_restarts hgood]
  refine coresMinStops_none fun p hp => ?_
  rcases hmin p (fencedWith_progs ▸ hp) with h | h | h
  · exact .inl h
  · exact .inr (.inl h)
  · exact .inr (.inr (by unfold fencedWith at hactive; omega))

/-- The task that a fence restarts: on the spare, where one stands in, and READY elsewhere. -/
theorem fencedWith_task {k' : Task} (hk : taskOf (restartTask t (fenceMade n cls status s).2).2 t = some k') :
    (∀ m, spareCore s = some m → taskOf (fencedWith n cls status t s) t = some { k' with st := .running, core := some m }
        ∧ (coreOf (fencedWith n cls status t s) m).task = some t ∧ (coreOf (fencedWith n cls status t s) m).phase = .recovering)
      ∧ (spareCore s = none → taskOf (fencedWith n cls status t s) t = some k') := by
  unfold fencedWith
  refine ⟨fun m hm => ?_, fun hno => ?_⟩
  · have hplace := (placesKept_fenceMade (n := n) (cls := cls) (status := status) (s := s)).trans (placesKept_restartTask t _)
    have hlen : m < (restartTask t (fenceMade n cls status s).2).2.cores.length :=
      core_lt_of_active ((hplace.cores m).st.trans (congrArg TensorCore.st (coreOf_exchanged_spare hm)))
    rw [hm]
    exact recoverOn_spare hlen hk
  · rw [hno]
    exact hk

end

/-! ## The rows -/

section
variable {n : ℕ} {k : Task} {v : Word} {s : State}

/-- What a residue check does. -/
def residueChecked (n : ℕ) (ok : Bool) (s : State) : State :=
  if (coreOf s n).stray ≠ 0 then
    if ok then modCore n (fun c => { c with stray := c.stray - 1 }) s else coreError n 0 s
  else match (coreOf s n).task.bind (taskOf s) with
  | some k =>
    if k.passes = 0 ∨ k.core ≠ some n then s
    else if ok then modTask k.id (fun k => { k with passes := k.passes - 1 }) s
    else coreError n 0 s
  | none => s

theorem exec_residueCheck (n : ℕ) (ok : Bool) (s : State) : exec (.residueCheck n ok) s = run (residueChecked n ok) s := by
  unfold exec
  rfl

theorem residueChecked_blind (n : ℕ) (ok : Bool) : Blind (residueChecked n ok) := fun q s => by
  unfold residueChecked
  rw [coreOf_setPending, show taskOf (setPending q s) = taskOf s from rfl, coreError_setPending]
  split
  · exact ite_setPending _ q (modCore n _ s) _
  · split
    · split
      · rfl
      · exact ite_setPending _ q (modTask _ _ s) _
    · rfl

theorem residueChecked_stray (ok : Bool) (h : (coreOf s n).stray ≠ 0) : residueChecked n ok s
    = if ok then modCore n (fun c => { c with stray := c.stray - 1 }) s else coreError n 0 s := if_pos h

theorem residueChecked_task (ok : Bool) (h : (coreOf s n).stray = 0) (ht : (coreOf s n).task = some k.id) (hk : taskOf s k.id = some k)
    (hc : k.core = some n) (hp : 0 < k.passes) : residueChecked n ok s
    = if ok then modTask k.id (fun k => { k with passes := k.passes - 1 }) s else coreError n 0 s := by
  refine (if_neg (not_not.mpr h)).trans ?_
  rw [bind_taskOf ht hk]
  exact if_neg fun hor => hor.elim (Nat.pos_iff_ne_zero.mp hp) fun hne => hne hc

theorem residueChecked_none (ok : Bool) (h : (coreOf s n).stray = 0) (ht : (coreOf s n).task = none) : residueChecked n ok s = s := by
  refine (if_neg (not_not.mpr h)).trans ?_
  rw [ht]
  rfl

theorem coreError_active (hst : (coreOf s n).st = 0) :
    coreError n 0 s = fenceCore n 1 0 (count (Reg.tcCnt.off n 4) 1 (setFlag (Reg.tcStatus.off n 0) 0 s)) := if_neg (not_not.mpr hst)

/-- A bad check of an open pass takes the core out. -/
theorem residueChecked_bad (hst : (coreOf s n).st = 0)
    (h : (coreOf s n).stray ≠ 0 ∨ ∃ k, (coreOf s n).task = some k.id ∧ taskOf s k.id = some k ∧ k.core = some n ∧ 0 < k.passes) :
    residueChecked n false s = fenceCore n 1 0 (count (Reg.tcCnt.off n 4) 1 (setFlag (Reg.tcStatus.off n 0) 0 s)) := by
  rw [← coreError_active hst]
  by_cases hs : (coreOf s n).stray = 0
  · obtain ⟨k, ht, hk, hc, hp⟩ := h.resolve_left (not_not.mpr hs)
    exact residueChecked_task false hs ht hk hc hp
  · exact residueChecked_stray false hs

theorem tcFenceWrite_active (hm : MayWrite s .host Reg.tcFence.base v) (hv : bits v.toNat 0 5 = n) (hn : n < 17) (hst : (coreOf s n).st = 0) :
    GivesThen (.tcFenceWrite .host v) s (fenceCore n 1 0 s) := by
  refine givesThen_of_effect (f := gate .host Reg.tcFence.base v (writeFence v)) (by unfold exec; rfl) ?_
  rw [gate_pass_pending [] hm, writeFence_setPending]
  unfold writeFence
  rw [hv]
  exact congrArg _ (if_pos ⟨hn, hst⟩)

theorem tcFenceWrite_other (hq : Quiet s) (hm : MayWrite s .host Reg.tcFence.base v) (hv : bits v.toNat 0 5 = n)
    (h : 17 ≤ n ∨ (coreOf s n).st ≠ 0) : Gives (.tcFenceWrite .host v) s s := by
  refine gives_of_effect (f := gate .host Reg.tcFence.base v (writeFence v)) (by unfold exec; rfl) hq ?_ rfl
  rw [gate_pass_pending [] hm, writeFence_setPending]
  unfold writeFence
  rw [hv]
  exact congrArg _ (if_neg fun ⟨hn, hst⟩ => h.elim (Nat.not_le.mpr hn) fun hne => hne hst)

end

/-! ## Recovery on the spare -/

/-- A task that runs on its new core. -/
def runsOnSpare (n : ℕ) (t : TaskId) (s : State) : State :=
  modTask t (fun k => { k with st := .running, core := some n }) (modCore n (fun c => { c with phase := .running, fresh := true }) s)

/-- What the restore of a recovering task does. -/
def spareRestored (core : CoreRun) (s : State) : State :=
  match (coreOf s core.n).phase, (coreOf s core.n).task with
  | .recovering, some t =>
    if (coreOf s core.n).gated || !awake s 0 core.n then s
    else
      match taskOf (runsOnSpare core.n t s) t with
      | some k => restoreReads core k id (runsOnSpare core.n t s)
      | none => runsOnSpare core.n t s
  | _, _ => s

section
variable {cr : CoreRun} {n : ℕ} {k : Task} {s : State}

theorem exec_taskRestoreOnSpare (cr : CoreRun) (s : State) : exec (.taskRestoreOnSpare cr) s = run (spareRestored cr) s := by
  unfold exec
  rfl

theorem spareRestored_blind (cr : CoreRun) : Blind (spareRestored cr) := fun q s => by
  unfold spareRestored
  rw [coreOf_setPending, show awake (setPending q s) = awake s from rfl]
  split
  next t _ _ =>
    rw [show runsOnSpare cr.n t (setPending q s) = setPending q (runsOnSpare cr.n t s) from rfl,
      show taskOf (setPending q (runsOnSpare cr.n t s)) = taskOf (runsOnSpare cr.n t s) from rfl]
    split
    · rfl
    · split
      · exact restoreReads_setPending cr _ (fun _ _ => rfl) q _
      · rfl
  · rfl

theorem spareRestored_of (hn : cr.n = n) (hph : (coreOf s n).phase = .recovering) (ht : (coreOf s n).task = some k.id) (hk : taskOf s k.id = some k)
    (hg : (coreOf s n).gated = false) (ha : awake s 0 n = true) :
    taskOf (runsOnSpare n k.id s) k.id = some { k with st := .running, core := some n }
      ∧ spareRestored cr s = restoreReads cr { k with st := .running, core := some n } id (runsOnSpare n k.id s) := by
  subst hn
  have hfound : taskOf (runsOnSpare cr.n k.id s) k.id = some { k with st := .running, core := some cr.n } := by
    unfold runsOnSpare
    rw [taskOf_modTask (by intro; rfl)]
    exact congrArg (Option.map _) hk
  refine ⟨hfound, ?_⟩
  unfold spareRestored
  rw [hph, ht, hg, ha]
  dsimp only
  rw [hfound]
  rfl

theorem taskRestoreOnSpare_cases (hq : Quiet s) (hn : cr.n = n) (hph : (coreOf s n).phase = .recovering) (ht : (coreOf s n).task = some k.id)
    (hk : taskOf s k.id = some k) (hg : (coreOf s n).gated = false) (ha : awake s 0 n = true) :
    GivesThen (.taskRestoreOnSpare cr) s (restoreReads cr { k with st := .running, core := some n } id (runsOnSpare n k.id s))
      ∧ (k.saved = false → cr.tb = [] → k.regs.tbPoison = [] → Gives (.taskRestoreOnSpare cr) s
        (modTask k.id (fun k => { k with regs := { k.regs with planes := reloaded k.regs } }) (runsOnSpare n k.id s))) := by
  obtain ⟨hfound, hbody⟩ := spareRestored_of hn hph ht hk hg ha
  obtain ⟨k', hk'⟩ : ∃ k' : Task, k' = { k with st := .running, core := some n } := ⟨_, rfl⟩
  rw [← hk'] at hfound hbody ⊢
  have hid : k'.id = k.id := hk' ▸ rfl
  have hquiet : Quiet (runsOnSpare n k.id s) := quiet_modTask (hq.of_tasks rfl) (by intro; rfl) (by intro; rfl)
  refine ⟨givesThen_run (exec_taskRestoreOnSpare cr s) (spareRestored_blind cr) hbody, fun hsaved htb hp =>
    gives_run (exec_taskRestoreOnSpare cr s) (spareRestored_blind cr) (hbody.trans ?_) (quiet_modTask hquiet (by intro; rfl) (by intro; rfl))⟩
  have hclean := restoreReads_clean (cr := cr) (k := k') (x := k') (f := id) rfl (hk' ▸ hsaved) htb (hid.symm ▸ hfound) (hk' ▸ hp)
  rw [← hid]
  exact hclean

end

/-! ## The statement -/

/-- Settles O27: a residue check and a keyed write act on the core as it stands; a fence exchanges the cores, and what it stops or restarts
keeps the cores in their places. -/
theorem residueAndFencing : Obligations.ResidueAndFencing := by
  intro n s hq
  refine ⟨fun h => gives_of_effect (exec_residueCheck n true s) hq ((residueChecked_blind n true [] s).trans (congrArg _ (residueChecked_stray true h))) rfl,
    fun k h ht hk hc hp => gives_run (exec_residueCheck n true s) (residueChecked_blind n true) (residueChecked_task true h ht hk hc hp)
      (quiet_modTask hq (by intro; rfl) (by intro; rfl)),
    fun h hst => givesThen_run (exec_residueCheck n false s) (residueChecked_blind n false) (residueChecked_bad hst h),
    fun ok h ht => gives_run (exec_residueCheck n ok s) (residueChecked_blind n ok) (residueChecked_none ok h ht) hq,
    fun v hm hv hn hst => tcFenceWrite_active hm hv hn hst,
    fun v hm hv h => tcFenceWrite_other hq hm hv h,
    ?_, ?_⟩
  · intro cr k u hn hph ht hk hg ha hu
    subst hu
    exact taskRestoreOnSpare_cases hq hn hph ht hk hg ha
  · intro cls status u hst hu
    subst hu
    obtain ⟨hout, hempty⟩ := fenceCore_leaves (cls := cls) (status := status) hst
    refine ⟨hout, hempty, fun m hm => ?_, fun hno => fenceCore_noSpare hst hno, fun k ht hk hph hrec hmin => ?_,
      fun t p ht hph hp => fenceCore_saving hst ht hph hp⟩
    · obtain ⟨hin, hrank, -⟩ := fenceCore_spare (cls := cls) (status := status) hst hm
      exact ⟨hin, hrank⟩
    · obtain ⟨heq, k', hk', hregs, hwaits, hpasses, hready, hcore⟩ := fenceCore_eq_fencedWith (cls := cls) (status := status) hst ht hk hph hrec hmin
      obtain ⟨hspare, hno⟩ := fencedWith_task (cls := cls) (status := status) hk'
      cases hsp : spareCore s with
      | none => exact ⟨k', heq ▸ hno hsp, hregs, hwaits, hpasses, fun m h => absurd h.symm (Option.some_ne_none m),
          fun _ => ⟨hready, hcore⟩⟩
      | some m =>
        obtain ⟨htask, hon, hrec'⟩ := hspare m hsp
        obtain ⟨-, -, hroused⟩ := fenceCore_spare (cls := cls) (status := status) hst hsp
        refine ⟨{ k' with st := .running, core := some m }, heq ▸ htask, hregs, hwaits, hpasses, fun j hj => ?_,
          fun h => absurd h (Option.some_ne_none m)⟩
        obtain rfl := Option.some.inj hj
        exact ⟨rfl, rfl, heq ▸ hon, heq ▸ hrec', hroused⟩

end Sys2Proof.Machine
end
